-- ==== Sys2Proof/Word.lean ====
section
/-! DEFINITION. Words, bytes and lanes of the Aelzar A1152, and the plainest arithmetic on them (R9, R14). -/

namespace Sys2Proof

/-- A byte (R9). -/
abbrev Byte := BitVec 8

/-- A 64-bit register, scalar register or descriptor word (R165, R476). -/
abbrev Word := BitVec 64

/-- One 32-bit lane of a vector register or one accumulator word (R139, R165). -/
abbrev Lane := BitVec 32

/-- Core number 0 to 191 (R6). -/
abbrev CoreId := Fin 192

/-- Stack number 0 to 15 (R6). -/
abbrev StackId := Fin 16

/-- Partition number 0 to 15 (R24). -/
abbrev PartId := Fin 16

/-- DMA channel 0 to 7 (R24). -/
abbrev ChanId := Fin 8

/-- Onlan port 0 to 11: 0 to 9 fabric, 10 and 11 mirror (R393, R479). -/
abbrev PortId := Fin 12

/-- Stream identifier 0 to 16,383 (R14). -/
abbrev StreamId := Fin 16384

/-- Queue: 64p + q for work queue q of partition p, and 1,024 for the control queue (R308). -/
abbrev QueueId := Fin 1025

/-- A requester of register accesses (R476): 0 the physical function, p + 1 virtual function p,
17 the on-device view. -/
abbrev Requester := Fin 18

end Sys2Proof
end

