-- ==== Sys2Proof/Syntax.lean ====
section
/-! DEFINITION. The commands of the block: one constructor of `Instr` for each row of spec/opcode_table.json, in the
table's order, and the plain data that the commands carry. What the module's surroundings supply (host words read, sensor
readings, the free decisions of the runtime firmware, physical errors) stands in the operands. -/

namespace Sys2Proof

/-- A physical error in stored data that an access meets, as the surroundings supply it (R202, R253, R254): none; `n` damaged symbols of the
80-byte line or `n` flipped bits of the scratchpad word at an address; a line whose tag does not match; a line that holds another ciphertext and
tag than the base die last wrote there, as one moved from another address or written past it does (R451). The address is a scratchpad offset for
a core's own instruction, and a 48-bit device address for a DMA channel's or a stack's access. -/
inductive PhysErr where
  | ok
  | damaged (addr n : Nat)
  | wrongTag (addr : Nat)
  | found (addr : Nat) (cipher : List Byte) (tag : BitVec 64)
deriving DecidableEq, Repr

/-- An operand of a command, with the physical error that the accesses it asks for meet. -/
structure Met (α : Type) where
  val : α
  err : PhysErr := .ok
deriving DecidableEq, Repr

/-- What a check of stored data finds (R202, R254): no error; a corrected one; an uncorrectable one; a tag mismatch, each at an address. -/
inductive Ecc where
  | ok
  | corrected (addr : Nat)
  | uncorrectable (addr : Nat)
  | tagFail (addr : Nat)
deriving DecidableEq, Repr

/-- An error that an access to accumulator memory meets (R142): none; a corrected one; an uncorrectable word; a residue
mismatch of a block sum. -/
inductive TileErr where
  | ok | corrected | uncorrectable | residue
deriving DecidableEq, Repr

/-- The scope of a stop or resume request (R70). -/
inductive StopScope where
  | module
  | part (p : PartId)
  | context (p : PartId) (h : BitVec 16)
deriving DecidableEq, Repr

/-- The source of a stop request, with its report code (R75). -/
inductive StopSource where
  | descriptor | firmware | jormir | registerWrite
deriving DecidableEq, Repr

/-- Sensor readings at a boundary or at a watch sample (R494, R499). -/
structure PowerMeas where
  groupW  : List Nat := []   -- per hall group, W
  hottest : List Nat := []   -- per hall, hottest die in °C
  stackC  : List Nat := []   -- per stack, °C
  vin     : Nat := 6000      -- 10 mV units
  iin     : Nat := 0         -- 10 mA units
  pin     : Nat := 0         -- W
  inlet   : Nat := 0         -- °C
  boardW  : Nat := 0
  lossW   : Nat := 0
  ioW     : Nat := 0
  stacksW : Nat := 0
deriving DecidableEq, Repr

/-- One entry of a window table that the runtime firmware asks Jormir to open or close (R219 to R221). -/
inductive WindowChange where
  | openOut (slot : Nat) (part : Nat) (dstModule : Nat) (dstWindow : Nat) (len : Nat) (epoch : BitVec 16)
  | closeOut (slot : Nat)
  | openIn (win : Nat) (part : Nat) (ctx : BitVec 16) (base len : Nat) (srcModule srcPart : Nat) (epoch : BitVec 16)
      (bindCore : Option Nat) (bindCnt : Nat) (bindRow : Bool)
  | closeIn (win : Nat)
deriving DecidableEq, Repr

/-- A slot of a placed staircase: the physical core, its region and its stage index (R159, R160, R357). -/
structure SlotPlace where
  core  : Nat
  off   : Nat
  len   : Nat
  stage : Nat := 0
  base  : Nat := 0           -- first program-store index of the image
  entry : Nat := 0           -- program-store index of the entry instruction
  count : Nat := 0           -- instructions of the image
  lowered : Bool := true     -- a lowered stage program; false for an extension program
  prog  : Nat := 0           -- which of the graph's extension programs it is
deriving DecidableEq, Repr

/-- A placement that the placement engine has decided and whose data movement has completed (R349, R353, R357). -/
structure PlaceCommit where
  part    : Nat
  graph   : Nat              -- handle
  slots   : List SlotPlace
  images  : List (Nat × List (Nat × Word))   -- (core, program-store index and word): what lowering made; a word not given is 0
  prefill : Nat := 0         -- galleries in the prefill role, as a bit mask
  reason  : Nat := 1
  untracked : List (Nat × Nat × Nat) := []   -- (core, tracker entries in use, tensor number) left untracked (R124)
  scratchHeld : Bool := false
  scratch : List (Nat × Nat × List Byte) := []   -- stationary layouts written to scratchpads: core, offset, bytes (R350)
  stat    : List Nat := []   -- bytes of the stationary layouts that each slot's program uses, held in scratchpad or not (R350)
deriving DecidableEq, Repr

/-- The hints of a graph's body (R342, R350, and the Placement hints table); the layout of their section is not in the spec. -/
structure Hints where
  pin : Bool := false
  stackWeights : Bool := false
  galleryCount : Option Nat := none
  sameHall : Bool := false
deriving DecidableEq, Repr

/-- What a boundary takes from the module's surroundings and from the free decisions of the runtime firmware. -/
structure BoundaryIn where
  meas     : PowerMeas := {}
  budget   : List (Nat × Nat) := []          -- partition, prefill token budget T (R344)
  frames   : List (Nat × Nat) := []          -- (stack, frame) in the order the firmware offers them (R248)
  windows  : List WindowChange := []         -- R221
  places   : List PlaceCommit := []          -- R357
  heads    : List (Nat × Nat) := []          -- (host address, head word) read at this boundary (R311, R480)
  railOk   : List Bool := []                 -- per hall, the rail monitor of R495
  lengthUs : Nat := 0                        -- open-to-open length of the tick that closes (R63)
  homes    : List (Nat × Nat) := []          -- stream, new home stack: moves whose copy has completed (R278)
  evict    : List (Nat × Nat) := []          -- (partition, graph handle) evictions decided (R342)
  grants   : List (Nat × Bool × Nat × Nat) := []  -- (partition, use KV or WEIGHTS, stack, frame): destinations of moves (R248)
  acks     : List (Nat × Nat) := []          -- (partition, STATUS): seals acknowledged inside step 6's bound (R419, R420)
  kemFails : List Nat := []                  -- partitions created in step 1 whose KEM key fails its pairwise consistency test (R434)
deriving DecidableEq, Repr

/-- Data that the front end reads from host memory along with a descriptor (R235, R270, R303, R318, R319). -/
structure FetchAux where
  patches : List (BitVec 128) := []          -- the entries of HANDLE_C (R319)
  params  : List Byte := []                  -- the LEN_B bytes of HANDLE_B (R318)
  record  : BitVec 1024 := 0                 -- the stream record (R270)
  binds   : List (BitVec 32) := []           -- the binding list of HANDLE_C (R303)
  image   : List Byte := []                  -- the whole Iluip image (R303, R304)
  extAt   : Nat := 0                         -- where the image's body ends and its extension programs follow (R303)
  digest  : Option (List (Nat × Nat) × List (Nat × Nat) × Nat) := none  -- result-digest declaration (R461)
  prompt  : List (BitVec 32) := []           -- the prompt's tokens (R270)
  hints   : Hints := {}                      -- the hint section of the image's body
  scales  : List (Nat × BitVec 32) := []     -- tensor scales that the entries of a patch list change (R127)
  head    : Option (BitVec 32) := none       -- the completion head word, read where the credit is short (R311)
deriving DecidableEq, Repr

/-- A weight tile: the places of its bytes in the bound contents, in the order of its layout, and how often each gallery reads it in a tick
(R349). -/
structure WeightTile where
  src   : List Nat
  reads : List Nat := []
deriving DecidableEq, Repr

/-- What placement and lowering made of a LOAD_GRAPH or a reload (R307, R341, R343), or the status of the stage at which it
failed: the placement, its WEIGHTS frames, the contents of the bound host buffers in binding order, the weight tiles in the order in which
placement takes them, and the image's default parameter block. -/
inductive LoadResult where
  | done (place : PlaceCommit) (weights : List (Nat × Nat)) (bound : List Byte) (tiles : List WeightTile) (params : List Byte)
  | failed (status : Byte)
deriving DecidableEq, Repr

/-- What one receive lane hears in LANE_ID, and what its transmitter's driver finds (R396). -/
structure LaneObs where
  signal : Bool := true      -- there is a signal
  term   : Bool := true      -- its transmitter finds a far-end termination
  dc     : Bool := false     -- its driver reports a DC fault
  module : Byte              -- the identifier heard: module, port and lane
  port   : BitVec 4
  lane   : BitVec 3
  inverted : Bool := false   -- heard inverted
deriving DecidableEq, Repr

/-- What a partner sends of its identity (R453): its product CA's certificate and its identity certificate, each as its signed bytes and its
signature, and its signature over the exchange's transcript. -/
structure PartnerCerts where
  ca       : List Byte × List Byte := ([], [])
  identity : List Byte × List Byte := ([], [])
  sig      : List Byte := []
deriving DecidableEq, Repr

/-- What training finds on a port (R396 to R398, R453). -/
structure TrainObs where
  lanes   : List LaneObs     -- receive lanes 0 to 7
  crossed : Bool := false    -- the partner hears this port's transmitters on a port other than the one that this port hears
  other   : Bool := false    -- what it hears under this module's identifier is another module
  delayNs : BitVec 16
  failed  : Nat := 0         -- attempts in which a test flit failed in VERIFY, before one that did not
  kem     : List Byte := []  -- what the partner sent in the ML-KEM-1024 exchange
  transcript : BitVec 512 := 0   -- the digest of the exchange's transcript
  first   : Bool := false    -- this end takes the first of the two keys for its own direction
  certs   : PartnerCerts := {}
deriving DecidableEq, Repr

/-- A request to a function's BAR0 or to the on-device view (R473, R476): who makes it, and whether it arrives on the function's IDE stream. -/
structure BarReq where
  who : Requester
  ide : Bool := false
deriving DecidableEq, Repr

/-- What a requester sends to establish an SPDM session (R454, R474): the endpoint, its part of the ML-KEM-1024 exchange, and the digest of the
session's transcript. -/
structure SpdmReq where
  endpoint : Fin 19
  kem      : List Byte := []
  transcript : BitVec 512 := 0
deriving DecidableEq, Repr

/-- A flit after its header word (R400): its payload of 244 bytes, and its CRC. -/
structure FlitBody where
  payload : List Byte
  crc     : BitVec 32
deriving DecidableEq, Repr

/-- A row that a remap proposal or the start-up self test names (R204, R262, R508). -/
inductive RemapTarget where
  | scratch (c : CoreId) (bank row : Nat)
  | stack (s : StackId) (bank row : Nat)
deriving DecidableEq, Repr

/-- What boot finds (R506, R508). -/
structure BootObs where
  monitorOk  : Bool := true   -- a Jormir image verifies and meets its minimum
  recordOk   : Bool := true   -- the record bank in force is read back whole
  spareOk    : Bool := true   -- so is the other bank
  cryptoOk   : Bool := true   -- cryptographic self tests: entropy start-up, known answers, the DRBG at its instantiation, pairwise consistency of the boot's key pairs (R434)
  firmwareOk : Bool := true   -- runtime firmware verification
  crossingsOk : Bool := true
  ringOk     : Bool := true
  stackFail  : BitVec 16 := 0
  galleryFail : BitVec 24 := 0
  repairs    : List RemapTarget := []   -- worn rows
  otherBank  : Bool := false  -- the Jormir image of the active flash bank does not verify, and the other bank's does
deriving DecidableEq, Repr

/-- The requester of a stack access: the partition, context and epoch it carries (R366, R441). -/
structure Req where
  part  : Nat
  ctx   : BitVec 16
  epoch : BitVec 16
deriving DecidableEq, Repr

/-- The block enables of R486. -/
inductive EngineEn where
  | seq
  | sae (s : StackId)
  | stk (s : StackId)
deriving DecidableEq, Repr

/-- The purposes of hall ring mode (R299). -/
inductive RingPurpose where
  | rebuild | selfTest | testUnlock
deriving DecidableEq, Repr

/-- The copy of a primary partition's state that has reached its shadow (R415): the shadow's partition, the contents of what is copied, and the
records that say where it stands. -/
structure SyncCopy where
  part : PartId
  data : List Byte
  trailer : List Byte
deriving DecidableEq, Repr

/-- The commands, one constructor for each row of the table. `w` of an instruction of the core command set is bits 55:0
of its word (R164); its opcode is the row's. -/
inductive Instr where
  -- the tick
  | nominalClose (b : BoundaryIn)
  | tickDrained (b : BoundaryIn)
  | tickOpen
  | limitPoint
  | progressSample
  | tickGenEnable (value : Word) (b : BoundaryIn)
  | tickGenDisable (value : Word)
  | tickSyncInEdge (sinceUs : Nat) (b : BoundaryIn)
  | barrierArrive (n : PortId) (hdr : BitVec 256)
  | barrierRelease (m : PortId × BitVec 256)
  | barrierCompensatedStart (b : BoundaryIn)
  | barrierTimeout (b : BoundaryIn)
  -- stop and resume
  | softStopModule
  | softStopPartition (p : PartId)
  | softStopContext (p : PartId) (h : BitVec 16)
  | hardStopModule
  | hardStopPartition (p : PartId)
  | resumeModule (b : BoundaryIn)
  | resumePartition (p : PartId)
  | resumeContext (p : PartId) (h : BitVec 16)
  | stopRequestInternal (src : StopSource) (hard : Bool) (scope : StopScope)
  | hardStopComplete (scope : StopScope) (cycles : Word)
  | backgroundOpComplete (id : Nat) (data : List Byte) (e : PhysErr)
  -- flights
  | flightEntry (c : CoreId)
  | wtickResume (c : CoreId)
  | flightEnd (c : CoreId)
  -- the core command set
  | nop (c : CoreId) (w : BitVec 56)
  | endFlight (c : CoreId) (w : BitVec 56)
  | wtick (c : CoreId) (w : BitVec 56)
  | movi (c : CoreId) (w : BitVec 56)
  | movhi (c : CoreId) (w : BitVec 56)
  | salu (c : CoreId) (w : BitVec 56)
  | movs (c : CoreId) (w : BitVec 56)
  | br (c : CoreId) (w : BitVec 56)
  | loop (c : CoreId) (w : BitVec 56)
  | waitc (c : CoreId) (w : BitVec 56)
  | clrc (c : CoreId) (w : BitVec 56)
  | qsync (c : CoreId) (w : BitVec 56)
  | ldp (c : CoreId) (w : BitVec 56)
  | lds (c : CoreId) (w : BitVec 56) (e : PhysErr)
  | sts (c : CoreId) (w : BitVec 56)
  | fence (c : CoreId) (w : BitVec 56)
  | fenceReleaseDone (c : CoreId) (e : PhysErr)
  | signal (c : CoreId) (w : BitVec 56)
  | signalDelivery (i : Nat)
  | sload (c : CoreId) (w : BitVec 56) (e : PhysErr)
  | pass (c : CoreId) (w : BitVec 56) (e : PhysErr) (te : TileErr)
  | drain (c : CoreId) (w : BitVec 56) (te : TileErr)
  | valu (c : CoreId) (w : BitVec 56)
  | vint (c : CoreId) (w : BitVec 56)
  | vcvt (c : CoreId) (w : BitVec 56)
  | vfunc (c : CoreId) (w : BitVec 56)
  | vred (c : CoreId) (w : BitVec 56)
  | vmerge (c : CoreId) (w : BitVec 56)
  | vload (c : CoreId) (w : BitVec 56) (e : PhysErr)
  | vrqst (c : CoreId) (w : Met (BitVec 56))
  | vst (c : CoreId) (w : BitVec 56)
  | vmovx (c : CoreId) (w : BitVec 56)
  | dma (c : CoreId) (w : BitVec 56) (e : PhysErr)
  | fill (c : CoreId) (w : BitVec 56)
  | copy (c : CoreId) (w : Met (BitVec 56))
  -- DMA channels
  | dmaCopy (c : CoreId) (ch : ChanId) (e : PhysErr)
  | movingLayout (c : CoreId) (ch : ChanId) (e : PhysErr)
  | stationaryLayout (c : CoreId) (ch : ChanId) (e : PhysErr)
  | dmaGather (c : CoreId) (ch : ChanId) (e : PhysErr)
  | remote (c : CoreId) (ch : ChanId) (e : PhysErr)
  | attention (c : CoreId) (ch : ChanId) (e : PhysErr)
  | candidates (c : CoreId) (ch : ChanId) (e : PhysErr)
  | dmaConfirmation (c : CoreId) (ch : ChanId)
  | remapProposal (t : RemapTarget)
  -- stacks
  | stackLineRead (s : StackId) (off : Nat) (rq : Req) (e : PhysErr)
  | stackLineWrite (s : StackId) (off : Nat) (data : List Byte) (rq : Req) (e : PhysErr)
  | scrub (s : StackId) (off : Nat) (e : PhysErr)
  | fcFill (s : StackId) (cmd : BitVec 256) (fromJormir : Bool)
  | fcCopy (s : StackId) (cmd : BitVec 256) (fromJormir : Bool)
  | move (s : StackId) (cmd : BitVec 256) (fromJormir : Bool)
  | fcGather (s : StackId) (cmd : BitVec 256) (fromJormir : Bool)
  | verifyZero (s : StackId) (cmd : BitVec 256) (fromJormir : Bool)
  | fcCommandCompletion (s : StackId) (seq : BitVec 32) (e : PhysErr)
  | stkMoveStalled (s : StackId) (seq : BitVec 32)
  | moveAbandon (s : StackId) (seq : BitVec 32)
  | dieIdleEnter (s : StackId) (die : Fin 16) (requestSameCycle : Bool)
  | dieSelfRefreshReached (s : StackId) (die : Fin 16)
  | dieWakeComplete (s : StackId) (die : Fin 16)
  | dieRestoreComplete (s : StackId) (die : Fin 16)
  -- attention and the sequencer
  | attentionSlice (s : StackId) (e : PhysErr)
  | attentionRowComplete (s : StackId) (row : Nat)
  | candidateListMerge (i : Nat)
  | visit (stream : StreamId) (head : BitVec 32) (ns : BitVec 16)
  | ringCheck (stream : StreamId) (head : BitVec 32)
  | hallRingStart (p : PartId) (purpose : RingPurpose) (stream : StreamId) (positions : Nat)
  -- submission
  | doorbellPoll (q : QueueId) (word : Word)
  | descriptorFetch (q : QueueId) (d : BitVec 512) (aux : FetchAux) (head : BitVec 32)
  | submitNop (q : QueueId) (d : BitVec 512) (aux : FetchAux)
  | launch (q : QueueId) (d : BitVec 512) (aux : FetchAux)
  | loadGraph (q : QueueId) (d : BitVec 512) (aux : FetchAux)
  | loadGraphComplete (id : Nat) (r : LoadResult)
  | unloadGraph (q : QueueId) (d : BitVec 512) (aux : FetchAux)
  | patch (q : QueueId) (d : BitVec 512) (aux : FetchAux)
  | submitCopy (q : QueueId) (d : BitVec 512) (aux : FetchAux)
  | alloc (q : QueueId) (d : BitVec 512) (aux : FetchAux) (frames : List (Nat × Nat))
  | mapHost (q : QueueId) (d : BitVec 512) (aux : FetchAux)
  | free (q : QueueId) (d : BitVec 512) (aux : FetchAux)
  | fenceCreate (q : QueueId) (d : BitVec 512) (aux : FetchAux)
  | streamOpen (q : QueueId) (d : BitVec 512) (aux : FetchAux)
  | streamCancel (q : QueueId) (d : BitVec 512) (aux : FetchAux)
  | reloadComplete (p : PartId) (graph : BitVec 32) (r : LoadResult)
  -- recovery
  | contextFence (p : PartId) (h : BitVec 16)
  | contextDrainComplete (p : PartId) (h : BitVec 16)
  | contextClearComplete (p : PartId) (h : BitVec 16)
  | engineFault (unit : Byte)
  | engineResetComplete (unit : Byte)
  | engineResetTimeout (unit : Byte)
  | landing3Request (p : PartId)
  | landing4
  | landingBoundExpiry (id : Nat)
  | galleryClearComplete (g : Fin 24) (readsZero : Bool)
  | firmwareWatchdog
  | firmwareRemeasure (image : List Byte)
  | knownAnswerTest (passes : Bool)
  -- Onlan
  | onlPortEnable (n : PortId)
  | portTrainingComplete (n : PortId) (r : TrainObs)
  | onlRetrain (n : PortId)
  | fecLockLoss (n : PortId) (lane : Fin 8)
  | onlPortDisable (n : PortId)
  | linkNak (n : PortId) (ackSeq : BitVec 12)
  | replayTimeout (n : PortId)
  | segmentTag (n : PortId) (segment : Word) (tag : BitVec 128)
  | segmentIdleClose (n : PortId)
  | write (n : PortId) (hdr : BitVec 256) (data : Met (List Byte))
  | writeAck (n : PortId) (hdr : BitVec 256)
  | messageResend (dst : Byte) (msgSeq : BitVec 32)
  | heartbeat (n : PortId) (hdr : BitVec 256)
  | heartbeatTimer
  | heartbeatAck (n : PortId) (hdr : BitVec 256)
  | mirrorData (n : PortId) (hdr : BitVec 256) (data : List Byte)
  | mirrorSeal (n : PortId) (hdr : BitVec 256) (sealHdr : BitVec 1024) (trailer : List Byte)
  | mirrorAck (n : PortId) (hdr : BitVec 256)
  | shadowSyncComplete (sync : SyncCopy)
  | leaseExpiry
  | claimWatchdog
  | graceExpiry (p : PartId)
  | pairClaimInChange (level : Bool)
  | mirPromoted (p : PartId)
  | mirDisable (value : Word)
  -- security
  | tamperResponse (sensors : BitVec 4) (supplyAllows : Bool)
  | zeroise (value : Word)
  | guardedWrite (r : BarReq) (off : Nat) (value : Word)
  | attestationRequest (fn : Fin 17) (nonce : BitVec 256)
  | unlockNonceRequest
  | unlockRequest (token : BitVec 1536)
  | unlockExpiry
  | spdmSession (endpoint : SpdmReq)
  | ideKm (fn : Fin 17) (keySet : Bool)
  | kSetGo (fn : Fin 17) (keySet : Bool)
  | lockInterface (p : PartId)
  | startInterface (p : PartId)
  | stopInterface (p : PartId)
  | resultDigestComplete (seq : Nat)
  | pldmRequest (sensor : Byte)
  | pldmFirmwareUpdate (component : BitVec 16) (version : BitVec 32) (image : List Byte) (sig : List Byte)
  | firmwareActivate (component : BitVec 16)
  -- host interface
  | functionLevelResetVf (p : PartId)
  | functionLevelResetPf
  | d3hotEntry (fn : Fin 17)
  | pcieLinkTrained (flit : Bool) (width : BitVec 5) (speed : BitVec 4)
  | registerWrite (r : BarReq) (off : Nat) (bytes : Nat) (value : Word)
  | halfRegisterRead (r : BarReq) (off : Nat)
  | wakePeakRead (s : StackId)
  | partitionCreate (p : PartId)
  | partitionDestroy (p : PartId)
  | ctxCreate (p : PartId) (value : Word)
  | ctxDestroy (p : PartId) (value : Word)
  | engineEnClear (e : EngineEn)
  | feDisable (value : Word)
  -- supply and power
  | undervoltage
  | overvoltage
  | railFault (rail : BitVec 4)
  | thermalFault
  | inRush
  | faultRestart
  | faultLatchRelease
  | powerUp
  | boot (o : BootObs)
  | powerDown
  | pwrCycleN
  | moduleResetNAssert
  | moduleResetNRelease
  | pciePerstN
  | idleHoldEntry
  | watchReq
  | watchEntryComplete
  | watchSample (m : PowerMeas)
  | wake (management : Bool)
  | watchExitComplete
  -- debug and test
  | sample (unit : Byte) (mask : BitVec 4)
  | reset (unit : Byte) (mask : BitVec 4)
  | sampleReset (unit : Byte) (mask : BitVec 4)
  | ringSelect (value : Word)
  | eventRecordAccept (unit : Byte) (heads : List (Nat × Nat))
  | eventRingRoom (ring : Fin 17) (head : BitVec 32)
  | traceRecord (unit : Byte) (rec : BitVec 128) (room : Bool)
  | apertureAccess (off : Nat) (isWrite : Bool) (value : Word)
  | errorInject (value : Word)
  | extest
  | samplePreload (pins : Word)
  | idcode
  | clamp
  | highz
  | extestPulse
  | extestTrain
  | bypass
  | tapReset
  -- the last rows of the table
  | flit (n : PortId) (hdr : Word) (body : FlitBody)
  | pcieReadCompletion (tag : Nat) (data : Met (List Byte))
  | alwaysOnDomainStart (straps : BitVec 2)
  | alwaysOnDomainReset
  | entropyHealthTest (passes : Bool)
  | jormirSelfCheck (passes : Bool)
  | tdiError (p : PartId)
  | vfEnable (n : Fin 17)
deriving DecidableEq, Repr

end Sys2Proof
end

