-- ==== Sys2Proof/Decode.lean ====
section
/-! DEFINITION. The commands that words of the table spell. -/

namespace Sys2Proof

/-- The command that a word spells by the table's bits. Every row of the table has an empty list of fields: a command is
named by its mnemonic alone, so no word spells one (log entry 9). -/
def decodeTableWord (_nbits _w : Nat) : Option Instr := none

end Sys2Proof
end

