-- ==== Sys2Proof/Config.lean ====
section
/-! DEFINITION. What the module's spec leaves open or names without defining: free values (no body, so nothing can be proved
of one), and the cryptographic primitives as uninterpreted functions. -/

namespace Sys2Proof.Config

/-- Free value: nanoseconds between two stamped events (timing is out of scope; log entry 4). -/
opaque elapsed : Nat → BitVec 64

/-- Free value: 64 bits drawn from the CTR_DRBG (R119, R271, R433; log entry 5). -/
opaque drbg : Nat → BitVec 64

/-- Free value: cycles that a core, a stop or a wait took (log entry 4). -/
opaque cycles : Nat → BitVec 64

/-- SHAKE256 with a 64-byte output (R433): uninterpreted (log entry 6). -/
opaque shake256 : List Byte → BitVec 512

/-- Ed448 verification (R433): public key, message and signature; uninterpreted (log entry 6). -/
opaque ed448Verify : List Byte → List Byte → List Byte → Bool

/-- Byte i of the Ed448 signature of a message by a key of the module (R433, R461); uninterpreted (log entry 6). -/
opaque signature : List Byte → Nat → Byte

/-- AES-256 of one block, first byte most significant: key and block (R433); uninterpreted (log entry 6). -/
opaque aes : BitVec 256 → BitVec 128 → BitVec 128

/-- The 256 bits that an ML-KEM-1024 exchange gives both ends: the number of the draw that this end brings to it, and what the partner sent
(R433, R453); uninterpreted (log entry 6). -/
opaque mlkem : Nat → List Byte → BitVec 256

/-- The root key that the physical unclonable function of this module gives with its helper data (R447); uninterpreted (log entry 6). -/
opaque pufRoot : List Byte → BitVec 256

/-- What manufacture wrote into the configuration record: 0 the helper data of R447, 1 the wrapped private half of the identity key. -/
opaque factoryRecord : Nat → List Byte

/-- The Tabfold public keys of the configuration record (R445): 0 firmware, 1 debug. -/
opaque tabfoldKey : Nat → List Byte

/-- Free value: a byte of host memory as a read finds it, where no command carries it: the number of the draw and the address (log
entry 3). -/
opaque hostByte : Nat → Nat → Byte

/-- The image of a component that the flash was programmed with: 1 Jormir, 2 the runtime firmware (R2). -/
opaque factoryImage : Nat → List Byte

/-- The boot ROM's identity, which measurement slot 0 is extended with (R455). -/
opaque bootRom : List Byte

/-- The public key of a key pair (R457): 0 the Tabfold root, 1 the Aelzar product CA, 2 the module's identity key, n + 3 the pair made with draw n. -/
opaque publicKey : Nat → List Byte

/-- Version of an image, as its signed manifest states it (R446); uninterpreted (log entry 6). -/
opaque imageVersion : List Byte → Nat

/-- The signed manifest of an image asks for its version to become the minimum (R446); uninterpreted (log entry 6). -/
opaque raisesMinimum : List Byte → Bool

/-- The lists and numbers that a configuration record update holds, by section (R445, R475); uninterpreted (log entry 27). -/
opaque recordList : List Byte → Nat → List (Nat × Nat × Nat × Nat)

/-- A number of a configuration record update, by section (R445, R475); uninterpreted (log entry 27). -/
opaque recordNat : List Byte → Nat → Nat

/-- The public keys that a configuration record update holds: 0 firmware, 1 debug (R445, R475); uninterpreted (log entry 27). -/
opaque recordKeys : List Byte → Nat → List (List Byte)

/-- The public key that a certificate's signed bytes certify (R453, R457); uninterpreted (log entry 6). -/
opaque certKey : List Byte → List Byte

/-- What a measurement slot is extended with for a value whose encoding the spec does not give: slot and value (R455). -/
opaque measured : Nat → Nat → List Byte

/-- The module's serial number and its identity digest (R459, R461). -/
opaque serial : BitVec 128

/-- The last 32 bits of the nonce of an Onlan segment: the direction, that of the end which takes the first key or the other, and the port
number. The spec gives no layout (R453). -/
opaque segmentWord : Bool → Nat → BitVec 32

/-- The hardware revision, as the configuration record gives it (R479, R534). -/
opaque revision : BitVec 8

/-- SHAKE256 of the module's identity public key (R461). -/
def identityDigest : BitVec 512 := shake256 (publicKey 2)

/-- The module identifier of the root of this module's barrier group, which no register gives (R65; log entry 26). -/
opaque barrierRoot : Nat

/-- Free value: what a check makes of an error beyond what its code is said to correct or detect, by address and extent: 0 no error, 1 a
corrected one, 2 an uncorrectable one, 3 a tag mismatch (R142, R202, R253; log entry 141). -/
opaque beyondCode : Nat → Nat → BitVec 2

/-- Byte i of the K or V row (false: K) of a head that a graph's stage programs compute for a position, from the weights' digest, the scale
generation and the tokens that the position attends to, in order: digest, generation, tokens, layer, head (R283, R285; log entry 101). -/
opaque kvByte : BitVec 512 → Nat → List Nat → Nat → Nat → Bool → Nat → Byte

/-- The batch operand of the Iluip operator library reference, of entries given as (stream, first, count, input, frame) (R347): its layout is
not in the spec (log entry 36). -/
opaque batchBytes : List (List Nat) → List Byte

/-- Free value: the host fault status of an unspecified answer (log entry 7). -/
opaque unstated : Nat → BitVec 64

/-- The code of a hint in a placement record (R357), which the spec does not give: 0 STACK_WEIGHTS, 1 GALLERY_COUNT, 2 SAME_HALL,
3 PHASE_HINT, as the model numbers them. -/
opaque hintCode : Nat → Nat

end Sys2Proof.Config
end

