-- ==== Sys2Proof/Machine/Formats.lean ====
section
/-! DEFINITION. The element formats and their codes (R77 to R103): exact values as dyadic numbers, decoding, and the one
rounding and encoding operation that accumulation (R110) and requantisation (R116, R121) share. -/

namespace Sys2Proof.Machine

/-- The sixteen format codes of R77. -/
inductive Fmt where
  | fp4 | e3m2 | e2m3 | e4m3 | e5m2 | int4 | uint4 | int8 | uint8 | bf16 | f16 | f32 | i32 | e8m0
deriving DecidableEq, Repr

/-- The format that a 4-bit code names; codes 0xE and 0xF are reserved (R77). -/
def Fmt.ofCode : Nat → Option Fmt
  | 0 => some .fp4 | 1 => some .e3m2 | 2 => some .e2m3 | 3 => some .e4m3 | 4 => some .e5m2
  | 5 => some .int4 | 6 => some .uint4 | 7 => some .int8 | 8 => some .uint8 | 9 => some .bf16
  | 10 => some .f16 | 11 => some .f32 | 12 => some .i32 | 13 => some .e8m0 | _ => none

/-- Width in bits (R77). -/
def Fmt.width : Fmt → Nat
  | .fp4 | .int4 | .uint4 => 4
  | .e3m2 | .e2m3 => 6
  | .e4m3 | .e5m2 | .int8 | .uint8 | .e8m0 => 8
  | .bf16 | .f16 => 16
  | .f32 | .i32 => 32

/-- The formats that carry a block-scale array (R77, R82). -/
def Fmt.blockScaled : Fmt → Bool
  | .fp4 | .e3m2 | .e2m3 => true
  | _ => false

/-- The integer formats with zero points (R92, R94). -/
def Fmt.isInt : Fmt → Bool
  | .int4 | .uint4 | .int8 | .uint8 => true
  | _ => false

/-- FP8 of either kind. -/
def Fmt.isFp8 : Fmt → Bool
  | .e4m3 | .e5m2 => true
  | _ => false

/-- A format in the Operand role of R77. -/
def Fmt.isOperand : Fmt → Bool
  | .i32 | .e8m0 => false
  | _ => true

/-- A format in the Store role of R77. -/
def Fmt.isStore : Fmt → Bool
  | .e8m0 => false
  | _ => true

/-- Smallest and largest integer of an integer format, INT32 among them (R92, R96). -/
def Fmt.intRange : Fmt → Int × Int
  | .int4 => (-8, 7)
  | .uint4 => (0, 15)
  | .int8 => (-128, 127)
  | .uint8 => (0, 255)
  | _ => (-2147483648, 2147483647)

/-- An exact value: NaN, an infinity, or a signed dyadic number `m * 2 ^ e`; a zero keeps its sign (R78, R90). -/
inductive FVal where
  | nan
  | inf (neg : Bool)
  | fin (neg : Bool) (m : Nat) (e : Int)
deriving DecidableEq, Repr

/-- Treatment of the top codes of a floating format. -/
inductive TopCodes where
  | ieee    -- top exponent holds infinities and NaNs (E5M2, BF16, binary16, binary32)
  | e4m3    -- only the all-ones code of each sign is NaN (R88)
  | tiny    -- no infinity; the negative-zero code is the only NaN (R83, R85)
deriving DecidableEq, Repr

/-- Field widths of a floating format. -/
structure FloatFmt where
  ebits : Nat
  mbits : Nat
  bias  : Nat
  top   : TopCodes
deriving DecidableEq, Repr

/-- The layout of a floating format (R83, R85, R88, R89, R97). -/
def Fmt.float? : Fmt → Option FloatFmt
  | .fp4 => some ⟨2, 1, 1, .tiny⟩
  | .e3m2 => some ⟨3, 2, 3, .tiny⟩
  | .e2m3 => some ⟨2, 3, 1, .tiny⟩
  | .e4m3 => some ⟨4, 3, 7, .e4m3⟩
  | .e5m2 => some ⟨5, 2, 15, .ieee⟩
  | .bf16 => some ⟨8, 7, 127, .ieee⟩
  | .f16 => some ⟨5, 10, 15, .ieee⟩
  | .f32 => some ⟨8, 23, 127, .ieee⟩
  | _ => none

/-- binary32. -/
def FloatFmt.f32 : FloatFmt := ⟨8, 23, 127, .ieee⟩

/-- BF16. -/
def FloatFmt.bf16 : FloatFmt := ⟨8, 7, 127, .ieee⟩

/-- binary16. -/
def FloatFmt.f16 : FloatFmt := ⟨5, 10, 15, .ieee⟩

/-- Exponent of the unit in the last place of the subnormals. -/
def FloatFmt.qmin (f : FloatFmt) : Int := 1 - (f.bias : Int) - (f.mbits : Int)

/-- The value of a code (R83 to R90, R97). -/
def FloatFmt.decode (f : FloatFmt) (code : Nat) : FVal :=
  let neg := (code >>> (f.ebits + f.mbits)) % 2 = 1
  let ex := (code >>> f.mbits) % 2 ^ f.ebits
  let ma := code % 2 ^ f.mbits
  let ordinary : FVal :=
    if ex = 0 then .fin neg ma f.qmin
    else .fin neg (2 ^ f.mbits + ma) ((ex : Int) - (f.bias : Int) - (f.mbits : Int))
  match f.top with
  | .ieee =>
    if ex = 2 ^ f.ebits - 1 then (if ma = 0 then .inf neg else .nan) else ordinary
  | .e4m3 => if ex = 2 ^ f.ebits - 1 ∧ ma = 2 ^ f.mbits - 1 then .nan else ordinary
  | .tiny => if neg ∧ ex = 0 ∧ ma = 0 then .nan else ordinary

/-- The value of an E8M0 scale code (R79). -/
def decodeScale (code : Nat) : FVal :=
  if code % 256 = 255 then .nan else .fin false 1 ((code % 256 : Nat) - 127 : Int)

/-- The signed value of a two's-complement or unsigned integer code (R92, R96). -/
def Fmt.decodeInt (f : Fmt) (code : Nat) : Int :=
  match f with
  | .int4 => if code % 16 ≥ 8 then (code % 16 : Nat) - 16 else (code % 16 : Nat)
  | .uint4 => (code % 16 : Nat)
  | .int8 => if code % 256 ≥ 128 then (code % 256 : Nat) - 256 else (code % 256 : Nat)
  | .uint8 => (code % 256 : Nat)
  | _ => if code % 4294967296 ≥ 2147483648 then (code % 4294967296 : Nat) - 4294967296 else (code % 4294967296 : Nat)

/-- The exact value of an integer. -/
def FVal.ofInt (i : Int) : FVal := .fin (decide (i < 0)) i.natAbs 0

/-- The exact value of any element code; an E8M0 code is a scale (R79). -/
def Fmt.decode (f : Fmt) (code : Nat) : FVal :=
  match f.float? with
  | some ff => ff.decode code
  | none => if f = .e8m0 then decodeScale code else .ofInt (f.decodeInt code)

/-- Sign of a value; NaN counts as positive. -/
def FVal.neg? : FVal → Bool
  | .nan => false
  | .inf n => n
  | .fin n _ _ => n

/-- A zero of either sign. -/
def FVal.isZero : FVal → Bool
  | .fin _ 0 _ => true
  | _ => false

/-- NaN. -/
def FVal.isNan : FVal → Bool
  | .nan => true
  | _ => false

/-- Negation; a NaN stays NaN. -/
def FVal.negate : FVal → FVal
  | .nan => .nan
  | .inf n => .inf (!n)
  | .fin n m e => .fin (!n) m e

/-- Magnitude; a NaN stays NaN. -/
def FVal.abs : FVal → FVal
  | .nan => .nan
  | .inf _ => .inf false
  | .fin _ m e => .fin false m e

/-- The exact product (R106); infinity times zero is NaN. -/
def FVal.mul : FVal → FVal → FVal
  | .nan, _ => .nan
  | _, .nan => .nan
  | .inf a, .inf b => .inf (a != b)
  | .inf a, .fin b m _ => if m = 0 then .nan else .inf (a != b)
  | .fin a m _, .inf b => if m = 0 then .nan else .inf (a != b)
  | .fin a m e, .fin b n k => .fin (a != b) (m * n) (e + k)

/-- `m * 2 ^ e` as a multiple of `2 ^ lo`, for `lo ≤ e`. -/
def alignTo (m : Nat) (e lo : Int) : Nat := m * 2 ^ (e - lo).toNat

/-- The exact sum; an exact zero is +0 unless both addends are −0, and ∞ − ∞ is NaN (R104, R110, R99). -/
def FVal.add : FVal → FVal → FVal
  | .nan, _ => .nan
  | _, .nan => .nan
  | .inf a, .inf b => if a = b then .inf a else .nan
  | .inf a, .fin _ _ _ => .inf a
  | .fin _ _ _, .inf b => .inf b
  | .fin a m e, .fin b n k =>
    let lo := min e k
    let x : Int := if a then -(alignTo m e lo : Int) else alignTo m e lo
    let y : Int := if b then -(alignTo n k lo : Int) else alignTo n k lo
    let t := x + y
    if t = 0 then .fin (a && b && m == 0 && n == 0) 0 0
    else .fin (decide (t < 0)) t.natAbs lo

/-- `a ≤ b` of two magnitudes `m * 2 ^ e` and `n * 2 ^ k`. -/
def magLe (m : Nat) (e : Int) (n : Nat) (k : Int) : Bool :=
  let lo := min e k
  decide (alignTo m e lo ≤ alignTo n k lo)

/-- Numeric order of two values that are not NaN, with −0 equal to +0. -/
def FVal.numLe : FVal → FVal → Bool
  | .nan, _ => false
  | _, .nan => false
  | .inf true, _ => true
  | _, .inf false => true
  | .inf false, _ => false
  | _, .inf true => false
  | .fin a m e, .fin b n k =>
    if m = 0 ∧ n = 0 then true
    else if a && !b then true
    else if !a && b then decide (m = 0 ∧ n = 0)
    else if a then magLe n k m e else magLe m e n k

/-- Rounding modes of R115, SR with the 24-bit random value of R117 for the element. -/
inductive Round where
  | rne | rtz | sr (r : Nat)
deriving DecidableEq, Repr

/-- Round the magnitude `m * 2 ^ e` to a multiple of `2 ^ q` under R116; the answer counts those multiples. -/
def roundTo (mode : Round) (m : Nat) (e q : Int) : Nat :=
  if q ≤ e then m * 2 ^ (e - q).toNat
  else
    let k := (q - e).toNat
    let lo := m / 2 ^ k
    let rem := m % 2 ^ k
    if rem = 0 then lo
    else match mode with
      | .rtz => lo
      | .rne =>
        if 2 * rem > 2 ^ k ∨ (2 * rem = 2 ^ k ∧ lo % 2 = 1) then lo + 1 else lo
      | .sr r =>
        let t := rem * 2 ^ 24 / 2 ^ k
        if r ≥ 2 ^ 24 - t then lo + 1 else lo

/-- The quantum exponent of a non-zero magnitude in a format whose exponent range is unbounded above. -/
def FloatFmt.quantum (f : FloatFmt) (m : Nat) (e : Int) : Int :=
  max ((m.log2 : Int) + e - (f.mbits : Int)) f.qmin

/-- The code of the largest finite magnitude of a format, sign bit clear. -/
def FloatFmt.largestCode (f : FloatFmt) : Nat :=
  match f.top with
  | .ieee => (2 ^ f.ebits - 2) * 2 ^ f.mbits + (2 ^ f.mbits - 1)
  | .e4m3 => 2 ^ (f.ebits + f.mbits) - 2
  | .tiny => 2 ^ (f.ebits + f.mbits) - 1

/-- The canonical NaN of R91. -/
def FloatFmt.nanCode (f : FloatFmt) : Nat :=
  match f.top with
  | .ieee =>
    -- E5M2 writes 0x7F; the long formats set the top fraction bit only
    if f.mbits = 2 then 127 else (2 ^ f.ebits - 1) * 2 ^ f.mbits + 2 ^ (f.mbits - 1)
  | .e4m3 => 127
  | .tiny => 2 ^ (f.ebits + f.mbits)

/-- The code of a sign. -/
def FloatFmt.signCode (f : FloatFmt) (neg : Bool) : Nat := if neg then 2 ^ (f.ebits + f.mbits) else 0

/-- The code of `c * 2 ^ q` where `q` is the quantum of that magnitude, or one binade below after a carry. -/
def FloatFmt.pack (f : FloatFmt) (c : Nat) (q : Int) : Nat :=
  let (c, q) := if c = 2 ^ (f.mbits + 1) then (2 ^ f.mbits, q + 1) else (c, q)
  if c < 2 ^ f.mbits then c
  else (q - f.qmin + 1).toNat * 2 ^ f.mbits + (c - 2 ^ f.mbits)

/-- What a conversion produces: the code, and whether it counts as a saturation or an invalid conversion (R121). -/
structure Conv where
  code : Nat
  sat  : Bool := false
  inv  : Bool := false
  toInf : Bool := false   -- an ordinary value became an infinity (R110, R114)
deriving DecidableEq, Repr

/-- Convert an exact value to a floating format: one rounding under R116, special and out-of-range values under R121. -/
def FloatFmt.encode (f : FloatFmt) (mode : Round) (saturate : Bool) : FVal → Conv
  | .nan => { code := f.nanCode }
  | .inf n =>
    if f.top = .ieee ∧ ¬ saturate then { code := f.signCode n + (2 ^ f.ebits - 1) * 2 ^ f.mbits }
    else { code := f.signCode n + f.largestCode, sat := true }
  | .fin n m e =>
    if m = 0 then { code := if f.top = .tiny then 0 else f.signCode n }
    else
      let q := f.quantum m e
      let c := roundTo mode m e q
      if c = 0 then { code := if f.top = .tiny then 0 else f.signCode n }
      else
        let code := f.pack c q
        if code ≤ f.largestCode then { code := f.signCode n + code }
        else if f.top = .ieee ∧ ¬ saturate ∧ mode ≠ .rtz then
          { code := f.signCode n + (2 ^ f.ebits - 1) * 2 ^ f.mbits, toInf := true }
        else { code := f.signCode n + f.largestCode, sat := true }

/-- An integer code of the format's width. -/
def Fmt.encodeInt (f : Fmt) (i : Int) : Nat := (i % (2 ^ f.width : Nat)).toNat

/-- Convert to an integer format with zero point `z` (R121, R122); INT32 takes no zero point and NaN becomes 0. -/
def Fmt.toInt (f : Fmt) (mode : Round) (z : Int) : FVal → Conv
  | .nan => { code := f.encodeInt (if f = .i32 then 0 else z), inv := true }
  | .inf n =>
    let r := f.intRange
    { code := f.encodeInt (if n then r.1 else r.2), sat := true }
  | .fin n m e =>
    let r := f.intRange
    let c := roundTo mode m e 0
    let i : Int := (if n then -(c : Int) else c) + (if f = .i32 then 0 else z)
    if i < r.1 then { code := f.encodeInt r.1, sat := true }
    else if i > r.2 then { code := f.encodeInt r.2, sat := true }
    else { code := f.encodeInt i }

/-- Convert an exact value to any store format (R120 to R122). -/
def Fmt.encode (f : Fmt) (mode : Round) (saturate : Bool) (z : Int) (v : FVal) : Conv :=
  match f.float? with
  | some ff => ff.encode mode saturate v
  | none => f.toInt mode z v

/-- binary32 of an exact value, rounded to nearest even. -/
def toF32 (v : FVal) : Lane := BitVec.ofNat 32 (FloatFmt.f32.encode .rne false v).code

/-- The value of a binary32 lane. -/
def ofF32 (l : Lane) : FVal := FloatFmt.f32.decode l.toNat

/-- The value of an INT32 lane. -/
def ofI32 (l : Lane) : FVal := .ofInt l.toInt

end Sys2Proof.Machine
end

