-- ==== Sys2Proof/Machine/Crypto.lean ====
section
/-! DEFINITION. The security functions of R433 over AES-256 and SHAKE256, which are uninterpreted: keys drawn and derived, AES-256-XTS lines
and their tags (R450, R451), AES-256-GCM (R404, R452), and the CRC-32C of a flit (R400). -/

namespace Sys2Proof.Machine

/-- `n` bytes of a number, least significant first. -/
def leBytes : Nat → Nat → List Byte
  | 0, _ => []
  | n + 1, x => BitVec.ofNat 8 x :: leBytes n (x / 256)

/-! ## Keys (R433, R447, R448) -/

/-- A 256-bit key drawn from the CTR_DRBG, of four draws from the n-th on. -/
def drawnKey (n : Nat) : BitVec 256 :=
  Config.drbg n ++ Config.drbg (n + 1) ++ Config.drbg (n + 2) ++ Config.drbg (n + 3)

/-- SHAKE256(root ‖ label): the key that a label names, of which a 256-bit use takes the first half (R447). -/
def derivedKey (root : BitVec 256) (label : String) : BitVec 512 :=
  Config.shake256 (leBytes 32 root.toNat ++ label.toList.map fun c => BitVec.ofNat 8 c.toNat)

/-- The 256-bit key that the low half of 64 bytes gives. -/
def keyLow (k : BitVec 512) : BitVec 256 := BitVec.ofNat 256 k.toNat

/-- The 256-bit key that the high half of 64 bytes gives. -/
def keyHigh (k : BitVec 512) : BitVec 256 := BitVec.ofNat 256 (k.toNat / 2 ^ 256)

/-! ## Blocks and GHASH (SP 800-38D) -/

/-- A block of up to 16 bytes, first byte most significant, padded with zeros. -/
def blockOf (l : List Byte) : BitVec 128 :=
  BitVec.ofNat 128 (((l ++ List.replicate 16 0).take 16).foldl (fun (a : Nat) (b : Byte) => 256 * a + b.toNat) 0)

/-- The blocks of a string of bytes, the last padded with zeros. -/
def ghashBlocks (l : List Byte) : List (BitVec 128) := (List.range ((l.length + 15) / 16)).map fun i => blockOf (l.drop (16 * i))

/-- The product of two blocks: bit 0 of the field is the most significant. -/
def gmul (x y : BitVec 128) : BitVec 128 :=
  ((List.range 128).foldl (fun (r : BitVec 128 × BitVec 128) i =>
    let z := if x.getLsbD (127 - i) then r.1 ^^^ r.2 else r.1
    (z, if r.2.getLsbD 0 then (r.2 >>> 1) ^^^ BitVec.ofNat 128 (0xE1 * 2 ^ 120) else r.2 >>> 1)) (0, y)).1

/-- GHASH of blocks under a hash key. -/
def ghash (h : BitVec 128) (bs : List (BitVec 128)) : BitVec 128 := bs.foldl (fun y b => gmul (y ^^^ b) h) 0

/-! ## AES-256-GCM with a 96-bit nonce (SP 800-38D) -/

/-- Byte i of the key stream. -/
def gcmStream (key : BitVec 256) (nonce i : Nat) : Byte :=
  let b := Config.aes key (BitVec.ofNat 128 (nonce % 2 ^ 96 * 2 ^ 32 + (i / 16 + 2) % 2 ^ 32))
  BitVec.ofNat 8 (b.toNat / 2 ^ (8 * (15 - i % 16)))

/-- Plaintext to ciphertext and back, from byte `at` of the stream on. -/
def gcmText (key : BitVec 256) (nonce : Nat) (l : List Byte) (first : Nat := 0) : List Byte :=
  l.zipIdx.map fun x => x.1 ^^^ gcmStream key nonce (first + x.2)

/-- The tag of additional data and ciphertext. -/
def gcmTag (key : BitVec 256) (nonce : Nat) (aad cipher : List Byte) : BitVec 128 :=
  let lens := BitVec.ofNat 128 (8 * aad.length * 2 ^ 64 + 8 * cipher.length)
  ghash (Config.aes key 0) (ghashBlocks aad ++ ghashBlocks cipher ++ [lens]) ^^^
    Config.aes key (BitVec.ofNat 128 (nonce % 2 ^ 96 * 2 ^ 32 + 1))

/-! ## Stack-memory lines (R450, R451) -/

/-- The keys of stack t, of which the first was drawn with draw n: XTS keys 0 and 1, tag keys 2 and 3. -/
def stackKey (n t i : Nat) : BitVec 256 := drawnKey (n + 16 * t + 4 * i)

/-- The tweak of a line: its index in bits 35:0 and the stack's number in bits 39:36. -/
def xtsTweak (st line : Nat) : BitVec 128 := BitVec.ofNat 128 (line % 2 ^ 36 + 2 ^ 36 * (st % 16))

/-- The 16 bytes of a 128-bit value, lowest first, as a block. -/
def leBlock (x : BitVec 128) : BitVec 128 := blockOf (leBytes 16 x.toNat)

/-- The mask of the next block of a data unit: the last one's times the primitive element, byte 0 the least significant. -/
def xtsNext (m : BitVec 128) : BitVec 128 := if m.getLsbD 127 then (m <<< 1) ^^^ 0x87 else m <<< 1

/-- A 64-byte line under AES-256-XTS with keys k1 and k2. -/
def xtsEncrypt (k1 k2 : BitVec 256) (tweak : BitVec 128) (line : List Byte) : List Byte :=
  let m0 := leBlock (Config.aes k2 (leBlock tweak))
  ((List.range 4).foldl (fun (r : List Byte × BitVec 128) i =>
    let m := leBlock r.2
    let c := Config.aes k1 (blockOf (line.drop (16 * i)) ^^^ m) ^^^ m
    (r.1 ++ (leBytes 16 c.toNat).reverse, xtsNext r.2)) ([], m0)).1

/-- The 64-bit tag of a line (R451): the leftmost bits of AES-256(K_t2, GHASH_H(C ‖ A)), where H = AES-256(K_t1, 0). -/
def lineTag (k1 k2 : BitVec 256) (tweak : BitVec 128) (cipher : List Byte) : BitVec 64 :=
  let x := ghash (Config.aes k1 0) (ghashBlocks cipher ++ [leBlock tweak])
  BitVec.ofNat 64 ((Config.aes k2 x).toNat / 2 ^ 64)

/-! ## CRC-32C (R400) -/

/-- CRC-32C of bytes: reflected polynomial 0x82F6_3B78, start and final value 0xFFFF_FFFF. -/
def crc32c (l : List Byte) : BitVec 32 :=
  let bit1 (c : Nat) : Nat := if c % 2 = 1 then (c / 2) ^^^ 0x82F63B78 else c / 2
  let byte1 (c : Nat) (b : Byte) : Nat := (List.range 8).foldl (fun c _ => bit1 c) (c ^^^ b.toNat)
  BitVec.ofNat 32 ((l.foldl byte1 0xFFFFFFFF) ^^^ 0xFFFFFFFF)

end Sys2Proof.Machine
end

