-- ==== Sys2Proof/Machine/Arith.lean ====
section
/-! DEFINITION. Arithmetic (R100 to R123, R147 to R150, R182): permitted pairs and their geometry, the dot product of one
output element, the stochastic generator, the functions, the total order, reductions and the candidate merge. -/

namespace Sys2Proof.Machine

/-- Accumulation formats, with the acc codes of R179. -/
inductive AccFmt where
  | f32 | bf16 | i32
deriving DecidableEq, Repr

/-- acc code 0b11 is reserved (R179). -/
def AccFmt.ofCode : Nat → Option AccFmt
  | 0 => some .f32 | 1 => some .bf16 | 2 => some .i32 | _ => none

/-- The rate r of a permitted operand pair; none for a pair or accumulation that R100 does not list. -/
def pairRate (a b : Fmt) (acc : AccFmt) : Option Nat :=
  let fp6 (f : Fmt) : Bool := f = .e3m2 ∨ f = .e2m3
  let i8 (f : Fmt) : Bool := f = .int8 ∨ f = .uint8
  let i4 (f : Fmt) : Bool := f = .int4 ∨ f = .uint4
  let h (f : Fmt) : Bool := f = .bf16 ∨ f = .f16
  let short (f : Fmt) : Bool := f = .fp4 ∨ fp6 f ∨ f.isFp8
  match acc with
  | .i32 =>
    if i4 a && i4 b then some 4
    else if (i4 a || i8 a) && (i4 b || i8 b) then some 2 else none
  | .f32 =>
    if a = .fp4 ∧ b = .fp4 then some 4
    else if short a && short b then some 2
    else if h a && h b then some 1
    else if a = .f32 ∧ b = .f32 then some 1 else none
  | .bf16 =>
    if a = .fp4 ∧ b = .fp4 then some 4
    else if (fp6 a && short b) || (short a && fp6 b) then some 2
    else if short a && short b then some 4 else none

/-- Counts of R114, per tile operation. -/
structure DotCounts where
  nanBlocks : Nat := 0
  infBlocks : Nat := 0
  infRounds : Nat := 0
  clamps    : Nat := 0
deriving DecidableEq, Repr

/-- Sum of two counts. -/
def DotCounts.add (a b : DotCounts) : DotCounts :=
  { nanBlocks := a.nanBlocks + b.nanBlocks, infBlocks := a.infBlocks + b.infBlocks,
    infRounds := a.infRounds + b.infRounds, clamps := a.clamps + b.clamps }

/-- A block class of R107. -/
inductive BlockClass where
  | nan | inf (neg : Bool) | ordinary
deriving DecidableEq, Repr

/-- A product that is infinite or of magnitude at least 2^128 (R107). -/
def FVal.huge : FVal → Bool
  | .inf _ => true
  | .nan => false
  | .fin _ m e => decide (m ≠ 0 ∧ 128 ≤ (m.log2 : Int) + e)

/-- The class of a floating block, first row that applies (R107); `nanElem` says that an element or a scale is NaN. -/
def classify (nanElem : Bool) (ps : List FVal) : BlockClass :=
  if nanElem || ps.any FVal.isNan then .nan
  else
    let pos := ps.any fun p => p.huge && !p.neg?
    let neg := ps.any fun p => p.huge && p.neg?
    if pos && neg then .nan else if pos then .inf false else if neg then .inf true else .ordinary

/-- The window sum of an ordinary block (R108). -/
def windowSum (ps : List FVal) : FVal :=
  let exps := ps.filterMap fun p =>
    match p with
    | .fin _ m e => if m = 0 then none else some ((m.log2 : Int) + e)
    | _ => none
  match exps with
  | [] => .fin (ps.all FVal.neg?) 0 0
  | x :: xs =>
    let q := xs.foldl max x - 64
    let t : Int := ps.foldl (fun acc p =>
      match p with
      | .fin n m e =>
        let c := if q ≤ e then m * 2 ^ (e - q).toNat else m / 2 ^ (q - e).toNat
        acc + (if n then -(c : Int) else c)
      | _ => acc) 0
    if t = 0 then .fin false 0 0 else .fin (decide (t < 0)) t.natAbs q

/-- One block of the two operands: the elements that meet, and the two E8M0 codes (R105). -/
structure Block where
  xy : List (FVal × FVal)
  sa : Nat
  sw : Nat
deriving DecidableEq, Repr

/-- One floating block added to an accumulator value (R104, R110). -/
def dotBlock (f : FloatFmt) (acc : Nat) (b : Block) : Nat × DotCounts :=
  let ps := b.xy.map fun xy => xy.1.mul xy.2
  let nanElem := decide (b.sa % 256 = 255) || decide (b.sw % 256 = 255) ||
    b.xy.any fun xy => xy.1.isNan || xy.2.isNan
  let av := f.decode acc
  match classify nanElem ps with
  | .nan => (f.nanCode, { nanBlocks := 1 })
  | .inf n => ((f.encode .rne false (av.add (.inf n))).code, { infBlocks := 1 })
  | .ordinary =>
    let s := ((windowSum ps).mul (decodeScale b.sa)).mul (decodeScale b.sw)
    let c := f.encode .rne false (av.add s)
    (c.code, { infRounds := if c.toInf then 1 else 0 })

/-- sat32 of R113: the clamped sum and whether it clamped. -/
def sat32 (x : Int) : Int × Bool :=
  if x < -2147483648 then (-2147483648, true)
  else if x > 2147483647 then (2147483647, true) else (x, false)

/-- One integer block: the differences d that meet (R95, R104, R113). -/
def dotBlockInt (acc : Nat) (xy : List (Int × Int)) : Nat × DotCounts :=
  let t := xy.foldl (fun a p => a + p.1 * p.2) 0
  let r := sat32 (Fmt.i32.decodeInt acc + t)
  (Fmt.i32.encodeInt r.1, { clamps := if r.2 then 1 else 0 })

/-- All blocks of a pass for one floating element, in ascending order (R111). -/
def dotFloat (f : FloatFmt) : Nat → List Block → Nat × DotCounts
  | acc, [] => (acc, {})
  | acc, b :: bs =>
    let r := dotBlock f acc b
    let rest := dotFloat f r.1 bs
    (rest.1, r.2.add rest.2)

/-- All blocks of a pass for one integer element. -/
def dotInt : Nat → List (List (Int × Int)) → Nat × DotCounts
  | acc, [] => (acc, {})
  | acc, b :: bs =>
    let r := dotBlockInt acc b
    let rest := dotInt r.1 bs
    (rest.1, r.2.add rest.2)

/-- The stochastic generator: 24 random bits of a destination element (R117). -/
def stochastic (seed : Word) (tid : Nat) (idx : Nat) : Nat :=
  let x : Word := seed ^^^ (BitVec.ofNat 64 tid * 0x9E3779B97F4A7C15#64)
    ^^^ (BitVec.ofNat 64 (idx % 2 ^ 48) * 0xD1B54A32D192ED03#64)
  let x := (x ^^^ (x >>> 30)) * 0xBF58476D1CE4E5B9#64
  let x := (x ^^^ (x >>> 27)) * 0x94D049BB133111EB#64
  let x := x ^^^ (x >>> 31)
  (x >>> 40).toNat

/-! Functions of R147: nearest binary32, ties to even. -/

/-- Newton steps toward the integer square root from above. -/
def isqrtGo : Nat → Nat → Nat → Nat
  | 0, _, x => x
  | k + 1, n, x =>
    let y := (x + n / x) / 2
    if y < x then isqrtGo k n y else x

/-- Integer square root. -/
def isqrt (n : Nat) : Nat := if n = 0 then 0 else isqrtGo 200 n (2 ^ (n.log2 / 2 + 1))

/-- `c` with a sticky bit below it: what rounds as the exact value whose floor is `c`. -/
def sticky (c : Nat) (inexact : Bool) : Nat := 2 * c + (if inexact then 1 else 0)

/-- Square root, rounded to nearest even (R147, R99). -/
def fSqrt : FVal → Lane
  | .nan => toF32 .nan
  | .inf n => toF32 (if n then .nan else .inf false)
  | .fin n m e =>
    if m = 0 then toF32 (.fin n 0 0)
    else if n then toF32 .nan
    else
      let par := (e % 2).toNat
      let m' := m * 2 ^ (64 + par)
      let s := isqrt m'
      toF32 (.fin false (sticky s (s * s != m')) ((e - par - 64) / 2 - 1))

/-- Reciprocal. -/
def fRecip : FVal → Lane
  | .nan => toF32 .nan
  | .inf n => toF32 (.fin n 0 0)
  | .fin n m e =>
    if m = 0 then toF32 (.inf n)
    else
      let k := m.log2 + 40
      toF32 (.fin n (sticky (2 ^ k / m) (2 ^ k % m != 0)) (-e - k - 1))

/-- Division of two values, rounded to nearest even (R99, R283). -/
def fDiv (a b : FVal) : Lane :=
  match a, b with
  | .nan, _ => toF32 .nan
  | _, .nan => toF32 .nan
  | .inf _, .inf _ => toF32 .nan
  | .inf x, .fin y _ _ => toF32 (.inf (x != y))
  | .fin x _ _, .inf y => toF32 (.fin (x != y) 0 0)
  | .fin x m e, .fin y n k =>
    if n = 0 then toF32 (if m = 0 then .nan else .inf (x != y))
    else
      let sh := n.log2 + 40
      let q := m * 2 ^ sh / n
      toF32 (.fin (x != y) (sticky q (m * 2 ^ sh % n != 0)) (e - k - sh - 1))

/-- Reciprocal square root. -/
def fRsqrt : FVal → Lane
  | .nan => toF32 .nan
  | .inf n => toF32 (if n then .nan else .fin false 0 0)
  | .fin n m e =>
    if m = 0 then toF32 (.inf n)
    else if n then toF32 .nan
    else
      let par := (e % 2).toNat
      let m' := m * 2 ^ par
      let e' := e - par
      let k := m'.log2 + 40
      let s := isqrt (2 ^ (2 * k) / m')
      toF32 (.fin false (sticky s (s * s * m' != 2 ^ (2 * k))) (-(e' / 2) - k - 1))

/-- Bounds of `2 ^ f` for a fraction of `bits` bits, in units of `2 ^ -p`: repeated square roots of 2. -/
def exp2Go (p fr : Nat) : Nat → Nat → Nat → Nat → Nat → Nat × Nat
  | 0, _, _, lo, hi => (lo, hi)
  | i + 1, rlo, rhi, lo, hi =>
    let rlo := isqrt (rlo * 2 ^ p)
    let rhi := isqrt (rhi * 2 ^ p) + 1
    if (fr >>> i) % 2 = 1 then exp2Go p fr i rlo rhi (lo * rlo / 2 ^ p) (hi * rhi / 2 ^ p + 1)
    else exp2Go p fr i rlo rhi lo hi

/-- `2 ^ (n + fr / 2 ^ bits)` rounded, tried at rising precision until both bounds round alike. -/
def exp2Try (n : Int) (fr bits : Nat) : List Nat → Lane
  | [] => 0
  | p :: ps =>
    let r := exp2Go p fr bits (2 * 2 ^ p) (2 * 2 ^ p) (2 ^ p) (2 ^ p)
    let lo := toF32 (.fin false r.1 (n - p))
    let hi := toF32 (.fin false r.2 (n - p))
    if lo = hi ∨ ps = [] then lo else exp2Try n fr bits ps

/-- exp2 (R147). -/
def fExp2 : FVal → Lane
  | .nan => toF32 .nan
  | .inf n => toF32 (if n then .fin false 0 0 else .inf false)
  | .fin n m e =>
    if m = 0 then toF32 (.fin false 1 0)
    else if (m.log2 : Int) + e ≥ 8 then toF32 (if n then .fin false 0 0 else .inf false)
    else if 0 ≤ e then
      let x : Int := m * 2 ^ e.toNat
      toF32 (.fin false 1 (if n then -x else x))
    else
      let bits := (-e).toNat
      let x : Int := if n then -(m : Int) else m
      let d : Int := (2 ^ bits : Nat)
      exp2Try (x / d) (x % d).toNat bits [200, 250]

/-- Bits of `log2 y` for `y` in [1, 2) in units of `2 ^ -p`, by repeated squaring; `up` rounds each square up. -/
def log2Go (p : Nat) (up : Bool) : Nat → Nat → Nat → Nat
  | 0, _, acc => acc
  | k + 1, y, acc =>
    let y2 := y * y / 2 ^ p + (if up then 1 else 0)
    if y2 ≥ 2 * 2 ^ p then log2Go p up k (y2 / 2 + (if up then 1 else 0)) (2 * acc + 1)
    else log2Go p up k y2 (2 * acc)

/-- log2 (R147). -/
def fLog2 : FVal → Lane
  | .nan => toF32 .nan
  | .inf n => toF32 (if n then .nan else .inf false)
  | .fin n m e =>
    if m = 0 then toF32 (.inf true)
    else if n then toF32 .nan
    else
      let l := m.log2
      let n := (l : Int) + e
      if m = 2 ^ l then toF32 (.ofInt n)
      else
        let y := m * 2 ^ 250 / 2 ^ l
        let lo := log2Go 250 false 96 y 0
        let x : Int := n * (2 ^ 96 : Nat) + lo
        -- log2 of a number that is no power of two is irrational: the floor with a sticky bit rounds as the exact value
        toF32 (.fin (decide (x < 0)) ((2 * x + 1).natAbs) (-97))

/-! Order, reductions and merge. -/

/-- Rank key of a binary32 lane in the total order of R149: NaN lowest, −0 below +0. -/
def rankKey (l : Lane) : Nat :=
  match ofF32 l with
  | .nan => 0
  | _ => if l.getMsbD 0 then 2147483648 - l.toNat % 2147483648 else 2147483649 + l.toNat

/-- Equal under R149: an infinity equals itself, and every NaN equals every NaN. -/
def outranks (a b : Lane) (ia ib : Nat) : Bool :=
  decide (rankKey a > rankKey b) || (decide (rankKey a = rankKey b) && decide (ia < ib))

/-- One level of adjacent binary32 additions (R148). -/
def pairSums : List Lane → List Lane
  | a :: b :: t => toF32 ((ofF32 a).add (ofF32 b)) :: pairSums t
  | l => l

/-- `k` levels of adjacent additions. -/
def pairSumsN : Nat → List Lane → List Lane
  | 0, l => l
  | k + 1, l => pairSumsN k (pairSums l)

/-- The sum reduction of 128 lanes (R148). -/
def laneSum (l : List Lane) : Lane := (pairSumsN 7 l).headD 0

/-- The highest-ranked lane as it stands, and its index (R149). -/
def topLane (l : List Lane) : Lane × Nat :=
  match l.zipIdx with
  | [] => (0, 0)
  | x :: xs => xs.foldl (fun a b => if outranks b.1 a.1 b.2 a.2 then b else a) x

/-- The highest-ranked lane's value and its index; a NaN is written canonically (R91, R149). -/
def laneMax (l : List Lane) : Lane × Nat :=
  ((if (ofF32 (topLane l).1).isNan then toF32 .nan else (topLane l).1), (topLane l).2)

/-- Insert a pair into a ranked list. -/
def rankInsert (x : Lane × Nat) : List (Lane × Nat) → List (Lane × Nat)
  | [] => [x]
  | y :: ys => if outranks x.1 y.1 x.2 y.2 then x :: y :: ys else y :: rankInsert x ys

/-- The 64 highest-ranked pairs of a multiset (R150); a NaN is written canonically (R91). -/
def top64 (ps : List (Lane × Nat)) : List (Lane × Nat) :=
  ((ps.foldl (fun acc p => (rankInsert p acc).take 64) []).map fun p =>
    if (ofF32 p.1).isNan then (toF32 .nan, p.2) else p)

/-- The pairs of a candidate register: values in lanes 0 to 63, indices in lanes 64 to 127 (R150). -/
def candPairs (l : List Lane) : List (Lane × Nat) :=
  (l.take 64).zip ((l.drop 64).map BitVec.toNat)

/-- A candidate register from 64 pairs. -/
def candRegister (ps : List (Lane × Nat)) : List Lane :=
  ps.map Prod.fst ++ ps.map fun p => BitVec.ofNat 32 p.2

/-- The top-64 merge of a list with a row of 128 values (R150). -/
def vMerge (list row : List Lane) (base : Nat) : List Lane :=
  candRegister (top64 (candPairs list ++ row.zipIdx.map fun p => (p.1, (base + p.2) % 2 ^ 32)))

/-! Lane operations of R182. -/

/-- Truth of a comparison. -/
def truth (b : Bool) : Lane := if b then 0xFFFFFFFF#32 else 0

/-- A lane as it is written: any NaN is the canonical one (R90, R91). -/
def canonLane (a : Lane) : Lane := if (ofF32 a).isNan then toF32 .nan else a

/-- VALU: sub codes 0x00 to 0x0B on one lane. A select takes vc by its bits: R182 says non-zero and not whether −0 is, and here it is, so it selects
va (DESIGN CHOICE, log entry 153). -/
def valuLane (sub : Nat) (a b c : Lane) : Lane :=
  let x := ofF32 a
  let y := ofF32 b
  let anyNan := x.isNan || y.isNan
  match sub with
  | 0 => toF32 (x.add y)
  | 1 => toF32 (x.add y.negate)
  | 2 => toF32 (x.mul y)
  | 3 => toF32 ((x.mul y).add (ofF32 c))
  | 4 => if anyNan then toF32 .nan else if rankKey a ≤ rankKey b then a else b
  | 5 => if anyNan then toF32 .nan else if rankKey a ≥ rankKey b then a else b
  | 6 => toF32 x.abs
  | 7 => toF32 x.negate
  | 8 => truth (!anyNan && x.numLe y && y.numLe x)
  | 9 => truth (!anyNan && x.numLe y && !(y.numLe x))
  | 10 => truth (!anyNan && x.numLe y)
  | _ => canonLane (if c ≠ 0 then a else b)

/-- VINT: sub codes 0x00 to 0x0B on one lane. -/
def vintLane (sub : Nat) (a b c : Lane) : Lane :=
  let k := b.toNat % 32
  match sub with
  | 0 => a + b
  | 1 => a - b
  | 2 => a * b
  | 3 => a <<< k
  | 4 => a >>> k
  | 5 => a.sshiftRight k
  | 6 => a &&& b
  | 7 => a ||| b
  | 8 => a ^^^ b
  | 9 => truth (a == b)
  | 10 => truth (a.slt b)
  | _ => if c ≠ 0 then a else b

/-- The exact value of a VCVT source lane: binary32, INT32, BF16, binary16 (R182, R183). -/
def vcvtSource (sub : Nat) (a : Lane) : FVal :=
  match sub with
  | 0 => ofF32 a
  | 1 => ofI32 a
  | 2 => FloatFmt.bf16.decode (a.toNat % 65536)
  | _ => FloatFmt.f16.decode (a.toNat % 65536)

/-- VFUNC: square root, reciprocal, reciprocal square root, exp2, log2. -/
def vfuncLane (sub : Nat) (a : Lane) : Lane :=
  match sub with
  | 0 => fSqrt (ofF32 a)
  | 1 => fRecip (ofF32 a)
  | 2 => fRsqrt (ofF32 a)
  | 3 => fExp2 (ofF32 a)
  | _ => fLog2 (ofF32 a)

/-- A value converted to a lane under R103: binary32, infinite beyond the range. -/
def loadLane (v : FVal) : Lane := toF32 v

end Sys2Proof.Machine
end

