-- ==== Sys2Proof/Machine/State.lean ====
section
/-! DEFINITION. The state of the block: plain data, every piece of state that the spec names. Sparse data is held in
canonical maps (`SMap`): keys strictly rising, no entry equal to what an unlisted key reads as. -/

namespace Sys2Proof.Machine

/-- Sparse data by key in canonical form: keys strictly rising, no entry equal to the default. -/
abbrev SMap (α : Type) := List (Nat × α)

/-- The named reasons for a fault. No command of this block ends in one: raising an error flag or containing a context
is an effect on the state. -/
inductive Fault where
  /-- Raised by nothing; safe. -/
  | none
deriving DecidableEq, Repr

/-- The named reasons for a refusal. -/
inductive Refusal where
  /-- Raised by an arm of `exec` that has no meaning yet; safe. -/
  | notModelled (mnemonic : String)
deriving DecidableEq, Repr

/-! ## Events (R520 to R529) -/

/-- One event record, its fields as in R520; `tick` is bits 31:0 of the tick number. -/
structure EventRec where
  time   : Word := 0
  tick   : Nat := 0
  kind   : Nat := 0
  prio   : Nat := 3
  coal   : Bool := false
  superseded : Bool := false
  unit   : Nat := 0
  ctx    : Nat := 0
  part   : Option Nat := none
  repeats : Nat := 1
  d0     : Nat := 0
  d1     : Nat := 0
deriving DecidableEq, Repr

/-- Losses of a ring or of a unit's unsent records, by priority (R526). -/
structure LossCounts where
  err : Nat := 0
  warn : Nat := 0
  info : Nat := 0
  coal : Nat := 0
deriving DecidableEq, Repr

/-- A unit's event ring: the last 256 records, newest last, and the count ever written (R522); its unsent records
(R526) and its held per-tick records (R524). -/
structure UnitRing where
  recs   : List EventRec := []
  count  : Nat := 0
  unsent : List EventRec := []
  loss   : LossCounts := {}
  perTick : List EventRec := []
  traceLost : Nat := 0             -- trace records dropped at the unit since its last TRACE_LOSS record (R529)
deriving DecidableEq, Repr

/-- The router's state of one host ring: held records, their losses, and what has been written (R526, R480). -/
structure HostRing where
  held   : List EventRec := []
  loss   : LossCounts := {}
  alarms : List EventRec := []       -- queued alarm records, the physical function's ring only (R527)
  tail   : Nat := 0                  -- records written since the ring was set up
  head   : Nat := 0                  -- the consumer's head as last read
deriving DecidableEq, Repr

/-! ## Cores (R129 to R218) -/

/-- State of a half-slot (R140). -/
inductive HalfState where
  | closed
  | open32 (f : AccFmt)
  | openBf
deriving DecidableEq, Repr

/-- A half-slot of accumulator memory: its state and its elements, keyed by 128 × row + column; an unlisted element holds
what the opening pass put there, −0 or 0 (R140). -/
structure Half where
  st    : HalfState := .closed
  elems : SMap Lane := []
  bad   : Bool := false              -- a word of it failed its check, and fails it until it is written anew (R142, R364)
deriving DecidableEq, Repr

/-- The array's active stationary tile, as the last SLOAD left it: formats, geometry, and for each column its element
codes, its block-scale codes and its zero point (R131, R132, R179). -/
structure StatTile where
  fmt   : Fmt
  mov   : Fmt
  acc   : AccFmt
  rate  : Nat
  kw    : Nat
  nw    : Nat
  cols  : List (List Nat)
  scales : List (List Nat)
  zps   : List Int
deriving DecidableEq, Repr

/-- One level of the loop stack: first and last index of the body and the repetitions left (R169). -/
structure LoopLvl where
  first : Nat
  last  : Nat
  left  : Nat
deriving DecidableEq, Repr

/-- What a core's control core is doing. -/
inductive CorePhase where
  | idle                -- no flight
  | running
  | atWtick             -- at its wait-for-tick point (R176)
  | ended               -- END issued; queues and channels draining (R177)
  | halted              -- issues nothing further (R154, R165)
deriving DecidableEq, Repr

/-- An instruction waiting in the control queue behind a release fence (R174, R175). -/
inductive CtrlOp where
  | fence (scope : Nat) (stamp : Nat)
  | signal (core cnt inc : Nat)
  | load (xd off : Nat)               -- LDS
  | param (xd : Nat) (val : Word)     -- LDP
  | store (off : Nat) (val : Word)    -- STS
deriving DecidableEq, Repr

/-- A region of a staircase on a core (R160, R195). -/
structure Region where
  core : Nat
  off  : Nat
  len  : Nat
  stage : Nat := 0
  base : Nat := 0      -- first program-store index of the image
  count : Nat := 0     -- its instructions
  entry : Nat := 0     -- program-store index of the entry instruction
  lowered : Bool := true
deriving DecidableEq, Repr

/-- What a channel instruction does. Slot-relative addresses carry the translation made at issue (R159). -/
inductive DmaOp where
  | desc (d : BitVec 512) (src dst : Option Region)
  | fill (off n : Nat) (pattern : Lane)
  | copy (dst src n : Nat) (e : Ecc)     -- with the physical error that its source meets
deriving DecidableEq, Repr

/-- Progress of a channel instruction. -/
inductive DmaPhase where
  | queued              -- not yet taken
  | executed            -- every request issued; confirmation due once nothing is outstanding
  | failed              -- not confirmed, its channel takes nothing further (R217)
deriving DecidableEq, Repr

/-- One instruction held by a DMA channel (R188, R213 to R218). -/
structure DmaEnt where
  op    : DmaOp
  ce    : Bool := false
  cnt   : Nat := 0
  part  : Nat := 0
  ctx   : Nat := 0
  epoch : BitVec 16 := 0
  flight : Nat := 0
  region : Region                    -- the issuing flight's region
  slots : Nat := 0
  pos   : Nat := 0                   -- stage-program position of the instruction
  stamp : Nat := 0                   -- issue order on the core
  phase : DmaPhase := .queued
  outstanding : Nat := 0             -- acknowledgements awaited from other units
  owed  : Nat := 0                   -- rows whose data are still to come: PCIe reads, attention rows, candidate lists
  asked : Nat := 0                   -- bytes requested
  conf  : Nat := 0                   -- bytes confirmed at the destination
deriving DecidableEq, Repr

/-- A scale-tracker entry (R124), with the configuration that its tensor description carries (R125). -/
structure TrackEnt where
  part : Nat
  ctx  : Nat
  tno  : Nat
  maxV : FVal := .fin false 0 0
  count : Nat := 0
  sats : Nat := 0
  invs : Nat := 0
  fmt  : Fmt
  scale : Lane
  zp   : Int := 0
  mode : Nat := 1
  headroom : Nat := 0
  satShift : Nat := 0
  underuse : Nat := 0
deriving DecidableEq, Repr

/-- A remap entry: a bank's row replaced by one of its spare rows (R203, R261). -/
structure Remap where
  bank  : Nat
  row   : Nat
  spare : Nat
deriving DecidableEq, Repr

/-- One core. -/
structure CoreSt where
  phase : CorePhase := .idle
  flight : Nat := 0                  -- sequence number of the running flight
  part  : Nat := 0
  ctx   : Nat := 0
  epoch : BitVec 16 := 0
  bound : Option (Nat × Nat) := none -- partition and context the core is bound to (R166, R180)
  waiting : List Nat := []           -- flights that begin on this core next, in launch order (R157)
  pc    : Nat := 0
  lastPc : Nat := 0                  -- index of the last instruction issued (R75, R154)
  slot  : Nat := 0
  slotTab : List Region := []        -- the staircase's slot table as this flight sees it (R160)
  salt  : Nat := 0                   -- rounding salt read at entry (R158)
  resumeTick : Nat := 0              -- first tick in which it may resume from WTICK (R176)
  x     : SMap Word := []            -- X1 to X31, default 0
  v     : SMap (List Lane) := []     -- V0 to V31, default +0 in every lane
  cnt   : SMap Word := []            -- CNT0 to CNT15
  loops : List LoopLvl := []         -- innermost first, at most 4
  ctrlq : List CtrlOp := []
  waitKind : Nat := 0                -- WAIT_KIND (R153)
  prog  : SMap Word := []            -- program store, default 0
  scr   : SMap Byte := []            -- scratchpad by physical offset, default 0
  halves : SMap Half := []           -- half-slots 0 to 31, default closed
  stat  : Option StatTile := none
  chans : SMap (List DmaEnt) := []   -- channels 0 to 7, oldest first
  stamp : Nat := 0                   -- issue order of fences and channel instructions
  pcache : List Nat := []            -- parameter-cache lines held, newest first (R170)
  track : List TrackEnt := []        -- at most 16
  dots  : DotCounts := {}            -- R114
  arrayP : Nat := 0                  -- progress counters (R151)
  vectorP : Nat := 0
  dmaP  : Nat := 0
  controlP : Nat := 0
  snap  : List Word := [0, 0, 0, 0]  -- SNAP_ARRAY to SNAP_CONTROL (R153)
  snapBusy : Nat := 0
  snapTick : Word := 0
  eccCor : Nat := 0                  -- CORRECTED (R202)
  eccUnc : Nat := 0                  -- UNCORRECTED
  bad   : SMap Nat := []             -- words whose stored contents fail their check, by offset / 4 (R364)
  rowErr : SMap Nat := []            -- corrected errors of a row since its last zero-fill, by 384 × bank + row
  rowLog : List (Nat × Nat) := []    -- rows that the core's error log names for a remap (R204)
  remap : List Remap := []           -- applied entries
  remapPend : List Remap := []       -- committed, not yet applied
  retireMark : Bool := false         -- marked for retirement (R205)
  inReset : Bool := false            -- held in reset with its hall
deriving DecidableEq, Repr

/-! ## Stacks (R245 to R268) and their attention engines (R279 to R284) -/

/-- Frame states (R247). -/
inductive FrameSt where
  | free | allocated | zeroing | retired
deriving DecidableEq, Repr

/-- Frame uses (R247, R249). -/
inductive FrameUse where
  | kv | weights | general
deriving DecidableEq, Repr

/-- A frame-table entry: state, use, holding partition, dirty lines of a MOVE (R258), reference count (R294), released in
this tick (R248), retirement marked (R263). -/
structure Frame where
  st     : FrameSt := .free
  use    : FrameUse := .general
  part   : Nat := 0
  dirty  : List Nat := []
  refs   : Nat := 0
  released : Bool := false
  retireMark : Bool := false
  filled : Bool := false         -- a FILL has been carried out since it became ZEROING
  verified : Bool := false       -- Jormir has read it zero since that FILL (R444)
  fails  : Nat := 0              -- verifications that found a non-zero line
deriving DecidableEq, Repr

/-- Progress of a fill-and-copy command (R256 to R260). -/
inductive FcPhase where
  | queued | active | complete
deriving DecidableEq, Repr

/-- A command held by the fill-and-copy engine. -/
structure FcCmd where
  cmd    : BitVec 256
  jormir : Bool := false
  phase  : FcPhase := .queued
  waited : Nat := 0              -- boundaries waited (R259)
  stalled : Bool := false        -- STK_MOVE_STALLED emitted
  image  : List Byte := []       -- bytes copied, for COPY, MOVE and GATHER
  due    : Bool := false         -- a boundary has passed since it was taken: it may begin (R57)
  dies   : List (Nat × Nat) := []    -- the dies that it works on, each as its stack and the first offset there (R265)
deriving DecidableEq, Repr

/-- Status of a fill-and-copy completion (R260). -/
inductive FcStatus where
  | ok | rejectWindow | rejectOverlap | uncorrectable | abandoned
deriving DecidableEq, Repr

/-- A fill-and-copy completion returned to its issuer (R260); `line` is the first non-zero line of a VERIFY_ZERO, counted
from its first destination frame. -/
structure FcDone where
  seq    : Nat
  status : FcStatus
  line   : Option Nat := none
  jormir : Bool := false
deriving DecidableEq, Repr

/-- A request held in the wake buffer (R266): its die, its line's stack offset, and whether it writes. What a buffered write
holds is what the line reads as from its acceptance on, so it stands in memory already. -/
structure WakeEnt where
  die  : Nat
  off  : Nat
  write : Bool
deriving DecidableEq, Repr

/-- A request that waits at the hall while the wake buffer of its stack is full (R266): its offset, the bytes of a write, its requester and
the physical error that it meets. -/
structure HallReq where
  off  : Nat
  data : Option (List Byte)
  rq   : Req
  e    : Ecc
deriving DecidableEq, Repr

/-- The running values of one query head (R283). -/
structure HeadAcc where
  m   : Lane
  l   : Lane
  o   : List Lane
  bad : Bool := false            -- R284
deriving DecidableEq, Repr

/-- An attention row queued or in progress (R279 to R283). -/
structure AttnRow where
  id    : Nat
  part  : Nat
  ctx   : Nat
  epoch : BitVec 16
  core  : Nat
  chan  : Nat
  stamp : Nat                    -- the channel instruction it belongs to
  pos   : Nat                    -- stage-program position of its DMA instruction
  stream : Nat
  layer : Nat
  qfmt  : Fmt
  ofmt  : Fmt
  gq    : Nat
  scale : Lane
  window : Nat
  query : List Byte
  dst   : Nat                    -- device address of the output row
  rowAddr : Nat                  -- device address of its row-table entry
  next  : Nat := 0               -- next position block to serve
  begun : Bool := false
  served : Bool := false         -- every block served
  failed : Bool := false
  accs  : List HeadAcc := []
deriving DecidableEq, Repr

/-- Errors counted against one row of a bank: in this interval, and since its last remap or zero-fill (R262). -/
structure RowErr where
  now   : Nat := 0
  total : Nat := 0
deriving DecidableEq, Repr

/-- One stack: base die, frames, dies, fill-and-copy engine, attention engine. -/
structure StackSt where
  frames : SMap Frame := []          -- default FREE
  dies   : SMap Nat := []            -- die power states of R264, default 0 ACTIVE
  outst  : SMap Nat := []            -- outstanding count of each die (R265)
  wakeDue : List Nat := []           -- dies whose wake an arrival has started (R266)
  wake   : List WakeEnt := []        -- wake buffer, arrival order
  wakePeak : Nat := 0
  hall   : List HallReq := []        -- requests that wait for room in it, oldest first
  stalls : Nat := 0                  -- CREDIT_STALLS
  eccCor : Nat := 0
  eccUnc : Nat := 0
  tagFails : Nat := 0
  bad    : SMap Nat := []            -- lines whose stored contents fail: 1 uncorrectable, 2 tag mismatch (R255)
  rowErr : SMap RowErr := []         -- by 36,864 × bank + row
  rowLog : List (Nat × Nat) := []    -- rows named by the stack's error log (R262)
  remap  : List Remap := []          -- applied
  remapPend : List Remap := []       -- committed, not yet applied
  remapCopied : List Remap := []     -- copied, in effect at the next boundary
  freeAt4 : Nat := 0                 -- FREE_FRAMES and ZEROING_FRAMES at the last step 4
  zeroAt4 : Nat := 0
  fc     : List FcCmd := []          -- queued and active commands, oldest first
  fcDone : List FcDone := []         -- completions returned
  fcLines : Nat := 0                 -- lines written, the engine's progress counter (R377)
  rows   : List AttnRow := []        -- attention rows, arrival order
  rowNext : Nat := 0                 -- identifier of the next row
  wrrPart : Nat := 0                 -- weighted round robin: partition in turn and slices left in its turn (R282)
  wrrLeft : Nat := 0
  rowsDone : Nat := 0
  nanHeads : Nat := 0
  rowFails : Nat := 0
  restoring : List Nat := []         -- dies whose restore fill has completed, ACTIVE at the next boundary
  lastLine : List Byte := []         -- data returned to the last STACK_LINE_READ
  srHeld : Option (SMap Nat) := none -- the dies' power states before a landing 4 holds them in self-refresh (R385, R386)
deriving DecidableEq, Repr

/-! ## Streams (R269 to R301) -/

/-- Stream states (R272). -/
inductive StreamState where
  | free | prefill | decode | waiting | swappingOut | swapped | swappingIn | ended
deriving DecidableEq, Repr

/-- Fates, with their codes 0x0 to 0x6 (R290). -/
inductive Fate where
  | cont | endStop | endMax | endLength | cancelled | faulted | heldRing
deriving DecidableEq, Repr

/-- Candidate lists merged for a stream in this tick (R287). -/
structure CandBuf where
  parts   : Nat := 0               -- PARTS, 0 before the first list
  arrived : Nat := 0
  list    : List (Lane × Nat) := []
deriving DecidableEq, Repr

/-- A candidate list on its way to the sequencer (R286). -/
structure CandFly where
  part  : Nat
  ctx   : Nat
  epoch : BitVec 16
  stream : Nat
  parts : Nat
  list  : List Lane
  core  : Nat
  chan  : Nat
  stamp : Nat
deriving DecidableEq, Repr

/-- What a visit decided, before step 4 (R288 to R290). -/
structure VisitResult where
  token : Nat
  pos   : Nat
  prob  : Lane
  rank  : Nat
  fate  : Fate
  wrote : Bool                     -- a ring entry was written, unpublished
deriving DecidableEq, Repr

/-- KV geometry of a graph (R274). -/
structure KvGeom where
  fmt    : Fmt
  d      : Nat
  hkv    : Nat
  layers : Nat
  gq     : Nat
deriving DecidableEq, Repr

/-- A stream's slot. -/
structure StreamSt where
  st     : StreamState := .free
  gen    : Nat := 0                -- generation of the slot (R291)
  part   : Nat := 0
  ctx    : Nat := 0
  queue  : Nat := 0                -- queue, user tag, ring order and INTERRUPT of its end record (R331)
  tag    : Word := 0
  seq    : Nat := 0
  interrupt : Bool := false
  seed   : Word := 0
  ringBase : Nat := 0
  tailAddr : Nat := 0
  headAddr : Nat := 0
  promptAddr : Nat := 0
  promptLen : Nat := 0
  maxNew : Nat := 0
  invTemp : Lane := 0
  topP   : Lane := 0
  topK   : Nat := 0
  ringLog2 : Nat := 6
  share  : Bool := false
  latency : Bool := false          -- CLASS 1, latency-critical
  nspace : Nat := 0
  stops  : List Nat := []
  graph  : Nat := 0                -- handle index of its graph
  geom   : Option KvGeom := none
  tokens : List Nat := []          -- prompt tokens, then the tokens sampled
  home   : Nat := 0
  opened : Nat := 0                -- tick in which it was opened
  len    : Nat := 0                -- committed length L
  sampled : Nat := 0
  input  : Nat := 0                -- input token of the next decode tick
  tail   : Nat := 0
  tailPub : Nat := 0               -- tail count last published
  head   : Nat := 0                -- head count as last read
  held   : Option StreamState := none   -- state to return to from WAITING or a swap
  heldRing : Bool := false         -- WAITING for ring space; otherwise for frames
  again  : Bool := false           -- a PREFILL stream held for ring space: it runs its final chunk again over the same positions (R290)
  ringOk : Bool := false           -- the ring check of this tick found 2 free entries
  visitDue : Bool := false         -- in the batch and due a visit this tick
  visited : Option VisitResult := none
  cand   : CandBuf := {}
  cancel : Bool := false           -- a cancel was fetched
  fault  : Bool := false           -- its context was torn down
  chunk  : Option (Nat × Nat) := none   -- first position and tokens of this tick's chunk (R60)
  pages  : SMap Nat := []          -- page table: frame + 1 by entry index (R276)
  ptFrames : List Nat := []        -- frames that hold the page table, in order
  keys   : List (BitVec 512) := [] -- prefix keys of its blocks, as far as computed (R292)
  swapIdx  : List Nat := []        -- entry indexes whose pages are in the KV swap space
  swapImage : SMap (List Byte) := []    -- page contents returned for a swap-in and checked, by entry index
  swapSeq : Nat := 0               -- swap sequence of its records while it is SWAPPED (R452)
  rebuild : Nat := 0               -- after a promotion: 1 its rebuild is due, 2 it waits for hall ring mode (R429)
  inBatch : Bool := false          -- in the batch of the tick in progress
  final  : Option (Nat × Fate) := none  -- detail of the end record to be published in step 7
deriving DecidableEq, Repr

/-- Hall ring mode in force (R299 to R301): for whom, with the epoch that its hand-offs carry (R366). -/
structure HallRingSt where
  part      : Nat
  ctx       : Nat
  epoch     : Option (BitVec 16)
  purpose   : RingPurpose
  stream    : Nat
  positions : Nat
  running   : Bool := false                -- its pages are there: it runs in the tick in progress
  frames    : List (Nat × Nat) := []       -- the pages of a test stream, shard by shard, each shard's in its own hall's stacks (R301)
deriving DecidableEq, Repr

/-- A block of a prefix tree (R293): its key, its frames in page-table order, its match order and its stack. -/
structure PrefixEnt where
  part   : Nat
  home   : Nat
  scaleGen : Nat
  key    : BitVec 512
  frames : List (Nat × Nat)        -- entry offset within the block, frame
  used   : Nat := 0                -- tick of the last match
deriving DecidableEq, Repr

/-! ## Graphs, handles, queues and contexts (R302 to R333, R334 to R362, R485) -/

/-- Handle types (R315). -/
inductive HType where
  | host | device | graph | fence
deriving DecidableEq, Repr

/-- What a handle names. -/
inductive HObj where
  | host (addr len : Nat)
  | device (frames : List (Nat × Nat)) (len : Nat)    -- (stack, frame) in buffer order
  | graph
  | fence
deriving DecidableEq, Repr

/-- An entry of a partition's handle table (R315). -/
structure HandleEnt where
  gen : Nat := 1
  obj : Option HObj := none
deriving DecidableEq, Repr

/-- A fence (R323). -/
structure FenceSt where
  value : Word := 0
  fault : Bool := false
  mirror : Nat := 0                -- host address of the mirror
  shown : Option (Word × Bool) := none   -- value and FAULT as the mirror last showed them
deriving DecidableEq, Repr

/-- A parameter page of 4 KiB and what holds it (R320). -/
structure PageSt where
  data : List Word
  refs : Nat
deriving DecidableEq, Repr

/-- A version of a stored graph (R305, R306). -/
structure VersionSt where
  num   : Nat
  pages : List Nat                 -- page numbers of its default parameter block
  gen   : Nat := 0                 -- which loaded image it runs (R305)
  captured : Nat := 0              -- flights that captured it and have not ended
  superseded : Bool := false
deriving DecidableEq, Repr

/-- An entry of a graph's batch table (R347): the stream, its first position and token count, its input token (decode) or the host
address of its prompt (prefill), and its page-table frame. -/
structure BatchEnt where
  stream : Nat
  first  : Nat
  count  : Nat
  input  : Nat
  frame  : Nat
deriving DecidableEq, Repr

/-- What an older image of a graph holds while live versions still run it: its WEIGHTS frames and its slot table (R305, R306). -/
structure OldGen where
  gen : Nat
  weights : List (Nat × Nat)
  placed : List Region
deriving DecidableEq, Repr

/-- A stored graph. -/
structure GraphSt where
  header : BitVec 512
  slots  : List Word := []         -- handle-slot list (R303)
  binds  : List (BitVec 32) := []
  digest : BitVec 512 := 0
  wdigest : BitVec 512 := 0
  firmware : BitVec 32 := 0
  versions : List VersionSt := []  -- oldest first
  nextNum : Nat := 1
  placed : List Region := []       -- the slot table, slot 0 first
  resident : Bool := false
  reloading : Bool := false
  hints  : Hints := {}
  scratchHeld : Bool := false
  scratch : List (Nat × Nat × List Byte) := []     -- the scratchpad-held layouts, refilled after a teardown (R350, R375)
  weights : List (Nat × Nat) := [] -- WEIGHTS frames (stack, frame)
  gen    : Nat := 0                -- images loaded before this one
  oldGens : List OldGen := []      -- images that live versions still run
  lastRun : Nat := 0
  loaded : Nat := 0                -- order of loading
  unloading : Bool := false
  ext    : Bool := false           -- carries extension stage programs
  exts   : List (List Word) := []  -- their images, as they follow the graph's body (R162, R303)
  placedAs : Option PlaceCommit := none     -- the placement in force, as it was decided (R384)
  sr     : Bool := false           -- uses stochastic rounding
  ring   : Bool := false           -- hall ring mode
  geom   : Option KvGeom := none
  scaleGen : Nat := 0
  scales : SMap Lane := []         -- adopted or patched scale of a tensor (R127)
  params : Nat := 8                -- PARAM_SIZE
  batch  : List BatchEnt := []     -- batch table of the next tick (R347)
  batchAt : List (Nat × Nat) := []      -- the frames that it is written to, in order
  lastMove : Option Nat := none    -- tick of its last stage-placement change that R353 limits
  galleries : Nat := 0             -- GALLERIES of its partition at its last placement
  moving : Option PlaceCommit := none   -- a placement change that waits for its flights to end; new launches are held (R354)
deriving DecidableEq, Repr

/-- A descriptor fetched and not yet published, or held in a queue's buffer (R311). -/
structure DescSt where
  d   : BitVec 512
  aux : FetchAux
  seq : Nat                        -- order of fetching within the queue
  frames : List (Nat × Nat) := []  -- frames that the firmware offers an ALLOC (R248)
  err : Nat := 0                   -- status of a device-memory line that failed as its blocks and lists were read (R254)
deriving DecidableEq, Repr

/-- A completion to be published in step 7 (R331). -/
structure ComplSt where
  queue  : Nat
  seq    : Nat
  tag    : Word
  opcode : Nat
  status : Nat
  result : Nat := 0
  detail : Nat := 0
  ctx    : Nat := 0
  signal : Option (Nat × Word) := none   -- fence handle and value
  interrupt : Bool := false
  clear : Bool := false                  -- CLEAR_FAULT of a NOP
  flight : Option Nat := none            -- the flight of a LAUNCH
deriving DecidableEq, Repr

/-- Where a queue stands (R484). -/
inductive QState where
  | absent | active | draining
deriving DecidableEq, Repr

/-- A queue in the front end. -/
structure QueueSt where
  st     : QState := .absent
  gen    : Nat := 0                -- creations (R484)
  since  : Nat := 0                -- tick from whose open its doorbell is polled
  fetch  : Nat := 0                -- descriptors fetched; the register shows 32 bits
  tail   : Nat := 0                -- tail of the last valid doorbell word
  head   : Nat := 0                -- completion head as last read
  cqTail : Nat := 0                -- completion records written
  cq     : Nat := 0                -- completion ring, its LOG2 and its vector, as the queue was created with them
  cqLog  : Nat := 0
  vector : Nat := 0
  buffer : List DescSt := []
  outstanding : Nat := 0           -- records of descriptors fetched, not yet published
  admitted : Nat := 0
deriving DecidableEq, Repr

/-- Charged counters of R358. -/
structure Charges where
  cycles : Nat := 0
  slices : Nat := 0
  stackB : Nat := 0
  onlanB : Nat := 0
  pcieB  : Nat := 0
  tokens : Nat := 0
deriving DecidableEq, Repr

/-- A carry record (R361). -/
structure CarrySt where
  tick  : Nat
  len   : Nat
  ticks : Nat
  holder : Bool
  det   : Bool
  c     : Charges
deriving DecidableEq, Repr

/-- Progress of a teardown (R367 to R369). -/
inductive TearPhase where
  | none | faulted | fenced | drained | cleared
deriving DecidableEq, Repr

/-- A context of a partition (R338, R366, R485). -/
structure CtxSt where
  job    : Nat
  weight : Nat
  seed   : Word
  seedGiven : Bool
  epoch  : BitVec 16 := 0
  credit : Int := 0                -- R346
  tear   : TearPhase := .none
  status : Nat := 0                -- status of the first fault (R365)
  unit   : Nat := 0                -- unit that detected it
  faultFlight : Option Nat := none -- the flight whose work met the fault
  dataErr : Bool := false          -- it has met a data error: it issues nothing further (R364)
  stopped : Bool := false          -- context soft stop (R73)
  multi  : Bool := false           -- has written to another module (R67, R406)
  charges : Charges := {}
  holder : Bool := false           -- held the tick open past its nominal close (R64)
  destroying : Bool := false
deriving DecidableEq, Repr

/-- A flight: one launch of a stored graph (R157, R318). -/
structure FlightSt where
  part  : Nat
  ctx   : Nat
  epoch : BitVec 16
  graph : Nat
  version : Nat
  params : List Word               -- the captured, patched and relocated block
  pages : List Nat := []           -- private pages held (R320)
  queue : Nat
  seq   : Nat                      -- fetch order of its LAUNCH
  tag   : Word
  signal : Option (Nat × Word) := none
  interrupt : Bool := false
  det   : Bool := false
  fromTick : Nat := 0              -- the tick from whose open it may begin (R157)
  bufs  : List Nat := []           -- handles that its relocation named (R321)
  heldReload : Bool := false       -- held until its graph is resident
  begun : Bool := false
  ended : List Nat := []           -- cores on which it has ended
  slots : List Region := []
  scales : SMap Lane := []         -- adopted and patched scales captured, by tensor number (R127)
  extension : Bool := false
  digest : BitVec 512 := 0         -- graph digest and weights digest of the image that it runs (R304, R461)
  wdigest : BitVec 512 := 0
  endStatus : Option Nat := none   -- ended by a stop or a teardown with this status
  digestDecl : Option (List (Nat × Nat) × List (Nat × Nat) × Nat) := none
deriving DecidableEq, Repr

/-- Partition states (R481). -/
inductive PState where
  | absent | creating | active | softStopping | softStopped | hardStopping | hardStopped | destroying
deriving DecidableEq, Repr

/-- A partition. -/
structure PartSt where
  st      : PState := .absent
  ctxs    : SMap (Option CtxSt) := []     -- default none
  handles : SMap HandleEnt := []
  fences  : SMap (Option FenceSt) := []   -- by handle
  graphs  : SMap (Option GraphSt) := []   -- by handle
  freed   : List (Nat × HObj) := []       -- stale handles whose object is released after its last use (R321)
  pages   : SMap (Option PageSt) := []    -- parameter space, 4 KiB pages
  paramFrames : List (Nat × Nat) := []    -- its frames (R481)
  charges : Charges := {}                 -- partition-only column
  carryVf : Option CarrySt := none
  carryPf : Option CarrySt := none
  carryLog : List (Nat × CarrySt) := []   -- carry records of contexts, by handle
  acctTail : Nat := 0
  acctHead : Nat := 0
  placeTail : Nat := 0
  placeHead : Nat := 0
  placePub  : Nat := 0                    -- the placement tail that its word shows
  lastSplit : Option Nat := none          -- tick of its last phase-split change (R353)
  swapSeq : Nat := 0                      -- swap sequence of the last swap-out (R452)
  swapSpace : SMap (List Byte) := []      -- swap records in host memory, by stream × 2 ^ 20 + frame index (R452)
  kemKey  : Nat := 0                      -- its KEM key: the number of its draw (R448)
  swapKey : Nat := 0                      -- the partition's swap key: the number of its draw (R448, R449)
  prefill : Nat := 0                      -- galleries in the prefill role, as GALLERIES
  hostHeld : List (Nat × List Byte) := [] -- host writes that wait while its interface is LOCKED, oldest first (R473)
  keysHeld : Bool := false                -- the partition's swap key exists (R448)
  kemHeld  : Bool := false                -- its KEM key exists
  openAtTick : Bool := false              -- STATE at the open of the tick had records (R360)
  stopAcct : Bool := false                -- stopped for backlog: it accrues nothing (R361)
  acctCut  : Bool := false                -- soft-stopped for it, and due to resume once its carries are written
  tdi     : Nat := 0
deriving DecidableEq, Repr

/-! ## Signals, transfers, windows and Onlan (R174, R219 to R223, R393 to R413) -/

/-- A SIGNAL on its way to a count register (R174). -/
structure SignalFly where
  core : Nat
  cnt  : Nat
  inc  : Nat
  part : Nat
  ctx  : Nat
  epoch : BitVec 16
deriving DecidableEq, Repr

/-- An outstanding PCIe read of one row of a DMA descriptor (R235, R366): the instruction and the row it belongs to. -/
structure PcieRead where
  tag   : Nat
  part  : Nat
  ctx   : Nat
  epoch : BitVec 16
  host  : Nat
  len   : Nat
  core  : Nat
  chan  : Nat
  stamp : Nat
  row   : Nat
  shut  : Bool := false            -- made while the interface was LOCKED: it has not gone out (R473)
deriving DecidableEq, Repr

/-- An outbound slot entry (R219). -/
structure OutSlot where
  part   : Nat
  dstModule : Nat
  dstWindow : Nat
  len    : Nat
  epoch  : BitVec 16
deriving DecidableEq, Repr

/-- An inbound window entry (R220). -/
structure InWin where
  part   : Nat
  ctx    : Nat
  base   : Nat
  len    : Nat
  srcModule : Nat
  srcPart : Nat
  epoch  : BitVec 16
  bindCore : Option Nat := none
  bindCnt : Nat := 0
  bindRow : Bool := false
  isOpen : Bool := true
  stale  : Bool := false           -- its context was torn down (R367)
deriving DecidableEq, Repr

/-- A message sent and not acknowledged, or held for a route (R406, R408, R409, R413). -/
structure MsgOut where
  dst    : Nat
  seq    : Nat
  slot   : Nat
  win    : Nat
  epoch  : BitVec 16
  part   : Nat
  ctx    : Nat
  ctxEpoch : BitVec 16
  offset : Nat
  data   : List Byte
  rc     : Bool
  rowEnd : Bool
  rowPos : Nat
  rowId  : Nat
  core   : Nat
  chan   : Nat
  stamp  : Nat
  port   : Option Nat              -- none until it is sent; its MSG_SEQ is taken when it first is
  numbered : Bool := false         -- it has its MSG_SEQ
  lost   : Bool := false           -- its route has since retrained or lost a port (R409)
deriving DecidableEq, Repr

/-- The destination's record of one source module: the highest in-order MSG_SEQ and the answers above and at it (R409). -/
structure SeqWin where
  high : Nat := 0
  got  : List (Nat × Nat) := []    -- (MSG_SEQ, status of the first copy) within the window of 4,096
  past : List (Nat × Nat) := []    -- answers at or below the highest in order
deriving DecidableEq, Repr

/-- A row in progress at the destination (R407). -/
structure RowIn where
  src   : Nat
  rowId : Nat
  win   : Nat
  landed : Nat
  total : Option Nat := none
deriving DecidableEq, Repr

/-- A message that a port has been given to send: its header (R405), its data, and the CONTEXT tag of its flits (R400). -/
structure PortMsg where
  hdr  : BitVec 256
  data : List Byte := []
  tag  : Nat := 0
deriving DecidableEq, Repr

/-- A flit that a port has sent (R400): its SEQ, channel and type, LAST, the CONTEXT tag, its segment and its place among the data flits of it
(R404), its payload before encryption, and the message that it completes. -/
structure FlitOut where
  seq  : Nat
  vc   : Nat
  typ  : Nat
  last : Bool := false
  tag  : Nat := 0
  seg  : Nat := 0
  idx  : Nat := 0
  payload : List Byte := []
  credit : Nat × Nat := (0, 0)     -- CREDIT_VC and CREDIT_COUNT that it returned
  msg  : Option PortMsg := none
deriving DecidableEq, Repr

/-- A HEAD, BODY or TAG flit accepted, held until its segment's tag verifies (R404). -/
structure FlitIn where
  vc   : Nat
  typ  : Nat
  last : Bool
  tag  : Nat
  payload : List Byte
deriving DecidableEq, Repr

/-- One Onlan port. -/
structure PortSt where
  st     : Nat := 0                -- Port states table (R395)
  cause  : Nat := 0
  width  : Nat := 0
  excluded : Nat := 0
  inverted : Nat := 0
  partner : Nat := 0
  partnerPort : Nat := 0
  delay  : Nat := 0
  replays : Nat := 0
  retrains : Nat := 0
  tagFails : Nat := 0
  txSeq  : Nat := 0                -- SEQ of the next flit sent (R403)
  acked  : Nat := 0                -- next SEQ that the partner has not acknowledged
  rxSeq  : Nat := 0                -- next SEQ expected
  path   : List Nat := []          -- the states that its last training passed through (R395)
  laneMap : List Nat := []         -- source lane of each receive lane (R396)
  replayBuf : List FlitOut := []   -- unacknowledged flits
  stuck  : Nat := 0                -- consecutive replays without progress (R399)
  nakSent : Bool := false
  credits : SMap Nat := []         -- flits used on each channel, default 0 (R401)
  txSeg  : Nat := 0                -- number of the segment being sent, and its data flits (R404)
  txSegFlits : Nat := 0
  txSegData : List Byte := []      -- the ciphertext of its data flits
  rxSeg  : Nat := 0
  rxBuf  : List FlitIn := []       -- flits of the segment being received (R404)
  rxUsed : SMap Nat := []          -- flits held in the receive buffer, by channel (R401)
  owed   : SMap Nat := []          -- credits to return, by channel
  heldIn : List (BitVec 256 × List Byte × Ecc) := []    -- WRITEs held in the receive buffer for a new row's place (R407)
  keys   : Bool := false           -- session keys held (R453)
  keyOut : BitVec 256 := 0         -- the key of each direction (R448, R453)
  keyIn  : BitVec 256 := 0
  wordOut : BitVec 32 := 0         -- direction and port in the nonce of each direction's segments
  wordIn : BitVec 32 := 0
  sendq  : List (Nat × Nat × PortMsg) := []   -- messages waiting: channel, flits left to send, message
  turn   : Nat := 9                -- channel last served in the round robin of R402
  sent   : List PortMsg := []      -- messages sent, oldest first
deriving DecidableEq, Repr

/-! ## Mirrored pairs (R414 to R430) -/

/-- Pair states, their codes 0 to 6 in MIR_STATUS in this order. -/
inductive PairState where
  | off | forming | paired | degraded | fenced | promoting | solo
deriving DecidableEq, Repr

/-- A publication of step 7 (R55): a host write and an optional MSI-X vector. -/
inductive HostPub where
  | write (addr : Nat) (data : List Byte)
  | msi (fn vector : Nat)
deriving DecidableEq, Repr

/-- A launch record (R416): its graph's digest, its version, its parameter pages, and what its flight is completed by: its context, queue, tag,
signal and interrupt (log entry 111). -/
structure LaunchRec where
  graph   : BitVec 512
  version : Nat
  pages   : List Nat
  params  : List Word              -- what its parameter pages hold
  ctx     : Nat
  queue   : Nat
  tag     : Word
  signal  : Option (Nat × Word)
  interrupt : Bool
deriving DecidableEq, Repr

/-- A record of a seal's trailer (R416). -/
inductive MirRec where
  | version (graph : BitVec 512) (num : Nat) (block : List Word)
  | launch (n : Nat) (r : LaunchRec)
  | ended (n : Nat)
  | stream (i : Nat) (graph : BitVec 512) (t : StreamSt)
  | frame (stack f : Nat) (x : Frame)
  | tree (e : PrefixEnt) (added : Bool)
  | fence (h : Nat) (value : Word) (fault : Bool)
  | context (h : Nat) (x : Option CtxSt)
  | scale (graph : BitVec 512) (tno : Nat) (v : Lane)
deriving DecidableEq, Repr

/-- The mirror engine's state of one partition, as a server and as a shadow. -/
structure MirPart where
  deltaSeq : Nat := 0              -- delta sequence of the last seal sent
  seals  : List Word := []         -- ticks of the seals sent and not acknowledged, oldest first
  stalledPub : List (Word × HostPub) := []   -- publications withheld, with their tick (R420)
  sent   : List MirRec := []       -- what the partner holds, as the seals sent have told it
  streamed : List (Nat × List Byte) := []   -- data streamed in this tick, in order: its context + 1, or 0 for the partition's own
  emptySeal : Bool := false        -- the next seal is empty: its boundary resumes from a hard stop (R76)
  unacked : List Nat := []         -- contexts with data streamed and not acknowledged (R417)
  shadow : Nat := 0                -- SHADOW_STATE: 0 NOT_READY, 1 SYNCING, 2 READY, 3 PROMOTED
  dataSeq : Nat := 0               -- MSG_SEQ of this tick's last MIRROR_DATA sent
  copyDue : Bool := false          -- the copy of its committed state is to be sent at the next boundary (R415)
  fenced : Bool := false           -- fenced by the end of this module's lease (R423)
  due    : List (List Byte × List MirRec) := []    -- seals that the shadow holds and has answered OK, to be applied (R419)
  promoteDue : Bool := false       -- the shadow's promotion is complete once they are applied (R426)
  sealAt : List (Word × Word) := []        -- when each unacknowledged seal was sent (R422)
  takes  : List Nat := []          -- galleries of MIR_TAKEOVER that are being cleared for it (R376, R426)
  staged : List (Word × Nat × List Byte) := []     -- data of ticks not sealed: tick, MSG_SEQ and bytes
  launches : List MirRec := []     -- launch records of flights that have not ended
  lastSealed : Word := 0           -- tick of the last acknowledged seal
  rxSeq  : Nat := 0                -- delta sequence last accepted
  unmirrored : List Nat := []      -- streams marked UNMIRRORED_KV (R429)
  frameMap : SMap Nat := []        -- a shadow's own frame + 1 for a mirrored one, by stack × 2 ^ 21 + frame (log entry 147)
  slotMap : SMap Nat := []         -- a shadow's own stream slot + 1 for a mirrored one
  promoting : Bool := false
deriving DecidableEq, Repr

/-- The mirror engine. -/
structure MirSt where
  pair   : PairState := .off
  causeRtt : Bool := false
  sealStalls : Nat := 0
  parts  : SMap MirPart := []
  hbSeq  : Nat := 0                -- MSG_SEQ of the last heartbeat sent
  hbAcked : Nat := 0
  hbAt   : List (Nat × Word) := []         -- when each heartbeat not yet acknowledged was sent (R422)
  leaseHeld : Bool := false
  leaseEnd : Word := 0             -- the end of this module's lease, in ns (R422)
  partnerEnd : Option Word := none -- the end of the partner's lease as this module records it
  claimOff : Bool := false         -- the claim has been deasserted under R424
  held   : List PortMsg := []      -- messages to the partner while no mirror port is live (R430)
  claimOut : Bool := false         -- PAIR_CLAIM_OUT
  claimIn : Bool := false          -- PAIR_CLAIM_IN
  graceOver : List Nat := []       -- shadows whose grace has passed, waiting on the claim
deriving DecidableEq, Repr

/-! ## Security (R432 to R467) -/

/-- A debug or test unlock (R463): scope and the last tick at which it holds. -/
structure Unlock where
  scope : Nat
  lastTick : Nat
deriving DecidableEq, Repr

/-- An entry of the tamper log (R445). -/
structure TamperEnt where
  sensors : Nat
  boot : Nat
  tick : Nat
deriving DecidableEq, Repr

/-- A measurement slot (R455). -/
structure MeasSlot where
  value : BitVec 512 := 0
  count : Nat := 0
deriving DecidableEq, Repr

/-- The certificates of the chain (R457). -/
inductive CertKind where
  | root | productCa | identity | boot | report
deriving DecidableEq, Repr

/-- A certificate: what it is, who signed it, its subject's public key, and the measurement slots that it carries (R457). -/
structure Cert where
  kind   : CertKind
  signer : CertKind
  key    : List Byte
  slots  : List MeasSlot := []
deriving DecidableEq, Repr

/-- A signed configuration record's sections (R445). -/
structure ConfigRec where
  certs  : List Cert := [{ kind := .productCa, signer := .root, key := Config.publicKey 1 },
                         { kind := .identity, signer := .productCa, key := Config.publicKey 2 }]
  identityKey : Bool := true               -- the wrapped identity key is there (R447, R464)
  wrapped : List Byte := Config.factoryRecord 1    -- the identity key's private half, under the key "identity-wrap" (R447)
  serial : BitVec 128 := Config.serial
  revision : BitVec 8 := Config.revision
  helper : List Byte := Config.factoryRecord 0     -- the helper data of the physical unclonable function (R447)
  fwKeys : List (List Byte) := [Config.tabfoldKey 0]
  dbgKeys : List (List Byte) := [Config.tabfoldKey 1]
  factory : Bool := true                   -- signed with the Tabfold manufacturing key; later records with the module's record key
  version : Nat := 1
  boots  : Nat := 0
  scrRemap : List (Nat × Remap) := []      -- by core
  stkRemap : List (Nat × Remap) := []      -- by stack
  retiredFrames : List (Nat × Nat) := []
  retiredGalleries : Nat := 0
  minJormir : Nat := 0
  minRuntime : Nat := 0
  tamper : List TamperEnt := []
deriving DecidableEq, Repr

/-- The keys of R448. -/
structure KeysHeld where
  root  : Option (BitVec 256) := none      -- regenerated at each power-up; the record key is derived from it (R447)
  drbg  : Bool := false
  attest : Bool := false
  stackKeys : Bool := false
  attestDraw : Nat := 0            -- the draw of the attestation key
  stackDraw : Nat := 0             -- stack t's two XTS keys and two tag keys come of the 16 draws from 16 t on from here (R448, R450)
  kemDraw : Nat := 0               -- the module's KEM key of this boot (R457)
  ide   : List Nat := []           -- key sets that IDE streams hold: 2 × function + set
  ideSet : SMap Nat := []          -- key set in use + 1, by function (R454)
deriving DecidableEq, Repr

/-- A firmware image held by the update path (R446, R475). -/
structure FwImage where
  component : Nat
  version : Nat
  image : List Byte
  active : Bool := false
  verified : Bool := true          -- its signature is of a Tabfold firmware key (R446)
deriving DecidableEq, Repr

/-- A partition's fields of an attestation report (id-tf.4), as its last step 4 left them (R459, R460). -/
structure PartFields where
  state : Nat := 0                 -- byte 0x01: TDI state, extension programs allowed, mirrored, shadow
  galleries : Nat := 0
  stackSet : Nat := 0
  kvFrames : Nat := 0
  genFrames : Nat := 0
  graphs : List (BitVec 512 × BitVec 512) := []    -- graph digest and weights digest of each resident graph
deriving DecidableEq, Repr

/-- An SPDM session (R454, R474): its endpoint, the 256 bits that the ML-KEM-1024 exchange gave both ends, and the responder's Ed448 signature. -/
structure SpdmSession where
  endpoint : Nat
  secret : BitVec 256
  sig    : List Byte
deriving DecidableEq, Repr

/-- An attestation report that was issued (R458, R459). -/
structure Report where
  fn    : Nat
  serial : BitVec 128              -- drawn from the DRBG, top bit 0
  subject : BitVec 128 × List Byte := (0, [])      -- the module serial and the common name (R458)
  moduleId : Nat                   -- id-tf.1
  boots : Nat
  slots : List MeasSlot            -- id-tf.2: slots 0 to 5
  record : Nat                     -- id-tf.3
  tick  : Word
  state : Nat
  firmware : Nat
  part  : Nat                      -- id-tf.4; 0xFF in a module report
  fields : PartFields
  nonce : BitVec 256               -- id-tf.5
  exts  : List (List Byte) := []   -- the values of id-tf.1 to id-tf.5 (R459)
  cert  : Cert := { kind := .report, signer := .boot, key := [] }   -- the certificate that it is: its subject key (R457, R458)
deriving DecidableEq, Repr

/-- A result digest in progress (R461, R462). -/
structure DigestSt where
  flight : Nat
  part  : Nat
  input : BitVec 512
  done  : Bool := false
  host  : Nat := 0                 -- address of the record
  inHost : Bool := true            -- it lies in host memory; otherwise in stack memory
  outs  : List (Nat × Bool × Nat) := []    -- the output ranges: address, in host memory, length
deriving DecidableEq, Repr

/-- The security processor and Jormir. -/
structure SecSt where
  approved : Bool := false
  selftest : Nat := 0
  tamper : Nat := 0
  unlock : Option Unlock := none
  unlockDue : Option Unlock := none    -- accepted; it takes effect at the next boundary
  nonces : List (BitVec 256) := []     -- unlock nonces issued and not accepted
  record : ConfigRec := {}
  spare : Option ConfigRec := none     -- the record in the other bank (R445)
  slots : List MeasSlot := [{}, {}, {}, {}, {}, {}, {}, {}]
  keys  : KeysHeld := {}
  sessions : List SpdmSession := []    -- one for each endpoint that has one (R474)
  images : List FwImage :=         -- the flash as it ships (R2)
    [{ component := 1, version := Config.imageVersion (Config.factoryImage 1), image := Config.factoryImage 1, active := true },
     { component := 2, version := Config.imageVersion (Config.factoryImage 2), image := Config.factoryImage 2, active := true }]
  bootCert : Option Cert := none   -- the boot certificate, from a boot until landing 5 (R457)
  runtimeVersion : Nat := 0
  errorState : Bool := false
  parked : Bool := false
  reports : List Report := []
  fields : SMap PartFields := []   -- by partition, as its last step 4 left them
  digests : List DigestSt := []
  lastMeasure : Nat := 0           -- tick of the last re-measurement (R456)
deriving DecidableEq, Repr

/-! ## The tick, recovery, background operations (R44 to R76, R363 to R392, R57) -/

/-- One engine as a progress sample saw it (R377). -/
structure Sample where
  busy  : Bool := false
  count : Nat := 0
  kind  : Nat := 0                 -- WAIT_KIND, for a core's control queue
deriving DecidableEq, Repr

/-- An entry of the in-flight report (R75). `key` names what it describes at the unit: an instruction's stamp, a row, a message's destination
and MSG_SEQ, or a read's tag. -/
structure ReportEnt where
  ctx   : Nat
  kind  : Nat
  state : Nat := 0
  unit  : Nat
  chan  : Nat := 0
  addr  : Nat := 0
  asked : Nat := 0
  conf  : Nat := 0
  flight : Nat := 0
  pos   : Nat := 0
  key   : Nat × Nat := (0, 0)
deriving DecidableEq, Repr

/-- A stop or resume request taken and not yet carried out (R70). -/
structure StopReq where
  src   : StopSource
  scope : StopScope
  resume : Bool := false
  sampled : Bool := false          -- sampled in the step 0 of this boundary
  compl : Option ComplSt := none   -- the completion of its control-queue descriptor
deriving DecidableEq, Repr

/-- The tick generator beyond its registers. -/
structure TickSt where
  isOpen  : Bool := false          -- a tick is open; false from the close of step 0 to step 8
  closed  : Bool := false          -- steps 0 to 7 have run, step 8 is due
  held    : Bool := false          -- the tick open is a held tick (R71)
  overrun : Bool := false          -- the nominal close passed before the drain (R61)
  limitHit : Bool := false
  tearing : Bool := false          -- past the limit point
  gen     : Bool := false          -- at least one boundary since reset
  arrived : List Nat := []         -- barrier members whose arrive the root has (R65)
  arriveSent : Bool := false
  released : Option Word := none   -- a release received, its compensated start due
  group   : Bool := true           -- still a member of its barrier group (R67)
  reqs    : List StopReq := []     -- stop and resume requests pending
  hardSrc : List (Nat × StopSource) := []   -- source of the hard stop of each stopped partition
  halts   : List (Nat × List ReportEnt) := []    -- by halted partition, what was in flight at the halt (R551)
  modStopped : List Nat := []      -- partitions that the module's stop has stopped (R72)
  cutWait : List Nat := []         -- partitions past their cut, whose seal is not acknowledged (R71, R430)
  samples : List (SMap Sample) := []    -- progress samples, newest first, at most 64 (R377)
  sinceOpen : Nat := 0             -- samples taken since the open (R378)
  worked  : List (Nat × Nat × Nat) := []    -- unit, partition and context of the work that cores and attention engines took on in this tick (R379)
  visitsEver : Nat := 0            -- visits since reset: the sequencer's progress counter (R377)
  visits  : Nat := 0               -- visits of this tick, and the longest in ns
  visitMax : Nat := 0
  lenUs   : Nat := 0               -- open-to-open length of the tick closed, for LAST_LENGTH (R63)
  syncOut : Nat := 0               -- pulses given on TICK_SYNC_OUT
deriving DecidableEq, Repr

/-- A landing in progress (R381). -/
structure LandingSt where
  id    : Nat
  level : Nat
  part  : Option Nat := none
  ctx   : Option Nat := none
  unit  : Nat := 241               -- engine of a landing 2; otherwise the unit that detected the cause
  cause : Nat := 0
deriving DecidableEq, Repr

/-- A suspect of a hang (R379). -/
structure Suspect where
  part : Nat
  ctx  : Nat
  unit : Nat
deriving DecidableEq, Repr

/-- The recovery controller. -/
structure RecSt where
  landings : List LandingSt := []
  nextId  : Nat := 1
  suspects : List Suspect := []
  replaying : Option Suspect := none
  replayed : Nat := 0
  unattributed : List (Nat × Nat) := []    -- (unit, tick) of landings 2 not attributed (R388)
  landing4s : List Word := []      -- timebase of landings 4 (R388)
  resetting : List Nat := []       -- engines being reset
  halted  : List Nat := []         -- partitions halted by a landing 2 (R383)
  haltedBy : List (Nat × Nat) := []        -- partition and engine of each such halt
  clearing : List (Nat × Option Nat × Bool) := []   -- gallery, partition it left, stays in its partition
  retireAt : List (Nat × Nat) := []        -- (gallery, unit) retiring at the next boundary (R390)
  unclean : List Nat := []         -- galleries whose last read-back found a word that is not zero (R376)
  rerun   : List Nat := []         -- flights that enter again at their entry at the next open (R383)
  flr     : List Nat := []         -- functions whose function level reset has a landing in progress (R471)
deriving DecidableEq, Repr

/-- Background operations (R57). -/
inductive BgKind where
  | load (part graph : Nat) (append : Bool) (d : DescSt) (queue : Nat)
  | reload (part graph : Nat)
  | copy (part : Nat) (dst src : HObj) (d : DescSt) (queue : Nat)
  | swapOut (stream : Nat)
  | swapIn (stream : Nat)
  | restoreDie (stack die : Nat)
  | remapCopy (stack : Nat) (r : Remap)
  | shadowSync (part : Nat)
  | refill (part graph : Nat)
deriving DecidableEq, Repr

/-- A background operation in progress, with what it will commit. -/
structure BgOp where
  id   : Nat
  kind : BgKind
  done : Bool := false
  status : Nat := 0
  data : List Byte := []           -- bytes read, for a COPY or a swap
  place : Option PlaceCommit := none
  weights : List (Nat × Nat) := []
  sharded : List (List Byte) := []     -- what its WEIGHTS frames take, frame by frame (R341)
  params : List Byte := []
  digest : BitVec 512 := 0
  handle : Option Nat := none      -- committed in this boundary's step 2 or 3, its placement and frames due: the graph's handle
  begun  : Bool := false           -- a boundary has passed since it was asked for: it has begun (R57)
  staging : List (Nat × Nat) := [] -- a swap's staging frames (R297)
deriving DecidableEq, Repr

/-- What placement and lowering have made: the same graph, placement and firmware version give the same images (R155). -/
structure Made where
  graph  : BitVec 512
  firmware : BitVec 32
  table  : List Region
  prefill : Nat
  held   : Bool
  images : List (List Word)
deriving DecidableEq, Repr

/-- What placement has decided in deterministic mode: a function of the graph image, GALLERIES with its stack set, the hints with
PHASE_HINT, and the firmware version (R355). -/
structure Decided where
  graph  : BitVec 512
  firmware : BitVec 32
  galleries : Nat
  hints  : Hints
  phase  : Nat
  table  : List Region
  prefill : Nat
  held   : Bool
  untracked : List (Nat × Nat × Nat)
deriving DecidableEq, Repr

/-! ## Supply, power, reset, debug (R488 to R542) -/

/-- Supply, pins and the power manager. -/
structure PwrSt where
  aon      : Bool := true          -- the input is above 40 V: the always-on domain is powered
  inputOk  : Bool := true          -- above the undervoltage release
  overV    : Bool := false
  pwrEn    : Bool := true
  pwrGood  : Bool := true
  off      : Bool := false         -- OFF: only the always-on domain is powered (R496)
  alert    : Bool := false         -- MODULE_ALERT
  latched  : Bool := false         -- a fault is latched (R491)
  hallsOn  : Bool := true          -- hall rails on
  isolated : Bool := false         -- isolation latches engaged (R501)
  resetHeld : Bool := false        -- MODULE_RESET_N held
  perst    : Bool := false         -- the exit reset of WAKE_CAUSE 0x06 is due
  wakeDue  : Bool := false         -- WAKE written during entry (R500)
  smbus    : Nat := 0x5B           -- SMBus address (R542)
  cap      : List Nat := [7, 7, 7, 7]      -- thermal cap of each hall (R494)
  coolRun  : List Nat := [0, 0, 0, 0]      -- consecutive closes below 95 °C
  roomRun  : List Nat := [0, 0, 0, 0]      -- consecutive closes with room for the next point
  raise    : List (Option Nat) := [none, none, none, none]   -- a raise decided, in force one boundary later
  railUp   : List Bool := [false, false, false, false]       -- the rail of that raise has been commanded up
  volts    : List Nat := [590, 590, 590, 590]                -- hall rail commanded, mV (R492)
  linkUp   : Bool := false
  frs      : Nat := 0              -- Function Readiness Status messages sent
  lost     : Bool := false         -- the loss of supply of R424 was detected
deriving DecidableEq, Repr

/-- Performance counters of one core or stack (R515 to R518). -/
structure PerfSt where
  live : List Nat := [0, 0, 0, 0]
  sample : List Nat := [0, 0, 0, 0]
  snap : List Nat := [0, 0, 0, 0]
deriving DecidableEq, Repr

/-- The TAP's instructions (R534). -/
inductive TapInstr where
  | idcode | bypass | samplePreload | extest | clamp | highz | extestPulse | extestTrain
deriving DecidableEq, Repr

/-- Counters, rings, router, traces, injection, TAP. -/
structure DbgSt where
  perf   : SMap PerfSt := []       -- by unit
  rings  : SMap UnitRing := []     -- by unit
  pfRing : HostRing := {}
  vfRing : SMap HostRing := []     -- by partition
  trace  : SMap (BitVec 128) := []         -- trace buffer
  traceCount : Nat := 0            -- trace records written
  inject : Option (Nat × Nat) := none      -- armed injection: kind, unit
  pldm   : SMap Nat := []          -- PLDM event messages sent, by alarm
  tap    : TapInstr := .idcode
  boundary : Word := 0             -- boundary register as preloaded
  pinsDriven : Bool := false       -- the pins follow the boundary register
  pinsFloat : Bool := false        -- HIGHZ
  scanLink : Bool := false         -- a boundary-scan instruction has taken the PCIe link down (R535)
deriving DecidableEq, Repr

/-! ## The whole block -/

/-- A held low half (R476), or a register read half-latched (R48). -/
structure HalfWrite where
  off : Nat
  low : BitVec 32
deriving DecidableEq, Repr

/-- The state of the block. -/
structure State where
  pending : List Instr := []               -- commands waiting, first in, first out
  regs    : SMap Word := []                -- set-up registers by BAR0 offset; unlisted: the reset value
  regPend : SMap (Word × Word) := []       -- RWT values pending: value and mask
  regHeld : SMap (Option HalfWrite) := []  -- by requester
  latch   : SMap (Option (BitVec 32)) := []    -- latched high halves, by register (R48)
  readData : Word := 0                     -- data of the last register or aperture read
  cores   : SMap CoreSt := []
  stks    : SMap StackSt := []
  mem     : List Host.Cell := []           -- stack memory by device address
  host    : List Host.Cell := []           -- host memory as the module has written it
  streams : SMap StreamSt := []
  prefixes : List PrefixEnt := []
  cands   : List CandFly := []             -- candidate lists sent and not merged (R286)
  hallRing : Option HallRingSt := none     -- hall ring mode (R299)
  parts   : SMap PartSt := []
  queues  : SMap QueueSt := []
  flights : SMap (Option FlightSt) := []   -- by flight sequence number
  pfAcctTail : Nat := 0                    -- records written to the physical function's accounting ring, and its head
  pfAcctHead : Nat := 0
  flightNext : Nat := 1
  admitted : List (Nat × DescSt) := []     -- admitted descriptors whose effect is due in a later step (R53, R314)
  compl   : List ComplSt := []             -- completions to publish in step 7
  outbox  : List (Nat × HostPub) := []     -- publications of this step 7 not yet written, by function
  waitPub : List ComplSt := []             -- completions that wait on a result digest (R462)
  signals : List SignalFly := []
  reads   : List PcieRead := []
  readNext : Nat := 0
  outSlots : SMap (Option OutSlot) := []
  inWins  : SMap (Option InWin) := []
  sends   : List MsgOut := []
  heldMsgs : List PortMsg := []            -- control, answer and forwarded messages with no live route (R413)
  sendSeq : SMap Nat := []                 -- next MSG_SEQ by destination (R409)
  rowIds  : Nat := 0                       -- next ROW_ID
  seqWins : SMap SeqWin := []              -- by source module
  rowsIn  : List RowIn := []               -- rows in progress, at most 4,096
  ports   : SMap PortSt := []
  mir     : MirSt := {}
  sec     : SecSt := {}
  tick    : TickSt := {}
  rcv     : RecSt := {}
  bg      : List BgOp := []
  bgNext  : Nat := 0
  made    : List Made := []                -- what lowering has made, and what placement has decided in deterministic mode
  decided : List Decided := []
  pwr     : PwrSt := {}
  dbg     : DbgSt := {}
  msix    : SMap Word := []                -- MSI-X table words, by entry × 2 + half (R472)
  msiSent : SMap Nat := []                 -- messages sent, by entry
  msiPend : SMap Nat := []                 -- pending bits of masked entries, by entry
  track   : List TrackEnt := []            -- scale proposals of this boundary, merged (R126)
  timebase : Word := 0                     -- R513, at the last stamped event
  freeCtr : Nat := 0                       -- the model's own: how many free values have been drawn
deriving DecidableEq, Repr

/-- The module right after power-up: PWR_GOOD asserted, PSTATE BOOTING, every register at its reset value. -/
def State.reset : State := {}

end Sys2Proof.Machine
end

