-- ==== Sys2Proof/Machine/RegMap.lean ====
section
/-! DEFINITION. The set-up register map (R16, R22, R478 to R485 and each block's register map): every register with its
fields, their access types, reset values and ranges, and how a BAR0 offset names a register. -/

namespace Sys2Proof.Machine

/-- Access types (R16). -/
inductive Access where
  | ro | rw | wo | w1c | rwt | rwl
deriving DecidableEq, Repr

/-- A field of a register: bits hi down to lo, access, reset value, and for a field with a range its smallest and largest
value (R16, R44, R47). -/
structure FieldDesc where
  hi    : Nat
  lo    : Nat
  acc   : Access
  rst   : Nat := 0
  least : Nat := 0
  most  : Nat := 2 ^ 64
deriving DecidableEq, Repr

/-- Register groups: one instance per module, or one per queue, destination, port, partition, range, core or stack. -/
inductive RegGroup where
  | fix | queue | route | port | pf | pfk | sl | core | stk | sae
deriving DecidableEq, Repr

/-- A register: its group, its offset within the instance, its fields. -/
structure RegRow where
  group  : RegGroup
  off    : Nat
  fields : List FieldDesc
deriving DecidableEq, Repr

/-! Offsets by register name. -/

/-- HIF_ID (R479). -/
def rHifId : Nat := 0x0

/-- HIF_STATUS (R479). -/
def rHifStatus : Nat := 0x8

/-- HIF_FLAGS (R479). -/
def rHifFlags : Nat := 0x10

/-- HIF_PF_DB (R479). -/
def rHifPfDb : Nat := 0x18

/-- HIF_ACCT_BASE (R480). -/
def rHifAcctBase : Nat := 0x20

/-- HIF_ACCT_HEAD (R480). -/
def rHifAcctHead : Nat := 0x28

/-- HIF_ACCT_CFG (R480). -/
def rHifAcctCfg : Nat := 0x30

/-- HIF_EVENT_BASE (R480). -/
def rHifEventBase : Nat := 0x38

/-- HIF_EVENT_HEAD (R480). -/
def rHifEventHead : Nat := 0x40

/-- HIF_EVENT_CFG (R480). -/
def rHifEventCfg : Nat := 0x48

/-- TCK_CTRL (R47). -/
def rTckCtrl : Nat := 0x10000

/-- TCK_PERIOD (R44). -/
def rTckPeriod : Nat := 0x10008

/-- TCK_BARRIER (R47). -/
def rTckBarrier : Nat := 0x10010

/-- TCK_STATUS (R47). -/
def rTckStatus : Nat := 0x10018

/-- TCK_NUMBER (R15). -/
def rTckNumber : Nat := 0x10020

/-- TCK_LAST_LENGTH (R63). -/
def rTckLastLength : Nat := 0x10028

/-- TCK_OVERRUN_COUNT (R63). -/
def rTckOverrunCount : Nat := 0x10030

/-- TCK_BARRIER_OFFSET (R65). -/
def rTckBarrierOffset : Nat := 0x10038

/-- FE_CTRL (R310). -/
def rFeCtrl : Nat := 0x20000

/-- FE_STATUS (R310). -/
def rFeStatus : Nat := 0x20008

/-- FE_DB_IGNORED (R310). -/
def rFeDbIgnored : Nat := 0x20010

/-- FE_FETCHED (R311). -/
def rFeFetched : Nat := 0x20018

/-- FE_REFUSED (R333). -/
def rFeRefused : Nat := 0x20020

/-- FE_ADMIT (R312). -/
def rFeAdmit : Nat := 0x20028

/-- FE_DEADLOCKS (R326). -/
def rFeDeadlocks : Nat := 0x20030

/-- Q_CTRL (R484). -/
def rQCtrl : Nat := 0x0

/-- Q_SQ_BASE (R484). -/
def rQSqBase : Nat := 0x8

/-- Q_CQ_BASE (R484). -/
def rQCqBase : Nat := 0x10

/-- Q_CQ_HEAD (R484). -/
def rQCqHead : Nat := 0x18

/-- Q_COUNTS (R484). -/
def rQCounts : Nat := 0x20

/-- PRT_MODULE_CTRL (R338). -/
def rPrtModuleCtrl : Nat := 0x30000

/-- PRT_STATUS (R338). -/
def rPrtStatus : Nat := 0x30008

/-- PRT_FAULT_CTRL (R377). -/
def rPrtFaultCtrl : Nat := 0x30010

/-- PRT_FAULT_STATUS (R381). -/
def rPrtFaultStatus : Nat := 0x30018

/-- PRT_LANDINGS (R381). -/
def rPrtLandings : Nat := 0x30020

/-- PRT_STALE (R366). -/
def rPrtStale : Nat := 0x30028

/-- PRT_RETIRED (R390). -/
def rPrtRetired : Nat := 0x30030

/-- SEQ_CTRL (R286). -/
def rSeqCtrl : Nat := 0x40000

/-- SEQ_STREAMS (R272). -/
def rSeqStreams : Nat := 0x40008

/-- SEQ_VISITS (R288). -/
def rSeqVisits : Nat := 0x40010

/-- SEQ_HELD (R290). -/
def rSeqHeld : Nat := 0x40018

/-- SEQ_ERR (R287). -/
def rSeqErr : Nat := 0x40020

/-- SEQ_STATUS (R19). -/
def rSeqStatus : Nat := 0x40028

/-- MIR_CTRL (R415). -/
def rMirCtrl : Nat := 0x50000

/-- MIR_LEASE (R422). -/
def rMirLease : Nat := 0x50008

/-- MIR_GRACE (R427). -/
def rMirGrace : Nat := 0x50010

/-- MIR_STATUS (R415). -/
def rMirStatus : Nat := 0x50018

/-- MIR_FLAGS (R438). -/
def rMirFlags : Nat := 0x50020

/-- ONL_MODULE (R410). -/
def rOnlModule : Nat := 0x60000

/-- ONL_STATUS (R19). -/
def rOnlStatus : Nat := 0x60008

/-- ONL_DROPS (R407). -/
def rOnlDrops : Nat := 0x60010

/-- ONL_ROUTE (R411). -/
def rOnlRoute : Nat := 0x0

/-- ONL_PORT_CTRL (R395). -/
def rOnlPortCtrl : Nat := 0x0

/-- ONL_PORT_STATUS (R395). -/
def rOnlPortStatus : Nat := 0x8

/-- ONL_PORT_DELAY (R398). -/
def rOnlPortDelay : Nat := 0x10

/-- ONL_PORT_ERR (R403). -/
def rOnlPortErr : Nat := 0x18

/-- SEC_STATUS (R432). -/
def rSecStatus : Nat := 0x80000

/-- SEC_RECORD (R445). -/
def rSecRecord : Nat := 0x80008

/-- SEC_BOOT (R445). -/
def rSecBoot : Nat := 0x80010

/-- SEC_FLAGS (R438). -/
def rSecFlags : Nat := 0x80018

/-- SEC_ZEROISE (R464). -/
def rSecZeroise : Nat := 0x80020

/-- PWR_CTRL (R494). -/
def rPwrCtrl : Nat := 0x90000

/-- PWR_OP (R494). -/
def rPwrOp : Nat := 0x90008

/-- PWR_WATCH (R499). -/
def rPwrWatch : Nat := 0x90010

/-- PWR_STATUS (R491). -/
def rPwrStatus : Nat := 0x90018

/-- PWR_MEAS (R499). -/
def rPwrMeas : Nat := 0x90020

/-- PWR_HALLS (R494). -/
def rPwrHalls : Nat := 0x90028

/-- PWR_DOMAIN (R494). -/
def rPwrDomain : Nat := 0x90030

/-- PWR_COUNTS (R494). -/
def rPwrCounts : Nat := 0x90038

/-- PWR_BOOT (R508). -/
def rPwrBoot : Nat := 0x90040

/-- DBG_CTRL (R525). -/
def rDbgCtrl : Nat := 0xa0000

/-- DBG_STATUS (R517). -/
def rDbgStatus : Nat := 0xa0008

/-- DBG_CMD (R517). -/
def rDbgCmd : Nat := 0xa0010

/-- DBG_PMU_CORE (R515). -/
def rDbgPmuCore : Nat := 0xa0018

/-- DBG_PMU_STK (R515). -/
def rDbgPmuStk : Nat := 0xa0020

/-- DBG_SEL (R519). -/
def rDbgSel : Nat := 0xa0028

/-- DBG_DATA0 (R519). -/
def rDbgData0 : Nat := 0xa0030

/-- DBG_DATA1 (R519). -/
def rDbgData1 : Nat := 0xa0038

/-- DBG_DATA2 (R519). -/
def rDbgData2 : Nat := 0xa0040

/-- DBG_DATA3 (R519). -/
def rDbgData3 : Nat := 0xa0048

/-- DBG_RING_SEL (R523). -/
def rDbgRingSel : Nat := 0xa0050

/-- DBG_RING_DATA0 (R523). -/
def rDbgRingData0 : Nat := 0xa0058

/-- DBG_RING_DATA1 (R523). -/
def rDbgRingData1 : Nat := 0xa0060

/-- DBG_RING_DATA2 (R523). -/
def rDbgRingData2 : Nat := 0xa0068

/-- DBG_RING_DATA3 (R523). -/
def rDbgRingData3 : Nat := 0xa0070

/-- DBG_LOSS (R526). -/
def rDbgLoss : Nat := 0xa0078

/-- DBG_TRACE (R529). -/
def rDbgTrace : Nat := 0xa0080

/-- DBG_TRACE_FILTER (R528). -/
def rDbgTraceFilter : Nat := 0xa0088

/-- DBG_TRACE_UNITS0 (R528). -/
def rDbgTraceUnits0 : Nat := 0xa0090

/-- DBG_TRACE_UNITS1 (R528). -/
def rDbgTraceUnits1 : Nat := 0xa0098

/-- DBG_TRACE_UNITS2 (R528). -/
def rDbgTraceUnits2 : Nat := 0xa00a0

/-- DBG_TRACE_UNITS3 (R528). -/
def rDbgTraceUnits3 : Nat := 0xa00a8

/-- DBG_APERTURE (R532). -/
def rDbgAperture : Nat := 0xa00b0

/-- DBG_ALARM (R527). -/
def rDbgAlarm : Nat := 0xa00b8

/-- DBG_ALARM_CNT0 (R527). -/
def rDbgAlarmCnt0 : Nat := 0xa00c0

/-- DBG_ALARM_CNT1 (R527). -/
def rDbgAlarmCnt1 : Nat := 0xa00c8

/-- TST_CTRL (R536). -/
def rTstCtrl : Nat := 0xb0000

/-- TST_INJECT (R536). -/
def rTstInject : Nat := 0xb0008

/-- TST_STATUS (R535). -/
def rTstStatus : Nat := 0xb0010

/-- TST_IDCODE (R534). -/
def rTstIdcode : Nat := 0xb0018

/-- PRT_LIFE (R482). -/
def rPrtLife : Nat := 0x0

/-- PRT_PART_CFG (R482). -/
def rPrtPartCfg : Nat := 0x8

/-- PRT_GALLERIES (R334). -/
def rPrtGalleries : Nat := 0x10

/-- PRT_KV_FRAMES (R337). -/
def rPrtKvFrames : Nat := 0x18

/-- PRT_GEN_FRAMES (R337). -/
def rPrtGenFrames : Nat := 0x20

/-- PRT_HOT (R339). -/
def rPrtHot : Nat := 0x28

/-- MIR_MAP (R414). -/
def rMirMap : Nat := 0x30

/-- MIR_TAKEOVER (R426). -/
def rMirTakeover : Nat := 0x38

/-- SEC_TDI (R454). -/
def rSecTdi : Nat := 0x40

/-- MIR_PART_STATUS (R415). -/
def rMirPartStatus : Nat := 0x48

/-- MIR_PART_STATUS_HI (R419). -/
def rMirPartStatusHi : Nat := 0x50

/-- MIR_PART_UNMIR (R429). -/
def rMirPartUnmir : Nat := 0x58

/-- PRT_QUOTA (R340). -/
def rPrtQuota : Nat := 0x60

/-- SEC_HOSTWIN (R440). -/
def rSecHostwin : Nat := 0x100

/-- SEC_HOSTLIM (R440). -/
def rSecHostlim : Nat := 0x180

/-- PART_STATUS (R483). -/
def rPartStatus : Nat := 0x0

/-- PART_DB (R483). -/
def rPartDb : Nat := 0x8

/-- PART_STOP (R483). -/
def rPartStop : Nat := 0x10

/-- PART_ACCT_BASE (R480). -/
def rPartAcctBase : Nat := 0x18

/-- PART_ACCT_HEAD (R480). -/
def rPartAcctHead : Nat := 0x20

/-- PART_ACCT_CFG (R480). -/
def rPartAcctCfg : Nat := 0x28

/-- PART_EVENT_BASE (R480). -/
def rPartEventBase : Nat := 0x30

/-- PART_EVENT_HEAD (R480). -/
def rPartEventHead : Nat := 0x38

/-- PART_EVENT_CFG (R480). -/
def rPartEventCfg : Nat := 0x40

/-- PART_PLACE_BASE (R480). -/
def rPartPlaceBase : Nat := 0x48

/-- PART_PLACE_HEAD (R480). -/
def rPartPlaceHead : Nat := 0x50

/-- PART_PLACE_CFG (R480). -/
def rPartPlaceCfg : Nat := 0x58

/-- PART_PLACE_TAIL (R480). -/
def rPartPlaceTail : Nat := 0x60

/-- PRT_PLACE (R357). -/
def rPrtPlace : Nat := 0x68

/-- PRT_ACCT (R361). -/
def rPrtAcct : Nat := 0x70

/-- CTX_CMD (R485). -/
def rCtxCmd : Nat := 0x78

/-- CTX_SEED (R485). -/
def rCtxSeed : Nat := 0x80

/-- CTX_RESULT (R485). -/
def rCtxResult : Nat := 0x88

/-- CORE_PROG_ARRAY (R151). -/
def rCoreProgArray : Nat := 0x0

/-- CORE_PROG_VECTOR (R151). -/
def rCoreProgVector : Nat := 0x8

/-- CORE_PROG_DMA (R151). -/
def rCoreProgDma : Nat := 0x10

/-- CORE_PROG_CONTROL (R151). -/
def rCoreProgControl : Nat := 0x18

/-- CORE_PROG_BUSY (R152). -/
def rCoreProgBusy : Nat := 0x20

/-- CORE_SNAP_ARRAY (R153). -/
def rCoreSnapArray : Nat := 0x28

/-- CORE_SNAP_VECTOR (R153). -/
def rCoreSnapVector : Nat := 0x30

/-- CORE_SNAP_DMA (R153). -/
def rCoreSnapDma : Nat := 0x38

/-- CORE_SNAP_CONTROL (R153). -/
def rCoreSnapControl : Nat := 0x40

/-- CORE_SNAP_BUSY (R153). -/
def rCoreSnapBusy : Nat := 0x48

/-- CORE_SNAP_TICK (R153). -/
def rCoreSnapTick : Nat := 0x50

/-- CORE_SCR_ECC (R202). -/
def rCoreScrEcc : Nat := 0x58

/-- CORE_SCR_SPARE (R203). -/
def rCoreScrSpare : Nat := 0x60

/-- CORE_DMA_STATUS (R213). -/
def rCoreDmaStatus : Nat := 0x68

/-- CORE_DMA_DEPTH (R188). -/
def rCoreDmaDepth : Nat := 0x70

/-- STK_CTRL (R265). -/
def rStkCtrl : Nat := 0x0

/-- STK_PWR_SR (R265). -/
def rStkPwrSr : Nat := 0x8

/-- STK_PWR_OFF (R267). -/
def rStkPwrOff : Nat := 0x10

/-- STK_DIE_STATE (R264). -/
def rStkDieState : Nat := 0x18

/-- STK_WAKE (R266). -/
def rStkWake : Nat := 0x20

/-- STK_ECC (R254). -/
def rStkEcc : Nat := 0x28

/-- STK_REMAP (R261). -/
def rStkRemap : Nat := 0x30

/-- STK_RETIRED (R263). -/
def rStkRetired : Nat := 0x38

/-- STK_FRAMES (R248). -/
def rStkFrames : Nat := 0x40

/-- STK_ENGINE (R256). -/
def rStkEngine : Nat := 0x48

/-- STK_STATUS (R267). -/
def rStkStatus : Nat := 0x50

/-- SAE_CTRL (R282). -/
def rSaeCtrl : Nat := 0x0

/-- SAE_SHARE_LO (R282). -/
def rSaeShareLo : Nat := 0x8

/-- SAE_SHARE_HI (R282). -/
def rSaeShareHi : Nat := 0x10

/-- SAE_SLOTS (R269). -/
def rSaeSlots : Nat := 0x18

/-- SAE_ROWS (R283). -/
def rSaeRows : Nat := 0x20

/-- SAE_ERR (R284). -/
def rSaeErr : Nat := 0x28

/-- SAE_STATUS (R19). -/
def rSaeStatus : Nat := 0x30


/-- Registers of the fix group. -/
def rowsFix0 : List RegRow := [
  ⟨.fix, rHifId, [⟨31, 24, .ro, 0, 0, 2 ^ 64⟩,
    ⟨23, 16, .ro, 1, 0, 2 ^ 64⟩,
    ⟨15, 0, .ro, 41237, 0, 2 ^ 64⟩]⟩,
  ⟨.fix, rHifStatus, [⟨20, 16, .ro, 0, 0, 2 ^ 64⟩,
    ⟨13, 13, .ro, 0, 0, 2 ^ 64⟩,
    ⟨12, 8, .ro, 0, 0, 2 ^ 64⟩,
    ⟨7, 4, .ro, 0, 0, 2 ^ 64⟩,
    ⟨0, 0, .ro, 0, 0, 2 ^ 64⟩]⟩,
  ⟨.fix, rHifFlags, [⟨63, 32, .ro, 0, 0, 2 ^ 64⟩,
    ⟨1, 1, .w1c, 0, 0, 2 ^ 64⟩,
    ⟨0, 0, .w1c, 0, 0, 2 ^ 64⟩]⟩,
  ⟨.fix, rHifPfDb, [⟨63, 12, .rwl, 0, 0, 2 ^ 64⟩]⟩,
  ⟨.fix, rHifAcctBase, [⟨63, 12, .rwl, 0, 0, 2 ^ 64⟩]⟩,
  ⟨.fix, rHifAcctHead, [⟨63, 3, .rwl, 0, 0, 2 ^ 64⟩]⟩,
  ⟨.fix, rHifAcctCfg, [⟨14, 8, .rwl, 0, 0, 2 ^ 64⟩,
    ⟨4, 0, .rwl, 0, 0, 2 ^ 64⟩]⟩,
  ⟨.fix, rHifEventBase, [⟨63, 12, .rwl, 0, 0, 2 ^ 64⟩]⟩,
  ⟨.fix, rHifEventHead, [⟨63, 3, .rwl, 0, 0, 2 ^ 64⟩]⟩,
  ⟨.fix, rHifEventCfg, [⟨14, 8, .rwl, 0, 0, 2 ^ 64⟩,
    ⟨4, 0, .rwl, 0, 0, 2 ^ 64⟩]⟩,
  ⟨.fix, rTckCtrl, [⟨24, 16, .rwt, 100, 0, 400⟩,
    ⟨5, 4, .rwl, 0, 0, 2 ^ 64⟩,
    ⟨1, 1, .rw, 0, 0, 2 ^ 64⟩,
    ⟨0, 0, .rw, 0, 0, 2 ^ 64⟩]⟩,
  ⟨.fix, rTckPeriod, [⟨16, 0, .rwt, 10000, 250, 100000⟩]⟩]

/-- Registers of the fix group. -/
def rowsFix1 : List RegRow := [
  ⟨.fix, rTckBarrier, [⟨51, 32, .rwl, 100000, 1000, 1000000⟩,
    ⟨8, 0, .rwl, 2, 2, 256⟩]⟩,
  ⟨.fix, rTckStatus, [⟨6, 6, .w1c, 0, 0, 2 ^ 64⟩,
    ⟨5, 5, .w1c, 0, 0, 2 ^ 64⟩,
    ⟨4, 4, .w1c, 0, 0, 2 ^ 64⟩,
    ⟨3, 3, .w1c, 0, 0, 2 ^ 64⟩,
    ⟨2, 0, .ro, 0, 0, 2 ^ 64⟩]⟩,
  ⟨.fix, rTckNumber, [⟨63, 0, .ro, 0, 0, 2 ^ 64⟩]⟩,
  ⟨.fix, rTckLastLength, [⟨31, 0, .ro, 0, 0, 2 ^ 64⟩]⟩,
  ⟨.fix, rTckOverrunCount, [⟨31, 0, .ro, 0, 0, 2 ^ 64⟩]⟩,
  ⟨.fix, rTckBarrierOffset, [⟨63, 0, .ro, 0, 0, 2 ^ 64⟩]⟩,
  ⟨.fix, rFeCtrl, [⟨11, 8, .rwl, 10, 1, 10⟩,
    ⟨0, 0, .rw, 0, 0, 2 ^ 64⟩]⟩,
  ⟨.fix, rFeStatus, [⟨2, 2, .w1c, 0, 0, 2 ^ 64⟩,
    ⟨1, 1, .w1c, 0, 0, 2 ^ 64⟩,
    ⟨0, 0, .w1c, 0, 0, 2 ^ 64⟩]⟩,
  ⟨.fix, rFeDbIgnored, [⟨31, 0, .ro, 0, 0, 2 ^ 64⟩]⟩,
  ⟨.fix, rFeFetched, [⟨63, 0, .ro, 0, 0, 2 ^ 64⟩]⟩,
  ⟨.fix, rFeRefused, [⟨31, 0, .ro, 0, 0, 2 ^ 64⟩]⟩,
  ⟨.fix, rFeAdmit, [⟨47, 32, .ro, 0, 0, 2 ^ 64⟩,
    ⟨31, 0, .ro, 0, 0, 2 ^ 64⟩]⟩]

/-- Registers of the fix group. -/
def rowsFix2 : List RegRow := [
  ⟨.fix, rFeDeadlocks, [⟨31, 0, .ro, 0, 0, 2 ^ 64⟩]⟩,
  ⟨.fix, rPrtModuleCtrl, [⟨0, 0, .rwl, 0, 0, 2 ^ 64⟩]⟩,
  ⟨.fix, rPrtStatus, [⟨2, 2, .w1c, 0, 0, 2 ^ 64⟩,
    ⟨1, 1, .w1c, 0, 0, 2 ^ 64⟩,
    ⟨0, 0, .w1c, 0, 0, 2 ^ 64⟩]⟩,
  ⟨.fix, rPrtFaultCtrl, [⟨9, 9, .rw, 1, 0, 2 ^ 64⟩,
    ⟨8, 8, .rwt, 1, 0, 2 ^ 64⟩,
    ⟨6, 0, .rwt, 4, 2, 64⟩]⟩,
  ⟨.fix, rPrtFaultStatus, [⟨39, 32, .ro, 0, 0, 2 ^ 64⟩,
    ⟨24, 16, .ro, 0, 0, 2 ^ 64⟩,
    ⟨6, 4, .ro, 0, 0, 2 ^ 64⟩,
    ⟨2, 0, .ro, 0, 0, 2 ^ 64⟩]⟩,
  ⟨.fix, rPrtLandings, [⟨63, 48, .ro, 0, 0, 2 ^ 64⟩,
    ⟨47, 32, .ro, 0, 0, 2 ^ 64⟩,
    ⟨31, 16, .ro, 0, 0, 2 ^ 64⟩,
    ⟨15, 0, .ro, 0, 0, 2 ^ 64⟩]⟩,
  ⟨.fix, rPrtStale, [⟨31, 0, .ro, 0, 0, 2 ^ 64⟩]⟩,
  ⟨.fix, rPrtRetired, [⟨23, 0, .ro, 0, 0, 2 ^ 64⟩]⟩,
  ⟨.fix, rSeqCtrl, [⟨0, 0, .rw, 0, 0, 2 ^ 64⟩]⟩,
  ⟨.fix, rSeqStreams, [⟨14, 0, .ro, 0, 0, 2 ^ 64⟩]⟩,
  ⟨.fix, rSeqVisits, [⟨47, 32, .ro, 0, 0, 2 ^ 64⟩,
    ⟨14, 0, .ro, 0, 0, 2 ^ 64⟩]⟩,
  ⟨.fix, rSeqHeld, [⟨46, 32, .ro, 0, 0, 2 ^ 64⟩,
    ⟨30, 16, .ro, 0, 0, 2 ^ 64⟩,
    ⟨14, 0, .ro, 0, 0, 2 ^ 64⟩]⟩]

/-- Registers of the fix group. -/
def rowsFix3 : List RegRow := [
  ⟨.fix, rSeqErr, [⟨47, 32, .ro, 0, 0, 2 ^ 64⟩,
    ⟨31, 0, .ro, 0, 0, 2 ^ 64⟩]⟩,
  ⟨.fix, rSeqStatus, [⟨0, 0, .w1c, 0, 0, 2 ^ 64⟩]⟩,
  ⟨.fix, rMirCtrl, [⟨15, 8, .rwl, 0, 0, 2 ^ 64⟩,
    ⟨4, 4, .rwl, 0, 0, 2 ^ 64⟩,
    ⟨3, 3, .rwl, 0, 0, 2 ^ 64⟩,
    ⟨2, 1, .rwl, 0, 0, 2 ^ 64⟩,
    ⟨0, 0, .rw, 0, 0, 2 ^ 64⟩]⟩,
  ⟨.fix, rMirLease, [⟨31, 0, .rwl, 100000, 10000, 1000000⟩]⟩,
  ⟨.fix, rMirGrace, [⟨31, 0, .rwl, 50000, 10000, 600000⟩]⟩,
  ⟨.fix, rMirStatus, [⟨63, 32, .ro, 0, 0, 2 ^ 64⟩,
    ⟨31, 16, .ro, 0, 0, 2 ^ 64⟩,
    ⟨3, 3, .ro, 0, 0, 2 ^ 64⟩,
    ⟨2, 0, .ro, 0, 0, 2 ^ 64⟩]⟩,
  ⟨.fix, rMirFlags, [⟨1, 1, .w1c, 0, 0, 2 ^ 64⟩,
    ⟨0, 0, .w1c, 0, 0, 2 ^ 64⟩]⟩,
  ⟨.fix, rOnlModule, [⟨7, 0, .rwl, 0, 0, 2 ^ 64⟩]⟩,
  ⟨.fix, rOnlStatus, [⟨0, 0, .w1c, 0, 0, 2 ^ 64⟩]⟩,
  ⟨.fix, rOnlDrops, [⟨47, 32, .ro, 0, 0, 2 ^ 64⟩,
    ⟨31, 16, .ro, 0, 0, 2 ^ 64⟩,
    ⟨15, 0, .ro, 0, 0, 2 ^ 64⟩]⟩,
  ⟨.fix, rSecStatus, [⟨10, 8, .ro, 0, 0, 2 ^ 64⟩,
    ⟨7, 4, .ro, 0, 0, 2 ^ 64⟩,
    ⟨3, 1, .ro, 0, 0, 2 ^ 64⟩,
    ⟨0, 0, .ro, 0, 0, 2 ^ 64⟩]⟩,
  ⟨.fix, rSecRecord, [⟨63, 0, .ro, 1, 0, 2 ^ 64⟩]⟩]

/-- Registers of the fix group. -/
def rowsFix4 : List RegRow := [
  ⟨.fix, rSecBoot, [⟨31, 0, .ro, 0, 0, 2 ^ 64⟩]⟩,
  ⟨.fix, rSecFlags, [⟨1, 1, .w1c, 0, 0, 2 ^ 64⟩,
    ⟨0, 0, .w1c, 0, 0, 2 ^ 64⟩]⟩,
  ⟨.fix, rSecZeroise, [⟨31, 0, .wo, 0, 0, 2 ^ 64⟩]⟩,
  ⟨.fix, rPwrCtrl, [⟨47, 32, .rwt, 3200, 800, 3200⟩,
    ⟨3, 3, .wo, 0, 0, 2 ^ 64⟩,
    ⟨2, 2, .wo, 0, 0, 2 ^ 64⟩]⟩,
  ⟨.fix, rPwrOp, [⟨46, 44, .ro, 0, 0, 2 ^ 64⟩,
    ⟨42, 40, .ro, 0, 0, 2 ^ 64⟩,
    ⟨38, 36, .ro, 0, 0, 2 ^ 64⟩,
    ⟨34, 32, .ro, 0, 0, 2 ^ 64⟩,
    ⟨14, 12, .rwt, 7, 0, 2 ^ 64⟩,
    ⟨10, 8, .rwt, 7, 0, 2 ^ 64⟩,
    ⟨6, 4, .rwt, 7, 0, 2 ^ 64⟩,
    ⟨2, 0, .rwt, 7, 0, 2 ^ 64⟩]⟩,
  ⟨.fix, rPwrWatch, [⟨55, 48, .rw, 85, 40, 95⟩,
    ⟨47, 40, .rw, 40, 20, 45⟩,
    ⟨39, 32, .rw, 212, 200, 232⟩,
    ⟨31, 16, .rw, 100, 10, 10000⟩]⟩,
  ⟨.fix, rPwrStatus, [⟨43, 40, .ro, 0, 0, 2 ^ 64⟩,
    ⟨39, 32, .ro, 0, 0, 2 ^ 64⟩,
    ⟨31, 24, .ro, 0, 0, 2 ^ 64⟩,
    ⟨7, 7, .w1c, 0, 0, 2 ^ 64⟩,
    ⟨6, 6, .w1c, 0, 0, 2 ^ 64⟩,
    ⟨5, 5, .w1c, 0, 0, 2 ^ 64⟩,
    ⟨4, 4, .w1c, 0, 0, 2 ^ 64⟩,
    ⟨3, 3, .w1c, 0, 0, 2 ^ 64⟩,
    ⟨2, 0, .ro, 0, 0, 2 ^ 64⟩]⟩,
  ⟨.fix, rPwrMeas, [⟨63, 48, .ro, 0, 0, 2 ^ 64⟩,
    ⟨47, 32, .ro, 0, 0, 2 ^ 64⟩,
    ⟨31, 16, .ro, 0, 0, 2 ^ 64⟩,
    ⟨15, 8, .ro, 0, 0, 2 ^ 64⟩,
    ⟨7, 0, .ro, 0, 0, 2 ^ 64⟩]⟩,
  ⟨.fix, rPwrHalls, [⟨63, 0, .ro, 0, 0, 2 ^ 64⟩]⟩,
  ⟨.fix, rPwrDomain, [⟨63, 48, .ro, 0, 0, 2 ^ 64⟩,
    ⟨47, 32, .ro, 0, 0, 2 ^ 64⟩,
    ⟨31, 16, .ro, 0, 0, 2 ^ 64⟩,
    ⟨15, 0, .ro, 0, 0, 2 ^ 64⟩]⟩,
  ⟨.fix, rPwrCounts, [⟨63, 48, .ro, 0, 0, 2 ^ 64⟩,
    ⟨47, 32, .ro, 0, 0, 2 ^ 64⟩,
    ⟨31, 0, .ro, 0, 0, 2 ^ 64⟩]⟩,
  ⟨.fix, rPwrBoot, [⟨55, 40, .ro, 0, 0, 2 ^ 64⟩,
    ⟨39, 16, .ro, 0, 0, 2 ^ 64⟩,
    ⟨3, 0, .ro, 0, 0, 2 ^ 64⟩]⟩]

/-- Registers of the fix group. -/
def rowsFix5 : List RegRow := [
  ⟨.fix, rDbgCtrl, [⟨7, 6, .rw, 2, 0, 2 ^ 64⟩,
    ⟨3, 3, .rwl, 0, 0, 2 ^ 64⟩,
    ⟨1, 1, .rw, 0, 0, 2 ^ 64⟩]⟩,
  ⟨.fix, rDbgStatus, [⟨4, 4, .ro, 0, 0, 2 ^ 64⟩,
    ⟨3, 3, .w1c, 0, 0, 2 ^ 64⟩,
    ⟨2, 2, .w1c, 0, 0, 2 ^ 64⟩,
    ⟨1, 1, .w1c, 0, 0, 2 ^ 64⟩,
    ⟨0, 0, .w1c, 0, 0, 2 ^ 64⟩]⟩,
  ⟨.fix, rDbgCmd, [⟨47, 40, .wo, 0, 0, 2 ^ 64⟩,
    ⟨35, 32, .wo, 0, 0, 2 ^ 64⟩,
    ⟨1, 0, .wo, 0, 0, 2 ^ 64⟩]⟩,
  ⟨.fix, rDbgPmuCore, [⟨31, 0, .rwt, 0, 0, 2 ^ 64⟩]⟩,
  ⟨.fix, rDbgPmuStk, [⟨31, 0, .rwt, 0, 0, 2 ^ 64⟩]⟩,
  ⟨.fix, rDbgSel, [⟨8, 8, .rw, 0, 0, 2 ^ 64⟩,
    ⟨7, 0, .rw, 0, 0, 2 ^ 64⟩]⟩,
  ⟨.fix, rDbgData0, [⟨63, 0, .ro, 0, 0, 2 ^ 64⟩]⟩,
  ⟨.fix, rDbgData1, [⟨63, 0, .ro, 0, 0, 2 ^ 64⟩]⟩,
  ⟨.fix, rDbgData2, [⟨63, 0, .ro, 0, 0, 2 ^ 64⟩]⟩,
  ⟨.fix, rDbgData3, [⟨63, 0, .ro, 0, 0, 2 ^ 64⟩]⟩,
  ⟨.fix, rDbgRingSel, [⟨63, 32, .ro, 0, 0, 2 ^ 64⟩,
    ⟨15, 8, .rw, 0, 0, 2 ^ 64⟩,
    ⟨7, 0, .rw, 0, 0, 2 ^ 64⟩]⟩,
  ⟨.fix, rDbgRingData0, [⟨63, 0, .ro, 0, 0, 2 ^ 64⟩]⟩]

/-- Registers of the fix group. -/
def rowsFix6 : List RegRow := [
  ⟨.fix, rDbgRingData1, [⟨63, 0, .ro, 0, 0, 2 ^ 64⟩]⟩,
  ⟨.fix, rDbgRingData2, [⟨63, 0, .ro, 0, 0, 2 ^ 64⟩]⟩,
  ⟨.fix, rDbgRingData3, [⟨63, 0, .ro, 0, 0, 2 ^ 64⟩]⟩,
  ⟨.fix, rDbgLoss, [⟨63, 48, .ro, 0, 0, 2 ^ 64⟩,
    ⟨47, 32, .ro, 0, 0, 2 ^ 64⟩,
    ⟨31, 16, .ro, 0, 0, 2 ^ 64⟩,
    ⟨15, 0, .ro, 0, 0, 2 ^ 64⟩]⟩,
  ⟨.fix, rDbgTrace, [⟨63, 32, .ro, 0, 0, 2 ^ 64⟩,
    ⟨31, 0, .ro, 0, 0, 2 ^ 64⟩]⟩,
  ⟨.fix, rDbgTraceFilter, [⟨24, 16, .rw, 0, 0, 2 ^ 64⟩,
    ⟨15, 0, .rw, 0, 0, 2 ^ 64⟩]⟩,
  ⟨.fix, rDbgTraceUnits0, [⟨63, 0, .rw, 0, 0, 2 ^ 64⟩]⟩,
  ⟨.fix, rDbgTraceUnits1, [⟨63, 0, .rw, 0, 0, 2 ^ 64⟩]⟩,
  ⟨.fix, rDbgTraceUnits2, [⟨63, 0, .rw, 0, 0, 2 ^ 64⟩]⟩,
  ⟨.fix, rDbgTraceUnits3, [⟨63, 0, .rw, 0, 0, 2 ^ 64⟩]⟩,
  ⟨.fix, rDbgAperture, [⟨47, 23, .rw, 0, 0, 2 ^ 64⟩]⟩,
  ⟨.fix, rDbgAlarm, [⟨7, 0, .w1c, 0, 0, 2 ^ 64⟩]⟩]

/-- Registers of the fix group. -/
def rowsFix7 : List RegRow := [
  ⟨.fix, rDbgAlarmCnt0, [⟨63, 0, .ro, 0, 0, 2 ^ 64⟩]⟩,
  ⟨.fix, rDbgAlarmCnt1, [⟨63, 0, .ro, 0, 0, 2 ^ 64⟩]⟩,
  ⟨.fix, rTstCtrl, [⟨1, 1, .rw, 0, 0, 2 ^ 64⟩,
    ⟨0, 0, .rw, 0, 0, 2 ^ 64⟩]⟩,
  ⟨.fix, rTstInject, [⟨11, 11, .wo, 0, 0, 2 ^ 64⟩,
    ⟨10, 8, .wo, 0, 0, 2 ^ 64⟩,
    ⟨7, 0, .wo, 0, 0, 2 ^ 64⟩]⟩,
  ⟨.fix, rTstStatus, [⟨3, 3, .ro, 0, 0, 2 ^ 64⟩,
    ⟨2, 2, .ro, 0, 0, 2 ^ 64⟩,
    ⟨1, 1, .w1c, 0, 0, 2 ^ 64⟩,
    ⟨0, 0, .w1c, 0, 0, 2 ^ 64⟩]⟩,
  ⟨.fix, rTstIdcode, [⟨31, 0, .ro, 168909659, 0, 2 ^ 64⟩]⟩]

/-- Registers of the queue group. -/
def rowsQueue0 : List RegRow := [
  ⟨.queue, rQCtrl, [⟨63, 48, .ro, 0, 0, 2 ^ 64⟩,
    ⟨41, 40, .ro, 0, 0, 2 ^ 64⟩,
    ⟨30, 24, .rwl, 0, 0, 2 ^ 64⟩,
    ⟨16, 12, .rwl, 0, 0, 2 ^ 64⟩,
    ⟨8, 4, .rwl, 0, 0, 2 ^ 64⟩,
    ⟨0, 0, .rwt, 0, 0, 2 ^ 64⟩]⟩,
  ⟨.queue, rQSqBase, [⟨63, 12, .rwl, 0, 0, 2 ^ 64⟩]⟩,
  ⟨.queue, rQCqBase, [⟨63, 12, .rwl, 0, 0, 2 ^ 64⟩]⟩,
  ⟨.queue, rQCqHead, [⟨63, 3, .rwl, 0, 0, 2 ^ 64⟩]⟩,
  ⟨.queue, rQCounts, [⟨63, 32, .ro, 0, 0, 2 ^ 64⟩,
    ⟨31, 0, .ro, 0, 0, 2 ^ 64⟩]⟩]

/-- Registers of the route group. -/
def rowsRoute0 : List RegRow := [
  ⟨.route, rOnlRoute, [⟨9, 0, .rwt, 0, 0, 2 ^ 64⟩]⟩]

/-- Registers of the port group. -/
def rowsPort0 : List RegRow := [
  ⟨.port, rOnlPortCtrl, [⟨2, 2, .wo, 0, 0, 2 ^ 64⟩,
    ⟨1, 1, .rwl, 0, 0, 2 ^ 64⟩,
    ⟨0, 0, .rw, 0, 0, 2 ^ 64⟩]⟩,
  ⟨.port, rOnlPortStatus, [⟨43, 40, .ro, 0, 0, 2 ^ 64⟩,
    ⟨39, 32, .ro, 0, 0, 2 ^ 64⟩,
    ⟨31, 24, .ro, 0, 0, 2 ^ 64⟩,
    ⟨23, 16, .ro, 0, 0, 2 ^ 64⟩,
    ⟨11, 8, .ro, 0, 0, 2 ^ 64⟩,
    ⟨7, 4, .ro, 0, 0, 2 ^ 64⟩,
    ⟨3, 0, .ro, 0, 0, 2 ^ 64⟩]⟩,
  ⟨.port, rOnlPortDelay, [⟨15, 0, .ro, 0, 0, 2 ^ 64⟩]⟩,
  ⟨.port, rOnlPortErr, [⟨63, 48, .ro, 0, 0, 2 ^ 64⟩,
    ⟨47, 32, .ro, 0, 0, 2 ^ 64⟩,
    ⟨31, 0, .ro, 0, 0, 2 ^ 64⟩]⟩]

/-- Registers of the pf group. -/
def rowsPf0 : List RegRow := [
  ⟨.pf, rPrtLife, [⟨1, 1, .wo, 0, 0, 2 ^ 64⟩,
    ⟨0, 0, .wo, 0, 0, 2 ^ 64⟩]⟩,
  ⟨.pf, rPrtPartCfg, [⟨47, 32, .rwl, 16, 1, 65535⟩,
    ⟨0, 0, .rwl, 0, 0, 2 ^ 64⟩]⟩,
  ⟨.pf, rPrtGalleries, [⟨48, 48, .ro, 0, 0, 2 ^ 64⟩,
    ⟨47, 32, .ro, 0, 0, 2 ^ 64⟩,
    ⟨23, 0, .rwl, 0, 0, 2 ^ 64⟩]⟩,
  ⟨.pf, rPrtKvFrames, [⟨20, 0, .rwt, 0, 0, 1179648⟩]⟩,
  ⟨.pf, rPrtGenFrames, [⟨20, 0, .rwt, 0, 0, 1179648⟩]⟩,
  ⟨.pf, rPrtHot, [⟨47, 32, .ro, 0, 0, 2 ^ 64⟩,
    ⟨14, 8, .ro, 0, 0, 2 ^ 64⟩,
    ⟨6, 0, .rwt, 0, 0, 64⟩]⟩,
  ⟨.pf, rMirMap, [⟨7, 4, .rwl, 0, 0, 2 ^ 64⟩,
    ⟨1, 1, .rwl, 0, 0, 2 ^ 64⟩,
    ⟨0, 0, .rwl, 0, 0, 2 ^ 64⟩]⟩,
  ⟨.pf, rMirTakeover, [⟨23, 0, .rwl, 0, 0, 2 ^ 64⟩]⟩,
  ⟨.pf, rSecTdi, [⟨1, 0, .ro, 0, 0, 2 ^ 64⟩]⟩,
  ⟨.pf, rMirPartStatus, [⟨1, 0, .ro, 0, 0, 2 ^ 64⟩]⟩,
  ⟨.pf, rMirPartStatusHi, [⟨63, 0, .ro, 0, 0, 2 ^ 64⟩]⟩,
  ⟨.pf, rMirPartUnmir, [⟨14, 0, .ro, 0, 0, 2 ^ 64⟩]⟩]

/-- Registers of the pf group. -/
def rowsPf1 : List RegRow := [
  ⟨.pf, rPrtQuota, [⟨42, 32, .rwt, 64, 0, 1024⟩,
    ⟨30, 16, .rwt, 1024, 0, 16384⟩,
    ⟨8, 0, .rwt, 16, 0, 256⟩]⟩]

/-- Registers of the pfk group. -/
def rowsPfk0 : List RegRow := [
  ⟨.pfk, rSecHostwin, [⟨63, 12, .rwt, 0, 0, 2 ^ 64⟩,
    ⟨0, 0, .rwt, 0, 0, 2 ^ 64⟩]⟩,
  ⟨.pfk, rSecHostlim, [⟨63, 12, .rwt, 0, 0, 2 ^ 64⟩]⟩]

/-- Registers of the sl group. -/
def rowsSl0 : List RegRow := [
  ⟨.sl, rPartStatus, [⟨19, 16, .ro, 0, 0, 2 ^ 64⟩,
    ⟨11, 11, .w1c, 0, 0, 2 ^ 64⟩,
    ⟨10, 10, .w1c, 0, 0, 2 ^ 64⟩,
    ⟨8, 8, .w1c, 0, 0, 2 ^ 64⟩,
    ⟨2, 0, .ro, 0, 0, 2 ^ 64⟩]⟩,
  ⟨.sl, rPartDb, [⟨63, 12, .rwl, 0, 0, 2 ^ 64⟩]⟩,
  ⟨.sl, rPartStop, [⟨63, 12, .rwl, 0, 0, 2 ^ 64⟩,
    ⟨9, 0, .rwl, 0, 0, 2 ^ 64⟩]⟩,
  ⟨.sl, rPartAcctBase, [⟨63, 12, .rwl, 0, 0, 2 ^ 64⟩]⟩,
  ⟨.sl, rPartAcctHead, [⟨63, 3, .rwl, 0, 0, 2 ^ 64⟩]⟩,
  ⟨.sl, rPartAcctCfg, [⟨14, 8, .rwl, 0, 0, 2 ^ 64⟩,
    ⟨4, 0, .rwl, 0, 0, 2 ^ 64⟩]⟩,
  ⟨.sl, rPartEventBase, [⟨63, 12, .rwl, 0, 0, 2 ^ 64⟩]⟩,
  ⟨.sl, rPartEventHead, [⟨63, 3, .rwl, 0, 0, 2 ^ 64⟩]⟩,
  ⟨.sl, rPartEventCfg, [⟨14, 8, .rwl, 0, 0, 2 ^ 64⟩,
    ⟨4, 0, .rwl, 0, 0, 2 ^ 64⟩]⟩,
  ⟨.sl, rPartPlaceBase, [⟨63, 12, .rwl, 0, 0, 2 ^ 64⟩]⟩,
  ⟨.sl, rPartPlaceHead, [⟨63, 3, .rwl, 0, 0, 2 ^ 64⟩]⟩,
  ⟨.sl, rPartPlaceCfg, [⟨14, 8, .rwl, 0, 0, 2 ^ 64⟩,
    ⟨4, 0, .rwl, 0, 0, 2 ^ 64⟩]⟩]

/-- Registers of the sl group. -/
def rowsSl1 : List RegRow := [
  ⟨.sl, rPartPlaceTail, [⟨63, 3, .rwl, 0, 0, 2 ^ 64⟩]⟩,
  ⟨.sl, rPrtPlace, [⟨63, 32, .ro, 0, 0, 2 ^ 64⟩,
    ⟨6, 0, .rwt, 0, 0, 99⟩]⟩,
  ⟨.sl, rPrtAcct, [⟨12, 0, .ro, 0, 0, 2 ^ 64⟩]⟩,
  ⟨.sl, rCtxCmd, [⟨63, 32, .wo, 0, 0, 2 ^ 64⟩,
    ⟨31, 16, .wo, 0, 0, 2 ^ 64⟩,
    ⟨15, 8, .wo, 0, 0, 2 ^ 64⟩,
    ⟨2, 2, .wo, 0, 0, 2 ^ 64⟩,
    ⟨1, 0, .wo, 0, 0, 2 ^ 64⟩]⟩,
  ⟨.sl, rCtxSeed, [⟨63, 0, .wo, 0, 0, 2 ^ 64⟩]⟩,
  ⟨.sl, rCtxResult, [⟨40, 32, .ro, 0, 0, 2 ^ 64⟩,
    ⟨31, 16, .ro, 0, 0, 2 ^ 64⟩,
    ⟨8, 8, .ro, 0, 0, 2 ^ 64⟩,
    ⟨7, 0, .ro, 0, 0, 2 ^ 64⟩]⟩]

/-- Registers of the core group. -/
def rowsCore0 : List RegRow := [
  ⟨.core, rCoreProgArray, [⟨63, 0, .ro, 0, 0, 2 ^ 64⟩]⟩,
  ⟨.core, rCoreProgVector, [⟨63, 0, .ro, 0, 0, 2 ^ 64⟩]⟩,
  ⟨.core, rCoreProgDma, [⟨63, 0, .ro, 0, 0, 2 ^ 64⟩]⟩,
  ⟨.core, rCoreProgControl, [⟨63, 0, .ro, 0, 0, 2 ^ 64⟩]⟩,
  ⟨.core, rCoreProgBusy, [⟨7, 4, .ro, 0, 0, 2 ^ 64⟩,
    ⟨3, 0, .ro, 0, 0, 2 ^ 64⟩]⟩,
  ⟨.core, rCoreSnapArray, [⟨63, 0, .ro, 0, 0, 2 ^ 64⟩]⟩,
  ⟨.core, rCoreSnapVector, [⟨63, 0, .ro, 0, 0, 2 ^ 64⟩]⟩,
  ⟨.core, rCoreSnapDma, [⟨63, 0, .ro, 0, 0, 2 ^ 64⟩]⟩,
  ⟨.core, rCoreSnapControl, [⟨63, 0, .ro, 0, 0, 2 ^ 64⟩]⟩,
  ⟨.core, rCoreSnapBusy, [⟨3, 0, .ro, 0, 0, 2 ^ 64⟩]⟩,
  ⟨.core, rCoreSnapTick, [⟨63, 0, .ro, 0, 0, 2 ^ 64⟩]⟩,
  ⟨.core, rCoreScrEcc, [⟨47, 32, .ro, 0, 0, 2 ^ 64⟩,
    ⟨31, 0, .ro, 0, 0, 2 ^ 64⟩]⟩]

/-- Registers of the core group. -/
def rowsCore1 : List RegRow := [
  ⟨.core, rCoreScrSpare, [⟨31, 16, .ro, 0, 0, 2 ^ 64⟩,
    ⟨15, 4, .ro, 0, 0, 2 ^ 64⟩,
    ⟨3, 0, .ro, 8, 0, 2 ^ 64⟩]⟩,
  ⟨.core, rCoreDmaStatus, [⟨7, 0, .ro, 0, 0, 2 ^ 64⟩]⟩,
  ⟨.core, rCoreDmaDepth, [⟨31, 0, .ro, 0, 0, 2 ^ 64⟩]⟩]

/-- Registers of the stk group. -/
def rowsStk0 : List RegRow := [
  ⟨.stk, rStkCtrl, [⟨31, 16, .rwl, 50, 1, 65535⟩,
    ⟨0, 0, .rw, 0, 0, 2 ^ 64⟩]⟩,
  ⟨.stk, rStkPwrSr, [⟨15, 0, .rwt, 0, 0, 2 ^ 64⟩]⟩,
  ⟨.stk, rStkPwrOff, [⟨15, 0, .rwt, 0, 0, 2 ^ 64⟩]⟩,
  ⟨.stk, rStkDieState, [⟨63, 0, .ro, 0, 0, 2 ^ 64⟩]⟩,
  ⟨.stk, rStkWake, [⟨63, 32, .ro, 0, 0, 2 ^ 64⟩,
    ⟨10, 0, .ro, 0, 0, 2 ^ 64⟩]⟩,
  ⟨.stk, rStkEcc, [⟨63, 48, .ro, 0, 0, 2 ^ 64⟩,
    ⟨47, 32, .ro, 0, 0, 2 ^ 64⟩,
    ⟨31, 0, .ro, 0, 0, 2 ^ 64⟩]⟩,
  ⟨.stk, rStkRemap, [⟨31, 16, .ro, 0, 0, 2 ^ 64⟩,
    ⟨14, 2, .ro, 0, 0, 2 ^ 64⟩,
    ⟨1, 0, .ro, 2, 0, 2 ^ 64⟩]⟩,
  ⟨.stk, rStkRetired, [⟨20, 0, .ro, 0, 0, 2 ^ 64⟩]⟩,
  ⟨.stk, rStkFrames, [⟨52, 32, .ro, 0, 0, 2 ^ 64⟩,
    ⟨20, 0, .ro, 0, 0, 2 ^ 64⟩]⟩,
  ⟨.stk, rStkEngine, [⟨10, 8, .ro, 0, 0, 2 ^ 64⟩,
    ⟨6, 0, .ro, 0, 0, 2 ^ 64⟩]⟩,
  ⟨.stk, rStkStatus, [⟨1, 1, .w1c, 0, 0, 2 ^ 64⟩,
    ⟨0, 0, .w1c, 0, 0, 2 ^ 64⟩]⟩]

/-- Registers of the sae group. -/
def rowsSae0 : List RegRow := [
  ⟨.sae, rSaeCtrl, [⟨0, 0, .rw, 0, 0, 2 ^ 64⟩]⟩,
  ⟨.sae, rSaeShareLo, [⟨63, 0, .rwt, 72340172838076673, 0, 2 ^ 64⟩]⟩,
  ⟨.sae, rSaeShareHi, [⟨63, 0, .rwt, 72340172838076673, 0, 2 ^ 64⟩]⟩,
  ⟨.sae, rSaeSlots, [⟨10, 0, .ro, 0, 0, 2 ^ 64⟩]⟩,
  ⟨.sae, rSaeRows, [⟨63, 0, .ro, 0, 0, 2 ^ 64⟩]⟩,
  ⟨.sae, rSaeErr, [⟨47, 32, .ro, 0, 0, 2 ^ 64⟩,
    ⟨31, 0, .ro, 0, 0, 2 ^ 64⟩]⟩,
  ⟨.sae, rSaeStatus, [⟨0, 0, .w1c, 0, 0, 2 ^ 64⟩]⟩]

/-- Every register. -/
def regRows : List RegRow :=
  rowsFix0 ++ rowsFix1 ++ rowsFix2 ++ rowsFix3 ++ rowsFix4 ++ rowsFix5 ++ rowsFix6 ++ rowsFix7 ++ rowsQueue0 ++ rowsRoute0 ++ rowsPort0 ++ rowsPf0 ++ rowsPf1 ++ rowsPfk0 ++ rowsSl0 ++ rowsSl1 ++ rowsCore0 ++ rowsCore1 ++ rowsStk0 ++ rowsSae0

/-- A register named by a BAR0 offset: group, instance, second index (the range k of a host window), local offset. -/
structure RegRef where
  group : RegGroup
  inst  : Nat
  k     : Nat := 0
  loc   : Nat
deriving DecidableEq, Repr

/-- Base of the PF block of partition p (R479). -/
def pfBase (p : Nat) : Nat := 0x100000 + p * 0x10000
/-- Base of the slice of partition p (R479). -/
def sliceBase (p : Nat) : Nat := 0x1000000 + p * 0x100000
/-- Base of the registers of core c (R479). -/
def coreBase (c : Nat) : Nat := 0x2000000 + c * 0x10000
/-- Base of the STK registers of stack s (R479). -/
def stkBase (s : Nat) : Nat := 0x3000000 + s * 0x10000
/-- Base of the SAE registers of stack s (R479). -/
def saeBase (s : Nat) : Nat := 0x3100000 + s * 0x10000
/-- Base of the registers of Onlan port n (R479). -/
def portBase (n : Nat) : Nat := 0x70000 + n * 0x1000
/-- Base of a queue set: queue 64p + q, or 1,024 for the control queue (R483, R484). -/
def queueBase (q : Nat) : Nat :=
  if q = 1024 then 0x21000 else sliceBase (q / 64) + 0x1000 + 0x40 * (q % 64)

/-- The register that an 8-byte-aligned BAR0 offset lies at, copies of a slice aside (R479, R482, R483). -/
def regRef (off : Nat) : Option RegRef :=
  if off < 0x100000 then
    if 0x21000 ≤ off ∧ off < 0x21040 then some ⟨.queue, 1024, 0, off - 0x21000⟩
    else if 0x61000 ≤ off ∧ off < 0x61800 then some ⟨.route, (off - 0x61000) / 8, 0, 0⟩
    else if 0x70000 ≤ off ∧ off < 0x7C000 then some ⟨.port, (off - 0x70000) / 0x1000, 0, off % 0x1000⟩
    else some ⟨.fix, 0, 0, off⟩
  else if off < 0x200000 then
    let p := (off - 0x100000) / 0x10000
    let l := off % 0x10000
    if 0x100 ≤ l ∧ l < 0x180 then some ⟨.pfk, p, (l - 0x100) / 8, 0x100⟩
    else if 0x180 ≤ l ∧ l < 0x200 then some ⟨.pfk, p, (l - 0x180) / 8, 0x180⟩
    else some ⟨.pf, p, 0, l⟩
  else if 0x1000000 ≤ off ∧ off < 0x2000000 then
    let p := (off - 0x1000000) / 0x100000
    let l := off % 0x100000
    if 0x1000 ≤ l ∧ l < 0x2000 then some ⟨.queue, 64 * p + (l - 0x1000) / 0x40, 0, l % 0x40⟩
    else some ⟨.sl, p, 0, l⟩
  else if 0x2000000 ≤ off ∧ off < 0x2C00000 then some ⟨.core, (off - 0x2000000) / 0x10000, 0, off % 0x10000⟩
  else if 0x3000000 ≤ off ∧ off < 0x3100000 then some ⟨.stk, (off - 0x3000000) / 0x10000, 0, off % 0x10000⟩
  else if 0x3100000 ≤ off ∧ off < 0x3200000 then some ⟨.sae, (off - 0x3100000) / 0x10000, 0, off % 0x10000⟩
  else none

/-- The BAR0 offset of the register that a slice's read-only copy shows (R483). -/
def sliceCopy (off : Nat) : Option Nat :=
  if 0x1000000 ≤ off ∧ off < 0x2000000 then
    let p := (off - 0x1000000) / 0x100000
    match off % 0x100000 with
    | 0x800 => some (pfBase p + 0x10)
    | 0x808 => some (pfBase p + 0x18)
    | 0x810 => some (pfBase p + 0x20)
    | 0x818 => some (pfBase p + 0x28)
    | 0x820 => some (pfBase p + 0x48)
    | 0x828 => some (pfBase p + 0x50)
    | 0x830 => some (pfBase p + 0x58)
    | 0x838 => some (pfBase p + 0x40)
    | 0x840 => some (pfBase p + 0x60)
    | _ => none
  else none

/-- The fields of the register at a BAR0 offset; none where no register is defined (R22). -/
def regFields (off : Nat) : List FieldDesc :=
  match regRef off with
  | none => []
  | some r =>
    match regRows.find? fun x => x.group = r.group ∧ x.off = r.loc with
    | some x => x.fields
    | none => []

/-- The bits of a field. -/
def FieldDesc.width (f : FieldDesc) : Nat := f.hi + 1 - f.lo

/-- The mask of a field within its register. -/
def FieldDesc.mask (f : FieldDesc) : Word := BitVec.ofNat 64 ((2 ^ f.width - 1) * 2 ^ f.lo)

/-- The reset value of a register: its fields' values in place. -/
def resetWord (fs : List FieldDesc) : Word :=
  fs.foldl (fun w f => w ||| BitVec.ofNat 64 (f.rst * 2 ^ f.lo)) 0

/-- The reset value of the register at an offset. -/
def regReset (off : Nat) : Word := resetWord (regFields off)

end Sys2Proof.Machine
end

