-- ==== Sys2Proof/Machine/Ops.lean ====
section
/-! DEFINITION. The named operations over the state: canonical maps, memory, registers, free values and time, events,
signals, and the containment of a context's fault. -/

namespace Sys2Proof.Machine

/-! ## Canonical maps -/

/-- The value at a key; `d` where the map lists nothing. -/
def SMap.get {α : Type} (d : α) : SMap α → Nat → α
  | [], _ => d
  | (k, v) :: t, i => if k = i then v else SMap.get d t i

/-- Put a value at a key, keeping the keys in rising order. -/
def SMap.put {α : Type} : SMap α → Nat → α → SMap α
  | [], i, v => [(i, v)]
  | (k, w) :: t, i, v =>
    if i < k then (i, v) :: (k, w) :: t
    else if i = k then (i, v) :: t
    else (k, w) :: SMap.put t i v

/-- Remove a key. -/
def SMap.del {α : Type} : SMap α → Nat → SMap α
  | [], _ => []
  | (k, w) :: t, i => if k = i then SMap.del t i else (k, w) :: SMap.del t i

/-- Write a value: the canonical form lists no entry equal to the default `d`. -/
def SMap.set {α : Type} [DecidableEq α] (d : α) (m : SMap α) (i : Nat) (v : α) : SMap α :=
  if v = d then m.del i else m.put i v

/-- Replace the value at a key by its image. -/
def SMap.upd {α : Type} [DecidableEq α] (d : α) (m : SMap α) (i : Nat) (f : α → α) : SMap α :=
  m.set d i (f (m.get d i))

/-- Replace every listed value by its image. -/
def SMap.mapV {α : Type} [DecidableEq α] (d : α) (f : Nat → α → α) : SMap α → SMap α
  | [] => []
  | (k, v) :: t => if f k v = d then SMap.mapV d f t else (k, f k v) :: SMap.mapV d f t

/-- Keys strictly rising. -/
def SMap.sorted {α : Type} : SMap α → Bool
  | [] => true
  | [_] => true
  | (k, _) :: (l, w) :: t => decide (k < l) && SMap.sorted ((l, w) :: t)

/-- The canonical form: keys strictly rising and no entry equal to the default. -/
def SMap.wf {α : Type} [DecidableEq α] (d : α) (m : SMap α) : Bool :=
  SMap.sorted m && m.all fun e => e.2 ≠ d

/-! ## Memory: stack memory and host memory by address -/

/-- The canonical form of a memory: an unlisted address reads as 0 (R275, R506). -/
abbrev Memory.wf (m : List Host.Cell) : Prop := SMap.wf (0 : Byte) m = true

/-- The byte at an address. -/
def Memory.read (m : List Host.Cell) (a : Nat) : Byte := SMap.get 0 m a

/-- Write the byte at an address. -/
def Memory.write (m : List Host.Cell) (a : Nat) (b : Byte) : List Host.Cell := SMap.set 0 m a b

/-- The `n` bytes from an address. -/
def Memory.readN (m : List Host.Cell) (a n : Nat) : List Byte := (List.range n).map fun i => Memory.read m (a + i)

/-- Write bytes from an address upward. -/
def Memory.writeN (m : List Host.Cell) (a : Nat) : List Byte → List Host.Cell
  | [] => m
  | b :: bs => Memory.writeN (Memory.write m a b) (a + 1) bs

/-- Write bytes at the addresses that come with them, in turn. -/
def Memory.writeAll (m : List Host.Cell) : List (Nat × Byte) → List Host.Cell
  | [] => m
  | x :: xs => Memory.writeAll (Memory.write m x.1 x.2) xs

/-- Write zeros over a range: what a zero-fill leaves. -/
def zeroRange (m : List Host.Cell) (a n : Nat) : List Host.Cell := m.filter fun c => !decide (a ≤ c.1 ∧ c.1 < a + n)

/-! ## Bytes and words, little-endian (R9) -/

/-- The number that bytes hold, least significant first. -/
def leNat : List Byte → Nat
  | [] => 0
  | b :: bs => b.toNat + 256 * leNat bs

/-- Bits hi down to lo of a number. -/
def bits (x hi lo : Nat) : Nat := x / 2 ^ lo % 2 ^ (hi + 1 - lo)

/-- One bit of a number. -/
def bit (x i : Nat) : Bool := x / 2 ^ i % 2 = 1

/-- Saturating addition below `2 ^ w`. -/
def satAdd (w x y : Nat) : Nat := min (x + y) (2 ^ w - 1)

/-! ## Registers -/

/-- The stored value of the register at an offset: the value in force (R478). -/
def State.reg (s : State) (off : Nat) : Word := SMap.get (regReset off) s.regs off

/-- Store a register. -/
def State.setReg (s : State) (off : Nat) (v : Word) : State :=
  { s with regs := SMap.set (regReset off) s.regs off v }

/-- Bits hi down to lo of the register at an offset. -/
def State.fld (s : State) (off hi lo : Nat) : Nat := bits (s.reg off).toNat hi lo

/-- A word with bits hi down to lo replaced. -/
def putBits (w : Word) (hi lo v : Nat) : Word :=
  let m : Word := BitVec.ofNat 64 ((2 ^ (hi + 1 - lo) - 1) * 2 ^ lo)
  (w &&& ~~~m) ||| (BitVec.ofNat 64 (v * 2 ^ lo) &&& m)

/-- Set bits hi down to lo of the register at an offset. -/
def State.setFld (s : State) (off hi lo v : Nat) : State := s.setReg off (putBits (s.reg off) hi lo v)

/-- Set one flag bit. -/
def State.flag (s : State) (off i : Nat) : State := s.setFld off i i 1

/-- Raise a counter field that saturates. -/
def State.countFld (s : State) (off hi lo n : Nat) : State :=
  s.setFld off hi lo (satAdd (hi + 1 - lo) (s.fld off hi lo) n)

/-- The tick number (R15). -/
def State.tickNo (s : State) : Word := s.reg rTckNumber

/-- The tick generator's STATE (R70): 0 NOT_STARTED to 5 HARD_STOPPED. -/
def State.genState (s : State) : Nat := s.fld rTckStatus 2 0

/-- Set the tick generator's STATE. -/
def State.setGenState (s : State) (v : Nat) : State := s.setFld rTckStatus 2 0 v

/-- Deterministic mode (R338, R355). -/
def State.det (s : State) : Bool := s.fld rPrtModuleCtrl 0 0 = 1

/-- PSTATE (R496). -/
def State.pstate (s : State) : Nat := s.fld rPwrStatus 2 0

/-- Set PSTATE. -/
def State.setPstate (s : State) (v : Nat) : State := s.setFld rPwrStatus 2 0 v

/-- HIF_STATUS.BOOT_DONE. -/
def State.bootDone (s : State) : Bool := s.fld rHifStatus 0 0 = 1

/-! ## Components of the state -/

/-- Put stack memory. -/
def State.setMem (s : State) (m : List Host.Cell) : State := { s with mem := m }
/-- Put what the module has written of host memory. -/
def State.setHost (s : State) (m : List Host.Cell) : State := { s with host := m }

/-- Core c. -/
def State.core (s : State) (c : Nat) : CoreSt := SMap.get {} s.cores c
/-- Put core c. -/
def State.setCore (s : State) (c : Nat) (k : CoreSt) : State := { s with cores := SMap.set {} s.cores c k }
/-- Stack t. -/
def State.stk (s : State) (t : Nat) : StackSt := SMap.get {} s.stks t
/-- Put stack t. -/
def State.setStk (s : State) (t : Nat) (k : StackSt) : State := { s with stks := SMap.set {} s.stks t k }
/-- Stream i. -/
def State.stream (s : State) (i : Nat) : StreamSt := SMap.get {} s.streams i
/-- Put stream i. -/
def State.setStream (s : State) (i : Nat) (k : StreamSt) : State := { s with streams := SMap.set {} s.streams i k }
/-- Partition p. -/
def State.part (s : State) (p : Nat) : PartSt := SMap.get {} s.parts p
/-- Put partition p. -/
def State.setPart (s : State) (p : Nat) (k : PartSt) : State := { s with parts := SMap.set {} s.parts p k }

/-- The interface of a partition is LOCKED: the module makes no host access for the partition (R473). -/
def State.locked (s : State) (p : Nat) : Bool := decide ((s.part p).tdi = 1)

/-- Write bytes to host memory for a partition. A write for one whose interface is LOCKED waits (R473; DESIGN CHOICE, log entry 170). -/
def State.hostFor (s : State) (p a : Nat) (data : List Byte) : State :=
  if s.locked p then s.setPart p { s.part p with hostHeld := (s.part p).hostHeld ++ [(a, data)] }
  else s.setHost (Memory.writeN s.host a data)

/-- What waited for the interface of a partition to leave LOCKED goes out: the writes, in order, and the reads (R473; log entry 170). -/
def State.freeHost (s : State) (p : Nat) : State :=
  let held := (s.part p).hostHeld
  let s := s.setPart p { s.part p with hostHeld := [] }
  let s := held.foldl (fun s x => s.setHost (Memory.writeN s.host x.1 x.2)) s
  let go (r : PcieRead) : PcieRead := if r.part = p then { r with shut := false } else r
  { s with reads := s.reads.map go }
/-- Queue q. -/
def State.queue (s : State) (q : Nat) : QueueSt := SMap.get {} s.queues q
/-- Put queue q. -/
def State.setQueue (s : State) (q : Nat) (k : QueueSt) : State := { s with queues := SMap.set {} s.queues q k }
/-- Onlan port n. -/
def State.port (s : State) (n : Nat) : PortSt := SMap.get {} s.ports n
/-- Put Onlan port n. -/
def State.setPort (s : State) (n : Nat) (k : PortSt) : State := { s with ports := SMap.set {} s.ports n k }
/-- A flight, by sequence number. -/
def State.flight (s : State) (f : Nat) : Option FlightSt := SMap.get none s.flights f
/-- Put a flight. -/
def State.setFlight (s : State) (f : Nat) (k : Option FlightSt) : State :=
  { s with flights := SMap.set none s.flights f k }
/-- A context of a partition. -/
def State.ctx (s : State) (p h : Nat) : Option CtxSt := SMap.get none (s.part p).ctxs h
/-- Put a context. -/
def State.setCtx (s : State) (p h : Nat) (k : Option CtxSt) : State :=
  s.setPart p { s.part p with ctxs := SMap.set none (s.part p).ctxs h k }
/-- Change a context that exists. -/
def State.updCtx (s : State) (p h : Nat) (f : CtxSt → CtxSt) : State :=
  match s.ctx p h with
  | some k => s.setCtx p h (some (f k))
  | none => s
/-- A stored graph of a partition, by handle index. -/
def State.graph (s : State) (p g : Nat) : Option GraphSt := SMap.get none (s.part p).graphs g
/-- Put a stored graph. -/
def State.setGraph (s : State) (p g : Nat) (k : Option GraphSt) : State :=
  s.setPart p { s.part p with graphs := SMap.set none (s.part p).graphs g k }
/-- The mirror engine's state of a partition. -/
def State.mirp (s : State) (p : Nat) : MirPart := SMap.get {} s.mir.parts p
/-- Put the mirror engine's state of a partition. -/
def State.setMirp (s : State) (p : Nat) (k : MirPart) : State :=
  { s with mir := { s.mir with parts := SMap.set {} s.mir.parts p k } }

/-- Charge counters of a context, or of the partition alone (R358). -/
def Charges.add (a b : Charges) : Charges :=
  { cycles := a.cycles + b.cycles, slices := a.slices + b.slices, stackB := a.stackB + b.stackB,
    onlanB := a.onlanB + b.onlanB, pcieB := a.pcieB + b.pcieB, tokens := a.tokens + b.tokens }

/-- Charge a context (R358). In a tick that is open, a soft-stopped context charges nothing (R73): what a boundary charges is the tick's that it
closes. -/
def State.charge (s : State) (p h : Nat) (c : Charges) : State :=
  s.updCtx p h fun k => if k.stopped && s.tick.isOpen then k else { k with charges := k.charges.add c }

/-- Charge a partition only (R358). -/
def State.chargePart (s : State) (p : Nat) (c : Charges) : State :=
  s.setPart p { s.part p with charges := (s.part p).charges.add c }

/-! ## Free values and time -/

/-- Draw 64 bits from the CTR_DRBG: a free value (R119). -/
def State.draw (s : State) : Word × State :=
  (Config.drbg s.freeCtr, { s with freeCtr := s.freeCtr + 1 })

/-- The timebase at an event (R513): it advances by a free amount. -/
def State.stampTime (s : State) : Word × State :=
  let t := s.timebase + Config.elapsed s.freeCtr
  (t, { s with timebase := t, freeCtr := s.freeCtr + 1 })

/-! ## Events (R520 to R527) -/

/-- Priority of an event kind (R521): 0 ALARM, 1 ERROR, 2 WARNING, 3 INFO. -/
def kindPrio (k : Nat) : Nat :=
  if 0x20 ≤ k then 0
  else if k ∈ [0x03, 0x04, 0x05, 0x06, 0x0B, 0x0C, 0x11, 0x12, 0x17, 0x1A] then 1
  else if k ∈ [0x01, 0x09, 0x0A, 0x0D, 0x0E, 0x0F, 0x10, 0x13, 0x14, 0x15, 0x16, 0x18, 0x19] then 2
  else 3

/-- Kinds emitted once per tick, context and kind (R521, R524). -/
def kindPerTick (k : Nat) : Bool := k = 0x07 ∨ k = 0x18

/-- Count a lost record by its priority. -/
def LossCounts.lose (l : LossCounts) (prio n : Nat) : LossCounts :=
  match prio with
  | 1 => { l with err := l.err + n }
  | 2 => { l with warn := l.warn + n }
  | 3 => { l with info := l.info + n }
  | _ => l

/-- Two records that coalesce (R526). -/
def EventRec.same (a b : EventRec) : Bool :=
  a.kind = b.kind ∧ a.unit = b.unit ∧ a.ctx = b.ctx ∧ a.part = b.part

/-- Merge a record into the first held record that takes it (R526, step 1). -/
def coalesce (r : EventRec) : List EventRec → Option (List EventRec)
  | [] => none
  | h :: t =>
    if h.same r ∧ h.repeats < 255 then
      some ({ h with repeats := min 255 (h.repeats + r.repeats), coal := true } :: t)
    else (coalesce r t).map (h :: ·)

/-- Replace the newest record of a priority (R526, step 3). -/
def replaceNewest (prio : Nat) (r : EventRec) (l : List EventRec) : Option (List EventRec) :=
  let rec go : List EventRec → Option (List EventRec)
    | [] => none
    | h :: t => if h.prio = prio then some (r :: t) else (go t).map (h :: ·)
  (go l.reverse).map List.reverse

/-- A record that arrives where `limit` records may be held (R526): the records held, and what was lost. -/
def holdRecord (limit : Nat) (r : EventRec) (held : List EventRec) (l : LossCounts) :
    List EventRec × LossCounts × Bool :=
  match coalesce r held with
  | some h => (h, { l with coal := l.coal + 1 }, false)
  | none =>
    if held.length < limit then (held ++ [r], l, false)
    else
      let tryInfo := if r.prio ≤ 2 then replaceNewest 3 r held else none
      match tryInfo with
      | some h => (h, l.lose 3 1, true)
      | none =>
        match (if r.prio = 1 then replaceNewest 2 r held else none) with
        | some h => (h, l.lose 2 1, true)
        | none => (held, l.lose r.prio 1, true)

/-- The ring of a unit. -/
def State.ring (s : State) (u : Nat) : UnitRing := SMap.get {} s.dbg.rings u

/-- Put the ring of a unit. -/
def State.setRing (s : State) (u : Nat) (r : UnitRing) : State :=
  { s with dbg := { s.dbg with rings := SMap.set {} s.dbg.rings u r } }

/-- Raise DBG_LOSS and RECORDS_LOST by what was newly lost (R526). -/
def State.noteLoss (s : State) (old new : LossCounts) : State :=
  let s := ((s.countFld rDbgLoss 15 0 (new.err - old.err)).countFld rDbgLoss 31 16 (new.warn - old.warn))
  let s := (s.countFld rDbgLoss 47 32 (new.info - old.info)).countFld rDbgLoss 63 48 (new.coal - old.coal)
  if new.err + new.warn + new.info > old.err + old.warn + old.info then s.flag rDbgStatus 3 else s

/-- A unit writes a record to its ring, the newest 256 staying (R522). -/
def State.logRec (s : State) (r : EventRec) : State :=
  let u := s.ring r.unit
  let recs := u.recs ++ [r]
  s.setRing r.unit { u with recs := recs.drop (recs.length - 256), count := (u.count + 1) % 2 ^ 32 }

/-- A unit writes a record to its ring and offers it to the router (R522, R526). -/
def State.pushRec (s : State) (r : EventRec) : State :=
  let s := s.logRec r
  let u := s.ring r.unit
  let h := holdRecord 16 r u.unsent u.loss
  (s.setRing r.unit { u with unsent := h.1, loss := h.2.1 }).noteLoss u.loss h.2.1

/-- Hold a per-tick record in its unit until the next step 0 (R524). -/
def State.holdPerTick (s : State) (r : EventRec) : State :=
  let u := s.ring r.unit
  let rec go : List EventRec → List EventRec
    | [] => [r]
    | h :: t =>
      if h.kind = r.kind ∧ h.ctx = r.ctx ∧ h.part = r.part then
        { h with repeats := min 255 (h.repeats + 1) } :: t
      else h :: go t
  s.setRing r.unit { u with perTick := go u.perTick }

/-- Emit an event record (R520): stamped, and held if its kind is per tick. -/
def State.emit (s : State) (unit kind : Nat) (d0 d1 : Nat) (part : Option Nat := none) (ctx : Nat := 0)
    (superseded : Bool := false) : State :=
  let t := s.stampTime
  let r : EventRec :=
    { time := t.1, tick := s.tickNo.toNat % 2 ^ 32, kind := kind, prio := kindPrio kind, superseded := superseded,
      unit := unit, ctx := ctx, part := part, d0 := d0 % 2 ^ 32, d1 := d1 % 2 ^ 64 }
  if kindPerTick kind then t.2.holdPerTick r else t.2.pushRec r

/-- Raise alarm k (R527): latch, count, PLDM event message, the unit's ring (R522), one queued record for the physical function's ring. -/
def State.alarm (s : State) (k : Nat) (unit d0 d1 : Nat) : State :=
  let s := s.flag rDbgAlarm k
  let off := if k < 4 then rDbgAlarmCnt0 else rDbgAlarmCnt1
  let s := s.countFld off (16 * (k % 4) + 15) (16 * (k % 4)) 1
  let s := { s with dbg := { s.dbg with pldm := SMap.upd 0 s.dbg.pldm k (· + 1) } }
  let t := s.stampTime
  let s := t.2
  let r : EventRec := { time := t.1, tick := s.tickNo.toNat % 2 ^ 32, kind := 0x20 + k, prio := 0, unit := unit,
                        d0 := d0, d1 := d1 }
  let s := s.logRec r
  let rec go : List EventRec → List EventRec
    | [] => [r]
    | h :: t => if h.kind = r.kind then { h with repeats := min 255 (h.repeats + 1) } :: t else h :: go t
  { s with dbg := { s.dbg with pfRing := { s.dbg.pfRing with alarms := go s.dbg.pfRing.alarms } } }

/-! ## What the codes make of an error (R202, R253, R254) -/

/-- The finding on an error beyond a code's reach: a free value. -/
def beyondFinding (a n : Nat) : Ecc :=
  match (Config.beyondCode a n).toNat with
  | 0 => .ok
  | 1 => .corrected a
  | 2 => .uncorrectable a
  | _ => .tagFail a

/-- The code of a scratchpad word corrects one flipped bit and detects two (R202). -/
def wordEcc (p : PhysErr) : Ecc :=
  match p with
  | .damaged _ 0 => .ok
  | .damaged a 1 => .corrected a
  | .damaged a 2 => .uncorrectable a
  | .damaged a n => beyondFinding a n
  | _ => .ok

/-- The tag of a ciphertext at a line of a stack, under the stack's tag keys (R451). -/
def State.tagOf (s : State) (st line : Nat) (cipher : List Byte) : BitVec 64 :=
  lineTag (stackKey s.sec.keys.stackDraw st 2) (stackKey s.sec.keys.stackDraw st 3) (xtsTweak st line) cipher

/-- The code of a stack line corrects damage to at most 3 of its 80 bytes and detects damage to 4 or 5; then the tag is checked (R253,
R254, R451). A ciphertext and tag that agree at this address are those of an earlier value of the line, which is not modelled to return (log
entry 165). -/
def State.lineEcc (s : State) (p : PhysErr) : Ecc :=
  match p with
  | .ok => .ok
  | .damaged a n => if n = 0 then .ok else if n ≤ 3 then .corrected a else if n ≤ 5 then .uncorrectable a else beyondFinding a n
  | .wrongTag a => .tagFail a
  | .found a c t => if s.tagOf (a / 0x1200000000) (a % 0x1200000000 / 64) c = t then .ok else .tagFail a

/-- The finding at a device address: a stack line's below the top of stack memory, a scratchpad word's above. -/
def State.devEcc (s : State) (p : PhysErr) : Ecc :=
  match p with
  | .damaged a _ => if a < 16 * 0x1200000000 then s.lineEcc p else wordEcc p
  | _ => s.lineEcc p

/-! ## Injected errors (R536) -/

/-- The armed injection that an access of one of these kinds at a unit uses up; 0 if there is none. -/
def State.injected (s : State) (unit : Nat) (kinds : List Nat) : Nat × State :=
  match s.dbg.inject with
  | some x => if x.2 = unit ∧ x.1 ∈ kinds then (x.1, { s with dbg := { s.dbg with inject := none } }) else (0, s)
  | none => (0, s)

/-- The physical error that an access at an address meets, an injected one first (R536). -/
def State.injectEcc (s : State) (unit : Nat) (kinds : List Nat) (a : Nat) (e : Ecc) : Ecc × State :=
  let r := s.injected unit kinds
  (match r.1 with
   | 0 => e
   | 1 => .corrected a
   | 4 => .corrected a
   | 6 => .tagFail a
   | _ => .uncorrectable a, r.2)

/-- A restricted boundary-scan instruction gives way to IDCODE, and every pin returns to its function, where scan is no longer
enabled (R535). -/
def State.scanFalls (s : State) : State :=
  if s.pwr.resetHeld ∨ s.dbg.tap = .idcode ∨ s.dbg.tap = .bypass ∨ s.dbg.tap = .samplePreload then s
  else { s with dbg := { s.dbg with tap := .idcode, pinsDriven := false, pinsFloat := false } }

/-! ## Measurements and the configuration record (R445, R455) -/

/-- The 64 bytes of a digest. -/
def digestBytes (d : BitVec 512) : List Byte := leBytes 64 d.toNat

/-- Extend a measurement slot with data (R455). -/
def State.extendSlot (s : State) (i : Nat) (d : List Byte) : State :=
  let x := s.sec.slots.getD i {}
  let v := Config.shake256 (digestBytes x.value ++ digestBytes (Config.shake256 d))
  { s with sec := { s.sec with slots := s.sec.slots.set i { value := v, count := x.count + 1 } } }

/-- A new version of the signed configuration record, signed by the module's record key and measured in slot 2 (R445, R455). It is written to
the bank that is not in force, which the former version stays in. -/
def State.commitRecord (s : State) (f : ConfigRec → ConfigRec) : State :=
  let r := f s.sec.record
  let v := s.sec.record.version + 1
  { s with sec := { s.sec with record := { r with version := v, factory := false }, spare := some s.sec.record } }.extendSlot 2
    (Config.measured 2 v)

/-- The record key (R447, R448): derived from the root key under its label. -/
def State.recordKey (s : State) : Option (BitVec 512) := s.sec.keys.root.map fun k => derivedKey k "record"

/-! ## Performance counters (R515) -/

/-- The selected event of counter k of a unit: a core's or a stack's. -/
def State.perfEvent (s : State) (unit k : Nat) : Nat :=
  let r := if unit < 192 then rDbgPmuCore else rDbgPmuStk
  s.fld r (8 * k + 7) (8 * k)

/-- Count `n` occurrences of event `ev` at a unit; a counter that saturates emits COUNTER_SATURATED (R515). -/
def State.perfOne (s : State) (unit ev n k : Nat) : State :=
  if s.perfEvent unit k = ev ∧ n ≠ 0 then
    let p := SMap.get {} s.dbg.perf unit
    let old := p.live.getD k 0
    let new := satAdd 64 old n
    let s := { s with dbg := { s.dbg with perf := SMap.set {} s.dbg.perf unit { p with live := p.live.set k new } } }
    if new = 2 ^ 64 - 1 ∧ old ≠ new then s.emit unit 0x08 k 0 else s
  else s

/-- Count an event on each of a unit's four counters. -/
def State.perf (s : State) (unit ev n : Nat) : State :=
  (((s.perfOne unit ev n 0).perfOne unit ev n 1).perfOne unit ev n 2).perfOne unit ev n 3

/-! ## Containment (R165, R363 to R365) -/

/-- A landing begins (R381): it is counted, recorded once (R521) and in progress. -/
def State.landing (s : State) (level unit status : Nat) (part ctx : Option Nat) : State :=
  let s := (s.countFld rPrtLandings (16 * (level - 1) + 15) (16 * (level - 1)) 1).emit unit 0x12 level status part (ctx.getD 0)
  let l : LandingSt := { id := s.rcv.nextId, level := level, part := part, ctx := ctx, unit := unit, cause := status }
  { s with rcv := { s.rcv with landings := s.rcv.landings ++ [l], nextId := s.rcv.nextId + 1 } }

/-- A status of the class of data errors (R363). -/
def dataStatus (status : Nat) : Bool := status = 0x25 || status = 0x26

/-- The first fault of a context decides its status (R365) and begins its landing 1, which the fence then carries on; a later
fault is recorded only: where its unit has not recorded it (`noted`), as kind LANDING with level 0 (log entry 144). After a data error the
context issues nothing further (R364). It is no suspect of a hang any more: it is torn down anyway (R391). -/
def State.contain (s : State) (p h status unit : Nat) (flight : Option Nat := none) (noted : Bool := false) : State :=
  let s := { s with rcv := { s.rcv with suspects := s.rcv.suspects.filter fun x => !decide (x.part = p ∧ x.ctx = h) } }
  match s.ctx p h with
  | some k =>
    if k.tear = .none then
      (s.setCtx p h (some { k with tear := .faulted, status := status, unit := unit, faultFlight := flight,
                                   dataErr := dataStatus status })).landing
        1 unit status (some p) (some h)
    else
      let s := s.setCtx p h (some { k with dataErr := k.dataErr || dataStatus status })
      if noted then s else s.emit unit 0x12 0 status (some p) h
  | none => s

/-- A core or an attention engine takes on work of a context in this tick (R379). -/
def State.works (s : State) (unit p h : Nat) : State :=
  if s.tick.worked.contains (unit, p, h) then s else { s with tick := { s.tick with worked := s.tick.worked ++ [(unit, p, h)] } }

/-- Saturating increment of STALE_DROPS (R366). -/
def State.staleDrop (s : State) (n : Nat) : State := s.countFld rPrtStale 31 0 n

/-- The epoch of a context; none if the partition holds no such context. -/
def State.epochOf (s : State) (p h : Nat) : Option (BitVec 16) := (s.ctx p h).map CtxSt.epoch

/-- A request's epoch is current (R366). -/
def State.epochOk (s : State) (p h : Nat) (e : BitVec 16) : Bool := s.epochOf p h = some e

end Sys2Proof.Machine
end

