-- ==== Sys2Proof/Machine/Links.lean ====
section
/-! DEFINITION. Sending over Onlan (R400 to R413): message headers, channels and credits, the ports that are live, and the data
that a mirrored partition streams (R416, R417). -/

namespace Sys2Proof.Machine

/-! ## The message header (R405) -/

/-- KIND. -/
def mKind (h : BitVec 256) : Nat := bits h.toNat 7 0
/-- DST_MODULE. -/
def mDst (h : BitVec 256) : Nat := bits h.toNat 15 8
/-- SRC_MODULE. -/
def mSrc (h : BitVec 256) : Nat := bits h.toNat 23 16
/-- SRC_PARTITION. -/
def mPart (h : BitVec 256) : Nat := bits h.toNat 27 24
/-- RC. -/
def mRc (h : BitVec 256) : Bool := bit h.toNat 28
/-- ROW_END. -/
def mRowEnd (h : BitVec 256) : Bool := bit h.toNat 29
/-- HOPS. -/
def mHops (h : BitVec 256) : Nat := bits h.toNat 31 30
/-- WINDOW. -/
def mWin (h : BitVec 256) : Nat := bits h.toNat 41 32
/-- EPOCH. -/
def mEpoch (h : BitVec 256) : BitVec 16 := BitVec.ofNat 16 (bits h.toNat 63 48)
/-- The word at 0x08. -/
def mWord (h : BitVec 256) : Nat := bits h.toNat 127 64
/-- MSG_SEQ. -/
def mSeq (h : BitVec 256) : Nat := bits h.toNat 159 128
/-- LENGTH. -/
def mLen (h : BitVec 256) : Nat := bits h.toNat 172 160
/-- STATUS. -/
def mStatus (h : BitVec 256) : Nat := bits h.toNat 183 176
/-- ROW_POS. -/
def mRowPos (h : BitVec 256) : Nat := bits h.toNat 223 192
/-- ROW_ID. -/
def mRowId (h : BitVec 256) : Nat := bits h.toNat 255 224

/-- The fields of a header; those that a kind does not use are 0. -/
structure MsgFields where
  kind : Nat
  dst : Nat
  src : Nat
  part : Nat := 0
  rc : Bool := false
  rowEnd : Bool := false
  hops : Nat := 0
  win : Nat := 0
  epoch : Nat := 0
  word : Nat := 0
  seq : Nat := 0
  len : Nat := 0
  status : Nat := 0
  rowPos : Nat := 0
  rowId : Nat := 0
deriving DecidableEq, Repr

/-- The 32 bytes of a header. -/
def MsgFields.hdr (f : MsgFields) : BitVec 256 :=
  BitVec.ofNat 256 (f.kind + f.dst * 2 ^ 8 + f.src * 2 ^ 16 + f.part * 2 ^ 24 + (if f.rc then 2 ^ 28 else 0) +
    (if f.rowEnd then 2 ^ 29 else 0) + f.hops * 2 ^ 30 + f.win * 2 ^ 32 + f.epoch * 2 ^ 48 + f.word % 2 ^ 64 * 2 ^ 64 +
    f.seq % 2 ^ 32 * 2 ^ 128 + f.len * 2 ^ 160 + f.status * 2 ^ 176 + f.rowPos * 2 ^ 192 + f.rowId % 2 ^ 32 * 2 ^ 224)

/-- The channel of a message (R400, R405). -/
def channelOf (h : BitVec 256) : Nat :=
  match mKind h with
  | 1 => mHops h
  | 2 => 4 + mHops h
  | 7 | 8 => 9
  | _ => 8

/-- Flits of a channel's credit. -/
def channelCredits (ch : Nat) : Nat := if ch ≤ 7 then 64 else if ch = 8 then 16 else 1024

/-- Flits of a message: a header of 32 bytes and its data, 244 bytes a flit. -/
def PortMsg.flits (m : PortMsg) : Nat := (32 + m.data.length + 243) / 244

/-! ## Ports -/

/-- A port is live: ACTIVE. -/
def State.live (s : State) (n : Nat) : Bool := (s.port n).st = 6

/-- MODULE_ID. -/
def State.moduleId (s : State) : Nat := s.fld rOnlModule 7 0

/-- The register ONL_ROUTE_d lies in the block of routes. -/
def routeReg (d : Nat) : Nat := 0x61000 + 8 * d + rOnlRoute

/-- The live fabric ports of the entry of a destination, ascending; the module's own entry is ignored (R411). -/
def State.routes (s : State) (d : Nat) : List Nat :=
  (List.range 10).filter fun n => bit (s.reg (routeReg d)).toNat n && s.live n && !decide (d = s.moduleId)

/-- The port that a message to a destination takes (R411): by MSG_SEQ, and the lowest for CONTROL messages. -/
def State.routeOf (s : State) (d seq : Nat) (control : Bool) : Option Nat :=
  let l := s.routes d
  if control then l.head? else l[seq % l.length]?

/-- The channel that sends next (R402): CONTROL, then RSP, then REQ and MIRROR in round robin; a channel sends while it has a
flit and a credit. -/
def PortSt.nextChannel (k : PortSt) : Option Nat :=
  let ok (c : Nat) : Bool := (k.sendq.any fun x => x.1 = c) && decide (SMap.get 0 k.credits c < channelCredits c)
  let ring := [0, 1, 2, 3, 9]
  let later := (ring.filter fun c => decide (k.turn < c)) ++ ring.filter fun c => decide (c ≤ k.turn)
  ([8, 4, 5, 6, 7] ++ later).find? ok

/-- The bytes that a message's flits carry: its header, then its data (R405). -/
def PortMsg.bytes (m : PortMsg) : List Byte := leBytes 32 m.hdr.toNat ++ m.data

/-- A flit's payload of 244 bytes; what a message's end leaves of it is 0 (log entry 166). -/
def payload244 (l : List Byte) : List Byte := (l ++ List.replicate 244 0).take 244

/-- The credits that the next flit returns (R401): of the first channel that is owed any, as many as the field holds. -/
def PortSt.owes (k : PortSt) : Nat × Nat :=
  match k.owed.head? with
  | some x => (x.1, min 255 x.2)
  | none => (0, 0)

/-- The nonce of the segment being sent (R453). -/
def PortSt.nonceOut (k : PortSt) : Nat := k.txSeg % 2 ^ 64 * 2 ^ 32 + k.wordOut.toNat

/-- The nonce of the segment being received. -/
def PortSt.nonceIn (k : PortSt) : Nat := k.rxSeg % 2 ^ 64 * 2 ^ 32 + k.wordIn.toNat

/-- A flit goes out: it holds a credit of its channel and a place of the replay buffer, and returns what credits it can (R400, R401, R403). -/
def PortSt.emitFlit (k : PortSt) (f : FlitOut) : PortSt :=
  let f := { f with seq := k.txSeq, seg := k.txSeg, idx := k.txSegFlits, credit := k.owes }
  { k with credits := SMap.upd 0 k.credits f.vc (· + 1), owed := SMap.upd 0 k.owed k.owes.1 (· - k.owes.2),
           replayBuf := k.replayBuf ++ [f], txSeq := (k.txSeq + 1) % 4096 }

/-- What is left to send once a flit of a channel's oldest message has gone. -/
def takeFlit (c : Nat) : List (Nat × Nat × PortMsg) → List (Nat × Nat × PortMsg)
  | [] => []
  | x :: t => if x.1 = c then (if x.2.1 ≤ 1 then t else (c, x.2.1 - 1, x.2.2) :: t) else x :: takeFlit c t

/-- Send one flit of a channel's oldest message, its payload encrypted in the segment's stream (R400, R404). -/
def PortSt.sendFlit (k : PortSt) (c : Nat) : PortSt :=
  match k.sendq.find? fun x => decide (x.1 = c) with
  | none => k
  | some (_, left, m) =>
    let i := m.flits - left
    let last := decide (left ≤ 1)
    let data := payload244 (m.bytes.drop (244 * i))
    let k' := k.emitFlit { seq := 0, vc := c, typ := if i = 0 then 1 else 2, last := last, tag := m.tag, payload := data,
                           msg := if last then some m else none }
    { k' with sendq := takeFlit c k.sendq, sent := if last then k.sent ++ [m] else k.sent, turn := if c ≤ 3 ∨ c = 9 then c else k.turn,
              txSegData := k.txSegData ++ gcmText k.keyOut k.nonceOut data (244 * k.txSegFlits), txSegFlits := k.txSegFlits + 1 }

/-- The tag of the segment being sent. -/
def PortSt.tagOut (k : PortSt) : BitVec 128 := gcmTag k.keyOut k.nonceOut [] k.txSegData

/-- The TAG flit's channel has a credit: the spec does not say which it takes, and here it is CONTROL's (DESIGN CHOICE, log entry 166). -/
def PortSt.canTag (k : PortSt) : Bool := SMap.get 0 k.credits 8 < channelCredits 8

/-- Close the segment being sent: a TAG flit with its tag and its number, and the next segment begins (R404). -/
def PortSt.closeSegment (k : PortSt) : PortSt :=
  let k' := k.emitFlit { seq := 0, vc := 8, typ := 3, payload := payload244 (leBytes 16 k.tagOut.toNat ++ leBytes 8 k.txSeg) }
  { k' with txSeg := k.txSeg + 1, txSegFlits := 0, txSegData := [] }

/-- Send what the credits and the replay buffer of 1,024 flits allow. The other flit slots carry IDLE, which returns every credit owed (R401,
R402). -/
def PortSt.pump (k : PortSt) : Nat → PortSt
  | 0 => k
  | n + 1 =>
    if k.st ≠ 6 then k
    else if 1024 ≤ k.replayBuf.length then { k with owed := [] }
    else if k.txSegFlits = 1024 then (if k.canTag then k.closeSegment.pump n else { k with owed := [] })
    else match k.nextChannel with
      | some c => (k.sendFlit c).pump n
      | none => { k with owed := [] }

/-- The 256 bytes of a flit on the wire (R400): header word, the payload of a HEAD or BODY flit encrypted, CRC-32C over what stands before. -/
def PortSt.wire (k : PortSt) (f : FlitOut) : List Byte :=
  let h := f.typ + 16 * f.vc + 2 ^ 8 * f.seq + 2 ^ 20 * ((k.rxSeq + 4095) % 4096) + 2 ^ 32 * f.credit.1 + 2 ^ 36 * f.credit.2 +
    (if k.nakSent then 2 ^ 44 else 0) + (if f.last then 2 ^ 45 else 0) + 2 ^ 48 * f.tag
  let nonce := f.seg % 2 ^ 64 * 2 ^ 32 + k.wordOut.toNat
  let b := leBytes 8 h ++ (if f.typ = 3 then f.payload else gcmText k.keyOut nonce f.payload (244 * f.idx))
  b ++ leBytes 4 (crc32c b).toNat

/-- The lanes that carry a flit's bytes: 32 to each lane in use in turn (R400). -/
def striped (lanes : List Nat) (b : List Byte) : List (Nat × List Byte) :=
  (List.range 8).map fun i => (lanes.getD (i % lanes.length) 0, (b.drop (32 * i)).take 32)

/-- A received message leaves the receive buffer: the credits of its flits return (R401). -/
def State.freeFlits (s : State) (n : Nat) (m : PortMsg) : State :=
  let k := s.port n
  let c := channelOf m.hdr
  let f := min m.flits (SMap.get 0 k.rxUsed c)
  if f = 0 then s
  else s.setPort n ({ k with rxUsed := SMap.upd 0 k.rxUsed c (· - f), owed := SMap.upd 0 k.owed c (· + f) }.pump 1100)

/-- Hand a message to a port. -/
def State.sendOn (s : State) (n : Nat) (m : PortMsg) : State :=
  let k := s.port n
  s.setPort n ({ k with sendq := k.sendq ++ [(channelOf m.hdr, m.flits, m)] }.pump 1100)

/-- A message of the fabric: on the port that its destination's entry gives, or held until one is live (R411, R413). -/
def State.sendFabric (s : State) (m : PortMsg) : State :=
  match s.routeOf (mDst m.hdr) (mSeq m.hdr) (channelOf m.hdr = 8) with
  | some n => s.sendOn n m
  | none => { s with heldMsgs := s.heldMsgs ++ [m] }

/-- Forward a message that is for another module (R412). -/
def State.forward (s : State) (hdr : BitVec 256) (data : List Byte) : State :=
  if mHops hdr = 3 then s.countFld rOnlDrops 47 32 1
  else s.sendFabric { hdr := hdr + BitVec.ofNat 256 (2 ^ 30), data := data }

/-! ## WRITE messages (R406, R409, R411, R413) -/

/-- The header of a WRITE (R405). -/
def State.writeHdr (s : State) (m : MsgOut) : BitVec 256 :=
  MsgFields.hdr { kind := 1, dst := m.dst, src := s.moduleId, part := m.part, rc := m.rc, rowEnd := m.rowEnd, win := m.win,
                  epoch := m.epoch.toNat, word := m.offset, seq := m.seq, len := m.data.length, rowPos := m.rowPos, rowId := m.rowId }

/-- Send a WRITE on the port that its destination's entry gives; it stays as it is where no port is live. -/
def State.sendWrite (s : State) (m : MsgOut) : State × MsgOut :=
  match s.routeOf m.dst m.seq false with
  | some n => (s.sendOn n { hdr := s.writeHdr m, data := m.data, tag := m.ctx }, { m with port := some n, lost := false, numbered := true })
  | none => (s, m)

/-- Send WRITEs that wait, in order, while fewer than 4,096 messages to the destination are unacknowledged: `n` are. A message takes
the next MSG_SEQ when it is first sent, and keeps it when it is sent again (R409). -/
def State.sendWaiting (d : Nat) : State → Nat → List MsgOut → State × List MsgOut
  | s, _, [] => (s, [])
  | s, n, m :: t =>
    if m.dst = d ∧ m.port = none ∧ n < 4096 then
      let q := if m.numbered then m.seq else SMap.get 0 s.sendSeq d
      let r := s.sendWrite { m with seq := q }
      let s' := if r.2.port.isSome ∧ !m.numbered then { r.1 with sendSeq := SMap.set 0 r.1.sendSeq d ((q + 1) % 2 ^ 32) } else r.1
      let x := State.sendWaiting d s' (if r.2.port.isSome then n + 1 else n) t
      (x.1, r.2 :: x.2)
    else
      let x := State.sendWaiting d s n t
      (x.1, m :: x.2)

/-- Send what waits for a destination. -/
def State.pumpSends (s : State) (d : Nat) : State :=
  let r := State.sendWaiting d s (s.sends.countP fun m => m.dst = d && m.port.isSome) s.sends
  { r.1 with sends := r.2 }

/-- What waits for a route goes out where a port of its destination's entry is live (R412, R413). -/
def State.routeReturns (s : State) : State :=
  let held := s.heldMsgs
  let s := held.foldl (fun s m => s.sendFabric m) { s with heldMsgs := [] }
  ((s.sends.map MsgOut.dst).eraseDups).foldl (fun s d => s.pumpSends d) s

/-! ## What a mirrored partition streams (R414, R416, R417) -/

/-- MIR_MAP names a partition as mirrored, on a module that may hold mirrored partitions: in active/standby, the active one (R414). -/
def State.mirMapped (s : State) (p : Nat) : Bool :=
  s.fld (pfBase p + rMirMap) 0 0 = 1 && (s.fld rMirCtrl 2 1 ≠ 1 || s.fld rMirCtrl 3 3 = 1)

/-- A partition is mirrored to a partner of a formed pair. -/
def State.mirrored (s : State) (p : Nat) : Bool := s.mir.pair = .paired && s.mirMapped p

/-- A partition is fenced: its module's lease ended while it was mirrored (R423). -/
def State.fencedPart (s : State) (p : Nat) : Bool := (s.mirp p).fenced

/-- This module serves a mirrored partition (R424): the mirror engine is on, and it holds a partition that it mirrors, or a shadow that it has
promoted. -/
def State.serves (s : State) : Bool :=
  s.fld rMirCtrl 0 0 = 1 && s.fld rMirCtrl 2 1 ≠ 0 &&
    (List.range 16).any fun p => (s.part p).st ≠ .absent && ((s.mirMapped p && !(s.mirp p).fenced) || (s.mirp p).shadow = 3)

/-- Put the claim line (R424): asserted while the module serves, but not once a landing 4, the parked state or a period without a boundary has
taken it away; a fenced partition is not served. -/
def State.claim (s : State) : State :=
  { s with mir := { s.mir with claimOut := s.serves && !s.mir.claimOff && !s.sec.parked } }

/-- The mirror port that messages to the partner take. -/
def State.mirPort (s : State) : Option Nat := [10, 11].find? fun n => s.live n

/-- PARTNER_ID. -/
def State.partnerId (s : State) : Nat := s.fld rMirCtrl 15 8

/-- Messages of at most 4,096 bytes. -/
def chunks4k : Nat → List Byte → List (List Byte)
  | 0, _ => []
  | n + 1, d => if d = [] then [] else d.take 4096 :: chunks4k n (d.drop 4096)

/-- Hand a message to a mirror port; with both down it waits for one (R430). -/
def State.onMirror (s : State) (m : PortMsg) : State :=
  match s.mirPort with
  | some n => s.sendOn n m
  | none => { s with mir := { s.mir with held := s.mir.held ++ [m] } }

/-- Send a message to the pair partner. -/
def State.sendMirror (s : State) (f : MsgFields) (data : List Byte) : State :=
  s.onMirror { hdr := { f with dst := s.partnerId, src := s.moduleId, len := min 4096 data.length }.hdr, data := data }

/-- What waits for a mirror port goes out. -/
def State.mirReturns (s : State) : State := s.mir.held.foldl (fun s m => s.onMirror m) { s with mir := { s.mir with held := [] } }

/-- Send one MIRROR_DATA of a partition, with the next MSG_SEQ of its data (R418; log entry 167). -/
def State.sendData (s : State) (p : Nat) (d : List Byte) : State :=
  let n := ((s.mirp p).dataSeq + 1) % 2 ^ 32
  (s.setMirp p { s.mirp p with dataSeq := n }).sendMirror { kind := 7, dst := 0, src := 0, part := p, word := s.tickNo.toNat, seq := n } d

/-- Stream data of a mirrored partition, for a context where the tick waits for it: the partition alone is charged. -/
def State.mirrorData (s : State) (p : Nat) (ctx : Option Nat) (data : List Byte) : State :=
  if !s.mirrored p || data.isEmpty then s
  else
    let m := s.mirp p
    let wait := match ctx with
      | some h => if m.unacked.contains h then m.unacked else m.unacked ++ [h]
      | none => m.unacked
    let s := (s.setMirp p { m with streamed := m.streamed ++ [(ctx.elim 0 (· + 1), data)], unacked := wait }).chargePart p { onlanB := data.length }
    (chunks4k data.length data).foldl (fun s d => s.sendData p d) s

end Sys2Proof.Machine
end

