-- ==== Sys2Proof/Machine/Issue.lean ====
section
/-! DEFINITION. Issue of the core command set (R129, R164 to R172): the core's registers and scratchpad, the conditions under
which the control core issues the word at its pc, the loop stack, and what follows an illegal instruction, a window
violation or a data error. -/

namespace Sys2Proof.Machine

/-! ## Core registers (R165, R166) -/

/-- A region that holds nothing. -/
def noRegion : Region := { core := 0, off := 0, len := 0 }

/-- The region of the flight on this core (R160). -/
def CoreSt.region (k : CoreSt) : Region := k.slotTab.getD k.slot noRegion

/-- Scalar register n; X0 reads 0. -/
def CoreSt.xr (k : CoreSt) (n : Nat) : Word := if n = 0 then 0 else SMap.get 0 k.x n

/-- Write scalar register n; a write to X0 is discarded. -/
def CoreSt.setX (k : CoreSt) (n : Nat) (v : Word) : CoreSt :=
  if n = 0 then k else { k with x := SMap.set 0 k.x n v }

/-- A vector register of +0. -/
def zeroVec : List Lane := List.replicate 128 0

/-- Vector register n: 128 lanes. -/
def CoreSt.vr (k : CoreSt) (n : Nat) : List Lane := SMap.get zeroVec k.v n

/-- Write vector register n. -/
def CoreSt.setV (k : CoreSt) (n : Nat) (v : List Lane) : CoreSt := { k with v := SMap.set zeroVec k.v n v }

/-- Count register n. -/
def CoreSt.cntr (k : CoreSt) (n : Nat) : Word := SMap.get 0 k.cnt n

/-- Add to count register n; it saturates at 2^64 − 1. -/
def CoreSt.addCnt (k : CoreSt) (n inc : Nat) : CoreSt :=
  { k with cnt := SMap.set 0 k.cnt n (BitVec.ofNat 64 (satAdd 64 (k.cntr n).toNat inc)) }

/-- The instruction's position: instructions from the entry, 32 bits (R75). -/
def CoreSt.posAt (k : CoreSt) (pc : Nat) : Nat := (pc + 2 ^ 32 - k.region.entry) % 2 ^ 32

/-- WAIT_KIND: a core at its wait-for-tick point shows 0x3 (R153, R176). -/
def CoreSt.shownWait (k : CoreSt) : Nat := if k.phase = .atWtick then 3 else k.waitKind

/-- Charge of a context's work on this core is by its flight; the device address of a region offset. -/
def scrAddr (c off : Nat) : Nat := 0x200000000000 + c * 0x800000 + off

/-! ## Scratchpad (R194 to R204) -/

/-- The byte at a physical offset. -/
def CoreSt.scrByte (k : CoreSt) (a : Nat) : Byte := SMap.get 0 k.scr a

/-- `n` bytes from a physical offset. -/
def CoreSt.scrRead (k : CoreSt) (a n : Nat) : List Byte := (List.range n).map fun i => k.scrByte (a + i)

/-- The words that a range of a scratchpad covers whole no longer fail (R364). -/
def goodWords (bad : SMap Nat) (a n : Nat) : SMap Nat := bad.filter fun e => !decide (a ≤ 4 * e.1 ∧ 4 * e.1 + 4 ≤ a + n)

/-- A zero-fill of a range: what it writes whole holds good data again (R364). -/
def CoreSt.zeroBytes (k : CoreSt) (a n : Nat) : CoreSt := { k with scr := zeroRange k.scr a n, bad := goodWords k.bad a n }

/-- Write bytes from a physical offset upward: a word written whole holds good data again (R364). -/
def CoreSt.scrWrite (k : CoreSt) (a : Nat) (bs : List Byte) : CoreSt :=
  { k with scr := Memory.writeN k.scr a bs, bad := goodWords k.bad a bs.length }

/-- Bank and physical row of a scratchpad offset (R197, R203). -/
def scrRow (a : Nat) : Nat × Nat := (a / 4 % 128, a / 16384)

/-- `n` bytes from an offset cover the whole of a bank's row. -/
def rowCovered (off n bank row : Nat) : Bool :=
  decide (off ≤ 16384 * row + 4 * bank ∧ 16384 * row + 4 * bank + 15876 ≤ off + n)

/-- A zero-fill of a range: the errors of the rows that it covers are forgotten, and their committed remaps are applied
(R204). -/
def CoreSt.rowsZeroed (k : CoreSt) (off n : Nat) : CoreSt :=
  { k with rowErr := k.rowErr.filter fun e => !rowCovered off n (e.1 / 384) (e.1 % 384),
           remap := k.remap ++ k.remapPend.filter fun r => rowCovered off n r.bank r.row,
           remapPend := k.remapPend.filter fun r => !rowCovered off n r.bank r.row }

/-- One increment of a bounded counter. -/
def bump (w x : Nat) : Nat := satAdd w x 1

/-- An uncorrectable scratchpad error outside or inside a region is counted and logged, and the word fails until it is written
(R202, R204, R364). -/
def State.scrUnc (s : State) (c a : Nat) (part : Option Nat) (ctx : Nat) : State :=
  let k := s.core c
  let r := scrRow a
  let s := s.setCore c { k with eccUnc := bump 16 k.eccUnc, bad := SMap.set 0 k.bad (a / 4) 1,
                                rowLog := if r ∈ k.rowLog then k.rowLog else k.rowLog ++ [r] }
  let s := s.emit c 0x06 (r.1 + r.2 * 2 ^ 16) a part ctx
  s.emit c 0x09 (r.1 + r.2 * 2 ^ 16) (SMap.get 0 k.rowErr (384 * r.1 + r.2)) part ctx

/-- A corrected scratchpad error: counted against the core and the row; the fourth since the row's last zero-fill proposes
a remap (R202, R204). -/
def State.scrCor (s : State) (c a : Nat) : State :=
  let k := s.core c
  let r := scrRow a
  let key := 384 * r.1 + r.2
  let n := SMap.get 0 k.rowErr key + 1
  let k := { k with eccCor := bump 32 k.eccCor, rowErr := SMap.set 0 k.rowErr key n,
                    rowLog := if n = 4 ∧ r ∉ k.rowLog then k.rowLog ++ [r] else k.rowLog }
  let s := (s.setCore c k).perf c 0x0F 1
  if n = 4 then s.emit c 0x09 (r.1 + r.2 * 2 ^ 16) n else s

/-- An offset lies in one of the ranges that an access reads, each an offset and its bytes. -/
def readsAt (rs : List (Nat × Nat)) (x : Nat) : Bool := rs.any fun r => decide (r.1 ≤ x ∧ x < r.1 + r.2)

/-- The first word that fails its check, of those that the ranges touch, by its offset (R364). -/
def CoreSt.failing (k : CoreSt) (rs : List (Nat × Nat)) : Option Nat :=
  (k.bad.find? fun e => rs.any fun r => decide (4 * e.1 < r.1 + r.2 ∧ r.1 < 4 * e.1 + 4)).map fun e => 4 * e.1

/-- What a read of ranges of core c's scratchpad meets (R202, R364): the offset of an uncorrectable word, one that the error `e` makes or one
that has failed before and has not been written; a corrected error is counted. -/
def State.scrMeets (s : State) (c : Nat) (rs : List (Nat × Nat)) (e : Ecc) : State × Option Nat :=
  let i := if rs.isEmpty then (e, s) else s.injectEcc c [1, 2] (rs.headD (0, 0)).1 e
  let s := i.2
  match i.1 with
  | .uncorrectable x => (s, if readsAt rs x then some x else (s.core c).failing rs)
  | .corrected x =>
    (match (s.core c).failing rs with
     | some y => (s, some y)
     | none => (if readsAt rs x then s.scrCor c x else s, none))
  | _ => (s, (s.core c).failing rs)

/-- A scratchpad access of core c to ranges, each an offset and its bytes, for the flight that it runs: an uncorrectable word is recorded and
contained, and the access returns nothing (R202). -/
def State.scrReads (s : State) (c : Nat) (rs : List (Nat × Nat)) (e : Ecc) : State × Bool :=
  let q := s.scrMeets c rs e
  let k := q.1.core c
  match q.2 with
  | some x => ((q.1.scrUnc c x (some k.part) k.ctx).contain k.part k.ctx 0x25 c (some k.flight) true, true)
  | none => (q.1, false)

/-- A scratchpad access of core c to offsets a to a + n − 1. -/
def State.scrEcc (s : State) (c a n : Nat) (e : Ecc) : State × Bool := s.scrReads c [(a, n)] e

/-! ## Instruction words -/

/-- Bits hi down to lo of an instruction's 56 operand bits. -/
def fieldOf (w : BitVec 56) (hi lo : Nat) : Nat := bits w.toNat hi lo

/-- A 64-bit instruction word from its opcode and operand bits (R164). -/
def insnWord (op : Nat) (w : BitVec 56) : Word := BitVec.ofNat 64 (op * 2 ^ 56 + w.toNat)

/-- Opcodes of the Opcodes table (R164). -/
def opcodeKnown (op : Nat) : Bool := op ≤ 0x0B || (0x10 ≤ op && op ≤ 0x14) || op = 0x20 || op = 0x21 ||
  (0x30 ≤ op && op ≤ 0x3A) || (0x40 ≤ op && op ≤ 0x42)

/-- The named fields of each instruction, as (hi, lo): every other bit is reserved (R167). -/
def fieldsOf (op : Nat) : List (Nat × Nat) :=
  match op with
  | 0x03 => [(55, 51), (47, 0)]
  | 0x04 => [(55, 51), (15, 0)]
  | 0x05 => [(55, 51), (50, 46), (45, 41), (40, 37), (36, 36), (31, 0)]
  | 0x06 => [(55, 51), (7, 0)]
  | 0x07 => [(55, 51), (50, 46), (45, 43), (23, 0)]
  | 0x08 => [(55, 51), (12, 0)]
  | 0x09 => [(55, 51), (50, 47)]
  | 0x0A => [(50, 47)]
  | 0x0B => [(3, 0)]
  | 0x10 => [(55, 51), (50, 46), (19, 0)]
  | 0x11 => [(55, 51), (50, 46), (22, 0)]
  | 0x12 => [(55, 51), (50, 46), (22, 0)]
  | 0x13 => [(55, 54), (53, 52)]
  | 0x14 => [(55, 51), (50, 47), (15, 0)]
  | 0x20 => [(55, 51), (50, 46), (45, 42), (41, 40), (39, 31), (30, 24)]
  | 0x21 => [(55, 51), (50, 46), (45, 41), (40, 34), (33, 33), (32, 31)]
  | 0x30 => [(55, 51), (50, 44), (43, 37), (36, 36), (35, 35), (34, 34), (33, 29), (28, 28)]
  | 0x31 | 0x32 | 0x33 | 0x34 | 0x35 =>
    [(55, 51), (50, 46), (45, 41), (40, 36), (35, 30), (29, 29), (28, 25), (24, 23), (22, 22)]
  | 0x36 => [(55, 51), (50, 46), (45, 41), (40, 36), (35, 30)]
  | 0x37 => [(55, 51), (50, 46), (45, 41), (40, 36)]
  | 0x38 => [(55, 51), (50, 46), (45, 41), (40, 36), (35, 31), (30, 24), (23, 23)]
  | 0x39 => [(55, 51), (50, 46)]
  | 0x3A => [(55, 51), (50, 46), (35, 30), (22, 16)]
  | 0x40 => [(55, 51), (50, 48)]
  | 0x41 => [(55, 51), (50, 46), (45, 41), (40, 38), (37, 34), (33, 33)]
  | 0x42 => [(55, 51), (50, 46), (45, 41), (40, 38), (37, 34), (33, 33)]
  | _ => []

/-- Every reserved bit of an instruction is 0 (R164, R167). -/
def reservedOk (op : Nat) (w : BitVec 56) : Bool :=
  (List.range 56).all fun i => ((fieldsOf op).any fun f => decide (f.2 ≤ i ∧ i ≤ f.1)) || !(bit w.toNat i)

/-- The scalar registers that an instruction reads or writes (R167, R171). -/
def scalarsOf (op : Nat) (w : BitVec 56) : List Nat :=
  let a := fieldOf w 55 51
  let b := fieldOf w 50 46
  let c := fieldOf w 45 41
  let d := fieldOf w 40 36
  match op with
  | 0x03 | 0x04 | 0x06 | 0x08 | 0x09 | 0x14 | 0x40 => [a]
  | 0x05 => if fieldOf w 36 36 = 1 then [a, b] else [a, b, c]
  | 0x07 | 0x10 | 0x11 | 0x12 | 0x20 | 0x21 => [a, b]
  | 0x30 => if fieldOf w 34 34 = 1 then [fieldOf w 33 29] else []
  | 0x31 | 0x32 | 0x33 | 0x34 | 0x35 => if fieldOf w 29 29 = 1 then [c] else []
  | 0x36 => [d]
  | 0x37 => [b, c, d]
  | 0x38 => [b, c, d, fieldOf w 35 31]
  | 0x39 => [b]
  | 0x3A => if fieldOf w 35 30 = 1 then [a] else [b]
  | 0x41 | 0x42 => [a, b, c]
  | _ => []

/-- Scalar registers that a load still in the control queue writes (R171). -/
def CoreSt.notReady (k : CoreSt) : List Nat :=
  k.ctrlq.filterMap fun o =>
    match o with
    | .load xd _ => some xd
    | .param xd _ => some xd
    | _ => none

/-! ## The channels' instructions, and what an acquire waits for (R188, R230) -/

/-- Channel n of a core. -/
def CoreSt.chan (k : CoreSt) (n : Nat) : List DmaEnt := SMap.get [] k.chans n

/-- Put channel n of a core. -/
def CoreSt.setChan (k : CoreSt) (n : Nat) (l : List DmaEnt) : CoreSt := { k with chans := SMap.set [] k.chans n l }

/-- Every instruction held by the core's channels. -/
def CoreSt.ents (k : CoreSt) : List DmaEnt := (k.chans.map Prod.snd).flatten

/-- Reads made for a held instruction that have not returned (R228, R230). -/
def State.readsOut (s : State) (c : Nat) (e : DmaEnt) : Bool :=
  e.phase = .queued || s.reads.any fun r => decide (r.core = c ∧ r.stamp = e.stamp)

/-- An acquire is still waiting for a read that the core issued (R230). -/
def State.acquireWaits (s : State) (c : Nat) : Bool :=
  let k := s.core c
  !k.notReady.isEmpty || k.ents.any fun e => s.readsOut c e

/-! ## The loop stack (R169) -/

/-- What issue does after the instruction at index `last` when execution continues in sequence: an enclosing body that ends
there repeats from its first instruction or is left. -/
def loopStep (last : Nat) : List LoopLvl → Nat × List LoopLvl
  | [] => (last + 1, [])
  | l :: ls =>
    if l.last = last then
      if 1 < l.left then (l.first, { l with left := l.left - 1 } :: ls) else loopStep last ls
    else (last + 1, l :: ls)

/-! ## What an instruction comes to -/

/-- The outcome of an instruction that was due: issued, with execution continuing after the instruction at an index, or at
the target of a branch; illegal; a window violation at an address; waiting at issue; or stopped by a data error. -/
inductive Res where
  | seq (s : State) (last : Nat)
  | jump (s : State) (target : Nat)
  | illegal
  | window (addr : Nat)
  | wait (kind : Nat)
  | bad (s : State)
deriving DecidableEq, Repr

/-- A partition's cores, channels and attention engines are stopped: a hard stop, or a landing 2 (R74, R383). -/
def State.frozen (s : State) (p : Nat) : Bool :=
  (s.part p).st = .hardStopping || (s.part p).st = .hardStopped || s.genState = 4 || s.genState = 5 ||
    decide (p ∈ s.rcv.halted)

/-- Background operations of a partition pause: it is soft-stopped or stopped (R71). -/
def State.paused (s : State) (p : Nat) : Bool := (s.part p).st = .softStopped || s.frozen p

/-- A context's cores issue: it exists, is not fenced, and has met no data error (R364, R367). -/
def State.ctxIssues (s : State) (p h : Nat) : Bool :=
  match s.ctx p h with
  | some x => (x.tear = .none || x.tear = .faulted) && !x.dataErr
  | none => false

/-- The word of the program store that the control core is at (R156). -/
def CoreSt.word (k : CoreSt) : Word := SMap.get 0 k.prog k.pc

/-- The control core of c is running a flight whose context and partition may issue. -/
def State.canIssue (s : State) (c : Nat) : Bool :=
  let k := s.core c
  k.phase = .running && !k.inReset && !s.frozen k.part && s.ctxIssues k.part k.ctx && s.epochOk k.part k.ctx k.epoch

/-- The control core of c takes the word with this opcode and these operand bits. A word whose opcode no row names, and an
index past the image, are taken by the NOP row (log entry 10). -/
def State.issueDue (s : State) (c op : Nat) (w : BitVec 56) : Bool :=
  let k := s.core c
  let x := k.word.toNat
  s.canIssue c && decide (x % 2 ^ 56 = w.toNat) &&
    (decide (x / 2 ^ 56 = op) || (decide (op = 0) && !opcodeKnown (x / 2 ^ 56)))

/-- R165: the offending instruction does not execute, issue ends, the event is recorded and the context is contained. -/
def State.issueFault (s : State) (c kind status d1 : Nat) : State :=
  let k := s.core c
  let s := s.emit c kind (k.posAt k.pc) d1 (some k.part) k.ctx
  let s := s.setCore c { s.core c with phase := .halted, waitKind := 0 }
  s.contain k.part k.ctx status c (some k.flight) true

/-- The instruction at the pc issued: CONTROL rises by 1 (R178), no wait is shown, and issue continues at `pc`. -/
def CoreSt.issued (k : CoreSt) (from_ pc : Nat) (loops : List LoopLvl) : CoreSt :=
  { k with pc := pc, loops := loops, lastPc := from_, waitKind := 0, controlP := (k.controlP + 1) % 2 ^ 64 }

/-- Issue the instruction at the pc of core c, if it is due: `body` is its own effect (R164 to R172). One that has waited for a register being
written is an acquire (R231). -/
def State.issue (s : State) (c op : Nat) (w : BitVec 56) (body : State → CoreSt → Res) :
    Host.Outcome State Fault Refusal :=
  if s.issueDue c op w then
    let k := s.core c
    let word := k.word.toNat
    let r := k.region
    if k.pc < r.base ∨ r.base + r.count ≤ k.pc ∨ word / 2 ^ 56 ≠ op ∨ !reservedOk op w then
      .next (s.issueFault c 0x03 0x23 word)
    else if ((scalarsOf op w).any fun n => decide (n ≠ 0 ∧ n ∈ k.notReady)) || (decide (k.waitKind = 6) && s.acquireWaits c) then
      .next (s.setCore c { k with waitKind := 6 })
    else
      match body s k with
      | .seq s last =>
        let k' := s.core c
        let n := loopStep last k'.loops
        .next (s.setCore c (k'.issued k.pc n.1 n.2))
      | .jump s t =>
        let k' := s.core c
        .next (s.setCore c (k'.issued k.pc t k'.loops))
      | .illegal => .next (s.issueFault c 0x03 0x23 word)
      | .window a => .next (s.issueFault c 0x04 0x24 a)
      | .wait kind => .next (s.setCore c { k with waitKind := kind })
      | .bad s => .next (s.setCore c { (s.core c).issued k.pc k.pc k.loops with phase := .halted })
  else .next s

/-! ## Regions (R159 to R161, R375) -/

/-- Offsets of core c that are being zero-filled after a teardown lie outside every region (R375): each region that a flight
of a context in teardown used there, from its fence to its clear. -/
def State.excluded (s : State) (c off n : Nat) : Bool :=
  let torn (p h : Nat) (e : BitVec 16) : Bool :=
    match s.ctx p h with
    | some x => (x.tear = .fenced || x.tear = .drained) && decide (x.epoch ≠ e)
    | none => false
  let meets (r : Region) : Bool := decide (off < r.off + r.len ∧ r.off < off + n)
  (s.flights.any fun e =>
    match e.2 with
    | some f => torn f.part f.ctx f.epoch && f.begun && f.slots.any fun r => decide (r.core = c) && meets r
    | none => false) ||
  -- a core whose flight of the context has been retired
  (match (s.core c).bound with
   | some b => torn b.1 b.2 (s.core c).epoch && meets (s.core c).region
   | none => false)

/-- `n` bytes at a region offset lie in the region of core c's flight (R161). -/
def State.inRegion (s : State) (c : Nat) (off n : Nat) : Bool :=
  let r := (s.core c).region
  decide (off + n ≤ r.len) && !s.excluded c (r.off + off) n

/-- The window violation at a region offset of core c. -/
def State.regionFault (s : State) (c off : Nat) : Res := .window (scrAddr c ((s.core c).region.off + off))

end Sys2Proof.Machine
end

