-- ==== Sys2Proof/Machine/Operands.lean ====
section
/-! DEFINITION. Operand forms: DMA descriptors (R190, R191, R212, R550), tensor descriptions (R187), the spaces of an address
(R29, R190), and windows (R31, R33, R192, R219). -/

namespace Sys2Proof.Machine

/-! ## Address spaces (R29) -/

/-- Bytes of stack memory: 16 stacks of 72 GiB. -/
def stackTop : Nat := 16 * 0x1200000000

/-- Where a device address lies. -/
inductive Place where
  | stack (s off : Nat)
  | scratch (c off : Nat)
  | remote (slot off : Nat)
  | unmapped
deriving DecidableEq, Repr

/-- The owner of a device address (R29, R30). -/
def placeOf (a : Nat) : Place :=
  if a < stackTop then .stack (a / 0x1200000000) (a % 0x1200000000)
  else if 0x200000000000 ≤ a ∧ a < 0x200060000000 then
    let o := a - 0x200000000000
    if o % 0x800000 < 0x600000 then .scratch (o / 0x800000) (o % 0x800000) else .unmapped
  else if 0x300000000000 ≤ a ∧ a < 0x400000000000 then
    .remote ((a - 0x300000000000) / 0x400000000) ((a - 0x300000000000) % 0x400000000)
  else .unmapped

/-! ## DMA descriptors (R190) -/

/-- Bits of a descriptor: `hi` to `lo` of the word at byte offset `o`. -/
def dfld (d : BitVec 512) (o hi lo : Nat) : Nat := bits d.toNat (8 * o + hi) (8 * o + lo)

/-- KIND. -/
def dKind (d : BitVec 512) : Nat := dfld d 0 3 0
/-- SRC_SPACE. -/
def dSrcSpace (d : BitVec 512) : Nat := dfld d 0 5 4
/-- DST_SPACE. -/
def dDstSpace (d : BitVec 512) : Nat := dfld d 0 7 6
/-- COUNT. -/
def dCount (d : BitVec 512) : Nat := dfld d 0 11 8
/-- CE. -/
def dCe (d : BitVec 512) : Bool := dfld d 0 12 12 = 1
/-- RC. -/
def dRc (d : BitVec 512) : Bool := dfld d 0 13 13 = 1
/-- ROW_BYTES. -/
def dRowBytes (d : BitVec 512) : Nat := dfld d 4 31 0
/-- SRC. -/
def dSrc (d : BitVec 512) : Nat := dfld d 8 63 0
/-- DST. -/
def dDst (d : BitVec 512) : Nat := dfld d 0x10 63 0
/-- ROWS. -/
def dRows (d : BitVec 512) : Nat := dfld d 0x18 31 0
/-- SRC_STRIDE. -/
def dSrcStride (d : BitVec 512) : Nat := dfld d 0x1C 31 0
/-- DST_STRIDE. -/
def dDstStride (d : BitVec 512) : Nat := dfld d 0x20 31 0

/-- Cell rows per block C of a rate (R130). -/
def cellRows (r : Nat) : Nat := 32 / r

/-- Groups per bank word n and slot width s for an element width and a rate (R206). -/
def groupsPerWord (width r : Nat) : Nat × Nat :=
  let g := width * r
  if g ≤ 8 then (4, 8) else if g ≤ 16 then (2, 16) else (1, 32)

/-- Has a layout a scale section (R207, R210): a block-scaled format, or per-channel zero points. -/
def hasScales (f : Fmt) (zpMode : Nat) : Bool := f.blockScaled || zpMode = 2

/-- Bytes rounded up to a multiple of 512. -/
def roundUp (n m : Nat) : Nat := (n + m - 1) / m * m

/-- Bytes of a moving layout of M rows: element section and scale section (R207, R208). -/
def movingBytes (f : Fmt) (r zpMode m : Nat) : Nat × Nat :=
  if f = .f32 then (512 * m, 0)
  else
    let n := (groupsPerWord f.width r).1
    (512 * ((m + 127 + n - 1) / n), if hasScales f zpMode then roundUp (16 * (m + 127)) 512 else 0)

/-- Bytes of a stationary layout (R210). -/
def stationaryBytes (f : Fmt) (r zpMode : Nat) : Nat × Nat :=
  let n := (groupsPerWord f.width r).1
  (65536 / n, if hasScales f zpMode then 2048 else 0)

/-- Elements of a layout's source row: Kw of R212. -/
def layoutKw (f : Fmt) (rowBytes : Nat) : Nat := 8 * rowBytes / f.width

/-- The element format, partner, acc, ZP_MODE, ZP, scale address and zero-point address of a layout descriptor (R191). -/
def dFmt (d : BitVec 512) : Nat := dfld d 0x28 3 0
/-- Partner format. -/
def dPartner (d : BitVec 512) : Nat := dfld d 0x28 7 4
/-- acc code. -/
def dAcc (d : BitVec 512) : Nat := dfld d 0x28 9 8
/-- ZP_MODE. -/
def dZpMode (d : BitVec 512) : Nat := dfld d 0x28 11 10
/-- Scale-array address. -/
def dScaleAddr (d : BitVec 512) : Nat := dfld d 0x30 63 0
/-- Zero-point address. -/
def dZpAddr (d : BitVec 512) : Nat := dfld d 0x38 63 0

/-- The rate of a layout descriptor: its element format is in the operand role, and with its partner and acc it is a pair of
R100. -/
def layoutRate (d : BitVec 512) : Option (Fmt × Nat) :=
  match Fmt.ofCode (dFmt d), Fmt.ofCode (dPartner d), AccFmt.ofCode (dAcc d) with
  | some f, some p, some a => (pairRate f p a).map fun r => (f, r)
  | _, _, _ => none

/-- The rules of R191 and R212 that a layout descriptor obeys, but for where its destination lies. A scale-array address is nonzero exactly
for a block-scaled format, and a zero-point address exactly with per-channel zero points: R191 says only "or 0 for a format without one" and
"or 0" (DESIGN CHOICE, log entry 136). -/
def layoutOk (d : BitVec 512) : Bool :=
  match layoutRate d with
  | none => false
  | some (f, r) =>
    let kw := layoutKw f (dRowBytes d)
    let stat := dKind d = 2
    dfld d 0x28 31 20 = 0 && dfld d 0x2C 31 0 = 0 && dDstStride d = 0 &&
    1 ≤ kw && kw ≤ 128 * r && (kw * f.width + 7) / 8 = dRowBytes d && dRows d ≤ (if stat then 128 else 65536) &&
    dZpMode d ≠ 3 && (f.isInt || dZpMode d = 0) &&
    (f.blockScaled == (dScaleAddr d ≠ 0)) && ((dZpMode d = 2) == (dZpAddr d ≠ 0)) &&
    (!f.blockScaled || dSrcStride d * 8 % (32 * f.width) = 0)

/-- The bytes of a layout descriptor's whole destination (R207, R210). -/
def layoutBytes (d : BitVec 512) : Nat :=
  match layoutRate d with
  | none => 0
  | some (f, r) =>
    let b := if dKind d = 2 then stationaryBytes f r (dZpMode d) else movingBytes f r (dZpMode d) (dRows d)
    b.1 + b.2

/-- The bounding range of a strided side: first byte and one past the last (R215). -/
def bounding (base stride rows rowBytes : Nat) : Nat × Nat := (base, base + (rows - 1) * stride + rowBytes)

/-- A slot-relative address has only slot and offset bits (R190). -/
def slotAddrOk (a : Nat) : Bool := a / 2 ^ 48 = 0 && bits a 39 23 = 0
/-- The slot of a slot-relative address. -/
def slotOf (a : Nat) : Nat := bits a 47 40
/-- The offset of a slot-relative address. -/
def slotOff (a : Nat) : Nat := bits a 22 0

/-- The checks that R550 makes when a DMA instruction issues, but for the place of a layout's destination: no reserved bit,
no reserved code, ranges, and the rules of its kind. -/
def descOk (d : BitVec 512) : Bool :=
  let k := dKind d
  let addrOk (sp a : Nat) : Bool :=
    if sp = 0 then decide (a < 2 ^ 48) else if sp = 1 then slotAddrOk a else sp = 2
  dfld d 0 31 14 = 0 && dfld d 0x24 31 0 = 0 && k ≤ 6 &&
  dSrcSpace d ≠ 3 && dDstSpace d ≠ 3 && addrOk (dSrcSpace d) (dSrc d) && addrOk (dDstSpace d) (dDst d) &&
  1 ≤ dRowBytes d && dRowBytes d ≤ 268435456 && 1 ≤ dRows d && dRows d ≤ 65536 &&
  dRowBytes d * dRows d ≤ 268435456 &&
  (match k with
   | 0 | 4 => dfld d 0x28 191 0 = 0
   | 1 | 2 => layoutOk d
   | 3 => dfld d 0x30 127 0 = 0
   | 5 => (dfld d 0x30 11 8 = 3 || dfld d 0x30 11 8 = 4) && (dfld d 0x30 15 12 = 9 || dfld d 0x30 15 12 = 11) &&
       dfld d 0x30 31 20 = 0 && dfld d 0x38 31 0 ≤ 262143 && dfld d 0x3C 31 0 = 0 && dRows d ≤ 1024
   | _ => dRowBytes d = 512 && dDstSpace d = 0 && dDst d = 0 && dfld d 0x30 127 0 = 0)

/-! ## Tensor descriptions (R187) -/

/-- A tensor description. -/
structure TDesc where
  zp : Nat
  chanAxis : Nat
  underuse : Nat
  satShift : Nat
  headroom : Nat
  track : Nat
  round : Nat
  saturate : Bool
  scaleMode : Nat
  zpMode : Nat
  fmt : Nat
  tno : Nat
  scale : Lane
  scaleOff : Nat
  zpOff : Nat
  reserved : Bool          -- no reserved bit is 1
deriving DecidableEq, Repr

/-- A tensor description from its 32 bytes. -/
def tdescOf (bs : List Byte) : TDesc :=
  let x := leNat bs
  { zp := bits x 31 24, chanAxis := bits x 21 21, underuse := bits x 20 18, satShift := bits x 17 14,
    headroom := bits x 13 12, track := bits x 11 10, round := bits x 9 8, saturate := bit x 7, scaleMode := bits x 6 6,
    zpMode := bits x 5 4, fmt := bits x 3 0, tno := bits x 63 44, scale := BitVec.ofNat 32 (bits x 95 64),
    scaleOff := bits x 127 96, zpOff := bits x 159 128,
    reserved := bits x 23 22 = 0 && bits x 43 32 = 0 && bits x 255 160 = 0 }

/-- The description's format, if its fields break no rule of R77, R94, R115, R125 and R187. INT32, an integer format, may name a zero point
and has none (R122, R187); E8M0, a scale format, may not, though R187 names only floating formats (DESIGN CHOICE, log entry 139). -/
def TDesc.ok (t : TDesc) : Option Fmt :=
  match Fmt.ofCode t.fmt with
  | none => none
  | some f =>
    if t.reserved && t.round ≠ 3 && t.track ≠ 3 && t.zpMode ≠ 3 && (t.zpMode = 0 || f.isInt || f = .i32) then some f else none

/-- The description at region offset `off` of core c, read at issue: misaligned or broken is illegal, outside the region a
window violation, and a word of it that fails its check a data error (R187, R202). With it, the state after the read. -/
def State.tdesc (s : State) (c : Nat) (off : Nat) (e : Ecc) : Except Res (State × TDesc × Fmt) :=
  if off % 32 ≠ 0 then .error .illegal
  else if !s.inRegion c off 32 then .error (s.regionFault c off)
  else
    let k := s.core c
    let q := s.scrEcc c (k.region.off + off) 32 e
    if q.2 then .error (.bad q.1)
    else
      let t := tdescOf (k.scrRead (k.region.off + off) 32)
      match t.ok with
      | some f => .ok (q.1, t, f)
      | none => .error .illegal

/-- The signed zero point that a byte holds for a format (R93). -/
def zeroPoint (f : Fmt) (b : Nat) : Int := if f.isInt then f.decodeInt b else 0

/-! ## Windows (R31, R33, R192, R219) -/

/-- A core belongs to a partition: its gallery's bit in GALLERIES (R334, R440). -/
def State.coreOf (s : State) (p c : Nat) : Bool := bit (s.reg (pfBase p + rPrtGalleries)).toNat (c / 8)

/-- A range of a scratchpad lies in a partition's windows: a core of its galleries, and no region in teardown (R375, R440). -/
def State.scratchWindow (s : State) (p c off n : Nat) : Bool :=
  s.coreOf p c && off + n ≤ 0x600000 && !s.excluded c off n

/-- The frame table's holder of a stack address is the partition. -/
def State.stackWindow (s : State) (p st off n : Nat) : Bool :=
  let f0 := off / 65536
  let f1 := (off + n - 1) / 65536
  (List.range (f1 - f0 + 1)).all fun i =>
    let f := SMap.get {} (s.stk st).frames (f0 + i)
    f.st = .allocated && f.part = p

/-- The outbound slot entry that a partition may write through, for offsets up to its length (R219). -/
def State.outWindow (s : State) (p slot off n : Nat) : Option OutSlot :=
  match SMap.get none s.outSlots slot with
  | some o => if o.part = p ∧ off + n ≤ o.len then some o else none
  | none => none

/-- `n` bytes at a device address lie in the partition's windows of stack memory and scratchpad (R31, R33): in one stack, or in one and
the next. -/
def State.inWindow (s : State) (p a n : Nat) : Bool :=
  match placeOf a with
  | .stack st off =>
    if off + n ≤ 0x1200000000 then s.stackWindow p st off n
    else decide (st < 15 ∧ off + n ≤ 2 * 0x1200000000) && s.stackWindow p st off (0x1200000000 - off) &&
      s.stackWindow p (st + 1) 0 (off + n - 0x1200000000)
  | .scratch c off => s.scratchWindow p c off n
  | _ => false

/-- Ranges cover the addresses from `pos` up to `e`. -/
def covers (rs : List (Nat × Nat)) : Nat → Nat → Nat → Bool
  | 0, pos, e => decide (e ≤ pos)
  | n + 1, pos, e =>
    if e ≤ pos then true
    else match rs.find? fun r => decide (r.1 ≤ pos ∧ pos < r.2) with
      | some r => covers rs n r.2 e
      | none => false

/-- The ranges of a partition's host window that are in force, each as its first address and the one after its last (R440). -/
def State.hostRanges (s : State) (p : Nat) : List (Nat × Nat) :=
  (List.range 16).filterMap fun k =>
    let b := s.reg (pfBase p + rSecHostwin + 8 * k)
    let l := s.reg (pfBase p + rSecHostlim + 8 * k)
    if bit b.toNat 0 then some (b.toNat / 4096 * 4096, l.toNat / 4096 * 4096 + 4096) else none

/-- `n` bytes of host memory lie inside a partition's host window (R440). -/
def State.hostWindow (s : State) (p a n : Nat) : Bool := covers (s.hostRanges p) 17 a (a + n)

end Sys2Proof.Machine
end

