-- ==== Sys2Proof/Machine/Scalar.lean ====
section
/-! DEFINITION. The control and scalar instructions, waits, fences and signals (R168 to R178). -/

namespace Sys2Proof.Machine

/-- A field of w sign-extended from `n` bits to 64. -/
def signed (n x : Nat) : Word := (BitVec.ofNat n x).signExtend 64

/-- SALU operations 0x0 to 0xC; the other codes are reserved (R168). -/
def saluOp (op : Nat) (a b : Word) : Option Word :=
  let k := b.toNat % 64
  match op with
  | 0 => some (a + b)
  | 1 => some (a - b)
  | 2 => some (a * b)
  | 3 => some (a &&& b)
  | 4 => some (a ||| b)
  | 5 => some (a ^^^ b)
  | 6 => some (a <<< k)
  | 7 => some (a >>> k)
  | 8 => some (a.sshiftRight k)
  | 9 => some (if a.toNat ≤ b.toNat then a else b)
  | 10 => some (if b.toNat ≤ a.toNat then a else b)
  | 11 => some (if a.ult b then 1 else 0)
  | 12 => some (if a.slt b then 1 else 0)
  | _ => none

/-- Branch conditions; code 0b111 is reserved (R168). -/
def brCond (cond : Nat) (a b : Word) : Option Bool :=
  match cond with
  | 0 => some (a == b)
  | 1 => some (a != b)
  | 2 => some (a.ult b)
  | 3 => some (!a.ult b)
  | 4 => some (a.slt b)
  | 5 => some (!a.slt b)
  | 6 => some true
  | _ => none

/-- The bodies of the image on core k, as (first, last) indices, that contain index i (R169). -/
def CoreSt.bodies (k : CoreSt) (i : Nat) : List (Nat × Nat) :=
  let r := k.region
  (List.range r.count).filterMap fun j =>
    let x := (SMap.get 0 k.prog (r.base + j)).toNat
    let first := r.base + j + 1
    let last := r.base + j + bits x 12 0
    if x / 2 ^ 56 = 0x08 ∧ first ≤ i ∧ i ≤ last then some (first, last) else none

/-- The innermost of the bodies that contain an index: the one that starts last. -/
def innermost (bs : List (Nat × Nat)) : Option (Nat × Nat) :=
  bs.foldl (fun o b => match o with
    | none => some b
    | some a => if a.1 < b.1 then some b else some a) none

/-- Put core c and continue in sequence after its pc. -/
def Res.put (s : State) (c : Nat) (k : CoreSt) : Res := .seq (s.setCore c k) k.pc

/-- NOP: nothing (R164). -/
def execNop (c : CoreId) (w : BitVec 56) (s : State) : Host.Outcome State Fault Refusal :=
  s.issue c 0x00 w fun s k => .seq s k.pc

/-- END: issue ends for the flight (R177); illegal inside a body (R169). -/
def execEndFlight (c : CoreId) (w : BitVec 56) (s : State) : Host.Outcome State Fault Refusal :=
  s.issue c 0x01 w fun s k =>
    if k.bodies k.pc ≠ [] then .illegal else .put s c { k with phase := .ended }

/-- WTICK: the wait-for-tick point (R176); illegal inside a body (R169). -/
def execWtick (c : CoreId) (w : BitVec 56) (s : State) : Host.Outcome State Fault Refusal :=
  s.issue c 0x02 w fun s k =>
    if k.bodies k.pc ≠ [] then .illegal else .put s c { k with phase := .atWtick, resumeTick := s.tickNo.toNat + 1 }

/-- MOVI: xd becomes the sign-extended immediate (R168). -/
def execMovi (c : CoreId) (w : BitVec 56) (s : State) : Host.Outcome State Fault Refusal :=
  s.issue c 0x03 w fun s k => .put s c (k.setX (fieldOf w 55 51) (signed 48 (fieldOf w 47 0)))

/-- MOVHI: bits 63:48 of xd become the immediate (R168). -/
def execMovhi (c : CoreId) (w : BitVec 56) (s : State) : Host.Outcome State Fault Refusal :=
  s.issue c 0x04 w fun s k =>
    let d := fieldOf w 55 51
    .put s c (k.setX d (putBits (k.xr d) 63 48 (fieldOf w 15 0)))

/-- SALU: xd becomes xa op b (R168). -/
def execSalu (c : CoreId) (w : BitVec 56) (s : State) : Host.Outcome State Fault Refusal :=
  s.issue c 0x05 w fun s k =>
    let imm := fieldOf w 36 36 = 1
    let b := if imm then signed 32 (fieldOf w 31 0) else k.xr (fieldOf w 45 41)
    if (if imm then fieldOf w 45 41 else fieldOf w 31 0) ≠ 0 then .illegal
    else
      match saluOp (fieldOf w 40 37) (k.xr (fieldOf w 50 46)) b with
      | some v => .put s c (k.setX (fieldOf w 55 51) v)
      | none => .illegal

/-- Cycles since the open of the tick: a free value, and 0 in deterministic mode (R168). -/
def State.cycleReg (s : State) : Word × State :=
  if s.det then (0, s) else (Config.cycles s.freeCtr, { s with freeCtr := s.freeCtr + 1 })

/-- The special registers 0x00 to 0x08 (R168). -/
def State.special (s : State) (k : CoreSt) (n : Nat) : Option Nat :=
  let r := k.region
  match n with
  | 0 => some k.slot
  | 1 => some k.slotTab.length
  | 2 => some k.flight
  | 3 => some s.tickNo.toNat
  | 4 => some k.ctx
  | 5 => some (match s.flight k.flight with
               | some f => 8 * f.params.length
               | none => 0)
  | 6 => some r.off
  | 7 => some r.len
  | 8 => some (if s.det then 1 else 0)
  | _ => none

/-- MOVS: xd becomes a special register (R168). -/
def execMovs (c : CoreId) (w : BitVec 56) (s : State) : Host.Outcome State Fault Refusal :=
  s.issue c 0x06 w fun s k =>
    let d := fieldOf w 55 51
    let n := fieldOf w 7 0
    if n = 9 then
      let r := s.cycleReg
      .put r.2 c (k.setX d r.1)
    else
      match s.special k n with
      | some v => .put s c (k.setX d (BitVec.ofNat 64 v))
      | none => .illegal

/-- BR: the target, when the condition holds (R168, R169). A BR that names an illegal target is illegal whether taken or
not (log entry 11). -/
def execBr (c : CoreId) (w : BitVec 56) (s : State) : Host.Outcome State Fault Refusal :=
  s.issue c 0x07 w fun s k =>
    let r := k.region
    let t : Int := k.pc + (BitVec.ofNat 24 (fieldOf w 23 0)).toInt
    let bs := k.bodies k.pc
    let inside :=
      match innermost bs with
      | some b => decide ((b.1 : Int) ≤ t ∧ t ≤ b.2) && bs.all fun x => decide ((x.1 : Int) ≠ t)
      | none => true
    match brCond (fieldOf w 45 43) (k.xr (fieldOf w 55 51)) (k.xr (fieldOf w 50 46)) with
    | none => .illegal
    | some taken =>
      if t < r.base ∨ (r.base + r.count : Nat) ≤ t ∨ !inside then .illegal
      else if taken then .jump s t.toNat
      else .seq s k.pc

/-- LOOP: the L instructions that follow run xa times, or are skipped (R169). -/
def execLoop (c : CoreId) (w : BitVec 56) (s : State) : Host.Outcome State Fault Refusal :=
  s.issue c 0x08 w fun s k =>
    let r := k.region
    let l := fieldOf w 12 0
    let last := k.pc + l
    let n := (k.xr (fieldOf w 55 51)).toNat
    if l = 0 ∨ r.base + r.count ≤ last ∨ k.loops.length ≥ 4 ∨ (k.bodies k.pc).any fun b => decide (b.2 < last) then .illegal
    else if n = 0 then .seq s last
    else .seq (s.setCore c { k with loops := { first := k.pc + 1, last := last, left := n } :: k.loops }) k.pc

/-- WAITC: issues once the count register has reached the target, as an acquire (R173, R231). -/
def execWaitc (c : CoreId) (w : BitVec 56) (s : State) : Host.Outcome State Fault Refusal :=
  s.issue c 0x09 w fun s k =>
    if (k.xr (fieldOf w 55 51)).toNat ≤ (k.cntr (fieldOf w 50 47)).toNat ∧ !s.acquireWaits c then .seq s k.pc else .wait 2

/-- CLRC: the count register becomes 0 (R173). -/
def execClrc (c : CoreId) (w : BitVec 56) (s : State) : Host.Outcome State Fault Refusal :=
  s.issue c 0x0A w fun s k => .put s c { k with cnt := SMap.set 0 k.cnt (fieldOf w 50 47) 0 }

/-- QSYNC: issues once every named queue is empty and its unit idle, as an acquire (R173, R231). The array and the vector unit complete each
instruction as it issues. -/
def execQsync (c : CoreId) (w : BitVec 56) (s : State) : Host.Outcome State Fault Refusal :=
  s.issue c 0x0B w fun s k =>
    let m := fieldOf w 3 0
    if (bit m 3 && !k.ctrlq.isEmpty) || (bit m 2 && !k.ents.isEmpty) || s.acquireWaits c then .wait 5 else .seq s k.pc

/-! ## The control queue (R170, R171, R174, R175) -/

/-- Carry out a control-queue instruction that is no fence, on core c. -/
def State.runCtrl (s : State) (c : Nat) (o : CtrlOp) : State :=
  let k := s.core c
  match o with
  | .fence _ _ => s
  | .signal core cnt inc =>
    { s with signals := s.signals ++ [{ core := core, cnt := cnt, inc := inc, part := k.part, ctx := k.ctx, epoch := k.epoch }] }
  | .load xd a => s.setCore c (k.setX xd (BitVec.ofNat 64 (leNat (k.scrRead a 8))))
  | .param xd v => s.setCore c (k.setX xd v)
  | .store a v => s.setCore c (k.scrWrite a (leBytes 8 v.toNat))

/-- Hand an instruction to the control queue: it is carried out at once when nothing is ahead of it. -/
def State.toCtrl (s : State) (c : Nat) (o : CtrlOp) : Res :=
  let k := s.core c
  if 16 ≤ k.ctrlq.length then .wait 4
  else if k.ctrlq.isEmpty then .seq (s.runCtrl c o) k.pc
  else .seq (s.setCore c { k with ctrlq := k.ctrlq ++ [o] }) k.pc

/-- The parameter cache after a read of a byte address of the parameter block: up to 128 lines of 256 bytes, the least
recently used line leaving (R170, log entry 12). -/
def cacheLine (lines : List Nat) (a : Nat) : List Nat := (a / 256 :: lines.erase (a / 256)).take 128

/-- LDP: a word of the flight's parameter block (R170). -/
def execLdp (c : CoreId) (w : BitVec 56) (s : State) : Host.Outcome State Fault Refusal :=
  s.issue c 0x10 w fun s k =>
    let a := (k.xr (fieldOf w 50 46) + BitVec.ofNat 64 (fieldOf w 19 0)).toNat
    let ps := match s.flight k.flight with
      | some f => f.params
      | none => []
    if a % 8 ≠ 0 ∨ 8 * ps.length < a + 8 then .illegal
    else (s.setCore c { k with pcache := cacheLine k.pcache a }).toCtrl c (.param (fieldOf w 55 51) (ps.getD (a / 8) 0))

/-- LDS: a scratchpad word into xd (R171, R202). -/
def execLds (c : CoreId) (w : BitVec 56) (err : PhysErr) (s : State) : Host.Outcome State Fault Refusal :=
  let e := wordEcc err
  s.issue c 0x11 w fun s k =>
    let a := (k.xr (fieldOf w 50 46) + BitVec.ofNat 64 (fieldOf w 22 0)).toNat
    if a % 8 ≠ 0 then .illegal
    else if !s.inRegion c a 8 then s.regionFault c a
    else if 16 ≤ k.ctrlq.length then .wait 4
    else
      let p := k.region.off + a
      if k.ctrlq.isEmpty then
        let r := s.scrEcc c p 8 e
        if r.2 then .bad r.1 else r.1.toCtrl c (.load (fieldOf w 55 51) p)
      else s.toCtrl c (.load (fieldOf w 55 51) p)

/-- STS: xs into a scratchpad word (R171). -/
def execSts (c : CoreId) (w : BitVec 56) (s : State) : Host.Outcome State Fault Refusal :=
  s.issue c 0x12 w fun s k =>
    let a := (k.xr (fieldOf w 50 46) + BitVec.ofNat 64 (fieldOf w 22 0)).toNat
    if a % 8 ≠ 0 then .illegal
    else if !s.inRegion c a 8 then s.regionFault c a
    else s.toCtrl c (.store (k.region.off + a) (k.xr (fieldOf w 55 51)))

/-- SIGNAL: adds to a count register of a slot's core, behind the control queue (R174, R159). -/
def execSignal (c : CoreId) (w : BitVec 56) (s : State) : Host.Outcome State Fault Refusal :=
  s.issue c 0x14 w fun s k =>
    let inc := fieldOf w 15 0
    let slot := (k.xr (fieldOf w 55 51)).toNat
    match k.slotTab[slot]? with
    | some r => if inc = 0 then .illegal else s.toCtrl c (.signal r.core (fieldOf w 50 47) inc)
    | none => .illegal

/-! ## Fences (R175, R228 to R230) -/

/-- The least scope that covers a location: 0 the core's own scratchpad, 1 the module, 2 host memory and remote windows. -/
def placeScope (c a : Nat) : Nat :=
  match placeOf a with
  | .scratch c' _ => if c' = c then 0 else 1
  | .remote _ _ => 2
  | _ => 1

/-- The least scope that covers one side of a descriptor of core c. -/
def sideScope (c space addr : Nat) (r : Option Region) : Nat :=
  match space with
  | 1 => if (r.map Region.core) = some c then 0 else 1
  | 2 => 2
  | _ => placeScope c addr

/-- The least scopes that cover an instruction's destination and source (R228). -/
def DmaEnt.scopes (c : Nat) (e : DmaEnt) : Nat × Nat :=
  match e.op with
  | .desc d src dst =>
    if dKind d = 5 ∨ dKind d = 6 then (1, sideScope c (dSrcSpace d) (dSrc d) src)
    else (sideScope c (dDstSpace d) (dDst d) dst, sideScope c (dSrcSpace d) (dSrc d) src)
  | _ => (0, 0)

/-- The least scope that covers what a descriptor reads besides its source: the scales and zero points of a layout, the indices of a GATHER, the
row table of an ATTENTION or CANDIDATES descriptor (R190, R191, R228); 3 for none. -/
def DmaEnt.tableScope (c : Nat) (e : DmaEnt) : Nat :=
  match e.op with
  | .desc d _ _ =>
    match dKind d with
    | 1 | 2 => min (if dScaleAddr d = 0 then 3 else placeScope c (dScaleAddr d)) (if dZpAddr d = 0 then 3 else placeScope c (dZpAddr d))
    | 3 | 5 | 6 => placeScope c (dfld d 0x28 63 0)
    | _ => 3
  | _ => 3

/-- A held instruction's writes are still to be made or confirmed: written, for the core's own scratchpad, and confirmed elsewhere (R228). -/
def DmaEnt.writesOut (c : Nat) (e : DmaEnt) : Bool := (e.scopes c).1 ≠ 0 || e.phase ≠ .executed || e.owed ≠ 0

/-- A release of a scope with a stamp is still waiting for an earlier channel instruction (R228). -/
def State.releaseWaits (s : State) (c scope stamp : Nat) : Bool :=
  (s.core c).ents.any fun e =>
    decide (e.stamp < stamp) && ((decide ((e.scopes c).1 ≤ scope) && e.writesOut c) ||
      (decide ((e.scopes c).2 ≤ scope) && s.readsOut c e) ||
      (decide (e.tableScope c ≤ scope) && e.phase = .queued))

/-- FENCE: a release holds the control queue, an acquire holds issue (R175, R228 to R230). -/
def execFence (c : CoreId) (w : BitVec 56) (s : State) : Host.Outcome State Fault Refusal :=
  s.issue c 0x13 w fun s k =>
    let scope := fieldOf w 55 54
    match scope, fieldOf w 53 52 with
    | 3, _ => .illegal
    | _, 1 =>
      if 16 ≤ k.ctrlq.length then .wait 4
      else .put s c { k with ctrlq := k.ctrlq ++ [.fence scope k.stamp], stamp := k.stamp + 1 }
    | _, 2 => if s.acquireWaits c then .wait 1 else .seq s k.pc
    | _, 3 =>
      if !k.ctrlq.isEmpty || s.releaseWaits c scope k.stamp || s.acquireWaits c then .wait 1 else .seq s k.pc
    | _, _ => .illegal

/-- Carry out queued control instructions up to the next fence; an uncorrectable error under a load stops the core (R202). -/
def State.drainCtrl (s : State) (c : Nat) (e : Ecc) : List CtrlOp → State
  | [] => s.setCore c { s.core c with ctrlq := [] }
  | .fence sc st :: t => s.setCore c { s.core c with ctrlq := .fence sc st :: t }
  | .load xd a :: t =>
    let r := s.scrEcc c a 8 e
    if r.2 then r.1.setCore c { r.1.core c with ctrlq := t, phase := .halted } else (r.1.runCtrl c (.load xd a)).drainCtrl c e t
  | o :: t => (s.runCtrl c o).drainCtrl c e t

/-- A release fence at the head of the control queue completes, and what waited behind it runs (R174, R228). -/
def execFenceReleaseDone (c : CoreId) (err : PhysErr) (s : State) : Host.Outcome State Fault Refusal :=
  let e := wordEcc err
  let k := s.core c
  match k.ctrlq with
  | .fence scope stamp :: t =>
    if s.releaseWaits c scope stamp || s.frozen k.part || !s.epochOk k.part k.ctx k.epoch then .next s
    else .next (s.drainCtrl c e t)
  | _ => .next s

/-- A SIGNAL on its way arrives: its increment is added, unless its epoch is stale (R166, R174, R366). -/
def execSignalDelivery (i : Nat) (s : State) : Host.Outcome State Fault Refusal :=
  match s.signals[i]? with
  | none => .next s
  | some g =>
    let s := { s with signals := s.signals.eraseIdx i }
    if s.epochOk g.part g.ctx g.epoch then .next (s.setCore g.core ((s.core g.core).addCnt g.cnt g.inc))
    else .next (s.staleDrop 1)

end Sys2Proof.Machine
end

