-- ==== Sys2Proof/Machine/Array.lean ====
section
/-! DEFINITION. The array and accumulator memory: stationary loads, passes and drains (R130 to R145, R179 to R181, R206 to
R211). -/

namespace Sys2Proof.Machine

/-! ## Layouts (R206 to R211) -/

/-- Bits of a scratchpad word at a physical offset. -/
def CoreSt.bitsAt (k : CoreSt) (a lo n : Nat) : Nat := leNat (k.scrRead a 4) / 2 ^ lo % 2 ^ n

/-- The code of element e of the group on line `l`, bank `bank`, of a layout section at `b` (R206). -/
def CoreSt.elemCode (k : CoreSt) (b width r l bank e : Nat) : Nat :=
  let ns := groupsPerWord width r
  k.bitsAt (b + l / ns.1 * 512 + 4 * bank) (ns.2 * (l % ns.1) + width * e) width

/-- The codes of column j of a stationary layout at `b`: K positions 0 to Kw − 1 (R210). -/
def CoreSt.statColumn (k : CoreSt) (b width r kw j : Nat) : List Nat :=
  (List.range kw).map fun p => k.elemCode b width r (p / r) j (p % r)

/-- The codes of row t of a moving layout from `b`: K positions 0 to Kw − 1; binary32 has no line skew (R207, R208). -/
def CoreSt.movRow (k : CoreSt) (b : Nat) (f : Fmt) (r kw t : Nat) : List Nat :=
  (List.range kw).map fun p =>
    if f = .f32 then k.bitsAt (b + 512 * t + 4 * p) 0 32 else k.elemCode b f.width r (t + p / r) (p / r) (p % r)

/-- The words of a moving layout's elements at `b` that the lanes of rows 0 to m − 1 read, each an offset and its bytes: only the lane of a valid
row reads its group (R207, R209). -/
def movWords (b : Nat) (f : Fmt) (r kw m : Nat) : List (Nat × Nat) :=
  if f = .f32 then (List.range m).map fun t => (b + 512 * t, 4 * kw)
  else
    let n := (groupsPerWord f.width r).1
    let g := (kw + r - 1) / r
    (List.range ((m + g + n - 2) / n)).flatMap fun l => (List.range g).filterMap fun i =>
      if i < n * (l + 1) ∧ n * l < i + m then some (b + 512 * l + 4 * i, 4) else none

/-- Number of blocks of Kw positions (R80). -/
def blocksOf (kw : Nat) : Nat := (kw + 31) / 32

/-! ## SLOAD (R131 to R133, R179) -/

/-- The tile that a stationary layout at physical offset `b` holds (R210, R211). -/
def CoreSt.readStat (k : CoreSt) (b : Nat) (f mov : Fmt) (acc : AccFmt) (r kw nw zpMode zp : Nat) : StatTile :=
  let sb := b + (stationaryBytes f r zpMode).1
  { fmt := f, mov := mov, acc := acc, rate := r, kw := kw, nw := nw,
    cols := (List.range nw).map (k.statColumn b f.width r kw),
    scales := (List.range nw).map fun j => (List.range (blocksOf kw)).map fun i =>
      if f.blockScaled then (k.scrByte (sb + 16 * (8 * i + j / 16) + j % 16)).toNat else 0x7F,
    zps := (List.range nw).map fun j =>
      if zpMode = 1 then zeroPoint f zp
      else if zpMode = 2 then zeroPoint f (k.scrByte (sb + 16 * (j / 16) + j % 16)).toNat else 0 }

/-- SLOAD: the stationary tile becomes that of the layout at xa (R179). -/
def execSload (c : CoreId) (w : BitVec 56) (err : PhysErr) (s : State) : Host.Outcome State Fault Refusal :=
  let e := wordEcc err
  s.issue c 0x20 w fun s k =>
    let a := (k.xr (fieldOf w 55 51)).toNat
    match s.tdesc c (k.xr (fieldOf w 50 46)).toNat e with
    | .error r => r
    | .ok (s, t, f) =>
      match Fmt.ofCode (fieldOf w 45 42), AccFmt.ofCode (fieldOf w 41 40) with
      | some mov, some acc =>
        match pairRate f mov acc with
        | none => .illegal
        | some r =>
          let kw := fieldOf w 39 31 + 1
          let nw := fieldOf w 30 24 + 1
          let n := (stationaryBytes f r t.zpMode).1 + (stationaryBytes f r t.zpMode).2
          if 128 * r < kw ∨ a % 512 ≠ 0 then .illegal
          else if !s.inRegion c a n then s.regionFault c a
          else
            let p := k.region.off + a
            let q := s.scrEcc c p n e
            if q.2 then .bad q.1
            else
              let k := q.1.core c
              let tile := k.readStat p f mov acc r kw nw t.zpMode t.zp
              .seq ((q.1.setCore c { k with stat := some tile, arrayP := (k.arrayP + 1) % 2 ^ 64 }).perf c 0x04 1) k.pc
      | _, _ => .illegal

/-! ## Tiles (R139 to R141) -/

/-- Half-slot h of accumulator memory. -/
def CoreSt.half (k : CoreSt) (h : Nat) : Half := SMap.get {} k.halves h

/-- Put half-slot h. -/
def CoreSt.setHalf (k : CoreSt) (h : Nat) (x : Half) : CoreSt := { k with halves := SMap.set {} k.halves h x }

/-- Close half-slots. -/
def CoreSt.closeHalves (k : CoreSt) (hs : List Nat) : CoreSt := hs.foldl (fun k h => k.setHalf h {}) k

/-- The half-slots of a tile (R139). -/
def tileHalves (f : AccFmt) (t : Nat) : List Nat := if f = .bf16 then [t] else [2 * t, 2 * t + 1]

/-- The state of a half-slot that is part of a tile of format f. -/
def openAs (f : AccFmt) : HalfState := if f = .bf16 then .openBf else .open32 f

/-- A tile index is legal for a format (R139). -/
def tileLegal (f : AccFmt) (t : Nat) : Bool := if f = .bf16 then t < 32 else t < 16

/-- The value of an element that the opening pass did not write (R140). -/
def openValue (f : AccFmt) : Lane :=
  match f with
  | .f32 => 0x80000000#32
  | .bf16 => 0x8000#32
  | .i32 => 0

/-- The half-slot of row q of tile t, and the row within it (R139). -/
def tileRow (f : AccFmt) (t q : Nat) : Nat × Nat := if f = .bf16 then (t, q) else (2 * t + q / 64, q % 64)

/-- Element (q, j) of tile t of format f. -/
def CoreSt.accElem (k : CoreSt) (f : AccFmt) (t q j : Nat) : Lane :=
  let h := tileRow f t q
  SMap.get (openValue f) (k.half h.1).elems (128 * h.2 + j)

/-- Write element (q, j) of tile t of format f. -/
def CoreSt.setAcc (k : CoreSt) (f : AccFmt) (t q j : Nat) (v : Lane) : CoreSt :=
  let h := tileRow f t q
  let x := k.half h.1
  k.setHalf h.1 { x with elems := SMap.set (openValue f) x.elems (128 * h.2 + j) v }

/-- Tile t's half-slots are open as tile t of format f. -/
def CoreSt.tileOpen (k : CoreSt) (f : AccFmt) (t : Nat) : Bool :=
  (tileHalves f t).all fun h => (k.half h).st = openAs f

/-- Open tile t with format f: its half-slots open and cleared, every half-slot of another open tile that overlaps it
closed (R140). A BF16 tile opened in a released half-slot of a 32-bit tile leaves the other half of that tile, still open, as it is: the tile
that overlaps the new one is that half-slot's own, already closed (DESIGN CHOICE, log entry 140). -/
def CoreSt.openTile (k : CoreSt) (f : AccFmt) (t : Nat) : CoreSt :=
  let hs := tileHalves f t
  let others := hs.filterMap fun h =>
    match (k.half h).st, (k.half (h ^^^ 1)).st with
    | .open32 _, .open32 _ => if f = .bf16 then some (h ^^^ 1) else none
    | _, _ => none
  hs.foldl (fun k h => k.setHalf h { st := openAs f, elems := [] }) (k.closeHalves others)

/-! ## PASS (R104, R134, R180) -/

/-- The value that a pass leaves in an element, and its counts: `codes`, `scales` and `zp` are the moving row's (R104). -/
def passElem (t : StatTile) (j : Nat) (old : Lane) (codes scales : List Nat) (zp : Int) : Lane × DotCounts :=
  let col := t.cols.getD j []
  let blocks := List.range (blocksOf t.kw)
  let slice (l : List Nat) (b : Nat) : List Nat := (l.drop (32 * b)).take 32
  match t.acc with
  | .i32 =>
    let wz := t.zps.getD j 0
    let r := dotInt old.toNat (blocks.map fun b =>
      ((slice codes b).map fun x => t.mov.decodeInt x - zp).zip ((slice col b).map fun x => t.fmt.decodeInt x - wz))
    (BitVec.ofNat 32 r.1, r.2)
  | a =>
    let f := if a = .bf16 then FloatFmt.bf16 else FloatFmt.f32
    let ws := t.scales.getD j []
    let r := dotFloat f old.toNat (blocks.map fun b =>
      { xy := ((slice codes b).map t.mov.decode).zip ((slice col b).map t.fmt.decode),
        sa := scales.getD b 0x7F, sw := ws.getD b 0x7F })
    (BitVec.ofNat 32 r.1, r.2)

/-- One moving row into row q of tile t, over the tile's columns. -/
def CoreSt.passRow (k : CoreSt) (t : StatTile) (tile q : Nat) (codes scales : List Nat) (zp : Int) : CoreSt × DotCounts :=
  (List.range t.nw).foldl (fun a j =>
    let r := passElem t j (a.1.accElem t.acc tile q j) codes scales zp
    (a.1.setAcc t.acc tile q j r.1, a.2.add r.2)) (k, {})

/-- What an access to half-slots `hs` of core c, part of a tile, meets in accumulator memory (R142, R364): a corrected error is counted; an
uncorrectable word, or one that has failed before and has not been written anew, and a residue mismatch are recorded and contained. -/
def State.tileErr (s : State) (c tile : Nat) (hs : List Nat) (te : TileErr) : State × Bool :=
  let i := s.injected c [3]
  let s := i.2
  let te := if i.1 = 3 then .residue else if te = .ok ∧ hs.any fun h => ((s.core c).half h).bad then .uncorrectable else te
  let s := if te = .uncorrectable then
      s.setCore c (hs.foldl (fun (k : CoreSt) h => k.setHalf h { k.half h with bad := true }) (s.core c)) else s
  let k := s.core c
  let stop (d0 : Nat) : State × Bool :=
    ((s.emit c 0x05 d0 0 (some k.part) k.ctx).contain k.part k.ctx 0x25 c (some k.flight) true, true)
  match te with
  | .ok => (s, false)
  | .corrected => (s.perf c 0x0F 1, false)
  | .uncorrectable => stop tile
  | .residue => stop (tile + 256)

/-- Count a pass's R114 events on the core and its performance counters. -/
def State.countDots (s : State) (c : Nat) (d : DotCounts) : State :=
  let k := s.core c
  let s := s.setCore c { k with dots := k.dots.add d }
  (((s.perf c 0x09 d.nanBlocks).perf c 0x0A d.infBlocks).perf c 0x0B d.infRounds).perf c 0x0C d.clamps

/-- The scale codes or zero points at `b` that rows 0 to m − 1 read, each an offset and its bytes (R207, R209). -/
def movSides (b : Nat) (f : Fmt) (zpMode r kw m : Nat) : List (Nat × Nat) :=
  if f.blockScaled then
    (List.range m).flatMap fun t => (List.range (blocksOf kw)).map fun i => (b + 16 * (t + i * cellRows r) + i, 1)
  else if zpMode = 2 then (List.range m).map fun t => (b + 16 * t, 1)
  else []

/-- The moving rows 0 to m − 1 of a layout at region offset a, each multiplied with the stationary tile into a row of an accumulator tile,
which is opened first where the pass opens it (R133, R180); with what the products counted. -/
def CoreSt.passRows (k : CoreSt) (t : TDesc) (f : Fmt) (st : StatTile) (acc : AccFmt) (tile m a : Nat) (opening : Bool) :
    CoreSt × DotCounts :=
  let so := t.scaleOff
  let k0 := if opening then k.openTile acc tile else k
  (List.range m).foldl (fun (x : CoreSt × DotCounts) i =>
    let codes := k.movRow (k.region.off + a) f st.rate st.kw i
    let scales := if f.blockScaled then
        (List.range (blocksOf st.kw)).map fun b =>
          (k.scrByte (k.region.off + so + 16 * (i + b * cellRows st.rate) + b)).toNat
      else []
    let zp := if t.zpMode = 1 then zeroPoint f t.zp
      else if t.zpMode = 2 then zeroPoint f (k.scrByte (k.region.off + so + 16 * i)).toNat else 0
    let y := x.1.passRow st tile i codes scales zp
    (y.1, x.2.add y.2)) (k0, {})

/-- PASS: M moving rows from xa accumulate into a tile (R180). -/
def execPass (c : CoreId) (w : BitVec 56) (err : PhysErr) (te : TileErr) (s : State) : Host.Outcome State Fault Refusal :=
  let e := wordEcc err
  s.issue c 0x21 w fun s k =>
    let a := (k.xr (fieldOf w 55 51)).toNat
    let tile := fieldOf w 45 41
    let m := fieldOf w 40 34 + 1
    let opening := fieldOf w 33 33 = 1
    match s.tdesc c (k.xr (fieldOf w 50 46)).toNat e, k.stat, AccFmt.ofCode (fieldOf w 32 31) with
    | .error r, _, _ => r
    | .ok (s, t, f), some st, some acc =>
      let scaled := hasScales f t.zpMode
      let so := t.scaleOff
      let en := if f = .f32 then 512 * m
        else 512 * ((m + 127 + (groupsPerWord f.width st.rate).1 - 1) / (groupsPerWord f.width st.rate).1)
      let sn := if t.zpMode = 2 then 16 * m else 16 * (m + 128 - cellRows st.rate)
      if f ≠ st.mov ∨ acc ≠ st.acc ∨ !tileLegal acc tile ∨ a % 512 ≠ 0 ∨ (scaled && so % 16 ≠ 0) ∨
          (!opening && !k.tileOpen acc tile) then .illegal
      else if !s.inRegion c a en then s.regionFault c a
      else if scaled && !s.inRegion c so sn then s.regionFault c so
      else
        let q := s.scrReads c (movWords (k.region.off + a) f st.rate st.kw m ++
          movSides (k.region.off + so) f t.zpMode st.rate st.kw m) e
        if q.2 then .bad q.1
        else
          let q := q.1.tileErr c tile (if opening then [] else tileHalves acc tile) te
          if q.2 then .bad q.1
          else
            let s := q.1
            let k := s.core c
            let r := k.passRows t f st acc tile m a opening
            let s := s.setCore c { r.1 with arrayP := (k.arrayP + m) % 2 ^ 64 }
            .seq ((s.countDots c r.2).perf c 0x02 m) k.pc
    | _, _, _ => .illegal

/-! ## DRAIN (R144, R145, R181) -/

/-- The format, and the rows' home, of what a drain's fields name, if it is open as named (R140, R181). -/
def CoreSt.drainTile (k : CoreSt) (tile : Nat) (half bf : Bool) : Option AccFmt :=
  if half then
    (match (k.half tile).st with
     | .open32 f => if bf then none else some f
     | _ => none)
  else if bf then (if k.tileOpen .bf16 tile then some .bf16 else none)
  else if 16 ≤ tile then none
  else if k.tileOpen .f32 tile then some .f32
  else if k.tileOpen .i32 tile then some .i32 else none

/-- Row q of what a drain names: 128 raw elements. -/
def CoreSt.drainRow (k : CoreSt) (f : AccFmt) (tile : Nat) (half : Bool) (q : Nat) : List Lane :=
  (List.range 128).map fun j =>
    if half then SMap.get (openValue f) (k.half tile).elems (128 * q + j) else k.accElem f tile q j

/-- A drained row as it lands in scratchpad: 512 bytes, or 256 for BF16 (R144). -/
def rowBytesOf (f : AccFmt) (row : List Lane) : List Byte :=
  (row.map fun l => leBytes (if f = .bf16 then 2 else 4) l.toNat).flatten

/-- A drained row as it lands in a vector register: BF16 is converted exactly (R103, R144). -/
def rowLanes (f : AccFmt) (row : List Lane) : List Lane := if f = .bf16 then row.map (fun (l : Lane) => l <<< (16 : Nat)) else row

/-- A vector instruction's result is ready: VECTOR and the performance counter rise. -/
def State.vecDone (s : State) (c : Nat) : State :=
  let k := s.core c
  (s.setCore c { k with vectorP := (k.vectorP + 1) % 2 ^ 64 }).perf c 0x05 1

/-- Rows `first` to first + n − 1 of what a drain names, to scratchpad from a physical offset upward or to vector registers from `v` on, and
the tile closed where the drain closes it (R144, R181). -/
def CoreSt.drainTo (k : CoreSt) (f : AccFmt) (tile : Nat) (half : Bool) (first n v : Nat) (scr : Option Nat) (close : Bool) : CoreSt :=
  let rb := if f = .bf16 then 256 else 512
  let k1 := (List.range n).foldl (fun (x : CoreSt) i =>
    let row := k.drainRow f tile half (first + i)
    match scr with
    | some p => x.scrWrite (p + i * rb) (rowBytesOf f row)
    | none => x.setV ((v + i) % 32) (rowLanes f row)) k
  if close then k1.closeHalves (if half then [tile] else tileHalves f tile) else k1

/-- DRAIN: rows of a tile leave accumulator memory unchanged (R181). -/
def execDrain (c : CoreId) (w : BitVec 56) (te : TileErr) (s : State) : Host.Outcome State Fault Refusal :=
  s.issue c 0x30 w fun s k =>
    let tile := fieldOf w 55 51
    let first := fieldOf w 50 44
    let n := fieldOf w 43 37 + 1
    let half := fieldOf w 35 35 = 1
    let v := fieldOf w 33 29
    match k.drainTile tile half (fieldOf w 28 28 = 1) with
    | none => .illegal
    | some f =>
      if (if half then 64 else 128) < first + n then .illegal
      else
        let a := (k.xr v).toNat
        let rb := if f = .bf16 then 256 else 512
        let toScr := fieldOf w 34 34 = 1
        if toScr && a % 4 ≠ 0 then .illegal
        else if toScr && !s.inRegion c a (n * rb) then s.regionFault c a
        else
          let q := s.tileErr c (if half then tile / 2 else tile) (if half then [tile] else tileHalves f tile) te
          if q.2 then .bad q.1
          else
            let s := q.1
            let k := s.core c
            let k2 := k.drainTo f tile half first n v (if toScr then some (k.region.off + a) else none) (fieldOf w 36 36 = 1)
            .seq ((s.setCore c k2).vecDone c) k.pc

end Sys2Proof.Machine
end

