-- ==== Sys2Proof/Machine/StackMem.lean ====
section
/-! DEFINITION. Stack memory as the base die serves it (R245 to R255, R262, R265 to R267): lines, rows, dies, the wake buffer,
errors, and a read or write of a range for a requester. -/

namespace Sys2Proof.Machine

/-- An uncorrectable error. -/
def eccUnc : Ecc → Bool
  | .uncorrectable _ => true
  | _ => false

/-- A tag mismatch. -/
def eccTag : Ecc → Bool
  | .tagFail _ => true
  | _ => false

/-- Bytes of one die. -/
def dieBytes : Nat := 0x120000000

/-- The device address of a stack offset. -/
def stackAddr (st off : Nat) : Nat := st * 0x1200000000 + off

/-- The die of a stack offset (R246). -/
def dieOf (off : Nat) : Nat := off / dieBytes

/-- The bank, 0 to 2,047, and the row of a stack offset (R246): 4 banks per channel per die, numbered die first, then
channel (log entry 14). -/
def stackRow (off : Nat) : Nat × Nat :=
  let o := off % dieBytes
  (128 * dieOf off + 4 * (o / 64 % 32) + o / 32768 % 4, o / 0x20000)

/-- The frame of a stack offset (R247). -/
def frameOf (off : Nat) : Nat := off / 65536

/-- Frame f of stack st. -/
def State.frame (s : State) (st f : Nat) : Frame := SMap.get {} (s.stk st).frames f

/-- Put frame f of stack st. -/
def State.setFrame (s : State) (st f : Nat) (x : Frame) : State :=
  let k := s.stk st
  s.setStk st { k with frames := SMap.set {} k.frames f x }

/-- The state of die d (R264). -/
def StackSt.die (k : StackSt) (d : Nat) : Nat := SMap.get 0 k.dies d

/-- Put the state of die d. -/
def StackSt.setDie (k : StackSt) (d v : Nat) : StackSt := { k with dies := SMap.set 0 k.dies d v }

/-- Frames of a die. -/
def dieFrames : Nat := 73728

/-- The die that holds a frame is neither OFF nor RESTORING (R267, R268). -/
def StackSt.dieUp (k : StackSt) (d : Nat) : Bool := k.die d ≠ 4 && k.die d ≠ 5

/-- A frame may be allocated: it is FREE, and its die holds contents (R248, R268). -/
def State.frameFree (s : State) (st f : Nat) : Bool :=
  decide (f < 1179648) && (s.frame st f).st = .free && (s.stk st).dieUp (f / dieFrames)

/-- At most `c` FREE frames of a frame table from `lo` up to `hi`, the lowest. -/
def freeFrames : SMap Frame → Nat → Nat → Nat → List Nat
  | [], lo, hi, c => (List.range (min c (hi - lo))).map (lo + ·)
  | (k, f) :: t, lo, hi, c =>
    if k < lo then freeFrames t lo hi c
    else
      let gap := min c (min k hi - lo)
      let rest := c - gap
      let one := f.st = .free ∧ k < hi ∧ rest ≠ 0
      (List.range gap).map (lo + ·) ++ (if one then [k] else []) ++
        (if rest = 0 then [] else freeFrames t (k + 1) hi (if one then rest - 1 else rest))

/-- At most `n` frames of a stack that may be allocated, the lowest. -/
def State.freeIn (s : State) (st n : Nat) : List Nat :=
  ((List.range 16).filter fun d => (s.stk st).dieUp d).foldl (fun acc d =>
    if n ≤ acc.length then acc
    else acc ++ freeFrames (s.stk st).frames (dieFrames * d) (dieFrames * (d + 1)) (n - acc.length)) []

/-- The unit index of a stack's base die (R514). -/
def stkUnit (st : Nat) : Nat := 192 + st

/-- What an access came to: carried out; refused at the stack; an uncorrectable error; a tag failure; an uncorrectable scratchpad word outside every
region; or waiting for room in the wake buffer of a stack. -/
inductive Acc where
  | ok | refused | uncorrectable | tagFail | unowned
  | wait (st : Nat)
deriving DecidableEq, Repr

/-- The status of an access that failed (R333, R363). -/
def Acc.status : Acc → Nat
  | .uncorrectable => 0x25
  | .tagFail => 0x26
  | _ => 0x24

/-- The wake buffer of a stack is full and a request waits at the hall: credits are withheld for a free number of cycles
(R266). -/
def State.creditStall (s : State) (st : Nat) : State :=
  let k := s.stk st
  let s := s.setStk st { k with stalls := satAdd 32 k.stalls (Config.cycles s.freeCtr).toNat }
  { s with freeCtr := s.freeCtr + 1 }

/-- Bytes of one stack. -/
def stackBytes : Nat := 0x1200000000

/-- A sleeping die that has work wakes (R266). -/
def State.wakeDie (s : State) (st d : Nat) : State :=
  let k := s.stk st
  match k.die d with
  | 1 | 2 | 3 =>
    let k := if k.die d = 2 then k.setDie d 3 else k
    s.setStk st { k with wakeDue := if d ∈ k.wakeDue then k.wakeDue else k.wakeDue ++ [d] }
  | _ => s

/-- A request for a line reaches its die (R265 to R267): an awake die serves it; a sleeping die's wake buffer takes it and
the wake is due; an OFF or RESTORING die refuses it. While a landing 4 holds the dies in self-refresh, a request waits (R385). -/
def State.wakeLine (s : State) (st off : Nat) (write : Bool) : State × Acc :=
  let k := s.stk st
  let d := dieOf off
  match k.die d with
  | 0 => (s, .ok)
  | 1 | 2 | 3 =>
    -- a read of a line whose write is buffered is served from the buffer
    if !write && k.wake.any fun w => w.write && decide (w.off / 64 = off / 64) then (s, .ok)
    else if 1024 ≤ k.wake.length ∨ k.srHeld.isSome then (s, .wait st)
    else
      let w := k.wake ++ [{ die := d, off := off, write := write }]
      let k := if k.die d = 2 then k.setDie d 3 else k
      let k := { k with wake := w, wakePeak := max k.wakePeak w.length, outst := SMap.upd 0 k.outst d (· + 1),
                        wakeDue := if d ∈ k.wakeDue then k.wakeDue else k.wakeDue ++ [d] }
      ((s.setStk st k).perf (stkUnit st) 0x07 1, .ok)
  | _ => (s, .refused)

/-- An uncorrectable line: counted, recorded, and its row proposed for a remap (R255, R262). -/
def State.lineUnc (s : State) (st off : Nat) (part : Option Nat) (ctx : Nat) : State :=
  let k := s.stk st
  let r := stackRow off
  let n := (SMap.get {} k.rowErr (36864 * r.1 + r.2)).total
  let s := s.setStk st { k with eccUnc := bump 16 k.eccUnc, bad := SMap.set 0 k.bad (off / 64) 1,
                                rowLog := if r ∈ k.rowLog then k.rowLog else k.rowLog ++ [r] }
  let s := s.emit (stkUnit st) 0x0B 0 off part ctx
  s.emit (stkUnit st) 0x0A r.1 (r.2 + n * 2 ^ 32) part ctx

/-- A line whose tag does not match: counted and recorded (R254, R255). -/
def State.lineTag (s : State) (st off : Nat) (part : Option Nat) (ctx : Nat) : State :=
  let k := s.stk st
  let s := s.setStk st { k with tagFails := bump 16 k.tagFails, bad := SMap.set 0 k.bad (off / 64) 2 }
  s.emit (stkUnit st) 0x0C 0 off part ctx

/-- A corrected line: written back and counted; its row is proposed for a remap at 8 errors in an interval between
boundaries, or 32 since its last remap or zero-fill (R254, R262). -/
def State.lineCor (s : State) (st off : Nat) : State :=
  let k := s.stk st
  let r := stackRow off
  let key := 36864 * r.1 + r.2
  let e := SMap.get {} k.rowErr key
  let e' : RowErr := { now := e.now + 1, total := e.total + 1 }
  let worn := e'.now = 8 ∨ e'.total = 32
  let s := s.setStk st { k with eccCor := bump 32 k.eccCor, rowErr := SMap.set {} k.rowErr key e',
                                rowLog := if worn ∧ r ∉ k.rowLog then k.rowLog ++ [r] else k.rowLog }
  let s := s.perf (stkUnit st) 0x0B 1
  if worn then s.emit (stkUnit st) 0x0A r.1 (r.2 + e'.total * 2 ^ 32) else s

/-- The line offsets, 64-byte aligned, that a range of a stack touches. -/
def linesOf (off n : Nat) : List Nat :=
  (List.range ((off + n - 1) / 64 - off / 64 + 1)).map fun i => 64 * (off / 64 + i)

/-- The outcome of a line by what it holds: a line that failed a check fails it again until it is written (R255, R364). -/
def State.heldLine (s : State) (st off : Nat) (part : Option Nat) (ctx : Nat) : State × Acc :=
  match SMap.get 0 (s.stk st).bad (off / 64) with
  | 1 => (s.lineUnc st off part ctx, .uncorrectable)
  | 2 => (s.lineTag st off part ctx, .tagFail)
  | _ => (s, .ok)

/-- The check of a line that a die reads: an error that `e` places in it, or that it still holds, decides the outcome (R254). -/
def State.checkLine (s : State) (st off : Nat) (part : Option Nat) (ctx : Nat) (e : Ecc) : State × Acc :=
  let i := s.injectEcc (stkUnit st) [4, 5, 6] (stackAddr st off) e
  let s := i.2
  let here (a : Nat) : Bool := a / 64 * 64 = stackAddr st off
  match i.1 with
  | .uncorrectable a => if here a then (s.lineUnc st off part ctx, .uncorrectable) else s.heldLine st off part ctx
  | .tagFail a => if here a then (s.lineTag st off part ctx, .tagFail) else s.heldLine st off part ctx
  | .corrected a => if here a && SMap.get 0 (s.stk st).bad (off / 64) = 0 then (s.lineCor st off, .ok)
                    else s.heldLine st off part ctx
  | .ok => s.heldLine st off part ctx

/-- Read one line of a stack (R254, R265 to R267). -/
def State.readLine (s : State) (st off : Nat) (part : Option Nat) (ctx : Nat) (e : Ecc) : State × Acc :=
  let w := s.wakeLine st off false
  if w.2 ≠ .ok then w else w.1.checkLine st off part ctx e

/-! ## What the dies hold (R450, R451) -/

/-- A line as the dies of a stack hold it, its ciphertext and its tag: `mem` has the plaintext that the base die reads from it. None while there
are no stack keys. -/
def State.storedLine (s : State) (st line : Nat) : Option (List Byte × BitVec 64) :=
  if !s.sec.keys.stackKeys then none
  else
    let n := s.sec.keys.stackDraw
    let c := xtsEncrypt (stackKey n st 0) (stackKey n st 1) (xtsTweak st line) (Memory.readN s.mem (stackAddr st (64 * line)) 64)
    some (c, s.tagOf st line c)

/-- Read lines in turn, each by its device address, up to the first that fails. -/
def State.readLines (s : State) (part : Option Nat) (ctx : Nat) (e : Ecc) : List Nat → State × Acc
  | [] => (s, .ok)
  | l :: ls =>
    let r := s.readLine (l / stackBytes) (l % stackBytes) part ctx e
    if r.2 = .ok then r.1.readLines part ctx e ls else r

/-- The stacks of lines given by device address, each with the number of its lines. -/
def linesByStack (ls : List Nat) : List (Nat × Nat) :=
  ((ls.map (· / stackBytes)).dedup).map fun st => (st, ls.countP fun l => l / stackBytes = st)

/-- Lines cross the external ports of their stacks (R251): event 0x02 for lines read, 0x03 for lines written. -/
def State.portLines (s : State) (ev : Nat) (ls : List Nat) : State :=
  (linesByStack ls).foldl (fun s x => s.perf (stkUnit x.1) ev x.2) s

/-- Read a range of stack memory for a context; the bytes are those of `mem` (R254, R358). -/
def State.stkRead (s : State) (a n part ctx : Nat) (e : Ecc) : State × Acc :=
  let ls := linesOf a n
  let r := s.readLines (some part) ctx e ls
  ((r.1.portLines 0x02 ls).charge part ctx { stackB := 64 * ls.length }, r.2)

/-- The requests of an access that finds a wake buffer full: what the buffers took of it stays there, and the rest waits at the hall until the
die is awake (R266). What it had read and written so far is done again then. -/
def State.waitsAt (s r : State) (st : Nat) : State :=
  ((List.range 16).foldl (fun (s : State) t =>
    let k := r.stk t
    let old := (s.stk t).wake
    s.setStk t { s.stk t with dies := k.dies, outst := k.outst, wakeDue := k.wakeDue, wakePeak := k.wakePeak,
                              wake := old ++ (k.wake.drop old.length).map fun w => { w with write := false } }) s).creditStall st

/-- Mark a written line in the frame of a MOVE or of a row being copied (R258, R262). -/
def Frame.mark (f : Frame) (moving : Bool) (line : Nat) : Frame :=
  if moving && !decide (line ∈ f.dirty) then { f with dirty := f.dirty ++ [line] } else f

/-- The frame that a bank's row belongs to (R246). -/
def frameOfRow (bank row : Nat) : Nat := bank / 128 * 73728 + row * 2 + bank % 4 / 2

/-- A MOVE that has been taken names this frame as a source, or a row of it is being copied to its spare: writes to it are tracked (R258,
R262). -/
def State.moveSource (s : State) (st f : Nat) : Bool :=
  ((List.range 16).any fun t => (s.stk t).fc.any fun c =>
    decide (bits c.cmd.toNat 3 0 = 2 ∧ bits c.cmd.toNat 23 20 = st ∧ bits c.cmd.toNat 127 96 ≤ f ∧
      f < bits c.cmd.toNat 127 96 + bits c.cmd.toNat 63 32) && c.phase != .queued) ||
  s.bg.any fun b => match b.kind with
    | .remapCopy t r => decide (t = st ∧ frameOfRow r.bank r.row = f)
    | _ => false

/-- A line's contents are replaced: it holds good data, and its frame's dirty bits follow (R255, R258). -/
def State.lineWritten (s : State) (st off : Nat) : State :=
  let k := s.stk st
  let f := frameOf off
  let x := SMap.get {} k.frames f
  s.setStk st { k with bad := SMap.set 0 k.bad (off / 64) 0,
                       frames := SMap.set {} k.frames f (x.mark (s.moveSource st f) (off % 65536 / 64)) }

/-- A write of a line reaches its stack; `whole` says that every byte of it is written. A write of less reads the line first, and is refused
where that read fails: R254 says so of an uncorrectable error, and nothing of a tag that does not match (DESIGN CHOICE, log entry 93). -/
def State.admitLine (s : State) (st off : Nat) (whole : Bool) (part : Option Nat) (ctx : Nat) (e : Ecc) : State × Acc :=
  let w := s.wakeLine st off true
  if w.2 ≠ .ok then w else if whole then (w.1, .ok) else w.1.checkLine st off part ctx e

/-- A range covers a line whole. -/
def coversLine (a n l : Nat) : Bool := decide (a ≤ l ∧ l + 64 ≤ a + n)

/-- The lines of a write of `n` bytes from device address `a` reach their stacks, in turn up to the first that is refused. -/
def State.admitLines (s : State) (a n : Nat) (part : Option Nat) (ctx : Nat) (e : Ecc) : List Nat → State × Acc
  | [] => (s, .ok)
  | l :: ls =>
    let r := s.admitLine (l / stackBytes) (l % stackBytes) (coversLine a n l) part ctx e
    if r.2 = .ok then r.1.admitLines a n part ctx e ls else r

/-- Lines, by device address, are written. -/
def State.linesWritten (s : State) (ls : List Nat) : State :=
  ls.foldl (fun s l => s.lineWritten (l / stackBytes) (l % stackBytes)) s

/-- Write a range of stack memory for a context (R254, R358). A write that meets an error writes no byte. -/
def State.stkWrite (s : State) (a : Nat) (data : List Byte) (part ctx : Nat) (e : Ecc) : State × Acc :=
  let ls := linesOf a data.length
  let r := s.admitLines a data.length (some part) ctx e ls
  if r.2 = .ok then
    ((((r.1.linesWritten ls).setMem (Memory.writeN r.1.mem a data)).portLines 0x03 ls).charge part ctx { stackB := 64 * ls.length }, .ok)
  else r

/-- An engine's work on a die is accepted, from a stack offset on, or has been carried out: its outstanding count rises, and the die, if it
sleeps, has the request in its wake buffer and wakes; or the count falls (R265, R266). -/
def State.dieWork (s : State) (up : Bool) (x : Nat × Nat) : State :=
  let k := s.stk x.1
  let s := s.setStk x.1 { k with outst := SMap.upd 0 k.outst (dieOf x.2) fun n => if up then n + 1 else n - 1 }
  if !up then s
  else
    let w := s.wakeLine x.1 x.2 false
    match w.2 with
    | .wait st => (w.1.wakeDie x.1 (dieOf x.2)).creditStall st
    | _ => w.1

/-- A line of a write that a commit makes reaches its die: a sleeping die's wake buffer takes it (R266). -/
def State.putArrives (s : State) (l : Nat) : State :=
  let w := s.wakeLine (l / stackBytes) (l % stackBytes) true
  match w.2 with
  | .wait st => (w.1.wakeDie st (dieOf (l % stackBytes))).creditStall st
  | _ => w.1

/-- The lines that a write covers in part and that fail their check: that write is refused there (R254). -/
def State.putRefused (s : State) (a n : Nat) : List Nat :=
  (linesOf a n).filter fun l => !coversLine a n l && SMap.get 0 (s.stk (l / stackBytes)).bad (l % stackBytes / 64) ≠ 0

/-- Write bytes of stack memory as a boundary or a commit makes the write (R57): each line's frame, check and die follow; a line that is
refused, as one that fails its check and is not written whole, is counted, for the partition given, and keeps its bytes (R254). Lines come from
outside their stacks, and cross the external ports, but for those of stacks that `own` names (R251). -/
def State.putStack (s : State) (a : Nat) (data : List Byte) (part : Option Nat := none) (own : List Nat := []) : State :=
  if data.isEmpty then s
  else
    let ls := linesOf a data.length
    let no := s.putRefused a data.length
    let s := ls.foldl (fun s l => s.putArrives l) s
    let s := no.foldl (fun s l => (s.heldLine (l / stackBytes) (l % stackBytes) part 0).1) s
    let yes := ls.filter fun l => !no.contains l
    let s := s.linesWritten yes
    let bytes := (data.zipIdx.map fun x => (a + x.2, x.1)).filter fun x => !no.contains (x.1 / 64 * 64)
    (s.setMem (Memory.writeAll s.mem bytes)).portLines 0x03 (yes.filter fun l => !own.contains (l / stackBytes))

/-- A zero-fill of a die, or the loss of its contents: no line of it fails, and its rows' errors are forgotten (R262, R268). -/
def StackSt.dieZeroed (k : StackSt) (d : Nat) : StackSt :=
  { k with bad := k.bad.filter fun b => !decide (b.1 / 75497472 = d), rowErr := k.rowErr.filter fun b => !decide (b.1 / 36864 / 128 = d) }

end Sys2Proof.Machine
end

