-- ==== Sys2Proof/Machine/Dma.lean ====
section
/-! DEFINITION. The DMA engine (R188 to R192, R201, R213 to R217): issue of DMA, FILL and COPY, what a channel does with a
COPY, layout or GATHER descriptor, and confirmation. -/

namespace Sys2Proof.Machine

/-! ## Issue (R188, R189, R550) -/

/-- A slot's region as the flight translates it (R159); none for a slot that the staircase does not have. -/
def CoreSt.slotRegion (k : CoreSt) (space addr : Nat) : Option Region :=
  if space = 1 then k.slotTab[slotOf addr]? else none

/-- An instruction of core k for a channel, before it is taken. -/
def CoreSt.newEnt (k : CoreSt) (op : DmaOp) (ce : Bool) (cnt : Nat) : DmaEnt :=
  { op := op, ce := ce, cnt := cnt, part := k.part, ctx := k.ctx, epoch := k.epoch, flight := k.flight, region := k.region,
    slots := k.slotTab.length, pos := k.posAt k.pc, stamp := k.stamp }

/-- Where one side of a descriptor begins: a device address, a host address, or no address (R190, R192). -/
inductive Side where
  | dev (a : Nat)
  | host (a : Nat)
  | bad
deriving DecidableEq, Repr

/-- One side of a descriptor. -/
def sideOf (space addr : Nat) (r : Option Region) : Side :=
  match space with
  | 0 => .dev addr
  | 1 => (match r with
          | some r => .dev (scrAddr r.core (r.off + slotOff addr))
          | none => .bad)
  | _ => .host addr

/-- Two ranges overlap. -/
def overlap (a b : Nat × Nat) : Bool := decide (a.1 < b.2 ∧ b.1 < a.2)

/-- The bounding ranges of a COPY descriptor overlap (R215). -/
def copyOverlaps (d : BitVec 512) (src dst : Option Region) : Bool :=
  match sideOf (dSrcSpace d) (dSrc d) src, sideOf (dDstSpace d) (dDst d) dst with
  | .dev a, .dev b => overlap (bounding a (dSrcStride d) (dRows d) (dRowBytes d)) (bounding b (dDstStride d) (dRows d) (dRowBytes d))
  | .host a, .host b => overlap (bounding a (dSrcStride d) (dRows d) (dRowBytes d)) (bounding b (dDstStride d) (dRows d) (dRowBytes d))
  | _, _ => false

/-- A layout's destination: a 512-byte-aligned offset of the issuing core's region that holds the whole layout (R212). -/
def layoutDst (d : BitVec 512) (c : Nat) (r : Region) (dst : Option Region) : Bool :=
  match sideOf (dDstSpace d) (dDst d) dst with
  | .dev a =>
    let b := scrAddr c r.off
    decide (b ≤ a ∧ (a - b) % 512 = 0 ∧ a - b + layoutBytes d ≤ r.len)
  | _ => false

/-- DMA: read and check the descriptor at xa, and queue it on a channel (R188, R550). -/
def execDma (c : CoreId) (w : BitVec 56) (err : PhysErr) (s : State) : Host.Outcome State Fault Refusal :=
  let e := wordEcc err
  s.issue c 0x40 w fun s k =>
    let a := (k.xr (fieldOf w 55 51)).toNat
    let ch := fieldOf w 50 48
    if a % 64 ≠ 0 then .illegal
    else if !s.inRegion c a 64 then s.regionFault c a
    else if k.ctrlq.any fun o => match o with
      | .store _ _ => true
      | _ => false then .wait 7
    else if 8 ≤ (k.chan ch).length then .wait 4
    else
      let p := k.region.off + a
      let q := s.scrEcc c p 64 e
      if q.2 then .bad q.1
      else
        let d : BitVec 512 := BitVec.ofNat 512 (leNat (k.scrRead p 64))
        let src := k.slotRegion (dSrcSpace d) (dSrc d)
        let dst := k.slotRegion (dDstSpace d) (dDst d)
        if !descOk d ∨ (dKind d = 0 ∧ copyOverlaps d src dst) ∨
            ((dKind d = 1 ∨ dKind d = 2) ∧ !layoutDst d c k.region dst) then .illegal
        else
          let k := q.1.core c
          let ent := k.newEnt (.desc d src dst) (dCe d) (dCount d)
          .seq (q.1.setCore c { k.setChan ch (k.chan ch ++ [ent]) with stamp := k.stamp + 1 }) k.pc

/-- The effect of a FILL or COPY on its core's scratchpad (R189, R201); a FILL of zeros is a zero-fill of its rows: R204
speaks of a zero-fill that covers the row, and does not say whose (DESIGN CHOICE, log entry 152). -/
def CoreSt.runFill (k : CoreSt) (o : DmaOp) : CoreSt :=
  match o with
  | .fill off n pattern =>
    let unit := leBytes 4 pattern.toNat
    let k := k.scrWrite off ((List.range n).map fun i => unit.getD (i % 4) 0)
    if pattern = 0 then k.rowsZeroed off n else k
  | .copy dst src n _ => k.scrWrite dst (k.scrRead src n)
  | .desc _ _ _ => k

/-- Bytes that an instruction moves. -/
def DmaOp.bytes : DmaOp → Nat
  | .desc d _ _ => dRowBytes d * dRows d
  | .fill _ n _ => n
  | .copy _ _ n _ => n

/-- Change instruction i of channel ch of core c. -/
def State.updEnt (s : State) (c ch i : Nat) (f : DmaEnt → DmaEnt) : State :=
  let k := s.core c
  s.setCore c (k.setChan ch ((k.chan ch).modify i f))

/-- The control core issues nothing further for a flight (R165). -/
def State.haltFlight (s : State) (c flight : Nat) : State :=
  let k := s.core c
  if k.flight = flight ∧ (k.phase = .running ∨ k.phase = .atWtick) then s.setCore c { k with phase := .halted } else s

/-- The context of the flight whose region on core c holds an offset: of a flight that runs, else of one that waits (R195, R202). -/
def State.regionOwner (s : State) (c off : Nat) : Option (Nat × Nat) :=
  let holds (f : FlightSt) : Bool := f.endStatus.isNone && f.slots.any fun r => decide (r.core = c ∧ r.off ≤ off ∧ off < r.off + r.len)
  let fs := s.flights.filterMap fun x => x.2.bind fun f => if holds f then some f else none
  ((fs.find? FlightSt.begun).or fs.head?).map fun f => (f.part, f.ctx)

/-- An uncorrectable word of a scratchpad met by a DMA engine is recorded and contained as an error of the context that owns the region; outside
every region no context is charged (R202). -/
def State.wordUnc (s : State) (c off : Nat) : State :=
  match s.regionOwner c off with
  | some o => (s.scrUnc c off (some o.1) o.2).contain o.1 o.2 0x25 c (noted := true)
  | none => s.scrUnc c off none 0

/-- Run FILL and COPY instructions from instruction i of a channel on, which nothing unexecuted or still owed data precedes (R213). A COPY
whose source fails its check is not confirmed, and its channel takes nothing further (R202, R217). Nothing runs for a partition that a hard stop
or a landing 2 has stopped (R74, R218). -/
def State.runFills (c ch : Nat) : State → Nat → List DmaEnt → State
  | s, _, [] => s
  | s, i, e :: t =>
    match e.phase, e.op with
    | .executed, _ => if e.owed = 0 then State.runFills c ch s (i + 1) t else s
    | .failed, _ => s
    | .queued, .desc _ _ _ => s
    | .queued, o =>
      if s.frozen e.part then s
      else
        let q : State × Option Nat := match o with
          | .copy _ src n err => s.scrMeets c [(src, n)] err
          | _ => (s, none)
        match q.2 with
        | some x =>
          let s := ((q.1.wordUnc c x).updEnt c ch i fun y => { y with phase := .failed }).haltFlight c e.flight
          if (s.regionOwner c x).isSome then s.contain e.part e.ctx 0x25 c (some e.flight) true else s
        | none =>
          let s := q.1.setCore c ((q.1.core c).runFill o)
          State.runFills c ch (s.updEnt c ch i fun y => { y with phase := .executed, asked := o.bytes, conf := o.bytes }) (i + 1) t

/-- The FILL and COPY instructions of a channel that are due run (R213). -/
def State.settleChan (s : State) (c ch : Nat) : State := State.runFills c ch s 0 ((s.core c).chan ch)

/-- A FILL or COPY joins its channel, and runs when nothing there precedes it. -/
def State.joinChan (s : State) (c ch : Nat) (ent : DmaEnt) : State :=
  let k := s.core c
  (s.setCore c { k.setChan ch (k.chan ch ++ [ent]) with stamp := k.stamp + 1 }).settleChan c ch

/-- The byte count of FILL and COPY (R189). -/
def fillCountOk (n : Nat) : Bool := n % 64 = 0 && 64 ≤ n && n ≤ 6291456

/-- FILL: a pattern over a range of the region (R189). -/
def execFill (c : CoreId) (w : BitVec 56) (s : State) : Host.Outcome State Fault Refusal :=
  s.issue c 0x41 w fun s k =>
    let a := (k.xr (fieldOf w 55 51)).toNat
    let n := (k.xr (fieldOf w 50 46)).toNat
    let ch := fieldOf w 40 38
    if !fillCountOk n ∨ a % 64 ≠ 0 then .illegal
    else if !s.inRegion c a n then s.regionFault c a
    else if k.ctrlq.any fun o => match o with
      | .store _ _ => true
      | _ => false then .wait 7
    else if 8 ≤ (k.chan ch).length then .wait 4
    else
      let ent := k.newEnt (.fill (k.region.off + a) n ((k.xr (fieldOf w 45 41)).setWidth 32)) (fieldOf w 33 33 = 1)
        (fieldOf w 37 34)
      .seq (s.joinChan c ch ent) k.pc

/-- COPY: a range of the region to another (R189). -/
def execCopy (c : CoreId) (w : Met (BitVec 56)) (s : State) : Host.Outcome State Fault Refusal :=
  s.issue c 0x42 w.val fun s k =>
    let a := (k.xr (fieldOf w.val 55 51)).toNat
    let b := (k.xr (fieldOf w.val 50 46)).toNat
    let n := (k.xr (fieldOf w.val 45 41)).toNat
    let ch := fieldOf w.val 40 38
    if !fillCountOk n ∨ a % 64 ≠ 0 ∨ b % 64 ≠ 0 ∨ overlap (a, a + n) (b, b + n) then .illegal
    else if !s.inRegion c a n then s.regionFault c a
    else if !s.inRegion c b n then s.regionFault c b
    else if k.ctrlq.any fun o => match o with
      | .store _ _ => true
      | _ => false then .wait 7
    else if 8 ≤ (k.chan ch).length then .wait 4
    else
      let ent := k.newEnt (.copy (k.region.off + a) (k.region.off + b) n (wordEcc w.err)) (fieldOf w.val 33 33 = 1) (fieldOf w.val 37 34)
      .seq (s.joinChan c ch ent) k.pc

/-! ## A channel takes a descriptor (R192, R213, R217) -/

/-- The first instruction of a channel that is not executed, with the number before it; none if an earlier one failed, or still owes rows,
whose writes must come first (R213). -/
def nextEnt : List DmaEnt → Nat → Option (Nat × DmaEnt)
  | [], _ => none
  | e :: t, i =>
    match e.phase with
    | .executed => if e.owed = 0 then nextEnt t (i + 1) else none
    | .queued => some (i, e)
    | .failed => none

/-- The descriptor that channel ch of core c may take now, if its KIND is `kind`: its partition is not stopped and its epoch
is current. -/
def State.taken (s : State) (c ch kind : Nat) : Option (Nat × DmaEnt × BitVec 512 × Option Region × Option Region) :=
  match nextEnt ((s.core c).chan ch) 0 with
  | some (i, e) =>
    (match e.op with
     | .desc d src dst =>
       if dKind d = kind ∧ !s.frozen e.part ∧ s.epochOk e.part e.ctx e.epoch ∧ !(s.core c).inReset then some (i, e, d, src, dst)
       else none
     | _ => none)
  | none => none

/-- A descriptor that fails a window check moves no byte: R165 with the position of its instruction and the device address
of the range that failed (R192). -/
def State.dmaWindow (s : State) (c ch i : Nat) (e : DmaEnt) (addr : Nat) : State :=
  let s := s.emit c 0x04 e.pos addr (some e.part) e.ctx
  let s := (s.updEnt c ch i fun x => { x with phase := .failed }).haltFlight c e.flight
  s.contain e.part e.ctx 0x24 c (some e.flight) true

/-- A descriptor whose row table or indices make it illegal (R215, R550). -/
def State.dmaIllegal (s : State) (c ch i : Nat) (e : DmaEnt) : State :=
  let s := s.emit c 0x03 e.pos (insnWord 0x40 0).toNat (some e.part) e.ctx
  let s := (s.updEnt c ch i fun x => { x with phase := .failed }).haltFlight c e.flight
  s.contain e.part e.ctx 0x23 c (some e.flight) true

/-- A descriptor is not confirmed, and its context is contained with a status (R217). -/
def State.dmaRefused (s : State) (c ch i : Nat) (e : DmaEnt) (status : Nat) : State :=
  (s.updEnt c ch i fun x => { x with phase := .failed }).contain e.part e.ctx status c (some e.flight)

/-- A descriptor that meets an error or a refusal is not confirmed, and its channel takes nothing further (R217). An error outside every
region, which charges no context, fails the descriptor alone (R202). -/
def State.dmaFailed (s : State) (c ch i : Nat) (e : DmaEnt) (x : Acc) : State :=
  let s := s.updEnt c ch i fun x => { x with phase := .failed }
  if x = .unowned then s else s.contain e.part e.ctx x.status c (some e.flight) (dataStatus x.status)

/-! ## Reads and writes of device memory -/

/-- Read `n` bytes at a device address for a context (R202, R254); the bytes are those of `devBytes`. -/
def State.devRead (s : State) (a n part ctx : Nat) (e : Ecc) : State × Acc :=
  match placeOf a with
  | .stack _ _ => s.stkRead a n part ctx e
  | .scratch c off =>
    let here (x : Nat) : Nat := match placeOf x with
      | .scratch c' o => if c' = c then o else 0x800000
      | _ => 0x800000
    let e' : Ecc := match e with
      | .corrected x => .corrected (here x)
      | .uncorrectable x => .uncorrectable (here x)
      | _ => .ok
    let q := s.scrMeets c [(off, n)] e'
    (match q.2 with
     | some o => (q.1.wordUnc c o, if (q.1.regionOwner c o).isSome then .uncorrectable else .unowned)
     | none => (q.1, .ok))
  | _ => (s, .refused)

/-- The `n` bytes at a device address. -/
def State.devBytes (s : State) (a n : Nat) : List Byte :=
  match placeOf a with
  | .scratch c off => (s.core c).scrRead off n
  | _ => Memory.readN s.mem a n

/-- Write bytes at a device address for a context. -/
def State.devWrite (s : State) (a : Nat) (data : List Byte) (part ctx : Nat) (e : Ecc) : State × Acc :=
  match placeOf a with
  | .stack st off =>
    let r := s.stkWrite a data part ctx e
    if r.2 = .ok ∧ (s.frame st (frameOf off)).use = .kv then (r.1.mirrorData part (some ctx) data, .ok) else r
  | .scratch c off => (s.setCore c ((s.core c).scrWrite off data), .ok)
  | _ => (s, .refused)

/-- Write bytes to host memory for a context: the PCIe controller transmits them (R216, R358). -/
def State.hostPut (s : State) (a : Nat) (data : List Byte) (part ctx : Nat) : State :=
  (s.hostFor part a data).charge part ctx { pcieB := data.length }

/-! ## Landing a row (R190, R206 to R212) -/

/-- Put the groups of one row into a layout at physical offset `b`: `place i` is the line and bank of group i. -/
def CoreSt.landGroups (k : CoreSt) (b width r : Nat) (codes : List Nat) (place : Nat → Nat × Nat) : CoreSt :=
  let ns := groupsPerWord width r
  (List.range ((codes.length + r - 1) / r)).foldl (fun k i =>
    let g := ((codes.drop (r * i)).take r).zipIdx.foldl (fun a x => a + x.1 * 2 ^ (width * x.2)) 0
    let lb := place i
    k.scrWrite (b + lb.1 / ns.1 * 512 + 4 * lb.2 + lb.1 % ns.1 * (ns.2 / 8)) (leBytes (ns.2 / 8) g)) k

/-- Land row q of a layout descriptor's source in the layout at physical offset `b` (R207, R208, R210). -/
def CoreSt.landLayoutRow (k : CoreSt) (d : BitVec 512) (b q : Nat) (data : List Byte) : CoreSt :=
  match layoutRate d with
  | none => k
  | some (f, r) =>
    let x := leNat data
    let codes := (List.range (layoutKw f (dRowBytes d))).map (packedCode x f.width)
    k.landGroups b f.width r codes fun i =>
      if dKind d = 2 then (i, q) else if f = .f32 then (q, i) else (q + i, i)
where
  /-- The code of element j of a packed row (R84, R86). -/
  packedCode (x width j : Nat) : Nat := x / 2 ^ (width * j) % 2 ^ width

/-- Land the block scales or the per-channel zero point of row q (R207, R210). -/
def CoreSt.landScales (k : CoreSt) (d : BitVec 512) (b q : Nat) (data : List Byte) : CoreSt :=
  match layoutRate d with
  | none => k
  | some (f, r) =>
    let sb := b + (if dKind d = 2 then (stationaryBytes f r (dZpMode d)).1 else (movingBytes f r (dZpMode d) (dRows d)).1)
    data.zipIdx.foldl (fun k x =>
      let a :=
        if dKind d = 2 then (if f.blockScaled then sb + 16 * (8 * x.2 + q / 16) + q % 16 else sb + 16 * (q / 16) + q % 16)
        else (if f.blockScaled then sb + 16 * (q + x.2 * cellRows r) + x.2 else sb + 16 * q)
      k.scrWrite a [x.1]) k

/-- The device address of the scales or zero point of row q of a layout, and their bytes; none for a format without (R191,
R212). -/
def layoutSide (d : BitVec 512) (q : Nat) : Option (Nat × Nat) :=
  match layoutRate d with
  | none => none
  | some (f, _) =>
    if f.blockScaled then
      some (dScaleAddr d + q * (dSrcStride d * 8 / (32 * f.width)), (layoutKw f (dRowBytes d) + 31) / 32)
    else if dZpMode d = 2 then some (dZpAddr d + q, 1)
    else none

/-- Land row r of a descriptor at its destination. -/
def State.landRow (s : State) (e : DmaEnt) (d : BitVec 512) (dst : Option Region) (r : Nat) (data : List Byte) (ecc : Ecc) :
    State × Acc :=
  match sideOf (dDstSpace d) (dDst d) dst with
  | .dev a =>
    if dKind d = 1 ∨ dKind d = 2 then
      (match placeOf a with
       | .scratch c' off => (s.setCore c' ((s.core c').landLayoutRow d off r data), .ok)
       | _ => (s, .refused))
    else s.devWrite (a + r * dDstStride d) data e.part e.ctx ecc
  | .host a => (s.hostPut (a + r * dDstStride d) data e.part e.ctx, .ok)
  | .bad => (s, .refused)

/-! ## The copies -/

/-- The address of source row r: strided, or for GATHER by its index (R190). -/
def State.srcRow (s : State) (d : BitVec 512) (base r : Nat) : Nat :=
  if dKind d = 3 then base + leNat (s.devBytes (dfld d 0x28 63 0 + 4 * r) 4) * dSrcStride d else base + r * dSrcStride d

/-- A core's engine reaches `n` bytes at a device address: inside its partition's windows, and of its own scratchpad only the region of the
flight that issued the descriptor (R192, R194). -/
def State.dmaReach (s : State) (e : DmaEnt) (a n : Nat) : Bool :=
  s.inWindow e.part a n && (match placeOf a with
    | .scratch c off => c ≠ e.region.core || decide (e.region.off ≤ off ∧ off + n ≤ e.region.off + e.region.len)
    | _ => true)

/-- The first byte range of a copy, layout or gather that a window check refuses, by its device or host address (R192). -/
def State.windowFails (s : State) (e : DmaEnt) (d : BitVec 512) (src dst : Option Region) : Option Nat :=
  let rows := List.range (dRows d)
  let rb := dRowBytes d
  let slotFits (space addr n : Nat) (r : Option Region) : Bool :=
    space ≠ 1 || (match r with
                  | some r => decide (slotOff addr + n ≤ r.len)
                  | none => false)
  let check (side : Side) (at_ : Nat → Nat) (n : Nat) (orElse : Nat) : Option Nat :=
    match side with
    | .dev _ => (rows.find? fun r => !s.dmaReach e (at_ r) n).map at_
    | .host _ => (rows.find? fun r => !s.hostWindow e.part (at_ r) n).map at_
    | .bad => some orElse
  let idx := dfld d 0x28 63 0
  let srcS := sideOf (dSrcSpace d) (dSrc d) src
  let dstS := sideOf (dDstSpace d) (dDst d) dst
  let srcA := match srcS with
    | .dev a => a
    | .host a => a
    | .bad => dSrc d
  let dstA := match dstS with
    | .dev a => a
    | .host a => a
    | .bad => dDst d
  let lay := dKind d = 1 ∨ dKind d = 2
  if dRc d then some dstA
  else if dKind d = 3 ∧ !s.dmaReach e idx (4 * dRows d) then some idx
  else if dKind d ≠ 3 ∧ !slotFits (dSrcSpace d) (dSrc d) ((dRows d - 1) * dSrcStride d + rb) src then some srcA
  else if !lay ∧ !slotFits (dDstSpace d) (dDst d) ((dRows d - 1) * dDstStride d + rb) dst then some dstA
  else
    (check srcS (s.srcRow d srcA) rb srcA).orElse fun _ =>
      (if lay then (if s.dmaReach e dstA (layoutBytes d) then none else some dstA)
       else check dstS (fun r => dstA + r * dDstStride d) rb dstA).orElse fun _ =>
        if lay then
          (rows.find? fun r => match layoutSide d r with
            | some x => !s.dmaReach e x.1 x.2
            | none => false).map fun r => ((layoutSide d r).getD (0, 0)).1
        else none

/-- The scales and zero points of rows, landed in turn (R207, R210). -/
def State.landSides (s : State) (c b : Nat) (e : DmaEnt) (d : BitVec 512) (ecc : Ecc) : List Nat → State × Acc
  | [] => (s, .ok)
  | r :: t =>
    match layoutSide d r with
    | none => (s, .ok)
    | some x =>
      let q := s.devRead x.1 x.2 e.part e.ctx ecc
      if q.2 = .ok then
        (q.1.setCore c ((q.1.core c).landScales d b r (q.1.devBytes x.1 x.2))).landSides c b e d ecc t
      else q

/-- The rows of a descriptor, moved in turn up to the first that fails. A row from host memory becomes an outstanding PCIe
read (R235). -/
def State.moveRows (s : State) (c ch i : Nat) (e : DmaEnt) (d : BitVec 512) (src dst : Option Region) (ecc : Ecc) :
    List Nat → State × Acc
  | [] => (s, .ok)
  | r :: t =>
    match sideOf (dSrcSpace d) (dSrc d) src with
    | .dev a =>
      let a := s.srcRow d a r
      let q := s.devRead a (dRowBytes d) e.part e.ctx ecc
      if q.2 ≠ .ok then q
      else
        let l := q.1.landRow e d dst r (q.1.devBytes a (dRowBytes d)) ecc
        if l.2 = .ok then
          (l.1.updEnt c ch i fun x => { x with asked := x.asked + dRowBytes d, conf := x.conf + dRowBytes d }).moveRows
            c ch i e d src dst ecc t
        else l
    | .host a =>
      let rd : PcieRead := { tag := s.readNext, part := e.part, ctx := e.ctx, epoch := e.epoch,
                             host := s.srcRow d a r, len := dRowBytes d, core := c, chan := ch, stamp := e.stamp, row := r,
                             shut := s.locked e.part }
      ({ s with reads := s.reads ++ [rd], readNext := s.readNext + 1 }.updEnt c ch i fun x =>
        { x with outstanding := x.outstanding + 1, owed := x.owed + 1, asked := x.asked + dRowBytes d }).moveRows c ch i e d src dst ecc t
    | .bad => (s, .refused)

/-- Refuse a GATHER whose bounding source range, by its indices, overlaps its destination (R215). -/
def State.gatherOverlaps (s : State) (d : BitVec 512) (src dst : Option Region) : Bool :=
  match sideOf (dSrcSpace d) (dSrc d) src, sideOf (dDstSpace d) (dDst d) dst with
  | .dev a, .dev b =>
    let as := (List.range (dRows d)).map (s.srcRow d a)
    let lo := as.foldl min (as.headD 0)
    let hi := as.foldl max 0
    overlap (lo, hi + dRowBytes d) (bounding b (dDstStride d) (dRows d) (dRowBytes d))
  | .host a, .host b =>
    let as := (List.range (dRows d)).map (s.srcRow d a)
    overlap (as.foldl min (as.headD 0), as.foldl max 0 + dRowBytes d) (bounding b (dDstStride d) (dRows d) (dRowBytes d))
  | _, _ => false

/-- What a COPY, layout or GATHER moves: the zero-fill of a layout's destination with its scales and zero points (R208, R212), or the read of
a GATHER's indices; then the rows in turn, up to the first that fails (R217). -/
def State.copyRows (s : State) (c ch kind i : Nat) (e : DmaEnt) (d : BitVec 512) (src dst : Option Region) (ecc : Ecc) : State × Acc :=
  let rows := List.range (dRows d)
  let b := match sideOf (dDstSpace d) (dDst d) dst with
    | .dev a => (match placeOf a with
                 | .scratch _ off => off
                 | _ => 0)
    | _ => 0
  let pre : State × Acc :=
    if kind = 1 ∨ kind = 2 then
      (s.setCore c ((s.core c).zeroBytes b (layoutBytes d))).landSides c b e d ecc rows
    else if kind = 3 then s.devRead (dfld d 0x28 63 0) (4 * dRows d) e.part e.ctx ecc
    else (s, .ok)
  if pre.2 = .ok then pre.1.moveRows c ch i e d src dst ecc rows else pre

/-- A channel takes a COPY, layout or GATHER descriptor and carries it out (R190, R192, R212, R217). -/
def State.runCopy (s : State) (c ch kind : Nat) (ecc : Ecc) : State :=
  match s.taken c ch kind with
  | none => s
  | some (i, e, d, src, dst) =>
    match s.windowFails e d src dst with
    | some a => s.dmaWindow c ch i e a
    | none =>
      if kind = 3 ∧ s.gatherOverlaps d src dst then s.dmaIllegal c ch i e
      else
        let r := s.copyRows c ch kind i e d src dst ecc
        match r.2 with
        | .ok => (r.1.updEnt c ch i fun x => { x with phase := .executed }).settleChan c ch
        | .wait st => s.waitsAt r.1 st
        | x => r.1.dmaFailed c ch i e x

/-- A channel takes a strided COPY descriptor (R190). -/
def execDmaCopy (c : CoreId) (ch : ChanId) (err : PhysErr) (s : State) : Host.Outcome State Fault Refusal :=
  let e := s.devEcc err
  .next (s.runCopy c ch 0 e)

/-- A channel takes a MOVING_LAYOUT descriptor (R191, R207). -/
def execMovingLayout (c : CoreId) (ch : ChanId) (err : PhysErr) (s : State) : Host.Outcome State Fault Refusal :=
  let e := s.devEcc err
  .next (s.runCopy c ch 1 e)

/-- A channel takes a STATIONARY_LAYOUT descriptor (R191, R210). -/
def execStationaryLayout (c : CoreId) (ch : ChanId) (err : PhysErr) (s : State) : Host.Outcome State Fault Refusal :=
  let e := s.devEcc err
  .next (s.runCopy c ch 2 e)

/-- A channel takes a GATHER descriptor (R190). -/
def execDmaGather (c : CoreId) (ch : ChanId) (err : PhysErr) (s : State) : Host.Outcome State Fault Refusal :=
  let e := s.devEcc err
  .next (s.runCopy c ch 3 e)

/-- The oldest instruction of a channel is confirmed: progress and its count rise (R151, R166, R216). -/
def execDmaConfirmation (c : CoreId) (ch : ChanId) (s : State) : Host.Outcome State Fault Refusal :=
  let k := s.core c
  match k.chan ch with
  | e :: t =>
    if e.phase = .executed ∧ e.outstanding = 0 ∧ s.epochOk e.part e.ctx e.epoch then
      let k := { k.setChan ch t with dmaP := (k.dmaP + 1) % 2 ^ 64 }
      .next ((s.setCore c (if e.ce then k.addCnt e.cnt 1 else k)).perf c 0x08 e.op.bytes)
    else .next s
  | [] => .next s

/-! ## REMOTE (R190, R219, R406) -/

/-- The outbound slot and offset of row r of a REMOTE descriptor, inside a slot of the partition; none where a check of R219 or R192
fails. -/
def State.remoteRow (s : State) (p : Nat) (d : BitVec 512) (r : Nat) : Option (OutSlot × Nat × Nat) :=
  if dDstSpace d ≠ 0 then none
  else
    match placeOf (dDst d + r * dDstStride d) with
    | .remote k off =>
      (match SMap.get none s.outSlots k with
       | some o => if o.part = p ∧ off + dRowBytes d ≤ o.len then some (o, k, off) else none
       | none => none)
    | _ => none

/-- The first address of a REMOTE descriptor that a window check refuses (R192). -/
def State.remoteFails (s : State) (e : DmaEnt) (d : BitVec 512) (src : Option Region) : Option Nat :=
  let rows := List.range (dRows d)
  let rb := dRowBytes d
  let last := (dRows d - 1) * dSrcStride d + rb
  let slotBad := dSrcSpace d = 1 && !((src.map fun r => decide (slotOff (dSrc d) + last ≤ r.len)).getD false)
  let bad : Option Nat := match sideOf (dSrcSpace d) (dSrc d) src with
    | .dev a => if slotBad then some a else (rows.find? fun r => !s.dmaReach e (a + r * dSrcStride d) rb).map fun r => a + r * dSrcStride d
    | .host a => (rows.find? fun r => !s.hostWindow e.part (a + r * dSrcStride d) rb).map fun r => a + r * dSrcStride d
    | .bad => some (dSrc d)
  bad.orElse fun _ => (rows.find? fun r => (s.remoteRow e.part d r).isNone).map fun r => dDst d + r * dDstStride d

/-- The WRITE messages of row r (R406): at every 4,096 bytes from the row's start and at its end. -/
def State.rowMsgs (s : State) (c ch : Nat) (e : DmaEnt) (d : BitVec 512) (o : OutSlot) (k off : Nat) (data : List Byte) : List MsgOut :=
  let n := (data.length + 4095) / 4096
  (List.range n).map fun i =>
    { dst := o.dstModule, seq := 0, slot := k, win := o.dstWindow, epoch := o.epoch, part := e.part, ctx := e.ctx, ctxEpoch := e.epoch,
      offset := off + 4096 * i, data := (data.drop (4096 * i)).take 4096, rc := dRc d, rowEnd := i + 1 = n, rowPos := 4096 * i,
      rowId := s.rowIds, core := c, chan := ch, stamp := e.stamp, port := none }

/-- Send row r of a REMOTE descriptor: its bytes count as requested here, unless their read from host memory has counted them. -/
def State.sendRow (s : State) (c ch i : Nat) (e : DmaEnt) (d : BitVec 512) (r : Nat) (data : List Byte) : State :=
  match s.remoteRow e.part d r with
  | none => s.dmaWindow c ch i e (dDst d + r * dDstStride d)
  | some (o, k, off) =>
    let ms := s.rowMsgs c ch e d o k off data
    let s := ({ s with sends := s.sends ++ ms, rowIds := (s.rowIds + 1) % 2 ^ 32 }.updEnt c ch i fun x =>
      { x with outstanding := x.outstanding + ms.length, asked := if dSrcSpace d = 2 then x.asked else x.asked + data.length }).charge e.part e.ctx { onlanB := data.length }
    (s.updCtx e.part e.ctx fun x => { x with multi := true }).pumpSends o.dstModule

/-- The rows of a REMOTE descriptor, in turn up to the first that fails. -/
def State.remoteRows (s : State) (c ch i : Nat) (e : DmaEnt) (d : BitVec 512) (src : Option Region) (ecc : Ecc) :
    List Nat → State × Acc
  | [] => (s, .ok)
  | r :: t =>
    match sideOf (dSrcSpace d) (dSrc d) src with
    | .dev a =>
      let a := a + r * dSrcStride d
      let q := s.devRead a (dRowBytes d) e.part e.ctx ecc
      if q.2 = .ok then (q.1.sendRow c ch i e d r (q.1.devBytes a (dRowBytes d))).remoteRows c ch i e d src ecc t else q
    | .host a =>
      let rd : PcieRead := { tag := s.readNext, part := e.part, ctx := e.ctx, epoch := e.epoch,
                             host := a + r * dSrcStride d, len := dRowBytes d, core := c, chan := ch, stamp := e.stamp, row := r,
                             shut := s.locked e.part }
      ({ s with reads := s.reads ++ [rd], readNext := s.readNext + 1 }.updEnt c ch i fun x =>
        { x with outstanding := x.outstanding + 1, owed := x.owed + 1, asked := x.asked + dRowBytes d }).remoteRows c ch i e d src ecc t
    | .bad => (s, .refused)

/-- A channel takes a REMOTE descriptor: its rows become WRITE messages (R190, R192, R406). -/
def execRemote (c : CoreId) (ch : ChanId) (err : PhysErr) (s : State) : Host.Outcome State Fault Refusal :=
  let e := s.devEcc err
  match s.taken c ch 4 with
  | none => .next s
  | some (i, x, d, src, _) =>
    match s.remoteFails x d src with
    | some a => .next (s.dmaWindow c ch i x a)
    | none =>
      let r := s.remoteRows c ch i x d src e (List.range (dRows d))
      match r.2 with
      | .ok => .next ((r.1.updEnt c ch i fun y => { y with phase := .executed }).settleChan c ch)
      | .wait st => .next (s.waitsAt r.1 st)
      | a => .next (r.1.dmaFailed c ch i x a)

/-! ## PCIe read completions (R235, R366) -/

/-- A row's data have come for instruction i of a channel, and what they hold back may run (R213). -/
def State.rowCame (s : State) (c ch i n : Nat) : State :=
  (s.updEnt c ch i fun x => { x with outstanding := x.outstanding - 1, owed := x.owed - 1, conf := x.conf + n }).settleChan c ch

/-- The data of an outstanding PCIe read arrives: its row lands, or is sent on by a REMOTE descriptor unless a hard stop has ended its partition's
requests (R74); it is discarded when its context's epoch has moved on (R366). A row that finds the wake buffer full waits (R266). A read that was made
while the interface was LOCKED has no data until it goes out (R473). -/
def execPcieReadCompletion (tag : Nat) (data : Met (List Byte)) (s : State) : Host.Outcome State Fault Refusal :=
  match s.reads.find? fun r => decide (r.tag = tag) with
  | none => .next s
  | some r =>
    if data.val.length ≠ r.len ∨ r.shut then .next s
    else
      let s0 := s
      let s := { s with reads := s.reads.filter fun x => !decide (x.tag = tag) }
      if !s.epochOk r.part r.ctx r.epoch then .next (s.staleDrop 1)
      else
        match ((s.core r.core).chan r.chan).findIdx? fun x => decide (x.stamp = r.stamp) with
        | none => .next (s.staleDrop 1)
        | some i =>
          match ((s.core r.core).chan r.chan)[i]? with
          | none => .next s
          | some e =>
            match e.op with
            | .desc d _ dst =>
              let s := s.charge r.part r.ctx { pcieB := r.len }
              if dKind d = 4 then
                .next ((if s.frozen r.part then s else s.sendRow r.core r.chan i e d r.row data.val).rowCame r.core r.chan i 0)
              else
                let l := s.landRow e d dst r.row data.val (s.devEcc data.err)
                (match l.2 with
                 | .ok => .next (l.1.rowCame r.core r.chan i r.len)
                 | .wait st => .next (s0.waitsAt l.1 st)
                 | x => .next (l.1.dmaFailed r.core r.chan i e x))
            | _ => .next s

end Sys2Proof.Machine
end

