-- ==== Sys2Proof/Machine/Stack.lean ====
section
/-! DEFINITION. The stacks' commands: line reads and writes, the scrubber, the fill-and-copy engine, row remapping, and die
power states (R252 to R268, R204, R205, R444). -/

namespace Sys2Proof.Machine

/-! ## Line reads and writes (R254, R441) -/

/-- A request at the stack: its epoch is current, its line exists, and its frame lies in its partition's windows. -/
inductive ReqCheck where
  | fine | stale | window | absent
deriving DecidableEq, Repr

/-- Check a request for a line (R366, R441). -/
def State.checkReq (s : State) (st off n : Nat) (rq : Req) : ReqCheck :=
  if 0x1200000000 ≤ off ∨ n = 0 ∨ 64 < off % 64 + n then .absent
  else if !s.epochOk rq.part rq.ctx.toNat rq.epoch then .stale
  else if !s.stackWindow rq.part st off n then .window
  else .fine

/-- A request outside its partition's windows is contained (R363, R441). -/
def State.stkWindowFault (s : State) (st off : Nat) (rq : Req) : State :=
  (s.emit (stkUnit st) 0x04 0 (stackAddr st off) (some rq.part) rq.ctx.toNat).contain rq.part rq.ctx.toNat 0x24 (stkUnit st) (noted := true)

/-- The line that the last line read of a stack returned. -/
def State.putLine (s : State) (st : Nat) (line : List Byte) : State := s.setStk st { s.stk st with lastLine := line }

/-- The access that a line request makes: a read of its line, or a write of its bytes. -/
def State.lineAccess (s : State) (st : Nat) (h : HallReq) : State × Acc :=
  match h.data with
  | none => s.stkRead (stackAddr st (h.off / 64 * 64)) 64 h.rq.part h.rq.ctx.toNat h.e
  | some d => s.stkWrite (stackAddr st h.off) d h.rq.part h.rq.ctx.toNat h.e

/-- What follows a line request's access: a line that was read is returned; a full wake buffer has it wait; a refusal contains its context
(R254, R266). -/
def State.lineAnswer (st : Nat) (h : HallReq) (r : State × Acc) : Option State :=
  match r.2 with
  | .ok => some (if h.data.isSome then r.1 else r.1.putLine st (r.1.devBytes (stackAddr st (h.off / 64 * 64)) 64))
  | .wait _ => none
  | x => some (r.1.contain h.rq.part h.rq.ctx.toNat x.status (stkUnit st) (noted := dataStatus x.status))

/-- A request for a line reaches its stack: a stale one is dropped, one outside its partition's windows contained, a read returned and a write
merged and written whole, or the failure contained (R254, R255, R267, R366, R441); none where it must wait for the wake buffer (R266). -/
def State.lineRequest (s : State) (st : Nat) (h : HallReq) : Option State :=
  let off := if h.data.isSome then h.off else h.off / 64 * 64
  match s.checkReq st off ((h.data.map List.length).getD 64) h.rq with
  | .absent => some s
  | .stale => some (s.staleDrop 1)
  | .window => some (s.stkWindowFault st off h.rq)
  | .fine => State.lineAnswer st h (s.lineAccess st h)

/-- A request is served, or waits at the hall behind those that wait there already (R266). -/
def State.lineArrives (s : State) (st : Nat) (h : HallReq) : State :=
  let hold : State := (s.creditStall st).setStk st { (s.creditStall st).stk st with hall := ((s.creditStall st).stk st).hall ++ [h] }
  if (s.stk st).hall ≠ [] then hold else (s.lineRequest st h).getD hold

/-- Requests that wait at the hall are served in order while the wake buffer has room. -/
def State.serveHall (st : Nat) : State → List HallReq → State
  | s, [] => s.setStk st { s.stk st with hall := [] }
  | s, h :: t =>
    match s.lineRequest st h with
    | some s' => State.serveHall st s' t
    | none => s.setStk st { s.stk st with hall := h :: t }

/-- A line read for a context (R254, R255, R266, R267). -/
def execStackLineRead (st : StackId) (off : Nat) (rq : Req) (err : PhysErr) (s : State) : Host.Outcome State Fault Refusal :=
  .next (s.lineArrives st { off := off, data := none, rq := rq, e := s.lineEcc err })

/-- A line write for a context, in whole or in part (R254, R266, R267). -/
def execStackLineWrite (st : StackId) (off : Nat) (data : List Byte) (rq : Req) (err : PhysErr) (s : State) :
    Host.Outcome State Fault Refusal :=
  .next (s.lineArrives st { off := off, data := some data, rq := rq, e := s.lineEcc err })

/-! ## The fill-and-copy engine (R256 to R260) -/

/-- KIND of a fill-and-copy command. -/
def fcKind (c : BitVec 256) : Nat := bits c.toNat 3 0
/-- PARTITION. -/
def fcPart (c : BitVec 256) : Nat := bits c.toNat 11 8
/-- DST_STACK. -/
def fcDstStack (c : BitVec 256) : Nat := bits c.toNat 19 16
/-- SRC_STACK. -/
def fcSrcStack (c : BitVec 256) : Nat := bits c.toNat 23 20
/-- FRAMES. -/
def fcFrames (c : BitVec 256) : Nat := bits c.toNat 63 32
/-- DST_FRAME. -/
def fcDst (c : BitVec 256) : Nat := bits c.toNat 95 64
/-- SRC_FRAME, or the pattern of a FILL. -/
def fcSrc (c : BitVec 256) : Nat := bits c.toNat 127 96
/-- Address of the line indices of a GATHER. -/
def fcIndex (c : BitVec 256) : Nat := bits c.toNat 191 128
/-- Sequence number. -/
def fcSeq (c : BitVec 256) : Nat := bits c.toNat 223 192

/-- Frames of a stack. -/
def stackFrames : Nat := 1179648

/-- The frames that a command names, as (stack, first frame): its destination, and for COPY, MOVE and GATHER its source. A
GATHER's source is the lines its indices name. -/
def fcNames (st : Nat) (c : BitVec 256) : List (Nat × Nat) :=
  let dst := (if fcKind c = 2 then fcDstStack c else st, fcDst c)
  match fcKind c with
  | 1 => [dst, (st, fcSrc c)]
  | 2 => [dst, (fcSrcStack c, fcSrc c)]
  | _ => [dst]

/-- The line indices of a GATHER. -/
def State.gatherLines (s : State) (c : BitVec 256) : List Nat :=
  (List.range (1024 * fcFrames c)).map fun j => leNat (s.devBytes (fcIndex c + 4 * j) 4)

/-- A background operation of an engine has a line pending: the copy of its row to a spare, or the gather of a page for a swap (R252, R262,
R297). -/
def State.bgPending (s : State) (st l : Nat) : Bool :=
  s.bg.any fun b => !b.done && match b.kind with
    | .remapCopy t r => decide (t = st ∧ stackRow l = (r.bank, r.row))
    | .swapOut i => decide ((s.stream i).home = st) && (s.stream i).pages.any fun e => decide (e.2 = frameOf l + 1)
    | .swapIn i => decide ((s.stream i).home = st) && (s.stream i).swapIdx.any fun j => decide (SMap.get 0 (s.stream i).pages j = frameOf l + 1)
    | _ => false

/-- A request for a line is pending: it stands in the wake buffer or waits at the hall, or an engine's work names it (R252). -/
def State.linePending (s : State) (st l : Nat) : Bool :=
  s.bgPending st l || ((s.stk st).wake.any fun w => decide (w.off / 64 = l / 64)) || ((s.stk st).hall.any fun h => decide (h.off / 64 = l / 64)) ||
  (List.range 16).any fun t => (s.stk t).fc.any fun x => x.phase != .queued &&
    (((fcNames t x.cmd).any fun y => decide (y.1 = st ∧ y.2 ≤ frameOf l ∧ frameOf l < y.2 + fcFrames x.cmd)) ||
     (decide (fcKind x.cmd = 3 ∧ t = st) && (s.gatherLines x.cmd).contains (l / 64)))

/-- The scrubber reads an allocated line that nothing has pending, writes back a corrected one and reports a failure to the owning partition
(R252, R255). -/
def execScrub (st : StackId) (off : Nat) (err : PhysErr) (s : State) : Host.Outcome State Fault Refusal :=
  let e := s.lineEcc err
  let l := off / 64 * 64
  let f := s.frame st (frameOf l)
  if 0x1200000000 ≤ l ∨ f.st ≠ .allocated ∨ s.linePending st l then .next s
  else
    let w := s.wakeLine st l false
    match w.2 with
    | .wait _ => .next (s.creditStall st)
    | .refused => .next s
    | _ =>
      let i := w.1.injectEcc (stkUnit st) [4, 5, 6] (stackAddr st l) e
      let e := i.1
      let s := i.2.perf (stkUnit st) 0x06 1
      let k := s.stk st
      let r := stackRow l
      let fails (s : State) : State := s.emit (stkUnit st) 0x10 0 l (some f.part)
      let held := SMap.get 0 k.bad (l / 64)
      if held = 1 ∨ eccUnc e then
        let n := (SMap.get {} k.rowErr (36864 * r.1 + r.2)).total
        let s := s.setStk st { k with eccUnc := bump 16 k.eccUnc, bad := SMap.set 0 k.bad (l / 64) 1,
                                      rowLog := if r ∈ k.rowLog then k.rowLog else k.rowLog ++ [r] }
        .next (fails (s.emit (stkUnit st) 0x0A r.1 (r.2 + n * 2 ^ 32) (some f.part)))
      else if held = 2 ∨ eccTag e then
        .next (fails (s.setStk st { k with tagFails := bump 16 k.tagFails, bad := SMap.set 0 k.bad (l / 64) 2 }))
      else
        match e with
        | .corrected _ => .next ((s.lineCor st l).chargePart f.part { stackB := 64 })
        | _ => .next s

/-- Two commands name a frame in common (R257). -/
def fcOverlap (st : Nat) (a : BitVec 256) (st' : Nat) (b : BitVec 256) : Bool :=
  (fcNames st a).any fun x => (fcNames st' b).any fun y =>
    x.1 = y.1 && overlap (x.2, x.2 + fcFrames a) (y.2, y.2 + fcFrames b)

/-- A frame of a command lies in PARTITION's windows. A FILL or VERIFY_ZERO names released frames too, by the partition that
released them, and Jormir's name FREE frames (R257, R443, R444; log entry 15). A frame of an OFF or RESTORING die refuses every request
(R267). -/
def State.fcFrameOk (s : State) (c : BitVec 256) (jormir : Bool) (st f : Nat) : Bool :=
  let x := s.frame st f
  (s.stk st).dieUp (f / dieFrames) && match x.st with
  | .allocated => x.part = fcPart c
  | .zeroing => (fcKind c = 0 || fcKind c = 4) && x.part = fcPart c
  | .free => jormir && (fcKind c = 0 || fcKind c = 4)
  | .retired => false

/-- The window checks of R257; a MOVE names no frame of use GENERAL (R249, R259). R256 says what FRAMES, DST_STACK and the word at 0x10 may be and
who issues which kind, and R257 names no status for a command that breaks one of these but for VERIFY_ZERO: REJECT_WINDOW (DESIGN CHOICE, log
entry 154). -/
def State.fcRejects (s : State) (st : Nat) (c : BitVec 256) (jormir : Bool) : Bool :=
  let n := fcFrames c
  let reservedBits := bits c.toNat 7 4 ≠ 0 ∨ bits c.toNat 15 12 ≠ 0 ∨ bits c.toNat 31 24 ≠ 0 ∨ bits c.toNat 255 224 ≠ 0 ∨
    (fcKind c ≠ 3 ∧ fcIndex c ≠ 0)
  decide (reservedBits ∨ 4 < fcKind c ∨ n = 0 ∨ 65536 < n ∨ (fcKind c ≠ 2 ∧ fcDstStack c ≠ st) ∨
    (fcKind c = 4 ∧ !jormir) ∨ (fcKind c ≠ 0 ∧ fcKind c ≠ 4 ∧ jormir)) ||
  (fcNames st c).any (fun x => decide (stackFrames < x.2 + n) ||
    (List.range n).any fun i => !s.fcFrameOk c jormir x.1 (x.2 + i)) ||
  (fcKind c = 2 && (fcNames st c).any fun x => (List.range n).any fun i => (s.frame x.1 (x.2 + i)).use = .general) ||
  (fcKind c = 3 && (!s.inWindow (fcPart c) (fcIndex c) (4096 * n) ||
    (s.gatherLines c).any fun l => !s.fcFrameOk c jormir st (l / 1024)))

/-- Start queued commands while fewer than 4 are active (R256). A command begins at a boundary, or later when there is room (R57); a VERIFY_ZERO,
which commits nothing of its own, may begin at once (log entry 142). -/
def fcPromote : Nat → List FcCmd → List FcCmd
  | _, [] => []
  | n, c :: t =>
    match c.phase with
    | .active => c :: fcPromote (n + 1) t
    | .queued =>
      if (c.due || fcKind c.cmd = 4) ∧ n + (t.countP fun x => x.phase = .active) < 4 then { c with phase := .active } :: fcPromote (n + 1) t
      else c :: fcPromote n t
    | .complete => c :: fcPromote n t

/-- The dies that a command works on, each as its stack and the first offset that it names there. -/
def State.fcDies (s : State) (st : Nat) (c : BitVec 256) : List (Nat × Nat) :=
  let named := (fcNames st c).flatMap fun x => (List.range 16).filterMap fun d =>
    if d * dieFrames < x.2 + fcFrames c ∧ x.2 < (d + 1) * dieFrames then some (x.1, 65536 * max x.2 (d * dieFrames)) else none
  let lines := if fcKind c = 3 then (s.gatherLines c).map fun l => (st, 64 * l) else []
  (named ++ lines).foldl (fun acc x => if acc.any fun y => decide (y.1 = x.1 ∧ dieOf y.2 = dieOf x.2) then acc else acc ++ [x]) []

/-- Put a stack's commands, starting what may start. -/
def State.setFc (s : State) (st : Nat) (l : List FcCmd) : State := s.setStk st { s.stk st with fc := fcPromote 0 l }

/-- At a boundary, the commands taken before it may begin (R57). -/
def State.fcBegin (s : State) (st : Nat) : State := s.setFc st ((s.stk st).fc.map fun x => { x with due := true })

/-- A command's work on its dies has been carried out, or is abandoned (R265). -/
def State.fcLeaves (s : State) (x : FcCmd) : State :=
  if x.phase = .complete then s else x.dies.foldl (fun s d => s.dieWork false d) s

/-- Return a completion to the issuer (R260). -/
def State.fcAnswer (s : State) (st : Nat) (d : FcDone) : State :=
  let k := s.stk st
  s.setStk st { k with fcDone := k.fcDone ++ [d] }

/-- The engine takes a command of a kind, or refuses it (R256, R257). A full queue takes nothing. A VERIFY_ZERO may follow a FILL that has
completed and not committed: R444 issues it then, and the frame's commit waits for it (DEDUCED, log entry 142). The dies that a command names
have a request outstanding from then on (R265 to R267). -/
def State.fcSubmit (s : State) (st : Nat) (c : BitVec 256) (jormir : Bool) : State :=
  let k := s.stk st
  if 64 ≤ (k.fc.countP fun x => x.phase = .queued) then s
  else if s.fcRejects st c jormir then s.fcAnswer st { seq := fcSeq c, status := .rejectWindow, jormir := jormir }
  else if (List.range 16).any fun t => (s.stk t).fc.any fun x =>
      fcOverlap st c t x.cmd && !(fcKind c = 4 && fcKind x.cmd = 0 && x.phase = .complete) then
    s.fcAnswer st { seq := fcSeq c, status := .rejectOverlap, jormir := jormir }
  else
    let ds := s.fcDies st c
    (ds.foldl (fun s d => s.dieWork true d) s).setFc st (k.fc ++ [{ cmd := c, jormir := jormir, dies := ds }])

/-- FILL (R256); a command of a reserved kind is refused here too (R257). -/
def execFcFill (st : StackId) (cmd : BitVec 256) (fromJormir : Bool) (s : State) : Host.Outcome State Fault Refusal :=
  if fcKind cmd = 0 ∨ 4 < fcKind cmd then .next (s.fcSubmit st cmd fromJormir) else .next s

/-- COPY within the stack (R256). -/
def execFcCopy (st : StackId) (cmd : BitVec 256) (fromJormir : Bool) (s : State) : Host.Outcome State Fault Refusal :=
  if fcKind cmd = 1 then .next (s.fcSubmit st cmd fromJormir) else .next s

/-- MOVE between stacks (R256, R258). -/
def execMove (st : StackId) (cmd : BitVec 256) (fromJormir : Bool) (s : State) : Host.Outcome State Fault Refusal :=
  if fcKind cmd = 2 then .next (s.fcSubmit st cmd fromJormir) else .next s

/-- GATHER of lines by index (R256). -/
def execFcGather (st : StackId) (cmd : BitVec 256) (fromJormir : Bool) (s : State) : Host.Outcome State Fault Refusal :=
  if fcKind cmd = 3 then .next (s.fcSubmit st cmd fromJormir) else .next s

/-- VERIFY_ZERO, Jormir's only (R256, R444). -/
def execVerifyZero (st : StackId) (cmd : BitVec 256) (fromJormir : Bool) (s : State) : Host.Outcome State Fault Refusal :=
  if fcKind cmd = 4 then .next (s.fcSubmit st cmd fromJormir) else .next s

/-- The stack address of frame f. -/
def frameAddr (st f : Nat) : Nat := stackAddr st (65536 * f)

/-- Write a pattern over frames: every line good again, and after a zero-fill the rows' errors forgotten (R262). -/
def State.fillFrames (s : State) (st f n pattern : Nat) (fill : Bool) : State :=
  let a := frameAddr st f
  let m := zeroRange s.mem a (65536 * n)
  let s := s.setMem (if pattern = 0 then m
    else Memory.writeN m a ((List.range (65536 * n)).map fun i => (leBytes 4 pattern).getD (i % 4) 0))
  let k := s.stk st
  let inside (l : Nat) : Bool := decide (1024 * f ≤ l ∧ l < 1024 * (f + n))
  let rowIn (key : Nat) : Bool :=
    let fr := frameOfRow (key / 36864) (key % 36864)
    decide (f ≤ fr ∧ fr < f + n)
  s.setStk st { k with bad := k.bad.filter fun b => !inside b.1,
                       rowErr := if fill ∧ pattern = 0 then k.rowErr.filter fun b => !rowIn b.1 else k.rowErr }

/-- A stack as its completed FILLs leave it. -/
def State.filledSoFar (s : State) (st : Nat) : State :=
  ((s.stk st).fc.filter fun x => x.phase = .complete && fcKind x.cmd = 0).foldl
    (fun s x => s.fillFrames st (fcDst x.cmd) (fcFrames x.cmd) (fcSrc x.cmd) true) s

/-- The first non-zero line of a range of frames, counted from its start (R260), behind the FILLs that have completed. -/
def State.firstNonZero (s : State) (st f n : Nat) : Option Nat :=
  let a := frameAddr st f
  ((s.filledSoFar st).mem.find? fun c => decide (a ≤ c.1 ∧ c.1 < a + 65536 * n)).map fun c => (c.1 - a) / 64

/-- A frame retires (R263): recorded in the configuration record. -/
def State.retireFrame (s : State) (st f : Nat) : State :=
  let x := s.frame st f
  if x.st = .retired then s
  else
    let s := s.setFrame st f { st := .retired }
    let s := s.commitRecord fun r => { r with retiredFrames := r.retiredFrames ++ [(st, f)] }
    s.emit (stkUnit st) 0x0E f 0

/-- What a VERIFY_ZERO of frames says of each ZEROING frame (R444): zero frames may become FREE, the frame of the first
non-zero line is filled once more, and retires the second time. -/
def State.verified (s : State) (st f : Nat) (line : Option Nat) : Nat → State
  | 0 => s
  | n + 1 =>
    let s := s.verified st f line n
    let x := s.frame st (f + n)
    if x.st ≠ .zeroing ∨ !x.filled then s
    else
      match line with
      | none => s.setFrame st (f + n) { x with verified := true }
      | some l =>
        if n < l / 1024 then s.setFrame st (f + n) { x with verified := true }
        else if n = l / 1024 then
          (if x.fails = 0 then s.setFrame st (f + n) { x with filled := false, fails := 1 } else s.retireFrame st (f + n))
        else s

/-- The frames that a command reads hold a line that fails its check (R260). -/
def State.fcSourceBad (s : State) (st : Nat) (c : BitVec 256) : Bool :=
  let bad (st f : Nat) : Bool := (s.stk st).bad.any fun b => decide (1024 * f ≤ b.1 ∧ b.1 < 1024 * (f + fcFrames c))
  match fcKind c with
  | 1 => bad st (fcSrc c)
  | 2 => bad (fcSrcStack c) (fcSrc c)
  | 3 => (s.gatherLines c).any fun l => SMap.get 0 (s.stk st).bad l ≠ 0
  | 4 => ((s.filledSoFar st).stk st).bad.any fun b => decide (1024 * fcDst c ≤ b.1 ∧ b.1 < 1024 * (fcDst c + fcFrames c))
  | _ => false

/-- The bytes that a COPY or GATHER will commit, as read. -/
def State.fcImage (s : State) (st : Nat) (c : BitVec 256) : List Byte :=
  match fcKind c with
  | 1 => s.devBytes (frameAddr st (fcSrc c)) (65536 * fcFrames c)
  | 3 => ((s.gatherLines c).map fun l => s.devBytes (stackAddr st (64 * l)) 64).flatten
  | _ => []

/-- Mark the ZEROING frames of a FILL. -/
def State.markFilled (s : State) (st f : Nat) : Nat → State
  | 0 => s
  | n + 1 =>
    let s := s.markFilled st f n
    let x := s.frame st (f + n)
    if x.st = .zeroing then s.setFrame st (f + n) { x with filled := true, verified := false } else s

/-- The dirty bits of a MOVE's source frames are cleared. -/
def State.cleanSource (s : State) (c : BitVec 256) : State :=
  (List.range (fcFrames c)).foldl (fun (s : State) i =>
    s.setFrame (fcSrcStack c) (fcSrc c + i) { s.frame (fcSrcStack c) (fcSrc c + i) with dirty := [] }) s

/-- An active command completes (R258, R260, R444): a failing source abandons it; VERIFY_ZERO answers at once; what FILL,
COPY, GATHER and MOVE have done commits at a boundary. None completes while a die that it works on is asleep (R266). -/
def execFcCommandCompletion (st : StackId) (seq : BitVec 32) (err : PhysErr) (s : State) : Host.Outcome State Fault Refusal :=
  let e := s.lineEcc err
  let k := s.stk st
  match k.fc.find? fun x => decide (fcSeq x.cmd = seq.toNat) && x.phase = .active &&
      x.dies.all fun d => decide ((s.stk d.1).die (dieOf d.2) = 0) with
  | none => .next s
  | some x =>
    let c := x.cmd
    let rest := k.fc.filter fun y => !decide (y = x)
    if fcKind c ≠ 0 ∧ (eccUnc e ∨ eccTag e ∨ s.fcSourceBad st c) then
      let s := match e with
        | .uncorrectable a => s.lineUnc (a / 0x1200000000 % 16) (a % 0x1200000000 / 64 * 64) none 0
        | .tagFail a => s.lineTag (a / 0x1200000000 % 16) (a % 0x1200000000 / 64 * 64) none 0
        | _ => s
      .next (((s.fcLeaves x).setFc st rest).fcAnswer st { seq := seq.toNat, status := .uncorrectable, jormir := x.jormir })
    else
      let s := match e with
        | .corrected a => s.lineCor (a / 0x1200000000 % 16) (a % 0x1200000000 / 64 * 64)
        | _ => s
      let n := 1024 * fcFrames c
      let s := s.fcLeaves x
      let s := s.setStk st { s.stk st with fcLines := (s.stk st).fcLines + n }
      let s := (s.perf (stkUnit st) 0x05 n).chargePart (fcPart c) { stackB := if fcKind c = 0 ∨ fcKind c = 4 then 64 * n else 128 * n }
      -- a MOVE between stacks crosses both external ports (R251)
      let s := if fcKind c = 2 ∧ fcSrcStack c ≠ fcDstStack c then
          (s.perf (stkUnit (fcSrcStack c)) 0x02 n).perf (stkUnit (fcDstStack c)) 0x03 n else s
      if fcKind c = 4 then
        let line := s.firstNonZero st (fcDst c) (fcFrames c)
        let s := s.verified st (fcDst c) line (fcFrames c)
        .next ((s.setFc st rest).fcAnswer st { seq := seq.toNat, status := .ok, line := line, jormir := x.jormir })
      else
        let image := s.fcImage st c
        let s := if fcKind c = 0 then s.markFilled st (fcDst c) (fcFrames c) else s
        -- every line has been copied, and each dirty line again (R258)
        let s := if fcKind c = 2 then s.cleanSource c else s
        .next (s.setFc st ((s.stk st).fc.map fun y => if y = x then { y with phase := .complete, image := image } else y))

/-- A completed FILL, COPY or GATHER commits (R57, R256). -/
def State.fcCommitOne (s : State) (st : Nat) (x : FcCmd) : State :=
  let c := x.cmd
  let s := match fcKind c with
    | 0 => s.fillFrames st (fcDst c) (fcFrames c) (fcSrc c) true
    | _ =>
      let s := s.fillFrames st (fcDst c) (fcFrames c) 0 false
      s.setMem (Memory.writeN s.mem (frameAddr st (fcDst c)) x.image)
  (s.setFc st ((s.stk st).fc.filter fun y => !decide (y = x))).fcAnswer st
    { seq := fcSeq c, status := .ok, jormir := x.jormir }

/-- Every completed FILL, COPY and GATHER of a stack commits, but for those of a partition whose background operations pause (R71). -/
def State.fcCommits (s : State) (st : Nat) : State :=
  (((s.stk st).fc.filter fun x => x.phase = .complete && fcKind x.cmd ≠ 2 && (x.jormir || !s.paused (fcPart x.cmd)))).foldl (fun s x => s.fcCommitOne st x) s

/-- A MOVE that has waited 16 boundaries is reported, once (R259). -/
def execStkMoveStalled (st : StackId) (seq : BitVec 32) (s : State) : Host.Outcome State Fault Refusal :=
  let k := s.stk st
  match k.fc.find? fun x => decide (fcSeq x.cmd = seq.toNat ∧ fcKind x.cmd = 2 ∧ 16 ≤ x.waited) && !x.stalled with
  | none => .next s
  | some x =>
    let s := s.setStk st { k with fc := k.fc.map fun y => if y = x then { y with stalled := true } else y }
    .next (s.emit (stkUnit st) 0x0F seq.toNat x.waited (some (fcPart x.cmd)))

/-- The ZEROING frames of a FILL that will not commit wait for another (R248). -/
def State.unfilled (s : State) (st f n : Nat) : State :=
  (List.range n).foldl (fun (s : State) i =>
    let x := s.frame st (f + i)
    if x.st = .zeroing then s.setFrame st (f + i) { x with filled := false, verified := false } else s) s

/-- A command is dropped: it has no effect, and a MOVE leaves its source unchanged (R259). -/
def State.fcDrop (s : State) (st : Nat) (x : FcCmd) : State :=
  let s := match fcKind x.cmd with
    | 0 => s.unfilled st (fcDst x.cmd) (fcFrames x.cmd)
    | 2 => s.cleanSource x.cmd
    | _ => s
  (s.fcLeaves x).setFc st ((s.stk st).fc.filter fun y => !decide (y = x))

/-- Abandon a command (R260). -/
def State.fcAbandon (s : State) (st : Nat) (x : FcCmd) : State :=
  (s.fcDrop st x).fcAnswer st { seq := fcSeq x.cmd, status := .abandoned, jormir := x.jormir }

/-- The runtime firmware abandons a MOVE (R259). -/
def execMoveAbandon (st : StackId) (seq : BitVec 32) (s : State) : Host.Outcome State Fault Refusal :=
  match (s.stk st).fc.find? fun x => decide (fcSeq x.cmd = seq.toNat ∧ fcKind x.cmd = 2) with
  | none => .next s
  | some x => .next (s.fcAbandon st x)

/-! ## Row remapping (R204, R205, R262, R263) -/

/-- Spare rows of a bank that are in use or committed. -/
def usedSpares (l : List Remap) (bank : Nat) : Nat := l.countP fun r => decide (r.bank = bank)

/-- Begin a background operation. -/
def State.startBg (s : State) (kind : BgKind) : State :=
  { s with bg := s.bg ++ [{ id := s.bgNext, kind := kind }], bgNext := s.bgNext + 1 }

/-- A proposal that the error log names is committed while the bank has a spare row; otherwise the core is marked for
retirement, or the frame is (R204, R205, R262, R263). -/
def execRemapProposal (t : RemapTarget) (s : State) : Host.Outcome State Fault Refusal :=
  match t with
  | .scratch c bank row =>
    let k := s.core c
    if (bank, row) ∉ k.rowLog then .next s
    else
      let k := { k with rowLog := k.rowLog.erase (bank, row) }
      let n := usedSpares (k.remap ++ k.remapPend) bank
      if n < 8 then
        let r : Remap := { bank := bank, row := row, spare := n }
        let s := (s.setCore c { k with remapPend := k.remapPend ++ [r] }).commitRecord fun x =>
          { x with scrRemap := x.scrRemap ++ [(c.val, r)] }
        .next (if n = 7 then s.alarm 7 242 c 0 else s)
      else .next (s.setCore c { k with retireMark := true })
  | .stack st bank row =>
    let k := s.stk st
    if (bank, row) ∉ k.rowLog then .next s
    else
      let k := { k with rowLog := k.rowLog.erase (bank, row) }
      let n := usedSpares (k.remap ++ k.remapPend ++ k.remapCopied) bank
      if n < 2 then
        let r : Remap := { bank := bank, row := row, spare := n }
        let s := ((s.setStk st { k with remapPend := k.remapPend ++ [r] }).commitRecord fun x =>
          { x with stkRemap := x.stkRemap ++ [(st.val, r)] }).startBg (.remapCopy st r)
        .next (if n = 1 then s.alarm 7 242 (stkUnit st) 0 else s)
      else
        let f := frameOfRow bank row
        let s := (s.setStk st k).emit (stkUnit st) 0x0D bank 0
        let x := s.frame st f
        match x.st with
        | .allocated => .next (s.setFrame st f { x with retireMark := true })
        | _ => .next (s.retireFrame st f)

/-! ## Die power states (R264 to R268) -/

/-- An idle die that may sleep enters ENTERING, unless a request is accepted in the same cycle (R265). -/
def execDieIdleEnter (st : StackId) (die : Fin 16) (requestSameCycle : Bool) (s : State) : Host.Outcome State Fault Refusal :=
  let k := s.stk st
  if k.die die = 0 ∧ bit (s.reg (stkBase st + rStkPwrSr)).toNat die ∧ SMap.get 0 k.outst die = 0 ∧ !requestSameCycle then
    .next (s.setStk st (k.setDie die 1))
  else .next s

/-- A die in ENTERING reaches SELF_REFRESH; a wake that is due begins (R265, R266). -/
def execDieSelfRefreshReached (st : StackId) (die : Fin 16) (s : State) : Host.Outcome State Fault Refusal :=
  let k := s.stk st
  if k.die die = 1 then .next (s.setStk st (k.setDie die (if die.val ∈ k.wakeDue then 3 else 2))) else .next s

/-- A waking die carries out its buffered requests in arrival order and is ACTIVE; requests that wait at the hall find room (R266). -/
def execDieWakeComplete (st : StackId) (die : Fin 16) (s : State) : Host.Outcome State Fault Refusal :=
  let k := s.stk st
  if k.die die = 3 then
    let s := s.setStk st { k.setDie die 0 with
      wake := k.wake.filter (fun w => !decide (w.die = die.val)),
      outst := SMap.upd 0 k.outst die (· - k.wake.countP fun w => decide (w.die = die.val)), wakeDue := k.wakeDue.erase die.val }
    .next (State.serveHall st s (s.stk st).hall)
  else .next s

/-- The zero-fill of a restoring die finishes: it is ACTIVE at the next boundary (R268). -/
def execDieRestoreComplete (st : StackId) (die : Fin 16) (s : State) : Host.Outcome State Fault Refusal :=
  let k := s.stk st
  if k.die die = 5 ∧ die.val ∉ k.restoring then
    .next ((s.setMem (zeroRange s.mem (stackAddr st (die * dieBytes)) dieBytes)).setStk st
      { k.dieZeroed die with restoring := k.restoring ++ [die.val] })
  else .next s

end Sys2Proof.Machine
end

