-- ==== Sys2Proof/Machine/Attention.lean ====
section
/-! DEFINITION. The stack attention engines and the ATTENTION and CANDIDATES descriptors (R274 to R287, R39, R550). -/

namespace Sys2Proof.Machine

/-! ## KV geometry (R274 to R276) -/

/-- The row size z. -/
def KvGeom.rowSize (g : KvGeom) : Nat := if g.fmt = .fp4 then g.d / 2 + g.d / 32 else g.d

/-- Heads per page hp. -/
def KvGeom.headsPerPage (g : KvGeom) : Nat := min g.hkv (65536 / (128 * g.rowSize))

/-- Layer groups NG. -/
def KvGeom.groups (g : KvGeom) : Nat := (g.hkv + g.headsPerPage - 1) / g.headsPerPage

/-- Heads per group Hg. -/
def KvGeom.groupHeads (g : KvGeom) : Nat := (g.hkv + g.groups - 1) / g.groups

/-- Index of the page-table entry of block b, layer l, group x. -/
def KvGeom.entry (g : KvGeom) (b l x : Nat) : Nat := (b * g.layers + l) * g.groups + x

/-- Page-table entries of a stream of n positions. -/
def KvGeom.entries (g : KvGeom) (n : Nat) : Nat := (n + 63) / 64 * g.layers * g.groups

/-- The device address of page-table entry i of a stream (R276). -/
def StreamSt.entryAddr (t : StreamSt) (i : Nat) : Nat := frameAddr t.home (t.ptFrames.getD (4 * i / 65536) 0) + 4 * i % 65536

/-- The frame that page-table entry i names, if the entry is VALID and the frame lies in the partition's windows (R280). -/
def State.pageFrame (s : State) (t : StreamSt) (i : Nat) : Option Nat :=
  let x := leNat (Memory.readN s.mem (t.entryAddr i) 4)
  let f := bits x 20 0
  if bit x 31 && (s.frame t.home f).st = .allocated && (s.frame t.home f).part = t.part then some f else none

/-! ## Requests (R279, R280) -/

/-- LAYER of an ATTENTION descriptor. -/
def dLayer (d : BitVec 512) : Nat := dfld d 0x30 7 0
/-- Query format. -/
def dQfmt (d : BitVec 512) : Fmt := if dfld d 0x30 11 8 = 3 then .e4m3 else .e5m2
/-- Output format. -/
def dOfmt (d : BitVec 512) : Fmt := if dfld d 0x30 15 12 = 9 then .bf16 else .f32
/-- Gq. -/
def dGq (d : BitVec 512) : Nat := dfld d 0x30 19 16 + 1
/-- SCALE. -/
def dScale (d : BitVec 512) : Lane := BitVec.ofNat 32 (dfld d 0x34 31 0)
/-- WINDOW. -/
def dWindow (d : BitVec 512) : Nat := dfld d 0x38 31 0
/-- Device address of the row table. -/
def dTable (d : BitVec 512) : Nat := dfld d 0x28 63 0

/-- Row table entry r. -/
def State.rowEntry (s : State) (d : BitVec 512) (r : Nat) : Nat := leNat (s.devBytes (dTable d + 4 * r) 4)

/-- Bytes of an output row: H_q × D elements. -/
def outBytes (g : KvGeom) (f : Fmt) : Nat := g.hkv * g.gq * g.d * f.width / 8

/-- A row's stream serves an ATTENTION row: in the issuing context's batch, with a geometry that agrees with LAYER, Gq and
ROW_BYTES (R279, R280). -/
def State.attnGeom (s : State) (e : DmaEnt) (d : BitVec 512) (i : Nat) : Option KvGeom :=
  let t := s.stream i
  match t.geom with
  | some g =>
    if t.inBatch ∧ t.part = e.part ∧ t.ctx = e.ctx ∧ dLayer d < g.layers ∧ dGq d = g.gq ∧
        dRowBytes d = g.hkv * g.gq * (g.d + 4) then some g else none
  | none => none

/-- The scratchpad side of an ATTENTION or CANDIDATES descriptor: its device address, if every row, of the bytes given for it, lies in scratchpad
inside the partition's windows; a source is read by the core's own engine (R194). -/
def State.scratchSide (s : State) (e : DmaEnt) (space addr stride rows : Nat) (n : Nat → Nat) (r : Option Region) (source : Bool) : Except Nat Nat :=
  match sideOf space addr r with
  | .dev a =>
    let fits := space ≠ 1 || (match r with
                              | some r => (List.range rows).all fun i => decide (slotOff addr + i * stride + n i ≤ r.len)
                              | none => false)
    (match (List.range rows).find? fun i => (match placeOf (a + i * stride) with
                                             | .scratch _ _ => !(if source then s.dmaReach e (a + i * stride) (n i) else s.inWindow e.part (a + i * stride) (n i))
                                             | _ => true) with
     | some i => .error (a + i * stride)
     | none => if fits then .ok a else .error a)
  | .host a => .error a
  | .bad => .error addr

/-- Bytes of the output row that a row of an ATTENTION descriptor asks for: those of its own stream's geometry (R279). -/
def State.rowOut (s : State) (e : DmaEnt) (d : BitVec 512) (r : Nat) : Nat :=
  match s.attnGeom e d (bits (s.rowEntry d r) 13 0) with
  | some g => outBytes g (dOfmt d)
  | none => 0

/-- A window violation that an attention engine finds (R280). -/
def State.attnWindow (s : State) (c ch i : Nat) (e : DmaEnt) (st addr : Nat) : State :=
  let s := s.emit (208 + st) 0x04 e.pos addr (some e.part) e.ctx
  let s := (s.updEnt c ch i fun x => { x with phase := .failed }).haltFlight c e.flight
  s.contain e.part e.ctx 0x24 (208 + st) (some e.flight) true

/-- Send the rows of an ATTENTION descriptor to their home stacks (R281). The bytes asked for are those of the output rows, which are confirmed
at the destination. -/
def State.sendRows (s : State) (c ch i : Nat) (e : DmaEnt) (d : BitVec 512) (a b : Nat) (ecc : Ecc) :
    List Nat → State × Acc
  | [] => (s, .ok)
  | r :: rs =>
    let src := a + r * dSrcStride d
    let q := s.devRead src (dRowBytes d) e.part e.ctx ecc
    if q.2 ≠ .ok then q
    else
      let s := q.1
      let id := bits (s.rowEntry d r) 13 0
      let t := s.stream id
      let k := s.stk t.home
      let row : AttnRow :=
        { id := k.rowNext, part := e.part, ctx := e.ctx, epoch := e.epoch, core := c, chan := ch, stamp := e.stamp, pos := e.pos,
          stream := id, layer := dLayer d, qfmt := dQfmt d, ofmt := dOfmt d, gq := dGq d, scale := dScale d,
          window := dWindow d, query := s.devBytes src (dRowBytes d), dst := b + r * dDstStride d, rowAddr := dTable d + 4 * r }
      let s := (s.works (208 + t.home) row.part row.ctx).setStk t.home { k with rows := k.rows ++ [row], rowNext := k.rowNext + 1 }
      (s.updEnt c ch i fun x => { x with outstanding := x.outstanding + 1, owed := x.owed + 1, asked := x.asked + s.rowOut e d r }).sendRows
        c ch i e d a b ecc rs

/-- A channel takes an ATTENTION descriptor (R279 to R281). The rows before a row-table entry with a reserved bit are sent; the instruction is
then illegal (R550). -/
def execAttention (c : CoreId) (ch : ChanId) (err : PhysErr) (s : State) : Host.Outcome State Fault Refusal :=
  let ecc := s.devEcc err
  match s.taken c ch 5 with
  | none => .next s
  | some (i, e, d, src, dst) =>
    let rows := List.range (dRows d)
    if dRc d then .next (s.dmaWindow c ch i e (dDst d))
    else if !s.dmaReach e (dTable d) (4 * dRows d) then .next (s.dmaWindow c ch i e (dTable d))
    else
      match s.scratchSide e (dSrcSpace d) (dSrc d) (dSrcStride d) (dRows d) (fun _ => dRowBytes d) src true with
      | .error a => .next (s.dmaWindow c ch i e a)
      | .ok a =>
        let s0 := s
        let tab := s.devRead (dTable d) (4 * dRows d) e.part e.ctx ecc
        match tab.2 with
        | .wait t => .next (s0.waitsAt tab.1 t)
        | .ok =>
          let s := tab.1
          let good := rows.takeWhile fun r => s.rowEntry d r / 2 ^ 14 = 0
          (match good.find? fun r => (s.attnGeom e d (bits (s.rowEntry d r) 13 0)).isNone with
           | some r =>
             .next (s.attnWindow c ch i e (s.stream (bits (s.rowEntry d r) 13 0)).home (dTable d + 4 * r))
           | none =>
             match s.scratchSide e (dDstSpace d) (dDst d) (dDstStride d) (dRows d) (s.rowOut e d) dst false with
             | .error b => .next (s.dmaWindow c ch i e b)
             | .ok b =>
               let r := s.sendRows c ch i e d a b ecc good
               match r.2 with
               | .ok => .next (if good.length < dRows d then r.1.dmaIllegal c ch i e
                               else (r.1.updEnt c ch i fun x => { x with phase := .executed }).settleChan c ch)
               | .wait t => .next (s0.waitsAt r.1 t)
               | x => .next (r.1.dmaFailed c ch i e x))
        | x => .next (tab.1.dmaFailed c ch i e x)

/-! ## The computation (R283, R284) -/

/-- The value of a binary32 lane is neither NaN nor infinite. -/
def finiteLane (l : Lane) : Bool :=
  match ofF32 l with
  | .fin _ _ _ => true
  | _ => false

/-- The value of an element code is neither NaN nor infinite. -/
def finiteVal : FVal → Bool
  | .fin _ _ _ => true
  | _ => false

/-- A K or V row of a page: element codes and block-scale codes (R274). -/
def kvRow (g : KvGeom) (bs : List Byte) : List Nat × List Nat :=
  let x := leNat bs
  ((List.range g.d).map fun i => x / 2 ^ (g.fmt.width * i) % 2 ^ g.fmt.width,
   if g.fmt = .fp4 then (bs.drop (g.d / 2)).map BitVec.toNat else [])

/-- The scaled values of a row (R81). -/
def kvVals (g : KvGeom) (r : List Nat × List Nat) : List FVal :=
  r.1.zipIdx.map fun c => (g.fmt.decode c.1).mul (if g.fmt = .fp4 then decodeScale (r.2.getD (c.2 / 32) 255) else .fin false 1 0)

/-- raw[j]: the dot product of a query head and a K row, a binary32 tile from −0 (R104, R283). -/
def rawScore (g : KvGeom) (qf : Fmt) (q : List Nat) (kr : List Nat × List Nat) : Lane :=
  BitVec.ofNat 32 (dotFloat .f32 0x80000000 ((List.range (g.d / 32)).map fun b =>
    { xy := (((q.drop (32 * b)).take 32).map qf.decode).zip (((kr.1.drop (32 * b)).take 32).map g.fmt.decode),
      sa := 0x7F, sw := if g.fmt = .fp4 then kr.2.getD b 0x7F else 0x7F })).1

/-- The larger of two lanes in the total order of R149. -/
def laneMax2 (a b : Lane) : Lane := if rankKey a < rankKey b then b else a

/-- rne(a − b) and rne(a × b) in binary32. -/
def fSub (a b : Lane) : Lane := toF32 ((ofF32 a).add (ofF32 b).negate)
/-- Product in binary32. -/
def fMul (a b : Lane) : Lane := toF32 ((ofF32 a).mul (ofF32 b))
/-- Sum in binary32. -/
def fAdd (a b : Lane) : Lane := toF32 ((ofF32 a).add (ofF32 b))
/-- Fused multiply-add in binary32. -/
def fFma (a b c : Lane) : Lane := toF32 (((ofF32 a).mul (ofF32 b)).add (ofF32 c))

/-- wsum: an ordinary block under R108, rounded once to binary32 (R283). -/
def wsum (ps : List FVal) : Lane := toF32 (windowSum ps)

/-- One block of one query head: the K and V rows of its positions in ascending order (R283, R284). -/
def headBlock (g : KvGeom) (qf : Fmt) (q : List Nat) (qs c : Lane) (ks vs : List (List Nat × List Nat)) (h : HeadAcc) : HeadAcc :=
  let cq := fMul qs c
  let t := ks.map fun k => fMul (rawScore g qf q k) cq
  let bad := !(finiteLane qs && q.all (fun x => finiteVal (qf.decode x)) &&
    (ks ++ vs).all (fun r => (kvVals g r).all finiteVal) && t.all finiteLane)
  let m2 := t.foldl laneMax2 h.m
  let a := fExp2 (ofF32 (fSub h.m m2))
  let p := t.map fun x => fExp2 (ofF32 (fSub x m2))
  let l := fFma h.l a (wsum (p.map ofF32))
  let vals := vs.map (kvVals g)
  let o := h.o.zipIdx.map fun od =>
    fFma od.1 a (wsum ((p.zip vals).map fun pv => (ofF32 pv.1).mul (pv.2.getD od.2 .nan)))
  { m := m2, l := l, o := o, bad := h.bad || bad }

/-- The state of a head before its first block. -/
def headStart (g : KvGeom) : HeadAcc := { m := 0xFF800000#32, l := 0, o := List.replicate g.d 0 }

/-- Positions j of block b with s0 ≤ j < n, within the block. -/
def blockRows (b s0 n : Nat) : List Nat := (List.range 64).filter fun j => decide (s0 ≤ 64 * b + j ∧ 64 * b + j < n)

/-- A row's n and s0 (R283). -/
def AttnRow.span (r : AttnRow) (t : StreamSt) : Nat × Nat :=
  let n := t.len + 1
  (n, if r.window ≠ 0 then n - r.window else 0)

/-- The K rows and V rows of a block for KV head kv, read from the page. -/
def State.kvRows (s : State) (g : KvGeom) (home frame kv : Nat) (js : List Nat) : List (List Nat × List Nat) × List (List Nat × List Nat) :=
  let z := g.rowSize
  let a := frameAddr home frame + kv % g.groupHeads * 128 * z
  (js.map fun j => kvRow g (Memory.readN s.mem (a + j * z) z), js.map fun j => kvRow g (Memory.readN s.mem (a + 64 * z + j * z) z))

/-- Block b of a row, for every head of its layer: the frames of its groups are given (R283). -/
def AttnRow.block (r : AttnRow) (s : State) (t : StreamSt) (g : KvGeom) (b : Nat) (frames : List Nat) : AttnRow :=
  let sp := r.span t
  let js := blockRows b sp.2 sp.1
  let hq := g.hkv * g.gq
  let accs := if r.begun then r.accs else List.replicate hq (headStart g)
  let x := leNat r.query
  let accs := accs.zipIdx.map fun ah =>
    let kv := ah.2 / g.gq
    let rows := s.kvRows g t.home (frames.getD (kv / g.groupHeads) 0) kv js
    let q := (List.range g.d).map fun i => x / 2 ^ (8 * (ah.2 * g.d + i)) % 256
    let qs : Lane := BitVec.ofNat 32 (x / 2 ^ (8 * (hq * g.d + 4 * ah.2)) % 2 ^ 32)
    headBlock g r.qfmt q qs r.scale rows.1 rows.2 ah.1
  { r with accs := accs, begun := true, next := b + 1 }

/-- The output row: out[h, d], or the canonical NaN for a head of R284. -/
def AttnRow.output (r : AttnRow) : List Byte :=
  let ff := if r.ofmt = .bf16 then FloatFmt.bf16 else FloatFmt.f32
  (r.accs.map fun h => (h.o.map fun o =>
    leBytes (r.ofmt.width / 8)
      (if h.bad then ff.nanCode else (ff.encode .rne false (ofF32 (fDiv (ofF32 o) (ofF32 h.l)))).code)).flatten).flatten

/-! ## Slices (R282) -/

/-- Weight of partition p at stack st: SAE_SHARE. -/
def State.shareWeight (s : State) (st p : Nat) : Nat :=
  if p < 8 then bits (s.reg (saeBase st + rSaeShareLo)).toNat (8 * p + 7) (8 * p)
  else bits (s.reg (saeBase st + rSaeShareHi)).toNat (8 * (p - 8) + 7) (8 * (p - 8))

/-- Rows in progress at stack st: begun and not yet complete. -/
def State.rowsBegun (s : State) (st : Nat) : Nat := (s.stk st).rows.countP AttnRow.begun

/-- Attention slots that a partition holds at a stack: one for each open stream that it homes there (R269). -/
def State.slotsHeld (s : State) (st p : Nat) : Nat := s.streams.countP fun t => t.2.st ≠ .free && t.2.part = p && t.2.home = st

/-- A row waits for a slice: not served, not failed, its partition running. The engine begins a row while fewer than 64 are in progress, and
of a partition only while it holds an attention slot there (R282). -/
def State.rowWaits (s : State) (st : Nat) (r : AttnRow) : Bool :=
  !r.served && !r.failed && !s.frozen r.part &&
    (r.begun || (decide (s.rowsBegun st < 64) && s.slotsHeld st r.part ≠ 0))

/-- Partition p has a row waiting at stack st. -/
def State.partWaits (s : State) (st p : Nat) : Bool := (s.stk st).rows.any fun r => r.part = p && s.rowWaits st r

/-- The partition that the next slice serves, with the slices of its turn left after it (R282, log entry 16). -/
def State.nextTurn (s : State) (st : Nat) : Option (Nat × Nat) :=
  let k := s.stk st
  if k.wrrLeft ≠ 0 ∧ s.partWaits st k.wrrPart then some (k.wrrPart, k.wrrLeft - 1)
  else
    let order := (List.range 16).map fun i => (k.wrrPart + 1 + i) % 16
    match order.find? fun p => s.partWaits st p && s.shareWeight st p ≠ 0 with
    | some p => some (p, s.shareWeight st p - 1)
    | none => (order.find? fun p => s.partWaits st p).map fun p => (p, 0)

/-- Read the lines of a block's K and V rows for every head (R254, R283). -/
def State.readBlock (s : State) (t : StreamSt) (g : KvGeom) (frames : List Nat) (js : List Nat) (e : Ecc) : State × Acc :=
  let z := g.rowSize
  let lines := ((List.range g.hkv).map fun kv =>
    let o := 65536 * frames.getD (kv / g.groupHeads) 0 + kv % g.groupHeads * 128 * z
    match js with
    | [] => []
    | j :: _ => linesOf (o + j * z) (js.length * z) ++ linesOf (o + 64 * z + j * z) (js.length * z)).flatten.dedup
  let r := s.readLines (some t.part) t.ctx e (lines.map (stackAddr t.home))
  ((r.1.perf (stkUnit t.home) 0x04 lines.length).charge t.part t.ctx { stackB := 64 * lines.length }, r.2)

/-- The outcome of serving blocks of a row. -/
inductive SliceRes where
  | ok (s : State) (r : AttnRow)
  | invalid (addr : Nat)
  | error (s : State) (a : Acc)
  | wait (s : State) (st : Nat)

/-- Serve up to `fuel` blocks of a row from block b to block `last` (R282, R283). -/
def State.serve (s : State) (t : StreamSt) (g : KvGeom) (e : Ecc) (last : Nat) : Nat → AttnRow → SliceRes
  | 0, r => .ok s r
  | fuel + 1, r =>
    let sp := r.span t
    let b := if r.begun then r.next else sp.2 / 64
    if last < b then .ok s { r with served := true }
    else
      let es := (List.range g.groups).map fun x => g.entry b r.layer x
      -- the lines of the page table are read and checked first (R255, R276)
      let tab := s.readLines (some t.part) t.ctx e ((es.map fun i => t.entryAddr i / 64 * 64).dedup)
      match tab.2 with
      | .ok =>
        let s := tab.1
        (match es.find? fun i => (s.pageFrame t i).isNone with
         | some i => .invalid (t.entryAddr i)
         | none =>
           let frames := es.map fun i => (s.pageFrame t i).getD 0
           let q := s.readBlock t g frames (blockRows b sp.2 sp.1) e
           match q.2 with
           | .ok =>
             let r := r.block q.1 t g b frames
             q.1.serve t g e last fuel { r with served := decide (last ≤ b) }
           | .wait st => .wait q.1 st
           | x => .error q.1 x)
      | .wait st => .wait tab.1 st
      | x => .error tab.1 x

/-- Put the rows of a stack. -/
def State.setRows (s : State) (st : Nat) (f : List AttnRow → List AttnRow) : State :=
  let k := s.stk st
  s.setStk st { k with rows := f k.rows }

/-- The channel instruction that a row belongs to. -/
def State.entOf (s : State) (core chan stamp : Nat) : Option (Nat × DmaEnt) :=
  let l := (s.core core).chan chan
  match l.findIdx? fun x => decide (x.stamp = stamp) with
  | some i => l[i]?.map fun e => (i, e)
  | none => none

/-- The attention engine serves one slice: up to 16 blocks of the first waiting row of the partition in turn (R282). -/
def execAttentionSlice (st : StackId) (err : PhysErr) (s : State) : Host.Outcome State Fault Refusal :=
  let e := s.lineEcc err
  match s.nextTurn st with
  | none => .next s
  | some (p, left) =>
    match (s.stk st).rows.find? fun r => r.part = p && s.rowWaits st r with
    | none => .next s
    | some r =>
      let drop (s : State) : State := s.setRows st fun l => l.filter fun x => !decide (x.id = r.id)
      let turn (s : State) : State := s.setStk st { s.stk st with wrrPart := p, wrrLeft := left }
      if !s.epochOk r.part r.ctx r.epoch then .next (turn ((drop s).staleDrop 1))
      else
        let t := s.stream r.stream
        match t.geom with
        | none => .next s
        | some g =>
          let sp := r.span t
          match s.serve t g e ((sp.1 - 1) / 64) 16 r with
          | .ok s' r' =>
            let s' := ((s'.setRows st fun l => l.map fun x => if x.id = r.id then r' else x).perf (stkUnit st) 0x09 1).charge
              r.part r.ctx { slices := 1 }
            .next (turn s')
          | .wait s' t => .next (s.waitsAt s' t)
          | .invalid a =>
            (match s.entOf r.core r.chan r.stamp with
             | some (i, x) => .next (turn ((drop s).attnWindow r.core r.chan i x st a))
             | none => .next (turn (drop s)))
          | .error s' a =>
            let s' := drop s'
            let s' := s'.setStk st { s'.stk st with rowFails := bump 16 (s'.stk st).rowFails }
            match s'.entOf r.core r.chan r.stamp with
            | some (i, x) => .next (turn (s'.dmaFailed r.core r.chan i x a))
            | none => .next (turn s')

/-- A served row's output is written to its destination (R281, R284); it waits while the wake buffer of a stack there is full (R266), and a
destination that refuses it fails its instruction (R217). -/
def execAttentionRowComplete (st : StackId) (row : Nat) (s : State) : Host.Outcome State Fault Refusal :=
  match (s.stk st).rows.find? fun r => r.id = row && r.served with
  | none => .next s
  | some r =>
    let s0 := s
    let s := s.setRows st fun l => l.filter fun x => !decide (x.id = row)
    if !s.epochOk r.part r.ctx r.epoch then .next (s.staleDrop 1)
    else
      let k := s.stk st
      let s := s.setStk st { k with rowsDone := (k.rowsDone + 1) % 2 ^ 64,
                                    nanHeads := satAdd 32 k.nanHeads (r.accs.countP HeadAcc.bad) }
      let s := s.perf (stkUnit st) 0x0A 1
      let out := r.output
      let w := s.devWrite r.dst out r.part r.ctx .ok
      match w.2, s.entOf r.core r.chan r.stamp with
      | .wait t, _ => .next (s0.waitsAt w.1 t)
      | .ok, some (i, _) => .next (w.1.rowCame r.core r.chan i out.length)
      | x, some (i, e) => .next (w.1.dmaFailed r.core r.chan i e x)
      | _, none => .next w.1

/-! ## Candidates (R286, R287) -/

/-- Send the lists of a CANDIDATES descriptor to the sequencer. -/
def State.sendLists (s : State) (c ch i : Nat) (e : DmaEnt) (d : BitVec 512) (a : Nat) (ecc : Ecc) : List Nat → State × Acc
  | [] => (s, .ok)
  | r :: rs =>
    let q := s.devRead (a + r * dSrcStride d) 512 e.part e.ctx ecc
    if q.2 ≠ .ok then q
    else
      let s := q.1
      let x := s.rowEntry d r
      let bs := s.devBytes (a + r * dSrcStride d) 512
      let list := (List.range 128).map fun j => BitVec.ofNat 32 (leNat ((bs.drop (4 * j)).take 4))
      let m : CandFly := { part := e.part, ctx := e.ctx, epoch := e.epoch, stream := bits x 13 0, parts := bits x 21 16 + 1,
                           list := list, core := c, chan := ch, stamp := e.stamp }
      (({ s with cands := s.cands ++ [m] }).updEnt c ch i fun x =>
        { x with outstanding := x.outstanding + 1, owed := x.owed + 1, asked := x.asked + 512 }).sendLists c ch i e d a ecc rs

/-- A channel takes a CANDIDATES descriptor (R286). The lists before a row-table entry with a reserved bit are sent; the instruction is then
illegal (R550). -/
def execCandidates (c : CoreId) (ch : ChanId) (err : PhysErr) (s : State) : Host.Outcome State Fault Refusal :=
  let ecc := s.devEcc err
  match s.taken c ch 6 with
  | none => .next s
  | some (i, e, d, src, _) =>
    let rows := List.range (dRows d)
    if dRc d then .next (s.dmaWindow c ch i e (dSrc d))
    else if !s.dmaReach e (dTable d) (4 * dRows d) then .next (s.dmaWindow c ch i e (dTable d))
    else
      match s.scratchSide e (dSrcSpace d) (dSrc d) (dSrcStride d) (dRows d) (fun _ => 512) src true with
      | .error a => .next (s.dmaWindow c ch i e a)
      | .ok a =>
        let s0 := s
        let tab := s.devRead (dTable d) (4 * dRows d) e.part e.ctx ecc
        match tab.2 with
        | .wait t => .next (s0.waitsAt tab.1 t)
        | .ok =>
          let s := tab.1
          let good := rows.takeWhile fun r => bits (s.rowEntry d r) 15 14 = 0 ∧ bits (s.rowEntry d r) 31 22 = 0
          let r := s.sendLists c ch i e d a ecc good
          (match r.2 with
           | .ok => .next (if good.length < dRows d then r.1.dmaIllegal c ch i e
                           else (r.1.updEnt c ch i fun x => { x with phase := .executed }).settleChan c ch)
           | .wait t => .next (s0.waitsAt r.1 t)
           | x => .next (r.1.dmaFailed c ch i e x))
        | x => .next (tab.1.dmaFailed c ch i e x)

/-- The i-th list on its way reaches the sequencer: merged, or a protocol error of R287. -/
def execCandidateListMerge (i : Nat) (s : State) : Host.Outcome State Fault Refusal :=
  match s.cands[i]? with
  | none => .next s
  | some m =>
    let s := { s with cands := s.cands.eraseIdx i }
    if !s.epochOk m.part m.ctx m.epoch then .next (s.staleDrop 1)
    else
      let t := s.stream m.stream
      let b := t.cand
      if !(t.inBatch && t.visitDue) ∨ t.part ≠ m.part ∨ t.ctx ≠ m.ctx ∨ (b.arrived ≠ 0 ∧ b.parts ≠ m.parts) ∨
          (b.arrived ≠ 0 ∧ b.parts ≤ b.arrived) then
        .next ((s.countFld rSeqErr 47 32 1).contain m.part m.ctx 0x28 224)
      else
        let s := s.setStream m.stream { t with
          cand := { parts := m.parts, arrived := b.arrived + 1, list := top64 (b.list ++ candPairs m.list) } }
        match s.entOf m.core m.chan m.stamp with
        | some (j, _) =>
          .next (s.rowCame m.core m.chan j 512)
        | none => .next s

end Sys2Proof.Machine
end

