-- ==== Sys2Proof/Machine/Sequencer.lean ====
section
/-! DEFINITION. The stream sequencer (R288 to R291) and hall ring mode (R299 to R301). -/

namespace Sys2Proof.Machine

/-! ## Sampling (R289) -/

/-- What sampling chose: the token, its rank and its probability. -/
structure Sampled where
  token : Nat
  rank : Nat
  prob : Lane
deriving DecidableEq, Repr

/-- Running sums c[0], c[1], …, each rounded to binary32. -/
def prefixSums : Lane → List Lane → List Lane
  | _, [] => []
  | a, w :: ws => let c := fAdd a w; c :: prefixSums c ws

/-- Position of the first element that satisfies p. -/
def firstIdx (p : Lane → Bool) (l : List Lane) : Option Nat := l.findIdx? p

/-- `a ≥ b` of two binary32 lanes that are not NaN. -/
def laneGe (a b : Lane) : Bool := (ofF32 b).numLe (ofF32 a)

/-- Sampling over the candidates that are not NaN, in ranked order; `r` is the generator's 24-bit value (R289). -/
def sampleToken (cands : List (Lane × Nat)) (invTemp topP : Lane) (topK r : Nat) : Option Sampled :=
  let v := cands.filter fun x => !(ofF32 x.1).isNan
  match v with
  | [] => none
  | top :: _ =>
    let k := min topK v.length
    let greedy := (ofF32 invTemp).isZero || !finiteLane top.1
    if greedy then some { token := top.2, rank := 0, prob := 0x3F800000#32 }
    else
      let w := (v.take k).map fun x => fExp2 (ofF32 (fMul (fSub x.1 top.1) invTemp))
      let c := match w with
        | [] => []
        | w0 :: ws => w0 :: prefixSums w0 ws
      let thr := fMul topP (c.getLastD 0)
      let keep := 1 + ((firstIdx (fun x => laneGe x thr) c).getD (k - 1))
      let sum := c.getD (keep - 1) 0
      let u : FVal := .fin false r (-24)
      let t := toF32 (u.mul (ofF32 sum))
      let i := (firstIdx (fun x => !laneGe t x) (c.take keep)).getD (keep - 1)
      some { token := (v.getD i (0, 0)).2, rank := i, prob := fDiv (ofF32 (w.getD i 0)) (ofF32 sum) }

/-! ## The output ring (R291) -/

/-- Free entries of a stream's ring by a head count. -/
def StreamSt.ringFree (t : StreamSt) (head : Nat) : Nat :=
  2 ^ t.ringLog2 - (t.tail + 2 ^ 32 - head % 2 ^ 32) % 2 ^ 32

/-- The 16 bytes of an output-ring entry. -/
def ringEntry (token pos : Nat) (prob : Lane) (rank fate : Nat) : List Byte :=
  leBytes 4 token ++ leBytes 4 pos ++ leBytes 4 prob.toNat ++ leBytes 4 (rank + fate * 256)

/-- The host address of entry number e. -/
def StreamSt.entryHost (t : StreamSt) (e : Nat) : Nat := t.ringBase + 16 * (e % 2 ^ t.ringLog2)

/-- The codes of fates (R290). -/
def Fate.code : Fate → Nat
  | .cont => 0 | .endStop => 1 | .endMax => 2 | .endLength => 3 | .cancelled => 4 | .faulted => 5 | .heldRing => 6

/-- The position of the token that this tick's visit samples: after the input token in decode, after the prompt in the tick
of the final chunk (R60, R272). -/
def StreamSt.tokenPos (t : StreamSt) : Nat := if t.st = .prefill then t.promptLen else t.len + 1

/-- The fate of a sampled token (R290). -/
def StreamSt.fateOf (t : StreamSt) (token pos free : Nat) : Fate :=
  if token ∈ t.stops then .endStop
  else if t.sampled + 1 = t.maxNew then .endMax
  else if pos = 262143 then .endLength
  else if free < 2 then .heldRing
  else .cont

/-- What a visit found, kept for step 4. -/
def State.putVisit (s : State) (i : Nat) (t : StreamSt) (v : VisitResult) : State := s.setStream i { t with visited := some v }

/-- The visits of this tick, and the longest. -/
def State.countVisit (s : State) (ns : Nat) : State :=
  { s with tick := { s.tick with visits := s.tick.visits + 1, visitsEver := s.tick.visitsEver + 1, visitMax := max s.tick.visitMax ns } }

/-- The sample that a visit draws at a position, under the call number of sampling (R118, R289). -/
def StreamSt.sampleAt (t : StreamSt) (pos : Nat) : Option Sampled :=
  sampleToken t.cand.list t.invTemp t.topP t.topK (stochastic t.seed 0xFFFFF000 pos)

/-- The visit of stream i, `t` with its cached head: sampling, the fate, and the ring entry (R287 to R291). -/
def State.visit (s : State) (i : Nat) (t : StreamSt) : State :=
  let pos := t.tokenPos
  match t.sampleAt pos with
  | none =>
    (s.putVisit i t { token := 0xFFFFFFFF, pos := pos, prob := 0, rank := 0, fate := Fate.faulted, wrote := false }).countFld
      rSeqErr 31 0 1
  | some x =>
    let fate := t.fateOf x.token pos (t.ringFree t.head)
    let wrote : Bool := fate ≠ .heldRing
    let s := s.putVisit i t { token := x.token, pos := pos, prob := x.prob, rank := x.rank, fate := fate, wrote := wrote }
    if wrote then s.hostPut (t.entryHost t.tail) (ringEntry x.token pos x.prob x.rank fate.code) t.part t.ctx else s

/-- A stream is due a visit: every list has arrived, and its partition and context run. -/
def State.mayVisit (s : State) (i : Nat) : Bool :=
  let t := s.stream i
  decide (t.cand.arrived ≠ 0 ∧ t.cand.arrived = t.cand.parts) && t.visitDue && t.visited.isNone && !s.frozen t.part &&
    s.ctxIssues t.part t.ctx

/-- The stream with the head word read, which a visit does when its cached free count is below 2 (R291). -/
def StreamSt.readHead (t : StreamSt) (head : Nat) : StreamSt := if t.ringFree t.head < 2 then { t with head := head } else t

/-- A visit: once every list has arrived, a token is sampled, its ring entry written unpublished and the fate decided (R287
to R291). `head` is the head word as a read of it answers, `ns` the visit's length. -/
def execVisit (i : StreamId) (head : BitVec 32) (ns : BitVec 16) (s : State) : Host.Outcome State Fault Refusal :=
  let t := s.stream i
  let t := if s.locked t.part then t else t.readHead head.toNat
  if s.mayVisit i then .next ((s.countVisit ns.toNat).visit i t) else .next s

/-- A ring check: the head word of a stream WAITING for ring space is read once in a tick (R290). -/
def execRingCheck (i : StreamId) (head : BitVec 32) (s : State) : Host.Outcome State Fault Refusal :=
  let t := s.stream i
  if t.st = .waiting ∧ t.heldRing ∧ s.tick.isOpen ∧ !s.locked t.part then
    .next (s.setStream i { t with head := head.toNat, ringOk := decide (2 ≤ t.ringFree head.toNat) })
  else .next s

/-! ## Hall ring mode (R299 to R301) -/

/-- The partition has a gallery in every hall (R299): 24 galleries, six a hall. -/
def State.allHalls (s : State) (p : Nat) : Bool :=
  (List.range 4).all fun h => bits (s.reg (pfBase p + rPrtGalleries)).toNat (6 * h + 5) (6 * h) ≠ 0

/-- A debug or test unlock of at least a scope is in force (R463). -/
def State.unlocked (s : State) (scope : Nat) : Bool :=
  match s.sec.unlock with
  | some u => decide (scope ≤ u.scope)
  | none => false

/-- The four shards of n positions, (first, count) by hall: contiguous, the first three multiples of 64 (R300; log entry 101). -/
def ringShards (n : Nat) : List (Nat × Nat) :=
  let q := n / 256 * 64
  [(0, q), (q, q), (2 * q, q), (3 * q, n - 3 * q)]

/-- The shards whose blocks hall h receives, in the order they arrive: each hall sends to hall (h + 3) mod 4 and forwards, until each block
has made three hops (R300). -/
def ringHears (h : Nat) : List Nat := [(h + 1) % 4, (h + 2) % 4, (h + 3) % 4]

/-- The shards that hall h applies, in order: those below h as they arrive, then its own (R300). -/
def ringApplies (h : Nat) : List Nat := (ringHears h).filter (fun j => decide (j < h)) ++ [h]

/-- The tokens that position p of shard h attends to, in the order in which hall h applies the shards. -/
def ringTokens (shards : List (Nat × Nat)) (tokens : List Nat) (h p : Nat) : List Nat :=
  (ringApplies h).flatMap fun j =>
    let x := shards.getD j (0, 0)
    (tokens.drop x.1).take (min x.2 (p + 1 - x.1))

/-- The bytes that the ring writes into the page of block b, layer l and group x, as (offset, byte): the K and V rows of the positions from `lo`
up to `hi` (R275, R300). -/
def ringRows (g : KvGeom) (dig : BitVec 512) (gen : Nat) (tokens : Nat → List Nat) (b l x lo hi : Nat) : List (Nat × List Byte) :=
  ((List.range 64).filter fun j => decide (lo ≤ 64 * b + j ∧ 64 * b + j < hi)).flatMap fun j =>
    (List.range (min g.groupHeads (g.hkv - x * g.groupHeads))).flatMap fun t =>
      let row (v : Bool) : List Byte := (List.range g.rowSize).map (Config.kvByte dig gen (tokens (64 * b + j)) l (x * g.groupHeads + t) v)
      [(t * 128 * g.rowSize + j * g.rowSize, row false), (t * 128 * g.rowSize + (64 + j) * g.rowSize, row true)]

/-- The hall whose shard holds position p. -/
def ringHall (shards : List (Nat × Nat)) (p : Nat) : Nat := ((shards.findIdx? fun x => decide (x.1 ≤ p ∧ p < x.1 + x.2)).getD 3)

/-- The runtime firmware starts hall ring mode (R299 to R301): a partition with galleries in all four halls, for a purpose that allows it.
The mode runs in the tick after its pages have been given, and what it rebuilt stands at the close of that tick (log entry 101). -/
def execHallRingStart (p : PartId) (purpose : RingPurpose) (stream : StreamId) (positions : Nat) (s : State) :
    Host.Outcome State Fault Refusal :=
  let allowed : Bool := match purpose with
    | .rebuild => (s.stream stream).part = p.val && (s.stream stream).st ≠ .free && decide (positions ≤ 262144)
    | .selfTest => decide (positions ≤ 262144)
    | .testUnlock => s.unlocked 3 && decide (positions ≤ 1048576)
  if s.allHalls p && allowed && s.hallRing.isNone then
    let h := if purpose = .selfTest then 0 else (s.stream stream).ctx
    .next { s with hallRing := some { part := p, ctx := h, epoch := s.epochOf p h, purpose, stream, positions } }
  else .next s

end Sys2Proof.Machine
end

