-- ==== Sys2Proof/Machine/Queues.lean ====
section
/-! DEFINITION. What the front end works with: submission descriptors (R313), handles and buffers (R315 to R317), fences
(R323), queues and their rings (R308, R484), completion records (R331, R332), and MSI-X messages (R472). -/

namespace Sys2Proof.Machine

/-! ## The submission descriptor (R313) -/

/-- OPCODE. -/
def sOp (d : BitVec 512) : Nat := dfld d 0 7 0
/-- WAIT. -/
def sWait (d : BitVec 512) : Bool := dfld d 0 8 8 = 1
/-- SIGNAL. -/
def sSignal (d : BitVec 512) : Bool := dfld d 0 9 9 = 1
/-- INTERRUPT. -/
def sInterrupt (d : BitVec 512) : Bool := dfld d 0 10 10 = 1
/-- CONTEXT. -/
def sCtx (d : BitVec 512) : Nat := dfld d 0 31 16
/-- HANDLE_A. -/
def sA (d : BitVec 512) : Nat := dfld d 4 31 0
/-- USER_TAG. -/
def sTag (d : BitVec 512) : Word := BitVec.ofNat 64 (dfld d 8 63 0)
/-- HANDLE_B. -/
def sB (d : BitVec 512) : Nat := dfld d 0x10 31 0
/-- LEN_B. -/
def sLenB (d : BitVec 512) : Nat := dfld d 0x14 31 0
/-- HANDLE_C. -/
def sC (d : BitVec 512) : Nat := dfld d 0x18 31 0
/-- COUNT_C. -/
def sCountC (d : BitVec 512) : Nat := dfld d 0x1C 31 0
/-- Bytes 0x18 to 0x1F, as the length of a MAP_HOST and the destination offset of a COPY. -/
def sWide (d : BitVec 512) : Nat := dfld d 0x18 63 0
/-- WAIT_FENCE. -/
def sWaitFence (d : BitVec 512) : Nat := dfld d 0x20 31 0
/-- SIGNAL_FENCE. -/
def sSigFence (d : BitVec 512) : Nat := dfld d 0x24 31 0
/-- WAIT_VALUE. -/
def sWaitValue (d : BitVec 512) : Nat := dfld d 0x28 63 0
/-- SIGNAL_VALUE. -/
def sSigValue (d : BitVec 512) : Word := BitVec.ofNat 64 (dfld d 0x30 63 0)
/-- ARG. -/
def sArg (d : BitVec 512) : Nat := dfld d 0x38 63 0

/-! ## Handles and buffers (R315, R316, R317) -/

/-- The type code of an object (R315). -/
def HObj.code : HObj → Nat
  | .host _ _ => 1
  | .device _ _ => 2
  | .graph => 3
  | .fence => 4

/-- The handle-table entry of an index. -/
def PartSt.entry (k : PartSt) (i : Nat) : HandleEnt := SMap.get {} k.handles i

/-- What a handle names in a partition's own table: nothing if it is null or stale. -/
def State.lookup (s : State) (p h : Nat) : Option HObj :=
  let e := (s.part p).entry (h % 65536)
  if h % 65536 ≠ 0 ∧ e.gen = h / 65536 then e.obj else none

/-- The handle names an object of a type. -/
def State.isType (s : State) (p h code : Nat) : Bool :=
  match s.lookup p h with
  | some o => o.code = code
  | none => false

/-- The lowest free index from `n` upward of a table in rising order of its keys. -/
def lowestFree : SMap HandleEnt → Nat → Nat
  | [], n => n
  | (k, e) :: t, n => if n < k then n else if k = n ∧ e.obj.isSome then lowestFree t (n + 1)
                      else if k = n then n else lowestFree t n

/-- A new handle for an object: the lowest free index with the generation that its entry holds; none if no index is free, which R315 gives no
status for: the descriptor then completes with REJECT_CAPACITY (DESIGN CHOICE, log entry 155). -/
def State.newHandle (s : State) (p : Nat) (o : HObj) : Option (Nat × State) :=
  let k := s.part p
  let i := lowestFree k.handles 1
  if 65535 < i then none
  else
    let e := k.entry i
    some (i + 65536 * e.gen, s.setPart p { k with handles := SMap.set {} k.handles i { e with obj := some o } })

/-- Free a handle: its entry's generation rises by 1, and after 65,535 returns to 1; what it named awaits its last use. -/
def State.freeHandle (s : State) (p h : Nat) : State :=
  let k := s.part p
  let e := k.entry (h % 65536)
  match s.lookup p h with
  | none => s
  | some o =>
    s.setPart p { k with handles := SMap.set {} k.handles (h % 65536) { gen := if e.gen = 65535 then 1 else e.gen + 1 },
                         freed := k.freed ++ [(h, o)] }

/-- Length of a buffer; 0 for another object. -/
def HObj.len : HObj → Nat
  | .host _ n => n
  | .device _ n => n
  | _ => 0

/-- A buffer, of host or device memory. -/
def HObj.isBuf : HObj → Bool
  | .host _ _ => true
  | .device _ _ => true
  | _ => false

/-- The address of a byte of a buffer. -/
def HObj.addr (o : HObj) (off : Nat) : Nat :=
  match o with
  | .host a _ => a + off
  | .device fs _ =>
    let f := fs.getD (off / 65536) (0, 0)
    frameAddr f.1 f.2 + off % 65536
  | _ => 0

/-- The device addresses of the lines that a range of a buffer touches; a host buffer has none. -/
def HObj.lines (o : HObj) (off n : Nat) : List Nat :=
  match o with
  | .host _ _ => []
  | _ => if n = 0 then [] else (List.range ((off % 64 + n + 63) / 64)).map fun i => o.addr (off / 64 * 64 + 64 * i) / 64 * 64

/-- Read the lines of a range of a buffer, in turn up to the first that fails (R254, R255). -/
def State.bufRead (s : State) (p h : Nat) (o : HObj) (off n : Nat) (e : Ecc) : State × Acc :=
  s.readLines (some p) h e (o.lines off n)

/-- `n` bytes of a buffer from an offset lie inside the partition's windows now (R317). -/
def State.bufInside (s : State) (p : Nat) (o : HObj) (off n : Nat) : Bool :=
  if n = 0 then true
  else
    match o with
    | .host a _ => s.hostWindow p (a + off) n
    | .device fs _ =>
      (List.range ((off + n - 1) / 65536 - off / 65536 + 1)).all fun i =>
        match fs[off / 65536 + i]? with
        | some f => s.stackWindow p f.1 (65536 * f.2) 65536
        | none => false
    | _ => false

/-- `n` bytes of a device buffer from an offset. -/
def State.bufBytes (s : State) (o : HObj) (off n : Nat) : List Byte :=
  (List.range n).map fun i => Memory.read s.mem (o.addr (off + i))

/-! ## Queues (R308, R309, R484) -/

/-- The partition of a queue; none for the control queue. -/
def queuePart (q : Nat) : Option Nat := if q < 1024 then some (q / 64) else none

/-- Descriptors of a queue's submission ring. -/
def State.sqSize (s : State) (q : Nat) : Nat := 2 ^ s.fld (queueBase q + rQCtrl) 8 4

/-- Records of a queue's completion ring. -/
def State.cqSize (s : State) (q : Nat) : Nat := 2 ^ s.fld (queueBase q + rQCtrl) 16 12

/-- Records that a descriptor yields (R311). -/
def recordsOf (d : BitVec 512) : Nat := if sOp d = 0x0A then 2 else 1

/-- Free entries of a completion ring by a head count. -/
def State.cqFree (s : State) (q head : Nat) : Nat :=
  2 ^ (s.queue q).cqLog - ((s.queue q).cqTail + 2 ^ 32 - head % 2 ^ 32) % 2 ^ 32

/-! ## MSI-X (R472) -/

/-- The reset value of a word of the MSI-X table: every entry masked (PRESUMED from PCI Express; log entry 17). -/
def msixReset (i : Nat) : Word := if i % 2 = 1 then 0x100000000#64 else 0

/-- The entry of a vector of a function: 0 the physical function, p + 1 virtual function p. -/
def msixEntry (fn v : Nat) : Nat := if fn = 0 then v else 64 + 124 * (fn - 1) + v

/-- Send a function's MSI-X message: a masked entry keeps it pending. A vector beyond the function's entries sends nothing. -/
def State.sendMsi (s : State) (fn v : Nat) : State :=
  let e := msixEntry fn v
  if (if fn = 0 then 64 else 124) ≤ v then s
  else if bit (SMap.get (msixReset (2 * e + 1)) s.msix (2 * e + 1)).toNat 32 then
    { s with msiPend := SMap.set 0 s.msiPend e 1 }
  else { s with msiSent := SMap.upd 0 s.msiSent e (· + 1) }

/-! ## Publications (R55) -/

/-- Put a host write of step 7 into the outbox of a function, charged to its partition (R358). -/
def State.pubWrite (s : State) (fn a : Nat) (data : List Byte) : State :=
  let s := if fn = 0 then s else s.chargePart (fn - 1) { pcieB := data.length }
  { s with outbox := s.outbox ++ [(fn, .write a data)] }

/-- Put an MSI-X message of step 7 into the outbox of a function. -/
def State.pubMsi (s : State) (fn v : Nat) : State := { s with outbox := s.outbox ++ [(fn, .msi fn v)] }

/-- Carry out one publication. -/
def State.doPub (s : State) : HostPub → State
  | .write a data => s.setHost (Memory.writeN s.host a data)
  | .msi fn v => s.sendMsi fn v

/-- Write bytes to host memory for a partition alone: a record outside step 7 (R358). -/
def State.hostPart (s : State) (p a : Nat) (data : List Byte) : State :=
  (s.hostFor p a data).chargePart p { pcieB := data.length }

/-! ## Completions (R323, R331, R332) -/

/-- The completion of a descriptor. -/
def complOf (q : Nat) (ds : DescSt) (status result detail : Nat) : ComplSt :=
  { queue := q, seq := ds.seq, tag := sTag ds.d, opcode := sOp ds.d, status := status, result := result, detail := detail,
    ctx := sCtx ds.d, interrupt := sInterrupt ds.d, clear := decide (sOp ds.d = 0 ∧ status = 0) && bit (sArg ds.d) 0,
    signal := if sSignal ds.d then some (sSigFence ds.d, sSigValue ds.d)
              else if sOp ds.d = 0 ∧ status = 0 ∧ bit (sArg ds.d) 0 then some (sSigFence ds.d, 0) else none }

/-- Queue a completion for step 7; a refusal is counted, and a stream that did not open needs no end record. -/
def State.pushCompl (s : State) (c : ComplSt) : State :=
  let s := if 1 ≤ c.status ∧ c.status ≤ 0x0A then s.countFld rFeRefused 31 0 1 else s
  let s := if c.opcode = 0x0A ∧ c.status ≠ 0 ∧ c.status ≠ 0x12 then
      s.setQueue c.queue { s.queue c.queue with outstanding := (s.queue c.queue).outstanding - 1 } else s
  { s with compl := s.compl ++ [c] }

/-- Complete a descriptor at the next step 7. -/
def State.complete (s : State) (q : Nat) (ds : DescSt) (status : Nat) (result : Nat := 0) (detail : Nat := 0) : State :=
  s.pushCompl (complOf q ds status result detail)

/-- The 32 bytes of a completion record (R332). -/
def complRecord (tick : Word) (sqHead : Nat) (c : ComplSt) (phase : Nat) : List Byte :=
  leBytes 8 c.tag.toNat ++ leBytes 8 tick.toNat ++ leBytes 4 sqHead ++ leBytes 4 c.result ++ leBytes 1 c.status ++
    leBytes 1 0 ++ leBytes 1 c.opcode ++ leBytes 1 (phase + 2 * (if c.queue < 1024 then c.queue % 64 else 0)) ++
    leBytes 4 c.detail

/-- PHASE of entry e of a ring of n records: 1 on the first pass, inverted on each wrap. -/
def phaseOf (e n : Nat) : Nat := (e / n + 1) % 2

/-- Insert by a key in rising order, after equal keys. -/
def insertBy {α : Type} (key : α → Nat × Nat) (x : α) : List α → List α
  | [] => [x]
  | y :: t => if (key x).1 < (key y).1 ∨ ((key x).1 = (key y).1 ∧ (key x).2 < (key y).2) then x :: y :: t
              else y :: insertBy key x t

/-- Sort by a key, keeping the order of equal keys. -/
def sortBy {α : Type} (key : α → Nat × Nat) (l : List α) : List α := l.foldl (fun acc x => insertBy key x acc) []

/-- Write one completion record into its queue's ring (R308, R332). -/
def State.writeCompl (s : State) (c : ComplSt) : State :=
  let k := s.queue c.queue
  let n := 2 ^ k.cqLog
  let fn := match queuePart c.queue with
    | some p => p + 1
    | none => 0
  let s := s.pubWrite fn (k.cq + 32 * (k.cqTail % n)) (complRecord s.tickNo (k.admitted % 2 ^ 32) c (phaseOf k.cqTail n))
  s.setQueue c.queue { k with cqTail := k.cqTail + 1, outstanding := k.outstanding - 1 }

/-- Apply a completion's signal to its fence (R323): the value never falls, and a status other than OK sets FAULT. -/
def State.signalFence (s : State) (c : ComplSt) : State :=
  match queuePart c.queue, c.signal with
  | some p, some (h, v) =>
    (match SMap.get none (s.part p).fences h with
     | some f =>
       let g : FenceSt := if c.clear then { f with fault := false } else f
       let g : FenceSt := { g with value := if g.value.toNat < v.toNat then v else g.value,
                                   fault := g.fault || decide (c.status ≠ 0) }
       s.setPart p { s.part p with fences := SMap.set none (s.part p).fences h (some g) }
     | none => s)
  | _, _ => s

/-- The 16 bytes of a fence's mirror (R323). -/
def fenceMirror (f : FenceSt) : List Byte := leBytes 8 f.value.toNat ++ leBytes 8 (if f.fault then 1 else 0)

/-- Write the mirrors of a partition's fences that this step 7 created or changed (R323). -/
def State.writeMirrors (s : State) (p : Nat) : State :=
  (s.part p).fences.foldl (fun s e =>
    match e.2 with
    | some f =>
      if f.shown = some (f.value, f.fault) then s
      else
        let s := s.pubWrite (p + 1) f.mirror (fenceMirror f)
        let g : FenceSt := { f with shown := some (f.value, f.fault) }
        s.setPart p { s.part p with fences := SMap.set none (s.part p).fences e.1 (some g) }
    | none => s) s

end Sys2Proof.Machine
end

