-- ==== Sys2Proof/Machine/Flights.lean ====
section
/-! DEFINITION. Flights on cores: entry, the wait-for-tick point, the end (R157, R158, R160, R176, R177), how a flight is
ended by a stop or a teardown, and what holds a tick open (R51). -/

namespace Sys2Proof.Machine

/-- A tick is open and admits work: not between a close and step 8, and not held (R71). -/
def State.working (s : State) : Bool := s.tick.isOpen && !s.tick.held

/-- A partition is a shadow that has not been promoted (R414): it holds its partner's state and runs nothing. -/
def State.isShadow (s : State) (p : Nat) : Bool :=
  s.fld (pfBase p + rMirMap) 1 1 = 1 && (s.mirp p).shadow ≠ 3 && (s.fld rMirCtrl 2 1 ≠ 1 || s.fld rMirCtrl 3 3 = 0)

/-- A partition runs work: ACTIVE, or stopping softly until its cut (R71); its seals have been acknowledged and its publications are not withheld
(R420), and it is no shadow. -/
def State.runs (s : State) (p : Nat) : Bool :=
  ((s.part p).st = .active || (s.part p).st = .softStopping) && (s.mirp p).stalledPub.isEmpty && (s.mirp p).seals.isEmpty && !s.isShadow p

/-- Work of a context is held for a replay on a unit: another suspect's replay tick of that unit, or its own turn has not come
(R380). -/
def State.heldForReplay (s : State) (unit p h : Nat) : Bool :=
  (match s.rcv.replaying with
   | some r => r.unit = unit && !(r.part = p && r.ctx = h)
   | none => false) ||
  s.rcv.suspects.any fun r => r.part = p && r.ctx = h

/-- A context is being torn down, or does not exist. -/
def State.tearing (s : State) (p h : Nat) : Bool :=
  match s.ctx p h with
  | some x => x.tear ≠ .none
  | none => true

/-- Flight f may begin on core c now: its partition holds the core's gallery, which reads zero since it was last cleared (R157, R321, R334,
R376, R380). -/
def State.mayEnter (s : State) (c : Nat) (f : FlightSt) : Bool :=
  s.working && s.runs f.part && s.coreOf f.part c && !decide (c / 8 ∈ s.rcv.unclean) && !s.frozen f.part && !s.tearing f.part f.ctx && decide (f.fromTick ≤ s.tickNo.toNat) &&
    f.endStatus.isNone && !f.heldReload && s.epochOk f.part f.ctx f.epoch && !(s.core c).inReset &&
    !s.heldForReplay c f.part f.ctx && !(s.rcv.clearing.any fun g => g.1 = c / 8) && !decide (c ∈ s.rcv.resetting)

/-- Entry of flight number n into its core (R157, R158): X1 to X31, the loop stack and the vector registers are cleared, the
salt is read; count registers are cleared only when the core is bound to another context (R166). The position of the last instruction issued is 0
until it issues one: R154 and R75 do not say what an in-flight report gives before that (DESIGN CHOICE, log entry 164). -/
def CoreSt.enter (k : CoreSt) (n : Nat) (f : FlightSt) (slot : Nat) : CoreSt :=
  let r := f.slots.getD slot noRegion
  let fresh := k.bound ≠ some (f.part, f.ctx)
  { k with phase := .running, flight := n, part := f.part, ctx := f.ctx, epoch := f.epoch, bound := some (f.part, f.ctx),
           waiting := k.waiting.erase n, pc := r.entry, lastPc := r.entry, slot := slot, slotTab := f.slots,
           salt := (f.params.getD 0 0).toNat % 4096, x := [], v := [], loops := [], waitKind := 0,
           cnt := if fresh then [] else k.cnt, stat := if fresh then none else k.stat }

/-- The first flight waiting for a core that still exists. -/
def State.nextFlight (s : State) (c : Nat) : Option (Nat × FlightSt) :=
  match (s.core c).waiting with
  | n :: _ => (s.flight n).map fun f => (n, f)
  | [] => none

/-- A flight enters core c: the first in launch order, when the core's previous flight has ended (R157). -/
def execFlightEntry (c : CoreId) (s : State) : Host.Outcome State Fault Refusal :=
  let k := s.core c
  match k.phase, s.nextFlight c with
  | .idle, some (n, f) =>
    if s.mayEnter c f then
      match f.slots.findIdx? fun r => decide (r.core = c.val) with
      | some i => .next (((s.setCore c (k.enter n f i)).setFlight n (some { f with begun := true })).works c f.part f.ctx)
      | none => .next s
    else .next s
  | _, _ => .next s

/-- The core's position in the image of another region: the same instruction (R160). -/
def CoreSt.translate (k : CoreSt) (a b : Region) : CoreSt :=
  { k with pc := k.pc + b.base - a.base, lastPc := k.lastPc + b.base - a.base,
           loops := k.loops.map fun l => { l with first := l.first + b.base - a.base, last := l.last + b.base - a.base } }

/-- A core goes on with what another ran: the flight, its registers, its tiles and its trackers (R160). The count registers are the core's own:
they are cleared if it is bound to the flight's context here (R166). -/
def CoreSt.takeOver (t k : CoreSt) : CoreSt :=
  { t with phase := k.phase, flight := k.flight, part := k.part, ctx := k.ctx, epoch := k.epoch, bound := k.bound, pc := k.pc,
           lastPc := k.lastPc, slot := k.slot, slotTab := k.slotTab, salt := k.salt, resumeTick := k.resumeTick, x := k.x, v := k.v,
           cnt := if t.bound = k.bound then t.cnt else [], loops := k.loops, halves := k.halves, stat := k.stat, track := k.track,
           waitKind := k.waitKind }

/-- A core that a flight has left. -/
def CoreSt.left (k : CoreSt) : CoreSt := { k with phase := .idle, x := [], v := [], loops := [], halves := [], track := [], waitKind := 0 }

/-- The slot table that a core at its wait-for-tick point sees when it resumes: its flight's as it stands now, and in deterministic mode the one
that it entered with (R160). -/
def State.tabOf (s : State) (k : CoreSt) : List Region :=
  match s.flight k.flight with
  | some f => if s.det then k.slotTab else f.slots
  | none => k.slotTab

/-- The region of the slot that core c runs, in the table that it resumes with. -/
def State.newRegion (s : State) (c : Nat) : Region := (s.tabOf (s.core c)).getD (s.core c).slot (s.core c).region

/-- The cores whose flights leave together where core `start`'s slot has moved: its own, then, while the next one's new core is another that
stands at its wait-for-tick point and leaves it too, that one; up to a core that is idle or the first. None while one has work queued or
a new core is in use. -/
def State.moveChain (s : State) (start : Nat) : Nat → List Nat → Nat → Option (List Nat)
  | 0, _, _ => none
  | n + 1, done, c =>
    let k := s.core c
    let d := (s.newRegion c).core
    if k.ctrlq ≠ [] ∨ k.ents ≠ [] then none
    else if (s.core d).phase = .idle ∨ d = start then some (done ++ [c])
    else if d ∈ done ∨ (s.core d).phase ≠ .atWtick ∨ (s.newRegion d).core = d then none
    else s.moveChain start n (done ++ [c]) d

/-- What core c runs goes on in its slot's new region, with what the old one held there: `t` is the core that it comes to. -/
def State.carried (s : State) (c : Nat) (phase : CorePhase) (t : CoreSt) : CoreSt :=
  let k := s.core c
  let a := k.region
  let b := s.newRegion c
  (t.takeOver { k.translate a b with phase := phase, slotTab := s.tabOf k }).scrWrite b.off (k.scrRead a.off (min a.len b.len))

/-- Apply a function to cores of a list. -/
def State.onCores (s : State) (f : CoreSt → CoreSt) : List Nat → State
  | [] => s
  | c :: cs => (s.setCore c (f (s.core c))).onCores f cs

/-- Core c resumes from WTICK with the slot table as it stands now (R160). Where placement has moved its slot, the flight goes on in the new
region, with what the old one held, on the core that the slot names now. Flights that stand at their wait-for-tick points there and move on
are carried along, and resume there in their turn. That a flight carries its core's state with it is the model's reading (log
entry 76). -/
def State.resumeOn (s : State) (c : Nat) : State :=
  let k := s.core c
  let a := k.region
  let b := s.newRegion c
  let k' := { k.translate a b with phase := .running, slotTab := s.tabOf k }
  if b.core = c then s.setCore c (if b.off = a.off then k' else k'.scrWrite b.off (k.scrRead a.off (min a.len b.len)))
  else match s.moveChain c 192 [] c with
    | none => s
    | some l =>
      l.foldl (fun x d => x.setCore (s.newRegion d).core
        (s.carried d (if d = c then .running else .atWtick) (x.core (s.newRegion d).core))) (s.onCores CoreSt.left l)

/-- A core at its wait-for-tick point resumes after the open of a tick that admits work, with the slot table and the region
as placement has them now (R160, R176). -/
def execWtickResume (c : CoreId) (s : State) : Host.Outcome State Fault Refusal :=
  let k := s.core c
  if k.phase = .atWtick ∧ s.working ∧ k.resumeTick ≤ s.tickNo.toNat ∧ s.runs k.part ∧ !s.frozen k.part ∧
      s.ctxIssues k.part k.ctx ∧ s.epochOk k.part k.ctx k.epoch ∧ !k.inReset ∧ !s.heldForReplay c k.part k.ctx then
    .next ((s.resumeOn c).works c k.part k.ctx)
  else .next s

/-- The cores of a flight's staircase. -/
def FlightSt.cores (f : FlightSt) : List Nat := (f.slots.map Region.core).eraseDups

/-- A flight ends on core c once its queues are empty and every instruction is confirmed; the flight has ended when it has on
every core of its staircase (R177): each is noted as the slot table names it now. -/
def execFlightEnd (c : CoreId) (s : State) : Host.Outcome State Fault Refusal :=
  let k := s.core c
  if k.phase = .ended ∧ k.ctrlq = [] ∧ k.ents = [] ∧ s.ctxIssues k.part k.ctx ∧ s.epochOk k.part k.ctx k.epoch then
    let s := s.setCore c { k with phase := .idle }
    match s.flight k.flight with
    | some f =>
      let f := { f with ended := f.ended ++ [(f.slots.getD k.slot k.region).core] }
      .next (s.setFlight k.flight (some (if f.cores.all fun x => decide (x ∈ f.ended) then { f with endStatus := some 0 } else f)))
    | none => .next s
  else .next s

/-- A core drops a flight: nothing of it is queued, in a channel, or waiting to begin there. -/
def CoreSt.drop (k : CoreSt) (n : Nat) : CoreSt :=
  let k := { k with waiting := k.waiting.filter fun x => !decide (x = n),
                    chans := (k.chans.map fun e => (e.1, e.2.filter fun x => !decide (x.flight = n))).filter fun e => e.2 ≠ [] }
  if k.flight = n ∧ k.phase ≠ .idle then { k with phase := .idle, ctrlq := [], loops := [], waitKind := 0 } else k

/-- End a flight with a status; one that has ended keeps the status that it has. Its completion follows at the next boundary. -/
def State.endFlight (s : State) (n status : Nat) : State :=
  match s.flight n with
  | some f =>
    if f.endStatus.isSome then s
    else (s.setFlight n (some { f with endStatus := some status })).onCores (fun k => k.drop n) f.cores
  | none => s

/-- The flights that satisfy a test, in launch order. -/
def State.flightsOf (s : State) (t : FlightSt → Bool) : List Nat :=
  s.flights.filterMap fun e =>
    match e.2 with
    | some f => if t f then some e.1 else none
    | none => none

/-- End every flight that satisfies a test. -/
def State.endFlights (s : State) (status : Nat) (t : FlightSt → Bool) : State :=
  (s.flightsOf t).foldl (fun s n => s.endFlight n status) s

/-! ## What holds a tick open (R51) -/

/-- Core c holds the tick open for the context of its flight, or of the one that could begin there. -/
def State.coreHolds (s : State) (c : Nat) : Option (Nat × Nat) :=
  let k := s.core c
  match k.phase with
  | .idle =>
    (match s.nextFlight c with
     | some (_, f) => if s.mayEnter c f then some (f.part, f.ctx) else none
     | none => none)
  | .atWtick =>
    if k.resumeTick ≤ s.tickNo.toNat ∧ !s.heldForReplay c k.part k.ctx then some (k.part, k.ctx)
    else if k.ctrlq ≠ [] then some (k.part, k.ctx) else none
  | _ => some (k.part, k.ctx)

/-- Every context that something outstanding belongs to. -/
def State.busyCtxs (s : State) : List (Nat × Nat) :=
  (List.range 192).filterMap (fun c => s.coreHolds c) ++
  (s.cores.map fun e => (e.2.ents.map fun x => (x.part, x.ctx))).flatten ++
  (s.stks.map fun e => (e.2.rows.map fun r => (r.part, r.ctx))).flatten ++
  ((s.sends.filter fun m => s.epochOk m.part m.ctx m.ctxEpoch).map fun m => (m.part, m.ctx)) ++ (s.cands.map fun m => (m.part, m.ctx)) ++
  (s.mir.parts.flatMap fun e => e.2.unacked.map fun h => (e.1, h)) ++
  (s.streams.filterMap fun e => if e.2.visitDue && e.2.visited.isNone then some (e.2.part, e.2.ctx) else none)

/-- A context may hold a tick open: it exists, is not fenced (R367), and its partition is not stopped. -/
def State.canHold (s : State) (x : Nat × Nat) : Bool :=
  s.runs x.1 && !s.frozen x.1 &&
  match s.ctx x.1 x.2 with
  | some k => k.tear = .none || k.tear = .faulted
  | none => false

/-- The contexts that hold the tick open, ascending (R51). -/
def State.holders (s : State) : List (Nat × Nat) := sortBy id ((s.busyCtxs.eraseDups).filter fun x => s.canHold x)

end Sys2Proof.Machine
end

