-- ==== Sys2Proof/Machine/Stops.lean ====
section
/-! DEFINITION. Soft and hard stops and their resumes as requests (R70 to R76), and the in-flight report (R75, R218, R551). What
a boundary does with a request is in Boundary.lean. -/

namespace Sys2Proof.Machine

/-- Source codes of the in-flight report (R75). -/
def stopCode : StopSource → Nat
  | .descriptor => 0 | .firmware => 1 | .jormir => 2 | .registerWrite => 3

/-- The status codes of R333. -/
def statusCodes : List Nat :=
  (List.range 11) ++ [0x10, 0x11, 0x12] ++ (List.range 12).map (· + 0x20)

/-- Free value: which of the outcomes of work that ran (R333) a stop gives whose status the spec does not name (log entry 18). -/
def State.freeStatus (s : State) : Nat × State :=
  (0x20 + (Config.unstated s.freeCtr).toNat % 12, { s with freeCtr := s.freeCtr + 1 })

/-- Put a partition's state. -/
def State.setPartState (s : State) (p : Nat) (x : PState) : State := s.setPart p { s.part p with st := x }

/-- A request waits for its boundary. -/
def State.pushReq (s : State) (r : StopReq) : State := { s with tick := { s.tick with reqs := s.tick.reqs ++ [r] } }

/-- The partitions that satisfy a test. -/
def State.partsWith (s : State) (t : PartSt → Bool) : List Nat := (List.range 16).filter fun p => t (s.part p)

/-- Apply a function of the state for each number of a list. -/
def State.each (s : State) (f : State → Nat → State) : List Nat → State
  | [] => s
  | n :: ns => (f s n).each f ns

/-- A soft stop of the module (R71): it and every ACTIVE partition are stopping from now to the cut. -/
def State.softStopModule (s : State) (src : StopSource) (c : Option ComplSt) : State :=
  let ps := s.partsWith fun k => k.st = .active
  let s := (s.each (fun s p => s.setPartState p .softStopping) ps).setGenState 2
  { s with tick := { s.tick with modStopped := s.tick.modStopped ++ ps } }.pushReq { src := src, scope := .module, compl := c }

/-- A soft stop of a partition (R71). -/
def State.softStopPart (s : State) (p : PartId) (src : StopSource) (c : Option ComplSt) : State :=
  (s.setPartState p .softStopping).pushReq { src := src, scope := .part p, compl := c }

/-! ## What is in flight at a halt (R75, R218, R551) -/

/-- The 32 bytes of an entry of the in-flight report. -/
def ReportEnt.bytes (e : ReportEnt) : List Byte :=
  leBytes 2 e.ctx ++ leBytes 1 e.kind ++ leBytes 1 e.state ++ leBytes 2 e.unit ++ leBytes 2 e.chan ++ leBytes 8 e.addr ++
    leBytes 4 e.asked ++ leBytes 4 e.conf ++ leBytes 4 e.flight ++ leBytes 4 e.pos

/-- The State of an entry of kind 0x02 to 0x05 at the halt: the first condition that applies (R551). -/
def reportState (unaccepted issued whole : Bool) : Nat :=
  if unaccepted then 1 else if !issued then 0 else if whole then 3 else 2

/-- The address that a channel instruction writes to. -/
def DmaEnt.dstAddr (c : Nat) (e : DmaEnt) : Nat :=
  match e.op with
  | .desc d _ dst => (match sideOf (dDstSpace d) (dDst d) dst with
                      | .dev a => a
                      | .host a => a
                      | .bad => dDst d)
  | .fill off _ _ => scrAddr c off
  | .copy dst _ _ _ => scrAddr c dst

/-- A message that waits at a port, whole, is this WRITE. -/
def State.isWrite (s : State) (m : MsgOut) (x : Nat × Nat × PortMsg) : Bool :=
  mKind x.2.2.hdr = 1 && mSrc x.2.2.hdr = s.moduleId && mDst x.2.2.hdr = m.dst && mSeq x.2.2.hdr = m.seq

/-- A WRITE has been issued, given to a port, and its link has accepted none of it: the port still holds it whole. One that waits for its turn
under R409, or for a live route under R413, has not been issued. -/
def State.unaccepted (s : State) (m : MsgOut) : Bool :=
  match m.port with
  | some n => (s.port n).sendq.any fun x => s.isWrite m x && decide (x.2.1 = x.2.2.flits)
  | none => false

/-- The flight and the stage-program position of a channel instruction. -/
def State.whereOf (s : State) (c ch stamp : Nat) : Nat × Nat :=
  match s.entOf c ch stamp with
  | some (_, e) => (e.flight, e.pos)
  | none => (0, 0)

/-- The entries of core c for a partition: its position, and each channel instruction taken and not confirmed (R154, R218). -/
def State.coreReport (s : State) (p c : Nat) : List ReportEnt :=
  let k := s.core c
  (if k.part = p ∧ k.phase ≠ .idle then
     [{ ctx := k.ctx, kind := 1, unit := c, chan := k.region.stage, flight := k.flight, pos := k.posAt k.lastPc }] else []) ++
  (k.chans.map fun ch => (ch.2.filter fun e => decide (e.part = p) && e.phase ≠ .queued).map fun e =>
    { ctx := e.ctx, kind := 2,
      state :=
        let own := s.sends.filter fun m => m.core = c && m.chan = ch.1 && m.stamp = e.stamp
        let waits := own.filter fun m => m.port.isNone
        reportState (own.any s.unaccepted) (decide (waits.length < e.outstanding ∨ (waits.map fun m => m.data.length).sum < e.asked))
          (decide (e.conf = e.asked ∧ e.outstanding = 0)),
      unit := c, chan := ch.1, addr := e.dstAddr c, asked := e.asked % 2 ^ 32, conf := e.conf % 2 ^ 32, flight := e.flight, pos := e.pos,
      key := (e.stamp, 0) }).flatten

/-- The bytes of the output row that an attention row writes (R281). -/
def AttnRow.outLen (r : AttnRow) (g : Option KvGeom) : Nat :=
  match g with
  | some g => g.hkv * g.gq * g.d * (r.ofmt.width / 8)
  | none => 0

/-- An attention row as a stack request: its request is issued to the stack at its first slice, and accepted with it. -/
def State.rowReport (s : State) (st : Nat) (r : AttnRow) : ReportEnt :=
  let w := s.whereOf r.core r.chan r.stamp
  { ctx := r.ctx, kind := 3, state := reportState false r.begun false, unit := st, chan := r.chan, addr := r.dst,
    asked := r.outLen (s.stream r.stream).geom, flight := w.1, pos := r.pos, key := (r.id, 0) }

/-- A WRITE in the in-flight report (R409, R413, R551). -/
def State.msgReport (s : State) (m : MsgOut) : ReportEnt :=
  let w := s.whereOf m.core m.chan m.stamp
  { ctx := m.ctx, kind := 4, state := reportState (s.unaccepted m) m.port.isSome false, unit := m.port.getD 0, chan := m.chan,
    addr := 0x300000000000 + m.slot * 0x400000000 + m.offset, asked := m.data.length, flight := w.1, pos := w.2, key := (m.dst, m.seq) }

/-- A PCIe read that the controller has accepted. -/
def State.readReport (s : State) (r : PcieRead) : ReportEnt :=
  let w := s.whereOf r.core r.chan r.stamp
  { ctx := r.ctx, kind := 5, state := reportState false true false, unit := r.core, chan := r.chan, addr := r.host, asked := r.len,
    flight := w.1, pos := w.2, key := (r.tag, 0) }

/-- Every entry found for a partition at its halt: cores, attention rows at the stacks, Onlan messages, PCIe reads and pending visits, each
in ascending order. R75 does not say which flight and position an entry of a pending visit gives, nor its unit, channel and address: it has
flight 0, position 0, the stream's home stack and its number (DESIGN CHOICE, log entry 20). -/
def State.reportEnts (s : State) (p : Nat) : List ReportEnt :=
  (s.cores.map fun e => s.coreReport p e.1).flatten ++
  (s.stks.map fun e => (e.2.rows.filter fun r => r.part = p).map fun r => s.rowReport e.1 r).flatten ++
  ((s.sends.filter fun m => m.part = p).map fun m => s.msgReport m) ++
  ((s.reads.filter fun r => r.part = p).map fun r => s.readReport r) ++
  s.streams.filterMap fun e =>
    if e.2.part = p ∧ e.2.visitDue ∧ e.2.visited.isNone then
      some { ctx := e.2.ctx, kind := 6, unit := e.2.home, chan := e.1 } else none

/-- The WRITEs of a list leave the ports where they wait whole; their numbers are not used again (log entry 34). -/
def State.recall (s : State) (ms : List MsgOut) : State :=
  { s with ports := SMap.mapV {} (fun _ k => { k with sendq := k.sendq.filter fun x =>
      !(decide (x.2.1 = x.2.2.flits) && ms.any fun m => s.isWrite m x) }) s.ports }

/-- A partition halts (R74): what is in flight there is noted, and the requests that nothing has accepted are abandoned. -/
def State.haltPart (s : State) (p : Nat) : State :=
  let es := s.reportEnts p
  let gone (m : MsgOut) : Bool := decide (m.part = p) && (m.port.isNone || s.unaccepted m)
  { s.recall (s.sends.filter gone) with
    tick := { s.tick with halts := (s.tick.halts.filter fun x => !decide (x.1 = p)) ++ [(p, es)] },
    sends := s.sends.filter fun m => !gone m }

/-- Drop the soft stops that a hard stop overtakes; their descriptors complete with OK (log entry 143). -/
def State.dropStops (s : State) (t : StopScope → Bool) : State :=
  let gone (r : StopReq) : Bool := !r.resume && t r.scope
  let cs := (s.tick.reqs.filter gone).filterMap StopReq.compl
  cs.foldl (fun s c => s.pushCompl c) { s with tick := { s.tick with reqs := s.tick.reqs.filter fun r => !gone r } }

/-- A hard stop of partitions takes effect on receipt (R74). -/
def State.hardStopParts (s : State) (src : StopSource) (ps : List Nat) : State :=
  let s := s.each (fun s p => (s.haltPart p).setPartState p .hardStopping) ps
  let s := s.dropStops fun c => match c with
    | .part p => decide (p.val ∈ ps)
    | _ => false
  { s with tick := { s.tick with hardSrc := (s.tick.hardSrc.filter fun x => !decide (x.1 ∈ ps)) ++ ps.map fun p => (p, src) } }

/-- A stop request: the state, and the status with which a request that has nothing to wait for completes now. A STOP that has
nothing to stop completes with REJECT_MODE, as R72 says of a RESUME; a soft STOP of a scope that is stopping softly or has stopped so completes
with OK: the spec is silent on both (log entry 19). -/
def State.stopRequest (s : State) (hard : Bool) (scope : StopScope) (src : StopSource) (c : Option ComplSt) :
    State × Option Nat :=
  match scope with
  | .module =>
    if hard then
      (if s.genState = 1 ∨ s.genState = 2 ∨ s.genState = 3 then
         let ps := s.partsWith fun k => k.st = .active || k.st = .softStopping
         let s := ((s.hardStopParts src ps).dropStops fun c => decide (c = .module)).setGenState 4
         ({ s with tick := { s.tick with modStopped := (s.tick.modStopped ++ ps).eraseDups, isOpen := false } }, some 0)
       else (s, some 0x07))
    else if s.genState = 1 then (s.softStopModule src c, if c.isSome then none else some 0)
    else (s, some (if s.genState = 2 ∨ s.genState = 3 then 0 else 0x07))
  | .part p =>
    let st := (s.part p).st
    if hard then
      (if st = .active ∨ st = .softStopping ∨ st = .softStopped then (s.hardStopParts src [p.val], some 0) else (s, some 0x07))
    else if st = .active then (s.softStopPart p src c, if c.isSome then none else some 0)
    else (s, some (if st = .softStopping ∨ st = .softStopped then 0 else 0x07))
  | .context p h =>
    match s.ctx p h.toNat with
    | none => (s, some 0x03)
    | some x =>
      if x.stopped then (s, some 0)
      else (s.pushReq { src := src, scope := scope, compl := c }, if c.isSome then none else some 0)

/-- A disabled engine refuses a resume (R486). -/
def State.enginesOn (s : State) : Bool :=
  s.fld rSeqCtrl 0 0 = 1 && (List.range 16).all fun t => s.fld (saeBase t + rSaeCtrl) 0 0 = 1 && s.fld (stkBase t + rStkCtrl) 0 0 = 1

/-- A resume request (R72, R73, R76): what it may act on, and the status of one that may not. The mirrored partitions of a fenced module stay
stopped until MODE is cleared (R423), and their RESUME gets REJECT_MODE (log entry 19). -/
def State.resumeRequest (s : State) (scope : StopScope) (src : StopSource) (c : Option ComplSt) : State × Option Nat :=
  if !s.enginesOn then (s, some 0x07)
  else
    let ok : Option Nat := match scope with
      | .module => if (s.genState = 3 ∨ s.genState = 5) ∧ s.fld rTckCtrl 0 0 = 1 then none else some 0x07
      | .part p =>
        if ((s.part p).st = .softStopped ∨ (s.part p).st = .hardStopped) ∧ !s.fencedPart p then none else some 0x07
      | .context p h =>
        (match s.ctx p h.toNat with
         | none => some 0x03
         | some x => if x.stopped then none else some 0x07)
    match ok with
    | some st => (s, some st)
    | none => (s.pushReq { src := src, scope := scope, resume := true, compl := c }, if c.isSome then none else some 0)

/-- A module soft stop by a descriptor (R71). -/
def execSoftStopModule (s : State) : Host.Outcome State Fault Refusal := .next (s.stopRequest false .module .descriptor none).1

/-- A partition soft stop (R71). -/
def execSoftStopPartition (p : PartId) (s : State) : Host.Outcome State Fault Refusal :=
  .next (s.stopRequest false (.part p) .descriptor none).1

/-- A context soft stop (R73). -/
def execSoftStopContext (p : PartId) (h : BitVec 16) (s : State) : Host.Outcome State Fault Refusal :=
  .next (s.stopRequest false (.context p h) .descriptor none).1

/-- A module hard stop (R74). -/
def execHardStopModule (s : State) : Host.Outcome State Fault Refusal := .next (s.stopRequest true .module .descriptor none).1

/-- A partition hard stop (R74). -/
def execHardStopPartition (p : PartId) (s : State) : Host.Outcome State Fault Refusal :=
  .next (s.stopRequest true (.part p) .descriptor none).1

/-- A stop requested by the runtime firmware, by Jormir or by a register write (R70): a context scope is always soft. -/
def execStopRequestInternal (src : StopSource) (hard : Bool) (scope : StopScope) (s : State) :
    Host.Outcome State Fault Refusal :=
  let hard := match scope with
    | .context _ _ => false
    | _ => hard
  .next (s.stopRequest hard scope src none).1

/-- A partition resume: at the next boundary it returns to ACTIVE (R72, R76). -/
def execResumePartition (p : PartId) (s : State) : Host.Outcome State Fault Refusal :=
  .next (s.resumeRequest (.part p) .descriptor none).1

/-- A context resume: its soft stop ends at the next boundary (R73). -/
def execResumeContext (p : PartId) (h : BitVec 16) (s : State) : Host.Outcome State Fault Refusal :=
  .next (s.resumeRequest (.context p h) .descriptor none).1

/-! ## The in-flight report (R75, R218, R551) -/

/-- The bytes of an entry confirmed at the moment that the report is written (R551): an instruction's own count; for the others, all of them
once the unit that accepted the request no longer holds it. -/
def State.confirmed (s : State) (p : Nat) (e : ReportEnt) : Nat :=
  let whole (still : Bool) : Nat := if still || e.state < 2 || s.tearing p e.ctx then e.conf else e.asked
  match e.kind with
  | 2 => (match ((s.core e.unit).chan e.chan).find? fun x => decide (x.stamp = e.key.1) with
          | some x => x.conf % 2 ^ 32
          | none => whole false)
  | 3 => whole ((s.stk e.unit).rows.any fun r => decide (r.id = e.key.1))
  | 4 => whole (s.sends.any fun m => decide (m.dst = e.key.1 ∧ m.seq = e.key.2 ∧ m.port.isSome))
  | 5 => whole (s.reads.any fun r => decide (r.tag = e.key.1))
  | _ => 0

/-- The 64-byte header. -/
def reportHeader (tick cycles : Word) (written found : Nat) (whole : Bool) (p src : Nat) : List Byte :=
  leBytes 8 tick.toNat ++ leBytes 8 cycles.toNat ++ leBytes 4 written ++ leBytes 4 found ++
    leBytes 1 (if whole then 0 else 1) ++ leBytes 1 p ++ leBytes 1 src ++ leBytes 1 0 ++ leBytes 36 0

/-- Write the in-flight report of a partition to its stop-report buffer; entries that do not fit are omitted (R75, R483). -/
def State.writeReport (s : State) (p : Nat) (whole : Bool) (cycles : Word) : State :=
  let r := s.reg (sliceBase p + rPartStop)
  let cap := (4096 * (bits r.toNat 9 0 + 1) - 64) / 32
  let es := ((s.tick.halts.find? fun x => decide (x.1 = p)).elim (s.reportEnts p) Prod.snd).map fun e => { e with conf := s.confirmed p e }
  let kept := es.take cap
  let src := (s.tick.hardSrc.find? fun x => decide (x.1 = p)).elim 0 fun x => stopCode x.2
  let data := reportHeader s.tickNo cycles kept.length es.length whole p src ++ (kept.map ReportEnt.bytes).flatten
  s.hostFor p (r.toNat / 4096 * 4096) data

/-- A landing 1 or 2 that touches a partition is not complete: a context is being torn down, or an engine with its work is being reset (R391). -/
def State.landingIn (s : State) (p : Nat) : Bool :=
  ((s.part p).ctxs.any fun e => match e.2 with
    | some x => x.tear = .faulted || x.tear = .fenced || x.tear = .drained
    | none => false) || s.rcv.haltedBy.any fun x => decide (x.1 = p) && s.rcv.resetting.contains x.2

/-- The partitions of a scope that are HARD_STOPPING become HARD_STOPPED with their reports written. -/
def State.stopped (s : State) (whole : Bool) (cycles : Word) (ps : List Nat) : State :=
  s.each (fun s p => (s.writeReport p whole cycles).setPartState p .hardStopped) ps

/-- Accepted transfers have finished: the stopped scope reads HARD_STOPPED and its in-flight reports are written (R74). A
landing 1 or 2 in progress is done first (R391). -/
def execHardStopComplete (scope : StopScope) (cycles : Word) (s : State) : Host.Outcome State Fault Refusal :=
  match scope with
  | .module =>
    let ps := s.partsWith fun k => k.st = .hardStopping
    if s.genState = 4 ∧ ps.all (fun p => !s.landingIn p) then .next ((s.stopped true cycles ps).setGenState 5) else .next s
  | .part p =>
    if (s.part p).st = .hardStopping ∧ s.genState ≠ 4 ∧ !s.landingIn p then .next (s.stopped false cycles [p.val]) else .next s
  | .context _ _ => .next s

/-! ## The abandoned tick (R76) -/

/-- Put back a core of a partition whose tick is abandoned: nothing is queued or in a channel, and no flight runs. -/
def CoreSt.abandon (k : CoreSt) (p : Nat) : CoreSt :=
  let k := { k with chans := (k.chans.map fun e => (e.1, e.2.filter fun x => !decide (x.part = p))).filter fun e => e.2 ≠ [],
                    track := k.track.filter fun x => !decide (x.part = p) }
  if k.part = p ∧ k.phase ≠ .idle then { k with phase := .idle, ctrlq := [], loops := [], waitKind := 0 } else k

/-- The mirror engine's state of a partition whose tick is abandoned: nothing of the tick is sealed, and the next seal is empty (R76). -/
def MirPart.abandon (m : MirPart) : MirPart := { m with streamed := [], unacked := [], emptySeal := true }

/-- A stream of an abandoned tick: its unpublished entry and its visit are gone; it decodes the position again. -/
def StreamSt.abandon (t : StreamSt) : StreamSt :=
  { t with visited := none, visitDue := false, cand := {}, chunk := none, inBatch := false }

/-- The tick in progress is abandoned for a partition: its requests, lists, visits and tracker entries are dropped, a flight that ended in it
is smeared as one that did not, and hall ring mode runs its tick again (R76). -/
def State.abandonTick (s : State) (p : Nat) : State :=
  let s := { s with cores := SMap.mapV {} (fun _ k => k.abandon p) s.cores,
                    cands := s.cands.filter fun m => !decide (m.part = p),
                    signals := s.signals.filter fun m => !decide (m.part = p),
                    reads := s.reads.filter fun m => !decide (m.part = p),
                    sends := s.sends.filter fun m => !decide (m.part = p),
                    streams := SMap.mapV {} (fun _ t => if t.part = p then t.abandon else t) s.streams,
                    hallRing := s.hallRing.map fun (r : HallRingSt) => if r.part = p then { r with running := false } else r,
                    flights := SMap.mapV none (fun _ f => f.map fun (x : FlightSt) =>
                      if x.part = p ∧ x.begun ∧ x.endStatus = some 0 then { x with endStatus := some 0x21 } else x) s.flights }
  let s := { s with tick := { s.tick with halts := s.tick.halts.filter fun x => !decide (x.1 = p) } }
  let s := if s.mirrored p then s.setMirp p (s.mirp p).abandon else s
  s.each (fun s t => s.setRows t fun l => l.filter fun r => !decide (r.part = p)) (List.range 16)

end Sys2Proof.Machine
end

