-- ==== Sys2Proof/Machine/Vector.lean ====
section
/-! DEFINITION. The vector instructions (R146 to R150, R182 to R186) and requantisation (R115 to R125). -/

namespace Sys2Proof.Machine

/-- Write vector register n of core c and continue after the pc. -/
def Res.putV (s : State) (c : Nat) (k : CoreSt) (n : Nat) (v : List Lane) : Res :=
  .seq ((s.setCore c (k.setV n v)).vecDone c) k.pc

/-- The second operand in each lane: vb, or with SB the low 32 bits of xb (R182). -/
def CoreSt.operandB (k : CoreSt) (w : BitVec 56) : List Lane :=
  if fieldOf w 29 29 = 1 then List.replicate 128 ((k.xr (fieldOf w 45 41)).setWidth 32) else k.vr (fieldOf w 45 41)

/-- A lane operation of three registers. -/
def lanes3 (f : Lane → Lane → Lane → Lane) (a b c : List Lane) : List Lane :=
  (a.zip (b.zip c)).map fun x => f x.1 x.2.1 x.2.2

/-- The fields of VALU, VINT, VCVT, VFUNC and VRED that an operation does not use are 0 (R182): `b` says that vb or xb is
used, `c` vc, and `t` the target format, rounding mode and saturate bit. -/
def unusedZero (w : BitVec 56) (b c t : Bool) : Bool :=
  (b || (fieldOf w 45 41 = 0 && fieldOf w 29 29 = 0)) && (c || fieldOf w 40 36 = 0) && (t || fieldOf w 28 22 = 0)

/-- VALU: binary32 lanes (R182). -/
def execValu (c : CoreId) (w : BitVec 56) (s : State) : Host.Outcome State Fault Refusal :=
  s.issue c 0x31 w fun s k =>
    let sub := fieldOf w 35 30
    if 11 < sub ∨ !unusedZero w (sub ≠ 6 && sub ≠ 7) (sub = 3 || sub = 11) false then .illegal
    else .putV s c k (fieldOf w 55 51)
      (lanes3 (valuLane sub) (k.vr (fieldOf w 50 46)) (k.operandB w) (k.vr (fieldOf w 40 36)))

/-- VINT: INT32 lanes (R182). -/
def execVint (c : CoreId) (w : BitVec 56) (s : State) : Host.Outcome State Fault Refusal :=
  s.issue c 0x32 w fun s k =>
    let sub := fieldOf w 35 30
    if 11 < sub ∨ !unusedZero w true (sub = 11) false then .illegal
    else .putV s c k (fieldOf w 55 51)
      (lanes3 (vintLane sub) (k.vr (fieldOf w 50 46)) (k.operandB w) (k.vr (fieldOf w 40 36)))

/-- VCVT: conversion between binary32, INT32 and the 16-bit long formats (R183). -/
def execVcvt (c : CoreId) (w : BitVec 56) (s : State) : Host.Outcome State Fault Refusal :=
  s.issue c 0x33 w fun s k =>
    let sub := fieldOf w 35 30
    let rd := fieldOf w 24 23
    match Fmt.ofCode (fieldOf w 28 25) with
    | none => .illegal
    | some f =>
      if 3 < sub ∨ 1 < rd ∨ !(f = .f32 || f = .i32 || f = .bf16 || f = .f16) ∨ !unusedZero w false false true then .illegal
      else
        let mode : Round := if rd = 0 then .rne else .rtz
        let cs := (k.vr (fieldOf w 50 46)).map fun a => f.encode mode (fieldOf w 22 22 = 1) 0 (vcvtSource sub a)
        let s := s.perf c 0x0E (cs.countP Conv.inv)
        .putV s c (s.core c) (fieldOf w 55 51) (cs.map fun x => BitVec.ofNat 32 x.code)

/-- VFUNC: the functions of R147. -/
def execVfunc (c : CoreId) (w : BitVec 56) (s : State) : Host.Outcome State Fault Refusal :=
  s.issue c 0x34 w fun s k =>
    let sub := fieldOf w 35 30
    if 4 < sub ∨ !unusedZero w false false false then .illegal
    else .putV s c k (fieldOf w 55 51) ((k.vr (fieldOf w 50 46)).map (vfuncLane sub))

/-- VRED: lane sum, or maximum with index (R148, R149). -/
def execVred (c : CoreId) (w : BitVec 56) (s : State) : Host.Outcome State Fault Refusal :=
  s.issue c 0x35 w fun s k =>
    let a := k.vr (fieldOf w 50 46)
    if 1 < fieldOf w 35 30 ∨ !unusedZero w false false false then .illegal
    else if fieldOf w 35 30 = 0 then .putV s c k (fieldOf w 55 51) (laneSum a :: List.replicate 127 0)
    else
      let m := laneMax a
      .putV s c k (fieldOf w 55 51) (m.1 :: BitVec.ofNat 32 m.2 :: List.replicate 126 0)

/-- VMERGE: the top-64 merge of list va with row vb, base index xc (R150). -/
def execVmerge (c : CoreId) (w : BitVec 56) (s : State) : Host.Outcome State Fault Refusal :=
  s.issue c 0x36 w fun s k =>
    if fieldOf w 35 30 ≠ 0 then .illegal
    else .putV s c k (fieldOf w 55 51)
      (vMerge (k.vr (fieldOf w 50 46)) (k.vr (fieldOf w 45 41)) ((k.xr (fieldOf w 40 36)).toNat % 2 ^ 32))

/-! ## Loads (R184) -/

/-- Bytes that hold n elements of a width (R84, R86). -/
def elemBytes (width n : Nat) : Nat := (n * width + 7) / 8

/-- The code of element j of a packed array of bytes (R84, R86, R93). -/
def packedCode (x width j : Nat) : Nat := x / 2 ^ (width * j) % 2 ^ width

/-- The channel of lane j (R184). -/
def TDesc.channel (t : TDesc) (xc j : Nat) : Nat := if t.chanAxis = 1 then xc + j else xc

/-- The zero point of lane j of a load or store on core k (R184, R185). -/
def CoreSt.laneZp (k : CoreSt) (t : TDesc) (f : Fmt) (xc j : Nat) : Int :=
  if t.zpMode = 1 then zeroPoint f t.zp
  else if t.zpMode = 2 then zeroPoint f (k.scrByte (k.region.off + t.zpOff + t.channel xc j)).toNat
  else 0

/-- The region ranges of a description's per-channel zero points and scales that `n` lanes touch: (offset, bytes). -/
def TDesc.sideRanges (t : TDesc) (f : Fmt) (xc n : Nat) (store : Bool) : List (Nat × Nat) :=
  let ch (base w : Nat) : Nat × Nat := if t.chanAxis = 1 then (base + w * xc, w * n) else (base + w * xc, w)
  (if t.zpMode = 2 ∧ f.isInt then [ch t.zpOff 1] else []) ++
  (if f.blockScaled then [(t.scaleOff + xc, (n + 31) / 32)]
   else if store && t.scaleMode = 1 then [ch t.scaleOff 4] else [])

/-- The first of several region ranges that leaves the region. -/
def State.firstOutside (s : State) (c : Nat) (rs : List (Nat × Nat)) : Option Nat :=
  (rs.find? fun r => !s.inRegion c r.1 r.2).map Prod.fst

/-- Lane j of a load: the element converted to binary32, or to INT32 for an integer format (R103, R184); a NaN of any
format becomes the canonical one (R90, R91). -/
def CoreSt.loadElem (k : CoreSt) (t : TDesc) (f : Fmt) (x xc j : Nat) : Lane :=
  let code := packedCode x f.width j
  if f = .i32 then BitVec.ofNat 32 code
  else if f = .f32 then canonLane (BitVec.ofNat 32 code)
  else if f.isInt then BitVec.ofInt 32 (f.decodeInt code - k.laneZp t f xc j)
  else if f.blockScaled then
    toF32 ((f.decode code).mul (decodeScale (k.scrByte (k.region.off + t.scaleOff + xc + j / 32)).toNat))
  else toF32 (f.decode code)

/-- VLOAD: 128 elements from xa (R184). -/
def execVload (c : CoreId) (w : BitVec 56) (err : PhysErr) (s : State) : Host.Outcome State Fault Refusal :=
  let e := wordEcc err
  s.issue c 0x37 w fun s k =>
    let a := (k.xr (fieldOf w 50 46)).toNat
    let xc := (k.xr (fieldOf w 40 36)).toNat
    match s.tdesc c (k.xr (fieldOf w 45 41)).toNat e with
    | .error r => r
    | .ok (s, t, f) =>
      let n := elemBytes f.width 128
      if a % 4 ≠ 0 then .illegal
      else
        match s.firstOutside c ((a, n) :: t.sideRanges f xc 128 false) with
        | some o => s.regionFault c o
        | none =>
          let p := k.region.off + a
          let q := s.scrReads c ((p, n) :: (t.sideRanges f xc 128 false).map fun r => (k.region.off + r.1, r.2)) e
          if q.2 then .bad q.1
          else
            let x := leNat (k.scrRead p n)
            .putV q.1 c (q.1.core c) (fieldOf w 55 51) ((List.range 128).map (k.loadElem t f x xc))

/-! ## Requantisation (R116 to R125, R185) -/

/-- The block-scale exponent of R123: the smallest e with M ≤ L × 2^e, clamped. -/
def blockExp (f : Fmt) (m : FVal) : Int :=
  match m with
  | .fin _ k e =>
    if k = 0 then 0
    else
      let l : Nat × Int := match f with
        | .fp4 => (3, 1)
        | .e3m2 => (7, 2)
        | _ => (15, -1)
      let e0 := ((k.log2 : Int) + e) - ((l.1.log2 : Int) + l.2)
      let r := if magLe k e l.1 (l.2 + e0) then e0 else e0 + 1
      max (-127) (min 127 r)
  | _ => 0

/-- The largest magnitude of a block's products: NaNs left out, and the largest binary32 value if one is infinite (R123). -/
def blockMax (ps : List FVal) : FVal :=
  if ps.any fun p => match p with
    | .inf _ => true
    | _ => false
  then ofF32 0x7F7FFFFF#32
  else ps.foldl (fun m p => if p.isNan || p.abs.numLe m then m else p.abs) (.fin false 0 0)

/-- What a requantise of N lanes produces: one conversion per element, and the block-scale codes. -/
structure Requant where
  elems  : List Conv
  scales : List Nat
deriving DecidableEq, Repr

/-- The rounding mode of a destination element (R115, R117). -/
def roundOf (code : Nat) (seed : Word) (tid idx : Nat) : Round :=
  match code with
  | 0 => .rne
  | 1 => .rtz
  | _ => .sr (stochastic seed tid idx)

/-- Requantise values v × s to format f (R120 to R123): `mode j` rounds element j, `zp j` is its zero point. -/
def requant (f : Fmt) (sat : Bool) (mode : Nat → Round) (zp : Nat → Int) (ps : List FVal) : Requant :=
  if f.blockScaled then
    let es := (List.range ((ps.length + 31) / 32)).map fun b => blockExp f (blockMax ((ps.drop (32 * b)).take 32))
    { elems := ps.zipIdx.map fun x => f.encode (mode x.2) sat 0 (x.1.mul (.fin false 1 (-(es.getD (x.2 / 32) 0)))),
      scales := es.map fun e => (e + 127).toNat }
  else { elems := ps.zipIdx.map fun x => f.encode (mode x.2) sat (zp x.2) x.1, scales := [] }

/-- The tracker of a core after a tracked requantise (R124): one of 16 entries, keyed by context and tensor. Where other tensors hold all 16,
the operation is not tracked: R124 keeps one graph's tracked tensors to 16 a core and does not say what happens when several graphs
together ask for more (DESIGN CHOICE, log entry 137). -/
def trackUpdate (es : List TrackEnt) (new : TrackEnt) : List TrackEnt :=
  let same (e : TrackEnt) : Bool := e.part = new.part && e.ctx = new.ctx && e.tno = new.tno
  if es.any same then
    es.map fun e => if same e then
      { new with maxV := if e.maxV.numLe new.maxV then new.maxV else e.maxV, count := e.count + new.count,
                 sats := e.sats + new.sats, invs := e.invs + new.invs }
    else e
  else if es.length < 16 then es ++ [new] else es

/-- The scale in force for a tensor: a scale adopted or patched for it that the flight captured, else the description's
(R127, log entry 13). -/
def State.scaleOf (s : State) (k : CoreSt) (t : TDesc) : Lane :=
  match s.flight k.flight with
  | some f => if f.scales.any fun e => decide (e.1 = t.tno) then SMap.get 0 f.scales t.tno else t.scale
  | none => t.scale

/-- The context seed (R119). -/
def State.seedOf (s : State) (k : CoreSt) : Word :=
  match s.ctx k.part k.ctx with
  | some x => x.seed
  | none => 0

/-- The bytes of packed element codes; unused top bits of the last byte are 0 (R84, R86). -/
def packCodes (width : Nat) (codes : List Nat) : List Byte :=
  leBytes (elemBytes width codes.length) (codes.zipIdx.foldl (fun a x => a + x.1 * 2 ^ (width * x.2)) 0)

/-- The requantise of lanes 0 to N − 1 of va by a description, with the scale in force for its tensor and the context's seed: the element and
scale codes written to the region, and the tracker's entry (R108, R123, R124, R185); with the elements that saturated and that were invalid. The entry keeps the per-tensor zero
point; with per-channel ones it keeps 0, the spec naming no single z for R126's L (DESIGN CHOICE, log entry 138). -/
def CoreSt.requantise (k : CoreSt) (w : BitVec 56) (t : TDesc) (f : Fmt) (sc : Lane) (seed : Word) : CoreSt × Nat × Nat :=
  let a := (k.xr (fieldOf w 50 46)).toNat
  let xi := (k.xr (fieldOf w 40 36)).toNat
  let xc := (k.xr (fieldOf w 35 31)).toNat
  let n := fieldOf w 30 24 + 1
  let base := k.region.off
  let scale (j : Nat) : FVal :=
    if t.scaleMode = 1 then ofF32 (BitVec.ofNat 32 (leNat (k.scrRead (base + t.scaleOff + 4 * t.channel xc j) 4)))
    else ofF32 sc
  let vs := ((k.vr (fieldOf w 55 51)).take n).map fun l => if fieldOf w 23 23 = 1 then ofI32 l else ofF32 l
  let r := requant f t.saturate (fun j => roundOf t.round seed (t.tno * 4096 + k.salt) (xi + j))
    (fun j => k.laneZp t f xc j) (vs.zipIdx.map fun x => x.1.mul (scale x.2))
  let k1 := k.scrWrite (base + a) (packCodes f.width (r.elems.map Conv.code))
  let k2 := if f.blockScaled then k1.scrWrite (base + t.scaleOff + xc) (r.scales.map (BitVec.ofNat 8)) else k1
  let sats := r.elems.countP Conv.sat
  let invs := r.elems.countP Conv.inv
  let ent : TrackEnt :=
    { part := k.part, ctx := k.ctx, tno := t.tno,
      maxV := vs.foldl (fun m v => if v.isNan || v.abs.numLe m then m else v.abs) (.fin false 0 0),
      count := n, sats := sats, invs := invs, fmt := f, scale := sc, zp := if t.zpMode = 1 then zeroPoint f t.zp else 0,
      mode := t.track, headroom := t.headroom, satShift := t.satShift, underuse := t.underuse }
  (if t.track ≠ 0 ∧ t.scaleMode = 0 ∧ !f.blockScaled then { k2 with track := trackUpdate k2.track ent } else k2, sats, invs)

/-- VRQST: requantise lanes 0 to N − 1 of va and write them to xa (R185). -/
def execVrqst (c : CoreId) (w : Met (BitVec 56)) (s : State) : Host.Outcome State Fault Refusal :=
  let e := wordEcc w.err
  s.issue c 0x38 w.val fun s k =>
    let a := (k.xr (fieldOf w.val 50 46)).toNat
    let xc := (k.xr (fieldOf w.val 35 31)).toNat
    let n := fieldOf w.val 30 24 + 1
    match s.tdesc c (k.xr (fieldOf w.val 45 41)).toNat e with
    | .error r => r
    | .ok (s, t, f) =>
      if a % 4 ≠ 0 ∨ !f.isStore ∨ (f.blockScaled ∧ t.scaleMode = 1) then .illegal
      else
        match s.firstOutside c ((a, elemBytes f.width n) :: t.sideRanges f xc n true) with
        | some o => s.regionFault c o
        | none =>
          -- a block-scaled destination's scales are written; the other scales and zero points are read
          let q := s.scrReads c (if f.blockScaled then [] else
            (t.sideRanges f xc n true).map fun r => (k.region.off + r.1, r.2)) e
          if q.2 then .bad q.1
          else
            let s := q.1
            let k := s.core c
            let r := k.requantise w.val t f (s.scaleOf k t) (s.seedOf k)
            .seq ((((s.setCore c r.1).perf c 0x0D r.2.1).perf c 0x0E r.2.2).vecDone c) k.pc

/-- VST: the 512 bytes of va, unchanged, to xa (R186). -/
def execVst (c : CoreId) (w : BitVec 56) (s : State) : Host.Outcome State Fault Refusal :=
  s.issue c 0x39 w fun s k =>
    let a := (k.xr (fieldOf w 50 46)).toNat
    if a % 4 ≠ 0 then .illegal
    else if !s.inRegion c a 512 then s.regionFault c a
    else
      let bs := ((k.vr (fieldOf w 55 51)).map fun l => leBytes 4 l.toNat).flatten
      .seq ((s.setCore c (k.scrWrite (k.region.off + a) bs)).vecDone c) k.pc

/-- VMOVX: broadcast, extract or insert a lane (R182). -/
def execVmovx (c : CoreId) (w : BitVec 56) (s : State) : Host.Outcome State Fault Refusal :=
  s.issue c 0x3A w fun s k =>
    let d := fieldOf w 55 51
    let a := fieldOf w 50 46
    let lane := fieldOf w 22 16
    match fieldOf w 35 30 with
    | 0 => .putV s c k d (List.replicate 128 ((k.xr a).setWidth 32))
    | 1 => .seq ((s.setCore c (k.setX d (((k.vr a).getD lane 0).setWidth 64))).vecDone c) k.pc
    | 2 => .putV s c k d ((k.vr d).set lane ((k.xr a).setWidth 32))
    | _ => .illegal

end Sys2Proof.Machine
end

