-- ==== Sys2Proof/Machine/Graphs.lean ====
section
/-! DEFINITION. Stored graphs: the image header (R302, R303), the check of an extension program (R162, R163), versions and
parameter pages (R305, R306, R320), patches and relocation (R317, R319), and placement commits (R160, R349, R357). -/

namespace Sys2Proof.Machine

/-! ## The Iluip image header (R302, R303) -/

/-- PARAM_SIZE. -/
def hParams (h : BitVec 512) : Nat := dfld h 0x0C 31 0
/-- Handle slots. -/
def hSlots (h : BitVec 512) : Nat := dfld h 0x14 15 0
/-- Bindings. -/
def hBinds (h : BitVec 512) : Nat := dfld h 0x16 15 0
/-- Bit i of the word at 0x18. -/
def hFlag (h : BitVec 512) (i : Nat) : Bool := dfld h 0x18 i i = 1

/-- The KV geometry that the word at 0x1C declares; none outside R274. -/
def kvGeomOf (h : BitVec 512) : Option KvGeom :=
  let x := dfld h 0x1C 31 0
  let fmt : Option Fmt := match bits x 3 0 with
    | 0 => some .fp4
    | 3 => some .e4m3
    | 4 => some .e5m2
    | _ => none
  match fmt with
  | some f =>
    if bits x 5 4 = 3 ∨ bits x 31 24 ≠ 0 then none
    else some { fmt := f, d := 64 * 2 ^ bits x 5 4, hkv := bits x 11 6 + 1, layers := bits x 19 12 + 1, gq := bits x 23 20 + 1 }
  | none => none

/-- Byte offset of a handle slot, its declared type, and WIDE (R303). -/
def slotAt (e : Word) : Nat := bits e.toNat 19 0
/-- Declared type of a slot. -/
def slotType (e : Word) : Nat := bits e.toNat 23 20
/-- WIDE. -/
def slotWide (e : Word) : Bool := bit e.toNat 24

/-- A handle-slot entry obeys R303 in a block of `n` bytes. -/
def slotEntOk (n : Nat) (e : Word) : Bool :=
  decide (slotAt e % 8 = 0 ∧ slotAt e + (if slotWide e then 16 else 8) ≤ n ∧ 1 ≤ slotType e ∧ slotType e ≤ 4 ∧
    bits e.toNat 63 25 = 0)

/-- The header and its handle-slot list are valid for a LOAD_GRAPH of `lenB` bytes and `countC` bindings (R302, R303, R307). -/
def headerOk (h : BitVec 512) (slots : List Word) (lenB countC : Nat) : Bool :=
  decide (dfld h 0 31 0 = 0x50554C49 ∧ dfld h 4 15 0 = 1 ∧ dfld h 6 7 0 ≤ 4 ∧ dfld h 7 7 0 = 1) &&
  decide (dfld h 8 31 0 = lenB ∧ 64 ≤ lenB ∧ lenB ≤ 268435456 ∧ hBinds h = countC ∧ hBinds h ≤ 4096) &&
  decide (hParams h % 8 = 0 ∧ 8 ≤ hParams h ∧ hParams h ≤ 1048576 ∧ hSlots h ≤ 4096) &&
  decide (dfld h 0x10 31 0 + 8 * hSlots h ≤ lenB ∧ slots.length = hSlots h) &&
  decide (dfld h 0x18 31 5 = 0 ∧ dfld h 0x20 255 0 = 0) && (!hFlag h 3 || (kvGeomOf h).isSome) &&
  slots.all (slotEntOk (hParams h))

/-! ## Extension programs (R162, R163) -/

/-- Instructions of an extension image. -/
def extCount (img : List Word) : Nat := bits (img.getD 0 0).toNat 63 32
/-- Its count-register mask. -/
def extMask (img : List Word) : Nat := bits (img.getD 1 0).toNat 47 32
/-- Its instructions. -/
def extInsns (img : List Word) : List Word := (img.drop 8).take (extCount img)

/-- The fields of the image header are in range (R162). -/
def extHeaderOk (img : List Word) : Bool :=
  let w0 := (img.getD 0 0).toNat
  let w1 := (img.getD 1 0).toNat
  decide (bits w0 15 0 = 1 ∧ 1 ≤ bits w0 31 16 ∧ bits w0 31 16 ≤ 192 ∧ 1 ≤ extCount img ∧ extCount img ≤ 8192) &&
  decide (bits w1 31 0 % 65536 = 0 ∧ 65536 ≤ bits w1 31 0 ∧ bits w1 31 0 ≤ 6291456 ∧ bits w1 63 48 = 0) &&
  decide ((img.getD 2 0).toNat < extCount img ∧ (extInsns img).length = extCount img) &&
  ((img.take 8).drop 3).all fun w => decide (w = 0)

/-- The reserved codes and ranges of an instruction's own fields (R168, R169, R174, R175, R179 to R183). -/
def codesOk (op : Nat) (w : BitVec 56) : Bool :=
  let sub := fieldOf w 35 30
  match op with
  | 0x05 => (saluOp (fieldOf w 40 37) 0 0).isSome &&
      decide ((if fieldOf w 36 36 = 1 then fieldOf w 45 41 else fieldOf w 31 0) = 0)
  | 0x06 => fieldOf w 7 0 ≤ 9
  | 0x07 => (brCond (fieldOf w 45 43) 0 0).isSome
  | 0x13 => fieldOf w 55 54 ≠ 3 && fieldOf w 53 52 ≠ 0
  | 0x14 => fieldOf w 15 0 ≠ 0
  | 0x20 =>
    (match Fmt.ofCode (fieldOf w 45 42) with
     | some f => f ≠ .i32 && f ≠ .e8m0 && (AccFmt.ofCode (fieldOf w 41 40)).isSome
     | none => false)
  | 0x21 =>
    (match AccFmt.ofCode (fieldOf w 32 31) with
     | some a => tileLegal a (fieldOf w 45 41)
     | none => false)
  | 0x30 =>
    if fieldOf w 35 35 = 1 then fieldOf w 28 28 = 0 && fieldOf w 50 44 + fieldOf w 43 37 + 1 ≤ 64
    else (fieldOf w 28 28 = 1 || fieldOf w 55 51 < 16) && fieldOf w 50 44 + fieldOf w 43 37 + 1 ≤ 128
  | 0x31 => sub ≤ 11 && unusedZero w (sub ≠ 6 && sub ≠ 7) (sub = 3 || sub = 11) false
  | 0x32 => sub ≤ 11 && unusedZero w true (sub = 11) false
  | 0x33 =>
    (match Fmt.ofCode (fieldOf w 28 25) with
     | some f => sub ≤ 3 && fieldOf w 24 23 ≤ 1 && (f = .f32 || f = .i32 || f = .bf16 || f = .f16) &&
         unusedZero w false false true
     | none => false)
  | 0x34 => sub ≤ 4 && unusedZero w false false false
  | 0x35 => sub ≤ 1 && unusedZero w false false false
  | 0x36 => sub = 0
  | 0x3A => sub ≤ 2
  | _ => true

/-- The count register that an instruction names, if it names one (R163). -/
def countOf (op : Nat) (w : BitVec 56) : Option Nat :=
  match op with
  | 0x09 | 0x0A | 0x14 => some (fieldOf w 50 47)
  | 0x41 | 0x42 => if fieldOf w 33 33 = 1 then some (fieldOf w 37 34) else none
  | _ => none

/-- The bodies of an instruction list, as (first, last) index, that contain an index (R169). -/
def bodiesAt (is : List Word) (i : Nat) : List (Nat × Nat) :=
  is.zipIdx.filterMap fun x =>
    let last := x.2 + bits x.1.toNat 12 0
    if x.1.toNat / 2 ^ 56 = 0x08 ∧ x.2 < i ∧ i ≤ last then some (x.2 + 1, last) else none

/-- The instruction at an index obeys the checks of R163. -/
def insnOk (is : List Word) (mask i : Nat) (x : Word) : Bool :=
  let op := x.toNat / 2 ^ 56
  let w : BitVec 56 := BitVec.ofNat 56 x.toNat
  let bs := bodiesAt is i
  let flow : Bool := match op with
    | 0x01 | 0x02 => bs.isEmpty
    | 0x07 =>
      let t : Int := i + (BitVec.ofNat 24 (fieldOf w 23 0)).toInt
      decide (0 ≤ t ∧ t < is.length) &&
      (match innermost bs with
       | some b => decide ((b.1 : Int) ≤ t ∧ t ≤ b.2) && bs.all fun y => decide ((y.1 : Int) ≠ t)
       | none => true)
    | 0x08 =>
      let last := i + fieldOf w 12 0
      decide (fieldOf w 12 0 ≠ 0 ∧ last < is.length ∧ bs.length ≤ 3) && bs.all fun y => decide (last ≤ y.2)
    | _ => true
  opcodeKnown op && reservedOk op w && codesOk op w && flow &&
  (match countOf op w with
   | some n => bit mask n
   | none => true)

/-- The extension images that bytes hold, one after another (R162, R303): an image that the bytes end within is what is left of it. -/
def extImages : Nat → List Byte → List (List Word)
  | 0, _ => []
  | n + 1, bs =>
    if bs = [] then []
    else
      let word (i : Nat) : Word := BitVec.ofNat 64 (leNat ((bs.drop (8 * i)).take 8))
      let k := 8 + bits (word 0).toNat 63 32
      ((List.range (min k (bs.length / 8))).map word) :: extImages n (bs.drop (8 * k))

/-- An extension image passes R163. -/
def extOk (img : List Word) : Bool :=
  extHeaderOk img && (extInsns img).zipIdx.all fun x => insnOk (extInsns img) (extMask img) x.2 x.1

/-! ## Parameter pages (R320) -/

/-- 4 KiB pages of a block of words. -/
def pagesOf : Nat → List Word → List (List Word)
  | 0, _ => []
  | n + 1, ws => ws.take 512 :: pagesOf n (ws.drop 512)

/-- Pages that a block of `bytes` bytes takes. -/
def pageCount (bytes : Nat) : Nat := (bytes + 4095) / 4096

/-- Pages of a partition's parameter space: 16 a frame. -/
def PartSt.pageTotal (k : PartSt) : Nat := 16 * k.paramFrames.length

/-- The free page numbers of a partition, ascending. -/
def PartSt.freePages (k : PartSt) : List Nat :=
  (List.range k.pageTotal).filter fun i => (SMap.get none k.pages i).isNone

/-- Put new pages at page numbers, each referenced once. -/
def PartSt.putPages (k : PartSt) : List Nat → List (List Word) → PartSt
  | i :: is, d :: ds => PartSt.putPages { k with pages := SMap.set none k.pages i (some { data := d, refs := 1 }) } is ds
  | _, _ => k

/-- Take one more reference to a page. -/
def PartSt.refPage (k : PartSt) (i : Nat) : PartSt :=
  match SMap.get none k.pages i with
  | some x => { k with pages := SMap.set none k.pages i (some { x with refs := x.refs + 1 }) }
  | none => k

/-- Drop a reference to a page; a page that nothing refers to is free. -/
def PartSt.dropPage (k : PartSt) (i : Nat) : PartSt :=
  match SMap.get none k.pages i with
  | some x => { k with pages := SMap.set none k.pages i (if x.refs ≤ 1 then none else some { x with refs := x.refs - 1 }) }
  | none => k

/-- The words of a version's default block. -/
def PartSt.block (k : PartSt) (v : VersionSt) : List Word :=
  (v.pages.map fun i => ((SMap.get none k.pages i).map PageSt.data).getD []).flatten

/-- The version that launches capture: the newest. -/
def GraphSt.current (g : GraphSt) : Option VersionSt := g.versions.getLast?

/-- A version is live: not superseded, or captured by a flight that has not ended (R306). -/
def VersionSt.live (v : VersionSt) : Bool := !v.superseded || v.captured ≠ 0

/-- Live versions of a graph. -/
def GraphSt.liveCount (g : GraphSt) : Nat := g.versions.countP VersionSt.live

/-- A version of a graph has been captured by a flight that has not ended. -/
def State.capturedNow (s : State) (p h : Nat) (v : VersionSt) : Bool :=
  s.flights.any fun e => match e.2 with
    | some f => f.part = p && f.graph = h && f.version = v.num && f.endStatus.isNone
    | none => false

/-- Versions that stay live when a new one supersedes the current one: those that a flight which has not ended has captured (R306). -/
def State.heldCount (s : State) (p h : Nat) (g : GraphSt) : Nat := g.versions.countP (s.capturedNow p h)

/-! ## Patches (R319) -/

/-- Byte offset of the word that a patch entry names. -/
def patchOff (e : BitVec 128) : Nat := bits e.toNat 31 0

/-- A patch entry obeys R319 for a block of `n` bytes. -/
def patchOk (n : Nat) (e : BitVec 128) : Bool := decide (patchOff e % 8 = 0 ∧ patchOff e < n ∧ bits e.toNat 63 40 = 0)

/-- The word that a patch entry leaves. -/
def patchWord (e : BitVec 128) (old : Word) : Word :=
  (List.range 8).foldl (fun w i =>
    if bit e.toNat (32 + i) then putBits w (8 * i + 7) (8 * i) (bits e.toNat (64 + 8 * i + 7) (64 + 8 * i)) else w) old

/-- Apply a patch list in order. -/
def applyPatches (b : List Word) (es : List (BitVec 128)) : List Word :=
  es.foldl (fun b e => b.set (patchOff e / 8) (patchWord e (b.getD (patchOff e / 8) 0))) b

/-- The pages, by place in the block, that a patch list touches. -/
def touched (es : List (BitVec 128)) : List Nat := (es.map fun e => patchOff e / 4096).eraseDups

/-! ## Relocation (R317) -/

/-- Relocation of one slot of a block: the block and the handle it named, or a status. GRAPH and FENCE slots keep their
handle. -/
def State.relocate (s : State) (p : Nat) (e : Word) (b : List Word) : Except Nat (List Word × Option Nat) :=
  let i := slotAt e / 8
  let w := (b.getD i 0).toNat
  let h := w % 2 ^ 32
  let off := if slotWide e then (b.getD (i + 1) 0).toNat else w / 2 ^ 32
  if slotWide e ∧ w / 2 ^ 32 ≠ 0 then .error 0x01
  else if h % 65536 = 0 then .ok (if slotWide e then (b.set i 0).set (i + 1) 0 else b.set i 0, none)
  else
    match s.lookup p h with
    | none => .error 0x03
    | some o =>
      if o.code ≠ slotType e then .error 0x03
      else if !o.isBuf then .ok (b, some h)
      else if o.len ≤ off then .error 0x03
      else if !s.bufInside p o off (o.len - off) then .error 0x05
      else
        let b := b.set i (BitVec.ofNat 64 (o.addr off))
        .ok (if slotWide e then b.set (i + 1) 0 else b, some h)

/-- The status with which a slot fails to relocate; 0 if it does not. -/
def State.slotFault (s : State) (p : Nat) (b : List Word) (e : Word) : Nat :=
  match s.relocate p e b with
  | .error st => st
  | .ok _ => 0

/-- The status that the slots of a block give, in the order of the checks of R327: format, handles, windows; 0 if none fails. -/
def State.slotsFault (s : State) (p : Nat) (es b : List Word) : Nat :=
  let fs := es.map (s.slotFault p b)
  if 1 ∈ fs then 1 else if 3 ∈ fs then 3 else fs.foldl max 0

/-- Relocation of every slot, in list order, where none fails. -/
def State.relocateSlots (s : State) (p : Nat) : List Word → List Word → List Word × List Nat
  | [], b => (b, [])
  | e :: es, b =>
    match s.relocate p e b with
    | .error _ => s.relocateSlots p es b
    | .ok (b, h) => let r := s.relocateSlots p es b
                    (r.1, h.toList ++ r.2)

/-- Relocation of every slot of a captured block. -/
def State.relocateAll (s : State) (p : Nat) (es b : List Word) : Except Nat (List Word × List Nat) :=
  if s.slotsFault p es b = 0 then .ok (s.relocateSlots p es b) else .error (s.slotsFault p es b)

/-! ## Placement commits (R160, R349, R354, R357) -/

/-- The slot table of a placement. -/
def placeTable (c : PlaceCommit) : List Region :=
  c.slots.map fun x => { core := x.core, off := x.off, len := x.len, stage := x.stage, base := x.base, count := x.count,
                         entry := x.entry, lowered := x.lowered }

/-- Regions of two tables on one core overlap. -/
def regionsMeet (a b : Region) : Bool := decide (a.core = b.core ∧ a.off < b.off + b.len ∧ b.off < a.off + a.len)

/-- Program-store ranges of two regions on one core overlap. -/
def programsMeet (a b : Region) : Bool := decide (a.core = b.core ∧ a.base < b.base + b.count ∧ b.base < a.base + a.count)

/-- A flight that has not ended runs an older image of a graph. -/
def State.genRuns (s : State) (p h : Nat) (g : GraphSt) (gen : Nat) : Bool :=
  g.versions.any fun v => decide (v.gen = gen) && s.capturedNow p h v

/-- The regions that a placement of a graph must not meet: the other graphs', until step 4 releases them (R341), and those in which flights
still run its own older images (R305). -/
def State.otherRegions (s : State) (p g : Nat) : List Region :=
  (List.range 16).flatMap fun q => (s.part q).graphs.flatMap fun e =>
    match e.2 with
    | some x =>
      if q = p ∧ e.1 = g then (x.oldGens.filter fun o => s.genRuns p g x o.gen).flatMap OldGen.placed
      else x.placed ++ x.oldGens.flatMap OldGen.placed
    | none => []

/-- A flight of a graph is running or admitted (R354); a launch that is held until the graph is resident, or until its placement has
changed, is not. -/
def State.graphRuns (s : State) (p g : Nat) : Bool :=
  s.flights.any fun e => match e.2 with
    | some f => f.part = p && f.graph = g && f.endStatus.isNone && !(f.heldReload && !f.begun)
    | none => false

/-- A launch of a graph is held (R321, R343, R354). -/
def State.graphHeld (s : State) (p g : Nat) : Bool :=
  s.flights.any fun e => match e.2 with
    | some f => f.part = p && f.graph = g && f.endStatus.isNone && f.heldReload && !f.begun
    | none => false

/-- The image that lowering made for a slot: its words in order (R155). -/
def imageOf (c : PlaceCommit) (r : Region) : List Word :=
  let l := (c.images.filter fun x => x.1 = r.core).flatMap Prod.snd
  (List.range r.count).map fun i => ((l.find? fun y => decide (y.1 = r.base + i)).map Prod.snd).getD 0

/-- The words that a slot's program-store range holds. -/
def State.imageAt (s : State) (r : Region) : List Word := (List.range r.count).map fun i => SMap.get 0 (s.core r.core).prog (r.base + i)

/-- The slots of a table keep to the partition: whole granules of scratchpad and program store of its own cores, one region a core, every
stage on whole galleries (R33, R195, R349). -/
def State.slotsOk (s : State) (p : Nat) (t : List Region) : Bool :=
  t ≠ [] && t.length ≤ 192 && t.all (fun r => decide (r.core < 192 ∧ r.off % 65536 = 0 ∧ r.len % 65536 = 0 ∧ 65536 ≤ r.len ∧
      r.off + r.len ≤ 6291456 ∧ r.base + r.count ≤ 8192 ∧ r.base ≤ r.entry ∧ r.entry < r.base + r.count) && s.coreOf p r.core) &&
  (t.map Region.core).Nodup &&
  t.all fun r => (List.range 8).all fun i => t.any fun o => decide (o.core = 8 * (r.core / 8) + i ∧ o.stage = r.stage)

/-- No other graph holds what a table takes. -/
def State.slotsFree (s : State) (p g : Nat) (t : List Region) : Bool :=
  let others := s.otherRegions p g
  t.all fun r => others.all fun o => !regionsMeet r o && !programsMeet r o

/-- Placement holds a graph's stationary layouts in scratchpad: it has some, each core's scratchpad takes those of its slot with two granules
left for activations, and no STACK_WEIGHTS hint forbids it (R350). -/
def holdsScratch (c : PlaceCommit) (g : GraphSt) : Bool :=
  c.stat.any (fun n => decide (n ≠ 0)) && c.stat.all (fun n => decide (n + 131072 ≤ 6291456)) && !g.hints.stackWeights

/-- A placement holds layouts in scratchpad exactly where R350 has it do so; then every layout that a slot uses lies whole in the slot's
region, and two granules of that are left. -/
def scratchOk (c : PlaceCommit) (g : GraphSt) : Bool :=
  decide (c.stat.length ≤ c.slots.length) && c.scratchHeld == holdsScratch c g &&
  if c.scratchHeld then
    c.slots.zipIdx.all (fun r =>
      let n := c.stat.getD r.2 0
      decide (((c.scratch.filter fun x => decide (x.1 = r.1.core)).map fun x => x.2.2.length).sum = n ∧ n + 131072 ≤ r.1.len)) &&
      c.scratch.all fun x => c.slots.any fun r => decide (r.core = x.1 ∧ r.off ≤ x.2.1 ∧ x.2.1 + x.2.2.length ≤ r.off + r.len)
  else c.scratch.isEmpty

/-- The slots of a graph with extension programs run those, each as its header says: Slots used, Entry, and Scratchpad bytes (R162); the
slots of another run lowered programs. -/
def extPlaced (c : PlaceCommit) (g : GraphSt) : Bool :=
  c.slots.all fun x =>
    if g.exts = [] then x.lowered
    else !x.lowered && match g.exts[x.prog]? with
      | some img => decide (c.slots.length = bits (img.getD 0 0).toNat 31 16 ∧ x.count = extCount img ∧
          x.entry = x.base + (img.getD 2 0).toNat ∧ bits (img.getD 1 0).toNat 31 0 ≤ x.len)
      | none => false

/-- A placement with the words of a graph's extension programs in their slots: they stand as they are (R162). -/
def withExt (c : PlaceCommit) (g : GraphSt) : PlaceCommit :=
  if g.exts = [] then c
  else { c with images := c.slots.map fun x =>
    (x.core, (extInsns (g.exts.getD x.prog [])).zipIdx.map fun y => (x.base + y.2, y.1)) }

/-- The tensors that a placement leaves untracked: each on a core of the staircase, where all 16 tracker entries are in use (R124, R357). -/
def untrackedOk (c : PlaceCommit) : Bool :=
  c.untracked.all fun u => c.slots.any (fun x => decide (x.core = u.1)) && decide (u.2.1 = 16 ∧ u.2.2 < 2 ^ 20)

/-- A placement keeps what flights of the graph run: the slots and their stages, and program words that an image now in use covers
(R354, R160). -/
def State.keepsRunning (s : State) (c : PlaceCommit) (g : GraphSt) (t : List Region) : Bool :=
  !(s.graphRuns c.part c.graph && s.genRuns c.part c.graph g g.gen) ||
    (decide (g.placed.map Region.stage = t.map Region.stage) && t.all fun r => g.placed.all fun o =>
      !programsMeet r o || (decide (r.base = o.base ∧ r.count = o.count) && imageOf c r == s.imageAt o))

/-- PHASE_HINT of a partition, where it states a percentage. -/
def State.phaseHint (s : State) (p : Nat) : Nat :=
  let v := s.fld (sliceBase p + rPrtPlace) 6 0
  if 1 ≤ v ∧ v ≤ 99 then v else 0

/-- The galleries of a partition, ascending. -/
def State.galleriesIn (s : State) (p : Nat) : List Nat := (List.range 24).filter fun g => bit (s.reg (pfBase p + rPrtGalleries)).toNat g

/-- The galleries of a partition, as a mask. -/
def State.galleryMask (s : State) (p : Nat) : Nat := s.fld (pfBase p + rPrtGalleries) 23 0

/-- Lowering is a function of the graph, the placement and the firmware version (R155): what it made before, it makes again. -/
def State.madeOk (s : State) (c : PlaceCommit) (g : GraphSt) (t : List Region) : Bool :=
  s.made.all fun m => !(m.table == t && decide (m.prefill = c.prefill) && m.held == c.scratchHeld && decide (m.firmware = g.firmware) &&
    decide (m.graph = g.digest)) || m.images == t.map (imageOf c)

/-- In deterministic mode placement is a function of its four inputs (R355): what it decided before, it decides again. -/
def State.decidedOk (s : State) (c : PlaceCommit) (g : GraphSt) (t : List Region) : Bool :=
  !s.det || s.decided.all fun m => !(decide (m.galleries = s.galleryMask c.part ∧ m.phase = s.phaseHint c.part ∧ m.hints = g.hints ∧
      m.firmware = g.firmware) && decide (m.graph = g.digest)) ||
    decide (m.table = t ∧ m.prefill = c.prefill ∧ m.held = c.scratchHeld ∧ m.untracked = c.untracked)

/-- The galleries in the prefill role are the partition's own (R349). -/
def State.rolesOk (s : State) (c : PlaceCommit) : Bool :=
  (List.range 24).all fun i => !bit c.prefill i || bit (s.galleryMask c.part) i

/-- What a placement decides keeps to the rules of its own: slots, layouts, extension programs, untracked tensors and roles (R124, R162, R349,
R350). -/
def State.placeForm (s : State) (c : PlaceCommit) (g : GraphSt) : Bool :=
  s.slotsOk c.part (placeTable c) && scratchOk c g && extPlaced c g && untrackedOk c && s.rolesOk c

/-- In deterministic mode the phase roles, which every placement record of the partition lists, change only while none of its graphs has a
flight (R354, R355). -/
def State.rolesFrozen (s : State) (c : PlaceCommit) : Bool :=
  s.det && decide (c.prefill ≠ (s.part c.part).prefill) && (s.part c.part).graphs.any fun e => s.graphRuns c.part e.1

/-- A placement may be made (R33, R155, R349, R350, R354, R355). -/
def State.placeOk (s : State) (c : PlaceCommit) (g : GraphSt) : Bool :=
  let t := placeTable c
  s.placeForm c g && s.slotsFree c.part c.graph t && s.keepsRunning c g t && s.madeOk c g t && s.decidedOk c g t && !s.rolesFrozen c

/-- Write the images of a placement into program stores (R156, R160): each slot's own range and nothing else. -/
def State.writeImages (s : State) (c : PlaceCommit) : State :=
  (placeTable c).foldl (fun s r =>
    let k := s.core r.core
    s.setCore r.core { k with prog := (imageOf c r).zipIdx.foldl (fun m y => SMap.set 0 m (r.base + y.2) y.1) k.prog }) s

/-- Write a placement's scratchpad-held layouts (R350). -/
def State.writeScratch (s : State) (l : List (Nat × Nat × List Byte)) : State :=
  l.foldl (fun s x => s.setCore x.1 ((s.core x.1).scrWrite x.2.1 x.2.2)) s

/-- The stacks of a partition's stack set (R335), ascending. -/
def State.stackSet (s : State) (p : Nat) : List Nat :=
  (List.range 16).filter fun t => bits (s.reg (pfBase p + rPrtGalleries)).toNat (6 * (t / 4) + 5) (6 * (t / 4)) ≠ 0

/-- The digest of a core's image (R155): its words in order. -/
def State.imageDigest (s : State) (r : Region) : BitVec 512 :=
  Config.shake256 ((s.imageAt r).map fun w => leBytes 8 w.toNat).flatten

/-- The hints that a placement does not follow (R357), by the model's own numbers (log entry 108). -/
def State.declined (s : State) (c : PlaceCommit) (g : GraphSt) : List Nat :=
  let gs := (g.placed.map fun r => r.core / 8).eraseDups
  let n := (s.galleriesIn c.part).length
  let pre := (List.range 24).countP fun i => bit c.prefill i
  let aim := s.phaseHint c.part * n
  (if g.hints.stackWeights && g.scratchHeld then [0] else []) ++
    (if g.hints.galleryCount.any fun k => decide (k ≠ gs.length) then [1] else []) ++
    (if g.hints.sameHall && decide (1 < (gs.map (· / 6)).eraseDups.length) then [2] else []) ++
    if aim ≠ 0 ∧ (100 * pre + 100 ≤ aim ∨ aim + 100 ≤ 100 * pre) then [3] else []

/-- A 96-byte entry of a placement record. -/
def placeEntry (kind role a b stage w8 n : Nat) (d : BitVec 512) : List Byte :=
  leBytes 1 kind ++ leBytes 1 role ++ leBytes 2 a ++ leBytes 2 b ++ leBytes 2 stage ++ leBytes 8 w8 ++ leBytes 4 n ++
    leBytes 12 0 ++ digestBytes d

/-- The entries of a placement record (R357): an eviction has none. An UNTRACKED entry has four bits for its 16 tracker entries in use: they
hold 0 (log entry 156). -/
def State.placeEntries (s : State) (c : PlaceCommit) (g : GraphSt) : List (List Byte) :=
  if c.reason = 7 then []
  else
    (g.placed.zipIdx.map fun x =>
      placeEntry 1 (if bit c.prefill (x.1.core / 8) then 1 else 0) x.2 x.1.core x.1.stage (x.1.off + x.1.len * 2 ^ 32) x.1.count
        (s.imageDigest x.1)) ++
    ((s.stackSet c.part).map fun t => placeEntry 2 0 t 0 0 (65536 * g.weights.countP fun f => decide (f.1 = t)) 0 0) ++
    (c.untracked.map fun u => placeEntry 3 0 u.1 (u.2.1 % 16) 0 (u.2.2 % 2 ^ 20) 0 0) ++
    (s.declined c g).map fun h => placeEntry 4 0 (Config.hintCode h) 0 0 0 0 0

/-- The placement record of a commit (R357). -/
def State.placeRecord (s : State) (c : PlaceCommit) (g : GraphSt) (seq : Nat) : List Byte :=
  let es := s.placeEntries c g
  let flags := (if s.det then 1 else 0) + (if g.scratchHeld then 2 else 0) +
    4 * ((List.range 24).countP fun i => bit c.prefill i)
  leBytes 4 (128 + 96 * es.length) ++ leBytes 2 es.length ++ leBytes 1 c.part ++ leBytes 1 c.reason ++
    leBytes 8 s.tickNo.toNat ++ leBytes 4 c.graph ++ leBytes 4 ((g.current.map VersionSt.num).getD 0) ++ leBytes 4 seq ++
    leBytes 4 flags ++ leBytes 4 g.placed.length ++ leBytes 4 g.firmware.toNat ++ leBytes 24 0 ++ digestBytes g.digest ++
    es.flatten

/-- Where a record of n bytes goes in a partition's placement ring: its byte offset and the bytes that it takes with the pad
before the ring's end; none where it does not fit (R357, R480). -/
def State.placeRoom (s : State) (p n : Nat) : Option (Nat × Nat) :=
  let size := 2 ^ s.fld (sliceBase p + rPartPlaceCfg) 4 0
  let k := s.part p
  let pos := k.placeTail % size
  let pad := if size < pos + n then size - pos else 0
  if size < (k.placeTail - k.placeHead) + pad + n then none else some ((pos + pad) % size, pad)

/-- Write a placement record, PLACE_SEQ rising by 1; none where the ring has no room. -/
def State.issuePlace (s : State) (c : PlaceCommit) (g : GraphSt) : Option State :=
  let seq := (s.fld (sliceBase c.part + rPrtPlace) 63 32 + 1) % 2 ^ 32
  let r := s.placeRecord c g seq
  match s.placeRoom c.part r.length with
  | none => none
  | some (pos, pad) =>
    let base := s.fld (sliceBase c.part + rPartPlaceBase) 63 12 * 4096
    let k := s.part c.part
    let s := if pad = 0 then s
      else s.hostPart c.part (base + k.placeTail % 2 ^ s.fld (sliceBase c.part + rPartPlaceCfg) 4 0) (leBytes 4 0xFFFFFFFF)
    let s := s.hostPart c.part (base + pos) r
    let s := s.setPart c.part { s.part c.part with placeTail := k.placeTail + pad + r.length }
    some (s.setFld (sliceBase c.part + rPrtPlace) 63 32 seq)

/-- Insert a flight number into a core's queue of flights, which is in launch order (R157). -/
def insertFlight (n : Nat) : List Nat → List Nat
  | [] => [n]
  | m :: t => if n < m then n :: m :: t else if n = m then m :: t else m :: insertFlight n t

/-- A flight sees a changed slot table of a graph: it runs the graph's present image, and has not begun or runs outside deterministic mode
(R160, R305, R353, R355). -/
def State.sees (s : State) (p g : Nat) (f : FlightSt) : Bool :=
  f.part = p && f.graph = g && f.endStatus.isNone && (!f.det || !f.begun) &&
    (match s.graph p g with
     | some x => x.versions.any fun v => decide (v.num = f.version ∧ v.gen = x.gen)
     | none => false)

/-- A flight with a changed slot table: the cores on which it has ended are noted by the slots' places now (R177). -/
def FlightSt.moved (f : FlightSt) (t : List Region) : FlightSt :=
  { f with slots := t, ended := f.ended.map fun c => match f.slots.findIdx? fun r => decide (r.core = c) with
      | some i => (t.getD i noRegion).core
      | none => c }

/-- Show a changed slot table to the flights of a graph. Where a flight has yet to enter a slot's core, it waits on the core that the slot
names now. -/
def State.showTable (s : State) (p g : Nat) (old t : List Region) : State :=
  let ns := s.flights.filterMap fun e => match e.2 with
    | some f => if s.sees p g f then some e.1 else none
    | none => none
  let s := ns.foldl (fun s n => s.setFlight n ((s.flight n).map fun f => f.moved t)) s
  let moved := (old.zip t).filter fun x => !decide (x.1.core = x.2.core)
  let stays := moved.map fun x => (x.2.core, ns.filter fun n => (s.core x.1.core).waiting.contains n)
  let s := moved.foldl (fun s x => let k := s.core x.1.core
                                   s.setCore x.1.core { k with waiting := k.waiting.filter fun n => !ns.contains n }) s
  stays.foldl (fun s x => let k := s.core x.1
                          s.setCore x.1 { k with waiting := x.2.foldl (fun l n => insertFlight n l) k.waiting }) s

/-- A flight waits for the cores of a slot table and for no others. -/
def State.requeue (s : State) (n : Nat) (t : List Region) : State :=
  let s := { s with cores := SMap.mapV {} (fun _ k => { k with waiting := k.waiting.filter fun m => !decide (m = n) }) s.cores }
  t.foldl (fun s r => let k := s.core r.core
                      s.setCore r.core { k with waiting := insertFlight n k.waiting }) s

/-- The held flights of a graph begin at the next open, with its slot table (R321, R343, R354). -/
def State.releaseHeld (s : State) (p g : Nat) (t : List Region) : State :=
  let ns := s.flights.filterMap fun e => match e.2 with
    | some f => if f.part = p ∧ f.graph = g ∧ f.heldReload ∧ f.endStatus.isNone then some e.1 else none
    | none => none
  ns.foldl (fun s n => match s.flight n with
    | some f => (s.setFlight n (some { f with heldReload := false, fromTick := s.tickNo.toNat + 1, slots := t })).requeue n t
    | none => s) s

/-- At least n ticks have passed since the last change that counts, if there was one (R353). -/
def spaced (last : Option Nat) (n now : Nat) : Bool :=
  match last with
  | some k => decide (k + n ≤ now)
  | none => true

/-- The phase roles that a placement leaves: those that it asks for, where the split may change now; else those in force (R353). In
deterministic mode they are the placement's own, whatever has changed when (R355). -/
def State.roles (s : State) (c : PlaceCommit) : Nat :=
  let k := s.part c.part
  if s.det || (s.rolesOk c && spaced k.lastSplit 256 s.tickNo.toNat) then c.prefill else k.prefill

/-- The phase roles in force; a change of them is a change of the phase split (R353). -/
def State.setRoles (s : State) (p m : Nat) : State :=
  let k := s.part p
  if k.prefill = m then s else s.setPart p { k with prefill := m, lastSplit := some s.tickNo.toNat }

/-- What lowering made and placement decided is kept (R155, R355). -/
def State.keepMade (s : State) (c : PlaceCommit) (g : GraphSt) : State :=
  let t := placeTable c
  let m : Made := { graph := g.digest, firmware := g.firmware, table := t, prefill := c.prefill, held := c.scratchHeld,
                    images := t.map (imageOf c) }
  let d : Decided := { graph := g.digest, firmware := g.firmware, galleries := s.galleryMask c.part, hints := g.hints,
                       phase := s.phaseHint c.part, table := t, prefill := c.prefill, held := c.scratchHeld, untracked := c.untracked }
  { s with made := s.made ++ [m], decided := if s.det then s.decided ++ [d] else s.decided }

/-- Commit a placement of a graph (R160, R349, R353, R357): slot table, images, phase roles and record. None where it may not
be made or its record does not fit. -/
def State.commitPlace (s : State) (c : PlaceCommit) (g : GraphSt) : Option State :=
  let c := { withExt c g with prefill := s.roles c }
  if !s.placeOk c g then none
  else
    let s := ((s.keepMade c g).writeImages c).writeScratch c.scratch
    let t := placeTable c
    let g' : GraphSt := { g with
      placed := t, placedAs := some c, scratchHeld := c.scratchHeld, scratch := c.scratch, resident := true, moving := none,
      galleries := s.galleryMask c.part,
      lastMove := if (c.reason = 3 ∨ c.reason = 4) ∧ g.placed ≠ t then some s.tickNo.toNat else g.lastMove }
    match s.issuePlace c g' with
    | none => none
    | some s =>
      let s := (s.setGraph c.part c.graph (some g')).showTable c.part c.graph g.placed t
      some ((s.setRoles c.part c.prefill).releaseHeld c.part c.graph t)

/-! ## WEIGHTS frames (R247, R341) -/

/-- The frames that a stored graph holds: its weights, those of images that live versions still run, and its batch table's. -/
def GraphSt.frames (g : GraphSt) : List (Nat × Nat) := g.weights ++ g.oldGens.flatMap OldGen.weights ++ g.batchAt

/-- Frames may be taken for a partition: FREE, of its stack set, within GEN_FRAMES in each stack (R335, R337). -/
def State.framesFree (s : State) (fs : List (Nat × Nat)) (p limit : Nat) (use : FrameUse) : Bool :=
  fs.Nodup && fs.all (fun f => f.1 ∈ s.stackSet p && s.frameFree f.1 f.2) &&
  (s.stackSet p).all fun t =>
    let held := (s.stk t).frames.countP fun e => (e.2.st = .allocated || e.2.st = .zeroing) && e.2.part = p &&
      (if use = .kv then e.2.use = .kv else e.2.use ≠ .kv)
    decide (held + fs.countP (fun f => decide (f.1 = t)) ≤ limit)

/-- Allocate frames to a partition, every byte 0 (R247, R275). -/
def State.takeFrames (s : State) (fs : List (Nat × Nat)) (p : Nat) (use : FrameUse) : State :=
  fs.foldl (fun s f => (s.setFrame f.1 f.2 { st := .allocated, use := use, part := p, refs := 1 }).setMem
    (zeroRange s.mem (frameAddr f.1 f.2) 65536)) s

/-- Release frames: each becomes ZEROING in step 4 of this boundary (R248). -/
def State.releaseFrames (s : State) (fs : List (Nat × Nat)) : State :=
  fs.foldl (fun s f => s.setFrame f.1 f.2 { s.frame f.1 f.2 with released := true, refs := 0 }) s

/-- Background operations are no more: what staging frames they had is released (R297, R371). -/
def State.dropBgs (s : State) (gone : BgOp → Bool) : State :=
  { s.releaseFrames ((s.bg.filter gone).flatMap BgOp.staging) with bg := s.bg.filter fun b => !gone b }

/-- Write over frames what each of them takes: its lines come from outside its stack (R251, R255). -/
def State.fillShards (s : State) (p : Nat) (fs : List (Nat × Nat)) (data : List (List Byte)) : State :=
  (fs.zip data).foldl (fun s x => s.putStack (frameAddr x.1.1 x.1.2) x.2 (some p)) s

/-! ## Weight shards (R341, R349) -/

/-- The stack that a weight tile goes to, of a stack set, given the bytes placed in each stack so far: in the hall whose galleries read it
most, then the hall with fewer bytes, then the lowest; there in the stack with the fewest. -/
def tileStack (set : List Nat) (placed : SMap Nat) (t : WeightTile) : Nat :=
  let reads (h : Nat) : Nat := ((t.reads.drop (6 * h)).take 6).sum
  let bytes (h : Nat) : Nat := ((List.range 4).map fun i => SMap.get 0 placed (4 * h + i)).sum
  let hall := ((sortBy (fun h => (t.reads.sum - reads h, bytes h)) ((set.map (· / 4)).eraseDups)).head?).getD 0
  ((sortBy (fun st => (SMap.get 0 placed st, 0)) (set.filter fun st => decide (st / 4 = hall))).head?).getD 0

/-- The stacks of weight tiles, in the order in which placement takes them. -/
def tileStacks (set : List Nat) : SMap Nat → List WeightTile → List Nat
  | _, [] => []
  | placed, t :: ts =>
    let st := tileStack set placed t
    st :: tileStacks set (SMap.upd 0 placed st (· + t.src.length)) ts

/-- What a stack takes of the bound contents: its tiles, one after another. -/
def shardOf (bound : List Byte) (tiles : List WeightTile) (sts : List Nat) (st : Nat) : List Byte :=
  ((tiles.zip sts).filter fun x => decide (x.2 = st)).flatMap fun x => x.1.src.map fun i => bound.getD i 0

/-- What each of a graph's WEIGHTS frames takes: the shard of its stack, in the order in which the frames are given. -/
def shardBlocks (bound : List Byte) (tiles : List WeightTile) (sts : List Nat) (fs : List (Nat × Nat)) : List (List Byte) :=
  fs.zipIdx.map fun x =>
    ((shardOf bound tiles sts x.1.1).drop (65536 * (fs.take x.2).countP fun f => decide (f.1 = x.1.1))).take 65536

/-- Weight tiles hold every byte of the bound contents once, and the WEIGHTS frames are as many in each stack as its shard takes. -/
def shardsOk (bound : List Byte) (tiles : List WeightTile) (sts : List Nat) (fs : List (Nat × Nat)) : Bool :=
  let src := tiles.flatMap WeightTile.src
  decide (src.length = bound.length ∧ src.Nodup) && src.all (fun i => decide (i < bound.length)) &&
    (List.range 16).all fun st =>
      decide (fs.countP (fun f => decide (f.1 = st)) = ((shardOf bound tiles sts st).length + 65535) / 65536)

end Sys2Proof.Machine
end

