-- ==== Sys2Proof/Machine/Admission.lean ====
section
/-! DEFINITION. Admission of submission descriptors (R312, R314, R324, R327 to R329): waits, the checks in their order, and
what an admitted descriptor begins. -/

namespace Sys2Proof.Machine

/-! ## Check 1: the descriptor's own format (R313, R314, R319) -/

/-- An opcode of the Opcodes table (R314). -/
def subOpKnown (op : Nat) : Bool := op ≤ 0x0B || op = 0x10 || op = 0x11

/-- ARG holds nothing outside the bits that the opcode uses. -/
def argOk (d : BitVec 512) : Bool :=
  let a := sArg d
  match sOp d with
  | 0x00 => a ≤ 1
  | 0x01 | 0x02 | 0x03 | 0x04 | 0x08 => a = 0
  | 0x0B => a < 16384
  | 0x10 | 0x11 =>
    bits a 7 3 = 0 && bits a 15 12 = 0 && bits a 63 32 = 0 &&
      (!bit a 2 || (bit a 1 && (sOp d = 0x11 || !bit a 0))) && (bit a 2 || bits a 31 16 = 0) && (bit a 1 || bits a 11 8 = 0)
  | _ => true

/-- CLEAR_FAULT (R314). -/
def clearFault (d : BitVec 512) : Bool := sOp d = 0 && bit (sArg d) 0

/-- Fields that the opcode and flags do not use are 0 (R313, R314). -/
def unusedOk (d : BitVec 512) : Bool :=
  let op := sOp d
  (op = 0x01 || sCtx d = 0) && (op ∈ [0x01, 0x02, 0x03, 0x04, 0x05, 0x08] || sA d = 0) &&
  (op ∈ [0x01, 0x02, 0x05, 0x0A] || sB d = 0) && (op ∈ [0x01, 0x02, 0x05] || sLenB d = 0) &&
  (op ∈ [0x01, 0x02, 0x04, 0x05, 0x07] || sWide d = 0) &&
  (sWait d || (sWaitFence d = 0 && sWaitValue d = 0)) && (sSignal d || clearFault d || sSigFence d = 0) &&
  (sSignal d || op = 0x09 || sSigValue d = 0) &&
  (op ≠ 0x01 || ((sB d ≠ 0 || sLenB d = 0) && (sC d ≠ 0 || sCountC d = 0)))

/-- The patch entries that a descriptor carries. -/
def patchesOf (ds : DescSt) : List (BitVec 128) := ds.aux.patches.take (sCountC ds.d)

/-- The first bad entry of a patch list for a block of n bytes. -/
def badPatch (n : Nat) (es : List (BitVec 128)) : Option Nat := es.findIdx? fun e => !patchOk n e

/-- Bits of the stream record (R270). -/
def rfld (r : BitVec 1024) (o hi lo : Nat) : Nat := bits r.toNat (8 * o + hi) (8 * o + lo)

/-- The stream record's own format (R271): reserved bits, INV_TEMP and TOP_P. -/
def streamFormatOk (r : BitVec 1024) : Bool :=
  let t := ofF32 (BitVec.ofNat 32 (rfld r 0x30 31 0))
  let p := ofF32 (BitVec.ofNat 32 (rfld r 0x34 31 0))
  let fin : Bool := match t with
    | .fin neg m _ => !neg || m = 0
    | _ => false
  let prob : Bool := match p with
    | .fin neg m _ => !neg && m ≠ 0 && p.numLe (.fin false 1 0)
    | _ => false
  rfld r 0x38 7 7 = 0 && rfld r 0x39 7 5 = 0 && rfld r 0x3A 7 3 = 0 && rfld r 0x3B 7 0 = 0 && rfld r 0x64 223 0 = 0 &&
    fin && prob

/-- Check 1 (R327): none, or the DETAIL of a malformed descriptor, list or record. -/
def State.formatFault (s : State) (q : Nat) (ds : DescSt) : Option Nat :=
  let d := ds.d
  if !subOpKnown (sOp d) || dfld d 0 15 11 ≠ 0 || !unusedOk d || !argOk d then some 1
  else if sOp d = 0x0A ∧ !streamFormatOk ds.aux.record then some 1
  else if sOp d = 0x01 ∨ sOp d = 0x04 then
    let n := match queuePart q with
      | some p => if s.isType p (sA d) 3 then ((s.graph p (sA d)).map GraphSt.params).getD (2 ^ 32) else 2 ^ 32
      | none => 2 ^ 32
    if 4096 < sCountC d then none else badPatch n (patchesOf ds)
  else none

/-! ## Checks 2 to 9 -/

/-- Check 2: the opcode and its flags are allowed on the queue (R314). -/
def queueOk (q : Nat) (d : BitVec 512) : Bool :=
  if q = 1024 then (sOp d = 0 || sOp d = 0x10 || sOp d = 0x11) && !sWait d && !sSignal d
  else sOp d ≠ 0x10 && sOp d ≠ 0x11

/-- A handle names a buffer, or is null where that is allowed. -/
def State.bufOk (s : State) (p h : Nat) (mayNull : Bool) : Bool :=
  if h % 65536 = 0 then mayNull && h = 0
  else match s.lookup p h with
    | some o => o.isBuf
    | none => false

/-- The graph that a STREAM_OPEN's record names. -/
def streamGraph (ds : DescSt) : Nat := rfld ds.aux.record 0x60 31 0

/-- Check 3: every handle and the context handle. -/
def State.handlesOk (s : State) (p : Nat) (ds : DescSt) : Bool :=
  let d := ds.d
  (!sWait d || s.isType p (sWaitFence d) 4) && (!(sSignal d || clearFault d) || s.isType p (sSigFence d) 4) &&
  (match sOp d with
   | 0x01 => (s.ctx p (sCtx d)).isSome && s.isType p (sA d) 3 && ((s.graph p (sA d)).bind GraphSt.current).isSome &&
       s.bufOk p (sB d) true && s.bufOk p (sC d) (sCountC d = 0)
   | 0x02 => (sA d = 0 || s.isType p (sA d) 3) && s.isType p (sB d) 1 && s.bufOk p (sC d) (sCountC d = 0)
   | 0x03 => s.isType p (sA d) 3
   | 0x04 => s.isType p (sA d) 3 && ((s.graph p (sA d)).bind GraphSt.current).isSome && s.bufOk p (sC d) false
   | 0x05 => s.bufOk p (sA d) false && s.bufOk p (sB d) false
   | 0x08 => (s.lookup p (sA d)).isSome
   | 0x0A => s.isType p (sB d) 1 && s.isType p (streamGraph ds) 3
   | _ => true)

/-- Length of the buffer that a handle names. -/
def State.bufLen (s : State) (p h : Nat) : Nat := ((s.lookup p h).map HObj.len).getD 0

/-- Frames that a stream could hold at most (R329). -/
def streamNeed (g : KvGeom) (promptLen maxNew : Nat) : Nat :=
  let n := g.entries (min (promptLen + maxNew - 1) 262143)
  n + (4 * n + 65535) / 65536

/-- Check 4: lengths and counts within the Limits table (R328, R329). A patch list of more than 4,096 entries breaks R319, which has it refused as
malformed, and the Limits table, which has it refused for its size: the model answers REJECT_SIZE (DESIGN CHOICE, log entry 158). -/
def State.sizesOk (s : State) (p : Nat) (ds : DescSt) : Bool :=
  let d := ds.d
  match sOp d with
  | 0x01 => sCountC d ≤ 4096 && (sB d = 0 || (decide (8 ≤ sLenB d ∧ sLenB d ≤ 1048576) &&
      sLenB d = ((s.graph p (sA d)).map GraphSt.params).getD 0))
  | 0x02 => decide (64 ≤ sLenB d ∧ sLenB d ≤ 268435456 ∧ sCountC d ≤ 4096)
  | 0x04 => sCountC d ≤ 4096
  | 0x05 => decide (sLenB d % 64 = 0 ∧ 64 ≤ sLenB d ∧ sLenB d ≤ 268435456 ∧ sWide d + sLenB d ≤ s.bufLen p (sA d) ∧
      sArg d + sLenB d ≤ s.bufLen p (sB d))
  | 0x06 => decide (1 ≤ bits (sArg d) 59 0 ∧ bits (sArg d) 59 0 ≤ 68719476736)
  | 0x07 => decide (4096 ≤ sWide d ∧ sWide d ≤ 2 ^ 40 ∧ sWide d % 4096 = 0)
  | 0x0A =>
    let r := ds.aux.record
    decide (1 ≤ rfld r 0x28 31 0 ∧ rfld r 0x28 31 0 ≤ 262143 ∧ 1 ≤ rfld r 0x2C 31 0 ∧ rfld r 0x2C 31 0 ≤ 262144) &&
    decide (1 ≤ rfld r 0x38 6 0 ∧ rfld r 0x38 6 0 ≤ 64 ∧ 6 ≤ rfld r 0x39 4 0 ∧ rfld r 0x39 4 0 ≤ 16) &&
    (match (s.graph p (streamGraph ds)).bind GraphSt.geom with
     | some g => decide (streamNeed g (rfld r 0x28 31 0) (rfld r 0x2C 31 0) ≤ s.fld (pfBase p + rPrtKvFrames) 20 0)
     | none => true)
  | _ => true

/-- `n` bytes of the buffer that a handle names, from an offset, lie in the buffer and in the partition's windows now. -/
def State.handleInside (s : State) (p h off n : Nat) : Bool :=
  if h = 0 then true
  else match s.lookup p h with
    | some o => off + n ≤ o.len && s.bufInside p o off n
    | none => false

/-- Check 5: every range inside the partition's windows and buffers. -/
def State.windowsOk (s : State) (p : Nat) (ds : DescSt) : Bool :=
  let d := ds.d
  match sOp d with
  | 0x01 => s.handleInside p (sB d) 0 (sLenB d) && s.handleInside p (sC d) 0 (16 * sCountC d)
  | 0x02 => s.handleInside p (sB d) 0 (sLenB d) && s.handleInside p (sC d) 0 (4 * sCountC d)
  | 0x04 => s.handleInside p (sC d) 0 (16 * sCountC d)
  | 0x05 => s.handleInside p (sA d) (sWide d) (sLenB d) && s.handleInside p (sB d) (sArg d) (sLenB d)
  | 0x07 => sArg d % 4096 = 0 && s.hostWindow p (sArg d) (sWide d)
  | 0x09 => s.hostWindow p (sArg d) 16
  | 0x0A =>
    let r := ds.aux.record
    s.handleInside p (sB d) (sArg d) 128 && rfld r 0x08 11 0 = 0 && s.hostWindow p (rfld r 0x08 63 0) (16 * 2 ^ rfld r 0x39 4 0) &&
      rfld r 0x10 2 0 = 0 && s.hostWindow p (rfld r 0x10 63 0) 8 && rfld r 0x18 2 0 = 0 && s.hostWindow p (rfld r 0x18 63 0) 8 &&
      s.hostWindow p (rfld r 0x20 63 0) (4 * rfld r 0x28 31 0)
  | _ => true

/-- Check 6: deterministic mode (R119, R271). -/
def State.detOk (s : State) (p : Nat) (ds : DescSt) : Bool :=
  !s.det ||
  (match sOp ds.d with
   | 0x01 => !((s.graph p (sA ds.d)).map GraphSt.sr).getD false || ((s.ctx p (sCtx ds.d)).map CtxSt.seedGiven).getD false
   | 0x0A => rfld ds.aux.record 0x30 30 0 = 0 || rfld ds.aux.record 0x3A 0 0 = 1
   | _ => true)

/-- Open streams of a partition, and those that a stack homes (R271, R340). -/
def State.openStreams (s : State) (p : Nat) : Nat := s.streams.countP fun e => e.2.st ≠ .free && e.2.part = p
/-- Streams of a partition that a stack homes. -/
def State.homed (s : State) (p st : Nat) : Nat := s.slotsHeld st p
/-- SEQ_SLOTS. -/
def State.seqSlots (s : State) (p : Nat) : Nat := s.fld (pfBase p + rPrtQuota) 30 16
/-- SAE_SLOTS. -/
def State.saeSlots (s : State) (p : Nat) : Nat := s.fld (pfBase p + rPrtQuota) 42 32

/-- Check 8, as far as admission can tell: versions of a graph and slots of a stream (R306, R271). -/
def State.capacityOk (s : State) (p : Nat) (ds : DescSt) : Bool :=
  match sOp ds.d with
  | 0x02 | 0x04 => ((s.graph p (sA ds.d)).map (s.heldCount p (sA ds.d))).getD 0 < 16
  | 0x0A => s.openStreams p < s.seqSlots p && (s.stackSet p).any fun t => s.homed p t < s.saeSlots p
  | _ => true

/-- Source and destination of a COPY on one buffer overlap (check 9). -/
def copyMeets (d : BitVec 512) : Bool :=
  sOp d = 0x05 && sA d = sB d && overlap (sWide d, sWide d + sLenB d) (sArg d, sArg d + sLenB d)

/-- The checks of R327 in order: status and DETAIL of the first that fails (log entry 21), or OK. What a LAUNCH's relocation finds (checks 3 and
5) is found in step 2, on the block that it captures then: a LAUNCH that fails check 6, 7 or 8 here too has that status (DESIGN CHOICE, log
entry 159). A block or list whose line in device memory failed as it was read gives its status after them (log entry 157). -/
def State.check (s : State) (q : Nat) (ds : DescSt) : Nat × Nat :=
  match s.formatFault q ds with
  | some i => (0x01, i)
  | none =>
    if !queueOk q ds.d then (0x02, 2)
    else
      match queuePart q with
      | none => if clearFault ds.d then (0x03, 3) else (0, 0)
      | some p =>
        if !s.handlesOk p ds then (0x03, 3)
        else if sOp ds.d = 0x0A ∧ ((s.graph p (streamGraph ds)).bind GraphSt.geom).isNone then (0x01, 3)
        else if !s.sizesOk p ds then (0x04, 4)
        else if !s.windowsOk p ds then (0x05, 5)
        else if !s.detOk p ds then (0x06, 6)
        else if sOp ds.d = 0x01 ∧ ((s.graph p (sA ds.d)).map GraphSt.ring).getD false then (0x07, 7)
        else if !s.capacityOk p ds then (0x08, 8)
        else if copyMeets ds.d then (0x0A, 9)
        else (ds.err, 0)

/-! ## Waiting (R324) -/

/-- The fence that a descriptor waits on. -/
def State.waitFence (s : State) (p : Nat) (d : BitVec 512) : Option FenceSt :=
  if sWait d ∧ s.isType p (sWaitFence d) 4 then SMap.get none (s.part p).fences (sWaitFence d) else none

/-- A queue's head waits: its fence is short of WAIT_VALUE (R324), or its context is stopped or being torn down (R73, R370). -/
def State.headWaits (s : State) (q : Nat) (ds : DescSt) : Bool :=
  match queuePart q with
  | none => false
  | some p =>
    (match s.waitFence p ds.d with
     | some f => decide (f.value.toNat < sWaitValue ds.d)
     | none => false) ||
    (match s.ctx p (sCtx ds.d) with
     | some x => (sOp ds.d = 0x01 || sOp ds.d = 0x0A) && (x.stopped || x.tear ≠ .none)
     | none => false)

/-- The fence waited on is faulted (R324). -/
def State.depFaulted (s : State) (q : Nat) (ds : DescSt) : Bool :=
  match (queuePart q).bind fun p => s.waitFence p ds.d with
  | some f => f.fault
  | none => false

/-! ## What an admitted descriptor begins -/

/-- Cancel a stream that the partition has open (R290, R314): whether there is one. R314 does not say whether a stream that has ended, and whose
slot is not yet released, is open: here it is not (DESIGN CHOICE, log entry 160). -/
def State.cancelStream (s : State) (p i : Nat) : State × Bool :=
  let t := s.stream i
  if t.st ≠ .free ∧ t.st ≠ .ended ∧ t.part = p then (s.setStream i { t with cancel := true }, true) else (s, false)

/-- UNLOAD_GRAPH, or FREE of a graph: the handle is stale and its streams end at the next step 4 (R321, R322). -/
def State.unload (s : State) (p h : Nat) : State :=
  match s.graph p h with
  | some g => (s.setGraph p h (some { g with unloading := true })).freeHandle p h
  | none => s.freeHandle p h

/-- The status with which a control-queue STOP or RESUME is answered at once; none if it waits for a boundary (R70, R314). -/
def State.control (s : State) (q : Nat) (ds : DescSt) : State :=
  let a := sArg ds.d
  let p : PartId := ⟨bits a 11 8, by unfold bits; exact Nat.mod_lt _ (by decide)⟩
  let scope : StopScope := if bit a 2 then .context p (BitVec.ofNat 16 (bits a 31 16)) else if bit a 1 then .part p else .module
  let c := complOf q ds 0 0 0
  let r := if sOp ds.d = 0x10 then s.stopRequest (bit a 0) scope .descriptor (some c)
    else s.resumeRequest scope .descriptor (some c)
  match r.2 with
  | some st => r.1.complete q ds st
  | none => r.1

/-- An admitted descriptor that passed its checks: its effect, or its place among those whose effect is due in a later step
of the boundary (R314). -/
def State.accept (s : State) (q : Nat) (ds : DescSt) : State :=
  let d := ds.d
  match queuePart q, sOp d with
  | none, 0x00 => s.complete q ds 0
  | none, _ => s.control q ds
  | some p, op =>
    match op with
    | 0x00 => s.complete q ds 0
    | 0x02 => s.startBg (.load p (sA d) (sA d ≠ 0) ds q)
    | 0x03 => (s.unload p (sA d)).complete q ds 0
    | 0x08 => (if s.isType p (sA d) 3 then s.unload p (sA d) else s.freeHandle p (sA d)).complete q ds 0
    | 0x0B =>
      let r := s.cancelStream p (sArg d)
      r.1.complete q ds 0 0 (if r.2 then 0 else 1)
    | _ => { s with admitted := s.admitted ++ [(q, ds)] }

/-- Admission of one descriptor (R312, R324, R327). -/
def State.admitDesc (s : State) (q : Nat) (ds : DescSt) : State :=
  let k := s.queue q
  let s := s.setQueue q { k with admitted := k.admitted + 1 }
  if s.depFaulted q ds then s.complete q ds 0x11
  else
    let r := s.check q ds
    if r.1 ≠ 0 then s.complete q ds r.1 0 r.2 else s.accept q ds

end Sys2Proof.Machine
end

