-- ==== Sys2Proof/Machine/Submission.lean ====
section
/-! DEFINITION. What admitted descriptors do: captures and patches (R305, R306, R318 to R320), loads and reloads (R307, R341,
R343), buffers and fences (R316, R323, R352), the opening of a stream (R271, R293, R351), and the fetching of descriptors
(R310, R311). -/

namespace Sys2Proof.Machine

/-! ## Patches and captures of step 2 -/

/-- The words of bytes, eight at a time. -/
def wordsOf (n : Nat) (bs : List Byte) : List Word :=
  (List.range n).map fun i => BitVec.ofNat 64 (leNat ((bs.drop (8 * i)).take 8))

/-- The bytes of words. -/
def wordBytes (ws : List Word) : List Byte := (ws.map fun w => leBytes 8 w.toNat).flatten

/-- A new current version of a graph; the others are superseded (R305, R306). -/
def GraphSt.addVersion (g : GraphSt) (pages : List Nat) : GraphSt :=
  { g with versions := (g.versions.map fun v => { v with superseded := true }) ++ [{ num := g.nextNum, pages := pages, gen := g.gen }],
           nextNum := g.nextNum + 1 }

/-- Put a scale of a tensor; the graph's scale generation rises (R127, R292). -/
def GraphSt.setScales (g : GraphSt) (l : List (Nat × Lane)) : GraphSt :=
  if l = [] then g
  else { g with scales := l.foldl (fun m e => SMap.set 0 m e.1 e.2) g.scales, scaleGen := g.scaleGen + 1 }

/-- A PATCH commits a new default block, copying the pages that its entries touch (R318, R320). -/
def State.commitPatch (s : State) (q p : Nat) (ds : DescSt) : State :=
  match s.graph p (sA ds.d) with
  | none => s.complete q ds 0x03 0 3
  | some g =>
    match g.current with
    | none => s.complete q ds 0x03 0 3
    | some v =>
      let es := patchesOf ds
      let k := s.part p
      let ts := touched es
      if 16 ≤ s.heldCount p (sA ds.d) g ∨ k.freePages.length < ts.length then s.complete q ds 0x08 0 8
      else
        let ps := pagesOf v.pages.length (applyPatches (k.block v) es)
        let news := k.freePages.take ts.length
        let k := k.putPages news (ts.map fun i => ps.getD i [])
        let nums := v.pages.zipIdx.map fun x => match ts.idxOf? x.2 with
          | some j => news.getD j 0
          | none => x.1
        let k := (v.pages.zipIdx.filter fun x => !decide (x.2 ∈ ts)).foldl (fun k x => k.refPage x.1) k
        let g := (g.addVersion nums).setScales ds.aux.scales
        (((s.setPart p k).mirrorData p none (wordBytes (ts.map fun i => ps.getD i []).flatten)).setGraph p (sA ds.d) (some g)).complete q ds 0

/-- The bytes of a parameter block that a LAUNCH or a LOAD supplies. -/
def suppliedBlock (g : GraphSt) (ds : DescSt) : List Word := wordsOf (g.params / 8) ds.aux.params

/-- Streams of a graph that have no context yet join that of a flight of the graph (log entry 23). -/
def State.joinStreams (s : State) (p g h : Nat) : State :=
  let join (t : StreamSt) : StreamSt := if t.st ≠ .free ∧ t.part = p ∧ t.graph = g ∧ t.ctx = 0 then { t with ctx := h } else t
  { s with streams := SMap.mapV {} (fun _ t => join t) s.streams }

/-- The address and the type of a handle slot of a captured block. -/
def slotAddr (g : GraphSt) (b : List Word) (i : Nat) : Nat × Nat :=
  let e := g.slots.getD i 0
  ((b.getD (slotAt e / 8) 0).toNat, slotType e)

/-- A declared range: its address, whether it lies in host memory, and its length. -/
def declRange (g : GraphSt) (b : List Word) (r : Nat × Nat) : Nat × Bool × Nat :=
  let a := slotAddr g b r.1
  (a.1, decide (a.2 = 1), r.2)

/-- The bytes of ranges, in order: device memory as it stands; host memory as this read of it answers (R235, R461). -/
def State.rangeBytes (s : State) (rs : List (Nat × Bool × Nat)) : List Byte :=
  rs.flatMap fun r =>
    if r.2.1 then (List.range r.2.2).map fun i => Config.hostByte s.freeCtr (r.1 + i) else Memory.readN s.mem r.1 r.2.2

/-- The device addresses of the lines that ranges touch. -/
def rangeLines (rs : List (Nat × Bool × Nat)) : List Nat :=
  rs.flatMap fun r => if r.2.1 || r.2.2 = 0 then [] else linesOf r.1 r.2.2

/-- The digest engine reads declared ranges for a flight: lines are checked, cross their stacks' ports, and are charged to the context (R251,
R255, R358, R461). The bytes, and none where a line fails, which the context's fault then contains. -/
def State.readRanges (s : State) (n : Nat) (f : FlightSt) (rs : List (Nat × Bool × Nat)) : State × Option (List Byte) :=
  let ls := rangeLines rs
  let d := s.rangeBytes rs
  let host := (rs.map fun r => if r.2.1 then r.2.2 else 0).sum
  let r := s.readLines (some f.part) f.ctx .ok ls
  let u := { (r.1.portLines 0x02 ls).charge f.part f.ctx { stackB := 64 * ls.length, pcieB := host } with freeCtr := r.1.freeCtr + 1 }
  match r.2 with
  | .uncorrectable | .tagFail => (u.contain f.part f.ctx r.2.status 226 (some n) true, none)
  | _ => (u, some d)

/-- The digest engine reads a flight's input ranges at capture (R461). -/
def State.startDigest (s : State) (g : GraphSt) (n : Nat) (f : FlightSt) : State :=
  match f.digestDecl with
  | none => s
  | some (ins, outs, r) =>
    match s.readRanges n f (ins.map (declRange g f.params)) with
    | (u, none) => u
    | (u, some d) =>
      let a := slotAddr g f.params r
      let x : DigestSt := { flight := n, part := f.part, input := Config.shake256 d, host := a.1, inHost := decide (a.2 = 1),
                            outs := outs.map (declRange g f.params) }
      { u with sec := { u.sec with digests := u.sec.digests ++ [x] } }

/-- A load of a graph has committed in this step 2, and its placement is due in step 3 (R160, R307). -/
def State.placing (s : State) (p h : Nat) : Bool :=
  s.bg.any fun b => match b.kind with
    | .load p' _ _ _ _ => p' = p && b.handle = some h
    | _ => false

/-- A LAUNCH captures (R318): the current version, the block, its patches and its relocation; a flight waits on every core
of the staircase from the next open (R157). A load with another PARAM_SIZE that has committed since admission makes a block of the
old size fail check 4 (R327). -/
def State.capture (s : State) (q p : Nat) (ds : DescSt) : State :=
  let d := ds.d
  match s.graph p (sA d) with
  | none => s.complete q ds 0x03 0 3
  | some g =>
    match g.current with
    | none => s.complete q ds 0x03 0 3
    | some v =>
      let k := s.part p
      let es := patchesOf ds
      let base := if sB d = 0 then k.block v else suppliedBlock g ds
      let ts := if sB d = 0 then touched es else List.range (pageCount g.params)
      if sB d ≠ 0 ∧ sLenB d ≠ g.params then s.complete q ds 0x04 0 4
      else
      match s.relocateAll p g.slots (applyPatches base es) with
      | .error st => s.complete q ds st 0 (if st = 0x05 then 5 else if st = 0x03 then 3 else 1)
      | .ok (b, hs) =>
        if k.freePages.length < ts.length then s.complete q ds 0x08 0 8
        else
          let ps := pagesOf (pageCount g.params) b
          let news := k.freePages.take ts.length
          let k := k.putPages news (ts.map fun i => ps.getD i [])
          let n := s.flightNext
          let f : FlightSt :=
            { part := p, ctx := sCtx d, epoch := ((s.epochOf p (sCtx d)).getD 0), graph := sA d, version := v.num, params := b,
              pages := news, queue := q, seq := ds.seq, tag := sTag d,
              signal := if sSignal d then some (sSigFence d, sSigValue d) else none, interrupt := sInterrupt d, det := s.det,
              fromTick := s.tickNo.toNat + 1, bufs := hs, heldReload := !g.resident || g.placed == [] || g.moving.isSome || s.placing p (sA d), slots := g.placed, scales := g.scales,
              extension := g.ext, digest := g.digest, wdigest := g.wdigest, digestDecl := ds.aux.digest }
          let away := !g.resident && !s.placing p (sA d)
          let g := { g with versions := g.versions.map fun x => if x.num = v.num then { x with captured := x.captured + 1 } else x,
                            reloading := g.reloading || away }
          let start := away && !((s.graph p (sA d)).map GraphSt.reloading).getD false
          let s := (s.setPart p k).mirrorData p none (wordBytes (ts.map fun i => ps.getD i []).flatten)
          let s := s.setGraph p (sA d) (some g)
          let s := (({ s with flightNext := n + 1 }.setFlight n (some f)).startDigest g n f).joinStreams p (sA d) (sCtx d)
          let s := if start then s.startBg (.reload p (sA d)) else s
          s.onCores (fun c => { c with waiting := c.waiting ++ [n] }) f.cores

/-- A load of a graph has completed and waits for the graph's flights to end: it changes the stages or their number, and new launches are held
in the meantime (R354; log entry 75). -/
def State.loadWaits (s : State) (p g : Nat) : Bool :=
  s.bg.any fun b => match b.kind with
    | .load p' g' append _ _ => p' = p && g' = g && append && b.done && b.status = 0 && b.handle.isNone
    | _ => false

/-- Step 2 for one admitted descriptor: a LAUNCH or a PATCH; the others wait for their own step. A launch whose declared ranges the digest engine
reads is captured once the interface has left LOCKED (R473; log entry 170). -/
def State.effect2 (s : State) (q : Nat) (ds : DescSt) : State :=
  match queuePart q, sOp ds.d with
  | some p, 0x01 => if s.loadWaits p (sA ds.d) || (s.locked p && ds.aux.digest.isSome) then { s with admitted := s.admitted ++ [(q, ds)] } else s.capture q p ds
  | some p, 0x04 => s.commitPatch q p ds
  | _, _ => { s with admitted := s.admitted ++ [(q, ds)] }

/-! ## Loads (R307) -/

/-- The LEN_B bytes of the image that a LOAD_GRAPH reads (R307). -/
def DescSt.img (ds : DescSt) : List Byte := ds.aux.image.take (sLenB ds.d)
/-- Its 64-byte header (R303). -/
def DescSt.header (ds : DescSt) : BitVec 512 := BitVec.ofNat 512 (leNat (ds.img.take 64))
/-- Its handle-slot list (R303). -/
def DescSt.slots (ds : DescSt) : List Word := wordsOf (hSlots ds.header) (ds.img.drop (dfld ds.header 0x10 31 0))

/-- Its extension programs, as they follow the body (R162, R303). The body's own length is no field of the header: where it ends is part of what
the read gives (log entry 161). -/
def DescSt.exts (ds : DescSt) : List (List Word) :=
  if hFlag ds.header 2 then extImages ds.img.length (ds.img.drop (max 64 ds.aux.extAt)) else []

/-- The checks that a LOAD_GRAPH makes at its stages, before placement: status, or 0 (R302, R303, R307, R163). -/
def State.loadFault (s : State) (p : Nat) (ds : DescSt) : Nat :=
  let h := ds.header
  let binds := ds.aux.binds
  if !headerOk h ds.slots (sLenB ds.d) (sCountC ds.d) || binds.length ≠ sCountC ds.d then 0x01
  else if !binds.all fun x => s.bufOk p x.toNat false && s.handleInside p x.toNat 0 (s.bufLen p x.toNat) then 0x03
  else if hFlag h 2 && !(s.fld (pfBase p + rPrtPartCfg) 0 0 = 1 && ds.exts != [] && ds.exts.all extOk) then 0x09
  else 0

/-- The contents of bound buffers in binding order: device buffers as they stand, host buffers as they were read (R303, R304). -/
def State.boundBytes (s : State) (p : Nat) : List (BitVec 32) → List Byte → List Byte
  | [], _ => []
  | h :: hs, host =>
    match s.lookup p h.toNat with
    | some (.host _ n) => host.take n ++ s.boundBytes p hs (host.drop n)
    | some o => s.bufBytes o 0 o.len ++ s.boundBytes p hs host
    | none => s.boundBytes p hs host

/-- Bytes of the host buffers among the bound ones. -/
def State.boundHost (s : State) (p : Nat) (hs : List (BitVec 32)) : Nat :=
  (hs.map fun h => match s.lookup p h.toNat with
    | some (.host _ n) => n
    | _ => 0).sum

/-- Read the lines of the bound device buffers, in binding order, each of which crosses its stack's port (R251, R255, R341). -/
def State.readBound (s : State) (p : Nat) (hs : List (BitVec 32)) : State × Acc :=
  let ls := hs.flatMap fun h => match s.lookup p h.toNat with
    | some o => o.lines 0 o.len
    | none => []
  let r := s.readLines (some p) 0 .ok ls
  (r.1.portLines 0x02 ls, r.2)

/-- A placement's weight shards: what each WEIGHTS frame takes of the bound contents, where the tiles and the frames keep to R349; none where they
do not, or the contents read are not whole. -/
def State.shards (s : State) (p : Nat) (hs : List (BitVec 32)) (host : List Byte) (tiles : List WeightTile) (fs : List (Nat × Nat)) :
    Option (List Byte × List (List Byte)) :=
  let bytes := s.boundBytes p hs host
  let sts := tileStacks (s.stackSet p) [] tiles
  if host.length = s.boundHost p hs ∧ shardsOk bytes tiles sts fs then some (bytes, shardBlocks bytes tiles sts fs) else none

/-- Statuses with which a load ends at a stage (R307). -/
def loadStatus (e : Nat) : Bool := e = 0x01 || e = 0x03 || e = 0x08 || e = 0x09

/-- Remove a background operation. -/
def State.endBg (s : State) (id : Nat) : State := s.dropBgs fun b => decide (b.id = id)

/-- Put a background operation. -/
def State.putBg (s : State) (b : BgOp) : State := { s with bg := s.bg.map fun x => if x.id = b.id then b else x }

/-- What a LOAD_GRAPH's completion leaves of it (R307): the state after its reads, and the operation. A read of the whole image and of the bound
contents is part of it: what gives fewer bytes than LEN_B, or than the bound buffers hold, does not complete it. A line of a bound device
buffer that fails ends it with that line's status, which R307 does not name (log entry 157). -/
def State.loadDone (s : State) (b : BgOp) (p : Nat) (ds : DescSt) (r : LoadResult) : State :=
  let st := s.loadFault p ds
  if ds.img.length < sLenB ds.d ∨ s.locked p then s
  else if st ≠ 0 then s.putBg { b with done := true, status := st }
  else
    match r with
    | .failed e => if loadStatus e.toNat then s.putBg { b with done := true, status := e.toNat } else s
    | .done place weights bound tiles params =>
      match s.shards p ds.aux.binds bound tiles weights with
      | none => s
      | some (bytes, blocks) =>
        let u := s.readBound p ds.aux.binds
        match u.2 with
        | .ok => u.1.putBg { b with done := true, place := some place, weights := weights, sharded := blocks, params := params,
                                    digest := Config.shake256 bytes }
        | .wait t => s.waitsAt u.1 t
        | a => u.1.putBg { b with done := true, status := a.status }

/-- A LOAD_GRAPH has been read, checked, placed, lowered and digested, or has failed at a stage (R307): it commits or
completes at the next boundary. -/
def execLoadGraphComplete (id : Nat) (r : LoadResult) (s : State) : Host.Outcome State Fault Refusal :=
  match s.bg.find? fun b => decide (b.id = id) && !b.done && b.begun with
  | some b => (match b.kind with
      | .load p _ _ ds _ => .next (s.loadDone b p ds r)
      | _ => .next s)
  | none => .next s

/-- The stored graph that a load makes of an older graph behind the same handle, or of nothing. The spec does not say whether scales that were
adopted or patched outlive an append load: they do not, the new image's own are in force (DESIGN CHOICE, log entry 162). -/
def loadedGraph (old : GraphSt) (append : Bool) (b : BgOp) (ds : DescSt) (fw : Nat) : GraphSt :=
  let h := ds.header
  { old with
    header := h, slots := ds.slots, binds := ds.aux.binds, digest := Config.shake256 ds.img, wdigest := b.digest,
    firmware := BitVec.ofNat 32 fw, hints := ds.aux.hints,
    oldGens := if append then old.oldGens ++ [{ gen := old.gen, weights := old.weights, placed := old.placed }] else [], placed := [],
    gen := if append then old.gen + 1 else 0, weights := b.weights, loaded := b.id, ext := hFlag h 2, exts := ds.exts, sr := hFlag h 0,
    ring := hFlag h 4, geom := if hFlag h 3 then kvGeomOf h else none, params := hParams h, reloading := false, moving := none,
    scales := [], scaleGen := if append then old.scaleGen + 1 else 0 }

/-- Resident graphs of a partition. -/
def State.residents (s : State) (p : Nat) : Nat := (s.part p).graphs.countP fun e => match e.2 with
  | some g => g.resident
  | none => false

/-- The placement of a load. -/
def loadPlace (c : PlaceCommit) (p h : Nat) : PlaceCommit := { c with part := p, graph := h, reason := 1 }

/-- Frames as an allocation leaves them, before their bytes are 0. -/
def State.markFrames (s : State) (fs : List (Nat × Nat)) (p : Nat) : State :=
  fs.foldl (fun s f => s.setFrame f.1 f.2 { st := .allocated, use := .weights, part := p, refs := 1 }) s

/-- The placement of a committed load, in step 3 (R160, R357). -/
def State.placeBg (s : State) (b : BgOp) : State :=
  match b.kind, b.handle, b.place with
  | .load p _ _ _ _, some h, some c =>
    (match s.graph p h with
     | some g => (s.commitPlace (loadPlace c p h) g).getD s
     | none => s)
  | _, _, _ => s

/-- The state with what has committed in this boundary in its place: room is judged by it. -/
def State.projected (s : State) : State :=
  let bs := s.bg.filter fun b => b.handle.isSome
  bs.foldl (fun s b => match b.kind with
    | .load p _ _ _ _ => (s.placeBg b).markFrames b.weights p
    | .reload p _ => s.markFrames b.weights p
    | _ => s) s

/-- A placement finds frames, a place in the hot set, and program store and scratchpad that no other graph holds (R337, R339, R342). -/
def State.roomFor (s : State) (c : PlaceCommit) (weights : List (Nat × Nat)) (hot : Nat) : Bool :=
  s.framesFree weights c.part (s.fld (pfBase c.part + rPrtGenFrames) 20 0) .weights &&
    decide (s.residents c.part + hot ≤ s.fld (pfBase c.part + rPrtHot) 6 0) && s.slotsFree c.part c.graph (placeTable c)

/-- A graph has an admitted, running or held launch. -/
def State.graphBusy (s : State) (p g : Nat) : Bool :=
  (s.flights.any fun e => match e.2 with
    | some f => f.part = p && f.graph = g && f.endStatus.isNone
    | none => false) ||
  s.admitted.any fun a => decide (queuePart a.1 = some p ∧ sOp a.2.d = 0x01 ∧ sA a.2.d = g)

/-- The graphs of a partition that may be evicted, the next victim first (R342): least recently run, then the older load; those with PIN
only where there is no other. -/
def State.victims (s : State) (p : Nat) : List (Nat × GraphSt) :=
  let free := (s.part p).graphs.filterMap fun e => match e.2 with
    | some g => if g.resident ∧ !g.reloading ∧ !s.placing p e.1 ∧ !s.graphBusy p e.1 then some (e.1, g) else none
    | none => none
  let loose := free.filter fun e => !e.2.hints.pin
  sortBy (fun e => (e.2.lastRun, e.2.loaded)) (if loose.isEmpty then free else loose)

/-- Space of a partition that evictions are giving up: WEIGHTS frames being zeroed, and what step 4 has yet to release. -/
def State.roomComing (s : State) (p : Nat) : Bool :=
  (s.stks.any fun t => t.2.frames.any fun e => decide (e.2.part = p ∧ e.2.use = .weights) && (decide (e.2.st = .zeroing) || e.2.released)) ||
  (s.part p).graphs.any fun e => match e.2 with
    | some g => !g.resident && (g.placed != [] || g.weights != [])
    | none => false

/-- A load of a graph that has flights changes the slots' stages or their number (R354), or finds launches held for the image that it replaces
(log entry 75). -/
def State.loadMustWait (s : State) (c : PlaceCommit) (p h : Nat) (g : GraphSt) : Bool :=
  s.graphHeld p h || (s.graphRuns p h && g.placed.map Region.stage != (placeTable c).map Region.stage)

/-- Commit a completed load in step 2 (R305, R306, R307, R341): its handle, parameter pages and version; its placement follows in step 3
and its WEIGHTS frames in step 4. It waits for the graph's flights where it changes their stages (R354), while an eviction can make room
(R342), and while its placement record has no room (R357). -/
def State.commitLoad (s : State) (b : BgOp) : State :=
  match b.kind with
  | .load p g append ds q =>
    if !b.done || b.handle.isSome || s.paused p then s
    else if b.status ≠ 0 then (s.complete q ds b.status).endBg b.id
    else
      let old : GraphSt := if append then (s.graph p g).getD { header := 0 } else { header := 0 }
      let new := loadedGraph old append b ds s.sec.runtimeVersion
      let n := pageCount new.params
      let fail := (s.complete q ds 0x08 0 8).endBg b.id
      match b.place, (if append then some (g, s) else s.newHandle p .graph) with
      | some c, some (h, s1) =>
        let c := loadPlace c p h
        if append && s.loadMustWait c p h old then s
        else if (s.part p).freePages.length < n ∨ 16 ≤ s.heldCount p h old ∨ !s.placeForm c new then fail
        else
          let u := (s1.projected).setGraph p h (some new)
          let hot := if old.resident then 0 else 1
          if !u.roomFor c b.weights hot then
            if s.roomComing p || !(s.victims p).isEmpty || s.graphRuns p h then s else fail
          else if (u.commitPlace c new).isNone then s
          else
            let nums := (s.part p).freePages.take n
            let s := s1.setPart p ((s1.part p).putPages nums (pagesOf n (wordsOf (new.params / 8) b.params)))
            let s := (s.setGraph p h (some (new.addVersion nums))).complete q ds 0 (if append then 0 else h)
            { s with bg := s.bg.map fun x => if x.id = b.id then { x with handle := some h } else x }
      | _, _ => fail
  | _ => s

/-- Step 2 (R53, R312, R318): captures, patches and loads, queues in order and each queue in ring order. -/
def State.step2 (s : State) : State :=
  let loads := s.bg.filterMap fun b => match b.kind with
    | .load _ _ _ ds q => if b.done then some (q, ds, some b.id) else none
    | _ => none
  let all := sortBy (fun x => (x.1, x.2.1.seq)) (loads ++ s.admitted.map fun x => (x.1, x.2, none))
  all.foldl (fun s x =>
    match x.2.2 with
    | some id =>
      (match s.bg.find? fun b => decide (b.id = id) with
       | some b => s.commitLoad b
       | none => s)
    | none => s.effect2 x.1 x.2.1) { s with admitted := [] }

/-! ## Reloads (R341, R343) -/

/-- Bytes that a reload reads of its bindings, from host memory and from stack memory (R358). -/
def State.bindCharge (s : State) (p : Nat) (binds : List (BitVec 32)) : Charges :=
  binds.foldl (fun c h => match s.lookup p h.toNat with
    | some (.host _ n) => { c with pcieB := c.pcieB + n }
    | some o => { c with stackB := c.stackB + o.len }
    | none => c) {}

/-- End the held flights of a graph with a status; its reload is over. -/
def State.reloadFails (s : State) (p g status id : Nat) : State :=
  let s := (s.endFlights status fun f => f.part = p && f.graph = g && f.heldReload).endBg id
  match s.graph p g with
  | some x => s.setGraph p g (some { x with reloading := false })
  | none => s

/-- A graph's bindings are not stale (R343). -/
def State.bindsLive (s : State) (p : Nat) (g : GraphSt) : Bool := g.binds.all fun h => s.bufOk p h.toNat false

/-- A reload has read its bindings, and the bytes are charged (R358): data that differ from the graph's, or a line that fails, abandon it
(R343); otherwise it commits in step 3. -/
def State.reloadDone (s : State) (b : BgOp) (p h : Nat) (g : GraphSt) (place : PlaceCommit) (weights : List (Nat × Nat))
    (bytes : List Byte) (blocks : List (List Byte)) : State :=
  let u := s.readBound p g.binds
  match u.2 with
  | .wait t => s.waitsAt u.1 t
  | .ok =>
    let s := u.1.chargePart p (u.1.bindCharge p g.binds)
    if Config.shake256 bytes ≠ g.wdigest then s.reloadFails p h 0x2B b.id
    else s.putBg { b with done := true, place := some place, weights := weights, sharded := blocks }
  | _ => (u.1.chargePart p (u.1.bindCharge p g.binds)).reloadFails p h 0x2B b.id

/-- A reload has read and placed its graph (R343): a stale binding ends the held launches with REJECT_HANDLE, another digest
with ABANDONED; otherwise it commits in step 3. -/
def execReloadComplete (p : PartId) (graph : BitVec 32) (r : LoadResult) (s : State) : Host.Outcome State Fault Refusal :=
  let h := graph.toNat
  match s.bg.find? fun b => decide (b.kind = .reload p h) && !b.done && b.begun, s.graph p h with
  | some b, some g =>
    if !s.bindsLive p g then .next (s.reloadFails p h 0x03 b.id)
    else if s.locked p then .next s
    else
      match r with
      | .failed _ => .next s
      | .done place weights bound tiles _ =>
        match s.shards p g.binds bound tiles weights with
        | some (bytes, blocks) => .next (s.reloadDone b p h g place weights bytes blocks)
        | none => .next s
  | _, _ => .next s

/-- Commit a completed reload in step 3 (R343): the graph is resident and its held flights begin at the next open; its frames follow in
step 4. It waits while it has no room, and is abandoned where a binding has become stale. -/
def State.commitReload (s : State) (b : BgOp) : State :=
  match b.kind, b.place with
  | .reload p h, some c =>
    (match s.graph p h with
     | none => s.endBg b.id
     | some g =>
       let c := { c with part := p, graph := h, reason := 2 }
       if !s.bindsLive p g then s.reloadFails p h 0x03 b.id
       else if s.paused p || !s.projected.roomFor c b.weights 1 then s
       else
         match s.commitPlace c { g with weights := b.weights, reloading := false } with
         | none => s
         | some s => { s with bg := s.bg.map fun x => if x.id = b.id then { x with handle := some h } else x })
  | _, _ => s

/-- The WEIGHTS frames of a committed load or reload, in step 4 (R248, R341). -/
def State.weightsBg (s : State) (b : BgOp) : State :=
  match b.kind, b.handle with
  | .load p _ _ _ _, some _ => ((s.takeFrames b.weights p .weights).fillShards p b.weights b.sharded).endBg b.id
  | .reload p _, some _ =>
    (((s.takeFrames b.weights p .weights).fillShards p b.weights b.sharded).chargePart p { stackB := 65536 * b.weights.length }).endBg b.id
  | _, _ => s

/-! ## Buffers, fences and streams: steps 4 and 7 -/

/-- Frames that count against GEN_FRAMES of a partition in a stack: uses WEIGHTS and GENERAL, ZEROING ones too (R337, R443). -/
def State.genHeld (s : State) (p t : Nat) : Nat :=
  (s.stk t).frames.countP fun e => (e.2.st = .allocated || e.2.st = .zeroing) && e.2.part = p && e.2.use ≠ .kv

/-- Frames that count against KV_FRAMES of a partition in a stack, ZEROING ones too (R337, R443). -/
def State.kvHeld (s : State) (p t : Nat) : Nat :=
  (s.stk t).frames.countP fun e => (e.2.st = .allocated || e.2.st = .zeroing) && e.2.part = p && e.2.use = .kv

/-- The frames that an allocation of `n` frames may draw on, in order: those that the firmware offers, then the lowest of each
stack of the stack set, spread over it (R248, R352; log entry 25). -/
def State.offered (s : State) (p : Nat) (fs : List (Nat × Nat)) (n : Nat) : List (Nat × Nat) :=
  let mine := fs.eraseDups.filter fun f => f.1 ∈ s.stackSet p && s.frameFree f.1 f.2
  let frees := (s.stackSet p).map fun t => (t, s.freeIn t (n + mine.length))
  let m := (frees.map fun x => x.2.length).foldl max 0
  mine ++ ((List.range m).flatMap fun i => frees.filterMap fun x => (x.2[i]?).map fun f => (x.1, f)).filter fun f => !mine.contains f

/-- The first `n` offered frames that a limit in each stack lets the partition hold. -/
def takeWithin (limit : Nat) (held : Nat → Nat) : List (Nat × Nat) → Nat → List (Nat × Nat) → List (Nat × Nat)
  | [], _, acc => acc
  | f :: fs, n, acc =>
    if n ≤ acc.length then acc
    else if held f.1 + acc.countP (fun g => decide (g.1 = f.1)) < limit then takeWithin limit held fs n (acc ++ [f])
    else takeWithin limit held fs n acc

/-- ALLOC (R316, R352): frames of use GENERAL, in one stack where the request is honoured. -/
def State.doAlloc (s : State) (q p : Nat) (ds : DescSt) (frames : List (Nat × Nat)) : State :=
  let len := bits (sArg ds.d) 59 0
  let n := (len + 65535) / 65536
  let h := bits (sArg ds.d) 63 60
  let limit := s.fld (pfBase p + rPrtGenFrames) 20 0
  let free := if n ≤ limit * (s.stackSet p).length then s.offered p frames n else []
  let pick (fs : List (Nat × Nat)) : List (Nat × Nat) := takeWithin limit (s.genHeld p) fs n []
  let single := if h ≠ 0 ∧ len ≤ h * 4294967296 then
      (s.stackSet p).findSome? fun t =>
        let x := pick (free.filter fun f => decide (f.1 = t))
        if x.length = n then some x else none
    else none
  let fs := single.getD (pick free)
  if fs.length < n then s.complete q ds 0x08 0 8
  else
    match (s.takeFrames fs p .general).newHandle p (.device fs (65536 * n)) with
    | none => s.complete q ds 0x08 0 8
    | some (hd, s) => s.complete q ds 0 hd (if h ≠ 0 ∧ single.isNone then 1 else 0)

/-- MAP_HOST (R316). -/
def State.doMapHost (s : State) (q p : Nat) (ds : DescSt) : State :=
  match s.newHandle p (.host (sArg ds.d) (sWide ds.d)) with
  | none => s.complete q ds 0x08 0 8
  | some (h, s) => s.complete q ds 0 h

/-- FENCE_CREATE (R323). -/
def State.doFence (s : State) (q p : Nat) (ds : DescSt) : State :=
  match s.newHandle p .fence with
  | none => s.complete q ds 0x08 0 8
  | some (h, s) =>
    let f : FenceSt := { value := sSigValue ds.d, mirror := sArg ds.d }
    (s.setPart p { s.part p with fences := SMap.set none (s.part p).fences h (some f) }).complete q ds 0 h

/-- A COPY begins (R57, R330). -/
def State.doCopy (s : State) (q p : Nat) (ds : DescSt) : State :=
  match s.lookup p (sA ds.d), s.lookup p (sB ds.d) with
  | some a, some b => s.startBg (.copy p a b ds q)
  | _, _ => s.complete q ds 0x03 0 3

/-- The prefix key before block 0 (R292). -/
def keySeed (p nspace : Nat) (wdigest : BitVec 512) : BitVec 512 :=
  Config.shake256 (leBytes 1 p ++ leBytes 3 0 ++ leBytes 4 nspace ++ digestBytes wdigest)

/-- The keys of the whole blocks of a token list (R292). -/
def prefixKeys : Nat → BitVec 512 → List Nat → List (BitVec 512)
  | 0, _, _ => []
  | n + 1, k, ts =>
    let k := Config.shake256 (digestBytes k ++ ((ts.take 64).map fun t => leBytes 4 t).flatten)
    k :: prefixKeys n k (ts.drop 64)

/-- A block of a prefix tree that a stream may share: its key, in its home stack, at its graph's scale generation (R293). -/
def State.treeEnt (s : State) (p home gen : Nat) (key : BitVec 512) : Option PrefixEnt :=
  s.prefixes.find? fun e => decide (e.part = p ∧ e.home = home ∧ e.scaleGen = gen ∧ e.key = key)

/-- How many blocks from block 0 match in a stack's tree (R293). -/
def State.matched (s : State) (p home gen : Nat) : List (BitVec 512) → Nat
  | [] => 0
  | k :: ks => if (s.treeEnt p home gen k).isSome then 1 + s.matched p home gen ks else 0

/-- The home stack of a new stream (R351): the stack that homes the fewest, then the most matching blocks, the most free
frames within KV_FRAMES, the lowest number. -/
def State.chooseHome (s : State) (p gen : Nat) (keys : List (BitVec 512)) : Option Nat :=
  let limit := s.fld (pfBase p + rPrtKvFrames) 20 0
  let cand := (s.stackSet p).filter fun t => s.homed p t < s.saeSlots p
  let free (t : Nat) : Nat := min (limit - s.kvHeld p t) (stackFrames - (s.stk t).frames.countP fun e => e.2.st ≠ .free)
  let better (a b : Nat) : Bool :=
    if s.homed p a ≠ s.homed p b then s.homed p a < s.homed p b
    else if s.matched p a gen keys ≠ s.matched p b gen keys then s.matched p b gen keys < s.matched p a gen keys
    else if free a ≠ free b then free b < free a else a < b
  cand.foldl (fun o t => match o with
    | none => some t
    | some u => if better t u then some t else some u) none

/-- The lowest free stream slot: which free slot an open takes the spec leaves open (DESIGN CHOICE, log entry 163). -/
def State.freeStream (s : State) : Option Nat := (List.range 16384).find? fun i => (s.stream i).st = .free

/-- Share a matching block: its frames enter the stream's page table and are referenced (R293, R294). -/
def State.shareBlock (s : State) (i b : Nat) (g : KvGeom) (e : PrefixEnt) : State :=
  let t := s.stream i
  let per := g.layers * g.groups
  let t := { t with pages := e.frames.foldl (fun m f => SMap.set 0 m (b * per + f.1) (f.2 + 1)) t.pages }
  let s := s.setStream i t
  let s := e.frames.foldl (fun s f => s.setFrame e.home f.2 { s.frame e.home f.2 with refs := (s.frame e.home f.2).refs + 1 }) s
  { s with prefixes := s.prefixes.map fun x => if x = e then { x with used := s.tickNo.toNat } else x }

/-- Share the matching blocks of a new stream, from block 0 upward. -/
def State.shareBlocks (s : State) (i home gen : Nat) (g : KvGeom) : Nat → List (BitVec 512) → State
  | _, [] => s
  | b, k :: ks =>
    match s.treeEnt (s.stream i).part home gen k with
    | some e => (s.shareBlock i b g e).shareBlocks i home gen g (b + 1) ks
    | none => s

/-- STREAM_OPEN (R270, R271, R293, R351): the stream enters PREFILL. -/
def State.doOpen (s : State) (q p : Nat) (ds : DescSt) : State :=
  let r := ds.aux.record
  match (if s.isType p (streamGraph ds) 3 then s.graph p (streamGraph ds) else none), s.freeStream with
  | none, _ => s.complete q ds 0x03 0 3
  | some g, some i =>
    (match g.geom with
     | none => s.complete q ds 0x01 0 3
     | some geom =>
       let toks := (ds.aux.prompt.map BitVec.toNat).take (rfld r 0x28 31 0)
       let share := rfld r 0x3A 1 1 = 1
       let keys := if share then prefixKeys (toks.length / 64) (keySeed p (rfld r 0x3C 31 0) g.wdigest) toks else []
       let usable := keys.take ((rfld r 0x28 31 0 - 1) / 64)
       match (if s.openStreams p < s.seqSlots p then s.chooseHome p g.scaleGen usable else none) with
       | none => s.complete q ds 0x08 0 8
       | some home =>
         let sd := if rfld r 0x3A 0 0 = 1 then (BitVec.ofNat 64 (rfld r 0 63 0), s) else s.draw
         let s := sd.2
         let ctx := ((s.flights.findSome? fun e => match e.2 with
             | some f => if f.part = p ∧ f.graph = streamGraph ds ∧ f.endStatus.isNone then some f.ctx else none
             | none => none)).getD 0
         let n := s.matched p home g.scaleGen usable
         let t : StreamSt :=
           { st := .prefill, gen := (s.stream i).gen, part := p, ctx := ctx, queue := q, tag := sTag ds.d, seq := ds.seq, interrupt := sInterrupt ds.d, seed := sd.1,
             ringBase := rfld r 0x08 63 0, tailAddr := rfld r 0x10 63 0, headAddr := rfld r 0x18 63 0, promptAddr := rfld r 0x20 63 0, promptLen := rfld r 0x28 31 0,
             maxNew := rfld r 0x2C 31 0, invTemp := BitVec.ofNat 32 (rfld r 0x30 31 0), topP := BitVec.ofNat 32 (rfld r 0x34 31 0),
             topK := rfld r 0x38 6 0, ringLog2 := rfld r 0x39 4 0, share := share, latency := rfld r 0x3A 2 2 = 1,
             nspace := rfld r 0x3C 31 0,
             stops := ((List.range 8).map fun j => rfld r (0x40 + 4 * j) 31 0).filter fun x => !decide (x = 0xFFFFFFFF),
             graph := streamGraph ds, geom := some geom, tokens := toks, home := home, opened := s.tickNo.toNat, len := 64 * n,
             keys := keys }
         let s := ((s.setStream i t).shareBlocks i home g.scaleGen geom 0 (usable.take n)).charge p ctx { pcieB := 128 + 4 * toks.length }
         s.complete q ds 0 i)
  | some _, none => s.complete q ds 0x08 0 8

/-- Step 4 for one admitted descriptor: ALLOC, MAP_HOST, STREAM_OPEN and the start of a COPY; the others wait. An ALLOC takes the frames
that were offered for it, then those that the firmware offers at this boundary. -/
def State.effect4 (s : State) (frames : List (Nat × Nat)) (q : Nat) (ds : DescSt) : State :=
  match queuePart q, sOp ds.d with
  | some p, 0x05 => s.doCopy q p ds
  | some p, 0x06 => s.doAlloc q p ds (ds.frames ++ frames)
  | some p, 0x07 => s.doMapHost q p ds
  | some p, 0x0A => s.doOpen q p ds
  | _, _ => { s with admitted := s.admitted ++ [(q, ds)] }

/-- Step 7 for one admitted descriptor: FENCE_CREATE. -/
def State.effect7 (s : State) (q : Nat) (ds : DescSt) : State :=
  match queuePart q, sOp ds.d with
  | some p, 0x09 => s.doFence q p ds
  | _, _ => { s with admitted := s.admitted ++ [(q, ds)] }

/-- Step 4 for every admitted descriptor, in the order of R312. -/
def State.admitted4 (s : State) (frames : List (Nat × Nat)) : State :=
  s.admitted.foldl (fun s x => s.effect4 frames x.1 x.2) { s with admitted := [] }

/-- Step 7 for every admitted descriptor. -/
def State.admitted7 (s : State) : State :=
  s.admitted.foldl (fun s x => s.effect7 x.1 x.2) { s with admitted := [] }

/-! ## Fetching (R310, R311) -/

/-- A queue's doorbell is polled and its descriptors fetched: the front end is on, the queue is ACTIVE, its partition runs and
its interface is not LOCKED (R310, R473, R484). -/
def State.polls (s : State) (q : Nat) : Bool :=
  s.fld rFeCtrl 0 0 = 1 && (s.queue q).st = .active && decide ((s.queue q).since ≤ s.tickNo.toNat) &&
  (match queuePart q with
   | some p => (s.part p).st ≠ .absent && !s.locked p
   | none => true)

/-- A doorbell word is read (R310): a word of another generation, or that claims more than the ring holds, is ignored. -/
def execDoorbellPoll (q : QueueId) (word : Word) (s : State) : Host.Outcome State Fault Refusal :=
  if !s.polls q then .next s
  else
    let k := s.queue q
    let tail := word.toNat % 2 ^ 32
    let s := match queuePart q with
      | some p => s.chargePart p { pcieB := 8 }
      | none => s
    if word.toNat / 2 ^ 32 ≠ k.gen ∨ s.sqSize q < (tail + 2 ^ 32 - k.fetch % 2 ^ 32) % 2 ^ 32 then
      .next ((s.flag rFeStatus 1).countFld rFeDbIgnored 31 0 1)
    else .next (s.setQueue q { k with tail := tail })

/-- Bytes read over PCIe along with a descriptor for its context: its parameter block, where it lies in host memory (R358). -/
def State.auxBytes (s : State) (p : Nat) (d : BitVec 512) : Nat :=
  if sOp d = 0x01 ∧ sB d ≠ 0 ∧ s.isType p (sB d) 1 then sLenB d else 0

/-- `n` bytes of a device buffer that a handle of a partition names; none where it names no device buffer. -/
def State.deviceBytes (s : State) (p h n : Nat) : Option (List Byte) :=
  match s.lookup p h with
  | some (.device fs len) => some (s.bufBytes (.device fs len) 0 (min n len))
  | _ => none

/-- The device lines that are read with a descriptor: of its parameter block, and of its patch or binding list. -/
def State.auxLines (s : State) (p : Nat) (d : BitVec 512) : List Nat :=
  let of (h n : Nat) : List Nat := match (if h % 65536 = 0 then none else s.lookup p h) with
    | some o => o.lines 0 (min n o.len)
    | none => []
  (if sOp d = 0x01 then of (sB d) (sLenB d) else []) ++
    (if 4096 < sCountC d then [] else if sOp d = 0x01 ∨ sOp d = 0x04 then of (sC d) (16 * sCountC d)
     else if sOp d = 0x02 then of (sC d) (4 * sCountC d) else [])

/-- What is read with a descriptor (R235, R303, R318, R319): blocks and lists in device buffers as stack memory holds them at the fetch,
those in host memory as the host answers. -/
def State.readAux (s : State) (q : Nat) (d : BitVec 512) (aux : FetchAux) : FetchAux :=
  match queuePart q with
  | none => aux
  | some p =>
    let at' (h n : Nat) : Option (List Byte) := if h % 65536 = 0 then none else s.deviceBytes p h n
    let aux := if sOp d = 0x01 then { aux with params := (at' (sB d) (sLenB d)).getD aux.params } else aux
    let list (w n : Nat) (bs : List Byte) : List Nat := (List.range n).map fun i => leNat ((bs.drop (w * i)).take w)
    if (sOp d = 0x01 ∨ sOp d = 0x04) ∧ sCountC d ≤ 4096 then
      { aux with patches := ((at' (sC d) (16 * sCountC d)).map fun bs => (list 16 (sCountC d) bs).map (BitVec.ofNat 128)).getD aux.patches }
    else if sOp d = 0x02 ∧ sCountC d ≤ 4096 then
      { aux with binds := ((at' (sC d) (4 * sCountC d)).map fun bs => (list 4 (sCountC d) bs).map (BitVec.ofNat 32)).getD aux.binds }
    else aux

/-- The front end takes a descriptor in: it counts as fetched, and its records as outstanding (R311). The lines of device memory that are read
with it are checked and cross their stacks' ports (R251, R255). -/
def State.takeIn (s : State) (q : Nat) (d : BitVec 512) (aux : FetchAux) (frames : List (Nat × Nat)) : State × DescSt :=
  let k := s.queue q
  let ls := match queuePart q with
    | some p => s.auxLines p d
    | none => []
  let r := s.readLines (queuePart q) (sCtx d) .ok ls
  let err := match r.2 with
    | .uncorrectable | .tagFail | .refused => r.2.status
    | _ => 0
  let ds : DescSt := { d := d, aux := s.readAux q d aux, seq := k.fetch, frames := frames, err := err }
  let s := r.1.portLines 0x02 ls
  let s := s.setQueue q { k with fetch := k.fetch + 1, outstanding := k.outstanding + recordsOf d }
  let s := s.countFld rFeFetched 63 0 1
  let s := match queuePart q with
    | some p => (s.chargePart p { pcieB := 64 }).charge p (sCtx d) { pcieB := s.auxBytes p d }
    | none => s
  (s, ds)

/-- A queue has completion credit for a descriptor by a head count (R311). -/
def State.hasCredit (s : State) (q head : Nat) (d : BitVec 512) : Bool :=
  decide ((s.queue q).outstanding + recordsOf d ≤ s.cqFree q head)

/-- The completion head word, read only where the cached credit is short (R311). -/
def State.refreshHead (s : State) (q : Nat) (d : BitVec 512) (head : Option (BitVec 32)) : State :=
  match head with
  | some h => if s.hasCredit q (s.queue q).head d then s else s.setQueue q { s.queue q with head := h.toNat }
  | none => s

/-- A descriptor that has been fetched is buffered for admission; the control queue's is processed at once (R312). -/
def State.takeDesc (s : State) (q : Nat) (d : BitVec 512) (aux : FetchAux) (frames : List (Nat × Nat)) : State :=
  let r := s.takeIn q d aux frames
  if q = 1024 then r.1.admitDesc q r.2
  else r.1.setQueue q { r.1.queue q with buffer := (r.1.queue q).buffer ++ [r.2] }

/-- A descriptor is fetched in ring order (R311): the doorbell shows it, the buffer has room, and the queue has completion
credit, by the head word read when the cached count is short. -/
def execDescriptorFetch (q : QueueId) (d : BitVec 512) (aux : FetchAux) (head : BitVec 32) (s : State) :
    Host.Outcome State Fault Refusal :=
  let k := s.queue q
  if !s.polls q || decide (k.fetch % 2 ^ 32 = k.tail) || 256 ≤ k.buffer.length then .next s
  else
    let s := s.refreshHead q d (some head)
    if s.hasCredit q (s.queue q).head d then .next (s.takeDesc q d aux []) else .next s

/-! ## The descriptor rows -/

/-- The front end takes a descriptor of an opcode: its queue is polled, the buffer has room, and the queue has completion credit (R310, R311). -/
def State.takes (s : State) (op q : Nat) (d : BitVec 512) : Bool :=
  decide (sOp d = op) && s.polls q && decide ((s.queue q).buffer.length < 256) && s.hasCredit q (s.queue q).head d

/-- A descriptor of one opcode reaches the front end, its doorbell with it where none is ahead: it is fetched, and admitted in step 0 of
the next boundary (R310 to R312; log entry 22). -/
def State.submit (s : State) (op q : Nat) (d : BitVec 512) (aux : FetchAux) (frames : List (Nat × Nat)) : State :=
  let s := s.refreshHead q d aux.head
  if !s.takes op q d then s
  else
    let k := s.queue q
    (if k.fetch % 2 ^ 32 = k.tail then s.setQueue q { k with tail := (k.fetch + 1) % 2 ^ 32 } else s).takeDesc q d aux frames

/-- NOP (R314, R323). -/
def execSubmitNop (q : QueueId) (d : BitVec 512) (aux : FetchAux) (s : State) : Host.Outcome State Fault Refusal :=
  .next (s.submit 0x00 q d aux [])

/-- LAUNCH (R318). -/
def execLaunch (q : QueueId) (d : BitVec 512) (aux : FetchAux) (s : State) : Host.Outcome State Fault Refusal :=
  .next (s.submit 0x01 q d aux [])

/-- LOAD_GRAPH (R307). -/
def execLoadGraph (q : QueueId) (d : BitVec 512) (aux : FetchAux) (s : State) : Host.Outcome State Fault Refusal :=
  .next (s.submit 0x02 q d aux [])

/-- UNLOAD_GRAPH (R321, R322). -/
def execUnloadGraph (q : QueueId) (d : BitVec 512) (aux : FetchAux) (s : State) : Host.Outcome State Fault Refusal :=
  .next (s.submit 0x03 q d aux [])

/-- PATCH (R318 to R320). -/
def execPatch (q : QueueId) (d : BitVec 512) (aux : FetchAux) (s : State) : Host.Outcome State Fault Refusal :=
  .next (s.submit 0x04 q d aux [])

/-- COPY (R314, R330). -/
def execSubmitCopy (q : QueueId) (d : BitVec 512) (aux : FetchAux) (s : State) : Host.Outcome State Fault Refusal :=
  .next (s.submit 0x05 q d aux [])

/-- ALLOC (R316, R352). -/
def execAlloc (q : QueueId) (d : BitVec 512) (aux : FetchAux) (frames : List (Nat × Nat)) (s : State) :
    Host.Outcome State Fault Refusal := .next (s.submit 0x06 q d aux frames)

/-- MAP_HOST (R316). -/
def execMapHost (q : QueueId) (d : BitVec 512) (aux : FetchAux) (s : State) : Host.Outcome State Fault Refusal :=
  .next (s.submit 0x07 q d aux [])

/-- FREE (R315, R321). -/
def execFree (q : QueueId) (d : BitVec 512) (aux : FetchAux) (s : State) : Host.Outcome State Fault Refusal :=
  .next (s.submit 0x08 q d aux [])

/-- FENCE_CREATE (R323). -/
def execFenceCreate (q : QueueId) (d : BitVec 512) (aux : FetchAux) (s : State) : Host.Outcome State Fault Refusal :=
  .next (s.submit 0x09 q d aux [])

/-- STREAM_OPEN (R270, R271). -/
def execStreamOpen (q : QueueId) (d : BitVec 512) (aux : FetchAux) (s : State) : Host.Outcome State Fault Refusal :=
  .next (s.submit 0x0A q d aux [])

/-- STREAM_CANCEL (R290). -/
def execStreamCancel (q : QueueId) (d : BitVec 512) (aux : FetchAux) (s : State) : Host.Outcome State Fault Refusal :=
  .next (s.submit 0x0B q d aux [])

end Sys2Proof.Machine
end

