-- ==== Sys2Proof/Machine/Recovery.lean ====
section
/-! DEFINITION. Faults, containment and recovery (R363 to R392): tearing down a context, landings 2 to 4, hang detection and
replay, and the parked state. -/

namespace Sys2Proof.Machine

/-! ## Landings (R381, R389) -/

/-- A landing completes: LAST_LEVEL shows its level. -/
def State.landingDone (s : State) (id : Nat) : State :=
  match s.rcv.landings.find? fun l => decide (l.id = id) with
  | some l => { s with rcv := { s.rcv with landings := s.rcv.landings.filter fun x => !decide (x.id = id) } }.setFld
      rPrtFaultStatus 6 4 l.level
  | none => s

/-- Every landing that satisfies a test completes. -/
def State.landingsDone (s : State) (t : LandingSt → Bool) : State :=
  (s.rcv.landings.filter t).foldl (fun s l => s.landingDone l.id) s

/-- Landings that a greater one absorbs are no longer in progress (R391). -/
def State.absorb (s : State) (t : LandingSt → Bool) : State :=
  { s with rcv := { s.rcv with landings := s.rcv.landings.filter fun l => !t l } }

/-- Every descriptor fetched and not yet published completes with TORN_DOWN (R385). -/
def State.tornDescriptors (s : State) : State :=
  let buffered := s.queues.flatMap fun e => e.2.buffer.map fun ds => (e.1, ds)
  let loads := s.bg.filterMap fun b => match b.kind with
    | .load _ _ _ ds q => some (q, ds)
    | .copy _ _ _ ds q => some (q, ds)
    | _ => none
  let all := buffered ++ s.admitted ++ loads
  let s := { s with queues := SMap.mapV {} (fun _ k => { k with buffer := [], admitted := k.admitted + k.buffer.length }) s.queues,
                    admitted := [] }.dropBgs fun b => match b.kind with
                      | .restoreDie _ _ => false
                      | .remapCopy _ _ => false
                      | _ => true
  let s := { s with compl := s.compl.map fun c => if c.status = 0 then { c with status := 0x2A } else c }
  all.foldl (fun s x => s.complete x.1 x.2 0x2A) s

/-- The parked state (R389): the halls are held in reset, ALERT_CAUSE is set, and MODULE_ALERT asserted if ALERT_EN is 1. Descriptors not
yet published complete with TORN_DOWN, if a step 7 still comes (R363). -/
def State.park (s : State) (cause : Nat) : State :=
  let s := s.tornDescriptors.endFlights 0x2A fun _ => true
  let s := ((s.setFld rPrtFaultStatus 39 32 cause).setPstate 6).alarm 5 242 cause 0
  let s := { s with sec := { s.sec with parked := true }, mir := { s.mir with claimOut := false },
                    cores := SMap.mapV {} (fun _ k => { k with inReset := true }) s.cores }
  let s := s.each (fun s c => s.setCore c { s.core c with inReset := true }) (List.range 192)
  if s.fld rPrtFaultCtrl 9 9 = 1 then { s with pwr := { s.pwr with alert := true } } else s

/-- Every volatile CSP is zeroised (R464). -/
def State.zeroiseAll (s : State) : State :=
  { s with sec := { s.sec with keys := {}, sessions := [] },
           parts := SMap.mapV {} (fun _ (k : PartSt) => { k with keysHeld := false, kemHeld := false }) s.parts,
           ports := SMap.mapV {} (fun _ (k : PortSt) => { k with keys := false, keyOut := 0, keyIn := 0 }) s.ports }

/-- The error state (R434): no cryptographic service, and the module is parked. -/
def State.cryptoError (s : State) : State :=
  ({ s with sec := { s.sec with errorState := true, selftest := 2 } }.zeroiseAll).park 0x02

/-! ## Fence, drain and clear of a context (R365 to R372) -/

/-- The other contexts of a context's job (R372). -/
def State.jobMates (s : State) (p h : Nat) : List Nat :=
  match s.ctx p h with
  | none => []
  | some x => (s.part p).ctxs.filterMap fun e => match e.2 with
    | some y => if y.job = x.job ∧ e.1 ≠ h then some e.1 else none
    | none => none

/-- A core at the fence of a context (R154, R367): it stops, and its channels discard what they hold of the context. -/
def CoreSt.fenceCtx (k : CoreSt) (p h : Nat) : CoreSt :=
  let k := { k with chans := (k.chans.map fun e => (e.1, e.2.filter fun x => !decide (x.part = p ∧ x.ctx = h))).filter fun e => e.2 ≠ [] }
  if k.part = p ∧ k.ctx = h ∧ k.phase ≠ .idle then { k with phase := .halted, ctrlq := [], waitKind := 0 } else k

/-- A stream at the fence of its context: no further visit, its candidates discarded. -/
def StreamSt.fence (t : StreamSt) : StreamSt := { t with cand := {}, visitDue := false, fault := true }

/-- The completion status of a flight of a torn-down context (R365): the cause's for the flight whose work met the fault, or
for each when the cause is the context's own; TORN_DOWN for the others. -/
def tearStatus (x : CtxSt) (n : Nat) : Nat :=
  match x.faultFlight with
  | none => x.status
  | some m => if n = m then x.status else 0x2A

/-- Background operations that a teardown abandons (R371). -/
def State.tearBg (s : State) (p h : Nat) : State :=
  let mine (i : Nat) : Bool := (s.stream i).part = p && (s.stream i).ctx = h
  let copies := s.bg.filterMap fun b => match b.kind with
    | .copy p' _ _ ds q => if p' = p ∧ sCtx ds.d = h then some (q, ds) else none
    | _ => none
  let s := s.dropBgs fun b => match b.kind with
    | .swapOut i => mine i
    | .swapIn i => mine i
    | .copy p' _ _ ds _ => decide (p' = p ∧ sCtx ds.d = h)
    | _ => false
  let s := copies.foldl (fun s x => s.complete x.1 x.2 0x2B) s
  let frames := (s.streams.filter fun e => e.2.st ≠ .free && mine e.1).flatMap fun e =>
    (e.2.pages.map fun x => (e.2.home, x.2 - 1)) ++ e.2.ptFrames.map fun f => (e.2.home, f)
  s.each (fun s t => ((s.stk t).fc.filter fun x => fcKind x.cmd = 2 &&
    (List.range (fcFrames x.cmd)).any fun i => decide ((fcSrcStack x.cmd, fcSrc x.cmd + i) ∈ frames)).foldl
      (fun s x => s.fcAbandon t x) s) (List.range 16)

/-- A message is a WRITE of a context of this module (R400, R405). -/
def State.ownWrite (s : State) (p h : Nat) (m : PortMsg) : Bool :=
  mKind m.hdr = 1 && mSrc m.hdr = s.moduleId && mPart m.hdr = p && m.tag = h

/-- The flits of a context that are queued at the Onlan ports are discarded, with the WRITEs that they carry (R367; log entry 34). -/
def State.dropFlits (s : State) (p h : Nat) : State :=
  let queued (m : MsgOut) : Bool := match m.port with
    | none => true
    | some n => (s.port n).sendq.any fun x => s.ownWrite p h x.2.2 && mDst x.2.2.hdr = m.dst && mSeq x.2.2.hdr = m.seq
  { s with sends := s.sends.filter fun m => !(decide (m.part = p ∧ m.ctx = h) && queued m),
           heldMsgs := s.heldMsgs.filter fun m => !s.ownWrite p h m,
           ports := SMap.mapV {} (fun _ k => { k with sendq := k.sendq.filter fun x => !s.ownWrite p h x.2.2 }) s.ports }

/-- A landing 2 in progress includes work of a context (R391): of a core or an attention engine, what it had in hand; of the other engines, that
of every partition that the reset has halted. -/
def State.inLanding2 (s : State) (p h : Nat) : Bool :=
  s.rcv.haltedBy.any fun x => decide (x.1 = p) && s.rcv.resetting.contains x.2 &&
    (if x.2 < 192 then ((s.core x.2).part = p && (s.core x.2).ctx = h && (s.core x.2).phase ≠ .idle) || s.tick.worked.contains (x.2, p, h)
     else if 208 ≤ x.2 ∧ x.2 < 224 then ((s.stk (x.2 - 208)).rows.any fun r => r.part = p && r.ctx = h) || s.tick.worked.contains (x.2, p, h)
     else true)

/-- The fence of one context (R367): its epoch rises and every unit stops its work. -/
def State.fenceCtx (s : State) (p h : Nat) : State :=
  match s.ctx p h with
  | none => s
  | some x =>
    let s := ((s.tearBg p h).dropFlits p h).setCtx p h (some { x with tear := .fenced, epoch := x.epoch + 1 })
    let mine (f : FlightSt) : Bool := f.part = p && f.ctx = h
    let go (n : Nat) (f : FlightSt) : FlightSt :=
      if mine f ∧ (f.endStatus = none ∨ f.endStatus = some 0) then
        let st := tearStatus x n
        { f with endStatus := some st } else f
    let drop (k : CoreSt) : CoreSt :=
      { k.fenceCtx p h with waiting := k.waiting.filter fun n => match s.flight n with
          | some f => !mine f
          | none => true }
    let stop (t : StreamSt) : StreamSt := if t.st ≠ .free ∧ t.part = p ∧ t.ctx = h then t.fence else t
    let shut (w : InWin) : InWin := if w.part = p ∧ w.ctx = h then { w with stale := true } else w
    let mineC (c : ComplSt) : Bool := (c.opcode = 0x01 && c.ctx = h) || (c.opcode = 0x0A && (s.stream c.result).ctx = h)
    let torn (c : ComplSt) : ComplSt :=
      if queuePart c.queue = some p ∧ c.status = 0 ∧ mineC c then { c with status := 0x2A } else c
    let s : State := { s with
      cores := SMap.mapV {} (fun _ k => drop k) s.cores, flights := SMap.mapV none (fun n f => f.map (go n)) s.flights,
      streams := SMap.mapV {} (fun _ t => stop t) s.streams,
      inWins := SMap.mapV none (fun _ w => w.map shut) s.inWins, compl := s.compl.map torn, waitPub := s.waitPub.map torn }
    let held := s.admitted.filter fun a => queuePart a.1 = some p && sCtx a.2.d = h && (sOp a.2.d = 0x01 || sOp a.2.d = 0x0A)
    let s := { s with admitted := s.admitted.filter fun a => !(queuePart a.1 = some p && sCtx a.2.d = h && (sOp a.2.d = 0x01 || sOp a.2.d = 0x0A)) }
    let s := held.foldl (fun s a => s.complete a.1 a.2 0x2A) s
    s.each (fun s t => s.setRows t fun l => l.filter fun r => !decide (r.part = p ∧ r.ctx = h)) (List.range 16)

/-- A context is torn down in the landing 1 of another of its job (R372). -/
def State.joinLanding (s : State) (p h : Nat) : State :=
  s.updCtx p h fun x => if x.tear = .none then { x with tear := .faulted, status := 0x2A, unit := 241, faultFlight := none } else x

/-- Teardown begins: the context and the others of its job are fenced, in one landing 1 (R367, R372). It waits for the reset of an engine whose
landing 2 includes its work (R391). -/
def execContextFence (p : PartId) (h : BitVec 16) (s : State) : Host.Outcome State Fault Refusal :=
  match s.ctx p h.toNat with
  | some x =>
    if x.tear = .faulted ∧ !s.inLanding2 p h.toNat then
      let mates := (s.jobMates p h.toNat).filter fun m => match s.ctx p m with
        | some y => y.tear = .none || y.tear = .faulted
        | none => false
      let s := mates.foldl (fun s m => s.joinLanding p m) s
      .next ((h.toNat :: mates).foldl (fun s m => s.fenceCtx p m) s)
    else .next s
  | none => .next s

/-- The drain of one context (R366, R368): what is still on its way with the old epoch is discarded and counted. -/
def State.drainCtx (s : State) (p h : Nat) : State :=
  match s.ctx p h with
  | none => s
  | some x =>
    if x.tear ≠ .fenced then s
    else
      let sg := s.signals.countP fun m => decide (m.part = p ∧ m.ctx = h)
      let cd := s.cands.countP fun m => decide (m.part = p ∧ m.ctx = h)
      let s := { s with signals := s.signals.filter fun m => !decide (m.part = p ∧ m.ctx = h),
                        cands := s.cands.filter fun m => !decide (m.part = p ∧ m.ctx = h) }
      (s.staleDrop (sg + cd)).setCtx p h (some { x with tear := .drained })

/-- The drain is complete, for the context and for the others of its job (R368). -/
def execContextDrainComplete (p : PartId) (h : BitVec 16) (s : State) : Host.Outcome State Fault Refusal :=
  .next ((h.toNat :: s.jobMates p h.toNat).foldl (fun s m => s.drainCtx p m) s)

/-- Zero-fill a range of a scratchpad: words that it writes whole hold no error any more, and rows that it covers take their committed remaps
(R202, R204, R364). -/
def CoreSt.zeroScr (k : CoreSt) (off len : Nat) : CoreSt := (k.zeroBytes off len).rowsZeroed off len

/-- A core that ran a flight of a torn-down context is cleared (R369): accumulator memory closed, count registers cleared, the
parameter cache invalid, the flight's region zero. -/
def CoreSt.clearCtx (k : CoreSt) (p h : Nat) (r : Region) : CoreSt :=
  let k := k.zeroScr r.off r.len
  if k.bound = some (p, h) then
    { k with phase := .idle, ctrlq := [], loops := [], halves := [], cnt := [], pcache := [], bound := none, stat := none, waitKind := 0 }
  else k

/-- The flights of a context that have begun, ended or not. -/
def State.ctxFlights (s : State) (p h : Nat) : List FlightSt :=
  s.flights.filterMap fun e => match e.2 with
    | some f => if f.part = p ∧ f.ctx = h then some f else none
    | none => none

/-- The regions that a context's work used (R369, R375): its flights' that have begun, and those of cores that ran a flight of it which has
been retired since, where a graph still has the region. -/
def State.usedRegions (s : State) (p h : Nat) : List (Nat × Region) :=
  let fs := (s.ctxFlights p h).filter fun f => f.begun
  let placed := (s.part p).graphs.flatMap fun e => match e.2 with
    | some g => g.placed.map fun r => (e.1, r)
    | none => []
  (fs.flatMap fun f => f.slots.map fun r => (f.graph, r)) ++
    placed.filter fun x => decide ((s.core x.2.core).bound = some (p, h)) &&
      decide ((s.core x.2.core).region.off = x.2.off ∧ (s.core x.2.core).region.len = x.2.len)

/-- The clear of one context (R369, R375): cores and regions, and a refill of the scratchpad-held weights that lay there. -/
def State.clearCtx (s : State) (p h : Nat) : State :=
  match s.ctx p h with
  | none => s
  | some x =>
    if x.tear ≠ .drained then s
    else
      let rs := s.usedRegions p h
      let s := rs.foldl (fun s x => s.setCore x.2.core ((s.core x.2.core).clearCtx p h x.2)) s
      let s := s.each (fun s c => if (s.core c).bound = some (p, h) then s.setCore c ((s.core c).clearCtx p h noRegion) else s) (List.range 192)
      let gs := ((rs.map Prod.fst).eraseDups).filter fun g => ((s.graph p g).map GraphSt.scratchHeld).getD false
      let s := gs.foldl (fun s g =>
        let hold (f : FlightSt) : FlightSt := if f.part = p ∧ f.graph = g ∧ !f.begun then { f with heldReload := true } else f
        { s with flights := SMap.mapV none (fun _ f => f.map hold) s.flights }.startBg (.refill p g)) s
      let s := s.setCtx p h (some { x with tear := .cleared })
      s.landingsDone fun l => l.level = 1 && l.part = some p && l.ctx = some h

/-- The clear is complete, for the context and for the others of its job; its landing 1 is over (R369, R382). -/
def execContextClearComplete (p : PartId) (h : BitVec 16) (s : State) : Host.Outcome State Fault Refusal :=
  .next ((h.toNat :: s.jobMates p h.toNat).foldl (fun s m => s.clearCtx p m) s)

/-- The context accepts work again (R370): a drawn seed is drawn again. -/
def State.readmit (s : State) (p h : Nat) : State :=
  match s.ctx p h with
  | none => s
  | some x =>
    if x.tear ≠ .cleared then s
    else
      let r := if x.seedGiven then (x.seed, s) else s.draw
      r.2.setCtx p h (some { x with tear := .none, status := 0, unit := 0, faultFlight := none, seed := r.1 })

/-! ## Landings 3 and 4 (R376, R384, R385) -/

/-- A core of a gallery that is cleared (R376): scratchpad, accumulator memory, registers, program store, parameter cache;
its progress counters, error counters and remap table stay, with committed entries applied (R204). -/
def CoreSt.cleared (k : CoreSt) : CoreSt :=
  { arrayP := k.arrayP, vectorP := k.vectorP, dmaP := k.dmaP, controlP := k.controlP, snap := k.snap, snapBusy := k.snapBusy,
    snapTick := k.snapTick, eccCor := k.eccCor, eccUnc := k.eccUnc, rowLog := k.rowLog, remap := k.remap ++ k.remapPend,
    retireMark := k.retireMark, inReset := k.inReset, waiting := k.waiting }

/-- A core that is reset as it is cleared: its progress counters count from 0 again (R151, R384). -/
def CoreSt.clearedAnew (k : CoreSt) : CoreSt := { k.cleared with arrayP := 0, vectorP := 0, dmaP := 0, controlP := 0 }

/-- Clear the cores of a gallery and await its read-back. Those of a gallery that stays in its partition are reset too. -/
def State.clearGallery (s : State) (g : Nat) (p : Option Nat) (stays : Bool) : State :=
  let s := s.each (fun s c => s.setCore c (if stays then (s.core c).clearedAnew else (s.core c).cleared)) ((List.range 8).map fun i => 8 * g + i)
  { s with rcv := { s.rcv with clearing := (s.rcv.clearing.filter fun x => !decide (x.1 = g)) ++ [(g, p, stays)] } }

/-- The galleries of a partition. -/
def State.galleriesOf (s : State) (p : Nat) : List Nat := (List.range 24).filter fun g => bit (s.reg (pfBase p + rPrtGalleries)).toNat g

/-- Release every KV frame of a partition, its prefix trees with them. -/
def State.releaseKv (s : State) (p : Nat) : State :=
  let s := { s with prefixes := s.prefixes.filter fun e => !decide (e.part = p) }
  s.each (fun s t => s.setStk t { s.stk t with frames := SMap.mapV {} (fun _ f =>
    if f.part = p ∧ f.use = .kv ∧ f.st = .allocated then { f with released := true, refs := 0 } else f) (s.stk t).frames }) (List.range 16)

/-- Tear down every context of a partition with TORN_DOWN, except where a fault already gave its cause (R365, R384). -/
def State.tearAll (s : State) (p : Nat) : State :=
  (s.part p).ctxs.foldl (fun (s : State) e =>
    match s.ctx p e.1 with
    | some x =>
      let s := if x.tear = .none then
          let y : CtxSt := { x with tear := TearPhase.faulted, status := 0x2A, unit := 241, faultFlight := none }
          s.setCtx p e.1 (some y) else s
      let s := match s.ctx p e.1 with
        | some (y : CtxSt) => if y.tear = TearPhase.faulted then s.fenceCtx p e.1 else s
        | none => s
      (s.drainCtx p e.1).clearCtx p e.1
    | none => s) s

/-- The streams of a partition have lost their pages: their references are gone and they end FAULTED. -/
def State.loseStreams (s : State) (p : Nat) : State :=
  { s with streams := SMap.mapV {} (fun _ t => if t.st ≠ .free ∧ t.part = p then
      { t.fence with pages := [], ptFrames := [], ctx := t.ctx } else t) s.streams }

/-- The mirror of a partition that a landing 3 has cleared (R430): its shadow drops to NOT_READY, for the gap in the delta sequence is answered
with RESYNC; a shadow that is cleared itself is NOT_READY. -/
def State.mirrorLoses (s : State) (p : Nat) : State :=
  let m := s.mirp p
  if s.mirrored p then s.setMirp p { m with deltaSeq := m.deltaSeq + 1, streamed := [] }
  else if s.isShadow p then
    { s.setMirp p { m with shadow := 0, staged := [], due := [], launches := [], unmirrored := [], frameMap := [], slotMap := [], promoting := false,
                           promoteDue := false, takes := [] } with
      bg := s.bg.filter fun b => !decide (b.kind = BgKind.shadowSync p) }
  else s

/-- What a landing 3 does to a partition (R384): contexts torn down, cores cleared, KV frames released, graphs to be placed
again from the same inputs, which step 3 does once its galleries are clear. -/
def State.landing3Effects (s : State) (p : Nat) : State :=
  let s := (s.absorb fun l => l.level ≤ 2 && l.part = some p).tearAll p
  let s := (s.loseStreams p).releaseKv p
  let s := (s.galleriesOf p).foldl (fun s g => s.clearGallery g (some p) true) s
  let k := s.part p
  let s := s.setPart p { k with graphs := SMap.mapV none (fun _ g => g.map fun g => { g with placed := [] }) k.graphs }
  let hold (f : FlightSt) : FlightSt := if f.part = p ∧ f.endStatus.isNone then { f with heldReload := true } else f
  { s with flights := SMap.mapV none (fun _ f => f.map hold) s.flights,
           rcv := { s.rcv with halted := s.rcv.halted.filter fun x => !decide (x = p) },
           tick := { s.tick with halts := s.tick.halts.filter fun x => !decide (x.1 = p) } }.mirrorLoses p

/-- Partitions are halted as R74 sets out, with their in-flight reports written (R75, R383, R384). -/
def State.haltFor (s : State) (ps : List Nat) : State :=
  let c := Config.cycles s.freeCtr
  ps.foldl (fun s p => (s.haltPart p).writeReport p false c) { s with freeCtr := s.freeCtr + 1 }

/-- A landing 3 of a partition: it is halted with its report written, and cleared; with nothing to clear it is over at once. -/
def State.landing3 (s : State) (p unit status : Nat) : State :=
  let s := (s.landing 3 unit status (some p) none).haltFor [p]
  let s := s.landing3Effects p
  if s.galleriesOf p = [] then s.landingsDone fun l => l.level = 3 && l.part = some p else s

/-- Landings 4 within 3,600 s of now (R388). -/
def recentLandings4 (now : Word) (l : List Word) : List Word := l.filter fun t => decide ((now - t).toNat ≤ 3600000000000)

/-- Stored graphs become non-resident and their WEIGHTS frames are released (R385). -/
def State.unresident (s : State) (p : Nat) : State :=
  let k := s.part p
  let fs := k.graphs.flatMap fun e => match e.2 with
    | some g => g.frames
    | none => []
  (s.setPart p { k with graphs := SMap.mapV none (fun _ g => g.map fun g =>
    { g with resident := false, reloading := false, moving := none, weights := [], oldGens := [], placed := [], batchAt := [] }) k.graphs }).releaseFrames fs

/-- The runtime firmware in the active flash bank. -/
def State.firmware (s : State) : Option FwImage := s.sec.images.find? fun x => decide (x.component = 2) && x.active

/-- The least version of a component that Jormir accepts (R446). -/
def ConfigRec.least (r : ConfigRec) (c : Nat) : Nat := if c = 1 then r.minJormir else r.minRuntime

/-- An image may be loaded (R434, R446): a Tabfold firmware key signed it, and its version is not below the recorded minimum. -/
def State.loads (s : State) (x : FwImage) : Bool := x.verified && !decide (x.version < s.sec.record.least x.component)

/-- Jormir loads the runtime firmware from flash and measures it into slot 3 (R385, R455). An image that fails verification parks the module
(R389, R434). -/
def State.reloadFirmware (s : State) : State :=
  match s.firmware with
  | some f =>
    if s.loads f then { s with sec := { s.sec with runtimeVersion := f.version, lastMeasure := s.tickNo.toNat } }.extendSlot 3 f.image
    else s.park 0x03
  | none => s.park 0x03

/-- A landing 4 holds the dies in self-refresh; OFF and RESTORING dies stay as they are (R385, R386). -/
def StackSt.holdDies (k : StackSt) : StackSt :=
  if k.srHeld.isSome then k
  else (List.range 16).foldl (fun k d => if k.die d = 4 ∨ k.die d = 5 then k else k.setDie d 2) { k with srHeld := some k.dies }

/-- After it, the dies are in the states that they had before. -/
def StackSt.freeDies (k : StackSt) : StackSt :=
  match k.srHeld with
  | none => k
  | some m => (List.range 16).foldl (fun k d => if k.die d = 4 ∨ k.die d = 5 then k else k.setDie d (SMap.get 0 m d)) { k with srHeld := none }

/-- A landing 4 (R385, R386, R388): every partition loses what a landing 3 takes, the halls, the management clusters and most of the
I/O die are reset, the runtime firmware is loaded and measured again. The third within 3,600 s parks the module. -/
def State.landing4 (s : State) (unit status : Nat) : State :=
  let s := s.landing 4 unit status none none
  let s := { s with mir := { s.mir with claimOut := false, claimOff := true } }
  let s := s.alarm 4 241 (s.fld rPrtLandings 63 48) (s.fld rPrtFaultStatus 39 32)
  let t := s.stampTime
  let times := recentLandings4 t.1 t.2.rcv.landing4s ++ [t.1]
  let s := { t.2 with rcv := { t.2.rcv with landing4s := times } }
  let s := (s.absorb fun l => l.level ≤ 3).haltFor (s.partsWith fun k => k.st = .active || k.st = .softStopping)
  let s := s.each (fun s p => (s.landing3Effects p).unresident p) (List.range 16)
  let s := s.tornDescriptors
  let s := s.endFlights 0x2A fun _ => true
  let owner (g : Nat) : Option Nat := (List.range 16).find? fun p => (s.galleriesOf p).contains g
  let s := s.each (fun s g => s.clearGallery g (owner g) true) (List.range 24)
  let rcv := { s.rcv with suspects := [], replaying := none, resetting := [], halted := [], haltedBy := [], rerun := [] }
  let s := { s with cands := [], signals := [], reads := [], sends := [], rcv := rcv }
  let s := s.each (fun s t => (s.stk t).fc.foldl (fun s x => s.fcAbandon t x) s) (List.range 16)
  let s := (s.setFld rHifStatus 0 0 0).each (fun s t => s.setStk t { (s.stk t).holdDies with rows := [] }) (List.range 16)
  let s := s.reloadFirmware
  if 3 ≤ times.length then s.park 0x04 else s

/-- A landing 3 that the runtime firmware requests (R384). -/
def execLanding3Request (p : PartId) (s : State) : Host.Outcome State Fault Refusal :=
  if (s.part p).st = .absent then .next s else .next (s.landing3 p 241 0x2A)

/-- A landing 4 (R385). -/
def execLanding4 (s : State) : Host.Outcome State Fault Refusal := .next (s.landing4 241 0x2A)

/-- The core of a unit belongs to this partition. -/
def State.unitPart (s : State) (u : Nat) : Option Nat := (List.range 16).find? fun p => s.coreOf p u

/-- A landing escalates to the next on the smallest scope that contains it (R387). -/
def State.escalate (s : State) (l : LandingSt) : State :=
  let s := s.absorb fun x => x.id = l.id
  match l.level with
  | 1 => s.landing3 (l.part.getD 0) 241 l.cause
  | 2 =>
    (match (if l.unit < 192 then (l.part.orElse fun _ => s.unitPart l.unit) else none) with
     | some p => s.landing3 p 241 l.cause
     | none => s.landing4 241 l.cause)
  | 3 => s.landing4 241 l.cause
  | _ => s.park 0x01

/-- A landing exceeds its bound (R387). -/
def execLandingBoundExpiry (id : Nat) (s : State) : Host.Outcome State Fault Refusal :=
  match s.rcv.landings.find? fun l => decide (l.id = id) with
  | some l => .next (s.escalate l)
  | none => .next s

/-! ## Landing 2: engines (R379, R380, R383, R388) -/

/-- The partitions with work on an engine (R383): for the front end and the sequencer, every one that is not stopped. -/
def State.workOn (s : State) (u : Nat) : List Nat :=
  let run := s.partsWith fun k => k.st = .active || k.st = .softStopping
  if u < 192 then run.filter fun p => (s.core u).phase ≠ .idle && (s.core u).part = p
  else if u < 208 then run.filter fun p => (s.stk (u - 192)).fc.any fun x => fcPart x.cmd = p
  else if u < 224 then run.filter fun p => (s.stk (u - 208)).rows.any fun r => r.part = p
  else if u < 226 then run
  else []

/-- The contexts that had work on a core or an attention engine in the tick in progress, in replay order (R379, R380), but for one being
torn down. -/
def State.suspectsOn (s : State) (u : Nat) : List Suspect :=
  let now := if u < 192 then (if (s.core u).phase ≠ .idle then [((s.core u).part, (s.core u).ctx)] else [])
    else if 208 ≤ u ∧ u < 224 then (s.stk (u - 208)).rows.map fun r => (r.part, r.ctx) else []
  let cs := (now ++ (s.tick.worked.filter fun x => decide (x.1 = u)).map Prod.snd).eraseDups
  ((sortBy id cs).filter fun c => !s.tearing c.1 c.2).map fun c => { part := c.1, ctx := c.2, unit := u }

/-- A landing 2 of an engine (R383): the partitions with work on it are halted with their reports written, and its reset begins. -/
def State.landing2 (s : State) (u status : Nat) : State :=
  let ps := s.workOn u
  let part := if u < 192 then ps.head? else none
  let s := s.landing 2 u status part none
  { s with rcv := { s.rcv with resetting := s.rcv.resetting ++ [u], halted := (s.rcv.halted ++ ps).eraseDups,
                               haltedBy := s.rcv.haltedBy ++ ps.map fun p => (p, u) } }.haltFor ps

/-- A unit that has an engine with a landing 2 (R381). -/
def isEngine (u : Nat) : Bool := u < 226

/-- Mark a core for retirement, and its whole gallery (R390). -/
def State.retireCore (s : State) (c : Nat) : State :=
  let s := s.setCore c { s.core c with retireMark := true }
  { s with rcv := { s.rcv with retireAt := if s.rcv.retireAt.any fun x => x.1 = c / 8 then s.rcv.retireAt else s.rcv.retireAt ++ [(c / 8, c)] } }

/-- Count an unattributed landing 2 of an engine; the fourth within 65,536 ticks retires a core, or causes a landing 4 (R388). -/
def State.unattributed (s : State) (u : Nat) : State :=
  let now := s.tickNo.toNat
  let l := s.rcv.unattributed.filter (fun x => decide (now - x.2 < 65536)) ++ [(u, now)]
  let s := { s with rcv := { s.rcv with unattributed := l } }
  if l.countP (fun x => decide (x.1 = u)) < 4 then s
  else if u < 192 then s.retireCore u
  else s.landing4 241 0x27

/-- An engine hangs outside a replay tick of its own (R379): its suspects await their replay. With no suspect to find guilty, as of the front
end, the sequencer or a fill-and-copy engine, the landing 2 is unattributed (R388). -/
def State.hangNew (s : State) (u : Nat) : State :=
  let sus := s.suspectsOn u
  let s := s.landing2 u 0x27
  if sus.isEmpty then s.unattributed u else { s with rcv := { s.rcv with suspects := s.rcv.suspects ++ sus } }

/-- An engine hangs (R377 to R380): its suspects await their replay; a suspect in its own replay tick is guilty. -/
def State.hang (s : State) (u : Nat) : State :=
  if u ∈ s.rcv.resetting then s
  else
    match s.rcv.replaying with
    | some r =>
      if r.unit = u then
        let s := s.landing2 u 0x27
        let s := { s with rcv := { s.rcv with replaying := none, replayed := 0, suspects := s.rcv.suspects.filter fun x => !decide (x.unit = u) } }
        s.contain r.part r.ctx 0x27 u
      else s.hangNew u
    | none => s.hangNew u

/-- A parity or state check inside an engine fails (R363): landing 2. -/
def execEngineFault (unit : Byte) (s : State) : Host.Outcome State Fault Refusal :=
  if isEngine unit.toNat ∧ unit.toNat ∉ s.rcv.resetting then .next ((s.landing2 unit.toNat 0).unattributed unit.toNat)
  else .next s

/-- What the reset of an engine does (R383). -/
def State.resetEngine (s : State) (u : Nat) : State :=
  if u < 192 then
    let k := s.core u
    s.setCore u { k with phase := .idle, ctrlq := [], chans := [], halves := [], stat := none, x := [], v := [], cnt := [],
                         loops := [], bound := none, arrayP := 0, vectorP := 0, dmaP := 0, controlP := 0, waitKind := 0, pcache := [] }
  else if u < 208 then s.setStk (u - 192) { s.stk (u - 192) with fc := [], fcLines := 0 }
  else if u < 224 then s.setStk (u - 208) { s.stk (u - 208) with rows := [], wrrPart := 0, wrrLeft := 0 }
  else if u = 224 then { s with cands := [], streams := SMap.mapV {} (fun _ t => { t with cand := {} }) s.streams }
  else s

/-- The commands that a fill-and-copy engine loses when it is reset are abandoned (R57, R260). -/
def State.abandonFc (s : State) (u : Nat) : State :=
  if 192 ≤ u ∧ u < 208 then (s.stk (u - 192)).fc.foldl (fun s x => s.fcAbandon (u - 192) x) s else s

/-- The engine's reset finishes (R383); its suspects are torn down at once where REPLAY_EN is 0 (R380). -/
def execEngineResetComplete (unit : Byte) (s : State) : Host.Outcome State Fault Refusal :=
  let u := unit.toNat
  if u ∉ s.rcv.resetting then .next s
  else
    let s := (s.abandonFc u).resetEngine u
    let s := { s with rcv := { s.rcv with resetting := s.rcv.resetting.erase u } }
    let s := s.landingsDone fun l => l.level = 2 && l.unit = u
    if s.fld rPrtFaultCtrl 8 8 = 1 then .next s
    else
      let sus := s.rcv.suspects.filter fun x => decide (x.unit = u)
      let s := { s with rcv := { s.rcv with suspects := s.rcv.suspects.filter fun x => !decide (x.unit = u) } }
      .next (sus.foldl (fun s x => s.contain x.part x.ctx 0x27 u) s)

/-- An engine's reset is not complete after 5 ms (R387, R388): it escalates at once, and a core is marked for retirement. -/
def execEngineResetTimeout (unit : Byte) (s : State) : Host.Outcome State Fault Refusal :=
  let u := unit.toNat
  if u ∉ s.rcv.resetting then .next s
  else
    let s := { s with rcv := { s.rcv with resetting := s.rcv.resetting.erase u } }
    let s := if u < 192 then s.retireCore u else s
    match s.rcv.landings.find? fun l => decide (l.level = 2 ∧ l.unit = u) with
    | some l => .next (s.escalate l)
    | none => .next (if u < 192 then s else s.landing4 241 0x27)

/-- A function's landing is over (R385, R471): its function level reset is complete. -/
def State.flrOver (s : State) (fn : Nat) : State := { s with rcv := { s.rcv with flr := s.rcv.flr.filter fun x => !decide (x = fn) } }

/-- BOOT_DONE reads 1 again, with a Function Readiness Status message, once no landing 4 and no function level reset is in progress
(R385, R471, R507), and the dies leave self-refresh (R386); a parked module stays as it is. -/
def State.readyAgain (s : State) : State :=
  if s.bootDone || s.sec.parked || !s.rcv.flr.isEmpty || s.rcv.landings.any (fun l => l.level = 4) then s
  else
    let s := s.each (fun s t => s.setStk t (s.stk t).freeDies) (List.range 16)
    { s with pwr := { s.pwr with frs := s.pwr.frs + 1 }, mir := { s.mir with claimOff := false } }.setFld rHifStatus 0 0 1

/-- A landing 3 of a partition is complete. -/
def State.landing3Done (s : State) (p : Nat) : State :=
  let s := s.landingsDone fun l => l.level = 3 && l.part = some p
  if s.rcv.flr.contains (p + 1) then (s.flrOver (p + 1)).readyAgain else s

/-- Jormir finishes zero-filling and reading back a gallery (R376): one that fails is marked for retirement; a leaving gallery
is then held by no partition. The last of a landing 3 or 4 ends it. -/
def execGalleryClearComplete (g : Fin 24) (readsZero : Bool) (s : State) : Host.Outcome State Fault Refusal :=
  match s.rcv.clearing.find? fun x => decide (x.1 = g.val) with
  | none => .next s
  | some (_, p, _) =>
    let s := { s with rcv := { s.rcv with clearing := s.rcv.clearing.filter fun x => !decide (x.1 = g.val) } }
    let s := { s with rcv := { s.rcv with unclean := s.rcv.unclean.filter fun x => !decide (x = g.val) } }
    let s := if readsZero then s else { s with rcv := { s.rcv with unclean := s.rcv.unclean ++ [g.val] } }.retireCore (8 * g)
    let s := match p with
      | some p => if s.rcv.clearing.any fun x => x.2.1 = some p then s
                  else s.landing3Done p
      | none => s
    if s.rcv.clearing.isEmpty && s.rcv.landings.any (fun l => l.level = 4) then
      let s := s.landingsDone fun l => l.level = 4
      .next { s with rcv := { s.rcv with flr := [] } }.readyAgain
    else .next s

/-- The runtime firmware misses 4 consecutive tick heartbeats (R363): landing 4. -/
def execFirmwareWatchdog (s : State) : Host.Outcome State Fault Refusal := .next (s.landing4 242 0x2A)

/-! ## Hang detection (R377, R378) -/

/-- BUSY of a core's queue q (R152): 0 array, 1 vector, 2 DMA, 3 control. The array and vector units hold nothing between
commands. DESIGN CHOICE (log entry 145): after END the control queue stays busy while a channel of the core holds an instruction, for the
spec does not say. -/
def CoreSt.busy (k : CoreSt) (q : Nat) : Bool :=
  match q with
  | 2 => !k.ents.isEmpty
  | 3 => k.phase = .running || !k.ctrlq.isEmpty || (k.phase = .ended && !k.ents.isEmpty)
  | _ => false

/-- BUSY as its register shows it. -/
def CoreSt.busyBits (k : CoreSt) : Nat := (if k.busy 2 then 4 else 0) + (if k.busy 3 then 8 else 0)

/-- A core's progress counter of queue q. -/
def CoreSt.progress (k : CoreSt) (q : Nat) : Nat :=
  match q with
  | 0 => k.arrayP
  | 1 => k.vectorP
  | 2 => k.dmaP
  | _ => k.controlP

/-- The key of an engine's sample: 4 × core + queue, 768 + s an attention engine, 784 + s a fill-and-copy engine, 800 the
sequencer, 801 the front end. -/
def unitOfKey (i : Nat) : Nat :=
  if i < 768 then i / 4 else if i < 784 then 208 + (i - 768) else if i < 800 then 192 + (i - 784) else if i = 800 then 224 else 225

/-- One engine as a sample sees it (R377). -/
def State.sampleOf (s : State) (i : Nat) : Sample :=
  if i < 768 then
    let k := s.core (i / 4)
    { busy := k.busy (i % 4), count := k.progress (i % 4), kind := if i % 4 = 3 then k.shownWait else 0 }
  else if i < 784 then
    let k := s.stk (i - 768)
    { busy := !k.rows.isEmpty, count := k.rowsDone }
  else if i < 800 then
    let k := s.stk (i - 784)
    { busy := k.fc.any fun x => x.phase = .active, count := k.fcLines }
  else if i = 800 then
    { busy := s.streams.any fun e => e.2.visitDue && e.2.visited.isNone && decide (e.2.cand.arrived ≠ 0 ∧ e.2.cand.arrived = e.2.cand.parts),
      count := s.tick.visitsEver }
  else
    { busy := s.queues.any fun e => e.2.st = .active && decide (e.2.fetch % 2 ^ 32 ≠ e.2.tail) && decide (e.2.buffer.length < 256) &&
        decide (e.2.outstanding + 2 ≤ s.cqFree e.1 e.2.head),
      count := (s.reg rFeFetched).toNat + (s.queues.map fun e => e.2.admitted).sum }

/-- Take a progress sample; the last 64 are kept. -/
def State.takeSample (s : State) : State :=
  let m : SMap Sample := (List.range 802).filterMap fun i =>
    let x := s.sampleOf i
    if x.busy then some (i, x) else none
  { s with tick := { s.tick with samples := (m :: s.tick.samples).take 64, sinceOpen := s.tick.sinceOpen + 1 } }

/-- Engine i was busy with its counter unchanged through the newest n samples. -/
def State.stuck (s : State) (n i : Nat) : Bool :=
  let l := s.tick.samples.take n
  decide (2 ≤ l.length ∧ l.length = n) &&
  l.all fun m => decide ((SMap.get {} m i).busy = true ∧ (SMap.get {} m i).count = (SMap.get {} (l.headD []) i).count)

/-- A core's control queue waited for a count or an acquire throughout: a stall of its context (R377). -/
def State.stalledKey (s : State) (n i : Nat) : Bool :=
  i < 768 && i % 4 = 3 && s.stuck n i && (s.tick.samples.take n).all fun m =>
    let k := (SMap.get {} m i).kind
    k = 1 || k = 2

/-- Engine i is hung over the newest n samples (R377). -/
def State.hungKey (s : State) (n i : Nat) : Bool :=
  if i < 768 ∧ i % 4 = 3 then
    s.stuck n i && (s.tick.samples.take n).any fun m =>
      let k := (SMap.get {} m i).kind
      k = 0 || k = 6 || k = 7 || ((k = 4 || k = 5) && (s.stuck n (i - 1) || s.stuck n (i - 2) || s.stuck n (i - 3)))
  else s.stuck n i

/-- Act on the newest n samples: hung engines begin a landing 2, stalled contexts are torn down with HANG (R377). -/
def State.judge (s : State) (n : Nat) : State :=
  let hung := ((List.range 802).filter fun i => s.hungKey n i).map unitOfKey
  let stalls := (List.range 192).filter fun c => s.stalledKey n (4 * c + 3) && decide (c ∉ hung)
  let s' := hung.eraseDups.foldl (fun s u => s.hang u) s
  stalls.foldl (fun s' c => s'.contain (s.core c).part (s.core c).ctx 0x27 c) s'

/-- A progress sample with its windows checked (R377). -/
def State.progressCheck (s : State) : State :=
  let s := s.takeSample
  s.judge (s.fld rPrtFaultCtrl 6 0)

/-- A sample of a stretched tick, at its open plus k × P (R377). -/
def execProgressSample (s : State) : Host.Outcome State Fault Refusal :=
  if s.tick.isOpen ∧ s.tick.overrun then .next s.progressCheck else .next s

/-- The stretch limit expires (R62, R378): each holder is tested and torn down with HANG or TICK_LIMIT. -/
def execLimitPoint (s : State) : Host.Outcome State Fault Refusal :=
  if !s.tick.isOpen || s.tick.tearing || s.holders = [] then .next s
  else
    let s := s.takeSample
    let n := s.tick.sinceOpen
    let hs := s.holders
    let units (p h : Nat) : List Nat :=
      ((List.range 192).filter fun c => ((s.core c).phase ≠ .idle && (s.core c).part = p && (s.core c).ctx = h) ||
        (s.core c).ents.any fun e => e.part = p && e.ctx = h) ++
      ((List.range 16).filter fun t => (s.stk t).rows.any fun r => r.part = p && r.ctx = h).map (208 + ·) ++
      (if s.streams.any fun e => e.2.part = p && e.2.ctx = h && e.2.visitDue && e.2.visited.isNone then [224] else []) ++
      ((List.range 16).filter fun t => (s.stk t).fc.any fun x => x.phase = .active && fcPart x.cmd = p).map (192 + ·)
    let hungOf (u : Nat) : Bool := (List.range 802).any fun i => unitOfKey i = u && s.hungKey n i
    let s := (s.flag rTckStatus 4)
    let s' := { s with tick := { s.tick with limitHit := true, tearing := true } }
    .next (hs.foldl (fun s' x =>
      let us := units x.1 x.2
      match us.filter hungOf with
      | u :: t => (u :: t).foldl (fun s' u => s'.hang u) s'
      | [] =>
        if us.any fun u => u < 192 && s.stalledKey n (4 * u + 3) then s'.contain x.1 x.2 0x27 241
        else s'.contain x.1 x.2 0x20 226) s')

/-! ## At a boundary (R380, R383, R390) -/

/-- What a flight did in an abandoned tick is undone with it: it runs, or it has ended in that tick with no other status (R76, R383). -/
def FlightSt.undone (f : FlightSt) : Bool := f.endStatus = none || f.endStatus = some 0

/-- A flight of a halted partition is put back (R383): lowered programs enter again at their entry, extension programs end. -/
def State.rerunFlight (s : State) (n : Nat) : State :=
  match s.flight n with
  | none => s
  | some f =>
    if !f.begun ∨ !f.undone then s
    else
      let s := s.onCores (fun k => k.drop n) f.cores
      if f.extension then s.setFlight n (some { f with endStatus := some 0x21 })
      else (s.setFlight n (some { f with begun := false, ended := [], endStatus := none, fromTick := s.tickNo.toNat + 1 })).requeue n f.slots

/-- The halted partitions none of whose engines is still being reset resume at this boundary: the tick is abandoned for them (R383). One that a
hard stop has taken meanwhile resumes from that (R76, R391). -/
def State.resumeHalted (s : State) : State :=
  let waits (p : Nat) : Bool := s.rcv.haltedBy.any fun x => x.1 = p && s.rcv.resetting.contains x.2
  let ps := s.rcv.halted.filter fun p => !waits p && !((s.part p).st = .hardStopping || (s.part p).st = .hardStopped)
  let s := ps.foldl (fun s p =>
    let ns := s.flightsOf fun f => f.part = p && f.begun && f.undone
    (ns.foldl (fun s n => s.rerunFlight n) s).abandonTick p) s
  { s with rcv := { s.rcv with halted := s.rcv.halted.filter fun p => waits p, haltedBy := s.rcv.haltedBy.filter fun x => waits x.1 } }

/-- The hang of an engine whose suspects have all been replayed is not reproduced (R380). -/
def State.notReproduced (s : State) (u n : Nat) : State :=
  let s := (s.emit u 0x13 n 0).unattributed u
  { s with rcv := { s.rcv with replayed := 0 } }

/-- A replay tick ends without a hang: the next suspect's follows, and after the last of an engine its hang is not reproduced (R380). The
next tick is a replay tick only once the engine's reset is complete. -/
def State.nextReplay (s : State) : State :=
  let s := match s.rcv.replaying with
    | none => s
    | some r =>
      let n := s.rcv.replayed + 1
      let s := { s with rcv := { s.rcv with replaying := none, replayed := n } }
      if s.rcv.suspects.any fun x => x.unit = r.unit then s else s.notReproduced r.unit n
  match s.rcv.suspects with
  | [] => s
  | x :: xs => if s.rcv.resetting.contains x.unit then s else { s with rcv := { s.rcv with replaying := some x, suspects := xs } }

/-- A gallery marked for retirement leaves its partition (R390): its graphs' flights are held until a new placement. -/
def State.retireGallery (s : State) (g unit : Nat) : State :=
  let owner := (List.range 16).find? fun p => (s.galleriesOf p).contains g
  let s := (s.setFld rPrtRetired 23 0 ((s.reg rPrtRetired).toNat % 2 ^ 24 ||| 2 ^ g)).commitRecord fun r =>
    { r with retiredGalleries := r.retiredGalleries ||| 2 ^ g }
  let s := match owner with
    | none => s
    | some p =>
      let hold (f : FlightSt) : FlightSt :=
        if f.part = p ∧ !f.begun ∧ f.slots.any (fun r => decide (r.core / 8 = g)) then { f with heldReload := true } else f
      let s := s.setFld (pfBase p + rPrtGalleries) g g 0
      let k := s.part p
      let lost (x : GraphSt) : GraphSt := if x.placed.any fun r => r.core / 8 = g then { x with placed := [] } else x
      { s.setPart p { k with prefill := if bit k.prefill g then k.prefill - 2 ^ g else k.prefill, graphs := SMap.mapV none (fun _ x => x.map lost) k.graphs } with
        flights := SMap.mapV none (fun _ f => f.map hold) s.flights }
  s.emit unit 0x14 unit (2 ^ g) owner

/-- Retirements marked before this boundary (R390): the gallery leaves its partition now, and is cleared once nothing that ran
on it is left there (R391). -/
def State.retirements (s : State) : State :=
  s.rcv.retireAt.foldl (fun s x =>
    let s := if bit (s.reg rPrtRetired).toNat x.1 then s else s.retireGallery x.1 x.2
    if (List.range 8).all fun i => (s.core (8 * x.1 + i)).phase = .idle then
      { s with rcv := { s.rcv with retireAt := s.rcv.retireAt.filter fun y => !decide (y.1 = x.1) } }.clearGallery x.1 none false
    else s) s

end Sys2Proof.Machine
end

