-- ==== Sys2Proof/Machine/Registers.lean ====
section
/-! DEFINITION. The register file (R16 to R23, R48, R438, R476 to R486): when a block counts as disabled, where an ignored
write is flagged, Jormir's checks of guarded fields, writes by access type, pending values, and the contexts that CTX_CMD
creates and destroys. -/

namespace Sys2Proof.Machine

/-! ## Disabled blocks and flags (R19) -/

/-- A BAR0 offset answers (R471, R498, R504, R507): every one once BOOT_DONE is 1; before that the HIF and PWR windows, and during a
function level reset the HIF window; while the I/O die is down for WATCH, the always-on domain's PWR window. -/
def State.barOpen (s : State) (off : Nat) : Bool :=
  let pwr := decide (off / 0x10000 = 9)
  s.pwr.pwrGood && !s.pwr.off && !s.pwr.resetHeld &&
  (if s.pstate = 4 ∨ s.pstate = 5 then pwr else s.bootDone || decide (off < 0x10000) || (pwr && s.rcv.flr.isEmpty))

/-- Every Onlan port's EN is 0. -/
def State.onlOff (s : State) : Bool := (List.range 12).all fun n => decide (s.fld (portBase n) 0 0 = 0)

/-- The tick generator is NOT_STARTED, SOFT_STOPPED or HARD_STOPPED (R50). -/
def State.genIdle (s : State) : Bool := decide (s.genState = 0 ∨ s.genState = 3 ∨ s.genState = 5)

/-- The block that holds a register counts as disabled for R19 (R47, R245, R338, R479, R483, R484 and the field tables). -/
def State.blockOff (s : State) (r : RegRef) : Bool :=
  match r.group with
  | .fix =>
    (match r.loc / 0x10000 with
     | 0 => decide (s.fld rFeCtrl 0 0 = 0)
     | 1 => decide (s.fld rTckCtrl 0 0 = 0)
     | 2 => decide (s.fld rFeCtrl 0 0 = 0)
     | 3 => s.genIdle
     | 4 => decide (s.fld rSeqCtrl 0 0 = 0)
     | 5 => decide (s.fld rMirCtrl 0 0 = 0)
     | 6 => s.onlOff
     | 10 => decide (s.fld rDbgCtrl 1 1 = 0)
     | _ => true)
  | .queue => decide ((s.queue r.inst).st = .absent)
  | .route => s.onlOff
  | .port => s.onlOff
  | .pf =>
    if r.loc = rMirMap ∨ r.loc = rMirTakeover then decide (s.fld rMirCtrl 0 0 = 0)
    else
      let x := (s.part r.inst).st
      decide (x = .absent ∨ x = .creating ∨ x = .softStopped ∨ x = .hardStopped)
  | .pfk => true
  | .sl =>
    let x := (s.part r.inst).st
    decide (x = .absent ∨ x = .softStopped ∨ x = .hardStopped)
  | .core => true
  | .stk => decide (s.fld (stkBase r.inst + rStkCtrl) 0 0 = 0)
  | .sae => decide (s.fld (saeBase r.inst + rSaeCtrl) 0 0 = 0)

/-- Where WR_IGNORED of a register is flagged: the status register and its bit (R19). -/
def wrFlag (r : RegRef) : Option (Nat × Nat) :=
  match r.group with
  | .fix =>
    (match r.loc / 0x10000 with
     | 0 => some (rHifFlags, 0)
     | 1 => some (rTckStatus, 6)
     | 2 => some (rFeStatus, 0)
     | 3 => some (rPrtStatus, 0)
     | 4 => some (rSeqStatus, 0)
     | 5 => some (rMirFlags, 0)
     | 6 => some (rOnlStatus, 0)
     | 8 => some (rSecFlags, 0)
     | 9 => some (rPwrStatus, 3)
     | 10 => some (rDbgStatus, 0)
     | 11 => some (rTstStatus, 0)
     | _ => none)
  | .queue => if r.inst = 1024 then some (rFeStatus, 0) else some (sliceBase (r.inst / 64) + rPartStatus, 8)
  | .route => some (rOnlStatus, 0)
  | .port => some (rOnlStatus, 0)
  | .pf =>
    if r.loc = rMirMap ∨ r.loc = rMirTakeover then some (rMirFlags, 0)
    else if r.loc = rSecTdi then some (rSecFlags, 0) else some (rPrtStatus, 0)
  | .pfk => some (rSecFlags, 0)
  | .sl => some (sliceBase r.inst + rPartStatus, 8)
  | .core => none
  | .stk => some (stkBase r.inst + rStkStatus, 0)
  | .sae => some (saeBase r.inst + rSaeStatus, 0)

/-- Flag an ignored write (R19). -/
def State.wrIgnored (s : State) (r : RegRef) : State :=
  match wrFlag r with
  | some x => s.flag x.1 x.2
  | none => s

/-- Jormir refused a write: REFUSED of the register's block (R438). -/
def State.refuseWrite (s : State) (r : RegRef) : State :=
  if r.group = .pfk then s.flag rSecFlags 1
  else if r.loc = rMirMap ∨ r.loc = rMirTakeover then s.flag rMirFlags 1
  else s.flag rPrtStatus 1

/-! ## Guarded fields (R334, R337, R339, R340, R438, R480) -/

/-- A register that holds guarded fields (R438). -/
def guarded (r : RegRef) : Bool :=
  r.group = .pfk || (r.group = .pf && decide (r.loc ∈ [rPrtGalleries, rPrtKvFrames, rPrtGenFrames, rPrtHot, rPrtQuota, rMirMap, rMirTakeover]))

/-- A write makes a sum exceed its limit: it exceeds after, and is greater than before. -/
def exceeds (before after limit : Nat) : Bool := decide (limit < after ∧ before < after)

/-- Frames of a stack that are RETIRED. -/
def StackSt.retired (k : StackSt) : Nat := k.frames.countP fun e => e.2.st = .retired

/-- KV_FRAMES and GEN_FRAMES over the partitions whose stack set includes a stack (R337). -/
def State.frameSum (s : State) (t : Nat) : Nat :=
  ((List.range 16).map fun p => if t ∈ s.stackSet p then
    s.fld (pfBase p + rPrtKvFrames) 20 0 + s.fld (pfBase p + rPrtGenFrames) 20 0 else 0).sum

/-- SAE_SLOTS over the partitions that are not ABSENT and whose stack set includes a stack (R340). -/
def State.saeSum (s : State) (t : Nat) : Nat :=
  ((List.range 16).map fun p => if (s.part p).st ≠ .absent ∧ t ∈ s.stackSet p then s.saeSlots p else 0).sum

/-- A quota field over the partitions that are not ABSENT (R340). -/
def State.quotaSum (s : State) (hi lo : Nat) : Nat :=
  ((List.range 16).map fun p => if (s.part p).st ≠ .absent then s.fld (pfBase p + rPrtQuota) hi lo else 0).sum

/-- HOT_MAX over the partitions (R339). -/
def State.hotSum (s : State) : Nat := ((List.range 16).map fun p => s.fld (pfBase p + rPrtHot) 6 0).sum

/-- A change from one state's registers to another's keeps the sums of R337, R339 and R340. -/
def State.sumsOk (s s' : State) : Bool :=
  (List.range 16).all (fun t => !exceeds (s.frameSum t) (s'.frameSum t) (stackFrames - (s.stk t).retired) &&
    !exceeds (s.saeSum t) (s'.saeSum t) 1024) &&
  !exceeds (s.quotaSum 8 0) (s'.quotaSum 8 0) 256 && !exceeds (s.quotaSum 30 16) (s'.quotaSum 30 16) 16384 &&
  !exceeds s.hotSum s'.hotSum 64

/-- The first address of a page field and of a word field of a register. -/
def State.pageAt (s : State) (off : Nat) : Nat := (s.reg off).toNat / 4096 * 4096
/-- The address of a head or tail word. -/
def State.wordAt (s : State) (off : Nat) : Nat := (s.reg off).toNat / 8 * 8

/-- What a partition's slice sets in host memory: doorbell page, stop-report buffer, rings, head and tail words (R480, R483). -/
def State.partAreas (s : State) (p : Nat) : List (Nat × Nat) :=
  let b := sliceBase p
  let log (off : Nat) : Nat := s.fld (b + off) 4 0
  [(s.pageAt (b + rPartDb), 4096), (s.pageAt (b + rPartStop), 4096 * (s.fld (b + rPartStop) 9 0 + 1)),
   (s.pageAt (b + rPartAcctBase), 64 * 2 ^ log rPartAcctCfg), (s.wordAt (b + rPartAcctHead), 8),
   (s.pageAt (b + rPartPlaceBase), 2 ^ log rPartPlaceCfg), (s.wordAt (b + rPartPlaceHead), 8), (s.wordAt (b + rPartPlaceTail), 8)] ++
  (if log rPartEventCfg = 0 then [] else
    [(s.pageAt (b + rPartEventBase), 32 * 2 ^ log rPartEventCfg), (s.wordAt (b + rPartEventHead), 8)])

/-- What a queue's set names in host memory (R308, R484). -/
def State.queueAreas (s : State) (q : Nat) : List (Nat × Nat) :=
  let b := queueBase q
  [(s.pageAt (b + rQSqBase), 64 * s.sqSize q), (s.pageAt (b + rQCqBase), 32 * s.cqSize q), (s.wordAt (b + rQCqHead), 8)]

/-- Every area lies in the partition's host window. -/
def State.areasIn (s : State) (p : Nat) (l : List (Nat × Nat)) : Bool := l.all fun x => s.hostWindow p x.1 x.2

/-- The areas that a change of host windows must keep: those of a created partition and of its created queues (R480). -/
def State.keptAreas (s : State) (p : Nat) : List (Nat × Nat) :=
  (if (s.part p).st = .absent ∨ (s.part p).st = .creating then [] else s.partAreas p) ++
  ((List.range 64).filter fun q => decide ((s.queue (64 * p + q)).st ≠ .absent)).flatMap fun q => s.queueAreas (64 * p + q)

/-- GALLERIES may name these galleries: no other partition holds one, and none is retired, of a core marked for it, or
leaving a partition and not yet verified (R334, R376). -/
def State.galleriesOk (s : State) (p w : Nat) : Bool :=
  (List.range 24).all fun g => !bit w g ||
    ((List.range 16).all (fun o => decide (o = p) || !bit (s.reg (pfBase o + rPrtGalleries)).toNat g) &&
     !bit (s.reg rPrtRetired).toNat g && !(s.rcv.clearing.any fun x => x.1 = g && !x.2.2) &&
     (List.range 8).all fun i => !(s.core (8 * g + i)).retireMark)

/-- A value lies in its field's range (R44, R47). -/
def FieldDesc.takes (f : FieldDesc) (v : Nat) : Bool := decide (f.least ≤ v ∧ v ≤ f.most)

/-- Jormir's check of a guarded register's new value against the state (R438): never while the partition's TDI is LOCKED or
RUN, and no field beyond its range (R337, R339, R340). -/
def State.guardOk (s : State) (off : Nat) (r : RegRef) (w : Word) : Bool :=
  let p := r.inst
  let s' := s.setReg off w
  decide ((s.part p).tdi ≠ 1 ∧ (s.part p).tdi ≠ 2) && (regFields off).all (fun f => f.takes (bits w.toNat f.hi f.lo)) &&
  (if r.group = .pfk then (s.keptAreas p).all fun x => s'.hostWindow p x.1 x.2 || !s.hostWindow p x.1 x.2
   else if r.loc = rPrtGalleries then s.galleriesOk p (w.toNat % 2 ^ 24) && s.sumsOk s'
   else s.sumsOk s')

/-- A gallery leaves a partition by a write to GALLERIES (R334, R376): graphs placed on it are to be placed again, and it is
cleared. -/
def State.leaveGallery (s : State) (p g : Nat) : State :=
  let hold (f : FlightSt) : FlightSt :=
    if f.part = p ∧ !f.begun ∧ f.slots.any (fun r => decide (r.core / 8 = g)) then { f with heldReload := true } else f
  let k := s.part p
  let lost (x : GraphSt) : GraphSt := if x.placed.any fun r => r.core / 8 = g then { x with placed := [] } else x
  ({ s.setPart p { k with prefill := if bit k.prefill g then k.prefill - 2 ^ g else k.prefill, graphs := SMap.mapV none (fun _ x => x.map lost) k.graphs } with
     flights := SMap.mapV none (fun _ f => f.map hold) s.flights }).clearGallery g (some p) false

/-! ## Writes by access type (R16 to R21) -/

/-- A register with its pending RWT values in place of those in force: what was most recently written (R16). -/
def State.written (s : State) (off : Nat) : Word :=
  let p := SMap.get (0, 0) s.regPend off
  (s.reg off &&& ~~~p.2) ||| (p.1 &&& p.2)

/-- Record a pending RWT value (R18); the last before the boundary stands. -/
def State.pend (s : State) (off hi lo v : Nat) : State :=
  let p := SMap.get (0, 0) s.regPend off
  { s with regPend := SMap.set (0, 0) s.regPend off (putBits p.1 hi lo v, putBits p.2 hi lo (2 ^ (hi + 1 - lo) - 1)) }

/-- The enables and selections that have a row of their own in the table: not written as plain RW fields. -/
def ownRow (r : RegRef) (f : FieldDesc) : Bool :=
  f.acc = .rw &&
  match r.group with
  | .fix => (f.lo = 0 && decide (r.loc ∈ [rTckCtrl, rFeCtrl, rSeqCtrl, rMirCtrl])) || r.loc = rDbgRingSel || r.loc = rTstCtrl
  | .port => f.lo = 0
  | .stk => f.lo = 0
  | .sae => f.lo = 0
  | _ => false

/-- Write one field. `s0` is the state as the write found it. -/
def State.writeField (s0 s : State) (off : Nat) (r : RegRef) (f : FieldDesc) (word ones : Word) : State :=
  let v := bits word.toNat f.hi f.lo
  let cur := s0.fld off f.hi f.lo
  match f.acc with
  | .ro => s
  | .wo => s
  | .w1c => s.setReg off (s.reg off &&& ~~~(ones &&& f.mask))
  | .rw => if ownRow r f then s else if f.takes v then s.setFld off f.hi f.lo v else s.wrIgnored r
  | .rwt => if f.takes v || guarded r then s.pend off f.hi f.lo v else s.wrIgnored r
  | .rwl =>
    if v = cur then s
    else if !s0.blockOff r ∨ !f.takes v then s.wrIgnored r
    else if guarded r && !s.guardOk off r (putBits (s.reg off) f.hi f.lo v) then s.refuseWrite r
    else
      let s := s.setFld off f.hi f.lo v
      if off = rPrtModuleCtrl then s.extendSlot 5 (Config.measured 5 v)
      else if r.group = .pf ∧ r.loc = rPrtGalleries then
        ((List.range 24).filter fun g => bit cur g && !bit v g).foldl (fun s g => s.leaveGallery r.inst g) s
      else s

/-- Write the bits `m` of the register at an offset with those of `v`: each field by its access type. Offsets that no register
map defines, reserved bits and read-only copies take nothing (R21, R22, R483). A change of what the module mirrors shows on its claim (R424). -/
def State.writeBits (s : State) (off : Nat) (v m : Word) : State :=
  match regRef off with
  | none => s
  | some r =>
    let word := (s.written off &&& ~~~m) ||| (v &&& m)
    let t := ((regFields off).filter fun f => f.mask &&& m ≠ 0).foldl (fun t f => s.writeField t off r f word (v &&& m)) s
    if off = rMirCtrl ∨ r.loc = rMirMap then t.claim else t

/-! ## Step 1: pending values (R18, R53, R438) -/

/-- A COPY names host memory outside its partition's ranges. -/
def State.copyOutside (s : State) (p : Nat) (o : HObj) (n : Nat) : Bool :=
  match o with
  | .host a _ => !s.hostWindow p a n
  | _ => false

/-- Background COPYs that name ranges which a partition's host windows have lost are abandoned (R442). -/
def State.abandonCopies (s : State) (p : Nat) : State :=
  let lost (b : BgOp) : Bool := match b.kind with
    | .copy p' dst src ds _ => decide (p' = p) && (s.copyOutside p dst (sLenB ds.d) || s.copyOutside p src (sLenB ds.d))
    | _ => false
  (s.bg.filter lost).foldl (fun s b => match b.kind with
    | .copy _ _ _ ds q => s.complete q ds 0x2B
    | _ => s) { s with bg := s.bg.filter fun b => !lost b }

/-- Put one register's pending RWT values in force; a guarded register only if Jormir accepts. What is in force then governs background copies in
progress (R442). -/
def State.settleOne (s : State) (off : Nat) (x : Word × Word) : State :=
  match regRef off with
  | none => s
  | some r =>
    let w := (s.reg off &&& ~~~x.2) ||| (x.1 &&& x.2)
    if guarded r && !s.guardOk off r w then s.refuseWrite r
    else if r.group = .pfk then (s.setReg off w).abandonCopies r.inst else s.setReg off w

/-- The lifecycle commands stay pending: they are not values. -/
def isLife (off : Nat) : Bool := decide (0x100000 ≤ off ∧ off < 0x200000 ∧ off % 0x10000 = rPrtLife)

/-- Pending RWT values take effect, in ascending order of offset (log entry 24). -/
def State.settle (s : State) : State :=
  let now := s.regPend.filter fun e => !isLife e.1
  now.foldl (fun s e => s.settleOne e.1 e.2) { s with regPend := s.regPend.filter fun e => isLife e.1 }

/-! ## Partition lifecycle requests (R481) -/

/-- A write of CREATE. -/
def State.createPart (s : State) (p : Nat) : State :=
  if (s.part p).st = .absent then s.setPartState p .creating else s.flag rPrtStatus 0

/-- A write of DESTROY: refused while the TDI is LOCKED or RUN; the partition is DESTROYING at the next boundary. -/
def State.destroyPart (s : State) (p : Nat) : State :=
  let k := s.part p
  if k.tdi = 1 ∨ k.tdi = 2 then s.flag rPrtStatus 1
  else if k.st = .active ∨ k.st = .softStopped ∨ k.st = .hardStopped then s.pend (pfBase p + rPrtLife) 1 1 1
  else s.flag rPrtStatus 0

/-- Writing CREATE to PRT_LIFE (R481). -/
def execPartitionCreate (p : PartId) (s : State) : Host.Outcome State Fault Refusal :=
  if s.barOpen (pfBase p) then .next (s.createPart p) else .next s

/-- Writing DESTROY to PRT_LIFE (R481). -/
def execPartitionDestroy (p : PartId) (s : State) : Host.Outcome State Fault Refusal :=
  if s.barOpen (pfBase p) then .next (s.destroyPart p) else .next s

/-! ## Contexts (R485) -/

/-- Contexts that a partition holds. -/
def PartSt.held (k : PartSt) : Nat := k.ctxs.length

/-- A context has an admitted or running launch, an open stream or an open window. -/
def State.ctxBusy (s : State) (p h : Nat) : Bool :=
  s.flights.any (fun e => match e.2 with
    | some f => f.part = p && f.ctx = h && f.endStatus.isNone
    | none => false) ||
  s.admitted.any (fun a => decide (queuePart a.1 = some p ∧ sOp a.2.d = 0x01 ∧ sCtx a.2.d = h)) ||
  s.streams.any (fun e => e.2.st ≠ .free && e.2.st ≠ .ended && e.2.part = p && e.2.ctx = h) ||
  s.inWins.any fun e => match e.2 with
    | some w => w.part = p && w.ctx = h && w.isOpen
    | none => false

/-- Put the outcome of a context command into CTX_RESULT. -/
def State.ctxResult (s : State) (p h status : Nat) : State :=
  s.setReg (sliceBase p + rCtxResult) (BitVec.ofNat 64 (status + h * 2 ^ 16 + (s.part p).held * 2 ^ 32))

/-- A CTX_CMD CREATE (R485): the first check that fails gives the status. -/
def State.ctxCreate (s : State) (p : Nat) (v : Word) : State :=
  let h := bits v.toNat 31 16
  let k := s.part p
  let op := bits v.toNat 1 0
  let st := if op ≠ 1 then 0x01
    else if h = 0 ∨ (s.ctx p h).isSome then 0x03
    else if bits v.toNat 15 8 = 0 then 0x04
    else if s.fld (pfBase p + rPrtQuota) 8 0 ≤ k.held then 0x08 else 0
  if st ≠ 0 then s.ctxResult p h st
  else
    let given := bit v.toNat 2
    let r := if given then (s.reg (sliceBase p + rCtxSeed), s) else s.draw
    let x : CtxSt := { job := bits v.toNat 63 32, weight := bits v.toNat 15 8, seed := r.1, seedGiven := given }
    (r.2.setCtx p h (some x)).ctxResult p h 0

/-- A CTX_CMD DESTROY (R485): the context is released at the next step 4, torn down first if it has work. -/
def State.ctxDestroy (s : State) (p : Nat) (v : Word) : State :=
  let h := bits v.toNat 31 16
  match s.ctx p h with
  | none => s.ctxResult p h 0x03
  | some x =>
    let busy := s.ctxBusy p h
    let s := s.setCtx p h (some { x with destroying := true })
    (if busy then s.contain p h 0x2A 241 else s).ctxResult p h 0

/-- A write to CTX_CMD: ignored and flagged while the partition is not ACTIVE. A command is carried out at once, so none finds
BUSY (log entry 4). -/
def State.ctxCommand (s : State) (p : Nat) (v : Word) : State :=
  if (s.part p).st ≠ .active then s.flag (sliceBase p + rPartStatus) 8
  else if bits v.toNat 1 0 = 2 then s.ctxDestroy p v else s.ctxCreate p v

/-- CTX_CMD with OP CREATE, or a reserved OP (R485). -/
def execCtxCreate (p : PartId) (value : Word) (s : State) : Host.Outcome State Fault Refusal :=
  if bits value.toNat 1 0 ≠ 2 ∧ s.barOpen (sliceBase p) then .next (s.ctxCommand p value) else .next s

/-- CTX_CMD with OP DESTROY (R485). -/
def execCtxDestroy (p : PartId) (value : Word) (s : State) : Host.Outcome State Fault Refusal :=
  if bits value.toNat 1 0 = 2 ∧ s.barOpen (sliceBase p) then .next (s.ctxCommand p value) else .next s

/-! ## Enables with a row of their own (R50, R486) -/

/-- Clear FE_CTRL.EN: polling and fetching stop; HIF and FE fields unlock (R486). -/
def State.feOff (s : State) : State := s.setFld rFeCtrl 0 0 0

/-- A write of FE_CTRL with EN 0; its other fields are written as they stand (R16, R486). -/
def execFeDisable (value : Word) (s : State) : Host.Outcome State Fault Refusal :=
  if bit value.toNat 0 ∨ !s.barOpen rFeCtrl then .next s else .next ((s.writeBits rFeCtrl value (BitVec.allOnes 64)).feOff)

/-- The control register of an engine. -/
def engineReg : EngineEn → Nat
  | .seq => rSeqCtrl
  | .sae t => saeBase t + rSaeCtrl
  | .stk t => stkBase t + rStkCtrl

/-- Clear SEQ_CTRL.EN, SAE_CTRL.EN or STK_CTRL.EN (R486): while the generator runs, a module hard stop of source 0x03. A write
of 0 to an EN that is 0 clears nothing. -/
def State.engineOff (s : State) (off : Nat) : State :=
  if s.fld off 0 0 = 0 then s
  else
    let s := s.setFld off 0 0 0
    if s.genState = 1 ∨ s.genState = 2 then (s.stopRequest true .module .registerWrite none).1 else s

/-- ENGINE_EN_CLEAR (R486). -/
def execEngineEnClear (e : EngineEn) (s : State) : Host.Outcome State Fault Refusal :=
  if s.barOpen (engineReg e) then .next (s.engineOff (engineReg e)) else .next s

/-- Clear GEN_EN (R50): carried out only in a stopped state, otherwise ignored and flagged. -/
def State.genOff (s : State) : State :=
  if s.fld rTckCtrl 0 0 = 0 then s
  else if s.genIdle then s.setFld rTckCtrl 0 0 0 else s.flag rTckStatus 6

/-- A write of TCK_CTRL with GEN_EN 0 (R50). -/
def execTickGenDisable (value : Word) (s : State) : Host.Outcome State Fault Refusal :=
  if bit value.toNat 0 ∨ !s.barOpen rTckCtrl then .next s else .next ((s.writeBits rTckCtrl value (BitVec.allOnes 64)).genOff)

end Sys2Proof.Machine
end

