-- ==== Sys2Proof/Machine/OpPoint.lean ====
section
/-! DEFINITION. The power manager at a boundary (R488, R492 to R495): measurements, alarms, and each hall's operating point. -/

namespace Sys2Proof.Machine

/-- Arithmetic clock of an operating point as a multiple of 25 MHz (R492). -/
def opClock (k : Nat) : Nat := [16, 24, 32, 36, 40, 44, 48, 52].getD k 52

/-- Nominal hall rail of an operating point in mV (R492). -/
def opRail (k : Nat) : Nat := [590, 630, 680, 710, 745, 780, 815, 850].getD k 850

/-- The point in force of a hall (OP_NOW). -/
def State.opNow (s : State) (h : Nat) : Nat := s.fld rPwrOp (34 + 4 * h) (32 + 4 * h)

/-- The highest point that a hall may run at (OP_MAX). -/
def State.opMax (s : State) (h : Nat) : Nat := s.fld rPwrOp (4 * h + 2) (4 * h)

/-- `w` W measured at point `a` predict at point `b` at most `pct` per cent of the allocation, 707.5 W scaled by CAP_W / 3,200
(R494). -/
def predicted (cap w a b pct : Nat) : Bool :=
  decide (w * (opClock b * (opRail b * opRail b)) * 32000 * 100 ≤ 7075 * cap * pct * (opClock a * (opRail a * opRail a)))

/-- The highest point whose prediction is within the allocation, or OP0 (R494). -/
def budgetPoint (cap w a : Nat) : Nat := ((List.range 8).filter fun b => predicted cap w a b 100).foldl max 0

/-- What step 1 decides for one hall (R494, R495, R512). -/
structure OpStep where
  point : Nat            -- in force from this step 1
  cap   : Nat
  cool  : Nat
  room  : Nat
  raise : Option Nat     -- a raise that is to come
  throttled : Bool
  limited : Bool
deriving DecidableEq, Repr

/-- The decision for a hall: present point, OP_MAX, CAP_W, measured average, hottest die, the cap and the two counts so far, the
raise decided before, and whether its rail has been commanded up and reads enough. -/
def opDecide (now opMax capW w hot cap cool room : Nat) (raise : Option Nat) (railOk : Bool) : OpStep :=
  let base := raise.getD now
  let th : Nat × Nat := if 100 ≤ hot then (now - 1, 0)
    else if hot < 95 then (if 15 ≤ cool then (min 7 (cap + 1), 0) else (cap, cool + 1)) else (cap, 0)
  let above := !predicted capW w now now 100
  let fits := !above && raise.isNone && decide (now < 7) && predicted capW w now (now + 1) 95
  let bp : Nat × Nat := if above then (budgetPoint capW w now, 0)
    else if fits then (if 15 ≤ room then (now + 1, 16) else (now, room + 1)) else (base, 0)
  let target := min opMax (min th.1 bp.1)
  let d := if target ≤ now then (target, none) else if raise.isSome ∧ railOk then (target, none) else (now, some target)
  { point := d.1, cap := th.1, cool := th.2, room := if target < base then 0 else bp.2, raise := d.2,
    throttled := decide (th.1 < opMax ∧ th.1 = target), limited := decide (bp.1 < opMax ∧ bp.1 = target) }

/-- Step 1 for one hall. -/
def State.opHall (s : State) (m : PowerMeas) (railOk : List Bool) (h : Nat) : State :=
  let p := s.pwr
  let now := s.opNow h
  let x := opDecide now (s.opMax h) (s.fld rPwrCtrl 47 32) (m.groupW.getD h 0) (m.hottest.getD h 0) (p.cap.getD h 7)
    (p.coolRun.getD h 0) (p.roomRun.getD h 0) (p.raise.getD h none) (p.railUp.getD h false && railOk.getD h true)
  let pwr := { p with cap := p.cap.set h x.cap, coolRun := p.coolRun.set h x.cool, roomRun := p.roomRun.set h x.room,
                      raise := p.raise.set h x.raise,
                      railUp := if x.raise.isNone then p.railUp.set h false else p.railUp,
                      volts := if x.point < now then p.volts.set h (opRail x.point) else p.volts }
  let s := { s with pwr := pwr }.setFld rPwrOp (34 + 4 * h) (32 + 4 * h) x.point
  let s := if x.point = now then s else s.countFld rPwrCounts 31 0 1
  let s := if x.throttled then s.flag rPwrStatus 6 else s
  if x.limited then s.flag rPwrStatus 5 else s

/-- The operating points of step 1; THROTTLES counts a boundary at which a thermal cap acted. -/
def State.opStep (s : State) (m : PowerMeas) (railOk : List Bool) : State :=
  let hs := List.range 4
  let acted := hs.any fun h =>
    let x := opDecide (s.opNow h) (s.opMax h) (s.fld rPwrCtrl 47 32) (m.groupW.getD h 0) (m.hottest.getD h 0) (s.pwr.cap.getD h 7)
      (s.pwr.coolRun.getD h 0) (s.pwr.roomRun.getD h 0) (s.pwr.raise.getD h none) false
    x.throttled
  let s := s.each (fun s h => s.opHall m railOk h) hs
  if acted then s.countFld rPwrCounts 47 32 1 else s

/-- At the open, the rail of each hall with a raise to come is commanded up (R495). -/
def State.railsUp (s : State) : State :=
  s.each (fun s h => match s.pwr.raise.getD h none with
    | some k => { s with pwr := { s.pwr with railUp := s.pwr.railUp.set h true, volts := s.pwr.volts.set h (opRail k) } }
    | none => s) (List.range 4)

/-- The hottest die of a measurement. -/
def hotDie (m : PowerMeas) : Nat := (m.hottest ++ m.stackC).foldl max 0

/-- PWR_MEAS, PWR_HALLS and PWR_DOMAIN at a boundary. -/
def State.putMeas (s : State) (m : PowerMeas) : State :=
  let w16 (x : Nat) : Nat := x % 65536
  let s := s.setReg rPwrMeas (BitVec.ofNat 64
    (hotDie m % 256 + m.inlet % 256 * 2 ^ 8 + w16 m.pin * 2 ^ 16 + w16 m.iin * 2 ^ 32 + w16 m.vin * 2 ^ 48))
  let s := s.setReg rPwrHalls (BitVec.ofNat 64 ((List.range 4).map fun h => w16 (m.groupW.getD h 0) * 2 ^ (16 * h)).sum)
  s.setReg rPwrDomain (BitVec.ofNat 64 (w16 m.stacksW + w16 m.ioW * 2 ^ 16 + w16 m.lossW * 2 ^ 32 + w16 m.boardW * 2 ^ 48))

/-- The alarms of a boundary: input voltage and coolant inlet (R488, R527, R548). -/
def State.boundaryAlarms (s : State) (m : PowerMeas) : State :=
  let s := if 5000 ≤ m.vin ∧ m.vin < 5400 then s.alarm 0 240 m.vin 0 else s
  let s := if 6600 < m.vin ∧ m.vin ≤ 6800 then s.alarm 1 240 m.vin 0 else s
  let s := if 40 < m.inlet then s.flag rPwrStatus 4 else s
  if s.fld rPwrWatch 47 40 < m.inlet then s.alarm 2 240 m.inlet 0 else s

end Sys2Proof.Machine
end

