-- ==== Sys2Proof/Machine/Pages.lean ====
section
/-! DEFINITION. Frames and dies at a boundary (R247, R248, R258, R259, R263, R267, R268): releases, moves that commit, zeroed
frames that become FREE, dies switched off and restored, and row remaps that take effect. -/

namespace Sys2Proof.Machine

/-! ## Release and reuse of frames (R248, R263, R444) -/

/-- Frames released in the tick become ZEROING, and RETIRED where retirement is marked. -/
def State.releases (s : State) (t : Nat) : State :=
  ((s.stk t).frames.filter fun e => e.2.released).foldl (fun (s : State) e =>
    if e.2.retireMark then s.retireFrame t e.1
    else s.setFrame t e.1 { st := .zeroing, use := e.2.use, part := e.2.part }) s

/-- A FILL that names a frame has not committed. -/
def StackSt.filling (k : StackSt) (f : Nat) : Bool :=
  k.fc.any fun x => decide (fcKind x.cmd = 0 ∧ fcDst x.cmd ≤ f ∧ f < fcDst x.cmd + fcFrames x.cmd)

/-- Verified frames whose zero-fill has committed are FREE; the last thing of step 4, since a frame is allocated only if it was FREE at the
close. -/
def State.zeroed (s : State) (t : Nat) : State :=
  let k := s.stk t
  s.setStk t { k with frames := SMap.mapV {} (fun i (f : Frame) =>
    if f.st = .zeroing ∧ f.verified ∧ !k.filling i then {} else f) k.frames }

/-- FREE_FRAMES and ZEROING_FRAMES as they stand after step 4. -/
def State.snapFrames (s : State) (t : Nat) : State :=
  let k := s.stk t
  s.setStk t { k with freeAt4 := stackFrames - k.frames.countP (fun e => e.2.st ≠ .free),
                      zeroAt4 := k.frames.countP fun e => e.2.st = .zeroing }

/-! ## Moves (R258, R259) -/

/-- A MOVE's source frames. -/
def moveSrc (c : BitVec 256) : List (Nat × Nat) := (List.range (fcFrames c)).map fun i => (fcSrcStack c, fcSrc c + i)

/-- Dirty lines that a stack's moves hold in total. -/
def State.dirtyLines (s : State) (t : Nat) : Nat :=
  (((s.stk t).fc.filter fun x => decide (fcKind x.cmd = 2)).map fun x =>
    ((moveSrc x.cmd).map fun f => (s.frame f.1 f.2).dirty.length).sum).sum

/-- A MOVE of a stack commits at this boundary: its copy is complete and the stack's moves hold few enough dirty lines. -/
def State.moveReady (s : State) (t : Nat) (x : FcCmd) : Bool :=
  x.phase = .complete && decide (fcKind x.cmd = 2) && decide (s.dirtyLines t ≤ 16384) && !s.paused (fcPart x.cmd)

/-- Copy a range of stack memory to another, every byte of it. -/
def copyRange (m : List Host.Cell) (src dst n : Nat) : List Host.Cell :=
  Memory.writeAll (zeroRange m dst n)
    ((m.filter fun c => decide (src ≤ c.1 ∧ c.1 < src + n)).map fun c => (c.1 - src + dst, c.2))

/-- Where a MOVE takes a frame of its source. -/
def moveTo (c : BitVec 256) (f : Nat) : Option Nat :=
  if fcSrc c ≤ f ∧ f < fcSrc c + fcFrames c then some (fcDst c + (f - fcSrc c)) else none

/-- The entry of a stream's page table at an index, in stack memory (R276); where the write is refused, its context is contained (R254, R363). -/
def State.writePte (s : State) (t : StreamSt) (i : Nat) : State :=
  let v := match SMap.get 0 t.pages i with
    | 0 => 0
    | f => 2 ^ 31 + (f - 1)
  let s := if (s.putRefused (t.entryAddr i) 4).isEmpty then s else s.contain t.part t.ctx 0x25 (stkUnit t.home) none true
  (s.putStack (t.entryAddr i) (leBytes 4 v) (some t.part)).mirrorData t.part none (leBytes 4 v)

/-- A stream after a MOVE that its home stack follows: frames mapped, page-table entries rewritten. -/
def State.moveStream (s : State) (i : Nat) (c : BitVec 256) : State :=
  let t := s.stream i
  let go (f : Nat) : Nat := (moveTo c f).getD f
  let t' : StreamSt := { t with home := fcDstStack c, ptFrames := t.ptFrames.map go,
                                pages := t.pages.map fun e => (e.1, go (e.2 - 1) + 1) }
  t'.pages.foldl (fun s e => s.writePte t' e.1) (s.setStream i t')

/-- The streams that a MOVE of KV frames carries: within a stack, those that name a source frame; between stacks, those that the
firmware moves and whose every frame it names (R278). -/
def State.movedStreams (s : State) (c : BitVec 256) (homes : List (Nat × Nat)) : List Nat :=
  s.streams.filterMap fun e =>
    let t := e.2
    let fs := t.pages.map (fun x => x.2 - 1) ++ t.ptFrames
    if t.st = .free ∨ t.home ≠ fcSrcStack c ∨ t.part ≠ fcPart c then none
    else if fcDstStack c = fcSrcStack c then (if fs.any fun f => (moveTo c f).isSome then some e.1 else none)
    else if homes.contains (e.1, fcDstStack c) && !fs.isEmpty && fs.all (fun f => (moveTo c f).isSome) &&
      decide (s.homed t.part (fcDstStack c) < s.saeSlots t.part) then some e.1 else none

/-- References that streams hold on a frame of their home stack: by their pages and by their page tables. -/
def State.refsBy (s : State) (is : List Nat) (f : Nat) : Nat :=
  (is.map fun i => ((s.stream i).pages.countP fun e => decide (e.2 = f + 1)) + ((s.stream i).ptFrames.countP fun g => decide (g = f))).sum

/-- The frames of a MOVE, counted from its first, that have a use. -/
def State.moveIdx (s : State) (c : BitVec 256) (kv : Bool) : List Nat :=
  (List.range (fcFrames c)).filter fun i => decide ((s.frame (fcSrcStack c) (fcSrc c + i)).use = .kv) = kv

/-- A MOVE of KV frames to another stack names every frame of each stream that the firmware moves, and no frame that none of them has: it
waits until then, since no other owning indirection names the destination (R258, R278). -/
def State.moveOwned (s : State) (x : FcCmd) (homes : List (Nat × Nat)) : Bool :=
  decide (fcDstStack x.cmd = fcSrcStack x.cmd) ||
    (s.moveIdx x.cmd true).all fun i => s.refsBy (s.movedStreams x.cmd homes) (fcSrc x.cmd + i) ≠ 0

/-- The destination of a MOVE holds good lines (R255). -/
def State.goodFrames (s : State) (st f n : Nat) : State :=
  let k := s.stk st
  s.setStk st { k with bad := k.bad.filter fun b => !decide (1024 * f ≤ b.1 ∧ b.1 < 1024 * (f + n)) }

/-- One frame of a MOVE commits: its contents as they stand, and its references; the source is released (R258). A frame that others than the
streams moved still name stays ALLOCATED for them. -/
def State.moveFrame (s : State) (c : BitVec 256) (refs : Nat → Nat) (i : Nat) : State :=
  let a := s.frame (fcSrcStack c) (fcSrc c + i)
  let b := s.frame (fcDstStack c) (fcDst c + i)
  let r := if a.use = .kv ∧ fcDstStack c ≠ fcSrcStack c then refs (fcSrc c + i) else a.refs
  let s := s.setMem (copyRange s.mem (frameAddr (fcSrcStack c) (fcSrc c + i)) (frameAddr (fcDstStack c) (fcDst c + i)) 65536)
  let s := s.goodFrames (fcDstStack c) (fcDst c + i) 1
  let s := s.setFrame (fcDstStack c) (fcDst c + i) { b with refs := r, dirty := [], use := a.use }
  s.setFrame (fcSrcStack c) (fcSrc c + i) { a with refs := a.refs - r, dirty := [], released := decide (a.refs ≤ r) }

/-- The frames of one use of a MOVE commit, and the owning indirection names the destination: WEIGHTS frames in step 3, KV frames in step 4
(R258). The command completes with its last frame. -/
def State.commitMove (s : State) (t : Nat) (x : FcCmd) (kv : Bool) (homes : List (Nat × Nat)) : State :=
  let c := x.cmd
  let idx := s.moveIdx c kv
  let same := decide (fcDstStack c = fcSrcStack c)
  let moved := if kv then s.movedStreams c homes else []
  let rest := !kv && !(s.moveIdx c true).isEmpty
  let refs := s.refsBy moved
  let s := s.each (fun s i => s.moveFrame c refs i) idx
  let s := moved.foldl (fun s i => s.moveStream i c) s
  let to_ (f : Nat) : Option Nat := if idx.contains (f - fcSrc c) then moveTo c f else none
  let go (f : Nat × Nat) : Nat × Nat := if f.1 = fcSrcStack c then ((to_ f.2).elim f fun g => (fcDstStack c, g)) else f
  let put (g : GraphSt) : GraphSt :=
    { g with weights := g.weights.map go, oldGens := g.oldGens.map fun o => { o with weights := o.weights.map go } }
  let k := s.part (fcPart c)
  let s := if kv then s else s.setPart (fcPart c) { k with graphs := SMap.mapV none (fun _ g => g.map put) k.graphs }
  let s := if kv ∧ same then
      { s with prefixes := s.prefixes.map fun e => if e.home = fcSrcStack c then
          { e with frames := e.frames.map fun f => (f.1, (to_ f.2).getD f.2) } else e } else s
  if rest then s
  else (s.setFc t ((s.stk t).fc.filter fun y => !decide (y = x))).fcAnswer t { seq := fcSeq c, status := .ok, jormir := x.jormir }

/-- The moves of a stack commit their frames of one use at this boundary. -/
def State.moves (s : State) (kv : Bool) (homes : List (Nat × Nat)) (t : Nat) : State :=
  ((s.stk t).fc.filter fun x => s.moveReady t x && s.moveOwned x homes && !(s.moveIdx x.cmd kv).isEmpty).foldl
    (fun s x => s.commitMove t x kv homes) s

/-- A MOVE that has not committed has waited one more boundary; the engine recopies its dirty lines in the tick that opens (R258). -/
def State.movesWait (s : State) (t : Nat) : State :=
  let s := ((s.stk t).fc.filter fun x => fcKind x.cmd = 2 && x.phase = .complete).foldl (fun s x => s.cleanSource x.cmd) s
  let k := s.stk t
  s.setStk t { k with fc := k.fc.map fun x => if fcKind x.cmd = 2 then { x with waited := x.waited + 1 } else x }

/-! ## Dies and rows (R262, R267, R268) -/

/-- Step 4 for one bit of OFF_REQ, by its value before this boundary and now (R267, R268). -/
def State.offDie (s : State) (t : Nat) (before now : Bool) (d : Nat) : State :=
  let k := s.stk t
  if now && !before then
    let busy := k.frames.any fun e => decide (e.1 / dieFrames = d) && (e.2.st = .allocated || e.2.st = .zeroing)
    if k.die d = 0 ∧ !busy ∧ SMap.get 0 k.outst d = 0 then
      (s.setMem (zeroRange s.mem (stackAddr t (d * dieBytes)) dieBytes)).setStk t ((k.setDie d 4).dieZeroed d)
    else s.flag (stkBase t + rStkStatus) 1
  else if before && !now && k.die d = 4 then (s.setStk t (k.setDie d 5)).startBg (.restoreDie t d)
  else s

/-- Step 4 for the dies of a stack: requests that take effect at this boundary, and restored dies. -/
def State.dies (s : State) (old : Word) (t : Nat) : State :=
  let k := s.stk t
  let s := s.setStk t { k.restoring.foldl (fun k d => k.setDie d 0) k with restoring := [] }
  let s := { s with bg := s.bg.filter fun b => match b.kind with
    | .restoreDie t' d => !(decide (t' = t) && k.restoring.contains d)
    | _ => true }
  let now := s.reg (stkBase t + rStkPwrOff)
  s.each (fun s d => s.offDie t (bit old.toNat d) (bit now.toNat d) d) (List.range 16)

/-- Remaps whose rows have been copied take effect, and each row's errors since its last remap start again (R262); the errors
counted in the interval start again at every boundary. -/
def State.rows4 (s : State) (t : Nat) : State :=
  let k := s.stk t
  let key (r : Remap) : Nat := 36864 * r.bank + r.row
  let fresh (i : Nat) : Bool := k.remapCopied.any fun r => decide (key r = i)
  let s := { s with bg := s.bg.filter fun b => match b.kind with
    | .remapCopy t' r => !(decide (t' = t) && k.remapCopied.contains r)
    | _ => true }
  let s := k.remapCopied.foldl (fun (s : State) r =>
    let f := frameOfRow r.bank r.row
    if s.moveSource t f then s else s.setFrame t f { s.frame t f with dirty := [] }) s
  let k := s.stk t
  s.setStk t { k with remap := k.remap ++ k.remapCopied, remapCopied := [],
                      rowErr := SMap.mapV {} (fun i (e : RowErr) => { now := 0, total := if fresh i then 0 else e.total }) k.rowErr }

end Sys2Proof.Machine
end

