-- ==== Sys2Proof/Machine/Streams4.lean ====
section
/-! DEFINITION. Streams in step 4 of a boundary (R60, R272, R290 to R297, R322, R344 to R346): fates take effect, swaps commit,
chunks are chosen, frames are allocated in order, prefix trees change, victims are pre-empted, hall ring mode gets its pages and ends
(R300, R301), and batch tables are written (R347). -/

namespace Sys2Proof.Machine

/-! ## Frames of a stream (R276, R294) -/

/-- Page-table frames for k entries. -/
def ptCount (k : Nat) : Nat := (4 * k + 65535) / 65536

/-- The page-table entries below k that name no frame. -/
def StreamSt.lacking (t : StreamSt) (k : Nat) : List Nat := (List.range k).filter fun j => decide (SMap.get 0 t.pages j = 0)

/-- Frames that a stream needs beyond its own for k entries. -/
def StreamSt.needs (t : StreamSt) (k : Nat) : Nat := (t.lacking k).length + (ptCount k - t.ptFrames.length)

/-- Frames of use KV for a partition in a stack: those that the firmware offers first, then the lowest; all of them or none, and
within KV_FRAMES (R248, R295, R337). -/
def State.poolTake (s : State) (offers : List (Nat × Nat)) (p t n : Nat) : Option (List Nat) :=
  let mine := ((offers.eraseDups.filter fun f => decide (f.1 = t) && s.frameFree f.1 f.2).map Prod.snd)
  let fs := (mine ++ (s.freeIn t (n + mine.length)).filter fun f => !mine.contains f).take n
  if fs.length = n ∧ s.kvHeld p t + n ≤ s.fld (pfBase p + rPrtKvFrames) 20 0 then some fs else none

/-- Give a stream the frames of its first k page-table entries, and write its page table (R275, R276). -/
def State.givePages (s : State) (offers : List (Nat × Nat)) (i k : Nat) : Option State :=
  let t := s.stream i
  let lack := t.lacking k
  let more := ptCount k - t.ptFrames.length
  match s.poolTake offers t.part t.home (lack.length + more) with
  | none => if t.needs k = 0 then some s else none
  | some fs =>
    let s := s.takeFrames (fs.map fun f => (t.home, f)) t.part .kv
    let t' : StreamSt := { t with ptFrames := t.ptFrames ++ fs.take more,
                                  pages := (lack.zip (fs.drop more)).foldl (fun m e => SMap.set 0 m e.1 (e.2 + 1)) t.pages }
    some (t'.pages.foldl (fun s e => s.writePte t' e.1) (s.setStream i t'))

/-- Drop one reference to a frame; it is released when the last is gone. -/
def State.unref (s : State) (st f : Nat) : State :=
  let x := s.frame st f
  s.setFrame st f { x with refs := x.refs - 1, released := decide (x.refs ≤ 1) }

/-- A stream gives up its pages and its page table. -/
def State.dropPages (s : State) (i : Nat) : State :=
  let t := s.stream i
  let fs := t.pages.map (fun e => e.2 - 1) ++ t.ptFrames
  (fs.foldl (fun s f => s.unref t.home f) s).setStream i { t with pages := [], ptFrames := [] }

/-! ## Blocks of a prefix tree (R293) -/

/-- Add the blocks that a stream has completed since a length to its home stack's tree, those whose key is not there. -/
def State.addBlocks (s : State) (i from_ : Nat) : State :=
  let t := s.stream i
  match t.geom, s.graph t.part t.graph with
  | some g, some gr =>
    if !t.share ∨ t.len / 64 ≤ from_ / 64 then s
    else
      let per := g.layers * g.groups
      let keys := prefixKeys (t.len / 64) (keySeed t.part t.nspace gr.wdigest) t.tokens
      let s := s.setStream i { t with keys := keys ++ t.keys.drop keys.length }
      (keys.zipIdx.drop (from_ / 64)).foldl (fun s x =>
        if (s.treeEnt t.part t.home gr.scaleGen x.1).isSome then s
        else
          let fs := (List.range per).map fun j => (j, SMap.get 0 t.pages (x.2 * per + j) - 1)
          let s := fs.foldl (fun s f => s.setFrame t.home f.2 { s.frame t.home f.2 with refs := (s.frame t.home f.2).refs + 1 }) s
          { s with prefixes := s.prefixes ++ [{ part := t.part, home := t.home, scaleGen := gr.scaleGen, key := x.1, frames := fs,
                                                used := s.tickNo.toNat }] }) s
  | _, _ => s

/-! ## Fates (R290, R291, R322) -/

/-- Slots of streams that ended at the boundary before are free; a slot's generation rises by 1 (R272, R291). -/
def State.freeSlots (s : State) : State :=
  { s with streams := SMap.mapV {} (fun _ (t : StreamSt) =>
      if t.st = .ended then { gen := (t.gen + 1) % 2 ^ 32 } else t) s.streams }

/-- The fate that takes effect for a stream; none for a stream that no visit or request concerns. -/
def State.fateOf (s : State) (t : StreamSt) : Option Fate :=
  let rest : Option Fate := if t.cancel then some .cancelled else if t.fault then some .faulted else none
  if ((s.graph t.part t.graph).map GraphSt.unloading).getD false then some .cancelled
  else
    match t.visited with
    | some v =>
      (match v.fate with
       | .endStop => some .endStop
       | .endMax => some .endMax
       | .endLength => some .endLength
       | f => rest.orElse fun _ => some f)
    | none => rest

/-- A stream with the marks of the tick removed. -/
def StreamSt.newTick (t : StreamSt) : StreamSt :=
  { t with visited := none, visitDue := false, cand := {}, chunk := none, inBatch := false, ringOk := false }

/-- The swap records of a stream are of no further use. -/
def State.dropSwap (s : State) (i : Nat) : State :=
  let p := (s.stream i).part
  let k := s.part p
  s.setPart p { k with swapSpace := k.swapSpace.filter fun e => !decide (e.1 / 2 ^ 20 = i) }

/-- The stream ends: its pages are released, its swap is abandoned, and its end record is due (R294, R331, R371). -/
def State.endStream (s : State) (i : Nat) (f : Fate) : State :=
  let s := ((s.dropPages i).dropSwap i).dropBgs fun b => decide (b.kind = BgKind.swapOut i) || decide (b.kind = BgKind.swapIn i)
  s.setStream i { (s.stream i).newTick with st := .ended, final := some (f.code, f), swapIdx := [], swapImage := [], rebuild := 0 }

/-- The stream as a published token leaves it (R272). -/
def StreamSt.advance (t : StreamSt) (v : VisitResult) : StreamSt :=
  { t.newTick with st := .decode, len := if t.st = .prefill then t.promptLen else t.len + 1, sampled := t.sampled + 1,
                   again := false, input := v.token, tokens := t.tokens ++ [v.token], tail := t.tail + 1 }

/-- The final entry of a CANCELLED or FAULTED stream (R290). -/
def State.finalEntry (s : State) (i : Nat) (f : Fate) : State :=
  let t := s.stream i
  (s.hostPut (t.entryHost t.tail) (ringEntry 0xFFFFFFFF t.len 0 0 f.code) t.part t.ctx).setStream i { t with tail := t.tail + 1 }

/-- A stream of a promoted shadow whose KV was not staged is PREFILL from its first position, over its prompt and its mirrored tokens: in hall
ring mode where its partition has galleries in all four halls (R429). -/
def State.rebuildStream (s : State) (i : Nat) : State :=
  let s := s.dropPages i
  let t := (s.stream i).newTick
  s.setStream i { t with st := .prefill, held := none, heldRing := false, len := 0, promptLen := t.tokens.length,
                         rebuild := if s.allHalls t.part then 2 else 0 }

/-- A stream that no fate concerns: a chunk that is not the last is committed, and a ring check with room ends the wait for
ring space (R60, R290). -/
def StreamSt.noFate (t : StreamSt) : StreamSt :=
  let t' := t.newTick
  match t.st, t.chunk with
  | .prefill, some (a, n) => if t.inBatch ∧ a + n < t.promptLen then { t' with len := a + n } else t'
  | .waiting, _ => if t.heldRing ∧ t.ringOk then { t' with heldRing := false } else t'
  | _, _ => t'

/-- The fate of one stream takes effect; the tick of a stopped partition is not closed (R74, R76). -/
def State.settleStream (s : State) (i : Nat) : State :=
  let t := s.stream i
  if t.st = .free ∨ t.st = .ended ∨ s.frozen t.part then s
  else
    match s.fateOf t, t.visited with
    | none, _ => if t.rebuild = 1 then s.rebuildStream i else s.setStream i t.noFate
    | some .cont, some v => s.setStream i (t.advance v)
    | some .heldRing, some _ => s.setStream i { t.newTick with st := .waiting, held := some t.st, heldRing := true, again := t.st = .prefill }
    | some .cancelled, _ => (s.finalEntry i .cancelled).endStream i .cancelled
    | some .faulted, _ => (s.finalEntry i .faulted).endStream i .faulted
    | some f, some v => ((s.setStream i (t.advance v)).addBlocks i t.len).endStream i f
    | some f, none => s.endStream i f

/-! ## Swaps (R297, R452) -/

/-- The bytes of one page. -/
def State.pageBytes (s : State) (st f : Nat) : List Byte := Memory.readN s.mem (frameAddr st f) 65536

/-- The nonce of a swap record: the swap sequence, then the frame index, the first byte of it the most significant (log entry 6). -/
def swapNonce (seq i : Nat) : Nat := seq % 2 ^ 64 * 2 ^ 32 + i % 2 ^ 32

/-- Bytes 0x00 to 0x1F of a swap record's trailer, its additional data. -/
def swapHead (seq stream i : Nat) : List Byte := leBytes 8 seq ++ leBytes 4 (stream % 2 ^ 14) ++ leBytes 4 i ++ leBytes 16 0

/-- The tag of a swap record. -/
def swapTag (key : BitVec 256) (seq stream i : Nat) (cipher : List Byte) : List Byte :=
  leBytes 16 (gcmTag key (swapNonce seq i) (swapHead seq stream i) cipher).toNat

/-- A swap record: 65,536 bytes of ciphertext and its trailer (R452). -/
def swapRecord (key : BitVec 256) (seq stream i : Nat) (page : List Byte) : List Byte :=
  let c := gcmText key (swapNonce seq i) page
  c ++ swapHead seq stream i ++ swapTag key seq stream i c ++ leBytes 16 0

/-- What a swap record holds, if its sequence, stream and frame index are those expected and its tag agrees (R452). -/
def swapOpen (key : BitVec 256) (seq stream i : Nat) (r : List Byte) : Option (List Byte) :=
  let c := r.take 65536
  if r.length = 65600 ∧ (r.drop 65536).take 16 = (swapHead seq stream i).take 16 ∧
      leBytes 16 (gcmTag key (swapNonce seq i) ((r.drop 65536).take 32) c).toNat = (r.drop 65568).take 16 then
    some (gcmText key (swapNonce seq i) c) else none

/-- The place of a stream's swap record. -/
def swapKeyOf (stream i : Nat) : Nat := stream * 2 ^ 20 + i

/-- A stream's pages are gathered into staging frames (R297): each line is read, and counted as the engine's, and leaves the stack through its
external port (R251, R254). -/
def State.gatherPages (s : State) (t : StreamSt) (e : Ecc) : State × Acc :=
  let ls := t.pages.flatMap fun x => linesOf (frameAddr t.home (x.2 - 1)) 65536
  let r := s.readLines (some t.part) t.ctx e ls
  let k := r.1.stk t.home
  (((r.1.setStk t.home { k with fcLines := k.fcLines + ls.length }).perf (stkUnit t.home) 0x05 ls.length).portLines 0x02 ls, r.2)

/-- The hall writes a stream's gathered pages to the swap space (R297, R452). -/
def State.writeSwap (s : State) (i : Nat) : State :=
  let t := s.stream i
  let k := s.part t.part
  let seq := k.swapSeq + 1
  let s := s.setPart t.part { k with swapSeq := seq, swapSpace := t.pages.foldl (fun m e =>
      SMap.set [] m (swapKeyOf i e.1) (swapRecord (drawnKey k.swapKey) seq i e.1 (s.pageBytes t.home (e.2 - 1)))) k.swapSpace }
  s.setStream i { s.stream i with swapSeq := seq, swapIdx := t.pages.map Prod.fst }

/-- The records that a swap-in reads: those that the host returns, or where it returns none of its own, those that were written. -/
def State.swapRecords (s : State) (i : Nat) (data : List Byte) : List (Nat × List Byte) :=
  let t := s.stream i
  t.swapIdx.zipIdx.map fun x =>
    (x.1, if data.isEmpty then SMap.get [] (s.part t.part).swapSpace (swapKeyOf i x.1) else (data.drop (65600 * x.2)).take 65600)

/-- The pages of a swap-in, all of whose records are as expected; a record whose swap key is zeroised is unreadable (R465). -/
def State.readSwap (s : State) (i : Nat) (data : List Byte) : Option (SMap (List Byte)) :=
  let t := s.stream i
  let k := s.part t.part
  if !k.keysHeld then none
  else (s.swapRecords i data).foldr (fun x acc => match acc, swapOpen (drawnKey k.swapKey) t.swapSeq i x.1 x.2 with
    | some m, some b => some ((x.1, b) :: m)
    | _, _ => none) (some [])

/-- A completed swap commits: a swap-out leaves the pages in the swap space and releases them; a swap-in restores them. Neither commits while
the partition is stopped (R71). -/
def State.commitSwap (s : State) (b : BgOp) : State :=
  match b.kind, b.done with
  | .swapOut i, true =>
    if s.paused (s.stream i).part then s
    else
      let s := (s.dropPages i).endBg b.id
      s.setStream i { s.stream i with st := .swapped }
  | .swapIn i, true =>
    let t := s.stream i
    if s.paused t.part then s
    else
      let s := t.swapImage.foldl (fun (s : State) e => s.putStack (frameAddr t.home (SMap.get 0 t.pages e.1 - 1)) e.2 (some t.part)) s
      ((s.dropSwap i).endBg b.id).setStream i
        { t with st := t.held.getD .decode, held := none, swapIdx := [], swapImage := [], swapSeq := 0 }
  | _, _ => s

/-- Every completed swap. -/
def State.commitSwaps (s : State) : State := s.bg.foldl (fun s b => s.commitSwap b) s

/-- The stream that a swap moves. -/
def BgKind.swaps : BgKind → Option Nat
  | .swapOut i => some i
  | .swapIn i => some i
  | _ => none

/-- A swap gets its staging frame: the lowest FREE one of its stream's home stack, of use GENERAL, within GEN_FRAMES. One that finds none waits for
it. The spec gives neither their number nor their use (DESIGN CHOICE, log entry 45). -/
def State.stageSwap (s : State) (b : BgOp) : State :=
  match b.kind.swaps with
  | none => s
  | some i =>
    if !b.staging.isEmpty ∨ b.done then s
    else
      let t := s.stream i
      match (s.freeIn t.home 1).find? fun f => s.framesFree [(t.home, f)] t.part (s.fld (pfBase t.part + rPrtGenFrames) 20 0) .general with
      | some f => (s.takeFrames [(t.home, f)] t.part .general).putBg { b with staging := [(t.home, f)] }
      | none => s

/-- Every swap that has none gets its staging frame. -/
def State.stageSwaps (s : State) : State := s.bg.foldl (fun s b => s.stageSwap b) s

/-! ## Chunks (R60, R344 to R346) -/

/-- A stream may take part in the next tick: its partition runs, its context accepts work, and neither it nor its home stack's attention engine is
held for a replay (R380). -/
def State.joins (s : State) (t : StreamSt) : Bool :=
  s.runs t.part && !s.frozen t.part && !s.heldForReplay (208 + t.home) t.part t.ctx &&
  (t.ctx = 0 || match s.ctx t.part t.ctx with
    | some x => !x.stopped && x.tear = .none && !x.destroying
    | none => false)

/-- The phase that a stream is in, or returns to. -/
def StreamSt.phase (t : StreamSt) : StreamState := if t.st = .prefill ∨ t.st = .decode then t.st else t.held.getD .decode

/-- The stream's pages lie in the swap space, and it wants them back: it is SWAPPED, or WAITING for their frames (R295). -/
def State.wantsIn (s : State) (t : StreamSt) : Bool :=
  (t.st = .swapped || (t.st = .waiting && !t.heldRing && !t.swapIdx.isEmpty)) && s.joins t

/-- The stream needs frames for the next tick. -/
def State.wants (s : State) (t : StreamSt) : Bool :=
  (t.st = .prefill || t.st = .decode || (t.st = .waiting && !t.heldRing && t.swapIdx.isEmpty)) && s.joins t

/-- Streams in the order of R295 within a class of request: latency-critical first, earlier open tick, lower identifier. -/
def State.ranked (s : State) (l : List Nat) : List Nat :=
  sortBy (fun i => (if (s.stream i).latency then 0 else 1, 0)) (sortBy (fun i => ((s.stream i).opened, i)) l)

/-- The streams that satisfy a test, ascending. -/
def State.streamsWith (s : State) (f : StreamSt → Bool) : List Nat := (s.streams.filter fun e => f e.2).map Prod.fst

/-- Prompt positions that a stream has still to prefill. -/
def StreamSt.left (t : StreamSt) : Nat := t.promptLen - t.len

/-- The largest legal chunk, at least `cur`, that takes at most `room` tokens more than `cur`. -/
def raiseChunk (rem cur room : Nat) : Nat :=
  let top := min 8192 (cur + room)
  if rem ≤ top then rem else max cur (top / 64 * 64)

/-- The least chunk of a stream: 64 tokens or its remainder; its final chunk, where it runs that again (R290, R345). -/
def StreamSt.leastChunk (t : StreamSt) : Nat := if t.again then t.left else min 64 t.left

/-- Raise streams, (stream, least chunk, remainder), in order within what is left of a budget. -/
def raiseChunks : Nat → List (Nat × Nat × Nat) → List (Nat × Nat)
  | _, [] => []
  | room, (i, cur, rem) :: t =>
    let c := raiseChunk rem cur room
    (i, c) :: raiseChunks (room - (c - cur)) t

/-- The chunks of streams, given in their order, under a budget: each gets its least chunk, and is then raised. -/
def State.chunksOf (s : State) (budget : Nat) (l : List Nat) : List (Nat × Nat) :=
  let x := l.map fun i => (i, (s.stream i).leastChunk, (s.stream i).left)
  raiseChunks (budget - (x.map fun e => e.2.1).sum) x

/-- Prompt tokens that a context's streams can use in a tick. -/
def State.canUse (s : State) (l : List Nat) : Nat := (l.map fun i => min 8192 (s.stream i).left).sum

/-- One round of the second pass of R346: a step of 64 tokens to each context in order, of fewer where its streams can use no more. -/
def shareRound : Nat → List (Nat × Nat × Nat) → Nat × List (Nat × Nat × Nat)
  | room, [] => (room, [])
  | room, (h, part, cap) :: t =>
    let step := min 64 (cap - part)
    let ok := decide (step ≤ room ∧ 0 < step)
    let r := shareRound (if ok then room - step else room) t
    (r.1, (h, if ok then part + step else part, cap) :: r.2)

/-- Rounds until nothing more can be given. -/
def shareRounds : Nat → Nat → List (Nat × Nat × Nat) → List (Nat × Nat × Nat)
  | 0, _, l => l
  | n + 1, room, l =>
    let r := shareRound room l
    if r.1 = room then l else shareRounds n r.1 r.2

/-- The division of a budget among the contexts of a partition in share mode: context, part and what it can use (R346). -/
def State.shareBudget (s : State) (p budget : Nat) (ctxs : List (Nat × List Nat)) : List (Nat × Nat × Nat) :=
  let weight (h : Nat) : Nat := ((s.ctx p h).map CtxSt.weight).getD 1
  let credit (h : Nat) : Int := ((s.ctx p h).map CtxSt.credit).getD 0
  let w := (ctxs.map fun c => weight c.1).sum
  let first := ctxs.map fun c =>
    let cap := s.canUse c.2
    (c.1, min cap (budget * weight c.1 / w / 64 * 64), cap)
  let ranked := first.foldl (fun acc x =>
    (acc.takeWhile fun (y : Nat × Nat × Nat) => decide (credit x.1 < credit y.1 ∨ (credit x.1 = credit y.1 ∧ y.1 < x.1))) ++ x ::
      acc.dropWhile fun (y : Nat × Nat × Nat) => decide (credit x.1 < credit y.1 ∨ (credit x.1 = credit y.1 ∧ y.1 < x.1))) []
  shareRounds (budget + 1) (budget - (first.map fun x => x.2.1).sum) ranked

/-- A partition is in share mode: its galleries lie in more than one hall (R336). -/
def State.shareMode (s : State) (p : Nat) : Bool :=
  decide (1 < (List.range 4).countP fun h => decide (bits (s.reg (pfBase p + rPrtGalleries)).toNat (6 * h + 5) (6 * h) ≠ 0))

/-- Hall ring mode rebuilds this stream, or it waits for that mode: it is in no batch meanwhile (R300, R429). -/
def State.inRing (s : State) (i : Nat) : Bool :=
  decide ((s.stream i).rebuild = 2 ∧ (s.stream i).phase = .prefill) || s.hallRing.any fun r => decide (r.purpose = .rebuild ∧ r.stream = i ∧ (s.stream i).phase = .prefill)

/-- The streams of a phase that want frames, in the order of R295. -/
def State.queueOf (s : State) (ph : StreamState) : List Nat :=
  (s.ranked (s.streamsWith fun t => s.wants t && decide (t.phase = ph))).filter fun i => !s.inRing i

/-- The chunks of a partition's PREFILL streams, (stream, tokens) (R345, R346). -/
def State.partChunks (s : State) (budget p : Nat) : List (Nat × Nat) :=
  let l := (s.queueOf .prefill).filter fun i => decide ((s.stream i).part = p)
  if !s.shareMode p then s.chunksOf budget l
  else
    let hs := sortBy (fun h => (h, 0)) ((l.map fun i => (s.stream i).ctx).eraseDups)
    let ctxs := hs.map fun h => (h, l.filter fun i => decide ((s.stream i).ctx = h))
    (s.shareBudget p budget ctxs).flatMap fun x => s.chunksOf x.2.1 (l.filter fun i => decide ((s.stream i).ctx = x.1))

/-- The prefill token budget of a partition (R344): what the firmware gives, 0 where it gives none and where every gallery is in the
decode role, but for a partition of a single gallery, which holds both roles (R35). -/
def State.tokenBudget (s : State) (budget : List (Nat × Nat)) (p : Nat) : Nat :=
  if (s.part p).prefill = 0 ∧ (s.galleriesOf p).length ≠ 1 then 0
  else ((budget.find? fun b => decide (b.1 = p)).map Prod.snd).getD 0

/-- Every partition's chunks. -/
def State.chunks (s : State) (budget : List (Nat × Nat)) : List (Nat × Nat) :=
  (List.range 16).flatMap fun p => s.partChunks (s.tokenBudget budget p) p

/-! ## Allocation (R295) -/

/-- The tokens of a stream's chunk. -/
def chunkIn (cs : List (Nat × Nat)) (i : Nat) : Nat := ((cs.find? fun c => decide (c.1 = i)).map Prod.snd).getD 0

/-- Page-table entries that a stream needs for the next tick with a chunk of n tokens. -/
def StreamSt.entriesFor (t : StreamSt) (n : Nat) : Nat :=
  match t.geom with
  | some g => g.entries (if t.phase = .prefill then t.len + n else t.len + 1)
  | none => 0

/-- Frames for one stream: it is in the batch with its chunk, or WAITING. -/
def State.allocOne (s : State) (offers chunks : List (Nat × Nat)) (i : Nat) : State :=
  let t := s.stream i
  let n := chunkIn chunks i
  match s.givePages offers i (t.entriesFor n) with
  | some s => s.setStream i { s.stream i with st := t.phase, held := none,
                                              chunk := if t.phase = .prefill then some (t.len, n) else none }
  | none => s.setStream i { t with st := .waiting, held := some t.phase, chunk := none }

/-- The blocks of a swapped stream that its tree still has, (block, entry). -/
def State.swapBack (s : State) (t : StreamSt) (g : KvGeom) : List (Nat × PrefixEnt) :=
  let gen := ((s.graph t.part t.graph).map GraphSt.scaleGen).getD 0
  t.keys.zipIdx.filterMap fun x =>
    if t.share && t.swapIdx.contains (x.2 * (g.layers * g.groups)) then (s.treeEnt t.part t.home gen x.1).map fun e => (x.2, e) else none

/-- Begin the swap-in of a SWAPPED stream that finds its frames: blocks still in the tree are shared again (R297). One that finds none is WAITING
for them (R295). -/
def State.beginSwapIn (s : State) (offers : List (Nat × Nat)) (i : Nat) : State :=
  let t := s.stream i
  match t.geom with
  | none => s
  | some g =>
    let per := g.layers * g.groups
    let back := s.swapBack t g
    let s' := back.foldl (fun s x => s.shareBlock i x.1 g x.2) s
    match s'.givePages offers i t.swapIdx.length with
    | none => s.setStream i { t with st := .waiting, heldRing := false }
    | some s' =>
      let idx := t.swapIdx.filter fun e => !back.any fun x => decide (e / per = x.1)
      (s'.setStream i { s'.stream i with st := .swappingIn, swapIdx := idx }).startBg (.swapIn i)

/-- The allocation of step 4 in the order of R295. -/
def State.allocStreams (s : State) (offers cs : List (Nat × Nat)) : State :=
  let s := (s.queueOf .decode ++ s.queueOf .prefill).foldl (fun s i => s.allocOne offers cs i) s
  (s.ranked (s.streamsWith fun t => s.wantsIn t)).foldl (fun s i => s.beginSwapIn offers i) s

/-! ## Prefix trees (R292 to R294) -/

/-- A tree entry is held by the tree alone. -/
def State.treeOnly (s : State) (e : PrefixEnt) : Bool := e.frames.all fun f => decide ((s.frame e.home f.2).refs = 1)

/-- The least recently matched entry of a pool that the tree alone holds. -/
def State.oldestEnt (s : State) (p t : Nat) : Option PrefixEnt :=
  (s.prefixes.filter fun e => decide (e.part = p ∧ e.home = t) && s.treeOnly e).foldl (fun o e => match o with
    | some x => if e.used < x.used then some e else some x
    | none => some e) none

/-- Drop a tree entry. -/
def State.dropEnt (s : State) (e : PrefixEnt) : State :=
  e.frames.foldl (fun s f => s.unref e.home f.2) { s with prefixes := s.prefixes.filter fun x => !decide (x = e) }

/-! ## Pressure (R294, R296, R337) -/

/-- A stream of a pool that waits for frames. -/
def State.poolWaits (s : State) (p t : Nat) : List Nat :=
  s.streamsWith fun x => decide (x.part = p ∧ x.home = t ∧ x.st = .waiting) && (s.wants x || s.wantsIn x)

/-- Frames that a stream needs which waits for them: for its next tick with its chunk, or for its swap-in. -/
def State.needsNow (s : State) (cs : List (Nat × Nat)) (i : Nat) : Nat :=
  let x := s.stream i
  match x.geom with
  | some g =>
    if x.swapIdx.isEmpty then x.needs (x.entriesFor (chunkIn cs i))
    else x.needs x.swapIdx.length - (s.swapBack x g).length * (g.layers * g.groups)
  | none => 0

/-- Frames that streams need which wait for them, with their chunks. -/
def State.needOf (s : State) (cs : List (Nat × Nat)) (l : List Nat) : Nat := (l.map fun i => s.needsNow cs i).sum

/-- Frames needed by a pool's streams that wait for frames. -/
def State.poolNeed (s : State) (cs : List (Nat × Nat)) (p t : Nat) : Nat := s.needOf cs (s.poolWaits p t)

/-- A pool's frames that come free: FREE within its limit, ZEROING, and those released now. -/
def State.poolComing (s : State) (p t : Nat) : Nat :=
  let zs := (s.stk t).frames.countP fun e => decide (e.2.part = p ∧ e.2.use = .kv) &&
    (decide (e.2.st = .zeroing) || (decide (e.2.st = .allocated) && e.2.released))
  let free := min (s.fld (pfBase p + rPrtKvFrames) 20 0 - s.kvHeld p t) (stackFrames - (s.stk t).frames.countP fun e => e.2.st ≠ .free)
  zs + free

/-- Frames that only one stream holds. -/
def State.ownFrames (s : State) (x : StreamSt) : Nat :=
  (x.pages.countP fun e => decide ((s.frame x.home (e.2 - 1)).refs = 1)) + x.ptFrames.length

/-- Frames that swap-outs in progress will free. -/
def State.leaving (s : State) (p t : Nat) : Nat :=
  ((s.streamsWith fun x => decide (x.part = p ∧ x.home = t ∧ x.st = .swappingOut)).map fun i => s.ownFrames (s.stream i)).sum

/-- Frames that a pool holds beyond a lowered limit, and that no swap-out frees (R337). -/
def State.beyondLimit (s : State) (p t : Nat) : Nat :=
  let live := (s.stk t).frames.countP fun e => decide (e.2.part = p ∧ e.2.use = .kv ∧ e.2.st = .allocated) && !e.2.released
  live - (s.fld (pfBase p + rPrtKvFrames) 20 0 + s.leaving p t)

/-- The shortfall of a pool: what its waiting streams need beyond what comes free, or what it holds beyond a lowered limit. -/
def State.shortfall (s : State) (cs : List (Nat × Nat)) (p t : Nat) : Nat :=
  max (s.poolNeed cs p t - (s.poolComing p t + s.leaving p t)) (s.beyondLimit p t)

/-- Drop tree entries of a pool while it falls short. -/
def State.dropTree (s : State) (cs : List (Nat × Nat)) (p t : Nat) : Nat → State
  | 0 => s
  | n + 1 =>
    if s.shortfall cs p t = 0 then s
    else match s.oldestEnt p t with
      | some e => (s.dropEnt e).dropTree cs p t n
      | none => s

/-- Stream i ranks above stream j (R296). -/
def State.above (s : State) (i j : Nat) : Bool := decide ((s.ranked [i, j]).head? = some i)

/-- The next victim of a pool (R296): its lowest-ranked stream that holds frames of its own, where the streams that wait for frames and rank
above it still fall short, or the pool is beyond its limit. -/
def State.nextVictim (s : State) (cs : List (Nat × Nat)) (p t : Nat) : Option Nat :=
  let j := (s.ranked (s.streamsWith fun x => decide (x.part = p ∧ x.home = t) && !s.frozen p &&
    (x.st = .prefill || x.st = .decode || x.st = .waiting) && decide (s.ownFrames x ≠ 0))).getLast?
  j.filter fun j => decide (0 < s.beyondLimit p t) ||
    decide (s.poolComing p t + s.leaving p t < s.needOf cs ((s.poolWaits p t).filter fun i => decide (i ≠ j) && s.above i j))

/-- Pre-empt a victim: its work of this tick is discarded as under HELD_RING, and its swap-out begins. `pre` is the state before
fates took effect. -/
def State.preempt (s pre : State) (i : Nat) : State :=
  let x := s.stream i
  let o := pre.stream i
  let back : StreamSt := if o.st = .free then x else
    { x with len := o.len, sampled := o.sampled, tail := o.tail, input := o.input, tokens := o.tokens,
             again := o.again || (o.st = .prefill && o.visited.isSome) }
  let ph : StreamState := if o.st = .free then x.phase else o.phase
  (s.setStream i { back with st := .swappingOut, held := some ph, heldRing := false, chunk := none }).startBg (.swapOut i)

/-- Pre-empt victims of a pool while it falls short. -/
def State.preemptPool (s pre : State) (cs : List (Nat × Nat)) (p t : Nat) : Nat → State
  | 0 => s
  | n + 1 =>
    if s.shortfall cs p t = 0 then s
    else match s.nextVictim cs p t with
      | some i => (s.preempt pre i).preemptPool pre cs p t n
      | none => s

/-- The pressure on one pool. -/
def State.relievePool (s pre : State) (cs : List (Nat × Nat)) (p t : Nat) : State :=
  (s.dropTree cs p t s.prefixes.length).preemptPool pre cs p t s.streams.length

/-- The pool of a stream would otherwise need a pre-emption (R296), once frames have been allocated and its tree has given up what it may: the
firmware may move the stream to another stack (R351). -/
def State.mayMove (s : State) (offers cs : List (Nat × Nat)) (i : Nat) : Bool :=
  let t := s.stream i
  let s := (s.allocStreams offers cs).dropTree cs t.part t.home s.prefixes.length
  s.shortfall cs t.part t.home ≠ 0 && (s.nextVictim cs t.part t.home).isSome

/-! ## Step 4 for streams -/

/-- Count a token published, and add the blocks completed (R293, R358). -/
def State.tokenDone (s pre : State) (i : Nat) : State :=
  let x := s.stream i
  let o := pre.stream i
  if o.st = .free then s
  else
    let s := if o.sampled < x.sampled then s.charge x.part x.ctx { tokens := 1 } else s
    if x.st = .ended then s else s.addBlocks i o.len

/-- The batch-table entry of a stream (R347). -/
def StreamSt.batchEnt (t : StreamSt) (i : Nat) : BatchEnt :=
  let frame := t.ptFrames.headD 0
  match t.chunk with
  | some (a, n) => { stream := i, first := a, count := n, input := t.promptAddr, frame := frame }
  | none => { stream := i, first := t.len, count := 1, input := t.input, frame := frame }

/-- The batch table of a graph for the next tick (R347): decode streams, then prefill streams, each by home stack and then by
stream identifier. -/
def State.batchTable (s : State) (p h : Nat) : List BatchEnt :=
  let of (ph : StreamState) : List Nat := sortBy (fun i => ((s.stream i).home, i))
    (s.streamsWith fun t => decide (t.st = ph ∧ t.part = p ∧ t.graph = h) && (decide (ph = .decode) || t.chunk.isSome) && s.joins t)
  (of .decode ++ of .prefill).map fun i => (s.stream i).batchEnt i

/-- A graph's batch table has `n` frames, or as many as there are: its own, and further ones of use GENERAL that the partition's pool gives (R347;
log entry 36). -/
def State.batchFrames (s : State) (p h : Nat) : Nat → GraphSt → State × GraphSt
  | 0, g => (s, g)
  | n + 1, g =>
    let r := s.batchFrames p h n g
    if n < r.2.batchAt.length then r
    else
      match ((r.1.stackSet p).flatMap fun t => (r.1.freeIn t 1).map fun f => (t, f)).find? fun f =>
          r.1.framesFree [f] p (r.1.fld (pfBase p + rPrtGenFrames) 20 0) .general with
      | some f =>
        let g' : GraphSt := { r.2 with batchAt := r.2.batchAt ++ [f] }
        ((r.1.takeFrames [f] p .general).setGraph p h (some g'), g')
      | none => r

/-- One graph's batch table for the next tick, over its frames in order. -/
def State.putBatch (s : State) (p h : Nat) (g : GraphSt) : State :=
  let l := s.batchTable p h
  let b := Config.batchBytes (l.map fun e => [e.stream, e.first, e.count, e.input, e.frame])
  let x := s.batchFrames p h ((b.length + 65535) / 65536) g
  let s := x.1.setGraph p h (some { x.2 with batch := l })
  x.2.batchAt.zipIdx.foldl (fun s f => s.putStack (frameAddr f.1.1 f.1.2) ((b.drop (65536 * f.2)).take 65536) (some p)) s

/-- The batch tables of a partition's graphs that declare KV geometry. -/
def State.putBatches (s : State) (p : Nat) : State :=
  (s.part p).graphs.foldl (fun s e => match e.2 with
    | some g => if g.geom.isSome && !g.unloading then s.putBatch p e.1 g else s
    | none => s) s

/-! ## Hall ring mode (R299 to R301) -/

/-- Write rows into a page. -/
def State.putRows (s : State) (st f : Nat) (rows : List (Nat × List Byte)) : State :=
  rows.foldl (fun s x => s.putStack (frameAddr st f + x.1) x.2) s

/-- The page-table triples of n positions: (entry, block, layer, group). -/
def KvGeom.triples (g : KvGeom) (n : Nat) : List (Nat × Nat × Nat × Nat) :=
  (List.range (g.entries n)).map fun j => (j, j / (g.layers * g.groups), j / g.groups % g.layers, j % g.groups)

/-- The pages of a test stream: each shard's in its own hall's stacks, all of them or none (R301). -/
def State.ringFrames (s : State) (p : Nat) (g : KvGeom) (n : Nat) : Option (List (Nat × Nat)) :=
  let fs := ((ringShards n).zipIdx.flatMap fun x =>
    let c := g.entries x.1.2
    (((List.range 4).map (4 * x.2 + ·)).flatMap fun t => (s.freeIn t c).map fun f => (t, f)).take c)
  if fs.length = ((ringShards n).map fun x => g.entries x.2).sum &&
      s.framesFree fs p (s.fld (pfBase p + rPrtKvFrames) 20 0) .kv then some fs else none

/-- Hall ring mode gets its pages, and runs in the next tick. -/
def State.ringBegin (s : State) (offers : List (Nat × Nat)) (r : HallRingSt) : State :=
  let on (s : State) (fs : List (Nat × Nat)) : State := { s with hallRing := some { r with running := true, frames := fs } }
  match r.purpose, (s.stream r.stream).geom with
  | .rebuild, some g =>
    if s.inRing r.stream && s.wants (s.stream r.stream) then
      (match s.givePages offers r.stream (g.entries r.positions) with
       | some s => on s []
       | none => s)
    else on s []
  | .testUnlock, some g =>
    (match s.ringFrames r.part g r.positions with
     | some fs => on (s.takeFrames fs r.part .kv) fs
     | none => s)
  | _, _ => on s []

/-- A rebuilt stream: the entries at and beyond its committed length are written and committed, those before it stand as they are, and a
stream rebuilt as far as its last token decodes from there (R285, R300, R429). -/
def State.ringRebuild (s : State) (r : HallRingSt) : State :=
  let t := s.stream r.stream
  match t.geom, s.graph t.part t.graph with
  | some g, some gr =>
    let hi := min r.positions (t.tokens.length - 1)
    if !s.inRing r.stream ∨ !(t.st = .prefill ∨ t.st = .waiting) ∨ t.lacking (g.entries hi) ≠ [] then s
    else
      let sh := ringShards r.positions
      let s := (g.triples hi).foldl (fun s x => match SMap.get 0 t.pages x.1 with
        | 0 => s
        | f => s.putRows t.home (f - 1) (ringRows g gr.wdigest gr.scaleGen (fun p => ringTokens sh t.tokens (ringHall sh p) p)
                 x.2.1 x.2.2.1 x.2.2.2 t.len hi)) s
      let t := s.stream r.stream
      if t.tokens.length ≤ hi + 1 then
        s.setStream r.stream { t with st := .decode, held := none, len := hi, input := t.tokens.getLastD 0, rebuild := 0 }
      else s.setStream r.stream { t with len := max t.len hi, rebuild := 0 }
  | _, _ => s

/-- A test stream: its rows are written into the pages of their shards, which are then released (R301). -/
def State.ringTest (s : State) (r : HallRingSt) : State :=
  let t := s.stream r.stream
  match t.geom, s.graph t.part t.graph with
  | some g, some gr =>
    let sh := ringShards r.positions
    let at_ (x : (Nat × Nat) × Nat) : List ((Nat × Nat) × Nat × Nat × Nat × Nat) := (g.triples x.1.2).map fun y => (x.1, y)
    let s := ((sh.zipIdx.flatMap at_).zip r.frames).foldl (fun s x =>
      let b := x.1.1.1 / 64 + x.1.2.2.1
      s.putRows x.2.1 x.2.2 (ringRows g gr.wdigest gr.scaleGen (fun p => ringTokens sh t.tokens (ringHall sh p) p)
        b x.1.2.2.2.1 x.1.2.2.2.2 0 r.positions)) s
    s.releaseFrames r.frames
  | _, _ => s.releaseFrames r.frames

/-- The mode is over: a stream that it was to rebuild is rebuilt no further by it. -/
def State.ringOff (s : State) (r : HallRingSt) : State :=
  let t := s.stream r.stream
  { (if r.purpose = .rebuild ∧ t.rebuild ≠ 0 then s.setStream r.stream { t with rebuild := 0 } else s) with hallRing := none }

/-- The firmware starts the mode for the next stream that waits for it after a promotion (R429). -/
def State.ringNext (s : State) : State :=
  match s.hallRing, (s.streamsWith fun t => decide (t.rebuild = 2) && s.joins t).head? with
  | none, some i =>
    let t := s.stream i
    { s with hallRing := some { part := t.part, ctx := t.ctx, epoch := s.epochOf t.part t.ctx, purpose := .rebuild, stream := i, positions := t.tokens.length } }
  | _, _ => s

/-- Hall ring mode at a boundary: hand-offs of a context whose epoch has changed are discarded, one for each shard under way (R366); else
what ran in the tick stands, or the mode gets its pages. -/
def State.ring4 (s : State) (offers : List (Nat × Nat)) : State :=
  match s.hallRing with
  | none => s
  | some r =>
    let off (s : State) : State := s.ringOff r
    if s.paused r.part then s
    else if r.epoch ≠ s.epochOf r.part r.ctx then
      off ((if r.running then s.staleDrop ((ringShards r.positions).countP fun x => x.2 ≠ 0) else s).releaseFrames r.frames)
    else if !r.running then s.ringBegin offers r
    else match r.purpose with
      | .rebuild => off (s.ringRebuild r)
      | .testUnlock => off (s.ringTest r)
      | .selfTest => off s

/-- The stream registers at this step 4. -/
def State.snapStreams (s : State) : State :=
  let n (f : StreamSt → Bool) : Nat := (s.streamsWith f).length
  let s := s.setFld rSeqStreams 14 0 (n fun t => decide (t.st ≠ .free ∧ t.st ≠ .ended))
  let s := (s.setFld rSeqVisits 14 0 s.tick.visits).setFld rSeqVisits 47 32 (min 65535 s.tick.visitMax)
  let s := s.setFld rSeqHeld 14 0 (n fun t => decide (t.st = .waiting) && t.heldRing)
  let s := s.setFld rSeqHeld 30 16 (n fun t => decide (t.st = .waiting) && !t.heldRing)
  s.setFld rSeqHeld 46 32 (n fun t => decide (t.st = .swappingOut ∨ t.st = .swapped ∨ t.st = .swappingIn))

/-- The first part of step 4 for streams: slots are freed, fates take effect, swaps commit. -/
def State.fates (s : State) : State :=
  let s := s.freeSlots
  (s.streamsWith fun t => decide (t.st ≠ .free)).foldl (fun s i => s.settleStream i) s |>.commitSwaps

/-- The second part: frames, pressure and prefix trees. -/
def State.streams4 (s pre : State) (offers : List (Nat × Nat)) (budget : List (Nat × Nat)) : State :=
  let s := s.ringNext.ring4 offers
  let cs := s.chunks budget
  let s := s.allocStreams offers cs
  let s := s.each (fun s p => s.each (fun s t => s.relievePool pre cs p t) (s.stackSet p)) (List.range 16)
  let s := (s.streamsWith fun t => decide (t.st ≠ .free)).foldl (fun s i => s.tokenDone pre i) s
  (s.stageSwaps.each (fun s p => s.putBatches p) (List.range 16)).snapStreams

end Sys2Proof.Machine
end

