-- ==== Sys2Proof/Machine/Account.lean ====
section
/-! DEFINITION. Step 5 of a boundary: accounting records, carry records, the backlog stop and the credits of share mode (R346,
R358 to R362). -/

namespace Sys2Proof.Machine

/-- The first four bytes of a head word that a boundary read at a host address; what was read before, where it read none. -/
def headAt (heads : List (Nat × Nat)) (a old : Nat) : Nat :=
  match heads.find? fun h => decide (h.1 = a) with
  | some h => h.2
  | none => old

/-- A carry record with a later record of the same context merged into it (R361). -/
def CarrySt.merge (a b : CarrySt) : CarrySt :=
  { tick := a.tick, len := a.len + b.len, ticks := a.ticks + b.ticks, holder := a.holder || b.holder, det := a.det && b.det,
    c := a.c.add b.c }

/-- Merge into what is carried, if anything is. -/
def mergeCarry : Option CarrySt → CarrySt → CarrySt
  | some a, b => a.merge b
  | none, b => b

/-- The 64 bytes of an accounting record (R360). -/
def acctBytes (p h kind phase : Nat) (x : CarrySt) : List Byte :=
  leBytes 8 x.tick ++ leBytes 4 x.len ++ leBytes 2 h ++ leBytes 1 p ++
    leBytes 1 (kind + (if x.holder then 2 else 0) + (if x.det then 4 else 0) + 8 * phase) ++ leBytes 2 x.ticks ++ leBytes 2 0 ++
    leBytes 4 x.c.tokens ++ leBytes 8 x.c.cycles ++ leBytes 8 x.c.slices ++ leBytes 8 x.c.stackB ++ leBytes 8 x.c.onlanB ++
    leBytes 8 x.c.pcieB

/-- Records that an accounting ring of LOG2 has room for: none where LOG2 is out of its range (R361, R480). -/
def acctRoom (log tail head : Nat) : Nat :=
  if 6 ≤ log ∧ log ≤ 16 then 2 ^ log - (tail + 2 ^ 32 - head % 2 ^ 32) % 2 ^ 32 else 0

/-- Merge context records into those carried, ascending handle. -/
def mergeLog (a b : List (Nat × CarrySt)) : List (Nat × CarrySt) :=
  sortBy (fun x => (x.1, 0)) (b.foldl (fun l x =>
    if l.any fun y => decide (y.1 = x.1) then l.map fun y => if y.1 = x.1 then (y.1, y.2.merge x.2) else y else l ++ [x]) a)

/-- The context records of a tick: contexts that were charged or that held it open, ascending (R360). -/
def State.ctxRecords (s : State) (p len : Nat) : List (Nat × CarrySt) :=
  (s.part p).ctxs.filterMap fun e =>
    match e.2 with
    | some x => if x.charges ≠ {} ∨ x.holder then
        some (e.1, { tick := s.tickNo.toNat, len := len, ticks := 1, holder := x.holder, det := s.det, c := x.charges }) else none
    | none => none

/-- The partition record of a tick: the sums of its contexts and its own column. -/
def State.partRecord (s : State) (p len : Nat) : CarrySt :=
  let k := s.part p
  { tick := s.tickNo.toNat, len := len, ticks := 1, det := s.det,
    holder := k.ctxs.any fun e => (e.2.map CtxSt.holder).getD false,
    c := k.ctxs.foldl (fun a e => match e.2 with
      | some x => a.add x.charges
      | none => a) k.charges }

/-- The counters of a partition start again. -/
def State.clearCharges (s : State) (p : Nat) : State :=
  let k := s.part p
  let go (x : CtxSt) : CtxSt := { x with charges := {}, holder := false }
  s.setPart p { k with charges := {}, ctxs := SMap.mapV none (fun _ x => x.map go) k.ctxs }

/-- Write records into a partition's accounting ring, or keep them as carries (R361). An interface that is LOCKED makes no host
access (R473). -/
def State.flushVf (s : State) (p : Nat) (recs : List (Nat × CarrySt)) (part : Option CarrySt) : State :=
  let k := s.part p
  let cs := mergeLog k.carryLog recs
  let pr : Option CarrySt := match part with
    | some x => some (mergeCarry k.carryVf x)
    | none => k.carryVf
  let log := s.fld (sliceBase p + rPartAcctCfg) 4 0
  let n := cs.length + (if pr.isSome then 1 else 0)
  if n = 0 then s
  else if s.locked p ∨ acctRoom log k.acctTail k.acctHead < n then s.setPart p { k with carryLog := cs, carryVf := pr }
  else
    let base := s.fld (sliceBase p + rPartAcctBase) 63 12 * 4096
    let all := cs.map (fun x => (x.1, 0, x.2)) ++ (pr.map fun x => (0, 1, x)).toList
    let s := all.zipIdx.foldl (fun (s : State) x =>
      let i := k.acctTail + x.2
      s.hostPart p (base + 64 * (i % 2 ^ log)) (acctBytes p x.1.1 x.1.2.1 (phaseOf i (2 ^ log)) x.1.2.2)) s
    (s.setPart p { s.part p with carryLog := [], carryVf := none, acctTail := k.acctTail + n }).sendMsi (p + 1)
      (s.fld (sliceBase p + rPartAcctCfg) 14 8)

/-- Write a partition's record into the physical function's accounting ring, or keep it as a carry. A ring whose LOG2 is out of its
range is absent: nothing is written to it or carried for it (R479). -/
def State.flushPf (s : State) (p : Nat) (part : Option CarrySt) : State :=
  let k := s.part p
  let pr : Option CarrySt := match part with
    | some x => some (mergeCarry k.carryPf x)
    | none => k.carryPf
  let log := s.fld rHifAcctCfg 4 0
  match pr with
  | none => s
  | some x =>
    if log < 6 ∨ 16 < log then s.setPart p { k with carryPf := none }
    else if acctRoom log s.pfAcctTail s.pfAcctHead = 0 then s.setPart p { k with carryPf := pr }
    else
      let i := s.pfAcctTail
      let a := s.fld rHifAcctBase 63 12 * 4096 + 64 * (i % 2 ^ log)
      let b := acctBytes p 0 1 (phaseOf i (2 ^ log)) x
      let s := s.setPart p { k with carryPf := none }
      let s := (s.setHost (Memory.writeN s.host a b)).chargePart p { pcieB := b.length }
      { s with pfAcctTail := i + 1 }.sendMsi 0 (s.fld rHifAcctCfg 14 8)

/-- The most ticks that a carry of a partition covers. -/
def PartSt.carryTicks (k : PartSt) : Nat :=
  ((k.carryLog.map fun x => x.2.ticks) ++ (k.carryVf.toList ++ k.carryPf.toList).map CarrySt.ticks).foldl max 0

/-- The backlog stop (R361): at 4,096 ticks carried the partition is soft-stopped, its cut at this boundary; once its carries are
written it resumes at the next. -/
def State.backlog (s : State) (p : Nat) : State :=
  let k := s.part p
  let n := k.carryTicks
  let s := s.setFld (sliceBase p + rPrtAcct) 12 0 n
  if 4096 ≤ n ∧ !k.stopAcct then
    let active := decide (k.st = .active)
    let s := s.setPart p { s.part p with stopAcct := true, acctCut := active }
    let s := if active then (s.setPartState p .softStopping).pushReq { src := .firmware, scope := .part (Fin.ofNat 16 p), sampled := true }
      else s
    (s.flag rPrtStatus 2).emit 225 0x15 n 0 (some p)
  else if n = 0 ∧ k.acctCut ∧ k.st = .softStopped then
    (s.setPart p { s.part p with acctCut := false }).pushReq { src := .firmware, scope := .part (Fin.ofNat 16 p), resume := true }
  else s

/-- The clock of the slowest hall, as a multiple of 25 MHz (R493). -/
def State.slowClock (s : State) : Nat := ((List.range 4).map fun h => opClock (s.opNow h)).foldl min 52

/-- Cores of a partition times the tick budget, in each core's own cycles (R59, R346): P less the boundary reserve, which counts 52,000
cycles of the slowest hall (R493). -/
def State.capacityCycles (s : State) (p : Nat) : Nat :=
  ((s.galleriesOf p).map fun g =>
    let k := opClock (s.opNow (g / 6))
    8 * (s.fld rTckPeriod 16 0 * 25 * k - 52000 * k / s.slowClock)).sum

/-- The credits of a partition in share mode (R346). -/
def State.credits (s : State) (p : Nat) : State :=
  if !s.shareMode p then s
  else
    let k := s.part p
    let live := k.ctxs.filterMap Prod.snd
    let total := (live.map fun x => x.charges.cycles).sum
    let w := ((live.filter fun x => decide (x.charges.cycles ≠ 0)).map CtxSt.weight).sum
    let lim : Int := 4 * s.capacityCycles p
    let go (x : CtxSt) : CtxSt :=
      let d : Int := if w = 0 then 0 else ((total * x.weight : Nat) - (x.charges.cycles * w : Nat) : Int).tdiv w
      { x with credit := max (-lim) (min lim (x.credit + d)) }
    s.setPart p { k with ctxs := SMap.mapV none (fun _ x => x.map go) k.ctxs }

/-- The records of a held tick are empty (R72): what the boundaries around it have charged is kept for the next tick's (DESIGN CHOICE, log entry
168). -/
def State.heldPart (s : State) (len p : Nat) : State :=
  let part : Option CarrySt := if (s.part p).openAtTick then
    some { tick := s.tickNo.toNat, len := len, ticks := 1, holder := false, det := s.det, c := {} } else none
  (((s.flushVf p [] part).flushPf p part)).backlog p

/-- Step 5 for one partition; `len` is the tick's open-to-open length in µs. -/
def State.acctPart (s : State) (len p : Nat) : State :=
  let on := (s.part p).openAtTick
  let s := if on then s.credits p else s
  let recs := if on then s.ctxRecords p len else []
  let part : Option CarrySt := if on then some (s.partRecord p len) else none
  let s := s.clearCharges p
  (((s.flushVf p recs part).flushPf p part)).backlog p

/-- Step 5: every partition, ascending; `held` says that the tick closed is a held tick. -/
def State.step5 (s : State) (held : Bool) (len : Nat) : State :=
  s.each (fun s p => if held then s.heldPart len p else s.acctPart len p) (List.range 16)

/-- A core of a flight has run it in this tick, or is busy with it. -/
def State.ranCores (s : State) (n : Nat) (f : FlightSt) : Bool :=
  f.cores.any fun c => s.tick.worked.contains (c, f.part, f.ctx) ||
    (decide ((s.core c).flight = n ∧ (s.core c).phase ≠ .idle) && decide ((s.core c).busyBits ≠ 0))

/-- CORE_CYCLES of the tick: a free number of cycles for each flight that cores have run in it (R358; log entry 4). A held tick charges none
(R72). -/
def State.chargeCycles (s : State) : State :=
  if s.tick.held then s
  else s.flights.foldl (fun s e => match e.2 with
    | some f =>
      if f.begun && s.ranCores e.1 f then
        { s with freeCtr := s.freeCtr + 1 }.charge f.part f.ctx { cycles := (Config.cycles s.freeCtr).toNat }
      else s
    | none => s) s

/-- What a partition's records follow is its state at the open (R360): none while it is stopped for backlog (R361). -/
def State.acctOpen (s : State) : State :=
  s.each (fun s p =>
    let k := s.part p
    let stopped := decide (k.st = .softStopped)
    let keep := k.stopAcct && (stopped || decide (k.st = .softStopping))
    let on := decide (k.st ≠ .absent ∧ k.st ≠ .creating) && !(keep && stopped)
    s.setPart p { k with openAtTick := on, stopAcct := keep }) (List.range 16)

end Sys2Proof.Machine
end

