-- ==== Sys2Proof/Machine/Publish.lean ====
section
/-! DEFINITION. Step 7 of a boundary (R53, R55, R291, R323, R331, R332, R420, R461, R462, R480): completion records, fences and
their mirrors, output-ring tails, placement tails and messages. -/

namespace Sys2Proof.Machine

/-- A flight's result digest has not been completed (R462). -/
def State.digestOpen (s : State) (c : ComplSt) : Bool :=
  match c.flight with
  | some n => s.sec.digests.any fun d => decide (d.flight = n) && !d.done
  | none => false

/-- The module makes no host access for a partition whose interface is LOCKED (R473). -/
def State.queueShut (s : State) (q : Nat) : Bool :=
  match queuePart q with
  | some p => s.locked p
  | none => false

/-- Split completions, in order, into those published now and those that wait: an open digest holds back every later completion
of its queue. -/
def State.ready (s : State) : List ComplSt → List Nat → List ComplSt × List ComplSt
  | [], _ => ([], [])
  | c :: t, shut =>
    if shut.contains c.queue || s.queueShut c.queue || s.digestOpen c then
      let r := s.ready t (c.queue :: shut)
      (r.1, c :: r.2)
    else
      let r := s.ready t shut
      (c :: r.1, r.2)

/-- The end record of a stream (R331, R332). -/
def endRecord (i : Nat) (t : StreamSt) (code : Nat) : ComplSt :=
  { queue := t.queue, seq := t.seq, tag := t.tag, opcode := 0x0A, status := 0x12, result := i, detail := code, ctx := t.ctx,
    interrupt := t.interrupt }

/-- The end records that are due. -/
def State.pushEnds (s : State) : State :=
  s.streams.foldl (fun s e =>
    match e.2.final with
    | some (code, _) => (s.setStream e.1 { e.2 with final := none }).pushCompl (endRecord e.1 e.2 code)
    | none => s) s

/-- Publish a stream's tail word where its tail count has moved (R291). -/
def State.pubTail (s : State) (i : Nat) : State :=
  let t := s.stream i
  if t.st = .free ∨ t.tail = t.tailPub ∨ s.locked t.part ∨ s.frozen t.part then s
  else (s.pubWrite (t.part + 1) t.tailAddr (leBytes 4 t.tail ++ leBytes 4 t.gen)).setStream i { t with tailPub := t.tail }

/-- Publish a partition's placement tail where records were issued (R480). -/
def State.pubPlace (s : State) (p : Nat) : State :=
  let k := s.part p
  if k.placeTail = k.placePub ∨ s.locked p then s
  else
    let s := s.pubWrite (p + 1) (s.wordAt (sliceBase p + rPartPlaceTail)) (leBytes 8 k.placeTail)
    (s.setPart p { s.part p with placePub := k.placeTail }).pubMsi (p + 1) (s.fld (sliceBase p + rPartPlaceCfg) 14 8)

/-- The function whose messages a queue sends. -/
def queueFn (q : Nat) : Nat :=
  match queuePart q with
  | some p => p + 1
  | none => 0

/-- One message for each queue that published a record with INTERRUPT (R332). -/
def State.queueMsgs (s : State) (cs : List ComplSt) : State :=
  (((cs.filter ComplSt.interrupt).map ComplSt.queue).eraseDups).foldl (fun s q =>
    s.pubMsi (queueFn q) (s.queue q).vector) s

/-- The publications of a function: withheld while a mirrored partition's seal is not acknowledged, and while the interface is LOCKED (R473);
otherwise what was withheld before and then these (R420). -/
def State.flushFn (s : State) (fn : Nat) : State :=
  let mine := (s.outbox.filter fun x => decide (x.1 = fn)).map Prod.snd
  if fn = 0 then mine.foldl (fun s x => s.doPub x) s
  else
    let m := s.mirp (fn - 1)
    let all := m.stalledPub ++ mine.map fun x => (s.tickNo, x)
    let held (x : Word × HostPub) : Bool := s.locked (fn - 1) || (s.mirrored (fn - 1) && m.seals.contains x.1)
    let s := if m.stalledPub.isEmpty && (all.all fun x => !held x) then s
      else s.setMirp (fn - 1) { m with stalledPub := all.filter held }
    (all.filter fun x => !held x).foldl (fun s x => s.doPub x.2) s

/-- Every function's publications, and the count of a boundary that withheld some. -/
def State.flushAll (s : State) : State :=
  let s := s.each (fun s fn => s.flushFn fn) (List.range 17)
  let s := { s with outbox := [] }
  if (List.range 16).any fun p => (s.mirp p).stalledPub.any fun x => (s.mirp p).seals.contains x.1 then
    { s with mir := { s.mir with sealStalls := satAdd 16 s.mir.sealStalls 1 } } else s

/-- Step 7. -/
def State.step7 (s : State) : State :=
  let s := s.admitted7.pushEnds
  let r := s.ready (sortBy (fun c => (c.queue, c.seq)) (s.waitPub ++ s.compl)) []
  let s := { s with compl := [], waitPub := r.2 }
  let s := r.1.foldl (fun s c => (s.signalFence c).writeCompl c) s
  let s := s.each (fun s p => if s.locked p then s else s.writeMirrors p) (List.range 16)
  let s := (s.streams.map Prod.fst).foldl (fun s i => s.pubTail i) s
  let s := s.each (fun s p => s.pubPlace p) (List.range 16)
  (s.queueMsgs r.1).flushAll

/-! ## Result digests (R461, R462) -/

/-- Bytes 0x000 to 0x1BF of a result-digest record, with the digests of the image that the flight ran (R304, R461). -/
def digestBody (appr : Bool) (tick : Word) (n : Nat) (f : FlightSt) (input output : BitVec 512) : List Byte :=
  let det := f.det
  let res := Config.shake256 (digestBytes f.digest ++ digestBytes f.wdigest ++ digestBytes input ++ digestBytes output ++
    leBytes 1 (if det then 1 else 0) ++ digestBytes Config.identityDigest)
  leBytes 4 0x54534452 ++ leBytes 2 1 ++ leBytes 2 ((if det then 1 else 0) + (if appr then 2 else 0)) ++ leBytes 8 tick.toNat ++
    leBytes 4 n ++ leBytes 4 f.version ++ leBytes 40 0 ++ digestBytes f.digest ++ digestBytes f.wdigest ++ digestBytes input ++
    digestBytes output ++ digestBytes Config.identityDigest ++ digestBytes res

/-- The 576 bytes of a record: its body, its signature and 14 reserved bytes. -/
def digestRecord (body : List Byte) : List Byte := body ++ (List.range 114).map (Config.signature body) ++ leBytes 14 0

/-- The digest engine has read the output ranges of a flight that has ended: its record is written (R461, R462). Ranges in
host memory are not read while the interface is LOCKED (R473). -/
def execResultDigestComplete (n : Nat) (s : State) : Host.Outcome State Fault Refusal :=
  match s.sec.digests.find? fun d => decide (d.flight = n) && !d.done, s.flight n with
  | some d, some f =>
    if f.endStatus.isNone ∨ (s.locked f.part ∧ d.outs.any fun x => x.2.1) then .next s
    else
      let close (s : State) : State :=
        { s with sec := { s.sec with digests := s.sec.digests.map fun x => if x.flight = n then { x with done := true } else x } }
      (match s.readRanges n f d.outs with
       | (u, none) => .next (close u)
       | (u, some out) =>
         let r := digestRecord (digestBody s.sec.approved s.tickNo n f d.input (Config.shake256 out))
         let u := if d.inHost then u.hostPut d.host r f.part f.ctx
           else (u.putStack d.host r (some f.part)).charge f.part f.ctx { stackB := 64 * (linesOf d.host 576).length }
         .next (close u))
  | _, _ => .next s

end Sys2Proof.Machine
end

