-- ==== Sys2Proof/Machine/Close.lean ====
section
/-! DEFINITION. Step 0 of a boundary (R53): head words are read, counters are snapshotted, stop and resume requests are sampled
(R70 to R73, R76), descriptors are admitted (R312), cycles of waits are broken (R325, R326), and the scale trackers merge
(R126). -/

namespace Sys2Proof.Machine

/-! ## Heads and snapshots (R153, R480, R515, R516, R524) -/

/-- A map from a function of its keys below n. -/
def SMap.tab {α : Type} [DecidableEq α] (d : α) (n : Nat) (f : Nat → α) : SMap α :=
  (List.range n).filterMap fun i => if f i = d then none else some (i, f i)

/-- The head words read at this boundary: accounting rings, placement rings and event rings. A completion head is read only where credit is
short (R311). -/
def State.readHeads (s : State) (heads : List (Nat × Nat)) : State :=
  let lo (a old : Nat) : Nat := headAt heads a old % 2 ^ 32
  let ps := SMap.mapV {} (fun p (k : PartSt) => if k.st = .absent then k else
    if k.tdi = 1 then k else
    { k with acctHead := lo (s.wordAt (sliceBase p + rPartAcctHead)) k.acctHead,
             placeHead := headAt heads (s.wordAt (sliceBase p + rPartPlaceHead)) k.placeHead }) s.parts
  let vf := SMap.mapV {} (fun p (r : HostRing) => { r with head := lo (s.wordAt (sliceBase p + rPartEventHead)) r.head }) s.dbg.vfRing
  let pf := { s.dbg.pfRing with head := lo (s.wordAt rHifEventHead) s.dbg.pfRing.head }
  { s with parts := ps, pfAcctHead := lo (s.wordAt rHifAcctHead) s.pfAcctHead,
           dbg := { s.dbg with vfRing := vf, pfRing := pf } }

/-- A core's snapshot registers (R153). -/
def CoreSt.snapshot (k : CoreSt) (tick : Word) : CoreSt :=
  { k with snap := [BitVec.ofNat 64 k.arrayP, BitVec.ofNat 64 k.vectorP, BitVec.ofNat 64 k.dmaP, BitVec.ofNat 64 k.controlP],
           snapBusy := k.busyBits, snapTick := tick }

/-- The snapshots of every core and of every unit's performance counters. -/
def State.snapshots (s : State) : State :=
  { s with cores := SMap.tab {} 192 fun c => (s.core c).snapshot s.tickNo,
           dbg := { s.dbg with perf := SMap.mapV {} (fun _ (p : PerfSt) => { p with snap := p.live }) s.dbg.perf } }

/-- The per-tick records that a unit has held are emitted (R524). -/
def State.emitPerTick (s : State) : State :=
  s.dbg.rings.foldl (fun s e => e.2.perTick.foldl (fun s r => s.pushRec r) (s.setRing e.1 { s.ring e.1 with perTick := [] })) s

/-! ## Stop and resume requests (R70 to R73, R76, R391) -/

/-- A landing in progress touches a scope. -/
def State.landingOn (s : State) (x : StopScope) : Bool :=
  s.rcv.landings.any fun l => match x, l.part with
    | .part p, some q => decide (p.val = q)
    | .context p _, some q => decide (p.val = q)
    | _, _ => true

/-- The requests that take effect at this boundary: a soft stop waits for a landing (R391). -/
def State.sampleReqs (s : State) : State :=
  { s with tick := { s.tick with reqs := s.tick.reqs.map fun r => { r with sampled := r.sampled || r.resume || !s.landingOn r.scope } } }

/-- A context is cut (R73): its flights end, its admitted launches complete, and its descriptors wait. -/
def State.cutContext (s : State) (p h status : Nat) : State :=
  let s := s.endFlights status fun f => f.part = p && f.ctx = h
  let mine (a : Nat × DescSt) : Bool := queuePart a.1 = some p && sOp a.2.d = 0x01 && sCtx a.2.d = h
  let held := s.admitted.filter mine
  let s := held.foldl (fun s a => s.complete a.1 a.2 status) { s with admitted := s.admitted.filter fun a => !mine a }
  s.updCtx p h fun x => { x with stopped := true }

/-- A partition that was hard-stopped resumes: its tick is abandoned and its smeared flights end (R76). -/
def State.resumePart (s : State) (p : Nat) : State :=
  match (s.part p).st with
  | .hardStopped =>
    ((s.abandonTick p).endFlights 0x21 fun f => f.part = p && f.begun).setPartState p .active
  | .softStopped => s.setPartState p .active
  | _ => s

/-- One sampled request in step 0: contexts are cut, and what resumes returns. The completion of its descriptor is due. A context's
resume takes effect at the open, since its descriptors are admitted from there. -/
def State.takeReq (s : State) (r : StopReq) : State :=
  let s := match r.compl with
    | some c => s.pushCompl c
    | none => s
  match r.scope, r.resume with
  | .module, true => ({ s with tick := { s.tick with modStopped := [], held := false } }).each (fun s p => s.resumePart p) s.tick.modStopped
  | .part p, true => s.resumePart p
  | .context p h, false =>
    let x := s.freeStatus
    x.2.cutContext p h.toNat x.1
  | _, _ => s

/-- Every sampled request. -/
def State.takeReqs (s : State) : State := (s.tick.reqs.filter StopReq.sampled).foldl (fun s r => s.takeReq r) s

/-! ## Admission (R312, R324) -/

/-- Admit from the head of one queue, at most n descriptors, until its head waits. -/
def State.admitQueue (s : State) (q : Nat) : Nat → State
  | 0 => s
  | n + 1 =>
    match (s.queue q).buffer with
    | [] => s
    | ds :: rest =>
      if s.headWaits q ds then s
      else ((s.setQueue q { s.queue q with buffer := rest }).admitDesc q ds).admitQueue q n

/-- A queue's head waits now. -/
def State.waiting (s : State) (q : Nat) : Bool :=
  match (s.queue q).buffer with
  | ds :: _ => s.headWaits q ds
  | [] => false

/-- Admission of every partition that runs; what was admitted since the last boundary without waiting for it counts too. -/
def State.admission (s : State) : State :=
  let qs := (s.queues.map Prod.fst).filter fun q => match queuePart q with
    | some p => s.runs p
    | none => false
  let before (s : State) : Nat := (qs.map fun q => (s.queue q).admitted).sum
  let n := before s
  let s := qs.foldl (fun s q => s.admitQueue q 256) s
  (s.setFld rFeAdmit 31 0 (before s - n)).setFld rFeAdmit 47 32 (qs.countP fun q => s.waiting q)

/-! ## Cycles of waits (R325, R326) -/

/-- The fence and value that a queue's head waits for; a head that waits for a soft-stopped context is no wait of R325 (R73). -/
def State.waitsOn (s : State) (p q : Nat) : Option (Nat × Nat) :=
  match (s.queue q).buffer with
  | ds :: _ =>
    if ((s.ctx p (sCtx ds.d)).map CtxSt.stopped).getD false then none else
    (match s.waitFence p ds.d with
     | some f => if f.value.toNat < sWaitValue ds.d then some (sWaitFence ds.d, sWaitValue ds.d) else none
     | none => none)
  | [] => none

/-- A descriptor signals a fence with at least a value. -/
def raises (d : BitVec 512) (f v : Nat) : Bool := sSignal d && decide (sSigFence d = f ∧ v ≤ (sSigValue d).toNat)

/-- A running flight, or a descriptor admitted and not yet published, will raise a fence to a value. -/
def State.willRaise (s : State) (p f v : Nat) : Bool :=
  let hit (x : Option (Nat × Word)) : Bool := match x with
    | some (g, w) => decide (g = f ∧ v ≤ w.toNat)
    | none => false
  (s.flights.any fun e => match e.2 with
    | some x => x.part = p && hit x.signal
    | none => false) ||
  ((s.compl ++ s.waitPub).any fun c => queuePart c.queue = some p && hit c.signal) ||
  (s.admitted.any fun a => queuePart a.1 = some p && raises a.2.d f v) ||
  s.bg.any fun b => match b.kind with
    | .load q _ _ ds _ => q = p && raises ds.d f v
    | .copy q _ _ ds _ => q = p && raises ds.d f v
    | _ => false

/-- The queues of a partition that hold a signaller of a wait. -/
def State.signallers (s : State) (p f v : Nat) : List Nat :=
  (s.queues.map Prod.fst).filter fun q => queuePart q = some p && (s.queue q).buffer.any fun ds => raises ds.d f v

/-- A queue has descriptors that the front end has not fetched. -/
def QueueSt.unfetched (k : QueueSt) : Bool := k.st ≠ .absent && decide (k.fetch % 2 ^ 32 ≠ k.tail)

/-- Remove queues that have a signaller outside the set, until none has. -/
def shrink (w : Nat → List Nat) : Nat → List Nat → List Nat
  | 0, d => d
  | n + 1, d => shrink w n (d.filter fun q => (w q).all fun x => d.contains x)

/-- The set d of R325 for a partition. -/
def State.deadlocked (s : State) (p : Nat) : List Nat :=
  let qs := (s.queues.map Prod.fst).filter fun q => queuePart q = some p
  let sig (q : Nat) : List Nat := match s.waitsOn p q with
    | some (f, v) => s.signallers p f v
    | none => []
  let d := qs.filter fun q => match s.waitsOn p q with
    | some (f, v) => !s.willRaise p f v && !(s.signallers p f v).isEmpty && !(s.queue q).unfetched
    | none => false
  shrink sig d.length d

/-- Break at most one head of a partition (R326). -/
def State.breakWait (s : State) (p : Nat) : State :=
  match s.deadlocked p with
  | [] => s
  | q :: t =>
    match (s.queue q).buffer with
    | [] => s
    | ds :: rest =>
      let s := s.setQueue q { s.queue q with buffer := rest, admitted := (s.queue q).admitted + 1 }
      let s := (s.complete q ds 0x10).countFld rFeDeadlocks 31 0 1
      s.emit 225 0x11 (q % 64) (((q :: t).map fun x => 2 ^ (x % 64)).sum) (some p)

/-! ## The scale trackers (R126, R127) -/

/-- floor(log2 r) of a positive rational. -/
def ratLog2 (num den : Nat) : Int :=
  let e : Int := (Nat.log2 num : Int) - Nat.log2 den
  if den * 2 ^ e.toNat ≤ num * 2 ^ (-e).toNat then e else e - 1

/-- A format's largest finite value, as m × 2^e; for an integer format with zero point z, min(qmax − z, z − qmin) (R126). -/
def largest (f : Fmt) (z : Int) : Nat × Int :=
  match f.float? with
  | some x =>
    (match x.decode x.largestCode with
     | .fin _ m e => (m, e)
     | _ => (0, 0))
  | none => ((min (f.intRange.2 - z) (z - f.intRange.1)).toNat, 0)

/-- Two entries of one tensor, merged: the larger maximum and the sums. Their format, scale and tracker fields are those of the first entry, the
lowest core's, where flights captured different ones: the spec does not say which (DESIGN CHOICE, log entry 146). -/
def TrackEnt.merge (a b : TrackEnt) : TrackEnt :=
  let m := match a.maxV, b.maxV with
    | .inf _, _ => a.maxV
    | _, .inf _ => b.maxV
    | x, y => if x.numLe y then y else x
  { a with maxV := m, count := a.count + b.count, sats := a.sats + b.sats, invs := a.invs + b.invs }

/-- Entries of one partition, context and tensor. -/
def TrackEnt.same (a b : TrackEnt) : Bool := a.part = b.part && a.ctx = b.ctx && a.tno = b.tno

/-- Merge an entry into a list. -/
def mergeTrack (l : List TrackEnt) (e : TrackEnt) : List TrackEnt :=
  if l.any (TrackEnt.same e) then l.map fun x => if x.same e then x.merge e else x else l ++ [e]

/-- A maximum m × 2^x times a scale lies below L × 2^−u: a negative scale's product does, unless it is 0 × A, and an infinite one's or a
NaN's is compared as the reals extended (R126). -/
def underused (m : Nat) (x : Int) (s : FVal) (l : Nat × Int) (u : Nat) : Bool :=
  let up (y : Int) : Nat := 2 ^ y.toNat
  let dn (y : Int) : Nat := 2 ^ (-y).toNat
  match s with
  | .fin neg sm sx => (neg && decide (sm ≠ 0)) || decide (m * sm * up (x + sx) * dn l.2 * 2 ^ u < l.1 * up l.2 * dn (x + sx))
  | .inf neg => neg
  | .nan => false

/-- The proposed scale of a merged tensor, or none (R126). Beyond the range of binary32 the power of two is rounded to it, to infinity or to 0:
the spec does not say what is proposed there (DESIGN CHOICE, log entry 146). -/
def TrackEnt.proposal (e : TrackEnt) : Option Lane :=
  match e.maxV with
  | .fin _ m x =>
    if m = 0 then none
    else
      let l := largest e.fmt e.zp
      let up (y : Int) : Nat := 2 ^ y.toNat
      let dn (y : Int) : Nat := 2 ^ (-y).toNat
      let under := e.underuse ≠ 0 && underused m x (ofF32 e.scale) l e.underuse
      if !(decide (e.count < e.sats * 2 ^ e.satShift) || under) ∨ l.1 = 0 then none
      else
        let k := ratLog2 (l.1 * up l.2 * dn x) (m * up x * dn l.2) - e.headroom
        let v := toF32 (.fin false 1 k)
        if v = e.scale then none else some v
  | _ => none

/-- An admitted PATCH of a graph changes a tensor's scale, and step 2 of this boundary commits it (R127). -/
def State.patchScales (s : State) (p g tno : Nat) : Bool :=
  let u := s.step2
  s.admitted.any fun a => queuePart a.1 = some p && sOp a.2.d = 0x04 && decide (sA a.2.d = g) &&
    (a.2.aux.scales.any fun x => decide (x.1 = tno)) &&
    u.compl.any fun c => decide (c.queue = a.1 ∧ c.seq = a.2.seq ∧ c.opcode = 0x04 ∧ c.status = 0)

/-- The graphs that a tracked tensor of a context belongs to: those of the context's begun flights, for an entry names its context and its
tensor only (DESIGN CHOICE, log entry 146). -/
def State.trackedGraphs (s : State) (e : TrackEnt) : List Nat :=
  (s.flights.filterMap fun x => match x.2 with
    | some f => if f.part = e.part ∧ f.ctx = e.ctx ∧ f.begun then some f.graph else none
    | none => none).eraseDups

/-- Step 0 of the trackers: entries merge, proposals are recorded with the unit that the model gives them, 226, since the spec names none
(DESIGN CHOICE, log entry 146), and entries are cleared. What apply mode adopts is left for step 1. -/
def State.mergeTrackers (s : State) : State :=
  let all := (s.cores.flatMap fun e => e.2.track).foldl mergeTrack []
  let all := sortBy (fun e => (e.part, e.ctx * 2 ^ 20 + e.tno)) all
  let s := { s with cores := SMap.mapV {} (fun _ k => { k with track := [] }) s.cores, track := [] }
  all.foldl (fun s e =>
    match e.proposal with
    | none => s
    | some v =>
      let late := (s.trackedGraphs e).any fun g => s.patchScales e.part g e.tno
      let s := s.emit 226 0x02 e.tno (v.toNat + e.scale.toNat * 2 ^ 32) (some e.part) e.ctx late
      if e.mode = 2 then { s with track := s.track ++ [{ e with scale := v }] } else s) s

/-- Step 1 of the trackers: adopted scales become those of the tensor's graphs, but for one that a PATCH governs (R127). -/
def State.adoptScales (s : State) : State :=
  let s' := s.track.foldl (fun s e =>
    ((s.trackedGraphs e).filter fun g => !s.patchScales e.part g e.tno).foldl (fun s g => match s.graph e.part g with
      | some x => s.setGraph e.part g (some (x.setScales [(e.tno, e.scale)]))
      | none => s) s) s
  { s' with track := [] }

/-! ## Step 0 -/

/-- Contexts whose teardown is complete accept work again at this boundary (R370); a context that is being destroyed does not. -/
def State.readmitAll (s : State) : State :=
  s.each (fun s p => (s.part p).ctxs.foldl (fun s e => match e.2 with
    | some x => if x.destroying then s else s.readmit p e.1
    | none => s) s) (List.range 16)

/-- A landing 4 is in progress: its ticks admit no work and produce no accounting records (R385). -/
def State.inLanding4 (s : State) : Bool := s.rcv.landings.any fun l => decide (l.level = 4)

/-- Step 0. -/
def State.step0 (s : State) (b : BoundaryIn) : State :=
  let s := ((s.chargeCycles.readHeads b.heads).snapshots).emitPerTick
  let s := (s.readmitAll.resumeHalted).nextReplay
  let s := s.sampleReqs.takeReqs
  let s := if s.inLanding4 then s else s.admission.each (fun s p => if s.runs p then s.breakWait p else s) (List.range 16)
  s.mergeTrackers

end Sys2Proof.Machine
end

