-- ==== Sys2Proof/Machine/Settle.lean ====
section
/-! DEFINITION. Step 1 of a boundary (R53): pending values and the operating point take effect, scales are adopted, galleries
retire, partitions are created and destroyed (R481), and queues come and go (R484). -/

namespace Sys2Proof.Machine

/-! ## Performance counters (R515) -/

/-- The counters that a new selection changes restart at 0. -/
def PerfSt.restart (p : PerfSt) (old new : Word) : PerfSt :=
  { p with live := p.live.zipIdx.map fun x =>
      if bits old.toNat (8 * x.2 + 7) (8 * x.2) = bits new.toNat (8 * x.2 + 7) (8 * x.2) then x.1 else 0 }

/-- The restarts of step 1, by the selections before it. -/
def State.restartPerf (s : State) (core stk : Word) : State :=
  { s with dbg := { s.dbg with perf := SMap.mapV {} (fun u (p : PerfSt) =>
      if u < 192 then p.restart core (s.reg rDbgPmuCore) else p.restart stk (s.reg rDbgPmuStk)) s.dbg.perf } }

/-! ## Retirement (R205, R390) -/

/-- The galleries of cores marked for retirement are due. -/
def State.markRetire (s : State) : State :=
  let due := s.cores.filterMap fun e => if e.2.retireMark ∧ !bit (s.reg rPrtRetired).toNat (e.1 / 8) then some (e.1 / 8, e.1) else none
  let fresh := due.foldl (fun (l : List (Nat × Nat)) x => if l.any fun y => decide (y.1 = x.1) then l else l ++ [x]) s.rcv.retireAt
  { s with rcv := { s.rcv with retireAt := fresh } }

/-! ## Queues (R308, R484) -/

/-- A queue's settings meet R308 and its vector its function's entries. -/
def State.queueFits (s : State) (q : Nat) : Bool :=
  let c := (s.reg (queueBase q + rQCtrl)).toNat
  let k := bits c 8 4
  let j := bits c 16 12
  decide (4 ≤ k ∧ k ≤ 16 ∧ 4 ≤ j ∧ j ≤ 16 ∧ k ≤ j) &&
  match queuePart q with
  | some p => decide (bits c 30 24 < 124) && s.areasIn p (s.queueAreas q)
  | none => decide (bits c 30 24 < 64 ∧ s.fld rHifPfDb 63 12 ≠ 0)

/-- A queue becomes ACTIVE: its generation rises and its counts restart; its doorbell is polled from the next open. -/
def State.createQueue (s : State) (q : Nat) : State :=
  let c := (s.reg (queueBase q + rQCtrl)).toNat
  s.setQueue q { st := .active, gen := ((s.queue q).gen + 1) % 65536, since := s.tickNo.toNat + 1,
                 cq := s.pageAt (queueBase q + rQCqBase), cqLog := bits c 16 12, vector := bits c 30 24 }

/-- A queue's creation fails: EN is 0 again and QUEUE_FAIL is set. -/
def State.failQueue (s : State) (q : Nat) : State :=
  let s := s.setFld (queueBase q + rQCtrl) 0 0 0
  match queuePart q with
  | some p => (s.flag (sliceBase p + rPartStatus) 10).setFld (sliceBase p + rPartStatus) 19 16 5
  | none => s.flag rFeStatus 2

/-- A queue's partition holds queues. -/
def State.queueHome (s : State) (q : Nat) : Bool :=
  match queuePart q with
  | some p => (s.part p).st ≠ .absent && (s.part p).st ≠ .destroying
  | none => true

/-- Step 1 for one queue: EN in force decides. -/
def State.stepQueue (s : State) (q : Nat) : State :=
  let en := s.fld (queueBase q + rQCtrl) 0 0 = 1
  let k := s.queue q
  let s := if k.st = .active ∧ !en then s.setQueue q { k with st := .draining } else s
  let k := s.queue q
  let s := if k.st = .draining ∧ k.outstanding = 0 ∧ k.buffer = [] then s.setQueue q { k with st := .absent } else s
  if (s.queue q).st = .absent ∧ en ∧ s.queueHome q then (if s.queueFits q then s.createQueue q else s.failQueue q) else s

/-- Step 1 for every queue, ascending. -/
def State.stepQueues (s : State) : State :=
  s.each (fun s q => s.stepQueue q) ((List.range 1025).filter fun q => (s.queue q).st ≠ .absent || s.fld (queueBase q + rQCtrl) 0 0 = 1)

/-- A queue is gone at once: EN reads 0 (R481, R484). Its descriptors complete with TORN_DOWN. -/
def State.killQueue (s : State) (q : Nat) : State :=
  let k := s.queue q
  let s := { s.setFld (queueBase q + rQCtrl) 0 0 0 with regPend := SMap.upd (0, 0) s.regPend (queueBase q + rQCtrl) fun x =>
    (putBits x.1 0 0 0, putBits x.2 0 0 0) }
  if k.st = .absent then s
  else
    let s := s.setQueue q { k with st := .absent, buffer := [], admitted := k.admitted + k.buffer.length }
    k.buffer.foldl (fun s ds => s.complete q ds 0x2A) s

/-! ## Creation (R480, R481) -/

/-- A ring's base is set and its LOG2 is in a range. -/
def State.ringSet (s : State) (base cfg lo hi : Nat) : Bool :=
  s.fld base 63 12 ≠ 0 && decide (lo ≤ s.fld cfg 4 0 ∧ s.fld cfg 4 0 ≤ hi)

/-- The settings that creation requires are there (FAIL_CAUSE 0x2). -/
def State.partSet (s : State) (p : Nat) : Bool :=
  let b := sliceBase p
  let ev := s.fld (b + rPartEventCfg) 4 0
  s.fld (b + rPartDb) 63 12 ≠ 0 && s.fld (b + rPartStop) 63 12 ≠ 0 && s.ringSet (b + rPartAcctBase) (b + rPartAcctCfg) 6 16 &&
    s.ringSet (b + rPartPlaceBase) (b + rPartPlaceCfg) 20 24 && (ev = 0 || decide (6 ≤ ev ∧ ev ≤ 16))

/-- PARAM_FRAMES. -/
def State.paramCount (s : State) (p : Nat) : Nat := s.fld (pfBase p + rPrtPartCfg) 47 32

/-- The first check of creation that fails, as FAIL_CAUSE; 0 if none does. -/
def State.createFault (s : State) (p : Nat) : Nat :=
  let n := (s.stackSet p).length
  if s.galleriesOf p = [] then 1
  else if !s.partSet p then 2
  else if !s.areasIn p (s.partAreas p) then 3
  else if s.fld (pfBase p + rPrtGenFrames) 20 0 < (s.paramCount p + n - 1) / n then 4
  else if (List.range 16).any (fun t => decide (1024 < s.saeSum t)) || decide (256 < s.quotaSum 8 0 ∨ 16384 < s.quotaSum 30 16) then 6
  else 0

/-- A creation fails: the partition is ABSENT. -/
def State.failCreate (s : State) (p cause : Nat) : State :=
  let s := ((List.range 64).map (64 * p + ·)).foldl (fun s q => if (s.queue q).st = .absent then s else s.setQueue q { s.queue q with st := .absent }) s
  ((s.setPartState p .absent).flag (sliceBase p + rPartStatus) 11).setFld (sliceBase p + rPartStatus) 19 16 cause

/-- Step 1 for a partition that is being created: it starts empty, its rings at their first entries, its swap key and its KEM key drawn
(R448). A KEM key that fails its pairwise consistency test puts the module in the error state (R434). -/
def State.create1 (s : State) (p : Nat) (kemFails : Bool) : State :=
  match s.createFault p with
  | 0 =>
    let k := s.part p
    let n := s.freeCtr
    let s := { s with freeCtr := n + 5 }.setPart p { st := .creating, keysHeld := true, kemHeld := true, swapKey := n, kemKey := n + 4, tdi := k.tdi, carryPf := k.carryPf, hostHeld := k.hostHeld }
    let s := { s with dbg := { s.dbg with vfRing := s.dbg.vfRing.del p } }
    let s := s.setFld (sliceBase p + rPrtPlace) 63 32 0
    if kemFails then s.cryptoError else s
  | c => s.failCreate p c

/-! ## Destruction (R376, R442, R444, R464, R481) -/

/-- The streams of a partition that is destroyed are faulted: their fates take effect in step 4 (R272, R290). -/
def State.faultStreams (s : State) (p : Nat) : State :=
  let go (t : StreamSt) : StreamSt := if t.st ≠ .free ∧ t.part = p then { t with fault := true } else t
  { s with streams := SMap.mapV {} (fun _ t => go t) s.streams }

/-- The frames of the device buffers that a partition's handles, live or stale, name. -/
def PartSt.deviceFrames (k : PartSt) : List (Nat × Nat) :=
  let of (o : HObj) : List (Nat × Nat) := match o with
    | .device fs _ => fs
    | _ => []
  (k.handles.flatMap fun e => (e.2.obj.map of).getD []) ++ k.freed.flatMap fun x => of x.2

/-- The background operations of a partition. -/
def State.bgOf (s : State) (p : Nat) (b : BgOp) : Bool :=
  match b.kind with
  | .load q _ _ _ _ => q = p
  | .reload q _ => q = p
  | .copy q _ _ _ _ => q = p
  | .swapOut i => (s.stream i).part = p
  | .swapIn i => (s.stream i).part = p
  | .shadowSync q => q = p
  | .refill q _ => q = p
  | .restoreDie _ _ => false
  | .remapCopy _ _ => false

/-- Everything that a partition's descriptors wait for is over: they complete with TORN_DOWN. -/
def State.tearDescs (s : State) (p : Nat) : State :=
  let held := s.admitted.filter fun a => queuePart a.1 = some p
  let ops := (s.bg.filter (s.bgOf p)).filterMap fun b => match b.kind with
    | .load _ _ _ ds q => some (q, ds)
    | .copy _ _ _ ds q => some (q, ds)
    | _ => none
  let s := { s with admitted := s.admitted.filter fun a => !(queuePart a.1 = some p) }.dropBgs (s.bgOf p)
  (held ++ ops).foldl (fun s x => s.complete x.1 x.2 0x2A) s

/-- A partition is DESTROYING: contexts torn down, queues gone, its objects and galleries on their way to be released. -/
def State.destroy1 (s : State) (p : Nat) : State :=
  let s := { s with regPend := s.regPend.del (pfBase p + rPrtLife) }
  if (s.part p).st = .absent ∨ (s.part p).st = .destroying then s
  else
    let s := (s.setPartState p .destroying).tearAll p
    let s := s.landingsDone fun l => l.level = 1 && l.part = some p
    let rcv := { s.rcv with halted := s.rcv.halted.filter fun x => !decide (x = p), haltedBy := s.rcv.haltedBy.filter fun x => !decide (x.1 = p) }
    let s := { s with rcv := rcv }.faultStreams p
    let s := ((List.range 64).map (64 * p + ·)).foldl (fun s q => s.killQueue q) (s.tearDescs p)
    let k := s.part p
    let s := ((s.unresident p).releaseFrames (k.deviceFrames ++ k.paramFrames)).releaseKv p
    let s := (s.galleriesOf p).foldl (fun s g => s.clearGallery g (some p) false) s
    let mine (w : InWin) : Bool := w.part = p
    let s := { s with inWins := s.inWins.filter fun e => !((e.2.map mine).getD false),
                      outSlots := s.outSlots.filter fun e => !((e.2.map fun (w : OutSlot) => decide (w.part = p)).getD false) }
    let k := s.part p
    s.setPart p { k with handles := [], fences := [], graphs := [], freed := [], pages := [], paramFrames := [], keysHeld := false, kemHeld := false }

/-- After step 5: the contexts of a partition being destroyed are gone; it is ABSENT once its last frame is FREE and its galleries
are verified. -/
def State.destroy5 (s : State) (p : Nat) : State :=
  let k := s.part p
  if k.st ≠ .destroying then s
  else
    let s := s.setPart p { k with ctxs := [] }
    let held := (List.range 16).any fun t => (s.stk t).frames.any fun e => e.2.part = p && (e.2.st = .allocated || e.2.st = .zeroing)
    if held ∨ s.rcv.clearing.any (fun x => x.2.1 = some p) then s
    else (s.setPartState p .absent).setFld (pfBase p + rPrtGalleries) 23 0 0

/-! ## Step 1 -/

/-- A written DESTROY is due. -/
def State.destroyDue (s : State) (p : Nat) : Bool := bit (SMap.get (0, 0) s.regPend (pfBase p + rPrtLife)).1.toNat 1

/-- An accepted unlock takes effect (R432, R455, R463): DEBUG_MEMORY and TEST clear APPROVED. -/
def State.unlock1 (s : State) : State :=
  match s.sec.unlockDue with
  | some u =>
    let s := { s with sec := { s.sec with unlockDue := none } }
    if u.lastTick < s.tickNo.toNat then s
    else
      let appr := s.sec.approved && decide (u.scope < 2)
      let s := { s with sec := { s.sec with unlock := some u, approved := appr } }.extendSlot 4
        (Config.measured 4 (u.scope + if appr then 8 else 0))
      if u.scope = 3 then s else s.scanFalls
  | none => s

/-- Step 1 (R53). -/
def State.step1 (s : State) (b : BoundaryIn) : State :=
  let core := s.reg rDbgPmuCore
  let stk := s.reg rDbgPmuStk
  let s := s.settle.routeReturns.restartPerf core stk
  let s := ((s.opStep b.meas b.railOk).putMeas b.meas).boundaryAlarms b.meas
  let s := (s.adoptScales.markRetire).retirements
  let s := s.each (fun s p => if s.destroyDue p then s.destroy1 p else s) (List.range 16)
  let s := s.each (fun s p => if (s.part p).st = .creating then s.create1 p (b.kemFails.contains p) else s) (List.range 16)
  let s := s.stepQueues
  s.unlock1

end Sys2Proof.Machine
end

