-- ==== Sys2Proof/Machine/Commit.lean ====
section
/-! DEFINITION. Steps 3 and 4 of a boundary (R53): placement, evictions and windows (R221, R342, R353, R357), and pages: what has
completed in the background commits, flights that have ended are retired, and objects, versions and frames are released (R248,
R306, R321, R442). -/

namespace Sys2Proof.Machine

/-! ## Step 3: placement (R342, R353 to R357) -/

/-- A placement change changes the slots of a graph. -/
def movesSlots (c : PlaceCommit) (g : GraphSt) : Bool := g.placed != placeTable c

/-- A change must wait for the graph's flights (R354, R355): another number of slots, another stage in one, or any change in deterministic
mode. -/
def State.mustWait (s : State) (c : PlaceCommit) (g : GraphSt) : Bool :=
  s.graphRuns c.part c.graph && (s.det || g.placed.map Region.stage != (placeTable c).map Region.stage)

/-- A placement change keeps to R353: its stage placement at most once in 64 ticks, its phase split at most once in 256, but for a unit
that was retired or GALLERIES that changed since the graph was placed. -/
def State.placeDue (s : State) (c : PlaceCommit) (g : GraphSt) : Bool :=
  let now := s.tickNo.toNat
  g.resident && g.moving.isNone &&
  match c.reason with
  | 3 => !movesSlots c g || spaced g.lastMove 64 now
  | 4 => (!movesSlots c g || spaced g.lastMove 64 now) && decide (s.roles c = c.prefill)
  | 5 => (List.range 24).any fun i => bit g.galleries i && bit (s.reg rPrtRetired).toNat i
  | 6 => decide (s.galleryMask c.part ≠ g.galleries)
  | _ => false

/-- One placement change that the firmware has ready: it commits, or waits for the graph's flights to end, new launches being held (R354). -/
def State.place3 (s : State) (c : PlaceCommit) : State :=
  match s.graph c.part c.graph with
  | none => s
  | some g =>
    if s.paused c.part || !s.placeDue c g then s
    else if s.mustWait c g then
      (if s.placeForm (withExt c g) g then s.setGraph c.part c.graph (some { g with moving := some c }) else s)
    else (s.commitPlace c g).getD s

/-- A change that waited for a graph's flights commits once they have ended; one that can no longer be made is given up, and the launches
held for it begin (R354). -/
def State.moveGraph (s : State) (p h : Nat) : State :=
  match s.graph p h with
  | none => s
  | some g =>
    match g.moving with
    | none => s
    | some c =>
      if s.graphRuns p h || s.paused p then s
      else match s.commitPlace c g with
        | some s => s
        | none =>
          if g.resident && s.placeOk { withExt c g with prefill := s.roles c } g then s
          else
            let s := s.setGraph p h (some { g with moving := none })
            if g.resident then s.releaseHeld p h g.placed else s

/-- A resident graph whose cores a landing 3 has cleared is placed again from the same inputs, once no gallery of the partition is being
cleared, and the flights held for it begin (R384). The record names the reason Load: the table of reasons has none for this (DESIGN CHOICE, log
entry 169). -/
def State.placeAgain (s : State) (p h : Nat) : State :=
  match s.graph p h with
  | none => s
  | some g =>
    match g.placedAs with
    | some c =>
      if g.resident ∧ g.placed = [] ∧ !s.paused p ∧ !(s.rcv.clearing.any fun x => x.2.1 = some p) ∧ !s.placing p h then
        (s.commitPlace { c with reason := 1 } g).getD s
      else s
    | none => s

/-- Every graph of a partition that is to be placed again. -/
def State.placeAgains (s : State) (p : Nat) : State := (s.part p).graphs.foldl (fun s e => s.placeAgain p e.1) s

/-- Every change of a partition's graphs that waits. -/
def State.moveGraphs (s : State) (p : Nat) : State := (s.part p).graphs.foldl (fun s e => s.moveGraph p e.1) s

/-! ## Step 3: evictions (R341, R342) -/

/-- Evict a graph (R341, R342): its record is issued, and step 4 releases its space. -/
def State.evict (s : State) (p h : Nat) : State :=
  match s.graph p h with
  | some g =>
    (match s.issuePlace { part := p, graph := h, slots := [], images := [], reason := 7, prefill := (s.part p).prefill } g with
     | none => s
     | some s => s.setGraph p h (some { g with resident := false, moving := none }))
  | none => s

/-- Frames of uses WEIGHTS and GENERAL that a partition holds in a stack and that no eviction has given up. -/
def State.genLive (s : State) (p t : Nat) : Nat :=
  let gone := (s.part p).graphs.flatMap fun e => match e.2 with
    | some g => if g.resident ∨ s.placing p e.1 then [] else { g with batchAt := [] }.frames
    | none => []
  (s.stk t).frames.countP fun e => decide (e.2.part = p ∧ e.2.use ≠ .kv ∧ e.2.st = .allocated) && !e.2.released && !gone.contains (t, e.1)

/-- A limit of a partition lies below what it uses (R337, R342). -/
def State.overLimit (s : State) (p : Nat) : Bool :=
  decide (s.fld (pfBase p + rPrtHot) 6 0 < s.residents p) ||
    (s.stackSet p).any fun t => decide (s.fld (pfBase p + rPrtGenFrames) 20 0 < s.genLive p t)

/-- A completed load or reload, or a placement change, of a partition lacks room that an eviction can make (R342). -/
def State.lacksRoom (s : State) (b : BoundaryIn) (p : Nat) : Bool :=
  (s.bg.any fun x => x.done && x.status = 0 && x.handle.isNone && match x.kind, x.place with
    | .load q g append _ _, some c =>
      q = p && (let hot := if append && ((s.graph p g).map GraphSt.resident).getD false then 0 else 1
                let h := if append then g else 2 ^ 32
                !(s.roomFor (loadPlace c p h) x.weights hot))
    | .reload q g, some c => q = p && !(s.roomFor { c with part := p, graph := g } x.weights 1)
    | _, _ => false) ||
  ((b.places ++ (s.part p).graphs.filterMap fun e => e.2.bind GraphSt.moving).any fun c =>
    decide (c.part = p) && s.slotsOk p (placeTable c) && !s.slotsFree p c.graph (placeTable c))

/-- Something of a partition needs room now: a limit, or room that is not already on its way. -/
def State.needsRoom (s : State) (b : BoundaryIn) (p : Nat) : Bool := s.overLimit p || (s.lacksRoom b p && !s.roomComing p)

/-- Evict the next victims of a partition while it needs room, one at a time. -/
def State.evictNeed (s : State) (b : BoundaryIn) (p : Nat) : Nat → State
  | 0 => s
  | n + 1 =>
    if s.needsRoom b p then
      (match s.victims p with
       | [] => s
       | v :: _ => (s.evict p v.1).evictNeed b p n)
    else s

/-- An eviction that the firmware has decided: of the next victim, where room is needed. -/
def State.evictAsked (s : State) (b : BoundaryIn) (p h : Nat) : State :=
  match s.victims p with
  | v :: _ => if v.1 = h && s.needsRoom b p then s.evict p h else s
  | [] => s

/-- What an evicted graph held is released, in step 4: all but its batch table (R341, R347). -/
def State.dropEvicted (s : State) (p : Nat) : State :=
  (s.part p).graphs.foldl (fun s e => match e.2 with
    | some g =>
      let fs := { g with batchAt := [] }.frames
      if g.resident ∨ s.placing p e.1 ∨ (g.placed == [] && fs == []) then s
      else (s.setGraph p e.1 (some { g with placed := [], weights := [], oldGens := [] })).releaseFrames fs
    | none => s) s

/-! ## Step 3: remote windows (R219 to R221) -/

/-- Jormir's checks of a change, and the change. An inbound window takes arrivals from the open of the next tick (R221). -/
def State.window3 (s : State) : WindowChange → State
  | .openOut k p m w n e =>
    if k < 1024 ∧ (s.part p).st ≠ .absent ∧ m < 256 ∧ w < 1024 ∧ 0 < n ∧ n ≤ 0x400000000 then
      { s with outSlots := SMap.set none s.outSlots k (some { part := p, dstModule := m, dstWindow := w, len := n, epoch := e }) }
    else s
  | .closeOut k => { s with outSlots := s.outSlots.del k }
  | .openIn w p h base n m sp e bc bn br =>
    let bind : Bool := match bc with
      | some c => s.coreOf p c && decide (bn < 16)
      | none => true
    if w < 1024 ∧ (s.ctx p h.toNat).isSome ∧ base % 4096 = 0 ∧ n % 4096 = 0 ∧ 0 < n ∧ s.inWindow p base n ∧ m < 256 ∧ sp < 16 ∧ bind then
      let e' : InWin := { part := p, ctx := h.toNat, base := base, len := n, srcModule := m, srcPart := sp, epoch := e,
                          bindCore := bc, bindCnt := bn, bindRow := br, isOpen := false }
      { s with inWins := SMap.set none s.inWins w (some e') }
    else s
  | .closeIn w => { s with inWins := s.inWins.del w, rowsIn := s.rowsIn.filter fun r => !decide (r.win = w) }

/-- The graphs of begun flights have run in the tick that closes (R342). -/
def State.ranNow (s : State) : State :=
  (s.flights.filterMap fun e => match e.2 with
    | some f => if f.begun then some (f.part, f.graph) else none
    | none => none).eraseDups.foldl (fun s x => match s.graph x.1 x.2 with
      | some g => s.setGraph x.1 x.2 (some { g with lastRun := s.tickNo.toNat })
      | none => s) s

/-- HOT_RESIDENT and HELD_LAUNCHES. -/
def State.hotFields (s : State) (p : Nat) : State :=
  let held := s.flights.countP fun e => match e.2 with
    | some f => f.part = p && f.heldReload && f.endStatus.isNone
    | none => false
  (s.setFld (pfBase p + rPrtHot) 14 8 (s.residents p)).setFld (pfBase p + rPrtHot) 47 32 (min held 65535)

/-- Step 3 (R53): the placements of loads that committed in step 2, reloads, evictions, placement changes, windows, and moves of weights. -/
def State.step3 (s : State) (b : BoundaryIn) : State :=
  let ps := List.range 16
  let s := s.ranNow
  let s := s.bg.foldl (fun s x => s.placeBg x) s
  let s := s.each (fun s p => s.placeAgains p) ps
  let s := (s.bg.filter BgOp.done).foldl (fun s x => s.commitReload x) s
  let s := b.evict.foldl (fun s x => s.evictAsked b x.1 x.2) s
  let s := s.each (fun s p => s.evictNeed b p (s.part p).graphs.length) ps
  let s := s.each (fun s p => s.moveGraphs p) ps
  let s := b.places.foldl (fun s c => s.place3 c) s
  let s := b.windows.foldl (fun s w => s.window3 w) s
  let s := s.each (fun s t => s.moves false b.homes t) (List.range 16)
  s.each (fun s p => s.hotFields p) ps

/-! ## Step 4: what has completed in the background -/

/-- The pieces of a range, line by line: offset and length. -/
def pieces (off n : Nat) : List (Nat × Nat) :=
  if n = 0 then [] else
  (List.range ((off % 64 + n + 63) / 64)).map fun i =>
    let lo := max off (off / 64 * 64 + 64 * i)
    (lo, min (off + n) (off / 64 * 64 + 64 * (i + 1)) - lo)

/-- A piece of a device buffer is copied from or to a range of another that lies in the same stack: it crosses no external port (R251). -/
def HObj.sameStack (o q : HObj) (lo n qlo : Nat) : Bool :=
  match q with
  | .device _ _ => decide (q.addr qlo / stackBytes = o.addr lo / stackBytes ∧ q.addr (qlo + n - 1) / stackBytes = o.addr lo / stackBytes)
  | _ => false

/-- Write bytes, read from an offset of a source, into a buffer from an offset, line by line; they are charged to the partition. -/
def State.putBuf (s : State) (p : Nat) (o : HObj) (off : Nat) (src : HObj) (soff : Nat) (data : List Byte) : State :=
  match o with
  | .host a _ => s.hostPart p (a + off) data
  | _ =>
    ((pieces off data.length).foldl (fun s x =>
      s.putStack (o.addr x.1) ((data.drop (x.1 - off)).take x.2) (some p)
        (if o.sameStack src x.1 x.2 (soff + (x.1 - off)) then [o.addr x.1 / stackBytes] else [])) s).chargePart p
      { stackB := 64 * (o.lines off data.length).length }

/-- A completed COPY or refill commits, but for a stopped partition's (R57, R71, R330, R375); the frames of a load or reload whose placement
has committed are filled. -/
def State.commitBg (s : State) (b : BgOp) : State :=
  if !b.done then s
  else
    match b.kind with
    | .copy p dst src ds q =>
      if s.paused p then s else
      let s := if b.status = 0 then s.putBuf p dst (sWide ds.d) src (sArg ds.d) b.data else s
      (s.complete q ds b.status).endBg b.id
    | .refill p g =>
      if s.paused p then s else
      (match s.graph p g with
       | some x =>
         let s := s.writeScratch x.scratch
         (if x.moving.isNone then s.releaseHeld p g x.placed else s).endBg b.id
       | none => s.endBg b.id)
    | _ => s.weightsBg b

/-! ## Step 4: flights that have ended (R177, R306, R318, R320, R321) -/

/-- A flight of a context that is being torn down waits for the clear. -/
def State.settled (s : State) (f : FlightSt) : Bool :=
  match s.ctx f.part f.ctx with
  | some x => x.tear = .none || x.tear = .cleared
  | none => true

/-- The completion of a LAUNCH whose flight has ended. -/
def flightCompl (n : Nat) (f : FlightSt) (status : Nat) : ComplSt :=
  { queue := f.queue, seq := f.seq, tag := f.tag, opcode := 0x01, status := status, result := n % 2 ^ 32, ctx := f.ctx,
    signal := f.signal, interrupt := f.interrupt, flight := some n }

/-- A flight gives up its version and its private pages. -/
def State.dropFlight (s : State) (f : FlightSt) : State :=
  let k := s.part f.part
  let s := s.setPart f.part (f.pages.foldl (fun k i => k.dropPage i) k)
  match s.graph f.part f.graph with
  | none => s
  | some g =>
    let less (v : VersionSt) : VersionSt := if v.num = f.version then { v with captured := v.captured - 1 } else v
    s.setGraph f.part f.graph (some { g with versions := g.versions.map less })

/-- Retire one flight that has ended: its completion is due, once; it is gone when no result digest needs it. -/
def State.retireFlight (s : State) (n : Nat) (f : FlightSt) (status : Nat) : State :=
  let pushed := (s.compl ++ s.waitPub).any fun c => c.flight = some n
  let s := if status = 0 then s else { s with sec := { s.sec with digests := s.sec.digests.filter fun d => !decide (d.flight = n) } }
  let s := if pushed then s else (s.dropFlight f).pushCompl (flightCompl n f status)
  let s := s.onCores (fun k => k.drop n) f.cores
  if s.sec.digests.any fun d => decide (d.flight = n) && !d.done then s.setFlight n (some { f with pages := [] })
  else { s with flights := s.flights.del n, sec := { s.sec with digests := s.sec.digests.filter fun d => !decide (d.flight = n) } }

/-- Retire every flight that has ended. -/
def State.retireFlights (s : State) : State :=
  s.flights.foldl (fun s e => match e.2 with
    | some f => (match f.endStatus with
        | some st => if s.settled f then s.retireFlight e.1 f st else s
        | none => s)
    | none => s) s

/-! ## Step 4: objects and versions (R306, R321, R322) -/

/-- Something that is not over uses the object behind a stale handle. -/
def State.objUsed (s : State) (p h : Nat) (o : HObj) : Bool :=
  (s.flights.any fun e => match e.2 with
    | some f => f.part = p && (f.bufs.contains h || (f.signal.map Prod.fst) = some h)
    | none => false) ||
  (s.bg.any fun b => match b.kind with
    | .copy q d c ds _ => q = p && (d = o || c = o || (sSignal ds.d && sSigFence ds.d = h))
    | .load q _ _ ds _ => q = p && (sB ds.d = h || ds.aux.binds.any (fun x => x.toNat = h) || (sSignal ds.d && sSigFence ds.d = h))
    | _ => false) ||
  (s.compl ++ s.waitPub).any fun c => queuePart c.queue = some p && (c.signal.map Prod.fst) = some h

/-- Frames and pages of a graph are released. -/
def State.freeGraph (s : State) (p h : Nat) (g : GraphSt) : State :=
  let k := s.part p
  let k := (g.versions.flatMap VersionSt.pages).foldl (fun k i => k.dropPage i) k
  ((s.setPart p { k with graphs := SMap.set none k.graphs h none }).releaseFrames g.frames).dropBgs fun b =>
    decide (b.kind = BgKind.reload p h) || decide (b.kind = BgKind.refill p h)

/-- A graph whose handle is stale has no flight, no stream that still holds its slot, and no load (R322). -/
def State.graphIdle (s : State) (p h : Nat) : Bool :=
  !(s.flights.any fun e => match e.2 with
    | some f => f.part = p && f.graph = h
    | none => false) &&
  !(s.streams.any fun e => e.2.st ≠ .free && e.2.part = p && e.2.graph = h) &&
  !(s.bg.any fun b => match b.kind with
    | .load q g app _ _ => app && q = p && g = h
    | _ => false)

/-- Release what one stale handle named, after its last use. -/
def State.freeObj (s : State) (p h : Nat) (o : HObj) : State :=
  let gone (s : State) : State := s.setPart p { s.part p with freed := (s.part p).freed.filter fun x => !decide (x.1 = h) }
  match o with
  | .graph =>
    (match s.graph p h with
     | some g => if s.graphIdle p h then gone (s.freeGraph p h g) else s
     | none => gone s)
  | .fence => if s.objUsed p h o then s else
      let k := s.part p
      gone (s.setPart p { k with fences := SMap.set none k.fences h none })
  | .device fs _ => if s.objUsed p h o then s else gone (s.releaseFrames fs)
  | .host _ _ => if s.objUsed p h o then s else gone s

/-- Versions that are no longer live give up their pages, and images that none runs their frames (R306). -/
def State.trimGraph (s : State) (p h : Nat) (g : GraphSt) : State :=
  let dead := g.versions.filter fun v => !v.live
  let live := g.versions.filter VersionSt.live
  let old := g.oldGens.filter fun x => !live.any fun v => decide (v.gen = x.gen)
  if dead = [] ∧ old = [] then s
  else
    let k := (dead.flatMap VersionSt.pages).foldl (fun k i => k.dropPage i) (s.part p)
    let g' : GraphSt := { g with versions := live, oldGens := g.oldGens.filter fun x => !decide (x ∈ old) }
    (s.setPart p { k with graphs := SMap.set none k.graphs h (some g') }).releaseFrames (old.flatMap OldGen.weights)

/-- Objects and versions of a partition. -/
def State.freeObjs (s : State) (p : Nat) : State :=
  let s := (s.part p).freed.foldl (fun s x => s.freeObj p x.1 x.2) s
  (s.part p).graphs.foldl (fun s e => match s.graph p e.1 with
    | some g => s.trimGraph p e.1 g
    | none => s) s

/-! ## Step 4: frames (R248, R442, R481) -/

/-- Parameter space of a partition that is being created, spread over its stack set. Frames that are not FREE fail the creation
with the cause of the spread. -/
def State.paramSpace (s : State) (p : Nat) : State :=
  if (s.part p).st ≠ .creating ∨ (s.part p).paramFrames ≠ [] then s
  else
    let set := s.stackSet p
    let n := s.paramCount p
    let fs := set.zipIdx.flatMap fun x =>
      (s.freeIn x.1 (n / set.length + if x.2 < n % set.length then 1 else 0)).map fun f => (x.1, f)
    if fs.length < n then s.failCreate p 4
    else (s.takeFrames fs p .general).setPart p { s.part p with paramFrames := fs }

/-- Destinations of moves that the firmware allocates. -/
def State.grant (s : State) (x : Nat × Bool × Nat × Nat) : State :=
  let use : FrameUse := if x.2.1 then .kv else .weights
  let limit := s.fld (pfBase x.1 + if x.2.1 then rPrtKvFrames else rPrtGenFrames) 20 0
  if s.framesFree [(x.2.2.1, x.2.2.2)] x.1 limit use then s.takeFrames [(x.2.2.1, x.2.2.2)] x.1 use else s

/-- A fill-and-copy command names a frame that is released at this boundary. -/
def State.fcNamesReleased (s : State) (t : Nat) (x : FcCmd) : Bool :=
  let hit (st lo n : Nat) : Bool := (s.stk st).frames.any fun e => e.2.released && decide (lo ≤ e.1 ∧ e.1 < lo + n)
  (fcNames t x.cmd).any (fun y => hit y.1 y.2 (fcFrames x.cmd)) ||
    (fcKind x.cmd = 3 && (s.gatherLines x.cmd).any fun l => (s.frame t (l / 1024)).released)

/-- Jormir abandons every command that names a frame that leaves its partition's windows (R260, R442). -/
def State.abandonReleased (s : State) : State :=
  s.each (fun s t => ((s.stk t).fc.filter (s.fcNamesReleased t)).foldl (fun s x => s.fcAbandon t x) s) (List.range 16)

/-- The fields that an attestation report gives of a partition (R459). -/
def State.partFields (s : State) (p : Nat) : PartFields :=
  let k := s.part p
  let map := (s.reg (pfBase p + rMirMap)).toNat
  let ext := s.fld (pfBase p + rPrtPartCfg) 0 0
  { state := k.tdi + 4 * ext + 8 * bits map 0 0 + 16 * bits map 1 1, galleries := s.fld (pfBase p + rPrtGalleries) 23 0,
    stackSet := ((s.stackSet p).map fun t => 2 ^ t).sum, kvFrames := s.fld (pfBase p + rPrtKvFrames) 20 0,
    genFrames := s.fld (pfBase p + rPrtGenFrames) 20 0,
    graphs := k.graphs.filterMap fun e => match e.2 with
      | some g => if g.resident then some (g.digest, g.wdigest) else none
      | none => none }

/-- The report fields of every partition, as this step 4 leaves them (R460). -/
def State.snapFields (s : State) : State :=
  { s with sec := { s.sec with fields := (List.range 16).foldl (fun m p => SMap.set {} m p (s.partFields p)) s.sec.fields } }

/-- Step 4 (R53): `offs` are the values of STK_PWR_OFF before this boundary's step 1. -/
def State.step4 (s : State) (b : BoundaryIn) (offs : List Word) : State :=
  let ts := List.range 16
  let ps := List.range 16
  let pre := s
  let s := s.fates
  let s := s.each (fun s t => s.fcCommits t) ts
  let cs := s.chunks b.budget
  let homes := b.homes.filter fun x => s.mayMove b.frames cs x.1
  let s := s.each (fun s t => (s.moves true homes t).movesWait t) ts
  let s := s.each (fun s t => (s.dies (offs.getD t 0) t).rows4 t) ts
  let s := s.each (fun s p => s.dropEvicted p) ps
  let s := (s.bg).foldl (fun s x => s.commitBg x) s
  let s := s.retireFlights
  let s := s.each (fun s p => s.freeObjs p) ps
  let s := s.each (fun s p => s.paramSpace p) ps
  let s := b.grants.foldl (fun s x => s.grant x) (s.admitted4 b.frames)
  let s := (s.streams4 pre b.frames b.budget).abandonReleased
  (s.each (fun s t => ((s.releases t).zeroed t).snapFrames t) ts).snapFields

end Sys2Proof.Machine
end

