-- ==== Sys2Proof/Machine/Mirror.lean ====
section
/-! DEFINITION. Mirrored pairs (R414 to R430): seals, acknowledgements, heartbeats, the lease and the claim, what a shadow
stages and applies, and promotion. The layouts of the trailer and of the streamed data are not in the spec: they are
uninterpreted functions (log entry 27). -/

namespace Sys2Proof.Config

/-- The bytes of a seal's trailer (R416): its layout is not in the spec. -/
opaque trailerBytes : List Sys2Proof.Machine.MirRec → List Byte

/-- The records of a trailer's bytes. -/
opaque trailerRecs : List Byte → List Sys2Proof.Machine.MirRec

/-- What a tick's streamed data writes, as (device address, byte) (R416). -/
opaque mirrorWrites : List Byte → List (Nat × Byte)

end Sys2Proof.Config

namespace Sys2Proof.Machine

/-! ## What a delta carries (R416) -/

/-- A stream as a delta carries it. -/
def StreamSt.forMirror (t : StreamSt) : StreamSt := { t.newTick with final := none, swapIdx := [], swapImage := [] }

/-- The launch record of a flight (R416; log entry 111). -/
def launchRec (d : BitVec 512) (f : FlightSt) : LaunchRec :=
  { graph := d, version := f.version, pages := f.pages, params := f.params, ctx := f.ctx, queue := f.queue, tag := f.tag, signal := f.signal,
    interrupt := f.interrupt }

/-- The records that describe a partition's whole mirrored state. Frames of use WEIGHTS are its placement, which is not mirrored (R416). -/
def State.mirRecs (s : State) (p : Nat) : List MirRec :=
  let k := s.part p
  let frames := (List.range 16).flatMap fun t => (s.stk t).frames.filterMap fun e =>
    if e.2.part = p ∧ e.2.st = .allocated ∧ e.2.use ≠ .weights then
      some (MirRec.frame t e.1 { st := .allocated, use := e.2.use, part := p, refs := e.2.refs }) else none
  let graphs := k.graphs.filterMap fun e => e.2
  (k.ctxs.filterMap fun e => e.2.map fun x => MirRec.context e.1 (some { x with charges := {}, holder := false, credit := 0 })) ++
  (graphs.flatMap fun g => g.versions.map fun v => MirRec.version g.digest v.num (k.block v)) ++
  (s.flights.filterMap fun e => match e.2 with
    | some f => if f.part = p ∧ f.endStatus.isNone then
        some (MirRec.launch e.1 (launchRec f.digest f)) else none
    | none => none) ++
  frames ++
  (s.streams.filterMap fun e => if e.2.st ≠ .free ∧ e.2.part = p then some (MirRec.stream e.1 (((s.graph p e.2.graph).map GraphSt.digest).getD 0) e.2.forMirror) else none) ++
  ((s.prefixes.filter fun e => decide (e.part = p)).map fun e => MirRec.tree e true) ++
  (k.fences.filterMap fun e => e.2.map fun f => MirRec.fence e.1 f.value f.fault) ++
  graphs.flatMap fun g => g.scales.map fun x => MirRec.scale g.digest x.1 x.2

/-- The record, if any, that says that something the partner holds is gone. -/
def MirRec.gone (cur : List MirRec) : MirRec → Option MirRec
  | .launch n _ => if cur.any fun r => match r with
      | .launch m _ => m = n
      | _ => false then none else some (.ended n)
  | .stream i d t => if cur.any fun r => match r with
      | .stream j _ _ => j = i
      | _ => false then none else some (.stream i d { gen := (t.gen + 1) % 2 ^ 32 })
  | .frame st f _ => if cur.any fun r => match r with
      | .frame st' f' _ => st' = st && f' = f
      | _ => false then none else some (.frame st f {})
  | .tree e true => if cur.contains (.tree e true) then none else some (.tree e false)
  | .context h _ => if cur.any fun r => match r with
      | .context h' _ => h' = h
      | _ => false then none else some (.context h none)
  | _ => none

/-- The trailer records of a tick: what is new or has changed, and what is gone. -/
def deltaRecs (cur sent : List MirRec) : List MirRec :=
  (cur.filter fun r => !sent.contains r) ++ sent.filterMap (MirRec.gone cur)

/-- The 128-byte header of a seal (R418). -/
def sealHeader (src p : Nat) (tick : Word) (seq data trailer : Nat) (recs : List MirRec) (det : Bool) (digest : BitVec 512) : List Byte :=
  let n (f : MirRec → Bool) : Nat := recs.countP f
  let streams := n fun r => match r with
    | .stream _ _ _ => true
    | _ => false
  let fences := n fun r => match r with
    | .fence _ _ _ => true
    | _ => false
  let launches := n fun r => match r with
    | .launch _ _ => true
    | .version _ _ _ => true
    | .ended _ => true
    | _ => false
  let ctxs := n fun r => match r with
    | .context _ _ => true
    | _ => false
  let frames := n fun r => match r with
    | .frame _ _ _ => true
    | _ => false
  let flags := (if recs.isEmpty && data = 0 then 1 else 0) + (if det then 2 else 0)
  leBytes 4 0x544C444D ++ leBytes 2 1 ++ leBytes 1 src ++ leBytes 1 p ++ leBytes 8 tick.toNat ++ leBytes 8 seq ++ leBytes 4 data ++
    leBytes 4 trailer ++ leBytes 2 streams ++ leBytes 2 fences ++ leBytes 2 launches ++ leBytes 2 ctxs ++ leBytes 4 frames ++
    leBytes 4 flags ++ leBytes 16 0 ++ digestBytes digest

/-! ## The pair and the lease (R415, R421 to R424) -/

/-- LEASE_US after a time of the timebase, in nanoseconds. -/
def State.leaseFrom (s : State) (t : Word) : Word := t + BitVec.ofNat 64 (1000 * s.fld rMirLease 31 0)

/-- The lease is renewed by the acknowledgement of a message that was sent at `t`: it lasts until then plus LEASE_US, if that is later (R422). -/
def State.renewLease (s : State) (t : Word) : State :=
  let e := s.leaseFrom t
  if s.mir.pair = .paired ∧ s.serves then
    { s with mir := { s.mir with leaseHeld := true, leaseEnd := if s.mir.leaseHeld ∧ e.toNat < s.mir.leaseEnd.toNat then s.mir.leaseEnd else e } }.claim
  else s

/-- A message that renews the partner's lease arrives: this module records its end, and the shadows' grace starts again (R422, R425). -/
def State.partnerLives (s : State) : State :=
  let t := s.stampTime
  { t.2 with mir := { t.2.mir with partnerEnd := some (t.2.leaseFrom t.1), graceOver := [] } }

/-- Send a heartbeat to the partner of a formed pair (R421); when it was sent is kept for the lease (R422). -/
def State.heartbeat (s : State) : State :=
  if s.mir.pair = .paired then
    let n := s.mir.hbSeq + 1
    let t := s.stampTime
    { t.2 with mir := { t.2.mir with hbSeq := n, hbAt := t.2.mir.hbAt ++ [(n, t.1)] } }.sendMirror
      { kind := 5, dst := 0, src := 0, word := s.tickNo.toNat, seq := n } []
  else s

/-- The mirror ports that are ACTIVE to PARTNER_ID. -/
def State.partnerPorts (s : State) : List Nat := [10, 11].filter fun n => s.live n && (s.port n).partner = s.partnerId

/-- The pair forms while a mirror port reaches the partner and no such port's round trip exceeds 2 µs (R415). The copies of the committed state go
out at the next boundary, and the shadows' own begin there (R57). The lease starts here: the rules name its renewals and not its start (log entry
28). That the partner's MIR_CTRL agrees is presumed (log entry 28). -/
def State.formPair (s : State) : State :=
  if s.fld rMirCtrl 0 0 = 0 ∨ s.fld rMirCtrl 2 1 = 0 ∨ !(s.mir.pair = .off ∨ s.mir.pair = .forming ∨ s.mir.pair = .degraded) then s
  else
    let ports := s.partnerPorts
    if ports.isEmpty then (if s.mir.pair = .degraded then s else { s with mir := { s.mir with pair := .forming } }).claim
    else if ports.any fun n => decide (2000 < 2 * (s.port n).delay) then
      { s with mir := { s.mir with pair := .forming, causeRtt := true } }.claim
    else
      let t := s.stampTime
      let e := t.2.leaseFrom t.1
      let s := { t.2 with mir := { t.2.mir with pair := .paired, causeRtt := false, leaseHeld := true, leaseEnd := e, partnerEnd := some e } }
      let s := s.each (fun s p => if s.mirMapped p then
        s.setMirp p { s.mirp p with copyDue := true, seals := [], sealAt := [], streamed := [], fenced := false } else s) (List.range 16)
      s.claim

/-! ## Sealing and publication (R418 to R420, R71) -/

/-- The tick number that the data of the background copy carries in place of a tick's (log entry 27). -/
def copyTick : Nat := 2 ^ 64 - 1

/-- The background copy of a mirrored partition's committed state is sent (R57, R415): the contents of its mirrored frames and all its records.
Deltas count from it. The layout of a copy is not in the spec (log entry 27). -/
def State.sendCopy (s : State) (p : Nat) : State :=
  if !s.mirrored p ∨ !(s.mirp p).copyDue then s
  else
    let recs := s.mirRecs p
    let data := (recs.flatMap fun r => match r with
      | .frame t f _ => Memory.readN s.mem (frameAddr t f) 65536
      | _ => []) ++ Config.trailerBytes recs
    let s := (s.setMirp p { s.mirp p with copyDue := false, sent := recs, deltaSeq := 0 }).chargePart p { onlanB := data.length }
    ((chunks4k data.length data).zipIdx).foldl (fun s d =>
      s.sendMirror { kind := 7, dst := 0, src := 0, part := p, word := copyTick, seq := d.2 } d.1) s

/-- The context of the records that say how a context's work stands. -/
def MirRec.ofCtx (t : Nat → Bool) : MirRec → Bool
  | .launch _ r => t r.ctx
  | .stream _ _ x => t x.ctx
  | .context h _ => t h
  | _ => false

/-- Send one partition's seal (R418): without the tick's changes of a context that is being torn down (R371), and empty at the resume from a
hard stop (R76). -/
def State.sealOne (s : State) (p : Nat) : State :=
  if !s.mirrored p then s
  else
    let m := s.mirp p
    let torn (h : Nat) : Bool := (s.ctx p h).any fun x => x.tear ≠ .none
    let cur := if m.emptySeal then m.sent
      else (s.mirRecs p).filter (fun r => !r.ofCtx torn) ++ m.sent.filter (fun r => r.ofCtx torn)
    let recs := deltaRecs cur m.sent
    let data := ((m.streamed.filter fun x => decide (x.1 = 0) || !torn (x.1 - 1)).map Prod.snd).flatten
    let tr := Config.trailerBytes recs
    let h := sealHeader s.moduleId p s.tickNo (m.deltaSeq + 1) data.length tr.length recs s.det (Config.shake256 (data ++ tr))
    let t := s.stampTime
    let s := t.2.setMirp p { m with deltaSeq := m.deltaSeq + 1, seals := m.seals ++ [s.tickNo], sealAt := m.sealAt ++ [(s.tickNo, t.1)], sent := cur,
                                    streamed := [], dataSeq := 0, emptySeal := false }
    let s := s.chargePart p { onlanB := 128 + tr.length }
    (chunks4k (128 + tr.length) (h ++ tr)).foldl (fun s d =>
      s.sendMirror { kind := 8, dst := 0, src := 0, part := p, word := s.tickNo.toNat } d) s

/-- A seal is acknowledged with a STATUS (R419, R420, R422): the lease is renewed, and RESYNC has the copy sent again. -/
def State.sealAck (s : State) (p status : Nat) (tick : Word) : State :=
  let m := s.mirp p
  if !m.seals.contains tick then s
  else
    let at' := ((m.sealAt.find? fun x => decide (x.1 = tick)).map Prod.snd).getD 0
    let m' : MirPart := { m with seals := m.seals.erase tick, sealAt := m.sealAt.filter (fun x => !decide (x.1 = tick)), lastSealed := tick }
    (s.setMirp p (if status = 1 then { m' with copyDue := true } else m')).renewLease at'

/-- A soft stop is complete once mirrored partners have acknowledged (R71, R430): that of a partition past its cut, and the module's. -/
def State.softCut (s : State) : State :=
  let acked (p : Nat) : Bool := !s.mirrored p || (s.mirp p).seals.isEmpty
  let s : State := (s.tick.cutWait.filter acked).foldl (fun (s : State) p =>
      if (s.part p).st = .softStopping then s.setPartState p .softStopped else s)
    { s with tick := { s.tick with cutWait := s.tick.cutWait.filter fun p => !acked p } }
  if s.genState = 2 ∧ s.tick.held ∧ (List.range 16).all fun p => !s.mirrored p || (s.mirp p).seals.isEmpty then s.setGenState 3
  else s

/-- MIRROR_ACK on a mirror port (R419, R420). -/
def execMirrorAck (n : PortId) (hdr : BitVec 256) (s : State) : Host.Outcome State Fault Refusal :=
  if (n.val = 10 ∨ n.val = 11) ∧ s.live n ∧ mKind hdr = 9 ∧ mSrc hdr = s.partnerId ∧ mStatus hdr ≤ 1 then
    .next (((s.freeFlits n { hdr := hdr }).sealAck (mPart hdr) (mStatus hdr) (BitVec.ofNat 64 (mWord hdr))).softCut)
  else .next s

/-! ## Heartbeats -/

/-- A HEARTBEAT from the partner is answered (R421), and its lease recorded (R422). -/
def execHeartbeat (n : PortId) (hdr : BitVec 256) (s : State) : Host.Outcome State Fault Refusal :=
  if (n.val = 10 ∨ n.val = 11) ∧ s.live n ∧ mKind hdr = 5 ∧ mSrc hdr = s.partnerId ∧ s.mir.pair = .paired then
    .next ((s.freeFlits n { hdr := hdr }).partnerLives.sendOn n
      { hdr := (MsgFields.hdr { kind := 6, dst := s.partnerId, src := s.moduleId, seq := mSeq hdr }) })
  else .next s

/-- 1,000 µs have passed in an open tick: another HEARTBEAT (R421). -/
def execHeartbeatTimer (s : State) : Host.Outcome State Fault Refusal := if s.tick.isOpen then .next s.heartbeat else .next s

/-- A HEARTBEAT_ACK renews the lease (R422). -/
def execHeartbeatAck (n : PortId) (hdr : BitVec 256) (s : State) : Host.Outcome State Fault Refusal :=
  if (n.val = 10 ∨ n.val = 11) ∧ s.live n ∧ mKind hdr = 6 ∧ mSrc hdr = s.partnerId ∧ s.mir.hbAcked < mSeq hdr ∧
      mSeq hdr ≤ s.mir.hbSeq then
    let s := s.freeFlits n { hdr := hdr }
    let at' := ((s.mir.hbAt.find? fun x => decide (x.1 = mSeq hdr)).map Prod.snd).getD 0
    .next ({ s with mir := { s.mir with hbAcked := mSeq hdr, hbAt := s.mir.hbAt.filter fun x => decide (mSeq hdr < x.1) } }.renewLease at')
  else .next s

/-- The partitions that this module mirrors. -/
def State.mirroredParts (s : State) : List Nat := (List.range 16).filter fun p => s.mirMapped p

/-- Mirrored partitions are hard-stopped, their withheld publications discarded, and the pair is FENCED (R423, R424, R486). -/
def State.fencePair (s : State) (src : StopSource) : State :=
  let ps := s.mirroredParts
  let live := ps.filter fun p => (s.part p).st = .active || (s.part p).st = .softStopping || (s.part p).st = .softStopped
  let s := s.hardStopParts src live
  let s := s.each (fun s p =>
    s.setMirp p { s.mirp p with stalledPub := [], seals := [], sealAt := [], unacked := [], streamed := [], copyDue := false, fenced := true }) ps
  { s with mir := { s.mir with pair := .fenced, leaseHeld := false, claimOut := false, held := [] } }

/-- The timebase reads at least `t` (R513). -/
def State.timeTo (s : State) (t : Word) : State := if s.timebase.toNat < t.toNat then { s with timebase := t } else s

/-- The lease of a serving module expires (R423): FENCED without a witness; with one, the withheld records are published and the
module continues unmirrored. -/
def execLeaseExpiry (s : State) : Host.Outcome State Fault Refusal :=
  if s.mir.pair ≠ .paired ∨ !s.mir.leaseHeld ∨ !s.serves then .next s
  else if s.fld rMirCtrl 4 4 = 0 then .next ((s.timeTo s.mir.leaseEnd).fencePair .firmware)
  else
    let s := s.timeTo s.mir.leaseEnd
    let s := s.each (fun s p =>
      let m := s.mirp p
      let out := if s.locked p then [] else m.stalledPub
      out.foldl (fun s x => s.doPub x.2) (s.setMirp p { m with
        stalledPub := if s.locked p then m.stalledPub else [], seals := [], sealAt := [], unacked := [], streamed := [] }))
      s.mirroredParts
    .next ({ s with mir := { s.mir with pair := .degraded, leaseHeld := false, held := [] } }.claim.softCut)

/-- A period of LEASE_US in which no boundary completes (R424): the claim falls, until a boundary completes. -/
def execClaimWatchdog (s : State) : Host.Outcome State Fault Refusal :=
  .next { s with mir := { s.mir with claimOut := false, claimOff := true } }

/-- MIR_CTRL with EN 0 (R486): its other fields are written as they stand. -/
def State.mirOff (s : State) : State :=
  let was := s.fld rMirCtrl 0 0 = 1
  let s := s.setFld rMirCtrl 0 0 0
  if !was then s
  else
    let s := if s.mir.pair = .paired ∨ s.mir.pair = .degraded ∨ s.mir.pair = .promoting then s.fencePair .registerWrite
      else if s.mir.pair = .forming then { s with mir := { s.mir with pair := .off } } else s
    s.each (fun s p => if s.isShadow p then s.setMirp p { s.mirp p with shadow := 0, staged := [], due := [], promoting := false, promoteDue := false, takes := [] } else s)
      (List.range 16)

/-- A write of MIR_CTRL that clears EN (R486). -/
def execMirDisable (value : Word) (s : State) : Host.Outcome State Fault Refusal :=
  if bit value.toNat 0 ∨ !s.barOpen rMirCtrl then .next s else .next ((s.writeBits rMirCtrl value (BitVec.allOnes 64)).mirOff)

/-! ## The shadow (R414, R416, R419, R429) -/

/-- The shadow partition of a partner's partition. -/
def State.shadowOf (s : State) (p : Nat) : Option Nat :=
  (List.range 16).find? fun q => s.isShadow q && s.fld (pfBase q + rMirMap) 7 4 = p

/-- MIRROR_DATA: the shadow stages it (R416), once however often it comes; the acknowledgement of the data is the link's. That of the background copy
is not staged: the copy's end has a row of its own (SHADOW_SYNC_COMPLETE). -/
def execMirrorData (n : PortId) (hdr : BitVec 256) (data : List Byte) (s : State) : Host.Outcome State Fault Refusal :=
  if (n.val = 10 ∨ n.val = 11) ∧ s.live n ∧ mKind hdr = 7 ∧ mSrc hdr = s.partnerId ∧ mLen hdr = data.length then
    let s := s.freeFlits n { hdr := hdr, data := data }
    match s.shadowOf (mPart hdr) with
    | some p =>
      if (s.mirp p).shadow = 0 then .next s
      else
        let t : Word := BitVec.ofNat 64 (mWord hdr)
        let m := s.mirp p
        if mWord hdr = copyTick ∨ m.staged.any (fun x => decide (x.1 = t ∧ x.2.1 = mSeq hdr)) then .next s
        else .next (s.setMirp p { m with staged := m.staged ++ [(t, mSeq hdr, data)] })
    | none => .next s
  else .next s

/-- The graph of a partition with a digest. -/
def State.graphWith (s : State) (p : Nat) (d : BitVec 512) : Option (Nat × GraphSt) :=
  (s.part p).graphs.findSome? fun e => match e.2 with
    | some g => if g.digest = d then some (e.1, g) else none
    | none => none

/-- The place of a mirrored frame in a shadow's map of frames. -/
def mirFrame (t f : Nat) : Nat := t * 2 ^ 21 + f

/-- The shadow's own frame for a mirrored one; none where it could not be staged (R429). -/
def State.shadowFrame (s : State) (p t f : Nat) : Option Nat :=
  match SMap.get 0 (s.mirp p).frameMap (mirFrame t f) with
  | 0 => none
  | k + 1 => some k

/-- Put an entry of a shadow's map of frames. -/
def State.mapFrame (s : State) (p t f v : Nat) : State :=
  s.setMirp p { s.mirp p with frameMap := SMap.set 0 (s.mirp p).frameMap (mirFrame t f) v }

/-- A frame record at the shadow: the same frame where it is FREE here, else the lowest FREE one of the stack, within the shadow's limit; a
release gives it up (R416, R429; log entry 147). -/
def State.applyFrame (s : State) (p t f : Nat) (x : Frame) : State :=
  match s.shadowFrame p t f with
  | some g =>
    if x.st = .free then (s.setFrame t g { s.frame t g with released := true, refs := 0 }).mapFrame p t f 0
    else s.setFrame t g { s.frame t g with refs := x.refs }
  | none =>
    if x.st = .free then s
    else
      let limit := s.fld (pfBase p + if x.use = .kv then rPrtKvFrames else rPrtGenFrames) 20 0
      match (f :: s.freeIn t 1).find? fun g => s.framesFree [(t, g)] p limit x.use with
      | some g => ((s.takeFrames [(t, g)] p x.use).setFrame t g { st := .allocated, use := x.use, part := p, refs := x.refs }).mapFrame p t f (g + 1)
      | none => s

/-- The shadow's own slot for a mirrored stream: the same one where it is FREE here, else the lowest FREE one (log entry 147). -/
def State.shadowSlot (s : State) (p i : Nat) : Option Nat :=
  match SMap.get 0 (s.mirp p).slotMap i with
  | 0 => (i :: List.range 16384).find? fun j => (s.stream j).st = .free
  | k + 1 => some k

/-- A queue of the mirrored partition, as the same queue of the shadow. -/
def shadowQueue (p q : Nat) : Nat := if q < 1024 then 64 * p + q % 64 else q

/-- A stream record at the shadow: its graph, queue and frames are the shadow's own; a page that is not staged marks it UNMIRRORED_KV, and a
page table is written for the pages that are (R416, R429). -/
def State.applyStream (s : State) (p i : Nat) (d : BitVec 512) (t : StreamSt) : State :=
  match s.shadowSlot p i with
  | none => s
  | some j =>
    let m := s.mirp p
    if t.st = .free then
      if SMap.get 0 m.slotMap i = 0 then s
      else (s.setMirp p { m with slotMap := SMap.set 0 m.slotMap i 0, unmirrored := m.unmirrored.filter fun x => !decide (x = j) }).setStream j t
    else
      let fs := t.ptFrames.filterMap fun f => s.shadowFrame p t.home f
      let pages := t.pages.filterMap fun e => (s.shadowFrame p t.home (e.2 - 1)).map fun g => (e.1, g + 1)
      let lost := pages.length < t.pages.length || fs.length < t.ptFrames.length
      let t' : StreamSt := { t with part := p, graph := ((s.graphWith p d).map Prod.fst).getD t.graph, queue := shadowQueue p t.queue,
                                    pages := pages, ptFrames := fs }
      let s := s.setMirp p { m with slotMap := SMap.set 0 m.slotMap i (j + 1),
                                    unmirrored := if lost && !m.unmirrored.contains j then m.unmirrored ++ [j] else m.unmirrored }
      let s := s.setStream j t'
      if lost then s else pages.foldl (fun s e => s.writePte t' e.1) s

/-- A tree entry with the shadow's own frames. -/
def State.shadowEnt (s : State) (p : Nat) (e : PrefixEnt) : PrefixEnt :=
  { e with part := p, frames := e.frames.map fun x => (x.1, (s.shadowFrame p e.home x.2).getD x.2) }

/-- One record of an applied seal. -/
def State.applyRec (s : State) (p : Nat) : MirRec → State
  | .version d n b =>
    (match s.graphWith p d with
     | some (h, g) =>
       let k := s.part p
       let c := pageCount g.params
       if k.freePages.length < c ∨ g.versions.any (fun v => decide (v.num = n)) then s
       else
         let nums := k.freePages.take c
         let s := s.setPart p (k.putPages nums (pagesOf c b))
         s.setGraph p h (some { (({ g with nextNum := n }).addVersion nums) with nextNum := n + 1 })
     | none => s)
  | .launch n r => s.setMirp p { s.mirp p with launches := (s.mirp p).launches ++ [.launch n r] }
  | .ended n => s.setMirp p { s.mirp p with launches := (s.mirp p).launches.filter fun r => match r with
      | .launch m _ => m ≠ n
      | _ => true }
  | .stream i d t => s.applyStream p i d t
  | .frame t f x => s.applyFrame p t f x
  | .tree e added =>
    let e := s.shadowEnt p e
    if added then { s with prefixes := s.prefixes ++ [e] } else { s with prefixes := s.prefixes.filter fun x => !decide (x = e) }
  | .fence h v fault =>
    let k := s.part p
    (match SMap.get none k.fences h with
     | some f => s.setPart p { k with fences := SMap.set none k.fences h (some { f with value := v, fault := fault }) }
     | none => s.setPart p { k with fences := SMap.set none k.fences h (some { value := v, fault := fault }) })
  | .context h x => s.setCtx p h x
  | .scale d tno v =>
    (match s.graphWith p d with
     | some (h, g) => s.setGraph p h (some (g.setScales [(tno, v)]))
     | none => s)

/-- The order in which records apply: frames before the streams and trees that name them. -/
def MirRec.first : MirRec → Bool
  | .frame _ _ x => x.st ≠ .free
  | _ => false

/-- A byte of streamed data, at the shadow's own frame; none where its frame is not staged. -/
def State.shadowByte (s : State) (p : Nat) (x : Nat × Byte) : Option (Nat × Byte) :=
  let st := x.1 / 0x1200000000
  let off := x.1 % 0x1200000000
  (s.shadowFrame p st (off / 65536)).map fun g => (frameAddr st g + off % 65536, x.2)

/-- Bytes by device address, as runs of consecutive ones. -/
def byteRuns : List (Nat × Byte) → List (Nat × List Byte)
  | [] => []
  | x :: t =>
    match byteRuns t with
    | (a, l) :: r => if a = x.1 + 1 then (x.1, x.2 :: l) :: r else (x.1, [x.2]) :: (a, l) :: r
    | [] => [(x.1, [x.2])]

/-- Apply a seal that was answered OK (R416, R419): its data and its records become the shadow's state. -/
def State.applySeal (s : State) (p : Nat) (data : List Byte) (recs : List MirRec) : State :=
  let s := (recs.filter MirRec.first).foldl (fun s r => s.applyRec p r) s
  let ws := ((Config.mirrorWrites data).filterMap (s.shadowByte p)).filter fun x => s.inWindow p x.1 1
  let s := (byteRuns ws).foldl (fun s x => s.putStack x.1 x.2 (some p)) s
  (recs.filter fun r => !r.first).foldl (fun s r => s.applyRec p r) s

/-- What a shadow holds and a copy of the whole committed state does not have is given up, before the copy is applied (R415). -/
def State.syncDrop (s : State) (p : Nat) (recs : List MirRec) : State :=
  let m := s.mirp p
  let s := m.frameMap.foldl (fun s e => if recs.any fun r => match r with
      | .frame t f _ => mirFrame t f = e.1
      | _ => false then s else s.applyFrame p (e.1 / 2 ^ 21) (e.1 % 2 ^ 21) {}) s
  let s := m.slotMap.foldl (fun s e => if recs.any fun r => match r with
      | .stream i _ _ => i = e.1
      | _ => false then s else s.applyStream p e.1 0 { gen := ((s.stream (e.2 - 1)).gen + 1) % 2 ^ 32 }) s
  let s := (s.part p).ctxs.foldl (fun s e => if recs.any fun r => match r with
      | .context h _ => h = e.1
      | _ => false then s else s.setCtx p e.1 none) s
  { s.setMirp p { s.mirp p with launches := [] } with prefixes := s.prefixes.filter fun e => !decide (e.part = p) }

/-- A completed background copy of the mirrored partition's committed state commits: the shadow is READY (R57, R415). -/
def State.commitSync (s : State) (b : BgOp) : State :=
  match b.kind with
  | .shadowSync p =>
    if !b.done || s.paused p then s
    else
      let recs := Config.trailerRecs b.params
      let s := ((s.syncDrop p recs).applySeal p b.data recs).endBg b.id
      s.setMirp p { s.mirp p with shadow := 2 }
  | _ => s

/-- A shadow that is NOT_READY begins to synchronise, at a boundary of a formed pair (R57, R415). -/
def State.beginSync (s : State) (p : Nat) : State :=
  if s.isShadow p ∧ (s.mirp p).shadow = 0 ∧ s.mir.pair = .paired then
    (s.setMirp p { s.mirp p with shadow := 1, staged := [], rxSeq := 0 }).startBg (.shadowSync p)
  else s

/-- Apply the seals that a shadow holds, oldest first; those that came while it synchronises wait for its copy (R415, R419). -/
def State.applyDue (s : State) (p : Nat) : State :=
  let m := s.mirp p
  if m.shadow = 1 then s else m.due.foldl (fun s x => s.applySeal p x.1 x.2) (s.setMirp p { m with due := [] })

/-- Step 6: copies of what is mirrored begin, shadows that lack one begin it; every mirrored partition's seal, and the acknowledgements that
arrive inside its bound. -/
def State.step6 (s : State) (acks : List (Nat × Nat)) : State :=
  let s := s.each (fun s p => (s.sendCopy p).beginSync p) (List.range 16)
  let s := s.each (fun s p => s.sealOne p) (List.range 16)
  acks.foldl (fun s a => s.sealAck a.1 a.2 s.tickNo) s

/-- Data by MSG_SEQ. -/
def bySeq (l : List (Nat × List Byte)) : List Byte := ((sortBy (fun x => (x.1, 0)) l).map Prod.snd).flatten

/-- MIRROR_SEAL: the shadow checks the sequence and the digest, the data in MSG_SEQ order, and answers on receipt (R418, R419); an accepted seal is
applied at the next step 4 (log entry 29). -/
def execMirrorSeal (n : PortId) (hdr : BitVec 256) (sealHdr : BitVec 1024) (trailer : List Byte) (s : State) :
    Host.Outcome State Fault Refusal :=
  if (n.val = 10 ∨ n.val = 11) ∧ s.live n ∧ mKind hdr = 8 ∧ mSrc hdr = s.partnerId then
    let s := s.freeFlits n { hdr := hdr, data := leBytes 128 sealHdr.toNat ++ trailer }
    match s.shadowOf (mPart hdr) with
    | none => .next s
    | some p =>
      let m := s.mirp p
      let tick : Word := BitVec.ofNat 64 (bits sealHdr.toNat 127 64)
      let seq := bits sealHdr.toNat 191 128
      let data := bySeq ((m.staged.filter fun x => decide (x.1 = tick)).map Prod.snd)
      let ok := decide (bits sealHdr.toNat 31 0 = 0x544C444D ∧ m.shadow ≠ 0 ∧ seq = m.rxSeq + 1 ∧
        BitVec.ofNat 512 (bits sealHdr.toNat 1023 512) = Config.shake256 (data ++ trailer))
      let ack := MsgFields.hdr { kind := 9, dst := s.partnerId, src := s.moduleId, part := mPart hdr, word := tick.toNat, status := if ok then 0 else 1 }
      let s := s.partnerLives.sendOn n { hdr := ack }
      let rest := m.staged.filter fun x => decide (tick.toNat < x.1.toNat)
      if ok then
        .next (s.setMirp p { m with staged := rest, rxSeq := seq, lastSealed := tick, due := m.due ++ [(data, Config.trailerRecs trailer)] })
      else .next ({ s.setMirp p { m with shadow := 0, staged := [] } with bg := s.bg.filter fun b => !decide (b.kind = BgKind.shadowSync p) })
  else .next s

/-- A shadow's background copy finishes, with the mirrored partition's committed state as data and records: it commits, and the shadow is
READY, at the next boundary (R57, R415). -/
def execShadowSyncComplete (c : SyncCopy) (s : State) : Host.Outcome State Fault Refusal :=
  if (s.mirp c.part).shadow = 1 then
    .next { s with bg := s.bg.map fun b => if b.kind = BgKind.shadowSync c.part then { b with done := true, data := c.data, params := c.trailer } else b }
  else .next s

/-! ## Promotion (R425, R426) -/

/-- A gallery leaves partition q for a promoted shadow (R354, R376, R426): while a flight of q runs on it, q's further flights there are held; with
none, it is taken from q and cleared. -/
def State.giveUp (s : State) (q g : Nat) : State :=
  let on (f : FlightSt) : Bool := f.part = q && f.slots.any fun r => decide (r.core / 8 = g)
  let hold (f : FlightSt) : FlightSt := if on f ∧ !f.begun then { f with heldReload := true } else f
  if s.flights.any fun e => match e.2 with
    | some f => on f && f.begun && f.endStatus.isNone
    | none => false
  then { s with flights := SMap.mapV none (fun _ f => f.map hold) s.flights }
  else (s.leaveGallery q g).setFld (pfBase q + rPrtGalleries) g g 0

/-- Galleries that a shadow takes (R376, R426): each leaves the partition that holds it, and is the shadow's once every word of it reads zero. -/
def State.takeOver (s : State) (p : Nat) : State :=
  (s.mirp p).takes.foldl (fun s g =>
    let done (s : State) : State := s.setMirp p { s.mirp p with takes := (s.mirp p).takes.erase g }
    if bit (s.reg rPrtRetired).toNat g ∨ (s.galleriesOf p).contains g then done s
    else match (List.range 16).find? fun q => (s.galleriesOf q).contains g with
      | some q => s.giveUp q g
      | none => if s.rcv.clearing.any fun x => x.1 = g then s else (done s).setFld (pfBase p + rPrtGalleries) g g 1) s

/-- Promotion of a READY shadow begins: the data of ticks that were not sealed is discarded, and the galleries named in MIR_TAKEOVER are asked
for (R426). -/
def State.beginPromotion (s : State) (p : Nat) : State :=
  if s.isShadow p ∧ (s.mirp p).shadow = 2 then
    let takes := (List.range 24).filter fun g => bit (s.reg (pfBase p + rMirTakeover)).toNat g
    let s := s.setMirp p { s.mirp p with promoting := true, staged := [], takes := takes }
    { s with mir := { s.mir with pair := .promoting } }.takeOver p
  else s

/-- GRACE_US has passed since the end of the partner's lease as this module records it: a READY shadow is promoted, or waits on the claim
(R425). -/
def execGraceExpiry (p : PartId) (s : State) : Host.Outcome State Fault Refusal :=
  match s.mir.partnerEnd with
  | none => .next s
  | some e =>
    if !(s.isShadow p) ∨ (s.mirp p).shadow ≠ 2 ∨ s.mir.pair = .off ∨ s.mir.pair = .forming then .next s
    else
      let s := s.timeTo (e + BitVec.ofNat 64 (1000 * s.fld rMirGrace 31 0))
      if s.fld rMirCtrl 4 4 = 1 ∧ s.mir.claimIn then
        .next { s with mir := { s.mir with graceOver := if s.mir.graceOver.contains p.val then s.mir.graceOver else s.mir.graceOver ++ [p.val] } }
      else .next (s.beginPromotion p)

/-- PAIR_CLAIM_IN changes; deasserted, it lets the shadows that wait on it be promoted (R425). -/
def execPairClaimInChange (level : Bool) (s : State) : Host.Outcome State Fault Refusal :=
  let s := { s with mir := { s.mir with claimIn := level } }
  if level then .next s
  else .next (s.mir.graceOver.foldl (fun s p => s.beginPromotion p) { s with mir := { s.mir with graceOver := [] } })

/-- Output-ring entry number e of a stream, written again from its mirrored tokens (R426). The delta carries no probability or
rank: those of the entry are free. -/
def State.rewriteEntry (s : State) (t : StreamSt) (e : Nat) : State :=
  let k := t.tokens.length - t.tail
  let x := Config.unstated s.freeCtr
  ({ s with freeCtr := s.freeCtr + 1 }).hostPut (t.entryHost e)
    (ringEntry (t.tokens.getD (k + e) 0) (k + e) (BitVec.ofNat 32 x.toNat) ((x.toNat / 2 ^ 32) % 64) 0) t.part t.ctx

/-- A stream of a promoted shadow: unpublished ring entries are written again; one whose KV was not staged is to be rebuilt, in the next step 4
(R272, R426, R429). -/
def State.promoteStream (s : State) (i : Nat) (lost : Bool) : State :=
  let t := s.stream i
  let s := ((List.range (t.tail - t.tailPub)).map (t.tailPub + ·)).foldl (fun s e => s.rewriteEntry t e) s
  if lost then s.setStream i { t with rebuild := 1 } else s

/-- A launch record becomes a flight that enters at its entry and holds its version (R306, R426); one of a graph with extension programs ends
with HARD_STOPPED. Its parameter pages are the shadow's own where it has them free (log entry 111). -/
def State.promoteLaunch (s : State) (p : Nat) : MirRec → State
  | .launch n r =>
    (match s.graphWith p r.graph with
     | none => s
     | some (h, g) =>
       let n := if (s.flight n).isSome then s.flightNext else n
       let k := s.part p
       let nums := if k.freePages.length < r.pages.length then [] else k.freePages.take r.pages.length
       let f : FlightSt :=
         { part := p, ctx := r.ctx, epoch := (s.epochOf p r.ctx).getD 0, graph := h, version := r.version, params := r.params, pages := nums,
           queue := shadowQueue p r.queue, seq := 0, tag := r.tag, signal := r.signal, interrupt := r.interrupt, det := s.det,
           fromTick := s.tickNo.toNat + 1, heldReload := !g.resident || g.placed == [], slots := g.placed, scales := g.scales,
           extension := g.ext, digest := g.digest, wdigest := g.wdigest, endStatus := if g.ext then some 0x21 else none }
       let up (v : VersionSt) : VersionSt := if v.num = r.version then { v with captured := v.captured + 1 } else v
       let s := s.setPart p (k.putPages nums (pagesOf nums.length r.params))
       let s := s.setGraph p h (some { g with versions := g.versions.map up })
       let s := { s with flightNext := max s.flightNext (n + 1) }.setFlight n (some f)
       if g.ext then s else s.requeue n g.placed)
  | _ => s

/-- What a promotion does once every held seal is applied (R426). -/
def State.promote (s : State) (p : Nat) : State :=
  let m := s.mirp p
  let s := s.setMirp p { m with promoting := false, promoteDue := false, shadow := 3, staged := [], launches := [], unmirrored := [],
                                frameMap := [], slotMap := [] }
  let k := s.part p
  let up (x : CtxSt) : CtxSt := { x with epoch := x.epoch + 1 }
  let s := s.setPart p { k with ctxs := SMap.mapV none (fun _ x => x.map up) k.ctxs }
  let s := (s.streamsWith fun t => t.st ≠ .free && t.part = p).foldl (fun s i => s.promoteStream i (m.unmirrored.contains i)) s
  let s := m.launches.foldl (fun s r => s.promoteLaunch p r) s
  let s := s.emit 239 0x19 0 m.lastSealed.toNat (some p)
  let others := (List.range 16).any fun q => (s.mirp q).promoting
  { s with mir := { s.mir with pair := if others then .promoting else .solo } }.claim

/-- Promotion completes (R426): at once, or in the next step 4 where seals are still to be applied. -/
def execMirPromoted (p : PartId) (s : State) : Host.Outcome State Fault Refusal :=
  if !(s.mirp p).promoting then .next s
  else if (s.mirp p).due.isEmpty then .next (s.promote p)
  else .next (s.setMirp p { s.mirp p with promoteDue := true })

/-! ## What the mirror engine does in step 4 (R248, R272, R415, R419) -/

/-- One shadow's part: held seals become its state, a promotion that waited for them completes, and galleries come to it. -/
def State.shadow4 (s : State) (p : Nat) : State :=
  let s := s.applyDue p
  let s := if (s.mirp p).promoting && (s.mirp p).promoteDue then s.promote p else s
  s.takeOver p

/-- Step 4: completed copies commit, and the seals that shadows hold are applied. -/
def State.mirror4 (s : State) : State :=
  (s.bg.foldl (fun s b => s.commitSync b) s).each (fun s p => s.shadow4 p) (List.range 16)

end Sys2Proof.Machine
end

