-- ==== Sys2Proof/Machine/Boundary.lean ====
section
/-! DEFINITION. The tick (R44 to R76): closes, boundaries and opens, followers and barriers, module resumes, and the completion of
background operations (R57). -/

namespace Sys2Proof.Machine

/-! ## A boundary (R53, R63, R64) -/

/-- The event records of an overrun tick (R63): one for each partition with a holder, and one for the module. -/
def State.overrunEvents (s : State) (stretch : Nat) : State :=
  if !s.tick.overrun then s
  else
    let tick := s.tickNo.toNat
    let ps := s.partsWith fun k => k.ctxs.any fun e => match e.2 with
      | some x => x.holder
      | none => false
    (s.each (fun s p => s.emit 226 0x01 stretch tick (some p)) ps).emit 226 0x01 stretch tick

/-- A destroyed context is gone once nothing of it is left (R485). -/
def State.dropCtxs (s : State) : State :=
  s.each (fun s p => (s.part p).ctxs.foldl (fun s e => match e.2 with
    | some x => if x.destroying && (x.tear = .none || x.tear = .cleared) && !s.ctxBusy p e.1 then s.setCtx p e.1 none else s
    | none => s) s) (List.range 16)

/-- What a boundary leaves behind it: background operations and fill-and-copy commands asked for before it may begin (R57), and the claim follows,
which a completed boundary may assert again (R424). -/
def State.boundaryEnds (s : State) : State :=
  let begin1 (b : BgOp) : BgOp := { b with begun := true }
  let s := { s with bg := s.bg.map begin1 }.each (fun s t => s.fcBegin t) (List.range 16)
  { s with mir := { s.mir with claimOff := s.mir.claimOff && s.inLanding4 } }.claim

/-- Steps 0 to 7 of the boundary that closes the tick (R53). A landing 4 closes no accounting record (R385). -/
def State.boundary (s : State) (b : BoundaryIn) : State :=
  let held := s.tick.held
  let stretch := b.lengthUs - s.fld rTckPeriod 16 0
  let offs := (List.range 16).map fun t => s.reg (stkBase t + rStkPwrOff)
  let s := { s with tick := { s.tick with isOpen := false, closed := true, lenUs := b.lengthUs } }
  let s := (((s.step0 b).step1 b).step2).step3 b
  let s := (s.mirror4.step4 b offs).overrunEvents stretch
  let s := if s.inLanding4 then s else s.step5 held b.lengthUs
  let s := (s.each (fun s p => s.destroy5 p) (List.range 16)).dropCtxs
  ((s.step6 b.acks).step7).boundaryEnds

/-- A partition's cut: it reads SOFT_STOPPED, a mirrored one once its seal is acknowledged (R71, R430). -/
def State.cutPart (s : State) (p : Nat) : State :=
  if (s.part p).st ≠ .softStopping then s
  else if s.mirrored p && !(s.mirp p).seals.isEmpty then { s with tick := { s.tick with cutWait := s.tick.cutWait ++ [p] } }
  else s.setPartState p .softStopped

/-- What a sampled request does at the open: cuts take hold, and a resumed context is admitted again (R71 to R73). -/
def State.openReq (s : State) (r : StopReq) : State :=
  match r.scope, r.resume with
  | .module, false =>
    { s with tick := { s.tick with held := true } }.each (fun s p => s.cutPart p) s.tick.modStopped
  | .part p, false => s.cutPart p
  | .context p h, true => s.updCtx p h.toNat fun x => { x with stopped := false }
  | _, _ => s

/-- The streams of a graph's batch for a context that a flight runs for: PREFILL with a chunk, or DECODE (R272, R287). -/
def State.batchFor (s : State) (f : FlightSt) : State :=
  let due (t : StreamSt) : Bool := t.st = .decode || (match t.chunk with
    | some (a, n) => decide (t.promptLen ≤ a + n)
    | none => false)
  let put (t : StreamSt) : StreamSt :=
    if (t.st = .decode ∨ (t.st = .prefill ∧ t.chunk.isSome)) ∧ t.part = f.part ∧ t.ctx = f.ctx ∧ t.graph = f.graph ∧ s.joins t then
      { t with inBatch := true, visitDue := due t } else t
  { s with streams := SMap.mapV {} (fun _ t => put t) s.streams }

/-- The batches of the tick that opens: of each flight that runs in it, or may begin in it. -/
def State.batches (s : State) : State :=
  s.flights.foldl (fun s e => match e.2 with
    | some f =>
      if f.endStatus.isNone && !f.heldReload && decide (f.fromTick ≤ s.tickNo.toNat) && s.runs f.part && !s.frozen f.part &&
          !s.tearing f.part f.ctx then s.batchFor f else s
    | none => s) s

/-- The tick generator at the open of a tick (R15, R63). -/
def State.openTick (s : State) : State :=
  let t := s.tick
  let s := if t.gen then (s.setReg rTckNumber (s.tickNo + 1)).setFld rTckLastLength 31 0 t.lenUs else s
  let pulse := if s.fld rTckCtrl 1 1 = 1 then 1 else 0
  { s with tick := { t with isOpen := true, closed := false, overrun := false, limitHit := false, tearing := false, gen := true, arrived := [], arriveSent := false, released := none, sinceOpen := 0, worked := [], visits := 0, visitMax := 0, reqs := t.reqs.filter fun r => !r.sampled, syncOut := t.syncOut + pulse } }

/-- Step 8: the next tick opens (R53, R54), and with it the windows that step 3 entered (R221). -/
def State.step8 (s : State) : State :=
  let rs := s.tick.reqs.filter StopReq.sampled
  let s := rs.foldl (fun s r => s.openReq r) s.openTick
  let s := s.each (fun s p => if (s.part p).st = .creating then s.setPartState p .active else s) (List.range 16)
  let open1 (w : InWin) : InWin := { w with isOpen := true }
  let s := { s with inWins := SMap.mapV none (fun _ w => w.map open1) s.inWins }
  let s := s.railsUp.acctOpen
  let s := if s.tick.held then s else s.batches
  s.heartbeat.softCut

/-- Step 8 of a boundary that a hard stop has overtaken: the number rises (R15), and no tick is open. -/
def State.step8Stopped (s : State) : State :=
  let s := s.step8
  { s with tick := { s.tick with isOpen := false } }

/-! ## Closes (R49, R52, R61, R65, R68) -/

/-- The tick source (R49). -/
def State.source (s : State) : Nat := s.fld rTckCtrl 5 4

/-- A member of a barrier group (R65, R67). -/
def State.grouped (s : State) : Bool := decide (2 ≤ s.source) && s.tick.group

/-- A message for this module comes on a live fabric port, of a kind. -/
def State.hears (s : State) (n kind : Nat) (hdr : BitVec 256) : Bool := decide (n < 10) && s.live n && mKind hdr = kind

/-- A barrier message. -/
def State.sendBarrier (s : State) (kind dst : Nat) : State :=
  s.sendFabric { hdr := (MsgFields.hdr { kind := kind, dst := dst, src := s.moduleId, word := s.tickNo.toNat }) }

/-- A release, its OFFSET recorded; the compensated start is due (R65). -/
def State.released (s : State) (rootTick : Word) : State :=
  { s with tick := { s.tick with released := some rootTick } }.setReg rTckBarrierOffset (rootTick - s.tickNo)

/-- The root, once every member has arrived, itself included: it sends the releases. -/
def State.rootReleases (s : State) : State :=
  if s.tick.arriveSent && s.tick.released.isNone && decide (s.tick.arrived.length + 1 = s.fld rTckBarrier 8 0) then
    (s.tick.arrived.foldl (fun s m => s.sendBarrier 4 m) s).released s.tickNo
  else s

/-- The close has come and the tick is drained: the boundary, or the arrive of a barrier member (R52, R65). -/
def State.reachClose (s : State) (b : BoundaryIn) : State :=
  if !s.grouped then s.boundary b
  else if s.tick.arriveSent then s
  else
    let s := { s with tick := { s.tick with arriveSent := true } }
    if s.source = 3 then s.rootReleases else s.sendBarrier 3 (Config.barrierRoot % 256)

/-- The holders of an overrun tick, marked (R64). -/
def State.markHolders (s : State) : State :=
  s.holders.foldl (fun s x => s.updCtx x.1 x.2 fun k => { k with holder := true }) s

/-- A tick overruns: OVERRUN and its count (R61, R63). -/
def State.overran (s : State) : State :=
  if s.tick.overrun then s
  else (({ s with tick := { s.tick with overrun := true } }.markHolders).flag rTckStatus 3).countFld rTckOverrunCount 31 0 1

/-- A tick is open that a close may end: the generator runs, and it is neither held nor past its nominal close. -/
def State.closable (s : State) : Bool :=
  (s.genState = 1 || s.genState = 2) && s.tick.isOpen && !s.tick.held && !s.tick.overrun && !s.tick.arriveSent

/-- The nominal close of the tick: engines are sampled (R377), and the tick closes if it has drained. -/
def State.nominal (s : State) (b : BoundaryIn) : State :=
  let s := s.progressCheck
  if s.holders = [] then s.reachClose b else s.overran

/-- NOMINAL_CLOSE by the timer: of the internal timer and of barrier members (R49). -/
def execNominalClose (b : BoundaryIn) (s : State) : Host.Outcome State Fault Refusal :=
  if s.closable ∧ s.source ≠ 1 then .next (s.nominal b) else .next s

/-- TICK_DRAINED after an overrun (R52, R61). -/
def execTickDrained (b : BoundaryIn) (s : State) : Host.Outcome State Fault Refusal :=
  if s.tick.isOpen ∧ s.tick.overrun ∧ (s.genState = 1 ∨ s.genState = 2) ∧ s.holders = [] then .next (s.reachClose b) else .next s

/-- TICK_OPEN (R54). After a hard stop between step 7 and step 8 the number rises (R15), and no tick opens (DESIGN CHOICE, log entry 148). -/
def execTickOpen (s : State) : Host.Outcome State Fault Refusal :=
  if !s.tick.closed then .next s
  else if s.genState = 4 ∨ s.genState = 5 then .next s.step8Stopped
  else .next s.step8

/-- An edge of TICK_SYNC_IN (R68): too early, an overrun, or a nominal close. The boundary of a tick that an edge finds closed has emitted its
records: the overrun's follow at once (R63). -/
def execTickSyncInEdge (sinceUs : Nat) (b : BoundaryIn) (s : State) : Host.Outcome State Fault Refusal :=
  if s.source ≠ 1 ∨ !(s.genState = 1 ∨ s.genState = 2) then .next s
  else if sinceUs < 250 then .next (s.countFld rTckOverrunCount 31 0 1)
  else if s.tick.closed ∧ !s.tick.overrun then .next (s.overran.overrunEvents (s.tick.lenUs - s.fld rTckPeriod 16 0))
  else if s.tick.overrun then .next s.overran
  else if s.closable then .next (s.nominal b)
  else .next s

/-! ## The barrier (R65 to R67) -/

/-- A member's arrive, at the root; one for another module is forwarded (R412). -/
def execBarrierArrive (n : PortId) (hdr : BitVec 256) (s : State) : Host.Outcome State Fault Refusal :=
  if !s.hears n 3 hdr then .next s
  else
  let s := s.freeFlits n { hdr := hdr }
  let m := mSrc hdr
  if mDst hdr ≠ s.moduleId then .next (s.forward hdr [])
  else if s.source = 3 ∧ s.grouped ∧ m ≠ s.moduleId ∧ m ∉ s.tick.arrived ∧ s.tick.released.isNone then
    .next { s with tick := { s.tick with arrived := s.tick.arrived ++ [m] } }.rootReleases
  else .next s

/-- The root's release, at a member that has sent its arrive; one for another module is forwarded (R412). -/
def execBarrierRelease (m : PortId × BitVec 256) (s : State) : Host.Outcome State Fault Refusal :=
  let n := m.1
  let hdr := m.2
  if !s.hears n 4 hdr then .next s
  else
    let s := s.freeFlits n { hdr := hdr }
    if mDst hdr ≠ s.moduleId then .next (s.forward hdr [])
    else if s.source = 2 ∧ s.grouped ∧ s.tick.arriveSent ∧ s.tick.released.isNone then .next (s.released (BitVec.ofNat 64 (mWord hdr)))
    else .next s

/-- The compensated start of a released boundary. -/
def execBarrierCompensatedStart (b : BoundaryIn) (s : State) : Host.Outcome State Fault Refusal :=
  if s.tick.isOpen ∧ s.tick.released.isSome ∧ (s.genState = 1 ∨ s.genState = 2) then .next (s.boundary b) else .next s

/-- A context belongs to a multi-module job (R67): a context of its job (R372) has written to another module, or has an inbound window
open (log entry 30). -/
def State.multiModule (s : State) (p : Nat) (x : CtxSt) : Bool :=
  (s.part p).ctxs.any fun f => match f.2 with
    | some y => decide (y.job = x.job) && (y.multi || s.inWins.any fun e => match e.2 with
        | some w => w.part = p && w.ctx = f.1 && w.isOpen
        | none => false)
    | none => false

/-- The group is lost (R67): multi-module contexts are cut with BARRIER_LOST, and the boundary runs on the module's own timer. -/
def execBarrierTimeout (b : BoundaryIn) (s : State) : Host.Outcome State Fault Refusal :=
  if s.grouped ∧ s.tick.isOpen ∧ s.tick.arriveSent ∧ s.tick.released.isNone then
    let s := { s with tick := { s.tick with group := false } }.flag rTckStatus 5
    let s := s.each (fun s p => (s.part p).ctxs.foldl (fun s e => match e.2 with
      | some x => if s.multiModule p x && !x.stopped then s.cutContext p e.1 0x22 else s
      | none => s) s) (List.range 16)
    .next (s.boundary b)
  else .next s

/-! ## Starts and module resumes (R50, R72, R76, R497) -/

/-- The module leaves IDLE_HOLD (R497): the rails rise for the points that the halls return to. -/
def State.leaveIdle (s : State) : State :=
  if s.pstate ≠ 2 then s
  else s.setPstate 1 |>.each (fun s h => match s.pwr.raise.getD h none with
    | some k => { s with pwr := { s.pwr with volts := s.pwr.volts.set h (opRail k) } }
    | none => s) (List.range 4)

/-- The step 8 that is still due after a hard stop (R15). -/
def State.lateStep8 (s : State) : State := if s.tick.closed then s.step8Stopped else s

/-- The boundary of a start or of a resume, and its open. -/
def State.startTick (s : State) (b : BoundaryIn) : State := ((s.lateStep8.leaveIdle.setGenState 1).boundary b).step8

/-- A module resume that is due or is requested now (R72): it returns the partitions that the module's stop had stopped. -/
def State.resumeModule (s : State) (b : BoundaryIn) : State :=
  let waits := s.tick.reqs.any fun r => r.resume && decide (r.scope = .module)
  let r := if waits then (s, none) else s.resumeRequest .module .descriptor none
  if (waits ∧ (s.genState = 3 ∨ s.genState = 5)) ∨ r.2 = some 0 then r.1.startTick b else r.1

/-- RESUME_MODULE. -/
def execResumeModule (b : BoundaryIn) (s : State) : Host.Outcome State Fault Refusal := .next (s.resumeModule b)

/-- The boundary of an enable: a start, or a resume of the module; in HARD_STOPPING, one that opens no tick (R50). -/
def State.genStart (s : State) (b : BoundaryIn) : State :=
  match s.genState with
  | 0 => s.startTick b
  | 4 => (s.lateStep8.boundary b).step8Stopped
  | 3 => (s.pushReq { src := .registerWrite, scope := .module, resume := true, compl := none }).startTick b
  | 5 => (s.pushReq { src := .registerWrite, scope := .module, resume := true, compl := none }).startTick b
  | _ => s

/-- GEN_EN is set: where it was 0, the generator performs one boundary at once (R50). From a stopped state that boundary is the resume's,
whatever other blocks are disabled (log entry 31). -/
def State.genOn (s : State) (b : BoundaryIn) : State :=
  if s.fld rTckCtrl 0 0 = 1 then s
  else ({ s with tick := { s.tick with group := true } }.setFld rTckCtrl 0 0 1).genStart b

/-- A write of TCK_CTRL that sets GEN_EN: the other fields are written as they stand. -/
def execTickGenEnable (value : Word) (b : BoundaryIn) (s : State) : Host.Outcome State Fault Refusal :=
  if !bit value.toNat 0 ∨ !s.barOpen rTckCtrl then .next s
  else .next ((s.writeBits rTckCtrl value (BitVec.allOnes 64)).genOn b)

/-! ## Background operations (R57, R58, R297, R330) -/

/-- Read every line of a buffer's range for a COPY to another range: the first line that fails decides its status (R330). Each crosses the external
port of its stack, but for one that is copied within it (R251). -/
def State.readBuf (s : State) (p : Nat) (o : HObj) (off n : Nat) (dst : HObj) (doff : Nat) (e : Ecc) : State × Acc :=
  let r := s.bufRead p 0 o off n e
  let out := (pieces off n).filter fun x => !o.sameStack dst x.1 x.2 (doff + (x.1 - off))
  (r.1.portLines 0x02 (out.map fun x => o.addr x.1 / 64 * 64), r.2)

/-- Mark an operation complete. -/
def State.bgDone (s : State) (id : Nat) (status : Nat) (data : List Byte) : State :=
  { s with bg := s.bg.map fun x => if x.id = id then { x with done := true, status := status, data := data } else x }

/-- The bytes of a stream's pages that a swap moves. -/
def StreamSt.swapBytes (n : Nat) : Charges := { stackB := 65536 * n, pcieB := 65600 * n }

/-- What the copy of a row into its spare finds (R262): a corrected line is counted, and one that fails is written as it was stored and stays so. -/
def State.remapErr (s : State) (t : Nat) (r : Remap) (e : Ecc) : State :=
  let on (a : Nat) (f : State → Nat → State) : State :=
    let off := a % 0x1200000000 / 64 * 64
    if a / 0x1200000000 = t ∧ stackRow off = (r.bank, r.row) then f s off else s
  match e with
  | .ok => s
  | .corrected a => on a fun s off => if SMap.get 0 (s.stk t).bad (off / 64) = 0 then s.lineCor t off else s
  | .uncorrectable a => on a fun s off => s.lineUnc t off none 0
  | .tagFail a => on a fun s off => s.lineTag t off none 0

/-- The sixteen lines of a remapped row, read and written, are charged to the partition whose frame it is (R358). -/
def State.remapCharge (s : State) (t : Nat) (r : Remap) : State :=
  let f := s.frame t (frameOfRow r.bank r.row)
  if f.st = .allocated then s.chargePart f.part { stackB := 2048 } else s

/-- A background operation has finished; what it commits waits for a boundary. A swap whose record or pages fail is abandoned and
contained (R297, R452); a swap-out whose partition's swap key is zeroised waits (log entry 171). While an interface is LOCKED no bytes come from
host memory or go to it for its partition (R473). -/
def State.bgComplete (s : State) (b : BgOp) (data : List Byte) (e : Ecc) : State :=
  match b.kind with
  | .copy p dst src ds _ =>
    let n := sLenB ds.d
    let off := sArg ds.d
    (match src with
     | .host _ _ => if data.length = n ∧ !s.locked p then (s.chargePart p { pcieB := n }).bgDone b.id 0 data else s
     | _ =>
       let r := s.readBuf p src off n dst (sWide ds.d) e
       match r.2 with
       | .ok => (r.1.chargePart p { stackB := 64 * (src.lines off n).length }).bgDone b.id 0 (r.1.bufBytes src off n)
       | .wait st => s.waitsAt r.1 st
       | a => r.1.bgDone b.id a.status [])
  | .swapOut i =>
    let t := s.stream i
    let r := s.gatherPages t e
    if b.staging.isEmpty ∨ s.locked t.part ∨ !(s.part t.part).keysHeld then s
    else
      (match r.2 with
       | .ok => ((r.1.writeSwap i).charge t.part t.ctx (StreamSt.swapBytes t.pages.length)).bgDone b.id 0 []
       | .wait st => s.waitsAt r.1 st
       | a => (r.1.endBg b.id).contain t.part t.ctx a.status (stkUnit t.home) none (dataStatus a.status))
  | .swapIn i =>
    let t := s.stream i
    if b.staging.isEmpty ∨ s.locked t.part then s
    else
      (match s.readSwap i data with
       | some m => ((s.setStream i { t with swapImage := m }).charge t.part t.ctx (StreamSt.swapBytes t.swapIdx.length)).bgDone b.id 0 []
       | none => (s.endBg b.id).contain t.part t.ctx 0x26 (stkUnit t.home))
  | .remapCopy t r =>
    let s := (s.remapErr t r e).remapCharge t r
    let k := s.stk t
    (s.setStk t { k with remapPend := k.remapPend.erase r, remapCopied := k.remapCopied ++ [r] }).bgDone b.id 0 []
  | .refill _ _ => s.bgDone b.id 0 []
  | _ => s

/-- BACKGROUND_OP_COMPLETE; loads, reloads, restores and the shadow's copy have rows of their own. -/
def execBackgroundOpComplete (id : Nat) (data : List Byte) (err : PhysErr) (s : State) : Host.Outcome State Fault Refusal :=
  let e := s.lineEcc err
  match s.bg.find? fun b => decide (b.id = id) && !b.done && b.begun with
  | some b => .next (s.bgComplete b data e)
  | none => .next s

end Sys2Proof.Machine
end

