-- ==== Sys2Proof/Machine/Onlan.lean ====
section
/-! DEFINITION. Onlan ports, flits, segments, messages and routing (R393 to R413). Training, replay and delivery are commands; what a
receiver hands on after a segment's tag has verified is a message of its own. -/

namespace Sys2Proof.Machine

/-- The scope of the unlock in force (R463); 0 for none. -/
def State.unlockScope (s : State) : Nat :=
  match s.sec.unlock with
  | some u => u.scope
  | none => 0

/-! ## Ports (R395 to R399) -/

/-- A port carries flits no longer (R399, R412): its keys are zeroised (R464), and what its buffers hold is lost with them. Its own WRITEs not yet sent
wait to be sent by another route, those sent and unacknowledged have lost theirs (R409), and what else it had to send takes another route (R411 to
R413). A mirror port's messages that the partner has not acknowledged go by the other one (R430). -/
def State.portDown (s : State) (n st : Nat) : State :=
  let k := s.port n
  let q := k.sendq.map fun x => x.2.2
  let own (x : PortMsg) : Bool := decide (mKind x.hdr = 1 ∧ mSrc x.hdr = s.moduleId)
  let queued (m : MsgOut) : Bool := q.any fun x => own x && decide (mDst x.hdr = m.dst ∧ mSeq x.hdr = m.seq)
  let k' : PortSt := { k with
    st := st, width := 0, keys := false, keyOut := 0, keyIn := 0, sendq := [], replayBuf := [], credits := [], txSegData := [], rxBuf := [],
    rxUsed := [], owed := [], heldIn := [], stuck := 0, nakSent := false }
  let lose (m : MsgOut) : MsgOut :=
    if m.port = some n then (if queued m then { m with port := none } else { m with lost := true }) else m
  let s := { s with sends := s.sends.map lose }.setPort n k'
  if n < 10 then
    let s := (q.filter fun x => !own x).foldl (fun s m => s.sendFabric m) s
    ((s.sends.map MsgOut.dst).eraseDups).foldl (fun s d => s.pumpSends d) s
  else (k.replayBuf.filterMap FlitOut.msg ++ q).foldl (fun s m => s.onMirror m) s

/-- A retrain begins (R399). -/
def State.retrain (s : State) (n : Nat) : State :=
  if !s.live n then s
  else
    let s := s.portDown n 7
    let k := s.port n
    s.setPort n { k with retrains := satAdd 16 k.retrains 1 }

/-- EN of a port (R395). -/
def State.portEn (s : State) (n : Nat) : Bool := s.fld (portBase n + rOnlPortCtrl) 0 0 = 1

/-- EN from 0 to 1: training starts. -/
def State.portEnable (s : State) (n : Nat) : State :=
  if s.portEn n then s
  else
    let k := s.port n
    (s.setFld (portBase n + rOnlPortCtrl) 0 0 1).setPort n { k with st := 1, cause := 0 }

/-- EN cleared: the port is DISABLED. -/
def State.portDisable (s : State) (n : Nat) : State :=
  if s.portEn n then (s.setFld (portBase n + rOnlPortCtrl) 0 0 0).portDown n 0 else s

/-- ONL_PORT_ENABLE. -/
def execOnlPortEnable (n : PortId) (s : State) : Host.Outcome State Fault Refusal :=
  if s.barOpen (portBase n) then .next (s.portEnable n) else .next s

/-- ONL_PORT_DISABLE. -/
def execOnlPortDisable (n : PortId) (s : State) : Host.Outcome State Fault Refusal :=
  if s.barOpen (portBase n) then .next (s.portDisable n) else .next s

/-- The largest width that the good lanes allow (R397). -/
def widthOf (good : Nat) : Nat := if good = 8 then 8 else if 4 ≤ good then 4 else if 2 ≤ good then 2 else 0

/-- LOOPBACK does not fail a port: TST_CTRL.LOOPBACK_OK under a TEST unlock (R396, R531). -/
def State.loopbackOk (s : State) : Bool := s.unlockScope = 3 && s.fld rTstCtrl 0 0 = 1

/-- A bit for each receive lane that meets a condition. -/
def laneMask (f : Nat → Bool) : Nat := (List.range 8).foldl (fun a i => if f i then a + 2 ^ i else a) 0

/-- What lane i found. -/
def obsLane (r : TrainObs) (i : Nat) : LaneObs := r.lanes.getD i { signal := false, module := 0, port := 0, lane := 0 }

/-- OPEN: no signal, or no far-end termination (R396). -/
def laneOpen (r : TrainObs) (i : Nat) : Bool := !(obsLane r i).signal || !(obsLane r i).term

/-- Two lanes hear one identifier. -/
def sameLane (a b : LaneObs) : Bool := a.module = b.module && a.port = b.port && a.lane = b.lane

/-- SHORT: another lane hears the same identifier, or the driver reports a DC fault (R396). -/
def laneShort (r : TrainObs) (i : Nat) : Bool :=
  (obsLane r i).dc || ((obsLane r i).signal && (List.range 8).any fun j => decide (j ≠ i) && (obsLane r j).signal && sameLane (obsLane r i) (obsLane r j))

/-- A lane that is not excluded (R396). -/
def laneGood (r : TrainObs) (i : Nat) : Bool := !laneOpen r i && !laneShort r i

/-- What the good lanes hear, in order. -/
def lanesHeard (r : TrainObs) : List LaneObs := ((List.range 8).filter (laneGood r)).map (obsLane r)

/-- The wiring row that fails the port, if one does (R396): the rows 5 to 9, in order. A loopback that a TEST unlock allows is no other module's
wiring. -/
def State.wiringFault (s : State) (n : Nat) (r : TrainObs) : Option Nat :=
  let l := lanesHeard r
  let home := l.any fun x => x.module.toNat = s.moduleId
  if r.crossed || l.any (fun x => l.any fun y => !(x.module = y.module && x.port = y.port)) then some 5
  else if home && !r.other && !s.loopbackOk then some 6
  else if !(home && !r.other) && ((decide (10 ≤ n) && l.any fun x => x.module.toNat ≠ s.partnerId) || (n < 10 && home && r.other)) then some 7
  else if l.length < 2 then some 8
  else if 3 ≤ r.failed then some 9
  else none

/-- CAUSE of a training (R396): the row that fails the port, otherwise the first row of the table that applies. -/
def State.trainCause (s : State) (n : Nat) (r : TrainObs) : Nat :=
  match s.wiringFault n r with
  | some c => c
  | none =>
    if (List.range 8).any (laneOpen r) then 1
    else if (List.range 8).any (laneShort r) then 2
    else if (List.range 8).any fun i => (obsLane r i).inverted then 3
    else if (List.range 8).any fun i => (obsLane r i).lane.toNat ≠ i then 4
    else if (lanesHeard r).any fun x => x.module.toNat = s.moduleId then 6
    else 0

/-- What a port learns of its lanes (R396, R397). -/
def PortSt.learn (k : PortSt) (r : TrainObs) : PortSt :=
  let far := (lanesHeard r).head?
  { k with excluded := laneMask fun i => !laneGood r i, inverted := laneMask fun i => laneGood r i && (obsLane r i).inverted,
           laneMap := (List.range 8).map fun i => (obsLane r i).lane.toNat,
           partner := (far.map fun x => x.module.toNat).getD 0, partnerPort := (far.map fun x => x.port.toNat).getD 0 }

/-- The record of a training (R397). -/
def State.wiringRec (s : State) (n : Nat) : State :=
  let k := s.port n
  s.emit (227 + n) 0x16 (k.cause + k.width * 2 ^ 8) (k.excluded + k.inverted * 2 ^ 8)

/-- The 64 bytes of the two directions' keys (R453). -/
def State.sessionKeys (s : State) (r : TrainObs) : BitVec 512 :=
  let shared := Config.mlkem s.freeCtr r.kem
  Config.shake256 (leBytes 32 shared.toNat ++ digestBytes r.transcript ++ ("onlan".toList.map fun c => BitVec.ofNat 8 c.toNat))

/-- The port is ACTIVE: sequence numbers, credits and segments start afresh with new keys (R398, R401, R404, R453). It has passed through DETECT,
LANE_ID, EQUALISE, ALIGN and, once for each attempt, VERIFY (R395). -/
def State.portActive (s : State) (n : Nat) (r : TrainObs) (cause : Nat) : State :=
  let k := (s.port n).learn r
  let keys := s.sessionKeys r
  let k' : PortSt := { k with
    st := 6, cause := cause, path := [1, 2, 3, 4] ++ List.replicate (r.failed + 1) 5 ++ [6], width := widthOf (lanesHeard r).length,
    delay := r.delayNs.toNat, txSeq := 0, acked := 0, rxSeq := 0, replayBuf := [], stuck := 0, nakSent := false, credits := [], txSeg := 0,
    txSegFlits := 0, txSegData := [], rxSeg := 0, rxBuf := [], rxUsed := [], owed := [], heldIn := [], sendq := [], keys := true,
    keyOut := if r.first then keyLow keys else keyHigh keys, keyIn := if r.first then keyHigh keys else keyLow keys,
    wordOut := Config.segmentWord r.first n, wordIn := Config.segmentWord (!r.first) k.partnerPort }
  let s := { s with freeCtr := s.freeCtr + 1 }.setPort n k'
  let s := if cause ≠ 0 then s.wiringRec n else s
  if 10 ≤ n then s.formPair.mirReturns else s.routeReturns

/-- The port fails (R395, R396): in LANE_ID, or in VERIFY after three attempts. -/
def State.portFails (s : State) (n : Nat) (r : TrainObs) (cause : Nat) : State :=
  let k := (s.port n).learn r
  (s.setPort n { k with st := 8, cause := cause, path := if cause = 9 then [1, 2, 3, 4, 5, 5, 5, 8] else [1, 2, 8], width := 0 }).wiringRec n

/-- The partner's identity certificate chains to the Tabfold root, and its key signed the transcript (R453). -/
def partnerTrusted (r : TrainObs) : Bool :=
  Config.ed448Verify (Config.publicKey 0) r.certs.ca.1 r.certs.ca.2 &&
  Config.ed448Verify (Config.certKey r.certs.ca.1) r.certs.identity.1 r.certs.identity.2 &&
  Config.ed448Verify (Config.certKey r.certs.identity.1) (digestBytes r.transcript) r.certs.sig

/-- PORT_TRAINING_COMPLETE: ACTIVE or FAILED (R395). A partner whose certificate does not chain to the Tabfold root is not accepted (R453): the
attempt fails in VERIFY like one whose test flit fails, for the spec gives the port no other outcome (DESIGN CHOICE, log entry 172). -/
def execPortTrainingComplete (n : PortId) (r : TrainObs) (s : State) : Host.Outcome State Fault Refusal :=
  let st := (s.port n).st
  if !s.portEn n ∨ !((1 ≤ st ∧ st ≤ 5) ∨ st = 7) then .next s
  else match s.wiringFault n r with
    | some c => .next (s.portFails n r c)
    | none => .next (if partnerTrusted r then s.portActive n r (s.trainCause n r) else s.portFails n r 9)

/-- ONL_RETRAIN (R399). -/
def execOnlRetrain (n : PortId) (s : State) : Host.Outcome State Fault Refusal :=
  if s.barOpen (portBase n) then .next (s.retrain n) else .next s

/-- The lanes in use: the lowest-numbered good ones (R397). -/
def PortSt.lanes (k : PortSt) : List Nat := ((List.range 8).filter fun i => !bit k.excluded i).take k.width

/-- FEC_LOCK_LOSS: only of a lane in use (R399). -/
def execFecLockLoss (n : PortId) (lane : Fin 8) (s : State) : Host.Outcome State Fault Refusal :=
  if (s.port n).lanes.contains lane.val then .next (s.retrain n) else .next s

/-! ## Flits (R400 to R404) -/

/-- Flits up to an ACK_SEQ are acknowledged: how many of the replay buffer they are. -/
def PortSt.ackedBy (k : PortSt) (ackSeq : Nat) : Nat :=
  match k.replayBuf.findIdx? fun x => decide (x.seq = ackSeq) with
  | some i => i + 1
  | none => 0

/-- An acknowledgement: the replay buffer gives up what it confirms. -/
def PortSt.ack (k : PortSt) (ackSeq : Nat) : PortSt :=
  let n := k.ackedBy ackSeq
  if n = 0 then k else { k with replayBuf := k.replayBuf.drop n, acked := (ackSeq + 1) % 4096, stuck := 0 }

/-- The sender replays what is unacknowledged (R403). -/
def PortSt.replay (k : PortSt) : PortSt :=
  { k with replays := satAdd 32 k.replays k.replayBuf.length, stuck := k.stuck + 1 }

/-- After 16 consecutive replays without progress the port retrains (R399). -/
def State.replayed (s : State) (n : Nat) (k : PortSt) : State :=
  let s := s.setPort n k
  if 16 ≤ k.stuck then s.retrain n else s

/-- Data that the mirror ports streamed is the shadow's once every flit is acknowledged and no message waits for a port (R417). -/
def State.mirrorDrained (s : State) : State :=
  let done (n : Nat) : Bool := (s.port n).sendq.isEmpty && (s.port n).replayBuf.isEmpty
  if done 10 && done 11 && s.mir.held.isEmpty then
    { s with mir := { s.mir with parts := SMap.mapV {} (fun _ (m : MirPart) => { m with unacked := [] }) s.mir.parts } }
  else s

/-- LINK_NAK: the replay starts after ACK_SEQ (R403). -/
def execLinkNak (n : PortId) (ackSeq : BitVec 12) (s : State) : Host.Outcome State Fault Refusal :=
  if !s.live n then .next s
  else
    let k := (s.port n).ack ackSeq.toNat
    .next (if k.replayBuf = [] then (s.setPort n k).mirrorDrained else s.replayed n k.replay)

/-- REPLAY_TIMEOUT: 10 µs with unacknowledged flits and no acknowledgement (R403). -/
def execReplayTimeout (n : PortId) (s : State) : Host.Outcome State Fault Refusal :=
  let k := s.port n
  if s.live n ∧ k.replayBuf ≠ [] then .next (s.replayed n k.replay) else .next s

/-- A flit with its bytes in order is accepted: what is not IDLE takes a place in its channel's receive buffer until its segment's tag has verified
and its message has gone on (R401, R404). -/
def PortSt.accept (k : PortSt) (f : FlitIn) : PortSt :=
  { k with rxSeq := (k.rxSeq + 1) % 4096, nakSent := false, rxBuf := k.rxBuf ++ [f], rxUsed := SMap.upd 0 k.rxUsed f.vc (· + 1) }

/-- A flit arrives at a port (R400, R401, R403): its CRC, type and channel are checked; any flit acknowledges and returns credits; in-order
flits other than IDLE are accepted, and others are discarded and answered with NAK. -/
def State.takeFlit (s : State) (n : Nat) (h : Nat) (payload : List Byte) (crcOk : Bool) : State :=
  let k := s.port n
  let typ := bits h 3 0
  let vc := bits h 7 4
  if !crcOk ∨ 4 ≤ typ ∨ 10 ≤ vc then s.setPort n { k with nakSent := true }
  else
    let k := k.ack (bits h 31 20)
    let k := { k with credits := SMap.upd 0 k.credits (bits h 35 32) fun u => u - bits h 43 36 }
    let k := if typ = 0 then k
      else if bits h 19 8 = k.rxSeq then k.accept { vc := vc, typ := typ, last := bit h 45, tag := bits h 63 48, payload := payload }
      else { k with nakSent := true }
    let nak := bit h 44 && !k.replayBuf.isEmpty
    let s := if nak then s.replayed n k.replay else s.setPort n k
    (if s.live n then s.setPort n ((s.port n).pump 1100) else s).mirrorDrained

/-- SEGMENT_TAG (R404): the tag of the segment received is that of its payloads under the direction's key, or its messages are discarded and the
port retrains with new keys. The TAG flit's own place in the buffer is free with it (log entry 166). -/
def execSegmentTag (n : PortId) (segment : Word) (tag : BitVec 128) (s : State) : Host.Outcome State Fault Refusal :=
  if !s.live n then .next s
  else
    let k := s.port n
    let cipher := (k.rxBuf.filter fun f => f.typ ≠ 3).flatMap FlitIn.payload
    if tag = gcmTag k.keyIn k.nonceIn [] cipher ∧ segment.toNat = k.rxSeg then
      let c := min (k.rxBuf.countP fun f => f.typ = 3) (SMap.get 0 k.rxUsed 8)
      .next (s.setPort n ({ k with rxSeg := k.rxSeg + 1, rxBuf := [], rxUsed := SMap.upd 0 k.rxUsed 8 (· - c),
                                   owed := SMap.upd 0 k.owed 8 (· + c) }.pump 1100))
    else
      .next (((s.setPort n { k with tagFails := satAdd 16 k.tagFails 1 }).emit (227 + n) 0x17 0 segment.toNat).retrain n)

/-- SEGMENT_IDLE_CLOSE: 500 ns without a data flit close the sender's segment early (R404), once the TAG flit's channel has a credit (R401). -/
def execSegmentIdleClose (n : PortId) (s : State) : Host.Outcome State Fault Refusal :=
  let k := s.port n
  if s.live n ∧ k.txSegFlits ≠ 0 ∧ k.canTag ∧ k.replayBuf.length < 1024 then .next (s.setPort n (k.closeSegment.pump 1100)) else .next s

/-! ## WRITE at the destination (R222, R223, R407, R409) -/

/-- A device range lies in scratchpad that is being zero-filled after a teardown: a remote arrival into it is dropped (R375). -/
def State.excludedDev (s : State) (a n : Nat) : Bool :=
  match placeOf a with
  | .scratch c off => s.excluded c off n
  | _ => false

/-- The answer to a WRITE under R222: 0 OK, 1 STALE_EPOCH, 2 REFUSED; with the window of an accepted one. -/
def State.checkWrite (s : State) (hdr : BitVec 256) : Nat × Option InWin :=
  match SMap.get none s.inWins (mWin hdr) with
  | none => (2, none)
  | some w =>
    let off := mWord hdr % 2 ^ 34
    if w.stale ∨ mEpoch hdr ≠ w.epoch then (1, some w)
    else if !w.isOpen ∨ mSrc hdr ≠ w.srcModule ∨ mPart hdr ≠ w.srcPart ∨ w.len < off + mLen hdr ∨ s.excludedDev (w.base + off) (mLen hdr) then (2, some w)
    else (0, some w)

/-- Count a drop and record it for the window's partition (R407). -/
def State.dropWrite (s : State) (n : Nat) (hdr : BitVec 256) (status : Nat) (w : Option InWin) : State :=
  let s := if status = 1 then s.countFld rOnlDrops 15 0 1 else s.countFld rOnlDrops 31 16 1
  s.emit (227 + n) 0x18 (mWin hdr + status * 2 ^ 16) (mSrc hdr) (w.map InWin.part) ((w.map InWin.ctx).getD 0)

/-- Raise a window's bound count (R223). -/
def State.bindCount (s : State) (w : InWin) (n : Nat) : State :=
  match w.bindCore with
  | some c => if n = 0 then s else s.setCore c ((s.core c).addCnt w.bindCnt n)
  | none => s

/-- 64-byte units of a message: a short last unit counts with the message that ends its row (R407). -/
def units64 (len : Nat) (rowEnd : Bool) : Nat := if rowEnd then (len + 63) / 64 else len / 64

/-- The row of a message. -/
def State.rowIn (s : State) (hdr : BitVec 256) : Option RowIn :=
  s.rowsIn.find? fun r => decide (r.src = mSrc hdr ∧ r.rowId = mRowId hdr)

/-- A message of a row has landed: the row as it stands, and whether it is whole (R407). -/
def State.landIn (s : State) (hdr : BitVec 256) : State × Bool :=
  let r : RowIn := (s.rowIn hdr).getD { src := mSrc hdr, rowId := mRowId hdr, win := mWin hdr, landed := 0 }
  let r' : RowIn := { r with landed := r.landed + mLen hdr, total := if mRowEnd hdr then some (mRowPos hdr + mLen hdr) else r.total }
  let rest := s.rowsIn.filter fun x => !decide (x.src = r.src ∧ x.rowId = r.rowId)
  if r'.total = some r'.landed then ({ s with rowsIn := rest }, true) else ({ s with rowsIn := rest ++ [r'] }, false)

/-- Send a WRITE_ACK (R407). -/
def State.sendAck (s : State) (hdr : BitVec 256) (status : Nat) : State :=
  s.sendFabric { hdr := (MsgFields.hdr { kind := 2, dst := mSrc hdr, src := s.moduleId, part := mPart hdr, seq := mSeq hdr, status := status }) }

/-- Move answers that are in order below the highest (R409); at most 4,096 are kept. -/
def SeqWin.slide (w : SeqWin) : Nat → SeqWin
  | 0 => w
  | n + 1 =>
    match w.got.find? fun x => decide (x.1 = w.high) with
    | some x =>
      let past := w.past ++ [x]
      SeqWin.slide { high := (w.high + 1) % 2 ^ 32, got := w.got.filter fun y => !decide (y.1 = w.high), past := past.drop (past.length - 4096) } n
    | none => w

/-- The answer to a WRITE has been given: it is kept (R409). -/
def State.answered (s : State) (hdr : BitVec 256) (status : Nat) : State :=
  let w := SMap.get {} s.seqWins (mSrc hdr)
  let w' : SeqWin := { w with got := w.got ++ [(mSeq hdr, status)] }
  { s with seqWins := SMap.set {} s.seqWins (mSrc hdr) (w'.slide 4096) }.sendAck hdr status

/-- A WRITE passes R222: its data lands and is counted (R223, R407). -/
def State.acceptWrite (s : State) (w : InWin) (hdr : BitVec 256) (data : List Byte) (e : Ecc) : State × Acc :=
  let r := s.devWrite (w.base + mWord hdr % 2 ^ 34) data w.part w.ctx e
  match r.2 with
  | .ok =>
    let s := r.1.charge w.part w.ctx { onlanB := data.length }
    let l := s.landIn hdr
    let n := if !mRc hdr then 0 else if w.bindRow then (if l.2 then 1 else 0) else units64 data.length (mRowEnd hdr)
    (l.1.bindCount w n, .ok)
  | a => (r.1, a)

/-- A WRITE for this module (R222, R407, R409), and whether it has been dealt with: a duplicate gets the first copy's answer, and nothing lands or
counts again. One that its target refuses is answered REFUSED: the sending context is contained (R363, R408). One that would start a row while 4,096
are in progress, or whose die's wake buffer is full, stays in the receive buffer. -/
def State.takeWrite (s : State) (hdr : BitVec 256) (data : List Byte) (n : Nat) (e : Ecc) : State × Bool :=
  let w := SMap.get {} s.seqWins (mSrc hdr)
  match (w.got ++ w.past).find? fun x => decide (x.1 = mSeq hdr) with
  | some x => (s.sendAck hdr x.2, true)
  | none =>
    if 4096 ≤ (mSeq hdr + 2 ^ 32 - w.high) % 2 ^ 32 then (s, true)
    else
      match s.checkWrite hdr with
      | (0, some x) =>
        if (s.rowIn hdr).isNone && decide (4096 ≤ s.rowsIn.length) then (s, false)
        else
          let r := s.acceptWrite x hdr data e
          (match r.2 with
           | .ok => (r.1.answered hdr 0, true)
           | .wait st => (s.waitsAt r.1 st, false)
           | _ => ((r.1.dropWrite n hdr 2 (some x)).answered hdr 2, true))
      | (st, x) => ((s.dropWrite n hdr st x).answered hdr st, true)

/-- Deal with a WRITE at port n: its place in the receive buffer is free, or it keeps it (R401, R407). -/
def State.dealWrite (s : State) (n : Nat) (x : BitVec 256 × List Byte × Ecc) : State :=
  let r := s.takeWrite x.1 x.2.1 n x.2.2
  if r.2 then r.1.freeFlits n { hdr := x.1, data := x.2.1 }
  else r.1.setPort n { r.1.port n with heldIn := (r.1.port n).heldIn ++ [x] }

/-- A WRITE's channel is held up at a port. -/
def State.heldUp (s : State) (n : Nat) (hdr : BitVec 256) : Bool := (s.port n).heldIn.any fun x => decide (channelOf x.1 = channelOf hdr)

/-- WRITEs of port n in turn: each is dealt with, or stays in the receive buffer behind one of its channel that does. -/
def State.dealWrites (s : State) (n : Nat) (l : List (BitVec 256 × List Byte × Ecc)) : State :=
  l.foldl (fun s x => if s.heldUp n x.1 then s.setPort n { s.port n with heldIn := (s.port n).heldIn ++ [x] } else s.dealWrite n x) s

/-- The WRITEs that a port's receive buffer holds are tried again. -/
def State.drainIn (s : State) (n : Nat) : State :=
  if (s.port n).heldIn = [] then s
  else (s.setPort n { s.port n with heldIn := [] }).dealWrites n (s.port n).heldIn

/-- WRITE on a fabric port. -/
def execWrite (n : PortId) (hdr : BitVec 256) (data : Met (List Byte)) (s : State) : Host.Outcome State Fault Refusal :=
  if 10 ≤ n.val ∨ !s.live n ∨ mKind hdr ≠ 1 ∨ data.val.length ≠ mLen hdr ∨ 4096 < data.val.length then .next s
  else if mDst hdr ≠ s.moduleId then .next ((s.freeFlits n { hdr := hdr, data := data.val }).forward hdr data.val)
  else .next ((s.drainIn n).dealWrites n [(hdr, data.val, s.devEcc data.err)])

/-- FLIT: a flit's header word, payload and CRC arrive (R400). What waits in the port's receive buffer is tried again (R407). -/
def execFlit (n : PortId) (hdr : Word) (body : FlitBody) (s : State) : Host.Outcome State Fault Refusal :=
  if !s.live n then .next s
  else
    let i := s.injected (227 + n) [7]
    let crcOk := decide (body.payload.length = 244 ∧ crc32c (leBytes 8 hdr.toNat ++ body.payload) = body.crc ∧ i.1 = 0)
    .next ((i.2.takeFlit n hdr.toNat body.payload crcOk).drainIn n)

/-! ## WRITE_ACK at the sender (R408, R409) -/

/-- The instruction that a message belongs to: its index in its channel, if it is still there. -/
def State.senderEnt (s : State) (m : MsgOut) : Option (Nat × DmaEnt) :=
  let es := (s.core m.core).chan m.chan
  match es.findIdx? fun x => decide (x.stamp = m.stamp ∧ x.ctx = m.ctx ∧ x.epoch = m.ctxEpoch) with
  | some i => es[i]?.map fun e => (i, e)
  | none => none

/-- An acknowledged message: OK confirms its bytes; any other answer contains its descriptor (R408). -/
def State.takeAck (s : State) (m : MsgOut) (status : Nat) : State :=
  let s := { s with sends := s.sends.filter fun x => !decide (x.dst = m.dst ∧ x.seq = m.seq ∧ x.port.isSome = true) }
  let s := if !s.epochOk m.part m.ctx m.ctxEpoch then s.staleDrop 1
    else match s.senderEnt m with
      | none => s
      | some (i, e) =>
        if status = 0 then s.updEnt m.core m.chan i fun x => { x with outstanding := x.outstanding - 1, conf := x.conf + m.data.length }
        else s.dmaRefused m.core m.chan i e (if status = 1 then 0x29 else 0x24)
  s.pumpSends m.dst

/-- WRITE_ACK on a fabric port. -/
def execWriteAck (n : PortId) (hdr : BitVec 256) (s : State) : Host.Outcome State Fault Refusal :=
  if 10 ≤ n.val ∨ !s.live n ∨ mKind hdr ≠ 2 then .next s
  else
    let s := s.freeFlits n { hdr := hdr }
    if mDst hdr ≠ s.moduleId then .next (s.forward hdr [])
    else match s.sends.find? fun m => decide (m.dst = mSrc hdr ∧ m.seq = mSeq hdr) && m.port.isSome with
    | some m => .next (s.takeAck m (mStatus hdr))
    | none => .next s

/-- MESSAGE_RESEND: 100 µs without an acknowledgement, on a route that has since been lost (R409): the same MSG_SEQ on a live route. -/
def execMessageResend (dst : Byte) (msgSeq : BitVec 32) (s : State) : Host.Outcome State Fault Refusal :=
  let this (m : MsgOut) : Bool := decide (m.dst = dst.toNat ∧ m.seq = msgSeq.toNat) && m.port.isSome && m.lost
  match s.sends.find? this with
  | none => .next s
  | some m =>
    let r := s.sendWrite m
    .next { r.1 with sends := r.1.sends.map fun x => if this x then r.2 else x }

end Sys2Proof.Machine
end

