-- ==== Sys2Proof/Machine/Supply.lean ====
section
/-! DEFINITION. Supply, power states, reset and boot (R488 to R512). -/

namespace Sys2Proof.Machine

/-! ## What survives (R386, R491, R504) -/

/-- The module with everything outside the always-on domain reset: the two banks of the configuration record and the firmware in flash, the host's
memory, and FAULT_CAUSE and FAULT_RAIL are kept. What lowering and placement have made of inputs so far is a fact about them, which no reset
changes (R155, R355). -/
def State.fresh (s : State) (p : PwrSt) : State :=
  let sec : SecSt := { record := s.sec.record, spare := s.sec.spare, images := s.sec.images }
  let base : State :=
    { pending := s.pending, host := s.host, freeCtr := s.freeCtr, sec := sec, pwr := p, made := s.made, decided := s.decided }
  base.setFld rPwrStatus 43 32 (s.fld rPwrStatus 43 32)

/-- The always-on domain's part of the supply state: everything else as after power-up. -/
def PwrSt.kept (p : PwrSt) : PwrSt :=
  { aon := p.aon, inputOk := p.inputOk, overV := p.overV, pwrEn := p.pwrEn, latched := p.latched, alert := p.latched,
    smbus := p.smbus, resetHeld := p.resetHeld, hallsOn := false, pwrGood := false, off := true }

/-- OFF: only the always-on domain is powered (R496, R503). -/
def State.goOff (s : State) : State := s.fresh s.pwr.kept

/-- Power-up to PWR_GOOD with PSTATE BOOTING (R505). -/
def State.goUp (s : State) : State :=
  s.fresh { s.pwr.kept with off := false, pwrGood := true, hallsOn := true, inputOk := true, overV := false, pwrEn := true }

/-- Every partition that runs is hard-stopped, and its report, like that of one whose hard stop is in progress, is written, while the PCIe link is up (R75, R510). -/
def State.stopAll (s : State) : State :=
  let ps := s.partsWith fun k => k.st = .active || k.st = .softStopping || k.st = .softStopped
  let s := s.hardStopParts .jormir ps
  let ps := s.partsWith fun k => k.st = .hardStopping
  if s.pwr.linkUp then { s.stopped true (Config.cycles s.freeCtr) ps with freeCtr := s.freeCtr + 1 } else s

/-- An orderly power-down (R510). -/
def State.orderly (s : State) : State := s.stopAll.goOff

/-! ## Supply faults (R488 to R491, R511) -/

/-- Record a fault's cause. -/
def State.faultCause (s : State) (c : Nat) : State := s.setFld rPwrStatus 39 32 c

/-- A latched fault holds the module off with MODULE_ALERT asserted. -/
def State.latchFault (s : State) (c : Nat) : State :=
  let s := s.faultCause c
  { s with pwr := { s.pwr with latched := true, alert := true } }.goOff

/-- UNDERVOLTAGE: abrupt power-down; the loss of supply of R424. -/
def execUndervoltage (s : State) : Host.Outcome State Fault Refusal :=
  if !s.pwr.aon then .next s
  else
    let s := { s with pwr := { s.pwr with inputOk := false } }
    if s.pwr.off then .next s else .next (s.faultCause 1).goOff

/-- OVERVOLTAGE: every converter stops; abrupt power-down. -/
def execOvervoltage (s : State) : Host.Outcome State Fault Refusal :=
  if !s.pwr.aon then .next s
  else
    let s := { s with pwr := { s.pwr with overV := true } }
    if s.pwr.off then .next s else .next (s.faultCause 2).goOff

/-- RAIL: the fault is latched with its rail; no hard stop is waited for (R510). -/
def execRailFault (rail : BitVec 4) (s : State) : Host.Outcome State Fault Refusal :=
  if s.pwr.off ∨ rail.toNat = 0 ∨ 10 < rail.toNat then .next s
  else .next ((s.setFld rPwrStatus 43 40 rail.toNat).latchFault 3)

/-- THERMAL: a latched fault, in WATCH too (R512). -/
def State.thermal (s : State) : State := if s.pwr.off then s else s.latchFault 4

/-- THERMAL_FAULT. -/
def execThermalFault (s : State) : Host.Outcome State Fault Refusal := .next s.thermal

/-- IN_RUSH: the bulk has not charged after PWR_EN rose (R489). -/
def execInRush (s : State) : Host.Outcome State Fault Refusal :=
  if s.pwr.aon ∧ s.pwr.off ∧ !s.pwr.latched then .next (s.latchFault 5) else .next s

/-- FAULT_RESTART: the input has recovered for 100 ms with PWR_EN high, after an undervoltage or overvoltage (R491). -/
def execFaultRestart (s : State) : Host.Outcome State Fault Refusal :=
  let c := s.fld rPwrStatus 39 32
  if s.pwr.aon ∧ s.pwr.off ∧ !s.pwr.latched ∧ s.pwr.pwrEn ∧ ((c = 1 ∧ !s.pwr.inputOk) ∨ (c = 2 ∧ s.pwr.overV)) then .next s.goUp else .next s

/-- FAULT_LATCH_RELEASE: PWR_EN has been low for 100 ms, or PWR_CYCLE_N was asserted. -/
def execFaultLatchRelease (s : State) : Host.Outcome State Fault Refusal :=
  if s.pwr.latched then .next { s with pwr := { s.pwr with latched := false, alert := false, pwrEn := false } } else .next s

/-- POWER_UP: PWR_EN rises with the undervoltage release met (R505). -/
def execPowerUp (s : State) : Host.Outcome State Fault Refusal :=
  if s.pwr.aon ∧ s.pwr.off ∧ !s.pwr.latched then .next s.goUp
  else .next s

/-- POWER_DOWN: PWR_EN falls (R510, R512). -/
def execPowerDown (s : State) : Host.Outcome State Fault Refusal :=
  let s := { s with pwr := { s.pwr with pwrEn := false } }
  if s.pwr.off then .next s else .next s.orderly

/-- PWR_CYCLE_N: power-down, 1 s off, and everything outside the always-on domain starts again (R504); a latched fault is released. -/
def execPwrCycleN (s : State) : Host.Outcome State Fault Refusal :=
  if !s.pwr.aon then .next s
  else
    let s := if s.pwr.off then s else s.orderly
    let s := { s with pwr := { s.pwr with latched := false, alert := false } }
    if s.pwr.pwrEn ∧ s.pwr.inputOk ∧ !s.pwr.overV then .next s.goUp else .next s

/-- MODULE_RESET_N asserted: everything outside the always-on domain and the converters is held in reset (R504). -/
def execModuleResetNAssert (s : State) : Host.Outcome State Fault Refusal :=
  if s.pwr.off then .next s
  else
    let p := { s.pwr.kept with off := false, pwrGood := true, hallsOn := true, resetHeld := true }
    .next { s.fresh p with dbg := { s.dbg with perf := [], rings := [], pfRing := {}, vfRing := [], trace := [], inject := none, pldm := [] } }

/-- MODULE_RESET_N released: boot follows (R504). -/
def execModuleResetNRelease (s : State) : Host.Outcome State Fault Refusal :=
  if !s.pwr.resetHeld then .next s
  else
    .next { s with pwr := { s.pwr with resetHeld := false } }.scanFalls

/-- The input rises above 40 V (R488, R542): the straps give the SMBus address. -/
def execAlwaysOnDomainStart (straps : BitVec 2) (s : State) : Host.Outcome State Fault Refusal :=
  if s.pwr.aon then .next s
  else
    let p : PwrSt := { ({} : PwrSt) with smbus := 0x58 + straps.toNat, pwrEn := false, pwrGood := false, off := true, hallsOn := false, inputOk := false }
    .next (s.fresh p)

/-- The input falls below 40 V (R491, R504): the always-on domain loses what it keeps. -/
def execAlwaysOnDomainReset (s : State) : Host.Outcome State Fault Refusal :=
  let p : PwrSt := { ({} : PwrSt) with aon := false, pwrEn := false, pwrGood := false, off := true, hallsOn := false, inputOk := false }
  .next ((s.fresh p).setFld rPwrStatus 43 32 0)

/-! ## Boot (R506 to R509) -/

/-- Boot stops (R509). -/
def State.bootStops (s : State) (cause : Nat) : State :=
  let s := ((s.faultCause cause).setFld rPwrBoot 3 0 4).alarm 5 242 cause 0
  let s := s.each (fun s c => s.setCore c { s.core c with inReset := true }) (List.range 192)
  { s with pwr := { s.pwr with alert := true } }

/-- The repairs of the configuration record take effect at boot: remap entries, retired frames and galleries (R390, R445, R506). -/
def State.loadRepairs (s : State) : State :=
  let r := s.sec.record
  let s := r.scrRemap.foldl (fun s x => s.setCore x.1 { s.core x.1 with remap := (s.core x.1).remap ++ [x.2] }) s
  let s := r.stkRemap.foldl (fun s x => s.setStk x.1 { s.stk x.1 with remap := (s.stk x.1).remap ++ [x.2] }) s
  let s := r.retiredFrames.foldl (fun s x =>
    s.setStk x.1 { s.stk x.1 with frames := SMap.set {} (s.stk x.1).frames x.2 { st := .retired } }) s
  s.setFld rPrtRetired 23 0 r.retiredGalleries

/-- The staged image of a component becomes the one in use. -/
def State.activate (s : State) (c : Nat) : State :=
  let staged := s.sec.images.filter fun y => y.component = c && !y.active
  let swap (y : FwImage) : FwImage := if y.component = c then { y with active := !y.active } else y
  if staged = [] then s else { s with sec := { s.sec with images := s.sec.images.map swap } }

/-- The Jormir image in the active flash bank. -/
def State.monitor (s : State) : Option FwImage := s.sec.images.find? fun x => decide (x.component = 1) && x.active

/-- The record that boot uses (R445): the bank in force, which has the higher version, or the other where it does not verify; none where neither
does. A record's signature is the factory's or the module's own, which every boot can check again. -/
def State.useRecord (s : State) (o : BootObs) : Option State :=
  if o.recordOk then some { s with sec := { s.sec with spare := if o.spareOk then s.sec.spare else none } }
  else match s.sec.spare with
    | some r => if o.spareOk then some { s with sec := { s.sec with record := r, spare := none } } else none
    | none => none

/-- Boot regenerates the root key from the record's helper data (R447), and makes the attestation key, each stack's keys and the module's KEM key of this boot (R448, R457), and the boot certificate, which the
identity key signs and which carries slots 0 to 2. -/
def State.bootKeys (s : State) : State :=
  let n := s.freeCtr
  let keys : KeysHeld := { root := some (Config.pufRoot s.sec.record.helper), drbg := true, attest := true, stackKeys := true, attestDraw := n,
                           stackDraw := n + 1, kemDraw := n + 257 }
  let cert : Cert := { kind := .boot, signer := .identity, key := Config.publicKey (n + 3), slots := s.sec.slots.take 3 }
  { s with freeCtr := n + 258, sec := { s.sec with keys := keys, bootCert := if s.sec.record.identityKey then some cert else none } }

/-- The first stages of boot (R506): the Jormir image that verifies is measured, the record is in force, the boot is counted, keys are made,
the stacks are trained and filled. -/
def State.bootEarly (s : State) : State :=
  let s := s.extendSlot 0 Config.bootRom
  let s := match s.monitor with
    | some x => s.extendSlot 1 x.image
    | none => s
  let s := s.extendSlot 2 (Config.measured 2 s.sec.record.version)
  let s := s.commitRecord fun r => { r with boots := r.boots + 1 }
  (s.bootKeys.setMem []).loadRepairs.setFld rPwrBoot 3 0 1

/-- A worn row that the start-up self test found (R508): remapped, committed and applied at once while its bank has a spare row; beyond
that its gallery, or its frame (R263), retires. -/
def State.bootRepair (s : State) (t : RemapTarget) : State :=
  match t with
  | .scratch c bank row =>
    let k := s.core c
    let n := usedSpares k.remap bank
    if n < 8 then
      let r : Remap := { bank := bank, row := row, spare := n }
      (s.setCore c { k with remap := k.remap ++ [r] }).commitRecord fun x => { x with scrRemap := x.scrRemap ++ [(c.val, r)] }
    else s.setFld rPwrBoot 39 16 (s.fld rPwrBoot 39 16 ||| 2 ^ (c.val / 8))
  | .stack st bank row =>
    let k := s.stk st
    let n := usedSpares k.remap bank
    if n < 2 then
      let r : Remap := { bank := bank, row := row, spare := n }
      (s.setStk st { k with remap := k.remap ++ [r] }).commitRecord fun x => { x with stkRemap := x.stkRemap ++ [(st.val, r)] }
    else s.retireFrame st (frameOfRow bank row)

/-- The end of boot (R432, R506, R508). -/
def State.bootEnds (s : State) (o : BootObs) : State :=
  let s := o.repairs.foldl (fun s t => s.bootRepair t) (s.setFld rPwrBoot 39 16 o.galleryFail.toNat)
  let bad := s.fld rPwrBoot 39 16
  let s := if bad = 0 then s
    else (s.commitRecord fun r => { r with retiredGalleries := r.retiredGalleries ||| bad }).setFld rPrtRetired 23 0
      (s.sec.record.retiredGalleries ||| bad)
  let s := s.setFld rPwrBoot 3 0 (if bad ≠ 0 ∨ o.repairs ≠ [] then 3 else 2)
  let s := { s with sec := { s.sec with approved := true, selftest := 1, lastMeasure := 0 } }.extendSlot 4 (Config.measured 4 8)
  let s := s.each (fun s h => s.setFld rPwrOp (34 + 4 * h) (32 + 4 * h) (s.opMax h)) (List.range 4)
  let s := s.each (fun s t => (s.setFld (stkBase t + rStkCtrl) 0 0 1).snapFrames t) (List.range 16)
  let p := { s.pwr with volts := (List.range 4).map fun h => opRail (s.opMax h), frs := s.pwr.frs + 1 }
  ({ s with pwr := p }.setPstate 1).setFld rHifStatus 0 0 1

/-- BOOT, once from each PWR_GOOD or release of a reset (R506): the Jormir image that verifies, the record, the runtime firmware, the self test. -/
def execBoot (o : BootObs) (s : State) : Host.Outcome State Fault Refusal :=
  if s.pwr.off ∨ !s.pwr.pwrGood ∨ s.pwr.resetHeld ∨ s.pstate ≠ 0 ∨ s.bootDone ∨ s.sec.parked ∨ s.fld rPwrBoot 3 0 ≠ 0 then .next s
  else
    let s := if o.otherBank then s.activate 1 else s
    if !o.monitorOk ∨ !(s.monitor.any FwImage.verified) then .next (s.bootStops 6)
    else match s.useRecord o with
      | none => .next (s.bootStops 7)
      | some s =>
        if !(s.monitor.any s.loads) then .next (s.bootStops 6)
        else
          let s := s.bootEarly
          if !o.cryptoOk then .next s.cryptoError
          else
            let s := s.setFld rPwrBoot 55 40 o.stackFail.toNat
            if o.stackFail ≠ 0 then .next (s.bootStops 8)
            else if !o.firmwareOk then .next (s.park 0x03)
            else
              let s := s.reloadFirmware
              if s.sec.parked then .next s
              else if !o.crossingsOk ∨ !o.ringOk then .next (s.bootStops 8)
              else .next (s.bootEnds o)

/-! ## PCIe resets (R448, R472, R504) -/

/-- The PCIe controller is reset: its configuration space, the MSI-X table and the IDE keys. -/
def State.pcieReset (s : State) : State :=
  let s := { s with msix := [], msiPend := [], sec := { s.sec with keys := { s.sec.keys with ide := [], ideSet := [] } },
                    parts := SMap.mapV {} (fun _ (k : PartSt) => { k with tdi := 0 }) s.parts,
                    pwr := { s.pwr with linkUp := false } }
  (s.each (fun s p => s.freeHost p) (List.range 16)).setFld rHifStatus 20 16 0

/-- PCIE_PERST_N after boot: the controller, and a landing 4 for the rest. -/
def State.perstReset (s : State) : State := (s.pcieReset).landing4 241 0x2A

/-! ## IDLE_HOLD and WATCH (R497 to R500) -/

/-- IDLE_HOLD_ENTRY: the generator has been stopped for 10 ms. Every hall runs at OP0; the point that it left is raised to again at the
resume. -/
def execIdleHoldEntry (s : State) : Host.Outcome State Fault Refusal :=
  if s.pstate ≠ 1 ∨ !s.genIdle then .next s
  else
    let hs := List.range 4
    let back (h : Nat) : Option Nat :=
      let k := (s.pwr.raise.getD h none).getD (s.opNow h)
      if k = 0 then none else some k
    let moved := hs.countP fun h => s.opNow h ≠ 0
    let p := { s.pwr with raise := hs.map back, railUp := hs.map fun _ => false, volts := hs.map fun _ => opRail 0 }
    let s := (s.countFld rPwrCounts 31 0 moved).setFld rPwrOp 47 32 0
    .next ({ s with pwr := p }.setPstate 2)

/-- Every DRAM die that is not OFF or being restored goes to a state. -/
def State.allDies (s : State) (st : Nat) : State :=
  s.each (fun s t =>
    let k := s.stk t
    s.setStk t ((List.range 16).foldl (fun k d => if k.die d = 4 ∨ k.die d = 5 then k else k.setDie d st) k)) (List.range 16)

/-- A write of WATCH_REQ (R498). -/
def State.watchReq (s : State) : State :=
  if s.pstate ≠ 2 ∨ s.fld rMirCtrl 0 0 = 1 ∨ s.rcv.landings ≠ [] then s.flag rPwrStatus 7
  else (((s.setPstate 3).each (fun s n => if (s.port n).st = 0 then s else s.portDown n 0) (List.range 12)).allDies 2).setFld rPwrStatus 31 24 0

/-- WATCH_REQ. -/
def execWatchReq (s : State) : Host.Outcome State Fault Refusal := if s.barOpen rPwrCtrl then .next s.watchReq else .next s

/-- What the halls hold is lost (R500): their cores start afresh, program stores excepted, which the exit writes again; flights that had
begun enter again at their entry (log entry 32). -/
def State.hallsLose (s : State) : State :=
  let s := (s.flightsOf fun f => f.begun && f.endStatus.isNone).foldl (fun s n => s.rerunFlight n) s
  { s with cores := SMap.mapV {} (fun _ k => { k.clearedAnew with prog := k.prog }) s.cores }

/-- WATCH_ENTRY_COMPLETE: the halls are off; an exit that was asked for meanwhile begins at once (R498, R500, R512). -/
def execWatchEntryComplete (s : State) : Host.Outcome State Fault Refusal :=
  if s.pstate ≠ 3 then .next s
  else
    let s := s.hallsLose.countFld rPwrCounts 63 48 1
    let out := s.pwr.wakeDue || s.pwr.perst
    .next ({ s with pwr := { s.pwr with isolated := true, hallsOn := false, wakeDue := false } }.setPstate (if out then 5 else 4))

/-- The module leaves WATCH, or is to leave it once entry completes (R499). -/
def State.wake (s : State) (cause : Nat) : State :=
  if s.pstate = 4 then (s.setFld rPwrStatus 31 24 cause).setPstate 5
  else if s.pstate = 3 then { s with pwr := { s.pwr with wakeDue := true } }.setFld rPwrStatus 31 24 cause
  else s

/-- WAKE written, or a management request. -/
def execWake (management : Bool) (s : State) : Host.Outcome State Fault Refusal :=
  if management then .next (s.wake 5) else if s.barOpen rPwrCtrl then .next (s.wake 1) else .next s

/-- A sample of the watch sequencer (R499): its comparisons in the order of the Wake causes table. -/
def execWatchSample (m : PowerMeas) (s : State) : Host.Outcome State Fault Refusal :=
  if s.pstate ≠ 4 then .next s
  else
    let s := ((s.setFld rPwrMeas 63 48 (m.vin % 65536)).setFld rPwrMeas 15 8 (m.inlet % 256)).setFld rPwrMeas 7 0 (hotDie m % 256)
    let stackHot := m.stackC.foldl max 0
    if 110 ≤ hotDie m then .next s.thermal
    else if s.fld rPwrWatch 47 40 < m.inlet then .next (s.wake 2)
    else if s.fld rPwrWatch 55 48 < stackHot then .next (s.wake 3)
    else if m.vin < 25 * s.fld rPwrWatch 39 32 then .next (s.wake 4)
    else .next s

/-- WATCH_EXIT_COMPLETE (R500, R502): the dies are ACTIVE, the firmware is measured again, scratchpad-held weights are rebuilt, and the
ports that are enabled begin training. -/
def execWatchExitComplete (s : State) : Host.Outcome State Fault Refusal :=
  if s.pstate ≠ 5 then .next s
  else
    let s := ((s.setPstate 2).allDies 0).reloadFirmware
    if s.sec.parked then .next s
    else
    let gs := s.parts.flatMap fun e => e.2.graphs.filterMap Prod.snd
    let s := gs.foldl (fun s g => if g.resident ∧ g.scratchHeld then s.writeScratch g.scratch else s) s
    let s := s.each (fun s n => if s.portEn n ∧ (s.port n).st = 0 then
      let k := s.port n
      s.setPort n { k with st := 1, cause := 0 } else s) (List.range 12)
    let due := s.pwr.perst
    let s := { s with pwr := { s.pwr with isolated := false, hallsOn := true, perst := false } }
    .next (if due then s.perstReset else s)

/-- PCIE_PERST_N, a hot reset, or the link going down (R504, R512). -/
def execPciePerstN (s : State) : Host.Outcome State Fault Refusal :=
  if s.pwr.off then .next s
  else if 3 ≤ s.pstate ∧ s.pstate ≤ 5 then .next ({ s with pwr := { s.pwr with perst := true } }.wake 6)
  else if s.bootDone then .next s.perstReset
  else .next s.pcieReset

/-- PLDM_REQUEST: sensors are read; in WATCH the request wakes the module (R474, R499). -/
def execPldmRequest (_sensor : Byte) (s : State) : Host.Outcome State Fault Refusal := .next (s.wake 5)

/-- PCIE_LINK_TRAINED: HIF_STATUS reports the link as it trained (R468, R507); a link that boundary scan took down has returned, and
its reset follows (R535). -/
def execPcieLinkTrained (flit : Bool) (width : BitVec 5) (speed : BitVec 4) (s : State) : Host.Outcome State Fault Refusal :=
  if s.pwr.off ∨ !s.pwr.pwrGood ∨ s.pwr.resetHeld ∨ width.toNat ∉ [1, 2, 4, 8, 16] ∨ speed.toNat = 0 ∨ 6 < speed.toNat then .next s
  else
    let s := if s.dbg.scanLink then { s with dbg := { s.dbg with scanLink := false } }.perstReset else s
    let s := ((s.setFld rHifStatus 13 13 (if flit then 1 else 0)).setFld rHifStatus 12 8 width.toNat).setFld rHifStatus 7 4 speed.toNat
    .next { s with pwr := { s.pwr with linkUp := true } }

end Sys2Proof.Machine
end

