-- ==== Sys2Proof/Machine/Security.lean ====
section
/-! DEFINITION. Security, keys and attestation (R431 to R467): self tests, tamper response and zeroisation, reports, unlocks, sessions
and device-interface states, firmware update. -/

namespace Sys2Proof.Machine

/-- The security processor runs: powered and out of reset. -/
def State.jormirUp (s : State) : Bool := s.pwr.aon && !s.pwr.off && s.pwr.pwrGood && !s.pwr.resetHeld

/-- Jormir answers management requests with cryptography: it runs and is not in the error state (R434). -/
def State.secOn (s : State) : Bool := s.jormirUp && !s.sec.errorState

/-! ## Self tests and the firmware's measurement (R363, R389, R434, R456) -/

/-- FIRMWARE_REMEASURE: due every 65,536 ticks (R456); a mismatch is a firmware fault and leads to a landing 4 (R363). -/
def execFirmwareRemeasure (image : List Byte) (s : State) : Host.Outcome State Fault Refusal :=
  if !s.secOn ∨ s.sec.parked ∨ s.tickNo.toNat < s.sec.lastMeasure + 65536 then .next s
  else
    match s.firmware with
    | none => .next s
    | some f =>
      if f.image = image then .next { s with sec := { s.sec with lastMeasure := s.tickNo.toNat } }
      else .next (s.landing4 242 0x2A)

/-- A self test whose failure puts the module in the error state (R434). -/
def State.selfTest (s : State) (passes : Bool) : State := if passes || !s.secOn then s else s.cryptoError

/-- KNOWN_ANSWER_TEST (R434). -/
def execKnownAnswerTest (passes : Bool) (s : State) : Host.Outcome State Fault Refusal := .next (s.selfTest passes)

/-- ENTROPY_HEALTH_TEST: the continuous tests of the entropy source (R434). -/
def execEntropyHealthTest (passes : Bool) (s : State) : Host.Outcome State Fault Refusal := .next (s.selfTest passes)

/-- JORMIR_SELF_CHECK: a failure parks the module with ALERT_CAUSE 0x02 (R389). -/
def execJormirSelfCheck (passes : Bool) (s : State) : Host.Outcome State Fault Refusal :=
  if passes || !s.jormirUp then .next s else .next (s.park 0x02)

/-! ## Tamper and zeroisation (R435, R464) -/

/-- Append to the tamper log, which holds up to 64 entries (R445). -/
def ConfigRec.logTamper (r : ConfigRec) (e : TamperEnt) : ConfigRec :=
  if r.tamper.length < 64 then { r with tamper := r.tamper ++ [e] } else r

/-- TAMPER_RESPONSE (R435): `sensors` are the conditions that hold, as the TAMPER bits. -/
def execTamperResponse (sensors : BitVec 4) (supplyAllows : Bool) (s : State) : Host.Outcome State Fault Refusal :=
  if sensors = 0 ∨ !s.jormirUp then .next s
  else
    let s := s.zeroiseAll
    let s := { s with sec := { s.sec with tamper := s.sec.tamper ||| sensors.toNat } }
    let s := if supplyAllows then
        s.commitRecord fun r => r.logTamper { sensors := sensors.toNat, boot := r.boots, tick := s.tickNo.toNat }
      else s
    .next ((s.alarm 6 242 s.sec.tamper 0).park 0x02)

/-- ZEROISE: a write of SEC_ZEROISE (R464). The module parks; the spec gives no ALERT_CAUSE for it, so that is a free value. -/
def State.zeroise (s : State) (value : Word) : State :=
  if value.toNat % 2 ^ 32 ≠ 0x5A45524F then s
  else
    let cause := (Config.unstated s.freeCtr).toNat % 256
    { s.zeroiseAll with freeCtr := s.freeCtr + 1 }.park cause

/-- ZEROISE. -/
def execZeroise (value : Word) (s : State) : Host.Outcome State Fault Refusal :=
  if s.barOpen rSecZeroise then .next (s.zeroise value) else .next s

/-! ## Attestation (R457 to R460) -/

/-- A draw of 128 bits. -/
def State.draw128 (s : State) : BitVec 128 × State :=
  let a := s.draw
  let b := a.2.draw
  (a.1 ++ b.1, b.2)

/-- The partition fields of a module report: the spec gives PARTITION 0xFF and G 0; the others are free values. -/
def moduleFields (n : Nat) : PartFields :=
  let a := (Config.unstated n).toNat
  let b := (Config.unstated (n + 1)).toNat
  { state := bits a 4 0, galleries := bits a 28 5, stackSet := bits a 47 32, kvFrames := bits b 20 0, genFrames := bits b 52 32 }

/-- The bits of id-tf.3's STATE word: APPROVED, unlock scope, sensors that ever fired, DETERMINISTIC. -/
def State.reportState (s : State) : Nat :=
  let appr := if s.sec.approved then 1 else 0
  let det := if s.det then 256 else 0
  let fired := s.sec.record.tamper.foldl (fun (a : Nat) (e : TamperEnt) => a ||| e.sensors) 0
  appr + 2 * s.unlockScope + 16 * fired + det

/-- The Tabfold root's digest, which the boot ROM holds (R457). -/
def rootDigest : BitVec 512 := Config.shake256 (Config.publicKey 0)

/-- The KEM key of a report's subject: a partition's, or the module's of this boot (R457). For a partition whose KEM key is zeroised (R464) the
spec states none: a key pair of a new draw (DESIGN CHOICE, log entry 171). -/
def State.kemOf (s : State) (fn : Nat) : List Byte :=
  let k := s.part (fn - 1)
  Config.publicKey (3 + if fn = 0 then s.sec.keys.kemDraw else if k.kemHeld then k.kemKey else s.freeCtr)

/-- id-tf.1 Identity (R459). -/
def Report.identity (r : Report) (revision : Byte) : List Byte :=
  leBytes 16 r.subject.1.toNat ++ [revision] ++ leBytes 1 r.moduleId ++ leBytes 2 0 ++ leBytes 4 r.boots ++ leBytes 8 0

/-- id-tf.2 Measurements: slots 0 to 5 (R459). -/
def Report.measurements (r : Report) : List Byte :=
  (List.range 6).flatMap fun i =>
    let m := r.slots.getD i {}
    leBytes 4 i ++ leBytes 4 m.count ++ digestBytes m.value

/-- id-tf.3 State (R459). -/
def Report.stateBytes (r : Report) : List Byte :=
  leBytes 8 r.record ++ leBytes 8 r.tick.toNat ++ leBytes 4 r.state ++ leBytes 4 r.firmware ++ leBytes 8 0

/-- id-tf.4 Partition, with an entry for each resident graph (R459). -/
def Report.partition (r : Report) : List Byte :=
  let f := r.fields
  leBytes 1 r.part ++ leBytes 1 f.state ++ leBytes 2 f.graphs.length ++ leBytes 4 f.galleries ++ leBytes 2 f.stackSet ++ leBytes 2 0 ++
    leBytes 4 f.kvFrames ++ leBytes 4 f.genFrames ++ leBytes 12 0 ++ f.graphs.flatMap fun g => digestBytes g.1 ++ digestBytes g.2

/-- The extensions of a report (R459). -/
def Report.extensions (r : Report) (revision : Byte) : List (List Byte) :=
  [r.identity revision, r.measurements, r.stateBytes, r.partition, leBytes 32 r.nonce.toNat]

/-- The common name of a report's subject (R458). -/
def commonName (fn : Nat) : List Byte :=
  (if fn = 0 then "module" else "partition " ++ toString (fn - 1)).toList.map fun c => BitVec.ofNat 8 c.toNat

/-- Jormir issues a report for a function (R457 to R459). -/
def State.attest (s : State) (fn : Nat) (nonce : BitVec 256) : State :=
  let d := s.draw128
  let s := d.2
  let fields := if fn = 0 then moduleFields s.freeCtr else SMap.get {} s.sec.fields (fn - 1)
  let r : Report := { fn := fn, serial := d.1 &&& (BitVec.ofNat 128 (2 ^ 127 - 1)), moduleId := s.moduleId, boots := s.sec.record.boots,
                      slots := s.sec.slots.take 6, record := s.sec.record.version, tick := s.tickNo, state := s.reportState,
                      firmware := s.sec.runtimeVersion, part := if fn = 0 then 0xFF else fn - 1, fields := fields, nonce := nonce,
                      cert := { kind := .report, signer := .boot, key := s.kemOf fn },
                      subject := (s.sec.record.serial, commonName fn) }
  { s with sec := { s.sec with reports := s.sec.reports ++ [{ r with exts := r.extensions s.sec.record.revision }] }, freeCtr := s.freeCtr + 2 }

/-- ATTESTATION_REQUEST on a function's DOE mailbox (R460): the attestation key and the boot certificate exist from boot on (R448, R457). -/
def execAttestationRequest (fn : Fin 17) (nonce : BitVec 256) (s : State) : Host.Outcome State Fault Refusal :=
  let s := s.wake 5
  if s.secOn ∧ s.sec.keys.attest ∧ s.sec.bootCert.isSome then .next (s.attest fn nonce) else .next s

/-! ## Unlocks (R432, R463) -/

/-- A draw of 256 bits. -/
def State.draw256 (s : State) : BitVec 256 × State :=
  let a := s.draw128
  let b := a.2.draw128
  (a.1 ++ b.1, b.2)

/-- UNLOCK_NONCE_REQUEST. -/
def execUnlockNonceRequest (s : State) : Host.Outcome State Fault Refusal :=
  let s := s.wake 5
  if !s.secOn then .next s
  else
    let d := s.draw256
    .next { d.2 with sec := { d.2.sec with nonces := d.2.sec.nonces ++ [d.1] } }

/-- The scope of a token. -/
def tokScope (t : BitVec 1536) : Nat := bits t.toNat 39 32
/-- Its nonce. -/
def tokNonce (t : BitVec 1536) : BitVec 256 := BitVec.ofNat 256 (bits t.toNat 447 192)
/-- The last tick at which the unlock holds. -/
def tokLast (t : BitVec 1536) : Nat := bits t.toNat 511 448

/-- The token is well formed: magic, a scope of the table, this module's serial, a nonce that was issued and not accepted, and a
signature by a debug key of the record. -/
def State.tokenOk (s : State) (t : BitVec 1536) : Bool :=
  let b := leBytes 192 t.toNat
  decide (bits t.toNat 31 0 = 0x4B4C4E55 ∧ 1 ≤ tokScope t ∧ tokScope t ≤ 3 ∧ BitVec.ofNat 128 (bits t.toNat 191 64) = s.sec.record.serial ∧
    tokNonce t ∈ s.sec.nonces) && s.sec.record.dbgKeys.any fun k => Config.ed448Verify k (b.take 64) ((b.drop 64).take 114)

/-- A partition holds a gallery or a frame. -/
def State.holds (s : State) (p : Nat) : Bool :=
  s.galleriesOf p ≠ [] || (List.range 16).any fun t => (s.stk t).frames.any fun e =>
    e.2.part = p && (e.2.st = .allocated || e.2.st = .zeroing)

/-- Jormir refuses a scope while the partitions do not admit it. -/
def State.scopeRefused (s : State) (scope : Nat) : Bool :=
  if scope = 1 then (List.range 16).any fun p => decide ((s.part p).tdi = 1 ∨ (s.part p).tdi = 2)
  else (List.range 16).any fun p => s.holds p

/-- UNLOCK_REQUEST: an accepted unlock takes effect at the next boundary. -/
def execUnlockRequest (token : BitVec 1536) (s : State) : Host.Outcome State Fault Refusal :=
  let s := s.wake 5
  if !s.secOn ∨ !s.tokenOk token ∨ s.scopeRefused (tokScope token) then .next s
  else
    let u : Unlock := { scope := tokScope token, lastTick := tokLast token }
    .next { s with sec := { s.sec with unlockDue := some u, nonces := s.sec.nonces.filter fun n => !decide (n = tokNonce token) } }

/-- UNLOCK_EXPIRY: the unlock lapses after its last tick; slot 4 is extended. -/
def execUnlockExpiry (s : State) : Host.Outcome State Fault Refusal :=
  match s.sec.unlock with
  | none => .next s
  | some u =>
    if s.tickNo.toNat ≤ u.lastTick then .next s
    else
      let s := { s with sec := { s.sec with unlock := none } }.extendSlot 4 (Config.measured 4 (if s.sec.approved then 8 else 0))
      .next s.scanFalls

/-! ## Sessions, IDE and TDISP (R454, R473, R474) -/

/-- An endpoint has a session. -/
def State.inSession (s : State) (endpoint : Nat) : Bool := s.sec.sessions.any fun x => decide (x.endpoint = endpoint)

/-- The session that a request establishes (R454): the responder's draw and the requester's part give the secret, and the responder signs the
transcript with Ed448. -/
def State.spdmAnswer (s : State) (q : SpdmReq) : SpdmSession :=
  { endpoint := q.endpoint, secret := Config.mlkem s.freeCtr q.kem, sig := (List.range 114).map (Config.signature (digestBytes q.transcript)) }

/-- SPDM_SESSION: endpoints 0 to 16 are the functions' DOE mailboxes, 17 MCTP over PCIe, 18 MCTP over SMBus. -/
def execSpdmSession (q : SpdmReq) (s : State) : Host.Outcome State Fault Refusal :=
  let s := s.wake 5
  if !s.secOn ∨ s.inSession q.endpoint then .next s
  else .next { s with sec := { s.sec with sessions := s.sec.sessions ++ [s.spdmAnswer q] }, freeCtr := s.freeCtr + 1 }

/-- IDE_KM: a key set of a function's stream is programmed, inside a session on its DOE mailbox. -/
def execIdeKm (fn : Fin 17) (keySet : Bool) (s : State) : Host.Outcome State Fault Refusal :=
  let i := 2 * fn.val + (if keySet then 1 else 0)
  if !s.secOn ∨ !s.inSession fn ∨ s.sec.keys.ide.contains i then .next s
  else .next { s with sec := { s.sec with keys := { s.sec.keys with ide := s.sec.keys.ide ++ [i] } } }

/-- K_SET_GO: the stream uses a key set that it holds. -/
def execKSetGo (fn : Fin 17) (keySet : Bool) (s : State) : Host.Outcome State Fault Refusal :=
  let k := if keySet then 1 else 0
  if !s.secOn ∨ !s.sec.keys.ide.contains (2 * fn.val + k) then .next s
  else .next { s with sec := { s.sec with keys := { s.sec.keys with ideSet := SMap.set 0 s.sec.keys.ideSet fn.val (k + 1) } } }

/-- Put a partition's TDI state (R454): out of LOCKED, what waited for it goes out (R473). -/
def State.setTdi (s : State) (p v : Nat) : State :=
  let s := s.setPart p { s.part p with tdi := v }
  if v = 1 then s else s.freeHost p

/-- LOCK_INTERFACE: accepted only while the partition is ACTIVE (R473). -/
def execLockInterface (p : PartId) (s : State) : Host.Outcome State Fault Refusal :=
  if s.secOn ∧ (s.part p).tdi = 0 ∧ (s.part p).st = .active then .next (s.setTdi p 1) else .next s

/-- START_INTERFACE: accepted only once the function's stream is secure (R473). -/
def execStartInterface (p : PartId) (s : State) : Host.Outcome State Fault Refusal :=
  if s.secOn ∧ (s.part p).tdi = 1 ∧ SMap.get 0 s.sec.keys.ideSet (p + 1) ≠ 0 then .next (s.setTdi p 2) else .next s

/-- A partition leaves TDISP protection: a landing 3, and its swap and KEM keys are zeroised (R454, R464). -/
def State.leaveTdi (s : State) (p v : Nat) : State :=
  let s := s.setTdi p v
  (s.setPart p { s.part p with keysHeld := false, kemHeld := false }).landing3 p 241 0x2A

/-- STOP_INTERFACE. -/
def execStopInterface (p : PartId) (s : State) : Host.Outcome State Fault Refusal :=
  if s.jormirUp ∧ (s.part p).tdi ≠ 0 then .next (s.leaveTdi p 0) else .next s

/-- TDI_ERROR: the TDI enters ERROR. -/
def execTdiError (p : PartId) (s : State) : Host.Outcome State Fault Refusal :=
  if s.jormirUp ∧ ((s.part p).tdi = 1 ∨ (s.part p).tdi = 2) then .next (s.leaveTdi p 3) else .next s

/-! ## Firmware update (R446, R475) -/

/-- A Tabfold firmware key of the record signed an image (R446). -/
def State.signedOk (s : State) (image sig : List Byte) : Bool := s.sec.record.fwKeys.any fun k => Config.ed448Verify k image sig

/-- An image verifies, and meets its minimum. -/
def State.imageOk (s : State) (c version : Nat) (image sig : List Byte) : Bool :=
  s.signedOk image sig && decide (Config.imageVersion image = version ∧ s.sec.record.least c ≤ version)

/-- Put an image in the flash bank that is not in use. -/
def State.stageImage (s : State) (x : FwImage) : State :=
  { s with sec := { s.sec with images := (s.sec.images.filter fun y => y.active || !decide (y.component = x.component)) ++ [x] } }

/-- A record update signed by Tabfold: its sections replace the repairs, the minimum versions and the Tabfold public keys, and may remove the identity key (R464); what an image says is uninterpreted
(log entry 27). The tamper log and the boot count are the module's own. -/
def ConfigRec.update (r : ConfigRec) (image : List Byte) : ConfigRec :=
  let remap (x : Nat × Nat × Nat × Nat) : Nat × Remap := (x.1, { bank := x.2.1, row := x.2.2.1, spare := x.2.2.2 })
  { r with scrRemap := (Config.recordList image 0).map remap, stkRemap := (Config.recordList image 1).map remap,
           retiredFrames := (Config.recordList image 2).map fun x => (x.1, x.2.1), retiredGalleries := Config.recordNat image 0,
           minJormir := Config.recordNat image 1, minRuntime := Config.recordNat image 2,
           fwKeys := Config.recordKeys image 0, dbgKeys := Config.recordKeys image 1,
           identityKey := r.identityKey && decide (Config.recordNat image 3 = 0) }

/-- PLDM_FIRMWARE_UPDATE: a component that does not verify changes nothing; a record update is committed at once. -/
def execPldmFirmwareUpdate (component : BitVec 16) (version : BitVec 32) (image sig : List Byte) (s : State) :
    Host.Outcome State Fault Refusal :=
  let s := s.wake 5
  let c := component.toNat
  if !s.secOn then .next s
  else if c = 1 ∨ c = 2 then
    if s.imageOk c version.toNat image sig then
      let s := s.stageImage { component := c, version := version.toNat, image := image }
      .next (if Config.raisesMinimum image then s.commitRecord fun r =>
          if c = 1 then { r with minJormir := version.toNat } else { r with minRuntime := version.toNat }
        else s)
    else .next s
  else if c = 3 ∧ s.signedOk image sig then .next (s.commitRecord fun r => r.update image)
  else .next s

/-- FIRMWARE_ACTIVATE: the runtime firmware by a landing 4; Jormir's image is the one in use from the next landing 5 on. -/
def execFirmwareActivate (component : BitVec 16) (s : State) : Host.Outcome State Fault Refusal :=
  let s := s.wake 5
  let c := component.toNat
  if !s.secOn ∨ !(s.sec.images.any fun y => y.component = c && !y.active) then .next s
  else if c = 2 then .next ((s.activate 2).landing4 241 0x2A)
  else .next (s.activate c)

end Sys2Proof.Machine
end

