-- ==== Sys2Proof/Machine/Debug.lean ====
section
/-! DEFINITION. Counters, event rings, traces, the BAR2 window, injected errors and boundary scan (R513 to R536). -/

namespace Sys2Proof.Machine

/-! ## DBG_CMD (R517, R518) -/

/-- The units that a DBG_CMD addresses: a core, a stack, or every core and stack. -/
def dbgUnits (unit : Nat) : List Nat := if unit = 0xFF then List.range 208 else if unit < 208 then [unit] else []

/-- Apply an operation to the masked counters of a unit: first the sample, last the reset (R518). -/
def PerfSt.command (p : PerfSt) (smp rst : Bool) (mask : Nat) : PerfSt :=
  let pick (k : Nat) (new old : Nat) : Nat := if bit mask k then new else old
  let at4 (f : Nat → Nat) : List Nat := (List.range 4).map f
  let s := if smp then at4 fun k => pick k (p.live.getD k 0) (p.sample.getD k 0) else p.sample
  { p with sample := s, live := if rst then at4 fun k => pick k 0 (p.live.getD k 0) else p.live }

/-- A DBG_CMD (R517): carried out at once, so CMD_BUSY reads 0 (log entry 4). -/
def State.dbgCmd (s : State) (unit mask : Nat) (smp rst : Bool) : State :=
  let go (m : SMap PerfSt) (u : Nat) : SMap PerfSt := SMap.upd {} m u fun p => p.command smp rst mask
  { s with dbg := { s.dbg with perf := (dbgUnits unit).foldl go s.dbg.perf } }

/-- SAMPLE. -/
def execSample (unit : Byte) (mask : BitVec 4) (s : State) : Host.Outcome State Fault Refusal :=
  if s.barOpen rDbgCmd then .next (s.dbgCmd unit.toNat mask.toNat true false) else .next s

/-- RESET. -/
def execReset (unit : Byte) (mask : BitVec 4) (s : State) : Host.Outcome State Fault Refusal :=
  if s.barOpen rDbgCmd then .next (s.dbgCmd unit.toNat mask.toNat false true) else .next s

/-- SAMPLE_RESET. -/
def execSampleReset (unit : Byte) (mask : BitVec 4) (s : State) : Host.Outcome State Fault Refusal :=
  if s.barOpen rDbgCmd then .next (s.dbgCmd unit.toNat mask.toNat true true) else .next s

/-! ## Unit rings (R520, R522, R523) -/

/-- An event record as a number of 256 bits. -/
def eventNat (r : EventRec) (phase : Nat) : Nat :=
  let c (b : Bool) : Nat := if b then 1 else 0
  r.time.toNat + 2 ^ 64 * (r.tick % 2 ^ 32) + 2 ^ 96 * (r.kind % 256) +
    2 ^ 104 * (r.prio % 4 + 4 * c r.coal + 8 * (phase % 2) + 16 * c r.superseded) + 2 ^ 112 * (r.unit % 256) + 2 ^ 128 * (r.ctx % 65536) +
    2 ^ 144 * (match r.part with
      | some p => p % 16 + 128
      | none => 0) + 2 ^ 152 * (r.repeats % 256) + 2 ^ 160 * (r.d0 % 2 ^ 32) + 2 ^ 192 * (r.d1 % 2 ^ 64)

/-- A record that names a partition whose TDI is LOCKED or RUN, as the physical function sees it (R523). -/
def State.redact (s : State) (r : EventRec) : EventRec :=
  match r.part with
  | some p => if (s.part p).tdi = 1 ∨ (s.part p).tdi = 2 then { r with ctx := 0, d0 := 0, d1 := 0 } else r
  | none => r

/-- The record of a unit's ring whose number n satisfies n mod 256 = entry. -/
def UnitRing.entry (u : UnitRing) (i : Nat) : Option EventRec :=
  let first := u.count + 256 - u.recs.length
  u.recs[(i + 65536 * 256 * 256 * 2 - first) % 256]?

/-- A write of DBG_RING_SEL (R523). -/
def State.ringSel (s : State) (value : Word) : State := s.setFld rDbgRingSel 15 0 (value.toNat % 65536)

/-- RING_SELECT. -/
def execRingSelect (value : Word) (s : State) : Host.Outcome State Fault Refusal :=
  if s.barOpen rDbgRingSel then .next (s.ringSel value) else .next s

/-! ## Host event rings (R480, R525 to R527) -/

/-- The registers of a host event ring: fn 0 the physical function, p + 1 virtual function p. -/
def evBase (fn : Nat) : Nat := if fn = 0 then rHifEventBase else sliceBase (fn - 1) + rPartEventBase
/-- CFG of a host event ring. -/
def evCfg (fn : Nat) : Nat := if fn = 0 then rHifEventCfg else sliceBase (fn - 1) + rPartEventCfg
/-- HEAD of a host event ring. -/
def evHead (fn : Nat) : Nat := if fn = 0 then rHifEventHead else sliceBase (fn - 1) + rPartEventHead

/-- The router's state of a ring. -/
def State.evRing (s : State) (fn : Nat) : HostRing := if fn = 0 then s.dbg.pfRing else SMap.get {} s.dbg.vfRing (fn - 1)

/-- Put the router's state of a ring. -/
def State.setEvRing (s : State) (fn : Nat) (r : HostRing) : State :=
  if fn = 0 then { s with dbg := { s.dbg with pfRing := r } }
  else { s with dbg := { s.dbg with vfRing := SMap.set {} s.dbg.vfRing (fn - 1) r } }

/-- The ring is present (R480): its LOG2 lies in its range, and a partition's ring belongs to a partition that exists. -/
def State.evOn (s : State) (fn : Nat) : Bool :=
  let log := s.fld (evCfg fn) 4 0
  decide (6 ≤ log ∧ log ≤ 16) && (fn = 0 || decide ((s.part (fn - 1)).st ≠ .absent ∧ (s.part (fn - 1)).st ≠ .creating))

/-- Free entries of a ring; none while the module makes no host access for the partition (R473). -/
def State.evRoom (s : State) (fn : Nat) : Nat :=
  if fn ≠ 0 ∧ s.locked (fn - 1) then 0 else acctRoom (s.fld (evCfg fn) 4 0) (s.evRing fn).tail (s.evRing fn).head

/-- Write one record at the tail of a ring. -/
def State.evWrite (s : State) (fn : Nat) (r : EventRec) : State :=
  let k := s.evRing fn
  let n := 2 ^ s.fld (evCfg fn) 4 0
  let a := s.pageAt (evBase fn) + 32 * (k.tail % n)
  let data := leBytes 32 (eventNat r (phaseOf k.tail n))
  let s := s.setEvRing fn { k with tail := k.tail + 1 }
  if fn = 0 then s.setHost (Memory.writeN s.host a data) else s.hostPart (fn - 1) a data

/-- The LOST_RECORDS record of a ring's counts (R521, R526). -/
def State.lostRec (s : State) (fn : Nat) : EventRec × State :=
  let l := (s.evRing fn).loss
  let t := s.stampTime
  ({ time := t.1, tick := s.tickNo.toNat % 2 ^ 32, kind := 0x1A, prio := 1, unit := 243, part := if fn = 0 then none else some (fn - 1),
     d0 := min l.err 65535 + 65536 * min l.warn 65535, d1 := min l.info (2 ^ 32 - 1) + 2 ^ 32 * min l.coal (2 ^ 32 - 1) }, t.2)

/-- Alarm records, while there is room (R527). -/
def State.evAlarms (s : State) : List EventRec → State
  | [] => s
  | r :: t =>
    if s.evRoom 0 = 0 then s
    else ((s.setEvRing 0 { s.evRing 0 with alarms := t }).evWrite 0 r).evAlarms t

/-- Held records, while there is room. -/
def State.evHeld (s : State) (fn : Nat) : List EventRec → State
  | [] => s
  | r :: t =>
    if s.evRoom fn = 0 then s
    else ((s.setEvRing fn { s.evRing fn with held := t }).evWrite fn r).evHeld fn t

/-- A ring takes what waits for it: alarms, then LOST_RECORDS, then held records, in order; a message when any was written. -/
def State.evFlush (s : State) (fn : Nat) : State :=
  if !s.evOn fn then s
  else
    let before := (s.evRing fn).tail
    let s := if fn = 0 then s.evAlarms s.dbg.pfRing.alarms else s
    let s := if (s.evRing fn).loss = {} ∨ s.evRoom fn = 0 then s
      else
        let r := s.lostRec fn
        ((r.2.logRec r.1).setEvRing fn { s.evRing fn with loss := {} }).evWrite fn r.1
    let s := s.evHeld fn (s.evRing fn).held
    if (s.evRing fn).tail = before then s else s.sendMsi fn (s.fld (evCfg fn) 14 8)

/-- The head word of a ring, as read; it is not read while the interface is LOCKED (R473). -/
def State.evHeadIs (s : State) (fn : Nat) (w : Nat) : State :=
  if fn ≠ 0 ∧ s.locked (fn - 1) then s else s.setEvRing fn { s.evRing fn with head := w % 2 ^ 32 }

/-- The router hands a record to a ring (R526): written if there is room, otherwise held. -/
def State.evOffer (s : State) (fn : Nat) (r : EventRec) : State :=
  if !s.evOn fn then s
  else
    let s := s.evFlush fn
    if s.evRoom fn = 0 then
      let k := s.evRing fn
      let h := holdRecord 1024 r k.held k.loss
      (s.setEvRing fn { k with held := h.1, loss := h.2.1 }).noteLoss k.loss h.2.1
    else (s.evWrite fn r).sendMsi fn (s.fld (evCfg fn) 14 8)

/-- EVENT_RECORD_ACCEPT: the router takes a unit's oldest unsent record; `heads` are the head words that it reads. -/
def execEventRecordAccept (unit : Byte) (heads : List (Nat × Nat)) (s : State) : Host.Outcome State Fault Refusal :=
  let u := s.ring unit.toNat
  match u.unsent with
  | [] => .next s
  | r :: t =>
    let s := s.setRing unit.toNat { u with unsent := t }
    let look (s : State) (fn : Nat) : State := s.evHeadIs fn (headAt heads (s.wordAt (evHead fn)) (s.evRing fn).head)
    let s := if r.prio ≤ s.fld rDbgCtrl 7 6 then (look s 0).evOffer 0 (s.redact r) else s
    match r.part with
    | some p => .next ((look s (p + 1)).evOffer (p + 1) r)
    | none => .next s

/-- EVENT_RING_ROOM: ring 0 is the physical function's, p + 1 that of partition p. -/
def execEventRingRoom (ring : Fin 17) (head : BitVec 32) (s : State) : Host.Outcome State Fault Refusal :=
  .next ((s.evHeadIs ring head.toNat).evFlush ring)

/-! ## Tracing (R528, R529) -/

/-- Records that the trace buffer holds. -/
def traceCap : Nat := 262144

/-- TRACE_EN is 1 and an unlock of DEBUG_TRACE or wider holds. -/
def State.tracing (s : State) : Bool := s.fld rDbgCtrl 1 1 = 1 && s.unlocked 1

/-- A unit is selected in DBG_TRACE_UNITS. -/
def State.traceUnit (s : State) (u : Nat) : Bool := bit (s.reg (rDbgTraceUnits0 + 8 * (u / 64))).toNat (u % 64)

/-- A unit emits this record: SYNC by the tick generator always, the others as units, kinds and context select them. TRACE_LOSS comes
from the loss itself. -/
def State.traced (s : State) (u : Nat) (r : BitVec 128) : Bool :=
  let kind := bits r.toNat 63 56
  let f := (s.reg rDbgTraceFilter).toNat
  s.tracing && decide (bits r.toNat 47 40 = u) &&
  (if kind = 8 then u = 226
   else decide (1 ≤ kind ∧ kind ≤ 7) && s.traceUnit u && bit f (15 + kind) && decide (bits f 15 0 = 0 ∨ bits f 15 0 = bits r.toNat 79 64))

/-- Dropped trace records are counted. -/
def State.traceDrop (s : State) : State := (s.countFld rDbgTrace 63 32 1).flag rDbgStatus 2

/-- The collector writes a record, or drops it when the buffer is full and TRACE_STOP is 1. -/
def State.collect (s : State) (r : BitVec 128) : State :=
  let stop := s.fld rDbgCtrl 3 3 = 1
  let n := s.dbg.traceCount
  if stop ∧ traceCap ≤ n then (s.flag rDbgStatus 1).traceDrop
  else
    let s := { s with dbg := { s.dbg with trace := SMap.set 0 s.dbg.trace (n % traceCap) r, traceCount := n + 1 } }
    if stop ∧ n + 1 = traceCap then s.flag rDbgStatus 1 else s

/-- TRACE_RECORD: `room` says whether the unit's queue had room for it. -/
def execTraceRecord (unit : Byte) (rec : BitVec 128) (room : Bool) (s : State) : Host.Outcome State Fault Refusal :=
  let u := unit.toNat
  if !s.traced u rec then .next s
  else
    let k := s.ring u
    if !room then .next (s.setRing u { k with traceLost := k.traceLost + 1 }).traceDrop
    else if k.traceLost = 0 then .next (s.collect rec)
    else
      let t := s.stampTime
      let loss : BitVec 128 := BitVec.ofNat 128 (t.1.toNat % 2 ^ 40 + 2 ^ 40 * u + 2 ^ 56 * 9 + 2 ^ 64 * (k.traceLost % 2 ^ 32))
      .next (((t.2.setRing u { k with traceLost := 0 }).collect loss).collect rec)

/-! ## The BAR2 window (R531, R532) -/

/-- The 8 bytes that the memory aperture shows at a device address: a line that fails its checks reads as a free value. -/
def State.apertureRead (s : State) (a : Nat) : Word :=
  match placeOf a with
  | .stack t off =>
    if SMap.get 0 (s.stk t).bad (off / 64) = 0 ∧ (s.stk t).die (dieOf off) < 4 then BitVec.ofNat 64 (leNat (Memory.readN s.mem a 8))
    else Config.unstated s.freeCtr
  | .scratch c off => if ((s.core c).failing [(off, 8)]).isSome then Config.unstated s.freeCtr else BitVec.ofNat 64 (leNat ((s.core c).scrRead off 8))
  | _ => 0

/-- A write of 8 bytes through the memory aperture. -/
def State.apertureWrite (s : State) (a : Nat) (v : Word) : State :=
  match placeOf a with
  | .stack t off => if (s.stk t).die (dieOf off) < 4 then s.putStack a (leBytes 8 v.toNat) else s
  | .scratch c off => s.setCore c ((s.core c).scrWrite off (leBytes 8 v.toNat))
  | _ => s

/-- What BAR2 reads at an offset: 0 where no unlock opens it. -/
def State.bar2 (s : State) (off : Nat) : Word :=
  if off < 0x400000 then
    if s.unlocked 1 then BitVec.ofNat 64 (bits (SMap.get 0 s.dbg.trace (off / 16)).toNat (8 * (off % 16) + 63) (8 * (off % 16))) else 0
  else if off < 0x600000 then
    let o := off - 0x400000
    (match (s.ring (o / 0x2000)).entry (o % 0x2000 / 32) with
     | some r => if s.unlocked 1 then BitVec.ofNat 64 (bits (eventNat r 0) (8 * (off % 32) + 63) (8 * (off % 32))) else 0
     | none => 0)
  else if 0x800000 ≤ off ∧ off < 0x1000000 ∧ s.unlocked 2 then s.apertureRead (s.fld rDbgAperture 47 23 * 2 ^ 23 + (off - 0x800000))
  else 0

/-- A write to BAR2: only the memory aperture takes one. -/
def State.bar2Write (s : State) (off : Nat) (v : Word) : State :=
  if 0x800000 ≤ off ∧ off < 0x1000000 ∧ s.unlocked 2 then s.apertureWrite (s.fld rDbgAperture 47 23 * 2 ^ 23 + (off - 0x800000)) v else s

/-- A BAR2 access by the physical function at an 8-byte-aligned offset; BAR2 answers once BOOT_DONE is 1 (R471). -/
def State.bar2Access (s : State) (off : Nat) (isWrite : Bool) (v : Word) : State :=
  let off := off / 8 * 8
  if !s.barOpen rDbgAperture then (if isWrite then s else { s with readData := 0 })
  else if isWrite then s.bar2Write off v
  else { s with readData := s.bar2 off, freeCtr := s.freeCtr + 1 }

/-! ## Injected errors (R536) -/

/-- A write of TST_INJECT: ignored and flagged without a TEST unlock. -/
def State.tstInject (s : State) (value : Word) : State :=
  let v := value.toNat
  if !s.unlocked 3 then s.flag rTstStatus 0
  else if bit v 11 ∧ bits v 10 8 ≠ 0 then { s with dbg := { s.dbg with inject := some (bits v 10 8, bits v 7 0) } }
  else s

/-- ERROR_INJECT. -/
def execErrorInject (value : Word) (s : State) : Host.Outcome State Fault Refusal :=
  if s.barOpen rTstInject then .next (s.tstInject value) else .next s

/-! ## Boundary scan (R533 to R535) -/

/-- The port works while PWR_GOOD is asserted. -/
def State.tapOn (s : State) : Bool := s.pwr.pwrGood && !s.pwr.off

/-- SCAN_ENABLED. -/
def State.scanOn (s : State) : Bool := s.pwr.resetHeld || s.unlocked 3

/-- Select a TAP instruction: `driven`, the pins follow the boundary register; `floats`, they are in high impedance. -/
def State.tapSelect (s : State) (i : TapInstr) (driven floats : Bool) : State :=
  { s with dbg := { s.dbg with tap := i, pinsDriven := driven, pinsFloat := floats } }

/-- A restricted instruction (R535): BYPASS with SCAN_REFUSED while scan is not enabled. Under a TEST unlock it takes the PCIe link
down. -/
def State.tapRestricted (s : State) (i : TapInstr) (floats : Bool) : State :=
  if !s.tapOn then s
  else if !s.scanOn then (s.tapSelect .bypass false false).flag rTstStatus 1
  else
    let s := s.tapSelect i (!floats) floats
    if s.pwr.linkUp then { s with pwr := { s.pwr with linkUp := false }, dbg := { s.dbg with scanLink := true } } else s

/-- EXTEST. -/
def execExtest (s : State) : Host.Outcome State Fault Refusal := .next (s.tapRestricted .extest false)
/-- CLAMP. -/
def execClamp (s : State) : Host.Outcome State Fault Refusal := .next (s.tapRestricted .clamp false)
/-- HIGHZ. -/
def execHighz (s : State) : Host.Outcome State Fault Refusal := .next (s.tapRestricted .highz true)
/-- EXTEST_PULSE. -/
def execExtestPulse (s : State) : Host.Outcome State Fault Refusal := .next (s.tapRestricted .extestPulse false)
/-- EXTEST_TRAIN. -/
def execExtestTrain (s : State) : Host.Outcome State Fault Refusal := .next (s.tapRestricted .extestTrain false)

/-- SAMPLE_PRELOAD: the boundary register holds what was shifted in. -/
def execSamplePreload (pins : Word) (s : State) : Host.Outcome State Fault Refusal :=
  if !s.tapOn then .next s
  else
    let s := s.tapSelect .samplePreload false false
    .next { s with dbg := { s.dbg with boundary := pins } }

/-- IDCODE. -/
def execIdcode (s : State) : Host.Outcome State Fault Refusal :=
  if s.tapOn then .next (s.tapSelect .idcode false false) else .next s

/-- BYPASS, and every code that the table does not list. -/
def execBypass (s : State) : Host.Outcome State Fault Refusal :=
  if s.tapOn then .next (s.tapSelect .bypass false false) else .next s

/-- TAP_RESET: Test-Logic-Reset selects IDCODE. -/
def execTapReset (s : State) : Host.Outcome State Fault Refusal :=
  if s.tapOn then .next (s.tapSelect .idcode false false) else .next s

end Sys2Proof.Machine
end

