-- ==== Sys2Proof/Machine/HostInterface.lean ====
section
/-! DEFINITION. The host interface (R468 to R487): what each register reads as, writes and reads by address and width, the MSI-X table,
and function level resets. -/

namespace Sys2Proof.Machine

/-! ## What the read-only fields show -/

/-- A field shown: bits hi down to lo, and its value. -/
abbrev Shown := List (Nat × Nat × Nat)

/-- STATE of a partition (R483). -/
def partStateCode : PState → Nat
  | .absent => 0
  | .creating => 1
  | .active => 2
  | .softStopped => 3
  | .destroying => 4
  | .hardStopping => 5
  | .hardStopped => 6
  | .softStopping => 7

/-- PAIR_STATE (R415). -/
def pairCode : PairState → Nat
  | .off => 0
  | .forming => 1
  | .paired => 2
  | .degraded => 3
  | .fenced => 4
  | .promoting => 5
  | .solo => 6

/-- IDCODE (R534). -/
def idcode : Nat := Config.revision.toNat % 16 * 2 ^ 28 + 0x0A115B5B

/-- DBG_DATAk: counter k of the selected unit (R519). -/
def State.dbgData (s : State) (k : Nat) : Nat :=
  let p := SMap.get {} s.dbg.perf (s.fld rDbgSel 7 0)
  if s.fld rDbgSel 8 8 = 1 then p.snap.getD k 0 else p.sample.getD k 0

/-- DBG_RING_DATAk: word k of the selected record (R523). -/
def State.ringData (s : State) (k : Nat) : Nat :=
  match (s.ring (s.fld rDbgRingSel 7 0)).entry (s.fld rDbgRingSel 15 8) with
  | some r => bits (eventNat (s.redact r) 0) (64 * k + 63) (64 * k)
  | none => 0

/-- LEASE_LEFT_US: what is left of the lease when the register is read, a free time after the last stamped event (log entry 4). -/
def State.leaseLeft (s : State) : Nat :=
  if s.mir.leaseHeld then min (2 ^ 32 - 1) ((s.mir.leaseEnd.toNat - (s.timebase + Config.elapsed s.freeCtr).toNat) / 1000) else 0

/-- Read-only fields of the module-wide registers that the state holds apart from the registers. -/
def State.shownFix (s : State) (off : Nat) : Shown :=
  let c (b : Bool) : Nat := if b then 1 else 0
  if off = rHifId then [(31, 24, Config.revision.toNat)]
  else if off = rPrtFaultStatus then
    [(2, 0, (s.rcv.landings.map LandingSt.level).foldl max 0), (24, 16, min 511 s.rcv.suspects.length)]
  else if off = rMirStatus then
    [(2, 0, pairCode s.mir.pair), (3, 3, c s.mir.causeRtt), (31, 16, min 65535 s.mir.sealStalls), (63, 32, s.leaseLeft)]
  else if off = rSecStatus then [(0, 0, c s.sec.approved), (3, 1, s.sec.selftest), (7, 4, s.sec.tamper), (10, 8, s.unlockScope)]
  else if off = rSecRecord then [(63, 0, s.sec.record.version)]
  else if off = rSecBoot then [(31, 0, s.sec.record.boots)]
  else if rDbgData0 ≤ off ∧ off ≤ rDbgData3 then [(63, 0, s.dbgData ((off - rDbgData0) / 8))]
  else if off = rDbgRingSel then [(63, 32, (s.ring (s.fld rDbgRingSel 7 0)).count)]
  else if rDbgRingData0 ≤ off ∧ off ≤ rDbgRingData3 then [(63, 0, s.ringData ((off - rDbgRingData0) / 8))]
  else if off = rDbgTrace then [(31, 0, s.dbg.traceCount % 2 ^ 32)]
  else if off = rTstCtrl then (if s.unlocked 3 then [] else [(63, 0, 0)])
  else if off = rTstStatus then [(2, 2, c s.scanOn), (3, 3, c s.dbg.inject.isSome)]
  else if off = rTstIdcode then [(31, 0, idcode)]
  else []

/-- Read-only fields of a queue set (R484): they read their reset values from a function level reset to the next creation (R471). -/
def State.shownQueue (s : State) (q loc : Nat) : Shown :=
  let k := s.queue q
  let st := match k.st with
    | .absent => 0
    | .active => 1
    | .draining => 2
  if loc = rQCtrl then [(63, 48, k.gen), (41, 40, st)]
  else if loc = rQCounts then (if k.gen = 0 then [] else [(63, 32, k.admitted % 2 ^ 32), (31, 0, k.fetch % 2 ^ 32)])
  else []

/-- Read-only fields of an Onlan port. -/
def State.shownPort (s : State) (n loc : Nat) : Shown :=
  let k := s.port n
  if loc = rOnlPortStatus then
    [(3, 0, k.st), (7, 4, k.cause), (11, 8, k.width), (23, 16, k.excluded), (31, 24, k.inverted), (39, 32, k.partner), (43, 40, k.partnerPort)]
  else if loc = rOnlPortDelay then [(15, 0, k.delay)]
  else if loc = rOnlPortErr then [(31, 0, k.replays), (47, 32, k.retrains), (63, 48, k.tagFails)]
  else []

/-- Read-only fields of a PF partition block. -/
def State.shownPf (s : State) (p loc : Nat) : Shown :=
  if loc = rPrtGalleries then [(47, 32, ((s.stackSet p).map fun t => 2 ^ t).sum), (48, 48, if s.shareMode p then 1 else 0)]
  else if loc = rSecTdi then [(1, 0, (s.part p).tdi)]
  else if loc = rMirPartStatus then [(1, 0, (s.mirp p).shadow)]
  else if loc = rMirPartStatusHi then [(63, 0, (s.mirp p).lastSealed.toNat)]
  else if loc = rMirPartUnmir then [(14, 0, min 32767 (s.mirp p).unmirrored.length)]
  else []

/-- Read-only fields of a partition slice. -/
def State.shownSlice (s : State) (p loc : Nat) : Shown :=
  if loc = rPartStatus then [(2, 0, partStateCode (s.part p).st)]
  else if loc = rCtxResult then [(40, 32, (s.part p).held)]
  else []

/-- Fewest unused spare rows in any bank. -/
def spareMin (rows : Nat) (l : List Remap) : Nat := rows - (l.map fun r => usedSpares l r.bank).foldl max 0

/-- The registers of a core. -/
def State.shownCore (s : State) (i loc : Nat) : Shown :=
  let k := s.core i
  if loc = rCoreProgArray then [(63, 0, k.arrayP % 2 ^ 64)]
  else if loc = rCoreProgVector then [(63, 0, k.vectorP % 2 ^ 64)]
  else if loc = rCoreProgDma then [(63, 0, k.dmaP % 2 ^ 64)]
  else if loc = rCoreProgControl then [(63, 0, k.controlP % 2 ^ 64)]
  else if loc = rCoreProgBusy then [(3, 0, k.busyBits), (7, 4, k.shownWait)]
  else if rCoreSnapArray ≤ loc ∧ loc ≤ rCoreSnapControl then [(63, 0, (k.snap.getD ((loc - rCoreSnapArray) / 8) 0).toNat)]
  else if loc = rCoreSnapBusy then [(3, 0, k.snapBusy)]
  else if loc = rCoreSnapTick then [(63, 0, k.snapTick.toNat)]
  else if loc = rCoreScrEcc then [(31, 0, k.eccCor), (47, 32, k.eccUnc)]
  else if loc = rCoreScrSpare then [(3, 0, spareMin 8 (k.remap ++ k.remapPend)), (15, 4, k.remap.length), (31, 16, k.remapPend.length)]
  else if loc = rCoreDmaStatus then
    [(7, 0, ((List.range 8).map fun n => if (SMap.get [] k.chans n).isEmpty then 0 else 2 ^ n).sum)]
  else if loc = rCoreDmaDepth then (List.range 8).map fun n => (4 * n + 3, 4 * n, (SMap.get [] k.chans n).length)
  else []

/-- Read-only registers of a stack. -/
def State.shownStk (s : State) (t loc : Nat) : Shown :=
  let k := s.stk t
  if loc = rStkDieState then (List.range 16).map fun d => (4 * d + 2, 4 * d, k.die d)
  else if loc = rStkWake then [(10, 0, k.wakePeak), (63, 32, k.stalls)]
  else if loc = rStkEcc then [(31, 0, k.eccCor), (47, 32, k.eccUnc), (63, 48, k.tagFails)]
  else if loc = rStkRemap then
    [(1, 0, spareMin 2 (k.remap ++ k.remapPend ++ k.remapCopied)), (14, 2, k.remap.length), (31, 16, k.remapPend.length + k.remapCopied.length)]
  else if loc = rStkRetired then [(20, 0, k.retired)]
  else if loc = rStkFrames then [(20, 0, k.freeAt4), (52, 32, k.zeroAt4)]
  else if loc = rStkEngine then [(6, 0, k.fc.countP fun x => x.phase = .queued), (10, 8, k.fc.countP fun x => x.phase = .active)]
  else []

/-- Read-only registers of an attention engine. -/
def State.shownSae (s : State) (t loc : Nat) : Shown :=
  let k := s.stk t
  if loc = rSaeSlots then [(10, 0, ((List.range 16).map fun p => s.homed p t).sum)]
  else if loc = rSaeRows then [(63, 0, k.rowsDone % 2 ^ 64)]
  else if loc = rSaeErr then [(31, 0, k.nanHeads), (47, 32, k.rowFails)]
  else []

/-- The fields of a register that the state holds apart from the registers. -/
def State.shown (s : State) (r : RegRef) : Shown :=
  match r.group with
  | .fix => s.shownFix r.loc
  | .queue => s.shownQueue r.inst r.loc
  | .route => []
  | .port => s.shownPort r.inst r.loc
  | .pf => s.shownPf r.inst r.loc
  | .pfk => []
  | .sl => s.shownSlice r.inst r.loc
  | .core => s.shownCore r.inst r.loc
  | .stk => s.shownStk r.inst r.loc
  | .sae => s.shownSae r.inst r.loc

/-! ## Reads (R16, R22, R471, R478, R507) -/

/-- The bits of a register that a read shows: those of its fields, write-only fields apart. -/
def readMask (off : Nat) : Word := (regFields off).foldl (fun m f => if f.acc = .wo then m else m ||| f.mask) 0

/-- The word at an aligned register offset: RWT fields as written, or in force. -/
def State.regWord (s : State) (off : Nat) (inForce : Bool) : Word :=
  let o := (sliceCopy off).getD off
  match regRef o with
  | none => 0
  | some r => (s.shown r).foldl (fun w x => putBits w x.1 x.2.1 x.2.2) ((if inForce then s.reg o else s.written o) &&& readMask o)

/-- Entry of the MSI-X table that a table offset lies in: the partition's entries lie in its function's table while that is enabled
(R472). -/
def State.msixWord (s : State) (vf : Option Nat) (i : Nat) : Option Nat :=
  let e := i / 2
  let on (p : Nat) : Bool := decide (p < s.fld rHifStatus 20 16)
  match vf with
  | some p => if on p ∧ e < 124 then some (2 * (64 + 124 * p) + i) else none
  | none => if 2048 ≤ e ∨ (64 ≤ e ∧ on ((e - 64) / 124)) then none else some i

/-- A word of the pending bits of a table. -/
def State.pbaWord (s : State) (vf : Option Nat) (j : Nat) : Word :=
  BitVec.ofNat 64 (((List.range 64).map fun b =>
    match s.msixWord vf (2 * (64 * j + b)) with
    | some i => SMap.get 0 s.msiPend (i / 2) * 2 ^ b
    | none => 0).sum)

/-- Where an access lands: a register or its view of values in force, a word of an MSI-X table, or of its pending bits. -/
inductive Target where
  | reg (off : Nat) (view : Bool)
  | msix (vf : Option Nat) (i : Nat)
  | pba (vf : Option Nat) (j : Nat)
  | nothing
deriving DecidableEq, Repr

/-- The target of an aligned BAR0 offset of a requester (R32, R470, R472, R478): the physical function and the on-device view see all
of BAR0, virtual function p its slice while it is enabled. -/
def State.target (s : State) (r : Requester) (off : Nat) : Target :=
  let reg (base o : Nat) : Target := if o % 0x10000 < 0x8000 then .reg (base + o) false else .reg (base + o - 0x8000) true
  if r.val = 0 ∨ r.val = 17 then
    if 0x4000000 ≤ off then .nothing
    else if 0x3F00000 ≤ off ∧ off < 0x3F08000 then .msix none ((off - 0x3F00000) / 8)
    else if 0x3F08000 ≤ off ∧ off < 0x3F08100 then .pba none ((off - 0x3F08000) / 8)
    else if 0x3F00000 ≤ off ∧ off < 0x3F10000 then .nothing
    else reg 0 off
  else if s.fld rHifStatus 20 16 < r.val ∨ 0x100000 ≤ off then .nothing
  else if 0xF0000 ≤ off ∧ off < 0xF8000 then .msix (some (r.val - 1)) ((off - 0xF0000) / 8)
  else if 0xF8000 ≤ off ∧ off < 0xF8010 then .pba (some (r.val - 1)) ((off - 0xF8000) / 8)
  else if 0xF0000 ≤ off then .nothing
  else reg (sliceBase (r.val - 1)) off

/-- The offset by which a target answers or not. -/
def Target.gate : Target → Nat
  | .reg off _ => off
  | _ => 0x3F00000

/-- The word that a target reads as. -/
def State.readTarget (s : State) (t : Target) : Word :=
  if !s.barOpen t.gate then 0
  else
    match t with
    | .reg off v => s.regWord off v
    | .msix vf i => (match s.msixWord vf i with
        | some j => SMap.get (msixReset j) s.msix j
        | none => 0)
    | .pba vf j => s.pbaWord vf j
    | .nothing => 0

/-- The key under which a register's latched half is kept. -/
def Target.key : Target → Nat
  | .reg off v => if v then off + 0x8000 else off
  | .msix vf i => 0x4000000 + (vf.getD 16) * 0x10000 + 8 * i
  | .pba vf j => 0x5000000 + (vf.getD 16) * 0x10000 + 8 * j
  | .nothing => 0x6000000

/-- A read of STK_WAKE clears WAKE_PEAK (R245). -/
def State.readEffect (s : State) (t : Target) : State :=
  match t with
  | .reg off _ =>
    (match regRef off with
     | some r => if r.group = .stk ∧ r.loc = rStkWake ∧ s.barOpen off then s.setStk r.inst { s.stk r.inst with wakePeak := 0 } else s
     | none => s)
  | _ => s

/-- A request to the BAR0 of a virtual function whose interface is in RUN, and which does not arrive on its IDE stream, is answered Unsupported
Request (R473). -/
def State.unsupported (s : State) (q : BarReq) : Bool :=
  decide (0 < q.who.val ∧ q.who.val < 17 ∧ (s.part (q.who.val - 1)).tdi = 2) && !q.ide

/-- HALF_REGISTER_READ (R48, R476): the low half latches the high half, and the next read of the high half returns it. -/
def execHalfRegisterRead (q : BarReq) (off : Nat) (s : State) : Host.Outcome State Fault Refusal :=
  let t := s.target q.who (off / 8 * 8)
  let w := s.readTarget t
  let u := s.unsupported q
  let s := { s with freeCtr := s.freeCtr + 1 }
  if u then .next s
  else if off % 8 = 0 then
    let s := { s with latch := SMap.set none s.latch t.key (some (w.extractLsb' 32 32)), readData := w &&& 0xFFFFFFFF }
    .next (s.readEffect t)
  else if off % 8 = 4 then
    let high := ((SMap.get none s.latch t.key).getD (w.extractLsb' 32 32)).setWidth 64
    .next { s with latch := s.latch.del t.key, readData := high }
  else .next s

/-- WAKE_PEAK_READ: an 8-byte read of STK_WAKE. -/
def execWakePeakRead (st : StackId) (s : State) : Host.Outcome State Fault Refusal :=
  let t : Target := .reg (stkBase st + rStkWake) false
  .next ({ s with readData := s.readTarget t }.readEffect t)

/-! ## Writes (R16, R476, R486) -/

/-- A write of TST_CTRL (R536). -/
def State.tstCtrl (s : State) (v m : Word) : State :=
  if s.unlocked 3 then s.setReg rTstCtrl (((s.reg rTstCtrl &&& ~~~m) ||| (v &&& m)) &&& 3) else s.flag rTstStatus 0

/-- A write of MIR_CTRL (R415, R423, R486): EN set lets the pair form; MODE cleared ends a fenced pair. -/
def State.mirCtrl (s : State) (v m : Word) : State :=
  let s := s.writeBits rMirCtrl v m
  let s := if s.fld rMirCtrl 2 1 = 0 ∧ s.fld rMirCtrl 0 0 = 0 then
      let free (m : MirPart) : MirPart := { m with fenced := false }
      { s with mir := { s.mir with pair := .off, leaseHeld := false, parts := SMap.mapV {} (fun _ m => free m) s.mir.parts } }.claim else s
  if !bit m.toNat 0 then s
  else if bit v.toNat 0 then (if s.fld rMirCtrl 0 0 = 1 then s else (s.setFld rMirCtrl 0 0 1).formPair)
  else s.mirOff

/-- A write of ONL_PORT_CTRL (R395, R399, R486). -/
def State.portCtrl (s : State) (n : Nat) (v m : Word) : State :=
  let s := s.writeBits (portBase n + rOnlPortCtrl) v m
  let w := (v &&& m).toNat
  let s := if !bit m.toNat 0 then s else if bit w 0 then s.portEnable n else s.portDisable n
  if bit w 2 then s.retrain n else s

/-- A write to the EN of the sequencer, a stack or an attention engine (R486). -/
def State.engineCtrl (s : State) (off : Nat) (v m : Word) : State :=
  let s := s.writeBits off v m
  if !bit m.toNat 0 then s else if bit v.toNat 0 then s.setFld off 0 0 1 else s.engineOff off

/-- A write of a module-wide register. Where it sets GEN_EN, the boundary of the enable runs with nothing decided or measured from outside; the
row TICK_GEN_ENABLE carries those inputs (R50; log entry 31). -/
def State.writeFix (s : State) (off : Nat) (v m : Word) : State :=
  let w := v &&& m
  let b (i : Nat) : Bool := bit w.toNat i
  let has (i : Nat) : Bool := bit m.toNat i
  if off = rTckCtrl then
    let s := s.writeBits off v m
    if !has 0 then s else if b 0 then s.genOn {} else s.genOff
  else if off = rFeCtrl then
    let s := s.writeBits off v m
    if !has 0 then s else if b 0 then s.setFld off 0 0 1 else s.feOff
  else if off = rSeqCtrl then s.engineCtrl off v m
  else if off = rMirCtrl then s.mirCtrl v m
  else if off = rSecZeroise then (if has 0 then s.zeroise w else s)
  else if off = rPwrCtrl then
    let s := s.writeBits off v m
    let s := if b 2 then s.watchReq else s
    if b 3 then s.wake 1 else s
  else if off = rDbgCmd then
    let op := bits w.toNat 1 0
    if op = 0 then s else s.dbgCmd (bits w.toNat 47 40) (bits w.toNat 35 32) (op % 2 = 1) (2 ≤ op)
  else if off = rDbgRingSel then s.ringSel ((s.reg off &&& ~~~m) ||| w)
  else if off = rTstCtrl then s.tstCtrl v m
  else if off = rTstInject then s.tstInject w
  else s.writeBits off v m

/-- One write to a register, of the bits `m` (R476): registers with effects of their own apart, each field by its access type. -/
def State.writeWord (s : State) (off : Nat) (v m : Word) : State :=
  match regRef off with
  | none => s
  | some r =>
    match r.group with
    | .fix => s.writeFix off v m
    | .port => if r.loc = rOnlPortCtrl then s.portCtrl r.inst v m else s
    | .pf =>
      if r.loc = rPrtLife then
        let s := if bit (v &&& m).toNat 0 then s.createPart r.inst else s
        if bit (v &&& m).toNat 1 then s.destroyPart r.inst else s
      else s.writeBits off v m
    | .sl =>
      if r.loc = rCtxCmd then s.ctxCommand r.inst (v &&& m)
      else if r.loc = rCtxSeed then s.setReg off ((s.reg off &&& ~~~m) ||| (v &&& m))
      else s.writeBits off v m
    | .stk => if r.loc = rStkCtrl then s.engineCtrl off v m else s.writeBits off v m
    | .sae => if r.loc = rSaeCtrl then s.engineCtrl off v m else s.writeBits off v m
    | _ => s.writeBits off v m

/-- A write of an MSI-X table word; an entry that is unmasked sends what is pending. -/
def State.msixWrite (s : State) (vf : Option Nat) (i : Nat) (v m : Word) : State :=
  match s.msixWord vf i with
  | none => s
  | some j =>
    let w := (SMap.get (msixReset j) s.msix j &&& ~~~m) ||| (v &&& m)
    let w := if j % 2 = 1 then w &&& 0x1FFFFFFFF else w &&& ~~~3#64
    let s := { s with msix := SMap.set (msixReset j) s.msix j w }
    if j % 2 = 1 ∧ !bit w.toNat 32 ∧ SMap.get 0 s.msiPend (j / 2) = 1 then
      { s with msiPend := s.msiPend.del (j / 2), msiSent := SMap.upd 0 s.msiSent (j / 2) (· + 1) }
    else s

/-- Carry out one write. -/
def State.writeTarget (s : State) (t : Target) (v m : Word) : State :=
  if !s.barOpen t.gate then s
  else
    match t with
    | .reg off view => if view then s else s.writeWord off v m
    | .msix vf i => s.msixWrite vf i v m
    | _ => s

/-- Bits 31:0. -/
def lowMask : Word := 0xFFFFFFFF#64
/-- Bits 63:32. -/
def highMask : Word := 0xFFFFFFFF00000000#64

/-- The low half that a requester holds. -/
def State.heldHalf (s : State) (r : Nat) : Option HalfWrite := SMap.get none s.regHeld r

/-- A held low half is applied alone (R476). -/
def State.releaseHalf (s : State) (r : Requester) : State :=
  match s.heldHalf r with
  | none => s
  | some h => ({ s with regHeld := s.regHeld.del r }).writeTarget (s.target r h.off) (h.low.setWidth 64) lowMask

/-- A write that R476 drops. -/
def State.badWrite (s : State) : State := (s.flag rHifFlags 1).countFld rHifFlags 63 32 1

/-- Table words take each 4-byte write at once: the hold of R476 is for set-up registers. -/
def Target.holds : Target → Bool
  | .reg _ _ => true
  | .nothing => true
  | _ => false

/-- A write by a requester at a BAR0 offset: `bytes` wide, `value` in its low bits (R476). -/
def State.hostWrite (s : State) (r : Requester) (off bytes : Nat) (value : Word) : State :=
  let t := s.target r (off / 8 * 8)
  if !s.jormirUp then s
  else if bytes = 8 ∧ off % 8 = 0 then (s.releaseHalf r).writeTarget t value (BitVec.allOnes 64)
  else if bytes = 4 ∧ off % 8 = 0 then
    if t.holds then
      { s.releaseHalf r with regHeld := SMap.set none (s.releaseHalf r).regHeld r (some { off := off, low := value.setWidth 32 }) }
    else (s.releaseHalf r).writeTarget t value lowMask
  else if bytes = 4 ∧ off % 8 = 4 then
    match s.heldHalf r with
    | some h =>
      if h.off + 4 = off ∧ t.holds then
        ({ s with regHeld := s.regHeld.del r }).writeTarget t ((value <<< 32) ||| h.low.setWidth 64) (BitVec.allOnes 64)
      else (s.releaseHalf r).writeTarget t (value <<< 32) highMask
    | none => s.writeTarget t (value <<< 32) highMask
  else (s.releaseHalf r).badWrite

/-- REGISTER_WRITE. -/
def execRegisterWrite (q : BarReq) (off bytes : Nat) (value : Word) (s : State) : Host.Outcome State Fault Refusal :=
  .next (if s.unsupported q then s else s.hostWrite q.who off bytes value)

/-- GUARDED_WRITE: an 8-byte write to a register of guarded fields (R438). -/
def execGuardedWrite (q : BarReq) (off : Nat) (value : Word) (s : State) : Host.Outcome State Fault Refusal :=
  if s.unsupported q then .next s
  else match s.target q.who off with
  | .reg o false =>
    (match regRef o with
     | some x => if guarded x ∧ off % 8 = 0 then .next (s.hostWrite q.who off 8 value) else .next s
     | none => .next s)
  | _ => .next s

/-- APERTURE_ACCESS: a BAR2 access; a write to another BAR releases the physical function's held half (R476, R532). -/
def execApertureAccess (off : Nat) (isWrite : Bool) (value : Word) (s : State) : Host.Outcome State Fault Refusal :=
  .next ((if isWrite then s.releaseHalf 0 else s).bar2Access off isWrite value)

/-- VF_ENABLE: the functions p + 1 below n + 1 are enabled (R469, R472). -/
def execVfEnable (n : Fin 17) (s : State) : Host.Outcome State Fault Refusal :=
  if s.jormirUp then .next (s.setFld rHifStatus 20 16 n) else .next s

/-! ## Function level resets (R471) -/

/-- Every register of a partition's slice returns to its reset value; the router holds nothing for its event ring. -/
def State.resetSlice (s : State) (p : Nat) : State :=
  let keep (o : Nat) : Bool := !decide (sliceBase p ≤ o ∧ o < sliceBase p + 0x100000)
  { s with regs := s.regs.filter fun e => keep e.1, regPend := s.regPend.filter fun e => keep e.1,
           latch := s.latch.filter fun e => keep e.1, regHeld := s.regHeld.del (p + 1),
           dbg := { s.dbg with vfRing := s.dbg.vfRing.del p } }

/-- The queues of a partition are gone, their generations with them. -/
def State.dropQueues (s : State) (p : Nat) : State :=
  ((List.range 64).map (64 * p + ·)).foldl (fun s q =>
    let s := s.killQueue q
    s.setQueue q { s.queue q with gen := 0 }) (s.tearDescs p)

/-- The functions answer: boot has completed, and BOOT_DONE reads 0 at most for a function level reset or a landing 4 (R471). -/
def State.functionsOn (s : State) : Bool :=
  s.bootDone || (!s.sec.parked && (!s.rcv.flr.isEmpty || s.rcv.landings.any fun l => l.level = 4))

/-- A function level reset of virtual function p: a landing 3 of its partition, and its slice; its swap key and its KEM key are drawn anew. -/
def State.flrVf (s : State) (p : Nat) : State :=
  if !s.functionsOn ∨ s.fld rHifStatus 20 16 ≤ p then s
  else
    let live := (s.part p).st ≠ .absent
    let s := if live then s.landing3 p 241 0x2A else s
    let s := (s.dropQueues p).resetSlice p
    let n := s.freeCtr
    let s := s.setPart p { s.part p with tdi := 0, keysHeld := decide live, kemHeld := decide live, swapKey := n, kemKey := n + 4 }
    let s := { s.freeHost p with freeCtr := n + 5 }
    let busy := s.rcv.landings.any fun l => l.level = 3 && l.part = some p
    let s := (if busy then { s with rcv := { s.rcv with flr := s.rcv.flr ++ [p + 1] } } else s).setFld rHifStatus 0 0 0
    s.readyAgain

/-- Registers that a function level reset of the physical function leaves: ONL, MIR, SEC, PWR and TST. -/
def flrKeeps (off : Nat) : Bool :=
  match regRef off with
  | none => true
  | some r =>
    match r.group with
    | .fix => decide (off / 0x10000 ∈ [5, 6, 7, 8, 9, 11])
    | .route => true
    | .port => true
    | .pfk => true
    | .pf => decide (r.loc ∈ [rMirMap, rMirTakeover, rSecTdi, rMirPartStatus, rMirPartStatusHi, rMirPartUnmir])
    | _ => false

/-- A register with its writable fields and flags at their reset values. -/
def resetWritable (off : Nat) (w : Word) : Word :=
  (regFields off).foldl (fun w f => if f.acc = .ro then w else putBits w f.hi f.lo f.rst) w

/-- Every set-up register returns to its reset value; what reports a state still does. -/
def State.resetSetup (s : State) : State :=
  let s := s.regs.foldl (fun s e => if flrKeeps e.1 then s else s.setReg e.1 (resetWritable e.1 e.2)) s
  { s with regPend := s.regPend.filter fun e => flrKeeps e.1, regHeld := [], latch := [] }

/-- A function level reset of the physical function: landing 4, then every partition is destroyed and the set-up registers are reset;
with GEN_EN 0 the generator is HARD_STOPPED (log entry 33). -/
def State.flrPf (s : State) : State :=
  if !s.functionsOn then s
  else
    let s := s.landing4 241 0x2A
    let s := s.each (fun s p => s.destroy1 p) (List.range 16)
    let s := (s.killQueue 1024).resetSetup
    let s := if s.genState = 0 then s else s.setGenState 5
    let rcv := { s.rcv with flr := s.rcv.flr ++ [0] }
    { s with tick := { s.tick with isOpen := false, closed := false, reqs := [] }, rcv := rcv, dbg := { s.dbg with pfRing := {} } }

/-- FUNCTION_LEVEL_RESET_VF. -/
def execFunctionLevelResetVf (p : PartId) (s : State) : Host.Outcome State Fault Refusal := .next (s.flrVf p)

/-- FUNCTION_LEVEL_RESET_PF. -/
def execFunctionLevelResetPf (s : State) : Host.Outcome State Fault Refusal := .next s.flrPf

/-- D3HOT_ENTRY: treated as a function level reset of that function. -/
def execD3hotEntry (fn : Fin 17) (s : State) : Host.Outcome State Fault Refusal :=
  .next (if fn.val = 0 then s.flrPf else s.flrVf (fn - 1))

end Sys2Proof.Machine
end

