-- ==== Sys2Proof/Machine/Dispatch.lean ====
section
/-! DEFINITION. One arm for each command: a direct call of its meaning. -/

namespace Sys2Proof.Machine

/-- The effect of a command on everything but the queue. -/
def exec (i : Instr) (s : State) : Host.Outcome State Fault Refusal :=
  match i with
  | .nominalClose b => Sys2Proof.Machine.execNominalClose b s
  | .tickDrained b => Sys2Proof.Machine.execTickDrained b s
  | .tickOpen => Sys2Proof.Machine.execTickOpen s
  | .limitPoint => Sys2Proof.Machine.execLimitPoint s
  | .progressSample => Sys2Proof.Machine.execProgressSample s
  | .tickGenEnable value b => Sys2Proof.Machine.execTickGenEnable value b s
  | .tickGenDisable value => Sys2Proof.Machine.execTickGenDisable value s
  | .tickSyncInEdge sinceUs b => Sys2Proof.Machine.execTickSyncInEdge sinceUs b s
  | .barrierArrive member tick => Sys2Proof.Machine.execBarrierArrive member tick s
  | .barrierRelease rootTick => Sys2Proof.Machine.execBarrierRelease rootTick s
  | .barrierCompensatedStart b => Sys2Proof.Machine.execBarrierCompensatedStart b s
  | .barrierTimeout b => Sys2Proof.Machine.execBarrierTimeout b s
  | .softStopModule => Sys2Proof.Machine.execSoftStopModule s
  | .softStopPartition p => Sys2Proof.Machine.execSoftStopPartition p s
  | .softStopContext p h => Sys2Proof.Machine.execSoftStopContext p h s
  | .hardStopModule => Sys2Proof.Machine.execHardStopModule s
  | .hardStopPartition p => Sys2Proof.Machine.execHardStopPartition p s
  | .resumeModule b => Sys2Proof.Machine.execResumeModule b s
  | .resumePartition p => Sys2Proof.Machine.execResumePartition p s
  | .resumeContext p h => Sys2Proof.Machine.execResumeContext p h s
  | .stopRequestInternal src hard scope => Sys2Proof.Machine.execStopRequestInternal src hard scope s
  | .hardStopComplete scope cycles => Sys2Proof.Machine.execHardStopComplete scope cycles s
  | .backgroundOpComplete id data e => Sys2Proof.Machine.execBackgroundOpComplete id data e s
  | .flightEntry c => Sys2Proof.Machine.execFlightEntry c s
  | .wtickResume c => Sys2Proof.Machine.execWtickResume c s
  | .flightEnd c => Sys2Proof.Machine.execFlightEnd c s
  | .nop c w => Sys2Proof.Machine.execNop c w s
  | .endFlight c w => Sys2Proof.Machine.execEndFlight c w s
  | .wtick c w => Sys2Proof.Machine.execWtick c w s
  | .movi c w => Sys2Proof.Machine.execMovi c w s
  | .movhi c w => Sys2Proof.Machine.execMovhi c w s
  | .salu c w => Sys2Proof.Machine.execSalu c w s
  | .movs c w => Sys2Proof.Machine.execMovs c w s
  | .br c w => Sys2Proof.Machine.execBr c w s
  | .loop c w => Sys2Proof.Machine.execLoop c w s
  | .waitc c w => Sys2Proof.Machine.execWaitc c w s
  | .clrc c w => Sys2Proof.Machine.execClrc c w s
  | .qsync c w => Sys2Proof.Machine.execQsync c w s
  | .ldp c w => Sys2Proof.Machine.execLdp c w s
  | .lds c w e => Sys2Proof.Machine.execLds c w e s
  | .sts c w => Sys2Proof.Machine.execSts c w s
  | .fence c w => Sys2Proof.Machine.execFence c w s
  | .fenceReleaseDone c e => Sys2Proof.Machine.execFenceReleaseDone c e s
  | .signal c w => Sys2Proof.Machine.execSignal c w s
  | .signalDelivery idx => Sys2Proof.Machine.execSignalDelivery idx s
  | .sload c w e => Sys2Proof.Machine.execSload c w e s
  | .pass c w e te => Sys2Proof.Machine.execPass c w e te s
  | .drain c w te => Sys2Proof.Machine.execDrain c w te s
  | .valu c w => Sys2Proof.Machine.execValu c w s
  | .vint c w => Sys2Proof.Machine.execVint c w s
  | .vcvt c w => Sys2Proof.Machine.execVcvt c w s
  | .vfunc c w => Sys2Proof.Machine.execVfunc c w s
  | .vred c w => Sys2Proof.Machine.execVred c w s
  | .vmerge c w => Sys2Proof.Machine.execVmerge c w s
  | .vload c w e => Sys2Proof.Machine.execVload c w e s
  | .vrqst c w => Sys2Proof.Machine.execVrqst c w s
  | .vst c w => Sys2Proof.Machine.execVst c w s
  | .vmovx c w => Sys2Proof.Machine.execVmovx c w s
  | .dma c w e => Sys2Proof.Machine.execDma c w e s
  | .fill c w => Sys2Proof.Machine.execFill c w s
  | .copy c w => Sys2Proof.Machine.execCopy c w s
  | .dmaCopy c ch e => Sys2Proof.Machine.execDmaCopy c ch e s
  | .movingLayout c ch e => Sys2Proof.Machine.execMovingLayout c ch e s
  | .stationaryLayout c ch e => Sys2Proof.Machine.execStationaryLayout c ch e s
  | .dmaGather c ch e => Sys2Proof.Machine.execDmaGather c ch e s
  | .remote c ch e => Sys2Proof.Machine.execRemote c ch e s
  | .attention c ch e => Sys2Proof.Machine.execAttention c ch e s
  | .candidates c ch e => Sys2Proof.Machine.execCandidates c ch e s
  | .dmaConfirmation c ch => Sys2Proof.Machine.execDmaConfirmation c ch s
  | .remapProposal t => Sys2Proof.Machine.execRemapProposal t s
  | .stackLineRead st off rq e => Sys2Proof.Machine.execStackLineRead st off rq e s
  | .stackLineWrite st off data rq e => Sys2Proof.Machine.execStackLineWrite st off data rq e s
  | .scrub st off e => Sys2Proof.Machine.execScrub st off e s
  | .fcFill st cmd fromJormir => Sys2Proof.Machine.execFcFill st cmd fromJormir s
  | .fcCopy st cmd fromJormir => Sys2Proof.Machine.execFcCopy st cmd fromJormir s
  | .move st cmd fromJormir => Sys2Proof.Machine.execMove st cmd fromJormir s
  | .fcGather st cmd fromJormir => Sys2Proof.Machine.execFcGather st cmd fromJormir s
  | .verifyZero st cmd fromJormir => Sys2Proof.Machine.execVerifyZero st cmd fromJormir s
  | .fcCommandCompletion st seq e => Sys2Proof.Machine.execFcCommandCompletion st seq e s
  | .stkMoveStalled st seq => Sys2Proof.Machine.execStkMoveStalled st seq s
  | .moveAbandon st seq => Sys2Proof.Machine.execMoveAbandon st seq s
  | .dieIdleEnter st die requestSameCycle => Sys2Proof.Machine.execDieIdleEnter st die requestSameCycle s
  | .dieSelfRefreshReached st die => Sys2Proof.Machine.execDieSelfRefreshReached st die s
  | .dieWakeComplete st die => Sys2Proof.Machine.execDieWakeComplete st die s
  | .dieRestoreComplete st die => Sys2Proof.Machine.execDieRestoreComplete st die s
  | .attentionSlice st e => Sys2Proof.Machine.execAttentionSlice st e s
  | .attentionRowComplete st row => Sys2Proof.Machine.execAttentionRowComplete st row s
  | .candidateListMerge idx => Sys2Proof.Machine.execCandidateListMerge idx s
  | .visit stream head ns => Sys2Proof.Machine.execVisit stream head ns s
  | .ringCheck stream head => Sys2Proof.Machine.execRingCheck stream head s
  | .hallRingStart p purpose stream positions => Sys2Proof.Machine.execHallRingStart p purpose stream positions s
  | .doorbellPoll q word => Sys2Proof.Machine.execDoorbellPoll q word s
  | .descriptorFetch q d aux head => Sys2Proof.Machine.execDescriptorFetch q d aux head s
  | .submitNop q d aux => Sys2Proof.Machine.execSubmitNop q d aux s
  | .launch q d aux => Sys2Proof.Machine.execLaunch q d aux s
  | .loadGraph q d aux => Sys2Proof.Machine.execLoadGraph q d aux s
  | .loadGraphComplete id r => Sys2Proof.Machine.execLoadGraphComplete id r s
  | .unloadGraph q d aux => Sys2Proof.Machine.execUnloadGraph q d aux s
  | .patch q d aux => Sys2Proof.Machine.execPatch q d aux s
  | .submitCopy q d aux => Sys2Proof.Machine.execSubmitCopy q d aux s
  | .alloc q d aux frames => Sys2Proof.Machine.execAlloc q d aux frames s
  | .mapHost q d aux => Sys2Proof.Machine.execMapHost q d aux s
  | .free q d aux => Sys2Proof.Machine.execFree q d aux s
  | .fenceCreate q d aux => Sys2Proof.Machine.execFenceCreate q d aux s
  | .streamOpen q d aux => Sys2Proof.Machine.execStreamOpen q d aux s
  | .streamCancel q d aux => Sys2Proof.Machine.execStreamCancel q d aux s
  | .reloadComplete p graph r => Sys2Proof.Machine.execReloadComplete p graph r s
  | .contextFence p h => Sys2Proof.Machine.execContextFence p h s
  | .contextDrainComplete p h => Sys2Proof.Machine.execContextDrainComplete p h s
  | .contextClearComplete p h => Sys2Proof.Machine.execContextClearComplete p h s
  | .engineFault unit => Sys2Proof.Machine.execEngineFault unit s
  | .engineResetComplete unit => Sys2Proof.Machine.execEngineResetComplete unit s
  | .engineResetTimeout unit => Sys2Proof.Machine.execEngineResetTimeout unit s
  | .landing3Request p => Sys2Proof.Machine.execLanding3Request p s
  | .landing4 => Sys2Proof.Machine.execLanding4 s
  | .landingBoundExpiry id => Sys2Proof.Machine.execLandingBoundExpiry id s
  | .galleryClearComplete g readsZero => Sys2Proof.Machine.execGalleryClearComplete g readsZero s
  | .firmwareWatchdog => Sys2Proof.Machine.execFirmwareWatchdog s
  | .firmwareRemeasure image => Sys2Proof.Machine.execFirmwareRemeasure image s
  | .knownAnswerTest passes => Sys2Proof.Machine.execKnownAnswerTest passes s
  | .onlPortEnable n => Sys2Proof.Machine.execOnlPortEnable n s
  | .portTrainingComplete n r => Sys2Proof.Machine.execPortTrainingComplete n r s
  | .onlRetrain n => Sys2Proof.Machine.execOnlRetrain n s
  | .fecLockLoss n lane => Sys2Proof.Machine.execFecLockLoss n lane s
  | .onlPortDisable n => Sys2Proof.Machine.execOnlPortDisable n s
  | .linkNak n ackSeq => Sys2Proof.Machine.execLinkNak n ackSeq s
  | .replayTimeout n => Sys2Proof.Machine.execReplayTimeout n s
  | .segmentTag n segment tagOk => Sys2Proof.Machine.execSegmentTag n segment tagOk s
  | .segmentIdleClose n => Sys2Proof.Machine.execSegmentIdleClose n s
  | .write n hdr data => Sys2Proof.Machine.execWrite n hdr data s
  | .writeAck n hdr => Sys2Proof.Machine.execWriteAck n hdr s
  | .messageResend dst msgSeq => Sys2Proof.Machine.execMessageResend dst msgSeq s
  | .heartbeat n hdr => Sys2Proof.Machine.execHeartbeat n hdr s
  | .heartbeatTimer => Sys2Proof.Machine.execHeartbeatTimer s
  | .heartbeatAck n hdr => Sys2Proof.Machine.execHeartbeatAck n hdr s
  | .mirrorData n hdr data => Sys2Proof.Machine.execMirrorData n hdr data s
  | .mirrorSeal n hdr sealHdr trailer => Sys2Proof.Machine.execMirrorSeal n hdr sealHdr trailer s
  | .mirrorAck n hdr => Sys2Proof.Machine.execMirrorAck n hdr s
  | .shadowSyncComplete sync => Sys2Proof.Machine.execShadowSyncComplete sync s
  | .leaseExpiry => Sys2Proof.Machine.execLeaseExpiry s
  | .claimWatchdog => Sys2Proof.Machine.execClaimWatchdog s
  | .graceExpiry p => Sys2Proof.Machine.execGraceExpiry p s
  | .pairClaimInChange level => Sys2Proof.Machine.execPairClaimInChange level s
  | .mirPromoted p => Sys2Proof.Machine.execMirPromoted p s
  | .mirDisable value => Sys2Proof.Machine.execMirDisable value s
  | .tamperResponse sensors supplyAllows => Sys2Proof.Machine.execTamperResponse sensors supplyAllows s
  | .zeroise value => Sys2Proof.Machine.execZeroise value s
  | .guardedWrite r off value => Sys2Proof.Machine.execGuardedWrite r off value s
  | .attestationRequest fn nonce => Sys2Proof.Machine.execAttestationRequest fn nonce s
  | .unlockNonceRequest => Sys2Proof.Machine.execUnlockNonceRequest s
  | .unlockRequest token => Sys2Proof.Machine.execUnlockRequest token s
  | .unlockExpiry => Sys2Proof.Machine.execUnlockExpiry s
  | .spdmSession q => Sys2Proof.Machine.execSpdmSession q s
  | .ideKm fn keySet => Sys2Proof.Machine.execIdeKm fn keySet s
  | .kSetGo fn keySet => Sys2Proof.Machine.execKSetGo fn keySet s
  | .lockInterface p => Sys2Proof.Machine.execLockInterface p s
  | .startInterface p => Sys2Proof.Machine.execStartInterface p s
  | .stopInterface p => Sys2Proof.Machine.execStopInterface p s
  | .resultDigestComplete seq => Sys2Proof.Machine.execResultDigestComplete seq s
  | .pldmRequest sensor => Sys2Proof.Machine.execPldmRequest sensor s
  | .pldmFirmwareUpdate component version image sig => Sys2Proof.Machine.execPldmFirmwareUpdate component version image sig s
  | .firmwareActivate component => Sys2Proof.Machine.execFirmwareActivate component s
  | .functionLevelResetVf p => Sys2Proof.Machine.execFunctionLevelResetVf p s
  | .functionLevelResetPf => Sys2Proof.Machine.execFunctionLevelResetPf s
  | .d3hotEntry fn => Sys2Proof.Machine.execD3hotEntry fn s
  | .pcieLinkTrained flit width speed => Sys2Proof.Machine.execPcieLinkTrained flit width speed s
  | .registerWrite r off bytes value => Sys2Proof.Machine.execRegisterWrite r off bytes value s
  | .halfRegisterRead r off => Sys2Proof.Machine.execHalfRegisterRead r off s
  | .wakePeakRead st => Sys2Proof.Machine.execWakePeakRead st s
  | .partitionCreate p => Sys2Proof.Machine.execPartitionCreate p s
  | .partitionDestroy p => Sys2Proof.Machine.execPartitionDestroy p s
  | .ctxCreate p value => Sys2Proof.Machine.execCtxCreate p value s
  | .ctxDestroy p value => Sys2Proof.Machine.execCtxDestroy p value s
  | .engineEnClear e => Sys2Proof.Machine.execEngineEnClear e s
  | .feDisable value => Sys2Proof.Machine.execFeDisable value s
  | .undervoltage => Sys2Proof.Machine.execUndervoltage s
  | .overvoltage => Sys2Proof.Machine.execOvervoltage s
  | .railFault rail => Sys2Proof.Machine.execRailFault rail s
  | .thermalFault => Sys2Proof.Machine.execThermalFault s
  | .inRush => Sys2Proof.Machine.execInRush s
  | .faultRestart => Sys2Proof.Machine.execFaultRestart s
  | .faultLatchRelease => Sys2Proof.Machine.execFaultLatchRelease s
  | .powerUp => Sys2Proof.Machine.execPowerUp s
  | .boot o => Sys2Proof.Machine.execBoot o s
  | .powerDown => Sys2Proof.Machine.execPowerDown s
  | .pwrCycleN => Sys2Proof.Machine.execPwrCycleN s
  | .moduleResetNAssert => Sys2Proof.Machine.execModuleResetNAssert s
  | .moduleResetNRelease => Sys2Proof.Machine.execModuleResetNRelease s
  | .pciePerstN => Sys2Proof.Machine.execPciePerstN s
  | .idleHoldEntry => Sys2Proof.Machine.execIdleHoldEntry s
  | .watchReq => Sys2Proof.Machine.execWatchReq s
  | .watchEntryComplete => Sys2Proof.Machine.execWatchEntryComplete s
  | .watchSample m => Sys2Proof.Machine.execWatchSample m s
  | .wake management => Sys2Proof.Machine.execWake management s
  | .watchExitComplete => Sys2Proof.Machine.execWatchExitComplete s
  | .sample unit mask => Sys2Proof.Machine.execSample unit mask s
  | .reset unit mask => Sys2Proof.Machine.execReset unit mask s
  | .sampleReset unit mask => Sys2Proof.Machine.execSampleReset unit mask s
  | .ringSelect value => Sys2Proof.Machine.execRingSelect value s
  | .eventRecordAccept unit heads => Sys2Proof.Machine.execEventRecordAccept unit heads s
  | .eventRingRoom ring head => Sys2Proof.Machine.execEventRingRoom ring head s
  | .traceRecord unit tr room => Sys2Proof.Machine.execTraceRecord unit tr room s
  | .apertureAccess off isWrite value => Sys2Proof.Machine.execApertureAccess off isWrite value s
  | .errorInject value => Sys2Proof.Machine.execErrorInject value s
  | .extest => Sys2Proof.Machine.execExtest s
  | .samplePreload pins => Sys2Proof.Machine.execSamplePreload pins s
  | .idcode => Sys2Proof.Machine.execIdcode s
  | .clamp => Sys2Proof.Machine.execClamp s
  | .highz => Sys2Proof.Machine.execHighz s
  | .extestPulse => Sys2Proof.Machine.execExtestPulse s
  | .extestTrain => Sys2Proof.Machine.execExtestTrain s
  | .bypass => Sys2Proof.Machine.execBypass s
  | .tapReset => Sys2Proof.Machine.execTapReset s
  | .flit n hdr crcOk => Sys2Proof.Machine.execFlit n hdr crcOk s
  | .pcieReadCompletion tag data => Sys2Proof.Machine.execPcieReadCompletion tag data s
  | .alwaysOnDomainStart straps => Sys2Proof.Machine.execAlwaysOnDomainStart straps s
  | .alwaysOnDomainReset => Sys2Proof.Machine.execAlwaysOnDomainReset s
  | .entropyHealthTest passes => Sys2Proof.Machine.execEntropyHealthTest passes s
  | .jormirSelfCheck passes => Sys2Proof.Machine.execJormirSelfCheck passes s
  | .tdiError p => Sys2Proof.Machine.execTdiError p s
  | .vfEnable n => Sys2Proof.Machine.execVfEnable n s

end Sys2Proof.Machine
end

