-- ==== Sys2Proof/Safety.lean ====
section
/-! DEFINITION. The terms in which the claims about the block are stated: the invariant of every run, when a core's instruction has its own
effect, and what a command leaves unchanged. -/

namespace Sys2Proof.Machine

/-- The invariant of the block: stack memory and host memory are in canonical form. -/
def State.Inv (s : State) : Prop := Memory.wf s.mem ∧ Memory.wf s.host

/-- The control core of c takes its instruction and lets it have its own effect (R164 to R172): the word at the pc is this one, the pc lies in
the image of the flight's region, no reserved bit is set, no scalar register that the instruction names awaits a load, and where its issue waited for
one, no earlier read holds it (R231). -/
def State.Ready (s : State) (c op : Nat) (w : BitVec 56) : Prop :=
  s.issueDue c op w = true ∧ (s.core c).region.base ≤ (s.core c).pc ∧
  (s.core c).pc < (s.core c).region.base + (s.core c).region.count ∧ (s.core c).word.toNat / 2 ^ 56 = op ∧ reservedOk op w = true ∧
  (∀ n ∈ scalarsOf op w, n = 0 ∨ n ∉ (s.core c).notReady) ∧ ((s.core c).waitKind = 6 → s.acquireWaits c = false)

/-- The instruction at index `pc` of core c has issued (R164, R169, R178): execution continues after index `last`, at the loop stack's choice;
CONTROL rises by 1 and no wait is shown. -/
def State.retire (s : State) (c pc last : Nat) : State :=
  let k := s.core c
  let n := loopStep last k.loops
  s.setCore c (k.issued pc n.1 n.2)

/-- Core c puts `k` for itself and continues in sequence. -/
def State.done (s : State) (c : Nat) (k : CoreSt) : State := (s.setCore c k).retire c (s.core c).pc k.pc

/-- Core c puts lanes in vector register n, its vector unit is done, and it continues in sequence (R178, R182). -/
def State.vecOut (s : State) (c n : Nat) (v : List Lane) : State :=
  ((s.setCore c ((s.core c).setV n v)).vecDone c).retire c (s.core c).pc (s.core c).pc

/-- The front end takes descriptor d of queue q, whose code is `op`, from its row (R310, R311): `ds` is the descriptor with what is read with it,
and `u` the state with it fetched, counted and its records outstanding. -/
def State.Fetched (s u : State) (op q : Nat) (d : BitVec 512) (aux : FetchAux) (frames : List (Nat × Nat)) (ds : DescSt) : Prop :=
  ∃ v : State, v = s.refreshHead q d aux.head ∧ v.takes op q d = true ∧
    (u, ds) = (if (v.queue q).fetch % 2 ^ 32 = (v.queue q).tail
      then v.setQueue q { v.queue q with tail := ((v.queue q).fetch + 1) % 2 ^ 32 } else v).takeIn q d aux frames

/-- The admission of a descriptor finds no failed dependence and its checks pass (R312, R324, R327): `u` is the state with it counted admitted. -/
def State.Admits (s u : State) (q : Nat) (ds : DescSt) : Prop :=
  u = s.setQueue q { s.queue q with admitted := (s.queue q).admitted + 1 } ∧ u.depFaulted q ds = false ∧ (u.check q ds).1 = 0

/-- The commands that may write stack memory or host memory: what closes or opens a tick, a register write that enables the tick generator among
them (R50), what a context's end or a landing publishes, clears or reports, accesses of their own, a flit behind which a WRITE waits in its port's
buffer (R407), what lets an interface out of LOCKED (R473), and what restarts the module. Every other command leaves both memories. -/
def mayStore : Instr → Bool
  | .nominalClose _ => true
  | .tickDrained _ => true
  | .limitPoint => true
  | .progressSample => true
  | .tickGenEnable _ _ => true
  | .tickSyncInEdge _ _ => true
  | .barrierCompensatedStart _ => true
  | .barrierTimeout _ => true
  | .resumeModule _ => true
  | .hardStopComplete _ _ => true
  | .dmaCopy _ _ _ => true
  | .movingLayout _ _ _ => true
  | .stationaryLayout _ _ _ => true
  | .dmaGather _ _ _ => true
  | .stackLineRead _ _ _ _ => true
  | .stackLineWrite _ _ _ _ _ => true
  | .fcCommandCompletion _ _ _ => true
  | .dieWakeComplete _ _ => true
  | .dieRestoreComplete _ _ => true
  | .attentionRowComplete _ _ => true
  | .visit _ _ _ => true
  | .engineFault _ => true
  | .engineResetTimeout _ => true
  | .landing3Request _ => true
  | .landing4 => true
  | .landingBoundExpiry _ => true
  | .firmwareWatchdog => true
  | .firmwareRemeasure _ => true
  | .write _ _ _ => true
  | .flit _ _ _ => true
  | .leaseExpiry => true
  | .mirPromoted _ => true
  | .startInterface _ => true
  | .stopInterface _ => true
  | .resultDigestComplete _ => true
  | .firmwareActivate _ => true
  | .functionLevelResetVf _ => true
  | .functionLevelResetPf => true
  | .d3hotEntry _ => true
  | .pcieLinkTrained _ _ _ => true
  | .undervoltage => true
  | .overvoltage => true
  | .railFault _ => true
  | .thermalFault => true
  | .inRush => true
  | .faultRestart => true
  | .powerUp => true
  | .boot _ => true
  | .powerDown => true
  | .pwrCycleN => true
  | .moduleResetNAssert => true
  | .pciePerstN => true
  | .watchSample _ => true
  | .watchExitComplete => true
  | .eventRecordAccept _ _ => true
  | .eventRingRoom _ _ => true
  | .registerWrite _ _ _ _ => true
  | .guardedWrite _ _ _ => true
  | .apertureAccess _ _ _ => true
  | .pcieReadCompletion _ _ => true
  | .alwaysOnDomainStart _ => true
  | .alwaysOnDomainReset => true
  | .tdiError _ => true
  | _ => false

end Sys2Proof.Machine
end

