-- ==== Sys2Proof/WellFormed.lean ====
section
/-! DEFINITION. Well-formed commands: what the operands of a row obey by the row's own encoding. The machine does not rely on it: a command
that is not well formed leaves the state, or is taken by the row that it belongs to. -/

namespace Sys2Proof

/-- Bits lo to lo + n − 1 of a number hold a value. -/
def fieldIs (x lo n v : Nat) : Bool := x / 2 ^ lo % 2 ^ n = v

/-- Bytes of one stack: 72 GiB (R246). -/
def stackBytes : Nat := 0x1200000000

/-- Bytes of BAR0: 64 MiB (R469). -/
def bar0Bytes : Nat := 0x4000000

/-- Bytes of BAR2: 16 MiB (R469). -/
def bar2Bytes : Nat := 0x1000000

/-- The scope is a context. -/
def StopScope.isContext : StopScope → Bool
  | .module => false
  | .part _ => false
  | .context _ _ => true

/-- A row that lies in its bank: 128 banks of 384 rows a scratchpad, 2,048 banks of 36,864 rows a stack (R203, R246). -/
def RemapTarget.wf : RemapTarget → Bool
  | .scratch _ bank row => bank < 128 && row < 384
  | .stack _ bank row => bank < 2048 && row < 36864

/-- The operands of a command obey its row: a written value selects the row's own operation (R16, R50, R486, R485), a descriptor or a fill
and copy command carries the row's code (R256, R314), a message its kind and its length (R405), a flit its payload (R400), a training eight lanes (R396), an access its size and alignment (R476), a
number its range. -/
def Instr.wf : Instr → Bool
  | .nominalClose _ => true
  | .tickDrained _ => true
  | .tickOpen => true
  | .limitPoint => true
  | .progressSample => true
  | .tickGenEnable v _ => fieldIs v.toNat 0 1 1
  | .tickGenDisable v => fieldIs v.toNat 0 1 0
  | .tickSyncInEdge _ _ => true
  | .barrierArrive _ hdr => fieldIs hdr.toNat 0 8 3
  | .barrierRelease m => fieldIs m.2.toNat 0 8 4
  | .barrierCompensatedStart _ => true
  | .barrierTimeout _ => true
  | .softStopModule => true
  | .softStopPartition _ => true
  | .softStopContext _ _ => true
  | .hardStopModule => true
  | .hardStopPartition _ => true
  | .resumeModule _ => true
  | .resumePartition _ => true
  | .resumeContext _ _ => true
  | .stopRequestInternal _ hard scope => !hard || !scope.isContext
  | .hardStopComplete scope _ => !scope.isContext
  | .backgroundOpComplete _ _ _ => true
  | .flightEntry _ => true
  | .wtickResume _ => true
  | .flightEnd _ => true
  | .nop _ _ => true
  | .endFlight _ _ => true
  | .wtick _ _ => true
  | .movi _ _ => true
  | .movhi _ _ => true
  | .salu _ _ => true
  | .movs _ _ => true
  | .br _ _ => true
  | .loop _ _ => true
  | .waitc _ _ => true
  | .clrc _ _ => true
  | .qsync _ _ => true
  | .ldp _ _ => true
  | .lds _ _ _ => true
  | .sts _ _ => true
  | .fence _ _ => true
  | .fenceReleaseDone _ _ => true
  | .signal _ _ => true
  | .signalDelivery _ => true
  | .sload _ _ _ => true
  | .pass _ _ _ _ => true
  | .drain _ _ _ => true
  | .valu _ _ => true
  | .vint _ _ => true
  | .vcvt _ _ => true
  | .vfunc _ _ => true
  | .vred _ _ => true
  | .vmerge _ _ => true
  | .vload _ _ _ => true
  | .vrqst _ _ => true
  | .vst _ _ => true
  | .vmovx _ _ => true
  | .dma _ _ _ => true
  | .fill _ _ => true
  | .copy _ _ => true
  | .dmaCopy _ _ _ => true
  | .movingLayout _ _ _ => true
  | .stationaryLayout _ _ _ => true
  | .dmaGather _ _ _ => true
  | .remote _ _ _ => true
  | .attention _ _ _ => true
  | .candidates _ _ _ => true
  | .dmaConfirmation _ _ => true
  | .remapProposal t => t.wf
  | .stackLineRead _ off _ _ => off < stackBytes
  | .stackLineWrite _ off data _ _ => 1 ≤ data.length && (off + data.length - 1) / 64 = off / 64 && off + data.length ≤ stackBytes
  | .scrub _ off _ => off < stackBytes
  | .fcFill _ cmd _ => fieldIs cmd.toNat 0 4 0
  | .fcCopy _ cmd _ => fieldIs cmd.toNat 0 4 1
  | .move _ cmd _ => fieldIs cmd.toNat 0 4 2
  | .fcGather _ cmd _ => fieldIs cmd.toNat 0 4 3
  | .verifyZero _ cmd _ => fieldIs cmd.toNat 0 4 4
  | .fcCommandCompletion _ _ _ => true
  | .stkMoveStalled _ _ => true
  | .moveAbandon _ _ => true
  | .dieIdleEnter _ _ _ => true
  | .dieSelfRefreshReached _ _ => true
  | .dieWakeComplete _ _ => true
  | .dieRestoreComplete _ _ => true
  | .attentionSlice _ _ => true
  | .attentionRowComplete _ _ => true
  | .candidateListMerge _ => true
  | .visit _ _ _ => true
  | .ringCheck _ _ => true
  | .hallRingStart _ _ _ positions => positions ≤ 1048576
  | .doorbellPoll _ _ => true
  | .descriptorFetch _ _ _ _ => true
  | .submitNop _ d _ => fieldIs d.toNat 0 8 0
  | .launch _ d _ => fieldIs d.toNat 0 8 1
  | .loadGraph _ d _ => fieldIs d.toNat 0 8 2
  | .loadGraphComplete _ _ => true
  | .unloadGraph _ d _ => fieldIs d.toNat 0 8 3
  | .patch _ d _ => fieldIs d.toNat 0 8 4
  | .submitCopy _ d _ => fieldIs d.toNat 0 8 5
  | .alloc _ d _ _ => fieldIs d.toNat 0 8 6
  | .mapHost _ d _ => fieldIs d.toNat 0 8 7
  | .free _ d _ => fieldIs d.toNat 0 8 8
  | .fenceCreate _ d _ => fieldIs d.toNat 0 8 9
  | .streamOpen _ d _ => fieldIs d.toNat 0 8 10
  | .streamCancel _ d _ => fieldIs d.toNat 0 8 11
  | .reloadComplete _ _ _ => true
  | .contextFence _ _ => true
  | .contextDrainComplete _ _ => true
  | .contextClearComplete _ _ => true
  | .engineFault u => u.toNat < 226
  | .engineResetComplete u => u.toNat < 226
  | .engineResetTimeout u => u.toNat < 226
  | .landing3Request _ => true
  | .landing4 => true
  | .landingBoundExpiry _ => true
  | .galleryClearComplete _ _ => true
  | .firmwareWatchdog => true
  | .firmwareRemeasure _ => true
  | .knownAnswerTest _ => true
  | .onlPortEnable _ => true
  | .portTrainingComplete _ r => r.lanes.length = 8
  | .onlRetrain _ => true
  | .fecLockLoss _ _ => true
  | .onlPortDisable _ => true
  | .linkNak _ _ => true
  | .replayTimeout _ => true
  | .segmentTag _ _ _ => true
  | .segmentIdleClose _ => true
  | .write _ hdr data => fieldIs hdr.toNat 0 8 1 && data.val.length ≤ 4096 && data.val.length = hdr.toNat / 2 ^ 160 % 2 ^ 13
  | .writeAck _ hdr => fieldIs hdr.toNat 0 8 2
  | .messageResend _ _ => true
  | .heartbeat _ hdr => fieldIs hdr.toNat 0 8 5
  | .heartbeatTimer => true
  | .heartbeatAck _ hdr => fieldIs hdr.toNat 0 8 6
  | .mirrorData _ hdr data => fieldIs hdr.toNat 0 8 7 && data.length ≤ 4096 && data.length = hdr.toNat / 2 ^ 160 % 2 ^ 13
  | .mirrorSeal _ hdr _ _ => fieldIs hdr.toNat 0 8 8
  | .mirrorAck _ hdr => fieldIs hdr.toNat 0 8 9
  | .shadowSyncComplete _ => true
  | .leaseExpiry => true
  | .claimWatchdog => true
  | .graceExpiry _ => true
  | .pairClaimInChange _ => true
  | .mirPromoted _ => true
  | .mirDisable v => fieldIs v.toNat 0 1 0
  | .tamperResponse sensors _ => sensors ≠ 0
  | .zeroise _ => true
  | .guardedWrite _ off _ => off < bar0Bytes && off % 8 = 0
  | .attestationRequest _ _ => true
  | .unlockNonceRequest => true
  | .unlockRequest _ => true
  | .unlockExpiry => true
  | .spdmSession _ => true
  | .ideKm _ _ => true
  | .kSetGo _ _ => true
  | .lockInterface _ => true
  | .startInterface _ => true
  | .stopInterface _ => true
  | .resultDigestComplete _ => true
  | .pldmRequest _ => true
  | .pldmFirmwareUpdate component _ _ _ => 1 ≤ component.toNat && component.toNat ≤ 3
  | .firmwareActivate _ => true
  | .functionLevelResetVf _ => true
  | .functionLevelResetPf => true
  | .d3hotEntry _ => true
  | .pcieLinkTrained _ width speed => width.toNat ∈ [1, 2, 4, 8, 16] && 1 ≤ speed.toNat && speed.toNat ≤ 6
  | .registerWrite _ off bytes _ => off < bar0Bytes && 1 ≤ bytes && bytes ≤ 8
  | .halfRegisterRead _ off => off < bar0Bytes && off % 4 = 0
  | .wakePeakRead _ => true
  | .partitionCreate _ => true
  | .partitionDestroy _ => true
  | .ctxCreate _ v => !fieldIs v.toNat 0 2 2
  | .ctxDestroy _ v => fieldIs v.toNat 0 2 2
  | .engineEnClear _ => true
  | .feDisable v => fieldIs v.toNat 0 1 0
  | .undervoltage => true
  | .overvoltage => true
  | .railFault rail => 1 ≤ rail.toNat && rail.toNat ≤ 10
  | .thermalFault => true
  | .inRush => true
  | .faultRestart => true
  | .faultLatchRelease => true
  | .powerUp => true
  | .boot _ => true
  | .powerDown => true
  | .pwrCycleN => true
  | .moduleResetNAssert => true
  | .moduleResetNRelease => true
  | .pciePerstN => true
  | .idleHoldEntry => true
  | .watchReq => true
  | .watchEntryComplete => true
  | .watchSample _ => true
  | .wake _ => true
  | .watchExitComplete => true
  | .sample _ _ => true
  | .reset _ _ => true
  | .sampleReset _ _ => true
  | .ringSelect _ => true
  | .eventRecordAccept _ _ => true
  | .eventRingRoom _ _ => true
  | .traceRecord _ _ _ => true
  | .apertureAccess off _ _ => off < bar2Bytes && off % 8 = 0
  | .errorInject _ => true
  | .extest => true
  | .samplePreload _ => true
  | .idcode => true
  | .clamp => true
  | .highz => true
  | .extestPulse => true
  | .extestTrain => true
  | .bypass => true
  | .tapReset => true
  | .flit _ _ body => body.payload.length = 244
  | .pcieReadCompletion _ data => 1 ≤ data.val.length
  | .alwaysOnDomainStart _ => true
  | .alwaysOnDomainReset => true
  | .entropyHealthTest _ => true
  | .jormirSelfCheck _ => true
  | .tdiError _ => true
  | .vfEnable _ => true

end Sys2Proof
end

