-- ==== Sys2Proof/Certificates/Slice0/Obligations.lean ====
section
/-! DEFINITION. The statements about the block. -/

open Sys2Proof Sys2Proof.Machine

/-- NOP, MOVI, MOVHI and MOVS complete (R164, R168): the destination alone is written, and issue goes on in sequence. MOVS of register 9
gives the cycles since the open, a free value (log entry 4), and 0 in deterministic mode. SALU completes in both of its forms (R168): xd
becomes the operation's result on xa and xb, or on xa and the sign-extended immediate. -/
def Obligations.ScalarInstructionsWriteTheirDestination : Prop :=
  (∀ (s : State) (c : CoreId) (w : BitVec 56),
      (s.Ready c 0x00 w → exec (.nop c w) s = .next (s.retire c (s.core c).pc (s.core c).pc)) ∧
      (s.Ready c 0x03 w →
        exec (.movi c w) s = .next (s.done c ((s.core c).setX (fieldOf w 55 51) ((BitVec.ofNat 48 (fieldOf w 47 0)).signExtend 64)))) ∧
      (s.Ready c 0x04 w →
        exec (.movhi c w) s =
          .next (s.done c ((s.core c).setX (fieldOf w 55 51) (putBits ((s.core c).xr (fieldOf w 55 51)) 63 48 (fieldOf w 15 0))))) ∧
      (s.Ready c 0x06 w → ∀ v, fieldOf w 7 0 ≠ 9 → s.special (s.core c) (fieldOf w 7 0) = some v →
        exec (.movs c w) s = .next (s.done c ((s.core c).setX (fieldOf w 55 51) (BitVec.ofNat 64 v)))) ∧
      (s.Ready c 0x06 w → fieldOf w 7 0 = 9 →
        exec (.movs c w) s = .next (s.cycleReg.2.done c ((s.core c).setX (fieldOf w 55 51) s.cycleReg.1)))) ∧
  (∀ (s : State) (c : CoreId) (w : BitVec 56) (v : Word), s.Ready c 0x05 w →
      (fieldOf w 36 36 = 1 → fieldOf w 45 41 = 0 →
        saluOp (fieldOf w 40 37) ((s.core c).xr (fieldOf w 50 46)) ((BitVec.ofNat 32 (fieldOf w 31 0)).signExtend 64) = some v →
        exec (.salu c w) s = .next (s.done c ((s.core c).setX (fieldOf w 55 51) v))) ∧
      (fieldOf w 36 36 = 0 → fieldOf w 31 0 = 0 →
        saluOp (fieldOf w 40 37) ((s.core c).xr (fieldOf w 50 46)) ((s.core c).xr (fieldOf w 45 41)) = some v →
        exec (.salu c w) s = .next (s.done c ((s.core c).setX (fieldOf w 55 51) v))))

/-- BR completes (R168, R169): with a target inside the image, and inside every body that it stands in but not at its first instruction, a
condition that holds moves the pc to its target, and one that does not hold goes on in sequence; a target outside the image is an illegal
instruction either way (log entry 11). LOOP completes: xa at 0 skips the body, and any other xa enters it. END and WTICK complete outside
every body (R169, R176, R177): issue ends for the flight, or waits for the next tick that admits work. Inside a body both are illegal: the
core halts and the context is contained with status 0x23 (R165). -/
def Obligations.ControlFlowGoesWhereItSays : Prop :=
  (∀ (s : State) (c : CoreId) (w : BitVec 56),
      (s.Ready c 0x07 w → ∀ t : Int, ((s.core c).pc : Int) + (BitVec.ofNat 24 (fieldOf w 23 0)).toInt = t →
        ((s.core c).region.base ≤ t → t < (s.core c).region.base + (s.core c).region.count →
          (∀ b, innermost ((s.core c).bodies (s.core c).pc) = some b → b.1 ≤ t ∧ t ≤ b.2) →
          (∀ b ∈ (s.core c).bodies (s.core c).pc, (b.1 : Int) ≠ t) →
          (brCond (fieldOf w 45 43) ((s.core c).xr (fieldOf w 55 51)) ((s.core c).xr (fieldOf w 50 46)) = some true →
            exec (.br c w) s = .next (s.setCore c ((s.core c).issued (s.core c).pc t.toNat (s.core c).loops))) ∧
          (brCond (fieldOf w 45 43) ((s.core c).xr (fieldOf w 55 51)) ((s.core c).xr (fieldOf w 50 46)) = some false →
            exec (.br c w) s = .next (s.retire c (s.core c).pc (s.core c).pc))) ∧
        (t < (s.core c).region.base ∨ (s.core c).region.base + (s.core c).region.count ≤ t →
          exec (.br c w) s = .next (s.issueFault c 0x03 0x23 (s.core c).word.toNat))) ∧
      (s.Ready c 0x08 w → fieldOf w 12 0 ≠ 0 → (s.core c).pc + fieldOf w 12 0 < (s.core c).region.base + (s.core c).region.count →
        (s.core c).loops.length < 4 → (∀ b ∈ (s.core c).bodies (s.core c).pc, (s.core c).pc + fieldOf w 12 0 ≤ b.2) →
        ((s.core c).xr (fieldOf w 55 51) = 0 →
          exec (.loop c w) s = .next (s.retire c (s.core c).pc ((s.core c).pc + fieldOf w 12 0))) ∧
        ((s.core c).xr (fieldOf w 55 51) ≠ 0 →
          exec (.loop c w) s = .next (s.done c { s.core c with
            loops := { first := (s.core c).pc + 1, last := (s.core c).pc + fieldOf w 12 0, left := ((s.core c).xr (fieldOf w 55 51)).toNat } ::
              (s.core c).loops })))) ∧
  (∀ (s : State) (c : CoreId) (w : BitVec 56),
      (s.Ready c 0x01 w → (s.core c).bodies (s.core c).pc = [] →
        exec (.endFlight c w) s = .next (s.done c { s.core c with phase := .ended })) ∧
      (s.Ready c 0x01 w → (s.core c).bodies (s.core c).pc ≠ [] →
        exec (.endFlight c w) s = .next (s.issueFault c 0x03 0x23 (s.core c).word.toNat)) ∧
      (s.Ready c 0x02 w → (s.core c).bodies (s.core c).pc = [] →
        exec (.wtick c w) s = .next (s.done c { s.core c with phase := .atWtick, resumeTick := s.tickNo.toNat + 1 })) ∧
      (s.Ready c 0x02 w → (s.core c).bodies (s.core c).pc ≠ [] →
        exec (.wtick c w) s = .next (s.issueFault c 0x03 0x23 (s.core c).word.toNat)))

/-- WAITC and QSYNC complete once what they wait for has come and no earlier read is out, and wait, the pc unmoved, until then; CLRC clears its
count (R173, R231). FENCE completes in each of its three forms, and waits while what it orders is out; FENCE_RELEASE_DONE lets what waited
behind a release run, and SIGNAL_DELIVERY adds its increment, unless its epoch is stale (R174, R175, R228 to R231, R366). -/
def Obligations.WaitsFencesAndSignalsComplete : Prop :=
  (∀ (s : State) (c : CoreId) (w : BitVec 56),
      (s.Ready c 0x09 w →
        (((s.core c).xr (fieldOf w 55 51)).toNat ≤ ((s.core c).cntr (fieldOf w 50 47)).toNat → s.acquireWaits c = false →
          exec (.waitc c w) s = .next (s.retire c (s.core c).pc (s.core c).pc)) ∧
        (((s.core c).cntr (fieldOf w 50 47)).toNat < ((s.core c).xr (fieldOf w 55 51)).toNat ∨ s.acquireWaits c = true →
          exec (.waitc c w) s = .next (s.setCore c { s.core c with waitKind := 2 }))) ∧
      (s.Ready c 0x0A w →
        exec (.clrc c w) s = .next (s.done c { s.core c with cnt := SMap.set 0 (s.core c).cnt (fieldOf w 50 47) 0 })) ∧
      (s.Ready c 0x0B w →
        ((bit (fieldOf w 3 0) 3 = true → (s.core c).ctrlq = []) → (bit (fieldOf w 3 0) 2 = true → (s.core c).ents = []) →
          s.acquireWaits c = false → exec (.qsync c w) s = .next (s.retire c (s.core c).pc (s.core c).pc)) ∧
        ((bit (fieldOf w 3 0) 3 = true ∧ (s.core c).ctrlq ≠ []) ∨ (bit (fieldOf w 3 0) 2 = true ∧ (s.core c).ents ≠ []) ∨
            s.acquireWaits c = true →
          exec (.qsync c w) s = .next (s.setCore c { s.core c with waitKind := 5 })))) ∧
  (∀ (s : State) (c : CoreId) (w : BitVec 56),
      (s.Ready c 0x13 w → fieldOf w 55 54 < 3 →
        (fieldOf w 53 52 = 1 → (s.core c).ctrlq.length < 16 →
          exec (.fence c w) s = .next (s.done c { s.core c with
            ctrlq := (s.core c).ctrlq ++ [.fence (fieldOf w 55 54) (s.core c).stamp], stamp := (s.core c).stamp + 1 })) ∧
        (fieldOf w 53 52 = 2 → s.acquireWaits c = false →
          exec (.fence c w) s = .next (s.retire c (s.core c).pc (s.core c).pc)) ∧
        (fieldOf w 53 52 = 2 → s.acquireWaits c = true →
          exec (.fence c w) s = .next (s.setCore c { s.core c with waitKind := 1 })) ∧
        (fieldOf w 53 52 = 3 → (s.core c).ctrlq = [] → s.releaseWaits c (fieldOf w 55 54) (s.core c).stamp = false →
          s.acquireWaits c = false → exec (.fence c w) s = .next (s.retire c (s.core c).pc (s.core c).pc)) ∧
        (fieldOf w 53 52 = 3 → ((s.core c).ctrlq ≠ [] ∨ s.releaseWaits c (fieldOf w 55 54) (s.core c).stamp = true ∨ s.acquireWaits c = true) →
          exec (.fence c w) s = .next (s.setCore c { s.core c with waitKind := 1 }))) ∧
      (∀ scope stamp t e, (s.core c).ctrlq = .fence scope stamp :: t → s.releaseWaits c scope stamp = false →
        s.frozen (s.core c).part = false → s.epochOk (s.core c).part (s.core c).ctx (s.core c).epoch = true →
        exec (.fenceReleaseDone c e) s = .next (s.drainCtrl c (wordEcc e) t)) ∧
      (∀ i g, s.signals[i]? = some g → s.epochOk g.part g.ctx g.epoch = true →
        exec (.signalDelivery i) s =
          .next (({ s with signals := s.signals.eraseIdx i } : State).setCore g.core ((s.core g.core).addCnt g.cnt g.inc))) ∧
      (∀ i g, s.signals[i]? = some g → s.epochOk g.part g.ctx g.epoch = false →
        exec (.signalDelivery i) s = .next (({ s with signals := s.signals.eraseIdx i } : State).staleDrop 1)))

/-- LDP, LDS, STS and SIGNAL complete at once when nothing is ahead of them in the control queue (R170, R171, R174): the word of the
parameter block or of the scratchpad reaches xd, whatever correctable error the read meets, the word of xs reaches the scratchpad, the
increment sets out. Behind others, while the
queue holds fewer than 16, they join it and issue goes on; with 16 in it they wait (R170). -/
def Obligations.ControlQueueAccessesComplete : Prop :=
  ∀ (s : State) (c : CoreId) (w : BitVec 56), ∃ queued : CtrlOp → State, (∀ o, queued o = s.done c { s.core c with
      ctrlq := (s.core c).ctrlq ++ [o] }) ∧
    (∀ f a, s.Ready c 0x10 w → s.flight (s.core c).flight = some f →
      a = ((s.core c).xr (fieldOf w 50 46) + BitVec.ofNat 64 (fieldOf w 19 0)).toNat → a % 8 = 0 → a + 8 ≤ 8 * f.params.length →
      ((s.core c).ctrlq = [] → exec (.ldp c w) s = .next (((s.setCore c { s.core c with pcache := cacheLine (s.core c).pcache a }).runCtrl c
        (.param (fieldOf w 55 51) (f.params.getD (a / 8) 0))).retire c (s.core c).pc (s.core c).pc)) ∧
      (∀ v : State, v = s.setCore c { s.core c with pcache := cacheLine (s.core c).pcache a } → (s.core c).ctrlq ≠ [] →
        ((s.core c).ctrlq.length < 16 → exec (.ldp c w) s = .next ((v.setCore c { v.core c with
          ctrlq := (s.core c).ctrlq ++ [.param (fieldOf w 55 51) (f.params.getD (a / 8) 0)] }).retire c (s.core c).pc (s.core c).pc)) ∧
        (16 ≤ (s.core c).ctrlq.length → exec (.ldp c w) s = .next (s.setCore c { s.core c with waitKind := 4 })))) ∧
    (∀ a e, s.Ready c 0x11 w → a = ((s.core c).xr (fieldOf w 50 46) + BitVec.ofNat 64 (fieldOf w 22 0)).toNat → a % 8 = 0 →
      s.inRegion c a 8 = true →
      (∀ u, (s.core c).ctrlq = [] → s.scrEcc c ((s.core c).region.off + a) 8 (wordEcc e) = (u, false) → (u.core c).ctrlq = [] →
        exec (.lds c w e) s = .next ((u.setCore c ((u.core c).setX (fieldOf w 55 51)
          (BitVec.ofNat 64 (leNat ((u.core c).scrRead ((s.core c).region.off + a) 8))))).retire c (s.core c).pc (u.core c).pc)) ∧
      ((s.core c).ctrlq ≠ [] → (s.core c).ctrlq.length < 16 →
        exec (.lds c w e) s = .next (queued (.load (fieldOf w 55 51) ((s.core c).region.off + a)))) ∧
      (16 ≤ (s.core c).ctrlq.length → exec (.lds c w e) s = .next (s.setCore c { s.core c with waitKind := 4 }))) ∧
    (∀ a, s.Ready c 0x12 w →
      a = ((s.core c).xr (fieldOf w 50 46) + BitVec.ofNat 64 (fieldOf w 22 0)).toNat → a % 8 = 0 → s.inRegion c a 8 = true →
      ((s.core c).ctrlq = [] → exec (.sts c w) s = .next (s.done c ((s.core c).scrWrite ((s.core c).region.off + a)
        (leBytes 8 ((s.core c).xr (fieldOf w 55 51)).toNat)))) ∧
      ((s.core c).ctrlq ≠ [] → (s.core c).ctrlq.length < 16 →
        exec (.sts c w) s = .next (queued (.store ((s.core c).region.off + a) ((s.core c).xr (fieldOf w 55 51))))) ∧
      (16 ≤ (s.core c).ctrlq.length → exec (.sts c w) s = .next (s.setCore c { s.core c with waitKind := 4 }))) ∧
    (∀ r, s.Ready c 0x14 w → fieldOf w 15 0 ≠ 0 → (s.core c).slotTab[((s.core c).xr (fieldOf w 55 51)).toNat]? = some r →
      ((s.core c).ctrlq = [] → exec (.signal c w) s = .next (({ s with signals := s.signals ++
        [{ core := r.core, cnt := fieldOf w 50 47, inc := fieldOf w 15 0, part := (s.core c).part, ctx := (s.core c).ctx,
           epoch := (s.core c).epoch }] } : State).retire c (s.core c).pc (s.core c).pc)) ∧
      ((s.core c).ctrlq ≠ [] → (s.core c).ctrlq.length < 16 →
        exec (.signal c w) s = .next (queued (.signal r.core (fieldOf w 50 47) (fieldOf w 15 0)))) ∧
      (16 ≤ (s.core c).ctrlq.length → exec (.signal c w) s = .next (s.setCore c { s.core c with waitKind := 4 })))

/-- SLOAD, PASS and DRAIN complete where nothing refuses them and no uncorrectable error is met (R142, R179 to R181, R202): the stationary
tile, the accumulator tile or the drained rows are what the rules give, and the array's or the vector unit's progress rises. Here u and v are
the states that the reads of the description and of the data leave, with any corrected error counted. -/
def Obligations.ArrayInstructionsComplete : Prop :=
  ∀ (s u v : State) (c : CoreId) (w : BitVec 56) (e : PhysErr) (te : TileErr),
    (∀ t f mov acc r a n, s.Ready c 0x20 w → s.tdesc c ((s.core c).xr (fieldOf w 50 46)).toNat (wordEcc e) = .ok (u, t, f) →
      Fmt.ofCode (fieldOf w 45 42) = some mov → AccFmt.ofCode (fieldOf w 41 40) = some acc → pairRate f mov acc = some r →
      fieldOf w 39 31 + 1 ≤ 128 * r → a = ((s.core c).xr (fieldOf w 55 51)).toNat → a % 512 = 0 →
      n = (stationaryBytes f r t.zpMode).1 + (stationaryBytes f r t.zpMode).2 → u.inRegion c a n = true →
      u.scrEcc c ((s.core c).region.off + a) n (wordEcc e) = (v, false) →
      exec (.sload c w e) s = .next (((v.setCore c { v.core c with
        stat := some ((v.core c).readStat ((s.core c).region.off + a) f mov acc r (fieldOf w 39 31 + 1) (fieldOf w 30 24 + 1) t.zpMode t.zp),
        arrayP := ((v.core c).arrayP + 1) % 2 ^ 64 }).perf c 0x04 1).retire c (s.core c).pc (v.core c).pc)) ∧
    (∀ t f st acc a m tile en sn v2 v3, s.Ready c 0x21 w →
      s.tdesc c ((s.core c).xr (fieldOf w 50 46)).toNat (wordEcc e) = .ok (u, t, f) → (s.core c).stat = some st →
      AccFmt.ofCode (fieldOf w 32 31) = some acc → a = ((s.core c).xr (fieldOf w 55 51)).toNat → m = fieldOf w 40 34 + 1 →
      tile = fieldOf w 45 41 → f = st.mov → acc = st.acc → tileLegal acc tile = true → a % 512 = 0 →
      (fieldOf w 33 33 = 1 ∨ (s.core c).tileOpen acc tile = true) →
      en = (if f = .f32 then 512 * m
        else 512 * ((m + 127 + (groupsPerWord f.width st.rate).1 - 1) / (groupsPerWord f.width st.rate).1)) → u.inRegion c a en = true →
      sn = (if t.zpMode = 2 then 16 * m else 16 * (m + 128 - cellRows st.rate)) →
      (hasScales f t.zpMode = true → t.scaleOff % 16 = 0 ∧ u.inRegion c t.scaleOff sn = true) →
      u.scrReads c (movWords ((s.core c).region.off + a) f st.rate st.kw m ++
        movSides ((s.core c).region.off + t.scaleOff) f t.zpMode st.rate st.kw m) (wordEcc e) = (v2, false) →
      v2.tileErr c tile (if fieldOf w 33 33 = 1 then [] else tileHalves acc tile) te = (v3, false) →
      exec (.pass c w e te) s = .next ((((v3.setCore c
        { ((v3.core c).passRows t f st acc tile m a (fieldOf w 33 33 = 1)).1 with
          arrayP := ((v3.core c).arrayP + m) % 2 ^ 64 }).countDots c
        ((v3.core c).passRows t f st acc tile m a (fieldOf w 33 33 = 1)).2).perf c 0x02 m).retire c (s.core c).pc (v3.core c).pc)) ∧
    (∀ f tile half out, s.Ready c 0x30 w → tile = fieldOf w 55 51 → half = decide (fieldOf w 35 35 = 1) →
      (s.core c).drainTile tile half (fieldOf w 28 28 = 1) = some f →
      fieldOf w 50 44 + (fieldOf w 43 37 + 1) ≤ (if half then 64 else 128) →
      (fieldOf w 34 34 = 0 → out = none) →
      (fieldOf w 34 34 = 1 → ∃ a, a = ((s.core c).xr (fieldOf w 33 29)).toNat ∧ a % 4 = 0 ∧
        s.inRegion c a ((fieldOf w 43 37 + 1) * (if f = .bf16 then 256 else 512)) = true ∧ out = some ((v.core c).region.off + a)) →
      s.tileErr c (if half then tile / 2 else tile) (if half then [tile] else tileHalves f tile) te = (v, false) →
      exec (.drain c w te) s = .next (((v.setCore c ((v.core c).drainTo f tile half (fieldOf w 50 44) (fieldOf w 43 37 + 1)
        (fieldOf w 33 29) out (fieldOf w 36 36 = 1))).vecDone c).retire c (s.core c).pc (v.core c).pc))

/-- A vector instruction puts its result in a register and ends: its destination register alone is written. VRED, VMERGE and the three forms
of VMOVX complete (R148 to R150, R182). -/
def Obligations.LaneInstructionsComplete : Prop :=
  (∀ (s : State) (c : CoreId) (w : BitVec 56),
      (s.Ready c 0x31 w → fieldOf w 35 30 ≤ 11 →
        unusedZero w (fieldOf w 35 30 ≠ 6 && fieldOf w 35 30 ≠ 7) (fieldOf w 35 30 = 3 || fieldOf w 35 30 = 11) false = true →
        exec (.valu c w) s = .next (s.vecOut c (fieldOf w 55 51) (lanes3 (valuLane (fieldOf w 35 30)) ((s.core c).vr (fieldOf w 50 46))
          ((s.core c).operandB w) ((s.core c).vr (fieldOf w 40 36))))) ∧
      (s.Ready c 0x32 w → fieldOf w 35 30 ≤ 11 → unusedZero w true (fieldOf w 35 30 = 11) false = true →
        exec (.vint c w) s = .next (s.vecOut c (fieldOf w 55 51) (lanes3 (vintLane (fieldOf w 35 30)) ((s.core c).vr (fieldOf w 50 46))
          ((s.core c).operandB w) ((s.core c).vr (fieldOf w 40 36))))) ∧
      (∀ f cs, s.Ready c 0x33 w → Fmt.ofCode (fieldOf w 28 25) = some f → (f = .f32 ∨ f = .i32 ∨ f = .bf16 ∨ f = .f16) →
        fieldOf w 35 30 ≤ 3 → fieldOf w 24 23 ≤ 1 → unusedZero w false false true = true →
        cs = ((s.core c).vr (fieldOf w 50 46)).map (fun a =>
          f.encode (if fieldOf w 24 23 = 0 then .rne else .rtz) (fieldOf w 22 22 = 1) 0 (vcvtSource (fieldOf w 35 30) a)) →
        exec (.vcvt c w) s =
          .next ((s.perf c 0x0E (cs.countP Conv.inv)).vecOut c (fieldOf w 55 51) (cs.map fun x => BitVec.ofNat 32 x.code))) ∧
      (s.Ready c 0x34 w → fieldOf w 35 30 ≤ 4 → unusedZero w false false false = true →
        exec (.vfunc c w) s =
          .next (s.vecOut c (fieldOf w 55 51) (((s.core c).vr (fieldOf w 50 46)).map (vfuncLane (fieldOf w 35 30)))))) ∧
  (∀ (s : State) (c : CoreId) (w : BitVec 56),
      (s.Ready c 0x35 w → unusedZero w false false false = true →
        (fieldOf w 35 30 = 0 → exec (.vred c w) s =
          .next (s.vecOut c (fieldOf w 55 51) (laneSum ((s.core c).vr (fieldOf w 50 46)) :: List.replicate 127 0))) ∧
        (fieldOf w 35 30 = 1 → exec (.vred c w) s =
          .next (s.vecOut c (fieldOf w 55 51) ((laneMax ((s.core c).vr (fieldOf w 50 46))).1 ::
            BitVec.ofNat 32 (laneMax ((s.core c).vr (fieldOf w 50 46))).2 :: List.replicate 126 0)))) ∧
      (s.Ready c 0x36 w → fieldOf w 35 30 = 0 →
        exec (.vmerge c w) s = .next (s.vecOut c (fieldOf w 55 51) (vMerge ((s.core c).vr (fieldOf w 50 46)) ((s.core c).vr (fieldOf w 45 41))
          (((s.core c).xr (fieldOf w 40 36)).toNat % 2 ^ 32)))) ∧
      (s.Ready c 0x3A w →
        (fieldOf w 35 30 = 0 → exec (.vmovx c w) s =
          .next (s.vecOut c (fieldOf w 55 51) (List.replicate 128 (((s.core c).xr (fieldOf w 50 46)).setWidth 32)))) ∧
        (fieldOf w 35 30 = 1 → exec (.vmovx c w) s =
          .next (((s.setCore c ((s.core c).setX (fieldOf w 55 51)
            ((((s.core c).vr (fieldOf w 50 46)).getD (fieldOf w 22 16) 0).setWidth 64))).vecDone c).retire c (s.core c).pc (s.core c).pc)) ∧
        (fieldOf w 35 30 = 2 → exec (.vmovx c w) s =
          .next (s.vecOut c (fieldOf w 55 51) (((s.core c).vr (fieldOf w 55 51)).set (fieldOf w 22 16)
            (((s.core c).xr (fieldOf w 50 46)).setWidth 32))))))

/-- VLOAD, VST and VRQST complete where nothing refuses them and no uncorrectable error is met (R184 to R186, R202): 128 elements reach a
register, the 512 bytes of a register reach the scratchpad unchanged, and the requantised codes reach it with the counts and the tracker. DMA,
FILL and COPY complete by queuing their instruction on its channel (R188, R189, R550): where nothing refuses it, no store waits in the control
queue and the channel holds fewer than eight. What then stands at the front of the channel and is a FILL or COPY runs (R213). With a store
waiting, or eight in the channel, they wait. -/
def Obligations.VectorMemoryAndChannelInstructionsComplete : Prop :=
  (∀ (s u v : State) (c : CoreId) (w : BitVec 56) (e : PhysErr),
      (∀ t f a xc n, s.Ready c 0x37 w → s.tdesc c ((s.core c).xr (fieldOf w 45 41)).toNat (wordEcc e) = .ok (u, t, f) →
        a = ((s.core c).xr (fieldOf w 50 46)).toNat → xc = ((s.core c).xr (fieldOf w 40 36)).toNat → a % 4 = 0 →
        n = elemBytes f.width 128 → u.firstOutside c ((a, n) :: t.sideRanges f xc 128 false) = none →
        u.scrReads c (((s.core c).region.off + a, n) ::
          (t.sideRanges f xc 128 false).map fun r => ((s.core c).region.off + r.1, r.2)) (wordEcc e) = (v, false) →
        exec (.vload c w e) s = .next (((v.setCore c ((v.core c).setV (fieldOf w 55 51) ((List.range 128).map ((s.core c).loadElem t f
          (leNat ((s.core c).scrRead ((s.core c).region.off + a) n)) xc)))).vecDone c).retire c (s.core c).pc (v.core c).pc)) ∧
      (∀ a, s.Ready c 0x39 w → a = ((s.core c).xr (fieldOf w 50 46)).toNat → a % 4 = 0 → s.inRegion c a 512 = true →
        exec (.vst c w) s = .next (((s.setCore c ((s.core c).scrWrite ((s.core c).region.off + a)
          (((s.core c).vr (fieldOf w 55 51)).map fun l => leBytes 4 l.toNat).flatten)).vecDone c).retire c (s.core c).pc (s.core c).pc)) ∧
      (∀ t f r a xc n, s.Ready c 0x38 w → s.tdesc c ((s.core c).xr (fieldOf w 45 41)).toNat (wordEcc e) = .ok (u, t, f) →
        a = ((s.core c).xr (fieldOf w 50 46)).toNat → xc = ((s.core c).xr (fieldOf w 35 31)).toNat → n = fieldOf w 30 24 + 1 →
        a % 4 = 0 → f.isStore = true → (f.blockScaled = false ∨ t.scaleMode ≠ 1) →
        u.firstOutside c ((a, elemBytes f.width n) :: t.sideRanges f xc n true) = none →
        u.scrReads c (if f.blockScaled then [] else
          (t.sideRanges f xc n true).map fun r => ((s.core c).region.off + r.1, r.2)) (wordEcc e) = (v, false) →
        r = (v.core c).requantise w t f (v.scaleOf (v.core c) t) (v.seedOf (v.core c)) →
        exec (.vrqst c ⟨w, e⟩) s = .next (((((v.setCore c r.1).perf c 0x0D r.2.1).perf c 0x0E r.2.2).vecDone c).retire c (s.core c).pc
          (v.core c).pc))) ∧
  (∀ (s u : State) (c : CoreId) (w : BitVec 56) (e : PhysErr) (a n : Nat) (store : Bool), a = ((s.core c).xr (fieldOf w 55 51)).toNat →
      store = (s.core c).ctrlq.any (fun o => match o with
        | .store _ _ => true
        | _ => false) → a % 64 = 0 →
      (s.Ready c 0x40 w → s.inRegion c a 64 = true →
        (∀ d, store = false → ((s.core c).chan (fieldOf w 50 48)).length < 8 →
          s.scrEcc c ((s.core c).region.off + a) 64 (wordEcc e) = (u, false) →
          d = BitVec.ofNat 512 (leNat ((s.core c).scrRead ((s.core c).region.off + a) 64)) → descOk d = true →
          ¬(dKind d = 0 ∧ copyOverlaps d ((s.core c).slotRegion (dSrcSpace d) (dSrc d)) ((s.core c).slotRegion (dDstSpace d) (dDst d)) = true) →
          ¬((dKind d = 1 ∨ dKind d = 2) ∧ layoutDst d c (s.core c).region ((s.core c).slotRegion (dDstSpace d) (dDst d)) = false) →
          exec (.dma c w e) s = .next ((u.setCore c { (u.core c).setChan (fieldOf w 50 48) ((u.core c).chan (fieldOf w 50 48) ++
            [(u.core c).newEnt (.desc d ((s.core c).slotRegion (dSrcSpace d) (dSrc d)) ((s.core c).slotRegion (dDstSpace d) (dDst d)))
              (dCe d) (dCount d)]) with stamp := (u.core c).stamp + 1 }).retire c (s.core c).pc (u.core c).pc)) ∧
        (store = true → exec (.dma c w e) s = .next (s.setCore c { s.core c with waitKind := 7 })) ∧
        (store = false → 8 ≤ ((s.core c).chan (fieldOf w 50 48)).length →
          exec (.dma c w e) s = .next (s.setCore c { s.core c with waitKind := 4 }))) ∧
      (s.Ready c 0x41 w → n = ((s.core c).xr (fieldOf w 50 46)).toNat → fillCountOk n = true → s.inRegion c a n = true →
        (store = false → ((s.core c).chan (fieldOf w 40 38)).length < 8 →
          exec (.fill c w) s = .next (((s.setCore c { (s.core c).setChan (fieldOf w 40 38) ((s.core c).chan (fieldOf w 40 38) ++
            [(s.core c).newEnt (.fill ((s.core c).region.off + a) n (((s.core c).xr (fieldOf w 45 41)).setWidth 32)) (fieldOf w 33 33 = 1)
              (fieldOf w 37 34)]) with stamp := (s.core c).stamp + 1 }).settleChan c (fieldOf w 40 38)).retire c (s.core c).pc (s.core c).pc)) ∧
        (store = true → exec (.fill c w) s = .next (s.setCore c { s.core c with waitKind := 7 })) ∧
        (store = false → 8 ≤ ((s.core c).chan (fieldOf w 40 38)).length →
          exec (.fill c w) s = .next (s.setCore c { s.core c with waitKind := 4 }))) ∧
      (∀ b, s.Ready c 0x42 w → b = ((s.core c).xr (fieldOf w 50 46)).toNat → n = ((s.core c).xr (fieldOf w 45 41)).toNat →
        fillCountOk n = true → b % 64 = 0 → overlap (a, a + n) (b, b + n) = false → s.inRegion c a n = true → s.inRegion c b n = true →
        (store = false → ((s.core c).chan (fieldOf w 40 38)).length < 8 →
          exec (.copy c ⟨w, e⟩) s = .next (((s.setCore c { (s.core c).setChan (fieldOf w 40 38) ((s.core c).chan (fieldOf w 40 38) ++
            [(s.core c).newEnt (.copy ((s.core c).region.off + a) ((s.core c).region.off + b) n (wordEcc e)) (fieldOf w 33 33 = 1)
              (fieldOf w 37 34)]) with stamp := (s.core c).stamp + 1 }).settleChan c (fieldOf w 40 38)).retire c (s.core c).pc (s.core c).pc)) ∧
        (store = true → exec (.copy c ⟨w, e⟩) s = .next (s.setCore c { s.core c with waitKind := 7 })) ∧
        (store = false → 8 ≤ ((s.core c).chan (fieldOf w 40 38)).length →
          exec (.copy c ⟨w, e⟩) s = .next (s.setCore c { s.core c with waitKind := 4 }))))

/-- A COPY, layout or GATHER descriptor completes (R190 to R192, R202, R212 to R217): a channel that may take it, whose windows hold every byte
range and whose rows meet no error, moves its rows, and it stands executed in its channel; what follows it there and is a FILL or COPY runs.
One whose byte range a window check refuses moves no byte and is contained with status 0x24; a GATHER that overlaps itself is illegal; a row
that fails ends it unconfirmed, and a full wake buffer has it wait. REMOTE completes: its rows become WRITE messages, and it stands executed
until they are acknowledged (R190, R192, R406). -/
def Obligations.DescriptorsAreCarriedOut : Prop :=
  (∀ (s r : State) (x : Acc) (c : CoreId) (ch : ChanId) (ecc : PhysErr) (i kind : Nat) (e : DmaEnt) (d : BitVec 512) (src dst : Option Region)
      (cmd : Instr),
      (kind, cmd) ∈ [(0, .dmaCopy c ch ecc), (1, .movingLayout c ch ecc), (2, .stationaryLayout c ch ecc), (3, .dmaGather c ch ecc)] →
      s.taken c ch kind = some (i, e, d, src, dst) →
      (s.windowFails e d src dst = none → (kind = 3 → s.gatherOverlaps d src dst = false) →
        s.copyRows c ch kind i e d src dst (s.devEcc ecc) = (r, x) →
        (x = .ok → exec cmd s = .next ((r.updEnt c ch i fun y => { y with phase := .executed }).settleChan c ch)) ∧
        (x ≠ .ok → (∀ st, x ≠ .wait st) → exec cmd s = .next (r.dmaFailed c ch i e x)) ∧
        (∀ st, x = .wait st → exec cmd s = .next (s.waitsAt r st))) ∧
      (s.windowFails e d src dst = none → kind = 3 → s.gatherOverlaps d src dst = true → exec cmd s = .next (s.dmaIllegal c ch i e)) ∧
      (∀ a, s.windowFails e d src dst = some a → exec cmd s = .next (s.dmaWindow c ch i e a))) ∧
  (∀ (s r : State) (x : Acc) (c : CoreId) (ch : ChanId) (ecc : PhysErr) (i : Nat) (e : DmaEnt) (d : BitVec 512) (src dst : Option Region),
      s.taken c ch 4 = some (i, e, d, src, dst) →
      (s.remoteFails e d src = none → s.remoteRows c ch i e d src (s.devEcc ecc) (List.range (dRows d)) = (r, x) →
        (x = .ok → exec (.remote c ch ecc) s = .next ((r.updEnt c ch i fun y => { y with phase := .executed }).settleChan c ch)) ∧
        (x ≠ .ok → (∀ st, x ≠ .wait st) → exec (.remote c ch ecc) s = .next (r.dmaFailed c ch i e x)) ∧
        (∀ st, x = .wait st → exec (.remote c ch ecc) s = .next (s.waitsAt r st))) ∧
      (∀ a, s.remoteFails e d src = some a → exec (.remote c ch ecc) s = .next (s.dmaWindow c ch i e a)))

/-- A COPY descriptor of one row from one scratchpad to another, inside its region and its partition's windows and free of errors, leaves at
its destination the bytes that its source held, and changes no other byte of a scratchpad, of stack memory or of host memory (R190, R192, R216).
-/
def Obligations.CopyMovesExactlyItsBytes : Prop :=
  ∀ (s : State) (c a b : CoreId) (ch : ChanId) (i oa ob n : Nat) (e : DmaEnt) (d : BitVec 512) (src dst : Option Region),
    s.taken c ch 0 = some (i, e, d, src, dst) → s.windowFails e d src dst = none → dRows d = 1 → dRowBytes d = n →
    dKind d = 0 → s.dbg.inject = none → (s.core a).bad = [] → sideOf (dSrcSpace d) (dSrc d) src = .dev (scrAddr a oa) →
    sideOf (dDstSpace d) (dDst d) dst = .dev (scrAddr b ob) → oa + n ≤ 0x600000 → ob + n ≤ 0x600000 →
    ((s.core c).chan ch).length = i + 1 →
    ∃ t, exec (.dmaCopy c ch .ok) s = .next t ∧ t.mem = s.mem ∧ t.host = s.host ∧
      (∀ x, x < n → (t.core b).scrByte (ob + x) = (s.core a).scrByte (oa + x)) ∧
      (∀ (k : Nat) (x : Nat), (k ≠ b ∨ x < ob ∨ ob + n ≤ x) → (t.core k).scrByte x = (s.core k).scrByte x)

/-- ATTENTION and CANDIDATES complete (R279, R280, R286, R550): where every row of the table names a stream that the request may name and every
side lies in the partition's windows, the rows are sent and the instruction stands executed; up to a row with a reserved bit, the rows are
sent and the instruction is then illegal. DMA_CONFIRMATION and PCIE_READ_COMPLETION complete (R74, R151, R166, R213, R216, R235, R366). The
oldest executed instruction with nothing outstanding leaves its channel, DMA rises by 1, and with CE set its count register does. A row that
host memory has answered lands, or is sent on by a REMOTE descriptor unless its partition is stopped hard; of a stale epoch it is discarded
and counted. A read made while the interface was LOCKED has not gone out (R473; that it waits is the model's choice, log entry 170). -/
def Obligations.RequestsAndConfirmationsComplete : Prop :=
  (∀ (s u v : State) (c : CoreId) (ch : ChanId) (ecc : PhysErr) (i a : Nat) (e : DmaEnt) (d : BitVec 512) (src dst : Option Region)
      (good : List Nat), dRc d = false → s.dmaReach e (dTable d) (4 * dRows d) = true →
      s.devRead (dTable d) (4 * dRows d) e.part e.ctx (s.devEcc ecc) = (u, .ok) →
      (∀ b : Nat, s.taken c ch 5 = some (i, e, d, src, dst) →
        s.scratchSide e (dSrcSpace d) (dSrc d) (dSrcStride d) (dRows d) (fun _ => dRowBytes d) src true = .ok a →
        good = (List.range (dRows d)).takeWhile (fun r => u.rowEntry d r / 2 ^ 14 = 0) →
        (∀ r ∈ good, (u.attnGeom e d (bits (u.rowEntry d r) 13 0)).isSome) →
        u.scratchSide e (dDstSpace d) (dDst d) (dDstStride d) (dRows d) (u.rowOut e d) dst false = .ok b →
        u.sendRows c ch i e d a b (s.devEcc ecc) good = (v, .ok) →
        (good.length = dRows d → exec (.attention c ch ecc) s = .next ((v.updEnt c ch i fun x => { x with phase := .executed }).settleChan c ch)) ∧
        (good.length < dRows d → exec (.attention c ch ecc) s = .next (v.dmaIllegal c ch i e))) ∧
      (s.taken c ch 6 = some (i, e, d, src, dst) →
        s.scratchSide e (dSrcSpace d) (dSrc d) (dSrcStride d) (dRows d) (fun _ => 512) src true = .ok a →
        good = (List.range (dRows d)).takeWhile (fun r => bits (u.rowEntry d r) 15 14 = 0 ∧ bits (u.rowEntry d r) 31 22 = 0) →
        u.sendLists c ch i e d a (s.devEcc ecc) good = (v, .ok) →
        (good.length = dRows d → exec (.candidates c ch ecc) s = .next ((v.updEnt c ch i fun x => { x with phase := .executed }).settleChan c ch)) ∧
        (good.length < dRows d → exec (.candidates c ch ecc) s = .next (v.dmaIllegal c ch i e)))) ∧
  (∀ (s : State),
      (∀ (c : CoreId) (ch : ChanId) (e : DmaEnt) (l : List DmaEnt), (s.core c).chan ch = e :: l → e.phase = .executed → e.outstanding = 0 →
        s.epochOk e.part e.ctx e.epoch = true →
        exec (.dmaConfirmation c ch) s = .next ((s.setCore c (
          let k := { (s.core c).setChan ch l with dmaP := ((s.core c).dmaP + 1) % 2 ^ 64 }
          if e.ce then k.addCnt e.cnt 1 else k)).perf c 0x08 e.op.bytes)) ∧
      (∀ (tag : Nat) (data : List Byte) (ecc : PhysErr) (r : PcieRead), (s.reads.find? fun r => decide (r.tag = tag)) = some r →
        data.length = r.len → (r.shut = true → exec (.pcieReadCompletion tag ⟨data, ecc⟩) s = .next s) ∧ (r.shut = false →
        (s.epochOk r.part r.ctx r.epoch = false →
          exec (.pcieReadCompletion tag ⟨data, ecc⟩) s =
            .next (({ s with reads := s.reads.filter fun x => !decide (x.tag = tag) } : State).staleDrop 1)) ∧
        (∀ (i : Nat) (e : DmaEnt) (d : BitVec 512) (src dst : Option Region) (t u : State), s.epochOk r.part r.ctx r.epoch = true →
          ((s.core r.core).chan r.chan).findIdx? (fun x => decide (x.stamp = r.stamp)) = some i → ((s.core r.core).chan r.chan)[i]? = some e →
          e.op = .desc d src dst →
          t = ({ s with reads := s.reads.filter fun x => !decide (x.tag = tag) } : State).charge r.part r.ctx { pcieB := r.len } →
          (dKind d ≠ 4 → t.landRow e d dst r.row data (t.devEcc ecc) = (u, .ok) →
            exec (.pcieReadCompletion tag ⟨data, ecc⟩) s = .next ((u.updEnt r.core r.chan i fun x =>
              { x with outstanding := x.outstanding - 1, owed := x.owed - 1, conf := x.conf + r.len }).settleChan r.core r.chan)) ∧
          (dKind d = 4 → exec (.pcieReadCompletion tag ⟨data, ecc⟩) s = .next (((if t.frozen r.part then t
            else t.sendRow r.core r.chan i e d r.row data).updEnt r.core r.chan i fun x =>
              { x with outstanding := x.outstanding - 1, owed := x.owed - 1 }).settleChan r.core r.chan))))))

/-- STACK_LINE_READ completes on a line inside the partition's windows that the stack can read (R254, R267, R441): the line's 64 bytes are
returned and no byte of memory changes. STACK_LINE_WRITE completes on a die that accepts requests, awake or with room in the wake buffer, for
a whole line, and for part of one that meets no error (R254, R265, R266, R441): the bytes given stand at the address and every other byte of
stack memory, and host memory, is as before. Where an earlier request waits at the hall, either waits behind it, and reads and writes nothing
yet (R266). A request of a stale epoch is dropped and counted; one outside the windows is contained with 0x24. Neither reads or writes a
byte. -/
def Obligations.StackLinesAreReadAndWritten : Prop :=
  ∀ (s : State) (st : StackId) (off : Nat) (rq : Req) (e : PhysErr),
    ((s.stk st).hall = [] →
      (∀ a, a = stackAddr st (off / 64 * 64) → s.checkReq st (off / 64 * 64) 64 rq = .fine →
        (s.stkRead a 64 rq.part rq.ctx.toNat (s.lineEcc e)).2 = .ok →
        ∃ t, exec (.stackLineRead st off rq e) s = .next t ∧ t.mem = s.mem ∧ t.host = s.host ∧
          (t.stk st).lastLine = Memory.readN s.mem a 64) ∧
      (s.checkReq st (off / 64 * 64) 64 rq = .stale → exec (.stackLineRead st off rq e) s = .next (s.staleDrop 1)) ∧
      (s.checkReq st (off / 64 * 64) 64 rq = .window →
        exec (.stackLineRead st off rq e) s = .next (s.stkWindowFault st (off / 64 * 64) rq)) ∧
      (∀ data : List Byte,
        (s.checkReq st off data.length rq = .fine →
          ((s.stk st).die (dieOf (off / 64 * 64)) = 0 ∨
            ((s.stk st).die (dieOf (off / 64 * 64)) ≤ 3 ∧ (s.stk st).wake.length < 1024 ∧ (s.stk st).srHeld = none)) →
          (data.length = 64 ∨ (e = .ok ∧ s.dbg.inject = none ∧ SMap.get 0 (s.stk st).bad (off / 64) = 0)) →
          ∃ t, exec (.stackLineWrite st off data rq e) s = .next t ∧ t.host = s.host ∧
            Memory.readN t.mem (stackAddr st off) data.length = data ∧
            ∀ x, (x < stackAddr st off ∨ stackAddr st off + data.length ≤ x) → Memory.read t.mem x = Memory.read s.mem x) ∧
        (s.checkReq st off data.length rq = .stale → exec (.stackLineWrite st off data rq e) s = .next (s.staleDrop 1)) ∧
        (s.checkReq st off data.length rq = .window → exec (.stackLineWrite st off data rq e) s = .next (s.stkWindowFault st off rq)))) ∧
    ((s.stk st).hall ≠ [] → ∀ (d : Option (List Byte)) (cmd : Instr),
      (d, cmd) ∈ [(none, Instr.stackLineRead st off rq e), (some [], .stackLineWrite st off [] rq e)] ∨
        (∃ data, d = some data ∧ cmd = .stackLineWrite st off data rq e) →
      ∃ t, exec cmd s = .next t ∧ (t.stk st).hall = (s.stk st).hall ++ [{ off := off, data := d, rq := rq, e := s.lineEcc e }] ∧
        t.mem = s.mem ∧ t.host = s.host ∧ (t.stk st).lastLine = (s.stk st).lastLine)

/-- SCRUB completes on a line of an allocated frame on an awake die that no request waits for (R252, R255): a good line costs one read; a
corrected one is written back and counted; one that fails, or still fails, is counted, its row named for a remap where it is uncorrectable,
and the owning partition told. The dies sleep and wake (R264 to R268): an idle die whose bit of PWR_SR allows it enters ENTERING, unless a
request comes in the same cycle; ENTERING ends in SELF_REFRESH, or in WAKING where a request came; a woken die is ACTIVE with none of its own
requests buffered; a restored die reads zero throughout, every other byte as before, and is ACTIVE at the next boundary. -/
def Obligations.ScrubsAndDieStatesComplete : Prop :=
  (∀ (s u : State) (st : StackId) (off l : Nat) (e : PhysErr) (p : Nat) (k : StackSt), l = off / 64 * 64 → l < 0x1200000000 →
      (s.frame st (frameOf l)).st = .allocated → (s.stk st).die (dieOf l) = 0 → s.linePending st l = false → s.dbg.inject = none →
      p = (s.frame st (frameOf l)).part → u = s.perf (stkUnit st) 0x06 1 → k = u.stk st →
      (SMap.get 0 k.bad (l / 64) = 0 →
        (s.lineEcc e = .ok → exec (.scrub st off e) s = .next u) ∧
        (∀ a, s.lineEcc e = .corrected a → exec (.scrub st off e) s = .next ((u.lineCor st l).chargePart p { stackB := 64 }))) ∧
      (SMap.get 0 k.bad (l / 64) = 1 ∨ (∃ a, s.lineEcc e = .uncorrectable a) →
        exec (.scrub st off e) s = .next (((u.setStk st { k with
          eccUnc := bump 16 k.eccUnc, bad := SMap.set 0 k.bad (l / 64) 1,
          rowLog := if stackRow l ∈ k.rowLog then k.rowLog else k.rowLog ++ [stackRow l] }).emit (stkUnit st) 0x0A (stackRow l).1
            ((stackRow l).2 + (SMap.get {} k.rowErr (36864 * (stackRow l).1 + (stackRow l).2)).total * 2 ^ 32) (some p)).emit
              (stkUnit st) 0x10 0 l (some p))) ∧
      (SMap.get 0 k.bad (l / 64) ≠ 1 → (SMap.get 0 k.bad (l / 64) = 2 ∧ (∀ a, s.lineEcc e ≠ .uncorrectable a)) ∨ (∃ a, s.lineEcc e = .tagFail a) →
        exec (.scrub st off e) s = .next ((u.setStk st { k with
          tagFails := bump 16 k.tagFails, bad := SMap.set 0 k.bad (l / 64) 2 }).emit (stkUnit st) 0x10 0 l (some p)))) ∧
  (∀ (s : State) (st : StackId) (die : Fin 16) (k : StackSt), k = s.stk st →
      (k.die die = 0 → bit (s.reg (stkBase st + rStkPwrSr)).toNat die = true → SMap.get 0 k.outst die = 0 →
        exec (.dieIdleEnter st die false) s = .next (s.setStk st (k.setDie die 1)) ∧ exec (.dieIdleEnter st die true) s = .next s) ∧
      (k.die die = 1 → exec (.dieSelfRefreshReached st die) s =
        .next (s.setStk st (k.setDie die (if die.val ∈ k.wakeDue then 3 else 2)))) ∧
      (k.die die = 3 → k.hall = [] → exec (.dieWakeComplete st die) s = .next (s.setStk st { k.setDie die 0 with
        wake := k.wake.filter fun w => !decide (w.die = die.val),
        outst := SMap.upd 0 k.outst die (· - k.wake.countP fun w => decide (w.die = die.val)), wakeDue := k.wakeDue.erase die.val })) ∧
      (k.die die = 5 → die.val ∉ k.restoring → ∃ t, exec (.dieRestoreComplete st die) s = .next t ∧ t.host = s.host ∧
        (t.stk st).restoring = k.restoring ++ [die.val] ∧
        (∀ x, stackAddr st (die * dieBytes) ≤ x → x < stackAddr st (die * dieBytes) + dieBytes → Memory.read t.mem x = 0) ∧
        (∀ x, (x < stackAddr st (die * dieBytes) ∨ stackAddr st (die * dieBytes) + dieBytes ≤ x) →
          Memory.read t.mem x = Memory.read s.mem x)))

/-- A REMAP_PROPOSAL that no error log names changes nothing; one that a log names is accepted, and what its bank has spare decides (R203,
R262). A core's: with an unused spare row one entry is committed to it, and with none no entry is committed and the core is marked for
retirement. A stack's: with an unused spare row one entry is committed to it and its copy starts, and with none the frame that the row belongs
to is marked for retirement where it is ALLOCATED, and otherwise retired. The last spare of a bank raises an alarm. -/
def Obligations.RemapProposalsTakeASpareRowOrRetireTheCore : Prop :=
  (∀ (s : State) (c : CoreId) (bank row n : Nat) (k : CoreSt), k = s.core c → n = usedSpares (k.remap ++ k.remapPend) bank →
    ((bank, row) ∈ k.rowLog → 8 ≤ n →
      exec (.remapProposal (.scratch c bank row)) s =
        .next (s.setCore c { k with rowLog := k.rowLog.erase (bank, row), retireMark := true })) ∧
    (∀ u : State, (bank, row) ∈ k.rowLog → n < 8 →
      u = (s.setCore c { k with rowLog := k.rowLog.erase (bank, row), remapPend := k.remapPend ++ [{ bank := bank, row := row, spare := n }] }).commitRecord
        (fun x => { x with scrRemap := x.scrRemap ++ [(c.val, { bank := bank, row := row, spare := n })] }) →
      (n ≠ 7 → exec (.remapProposal (.scratch c bank row)) s = .next u) ∧
      (n = 7 → exec (.remapProposal (.scratch c bank row)) s = .next (u.alarm 7 242 c 0))) ∧
    ((bank, row) ∉ k.rowLog → exec (.remapProposal (.scratch c bank row)) s = .next s)) ∧
  (∀ (s : State) (st : StackId) (bank row n : Nat) (k k' : StackSt), k = s.stk st → k' = { k with rowLog := k.rowLog.erase (bank, row) } →
    n = usedSpares (k.remap ++ k.remapPend ++ k.remapCopied) bank →
    (∀ u : State, (bank, row) ∈ k.rowLog → n < 2 →
      u = ((s.setStk st { k' with remapPend := k.remapPend ++ [{ bank := bank, row := row, spare := n }] }).commitRecord
        (fun x => { x with stkRemap := x.stkRemap ++ [(st.val, { bank := bank, row := row, spare := n })] })).startBg
          (.remapCopy st { bank := bank, row := row, spare := n }) →
      (n = 0 → exec (.remapProposal (.stack st bank row)) s = .next u) ∧
      (n = 1 → exec (.remapProposal (.stack st bank row)) s = .next (u.alarm 7 242 (stkUnit st) 0))) ∧
    (∀ u : State, (bank, row) ∈ k.rowLog → 2 ≤ n → u = (s.setStk st k').emit (stkUnit st) 0x0D bank 0 →
      ((u.frame st (frameOfRow bank row)).st = .allocated → exec (.remapProposal (.stack st bank row)) s =
        .next (u.setFrame st (frameOfRow bank row) { u.frame st (frameOfRow bank row) with retireMark := true })) ∧
      ((u.frame st (frameOfRow bank row)).st ≠ .allocated →
        exec (.remapProposal (.stack st bank row)) s = .next (u.retireFrame st (frameOfRow bank row)))) ∧
    ((bank, row) ∉ k.rowLog → exec (.remapProposal (.stack st bank row)) s = .next s))

/-- A fill-and-copy command completes its submission (R256, R257, R444): with 64 commands queued it is not taken; outside the windows it is
answered REJECT_WINDOW; naming a frame that another command names, REJECT_OVERLAP, but for a VERIFY_ZERO behind the FILL that has completed
there; otherwise it is queued, with a request outstanding on each die that it names, and begins from a boundary on while fewer than 4 run (R57,
R265); a VERIFY_ZERO, which commits nothing itself, may begin at once (the model's choice, log entry 142). FC_COMMAND_COMPLETION, STK_MOVE_STALLED and MOVE_ABANDON complete (R251,
R258 to R260, R358): a command whose source fails is answered UNCORRECTABLE and leaves the engine; a COPY, GATHER, FILL or MOVE that meets no
error stands complete for the next boundary, its lines counted and its bytes charged; a VERIFY_ZERO is answered with the first line that is
not zero; a MOVE that has waited 16 boundaries is reported once; an abandoned one leaves the engine with its source unchanged. -/
def Obligations.FillAndCopyCommandsComplete : Prop :=
  (∀ (s : State) (st : StackId) (w : BitVec 256) (j : Bool) (cmd : Instr) (over_ : Bool),
      (cmd, fcKind w) ∈ [(Instr.fcFill st w j, 0), (.fcCopy st w j, 1), (.move st w j, 2), (.fcGather st w j, 3), (.verifyZero st w j, 4)] →
      over_ = ((List.range 16).any fun t => (s.stk t).fc.any fun x =>
        fcOverlap st w t x.cmd && !(fcKind w = 4 && fcKind x.cmd = 0 && x.phase = .complete)) →
      (64 ≤ ((s.stk st).fc.countP fun x => x.phase = .queued) → exec cmd s = .next s) ∧
      (((s.stk st).fc.countP fun x => x.phase = .queued) < 64 →
        (s.fcRejects st w j = true → exec cmd s = .next (s.setStk st { s.stk st with
          fcDone := (s.stk st).fcDone ++ [{ seq := fcSeq w, status := .rejectWindow, jormir := j }] })) ∧
        (s.fcRejects st w j = false → over_ = true →
          exec cmd s = .next (s.setStk st { s.stk st with
            fcDone := (s.stk st).fcDone ++ [{ seq := fcSeq w, status := .rejectOverlap, jormir := j }] })) ∧
        (s.fcRejects st w j = false → over_ = false → ∀ ds, ds = s.fcDies st w → ∃ t, exec cmd s = .next t ∧
          t = (ds.foldl (fun s d => s.dieWork true d) s).setFc st ((s.stk st).fc ++ [{ cmd := w, jormir := j, dies := ds }]) ∧
          (t.stk st).fc = fcPromote 0 ((s.stk st).fc ++ [{ cmd := w, jormir := j, dies := ds }]) ∧ t.mem = s.mem ∧ t.host = s.host))) ∧
  (∀ (s : State) (st : StackId) (seq : BitVec 32) (x : FcCmd),
      (((s.stk st).fc.find? fun y => decide (fcSeq y.cmd = seq.toNat) && y.phase = .active &&
          y.dies.all fun d => decide ((s.stk d.1).die (dieOf d.2) = 0)) = some x → fcKind x.cmd ≠ 0 →
        s.fcSourceBad st x.cmd = true →
        exec (.fcCommandCompletion st seq .ok) s = .next (((s.fcLeaves x).setFc st ((s.stk st).fc.filter fun y => !decide (y = x))).fcAnswer st
          { seq := seq.toNat, status := .uncorrectable, jormir := x.jormir })) ∧
      (∀ (n : Nat) (u v : State), ((s.stk st).fc.find? fun y => decide (fcSeq y.cmd = seq.toNat) && y.phase = .active &&
          y.dies.all fun d => decide ((s.stk d.1).die (dieOf d.2) = 0)) = some x →
        (fcKind x.cmd = 0 ∨ s.fcSourceBad st x.cmd = false) → n = 1024 * fcFrames x.cmd →
        u = (((s.fcLeaves x).setStk st { (s.fcLeaves x).stk st with fcLines := ((s.fcLeaves x).stk st).fcLines + n }).perf (stkUnit st) 0x05
          n).chargePart (fcPart x.cmd) { stackB := if fcKind x.cmd = 0 ∨ fcKind x.cmd = 4 then 64 * n else 128 * n } →
        v = (if fcKind x.cmd = 2 ∧ fcSrcStack x.cmd ≠ fcDstStack x.cmd then
          (u.perf (stkUnit (fcSrcStack x.cmd)) 0x02 n).perf (stkUnit (fcDstStack x.cmd)) 0x03 n else u) →
        (∀ w : State, fcKind x.cmd ≠ 4 →
          w = (if fcKind x.cmd = 0 then v.markFilled st (fcDst x.cmd) (fcFrames x.cmd)
            else if fcKind x.cmd = 2 then v.cleanSource x.cmd else v) →
          exec (.fcCommandCompletion st seq .ok) s = .next (w.setFc st ((w.stk st).fc.map fun y =>
            if y = x then { y with phase := .complete, image := v.fcImage st x.cmd } else y))) ∧
        (∀ l, fcKind x.cmd = 4 → l = v.firstNonZero st (fcDst x.cmd) (fcFrames x.cmd) →
          exec (.fcCommandCompletion st seq .ok) s = .next (((v.verified st (fcDst x.cmd) l (fcFrames x.cmd)).setFc st
            ((s.stk st).fc.filter fun y => !decide (y = x))).fcAnswer st
              { seq := seq.toNat, status := .ok, line := l, jormir := x.jormir }))) ∧
      (((s.stk st).fc.find? fun y => decide (fcSeq y.cmd = seq.toNat ∧ fcKind y.cmd = 2 ∧ 16 ≤ y.waited) && !y.stalled) = some x →
        exec (.stkMoveStalled st seq) s = .next ((s.setStk st { s.stk st with
          fc := (s.stk st).fc.map fun y => if y = x then { y with stalled := true } else y }).emit (stkUnit st) 0x0F seq.toNat x.waited
            (some (fcPart x.cmd)))) ∧
      (((s.stk st).fc.find? fun y => decide (fcSeq y.cmd = seq.toNat ∧ fcKind y.cmd = 2)) = some x →
        ∃ t, exec (.moveAbandon st seq) s = .next t ∧ t = s.fcAbandon st x ∧ t.mem = s.mem ∧ t.host = s.host ∧
          (t.stk st).fcDone = (s.stk st).fcDone ++ [{ seq := fcSeq x.cmd, status := .abandoned, jormir := x.jormir }] ∧
          (t.stk st).fc = fcPromote 0 ((s.stk st).fc.filter fun y => !decide (y = x))))

/-- ATTENTION_SLICE and ATTENTION_ROW_COMPLETE complete (R255, R266, R281 to R284, R276): the partition in turn has up to 16 blocks of its first
waiting row served, one slice charged and the turn moved on; a row of a stale epoch is discarded and counted; one whose line fails leaves the
engine, counted, and its instruction ends unconfirmed, as it does, with the fault of its window, where a page is not there; a full wake
buffer has it wait. A served row's output goes to its destination, its
channel's instruction has one request fewer outstanding, and no other byte of the memories changes. CANDIDATE_LIST_MERGE completes (R287): a
list of a stream in the batch merges into the 64 that rank first; one that belongs to no visit due, or that disagrees on the number of lists or
exceeds it, contains the context it came from with status 0x28; one of a stale epoch is discarded and counted. -/
def Obligations.AttentionSlicesAndListsComplete : Prop :=
  (∀ (s : State) (st : StackId),
      (∀ (e : PhysErr) (p left : Nat) (r : AttnRow) (g : KvGeom), s.nextTurn st = some (p, left) →
        ((s.stk st).rows.find? fun r => r.part = p && s.rowWaits st r) = some r →
        (s.epochOk r.part r.ctx r.epoch = false →
          ∃ t, exec (.attentionSlice st e) s = .next t ∧
            (t.stk st).rows = (s.stk st).rows.filter (fun x => !decide (x.id = r.id)) ∧ t.mem = s.mem ∧ t.host = s.host) ∧
        (∀ x, s.epochOk r.part r.ctx r.epoch = true → (s.stream r.stream).geom = some g →
          x = s.serve (s.stream r.stream) g (s.lineEcc e) (((r.span (s.stream r.stream)).1 - 1) / 64) 16 r →
          (∀ (u v : State) (r' : AttnRow), x = .ok u r' →
            v = ((u.setRows st fun l => l.map fun x => if x.id = r.id then r' else x).perf (stkUnit st) 0x09 1).charge r.part r.ctx
              { slices := 1 } →
            exec (.attentionSlice st e) s = .next (v.setStk st { v.stk st with wrrPart := p, wrrLeft := left })) ∧
          (∀ (u : State) (w : Nat), x = .wait u w → exec (.attentionSlice st e) s = .next (s.waitsAt u w)) ∧
          (∀ (u v w : State) (a : Acc), x = .error u a → v = u.setRows st (fun l => l.filter fun x => !decide (x.id = r.id)) →
            w = v.setStk st { v.stk st with rowFails := bump 16 (v.stk st).rowFails } →
            (w.entOf r.core r.chan r.stamp = none →
              exec (.attentionSlice st e) s = .next (w.setStk st { w.stk st with wrrPart := p, wrrLeft := left })) ∧
            (∀ j y f, w.entOf r.core r.chan r.stamp = some (j, y) → f = w.dmaFailed r.core r.chan j y a →
              exec (.attentionSlice st e) s = .next (f.setStk st { f.stk st with wrrPart := p, wrrLeft := left }))) ∧
          (∀ (a : Nat) (v : State), x = .invalid a → v = s.setRows st (fun l => l.filter fun x => !decide (x.id = r.id)) →
            (s.entOf r.core r.chan r.stamp = none →
              exec (.attentionSlice st e) s = .next (v.setStk st { v.stk st with wrrPart := p, wrrLeft := left })) ∧
            (∀ j y f, s.entOf r.core r.chan r.stamp = some (j, y) → f = v.attnWindow r.core r.chan j y st a →
              exec (.attentionSlice st e) s = .next (f.setStk st { f.stk st with wrrPart := p, wrrLeft := left }))))) ∧
      (∀ (row : Nat) (r : AttnRow) (u : State), ((s.stk st).rows.find? fun r => r.id = row && r.served) = some r →
        u = s.setRows st (fun l => l.filter fun x => !decide (x.id = row)) →
        (s.epochOk r.part r.ctx r.epoch = false → exec (.attentionRowComplete st row) s = .next (u.staleDrop 1)) ∧
        (∀ (v w : State) (j : Nat) (y : DmaEnt), s.epochOk r.part r.ctx r.epoch = true →
          v = (u.setStk st { u.stk st with
            rowsDone := ((u.stk st).rowsDone + 1) % 2 ^ 64,
            nanHeads := satAdd 32 (u.stk st).nanHeads (r.accs.countP HeadAcc.bad) }).perf (stkUnit st) 0x0A 1 →
          v.devWrite r.dst r.output r.part r.ctx .ok = (w, .ok) → v.entOf r.core r.chan r.stamp = some (j, y) →
          exec (.attentionRowComplete st row) s = .next ((w.updEnt r.core r.chan j fun x =>
            { x with outstanding := x.outstanding - 1, owed := x.owed - 1, conf := x.conf + r.output.length }).settleChan r.core r.chan))) ∧
      (∀ (row : Nat) (r : AttnRow), ((s.stk st).rows.find? fun r => r.id = row && r.served) = some r →
        s.epochOk r.part r.ctx r.epoch = true → (∀ x ∈ (s.core r.core).chan r.chan, ∃ d a b, x.op = .desc d a b) →
        ∀ (c : CoreId) (o : Nat), r.dst = scrAddr c o → o + r.output.length ≤ 0x600000 →
        ∃ t, exec (.attentionRowComplete st row) s = .next t ∧ t.mem = s.mem ∧ t.host = s.host ∧
          (t.stk st).rows = (s.stk st).rows.filter (fun x => !decide (x.id = row)) ∧
          (∀ x, x < r.output.length → (t.core c).scrByte (o + x) = r.output.getD x 0) ∧
          (∀ (k : Nat) (x : Nat), (k ≠ c ∨ x < o ∨ o + r.output.length ≤ x) → (t.core k).scrByte x = (s.core k).scrByte x))) ∧
  (∀ (s u : State) (i : Nat) (m : CandFly) (t : StreamSt), s.cands[i]? = some m → u = { s with cands := s.cands.eraseIdx i } →
      t = s.stream m.stream →
      (s.epochOk m.part m.ctx m.epoch = false → exec (.candidateListMerge i) s = .next (u.staleDrop 1)) ∧
      (∀ v : State, s.epochOk m.part m.ctx m.epoch = true → t.inBatch = true → t.visitDue = true → t.part = m.part → t.ctx = m.ctx →
        (t.cand.arrived = 0 ∨ (t.cand.parts = m.parts ∧ t.cand.arrived < t.cand.parts)) →
        v = u.setStream m.stream { t with
          cand := { parts := m.parts, arrived := t.cand.arrived + 1, list := top64 (t.cand.list ++ candPairs m.list) } } →
        (v.entOf m.core m.chan m.stamp = none → exec (.candidateListMerge i) s = .next v) ∧
        (∀ j x, v.entOf m.core m.chan m.stamp = some (j, x) →
          exec (.candidateListMerge i) s = .next ((v.updEnt m.core m.chan j fun x =>
            { x with outstanding := x.outstanding - 1, owed := x.owed - 1, conf := x.conf + 512 }).settleChan m.core m.chan))) ∧
      (s.epochOk m.part m.ctx m.epoch = true → (t.inBatch = false ∨ t.visitDue = false ∨ t.part ≠ m.part ∨ t.ctx ≠ m.ctx ∨
          (t.cand.arrived ≠ 0 ∧ (t.cand.parts ≠ m.parts ∨ t.cand.parts ≤ t.cand.arrived))) →
        exec (.candidateListMerge i) s = .next ((u.countFld rSeqErr 47 32 1).contain m.part m.ctx 0x28 224)))

/-- A merge keeps the 64 pairs that rank first, a NaN written as the canonical NaN (R149, R150): as many pairs as there are, up to 64; each
one a pair that was given; none ranking behind one that follows it; and none left out ranking before one kept. The list that results depends
only on the multiset of pairs merged, and not on the order or grouping of merges (R150). -/
def Obligations.MergesKeepTheBestWhateverTheirOrder : Prop :=
  (∀ (l : List (Lane × Nat)) (n : Lane × Nat → Lane × Nat), (n = fun p => if (ofF32 p.1).isNan then (toF32 .nan, p.2) else p) →
      (top64 l).length = min 64 l.length ∧ (∀ x ∈ top64 l, ∃ y ∈ l, x = n y) ∧
      List.Pairwise (fun a b => outranks b.1 a.1 b.2 a.2 = false) (top64 l) ∧
      (∀ y ∈ l, n y ∉ top64 l → ∀ x ∈ top64 l, outranks y.1 x.1 y.2 x.2 = false)) ∧
  (∀ a b c : List (Lane × Nat), a.Perm b → top64 a = top64 b ∧ top64 (top64 a ++ c) = top64 (a ++ c))

/-- VISIT, RING_CHECK and HALL_RING_START complete (R287 to R291, R299 to R301, R366): a stream due its visit has a token sampled from its merged
list, the entry written at its tail unless its fate is to wait for ring space, and tail and head index otherwise unmoved until the publication;
one whose list gives no sample is faulted and counted; a waiting stream's ring is looked at once; no head word is read while the interface is
LOCKED (R473); hall ring mode starts for a partition with
galleries in all four halls, for a purpose that allows it, under its context's epoch. -/
def Obligations.VisitsSampleAndWriteTheirEntry : Prop :=
  ∀ (s : State) (i : StreamId) (head : BitVec 32),
    (∀ (ns : BitVec 16) (t : StreamSt) (pos : Nat), s.mayVisit i = true →
        t = (if s.locked (s.stream i).part then s.stream i else (s.stream i).readHead head.toNat) → pos = t.tokenPos →
      (t.sampleAt pos = none → exec (.visit i head ns) s = .next (((s.countVisit ns.toNat).putVisit i t
        { token := 0xFFFFFFFF, pos := pos, prob := 0, rank := 0, fate := .faulted, wrote := false }).countFld rSeqErr 31 0 1)) ∧
      (∀ x : Sampled, t.sampleAt pos = some x →
        (t.fateOf x.token pos (t.ringFree t.head) = .heldRing →
          exec (.visit i head ns) s = .next ((s.countVisit ns.toNat).putVisit i t
            { token := x.token, pos := pos, prob := x.prob, rank := x.rank, fate := .heldRing, wrote := false })) ∧
        (∀ f, t.fateOf x.token pos (t.ringFree t.head) = f → f ≠ .heldRing →
          exec (.visit i head ns) s = .next (((s.countVisit ns.toNat).putVisit i t
            { token := x.token, pos := pos, prob := x.prob, rank := x.rank, fate := f, wrote := true }).hostPut
              (t.ringBase + 16 * (t.tail % 2 ^ t.ringLog2)) (ringEntry x.token pos x.prob x.rank f.code) t.part t.ctx)))) ∧
    ((s.stream i).st = .waiting → (s.stream i).heldRing = true → s.tick.isOpen = true →
      (s.locked (s.stream i).part = false → exec (.ringCheck i head) s = .next (s.setStream i { s.stream i with
        head := head.toNat, ringOk := decide (2 ≤ (s.stream i).ringFree head.toNat) })) ∧
      (s.locked (s.stream i).part = true → exec (.ringCheck i head) s = .next s)) ∧
    (∀ (p : PartId) (n : Nat) (x : RingPurpose → Nat → HallRingSt), s.allHalls p = true → s.hallRing = none →
      (x = fun r h => { part := p, ctx := h, epoch := s.epochOf p h, purpose := r, stream := i, positions := n }) →
      (n ≤ 262144 → (s.stream i).part = p.val → (s.stream i).st ≠ .free →
        exec (.hallRingStart p .rebuild i n) s = .next { s with hallRing := some (x .rebuild (s.stream i).ctx) }) ∧
      (n ≤ 262144 → exec (.hallRingStart p .selfTest i n) s = .next { s with hallRing := some (x .selfTest 0) }) ∧
      (n ≤ 1048576 → s.unlocked 3 = true →
        exec (.hallRingStart p .testUnlock i n) s = .next { s with hallRing := some (x .testUnlock (s.stream i).ctx) }))

/-- DOORBELL_POLL completes (R310): a word of the ring's generation that claims no more than the ring holds sets the tail, and any other is
ignored, flagged and counted; either way 8 bytes are charged to the partition. DESCRIPTOR_FETCH completes (R311): where the buffer has room,
and the completion credit, by the head word read when the cached count is short, covers its records, a descriptor of a submission queue is
fetched and joins its queue's buffer with its records counted as outstanding; without credit it stays in the ring. LOAD_GRAPH_COMPLETE and
RELOAD_COMPLETE complete (R304, R307, R333, R341, R343, R358): with the whole image read, the load's outcome is kept for the boundary that commits
it, its digest that of the bound buffers' contents and its frames' bytes those contents sharded; a load ends at a stage with a status of R307
alone, and one that meets an uncorrectable line of a bound buffer with 0x25 (the model's choice, log entry 157); a reload charges the bytes that
it read, and one whose weights digest to the graph's own stands to be committed, one that digests to another ends the launches that it holds with
0x2B, and one with a stale binding ends them with 0x03. While the interface is LOCKED (R473) none of these goes on: that it waits is the model's
choice (log entry 170). -/
def Obligations.FetchesAndLoadsComplete : Prop :=
  (∀ (s : State) (q : QueueId), s.polls q = true →
      (∀ (w : Word) (u : State), u = (match queuePart q with
          | some p => s.chargePart p { pcieB := 8 }
          | none => s) →
        (w.toNat / 2 ^ 32 = (s.queue q).gen → (w.toNat % 2 ^ 32 + 2 ^ 32 - (s.queue q).fetch % 2 ^ 32) % 2 ^ 32 ≤ u.sqSize q →
          exec (.doorbellPoll q w) s = .next (u.setQueue q { s.queue q with tail := w.toNat % 2 ^ 32 })) ∧
        (w.toNat / 2 ^ 32 ≠ (s.queue q).gen ∨ u.sqSize q < (w.toNat % 2 ^ 32 + 2 ^ 32 - (s.queue q).fetch % 2 ^ 32) % 2 ^ 32 →
          exec (.doorbellPoll q w) s = .next ((u.flag rFeStatus 1).countFld rFeDbIgnored 31 0 1))) ∧
      (∀ (d : BitVec 512) (aux : FetchAux) (head : BitVec 32) (u v : State) (ds : DescSt), (s.queue q).fetch % 2 ^ 32 ≠ (s.queue q).tail →
        (s.queue q).buffer.length < 256 → u = s.refreshHead q d (some head) → (v, ds) = u.takeIn q d aux [] →
        (u.hasCredit q (u.queue q).head d = true → q.val ≠ 1024 →
          exec (.descriptorFetch q d aux head) s = .next (v.setQueue q { v.queue q with buffer := (v.queue q).buffer ++ [ds] })) ∧
        (u.hasCredit q (u.queue q).head d = true → q.val = 1024 → exec (.descriptorFetch q d aux head) s = .next (v.admitDesc q ds)) ∧
        (u.hasCredit q (u.queue q).head d = false → exec (.descriptorFetch q d aux head) s = .next u))) ∧
  (∀ (s : State),
      (∀ (id p a q : Nat) (c : Bool) (ds : DescSt) (b : BgOp), (s.bg.find? fun b => decide (b.id = id) && !b.done && b.begun) = some b →
        b.kind = .load p a c ds q → sLenB ds.d ≤ ds.img.length → (s.locked p = true → ∀ r, exec (.loadGraphComplete id r) s = .next s) ∧ (s.locked p = false →
        (∀ r, s.loadFault p ds ≠ 0 → exec (.loadGraphComplete id r) s = .next { s with
          bg := s.bg.map fun x => if x.id = b.id then { b with done := true, status := s.loadFault p ds } else x }) ∧
        (∀ e : Byte, s.loadFault p ds = 0 → e.toNat ∈ [0x01, 0x03, 0x08, 0x09] → exec (.loadGraphComplete id (.failed e)) s = .next { s with
          bg := s.bg.map fun x => if x.id = b.id then { b with done := true, status := e.toNat } else x }) ∧
        (∀ (place : PlaceCommit) (weights : List (Nat × Nat)) (host params bytes : List Byte) (tiles : List WeightTile) (sts : List Nat)
            (u : State), s.loadFault p ds = 0 → host.length = s.boundHost p ds.aux.binds → bytes = s.boundBytes p ds.aux.binds host →
          sts = tileStacks (s.stackSet p) [] tiles → shardsOk bytes tiles sts weights = true →
          (s.readBound p ds.aux.binds = (u, .ok) → exec (.loadGraphComplete id (.done place weights host tiles params)) s = .next { u with
            bg := u.bg.map fun x => if x.id = b.id then { b with
              done := true, place := some place, weights := weights, sharded := shardBlocks bytes tiles sts weights, params := params,
              digest := Config.shake256 bytes } else x }) ∧
          (s.readBound p ds.aux.binds = (u, .uncorrectable) → exec (.loadGraphComplete id (.done place weights host tiles params)) s = .next { u with
            bg := u.bg.map fun x => if x.id = b.id then { b with done := true, status := 0x25 } else x })))) ∧
      (∀ (p : PartId) (n : BitVec 32) (b : BgOp) (g : GraphSt),
        (s.bg.find? fun b => decide (b.kind = .reload p n.toNat) && !b.done && b.begun) = some b → s.graph p n.toNat = some g →
        ((∃ h ∈ g.binds, s.bufOk p h.toNat false = false) → ∀ r, exec (.reloadComplete p n r) s = .next (s.reloadFails p n.toNat 0x03 b.id)) ∧
        (∀ (place : PlaceCommit) (weights : List (Nat × Nat)) (host params bytes : List Byte) (tiles : List WeightTile) (sts : List Nat)
            (u v : State), (∀ h ∈ g.binds, s.bufOk p h.toNat false = true) → s.locked p = false → host.length = s.boundHost p g.binds →
          bytes = s.boundBytes p g.binds host → sts = tileStacks (s.stackSet p) [] tiles → shardsOk bytes tiles sts weights = true →
          s.readBound p g.binds = (u, .ok) → v = u.chargePart p (u.bindCharge p g.binds) →
          (Config.shake256 bytes = g.wdigest → exec (.reloadComplete p n (.done place weights host tiles params)) s =
            .next { v with
              bg := v.bg.map fun x => if x.id = b.id then
                { b with done := true, place := some place, weights := weights, sharded := shardBlocks bytes tiles sts weights } else x }) ∧
          (Config.shake256 bytes ≠ g.wdigest → exec (.reloadComplete p n (.done place weights host tiles params)) s =
            .next (v.reloadFails p n.toNat 0x2B b.id)))))

/-- Every submission row completes (R310, R311): its descriptor is fetched, with what is read with it, its records outstanding and its bytes
charged, and joins its queue's buffer; the control queue's is processed at once (R312). A buffered descriptor has the effect that the rules
give it in the boundary, in the step of the Takes effect column of R314, when its checks pass (R307, R312, R314 to R323, R330, R352, R290):
admitted in step 0, NOP, FREE, UNLOAD_GRAPH and STREAM_CANCEL are complete there and LOAD_GRAPH starts its background operation; the others
wait for their step. In step 2 a LAUNCH is captured, unless its graph is being loaded, and a PATCH commits; in step 4 a COPY starts, an ALLOC,
a MAP_HOST and a STREAM_OPEN do their effect; in step 7 a FENCE_CREATE does. -/
def Obligations.SubmissionsHaveTheirEffect : Prop :=
  (∀ (s u : State) (q : QueueId) (d : BitVec 512) (aux : FetchAux) (fs gs : List (Nat × Nat)) (op : Nat) (cmd : Instr) (ds : DescSt),
    (op, gs, cmd) ∈ [(0x00, [], Instr.submitNop q d aux), (0x01, [], .launch q d aux), (0x02, [], .loadGraph q d aux),
      (0x03, [], .unloadGraph q d aux), (0x04, [], .patch q d aux), (0x05, [], .submitCopy q d aux), (0x06, fs, .alloc q d aux fs),
      (0x07, [], .mapHost q d aux), (0x08, [], .free q d aux), (0x09, [], .fenceCreate q d aux), (0x0A, [], .streamOpen q d aux),
      (0x0B, [], .streamCancel q d aux)] →
    s.Fetched u op q d aux gs ds →
    (q.val ≠ 1024 → exec cmd s = .next (u.setQueue q { u.queue q with buffer := (u.queue q).buffer ++ [ds] })) ∧
    (q.val = 1024 → exec cmd s = .next (u.admitDesc q ds))) ∧
  (∀ (s u : State) (q p : Nat) (ds : DescSt), queuePart q = some p → s.Admits u q ds →
    (sOp ds.d = 0x00 → s.admitDesc q ds = u.complete q ds 0) ∧
    (sOp ds.d = 0x02 → s.admitDesc q ds = u.startBg (.load p (sA ds.d) (decide (sA ds.d ≠ 0)) ds q)) ∧
    (sOp ds.d = 0x03 → s.admitDesc q ds = (u.unload p (sA ds.d)).complete q ds 0) ∧
    (sOp ds.d = 0x08 → s.admitDesc q ds =
      (if u.isType p (sA ds.d) 3 then u.unload p (sA ds.d) else u.freeHandle p (sA ds.d)).complete q ds 0) ∧
    (sOp ds.d = 0x0B → s.admitDesc q ds = (u.cancelStream p (sArg ds.d)).1.complete q ds 0 0 (if (u.cancelStream p (sArg ds.d)).2 then 0 else 1)) ∧
    (sOp ds.d ∈ [0x01, 0x04, 0x05, 0x06, 0x07, 0x09, 0x0A] → s.admitDesc q ds = { u with admitted := u.admitted ++ [(q, ds)] })) ∧
  (∀ (s : State) (q p : Nat) (ds : DescSt) (fs : List (Nat × Nat)), queuePart q = some p →
    (sOp ds.d = 0x01 → s.loadWaits p (sA ds.d) = false → s.effect2 q ds = s.capture q p ds) ∧
    (sOp ds.d = 0x04 → s.effect2 q ds = s.commitPatch q p ds) ∧
    (sOp ds.d = 0x05 → s.effect4 fs q ds = s.doCopy q p ds) ∧
    (sOp ds.d = 0x06 → s.effect4 fs q ds = s.doAlloc q p ds (ds.frames ++ fs)) ∧
    (sOp ds.d = 0x07 → s.effect4 fs q ds = s.doMapHost q p ds) ∧
    (sOp ds.d = 0x0A → s.effect4 fs q ds = s.doOpen q p ds) ∧
    (sOp ds.d = 0x09 → s.effect7 q ds = s.doFence q p ds))

/-- A submission that the front end cannot take stays in its ring, whatever its row: at most the head word is read (R310, R311). In step 0 a
queue's head that waits holds its queue; one that does not leaves the buffer and is admitted, and then the next (R312, R324). It is answered
without any effect of its own when a dependence of it has failed (status 0x11) or a check refuses it (the check's status and detail) (R324,
R327). -/
def Obligations.SubmissionsWaitOrAreRefused : Prop :=
  (∀ (s : State) (q : QueueId) (d : BitVec 512) (aux : FetchAux) (fs : List (Nat × Nat)) (op : Nat) (cmd : Instr),
    (op, cmd) ∈ [(0x00, Instr.submitNop q d aux), (0x01, .launch q d aux), (0x02, .loadGraph q d aux), (0x03, .unloadGraph q d aux),
      (0x04, .patch q d aux), (0x05, .submitCopy q d aux), (0x06, .alloc q d aux fs), (0x07, .mapHost q d aux), (0x08, .free q d aux),
      (0x09, .fenceCreate q d aux), (0x0A, .streamOpen q d aux), (0x0B, .streamCancel q d aux)] →
    (s.refreshHead q d aux.head).takes op q d = false → exec cmd s = .next (s.refreshHead q d aux.head)) ∧
  (∀ (s : State) (q n : Nat) (ds : DescSt) (rest : List DescSt), (s.queue q).buffer = ds :: rest →
    (s.headWaits q ds = true → s.admitQueue q (n + 1) = s) ∧
    (s.headWaits q ds = false →
      s.admitQueue q (n + 1) = ((s.setQueue q { s.queue q with buffer := rest }).admitDesc q ds).admitQueue q n)) ∧
  (∀ (s u : State) (q : Nat) (ds : DescSt), u = s.setQueue q { s.queue q with admitted := (s.queue q).admitted + 1 } →
    (u.depFaulted q ds = true → s.admitDesc q ds = u.complete q ds 0x11) ∧
    (u.depFaulted q ds = false → (u.check q ds).1 ≠ 0 → s.admitDesc q ds = u.complete q ds (u.check q ds).1 0 (u.check q ds).2))

/-- Closes and opens complete (R49, R52, R54, R61, R63, R65, R68). A nominal close samples the engines' progress; a tick that then has no holder
closes, and one that has is marked overrun. A tick that closes runs its boundary; in a barrier group its arrive is sent instead, and the root
counts itself in. A follower's edge is a nominal close too, but for one that comes within 250 µs, which is ignored and counted, and one
that finds the tick closed, which counts an overrun of it; a tick overruns once. An overrun tick that has drained closes then; a closed tick gives way to the
next, whose number is one more (R15), and where a hard stop has come between none is open (the model's choice, log entry 148). LIMIT_POINT completes (R62, R378): with holders that nothing names hung and no host access stalled, the tick's limit is hit and each
holder is torn down with TICK_LIMIT (status 0x20). With nothing to close, to open or to limit, each leaves the state. -/
def Obligations.TicksCloseAndOpen : Prop :=
  (∀ (s q v : State) (b : BoundaryIn), q = s.progressCheck → v = { q with tick := { q.tick with arriveSent := true } } →
      (s.closable = true → s.source ≠ 1 →
        (q.holders = [] → q.grouped = false → exec (.nominalClose b) s = .next (q.boundary b)) ∧
        (q.holders = [] → q.grouped = true → q.tick.arriveSent = false →
          (q.source = 3 → exec (.nominalClose b) s = .next v.rootReleases) ∧
          (q.source ≠ 3 → exec (.nominalClose b) s = .next (v.sendBarrier 3 (Config.barrierRoot % 256)))) ∧
        (q.holders ≠ [] → exec (.nominalClose b) s = .next q.overran)) ∧
      (s.closable = false ∨ s.source = 1 → exec (.nominalClose b) s = .next s) ∧
      (∀ us : Nat, s.source = 1 → (s.genState = 1 ∨ s.genState = 2) →
        (us < 250 → exec (.tickSyncInEdge us b) s = .next (s.countFld rTckOverrunCount 31 0 1)) ∧
        (250 ≤ us → s.tick.closed = true → s.tick.overrun = false → exec (.tickSyncInEdge us b) s =
          .next (s.overran.overrunEvents (s.tick.lenUs - s.fld rTckPeriod 16 0))) ∧
        (250 ≤ us → s.tick.overrun = true → exec (.tickSyncInEdge us b) s = .next s) ∧
        (250 ≤ us → s.closable = true → s.tick.closed = false →
          (q.holders = [] → q.grouped = false → exec (.tickSyncInEdge us b) s = .next (q.boundary b)) ∧
          (q.holders ≠ [] → exec (.tickSyncInEdge us b) s = .next q.overran))) ∧
      (∀ us : Nat, s.source ≠ 1 ∨ (s.genState ≠ 1 ∧ s.genState ≠ 2) → exec (.tickSyncInEdge us b) s = .next s)) ∧
  (∀ (s v : State) (b : BoundaryIn), v = { s with tick := { s.tick with arriveSent := true } } →
      (s.tick.isOpen = true → s.tick.overrun = true →
        (s.genState = 1 ∨ s.genState = 2 → s.holders = [] →
          (s.grouped = false → exec (.tickDrained b) s = .next (s.boundary b)) ∧
          (s.grouped = true → s.tick.arriveSent = false → s.source = 3 → exec (.tickDrained b) s = .next v.rootReleases) ∧
          (s.grouped = true → s.tick.arriveSent = false → s.source ≠ 3 →
            exec (.tickDrained b) s = .next (v.sendBarrier 3 (Config.barrierRoot % 256)))) ∧
        (s.holders ≠ [] → exec (.tickDrained b) s = .next s) ∧
        exec .progressSample s = .next s.progressCheck) ∧
      (s.tick.isOpen = false ∨ s.tick.overrun = false → exec (.tickDrained b) s = .next s ∧ exec .progressSample s = .next s) ∧
      (s.tick.closed = true → s.genState ≠ 4 → s.genState ≠ 5 → exec .tickOpen s = .next s.step8) ∧
      (s.tick.closed = true → s.genState = 4 ∨ s.genState = 5 →
        exec .tickOpen s = .next { s.step8 with tick := { s.step8.tick with isOpen := false } }) ∧
      (s.tick.closed = false → exec .tickOpen s = .next s)) ∧
  (∀ (s u : State), s.tick.isOpen = true → s.tick.tearing = false → s.holders ≠ [] → u = s.takeSample.flag rTckStatus 4 →
      (∀ i < 802, s.takeSample.hungKey s.takeSample.tick.sinceOpen i = false) →
      (∀ c < 192, u.stalledKey s.takeSample.tick.sinceOpen (4 * c + 3) = false) →
      exec .limitPoint s = .next (s.takeSample.holders.foldl (fun t x => t.contain x.1 x.2 0x20 226)
        { u with tick := { u.tick with limitHit := true, tearing := true } })) ∧
  (∀ s : State, s.tick.isOpen = false ∨ s.tick.tearing = true ∨ s.holders = [] → exec .limitPoint s = .next s)

/-- Barriers complete (R65, R67, R412): a message frees its place in the receive buffer, and one for another module is forwarded; the root keeps each member's first arrive, and when the last is in, itself included, sends each member its
release and takes its own; a member that has arrived takes the release and its offset; the boundary is run at the compensated start; a lost
group goes on alone, flagged, and a context of a multi-module job that is not stopped is cut with BARRIER_LOST (status 0x22). -/
def Obligations.BarriersComplete : Prop :=
  ∀ (s : State),
    (∀ (n : PortId) (h : BitVec 256) (v : State), v = s.freeFlits n { hdr := h } →
      (s.hears n 3 h = true →
        (mDst h ≠ v.moduleId → exec (.barrierArrive n h) s = .next (v.forward h [])) ∧
        (∀ (m : Nat) (u : State), m = mSrc h → mDst h = v.moduleId → v.source = 3 → v.grouped = true → m ≠ v.moduleId → v.tick.released = none →
          u = { v with tick := { v.tick with arrived := v.tick.arrived ++ [m] } } →
          (m ∉ v.tick.arrived → v.tick.arriveSent = true → v.tick.arrived.length + 2 = v.fld rTckBarrier 8 0 →
            exec (.barrierArrive n h) s = .next (((v.tick.arrived ++ [m]).foldl (fun u m => u.sendBarrier 4 m) u).released v.tickNo)) ∧
          (m ∉ v.tick.arrived → v.tick.arriveSent = false ∨ v.tick.arrived.length + 2 ≠ v.fld rTckBarrier 8 0 →
            exec (.barrierArrive n h) s = .next u) ∧
          (m ∈ v.tick.arrived → exec (.barrierArrive n h) s = .next v))) ∧
      (s.hears n 4 h = true →
        (mDst h ≠ v.moduleId → exec (.barrierRelease (n, h)) s = .next (v.forward h [])) ∧
        (∀ r : Word, r = BitVec.ofNat 64 (mWord h) → mDst h = v.moduleId → v.source = 2 → v.grouped = true → v.tick.arriveSent = true →
          v.tick.released = none → exec (.barrierRelease (n, h)) s =
            .next (({ v with tick := { v.tick with released := some r } } : State).setReg rTckBarrierOffset (r - v.tickNo)))) ∧
      (s.hears n 3 h = false → exec (.barrierArrive n h) s = .next s) ∧ (s.hears n 4 h = false → exec (.barrierRelease (n, h)) s = .next s)) ∧
    (∀ b : BoundaryIn, s.tick.isOpen = true → s.tick.released.isSome = true → (s.genState = 1 ∨ s.genState = 2) →
      exec (.barrierCompensatedStart b) s = .next (s.boundary b)) ∧
    (∀ (b : BoundaryIn) (u : State), s.grouped = true → s.tick.isOpen = true → s.tick.arriveSent = true → s.tick.released = none →
      u = ({ s with tick := { s.tick with group := false } } : State).flag rTckStatus 5 →
      ((∀ p < 16, ∀ e ∈ (s.part p).ctxs, ∀ x, e.2 = some x → s.multiModule p x = true → x.stopped = true) →
        exec (.barrierTimeout b) s = .next (u.boundary b)) ∧
      (∀ (p : PartId) (h : Nat) (x : CtxSt), (s.part p).ctxs = [(h, some x)] → (∀ q < 16, q ≠ p.val → (s.part q).ctxs = []) →
        s.multiModule p x = true → x.stopped = false → exec (.barrierTimeout b) s = .next ((u.cutContext p h 0x22).boundary b)))

/-- Clearing and setting GEN_EN (R50): a write that sets it from NOT_STARTED runs one boundary at once, and tick 1 is open; from SOFT_STOPPED
or HARD_STOPPED it is the resume of the module, and its boundary runs at once too; from HARD_STOPPING that boundary opens no tick, and a step 8
that a hard stop had overtaken comes first (the model's choice, log entry 148); a write that clears it is carried out only in NOT_STARTED,
SOFT_STOPPED and HARD_STOPPED, and in any other state is ignored and sets WR_IGNORED. The other fields are written in each case. -/
def Obligations.GeneratorIsEnabledAndDisabled : Prop :=
  ∀ (s u : State) (v : Word) (b : BoundaryIn), s.barOpen rTckCtrl = true → u = s.writeBits rTckCtrl v (BitVec.allOnes 64) →
    (bit v.toNat 0 = true → s.fld rTckCtrl 0 0 = 1 → exec (.tickGenEnable v b) s = .next u) ∧
    (∀ w : State, bit v.toNat 0 = true → s.fld rTckCtrl 0 0 ≠ 1 →
      w = ({ u with tick := { u.tick with group := true } } : State).setFld rTckCtrl 0 0 1 →
      (w.genState = 0 → w.tick.closed = false →
        exec (.tickGenEnable v b) s = .next (((w.leaveIdle.setGenState 1).boundary b).step8)) ∧
      (w.genState = 3 ∨ w.genState = 5 → w.tick.closed = false → exec (.tickGenEnable v b) s =
        .next ((((w.pushReq { src := .registerWrite, scope := .module, resume := true }).leaveIdle.setGenState 1).boundary b).step8)) ∧
      (w.genState = 4 → w.tick.closed = false → ∀ u : State, u = (w.boundary b).step8 →
        exec (.tickGenEnable v b) s = .next { u with tick := { u.tick with isOpen := false } }) ∧
      (w.tick.closed = true → ∀ u : State, u = { w.step8 with tick := { w.step8.tick with isOpen := false } } →
        (w.genState = 4 → exec (.tickGenEnable v b) s =
          .next { (u.boundary b).step8 with tick := { (u.boundary b).step8.tick with isOpen := false } }))) ∧
    (bit v.toNat 0 = false → u.fld rTckCtrl 0 0 = 1 →
      (u.genState = 0 ∨ u.genState = 3 ∨ u.genState = 5 → exec (.tickGenDisable v) s = .next (u.setFld rTckCtrl 0 0 0)) ∧
      (u.genState = 1 ∨ u.genState = 2 ∨ u.genState = 4 → exec (.tickGenDisable v) s = .next (u.flag rTckStatus 6))) ∧
    (bit v.toNat 0 = false → u.fld rTckCtrl 0 0 = 0 → exec (.tickGenDisable v) s = .next u)

/-- Soft stops complete (R70, R71, R73): the module's and a partition's scope is stopping from the request, and the request waits for its
boundary; a context's waits unless the context is stopped already; and a scope that has stopped stays as it is. Hard stops complete (R74,
R75): a partition that runs, is stopping or is soft-stopped is HARD_STOPPING at once with its request's source kept and its unaccepted WRITEs
abandoned; once its transfers have finished it reads HARD_STOPPED and its report is written. The module's hard stop takes every ACTIVE and
stopping partition with it and ends the open tick; its completion leaves the module and each of them HARD_STOPPED. -/
def Obligations.StopsTakeEffect : Prop :=
  (∀ (s : State) (p : PartId),
      (s.genState = 1 → ∃ t, exec .softStopModule s = .next t ∧ t.genState = 2 ∧
        (∀ q : Fin 16, (s.part q).st = .active → (t.part q).st = .softStopping) ∧
        (∀ q : Fin 16, (s.part q).st ≠ .active → t.part q = s.part q) ∧
        t.tick.reqs = s.tick.reqs ++ [{ src := .descriptor, scope := .module }] ∧
        t.tick.modStopped = s.tick.modStopped ++ s.partsWith (fun k => k.st = .active) ∧
        t.cores = s.cores ∧ t.stks = s.stks ∧ t.mem = s.mem ∧ t.host = s.host) ∧
      ((s.part p).st = .active → exec (.softStopPartition p) s =
        .next ((s.setPart p { s.part p with st := .softStopping }).pushReq { src := .descriptor, scope := .part p })) ∧
      ((s.part p).st ≠ .active → exec (.softStopPartition p) s = .next s) ∧
      (∀ (h : BitVec 16) (x : CtxSt), s.ctx p h.toNat = some x →
        (x.stopped = false → exec (.softStopContext p h) s = .next (s.pushReq { src := .descriptor, scope := .context p h })) ∧
        (x.stopped = true → exec (.softStopContext p h) s = .next s)) ∧
      (∀ src, (s.part p).st = .active → exec (.stopRequestInternal src false (.part p)) s =
        .next ((s.setPart p { s.part p with st := .softStopping }).pushReq { src := src, scope := .part p }))) ∧
  (∀ (s : State) (p : PartId),
      ((s.part p).st = .active ∨ (s.part p).st = .softStopping ∨ (s.part p).st = .softStopped → ∃ t, exec (.hardStopPartition p) s = .next t ∧
        (t.part p).st = .hardStopping ∧ (p.val, StopSource.descriptor) ∈ t.tick.hardSrc ∧ (∀ q, q ≠ p.val → t.part q = s.part q) ∧
        t.sends = (s.sends.filter fun m => !(decide (m.part = p.val) && (m.port.isNone || s.unaccepted m))) ∧
        t.cores = s.cores ∧ t.stks = s.stks ∧ t.mem = s.mem ∧ t.host = s.host) ∧
      (s.genState = 1 ∨ s.genState = 2 ∨ s.genState = 3 → ∃ t, exec .hardStopModule s = .next t ∧ t.genState = 4 ∧ t.tick.isOpen = false ∧
        (∀ q : Fin 16, (s.part q).st = .active ∨ (s.part q).st = .softStopping → (t.part q).st = .hardStopping) ∧
        (∀ q : Fin 16, (s.part q).st ≠ .active → (s.part q).st ≠ .softStopping → t.part q = s.part q) ∧
        t.cores = s.cores ∧ t.stks = s.stks ∧ t.mem = s.mem ∧ t.host = s.host) ∧
      (∀ n : Word, s.genState = 4 → (∀ q < 16, (s.part q).st = .hardStopping → s.landingIn q = false) → ∃ t,
        exec (.hardStopComplete .module n) s = .next t ∧ t.genState = 5 ∧ t.mem = s.mem ∧ t.cores = s.cores ∧
        (∀ q : Fin 16, (s.part q).st = .hardStopping → (t.part q).st = .hardStopped) ∧
        (∀ q : Fin 16, (s.part q).st ≠ .hardStopping → t.part q = s.part q)) ∧
      (∀ n : Word, (s.part p).st = .hardStopping → s.genState ≠ 4 → s.landingIn p = false →
        exec (.hardStopComplete (.part p) n) s = .next ((s.writeReport p false n).setPart p { (s.writeReport p false n).part p with st := .hardStopped })))

/-- Resumes complete (R72, R73, R76) while every engine is enabled: a stopped partition or context has its resume asked for, one in any
other state, or fenced in its pair until MODE is cleared (R423), is left as it is; a stopped module runs a full boundary and opens the next tick, and so it does where a resume of it is due already.
With an engine disabled nothing more is asked for (R486). -/
def Obligations.ResumesAreRequestedOrRun : Prop :=
  ∀ (s : State) (p : PartId),
    (s.enginesOn = true →
      ((s.part p).st = .softStopped ∨ (s.part p).st = .hardStopped →
        (s.fencedPart p = false → exec (.resumePartition p) s = .next (s.pushReq { src := .descriptor, scope := .part p, resume := true })) ∧
        (s.fencedPart p = true → exec (.resumePartition p) s = .next s)) ∧
      ((s.part p).st ≠ .softStopped → (s.part p).st ≠ .hardStopped → exec (.resumePartition p) s = .next s) ∧
      (∀ (h : BitVec 16) (x : CtxSt), s.ctx p h.toNat = some x → x.stopped = true →
        exec (.resumeContext p h) s = .next (s.pushReq { src := .descriptor, scope := .context p h, resume := true })) ∧
      (∀ (h : BitVec 16), (∀ x, s.ctx p h.toNat = some x → x.stopped = false) → exec (.resumeContext p h) s = .next s) ∧
      (∀ b : BoundaryIn, s.genState ≠ 3 → s.genState ≠ 5 → exec (.resumeModule b) s = .next s) ∧
      (∀ b : BoundaryIn, (s.genState = 3 ∨ s.genState = 5) → s.fld rTckCtrl 0 0 = 1 →
        (∀ r ∈ s.tick.reqs, r.resume = false ∨ r.scope ≠ .module) →
        exec (.resumeModule b) s = .next ((s.pushReq { src := .descriptor, scope := .module, resume := true }).startTick b))) ∧
    (∀ b : BoundaryIn, (s.genState = 3 ∨ s.genState = 5) → (∃ r ∈ s.tick.reqs, r.resume = true ∧ r.scope = .module) →
      exec (.resumeModule b) s = .next (s.startTick b)) ∧
    (s.enginesOn = false → exec (.resumePartition p) s = .next s ∧ (∀ h, exec (.resumeContext p h) s = .next s) ∧
      ((∀ r ∈ s.tick.reqs, r.resume = false ∨ r.scope ≠ .module) → ∀ b, exec (.resumeModule b) s = .next s))

/-- Flights enter, resume and end (R157, R160, R176, R177): the first flight in launch order enters an idle core of its staircase; a core at
its wait-for-tick point resumes in a tick that admits work, in its slot's region as it stands now; a flight ends on a core that has issued END and has nothing left, and has ended
when it has on all of its cores, as its slot table names them now. BACKGROUND_OP_COMPLETE completes (R57): the operation with that number, begun
and not yet done, gets its outcome; a number that names none leaves the state. -/
def Obligations.FlightsAndBackgroundOpsComplete : Prop :=
  (∀ (s : State) (c : CoreId),
      (∀ (n i : Nat) (f : FlightSt), (s.core c).phase = .idle → s.nextFlight c = some (n, f) → s.mayEnter c f = true →
        (f.slots.findIdx? fun r => decide (r.core = c.val)) = some i →
        exec (.flightEntry c) s =
          .next (((s.setCore c ((s.core c).enter n f i)).setFlight n (some { f with begun := true })).works c f.part f.ctx)) ∧
      ((s.core c).phase = .atWtick → s.working = true → (s.core c).resumeTick ≤ s.tickNo.toNat →
        s.runs (s.core c).part = true → s.frozen (s.core c).part = false → s.ctxIssues (s.core c).part (s.core c).ctx = true →
        s.epochOk (s.core c).part (s.core c).ctx (s.core c).epoch = true → (s.core c).inReset = false →
        s.heldForReplay c (s.core c).part (s.core c).ctx = false →
        exec (.wtickResume c) s = .next ((s.resumeOn c).works c (s.core c).part (s.core c).ctx) ∧
        (∀ r, r = s.newRegion c → r.core = c → r.off = (s.core c).region.off → exec (.wtickResume c) s =
          .next ((s.setCore c { (s.core c).translate (s.core c).region r with phase := .running, slotTab := s.tabOf (s.core c) }).works c
            (s.core c).part (s.core c).ctx))) ∧
      (∀ (f : FlightSt) (d : Nat), d = (f.slots.getD (s.core c).slot (s.core c).region).core → (s.core c).phase = .ended → (s.core c).ctrlq = [] → (s.core c).ents = [] →
        s.ctxIssues (s.core c).part (s.core c).ctx = true → s.epochOk (s.core c).part (s.core c).ctx (s.core c).epoch = true →
        s.flight (s.core c).flight = some f →
        ((∀ x ∈ f.cores, x ∈ f.ended ∨ x = d) → exec (.flightEnd c) s = .next ((s.setCore c { s.core c with phase := .idle }).setFlight
          (s.core c).flight (some { f with ended := f.ended ++ [d], endStatus := some 0 }))) ∧
        ((∃ x ∈ f.cores, x ∉ f.ended ∧ x ≠ d) → exec (.flightEnd c) s = .next ((s.setCore c { s.core c with phase := .idle }).setFlight
          (s.core c).flight (some { f with ended := f.ended ++ [d] }))))) ∧
  (∀ (s : State) (id : Nat) (data : List Byte) (e : PhysErr),
      (∀ b : BgOp, (s.bg.find? fun b => decide (b.id = id) && !b.done && b.begun) = some b →
        exec (.backgroundOpComplete id data e) s = .next (s.bgComplete b data (s.lineEcc e))) ∧
      ((∀ b ∈ s.bg, b.id = id → b.done = true ∨ b.begun = false) → exec (.backgroundOpComplete id data e) s = .next s))

/-- A teardown runs its phases in order (R367 to R369, R372, R391): a context that has met a fault is fenced, but not before the reset of an engine whose
landing 2 it is in; one that is fenced is drained, and
one that is drained is cleared; the other contexts of its job are taken into the same landing and go through the same phases with it. -/
def Obligations.TeardownRunsItsPhases : Prop :=
  ∀ (s : State) (p : PartId) (h : BitVec 16) (x : CtxSt) (mates : List Nat), s.ctx p h.toNat = some x → s.jobMates p h.toNat = mates →
    (x.tear = .faulted → s.inLanding2 p h.toNat = true → exec (.contextFence p h) s = .next s) ∧
    (x.tear = .faulted → s.inLanding2 p h.toNat = false → (∀ m ∈ mates, ∃ y, s.ctx p m = some y ∧ (y.tear = .none ∨ y.tear = .faulted)) →
      exec (.contextFence p h) s =
        .next ((h.toNat :: mates).foldl (fun s m => s.fenceCtx p m) (mates.foldl (fun s m => s.joinLanding p m) s))) ∧
    (mates = [] →
      (x.tear = .faulted → s.inLanding2 p h.toNat = false → exec (.contextFence p h) s = .next (s.fenceCtx p h.toNat)) ∧
      (x.tear = .fenced → exec (.contextDrainComplete p h) s = .next ((({ s with
        signals := s.signals.filter fun m => !decide (m.part = p.val ∧ m.ctx = h.toNat),
        cands := s.cands.filter fun m => !decide (m.part = p.val ∧ m.ctx = h.toNat) } : State).staleDrop
          (s.signals.countP (fun m => decide (m.part = p.val ∧ m.ctx = h.toNat)) +
            s.cands.countP fun m => decide (m.part = p.val ∧ m.ctx = h.toNat))).setCtx p h.toNat (some { x with tear := .drained }))) ∧
      (x.tear = .drained → exec (.contextClearComplete p h) s = .next (s.clearCtx p h.toNat))) ∧
    exec (.contextDrainComplete p h) s = .next ((h.toNat :: mates).foldl (fun s m => s.drainCtx p m) s) ∧
    exec (.contextClearComplete p h) s = .next ((h.toNat :: mates).foldl (fun s m => s.clearCtx p m) s)

/-- The fence raises the context's epoch, so that every request made before it is stale, and stops every core that runs a flight of the
context (R366, R367, R154). -/
def Obligations.TheFenceMakesOldRequestsStale : Prop :=
  ∀ (s : State) (p : PartId) (h : BitVec 16) (x : CtxSt), s.ctx p h.toNat = some x → s.jobMates p h.toNat = [] → x.tear = .faulted →
    s.inLanding2 p h.toNat = false →
    ∃ t, exec (.contextFence p h) s = .next t ∧ t.epochOk p h.toNat (x.epoch + 1) = true ∧ t.epochOk p h.toNat x.epoch = false ∧
      (∀ c : CoreId, (s.core c).phase ≠ .idle → (s.core c).part = p.val → (s.core c).ctx = h.toNat →
        (t.core c).phase = .halted ∧ (t.core c).ctrlq = []) ∧
      t.mem = s.mem ∧ t.host = s.host

/-- ENGINE_FAULT, ENGINE_RESET_COMPLETE and ENGINE_RESET_TIMEOUT complete (R363, R379, R383, R387, R388): an engine that fails goes to reset
in a landing 2; its reset returns it empty and ends the landing, and where replay is off each suspect's context is torn down with HANG; a
reset that takes too long marks a core for retirement and escalates. LANDING_3_REQUEST, LANDING_4, LANDING_BOUND_EXPIRY, FIRMWARE_WATCHDOG
and GALLERY_CLEAR_COMPLETE complete (R363, R376, R384, R385, R387): a landing that exceeds its bound gives way to the next, the fourth to the
parked state; a gallery that does not read zero is marked. -/
def Obligations.EnginesAndLandingsComplete : Prop :=
  (∀ (s : State) (u : Byte),
      (isEngine u.toNat = true → u.toNat ∉ s.rcv.resetting →
        exec (.engineFault u) s = .next ((s.landing2 u.toNat 0).unattributed u.toNat)) ∧
      (isEngine u.toNat = false ∨ u.toNat ∈ s.rcv.resetting → exec (.engineFault u) s = .next s) ∧
      (∀ r v : State, u.toNat ∈ s.rcv.resetting → r = (s.abandonFc u.toNat).resetEngine u.toNat →
        v = ({ r with rcv := { r.rcv with resetting := r.rcv.resetting.erase u.toNat } } : State).landingsDone
          (fun l => decide (l.level = 2) && decide (l.unit = u.toNat)) →
        (v.fld rPrtFaultCtrl 8 8 = 1 → exec (.engineResetComplete u) s = .next v) ∧
        (v.fld rPrtFaultCtrl 8 8 ≠ 1 → exec (.engineResetComplete u) s =
          .next ((v.rcv.suspects.filter fun x => decide (x.unit = u.toNat)).foldl (fun t x => t.contain x.part x.ctx 0x27 u.toNat)
            { v with rcv := { v.rcv with suspects := v.rcv.suspects.filter fun x => !decide (x.unit = u.toNat) } })) ∧
        (s.fld rPrtFaultCtrl 8 8 = 1 → s.rcv.landings = [] → ∃ t, exec (.engineResetComplete u) s = .next t ∧
          t.rcv.resetting = r.rcv.resetting.erase u.toNat ∧ t.cores = r.cores ∧ t.stks = r.stks ∧ t.streams = r.streams)) ∧
      (∀ v : State, u.toNat ∈ s.rcv.resetting → v = ({ s with rcv := { s.rcv with resetting := s.rcv.resetting.erase u.toNat } } : State) →
        (s.rcv.landings.find? (fun l => decide (l.level = 2 ∧ l.unit = u.toNat)) = none →
          (u.toNat < 192 → exec (.engineResetTimeout u) s = .next (v.retireCore u.toNat)) ∧
          (192 ≤ u.toNat → exec (.engineResetTimeout u) s = .next (v.landing4 241 0x27))) ∧
        (∀ l, s.rcv.landings.find? (fun l => decide (l.level = 2 ∧ l.unit = u.toNat)) = some l →
          (192 ≤ u.toNat → exec (.engineResetTimeout u) s = .next (v.escalate l))))) ∧
  (∀ (s : State),
      (∀ p : PartId, ((s.part p).st ≠ .absent → exec (.landing3Request p) s = .next (s.landing3 p 241 0x2A)) ∧
        ((s.part p).st = .absent → exec (.landing3Request p) s = .next s)) ∧
      exec .landing4 s = .next (s.landing4 241 0x2A) ∧ exec .firmwareWatchdog s = .next (s.landing4 242 0x2A) ∧
      (∀ (id : Nat) (l : LandingSt) (u : State), (s.rcv.landings.find? fun l => decide (l.id = id)) = some l →
        u = s.absorb (fun x => x.id = l.id) →
        (∀ p, l.level = 1 → l.part = some p → exec (.landingBoundExpiry id) s = .next (u.landing3 p 241 l.cause)) ∧
        (∀ p, l.level = 2 → l.unit < 192 → l.part = some p → exec (.landingBoundExpiry id) s = .next (u.landing3 p 241 l.cause)) ∧
        (l.level = 2 → 192 ≤ l.unit → exec (.landingBoundExpiry id) s = .next (u.landing4 241 l.cause)) ∧
        (l.level = 3 → exec (.landingBoundExpiry id) s = .next (u.landing4 241 l.cause)) ∧
        (l.level = 4 → exec (.landingBoundExpiry id) s = .next (u.park 0x01))) ∧
      (∀ (g : Fin 24) (x : Nat × Option Nat × Bool) (u : State), (s.rcv.clearing.find? fun x => decide (x.1 = g.val)) = some x → x.2.1 = none →
        s.rcv.landings = [] →
        u = { s with rcv := { s.rcv with
          clearing := s.rcv.clearing.filter (fun x => !decide (x.1 = g.val)), unclean := s.rcv.unclean.filter fun x => !decide (x = g.val) } } →
        exec (.galleryClearComplete g true) s = .next u ∧
        exec (.galleryClearComplete g false) s =
          .next (({ u with rcv := { u.rcv with unclean := u.rcv.unclean ++ [g.val] } } : State).retireCore (8 * g))))

/-- The ports' commands complete (R395, R399, R486): enabling, disabling and retraining act on the port where BAR2 is open; training ends in
ACTIVE, or in FAILED with the row of R396 that fails it, or where the partner's certificate and signature do not verify (R453; that this fails
the port with CAUSE 9 is the model's choice, log entry 172); a lane in use that loses its lock retrains the port, and one that is not changes nothing. LINK_NAK,
REPLAY_TIMEOUT, SEGMENT_TAG and SEGMENT_IDLE_CLOSE complete on a live port (R401, R403, R404): what is unacknowledged is sent again; the tag of the
segment due, computed over its payloads under the direction's key, moves on to the next; any other discards the segment, is counted and reported,
and retrains the port; an idle segment closes early once its TAG flit has a credit. That a TAG flit's own place is free with its segment is the
model's choice (log entry 166). -/
def Obligations.PortsAndLinksComplete : Prop :=
  (∀ (s : State) (n : PortId),
      (s.barOpen (portBase n) = true → exec (.onlPortEnable n) s = .next (s.portEnable n) ∧
        exec (.onlPortDisable n) s = .next (s.portDisable n) ∧ exec (.onlRetrain n) s = .next (s.retrain n)) ∧
      (∀ r : TrainObs, s.portEn n = true → ((1 ≤ (s.port n).st ∧ (s.port n).st ≤ 5) ∨ (s.port n).st = 7) →
        (s.wiringFault n r = none → partnerTrusted r = true → exec (.portTrainingComplete n r) s = .next (s.portActive n r (s.trainCause n r))) ∧
        (s.wiringFault n r = none → partnerTrusted r = false → exec (.portTrainingComplete n r) s = .next (s.portFails n r 9)) ∧
        (∀ x, s.wiringFault n r = some x → exec (.portTrainingComplete n r) s = .next (s.portFails n r x))) ∧
      (∀ l : Fin 8, (l.val ∈ (s.port n).lanes → exec (.fecLockLoss n l) s = .next (s.retrain n)) ∧
        (l.val ∉ (s.port n).lanes → exec (.fecLockLoss n l) s = .next s))) ∧
  (∀ (s : State) (n : PortId), s.live n = true →
      (∀ a : BitVec 12, ((s.port n).ack a.toNat).replayBuf ≠ [] →
        exec (.linkNak n a) s = .next (s.replayed n ((s.port n).ack a.toNat).replay)) ∧
      (∀ a : BitVec 12, ((s.port n).ack a.toNat).replayBuf = [] →
        exec (.linkNak n a) s = .next (s.setPort n ((s.port n).ack a.toNat)).mirrorDrained) ∧
      ((s.port n).replayBuf ≠ [] → exec (.replayTimeout n) s = .next (s.replayed n (s.port n).replay)) ∧
      (∀ (g : Word) (t good : BitVec 128) (k : PortSt) (x : Nat), k = s.port n →
        good = gcmTag k.keyIn k.nonceIn [] ((k.rxBuf.filter fun f => f.typ ≠ 3).flatMap FlitIn.payload) →
        x = min (k.rxBuf.countP fun f => f.typ = 3) (SMap.get 0 k.rxUsed 8) →
        (t = good → g.toNat = k.rxSeg → exec (.segmentTag n g t) s = .next (s.setPort n ({ k with
          rxSeg := k.rxSeg + 1, rxBuf := [], rxUsed := SMap.upd 0 k.rxUsed 8 (· - x), owed := SMap.upd 0 k.owed 8 (· + x) }.pump 1100))) ∧
        ((t ≠ good ∨ g.toNat ≠ k.rxSeg) → exec (.segmentTag n g t) s =
          .next (((s.setPort n { k with tagFails := satAdd 16 k.tagFails 1 }).emit (227 + n) 0x17 0 g.toNat).retrain n))) ∧
      ((s.port n).txSegFlits ≠ 0 → (s.port n).canTag = true → (s.port n).replayBuf.length < 1024 →
        exec (.segmentIdleClose n) s = .next (s.setPort n ((s.port n).closeSegment.pump 1100))))

/-- A flit completes on a live port (R400, R401, R403, R407, R536): one with a failed or spoiled check, or of no type or channel that exists, only
makes a NAK due; a WRITE that waits in the receive buffer is tried again behind it. Of any other the acknowledgement and the credits are taken; one out of order, other than an IDLE, is discarded and makes a
NAK due; in order, it is accepted into its channel's receive buffer, and the next sequence number is expected; one that carries a NAK has what is unacknowledged sent again.
WRITE, WRITE_ACK and MESSAGE_RESEND complete (R405
to R409): a message for this module is taken in and its place in the receive buffer freed, or stays there while it cannot be taken (the model's
choice, log entry 50); one for another is sent on towards it, an acknowledgement ends the message that it answers,
and a message whose route was lost is sent again with its sequence number. -/
def Obligations.FlitsAndMessagesComplete : Prop :=
  (∀ (s0 s : State) (i : Nat) (n : PortId) (h : Word) (k : PortSt), s0.live n = true → s0.injected (227 + n) [7] = (i, s) →
      (∀ f : FlitBody, (f.payload.length ≠ 244 ∨ crc32c (leBytes 8 h.toNat ++ f.payload) ≠ f.crc ∨ i ≠ 0 ∨ 4 ≤ bits h.toNat 3 0 ∨
          10 ≤ bits h.toNat 7 4) → exec (.flit n h f) s0 = .next ((s.setPort n { s.port n with nakSent := true }).drainIn n)) ∧
      (∀ f : FlitBody, f.payload.length = 244 → crc32c (leBytes 8 h.toNat ++ f.payload) = f.crc → i = 0 → k = { (s.port n).ack (bits h.toNat 31 20) with
          credits := SMap.upd 0 ((s.port n).ack (bits h.toNat 31 20)).credits (bits h.toNat 35 32) fun u => u - bits h.toNat 43 36 } →
        bits h.toNat 3 0 < 4 → bits h.toNat 7 4 < 10 →
        (∀ (k' : PortSt) (u : State), k' = (if bits h.toNat 3 0 = 0 then k
            else if bits h.toNat 19 8 = k.rxSeq then { k with
              rxSeq := (k.rxSeq + 1) % 4096, nakSent := false, rxUsed := SMap.upd 0 k.rxUsed (bits h.toNat 7 4) (· + 1),
              rxBuf := k.rxBuf ++ [{ vc := bits h.toNat 7 4, typ := bits h.toNat 3 0, last := bit h.toNat 45, tag := bits h.toNat 63 48,
                                     payload := f.payload }] }
            else { k with nakSent := true }) →
          (bit h.toNat 44 = false ∨ k'.replayBuf = [] → u = s.setPort n k') →
          (bit h.toNat 44 = true → k'.replayBuf ≠ [] → u = s.replayed n k'.replay) →
          (u.live n = true → exec (.flit n h f) s0 = .next ((u.setPort n ((u.port n).pump 1100)).mirrorDrained.drainIn n)) ∧
          (u.live n = false → exec (.flit n h f) s0 = .next (u.mirrorDrained.drainIn n))))) ∧
  (∀ (s : State) (n : PortId) (h : BitVec 256), n.val < 10 → s.live n = true →
      (∀ (data : List Byte) (e : PhysErr), mKind h = 1 → data.length = mLen h → data.length ≤ 4096 →
        (mDst h = s.moduleId → (s.port n).heldIn = [] → ∀ u : State,
          (s.takeWrite h data n (s.devEcc e) = (u, true) → exec (.write n h ⟨data, e⟩) s = .next (u.freeFlits n { hdr := h, data := data })) ∧
          (s.takeWrite h data n (s.devEcc e) = (u, false) → exec (.write n h ⟨data, e⟩) s =
            .next (u.setPort n { u.port n with heldIn := (u.port n).heldIn ++ [(h, data, s.devEcc e)] }))) ∧
        (mDst h = s.moduleId → exec (.write n h ⟨data, e⟩) s = .next ((s.drainIn n).dealWrites n [(h, data, s.devEcc e)])) ∧
        (mDst h ≠ s.moduleId → exec (.write n h ⟨data, e⟩) s = .next ((s.freeFlits n { hdr := h, data := data }).forward h data))) ∧
      (∀ v : State, mKind h = 2 → v = s.freeFlits n { hdr := h } →
        (mDst h ≠ v.moduleId → exec (.writeAck n h) s = .next (v.forward h [])) ∧
        (∀ m, mDst h = v.moduleId → (v.sends.find? fun m => decide (m.dst = mSrc h ∧ m.seq = mSeq h) && m.port.isSome) = some m →
          exec (.writeAck n h) s = .next (v.takeAck m (mStatus h)))) ∧
      (∀ (d : Byte) (q : BitVec 32) (m : MsgOut),
        (s.sends.find? fun m => decide (m.dst = d.toNat ∧ m.seq = q.toNat) && m.port.isSome && m.lost) = some m →
        exec (.messageResend d q) s = .next { (s.sendWrite m).1 with
          sends := (s.sendWrite m).1.sends.map fun x =>
            if decide (x.dst = d.toNat ∧ x.seq = q.toNat) && x.port.isSome && x.lost then (s.sendWrite m).2 else x }))

/-- HEARTBEAT, HEARTBEAT_TIMER, HEARTBEAT_ACK and MIRROR_ACK complete (R419 to R422): a paired module answers its partner's heartbeat, sends
its own, records the end of its partner's lease, and takes an acknowledgement newer than the last and no newer than what it has sent as the renewal of its lease from when that was sent. MIRROR_DATA,
MIRROR_SEAL and SHADOW_SYNC_COMPLETE complete at a shadow (R415, R416, R418, R419, R422): what is streamed is staged once under its tick; a seal in
sequence whose digest is that of what was staged for its tick, in the order of its numbers, is acknowledged with 0 and is due to be applied whole at
the next step 4 (the model's choice, log entry 29); any other is answered with 1, and the shadow gives up its copy; a copy of the primary's state that is complete waits for the boundary that commits it. -/
def Obligations.HeartbeatsAndMirrorsComplete : Prop :=
  (∀ (s : State) (n : PortId) (h : BitVec 256), (n.val = 10 ∨ n.val = 11) → s.live n = true → mSrc h = s.partnerId →
      (∀ v w : State, v = s.freeFlits n { hdr := h } → mKind h = 5 → s.mir.pair = .paired →
        w = { v.stampTime.2 with mir := { v.stampTime.2.mir with partnerEnd := some (v.stampTime.2.leaseFrom v.stampTime.1), graceOver := [] } } →
        exec (.heartbeat n h) s =
          .next (w.sendOn n { hdr := (MsgFields.hdr { kind := 6, dst := w.partnerId, src := w.moduleId, seq := mSeq h }) })) ∧
      (∀ (v : State) (t : Word), v = s.freeFlits n { hdr := h } → mKind h = 6 → s.mir.hbAcked < mSeq h → mSeq h ≤ s.mir.hbSeq →
        t = (((v.mir.hbAt.find? fun x => decide (x.1 = mSeq h)).map Prod.snd).getD 0) → exec (.heartbeatAck n h) s =
          .next (({ v with mir := { v.mir with
            hbAcked := mSeq h, hbAt := v.mir.hbAt.filter fun x => decide (mSeq h < x.1) } } : State).renewLease t)) ∧
      (mKind h = 6 → mSeq h ≤ s.mir.hbAcked → exec (.heartbeatAck n h) s = .next s) ∧
      (mKind h = 9 → mStatus h ≤ 1 → exec (.mirrorAck n h) s =
        .next (((s.freeFlits n { hdr := h }).sealAck (mPart h) (mStatus h) (BitVec.ofNat 64 (mWord h))).softCut)) ∧
      (s.tick.isOpen = true → exec .heartbeatTimer s = .next s.heartbeat)) ∧
  (∀ (s v : State) (n : PortId) (h : BitVec 256) (p : Nat) (m : MirPart), (n.val = 10 ∨ n.val = 11) → s.live n = true → mSrc h = s.partnerId →
      v.shadowOf (mPart h) = some p → m = v.mirp p →
      (∀ data : List Byte, v = s.freeFlits n { hdr := h, data := data } → mKind h = 7 → mLen h = data.length →
        (m.shadow ≠ 0 → mWord h ≠ 2 ^ 64 - 1 → (∀ x ∈ m.staged, x.1 ≠ BitVec.ofNat 64 (mWord h) ∨ x.2.1 ≠ mSeq h) →
          exec (.mirrorData n h data) s =
            .next (v.setMirp p { m with staged := m.staged ++ [(BitVec.ofNat 64 (mWord h), mSeq h, data)] })) ∧
        (m.shadow = 0 ∨ mWord h = 2 ^ 64 - 1 ∨ (∃ x ∈ m.staged, x.1 = BitVec.ofNat 64 (mWord h) ∧ x.2.1 = mSeq h) →
          exec (.mirrorData n h data) s = .next v)) ∧
      (∀ (sh : BitVec 1024) (tr : List Byte) (tick : Word) (data : List Byte) (w : State) (a : Nat → State),
        v = s.freeFlits n { hdr := h, data := leBytes 128 sh.toNat ++ tr } → mKind h = 8 → tick = BitVec.ofNat 64 (bits sh.toNat 127 64) →
        data = ((sortBy (fun x => (x.1, 0)) ((m.staged.filter fun x => decide (x.1 = tick)).map Prod.snd)).map Prod.snd).flatten →
        w = v.partnerLives →
        (a = fun st => w.sendOn n { hdr := MsgFields.hdr { kind := 9, dst := v.partnerId, src := v.moduleId, part := mPart h, word := tick.toNat,
                                                           status := st } }) →
        (bits sh.toNat 31 0 = 0x544C444D → m.shadow ≠ 0 → bits sh.toNat 191 128 = m.rxSeq + 1 →
          BitVec.ofNat 512 (bits sh.toNat 1023 512) = Config.shake256 (data ++ tr) →
          exec (.mirrorSeal n h sh tr) s = .next ((a 0).setMirp p { m with
            staged := m.staged.filter (fun x => decide (tick.toNat < x.1.toNat)), rxSeq := bits sh.toNat 191 128, lastSealed := tick,
            due := m.due ++ [(data, Config.trailerRecs tr)] })) ∧
        (¬(bits sh.toNat 31 0 = 0x544C444D ∧ m.shadow ≠ 0 ∧ bits sh.toNat 191 128 = m.rxSeq + 1 ∧
            BitVec.ofNat 512 (bits sh.toNat 1023 512) = Config.shake256 (data ++ tr)) →
          exec (.mirrorSeal n h sh tr) s = .next { (a 1).setMirp p { m with shadow := 0, staged := [] } with
            bg := (a 1).bg.filter fun b => !decide (b.kind = BgKind.shadowSync p) }))) ∧
  (∀ (s : State) (q : PartId) (data tr : List Byte),
      ((s.mirp q).shadow = 1 → exec (.shadowSyncComplete ⟨q, data, tr⟩) s = .next { s with
        bg := s.bg.map fun b => if b.kind = BgKind.shadowSync q then { b with done := true, data := data, params := tr } else b }) ∧
      ((s.mirp q).shadow ≠ 1 → exec (.shadowSyncComplete ⟨q, data, tr⟩) s = .next s))

/-- LEASE_EXPIRY, CLAIM_WATCHDOG, GRACE_EXPIRY, PAIR_CLAIM_IN_CHANGE, MIR_PROMOTED and MIR_DISABLE complete (R423 to R426, R486): without a
witness an expired lease fences the module, and with one the module goes on alone and publishes what it held back; a missed boundary withdraws its
claim until one completes; a shadow that is READY is promoted when the grace has passed since the end of its partner's lease, but with a witness
waits while the partner's claim stands; a promotion is complete at once, or, where seals are still to be applied, in the next step 4. -/
def Obligations.LeasesClaimsAndPromotions : Prop :=
  ∀ (s : State) (p : PartId),
    (∀ v : State, v = s.timeTo s.mir.leaseEnd → s.mir.pair = .paired → s.mir.leaseHeld = true → s.serves = true →
      (s.fld rMirCtrl 4 4 = 0 → exec .leaseExpiry s = .next (v.fencePair .firmware)) ∧
      (∀ u : State, s.fld rMirCtrl 4 4 ≠ 0 →
        u = v.mirroredParts.foldl (fun t p => (t.mirp p).stalledPub.foldl (fun t x => t.doPub x.2)
          (t.setMirp p { t.mirp p with stalledPub := [], seals := [], sealAt := [], unacked := [], streamed := [] })) v →
        exec .leaseExpiry s =
          .next ({ u with mir := { u.mir with pair := .degraded, leaseHeld := false, held := [] } } : State).claim.softCut)) ∧
    exec .claimWatchdog s = .next { s with mir := { s.mir with claimOut := false, claimOff := true } } ∧
    (∀ (e : Word) (v : State), s.mir.partnerEnd = some e → v = s.timeTo (e + BitVec.ofNat 64 (1000 * s.fld rMirGrace 31 0)) →
      s.isShadow p = true → (s.mirp p).shadow = 2 → s.mir.pair ≠ .off → s.mir.pair ≠ .forming →
      ((s.fld rMirCtrl 4 4 ≠ 1 ∨ s.mir.claimIn = false) → exec (.graceExpiry p) s = .next (v.beginPromotion p)) ∧
      (s.fld rMirCtrl 4 4 = 1 → s.mir.claimIn = true → p.val ∉ s.mir.graceOver →
        exec (.graceExpiry p) s = .next { v with mir := { v.mir with graceOver := v.mir.graceOver ++ [p.val] } })) ∧
    exec (.pairClaimInChange true) s = .next { s with mir := { s.mir with claimIn := true } } ∧
    exec (.pairClaimInChange false) s = .next (s.mir.graceOver.foldl (fun t q => t.beginPromotion q)
      { s with mir := { s.mir with claimIn := false, graceOver := [] } }) ∧
    ((s.mirp p).promoting = true →
      ((s.mirp p).due = [] → (∀ q, q ≠ p.val → (s.mirp q).promoting = false) → ∃ t, exec (.mirPromoted p) s = .next t ∧
        t.mir.pair = .solo ∧ (t.mirp p).shadow = 3 ∧ (t.mirp p).promoting = false ∧ (t.mirp p).launches = []) ∧
      ((s.mirp p).due ≠ [] → exec (.mirPromoted p) s = .next (s.setMirp p { s.mirp p with promoteDue := true }))) ∧
    (∀ v : Word, bit v.toNat 0 = false → s.barOpen rMirCtrl = true →
      exec (.mirDisable v) s = .next (s.writeBits rMirCtrl v (BitVec.allOnes 64)).mirOff)

/-- HALF_REGISTER_READ and WAKE_PEAK_READ complete (R48, R245, R476): a read of the low half returns bits 31:0 and latches bits 63:32, and
the next read of that register's high half returns the latched half, whatever the register holds by then. A read of STK_WAKE by
WAKE_PEAK_READ returns the register and clears its peak (R245). A request that a function in RUN does not support changes no register and returns
no data (R473). -/
def Obligations.TwoHalfReadsSeeOneValue : Prop :=
  (∀ (s : State) (q : BarReq) (off : Nat), s.unsupported q = true → exec (.halfRegisterRead q off) s = .next { s with freeCtr := s.freeCtr + 1 }) ∧
  (∀ (s : State) (q : BarReq) (r : Requester) (off : Nat) (w : Word), r = q.who → s.unsupported q = false → off % 8 = 0 →
      w = s.readTarget (s.target r off) →
      ∃ t, exec (.halfRegisterRead q off) s = .next t ∧ t.readData = w &&& 0xFFFFFFFF ∧ t.regs = s.regs ∧ t.mem = s.mem ∧ t.host = s.host ∧
        ∀ t' : State, t'.unsupported q = false → t'.latch = t.latch → (t'.target r off).key = (s.target r off).key →
          ∃ u, exec (.halfRegisterRead q (off + 4)) t' = .next u ∧ u.readData = (w.extractLsb' 32 32).setWidth 64 ∧
            u = { t' with latch := u.latch, readData := u.readData, freeCtr := t'.freeCtr + 1 }) ∧
  (∀ (s : State) (st : StackId), s.barOpen (stkBase st + rStkWake) = true → ∃ t, exec (.wakePeakRead st) s = .next t ∧
      t.readData = s.regWord (stkBase st + rStkWake) false ∧ (t.stk st).wakePeak = 0 ∧ (∀ q, q ≠ st.val → t.stk q = s.stk q) ∧
      t.cores = s.cores ∧ t.regs = s.regs ∧ t.mem = s.mem ∧ t.host = s.host)

/-- REGISTER_WRITE and GUARDED_WRITE complete (R22, R476): an aligned 8-byte write is applied as one write; a 4-byte write to a low half is
held, and with its high half next is applied as one; a high half with nothing held is applied alone; a narrower or a crossing one is dropped
and counted. An offset that no map defines ignores its write, and a request that a function in RUN does not support changes nothing (R473). -/
def Obligations.WritesAreAppliedHeldOrDropped : Prop :=
  ∀ (s : State) (q : BarReq) (r : Requester) (off : Nat) (v : Word), r = q.who →
    (s.unsupported q = true → (∀ n, exec (.registerWrite q off n v) s = .next s) ∧ exec (.guardedWrite q off v) s = .next s) ∧
    (s.unsupported q = false → s.jormirUp = true → s.heldHalf r = none →
    (off % 8 = 0 → exec (.registerWrite q off 8 v) s = .next (s.writeTarget (s.target r off) v (BitVec.allOnes 64))) ∧
    (∀ o x, off % 8 = 0 → s.target r off = .reg o false → regRef o = some x → guarded x = true →
      exec (.guardedWrite q off v) s = .next (s.writeTarget (s.target r off) v (BitVec.allOnes 64))) ∧
    (off % 8 = 0 → (s.target r off).holds = true → ∃ t, exec (.registerWrite q off 4 v) s = .next t ∧
      t = { s with regHeld := t.regHeld } ∧ t.heldHalf r = some { off := off, low := v.setWidth 32 } ∧
      ∀ v2 : Word, ∃ u, exec (.registerWrite q (off + 4) 4 v2) t = .next u ∧
        u = ({ t with regHeld := t.regHeld.del r } : State).writeTarget (s.target r off) ((v2 <<< 32) ||| (v.setWidth 32).setWidth 64)
          (BitVec.allOnes 64)) ∧
    (off % 8 = 4 → exec (.registerWrite q off 4 v) s = .next (s.writeTarget (s.target r (off - 4)) (v <<< 32) highMask)) ∧
    (∀ n : Nat, n < 4 → exec (.registerWrite q off n v) s = .next s.badWrite) ∧
    (off % 8 = 0 → s.target r off = .nothing → exec (.registerWrite q off 8 v) s = .next s))

/-- VF_ENABLE, D3HOT_ENTRY and the function level resets complete (R469, R471, R472): the functions are enabled in HIF_STATUS, and entering
D3hot is a function level reset of that function. The sessions, the stream keys and the interface states complete (R453, R454, R473): keys
are programmed only inside a session of the function, the stream switches only to a key set that it holds; an interface is locked only while
its partition is ACTIVE, and runs only over a stream with keys. An SPDM session holds the secret of its ML-KEM-1024 exchange and the responder's Ed448
signature (R454). That host accesses wait while LOCKED, and go out as the state is left, is the model's choice (log entry 170). -/
def Obligations.FunctionsAndInterfacesComplete : Prop :=
  (∀ (s : State),
      (∀ n : Fin 17, s.jormirUp = true → exec (.vfEnable n) s = .next (s.setFld rHifStatus 20 16 n)) ∧
      (∀ p : PartId, exec (.functionLevelResetVf p) s = .next (s.flrVf p)) ∧ exec .functionLevelResetPf s = .next s.flrPf ∧
      exec (.d3hotEntry 0) s = exec .functionLevelResetPf s ∧
      (∀ (f : Fin 17) (p : PartId), f.val = p.val + 1 → exec (.d3hotEntry f) s = exec (.functionLevelResetVf p) s)) ∧
  (∀ (s : State) (p : PartId) (f : Fin 17),
      (∀ (u : State) (e : SpdmReq), u = s.wake 5 → u.secOn = true → u.inSession e.endpoint = false →
        exec (.spdmSession e) s = .next { u with
          sec := { u.sec with sessions := u.sec.sessions ++ [{
            endpoint := e.endpoint, secret := Config.mlkem u.freeCtr e.kem,
            sig := (List.range 114).map (Config.signature (digestBytes e.transcript)) }] },
          freeCtr := u.freeCtr + 1 }) ∧
      (s.secOn = true → s.inSession f = true → s.sec.keys.ide.contains (2 * f.val) = false →
        exec (.ideKm f false) s = .next { s with sec := { s.sec with keys := { s.sec.keys with ide := s.sec.keys.ide ++ [2 * f.val] } } }) ∧
      (∀ b : Bool, s.inSession f = false → exec (.ideKm f b) s = .next s) ∧
      (s.secOn = true → s.sec.keys.ide.contains (2 * f.val + 1) = true → exec (.kSetGo f true) s =
        .next { s with sec := { s.sec with keys := { s.sec.keys with ideSet := SMap.set 0 s.sec.keys.ideSet f.val 2 } } }) ∧
      (s.secOn = true → (s.part p).tdi = 0 →
        ((s.part p).st = .active → exec (.lockInterface p) s = .next (s.setTdi p 1)) ∧
        ((s.part p).st ≠ .active → exec (.lockInterface p) s = .next s)) ∧
      (s.secOn = true → (s.part p).tdi = 1 →
        (SMap.get 0 s.sec.keys.ideSet (p + 1) ≠ 0 → exec (.startInterface p) s = .next (s.setTdi p 2)) ∧
        (SMap.get 0 s.sec.keys.ideSet (p + 1) = 0 → exec (.startInterface p) s = .next s)) ∧
      (s.jormirUp = true → (s.part p).tdi ≠ 0 → exec (.stopInterface p) s = .next (s.leaveTdi p 0)) ∧
      (s.jormirUp = true → (s.part p).tdi = 1 ∨ (s.part p).tdi = 2 → exec (.tdiError p) s = .next (s.leaveTdi p 3)))

/-- TAMPER_RESPONSE and ZEROISE complete (R435, R464): every session, stream and link key is gone, the module is parked, and, for a sensor,
the condition is kept and, where the supply allows it, logged. A write of any other value to SEC_ZEROISE changes nothing.
ATTESTATION_REQUEST and the unlock rows complete (R460, R463): a request is answered, a nonce is drawn and kept, a token that verifies
against one is due at the next boundary and its nonce is used up, and an unlock past its last tick lapses. -/
def Obligations.KeysAreDestroyedAndUnlocksGranted : Prop :=
  (∀ (s : State),
      (∀ (x : BitVec 4) (b : Bool), x ≠ 0 → s.jormirUp = true → ∃ t, exec (.tamperResponse x b) s = .next t ∧
        t.sec.keys = {} ∧ t.sec.sessions = [] ∧ t.sec.parked = true ∧ t.sec.tamper = s.sec.tamper ||| x.toNat ∧
        (∀ n : PortId, (t.port n).keys = false) ∧ t.mem = s.mem ∧ t.host = s.host) ∧
      (∀ v : Word, s.barOpen rSecZeroise = true →
        (v.toNat % 2 ^ 32 = 0x5A45524F → ∃ t, exec (.zeroise v) s = .next t ∧ t.sec.keys = {} ∧ t.sec.sessions = [] ∧ t.sec.parked = true ∧
          (∀ n : PortId, (t.port n).keys = false) ∧ t.mem = s.mem ∧ t.host = s.host) ∧
        (v.toNat % 2 ^ 32 ≠ 0x5A45524F → exec (.zeroise v) s = .next s))) ∧
  (∀ (s u : State), u = s.wake 5 →
      (∀ (f : Fin 17) (n : BitVec 256), u.secOn = true → u.sec.keys.attest = true → u.sec.bootCert.isSome = true →
        exec (.attestationRequest f n) s = .next (u.attest f n)) ∧
      (u.secOn = true → exec .unlockNonceRequest s =
        .next { u.draw256.2 with sec := { u.draw256.2.sec with nonces := u.draw256.2.sec.nonces ++ [u.draw256.1] } }) ∧
      (∀ k : BitVec 1536, u.secOn = true → u.tokenOk k = true → u.scopeRefused (tokScope k) = false →
        exec (.unlockRequest k) s = .next { u with
          sec := { u.sec with
            unlockDue := some { scope := tokScope k, lastTick := tokLast k }, nonces := u.sec.nonces.filter fun n => !decide (n = tokNonce k) } }) ∧
      (∀ k : BitVec 1536, u.secOn = true → u.tokenOk k = false ∨ u.scopeRefused (tokScope k) = true →
        exec (.unlockRequest k) s = .next u) ∧
      (∀ l, s.sec.unlock = some l →
        (l.lastTick < s.tickNo.toNat → exec .unlockExpiry s = .next (({ s with sec := { s.sec with unlock := none } } : State).extendSlot 4
          (Config.measured 4 (if s.sec.approved then 8 else 0))).scanFalls) ∧
        (s.tickNo.toNat ≤ l.lastTick → exec .unlockExpiry s = .next s)))

/-- The supply's faults complete (R489 to R491, R504, R510): undervoltage and overvoltage take the module down abruptly with their cause; a
rail's fault and an in-rush that fails are latched, with the rail named; a thermal fault acts at once; the latch is released, and a supply
that has recovered brings the module up again. The module powers up and down and is reset (R504, R505, R510, R512, R542): with the fault
latched nothing starts; PWR_EN falling takes the module down in order; PWR_CYCLE_N takes it down and up; MODULE_RESET_N holds it in reset
and its release frees it; a fall of the input below 40 V loses all but what power-up brings back. -/
def Obligations.SupplyAndResetsComplete : Prop :=
  (∀ (s : State),
      (s.pwr.aon = true → s.pwr.off = false →
        exec .undervoltage s = .next (({ s with pwr := { s.pwr with inputOk := false } } : State).faultCause 1).goOff ∧
        exec .overvoltage s = .next (({ s with pwr := { s.pwr with overV := true } } : State).faultCause 2).goOff) ∧
      (∀ r : BitVec 4, s.pwr.off = false → 1 ≤ r.toNat → r.toNat ≤ 10 →
        exec (.railFault r) s = .next ((s.setFld rPwrStatus 43 40 r.toNat).latchFault 3)) ∧
      exec .thermalFault s = .next s.thermal ∧
      (s.pwr.aon = true → s.pwr.off = true → s.pwr.latched = false → exec .inRush s = .next (s.latchFault 5)) ∧
      (s.pwr.latched = true → exec .faultLatchRelease s =
        .next { s with pwr := { s.pwr with latched := false, alert := false, pwrEn := false } }) ∧
      (s.pwr.aon = true → s.pwr.off = true → s.pwr.latched = false → s.pwr.pwrEn = true →
        ((s.fld rPwrStatus 39 32 = 1 ∧ s.pwr.inputOk = false) ∨ (s.fld rPwrStatus 39 32 = 2 ∧ s.pwr.overV = true)) →
        exec .faultRestart s = .next s.goUp)) ∧
  (∀ (s : State),
      (s.pwr.aon = true → s.pwr.off = true →
        (s.pwr.latched = false → exec .powerUp s = .next s.goUp) ∧ (s.pwr.latched = true → exec .powerUp s = .next s)) ∧
      (s.pwr.off = false → exec .powerDown s = .next ({ s with pwr := { s.pwr with pwrEn := false } } : State).orderly) ∧
      (s.pwr.aon = true → s.pwr.off = true → s.pwr.pwrEn = true → s.pwr.inputOk = true → s.pwr.overV = false →
        exec .pwrCycleN s = .next ({ s with pwr := { s.pwr with latched := false, alert := false } } : State).goUp) ∧
      (s.pwr.off = false → ∃ t, exec .moduleResetNAssert s = .next t ∧ t.pwr.resetHeld = true ∧ t.cores = [] ∧ t.flights = [] ∧
        t.sec.images = s.sec.images ∧ ∀ off, t.barOpen off = false) ∧
      (s.pwr.resetHeld = true → exec .moduleResetNRelease s =
        .next ({ s with pwr := { s.pwr with resetHeld := false } } : State).scanFalls) ∧
      (∀ b : BitVec 2, s.pwr.aon = false → ∃ t, exec (.alwaysOnDomainStart b) s = .next t ∧ t.pwr.smbus = 0x58 + b.toNat ∧ t.pwr.off = true ∧
        t.pwr.aon = true) ∧
      (∃ t, exec .alwaysOnDomainReset s = .next t ∧ t.pwr.aon = false ∧ t.pwr.off = true ∧ t.cores = [] ∧ t.sec.images = s.sec.images))

/-- BOOT completes once from each power-up or release of a reset (R444, R445, R446, R455, R506): a Jormir image that does not verify or load, a
configuration record of which neither bank verifies, or a check that fails stops it at its stage; with every check passed, the stages run to
the end, on the record of the bank that verifies. -/
def Obligations.BootRunsItsStages : Prop :=
  ∀ (s v : State) (o : BootObs), s.pwr.off = false → s.pwr.pwrGood = true → s.pwr.resetHeld = false → s.pstate = 0 → s.bootDone = false →
    s.sec.parked = false → s.fld rPwrBoot 3 0 = 0 → (o.otherBank = false → v = s) → (o.otherBank = true → v = s.activate 1) →
    (o.monitorOk = false ∨ v.monitor.any FwImage.verified = false → exec (.boot o) s = .next (v.bootStops 6)) ∧
    (o.monitorOk = true → v.monitor.any FwImage.verified = true →
      (o.recordOk = false → v.sec.spare = none ∨ o.spareOk = false → exec (.boot o) s = .next (v.bootStops 7)) ∧
      (∀ r : State, (o.recordOk = true → r = { v with sec := { v.sec with spare := if o.spareOk then v.sec.spare else none } }) →
        (o.recordOk = false → o.spareOk = true ∧ ∃ c, v.sec.spare = some c ∧ r = { v with sec := { v.sec with record := c, spare := none } }) →
        (r.monitor.any r.loads = false → exec (.boot o) s = .next (r.bootStops 6)) ∧
        (∀ u w : State, r.monitor.any r.loads = true → u = r.bootEarly.setFld rPwrBoot 55 40 o.stackFail.toNat → w = u.reloadFirmware →
          (o.cryptoOk = false → exec (.boot o) s = .next r.bootEarly.cryptoError) ∧
          (o.cryptoOk = true → o.stackFail ≠ 0 → exec (.boot o) s = .next (u.bootStops 8)) ∧
          (o.cryptoOk = true → o.stackFail = 0 →
            (o.firmwareOk = false → exec (.boot o) s = .next (u.park 0x03)) ∧
            (o.firmwareOk = true → w.sec.parked = true → exec (.boot o) s = .next w) ∧
            (o.firmwareOk = true → w.sec.parked = false → o.crossingsOk = false ∨ o.ringOk = false →
              exec (.boot o) s = .next (w.bootStops 8)) ∧
            (o.firmwareOk = true → w.sec.parked = false → o.crossingsOk = true → o.ringOk = true →
              exec (.boot o) s = .next (w.bootEnds o))))))

/-- IDLE_HOLD and WATCH are entered and left (R497 to R500, R502, R512): a running module whose generator is stopped goes to IDLE_HOLD with
every hall at OP0; the entry of WATCH ends with the halls off, and its exit with them on again, unless the runtime firmware does not verify, which
parks the module; WAKE or a management request ends it, as do the watch sequencer's limits, of
which the first exceeded is the cause. -/
def Obligations.IdleHoldAndWatchComplete : Prop :=
  ∀ (s : State),
    (s.pstate = 1 → s.genIdle = true → ∃ t, exec .idleHoldEntry s = .next t ∧ t.pstate = 2 ∧ (∀ h : Fin 4, t.opNow h = 0) ∧
      t.mem = s.mem ∧ t.host = s.host ∧ t.cores = s.cores ∧ t.stks = s.stks) ∧
    (s.barOpen rPwrCtrl = true → exec .watchReq s = .next s.watchReq ∧ exec (.wake false) s = .next (s.wake 1)) ∧
    exec (.wake true) s = .next (s.wake 5) ∧
    (∀ u : State, s.pstate = 3 → u = s.hallsLose.countFld rPwrCounts 63 48 1 →
      (u.pwr.wakeDue = false → u.pwr.perst = false → exec .watchEntryComplete s =
        .next (({ u with pwr := { u.pwr with isolated := true, hallsOn := false, wakeDue := false } } : State).setPstate 4)) ∧
      (u.pwr.wakeDue = true ∨ u.pwr.perst = true → exec .watchEntryComplete s =
        .next (({ u with pwr := { u.pwr with isolated := true, hallsOn := false, wakeDue := false } } : State).setPstate 5))) ∧
    (∀ (m : PowerMeas) (u : State), s.pstate = 4 →
      u = ((s.setFld rPwrMeas 63 48 (m.vin % 65536)).setFld rPwrMeas 15 8 (m.inlet % 256)).setFld rPwrMeas 7 0 (hotDie m % 256) →
      (110 ≤ hotDie m → exec (.watchSample m) s = .next u.thermal) ∧
      (hotDie m < 110 → u.fld rPwrWatch 47 40 < m.inlet → exec (.watchSample m) s = .next (u.wake 2)) ∧
      (hotDie m < 110 → m.inlet ≤ u.fld rPwrWatch 47 40 → u.fld rPwrWatch 55 48 < m.stackC.foldl max 0 →
        exec (.watchSample m) s = .next (u.wake 3)) ∧
      (hotDie m < 110 → m.inlet ≤ u.fld rPwrWatch 47 40 → m.stackC.foldl max 0 ≤ u.fld rPwrWatch 55 48 →
        m.vin < 25 * u.fld rPwrWatch 39 32 → exec (.watchSample m) s = .next (u.wake 4)) ∧
      (hotDie m < 110 → m.inlet ≤ u.fld rPwrWatch 47 40 → m.stackC.foldl max 0 ≤ u.fld rPwrWatch 55 48 →
        25 * u.fld rPwrWatch 39 32 ≤ m.vin → exec (.watchSample m) s = .next u)) ∧
    (∀ u : State, s.pstate = 5 → u = ((s.setPstate 2).allDies 0).reloadFirmware →
      (u.sec.parked = true → exec .watchExitComplete s = .next u) ∧
      (u.sec.parked = false → s.pwr.perst = false → ∃ t, exec .watchExitComplete s = .next t ∧ t.pwr.isolated = false ∧
        t.pwr.hallsOn = true ∧ t.mem = s.mem ∧ t.host = s.host))

/-- PCIE_PERST_N, PCIE_LINK_TRAINED and PLDM_REQUEST complete (R468, R474, R499, R504, R507, R512): a reset of the link is a reset of the
PCIe functions, or, from the low-power states, a wake with the reset due; a link that has trained is reported as it trained, and one that boundary scan had taken down is reset first. -/
def Obligations.PcieLinkCommandsComplete : Prop :=
  ∀ (s : State),
    (s.pwr.off = false →
      (3 ≤ s.pstate → s.pstate ≤ 5 → exec .pciePerstN s = .next (({ s with pwr := { s.pwr with perst := true } } : State).wake 6)) ∧
      (s.pstate < 3 → s.bootDone = true → exec .pciePerstN s = .next s.perstReset) ∧
      (s.pstate < 3 → s.bootDone = false → exec .pciePerstN s = .next s.pcieReset)) ∧
    (∀ (f : Bool) (w : BitVec 5) (g : BitVec 4) (u v : State), s.pwr.off = false → s.pwr.pwrGood = true → s.pwr.resetHeld = false →
      w.toNat ∈ [1, 2, 4, 8, 16] → 1 ≤ g.toNat → g.toNat ≤ 6 → (s.dbg.scanLink = false → v = s) →
      (s.dbg.scanLink = true → v = ({ s with dbg := { s.dbg with scanLink := false } } : State).perstReset) →
      u = ((v.setFld rHifStatus 13 13 (if f then 1 else 0)).setFld rHifStatus 12 8 w.toNat).setFld rHifStatus 7 4 g.toNat →
      exec (.pcieLinkTrained f w g) s = .next { u with pwr := { u.pwr with linkUp := true } }) ∧
    (∀ n : Byte, exec (.pldmRequest n) s = .next (s.wake 5))

/-- PARTITION_CREATE, PARTITION_DESTROY, CTX_CREATE and CTX_DESTROY complete (R481, R485): an absent partition is being created, one that is
active or stopped has its destruction due at the next boundary, one whose interface is LOCKED or in RUN is refused and flagged; a context's
command acts only in an ACTIVE partition. FE_DISABLE and ENGINE_EN_CLEAR complete (R16, R486): the enable reads 0 and the other fields are
written; clearing an engine that is enabled while the module runs is a hard stop of the module, and clearing one that is not enabled changes
nothing. -/
def Obligations.PartitionsContextsAndEnablesComplete : Prop :=
  (∀ (s : State) (p : PartId),
      (s.barOpen (pfBase p) = true →
        ((s.part p).st = .absent → exec (.partitionCreate p) s = .next (s.setPart p { s.part p with st := .creating })) ∧
        ((s.part p).st ≠ .absent → exec (.partitionCreate p) s = .next (s.flag rPrtStatus 0)) ∧
        ((s.part p).tdi = 1 ∨ (s.part p).tdi = 2 → exec (.partitionDestroy p) s = .next (s.flag rPrtStatus 1)) ∧
        ((s.part p).tdi ≠ 1 → (s.part p).tdi ≠ 2 → (s.part p).st = .active ∨ (s.part p).st = .softStopped ∨ (s.part p).st = .hardStopped →
          exec (.partitionDestroy p) s = .next (s.pend (pfBase p + rPrtLife) 1 1 1))) ∧
      (∀ v : Word, s.barOpen (sliceBase p) = true →
        (∀ h, (s.part p).st = .active → bits v.toNat 1 0 = 1 → h = bits v.toNat 31 16 →
          (h ≠ 0 → s.ctx p h = none → bits v.toNat 15 8 ≠ 0 → (s.part p).held < s.fld (pfBase p + rPrtQuota) 8 0 → bit v.toNat 2 = true →
            exec (.ctxCreate p v) s = .next ((s.setCtx p h (some { job := bits v.toNat 63 32, weight := bits v.toNat 15 8,
                                                                   seed := s.reg (sliceBase p + rCtxSeed), seedGiven := true })).ctxResult p h 0)) ∧
          (h ≠ 0 → s.ctx p h = none → bits v.toNat 15 8 ≠ 0 → (s.part p).held < s.fld (pfBase p + rPrtQuota) 8 0 → bit v.toNat 2 = false →
            exec (.ctxCreate p v) s = .next ((s.draw.2.setCtx p h (some { job := bits v.toNat 63 32, weight := bits v.toNat 15 8,
                                                                          seed := s.draw.1, seedGiven := false })).ctxResult p h 0)) ∧
          (h = 0 ∨ (s.ctx p h).isSome = true → exec (.ctxCreate p v) s = .next (s.ctxResult p h 0x03)) ∧
          (h ≠ 0 → s.ctx p h = none → bits v.toNat 15 8 = 0 → exec (.ctxCreate p v) s = .next (s.ctxResult p h 0x04)) ∧
          (h ≠ 0 → s.ctx p h = none → bits v.toNat 15 8 ≠ 0 → s.fld (pfBase p + rPrtQuota) 8 0 ≤ (s.part p).held →
            exec (.ctxCreate p v) s = .next (s.ctxResult p h 0x08))) ∧
        ((s.part p).st = .active → bits v.toNat 1 0 ≠ 1 → bits v.toNat 1 0 ≠ 2 →
          exec (.ctxCreate p v) s = .next (s.ctxResult p (bits v.toNat 31 16) 0x01)) ∧
        ((s.part p).st = .active → bits v.toNat 1 0 = 2 → exec (.ctxDestroy p v) s = .next (s.ctxDestroy p v)) ∧
        ((s.part p).st ≠ .active → bits v.toNat 1 0 = 2 → exec (.ctxDestroy p v) s = .next (s.flag (sliceBase p + rPartStatus) 8)) ∧
        ((s.part p).st ≠ .active → bits v.toNat 1 0 ≠ 2 → exec (.ctxCreate p v) s = .next (s.flag (sliceBase p + rPartStatus) 8)))) ∧
  (∀ (s : State),
      (∀ v : Word, bit v.toNat 0 = false → s.barOpen rFeCtrl = true →
        exec (.feDisable v) s = .next ((s.writeBits rFeCtrl v (BitVec.allOnes 64)).setFld rFeCtrl 0 0 0)) ∧
      (∀ (e : EngineEn) (u : State), s.barOpen (engineReg e) = true →
        (s.fld (engineReg e) 0 0 = 0 → exec (.engineEnClear e) s = .next s) ∧
        (s.fld (engineReg e) 0 0 ≠ 0 → u = s.setFld (engineReg e) 0 0 0 →
          (u.genState ≠ 1 → u.genState ≠ 2 → exec (.engineEnClear e) s = .next u) ∧
          (u.genState = 1 ∨ u.genState = 2 → ∃ t, exec (.engineEnClear e) s = .next t ∧ t.genState = 4 ∧ t.tick.isOpen = false ∧
            (∀ q : Fin 16, (s.part q).st = .active ∨ (s.part q).st = .softStopping → (t.part q).st = .hardStopping) ∧
            (∀ q : Fin 16, (s.part q).st ≠ .active → (s.part q).st ≠ .softStopping → t.part q = s.part q)))))

/-- SAMPLE, RESET and SAMPLE_RESET complete (R517, R518): of each unit that the command names, the masked counters' samples become their
live values, the masked live counters become 0, or the first and then the second, and no other unit's counters change. RING_SELECT,
EVENT_RECORD_ACCEPT, EVENT_RING_ROOM, TRACE_RECORD, ERROR_INJECT and APERTURE_ACCESS complete (R520, R523, R525 to R532, R536): the router
takes a unit's oldest unsent record; a ring with room again is written what it held back; a traced record is collected, or with no room
counted lost; without a TEST unlock no error is injected; a read of the aperture returns its word. -/
def Obligations.CountersAndDebugCommandsComplete : Prop :=
  (∀ (s : State) (u : Byte) (m : BitVec 4), s.barOpen rDbgCmd = true → u.toNat < 208 →
      ∃ t1 t2 t3, exec (.sample u m) s = .next t1 ∧ exec (.reset u m) s = .next t2 ∧ exec (.sampleReset u m) s = .next t3 ∧
        (∀ t, t = t1 ∨ t = t2 ∨ t = t3 → t = { s with dbg := { s.dbg with perf := t.dbg.perf } } ∧
          ∀ v, v ≠ u.toNat → SMap.get {} t.dbg.perf v = SMap.get {} s.dbg.perf v) ∧
        (∀ k < 4, ∀ p : State → PerfSt, (p = fun t => SMap.get {} t.dbg.perf u.toNat) →
          (p t1).sample.getD k 0 = (if bit m.toNat k then (p s).live.getD k 0 else (p s).sample.getD k 0) ∧
          (p t2).live.getD k 0 = (if bit m.toNat k then 0 else (p s).live.getD k 0) ∧
          (p t3).sample.getD k 0 = (p t1).sample.getD k 0 ∧ (p t3).live.getD k 0 = (p t2).live.getD k 0)) ∧
  (∀ (s : State),
      (∀ v : Word, s.barOpen rDbgRingSel = true → exec (.ringSelect v) s = .next (s.setFld rDbgRingSel 15 0 (v.toNat % 65536))) ∧
      (∀ (u : Byte) (l : List (Nat × Nat)) (r : EventRec) (t : List EventRec), (s.ring u.toNat).unsent = r :: t → r.part = none →
        ∀ w : State, w = s.setRing u.toNat { s.ring u.toNat with unsent := t } →
        (w.fld rDbgCtrl 7 6 < r.prio → exec (.eventRecordAccept u l) s = .next w) ∧
        (r.prio ≤ w.fld rDbgCtrl 7 6 → exec (.eventRecordAccept u l) s =
          .next ((w.evHeadIs 0 (headAt l (w.wordAt (evHead 0)) (w.evRing 0).head)).evOffer 0 (w.redact r)))) ∧
      (∀ (f : Fin 17) (h : BitVec 32), exec (.eventRingRoom f h) s = .next ((s.evHeadIs f h.toNat).evFlush f)) ∧
      (∀ (u : Byte) (r : BitVec 128), s.traced u.toNat r = true →
        ((s.ring u.toNat).traceLost = 0 → exec (.traceRecord u r true) s = .next (s.collect r)) ∧
        exec (.traceRecord u r false) s =
          .next (s.setRing u.toNat { s.ring u.toNat with traceLost := (s.ring u.toNat).traceLost + 1 }).traceDrop) ∧
      (∀ v : Word, s.barOpen rTstInject = true →
        (s.unlocked 3 = false → exec (.errorInject v) s = .next (s.flag rTstStatus 0)) ∧
        (s.unlocked 3 = true → bit v.toNat 11 = true → bits v.toNat 10 8 ≠ 0 →
          exec (.errorInject v) s = .next { s with dbg := { s.dbg with inject := some (bits v.toNat 10 8, bits v.toNat 7 0) } })) ∧
      (∀ (off : Nat) (v : Word), s.barOpen rDbgAperture = true →
        exec (.apertureAccess off false v) s = .next { s with readData := s.bar2 (off / 8 * 8), freeCtr := s.freeCtr + 1 } ∧
        (s.heldHalf 0 = none → exec (.apertureAccess off true v) s = .next (s.bar2Write (off / 8 * 8) v))))

/-- The boundary-scan port completes its instructions while power is good (R533 to R535): IDCODE, BYPASS, SAMPLE_PRELOAD and a reset of the
port are always taken; the instructions that drive or float the pins are taken only while scan is enabled, and otherwise select BYPASS and
set SCAN_REFUSED. -/
def Obligations.BoundaryScanComplete : Prop :=
  ∀ (s : State), s.tapOn = true →
    exec .idcode s = .next (s.tapSelect .idcode false false) ∧ exec .bypass s = .next (s.tapSelect .bypass false false) ∧
    exec .tapReset s = .next (s.tapSelect .idcode false false) ∧
    (∀ v : Word, exec (.samplePreload v) s = .next { s.tapSelect .samplePreload false false with
      dbg := { (s.tapSelect .samplePreload false false).dbg with boundary := v } }) ∧
    (∀ (cmd : Instr) (i : TapInstr) (f : Bool),
      (cmd, i, f) ∈ [(Instr.extest, TapInstr.extest, false), (.clamp, .clamp, false), (.highz, .highz, true),
        (.extestPulse, .extestPulse, false), (.extestTrain, .extestTrain, false)] →
      (s.scanOn = false → exec cmd s = .next ((s.tapSelect .bypass false false).flag rTstStatus 1)) ∧
      (s.scanOn = true → s.pwr.linkUp = false → exec cmd s = .next (s.tapSelect i (!f) f)) ∧
      (s.scanOn = true → s.pwr.linkUp = true → exec cmd s = .next { s.tapSelect i (!f) f with
        pwr := { s.pwr with linkUp := false }, dbg := { (s.tapSelect i (!f) f).dbg with scanLink := true } }))

/-- FIRMWARE_REMEASURE, KNOWN_ANSWER_TEST, ENTROPY_HEALTH_TEST and JORMIR_SELF_CHECK complete (R363, R389, R434, R438): a measured image
that is the running one is recorded, another begins a landing 4; a failed test puts the cryptography in its error state, a failed self check
parks the module. PLDM_FIRMWARE_UPDATE, FIRMWARE_ACTIVATE and RESULT_DIGEST_COMPLETE complete (R446, R457, R461, R462): an image that
verifies is staged, and one that does not changes nothing but the wake that its request is; activating the runtime firmware is a landing 4,
and Jormir's awaits the next start; the record of a digest, over the flight's declared output ranges, goes to its place in host memory or stack
memory, and a line of them that fails leaves none; ranges in host memory wait while the interface is LOCKED (R473; log entry 170). -/
def Obligations.SelfTestsUpdatesAndDigestsComplete : Prop :=
  (∀ (s : State),
      (∀ (f : FwImage) (image : List Byte), s.secOn = true → s.sec.parked = false → s.sec.lastMeasure + 65536 ≤ s.tickNo.toNat → s.firmware = some f →
        (f.image = image → exec (.firmwareRemeasure image) s = .next { s with sec := { s.sec with lastMeasure := s.tickNo.toNat } }) ∧
        (f.image ≠ image → exec (.firmwareRemeasure image) s = .next (s.landing4 242 0x2A))) ∧
      exec (.knownAnswerTest true) s = .next s ∧ exec (.entropyHealthTest true) s = .next s ∧ exec (.jormirSelfCheck true) s = .next s ∧
      (s.secOn = true → exec (.knownAnswerTest false) s = .next s.cryptoError ∧ exec (.entropyHealthTest false) s = .next s.cryptoError) ∧
      (s.jormirUp = true → exec (.jormirSelfCheck false) s = .next (s.park 0x02))) ∧
  (∀ (s u : State), u = s.wake 5 →
      (∀ (v : BitVec 32) (image sig : List Byte) (c : BitVec 16), u.secOn = true → (c = 1 ∨ c = 2) →
        (u.imageOk c.toNat v.toNat image sig = true → Config.raisesMinimum image = false →
          exec (.pldmFirmwareUpdate c v image sig) s =
            .next (u.stageImage { component := c.toNat, version := v.toNat, image := image })) ∧
        (u.imageOk c.toNat v.toNat image sig = true → Config.raisesMinimum image = true →
          exec (.pldmFirmwareUpdate c v image sig) s =
            .next ((u.stageImage { component := c.toNat, version := v.toNat, image := image }).commitRecord fun r =>
              if c.toNat = 1 then { r with minJormir := v.toNat } else { r with minRuntime := v.toNat })) ∧
        (u.imageOk c.toNat v.toNat image sig = false → exec (.pldmFirmwareUpdate c v image sig) s = .next u)) ∧
      (∀ (v : BitVec 32) (image sig : List Byte), u.secOn = true →
        ((∃ k ∈ u.sec.record.fwKeys, Config.ed448Verify k image sig = true) →
          exec (.pldmFirmwareUpdate 3 v image sig) s = .next (u.commitRecord fun r => r.update image)) ∧
        ((∀ k ∈ u.sec.record.fwKeys, Config.ed448Verify k image sig = false) → exec (.pldmFirmwareUpdate 3 v image sig) s = .next u)) ∧
      (∀ c : BitVec 16, u.secOn = true → (u.sec.images.any fun y => y.component = c.toNat && !y.active) = true →
        (c = 2 → exec (.firmwareActivate c) s = .next ((u.activate 2).landing4 241 0x2A)) ∧
        (c ≠ 2 → exec (.firmwareActivate c) s = .next (u.activate c.toNat))) ∧
      (∀ (n : Nat) (d : DigestSt) (f : FlightSt) (v w : State) (close : State → State),
        (s.sec.digests.find? fun d => decide (d.flight = n) && !d.done) = some d → s.flight n = some f → f.endStatus.isSome = true →
        close = (fun x => { x with sec := { x.sec with digests := x.sec.digests.map fun y => if y.flight = n then { y with done := true } else y } }) →
        (s.locked f.part = true → (d.outs.any fun x => x.2.1) = true → exec (.resultDigestComplete n) s = .next s) ∧
        (s.locked f.part = false → s.readRanges n f d.outs = (v, none) → exec (.resultDigestComplete n) s = .next (close v)) ∧
        (s.locked f.part = false → ∀ out rec_, s.readRanges n f d.outs = (v, some out) →
          rec_ = digestRecord (digestBody s.sec.approved s.tickNo n f d.input (Config.shake256 out)) →
          (d.inHost = true → ∃ t, exec (.resultDigestComplete n) s = .next t ∧ t = close (v.hostPut d.host rec_ f.part f.ctx) ∧
            t.host = Memory.writeN s.host d.host rec_ ∧ t.mem = s.mem) ∧
          (d.inHost = false → w = (v.putStack d.host rec_ (some f.part)).charge f.part f.ctx { stackB := 64 * (linesOf d.host 576).length } →
            exec (.resultDigestComplete n) s = .next (close w) ∧ w.host = s.host))))

/-- A step takes the command at the front of the queue and runs it on the state with the queue's rest; on an empty queue the block idles. The second
clause is the model's choice (log entry 8). -/
def Obligations.StepRunsTheFrontCommand : Prop :=
  ∀ s : State, (∀ (c : Instr) (rest : List Instr), s.pending = c :: rest → step s = exec c { s with pending := rest }) ∧
    (s.pending = [] → step s = .next s)

/-- Every command of the table is answered with a next state, from every state: none ends in a fault or a refusal, and a command that its state or
its operands give nothing to do, or that the module turns away, leaves what the rules say. No command puts a command in the queue or takes one
out of it: the queue belongs to the step and to those who send commands. -/
def Obligations.EveryCommandIsAnswered : Prop := ∀ (i : Instr) (s : State), ∃ t, exec i s = .next t ∧ t.pending = s.pending

/-- A command that does not store leaves every byte of stack memory and of host memory as it was: what stores is the boundary, the publications and
accesses that the rules name, and a restart of the module (R55, R190, R216, R308). A register write stores nothing either but where it may enable the
tick generator, whose boundary stores (R50): written elsewhere than at TCK_CTRL, with no half held from before (R476), it leaves both memories. A flit
stores nothing where no WRITE waits in its port's receive buffer (R407), and START_INTERFACE nothing where no write waited for it (R473; log entry
170). -/
def Obligations.OnlyStoringCommandsChangeTheMemories : Prop :=
  (∀ (i : Instr) (s t : State), mayStore i = false → exec i s = .next t →
    (∀ a, Memory.read t.mem a = Memory.read s.mem a) ∧ ∀ a, Memory.read t.host a = Memory.read s.host a) ∧
  (∀ (q : BarReq) (r : Requester) (off bytes : Nat) (v : Word) (s t : State), r = q.who → s.heldHalf r = none → (∀ b, s.target r (off / 8 * 8) ≠ .reg rTckCtrl b) →
    (exec (.registerWrite q off bytes v) s = .next t ∨ exec (.guardedWrite q off v) s = .next t) →
    (∀ a, Memory.read t.mem a = Memory.read s.mem a) ∧ ∀ a, Memory.read t.host a = Memory.read s.host a) ∧
  (∀ (n : PortId) (h : Word) (f : FlitBody) (s t : State), (s.port n).heldIn = [] → exec (.flit n h f) s = .next t →
    (∀ a, Memory.read t.mem a = Memory.read s.mem a) ∧ ∀ a, Memory.read t.host a = Memory.read s.host a) ∧
  (∀ (p : PartId) (s t : State), (s.part p).hostHeld = [] → exec (.startInterface p) s = .next t →
    (∀ a, Memory.read t.mem a = Memory.read s.mem a) ∧ ∀ a, Memory.read t.host a = Memory.read s.host a)

/-- The state right after reset: both memories are in canonical form and list nothing, no command waits, no tick is open and the generator is
NOT_STARTED, no partition, context, stream or flight exists, and power-up is yet to come to its boot (R15, R50, R481, R505). -/
def Obligations.ResetMeetsTheInvariant : Prop :=
  State.reset.Inv ∧ State.reset.mem = [] ∧ State.reset.host = [] ∧ State.reset.pending = [] ∧ State.reset.genState = 0 ∧
  State.reset.tick.isOpen = false ∧ State.reset.fld rTckCtrl 0 0 = 0 ∧ State.reset.tickNo = 0 ∧ State.reset.pstate = 0 ∧
  (∀ p : PartId, (State.reset.part p).st = .absent) ∧ (∀ i : StreamId, (State.reset.stream i).st = .free) ∧
  (∀ c : CoreId, (State.reset.core c).phase = .idle) ∧ State.reset.flights = []

/-- Every step keeps the invariant, from every state that meets it: stack memory and host memory stay in their canonical form, addresses rising and
no listed byte equal to what an unlisted address reads as. -/
def Obligations.StepsKeepTheInvariant : Prop := ∀ s t : State, s.Inv → step s = .next t → t.Inv

/-- What is written to a memory is what is read back, least significant byte first, and every other byte is as before (R216, R225). -/
def Obligations.MemoryReturnsWhatWasWritten : Prop :=
  ∀ (m : List Host.Cell) (a n v : Nat), v < 256 ^ n →
    leNat (Memory.readN (Memory.writeN m a (leBytes n v)) a n) = v ∧
    (∀ x, (x < a ∨ a + n ≤ x) → Memory.read (Memory.writeN m a (leBytes n v)) x = Memory.read m x) ∧
    (Memory.wf m → Memory.wf (Memory.writeN m a (leBytes n v)))

/-- In each scratchpad slot, offsets 0x00_0000 to 0x5F_FFFF address the core's 6 MiB of scratchpad, and offsets 0x60_0000 to 0x7F_FFFF are unmapped
(R30). -/
def Obligations.ScratchpadSlotsAddressTheScratchpads : Prop :=
  ∀ (c : CoreId) (o : Nat), o < 0x800000 →
    (o < 0x600000 → placeOf (scrAddr c o) = .scratch c o) ∧ (0x600000 ≤ o → placeOf (scrAddr c o) = .unmapped)

/-- The addresses of the stacks are their own, and within a stack every byte has its own die, bank and column (R246): two stack offsets whose die,
bank and row agree, and whose place in the row agrees, are one. -/
def Obligations.StackBytesHaveTheirOwnPlace : Prop :=
  (∀ (st : StackId) (o : Nat), o < 0x1200000000 → placeOf (stackAddr st o) = .stack st o) ∧
  (∀ o p : Nat, o < 0x1200000000 → p < 0x1200000000 → stackRow o = stackRow p → o % 64 = p % 64 → o / 2048 % 16 = p / 2048 % 16 → o = p)

/-- Integer formats (R92): INT8 holds −128 to 127 and INT4 −8 to 7 in two's complement, UINT8 0 to 255 and UINT4 0 to 15; each code is the number
whose low bits it is, each number of the range has a code, and no code is a NaN or special. -/
def Obligations.IntegerFormatsHoldNumbers : Prop :=
  ∀ (f : Fmt) (n : Nat) (lo hi : Int), (f, n, lo, hi) ∈ [(Fmt.int8, 256, -128, 127), (.int4, 16, -8, 7), (.uint8, 256, 0, 255), (.uint4, 16, 0, 15)] →
    (∀ c < n, ∃ z : Int, f.decode c = .ofInt z ∧ lo ≤ z ∧ z ≤ hi ∧ z % n = c) ∧
    (∀ z : Int, lo ≤ z → z ≤ hi → ∃ c < n, f.decode c = .ofInt z)

/-- E8M0 scale codes (R79): a code e in 0x00 to 0xFE stands for 2 to the power e − 127, and 0xFF is NaN; none is a zero, an infinity or negative. -/
def Obligations.ScaleCodesArePowersOfTwo : Prop :=
  (∀ e : Nat, e < 255 → decodeScale e = .fin false 1 ((e : Int) - 127)) ∧ decodeScale 255 = .nan

/-- A sum reduction (R148): seven levels of binary32 additions of adjacent pairs, rounded to nearest even; the final sum is in lane 0 of the
destination, and lanes 1 to 127 receive +0. -/
def Obligations.SumReductionsAddInSevenLevels : Prop :=
  ∀ (s : State) (c : CoreId) (w : BitVec 56) (v : Nat → Nat → Lane), s.Ready c 0x35 w → unusedZero w false false false = true →
    fieldOf w 35 30 = 0 → ((s.core c).vr (fieldOf w 50 46)).length = 128 →
    (∀ i, v 0 i = ((s.core c).vr (fieldOf w 50 46)).getD i 0) →
    (∀ k i, v (k + 1) i = toF32 ((ofF32 (v k (2 * i))).add (ofF32 (v k (2 * i + 1))))) →
    ∃ t, exec (.vred c w) s = .next t ∧ ((t.core c).vr (fieldOf w 55 51)).length = 128 ∧
      ((t.core c).vr (fieldOf w 55 51)).getD 0 0 = v 7 0 ∧
      ∀ j, 1 ≤ j → j < 128 → ((t.core c).vr (fieldOf w 55 51)).getD j 0 = 0

/-- Maximum with index, and the order of values that it and the candidate merge use (R149): NaNs below −∞, −0 below +0, otherwise numeric order, and of
two equal values the lower index ranks higher. The highest-ranked lane's value is in lane 0 of the destination, a NaN as the canonical NaN, its
index in lane 1, and lanes 2 to 127 receive +0. -/
def Obligations.MaximaFollowTheTotalOrder : Prop :=
  (∀ (a b : Lane) (i j : Nat),
    ((ofF32 a).isNan = true → (ofF32 b).isNan = false → outranks b a i j = true ∧ outranks a b i j = false) ∧
    ((ofF32 a).isNan = true → (ofF32 b).isNan = true → outranks a b i j = decide (i < j)) ∧
    (outranks 0 0x80000000 i j = true) ∧
    ((ofF32 a).isNan = false → (ofF32 b).isNan = false → (ofF32 a).numLe (ofF32 b) = true → (ofF32 b).numLe (ofF32 a) = false →
      outranks b a i j = true ∧ outranks a b i j = false) ∧
    (outranks a a i j = decide (i < j))) ∧
  (∀ (s : State) (c : CoreId) (w : BitVec 56) (l : List Lane), s.Ready c 0x35 w → unusedZero w false false false = true →
    fieldOf w 35 30 = 1 → l = (s.core c).vr (fieldOf w 50 46) → l.length = 128 →
    ∃ (t : State) (r : List Lane) (i : Nat), exec (.vred c w) s = .next t ∧ r = (t.core c).vr (fieldOf w 55 51) ∧ i < 128 ∧
      (∀ j, j < 128 → j ≠ i → outranks (l.getD i 0) (l.getD j 0) i j = true) ∧
      r.getD 0 0 = (if (ofF32 (l.getD i 0)).isNan then toF32 .nan else l.getD i 0) ∧ r.getD 1 0 = BitVec.ofNat 32 i ∧ r.length = 128 ∧
      ∀ j, 2 ≤ j → j < 128 → r.getD j 0 = 0)

/-- An instruction that its rules do not admit halts its core and contains its context (R165): with a reserved bit set, whatever the rest of the word,
no register of the core changes but what the fault itself records, and the context's status is 0x23. -/
def Obligations.ReservedBitsAreIllegal : Prop :=
  ∀ (s : State) (c : CoreId) (op : Nat) (w : BitVec 56) (e : PhysErr) (te : TileErr) (cmd : Instr),
    (op, cmd) ∈ [(0x00, Instr.nop c w), (0x01, .endFlight c w), (0x02, .wtick c w), (0x03, .movi c w), (0x04, .movhi c w), (0x05, .salu c w),
      (0x06, .movs c w), (0x07, .br c w), (0x08, .loop c w), (0x09, .waitc c w), (0x0A, .clrc c w), (0x0B, .qsync c w), (0x10, .ldp c w),
      (0x11, .lds c w e), (0x12, .sts c w), (0x13, .fence c w), (0x14, .signal c w), (0x20, .sload c w e), (0x21, .pass c w e te),
      (0x30, .drain c w te), (0x31, .valu c w), (0x32, .vint c w), (0x33, .vcvt c w), (0x34, .vfunc c w), (0x35, .vred c w),
      (0x36, .vmerge c w), (0x37, .vload c w e), (0x38, .vrqst c ⟨w, e⟩), (0x39, .vst c w), (0x3A, .vmovx c w), (0x40, .dma c w e),
      (0x41, .fill c w), (0x42, .copy c ⟨w, e⟩)] →
    s.issueDue c op w = true → (s.core c).region.base ≤ (s.core c).pc → (s.core c).pc < (s.core c).region.base + (s.core c).region.count →
    (s.core c).word.toNat / 2 ^ 56 = op → reservedOk op w = false →
    exec cmd s = .next (s.issueFault c 0x03 0x23 (s.core c).word.toNat)

/-- X0 reads zero, whatever was written to it (the Control-core state table): an instruction whose destination is X0 changes no scalar register, and goes on in sequence. -/
def Obligations.WritesToRegisterZeroAreDiscarded : Prop :=
  (∀ (k : CoreSt) (v : Word) (n : Nat), k.xr 0 = 0 ∧ k.setX 0 v = k ∧ (n ≠ 0 → (k.setX n v).xr n = v ∧ ∀ m, m ≠ n → (k.setX n v).xr m = k.xr m)) ∧
  (∀ (s : State) (c : CoreId) (w : BitVec 56), s.Ready c 0x03 w → fieldOf w 55 51 = 0 →
    exec (.movi c w) s = .next (s.retire c (s.core c).pc (s.core c).pc))

/-- Where an instruction's own rules refuse it, it traps (R164 to R194, R202): an operand that the rules make illegal halts the core and contains
the context with status 0x23; a range outside the flight's region with 0x24, at the address of the range; a read that meets an uncorrectable
error leaves the core halted, the error's containment having been done. -/
def Obligations.InstructionsTrapWhereTheirRulesRefuseThem : Prop :=
  (∀ (s ill : State) (c : CoreId) (w : BitVec 56), ill = s.issueFault c 0x03 0x23 (s.core c).word.toNat →
      (s.Ready c 0x06 w → 10 ≤ fieldOf w 7 0 → exec (.movs c w) s = .next ill) ∧
      (s.Ready c 0x05 w → 13 ≤ fieldOf w 40 37 ∨ (fieldOf w 36 36 = 1 ∧ fieldOf w 45 41 ≠ 0) ∨ (fieldOf w 36 36 = 0 ∧ fieldOf w 31 0 ≠ 0) →
        exec (.salu c w) s = .next ill) ∧
      (s.Ready c 0x07 w → fieldOf w 45 43 = 7 → exec (.br c w) s = .next ill) ∧
      (∀ (b : Nat × Nat) (t : Int), s.Ready c 0x07 w → innermost ((s.core c).bodies (s.core c).pc) = some b →
        ((s.core c).pc : Int) + (BitVec.ofNat 24 (fieldOf w 23 0)).toInt = t →
        (t < b.1 ∨ b.2 < t ∨ ∃ x ∈ (s.core c).bodies (s.core c).pc, (x.1 : Int) = t) → exec (.br c w) s = .next ill) ∧
      (s.Ready c 0x08 w → fieldOf w 12 0 = 0 ∨ (s.core c).region.base + (s.core c).region.count ≤ (s.core c).pc + fieldOf w 12 0 ∨
        4 ≤ (s.core c).loops.length ∨ (∃ b ∈ (s.core c).bodies (s.core c).pc, b.2 < (s.core c).pc + fieldOf w 12 0) →
        exec (.loop c w) s = .next ill) ∧
      (s.Ready c 0x13 w → fieldOf w 55 54 = 3 ∨ fieldOf w 53 52 = 0 → exec (.fence c w) s = .next ill) ∧
      (s.Ready c 0x14 w → fieldOf w 15 0 = 0 ∨ (s.core c).slotTab[((s.core c).xr (fieldOf w 55 51)).toNat]? = none →
        exec (.signal c w) s = .next ill) ∧
      (s.Ready c 0x31 w → 11 < fieldOf w 35 30 ∨
        unusedZero w (fieldOf w 35 30 ≠ 6 && fieldOf w 35 30 ≠ 7) (fieldOf w 35 30 = 3 || fieldOf w 35 30 = 11) false = false →
        exec (.valu c w) s = .next ill) ∧
      (s.Ready c 0x32 w → 11 < fieldOf w 35 30 ∨ unusedZero w true (fieldOf w 35 30 = 11) false = false → exec (.vint c w) s = .next ill) ∧
      (s.Ready c 0x33 w → 3 < fieldOf w 35 30 ∨ 1 < fieldOf w 24 23 ∨ unusedZero w false false true = false ∨
        Fmt.ofCode (fieldOf w 28 25) ∉ [some .f32, some .i32, some .bf16, some .f16] → exec (.vcvt c w) s = .next ill) ∧
      (s.Ready c 0x34 w → 4 < fieldOf w 35 30 ∨ unusedZero w false false false = false → exec (.vfunc c w) s = .next ill) ∧
      (s.Ready c 0x35 w → 1 < fieldOf w 35 30 ∨ unusedZero w false false false = false → exec (.vred c w) s = .next ill) ∧
      (s.Ready c 0x36 w → fieldOf w 35 30 ≠ 0 → exec (.vmerge c w) s = .next ill) ∧
      (s.Ready c 0x3A w → 2 < fieldOf w 35 30 → exec (.vmovx c w) s = .next ill)) ∧
  (∀ (s ill : State) (c : CoreId) (w : BitVec 56) (e : PhysErr) (win : Nat → State) (op a b m n : Nat) (cmd : Instr),
      ill = s.issueFault c 0x03 0x23 (s.core c).word.toNat →
      win = (fun o => s.issueFault c 0x04 0x24 (scrAddr c ((s.core c).region.off + o))) →
      ((op, m, n, a, cmd) ∈ [(0x11, 8, 8, ((s.core c).xr (fieldOf w 50 46) + BitVec.ofNat 64 (fieldOf w 22 0)).toNat, Instr.lds c w e),
          (0x12, 8, 8, ((s.core c).xr (fieldOf w 50 46) + BitVec.ofNat 64 (fieldOf w 22 0)).toNat, .sts c w),
          (0x39, 4, 512, ((s.core c).xr (fieldOf w 50 46)).toNat, .vst c w), (0x40, 64, 64, ((s.core c).xr (fieldOf w 55 51)).toNat, .dma c w e)] →
        s.Ready c op w →
        (a % m ≠ 0 → exec cmd s = .next ill) ∧ (a % m = 0 → s.inRegion c a n = false → exec cmd s = .next (win a))) ∧
      (∀ f, s.Ready c 0x10 w → s.flight (s.core c).flight = some f →
        a = ((s.core c).xr (fieldOf w 50 46) + BitVec.ofNat 64 (fieldOf w 19 0)).toNat → a % 8 ≠ 0 ∨ 8 * f.params.length < a + 8 →
        exec (.ldp c w) s = .next ill) ∧
      (∀ u : State, s.Ready c 0x11 w → a = ((s.core c).xr (fieldOf w 50 46) + BitVec.ofNat 64 (fieldOf w 22 0)).toNat → a % 8 = 0 →
        s.inRegion c a 8 = true → (s.core c).ctrlq = [] → s.scrEcc c ((s.core c).region.off + a) 8 (wordEcc e) = (u, true) →
        exec (.lds c w e) s =
          .next (u.setCore c { (u.core c).issued (s.core c).pc (s.core c).pc (s.core c).loops with phase := .halted })) ∧
      (a = ((s.core c).xr (fieldOf w 55 51)).toNat →
        (s.Ready c 0x41 w → n = ((s.core c).xr (fieldOf w 50 46)).toNat →
          (fillCountOk n = false ∨ a % 64 ≠ 0 → exec (.fill c w) s = .next ill) ∧
          (fillCountOk n = true → a % 64 = 0 → s.inRegion c a n = false → exec (.fill c w) s = .next (win a))) ∧
        (s.Ready c 0x42 w → b = ((s.core c).xr (fieldOf w 50 46)).toNat → n = ((s.core c).xr (fieldOf w 45 41)).toNat →
          (fillCountOk n = false ∨ a % 64 ≠ 0 ∨ b % 64 ≠ 0 ∨ overlap (a, a + n) (b, b + n) = true → exec (.copy c ⟨w, e⟩) s = .next ill) ∧
          (fillCountOk n = true → a % 64 = 0 → b % 64 = 0 → overlap (a, a + n) (b, b + n) = false →
            (s.inRegion c a n = false → exec (.copy c ⟨w, e⟩) s = .next (win a)) ∧
            (s.inRegion c a n = true → s.inRegion c b n = false → exec (.copy c ⟨w, e⟩) s = .next (win b)))))) ∧
  (∀ (s ill u : State) (c : CoreId) (w : BitVec 56) (e : PhysErr) (te : TileErr) (op o : Nat) (t : TDesc) (f : Fmt) (cmd : Instr),
      ill = s.issueFault c 0x03 0x23 (s.core c).word.toNat →
      ((op, o, cmd) ∈ [(0x20, ((s.core c).xr (fieldOf w 50 46)).toNat, Instr.sload c w e), (0x21, ((s.core c).xr (fieldOf w 50 46)).toNat, .pass c w e te),
          (0x37, ((s.core c).xr (fieldOf w 45 41)).toNat, .vload c w e), (0x38, ((s.core c).xr (fieldOf w 45 41)).toNat, .vrqst c ⟨w, e⟩)] →
        s.Ready c op w →
        (o % 32 ≠ 0 → exec cmd s = .next ill) ∧
        (o % 32 = 0 → s.inRegion c o 32 = false →
          exec cmd s = .next (s.issueFault c 0x04 0x24 (scrAddr c ((s.core c).region.off + o)))) ∧
        (o % 32 = 0 → s.inRegion c o 32 = true → s.scrEcc c ((s.core c).region.off + o) 32 (wordEcc e) = (u, true) →
          exec cmd s = .next (u.setCore c { (u.core c).issued (s.core c).pc (s.core c).pc (s.core c).loops with phase := .halted })) ∧
        (o % 32 = 0 → s.inRegion c o 32 = true → s.scrEcc c ((s.core c).region.off + o) 32 (wordEcc e) = (u, false) →
          (tdescOf ((s.core c).scrRead ((s.core c).region.off + o) 32)).ok = none → exec cmd s = .next ill)) ∧
      (∀ mov acc, s.Ready c 0x20 w → s.tdesc c ((s.core c).xr (fieldOf w 50 46)).toNat (wordEcc e) = .ok (u, t, f) →
        (14 ≤ fieldOf w 45 42 ∨ fieldOf w 41 40 = 3 → exec (.sload c w e) s = .next ill) ∧
        (Fmt.ofCode (fieldOf w 45 42) = some mov → AccFmt.ofCode (fieldOf w 41 40) = some acc →
          (pairRate f mov acc = none → exec (.sload c w e) s = .next ill) ∧
          (∀ r, pairRate f mov acc = some r → 128 * r < fieldOf w 39 31 + 1 ∨ ((s.core c).xr (fieldOf w 55 51)).toNat % 512 ≠ 0 →
            exec (.sload c w e) s = .next ill))) ∧
      (s.Ready c 0x21 w → s.tdesc c ((s.core c).xr (fieldOf w 50 46)).toNat (wordEcc e) = .ok (u, t, f) →
        ((s.core c).stat = none ∨ fieldOf w 32 31 = 3 → exec (.pass c w e te) s = .next ill) ∧
        (∀ st acc, (s.core c).stat = some st → AccFmt.ofCode (fieldOf w 32 31) = some acc →
          f ≠ st.mov ∨ acc ≠ st.acc ∨ tileLegal acc (fieldOf w 45 41) = false ∨ ((s.core c).xr (fieldOf w 55 51)).toNat % 512 ≠ 0 ∨
            (hasScales f t.zpMode = true ∧ t.scaleOff % 16 ≠ 0) ∨
            (fieldOf w 33 33 = 0 ∧ (s.core c).tileOpen acc (fieldOf w 45 41) = false) → exec (.pass c w e te) s = .next ill)) ∧
      (s.Ready c 0x30 w →
        ((s.core c).drainTile (fieldOf w 55 51) (fieldOf w 35 35 = 1) (fieldOf w 28 28 = 1) = none → exec (.drain c w te) s = .next ill) ∧
        ((if fieldOf w 35 35 = 1 then 64 else 128) < fieldOf w 50 44 + (fieldOf w 43 37 + 1) ∨
          (fieldOf w 34 34 = 1 ∧ ((s.core c).xr (fieldOf w 33 29)).toNat % 4 ≠ 0) → exec (.drain c w te) s = .next ill)) ∧
      (s.Ready c 0x37 w → s.tdesc c ((s.core c).xr (fieldOf w 45 41)).toNat (wordEcc e) = .ok (u, t, f) →
        ((s.core c).xr (fieldOf w 50 46)).toNat % 4 ≠ 0 → exec (.vload c w e) s = .next ill) ∧
      (s.Ready c 0x38 w → s.tdesc c ((s.core c).xr (fieldOf w 45 41)).toNat (wordEcc e) = .ok (u, t, f) →
        ((s.core c).xr (fieldOf w 50 46)).toNat % 4 ≠ 0 ∨ f.isStore = false ∨ (f.blockScaled = true ∧ t.scaleMode = 1) →
        exec (.vrqst c ⟨w, e⟩) s = .next ill))
end

