-- ==== Sys2Proof/Laws/Maps.lean ====
section
/-! SUPPORT. The canonical maps and the memories: a read after a write, the other keys, and the canonical form that every operation
keeps. -/

namespace Sys2Proof.Machine

variable {α : Type}

/-- Every key of a map is above `i`. -/
def SMap.above (i : Nat) (m : SMap α) : Prop := ∀ e ∈ m, i < e.1

theorem SMap.sorted_cons (k : Nat) (v : α) (t : SMap α) : SMap.sorted ((k, v) :: t) = true ↔ SMap.above k t ∧ SMap.sorted t = true := by
  induction t generalizing k v with
  | nil => simp [SMap.sorted, SMap.above]
  | cons e t ih =>
    obtain ⟨l, w⟩ := e
    simp only [SMap.sorted, Bool.and_eq_true, decide_eq_true_eq]
    constructor
    · rintro ⟨h, hs⟩
      refine ⟨?_, hs⟩
      have hl := ((ih l w).1 hs).1
      intro e he
      rcases List.mem_cons.1 he with rfl | he
      · exact h
      · exact h.trans (hl e he)
    · rintro ⟨h, hs⟩
      exact ⟨h (l, w) (List.mem_cons_self ..), hs⟩

theorem SMap.above_put {k i : Nat} {v : α} {m : SMap α} (h : SMap.above k m) (hi : k < i) : SMap.above k (SMap.put m i v) := by
  induction m with
  | nil => intro e he; simp [SMap.put] at he; simpa [he] using hi
  | cons e t ih =>
    obtain ⟨l, w⟩ := e
    have ht : SMap.above k t := fun e he => h e (List.mem_cons_of_mem _ he)
    have hl : k < l := h (l, w) (List.mem_cons_self ..)
    unfold SMap.put
    split
    · intro e he
      rcases List.mem_cons.1 he with rfl | he
      · exact hi
      · exact h e he
    · split
      · intro e he
        rcases List.mem_cons.1 he with rfl | he
        · exact hi
        · exact ht e he
      · intro e he
        rcases List.mem_cons.1 he with rfl | he
        · exact hl
        · exact ih ht e he

theorem SMap.sorted_put {m : SMap α} {i : Nat} {v : α} (h : SMap.sorted m = true) : SMap.sorted (SMap.put m i v) = true := by
  induction m with
  | nil => rfl
  | cons e t ih =>
    obtain ⟨l, w⟩ := e
    have hc := (SMap.sorted_cons l w t).1 h
    unfold SMap.put
    split
    · next hi =>
      refine (SMap.sorted_cons _ _ _).2 ⟨?_, h⟩
      intro e he
      rcases List.mem_cons.1 he with rfl | he
      · exact hi
      · exact hi.trans (hc.1 e he)
    · split
      · next hi => subst hi; exact (SMap.sorted_cons _ _ _).2 hc
      · next h1 h2 =>
        refine (SMap.sorted_cons _ _ _).2 ⟨SMap.above_put hc.1 (by omega), ih hc.2⟩

theorem SMap.mem_del {m : SMap α} {i : Nat} {e : Nat × α} (h : e ∈ SMap.del m i) : e ∈ m := by
  induction m with
  | nil => exact h
  | cons x t ih =>
    obtain ⟨k, w⟩ := x
    unfold SMap.del at h
    split at h
    · exact List.mem_cons_of_mem _ (ih h)
    · rcases List.mem_cons.1 h with rfl | h
      · exact List.mem_cons_self ..
      · exact List.mem_cons_of_mem _ (ih h)

theorem SMap.sorted_del {m : SMap α} {i : Nat} (h : SMap.sorted m = true) : SMap.sorted (SMap.del m i) = true := by
  induction m with
  | nil => rfl
  | cons x t ih =>
    obtain ⟨k, w⟩ := x
    have hc := (SMap.sorted_cons k w t).1 h
    unfold SMap.del
    split
    · exact ih hc.2
    · exact (SMap.sorted_cons _ _ _).2 ⟨fun e he => hc.1 e (SMap.mem_del he), ih hc.2⟩

theorem SMap.mem_put {m : SMap α} {i : Nat} {v : α} {e : Nat × α} (h : e ∈ SMap.put m i v) : e = (i, v) ∨ e ∈ m := by
  induction m with
  | nil => simp [SMap.put] at h; exact .inl h
  | cons x t ih =>
    obtain ⟨k, w⟩ := x
    unfold SMap.put at h
    split at h
    · rcases List.mem_cons.1 h with rfl | h
      · exact .inl rfl
      · exact .inr h
    · split at h
      · rcases List.mem_cons.1 h with rfl | h
        · exact .inl rfl
        · exact .inr (List.mem_cons_of_mem _ h)
      · rcases List.mem_cons.1 h with rfl | h
        · exact .inr (List.mem_cons_self ..)
        · rcases ih h with h | h
          · exact .inl h
          · exact .inr (List.mem_cons_of_mem _ h)

/-- Writing a value keeps the canonical form. -/
theorem SMap.wf_set [DecidableEq α] {d : α} {m : SMap α} {i : Nat} {v : α} (h : SMap.wf d m = true) : SMap.wf d (SMap.set d m i v) = true := by
  simp only [SMap.wf, Bool.and_eq_true, List.all_eq_true, decide_eq_true_eq] at h ⊢
  unfold SMap.set
  split
  · exact ⟨SMap.sorted_del h.1, fun e he => h.2 e (SMap.mem_del he)⟩
  · next hv =>
    refine ⟨SMap.sorted_put h.1, fun e he => ?_⟩
    rcases SMap.mem_put he with rfl | he
    · exact hv
    · exact h.2 e he

/-- Dropping entries keeps the canonical form. -/
theorem SMap.wf_filter [DecidableEq α] {d : α} {m : SMap α} (p : Nat × α → Bool) (h : SMap.wf d m = true) : SMap.wf d (m.filter p) = true := by
  simp only [SMap.wf, Bool.and_eq_true, List.all_eq_true, decide_eq_true_eq] at h ⊢
  refine ⟨?_, fun e he => h.2 e (List.mem_filter.1 he).1⟩
  have hs := h.1
  clear h
  induction m with
  | nil => rfl
  | cons x t ih =>
    obtain ⟨k, w⟩ := x
    have hc := (SMap.sorted_cons k w t).1 hs
    rw [List.filter_cons]
    split
    · exact (SMap.sorted_cons _ _ _).2 ⟨fun e he => hc.1 e (List.mem_filter.1 he).1, ih hc.2⟩
    · exact ih hc.2

theorem SMap.get_put_same {d : α} (m : SMap α) (i : Nat) (v : α) : SMap.get d (SMap.put m i v) i = v := by
  induction m with
  | nil => simp [SMap.put, SMap.get]
  | cons e t ih =>
    obtain ⟨k, w⟩ := e
    unfold SMap.put
    split
    · simp [SMap.get]
    · split
      · simp [SMap.get]
      · next h1 h2 => simp [SMap.get, show ¬k = i from fun h => h2 h.symm, ih]

theorem SMap.get_put_other {d : α} (m : SMap α) {i j : Nat} (v : α) (h : i ≠ j) : SMap.get d (SMap.put m i v) j = SMap.get d m j := by
  induction m with
  | nil => simp [SMap.put, SMap.get, h]
  | cons e t ih =>
    obtain ⟨k, w⟩ := e
    unfold SMap.put
    split
    · simp [SMap.get, h]
    · split
      · next _ hk => subst hk; simp [SMap.get, h]
      · simp only [SMap.get]; split
        · rfl
        · exact ih

theorem SMap.get_none {d : α} (m : SMap α) {i : Nat} (h : ∀ e ∈ m, e.1 ≠ i) : SMap.get d m i = d := by
  induction m with
  | nil => rfl
  | cons e t ih =>
    obtain ⟨k, w⟩ := e
    have hk : k ≠ i := h (k, w) (List.mem_cons_self ..)
    simp [SMap.get, hk, ih fun e he => h e (List.mem_cons_of_mem _ he)]

theorem SMap.get_del_other {d : α} (m : SMap α) {i j : Nat} (h : i ≠ j) : SMap.get d (SMap.del m i) j = SMap.get d m j := by
  induction m with
  | nil => rfl
  | cons e t ih =>
    obtain ⟨k, w⟩ := e
    unfold SMap.del
    split
    · next hk => subst hk; simp [SMap.get, h, ih]
    · simp only [SMap.get]; split
      · rfl
      · exact ih

theorem SMap.get_del_same {d : α} (m : SMap α) (i : Nat) : SMap.get d (SMap.del m i) i = d := by
  induction m with
  | nil => rfl
  | cons e t ih =>
    obtain ⟨k, w⟩ := e
    unfold SMap.del
    split
    · exact ih
    · next hk => simp [SMap.get, hk, ih]

/-- A read after a write to another key gives what was there. -/
theorem SMap.get_set_other [DecidableEq α] {d : α} (m : SMap α) {i j : Nat} (v : α) (h : i ≠ j) :
    SMap.get d (SMap.set d m i v) j = SMap.get d m j := by
  unfold SMap.set
  split
  · exact SMap.get_del_other m h
  · exact SMap.get_put_other m v h

/-- A read after a write to the same key gives the value written. -/
@[simp] theorem SMap.get_set_same [DecidableEq α] (d : α) (m : SMap α) (i : Nat) (v : α) : SMap.get d (SMap.set d m i v) i = v := by
  unfold SMap.set
  split
  · next hv => rw [hv]; exact SMap.get_del_same m i
  · exact SMap.get_put_same m i v

/-! ## Memory -/

theorem Memory.wf_write {m : List Host.Cell} {a : Nat} {b : Byte} (h : Memory.wf m) : Memory.wf (Memory.write m a b) := SMap.wf_set h

theorem Memory.wf_writeN {m : List Host.Cell} {a : Nat} {l : List Byte} (h : Memory.wf m) : Memory.wf (Memory.writeN m a l) := by
  induction l generalizing m a with
  | nil => exact h
  | cons b bs ih => exact ih (Memory.wf_write h)

/-- Bytes outside those written keep their values. -/
theorem Memory.wf_writeAll {m : List Host.Cell} {l : List (Nat × Byte)} (h : Memory.wf m) : Memory.wf (Memory.writeAll m l) := by
  induction l generalizing m with
  | nil => exact h
  | cons x xs ih => exact ih (Memory.wf_write h)

theorem Memory.read_writeN_other (m : List Host.Cell) (a : Nat) (l : List Byte) {x : Nat} (h : x < a ∨ a + l.length ≤ x) :
    Memory.read (Memory.writeN m a l) x = Memory.read m x := by
  induction l generalizing m a with
  | nil => rfl
  | cons b bs ih =>
    simp only [List.length_cons] at h
    rw [Memory.writeN, ih _ _ (by omega), Memory.read, Memory.write, SMap.get_set_other _ _ (by omega)]
    rfl

/-- The byte last written at an address is read back. -/
theorem Memory.read_write_same (m : List Host.Cell) (a : Nat) (b : Byte) : Memory.read (Memory.write m a b) a = b :=
  SMap.get_set_same _ m a b

end Sys2Proof.Machine
end

