-- ==== Sys2Proof/Laws/State.lean ====
section
/-! SUPPORT. What each update of State leaves, field by field, and what reading back gives. -/

namespace Sys2Proof.Machine

/-- `setReg` changes `regs` alone. -/
@[simp] theorem State.setReg_fields (s : State) (o : Nat) (v : Word) :
    (s.setReg o v).pending = s.pending ∧ (s.setReg o v).regPend = s.regPend ∧ (s.setReg o v).regHeld = s.regHeld ∧
    (s.setReg o v).readData = s.readData ∧ (s.setReg o v).streams = s.streams ∧ (s.setReg o v).prefixes = s.prefixes ∧
    (s.setReg o v).hallRing = s.hallRing ∧ (s.setReg o v).flights = s.flights ∧ (s.setReg o v).pfAcctTail = s.pfAcctTail ∧
    (s.setReg o v).pfAcctHead = s.pfAcctHead ∧ (s.setReg o v).flightNext = s.flightNext ∧ (s.setReg o v).admitted = s.admitted ∧
    (s.setReg o v).waitPub = s.waitPub ∧ (s.setReg o v).signals = s.signals ∧ (s.setReg o v).readNext = s.readNext ∧
    (s.setReg o v).outSlots = s.outSlots ∧ (s.setReg o v).heldMsgs = s.heldMsgs ∧ (s.setReg o v).sendSeq = s.sendSeq ∧
    (s.setReg o v).seqWins = s.seqWins ∧ (s.setReg o v).decided = s.decided ∧ (s.setReg o v).msiSent = s.msiSent ∧
    (s.setReg o v).msiPend = s.msiPend ∧ (s.setReg o v).timebase = s.timebase ∧ (s.setReg o v).freeCtr = s.freeCtr ∧
    (∀ x, (s.setReg o v).core x = s.core x) ∧ (∀ x, (s.setReg o v).stk x = s.stk x) ∧ (∀ x, (s.setReg o v).stream x = s.stream x) ∧
    (∀ x, (s.setReg o v).part x = s.part x) ∧ (∀ x, (s.setReg o v).queue x = s.queue x) ∧ (∀ x, (s.setReg o v).port x = s.port x) ∧
    (∀ x, (s.setReg o v).flight x = s.flight x) ∧ (∀ x y, (s.setReg o v).ctx x y = s.ctx x y) ∧
    (∀ x y, (s.setReg o v).graph x y = s.graph x y) ∧ (∀ x, (s.setReg o v).mirp x = s.mirp x) ∧
    (∀ x, (s.setReg o v).ring x = s.ring x) := by
  refine ⟨rfl, rfl, rfl, rfl, rfl, rfl, rfl, rfl, rfl, rfl, rfl, rfl, rfl, rfl, rfl, rfl, rfl, rfl, rfl, rfl, rfl, rfl, rfl, rfl, fun _ => rfl, fun _ => rfl, fun _ => rfl, fun _ => rfl, fun _ => rfl, fun _ => rfl, fun _ => rfl, fun _ _ => rfl, fun _ _ => rfl, fun _ => rfl, fun _ => rfl⟩

/-- `setCore` changes `cores` alone. -/
@[simp] theorem State.setCore_fields (s : State) (c : Nat) (k : CoreSt) :
    (s.setCore c k).pending = s.pending ∧ (s.setCore c k).regPend = s.regPend ∧ (s.setCore c k).regHeld = s.regHeld ∧
    (s.setCore c k).readData = s.readData ∧ (s.setCore c k).streams = s.streams ∧ (s.setCore c k).prefixes = s.prefixes ∧
    (s.setCore c k).hallRing = s.hallRing ∧ (s.setCore c k).flights = s.flights ∧ (s.setCore c k).pfAcctTail = s.pfAcctTail ∧
    (s.setCore c k).pfAcctHead = s.pfAcctHead ∧ (s.setCore c k).flightNext = s.flightNext ∧ (s.setCore c k).admitted = s.admitted ∧
    (s.setCore c k).waitPub = s.waitPub ∧ (s.setCore c k).signals = s.signals ∧ (s.setCore c k).readNext = s.readNext ∧
    (s.setCore c k).outSlots = s.outSlots ∧ (s.setCore c k).heldMsgs = s.heldMsgs ∧ (s.setCore c k).sendSeq = s.sendSeq ∧
    (s.setCore c k).seqWins = s.seqWins ∧ (s.setCore c k).decided = s.decided ∧ (s.setCore c k).msiSent = s.msiSent ∧
    (s.setCore c k).msiPend = s.msiPend ∧ (s.setCore c k).timebase = s.timebase ∧ (s.setCore c k).freeCtr = s.freeCtr ∧
    (∀ x, (s.setCore c k).reg x = s.reg x) ∧ (∀ x y z, (s.setCore c k).fld x y z = s.fld x y z) ∧ (s.setCore c k).tickNo = s.tickNo ∧
    (s.setCore c k).genState = s.genState ∧ (s.setCore c k).det = s.det ∧ (s.setCore c k).pstate = s.pstate ∧
    (s.setCore c k).bootDone = s.bootDone ∧ (∀ x, (s.setCore c k).stk x = s.stk x) ∧ (∀ x, (s.setCore c k).stream x = s.stream x) ∧
    (∀ x, (s.setCore c k).part x = s.part x) ∧ (∀ x, (s.setCore c k).queue x = s.queue x) ∧ (∀ x, (s.setCore c k).port x = s.port x) ∧
    (∀ x, (s.setCore c k).flight x = s.flight x) ∧ (∀ x y, (s.setCore c k).ctx x y = s.ctx x y) ∧
    (∀ x y, (s.setCore c k).graph x y = s.graph x y) ∧ (∀ x, (s.setCore c k).mirp x = s.mirp x) ∧
    (∀ x, (s.setCore c k).ring x = s.ring x) := by
  refine ⟨rfl, rfl, rfl, rfl, rfl, rfl, rfl, rfl, rfl, rfl, rfl, rfl, rfl, rfl, rfl, rfl, rfl, rfl, rfl, rfl, rfl, rfl, rfl, rfl, fun _ => rfl, fun _ _ _ => rfl, rfl, rfl, rfl, rfl, rfl, fun _ => rfl, fun _ => rfl, fun _ => rfl, fun _ => rfl, fun _ => rfl, fun _ => rfl, fun _ _ => rfl, fun _ _ => rfl, fun _ => rfl, fun _ => rfl⟩

/-- `setStk` changes `stks` alone. -/
@[simp] theorem State.setStk_fields (s : State) (t : Nat) (k : StackSt) :
    (s.setStk t k).pending = s.pending ∧ (s.setStk t k).regPend = s.regPend ∧ (s.setStk t k).regHeld = s.regHeld ∧
    (s.setStk t k).readData = s.readData ∧ (s.setStk t k).streams = s.streams ∧ (s.setStk t k).prefixes = s.prefixes ∧
    (s.setStk t k).hallRing = s.hallRing ∧ (s.setStk t k).flights = s.flights ∧ (s.setStk t k).pfAcctTail = s.pfAcctTail ∧
    (s.setStk t k).pfAcctHead = s.pfAcctHead ∧ (s.setStk t k).flightNext = s.flightNext ∧ (s.setStk t k).admitted = s.admitted ∧
    (s.setStk t k).waitPub = s.waitPub ∧ (s.setStk t k).signals = s.signals ∧ (s.setStk t k).readNext = s.readNext ∧
    (s.setStk t k).outSlots = s.outSlots ∧ (s.setStk t k).heldMsgs = s.heldMsgs ∧ (s.setStk t k).sendSeq = s.sendSeq ∧
    (s.setStk t k).seqWins = s.seqWins ∧ (s.setStk t k).decided = s.decided ∧ (s.setStk t k).msiSent = s.msiSent ∧
    (s.setStk t k).msiPend = s.msiPend ∧ (s.setStk t k).timebase = s.timebase ∧ (s.setStk t k).freeCtr = s.freeCtr ∧
    (∀ x, (s.setStk t k).reg x = s.reg x) ∧ (∀ x y z, (s.setStk t k).fld x y z = s.fld x y z) ∧ (s.setStk t k).tickNo = s.tickNo ∧
    (s.setStk t k).genState = s.genState ∧ (s.setStk t k).det = s.det ∧ (s.setStk t k).pstate = s.pstate ∧
    (s.setStk t k).bootDone = s.bootDone ∧ (∀ x, (s.setStk t k).core x = s.core x) ∧ (∀ x, (s.setStk t k).stream x = s.stream x) ∧
    (∀ x, (s.setStk t k).part x = s.part x) ∧ (∀ x, (s.setStk t k).queue x = s.queue x) ∧ (∀ x, (s.setStk t k).port x = s.port x) ∧
    (∀ x, (s.setStk t k).flight x = s.flight x) ∧ (∀ x y, (s.setStk t k).ctx x y = s.ctx x y) ∧
    (∀ x y, (s.setStk t k).graph x y = s.graph x y) ∧ (∀ x, (s.setStk t k).mirp x = s.mirp x) ∧
    (∀ x, (s.setStk t k).ring x = s.ring x) := by
  refine ⟨rfl, rfl, rfl, rfl, rfl, rfl, rfl, rfl, rfl, rfl, rfl, rfl, rfl, rfl, rfl, rfl, rfl, rfl, rfl, rfl, rfl, rfl, rfl, rfl, fun _ => rfl, fun _ _ _ => rfl, rfl, rfl, rfl, rfl, rfl, fun _ => rfl, fun _ => rfl, fun _ => rfl, fun _ => rfl, fun _ => rfl, fun _ => rfl, fun _ _ => rfl, fun _ _ => rfl, fun _ => rfl, fun _ => rfl⟩

/-- `setStream` changes `streams` alone. -/
@[simp] theorem State.setStream_fields (s : State) (i : Nat) (k : StreamSt) :
    (s.setStream i k).pending = s.pending ∧ (s.setStream i k).regPend = s.regPend ∧ (s.setStream i k).regHeld = s.regHeld ∧
    (s.setStream i k).readData = s.readData ∧ (s.setStream i k).prefixes = s.prefixes ∧ (s.setStream i k).hallRing = s.hallRing ∧
    (s.setStream i k).flights = s.flights ∧ (s.setStream i k).pfAcctTail = s.pfAcctTail ∧ (s.setStream i k).pfAcctHead = s.pfAcctHead ∧
    (s.setStream i k).flightNext = s.flightNext ∧ (s.setStream i k).admitted = s.admitted ∧ (s.setStream i k).waitPub = s.waitPub ∧
    (s.setStream i k).signals = s.signals ∧ (s.setStream i k).readNext = s.readNext ∧ (s.setStream i k).outSlots = s.outSlots ∧
    (s.setStream i k).heldMsgs = s.heldMsgs ∧ (s.setStream i k).sendSeq = s.sendSeq ∧ (s.setStream i k).seqWins = s.seqWins ∧
    (s.setStream i k).decided = s.decided ∧ (s.setStream i k).msiSent = s.msiSent ∧ (s.setStream i k).msiPend = s.msiPend ∧
    (s.setStream i k).timebase = s.timebase ∧ (s.setStream i k).freeCtr = s.freeCtr ∧ (∀ x, (s.setStream i k).reg x = s.reg x) ∧
    (∀ x y z, (s.setStream i k).fld x y z = s.fld x y z) ∧ (s.setStream i k).tickNo = s.tickNo ∧
    (s.setStream i k).genState = s.genState ∧ (s.setStream i k).det = s.det ∧ (s.setStream i k).pstate = s.pstate ∧
    (s.setStream i k).bootDone = s.bootDone ∧ (∀ x, (s.setStream i k).core x = s.core x) ∧ (∀ x, (s.setStream i k).stk x = s.stk x) ∧
    (∀ x, (s.setStream i k).part x = s.part x) ∧ (∀ x, (s.setStream i k).queue x = s.queue x) ∧
    (∀ x, (s.setStream i k).port x = s.port x) ∧ (∀ x, (s.setStream i k).flight x = s.flight x) ∧
    (∀ x y, (s.setStream i k).ctx x y = s.ctx x y) ∧ (∀ x y, (s.setStream i k).graph x y = s.graph x y) ∧
    (∀ x, (s.setStream i k).mirp x = s.mirp x) ∧ (∀ x, (s.setStream i k).ring x = s.ring x) := by
  refine ⟨rfl, rfl, rfl, rfl, rfl, rfl, rfl, rfl, rfl, rfl, rfl, rfl, rfl, rfl, rfl, rfl, rfl, rfl, rfl, rfl, rfl, rfl, rfl, fun _ => rfl, fun _ _ _ => rfl, rfl, rfl, rfl, rfl, rfl, fun _ => rfl, fun _ => rfl, fun _ => rfl, fun _ => rfl, fun _ => rfl, fun _ => rfl, fun _ _ => rfl, fun _ _ => rfl, fun _ => rfl, fun _ => rfl⟩

/-- `setPart` changes `parts` alone. -/
@[simp] theorem State.setPart_fields (s : State) (p : Nat) (k : PartSt) :
    (s.setPart p k).pending = s.pending ∧ (s.setPart p k).regPend = s.regPend ∧ (s.setPart p k).regHeld = s.regHeld ∧
    (s.setPart p k).readData = s.readData ∧ (s.setPart p k).streams = s.streams ∧ (s.setPart p k).prefixes = s.prefixes ∧
    (s.setPart p k).hallRing = s.hallRing ∧ (s.setPart p k).flights = s.flights ∧ (s.setPart p k).pfAcctTail = s.pfAcctTail ∧
    (s.setPart p k).pfAcctHead = s.pfAcctHead ∧ (s.setPart p k).flightNext = s.flightNext ∧ (s.setPart p k).admitted = s.admitted ∧
    (s.setPart p k).waitPub = s.waitPub ∧ (s.setPart p k).signals = s.signals ∧ (s.setPart p k).readNext = s.readNext ∧
    (s.setPart p k).outSlots = s.outSlots ∧ (s.setPart p k).heldMsgs = s.heldMsgs ∧ (s.setPart p k).sendSeq = s.sendSeq ∧
    (s.setPart p k).seqWins = s.seqWins ∧ (s.setPart p k).decided = s.decided ∧ (s.setPart p k).msiSent = s.msiSent ∧
    (s.setPart p k).msiPend = s.msiPend ∧ (s.setPart p k).timebase = s.timebase ∧ (s.setPart p k).freeCtr = s.freeCtr ∧
    (∀ x, (s.setPart p k).reg x = s.reg x) ∧ (∀ x y z, (s.setPart p k).fld x y z = s.fld x y z) ∧ (s.setPart p k).tickNo = s.tickNo ∧
    (s.setPart p k).genState = s.genState ∧ (s.setPart p k).det = s.det ∧ (s.setPart p k).pstate = s.pstate ∧
    (s.setPart p k).bootDone = s.bootDone ∧ (∀ x, (s.setPart p k).core x = s.core x) ∧ (∀ x, (s.setPart p k).stk x = s.stk x) ∧
    (∀ x, (s.setPart p k).stream x = s.stream x) ∧ (∀ x, (s.setPart p k).queue x = s.queue x) ∧
    (∀ x, (s.setPart p k).port x = s.port x) ∧ (∀ x, (s.setPart p k).flight x = s.flight x) ∧ (∀ x, (s.setPart p k).mirp x = s.mirp x) ∧
    (∀ x, (s.setPart p k).ring x = s.ring x) := by
  refine ⟨rfl, rfl, rfl, rfl, rfl, rfl, rfl, rfl, rfl, rfl, rfl, rfl, rfl, rfl, rfl, rfl, rfl, rfl, rfl, rfl, rfl, rfl, rfl, rfl, fun _ => rfl, fun _ _ _ => rfl, rfl, rfl, rfl, rfl, rfl, fun _ => rfl, fun _ => rfl, fun _ => rfl, fun _ => rfl, fun _ => rfl, fun _ => rfl, fun _ => rfl, fun _ => rfl⟩

/-- `setQueue` changes `queues` alone. -/
@[simp] theorem State.setQueue_fields (s : State) (q : Nat) (k : QueueSt) :
    (s.setQueue q k).pending = s.pending ∧ (s.setQueue q k).regPend = s.regPend ∧ (s.setQueue q k).regHeld = s.regHeld ∧
    (s.setQueue q k).readData = s.readData ∧ (s.setQueue q k).streams = s.streams ∧ (s.setQueue q k).prefixes = s.prefixes ∧
    (s.setQueue q k).hallRing = s.hallRing ∧ (s.setQueue q k).flights = s.flights ∧ (s.setQueue q k).pfAcctTail = s.pfAcctTail ∧
    (s.setQueue q k).pfAcctHead = s.pfAcctHead ∧ (s.setQueue q k).flightNext = s.flightNext ∧ (s.setQueue q k).admitted = s.admitted ∧
    (s.setQueue q k).waitPub = s.waitPub ∧ (s.setQueue q k).signals = s.signals ∧ (s.setQueue q k).readNext = s.readNext ∧
    (s.setQueue q k).outSlots = s.outSlots ∧ (s.setQueue q k).heldMsgs = s.heldMsgs ∧ (s.setQueue q k).sendSeq = s.sendSeq ∧
    (s.setQueue q k).seqWins = s.seqWins ∧ (s.setQueue q k).decided = s.decided ∧ (s.setQueue q k).msiSent = s.msiSent ∧
    (s.setQueue q k).msiPend = s.msiPend ∧ (s.setQueue q k).timebase = s.timebase ∧ (s.setQueue q k).freeCtr = s.freeCtr ∧
    (∀ x, (s.setQueue q k).reg x = s.reg x) ∧ (∀ x y z, (s.setQueue q k).fld x y z = s.fld x y z) ∧ (s.setQueue q k).tickNo = s.tickNo ∧
    (s.setQueue q k).genState = s.genState ∧ (s.setQueue q k).det = s.det ∧ (s.setQueue q k).pstate = s.pstate ∧
    (s.setQueue q k).bootDone = s.bootDone ∧ (∀ x, (s.setQueue q k).core x = s.core x) ∧ (∀ x, (s.setQueue q k).stk x = s.stk x) ∧
    (∀ x, (s.setQueue q k).stream x = s.stream x) ∧ (∀ x, (s.setQueue q k).part x = s.part x) ∧
    (∀ x, (s.setQueue q k).port x = s.port x) ∧ (∀ x, (s.setQueue q k).flight x = s.flight x) ∧
    (∀ x y, (s.setQueue q k).ctx x y = s.ctx x y) ∧ (∀ x y, (s.setQueue q k).graph x y = s.graph x y) ∧
    (∀ x, (s.setQueue q k).mirp x = s.mirp x) ∧ (∀ x, (s.setQueue q k).ring x = s.ring x) := by
  refine ⟨rfl, rfl, rfl, rfl, rfl, rfl, rfl, rfl, rfl, rfl, rfl, rfl, rfl, rfl, rfl, rfl, rfl, rfl, rfl, rfl, rfl, rfl, rfl, rfl, fun _ => rfl, fun _ _ _ => rfl, rfl, rfl, rfl, rfl, rfl, fun _ => rfl, fun _ => rfl, fun _ => rfl, fun _ => rfl, fun _ => rfl, fun _ => rfl, fun _ _ => rfl, fun _ _ => rfl, fun _ => rfl, fun _ => rfl⟩

/-- `setPort` changes `ports` alone. -/
@[simp] theorem State.setPort_fields (s : State) (n : Nat) (k : PortSt) :
    (s.setPort n k).pending = s.pending ∧ (s.setPort n k).regPend = s.regPend ∧ (s.setPort n k).regHeld = s.regHeld ∧
    (s.setPort n k).readData = s.readData ∧ (s.setPort n k).streams = s.streams ∧ (s.setPort n k).prefixes = s.prefixes ∧
    (s.setPort n k).hallRing = s.hallRing ∧ (s.setPort n k).flights = s.flights ∧ (s.setPort n k).pfAcctTail = s.pfAcctTail ∧
    (s.setPort n k).pfAcctHead = s.pfAcctHead ∧ (s.setPort n k).flightNext = s.flightNext ∧ (s.setPort n k).admitted = s.admitted ∧
    (s.setPort n k).waitPub = s.waitPub ∧ (s.setPort n k).signals = s.signals ∧ (s.setPort n k).readNext = s.readNext ∧
    (s.setPort n k).outSlots = s.outSlots ∧ (s.setPort n k).heldMsgs = s.heldMsgs ∧ (s.setPort n k).sendSeq = s.sendSeq ∧
    (s.setPort n k).seqWins = s.seqWins ∧ (s.setPort n k).decided = s.decided ∧ (s.setPort n k).msiSent = s.msiSent ∧
    (s.setPort n k).msiPend = s.msiPend ∧ (s.setPort n k).timebase = s.timebase ∧ (s.setPort n k).freeCtr = s.freeCtr ∧
    (∀ x, (s.setPort n k).reg x = s.reg x) ∧ (∀ x y z, (s.setPort n k).fld x y z = s.fld x y z) ∧ (s.setPort n k).tickNo = s.tickNo ∧
    (s.setPort n k).genState = s.genState ∧ (s.setPort n k).det = s.det ∧ (s.setPort n k).pstate = s.pstate ∧
    (s.setPort n k).bootDone = s.bootDone ∧ (∀ x, (s.setPort n k).core x = s.core x) ∧ (∀ x, (s.setPort n k).stk x = s.stk x) ∧
    (∀ x, (s.setPort n k).stream x = s.stream x) ∧ (∀ x, (s.setPort n k).part x = s.part x) ∧
    (∀ x, (s.setPort n k).queue x = s.queue x) ∧ (∀ x, (s.setPort n k).flight x = s.flight x) ∧
    (∀ x y, (s.setPort n k).ctx x y = s.ctx x y) ∧ (∀ x y, (s.setPort n k).graph x y = s.graph x y) ∧
    (∀ x, (s.setPort n k).mirp x = s.mirp x) ∧ (∀ x, (s.setPort n k).ring x = s.ring x) := by
  refine ⟨rfl, rfl, rfl, rfl, rfl, rfl, rfl, rfl, rfl, rfl, rfl, rfl, rfl, rfl, rfl, rfl, rfl, rfl, rfl, rfl, rfl, rfl, rfl, rfl, fun _ => rfl, fun _ _ _ => rfl, rfl, rfl, rfl, rfl, rfl, fun _ => rfl, fun _ => rfl, fun _ => rfl, fun _ => rfl, fun _ => rfl, fun _ => rfl, fun _ _ => rfl, fun _ _ => rfl, fun _ => rfl, fun _ => rfl⟩

/-- `setFlight` changes `flights` alone. -/
@[simp] theorem State.setFlight_fields (s : State) (f : Nat) (k : Option FlightSt) :
    (s.setFlight f k).pending = s.pending ∧ (s.setFlight f k).regPend = s.regPend ∧ (s.setFlight f k).regHeld = s.regHeld ∧
    (s.setFlight f k).readData = s.readData ∧ (s.setFlight f k).streams = s.streams ∧ (s.setFlight f k).prefixes = s.prefixes ∧
    (s.setFlight f k).hallRing = s.hallRing ∧ (s.setFlight f k).pfAcctTail = s.pfAcctTail ∧ (s.setFlight f k).pfAcctHead = s.pfAcctHead ∧
    (s.setFlight f k).flightNext = s.flightNext ∧ (s.setFlight f k).admitted = s.admitted ∧ (s.setFlight f k).waitPub = s.waitPub ∧
    (s.setFlight f k).signals = s.signals ∧ (s.setFlight f k).readNext = s.readNext ∧ (s.setFlight f k).outSlots = s.outSlots ∧
    (s.setFlight f k).heldMsgs = s.heldMsgs ∧ (s.setFlight f k).sendSeq = s.sendSeq ∧ (s.setFlight f k).seqWins = s.seqWins ∧
    (s.setFlight f k).decided = s.decided ∧ (s.setFlight f k).msiSent = s.msiSent ∧ (s.setFlight f k).msiPend = s.msiPend ∧
    (s.setFlight f k).timebase = s.timebase ∧ (s.setFlight f k).freeCtr = s.freeCtr ∧ (∀ x, (s.setFlight f k).reg x = s.reg x) ∧
    (∀ x y z, (s.setFlight f k).fld x y z = s.fld x y z) ∧ (s.setFlight f k).tickNo = s.tickNo ∧
    (s.setFlight f k).genState = s.genState ∧ (s.setFlight f k).det = s.det ∧ (s.setFlight f k).pstate = s.pstate ∧
    (s.setFlight f k).bootDone = s.bootDone ∧ (∀ x, (s.setFlight f k).core x = s.core x) ∧ (∀ x, (s.setFlight f k).stk x = s.stk x) ∧
    (∀ x, (s.setFlight f k).stream x = s.stream x) ∧ (∀ x, (s.setFlight f k).part x = s.part x) ∧
    (∀ x, (s.setFlight f k).queue x = s.queue x) ∧ (∀ x, (s.setFlight f k).port x = s.port x) ∧
    (∀ x y, (s.setFlight f k).ctx x y = s.ctx x y) ∧ (∀ x y, (s.setFlight f k).graph x y = s.graph x y) ∧
    (∀ x, (s.setFlight f k).mirp x = s.mirp x) ∧ (∀ x, (s.setFlight f k).ring x = s.ring x) := by
  refine ⟨rfl, rfl, rfl, rfl, rfl, rfl, rfl, rfl, rfl, rfl, rfl, rfl, rfl, rfl, rfl, rfl, rfl, rfl, rfl, rfl, rfl, rfl, rfl, fun _ => rfl, fun _ _ _ => rfl, rfl, rfl, rfl, rfl, rfl, fun _ => rfl, fun _ => rfl, fun _ => rfl, fun _ => rfl, fun _ => rfl, fun _ => rfl, fun _ _ => rfl, fun _ _ => rfl, fun _ => rfl, fun _ => rfl⟩

/-- `setMirp` changes `mir` alone. -/
@[simp] theorem State.setMirp_fields (s : State) (p : Nat) (k : MirPart) :
    (s.setMirp p k).pending = s.pending ∧ (s.setMirp p k).regPend = s.regPend ∧ (s.setMirp p k).regHeld = s.regHeld ∧
    (s.setMirp p k).readData = s.readData ∧ (s.setMirp p k).streams = s.streams ∧ (s.setMirp p k).prefixes = s.prefixes ∧
    (s.setMirp p k).hallRing = s.hallRing ∧ (s.setMirp p k).flights = s.flights ∧ (s.setMirp p k).pfAcctTail = s.pfAcctTail ∧
    (s.setMirp p k).pfAcctHead = s.pfAcctHead ∧ (s.setMirp p k).flightNext = s.flightNext ∧ (s.setMirp p k).admitted = s.admitted ∧
    (s.setMirp p k).waitPub = s.waitPub ∧ (s.setMirp p k).signals = s.signals ∧ (s.setMirp p k).readNext = s.readNext ∧
    (s.setMirp p k).outSlots = s.outSlots ∧ (s.setMirp p k).heldMsgs = s.heldMsgs ∧ (s.setMirp p k).sendSeq = s.sendSeq ∧
    (s.setMirp p k).seqWins = s.seqWins ∧ (s.setMirp p k).decided = s.decided ∧ (s.setMirp p k).msiSent = s.msiSent ∧
    (s.setMirp p k).msiPend = s.msiPend ∧ (s.setMirp p k).timebase = s.timebase ∧ (s.setMirp p k).freeCtr = s.freeCtr ∧
    (∀ x, (s.setMirp p k).reg x = s.reg x) ∧ (∀ x y z, (s.setMirp p k).fld x y z = s.fld x y z) ∧ (s.setMirp p k).tickNo = s.tickNo ∧
    (s.setMirp p k).genState = s.genState ∧ (s.setMirp p k).det = s.det ∧ (s.setMirp p k).pstate = s.pstate ∧
    (s.setMirp p k).bootDone = s.bootDone ∧ (∀ x, (s.setMirp p k).core x = s.core x) ∧ (∀ x, (s.setMirp p k).stk x = s.stk x) ∧
    (∀ x, (s.setMirp p k).stream x = s.stream x) ∧ (∀ x, (s.setMirp p k).part x = s.part x) ∧
    (∀ x, (s.setMirp p k).queue x = s.queue x) ∧ (∀ x, (s.setMirp p k).port x = s.port x) ∧
    (∀ x, (s.setMirp p k).flight x = s.flight x) ∧ (∀ x y, (s.setMirp p k).ctx x y = s.ctx x y) ∧
    (∀ x y, (s.setMirp p k).graph x y = s.graph x y) ∧ (∀ x, (s.setMirp p k).ring x = s.ring x) := by
  refine ⟨rfl, rfl, rfl, rfl, rfl, rfl, rfl, rfl, rfl, rfl, rfl, rfl, rfl, rfl, rfl, rfl, rfl, rfl, rfl, rfl, rfl, rfl, rfl, rfl, fun _ => rfl, fun _ _ _ => rfl, rfl, rfl, rfl, rfl, rfl, fun _ => rfl, fun _ => rfl, fun _ => rfl, fun _ => rfl, fun _ => rfl, fun _ => rfl, fun _ => rfl, fun _ _ => rfl, fun _ _ => rfl, fun _ => rfl⟩

/-- `setMem` changes `mem` alone. -/
@[simp] theorem State.setMem_fields (s : State) (m : List Host.Cell) :
    (s.setMem m).pending = s.pending ∧ (s.setMem m).regPend = s.regPend ∧ (s.setMem m).regHeld = s.regHeld ∧
    (s.setMem m).readData = s.readData ∧ (s.setMem m).streams = s.streams ∧ (s.setMem m).prefixes = s.prefixes ∧
    (s.setMem m).hallRing = s.hallRing ∧ (s.setMem m).flights = s.flights ∧ (s.setMem m).pfAcctTail = s.pfAcctTail ∧
    (s.setMem m).pfAcctHead = s.pfAcctHead ∧ (s.setMem m).flightNext = s.flightNext ∧ (s.setMem m).admitted = s.admitted ∧
    (s.setMem m).waitPub = s.waitPub ∧ (s.setMem m).signals = s.signals ∧ (s.setMem m).readNext = s.readNext ∧
    (s.setMem m).outSlots = s.outSlots ∧ (s.setMem m).heldMsgs = s.heldMsgs ∧ (s.setMem m).sendSeq = s.sendSeq ∧
    (s.setMem m).seqWins = s.seqWins ∧ (s.setMem m).decided = s.decided ∧ (s.setMem m).msiSent = s.msiSent ∧
    (s.setMem m).msiPend = s.msiPend ∧ (s.setMem m).timebase = s.timebase ∧ (s.setMem m).freeCtr = s.freeCtr ∧
    (∀ x, (s.setMem m).reg x = s.reg x) ∧ (∀ x y z, (s.setMem m).fld x y z = s.fld x y z) ∧ (s.setMem m).tickNo = s.tickNo ∧
    (s.setMem m).genState = s.genState ∧ (s.setMem m).det = s.det ∧ (s.setMem m).pstate = s.pstate ∧ (s.setMem m).bootDone = s.bootDone ∧
    (∀ x, (s.setMem m).core x = s.core x) ∧ (∀ x, (s.setMem m).stk x = s.stk x) ∧ (∀ x, (s.setMem m).stream x = s.stream x) ∧
    (∀ x, (s.setMem m).part x = s.part x) ∧ (∀ x, (s.setMem m).queue x = s.queue x) ∧ (∀ x, (s.setMem m).port x = s.port x) ∧
    (∀ x, (s.setMem m).flight x = s.flight x) ∧ (∀ x y, (s.setMem m).ctx x y = s.ctx x y) ∧
    (∀ x y, (s.setMem m).graph x y = s.graph x y) ∧ (∀ x, (s.setMem m).mirp x = s.mirp x) ∧ (∀ x, (s.setMem m).ring x = s.ring x) := by
  refine ⟨rfl, rfl, rfl, rfl, rfl, rfl, rfl, rfl, rfl, rfl, rfl, rfl, rfl, rfl, rfl, rfl, rfl, rfl, rfl, rfl, rfl, rfl, rfl, rfl, fun _ => rfl, fun _ _ _ => rfl, rfl, rfl, rfl, rfl, rfl, fun _ => rfl, fun _ => rfl, fun _ => rfl, fun _ => rfl, fun _ => rfl, fun _ => rfl, fun _ => rfl, fun _ _ => rfl, fun _ _ => rfl, fun _ => rfl, fun _ => rfl⟩

/-- `setHost` changes `host` alone. -/
@[simp] theorem State.setHost_fields (s : State) (m : List Host.Cell) :
    (s.setHost m).pending = s.pending ∧ (s.setHost m).regPend = s.regPend ∧ (s.setHost m).regHeld = s.regHeld ∧
    (s.setHost m).readData = s.readData ∧ (s.setHost m).streams = s.streams ∧ (s.setHost m).prefixes = s.prefixes ∧
    (s.setHost m).hallRing = s.hallRing ∧ (s.setHost m).flights = s.flights ∧ (s.setHost m).pfAcctTail = s.pfAcctTail ∧
    (s.setHost m).pfAcctHead = s.pfAcctHead ∧ (s.setHost m).flightNext = s.flightNext ∧ (s.setHost m).admitted = s.admitted ∧
    (s.setHost m).waitPub = s.waitPub ∧ (s.setHost m).signals = s.signals ∧ (s.setHost m).readNext = s.readNext ∧
    (s.setHost m).outSlots = s.outSlots ∧ (s.setHost m).heldMsgs = s.heldMsgs ∧ (s.setHost m).sendSeq = s.sendSeq ∧
    (s.setHost m).seqWins = s.seqWins ∧ (s.setHost m).decided = s.decided ∧ (s.setHost m).msiSent = s.msiSent ∧
    (s.setHost m).msiPend = s.msiPend ∧ (s.setHost m).timebase = s.timebase ∧ (s.setHost m).freeCtr = s.freeCtr ∧
    (∀ x, (s.setHost m).reg x = s.reg x) ∧ (∀ x y z, (s.setHost m).fld x y z = s.fld x y z) ∧ (s.setHost m).tickNo = s.tickNo ∧
    (s.setHost m).genState = s.genState ∧ (s.setHost m).det = s.det ∧ (s.setHost m).pstate = s.pstate ∧
    (s.setHost m).bootDone = s.bootDone ∧ (∀ x, (s.setHost m).core x = s.core x) ∧ (∀ x, (s.setHost m).stk x = s.stk x) ∧
    (∀ x, (s.setHost m).stream x = s.stream x) ∧ (∀ x, (s.setHost m).part x = s.part x) ∧ (∀ x, (s.setHost m).queue x = s.queue x) ∧
    (∀ x, (s.setHost m).port x = s.port x) ∧ (∀ x, (s.setHost m).flight x = s.flight x) ∧ (∀ x y, (s.setHost m).ctx x y = s.ctx x y) ∧
    (∀ x y, (s.setHost m).graph x y = s.graph x y) ∧ (∀ x, (s.setHost m).mirp x = s.mirp x) ∧ (∀ x, (s.setHost m).ring x = s.ring x) := by
  refine ⟨rfl, rfl, rfl, rfl, rfl, rfl, rfl, rfl, rfl, rfl, rfl, rfl, rfl, rfl, rfl, rfl, rfl, rfl, rfl, rfl, rfl, rfl, rfl, rfl, fun _ => rfl, fun _ _ _ => rfl, rfl, rfl, rfl, rfl, rfl, fun _ => rfl, fun _ => rfl, fun _ => rfl, fun _ => rfl, fun _ => rfl, fun _ => rfl, fun _ => rfl, fun _ _ => rfl, fun _ _ => rfl, fun _ => rfl, fun _ => rfl⟩

@[simp] theorem State.setCore_same (s : State) (c : Nat) (k : CoreSt) : (s.setCore c k).core c = k := SMap.get_set_same _ _ _ _

theorem State.setCore_other (s : State) (c : Nat) (k : CoreSt) {x : Nat} (h : c ≠ x) : (s.setCore c k).core x = s.core x := SMap.get_set_other _ _ h

@[simp] theorem State.setStk_same (s : State) (t : Nat) (k : StackSt) : (s.setStk t k).stk t = k := SMap.get_set_same _ _ _ _

theorem State.setStk_other (s : State) (t : Nat) (k : StackSt) {x : Nat} (h : t ≠ x) : (s.setStk t k).stk x = s.stk x := SMap.get_set_other _ _ h

@[simp] theorem State.setStream_same (s : State) (i : Nat) (k : StreamSt) : (s.setStream i k).stream i = k := SMap.get_set_same _ _ _ _

theorem State.setStream_other (s : State) (i : Nat) (k : StreamSt) {x : Nat} (h : i ≠ x) : (s.setStream i k).stream x = s.stream x := SMap.get_set_other _ _ h

@[simp] theorem State.setPart_same (s : State) (p : Nat) (k : PartSt) : (s.setPart p k).part p = k := SMap.get_set_same _ _ _ _

theorem State.setPart_other (s : State) (p : Nat) (k : PartSt) {x : Nat} (h : p ≠ x) : (s.setPart p k).part x = s.part x := SMap.get_set_other _ _ h

@[simp] theorem State.setQueue_same (s : State) (q : Nat) (k : QueueSt) : (s.setQueue q k).queue q = k := SMap.get_set_same _ _ _ _

theorem State.setQueue_other (s : State) (q : Nat) (k : QueueSt) {x : Nat} (h : q ≠ x) : (s.setQueue q k).queue x = s.queue x := SMap.get_set_other _ _ h

@[simp] theorem State.setPort_same (s : State) (n : Nat) (k : PortSt) : (s.setPort n k).port n = k := SMap.get_set_same _ _ _ _

theorem State.setPort_other (s : State) (n : Nat) (k : PortSt) {x : Nat} (h : n ≠ x) : (s.setPort n k).port x = s.port x := SMap.get_set_other _ _ h

@[simp] theorem State.setFlight_same (s : State) (f : Nat) (k : Option FlightSt) : (s.setFlight f k).flight f = k := SMap.get_set_same _ _ _ _

theorem State.setFlight_other (s : State) (f : Nat) (k : Option FlightSt) {x : Nat} (h : f ≠ x) : (s.setFlight f k).flight x = s.flight x := SMap.get_set_other _ _ h

@[simp] theorem State.setMirp_same (s : State) (p : Nat) (k : MirPart) : (s.setMirp p k).mirp p = k := SMap.get_set_same _ _ _ _

theorem State.setMirp_other (s : State) (p : Nat) (k : MirPart) {x : Nat} (h : p ≠ x) : (s.setMirp p k).mirp x = s.mirp x := SMap.get_set_other _ _ h

@[simp] theorem State.setReg_same (s : State) (o : Nat) (v : Word) : (s.setReg o v).reg o = v := SMap.get_set_same _ _ _ _

theorem State.setReg_other (s : State) (o : Nat) (v : Word) {x : Nat} (h : o ≠ x) : (s.setReg o v).reg x = s.reg x := by
  unfold State.setReg State.reg SMap.set
  dsimp only
  split
  · exact SMap.get_del_other _ h
  · exact SMap.get_put_other _ _ h

@[simp] theorem State.setCtx_same (s : State) (p h : Nat) (k : Option CtxSt) : (s.setCtx p h k).ctx p h = k := by
  simp [State.ctx, State.setCtx]

@[simp] theorem State.setGraph_same (s : State) (p g : Nat) (k : Option GraphSt) : (s.setGraph p g k).graph p g = k := by
  simp [State.graph, State.setGraph]

end Sys2Proof.Machine
end

