-- ==== Sys2Proof/Laws/Issue.lean ====
section
/-! SUPPORT. What issuing a ready instruction does with each outcome of its own effect, and how it goes on. -/

namespace Sys2Proof.Machine

variable {s t : State} {c op : Nat} {w : BitVec 56} {f : State → CoreSt → Res}

theorem State.Ready.scalars (h : s.Ready c op w) :
    ((scalarsOf op w).any fun n => decide (n ≠ 0 ∧ n ∈ (s.core c).notReady)) = false := by
  rw [List.any_eq_false]
  intro n hn
  rcases h.2.2.2.2.2.1 n hn with h | h <;> simp [h]

/-- A ready instruction has its own effect (R164 to R172). -/
theorem State.Ready.issue (h : s.Ready c op w) :
    s.issue c op w f = match f s (s.core c) with
      | .seq t last => .next (t.retire c (s.core c).pc last)
      | .jump t x => .next (t.setCore c ((t.core c).issued (s.core c).pc x (t.core c).loops))
      | .illegal => .next (s.issueFault c 0x03 0x23 (s.core c).word.toNat)
      | .window a => .next (s.issueFault c 0x04 0x24 a)
      | .wait kind => .next (s.setCore c { s.core c with waitKind := kind })
      | .bad t => .next (t.setCore c { (t.core c).issued (s.core c).pc (s.core c).pc (s.core c).loops with phase := .halted }) := by
  have hs := h.scalars
  obtain ⟨hd, h1, h2, h3, h4, h5, h6⟩ := h
  have hn : ¬((s.core c).pc < (s.core c).region.base ∨ (s.core c).region.base + (s.core c).region.count ≤ (s.core c).pc ∨
      (s.core c).word.toNat / 2 ^ 56 ≠ op ∨ (!reservedOk op w) = true) := by
    simp only [h4, h3]
    simp
    omega
  unfold State.issue
  rw [if_pos hd]
  dsimp only
  rw [if_neg hn, if_neg (by rw [hs]; simpa using h6)]
  cases f s (s.core c) <;> rfl

@[simp] theorem State.retire_core (s : State) (c pc last : Nat) : (s.retire c pc last).core c =
    (s.core c).issued pc (loopStep last (s.core c).loops).1 (loopStep last (s.core c).loops).2 := by
  simp [State.retire]

end Sys2Proof.Machine
end

