-- ==== Sys2Proof/Laws/Keep.lean ====
section
/-! SUPPORT. What the lemmas of the Keep files share. Each of them says, for one definition of the machine, that it keeps every predicate
of states that looks at the command queue and the two memories alone (`Stable`), or, where it writes a memory, every such predicate that
outlives writes keeping the canonical form (`Lasting`). -/

namespace Sys2Proof.Machine

/-- A predicate of states that looks at the queue and the two memories alone. -/
def Stable (P : State → Prop) : Prop :=
  ∀ s t : State, t.pending = s.pending → t.mem = s.mem → t.host = s.host → P s → P t

/-- A stable predicate that outlives every write that keeps a memory's canonical form. -/
structure Lasting (P : State → Prop) : Prop where
  stable : Stable P
  mem : ∀ (s : State) (m : List Host.Cell), (Memory.wf s.mem → Memory.wf m) → P s → P { s with mem := m }
  host : ∀ (s : State) (m : List Host.Cell), (Memory.wf s.host → Memory.wf m) → P s → P { s with host := m }

/-- A predicate of the next state of an outcome. -/
def OutP (P : State → Prop) (o : Host.Outcome State Fault Refusal) : Prop :=
  match o with
  | .next t => P t
  | _ => True

/-- A predicate of the state that an instruction's result carries. -/
def ResP (P : State → Prop) (r : Res) : Prop :=
  match r with
  | .seq s _ => P s
  | .jump s _ => P s
  | .bad s => P s
  | _ => True

/-- A predicate of the state that may be there. -/
def OptP (P : State → Prop) (o : Option State) : Prop :=
  match o with
  | some t => P t
  | none => True

variable {P : State → Prop}

theorem OutP.next {t : State} (h : P t) : OutP P (.next t) := h
theorem ResP.seq {t : State} {n : Nat} (h : P t) : ResP P (.seq t n) := h
theorem ResP.jump {t : State} {n : Nat} (h : P t) : ResP P (.jump t n) := h
theorem ResP.bad {t : State} (h : P t) : ResP P (.bad t) := h
theorem ResP.illegal : ResP P .illegal := trivial
theorem ResP.window {a : Nat} : ResP P (.window a) := trivial
theorem ResP.wait {a : Nat} : ResP P (.wait a) := trivial
theorem OptP.some {t : State} (h : P t) : OptP P (some t) := h
theorem OptP.none : OptP P none := trivial
theorem OptP.get {o : Option State} {t : State} (he : o = Option.some t) (h : OptP P o) : P t := by subst he; exact h

/-- A record update that leaves the queue and the two memories. -/
theorem Stable.mk_iff (hP : Stable P) {s : State}
    (regs : SMap Word) (regPend : SMap (Word × Word)) (regHeld : SMap (Option HalfWrite)) (latch : SMap (Option (BitVec 32)))
    (readData : Word) (cores : SMap CoreSt) (stks : SMap StackSt) (streams : SMap StreamSt) (prefixes : List PrefixEnt) (cands :
    List CandFly) (hallRing : Option HallRingSt) (parts : SMap PartSt) (queues : SMap QueueSt) (flights :
    SMap (Option FlightSt)) (pfAcctTail : Nat) (pfAcctHead : Nat) (flightNext : Nat) (admitted : List (Nat × DescSt)) (compl :
    List ComplSt) (outbox : List (Nat × HostPub)) (waitPub : List ComplSt) (signals : List SignalFly) (reads : List PcieRead)
    (readNext : Nat) (outSlots : SMap (Option OutSlot)) (inWins : SMap (Option InWin)) (sends : List MsgOut) (heldMsgs : List
    PortMsg) (sendSeq : SMap Nat) (rowIds : Nat) (seqWins : SMap SeqWin) (rowsIn : List RowIn) (ports : SMap PortSt) (mir :
    MirSt) (sec : SecSt) (tick : TickSt) (rcv : RecSt) (bg : List BgOp) (bgNext : Nat) (made : List Made)
    (decided : List Decided) (pwr : PwrSt) (dbg : DbgSt) (msix : SMap
    Word) (msiSent : SMap Nat) (msiPend : SMap Nat) (track : List TrackEnt) (timebase : Word) (freeCtr : Nat) :
    P { s with
        regs := regs, regPend := regPend, regHeld := regHeld, latch := latch, readData := readData, cores := cores,
        stks := stks, streams := streams, prefixes := prefixes, cands := cands, hallRing := hallRing, parts := parts,
        queues := queues, flights := flights, pfAcctTail := pfAcctTail, pfAcctHead := pfAcctHead,
        flightNext := flightNext, admitted := admitted, compl := compl, outbox := outbox, waitPub := waitPub,
        signals := signals, reads := reads, readNext := readNext, outSlots := outSlots, inWins := inWins, sends := sends,
        heldMsgs := heldMsgs, sendSeq := sendSeq, rowIds := rowIds, seqWins := seqWins, rowsIn := rowsIn, ports := ports,
        mir := mir, sec := sec, tick := tick, rcv := rcv, bg := bg, bgNext := bgNext,
        made := made, decided := decided, pwr := pwr, dbg := dbg, msix := msix,
        msiSent := msiSent, msiPend := msiPend, track := track, timebase := timebase, freeCtr := freeCtr } ↔ P s :=
  ⟨hP _ s rfl rfl rfl, hP s _ rfl rfl rfl⟩

theorem OptP.getD {o : Option State} {t : State} (h : OptP P o) (ht : P t) : P (o.getD t) := by
  cases o
  · exact ht
  · exact h

theorem ite_keeps {c : Prop} [Decidable c] {a b : State} (ha : c → P a) (hb : ¬c → P b) : P (if c then a else b) := by
  split
  · exact ha ‹_›
  · exact hb ‹_›

theorem OutP.ite {c : Prop} [Decidable c] {a b : Host.Outcome State Fault Refusal} (ha : c → OutP P a) (hb : ¬c → OutP P b) :
    OutP P (if c then a else b) := by
  split
  · exact ha ‹_›
  · exact hb ‹_›

theorem ResP.ite {c : Prop} [Decidable c] {a b : Res} (ha : c → ResP P a) (hb : ¬c → ResP P b) : ResP P (if c then a else b) := by
  split
  · exact ha ‹_›
  · exact hb ‹_›

theorem fst_ite_keeps {α : Type} {c : Prop} [Decidable c] {a b : State × α} (ha : c → P a.1) (hb : ¬c → P b.1) :
    P (if c then a else b).1 := by
  split
  · exact ha ‹_›
  · exact hb ‹_›

theorem snd_ite_keeps {α : Type} {c : Prop} [Decidable c] {a b : α × State} (ha : c → P a.2) (hb : ¬c → P b.2) :
    P (if c then a else b).2 := by
  split
  · exact ha ‹_›
  · exact hb ‹_›

theorem List.foldl_keeps {α : Type} {g : State → α → State} {l : List α} {s : State} (h : P s) (hg : ∀ s x, P s → P (g s x)) :
    P (l.foldl g s) := by
  induction l generalizing s with
  | nil => exact h
  | cons x xs ih => exact ih (hg _ _ h)

theorem List.foldl_fst_keeps {α β : Type} {g : State × β → α → State × β} {l : List α} {r : State × β} (h : P r.1)
    (hg : ∀ r x, P r.1 → P (g r x).1) : P (l.foldl g r).1 := by
  induction l generalizing r with
  | nil => exact h
  | cons x xs ih => exact ih (hg _ _ h)

theorem List.foldl_snd_keeps {α β : Type} {g : β × State → α → β × State} {l : List α} {r : β × State} (h : P r.2)
    (hg : ∀ r x, P r.2 → P (g r x).2) : P (l.foldl g r).2 := by
  induction l generalizing r with
  | nil => exact h
  | cons x xs ih => exact ih (hg _ _ h)

theorem State.each_keeps (_ : Stable P) {g : State → Nat → State} {l : List Nat} {s : State} (h : P s) (hg : ∀ s x, P s → P (g s x)) :
    P (s.each g l) := by
  induction l generalizing s with
  | nil => exact h
  | cons x xs ih => exact ih (hg _ _ h)

theorem wf_zeroRange {m : List Host.Cell} {a n : Nat} (h : Memory.wf m) : Memory.wf (zeroRange m a n) := SMap.wf_filter _ h

theorem wf_copyRange {m : List Host.Cell} {a b n : Nat} (h : Memory.wf m) : Memory.wf (copyRange m a b n) :=
  Memory.wf_writeAll (wf_zeroRange h)

theorem State.setMem_keeps (hP : Lasting P) {s : State} {m : List Host.Cell} (h : P s) (hm : Memory.wf s.mem → Memory.wf m) :
    P (s.setMem m) := hP.mem s m hm h

theorem State.setHost_keeps (hP : Lasting P) {s : State} {m : List Host.Cell} (h : P s) (hm : Memory.wf s.host → Memory.wf m) :
    P (s.setHost m) := hP.host s m hm h

end Sys2Proof.Machine
end

