-- ==== Sys2Proof/Laws/KeepOps.lean ====
section
/-! SUPPORT. What the definitions of Machine/Ops.lean keep. -/

set_option linter.unusedTactic false
set_option linter.unreachableTactic false

namespace Sys2Proof.Machine

variable {P : State → Prop}

theorem State.setReg_keeps (hP : Stable P) {s : State} {off : ℕ} {v : Word} (h : P s) : P (State.setReg s off v) := by
  unfold State.setReg
  repeat' first
    | with_reducible assumption
    | with_reducible refine ite_keeps (fun _ => ?_) (fun _ => ?_)
    | with_reducible refine fst_ite_keeps (fun _ => ?_) (fun _ => ?_)
    | with_reducible refine snd_ite_keeps (fun _ => ?_) (fun _ => ?_)
    | with_reducible refine List.foldl_keeps ?_ (fun s x h => ?_)
    | with_reducible refine List.foldl_fst_keeps ?_ (fun s x h => ?_)
    | with_reducible refine List.foldl_snd_keeps ?_ (fun s x h => ?_)
    | intro s x h
    | simp only [Stable.mk_iff hP]
    | split
    | dsimp only

theorem State.setFld_keeps (hP : Stable P) {s : State} {off : ℕ} {hi : ℕ} {lo : ℕ} {v : ℕ} (h : P s) : P (State.setFld s off hi lo v) := by
  unfold State.setFld
  repeat' first
    | with_reducible assumption
    | with_reducible apply State.setReg_keeps hP
    | with_reducible refine ite_keeps (fun _ => ?_) (fun _ => ?_)
    | with_reducible refine fst_ite_keeps (fun _ => ?_) (fun _ => ?_)
    | with_reducible refine snd_ite_keeps (fun _ => ?_) (fun _ => ?_)
    | with_reducible refine List.foldl_keeps ?_ (fun s x h => ?_)
    | with_reducible refine List.foldl_fst_keeps ?_ (fun s x h => ?_)
    | with_reducible refine List.foldl_snd_keeps ?_ (fun s x h => ?_)
    | intro s x h
    | simp only [Stable.mk_iff hP]
    | split
    | dsimp only

theorem State.flag_keeps (hP : Stable P) {s : State} {off : ℕ} {i : ℕ} (h : P s) : P (State.flag s off i) := by
  unfold State.flag
  repeat' first
    | with_reducible assumption
    | with_reducible apply State.setFld_keeps hP
    | with_reducible refine ite_keeps (fun _ => ?_) (fun _ => ?_)
    | with_reducible refine fst_ite_keeps (fun _ => ?_) (fun _ => ?_)
    | with_reducible refine snd_ite_keeps (fun _ => ?_) (fun _ => ?_)
    | with_reducible refine List.foldl_keeps ?_ (fun s x h => ?_)
    | with_reducible refine List.foldl_fst_keeps ?_ (fun s x h => ?_)
    | with_reducible refine List.foldl_snd_keeps ?_ (fun s x h => ?_)
    | intro s x h
    | simp only [Stable.mk_iff hP]
    | split
    | dsimp only

theorem State.countFld_keeps (hP : Stable P) {s : State} {off : ℕ} {hi : ℕ} {lo : ℕ} {n : ℕ} (h : P s) :
    P (State.countFld s off hi lo n) := by
  unfold State.countFld
  repeat' first
    | with_reducible assumption
    | with_reducible apply State.setFld_keeps hP
    | with_reducible refine ite_keeps (fun _ => ?_) (fun _ => ?_)
    | with_reducible refine fst_ite_keeps (fun _ => ?_) (fun _ => ?_)
    | with_reducible refine snd_ite_keeps (fun _ => ?_) (fun _ => ?_)
    | with_reducible refine List.foldl_keeps ?_ (fun s x h => ?_)
    | with_reducible refine List.foldl_fst_keeps ?_ (fun s x h => ?_)
    | with_reducible refine List.foldl_snd_keeps ?_ (fun s x h => ?_)
    | intro s x h
    | simp only [Stable.mk_iff hP]
    | split
    | dsimp only

theorem State.setGenState_keeps (hP : Stable P) {s : State} {v : ℕ} (h : P s) : P (State.setGenState s v) := by
  unfold State.setGenState
  repeat' first
    | with_reducible assumption
    | with_reducible apply State.setFld_keeps hP
    | with_reducible refine ite_keeps (fun _ => ?_) (fun _ => ?_)
    | with_reducible refine fst_ite_keeps (fun _ => ?_) (fun _ => ?_)
    | with_reducible refine snd_ite_keeps (fun _ => ?_) (fun _ => ?_)
    | with_reducible refine List.foldl_keeps ?_ (fun s x h => ?_)
    | with_reducible refine List.foldl_fst_keeps ?_ (fun s x h => ?_)
    | with_reducible refine List.foldl_snd_keeps ?_ (fun s x h => ?_)
    | intro s x h
    | simp only [Stable.mk_iff hP]
    | split
    | dsimp only

theorem State.setPstate_keeps (hP : Stable P) {s : State} {v : ℕ} (h : P s) : P (State.setPstate s v) := by
  unfold State.setPstate
  repeat' first
    | with_reducible assumption
    | with_reducible apply State.setFld_keeps hP
    | with_reducible refine ite_keeps (fun _ => ?_) (fun _ => ?_)
    | with_reducible refine fst_ite_keeps (fun _ => ?_) (fun _ => ?_)
    | with_reducible refine snd_ite_keeps (fun _ => ?_) (fun _ => ?_)
    | with_reducible refine List.foldl_keeps ?_ (fun s x h => ?_)
    | with_reducible refine List.foldl_fst_keeps ?_ (fun s x h => ?_)
    | with_reducible refine List.foldl_snd_keeps ?_ (fun s x h => ?_)
    | intro s x h
    | simp only [Stable.mk_iff hP]
    | split
    | dsimp only

theorem State.setCore_keeps (hP : Stable P) {s : State} {c : ℕ} {k : CoreSt} (h : P s) : P (State.setCore s c k) := by
  unfold State.setCore
  repeat' first
    | with_reducible assumption
    | with_reducible refine ite_keeps (fun _ => ?_) (fun _ => ?_)
    | with_reducible refine fst_ite_keeps (fun _ => ?_) (fun _ => ?_)
    | with_reducible refine snd_ite_keeps (fun _ => ?_) (fun _ => ?_)
    | with_reducible refine List.foldl_keeps ?_ (fun s x h => ?_)
    | with_reducible refine List.foldl_fst_keeps ?_ (fun s x h => ?_)
    | with_reducible refine List.foldl_snd_keeps ?_ (fun s x h => ?_)
    | intro s x h
    | simp only [Stable.mk_iff hP]
    | split
    | dsimp only

theorem State.setStk_keeps (hP : Stable P) {s : State} {t : ℕ} {k : StackSt} (h : P s) : P (State.setStk s t k) := by
  unfold State.setStk
  repeat' first
    | with_reducible assumption
    | with_reducible refine ite_keeps (fun _ => ?_) (fun _ => ?_)
    | with_reducible refine fst_ite_keeps (fun _ => ?_) (fun _ => ?_)
    | with_reducible refine snd_ite_keeps (fun _ => ?_) (fun _ => ?_)
    | with_reducible refine List.foldl_keeps ?_ (fun s x h => ?_)
    | with_reducible refine List.foldl_fst_keeps ?_ (fun s x h => ?_)
    | with_reducible refine List.foldl_snd_keeps ?_ (fun s x h => ?_)
    | intro s x h
    | simp only [Stable.mk_iff hP]
    | split
    | dsimp only

theorem State.setStream_keeps (hP : Stable P) {s : State} {i : ℕ} {k : StreamSt} (h : P s) : P (State.setStream s i k) := by
  unfold State.setStream
  repeat' first
    | with_reducible assumption
    | with_reducible refine ite_keeps (fun _ => ?_) (fun _ => ?_)
    | with_reducible refine fst_ite_keeps (fun _ => ?_) (fun _ => ?_)
    | with_reducible refine snd_ite_keeps (fun _ => ?_) (fun _ => ?_)
    | with_reducible refine List.foldl_keeps ?_ (fun s x h => ?_)
    | with_reducible refine List.foldl_fst_keeps ?_ (fun s x h => ?_)
    | with_reducible refine List.foldl_snd_keeps ?_ (fun s x h => ?_)
    | intro s x h
    | simp only [Stable.mk_iff hP]
    | split
    | dsimp only

theorem State.setPart_keeps (hP : Stable P) {s : State} {p : ℕ} {k : PartSt} (h : P s) : P (State.setPart s p k) := by
  unfold State.setPart
  repeat' first
    | with_reducible assumption
    | with_reducible refine ite_keeps (fun _ => ?_) (fun _ => ?_)
    | with_reducible refine fst_ite_keeps (fun _ => ?_) (fun _ => ?_)
    | with_reducible refine snd_ite_keeps (fun _ => ?_) (fun _ => ?_)
    | with_reducible refine List.foldl_keeps ?_ (fun s x h => ?_)
    | with_reducible refine List.foldl_fst_keeps ?_ (fun s x h => ?_)
    | with_reducible refine List.foldl_snd_keeps ?_ (fun s x h => ?_)
    | intro s x h
    | simp only [Stable.mk_iff hP]
    | split
    | dsimp only

theorem State.hostFor_keeps (hP : Lasting P) {s : State} {p : ℕ} {a : ℕ} {data : List Byte} (h : P s) : P (State.hostFor s p a data) := by
  unfold State.hostFor
  repeat' first
    | with_reducible assumption
    | with_reducible apply State.setPart_keeps hP.stable
    | with_reducible apply State.setHost_keeps hP
    | with_reducible refine ite_keeps (fun _ => ?_) (fun _ => ?_)
    | with_reducible refine fst_ite_keeps (fun _ => ?_) (fun _ => ?_)
    | with_reducible refine snd_ite_keeps (fun _ => ?_) (fun _ => ?_)
    | with_reducible refine List.foldl_keeps ?_ (fun s x h => ?_)
    | with_reducible refine List.foldl_fst_keeps ?_ (fun s x h => ?_)
    | with_reducible refine List.foldl_snd_keeps ?_ (fun s x h => ?_)
    | intro s x h
    | exact fun hw => Memory.wf_writeN hw
    | exact fun hw => Memory.wf_writeN (wf_zeroRange hw)
    | exact fun hw => wf_zeroRange hw
    | exact fun hw => wf_copyRange hw
    | exact fun hw => Memory.wf_writeAll hw
    | simp only [Stable.mk_iff hP.stable]
    | split
    | dsimp only

theorem State.freeHost_keeps (hP : Lasting P) {s : State} {p : ℕ} (h : P s) : P (State.freeHost s p) := by
  unfold State.freeHost
  repeat' first
    | with_reducible assumption
    | with_reducible apply State.setPart_keeps hP.stable
    | with_reducible apply State.setHost_keeps hP
    | with_reducible refine ite_keeps (fun _ => ?_) (fun _ => ?_)
    | with_reducible refine fst_ite_keeps (fun _ => ?_) (fun _ => ?_)
    | with_reducible refine snd_ite_keeps (fun _ => ?_) (fun _ => ?_)
    | with_reducible refine List.foldl_keeps ?_ (fun s x h => ?_)
    | with_reducible refine List.foldl_fst_keeps ?_ (fun s x h => ?_)
    | with_reducible refine List.foldl_snd_keeps ?_ (fun s x h => ?_)
    | intro s x h
    | exact fun hw => Memory.wf_writeN hw
    | exact fun hw => Memory.wf_writeN (wf_zeroRange hw)
    | exact fun hw => wf_zeroRange hw
    | exact fun hw => wf_copyRange hw
    | exact fun hw => Memory.wf_writeAll hw
    | simp only [Stable.mk_iff hP.stable]
    | split
    | dsimp only

theorem State.setQueue_keeps (hP : Stable P) {s : State} {q : ℕ} {k : QueueSt} (h : P s) : P (State.setQueue s q k) := by
  unfold State.setQueue
  repeat' first
    | with_reducible assumption
    | with_reducible refine ite_keeps (fun _ => ?_) (fun _ => ?_)
    | with_reducible refine fst_ite_keeps (fun _ => ?_) (fun _ => ?_)
    | with_reducible refine snd_ite_keeps (fun _ => ?_) (fun _ => ?_)
    | with_reducible refine List.foldl_keeps ?_ (fun s x h => ?_)
    | with_reducible refine List.foldl_fst_keeps ?_ (fun s x h => ?_)
    | with_reducible refine List.foldl_snd_keeps ?_ (fun s x h => ?_)
    | intro s x h
    | simp only [Stable.mk_iff hP]
    | split
    | dsimp only

theorem State.setPort_keeps (hP : Stable P) {s : State} {n : ℕ} {k : PortSt} (h : P s) : P (State.setPort s n k) := by
  unfold State.setPort
  repeat' first
    | with_reducible assumption
    | with_reducible refine ite_keeps (fun _ => ?_) (fun _ => ?_)
    | with_reducible refine fst_ite_keeps (fun _ => ?_) (fun _ => ?_)
    | with_reducible refine snd_ite_keeps (fun _ => ?_) (fun _ => ?_)
    | with_reducible refine List.foldl_keeps ?_ (fun s x h => ?_)
    | with_reducible refine List.foldl_fst_keeps ?_ (fun s x h => ?_)
    | with_reducible refine List.foldl_snd_keeps ?_ (fun s x h => ?_)
    | intro s x h
    | simp only [Stable.mk_iff hP]
    | split
    | dsimp only

theorem State.setFlight_keeps (hP : Stable P) {s : State} {f : ℕ} {k : Option FlightSt} (h : P s) : P (State.setFlight s f k) := by
  unfold State.setFlight
  repeat' first
    | with_reducible assumption
    | with_reducible refine ite_keeps (fun _ => ?_) (fun _ => ?_)
    | with_reducible refine fst_ite_keeps (fun _ => ?_) (fun _ => ?_)
    | with_reducible refine snd_ite_keeps (fun _ => ?_) (fun _ => ?_)
    | with_reducible refine List.foldl_keeps ?_ (fun s x h => ?_)
    | with_reducible refine List.foldl_fst_keeps ?_ (fun s x h => ?_)
    | with_reducible refine List.foldl_snd_keeps ?_ (fun s x h => ?_)
    | intro s x h
    | simp only [Stable.mk_iff hP]
    | split
    | dsimp only

theorem State.setCtx_keeps (hP : Stable P) {s : State} {p : ℕ} {a2 : ℕ} {k : Option CtxSt} (h : P s) : P (State.setCtx s p a2 k) := by
  unfold State.setCtx
  repeat' first
    | with_reducible assumption
    | with_reducible apply State.setPart_keeps hP
    | with_reducible refine ite_keeps (fun _ => ?_) (fun _ => ?_)
    | with_reducible refine fst_ite_keeps (fun _ => ?_) (fun _ => ?_)
    | with_reducible refine snd_ite_keeps (fun _ => ?_) (fun _ => ?_)
    | with_reducible refine List.foldl_keeps ?_ (fun s x h => ?_)
    | with_reducible refine List.foldl_fst_keeps ?_ (fun s x h => ?_)
    | with_reducible refine List.foldl_snd_keeps ?_ (fun s x h => ?_)
    | intro s x h
    | simp only [Stable.mk_iff hP]
    | split
    | dsimp only

theorem State.updCtx_keeps (hP : Stable P) {s : State} {p : ℕ} {a2 : ℕ} {f : CtxSt → CtxSt} (h : P s) : P (State.updCtx s p a2 f) := by
  unfold State.updCtx
  repeat' first
    | with_reducible assumption
    | with_reducible apply State.setCtx_keeps hP
    | with_reducible refine ite_keeps (fun _ => ?_) (fun _ => ?_)
    | with_reducible refine fst_ite_keeps (fun _ => ?_) (fun _ => ?_)
    | with_reducible refine snd_ite_keeps (fun _ => ?_) (fun _ => ?_)
    | with_reducible refine List.foldl_keeps ?_ (fun s x h => ?_)
    | with_reducible refine List.foldl_fst_keeps ?_ (fun s x h => ?_)
    | with_reducible refine List.foldl_snd_keeps ?_ (fun s x h => ?_)
    | intro s x h
    | simp only [Stable.mk_iff hP]
    | split
    | dsimp only

theorem State.setGraph_keeps (hP : Stable P) {s : State} {p : ℕ} {g : ℕ} {k : Option GraphSt} (h : P s) : P (State.setGraph s p g k) := by
  unfold State.setGraph
  repeat' first
    | with_reducible assumption
    | with_reducible apply State.setPart_keeps hP
    | with_reducible refine ite_keeps (fun _ => ?_) (fun _ => ?_)
    | with_reducible refine fst_ite_keeps (fun _ => ?_) (fun _ => ?_)
    | with_reducible refine snd_ite_keeps (fun _ => ?_) (fun _ => ?_)
    | with_reducible refine List.foldl_keeps ?_ (fun s x h => ?_)
    | with_reducible refine List.foldl_fst_keeps ?_ (fun s x h => ?_)
    | with_reducible refine List.foldl_snd_keeps ?_ (fun s x h => ?_)
    | intro s x h
    | simp only [Stable.mk_iff hP]
    | split
    | dsimp only

theorem State.setMirp_keeps (hP : Stable P) {s : State} {p : ℕ} {k : MirPart} (h : P s) : P (State.setMirp s p k) := by
  unfold State.setMirp
  repeat' first
    | with_reducible assumption
    | with_reducible refine ite_keeps (fun _ => ?_) (fun _ => ?_)
    | with_reducible refine fst_ite_keeps (fun _ => ?_) (fun _ => ?_)
    | with_reducible refine snd_ite_keeps (fun _ => ?_) (fun _ => ?_)
    | with_reducible refine List.foldl_keeps ?_ (fun s x h => ?_)
    | with_reducible refine List.foldl_fst_keeps ?_ (fun s x h => ?_)
    | with_reducible refine List.foldl_snd_keeps ?_ (fun s x h => ?_)
    | intro s x h
    | simp only [Stable.mk_iff hP]
    | split
    | dsimp only

theorem State.charge_keeps (hP : Stable P) {s : State} {p : ℕ} {a2 : ℕ} {c : Charges} (h : P s) : P (State.charge s p a2 c) := by
  unfold State.charge
  repeat' first
    | with_reducible assumption
    | with_reducible apply State.updCtx_keeps hP
    | with_reducible refine ite_keeps (fun _ => ?_) (fun _ => ?_)
    | with_reducible refine fst_ite_keeps (fun _ => ?_) (fun _ => ?_)
    | with_reducible refine snd_ite_keeps (fun _ => ?_) (fun _ => ?_)
    | with_reducible refine List.foldl_keeps ?_ (fun s x h => ?_)
    | with_reducible refine List.foldl_fst_keeps ?_ (fun s x h => ?_)
    | with_reducible refine List.foldl_snd_keeps ?_ (fun s x h => ?_)
    | intro s x h
    | simp only [Stable.mk_iff hP]
    | split
    | dsimp only

theorem State.chargePart_keeps (hP : Stable P) {s : State} {p : ℕ} {c : Charges} (h : P s) : P (State.chargePart s p c) := by
  unfold State.chargePart
  repeat' first
    | with_reducible assumption
    | with_reducible apply State.setPart_keeps hP
    | with_reducible refine ite_keeps (fun _ => ?_) (fun _ => ?_)
    | with_reducible refine fst_ite_keeps (fun _ => ?_) (fun _ => ?_)
    | with_reducible refine snd_ite_keeps (fun _ => ?_) (fun _ => ?_)
    | with_reducible refine List.foldl_keeps ?_ (fun s x h => ?_)
    | with_reducible refine List.foldl_fst_keeps ?_ (fun s x h => ?_)
    | with_reducible refine List.foldl_snd_keeps ?_ (fun s x h => ?_)
    | intro s x h
    | simp only [Stable.mk_iff hP]
    | split
    | dsimp only

theorem State.draw_keeps (hP : Stable P) {s : State} (h : P s) : P (State.draw s).2 := by
  unfold State.draw
  repeat' first
    | with_reducible assumption
    | with_reducible refine ite_keeps (fun _ => ?_) (fun _ => ?_)
    | with_reducible refine fst_ite_keeps (fun _ => ?_) (fun _ => ?_)
    | with_reducible refine snd_ite_keeps (fun _ => ?_) (fun _ => ?_)
    | with_reducible refine List.foldl_keeps ?_ (fun s x h => ?_)
    | with_reducible refine List.foldl_fst_keeps ?_ (fun s x h => ?_)
    | with_reducible refine List.foldl_snd_keeps ?_ (fun s x h => ?_)
    | intro s x h
    | simp only [Stable.mk_iff hP]
    | split
    | dsimp only

theorem State.stampTime_keeps (hP : Stable P) {s : State} (h : P s) : P (State.stampTime s).2 := by
  unfold State.stampTime
  repeat' first
    | with_reducible assumption
    | with_reducible refine ite_keeps (fun _ => ?_) (fun _ => ?_)
    | with_reducible refine fst_ite_keeps (fun _ => ?_) (fun _ => ?_)
    | with_reducible refine snd_ite_keeps (fun _ => ?_) (fun _ => ?_)
    | with_reducible refine List.foldl_keeps ?_ (fun s x h => ?_)
    | with_reducible refine List.foldl_fst_keeps ?_ (fun s x h => ?_)
    | with_reducible refine List.foldl_snd_keeps ?_ (fun s x h => ?_)
    | intro s x h
    | simp only [Stable.mk_iff hP]
    | split
    | dsimp only

theorem State.setRing_keeps (hP : Stable P) {s : State} {u : ℕ} {r : UnitRing} (h : P s) : P (State.setRing s u r) := by
  unfold State.setRing
  repeat' first
    | with_reducible assumption
    | with_reducible refine ite_keeps (fun _ => ?_) (fun _ => ?_)
    | with_reducible refine fst_ite_keeps (fun _ => ?_) (fun _ => ?_)
    | with_reducible refine snd_ite_keeps (fun _ => ?_) (fun _ => ?_)
    | with_reducible refine List.foldl_keeps ?_ (fun s x h => ?_)
    | with_reducible refine List.foldl_fst_keeps ?_ (fun s x h => ?_)
    | with_reducible refine List.foldl_snd_keeps ?_ (fun s x h => ?_)
    | intro s x h
    | simp only [Stable.mk_iff hP]
    | split
    | dsimp only

theorem State.noteLoss_keeps (hP : Stable P) {s : State} {old : LossCounts} {new : LossCounts} (h : P s) : P (State.noteLoss s old new) := by
  unfold State.noteLoss
  repeat' first
    | with_reducible assumption
    | with_reducible apply State.countFld_keeps hP
    | with_reducible apply State.flag_keeps hP
    | with_reducible refine ite_keeps (fun _ => ?_) (fun _ => ?_)
    | with_reducible refine fst_ite_keeps (fun _ => ?_) (fun _ => ?_)
    | with_reducible refine snd_ite_keeps (fun _ => ?_) (fun _ => ?_)
    | with_reducible refine List.foldl_keeps ?_ (fun s x h => ?_)
    | with_reducible refine List.foldl_fst_keeps ?_ (fun s x h => ?_)
    | with_reducible refine List.foldl_snd_keeps ?_ (fun s x h => ?_)
    | intro s x h
    | simp only [Stable.mk_iff hP]
    | split
    | dsimp only

theorem State.logRec_keeps (hP : Stable P) {s : State} {r : EventRec} (h : P s) : P (State.logRec s r) := by
  unfold State.logRec
  repeat' first
    | with_reducible assumption
    | with_reducible apply State.setRing_keeps hP
    | with_reducible refine ite_keeps (fun _ => ?_) (fun _ => ?_)
    | with_reducible refine fst_ite_keeps (fun _ => ?_) (fun _ => ?_)
    | with_reducible refine snd_ite_keeps (fun _ => ?_) (fun _ => ?_)
    | with_reducible refine List.foldl_keeps ?_ (fun s x h => ?_)
    | with_reducible refine List.foldl_fst_keeps ?_ (fun s x h => ?_)
    | with_reducible refine List.foldl_snd_keeps ?_ (fun s x h => ?_)
    | intro s x h
    | simp only [Stable.mk_iff hP]
    | split
    | dsimp only

theorem State.pushRec_keeps (hP : Stable P) {s : State} {r : EventRec} (h : P s) : P (State.pushRec s r) := by
  unfold State.pushRec
  repeat' first
    | with_reducible assumption
    | with_reducible apply State.logRec_keeps hP
    | with_reducible apply State.noteLoss_keeps hP
    | with_reducible apply State.setRing_keeps hP
    | with_reducible refine ite_keeps (fun _ => ?_) (fun _ => ?_)
    | with_reducible refine fst_ite_keeps (fun _ => ?_) (fun _ => ?_)
    | with_reducible refine snd_ite_keeps (fun _ => ?_) (fun _ => ?_)
    | with_reducible refine List.foldl_keeps ?_ (fun s x h => ?_)
    | with_reducible refine List.foldl_fst_keeps ?_ (fun s x h => ?_)
    | with_reducible refine List.foldl_snd_keeps ?_ (fun s x h => ?_)
    | intro s x h
    | simp only [Stable.mk_iff hP]
    | split
    | dsimp only

theorem State.holdPerTick_keeps (hP : Stable P) {s : State} {r : EventRec} (h : P s) : P (State.holdPerTick s r) := by
  unfold State.holdPerTick
  repeat' first
    | with_reducible assumption
    | with_reducible apply State.setRing_keeps hP
    | with_reducible refine ite_keeps (fun _ => ?_) (fun _ => ?_)
    | with_reducible refine fst_ite_keeps (fun _ => ?_) (fun _ => ?_)
    | with_reducible refine snd_ite_keeps (fun _ => ?_) (fun _ => ?_)
    | with_reducible refine List.foldl_keeps ?_ (fun s x h => ?_)
    | with_reducible refine List.foldl_fst_keeps ?_ (fun s x h => ?_)
    | with_reducible refine List.foldl_snd_keeps ?_ (fun s x h => ?_)
    | intro s x h
    | simp only [Stable.mk_iff hP]
    | split
    | dsimp only

theorem State.emit_keeps (hP : Stable P) {s : State} {unit : ℕ} {kind : ℕ} {d0 : ℕ} {d1 : ℕ} {part : Option ℕ} {ctx : ℕ} {superseded : Bool} (h : P s) :
    P (State.emit s unit kind d0 d1 part ctx superseded) := by
  unfold State.emit
  repeat' first
    | with_reducible assumption
    | with_reducible apply State.stampTime_keeps hP
    | with_reducible apply State.holdPerTick_keeps hP
    | with_reducible apply State.pushRec_keeps hP
    | with_reducible refine ite_keeps (fun _ => ?_) (fun _ => ?_)
    | with_reducible refine fst_ite_keeps (fun _ => ?_) (fun _ => ?_)
    | with_reducible refine snd_ite_keeps (fun _ => ?_) (fun _ => ?_)
    | with_reducible refine List.foldl_keeps ?_ (fun s x h => ?_)
    | with_reducible refine List.foldl_fst_keeps ?_ (fun s x h => ?_)
    | with_reducible refine List.foldl_snd_keeps ?_ (fun s x h => ?_)
    | intro s x h
    | simp only [Stable.mk_iff hP]
    | split
    | dsimp only

theorem State.alarm_keeps (hP : Stable P) {s : State} {k : ℕ} {unit : ℕ} {d0 : ℕ} {d1 : ℕ} (h : P s) : P (State.alarm s k unit d0 d1) := by
  unfold State.alarm
  repeat' first
    | with_reducible assumption
    | with_reducible apply State.flag_keeps hP
    | with_reducible apply State.countFld_keeps hP
    | with_reducible apply State.stampTime_keeps hP
    | with_reducible apply State.logRec_keeps hP
    | with_reducible refine ite_keeps (fun _ => ?_) (fun _ => ?_)
    | with_reducible refine fst_ite_keeps (fun _ => ?_) (fun _ => ?_)
    | with_reducible refine snd_ite_keeps (fun _ => ?_) (fun _ => ?_)
    | with_reducible refine List.foldl_keeps ?_ (fun s x h => ?_)
    | with_reducible refine List.foldl_fst_keeps ?_ (fun s x h => ?_)
    | with_reducible refine List.foldl_snd_keeps ?_ (fun s x h => ?_)
    | intro s x h
    | simp only [Stable.mk_iff hP]
    | split
    | dsimp only

theorem State.injected_keeps (hP : Stable P) {s : State} {unit : ℕ} {kinds : List ℕ} (h : P s) : P (State.injected s unit kinds).2 := by
  unfold State.injected
  repeat' first
    | with_reducible assumption
    | with_reducible refine ite_keeps (fun _ => ?_) (fun _ => ?_)
    | with_reducible refine fst_ite_keeps (fun _ => ?_) (fun _ => ?_)
    | with_reducible refine snd_ite_keeps (fun _ => ?_) (fun _ => ?_)
    | with_reducible refine List.foldl_keeps ?_ (fun s x h => ?_)
    | with_reducible refine List.foldl_fst_keeps ?_ (fun s x h => ?_)
    | with_reducible refine List.foldl_snd_keeps ?_ (fun s x h => ?_)
    | intro s x h
    | simp only [Stable.mk_iff hP]
    | split
    | dsimp only

theorem State.injectEcc_keeps (hP : Stable P) {s : State} {unit : ℕ} {kinds : List ℕ} {a : ℕ} {e : Ecc} (h : P s) :
    P (State.injectEcc s unit kinds a e).2 := by
  unfold State.injectEcc
  repeat' first
    | with_reducible assumption
    | with_reducible apply State.injected_keeps hP
    | with_reducible refine ite_keeps (fun _ => ?_) (fun _ => ?_)
    | with_reducible refine fst_ite_keeps (fun _ => ?_) (fun _ => ?_)
    | with_reducible refine snd_ite_keeps (fun _ => ?_) (fun _ => ?_)
    | with_reducible refine List.foldl_keeps ?_ (fun s x h => ?_)
    | with_reducible refine List.foldl_fst_keeps ?_ (fun s x h => ?_)
    | with_reducible refine List.foldl_snd_keeps ?_ (fun s x h => ?_)
    | intro s x h
    | simp only [Stable.mk_iff hP]
    | split
    | dsimp only

theorem State.scanFalls_keeps (hP : Stable P) {s : State} (h : P s) : P (State.scanFalls s) := by
  unfold State.scanFalls
  repeat' first
    | with_reducible assumption
    | with_reducible refine ite_keeps (fun _ => ?_) (fun _ => ?_)
    | with_reducible refine fst_ite_keeps (fun _ => ?_) (fun _ => ?_)
    | with_reducible refine snd_ite_keeps (fun _ => ?_) (fun _ => ?_)
    | with_reducible refine List.foldl_keeps ?_ (fun s x h => ?_)
    | with_reducible refine List.foldl_fst_keeps ?_ (fun s x h => ?_)
    | with_reducible refine List.foldl_snd_keeps ?_ (fun s x h => ?_)
    | intro s x h
    | simp only [Stable.mk_iff hP]
    | split
    | dsimp only

theorem State.extendSlot_keeps (hP : Stable P) {s : State} {i : ℕ} {d : List Byte} (h : P s) : P (State.extendSlot s i d) := by
  unfold State.extendSlot
  repeat' first
    | with_reducible assumption
    | with_reducible refine ite_keeps (fun _ => ?_) (fun _ => ?_)
    | with_reducible refine fst_ite_keeps (fun _ => ?_) (fun _ => ?_)
    | with_reducible refine snd_ite_keeps (fun _ => ?_) (fun _ => ?_)
    | with_reducible refine List.foldl_keeps ?_ (fun s x h => ?_)
    | with_reducible refine List.foldl_fst_keeps ?_ (fun s x h => ?_)
    | with_reducible refine List.foldl_snd_keeps ?_ (fun s x h => ?_)
    | intro s x h
    | simp only [Stable.mk_iff hP]
    | split
    | dsimp only

theorem State.commitRecord_keeps (hP : Stable P) {s : State} {f : ConfigRec → ConfigRec} (h : P s) : P (State.commitRecord s f) := by
  unfold State.commitRecord
  repeat' first
    | with_reducible assumption
    | with_reducible apply State.extendSlot_keeps hP
    | with_reducible refine ite_keeps (fun _ => ?_) (fun _ => ?_)
    | with_reducible refine fst_ite_keeps (fun _ => ?_) (fun _ => ?_)
    | with_reducible refine snd_ite_keeps (fun _ => ?_) (fun _ => ?_)
    | with_reducible refine List.foldl_keeps ?_ (fun s x h => ?_)
    | with_reducible refine List.foldl_fst_keeps ?_ (fun s x h => ?_)
    | with_reducible refine List.foldl_snd_keeps ?_ (fun s x h => ?_)
    | intro s x h
    | simp only [Stable.mk_iff hP]
    | split
    | dsimp only

theorem State.perfOne_keeps (hP : Stable P) {s : State} {unit : ℕ} {ev : ℕ} {n : ℕ} {k : ℕ} (h : P s) : P (State.perfOne s unit ev n k) := by
  unfold State.perfOne
  repeat' first
    | with_reducible assumption
    | with_reducible apply State.emit_keeps hP
    | with_reducible refine ite_keeps (fun _ => ?_) (fun _ => ?_)
    | with_reducible refine fst_ite_keeps (fun _ => ?_) (fun _ => ?_)
    | with_reducible refine snd_ite_keeps (fun _ => ?_) (fun _ => ?_)
    | with_reducible refine List.foldl_keeps ?_ (fun s x h => ?_)
    | with_reducible refine List.foldl_fst_keeps ?_ (fun s x h => ?_)
    | with_reducible refine List.foldl_snd_keeps ?_ (fun s x h => ?_)
    | intro s x h
    | simp only [Stable.mk_iff hP]
    | split
    | dsimp only

theorem State.perf_keeps (hP : Stable P) {s : State} {unit : ℕ} {ev : ℕ} {n : ℕ} (h : P s) : P (State.perf s unit ev n) := by
  unfold State.perf
  repeat' first
    | with_reducible assumption
    | with_reducible apply State.perfOne_keeps hP
    | with_reducible refine ite_keeps (fun _ => ?_) (fun _ => ?_)
    | with_reducible refine fst_ite_keeps (fun _ => ?_) (fun _ => ?_)
    | with_reducible refine snd_ite_keeps (fun _ => ?_) (fun _ => ?_)
    | with_reducible refine List.foldl_keeps ?_ (fun s x h => ?_)
    | with_reducible refine List.foldl_fst_keeps ?_ (fun s x h => ?_)
    | with_reducible refine List.foldl_snd_keeps ?_ (fun s x h => ?_)
    | intro s x h
    | simp only [Stable.mk_iff hP]
    | split
    | dsimp only

theorem State.landing_keeps (hP : Stable P) {s : State} {level : ℕ} {unit : ℕ} {status : ℕ} {part : Option ℕ} {ctx : Option ℕ} (h : P s) :
    P (State.landing s level unit status part ctx) := by
  unfold State.landing
  repeat' first
    | with_reducible assumption
    | with_reducible apply State.emit_keeps hP
    | with_reducible apply State.countFld_keeps hP
    | with_reducible refine ite_keeps (fun _ => ?_) (fun _ => ?_)
    | with_reducible refine fst_ite_keeps (fun _ => ?_) (fun _ => ?_)
    | with_reducible refine snd_ite_keeps (fun _ => ?_) (fun _ => ?_)
    | with_reducible refine List.foldl_keeps ?_ (fun s x h => ?_)
    | with_reducible refine List.foldl_fst_keeps ?_ (fun s x h => ?_)
    | with_reducible refine List.foldl_snd_keeps ?_ (fun s x h => ?_)
    | intro s x h
    | simp only [Stable.mk_iff hP]
    | split
    | dsimp only

theorem State.contain_keeps (hP : Stable P) {s : State} {p : ℕ} {a2 : ℕ} {status : ℕ} {unit : ℕ} {flight : Option ℕ} {noted : Bool} (h : P s) :
    P (State.contain s p a2 status unit flight noted) := by
  unfold State.contain
  repeat' first
    | with_reducible assumption
    | with_reducible apply State.landing_keeps hP
    | with_reducible apply State.setCtx_keeps hP
    | with_reducible apply State.emit_keeps hP
    | with_reducible refine ite_keeps (fun _ => ?_) (fun _ => ?_)
    | with_reducible refine fst_ite_keeps (fun _ => ?_) (fun _ => ?_)
    | with_reducible refine snd_ite_keeps (fun _ => ?_) (fun _ => ?_)
    | with_reducible refine List.foldl_keeps ?_ (fun s x h => ?_)
    | with_reducible refine List.foldl_fst_keeps ?_ (fun s x h => ?_)
    | with_reducible refine List.foldl_snd_keeps ?_ (fun s x h => ?_)
    | intro s x h
    | simp only [Stable.mk_iff hP]
    | split
    | dsimp only

theorem State.works_keeps (hP : Stable P) {s : State} {unit : ℕ} {p : ℕ} {a3 : ℕ} (h : P s) : P (State.works s unit p a3) := by
  unfold State.works
  repeat' first
    | with_reducible assumption
    | with_reducible refine ite_keeps (fun _ => ?_) (fun _ => ?_)
    | with_reducible refine fst_ite_keeps (fun _ => ?_) (fun _ => ?_)
    | with_reducible refine snd_ite_keeps (fun _ => ?_) (fun _ => ?_)
    | with_reducible refine List.foldl_keeps ?_ (fun s x h => ?_)
    | with_reducible refine List.foldl_fst_keeps ?_ (fun s x h => ?_)
    | with_reducible refine List.foldl_snd_keeps ?_ (fun s x h => ?_)
    | intro s x h
    | simp only [Stable.mk_iff hP]
    | split
    | dsimp only

theorem State.staleDrop_keeps (hP : Stable P) {s : State} {n : ℕ} (h : P s) : P (State.staleDrop s n) := by
  unfold State.staleDrop
  repeat' first
    | with_reducible assumption
    | with_reducible apply State.countFld_keeps hP
    | with_reducible refine ite_keeps (fun _ => ?_) (fun _ => ?_)
    | with_reducible refine fst_ite_keeps (fun _ => ?_) (fun _ => ?_)
    | with_reducible refine snd_ite_keeps (fun _ => ?_) (fun _ => ?_)
    | with_reducible refine List.foldl_keeps ?_ (fun s x h => ?_)
    | with_reducible refine List.foldl_fst_keeps ?_ (fun s x h => ?_)
    | with_reducible refine List.foldl_snd_keeps ?_ (fun s x h => ?_)
    | intro s x h
    | simp only [Stable.mk_iff hP]
    | split
    | dsimp only

end Sys2Proof.Machine
end

