-- ==== Sys2Proof/Laws/KeepLinks.lean ====
section
/-! SUPPORT. What the definitions of Machine/Links.lean keep. -/

set_option linter.unusedTactic false
set_option linter.unreachableTactic false

namespace Sys2Proof.Machine

variable {P : State → Prop}

theorem State.freeFlits_keeps (hP : Stable P) {s : State} {n : ℕ} {m : PortMsg} (h : P s) : P (State.freeFlits s n m) := by
  unfold State.freeFlits
  repeat' first
    | with_reducible assumption
    | with_reducible apply State.setPort_keeps hP
    | with_reducible refine ite_keeps (fun _ => ?_) (fun _ => ?_)
    | with_reducible refine fst_ite_keeps (fun _ => ?_) (fun _ => ?_)
    | with_reducible refine snd_ite_keeps (fun _ => ?_) (fun _ => ?_)
    | with_reducible refine List.foldl_keeps ?_ (fun s x h => ?_)
    | with_reducible refine List.foldl_fst_keeps ?_ (fun s x h => ?_)
    | with_reducible refine List.foldl_snd_keeps ?_ (fun s x h => ?_)
    | intro s x h
    | simp only [Stable.mk_iff hP]
    | split
    | dsimp only

theorem State.sendOn_keeps (hP : Stable P) {s : State} {n : ℕ} {m : PortMsg} (h : P s) : P (State.sendOn s n m) := by
  unfold State.sendOn
  repeat' first
    | with_reducible assumption
    | with_reducible apply State.setPort_keeps hP
    | with_reducible refine ite_keeps (fun _ => ?_) (fun _ => ?_)
    | with_reducible refine fst_ite_keeps (fun _ => ?_) (fun _ => ?_)
    | with_reducible refine snd_ite_keeps (fun _ => ?_) (fun _ => ?_)
    | with_reducible refine List.foldl_keeps ?_ (fun s x h => ?_)
    | with_reducible refine List.foldl_fst_keeps ?_ (fun s x h => ?_)
    | with_reducible refine List.foldl_snd_keeps ?_ (fun s x h => ?_)
    | intro s x h
    | simp only [Stable.mk_iff hP]
    | split
    | dsimp only

theorem State.sendFabric_keeps (hP : Stable P) {s : State} {m : PortMsg} (h : P s) : P (State.sendFabric s m) := by
  unfold State.sendFabric
  repeat' first
    | with_reducible assumption
    | with_reducible apply State.sendOn_keeps hP
    | with_reducible refine ite_keeps (fun _ => ?_) (fun _ => ?_)
    | with_reducible refine fst_ite_keeps (fun _ => ?_) (fun _ => ?_)
    | with_reducible refine snd_ite_keeps (fun _ => ?_) (fun _ => ?_)
    | with_reducible refine List.foldl_keeps ?_ (fun s x h => ?_)
    | with_reducible refine List.foldl_fst_keeps ?_ (fun s x h => ?_)
    | with_reducible refine List.foldl_snd_keeps ?_ (fun s x h => ?_)
    | intro s x h
    | simp only [Stable.mk_iff hP]
    | split
    | dsimp only

theorem State.forward_keeps (hP : Stable P) {s : State} {hdr : BitVec 256} {data : List Byte} (h : P s) : P (State.forward s hdr data) := by
  unfold State.forward
  repeat' first
    | with_reducible assumption
    | with_reducible apply State.countFld_keeps hP
    | with_reducible apply State.sendFabric_keeps hP
    | with_reducible refine ite_keeps (fun _ => ?_) (fun _ => ?_)
    | with_reducible refine fst_ite_keeps (fun _ => ?_) (fun _ => ?_)
    | with_reducible refine snd_ite_keeps (fun _ => ?_) (fun _ => ?_)
    | with_reducible refine List.foldl_keeps ?_ (fun s x h => ?_)
    | with_reducible refine List.foldl_fst_keeps ?_ (fun s x h => ?_)
    | with_reducible refine List.foldl_snd_keeps ?_ (fun s x h => ?_)
    | intro s x h
    | simp only [Stable.mk_iff hP]
    | split
    | dsimp only

theorem State.sendWrite_keeps (hP : Stable P) {s : State} {m : MsgOut} (h : P s) : P (State.sendWrite s m).1 := by
  unfold State.sendWrite
  repeat' first
    | with_reducible assumption
    | with_reducible apply State.sendOn_keeps hP
    | with_reducible refine ite_keeps (fun _ => ?_) (fun _ => ?_)
    | with_reducible refine fst_ite_keeps (fun _ => ?_) (fun _ => ?_)
    | with_reducible refine snd_ite_keeps (fun _ => ?_) (fun _ => ?_)
    | with_reducible refine List.foldl_keeps ?_ (fun s x h => ?_)
    | with_reducible refine List.foldl_fst_keeps ?_ (fun s x h => ?_)
    | with_reducible refine List.foldl_snd_keeps ?_ (fun s x h => ?_)
    | intro s x h
    | simp only [Stable.mk_iff hP]
    | split
    | dsimp only

theorem State.sendWaiting_keeps (hP : Stable P) {d : ℕ} {s : State} {n : ℕ} {l : List MsgOut} (h : P s) :
    P (State.sendWaiting d s n l).1 := by
  induction l generalizing s n with
  | nil => exact h
  | cons m t ih =>
    unfold State.sendWaiting
    split
    · dsimp only
      refine ih (ite_keeps (fun _ => ?_) fun _ => State.sendWrite_keeps hP h)
      simp only [Stable.mk_iff hP]
      exact State.sendWrite_keeps hP h
    · exact ih h

theorem State.pumpSends_keeps (hP : Stable P) {s : State} {d : ℕ} (h : P s) : P (State.pumpSends s d) := by
  unfold State.pumpSends
  repeat' first
    | with_reducible assumption
    | with_reducible apply State.sendWaiting_keeps hP
    | with_reducible refine ite_keeps (fun _ => ?_) (fun _ => ?_)
    | with_reducible refine fst_ite_keeps (fun _ => ?_) (fun _ => ?_)
    | with_reducible refine snd_ite_keeps (fun _ => ?_) (fun _ => ?_)
    | with_reducible refine List.foldl_keeps ?_ (fun s x h => ?_)
    | with_reducible refine List.foldl_fst_keeps ?_ (fun s x h => ?_)
    | with_reducible refine List.foldl_snd_keeps ?_ (fun s x h => ?_)
    | intro s x h
    | simp only [Stable.mk_iff hP]
    | split
    | dsimp only

theorem State.routeReturns_keeps (hP : Stable P) {s : State} (h : P s) : P (State.routeReturns s) := by
  unfold State.routeReturns
  repeat' first
    | with_reducible assumption
    | with_reducible apply State.sendFabric_keeps hP
    | with_reducible apply State.pumpSends_keeps hP
    | with_reducible refine ite_keeps (fun _ => ?_) (fun _ => ?_)
    | with_reducible refine fst_ite_keeps (fun _ => ?_) (fun _ => ?_)
    | with_reducible refine snd_ite_keeps (fun _ => ?_) (fun _ => ?_)
    | with_reducible refine List.foldl_keeps ?_ (fun s x h => ?_)
    | with_reducible refine List.foldl_fst_keeps ?_ (fun s x h => ?_)
    | with_reducible refine List.foldl_snd_keeps ?_ (fun s x h => ?_)
    | intro s x h
    | simp only [Stable.mk_iff hP]
    | split
    | dsimp only

theorem State.claim_keeps (hP : Stable P) {s : State} (h : P s) : P (State.claim s) := by
  unfold State.claim
  repeat' first
    | with_reducible assumption
    | with_reducible refine ite_keeps (fun _ => ?_) (fun _ => ?_)
    | with_reducible refine fst_ite_keeps (fun _ => ?_) (fun _ => ?_)
    | with_reducible refine snd_ite_keeps (fun _ => ?_) (fun _ => ?_)
    | with_reducible refine List.foldl_keeps ?_ (fun s x h => ?_)
    | with_reducible refine List.foldl_fst_keeps ?_ (fun s x h => ?_)
    | with_reducible refine List.foldl_snd_keeps ?_ (fun s x h => ?_)
    | intro s x h
    | simp only [Stable.mk_iff hP]
    | split
    | dsimp only

theorem State.onMirror_keeps (hP : Stable P) {s : State} {m : PortMsg} (h : P s) : P (State.onMirror s m) := by
  unfold State.onMirror
  repeat' first
    | with_reducible assumption
    | with_reducible apply State.sendOn_keeps hP
    | with_reducible refine ite_keeps (fun _ => ?_) (fun _ => ?_)
    | with_reducible refine fst_ite_keeps (fun _ => ?_) (fun _ => ?_)
    | with_reducible refine snd_ite_keeps (fun _ => ?_) (fun _ => ?_)
    | with_reducible refine List.foldl_keeps ?_ (fun s x h => ?_)
    | with_reducible refine List.foldl_fst_keeps ?_ (fun s x h => ?_)
    | with_reducible refine List.foldl_snd_keeps ?_ (fun s x h => ?_)
    | intro s x h
    | simp only [Stable.mk_iff hP]
    | split
    | dsimp only

theorem State.sendMirror_keeps (hP : Stable P) {s : State} {f : MsgFields} {data : List Byte} (h : P s) : P (State.sendMirror s f data) := by
  unfold State.sendMirror
  repeat' first
    | with_reducible assumption
    | with_reducible apply State.onMirror_keeps hP
    | with_reducible refine ite_keeps (fun _ => ?_) (fun _ => ?_)
    | with_reducible refine fst_ite_keeps (fun _ => ?_) (fun _ => ?_)
    | with_reducible refine snd_ite_keeps (fun _ => ?_) (fun _ => ?_)
    | with_reducible refine List.foldl_keeps ?_ (fun s x h => ?_)
    | with_reducible refine List.foldl_fst_keeps ?_ (fun s x h => ?_)
    | with_reducible refine List.foldl_snd_keeps ?_ (fun s x h => ?_)
    | intro s x h
    | simp only [Stable.mk_iff hP]
    | split
    | dsimp only

theorem State.mirReturns_keeps (hP : Stable P) {s : State} (h : P s) : P (State.mirReturns s) := by
  unfold State.mirReturns
  repeat' first
    | with_reducible assumption
    | with_reducible apply State.onMirror_keeps hP
    | with_reducible refine ite_keeps (fun _ => ?_) (fun _ => ?_)
    | with_reducible refine fst_ite_keeps (fun _ => ?_) (fun _ => ?_)
    | with_reducible refine snd_ite_keeps (fun _ => ?_) (fun _ => ?_)
    | with_reducible refine List.foldl_keeps ?_ (fun s x h => ?_)
    | with_reducible refine List.foldl_fst_keeps ?_ (fun s x h => ?_)
    | with_reducible refine List.foldl_snd_keeps ?_ (fun s x h => ?_)
    | intro s x h
    | simp only [Stable.mk_iff hP]
    | split
    | dsimp only

theorem State.sendData_keeps (hP : Stable P) {s : State} {p : ℕ} {d : List Byte} (h : P s) : P (State.sendData s p d) := by
  unfold State.sendData
  repeat' first
    | with_reducible assumption
    | with_reducible apply State.sendMirror_keeps hP
    | with_reducible apply State.setMirp_keeps hP
    | with_reducible refine ite_keeps (fun _ => ?_) (fun _ => ?_)
    | with_reducible refine fst_ite_keeps (fun _ => ?_) (fun _ => ?_)
    | with_reducible refine snd_ite_keeps (fun _ => ?_) (fun _ => ?_)
    | with_reducible refine List.foldl_keeps ?_ (fun s x h => ?_)
    | with_reducible refine List.foldl_fst_keeps ?_ (fun s x h => ?_)
    | with_reducible refine List.foldl_snd_keeps ?_ (fun s x h => ?_)
    | intro s x h
    | simp only [Stable.mk_iff hP]
    | split
    | dsimp only

theorem State.mirrorData_keeps (hP : Stable P) {s : State} {p : ℕ} {ctx : Option ℕ} {data : List Byte} (h : P s) :
    P (State.mirrorData s p ctx data) := by
  unfold State.mirrorData
  repeat' first
    | with_reducible assumption
    | with_reducible apply State.chargePart_keeps hP
    | with_reducible apply State.setMirp_keeps hP
    | with_reducible apply State.sendData_keeps hP
    | with_reducible refine ite_keeps (fun _ => ?_) (fun _ => ?_)
    | with_reducible refine fst_ite_keeps (fun _ => ?_) (fun _ => ?_)
    | with_reducible refine snd_ite_keeps (fun _ => ?_) (fun _ => ?_)
    | with_reducible refine List.foldl_keeps ?_ (fun s x h => ?_)
    | with_reducible refine List.foldl_fst_keeps ?_ (fun s x h => ?_)
    | with_reducible refine List.foldl_snd_keeps ?_ (fun s x h => ?_)
    | intro s x h
    | simp only [Stable.mk_iff hP]
    | split
    | dsimp only

end Sys2Proof.Machine
end

