-- ==== Sys2Proof/Laws/KeepIssue.lean ====
section
/-! SUPPORT. What the definitions of Machine/Issue.lean keep. -/

set_option linter.unusedTactic false
set_option linter.unreachableTactic false

namespace Sys2Proof.Machine

variable {P : State → Prop}

theorem State.scrUnc_keeps (hP : Stable P) {s : State} {c : ℕ} {a : ℕ} {part : Option ℕ} {ctx : ℕ} (h : P s) :
    P (State.scrUnc s c a part ctx) := by
  unfold State.scrUnc
  repeat' first
    | with_reducible assumption
    | with_reducible apply State.setCore_keeps hP
    | with_reducible apply State.emit_keeps hP
    | with_reducible refine ite_keeps (fun _ => ?_) (fun _ => ?_)
    | with_reducible refine fst_ite_keeps (fun _ => ?_) (fun _ => ?_)
    | with_reducible refine snd_ite_keeps (fun _ => ?_) (fun _ => ?_)
    | with_reducible refine List.foldl_keeps ?_ (fun s x h => ?_)
    | with_reducible refine List.foldl_fst_keeps ?_ (fun s x h => ?_)
    | with_reducible refine List.foldl_snd_keeps ?_ (fun s x h => ?_)
    | intro s x h
    | simp only [Stable.mk_iff hP]
    | split
    | dsimp only

theorem State.scrCor_keeps (hP : Stable P) {s : State} {c : ℕ} {a : ℕ} (h : P s) : P (State.scrCor s c a) := by
  unfold State.scrCor
  repeat' first
    | with_reducible assumption
    | with_reducible apply State.perf_keeps hP
    | with_reducible apply State.setCore_keeps hP
    | with_reducible apply State.emit_keeps hP
    | with_reducible refine ite_keeps (fun _ => ?_) (fun _ => ?_)
    | with_reducible refine fst_ite_keeps (fun _ => ?_) (fun _ => ?_)
    | with_reducible refine snd_ite_keeps (fun _ => ?_) (fun _ => ?_)
    | with_reducible refine List.foldl_keeps ?_ (fun s x h => ?_)
    | with_reducible refine List.foldl_fst_keeps ?_ (fun s x h => ?_)
    | with_reducible refine List.foldl_snd_keeps ?_ (fun s x h => ?_)
    | intro s x h
    | simp only [Stable.mk_iff hP]
    | split
    | dsimp only

theorem State.scrMeets_keeps (hP : Stable P) {s : State} {c : ℕ} {rs : List (ℕ × ℕ)} {e : Ecc} (h : P s) : P (State.scrMeets s c rs e).1 := by
  unfold State.scrMeets
  repeat' first
    | with_reducible assumption
    | with_reducible apply State.injectEcc_keeps hP
    | with_reducible apply State.scrCor_keeps hP
    | with_reducible refine ite_keeps (fun _ => ?_) (fun _ => ?_)
    | with_reducible refine fst_ite_keeps (fun _ => ?_) (fun _ => ?_)
    | with_reducible refine snd_ite_keeps (fun _ => ?_) (fun _ => ?_)
    | with_reducible refine List.foldl_keeps ?_ (fun s x h => ?_)
    | with_reducible refine List.foldl_fst_keeps ?_ (fun s x h => ?_)
    | with_reducible refine List.foldl_snd_keeps ?_ (fun s x h => ?_)
    | intro s x h
    | simp only [Stable.mk_iff hP]
    | split
    | dsimp only

theorem State.scrReads_keeps (hP : Stable P) {s : State} {c : ℕ} {rs : List (ℕ × ℕ)} {e : Ecc} (h : P s) : P (State.scrReads s c rs e).1 := by
  unfold State.scrReads
  repeat' first
    | with_reducible assumption
    | with_reducible apply State.scrMeets_keeps hP
    | with_reducible apply State.contain_keeps hP
    | with_reducible apply State.scrUnc_keeps hP
    | with_reducible refine ite_keeps (fun _ => ?_) (fun _ => ?_)
    | with_reducible refine fst_ite_keeps (fun _ => ?_) (fun _ => ?_)
    | with_reducible refine snd_ite_keeps (fun _ => ?_) (fun _ => ?_)
    | with_reducible refine List.foldl_keeps ?_ (fun s x h => ?_)
    | with_reducible refine List.foldl_fst_keeps ?_ (fun s x h => ?_)
    | with_reducible refine List.foldl_snd_keeps ?_ (fun s x h => ?_)
    | intro s x h
    | simp only [Stable.mk_iff hP]
    | split
    | dsimp only

theorem State.scrEcc_keeps (hP : Stable P) {s : State} {c : ℕ} {a : ℕ} {n : ℕ} {e : Ecc} (h : P s) : P (State.scrEcc s c a n e).1 := by
  unfold State.scrEcc
  repeat' first
    | with_reducible assumption
    | with_reducible apply State.scrReads_keeps hP
    | with_reducible refine ite_keeps (fun _ => ?_) (fun _ => ?_)
    | with_reducible refine fst_ite_keeps (fun _ => ?_) (fun _ => ?_)
    | with_reducible refine snd_ite_keeps (fun _ => ?_) (fun _ => ?_)
    | with_reducible refine List.foldl_keeps ?_ (fun s x h => ?_)
    | with_reducible refine List.foldl_fst_keeps ?_ (fun s x h => ?_)
    | with_reducible refine List.foldl_snd_keeps ?_ (fun s x h => ?_)
    | intro s x h
    | simp only [Stable.mk_iff hP]
    | split
    | dsimp only

theorem State.issueFault_keeps (hP : Stable P) {s : State} {c : ℕ} {kind : ℕ} {status : ℕ} {d1 : ℕ} (h : P s) :
    P (State.issueFault s c kind status d1) := by
  unfold State.issueFault
  repeat' first
    | with_reducible assumption
    | with_reducible apply State.emit_keeps hP
    | with_reducible apply State.setCore_keeps hP
    | with_reducible apply State.contain_keeps hP
    | with_reducible refine ite_keeps (fun _ => ?_) (fun _ => ?_)
    | with_reducible refine fst_ite_keeps (fun _ => ?_) (fun _ => ?_)
    | with_reducible refine snd_ite_keeps (fun _ => ?_) (fun _ => ?_)
    | with_reducible refine List.foldl_keeps ?_ (fun s x h => ?_)
    | with_reducible refine List.foldl_fst_keeps ?_ (fun s x h => ?_)
    | with_reducible refine List.foldl_snd_keeps ?_ (fun s x h => ?_)
    | intro s x h
    | simp only [Stable.mk_iff hP]
    | split
    | dsimp only

/-- Issue keeps what the instruction's own body keeps. -/
theorem State.issue_keeps (hP : Stable P) {s : State} {c op : ℕ} {w : BitVec 56} {body : State → CoreSt → Res} (h : P s)
    (hb : ResP P (body s (s.core c))) : OutP P (State.issue s c op w body) := by
  unfold State.issue
  split
  · dsimp only
    split
    · exact State.issueFault_keeps hP h
    · split
      · exact State.setCore_keeps hP h
      · revert hb
        generalize body s (s.core c) = r
        intro hb
        cases r
        · exact State.setCore_keeps hP hb
        · exact State.setCore_keeps hP hb
        · exact State.issueFault_keeps hP h
        · exact State.issueFault_keeps hP h
        · exact State.setCore_keeps hP h
        · exact State.setCore_keeps hP hb
  · exact h

theorem State.regionFault_keeps (hP : Stable P) {s : State} {c : ℕ} {off : ℕ} (h : P s) : ResP P (State.regionFault s c off) := by
  unfold State.regionFault
  repeat' first
    | with_reducible assumption
    | with_reducible refine ite_keeps (fun _ => ?_) (fun _ => ?_)
    | with_reducible refine fst_ite_keeps (fun _ => ?_) (fun _ => ?_)
    | with_reducible refine snd_ite_keeps (fun _ => ?_) (fun _ => ?_)
    | with_reducible refine ResP.ite (fun _ => ?_) (fun _ => ?_)
    | with_reducible apply ResP.seq
    | with_reducible apply ResP.jump
    | with_reducible apply ResP.bad
    | exact ResP.illegal
    | exact ResP.window
    | exact ResP.wait
    | with_reducible refine List.foldl_keeps ?_ (fun s x h => ?_)
    | with_reducible refine List.foldl_fst_keeps ?_ (fun s x h => ?_)
    | with_reducible refine List.foldl_snd_keeps ?_ (fun s x h => ?_)
    | intro s x h
    | simp only [Stable.mk_iff hP]
    | split
    | dsimp only

end Sys2Proof.Machine
end

