-- ==== Sys2Proof/Laws/KeepOperands.lean ====
section
/-! SUPPORT. What the definitions of Machine/Operands.lean keep. -/

set_option linter.unusedTactic false
set_option linter.unreachableTactic false

namespace Sys2Proof.Machine

variable {P : State → Prop}

/-- What reading a tensor description leaves: a refusal that carries a state, or the state with the errors it met. -/
def TdescP (P : State → Prop) (x : Except Res (State × TDesc × Fmt)) : Prop :=
  match x with
  | .error r => ResP P r
  | .ok x => P x.1

theorem State.tdesc_keeps (hP : Stable P) {s : State} {c off : ℕ} {e : Ecc} (h : P s) : TdescP P (State.tdesc s c off e) := by
  have hq := State.scrEcc_keeps (c := c) (a := (s.core c).region.off + off) (n := 32) (e := e) hP h
  unfold State.tdesc
  split
  · trivial
  · split
    · exact State.regionFault_keeps (c := c) (off := off) hP h
    · dsimp only
      split
      · exact hq
      · split
        · exact hq
        · trivial

theorem State.tdesc_error (hP : Stable P) {s : State} {c off : ℕ} {e : Ecc} {r : Res} (h : P s)
    (he : State.tdesc s c off e = .error r) : ResP P r := by
  have := State.tdesc_keeps (c := c) (off := off) (e := e) hP h
  rwa [he] at this

theorem State.tdesc_ok (hP : Stable P) {s t : State} {c off : ℕ} {e : Ecc} {d : TDesc} {f : Fmt} (h : P s)
    (he : State.tdesc s c off e = .ok (t, d, f)) : P t := by
  have := State.tdesc_keeps (c := c) (off := off) (e := e) hP h
  rwa [he] at this

end Sys2Proof.Machine
end

