-- ==== Sys2Proof/Laws/KeepScalar.lean ====
section
/-! SUPPORT. What the definitions of Machine/Scalar.lean keep. -/

set_option linter.unusedTactic false
set_option linter.unreachableTactic false

namespace Sys2Proof.Machine

variable {P : State → Prop}

theorem Res.put_keeps (hP : Stable P) {s : State} {c : ℕ} {k : CoreSt} (h : P s) : ResP P (Res.put s c k) := by
  unfold Res.put
  repeat' first
    | with_reducible assumption
    | with_reducible apply State.setCore_keeps hP
    | with_reducible refine ite_keeps (fun _ => ?_) (fun _ => ?_)
    | with_reducible refine fst_ite_keeps (fun _ => ?_) (fun _ => ?_)
    | with_reducible refine snd_ite_keeps (fun _ => ?_) (fun _ => ?_)
    | with_reducible refine ResP.ite (fun _ => ?_) (fun _ => ?_)
    | with_reducible apply ResP.seq
    | with_reducible apply ResP.jump
    | with_reducible apply ResP.bad
    | exact ResP.illegal
    | exact ResP.window
    | exact ResP.wait
    | with_reducible refine List.foldl_keeps ?_ (fun s x h => ?_)
    | with_reducible refine List.foldl_fst_keeps ?_ (fun s x h => ?_)
    | with_reducible refine List.foldl_snd_keeps ?_ (fun s x h => ?_)
    | intro s x h
    | simp only [Stable.mk_iff hP]
    | split
    | dsimp only

theorem execNop_keeps (hP : Stable P) {c : CoreId} {w : BitVec 56} {s : State} (h : P s) : OutP P (execNop c w s) := by
  unfold execNop
  repeat' first
    | with_reducible assumption
    | with_reducible apply State.issue_keeps hP
    | with_reducible refine ite_keeps (fun _ => ?_) (fun _ => ?_)
    | with_reducible apply OutP.next
    | with_reducible refine OutP.ite (fun _ => ?_) (fun _ => ?_)
    | with_reducible refine fst_ite_keeps (fun _ => ?_) (fun _ => ?_)
    | with_reducible refine snd_ite_keeps (fun _ => ?_) (fun _ => ?_)
    | with_reducible refine ResP.ite (fun _ => ?_) (fun _ => ?_)
    | with_reducible apply ResP.seq
    | with_reducible apply ResP.jump
    | with_reducible apply ResP.bad
    | exact ResP.illegal
    | exact ResP.window
    | exact ResP.wait
    | with_reducible refine List.foldl_keeps ?_ (fun s x h => ?_)
    | with_reducible refine List.foldl_fst_keeps ?_ (fun s x h => ?_)
    | with_reducible refine List.foldl_snd_keeps ?_ (fun s x h => ?_)
    | intro s x h
    | simp only [Stable.mk_iff hP]
    | split
    | dsimp only

theorem execEndFlight_keeps (hP : Stable P) {c : CoreId} {w : BitVec 56} {s : State} (h : P s) : OutP P (execEndFlight c w s) := by
  unfold execEndFlight
  repeat' first
    | with_reducible assumption
    | with_reducible apply State.issue_keeps hP
    | with_reducible apply Res.put_keeps hP
    | with_reducible refine ite_keeps (fun _ => ?_) (fun _ => ?_)
    | with_reducible apply OutP.next
    | with_reducible refine OutP.ite (fun _ => ?_) (fun _ => ?_)
    | with_reducible refine fst_ite_keeps (fun _ => ?_) (fun _ => ?_)
    | with_reducible refine snd_ite_keeps (fun _ => ?_) (fun _ => ?_)
    | with_reducible refine ResP.ite (fun _ => ?_) (fun _ => ?_)
    | with_reducible apply ResP.seq
    | with_reducible apply ResP.jump
    | with_reducible apply ResP.bad
    | exact ResP.illegal
    | exact ResP.window
    | exact ResP.wait
    | with_reducible refine List.foldl_keeps ?_ (fun s x h => ?_)
    | with_reducible refine List.foldl_fst_keeps ?_ (fun s x h => ?_)
    | with_reducible refine List.foldl_snd_keeps ?_ (fun s x h => ?_)
    | intro s x h
    | simp only [Stable.mk_iff hP]
    | split
    | dsimp only

theorem execWtick_keeps (hP : Stable P) {c : CoreId} {w : BitVec 56} {s : State} (h : P s) : OutP P (execWtick c w s) := by
  unfold execWtick
  repeat' first
    | with_reducible assumption
    | with_reducible apply State.issue_keeps hP
    | with_reducible apply Res.put_keeps hP
    | with_reducible refine ite_keeps (fun _ => ?_) (fun _ => ?_)
    | with_reducible apply OutP.next
    | with_reducible refine OutP.ite (fun _ => ?_) (fun _ => ?_)
    | with_reducible refine fst_ite_keeps (fun _ => ?_) (fun _ => ?_)
    | with_reducible refine snd_ite_keeps (fun _ => ?_) (fun _ => ?_)
    | with_reducible refine ResP.ite (fun _ => ?_) (fun _ => ?_)
    | with_reducible apply ResP.seq
    | with_reducible apply ResP.jump
    | with_reducible apply ResP.bad
    | exact ResP.illegal
    | exact ResP.window
    | exact ResP.wait
    | with_reducible refine List.foldl_keeps ?_ (fun s x h => ?_)
    | with_reducible refine List.foldl_fst_keeps ?_ (fun s x h => ?_)
    | with_reducible refine List.foldl_snd_keeps ?_ (fun s x h => ?_)
    | intro s x h
    | simp only [Stable.mk_iff hP]
    | split
    | dsimp only

theorem execMovi_keeps (hP : Stable P) {c : CoreId} {w : BitVec 56} {s : State} (h : P s) : OutP P (execMovi c w s) := by
  unfold execMovi
  repeat' first
    | with_reducible assumption
    | with_reducible apply State.issue_keeps hP
    | with_reducible apply Res.put_keeps hP
    | with_reducible refine ite_keeps (fun _ => ?_) (fun _ => ?_)
    | with_reducible apply OutP.next
    | with_reducible refine OutP.ite (fun _ => ?_) (fun _ => ?_)
    | with_reducible refine fst_ite_keeps (fun _ => ?_) (fun _ => ?_)
    | with_reducible refine snd_ite_keeps (fun _ => ?_) (fun _ => ?_)
    | with_reducible refine ResP.ite (fun _ => ?_) (fun _ => ?_)
    | with_reducible apply ResP.seq
    | with_reducible apply ResP.jump
    | with_reducible apply ResP.bad
    | exact ResP.illegal
    | exact ResP.window
    | exact ResP.wait
    | with_reducible refine List.foldl_keeps ?_ (fun s x h => ?_)
    | with_reducible refine List.foldl_fst_keeps ?_ (fun s x h => ?_)
    | with_reducible refine List.foldl_snd_keeps ?_ (fun s x h => ?_)
    | intro s x h
    | simp only [Stable.mk_iff hP]
    | split
    | dsimp only

theorem execMovhi_keeps (hP : Stable P) {c : CoreId} {w : BitVec 56} {s : State} (h : P s) : OutP P (execMovhi c w s) := by
  unfold execMovhi
  repeat' first
    | with_reducible assumption
    | with_reducible apply State.issue_keeps hP
    | with_reducible apply Res.put_keeps hP
    | with_reducible refine ite_keeps (fun _ => ?_) (fun _ => ?_)
    | with_reducible apply OutP.next
    | with_reducible refine OutP.ite (fun _ => ?_) (fun _ => ?_)
    | with_reducible refine fst_ite_keeps (fun _ => ?_) (fun _ => ?_)
    | with_reducible refine snd_ite_keeps (fun _ => ?_) (fun _ => ?_)
    | with_reducible refine ResP.ite (fun _ => ?_) (fun _ => ?_)
    | with_reducible apply ResP.seq
    | with_reducible apply ResP.jump
    | with_reducible apply ResP.bad
    | exact ResP.illegal
    | exact ResP.window
    | exact ResP.wait
    | with_reducible refine List.foldl_keeps ?_ (fun s x h => ?_)
    | with_reducible refine List.foldl_fst_keeps ?_ (fun s x h => ?_)
    | with_reducible refine List.foldl_snd_keeps ?_ (fun s x h => ?_)
    | intro s x h
    | simp only [Stable.mk_iff hP]
    | split
    | dsimp only

theorem execSalu_keeps (hP : Stable P) {c : CoreId} {w : BitVec 56} {s : State} (h : P s) : OutP P (execSalu c w s) := by
  unfold execSalu
  repeat' first
    | with_reducible assumption
    | with_reducible apply State.issue_keeps hP
    | with_reducible apply Res.put_keeps hP
    | with_reducible refine ite_keeps (fun _ => ?_) (fun _ => ?_)
    | with_reducible apply OutP.next
    | with_reducible refine OutP.ite (fun _ => ?_) (fun _ => ?_)
    | with_reducible refine fst_ite_keeps (fun _ => ?_) (fun _ => ?_)
    | with_reducible refine snd_ite_keeps (fun _ => ?_) (fun _ => ?_)
    | with_reducible refine ResP.ite (fun _ => ?_) (fun _ => ?_)
    | with_reducible apply ResP.seq
    | with_reducible apply ResP.jump
    | with_reducible apply ResP.bad
    | exact ResP.illegal
    | exact ResP.window
    | exact ResP.wait
    | with_reducible refine List.foldl_keeps ?_ (fun s x h => ?_)
    | with_reducible refine List.foldl_fst_keeps ?_ (fun s x h => ?_)
    | with_reducible refine List.foldl_snd_keeps ?_ (fun s x h => ?_)
    | intro s x h
    | simp only [Stable.mk_iff hP]
    | split
    | dsimp only

theorem State.cycleReg_keeps (hP : Stable P) {s : State} (h : P s) : P (State.cycleReg s).2 := by
  unfold State.cycleReg
  repeat' first
    | with_reducible assumption
    | with_reducible refine ite_keeps (fun _ => ?_) (fun _ => ?_)
    | with_reducible refine fst_ite_keeps (fun _ => ?_) (fun _ => ?_)
    | with_reducible refine snd_ite_keeps (fun _ => ?_) (fun _ => ?_)
    | with_reducible refine List.foldl_keeps ?_ (fun s x h => ?_)
    | with_reducible refine List.foldl_fst_keeps ?_ (fun s x h => ?_)
    | with_reducible refine List.foldl_snd_keeps ?_ (fun s x h => ?_)
    | intro s x h
    | simp only [Stable.mk_iff hP]
    | split
    | dsimp only

theorem execMovs_keeps (hP : Stable P) {c : CoreId} {w : BitVec 56} {s : State} (h : P s) : OutP P (execMovs c w s) := by
  unfold execMovs
  repeat' first
    | with_reducible assumption
    | with_reducible apply State.issue_keeps hP
    | with_reducible apply State.cycleReg_keeps hP
    | with_reducible apply Res.put_keeps hP
    | with_reducible refine ite_keeps (fun _ => ?_) (fun _ => ?_)
    | with_reducible apply OutP.next
    | with_reducible refine OutP.ite (fun _ => ?_) (fun _ => ?_)
    | with_reducible refine fst_ite_keeps (fun _ => ?_) (fun _ => ?_)
    | with_reducible refine snd_ite_keeps (fun _ => ?_) (fun _ => ?_)
    | with_reducible refine ResP.ite (fun _ => ?_) (fun _ => ?_)
    | with_reducible apply ResP.seq
    | with_reducible apply ResP.jump
    | with_reducible apply ResP.bad
    | exact ResP.illegal
    | exact ResP.window
    | exact ResP.wait
    | with_reducible refine List.foldl_keeps ?_ (fun s x h => ?_)
    | with_reducible refine List.foldl_fst_keeps ?_ (fun s x h => ?_)
    | with_reducible refine List.foldl_snd_keeps ?_ (fun s x h => ?_)
    | intro s x h
    | simp only [Stable.mk_iff hP]
    | split
    | dsimp only

theorem execBr_keeps (hP : Stable P) {c : CoreId} {w : BitVec 56} {s : State} (h : P s) : OutP P (execBr c w s) := by
  unfold execBr
  repeat' first
    | with_reducible assumption
    | with_reducible apply State.issue_keeps hP
    | with_reducible refine ite_keeps (fun _ => ?_) (fun _ => ?_)
    | with_reducible apply OutP.next
    | with_reducible refine OutP.ite (fun _ => ?_) (fun _ => ?_)
    | with_reducible refine fst_ite_keeps (fun _ => ?_) (fun _ => ?_)
    | with_reducible refine snd_ite_keeps (fun _ => ?_) (fun _ => ?_)
    | with_reducible refine ResP.ite (fun _ => ?_) (fun _ => ?_)
    | with_reducible apply ResP.seq
    | with_reducible apply ResP.jump
    | with_reducible apply ResP.bad
    | exact ResP.illegal
    | exact ResP.window
    | exact ResP.wait
    | with_reducible refine List.foldl_keeps ?_ (fun s x h => ?_)
    | with_reducible refine List.foldl_fst_keeps ?_ (fun s x h => ?_)
    | with_reducible refine List.foldl_snd_keeps ?_ (fun s x h => ?_)
    | intro s x h
    | simp only [Stable.mk_iff hP]
    | split
    | dsimp only

theorem execLoop_keeps (hP : Stable P) {c : CoreId} {w : BitVec 56} {s : State} (h : P s) : OutP P (execLoop c w s) := by
  unfold execLoop
  repeat' first
    | with_reducible assumption
    | with_reducible apply State.issue_keeps hP
    | with_reducible apply State.setCore_keeps hP
    | with_reducible refine ite_keeps (fun _ => ?_) (fun _ => ?_)
    | with_reducible apply OutP.next
    | with_reducible refine OutP.ite (fun _ => ?_) (fun _ => ?_)
    | with_reducible refine fst_ite_keeps (fun _ => ?_) (fun _ => ?_)
    | with_reducible refine snd_ite_keeps (fun _ => ?_) (fun _ => ?_)
    | with_reducible refine ResP.ite (fun _ => ?_) (fun _ => ?_)
    | with_reducible apply ResP.seq
    | with_reducible apply ResP.jump
    | with_reducible apply ResP.bad
    | exact ResP.illegal
    | exact ResP.window
    | exact ResP.wait
    | with_reducible refine List.foldl_keeps ?_ (fun s x h => ?_)
    | with_reducible refine List.foldl_fst_keeps ?_ (fun s x h => ?_)
    | with_reducible refine List.foldl_snd_keeps ?_ (fun s x h => ?_)
    | intro s x h
    | simp only [Stable.mk_iff hP]
    | split
    | dsimp only

theorem execWaitc_keeps (hP : Stable P) {c : CoreId} {w : BitVec 56} {s : State} (h : P s) : OutP P (execWaitc c w s) := by
  unfold execWaitc
  repeat' first
    | with_reducible assumption
    | with_reducible apply State.issue_keeps hP
    | with_reducible refine ite_keeps (fun _ => ?_) (fun _ => ?_)
    | with_reducible apply OutP.next
    | with_reducible refine OutP.ite (fun _ => ?_) (fun _ => ?_)
    | with_reducible refine fst_ite_keeps (fun _ => ?_) (fun _ => ?_)
    | with_reducible refine snd_ite_keeps (fun _ => ?_) (fun _ => ?_)
    | with_reducible refine ResP.ite (fun _ => ?_) (fun _ => ?_)
    | with_reducible apply ResP.seq
    | with_reducible apply ResP.jump
    | with_reducible apply ResP.bad
    | exact ResP.illegal
    | exact ResP.window
    | exact ResP.wait
    | with_reducible refine List.foldl_keeps ?_ (fun s x h => ?_)
    | with_reducible refine List.foldl_fst_keeps ?_ (fun s x h => ?_)
    | with_reducible refine List.foldl_snd_keeps ?_ (fun s x h => ?_)
    | intro s x h
    | simp only [Stable.mk_iff hP]
    | split
    | dsimp only

theorem execClrc_keeps (hP : Stable P) {c : CoreId} {w : BitVec 56} {s : State} (h : P s) : OutP P (execClrc c w s) := by
  unfold execClrc
  repeat' first
    | with_reducible assumption
    | with_reducible apply State.issue_keeps hP
    | with_reducible apply Res.put_keeps hP
    | with_reducible refine ite_keeps (fun _ => ?_) (fun _ => ?_)
    | with_reducible apply OutP.next
    | with_reducible refine OutP.ite (fun _ => ?_) (fun _ => ?_)
    | with_reducible refine fst_ite_keeps (fun _ => ?_) (fun _ => ?_)
    | with_reducible refine snd_ite_keeps (fun _ => ?_) (fun _ => ?_)
    | with_reducible refine ResP.ite (fun _ => ?_) (fun _ => ?_)
    | with_reducible apply ResP.seq
    | with_reducible apply ResP.jump
    | with_reducible apply ResP.bad
    | exact ResP.illegal
    | exact ResP.window
    | exact ResP.wait
    | with_reducible refine List.foldl_keeps ?_ (fun s x h => ?_)
    | with_reducible refine List.foldl_fst_keeps ?_ (fun s x h => ?_)
    | with_reducible refine List.foldl_snd_keeps ?_ (fun s x h => ?_)
    | intro s x h
    | simp only [Stable.mk_iff hP]
    | split
    | dsimp only

theorem execQsync_keeps (hP : Stable P) {c : CoreId} {w : BitVec 56} {s : State} (h : P s) : OutP P (execQsync c w s) := by
  unfold execQsync
  repeat' first
    | with_reducible assumption
    | with_reducible apply State.issue_keeps hP
    | with_reducible refine ite_keeps (fun _ => ?_) (fun _ => ?_)
    | with_reducible apply OutP.next
    | with_reducible refine OutP.ite (fun _ => ?_) (fun _ => ?_)
    | with_reducible refine fst_ite_keeps (fun _ => ?_) (fun _ => ?_)
    | with_reducible refine snd_ite_keeps (fun _ => ?_) (fun _ => ?_)
    | with_reducible refine ResP.ite (fun _ => ?_) (fun _ => ?_)
    | with_reducible apply ResP.seq
    | with_reducible apply ResP.jump
    | with_reducible apply ResP.bad
    | exact ResP.illegal
    | exact ResP.window
    | exact ResP.wait
    | with_reducible refine List.foldl_keeps ?_ (fun s x h => ?_)
    | with_reducible refine List.foldl_fst_keeps ?_ (fun s x h => ?_)
    | with_reducible refine List.foldl_snd_keeps ?_ (fun s x h => ?_)
    | intro s x h
    | simp only [Stable.mk_iff hP]
    | split
    | dsimp only

theorem State.runCtrl_keeps (hP : Stable P) {s : State} {c : ℕ} {o : CtrlOp} (h : P s) : P (State.runCtrl s c o) := by
  unfold State.runCtrl
  repeat' first
    | with_reducible assumption
    | with_reducible apply State.setCore_keeps hP
    | with_reducible refine ite_keeps (fun _ => ?_) (fun _ => ?_)
    | with_reducible refine fst_ite_keeps (fun _ => ?_) (fun _ => ?_)
    | with_reducible refine snd_ite_keeps (fun _ => ?_) (fun _ => ?_)
    | with_reducible refine List.foldl_keeps ?_ (fun s x h => ?_)
    | with_reducible refine List.foldl_fst_keeps ?_ (fun s x h => ?_)
    | with_reducible refine List.foldl_snd_keeps ?_ (fun s x h => ?_)
    | intro s x h
    | simp only [Stable.mk_iff hP]
    | split
    | dsimp only

theorem State.toCtrl_keeps (hP : Stable P) {s : State} {c : ℕ} {o : CtrlOp} (h : P s) : ResP P (State.toCtrl s c o) := by
  unfold State.toCtrl
  repeat' first
    | with_reducible assumption
    | with_reducible apply State.runCtrl_keeps hP
    | with_reducible apply State.setCore_keeps hP
    | with_reducible refine ite_keeps (fun _ => ?_) (fun _ => ?_)
    | with_reducible refine fst_ite_keeps (fun _ => ?_) (fun _ => ?_)
    | with_reducible refine snd_ite_keeps (fun _ => ?_) (fun _ => ?_)
    | with_reducible refine ResP.ite (fun _ => ?_) (fun _ => ?_)
    | with_reducible apply ResP.seq
    | with_reducible apply ResP.jump
    | with_reducible apply ResP.bad
    | exact ResP.illegal
    | exact ResP.window
    | exact ResP.wait
    | with_reducible refine List.foldl_keeps ?_ (fun s x h => ?_)
    | with_reducible refine List.foldl_fst_keeps ?_ (fun s x h => ?_)
    | with_reducible refine List.foldl_snd_keeps ?_ (fun s x h => ?_)
    | intro s x h
    | simp only [Stable.mk_iff hP]
    | split
    | dsimp only

theorem execLdp_keeps (hP : Stable P) {c : CoreId} {w : BitVec 56} {s : State} (h : P s) : OutP P (execLdp c w s) := by
  unfold execLdp
  repeat' first
    | with_reducible assumption
    | with_reducible apply State.issue_keeps hP
    | with_reducible apply State.toCtrl_keeps hP
    | with_reducible apply State.setCore_keeps hP
    | with_reducible refine ite_keeps (fun _ => ?_) (fun _ => ?_)
    | with_reducible apply OutP.next
    | with_reducible refine OutP.ite (fun _ => ?_) (fun _ => ?_)
    | with_reducible refine fst_ite_keeps (fun _ => ?_) (fun _ => ?_)
    | with_reducible refine snd_ite_keeps (fun _ => ?_) (fun _ => ?_)
    | with_reducible refine ResP.ite (fun _ => ?_) (fun _ => ?_)
    | with_reducible apply ResP.seq
    | with_reducible apply ResP.jump
    | with_reducible apply ResP.bad
    | exact ResP.illegal
    | exact ResP.window
    | exact ResP.wait
    | with_reducible refine List.foldl_keeps ?_ (fun s x h => ?_)
    | with_reducible refine List.foldl_fst_keeps ?_ (fun s x h => ?_)
    | with_reducible refine List.foldl_snd_keeps ?_ (fun s x h => ?_)
    | intro s x h
    | simp only [Stable.mk_iff hP]
    | split
    | dsimp only

theorem execLds_keeps (hP : Stable P) {c : CoreId} {w : BitVec 56} {err : PhysErr} {s : State} (h : P s) : OutP P (execLds c w err s) := by
  unfold execLds
  repeat' first
    | with_reducible assumption
    | with_reducible apply State.issue_keeps hP
    | with_reducible apply State.regionFault_keeps hP
    | with_reducible apply State.scrEcc_keeps hP
    | with_reducible apply State.toCtrl_keeps hP
    | with_reducible refine ite_keeps (fun _ => ?_) (fun _ => ?_)
    | with_reducible apply OutP.next
    | with_reducible refine OutP.ite (fun _ => ?_) (fun _ => ?_)
    | with_reducible refine fst_ite_keeps (fun _ => ?_) (fun _ => ?_)
    | with_reducible refine snd_ite_keeps (fun _ => ?_) (fun _ => ?_)
    | with_reducible refine ResP.ite (fun _ => ?_) (fun _ => ?_)
    | with_reducible apply ResP.seq
    | with_reducible apply ResP.jump
    | with_reducible apply ResP.bad
    | exact ResP.illegal
    | exact ResP.window
    | exact ResP.wait
    | with_reducible refine List.foldl_keeps ?_ (fun s x h => ?_)
    | with_reducible refine List.foldl_fst_keeps ?_ (fun s x h => ?_)
    | with_reducible refine List.foldl_snd_keeps ?_ (fun s x h => ?_)
    | intro s x h
    | simp only [Stable.mk_iff hP]
    | split
    | dsimp only

theorem execSts_keeps (hP : Stable P) {c : CoreId} {w : BitVec 56} {s : State} (h : P s) : OutP P (execSts c w s) := by
  unfold execSts
  repeat' first
    | with_reducible assumption
    | with_reducible apply State.issue_keeps hP
    | with_reducible apply State.regionFault_keeps hP
    | with_reducible apply State.toCtrl_keeps hP
    | with_reducible refine ite_keeps (fun _ => ?_) (fun _ => ?_)
    | with_reducible apply OutP.next
    | with_reducible refine OutP.ite (fun _ => ?_) (fun _ => ?_)
    | with_reducible refine fst_ite_keeps (fun _ => ?_) (fun _ => ?_)
    | with_reducible refine snd_ite_keeps (fun _ => ?_) (fun _ => ?_)
    | with_reducible refine ResP.ite (fun _ => ?_) (fun _ => ?_)
    | with_reducible apply ResP.seq
    | with_reducible apply ResP.jump
    | with_reducible apply ResP.bad
    | exact ResP.illegal
    | exact ResP.window
    | exact ResP.wait
    | with_reducible refine List.foldl_keeps ?_ (fun s x h => ?_)
    | with_reducible refine List.foldl_fst_keeps ?_ (fun s x h => ?_)
    | with_reducible refine List.foldl_snd_keeps ?_ (fun s x h => ?_)
    | intro s x h
    | simp only [Stable.mk_iff hP]
    | split
    | dsimp only

theorem execSignal_keeps (hP : Stable P) {c : CoreId} {w : BitVec 56} {s : State} (h : P s) : OutP P (execSignal c w s) := by
  unfold execSignal
  repeat' first
    | with_reducible assumption
    | with_reducible apply State.issue_keeps hP
    | with_reducible apply State.toCtrl_keeps hP
    | with_reducible refine ite_keeps (fun _ => ?_) (fun _ => ?_)
    | with_reducible apply OutP.next
    | with_reducible refine OutP.ite (fun _ => ?_) (fun _ => ?_)
    | with_reducible refine fst_ite_keeps (fun _ => ?_) (fun _ => ?_)
    | with_reducible refine snd_ite_keeps (fun _ => ?_) (fun _ => ?_)
    | with_reducible refine ResP.ite (fun _ => ?_) (fun _ => ?_)
    | with_reducible apply ResP.seq
    | with_reducible apply ResP.jump
    | with_reducible apply ResP.bad
    | exact ResP.illegal
    | exact ResP.window
    | exact ResP.wait
    | with_reducible refine List.foldl_keeps ?_ (fun s x h => ?_)
    | with_reducible refine List.foldl_fst_keeps ?_ (fun s x h => ?_)
    | with_reducible refine List.foldl_snd_keeps ?_ (fun s x h => ?_)
    | intro s x h
    | simp only [Stable.mk_iff hP]
    | split
    | dsimp only

theorem execFence_keeps (hP : Stable P) {c : CoreId} {w : BitVec 56} {s : State} (h : P s) : OutP P (execFence c w s) := by
  unfold execFence
  repeat' first
    | with_reducible assumption
    | with_reducible apply State.issue_keeps hP
    | with_reducible apply Res.put_keeps hP
    | with_reducible refine ite_keeps (fun _ => ?_) (fun _ => ?_)
    | with_reducible apply OutP.next
    | with_reducible refine OutP.ite (fun _ => ?_) (fun _ => ?_)
    | with_reducible refine fst_ite_keeps (fun _ => ?_) (fun _ => ?_)
    | with_reducible refine snd_ite_keeps (fun _ => ?_) (fun _ => ?_)
    | with_reducible refine ResP.ite (fun _ => ?_) (fun _ => ?_)
    | with_reducible apply ResP.seq
    | with_reducible apply ResP.jump
    | with_reducible apply ResP.bad
    | exact ResP.illegal
    | exact ResP.window
    | exact ResP.wait
    | with_reducible refine List.foldl_keeps ?_ (fun s x h => ?_)
    | with_reducible refine List.foldl_fst_keeps ?_ (fun s x h => ?_)
    | with_reducible refine List.foldl_snd_keeps ?_ (fun s x h => ?_)
    | intro s x h
    | simp only [Stable.mk_iff hP]
    | split
    | dsimp only

theorem State.drainCtrl_keeps (hP : Stable P) {s : State} {c : ℕ} {e : Ecc} {l : List CtrlOp} (h : P s) :
    P (State.drainCtrl s c e l) := by
  induction l generalizing s with
  | nil => exact State.setCore_keeps hP h
  | cons o t ih =>
    cases o
    · exact State.setCore_keeps hP h
    · exact ih (State.runCtrl_keeps hP h)
    · unfold State.drainCtrl
      dsimp only
      split
      · exact State.setCore_keeps hP (State.scrEcc_keeps hP h)
      · exact ih (State.runCtrl_keeps hP (State.scrEcc_keeps hP h))
    · exact ih (State.runCtrl_keeps hP h)
    · exact ih (State.runCtrl_keeps hP h)

theorem execFenceReleaseDone_keeps (hP : Stable P) {c : CoreId} {err : PhysErr} {s : State} (h : P s) :
    OutP P (execFenceReleaseDone c err s) := by
  unfold execFenceReleaseDone
  repeat' first
    | with_reducible assumption
    | with_reducible apply State.drainCtrl_keeps hP
    | with_reducible refine ite_keeps (fun _ => ?_) (fun _ => ?_)
    | with_reducible apply OutP.next
    | with_reducible refine OutP.ite (fun _ => ?_) (fun _ => ?_)
    | with_reducible refine fst_ite_keeps (fun _ => ?_) (fun _ => ?_)
    | with_reducible refine snd_ite_keeps (fun _ => ?_) (fun _ => ?_)
    | with_reducible refine List.foldl_keeps ?_ (fun s x h => ?_)
    | with_reducible refine List.foldl_fst_keeps ?_ (fun s x h => ?_)
    | with_reducible refine List.foldl_snd_keeps ?_ (fun s x h => ?_)
    | intro s x h
    | simp only [Stable.mk_iff hP]
    | split
    | dsimp only

theorem execSignalDelivery_keeps (hP : Stable P) {i : ℕ} {s : State} (h : P s) : OutP P (execSignalDelivery i s) := by
  unfold execSignalDelivery
  repeat' first
    | with_reducible assumption
    | with_reducible apply State.setCore_keeps hP
    | with_reducible apply State.staleDrop_keeps hP
    | with_reducible refine ite_keeps (fun _ => ?_) (fun _ => ?_)
    | with_reducible apply OutP.next
    | with_reducible refine OutP.ite (fun _ => ?_) (fun _ => ?_)
    | with_reducible refine fst_ite_keeps (fun _ => ?_) (fun _ => ?_)
    | with_reducible refine snd_ite_keeps (fun _ => ?_) (fun _ => ?_)
    | with_reducible refine List.foldl_keeps ?_ (fun s x h => ?_)
    | with_reducible refine List.foldl_fst_keeps ?_ (fun s x h => ?_)
    | with_reducible refine List.foldl_snd_keeps ?_ (fun s x h => ?_)
    | intro s x h
    | simp only [Stable.mk_iff hP]
    | split
    | dsimp only

end Sys2Proof.Machine
end

