-- ==== Sys2Proof/Laws/KeepArray.lean ====
section
/-! SUPPORT. What the definitions of Machine/Array.lean keep. -/

set_option linter.unusedTactic false
set_option linter.unreachableTactic false

namespace Sys2Proof.Machine

variable {P : State → Prop}

theorem execSload_keeps (hP : Stable P) {c : CoreId} {w : BitVec 56} {err : PhysErr} {s : State} (h : P s) :
    OutP P (execSload c w err s) := by
  unfold execSload
  repeat' first
    | with_reducible assumption
    | with_reducible apply State.issue_keeps hP
    | exact State.tdesc_error hP (by assumption) ‹_ = Except.error _›
    | refine State.tdesc_ok hP ?_ ‹_ = Except.ok _›
    | with_reducible apply State.regionFault_keeps hP
    | with_reducible apply State.scrEcc_keeps hP
    | with_reducible apply State.perf_keeps hP
    | with_reducible apply State.setCore_keeps hP
    | with_reducible refine ite_keeps (fun _ => ?_) (fun _ => ?_)
    | with_reducible apply OutP.next
    | with_reducible refine OutP.ite (fun _ => ?_) (fun _ => ?_)
    | with_reducible refine fst_ite_keeps (fun _ => ?_) (fun _ => ?_)
    | with_reducible refine snd_ite_keeps (fun _ => ?_) (fun _ => ?_)
    | with_reducible refine ResP.ite (fun _ => ?_) (fun _ => ?_)
    | with_reducible apply ResP.seq
    | with_reducible apply ResP.jump
    | with_reducible apply ResP.bad
    | exact ResP.illegal
    | exact ResP.window
    | exact ResP.wait
    | with_reducible refine List.foldl_keeps ?_ (fun s x h => ?_)
    | with_reducible refine List.foldl_fst_keeps ?_ (fun s x h => ?_)
    | with_reducible refine List.foldl_snd_keeps ?_ (fun s x h => ?_)
    | intro s x h
    | simp only [Stable.mk_iff hP]
    | split
    | dsimp only

theorem State.tileErr_keeps (hP : Stable P) {s : State} {c : ℕ} {tile : ℕ} {hs : List ℕ} {te : TileErr} (h : P s) :
    P (State.tileErr s c tile hs te).1 := by
  unfold State.tileErr
  repeat' first
    | with_reducible assumption
    | with_reducible apply State.injected_keeps hP
    | with_reducible apply State.setCore_keeps hP
    | with_reducible apply State.contain_keeps hP
    | with_reducible apply State.emit_keeps hP
    | with_reducible apply State.perf_keeps hP
    | with_reducible refine ite_keeps (fun _ => ?_) (fun _ => ?_)
    | with_reducible refine fst_ite_keeps (fun _ => ?_) (fun _ => ?_)
    | with_reducible refine snd_ite_keeps (fun _ => ?_) (fun _ => ?_)
    | with_reducible refine List.foldl_keeps ?_ (fun s x h => ?_)
    | with_reducible refine List.foldl_fst_keeps ?_ (fun s x h => ?_)
    | with_reducible refine List.foldl_snd_keeps ?_ (fun s x h => ?_)
    | intro s x h
    | simp only [Stable.mk_iff hP]
    | split
    | dsimp only

theorem State.countDots_keeps (hP : Stable P) {s : State} {c : ℕ} {d : DotCounts} (h : P s) : P (State.countDots s c d) := by
  unfold State.countDots
  repeat' first
    | with_reducible assumption
    | with_reducible apply State.setCore_keeps hP
    | with_reducible apply State.perf_keeps hP
    | with_reducible refine ite_keeps (fun _ => ?_) (fun _ => ?_)
    | with_reducible refine fst_ite_keeps (fun _ => ?_) (fun _ => ?_)
    | with_reducible refine snd_ite_keeps (fun _ => ?_) (fun _ => ?_)
    | with_reducible refine List.foldl_keeps ?_ (fun s x h => ?_)
    | with_reducible refine List.foldl_fst_keeps ?_ (fun s x h => ?_)
    | with_reducible refine List.foldl_snd_keeps ?_ (fun s x h => ?_)
    | intro s x h
    | simp only [Stable.mk_iff hP]
    | split
    | dsimp only

theorem execPass_keeps (hP : Stable P) {c : CoreId} {w : BitVec 56} {err : PhysErr} {te : TileErr} {s : State} (h : P s) :
    OutP P (execPass c w err te s) := by
  unfold execPass
  repeat' first
    | with_reducible assumption
    | with_reducible apply State.issue_keeps hP
    | exact State.tdesc_error hP (by assumption) ‹_ = Except.error _›
    | refine State.tdesc_ok hP ?_ ‹_ = Except.ok _›
    | with_reducible apply State.regionFault_keeps hP
    | with_reducible apply State.scrReads_keeps hP
    | with_reducible apply State.tileErr_keeps hP
    | with_reducible apply State.setCore_keeps hP
    | with_reducible apply State.perf_keeps hP
    | with_reducible apply State.countDots_keeps hP
    | with_reducible refine ite_keeps (fun _ => ?_) (fun _ => ?_)
    | with_reducible apply OutP.next
    | with_reducible refine OutP.ite (fun _ => ?_) (fun _ => ?_)
    | with_reducible refine fst_ite_keeps (fun _ => ?_) (fun _ => ?_)
    | with_reducible refine snd_ite_keeps (fun _ => ?_) (fun _ => ?_)
    | with_reducible refine ResP.ite (fun _ => ?_) (fun _ => ?_)
    | with_reducible apply ResP.seq
    | with_reducible apply ResP.jump
    | with_reducible apply ResP.bad
    | exact ResP.illegal
    | exact ResP.window
    | exact ResP.wait
    | with_reducible refine List.foldl_keeps ?_ (fun s x h => ?_)
    | with_reducible refine List.foldl_fst_keeps ?_ (fun s x h => ?_)
    | with_reducible refine List.foldl_snd_keeps ?_ (fun s x h => ?_)
    | intro s x h
    | simp only [Stable.mk_iff hP]
    | split
    | dsimp only

theorem State.vecDone_keeps (hP : Stable P) {s : State} {c : ℕ} (h : P s) : P (State.vecDone s c) := by
  unfold State.vecDone
  repeat' first
    | with_reducible assumption
    | with_reducible apply State.perf_keeps hP
    | with_reducible apply State.setCore_keeps hP
    | with_reducible refine ite_keeps (fun _ => ?_) (fun _ => ?_)
    | with_reducible refine fst_ite_keeps (fun _ => ?_) (fun _ => ?_)
    | with_reducible refine snd_ite_keeps (fun _ => ?_) (fun _ => ?_)
    | with_reducible refine List.foldl_keeps ?_ (fun s x h => ?_)
    | with_reducible refine List.foldl_fst_keeps ?_ (fun s x h => ?_)
    | with_reducible refine List.foldl_snd_keeps ?_ (fun s x h => ?_)
    | intro s x h
    | simp only [Stable.mk_iff hP]
    | split
    | dsimp only

theorem execDrain_keeps (hP : Stable P) {c : CoreId} {w : BitVec 56} {te : TileErr} {s : State} (h : P s) : OutP P (execDrain c w te s) := by
  unfold execDrain
  repeat' first
    | with_reducible assumption
    | with_reducible apply State.issue_keeps hP
    | with_reducible apply State.regionFault_keeps hP
    | with_reducible apply State.tileErr_keeps hP
    | with_reducible apply State.vecDone_keeps hP
    | with_reducible apply State.setCore_keeps hP
    | with_reducible refine ite_keeps (fun _ => ?_) (fun _ => ?_)
    | with_reducible apply OutP.next
    | with_reducible refine OutP.ite (fun _ => ?_) (fun _ => ?_)
    | with_reducible refine fst_ite_keeps (fun _ => ?_) (fun _ => ?_)
    | with_reducible refine snd_ite_keeps (fun _ => ?_) (fun _ => ?_)
    | with_reducible refine ResP.ite (fun _ => ?_) (fun _ => ?_)
    | with_reducible apply ResP.seq
    | with_reducible apply ResP.jump
    | with_reducible apply ResP.bad
    | exact ResP.illegal
    | exact ResP.window
    | exact ResP.wait
    | with_reducible refine List.foldl_keeps ?_ (fun s x h => ?_)
    | with_reducible refine List.foldl_fst_keeps ?_ (fun s x h => ?_)
    | with_reducible refine List.foldl_snd_keeps ?_ (fun s x h => ?_)
    | intro s x h
    | simp only [Stable.mk_iff hP]
    | split
    | dsimp only

end Sys2Proof.Machine
end

