-- ==== Sys2Proof/Laws/KeepStackMem.lean ====
section
/-! SUPPORT. What the definitions of Machine/StackMem.lean keep. -/

set_option linter.unusedTactic false
set_option linter.unreachableTactic false

namespace Sys2Proof.Machine

variable {P : State → Prop}

theorem State.setFrame_keeps (hP : Stable P) {s : State} {st : ℕ} {f : ℕ} {x : Frame} (h : P s) : P (State.setFrame s st f x) := by
  unfold State.setFrame
  repeat' first
    | with_reducible assumption
    | with_reducible apply State.setStk_keeps hP
    | with_reducible refine ite_keeps (fun _ => ?_) (fun _ => ?_)
    | with_reducible refine fst_ite_keeps (fun _ => ?_) (fun _ => ?_)
    | with_reducible refine snd_ite_keeps (fun _ => ?_) (fun _ => ?_)
    | with_reducible refine List.foldl_keeps ?_ (fun s x h => ?_)
    | with_reducible refine List.foldl_fst_keeps ?_ (fun s x h => ?_)
    | with_reducible refine List.foldl_snd_keeps ?_ (fun s x h => ?_)
    | intro s x h
    | simp only [Stable.mk_iff hP]
    | split
    | dsimp only

theorem State.creditStall_keeps (hP : Stable P) {s : State} {st : ℕ} (h : P s) : P (State.creditStall s st) := by
  unfold State.creditStall
  repeat' first
    | with_reducible assumption
    | with_reducible apply State.setStk_keeps hP
    | with_reducible refine ite_keeps (fun _ => ?_) (fun _ => ?_)
    | with_reducible refine fst_ite_keeps (fun _ => ?_) (fun _ => ?_)
    | with_reducible refine snd_ite_keeps (fun _ => ?_) (fun _ => ?_)
    | with_reducible refine List.foldl_keeps ?_ (fun s x h => ?_)
    | with_reducible refine List.foldl_fst_keeps ?_ (fun s x h => ?_)
    | with_reducible refine List.foldl_snd_keeps ?_ (fun s x h => ?_)
    | intro s x h
    | simp only [Stable.mk_iff hP]
    | split
    | dsimp only

theorem State.wakeDie_keeps (hP : Stable P) {s : State} {st : ℕ} {d : ℕ} (h : P s) : P (State.wakeDie s st d) := by
  unfold State.wakeDie
  repeat' first
    | with_reducible assumption
    | with_reducible apply State.setStk_keeps hP
    | with_reducible refine ite_keeps (fun _ => ?_) (fun _ => ?_)
    | with_reducible refine fst_ite_keeps (fun _ => ?_) (fun _ => ?_)
    | with_reducible refine snd_ite_keeps (fun _ => ?_) (fun _ => ?_)
    | with_reducible refine List.foldl_keeps ?_ (fun s x h => ?_)
    | with_reducible refine List.foldl_fst_keeps ?_ (fun s x h => ?_)
    | with_reducible refine List.foldl_snd_keeps ?_ (fun s x h => ?_)
    | intro s x h
    | simp only [Stable.mk_iff hP]
    | split
    | dsimp only

theorem State.wakeLine_keeps (hP : Stable P) {s : State} {st : ℕ} {off : ℕ} {write : Bool} (h : P s) :
    P (State.wakeLine s st off write).1 := by
  unfold State.wakeLine
  repeat' first
    | with_reducible assumption
    | with_reducible apply State.perf_keeps hP
    | with_reducible apply State.setStk_keeps hP
    | with_reducible refine ite_keeps (fun _ => ?_) (fun _ => ?_)
    | with_reducible refine fst_ite_keeps (fun _ => ?_) (fun _ => ?_)
    | with_reducible refine snd_ite_keeps (fun _ => ?_) (fun _ => ?_)
    | with_reducible refine List.foldl_keeps ?_ (fun s x h => ?_)
    | with_reducible refine List.foldl_fst_keeps ?_ (fun s x h => ?_)
    | with_reducible refine List.foldl_snd_keeps ?_ (fun s x h => ?_)
    | intro s x h
    | simp only [Stable.mk_iff hP]
    | split
    | dsimp only

theorem State.lineUnc_keeps (hP : Stable P) {s : State} {st : ℕ} {off : ℕ} {part : Option ℕ} {ctx : ℕ} (h : P s) :
    P (State.lineUnc s st off part ctx) := by
  unfold State.lineUnc
  repeat' first
    | with_reducible assumption
    | with_reducible apply State.setStk_keeps hP
    | with_reducible apply State.emit_keeps hP
    | with_reducible refine ite_keeps (fun _ => ?_) (fun _ => ?_)
    | with_reducible refine fst_ite_keeps (fun _ => ?_) (fun _ => ?_)
    | with_reducible refine snd_ite_keeps (fun _ => ?_) (fun _ => ?_)
    | with_reducible refine List.foldl_keeps ?_ (fun s x h => ?_)
    | with_reducible refine List.foldl_fst_keeps ?_ (fun s x h => ?_)
    | with_reducible refine List.foldl_snd_keeps ?_ (fun s x h => ?_)
    | intro s x h
    | simp only [Stable.mk_iff hP]
    | split
    | dsimp only

theorem State.lineTag_keeps (hP : Stable P) {s : State} {st : ℕ} {off : ℕ} {part : Option ℕ} {ctx : ℕ} (h : P s) :
    P (State.lineTag s st off part ctx) := by
  unfold State.lineTag
  repeat' first
    | with_reducible assumption
    | with_reducible apply State.setStk_keeps hP
    | with_reducible apply State.emit_keeps hP
    | with_reducible refine ite_keeps (fun _ => ?_) (fun _ => ?_)
    | with_reducible refine fst_ite_keeps (fun _ => ?_) (fun _ => ?_)
    | with_reducible refine snd_ite_keeps (fun _ => ?_) (fun _ => ?_)
    | with_reducible refine List.foldl_keeps ?_ (fun s x h => ?_)
    | with_reducible refine List.foldl_fst_keeps ?_ (fun s x h => ?_)
    | with_reducible refine List.foldl_snd_keeps ?_ (fun s x h => ?_)
    | intro s x h
    | simp only [Stable.mk_iff hP]
    | split
    | dsimp only

theorem State.lineCor_keeps (hP : Stable P) {s : State} {st : ℕ} {off : ℕ} (h : P s) : P (State.lineCor s st off) := by
  unfold State.lineCor
  repeat' first
    | with_reducible assumption
    | with_reducible apply State.setStk_keeps hP
    | with_reducible apply State.perf_keeps hP
    | with_reducible apply State.emit_keeps hP
    | with_reducible refine ite_keeps (fun _ => ?_) (fun _ => ?_)
    | with_reducible refine fst_ite_keeps (fun _ => ?_) (fun _ => ?_)
    | with_reducible refine snd_ite_keeps (fun _ => ?_) (fun _ => ?_)
    | with_reducible refine List.foldl_keeps ?_ (fun s x h => ?_)
    | with_reducible refine List.foldl_fst_keeps ?_ (fun s x h => ?_)
    | with_reducible refine List.foldl_snd_keeps ?_ (fun s x h => ?_)
    | intro s x h
    | simp only [Stable.mk_iff hP]
    | split
    | dsimp only

theorem State.heldLine_keeps (hP : Stable P) {s : State} {st : ℕ} {off : ℕ} {part : Option ℕ} {ctx : ℕ} (h : P s) :
    P (State.heldLine s st off part ctx).1 := by
  unfold State.heldLine
  repeat' first
    | with_reducible assumption
    | with_reducible apply State.lineUnc_keeps hP
    | with_reducible apply State.lineTag_keeps hP
    | with_reducible refine ite_keeps (fun _ => ?_) (fun _ => ?_)
    | with_reducible refine fst_ite_keeps (fun _ => ?_) (fun _ => ?_)
    | with_reducible refine snd_ite_keeps (fun _ => ?_) (fun _ => ?_)
    | with_reducible refine List.foldl_keeps ?_ (fun s x h => ?_)
    | with_reducible refine List.foldl_fst_keeps ?_ (fun s x h => ?_)
    | with_reducible refine List.foldl_snd_keeps ?_ (fun s x h => ?_)
    | intro s x h
    | simp only [Stable.mk_iff hP]
    | split
    | dsimp only

theorem State.checkLine_keeps (hP : Stable P) {s : State} {st : ℕ} {off : ℕ} {part : Option ℕ} {ctx : ℕ} {e : Ecc} (h : P s) :
    P (State.checkLine s st off part ctx e).1 := by
  unfold State.checkLine
  repeat' first
    | with_reducible assumption
    | with_reducible apply State.injectEcc_keeps hP
    | with_reducible apply State.lineUnc_keeps hP
    | with_reducible apply State.heldLine_keeps hP
    | with_reducible apply State.lineTag_keeps hP
    | with_reducible apply State.lineCor_keeps hP
    | with_reducible refine ite_keeps (fun _ => ?_) (fun _ => ?_)
    | with_reducible refine fst_ite_keeps (fun _ => ?_) (fun _ => ?_)
    | with_reducible refine snd_ite_keeps (fun _ => ?_) (fun _ => ?_)
    | with_reducible refine List.foldl_keeps ?_ (fun s x h => ?_)
    | with_reducible refine List.foldl_fst_keeps ?_ (fun s x h => ?_)
    | with_reducible refine List.foldl_snd_keeps ?_ (fun s x h => ?_)
    | intro s x h
    | simp only [Stable.mk_iff hP]
    | split
    | dsimp only

theorem State.readLine_keeps (hP : Stable P) {s : State} {st : ℕ} {off : ℕ} {part : Option ℕ} {ctx : ℕ} {e : Ecc} (h : P s) :
    P (State.readLine s st off part ctx e).1 := by
  unfold State.readLine
  repeat' first
    | with_reducible assumption
    | with_reducible apply State.wakeLine_keeps hP
    | with_reducible apply State.checkLine_keeps hP
    | with_reducible refine ite_keeps (fun _ => ?_) (fun _ => ?_)
    | with_reducible refine fst_ite_keeps (fun _ => ?_) (fun _ => ?_)
    | with_reducible refine snd_ite_keeps (fun _ => ?_) (fun _ => ?_)
    | with_reducible refine List.foldl_keeps ?_ (fun s x h => ?_)
    | with_reducible refine List.foldl_fst_keeps ?_ (fun s x h => ?_)
    | with_reducible refine List.foldl_snd_keeps ?_ (fun s x h => ?_)
    | intro s x h
    | simp only [Stable.mk_iff hP]
    | split
    | dsimp only

theorem State.readLines_keeps (hP : Stable P) {s : State} {part : Option ℕ} {ctx : ℕ} {e : Ecc} {a4 : List ℕ} (h : P s) :
    P (State.readLines s part ctx e a4).1 := by
  induction a4 generalizing s part ctx e with
  | nil =>
    unfold State.readLines
    repeat' first
      | with_reducible assumption
      | with_reducible apply State.readLine_keeps hP
      | with_reducible refine ite_keeps (fun _ => ?_) (fun _ => ?_)
      | with_reducible refine fst_ite_keeps (fun _ => ?_) (fun _ => ?_)
      | with_reducible refine snd_ite_keeps (fun _ => ?_) (fun _ => ?_)
      | with_reducible refine List.foldl_keeps ?_ (fun s x h => ?_)
      | with_reducible refine List.foldl_fst_keeps ?_ (fun s x h => ?_)
      | with_reducible refine List.foldl_snd_keeps ?_ (fun s x h => ?_)
      | intro s x h
      | simp only [Stable.mk_iff hP]
      | split
      | dsimp only
  | cons x xs ih =>
    unfold State.readLines
    repeat' first
      | with_reducible assumption
      | with_reducible apply ih
      | with_reducible apply State.readLine_keeps hP
      | with_reducible refine ite_keeps (fun _ => ?_) (fun _ => ?_)
      | with_reducible refine fst_ite_keeps (fun _ => ?_) (fun _ => ?_)
      | with_reducible refine snd_ite_keeps (fun _ => ?_) (fun _ => ?_)
      | with_reducible refine List.foldl_keeps ?_ (fun s x h => ?_)
      | with_reducible refine List.foldl_fst_keeps ?_ (fun s x h => ?_)
      | with_reducible refine List.foldl_snd_keeps ?_ (fun s x h => ?_)
      | intro s x h
      | simp only [Stable.mk_iff hP]
      | split
      | dsimp only

theorem State.portLines_keeps (hP : Stable P) {s : State} {ev : ℕ} {ls : List ℕ} (h : P s) : P (State.portLines s ev ls) := by
  unfold State.portLines
  repeat' first
    | with_reducible assumption
    | with_reducible apply State.perf_keeps hP
    | with_reducible refine ite_keeps (fun _ => ?_) (fun _ => ?_)
    | with_reducible refine fst_ite_keeps (fun _ => ?_) (fun _ => ?_)
    | with_reducible refine snd_ite_keeps (fun _ => ?_) (fun _ => ?_)
    | with_reducible refine List.foldl_keeps ?_ (fun s x h => ?_)
    | with_reducible refine List.foldl_fst_keeps ?_ (fun s x h => ?_)
    | with_reducible refine List.foldl_snd_keeps ?_ (fun s x h => ?_)
    | intro s x h
    | simp only [Stable.mk_iff hP]
    | split
    | dsimp only

theorem State.stkRead_keeps (hP : Stable P) {s : State} {a : ℕ} {n : ℕ} {part : ℕ} {ctx : ℕ} {e : Ecc} (h : P s) :
    P (State.stkRead s a n part ctx e).1 := by
  unfold State.stkRead
  repeat' first
    | with_reducible assumption
    | with_reducible apply State.readLines_keeps hP
    | with_reducible apply State.charge_keeps hP
    | with_reducible apply State.portLines_keeps hP
    | with_reducible refine ite_keeps (fun _ => ?_) (fun _ => ?_)
    | with_reducible refine fst_ite_keeps (fun _ => ?_) (fun _ => ?_)
    | with_reducible refine snd_ite_keeps (fun _ => ?_) (fun _ => ?_)
    | with_reducible refine List.foldl_keeps ?_ (fun s x h => ?_)
    | with_reducible refine List.foldl_fst_keeps ?_ (fun s x h => ?_)
    | with_reducible refine List.foldl_snd_keeps ?_ (fun s x h => ?_)
    | intro s x h
    | simp only [Stable.mk_iff hP]
    | split
    | dsimp only

theorem State.waitsAt_keeps (hP : Stable P) {s : State} {r : State} {st : ℕ} (h : P s) : P (State.waitsAt s r st) := by
  unfold State.waitsAt
  repeat' first
    | with_reducible assumption
    | with_reducible apply State.creditStall_keeps hP
    | with_reducible apply State.setStk_keeps hP
    | with_reducible refine ite_keeps (fun _ => ?_) (fun _ => ?_)
    | with_reducible refine fst_ite_keeps (fun _ => ?_) (fun _ => ?_)
    | with_reducible refine snd_ite_keeps (fun _ => ?_) (fun _ => ?_)
    | with_reducible refine List.foldl_keeps ?_ (fun s x h => ?_)
    | with_reducible refine List.foldl_fst_keeps ?_ (fun s x h => ?_)
    | with_reducible refine List.foldl_snd_keeps ?_ (fun s x h => ?_)
    | intro s x h
    | simp only [Stable.mk_iff hP]
    | split
    | dsimp only

theorem State.lineWritten_keeps (hP : Stable P) {s : State} {st : ℕ} {off : ℕ} (h : P s) : P (State.lineWritten s st off) := by
  unfold State.lineWritten
  repeat' first
    | with_reducible assumption
    | with_reducible apply State.setStk_keeps hP
    | with_reducible refine ite_keeps (fun _ => ?_) (fun _ => ?_)
    | with_reducible refine fst_ite_keeps (fun _ => ?_) (fun _ => ?_)
    | with_reducible refine snd_ite_keeps (fun _ => ?_) (fun _ => ?_)
    | with_reducible refine List.foldl_keeps ?_ (fun s x h => ?_)
    | with_reducible refine List.foldl_fst_keeps ?_ (fun s x h => ?_)
    | with_reducible refine List.foldl_snd_keeps ?_ (fun s x h => ?_)
    | intro s x h
    | simp only [Stable.mk_iff hP]
    | split
    | dsimp only

theorem State.admitLine_keeps (hP : Stable P) {s : State} {st : ℕ} {off : ℕ} {whole : Bool} {part : Option ℕ} {ctx : ℕ} {e : Ecc} (h : P s) :
    P (State.admitLine s st off whole part ctx e).1 := by
  unfold State.admitLine
  repeat' first
    | with_reducible assumption
    | with_reducible apply State.wakeLine_keeps hP
    | with_reducible apply State.checkLine_keeps hP
    | with_reducible refine ite_keeps (fun _ => ?_) (fun _ => ?_)
    | with_reducible refine fst_ite_keeps (fun _ => ?_) (fun _ => ?_)
    | with_reducible refine snd_ite_keeps (fun _ => ?_) (fun _ => ?_)
    | with_reducible refine List.foldl_keeps ?_ (fun s x h => ?_)
    | with_reducible refine List.foldl_fst_keeps ?_ (fun s x h => ?_)
    | with_reducible refine List.foldl_snd_keeps ?_ (fun s x h => ?_)
    | intro s x h
    | simp only [Stable.mk_iff hP]
    | split
    | dsimp only

theorem State.admitLines_keeps (hP : Stable P) {s : State} {a : ℕ} {n : ℕ} {part : Option ℕ} {ctx : ℕ} {e : Ecc} {a6 : List ℕ} (h : P s) :
    P (State.admitLines s a n part ctx e a6).1 := by
  induction a6 generalizing s a n part ctx e with
  | nil =>
    unfold State.admitLines
    repeat' first
      | with_reducible assumption
      | with_reducible apply State.admitLine_keeps hP
      | with_reducible refine ite_keeps (fun _ => ?_) (fun _ => ?_)
      | with_reducible refine fst_ite_keeps (fun _ => ?_) (fun _ => ?_)
      | with_reducible refine snd_ite_keeps (fun _ => ?_) (fun _ => ?_)
      | with_reducible refine List.foldl_keeps ?_ (fun s x h => ?_)
      | with_reducible refine List.foldl_fst_keeps ?_ (fun s x h => ?_)
      | with_reducible refine List.foldl_snd_keeps ?_ (fun s x h => ?_)
      | intro s x h
      | simp only [Stable.mk_iff hP]
      | split
      | dsimp only
  | cons x xs ih =>
    unfold State.admitLines
    repeat' first
      | with_reducible assumption
      | with_reducible apply ih
      | with_reducible apply State.admitLine_keeps hP
      | with_reducible refine ite_keeps (fun _ => ?_) (fun _ => ?_)
      | with_reducible refine fst_ite_keeps (fun _ => ?_) (fun _ => ?_)
      | with_reducible refine snd_ite_keeps (fun _ => ?_) (fun _ => ?_)
      | with_reducible refine List.foldl_keeps ?_ (fun s x h => ?_)
      | with_reducible refine List.foldl_fst_keeps ?_ (fun s x h => ?_)
      | with_reducible refine List.foldl_snd_keeps ?_ (fun s x h => ?_)
      | intro s x h
      | simp only [Stable.mk_iff hP]
      | split
      | dsimp only

theorem State.linesWritten_keeps (hP : Stable P) {s : State} {ls : List ℕ} (h : P s) : P (State.linesWritten s ls) := by
  unfold State.linesWritten
  repeat' first
    | with_reducible assumption
    | with_reducible apply State.lineWritten_keeps hP
    | with_reducible refine ite_keeps (fun _ => ?_) (fun _ => ?_)
    | with_reducible refine fst_ite_keeps (fun _ => ?_) (fun _ => ?_)
    | with_reducible refine snd_ite_keeps (fun _ => ?_) (fun _ => ?_)
    | with_reducible refine List.foldl_keeps ?_ (fun s x h => ?_)
    | with_reducible refine List.foldl_fst_keeps ?_ (fun s x h => ?_)
    | with_reducible refine List.foldl_snd_keeps ?_ (fun s x h => ?_)
    | intro s x h
    | simp only [Stable.mk_iff hP]
    | split
    | dsimp only

theorem State.stkWrite_keeps (hP : Lasting P) {s : State} {a : ℕ} {data : List Byte} {part : ℕ} {ctx : ℕ} {e : Ecc} (h : P s) :
    P (State.stkWrite s a data part ctx e).1 := by
  unfold State.stkWrite
  dsimp only
  split
  · refine State.charge_keeps hP.stable (State.portLines_keeps hP.stable (State.setMem_keeps hP
      (State.linesWritten_keeps hP.stable (State.admitLines_keeps hP.stable h)) ?_))
    intro hw
    have hm := State.linesWritten_keeps (P := fun t => t.mem = (s.admitLines a data.length (some part) ctx e (linesOf a data.length)).1.mem)
      (ls := linesOf a data.length) (fun _ _ _ h2 _ h => h2.trans h) rfl
    exact Memory.wf_writeN (hm ▸ hw)
  · exact State.admitLines_keeps hP.stable h

theorem State.dieWork_keeps (hP : Stable P) {s : State} {up : Bool} {x : ℕ × ℕ} (h : P s) : P (State.dieWork s up x) := by
  unfold State.dieWork
  repeat' first
    | with_reducible assumption
    | with_reducible apply State.setStk_keeps hP
    | with_reducible apply State.wakeLine_keeps hP
    | with_reducible apply State.creditStall_keeps hP
    | with_reducible apply State.wakeDie_keeps hP
    | with_reducible refine ite_keeps (fun _ => ?_) (fun _ => ?_)
    | with_reducible refine fst_ite_keeps (fun _ => ?_) (fun _ => ?_)
    | with_reducible refine snd_ite_keeps (fun _ => ?_) (fun _ => ?_)
    | with_reducible refine List.foldl_keeps ?_ (fun s x h => ?_)
    | with_reducible refine List.foldl_fst_keeps ?_ (fun s x h => ?_)
    | with_reducible refine List.foldl_snd_keeps ?_ (fun s x h => ?_)
    | intro s x h
    | simp only [Stable.mk_iff hP]
    | split
    | dsimp only

theorem State.putArrives_keeps (hP : Stable P) {s : State} {l : ℕ} (h : P s) : P (State.putArrives s l) := by
  unfold State.putArrives
  repeat' first
    | with_reducible assumption
    | with_reducible apply State.wakeLine_keeps hP
    | with_reducible apply State.creditStall_keeps hP
    | with_reducible apply State.wakeDie_keeps hP
    | with_reducible refine ite_keeps (fun _ => ?_) (fun _ => ?_)
    | with_reducible refine fst_ite_keeps (fun _ => ?_) (fun _ => ?_)
    | with_reducible refine snd_ite_keeps (fun _ => ?_) (fun _ => ?_)
    | with_reducible refine List.foldl_keeps ?_ (fun s x h => ?_)
    | with_reducible refine List.foldl_fst_keeps ?_ (fun s x h => ?_)
    | with_reducible refine List.foldl_snd_keeps ?_ (fun s x h => ?_)
    | intro s x h
    | simp only [Stable.mk_iff hP]
    | split
    | dsimp only

theorem State.putStack_keeps (hP : Lasting P) {s : State} {a : ℕ} {data : List Byte} {part : Option ℕ} {own : List ℕ} (h : P s) :
    P (State.putStack s a data part own) := by
  unfold State.putStack
  repeat' first
    | with_reducible assumption
    | with_reducible apply State.putArrives_keeps hP.stable
    | with_reducible apply State.heldLine_keeps hP.stable
    | with_reducible apply State.linesWritten_keeps hP.stable
    | with_reducible apply State.portLines_keeps hP.stable
    | with_reducible apply State.setMem_keeps hP
    | with_reducible refine ite_keeps (fun _ => ?_) (fun _ => ?_)
    | with_reducible refine fst_ite_keeps (fun _ => ?_) (fun _ => ?_)
    | with_reducible refine snd_ite_keeps (fun _ => ?_) (fun _ => ?_)
    | with_reducible refine List.foldl_keeps ?_ (fun s x h => ?_)
    | with_reducible refine List.foldl_fst_keeps ?_ (fun s x h => ?_)
    | with_reducible refine List.foldl_snd_keeps ?_ (fun s x h => ?_)
    | intro s x h
    | exact fun hw => Memory.wf_writeN hw
    | exact fun hw => Memory.wf_writeN (wf_zeroRange hw)
    | exact fun hw => wf_zeroRange hw
    | exact fun hw => wf_copyRange hw
    | exact fun hw => Memory.wf_writeAll hw
    | simp only [Stable.mk_iff hP.stable]
    | split
    | dsimp only

end Sys2Proof.Machine
end

