-- ==== Sys2Proof/Laws/KeepDma.lean ====
section
/-! SUPPORT. What the definitions of Machine/Dma.lean keep. -/

set_option linter.unusedTactic false
set_option linter.unreachableTactic false

namespace Sys2Proof.Machine

variable {P : State → Prop}

theorem execDma_keeps (hP : Stable P) {c : CoreId} {w : BitVec 56} {err : PhysErr} {s : State} (h : P s) : OutP P (execDma c w err s) := by
  unfold execDma
  repeat' first
    | with_reducible assumption
    | with_reducible apply State.issue_keeps hP
    | with_reducible apply State.regionFault_keeps hP
    | with_reducible apply State.scrEcc_keeps hP
    | with_reducible apply State.setCore_keeps hP
    | with_reducible refine ite_keeps (fun _ => ?_) (fun _ => ?_)
    | with_reducible apply OutP.next
    | with_reducible refine OutP.ite (fun _ => ?_) (fun _ => ?_)
    | with_reducible refine fst_ite_keeps (fun _ => ?_) (fun _ => ?_)
    | with_reducible refine snd_ite_keeps (fun _ => ?_) (fun _ => ?_)
    | with_reducible refine ResP.ite (fun _ => ?_) (fun _ => ?_)
    | with_reducible apply ResP.seq
    | with_reducible apply ResP.jump
    | with_reducible apply ResP.bad
    | exact ResP.illegal
    | exact ResP.window
    | exact ResP.wait
    | with_reducible refine List.foldl_keeps ?_ (fun s x h => ?_)
    | with_reducible refine List.foldl_fst_keeps ?_ (fun s x h => ?_)
    | with_reducible refine List.foldl_snd_keeps ?_ (fun s x h => ?_)
    | intro s x h
    | simp only [Stable.mk_iff hP]
    | split
    | dsimp only

theorem State.updEnt_keeps (hP : Stable P) {s : State} {c : ℕ} {ch : ℕ} {i : ℕ} {f : DmaEnt → DmaEnt} (h : P s) :
    P (State.updEnt s c ch i f) := by
  unfold State.updEnt
  repeat' first
    | with_reducible assumption
    | with_reducible apply State.setCore_keeps hP
    | with_reducible refine ite_keeps (fun _ => ?_) (fun _ => ?_)
    | with_reducible refine fst_ite_keeps (fun _ => ?_) (fun _ => ?_)
    | with_reducible refine snd_ite_keeps (fun _ => ?_) (fun _ => ?_)
    | with_reducible refine List.foldl_keeps ?_ (fun s x h => ?_)
    | with_reducible refine List.foldl_fst_keeps ?_ (fun s x h => ?_)
    | with_reducible refine List.foldl_snd_keeps ?_ (fun s x h => ?_)
    | intro s x h
    | simp only [Stable.mk_iff hP]
    | split
    | dsimp only

theorem State.haltFlight_keeps (hP : Stable P) {s : State} {c : ℕ} {flight : ℕ} (h : P s) : P (State.haltFlight s c flight) := by
  unfold State.haltFlight
  repeat' first
    | with_reducible assumption
    | with_reducible apply State.setCore_keeps hP
    | with_reducible refine ite_keeps (fun _ => ?_) (fun _ => ?_)
    | with_reducible refine fst_ite_keeps (fun _ => ?_) (fun _ => ?_)
    | with_reducible refine snd_ite_keeps (fun _ => ?_) (fun _ => ?_)
    | with_reducible refine List.foldl_keeps ?_ (fun s x h => ?_)
    | with_reducible refine List.foldl_fst_keeps ?_ (fun s x h => ?_)
    | with_reducible refine List.foldl_snd_keeps ?_ (fun s x h => ?_)
    | intro s x h
    | simp only [Stable.mk_iff hP]
    | split
    | dsimp only

theorem State.wordUnc_keeps (hP : Stable P) {s : State} {c : ℕ} {off : ℕ} (h : P s) : P (State.wordUnc s c off) := by
  unfold State.wordUnc
  repeat' first
    | with_reducible assumption
    | with_reducible apply State.contain_keeps hP
    | with_reducible apply State.scrUnc_keeps hP
    | with_reducible refine ite_keeps (fun _ => ?_) (fun _ => ?_)
    | with_reducible refine fst_ite_keeps (fun _ => ?_) (fun _ => ?_)
    | with_reducible refine snd_ite_keeps (fun _ => ?_) (fun _ => ?_)
    | with_reducible refine List.foldl_keeps ?_ (fun s x h => ?_)
    | with_reducible refine List.foldl_fst_keeps ?_ (fun s x h => ?_)
    | with_reducible refine List.foldl_snd_keeps ?_ (fun s x h => ?_)
    | intro s x h
    | simp only [Stable.mk_iff hP]
    | split
    | dsimp only

theorem State.runFills_keeps (hP : Stable P) {c : ℕ} {ch : ℕ} {s : State} {a3 : ℕ} {a4 : List DmaEnt} (h : P s) :
    P (State.runFills c ch s a3 a4) := by
  induction a4 generalizing c ch s a3 with
  | nil =>
    unfold State.runFills
    repeat' first
      | with_reducible assumption
      | with_reducible apply State.scrMeets_keeps hP
      | with_reducible apply State.haltFlight_keeps hP
      | with_reducible apply State.updEnt_keeps hP
      | with_reducible apply State.wordUnc_keeps hP
      | with_reducible apply State.contain_keeps hP
      | with_reducible apply State.setCore_keeps hP
      | with_reducible refine ite_keeps (fun _ => ?_) (fun _ => ?_)
      | with_reducible refine fst_ite_keeps (fun _ => ?_) (fun _ => ?_)
      | with_reducible refine snd_ite_keeps (fun _ => ?_) (fun _ => ?_)
      | with_reducible refine List.foldl_keeps ?_ (fun s x h => ?_)
      | with_reducible refine List.foldl_fst_keeps ?_ (fun s x h => ?_)
      | with_reducible refine List.foldl_snd_keeps ?_ (fun s x h => ?_)
      | intro s x h
      | simp only [Stable.mk_iff hP]
      | split
      | dsimp only
  | cons x xs ih =>
    unfold State.runFills
    repeat' first
      | with_reducible assumption
      | with_reducible apply ih
      | with_reducible apply State.scrMeets_keeps hP
      | with_reducible apply State.haltFlight_keeps hP
      | with_reducible apply State.updEnt_keeps hP
      | with_reducible apply State.wordUnc_keeps hP
      | with_reducible apply State.contain_keeps hP
      | with_reducible apply State.setCore_keeps hP
      | with_reducible refine ite_keeps (fun _ => ?_) (fun _ => ?_)
      | with_reducible refine fst_ite_keeps (fun _ => ?_) (fun _ => ?_)
      | with_reducible refine snd_ite_keeps (fun _ => ?_) (fun _ => ?_)
      | with_reducible refine List.foldl_keeps ?_ (fun s x h => ?_)
      | with_reducible refine List.foldl_fst_keeps ?_ (fun s x h => ?_)
      | with_reducible refine List.foldl_snd_keeps ?_ (fun s x h => ?_)
      | intro s x h
      | simp only [Stable.mk_iff hP]
      | split
      | dsimp only

theorem State.settleChan_keeps (hP : Stable P) {s : State} {c : ℕ} {ch : ℕ} (h : P s) : P (State.settleChan s c ch) := by
  unfold State.settleChan
  repeat' first
    | with_reducible assumption
    | with_reducible apply State.runFills_keeps hP
    | with_reducible refine ite_keeps (fun _ => ?_) (fun _ => ?_)
    | with_reducible refine fst_ite_keeps (fun _ => ?_) (fun _ => ?_)
    | with_reducible refine snd_ite_keeps (fun _ => ?_) (fun _ => ?_)
    | with_reducible refine List.foldl_keeps ?_ (fun s x h => ?_)
    | with_reducible refine List.foldl_fst_keeps ?_ (fun s x h => ?_)
    | with_reducible refine List.foldl_snd_keeps ?_ (fun s x h => ?_)
    | intro s x h
    | simp only [Stable.mk_iff hP]
    | split
    | dsimp only

theorem State.joinChan_keeps (hP : Stable P) {s : State} {c : ℕ} {ch : ℕ} {ent : DmaEnt} (h : P s) : P (State.joinChan s c ch ent) := by
  unfold State.joinChan
  repeat' first
    | with_reducible assumption
    | with_reducible apply State.settleChan_keeps hP
    | with_reducible apply State.setCore_keeps hP
    | with_reducible refine ite_keeps (fun _ => ?_) (fun _ => ?_)
    | with_reducible refine fst_ite_keeps (fun _ => ?_) (fun _ => ?_)
    | with_reducible refine snd_ite_keeps (fun _ => ?_) (fun _ => ?_)
    | with_reducible refine List.foldl_keeps ?_ (fun s x h => ?_)
    | with_reducible refine List.foldl_fst_keeps ?_ (fun s x h => ?_)
    | with_reducible refine List.foldl_snd_keeps ?_ (fun s x h => ?_)
    | intro s x h
    | simp only [Stable.mk_iff hP]
    | split
    | dsimp only

theorem execFill_keeps (hP : Stable P) {c : CoreId} {w : BitVec 56} {s : State} (h : P s) : OutP P (execFill c w s) := by
  unfold execFill
  repeat' first
    | with_reducible assumption
    | with_reducible apply State.issue_keeps hP
    | with_reducible apply State.regionFault_keeps hP
    | with_reducible apply State.joinChan_keeps hP
    | with_reducible refine ite_keeps (fun _ => ?_) (fun _ => ?_)
    | with_reducible apply OutP.next
    | with_reducible refine OutP.ite (fun _ => ?_) (fun _ => ?_)
    | with_reducible refine fst_ite_keeps (fun _ => ?_) (fun _ => ?_)
    | with_reducible refine snd_ite_keeps (fun _ => ?_) (fun _ => ?_)
    | with_reducible refine ResP.ite (fun _ => ?_) (fun _ => ?_)
    | with_reducible apply ResP.seq
    | with_reducible apply ResP.jump
    | with_reducible apply ResP.bad
    | exact ResP.illegal
    | exact ResP.window
    | exact ResP.wait
    | with_reducible refine List.foldl_keeps ?_ (fun s x h => ?_)
    | with_reducible refine List.foldl_fst_keeps ?_ (fun s x h => ?_)
    | with_reducible refine List.foldl_snd_keeps ?_ (fun s x h => ?_)
    | intro s x h
    | simp only [Stable.mk_iff hP]
    | split
    | dsimp only

theorem execCopy_keeps (hP : Stable P) {c : CoreId} {w : Met (BitVec 56)} {s : State} (h : P s) : OutP P (execCopy c w s) := by
  unfold execCopy
  repeat' first
    | with_reducible assumption
    | with_reducible apply State.issue_keeps hP
    | with_reducible apply State.regionFault_keeps hP
    | with_reducible apply State.joinChan_keeps hP
    | with_reducible refine ite_keeps (fun _ => ?_) (fun _ => ?_)
    | with_reducible apply OutP.next
    | with_reducible refine OutP.ite (fun _ => ?_) (fun _ => ?_)
    | with_reducible refine fst_ite_keeps (fun _ => ?_) (fun _ => ?_)
    | with_reducible refine snd_ite_keeps (fun _ => ?_) (fun _ => ?_)
    | with_reducible refine ResP.ite (fun _ => ?_) (fun _ => ?_)
    | with_reducible apply ResP.seq
    | with_reducible apply ResP.jump
    | with_reducible apply ResP.bad
    | exact ResP.illegal
    | exact ResP.window
    | exact ResP.wait
    | with_reducible refine List.foldl_keeps ?_ (fun s x h => ?_)
    | with_reducible refine List.foldl_fst_keeps ?_ (fun s x h => ?_)
    | with_reducible refine List.foldl_snd_keeps ?_ (fun s x h => ?_)
    | intro s x h
    | simp only [Stable.mk_iff hP]
    | split
    | dsimp only

theorem State.dmaWindow_keeps (hP : Stable P) {s : State} {c : ℕ} {ch : ℕ} {i : ℕ} {e : DmaEnt} {addr : ℕ} (h : P s) :
    P (State.dmaWindow s c ch i e addr) := by
  unfold State.dmaWindow
  repeat' first
    | with_reducible assumption
    | with_reducible apply State.emit_keeps hP
    | with_reducible apply State.haltFlight_keeps hP
    | with_reducible apply State.updEnt_keeps hP
    | with_reducible apply State.contain_keeps hP
    | with_reducible refine ite_keeps (fun _ => ?_) (fun _ => ?_)
    | with_reducible refine fst_ite_keeps (fun _ => ?_) (fun _ => ?_)
    | with_reducible refine snd_ite_keeps (fun _ => ?_) (fun _ => ?_)
    | with_reducible refine List.foldl_keeps ?_ (fun s x h => ?_)
    | with_reducible refine List.foldl_fst_keeps ?_ (fun s x h => ?_)
    | with_reducible refine List.foldl_snd_keeps ?_ (fun s x h => ?_)
    | intro s x h
    | simp only [Stable.mk_iff hP]
    | split
    | dsimp only

theorem State.dmaIllegal_keeps (hP : Stable P) {s : State} {c : ℕ} {ch : ℕ} {i : ℕ} {e : DmaEnt} (h : P s) :
    P (State.dmaIllegal s c ch i e) := by
  unfold State.dmaIllegal
  repeat' first
    | with_reducible assumption
    | with_reducible apply State.emit_keeps hP
    | with_reducible apply State.haltFlight_keeps hP
    | with_reducible apply State.updEnt_keeps hP
    | with_reducible apply State.contain_keeps hP
    | with_reducible refine ite_keeps (fun _ => ?_) (fun _ => ?_)
    | with_reducible refine fst_ite_keeps (fun _ => ?_) (fun _ => ?_)
    | with_reducible refine snd_ite_keeps (fun _ => ?_) (fun _ => ?_)
    | with_reducible refine List.foldl_keeps ?_ (fun s x h => ?_)
    | with_reducible refine List.foldl_fst_keeps ?_ (fun s x h => ?_)
    | with_reducible refine List.foldl_snd_keeps ?_ (fun s x h => ?_)
    | intro s x h
    | simp only [Stable.mk_iff hP]
    | split
    | dsimp only

theorem State.dmaRefused_keeps (hP : Stable P) {s : State} {c : ℕ} {ch : ℕ} {i : ℕ} {e : DmaEnt} {status : ℕ} (h : P s) :
    P (State.dmaRefused s c ch i e status) := by
  unfold State.dmaRefused
  repeat' first
    | with_reducible assumption
    | with_reducible apply State.contain_keeps hP
    | with_reducible apply State.updEnt_keeps hP
    | with_reducible refine ite_keeps (fun _ => ?_) (fun _ => ?_)
    | with_reducible refine fst_ite_keeps (fun _ => ?_) (fun _ => ?_)
    | with_reducible refine snd_ite_keeps (fun _ => ?_) (fun _ => ?_)
    | with_reducible refine List.foldl_keeps ?_ (fun s x h => ?_)
    | with_reducible refine List.foldl_fst_keeps ?_ (fun s x h => ?_)
    | with_reducible refine List.foldl_snd_keeps ?_ (fun s x h => ?_)
    | intro s x h
    | simp only [Stable.mk_iff hP]
    | split
    | dsimp only

theorem State.dmaFailed_keeps (hP : Stable P) {s : State} {c : ℕ} {ch : ℕ} {i : ℕ} {e : DmaEnt} {x : Acc} (h : P s) :
    P (State.dmaFailed s c ch i e x) := by
  unfold State.dmaFailed
  repeat' first
    | with_reducible assumption
    | with_reducible apply State.updEnt_keeps hP
    | with_reducible apply State.contain_keeps hP
    | with_reducible refine ite_keeps (fun _ => ?_) (fun _ => ?_)
    | with_reducible refine fst_ite_keeps (fun _ => ?_) (fun _ => ?_)
    | with_reducible refine snd_ite_keeps (fun _ => ?_) (fun _ => ?_)
    | with_reducible refine List.foldl_keeps ?_ (fun s x h => ?_)
    | with_reducible refine List.foldl_fst_keeps ?_ (fun s x h => ?_)
    | with_reducible refine List.foldl_snd_keeps ?_ (fun s x h => ?_)
    | intro s x h
    | simp only [Stable.mk_iff hP]
    | split
    | dsimp only

theorem State.devRead_keeps (hP : Stable P) {s : State} {a : ℕ} {n : ℕ} {part : ℕ} {ctx : ℕ} {e : Ecc} (h : P s) :
    P (State.devRead s a n part ctx e).1 := by
  unfold State.devRead
  repeat' first
    | with_reducible assumption
    | with_reducible apply State.stkRead_keeps hP
    | with_reducible apply State.scrMeets_keeps hP
    | with_reducible apply State.wordUnc_keeps hP
    | with_reducible refine ite_keeps (fun _ => ?_) (fun _ => ?_)
    | with_reducible refine fst_ite_keeps (fun _ => ?_) (fun _ => ?_)
    | with_reducible refine snd_ite_keeps (fun _ => ?_) (fun _ => ?_)
    | with_reducible refine List.foldl_keeps ?_ (fun s x h => ?_)
    | with_reducible refine List.foldl_fst_keeps ?_ (fun s x h => ?_)
    | with_reducible refine List.foldl_snd_keeps ?_ (fun s x h => ?_)
    | intro s x h
    | simp only [Stable.mk_iff hP]
    | split
    | dsimp only

theorem State.devWrite_keeps (hP : Lasting P) {s : State} {a : ℕ} {data : List Byte} {part : ℕ} {ctx : ℕ} {e : Ecc} (h : P s) :
    P (State.devWrite s a data part ctx e).1 := by
  unfold State.devWrite
  repeat' first
    | with_reducible assumption
    | with_reducible apply State.stkWrite_keeps hP
    | with_reducible apply State.mirrorData_keeps hP.stable
    | with_reducible apply State.setCore_keeps hP.stable
    | with_reducible refine ite_keeps (fun _ => ?_) (fun _ => ?_)
    | with_reducible refine fst_ite_keeps (fun _ => ?_) (fun _ => ?_)
    | with_reducible refine snd_ite_keeps (fun _ => ?_) (fun _ => ?_)
    | with_reducible refine List.foldl_keeps ?_ (fun s x h => ?_)
    | with_reducible refine List.foldl_fst_keeps ?_ (fun s x h => ?_)
    | with_reducible refine List.foldl_snd_keeps ?_ (fun s x h => ?_)
    | intro s x h
    | simp only [Stable.mk_iff hP.stable]
    | split
    | dsimp only

theorem State.hostPut_keeps (hP : Lasting P) {s : State} {a : ℕ} {data : List Byte} {part : ℕ} {ctx : ℕ} (h : P s) :
    P (State.hostPut s a data part ctx) := by
  unfold State.hostPut
  repeat' first
    | with_reducible assumption
    | with_reducible apply State.charge_keeps hP.stable
    | with_reducible apply State.hostFor_keeps hP
    | with_reducible refine ite_keeps (fun _ => ?_) (fun _ => ?_)
    | with_reducible refine fst_ite_keeps (fun _ => ?_) (fun _ => ?_)
    | with_reducible refine snd_ite_keeps (fun _ => ?_) (fun _ => ?_)
    | with_reducible refine List.foldl_keeps ?_ (fun s x h => ?_)
    | with_reducible refine List.foldl_fst_keeps ?_ (fun s x h => ?_)
    | with_reducible refine List.foldl_snd_keeps ?_ (fun s x h => ?_)
    | intro s x h
    | simp only [Stable.mk_iff hP.stable]
    | split
    | dsimp only

theorem State.landRow_keeps (hP : Lasting P) {s : State} {e : DmaEnt} {d : BitVec 512} {dst : Option Region} {r : ℕ} {data : List Byte} {ecc : Ecc} (h : P s) :
    P (State.landRow s e d dst r data ecc).1 := by
  unfold State.landRow
  repeat' first
    | with_reducible assumption
    | with_reducible apply State.setCore_keeps hP.stable
    | with_reducible apply State.devWrite_keeps hP
    | with_reducible apply State.hostPut_keeps hP
    | with_reducible refine ite_keeps (fun _ => ?_) (fun _ => ?_)
    | with_reducible refine fst_ite_keeps (fun _ => ?_) (fun _ => ?_)
    | with_reducible refine snd_ite_keeps (fun _ => ?_) (fun _ => ?_)
    | with_reducible refine List.foldl_keeps ?_ (fun s x h => ?_)
    | with_reducible refine List.foldl_fst_keeps ?_ (fun s x h => ?_)
    | with_reducible refine List.foldl_snd_keeps ?_ (fun s x h => ?_)
    | intro s x h
    | simp only [Stable.mk_iff hP.stable]
    | split
    | dsimp only

theorem State.landSides_keeps (hP : Stable P) {s : State} {c : ℕ} {b : ℕ} {e : DmaEnt} {d : BitVec 512} {ecc : Ecc} {a6 : List ℕ} (h : P s) :
    P (State.landSides s c b e d ecc a6).1 := by
  induction a6 generalizing s c b e d ecc with
  | nil =>
    unfold State.landSides
    repeat' first
      | with_reducible assumption
      | with_reducible apply State.devRead_keeps hP
      | with_reducible apply State.setCore_keeps hP
      | with_reducible refine ite_keeps (fun _ => ?_) (fun _ => ?_)
      | with_reducible refine fst_ite_keeps (fun _ => ?_) (fun _ => ?_)
      | with_reducible refine snd_ite_keeps (fun _ => ?_) (fun _ => ?_)
      | with_reducible refine List.foldl_keeps ?_ (fun s x h => ?_)
      | with_reducible refine List.foldl_fst_keeps ?_ (fun s x h => ?_)
      | with_reducible refine List.foldl_snd_keeps ?_ (fun s x h => ?_)
      | intro s x h
      | simp only [Stable.mk_iff hP]
      | split
      | dsimp only
  | cons x xs ih =>
    unfold State.landSides
    repeat' first
      | with_reducible assumption
      | with_reducible apply ih
      | with_reducible apply State.devRead_keeps hP
      | with_reducible apply State.setCore_keeps hP
      | with_reducible refine ite_keeps (fun _ => ?_) (fun _ => ?_)
      | with_reducible refine fst_ite_keeps (fun _ => ?_) (fun _ => ?_)
      | with_reducible refine snd_ite_keeps (fun _ => ?_) (fun _ => ?_)
      | with_reducible refine List.foldl_keeps ?_ (fun s x h => ?_)
      | with_reducible refine List.foldl_fst_keeps ?_ (fun s x h => ?_)
      | with_reducible refine List.foldl_snd_keeps ?_ (fun s x h => ?_)
      | intro s x h
      | simp only [Stable.mk_iff hP]
      | split
      | dsimp only

theorem State.moveRows_keeps (hP : Lasting P) {s : State} {c : ℕ} {ch : ℕ} {i : ℕ} {e : DmaEnt} {d : BitVec 512} {src : Option Region} {dst : Option Region} {ecc : Ecc} {a9 : List ℕ} (h : P s) :
    P (State.moveRows s c ch i e d src dst ecc a9).1 := by
  induction a9 generalizing s c ch i e d src dst ecc with
  | nil =>
    unfold State.moveRows
    repeat' first
      | with_reducible assumption
      | with_reducible apply State.devRead_keeps hP.stable
      | with_reducible apply State.landRow_keeps hP
      | with_reducible apply State.updEnt_keeps hP.stable
      | with_reducible refine ite_keeps (fun _ => ?_) (fun _ => ?_)
      | with_reducible refine fst_ite_keeps (fun _ => ?_) (fun _ => ?_)
      | with_reducible refine snd_ite_keeps (fun _ => ?_) (fun _ => ?_)
      | with_reducible refine List.foldl_keeps ?_ (fun s x h => ?_)
      | with_reducible refine List.foldl_fst_keeps ?_ (fun s x h => ?_)
      | with_reducible refine List.foldl_snd_keeps ?_ (fun s x h => ?_)
      | intro s x h
      | simp only [Stable.mk_iff hP.stable]
      | split
      | dsimp only
  | cons x xs ih =>
    unfold State.moveRows
    repeat' first
      | with_reducible assumption
      | with_reducible apply ih
      | with_reducible apply State.devRead_keeps hP.stable
      | with_reducible apply State.landRow_keeps hP
      | with_reducible apply State.updEnt_keeps hP.stable
      | with_reducible refine ite_keeps (fun _ => ?_) (fun _ => ?_)
      | with_reducible refine fst_ite_keeps (fun _ => ?_) (fun _ => ?_)
      | with_reducible refine snd_ite_keeps (fun _ => ?_) (fun _ => ?_)
      | with_reducible refine List.foldl_keeps ?_ (fun s x h => ?_)
      | with_reducible refine List.foldl_fst_keeps ?_ (fun s x h => ?_)
      | with_reducible refine List.foldl_snd_keeps ?_ (fun s x h => ?_)
      | intro s x h
      | simp only [Stable.mk_iff hP.stable]
      | split
      | dsimp only

theorem State.copyRows_keeps (hP : Lasting P) {s : State} {c : ℕ} {ch : ℕ} {kind : ℕ} {i : ℕ} {e : DmaEnt} {d : BitVec 512} {src : Option Region} {dst : Option Region} {ecc : Ecc} (h : P s) :
    P (State.copyRows s c ch kind i e d src dst ecc).1 := by
  unfold State.copyRows
  repeat' first
    | with_reducible assumption
    | with_reducible apply State.landSides_keeps hP.stable
    | with_reducible apply State.setCore_keeps hP.stable
    | with_reducible apply State.devRead_keeps hP.stable
    | with_reducible apply State.moveRows_keeps hP
    | with_reducible refine ite_keeps (fun _ => ?_) (fun _ => ?_)
    | with_reducible refine fst_ite_keeps (fun _ => ?_) (fun _ => ?_)
    | with_reducible refine snd_ite_keeps (fun _ => ?_) (fun _ => ?_)
    | with_reducible refine List.foldl_keeps ?_ (fun s x h => ?_)
    | with_reducible refine List.foldl_fst_keeps ?_ (fun s x h => ?_)
    | with_reducible refine List.foldl_snd_keeps ?_ (fun s x h => ?_)
    | intro s x h
    | simp only [Stable.mk_iff hP.stable]
    | split
    | dsimp only

theorem State.runCopy_keeps (hP : Lasting P) {s : State} {c : ℕ} {ch : ℕ} {kind : ℕ} {ecc : Ecc} (h : P s) :
    P (State.runCopy s c ch kind ecc) := by
  unfold State.runCopy
  repeat' first
    | with_reducible assumption
    | with_reducible apply State.dmaWindow_keeps hP.stable
    | with_reducible apply State.dmaIllegal_keeps hP.stable
    | with_reducible apply State.copyRows_keeps hP
    | with_reducible apply State.settleChan_keeps hP.stable
    | with_reducible apply State.updEnt_keeps hP.stable
    | with_reducible apply State.waitsAt_keeps hP.stable
    | with_reducible apply State.dmaFailed_keeps hP.stable
    | with_reducible refine ite_keeps (fun _ => ?_) (fun _ => ?_)
    | with_reducible refine fst_ite_keeps (fun _ => ?_) (fun _ => ?_)
    | with_reducible refine snd_ite_keeps (fun _ => ?_) (fun _ => ?_)
    | with_reducible refine List.foldl_keeps ?_ (fun s x h => ?_)
    | with_reducible refine List.foldl_fst_keeps ?_ (fun s x h => ?_)
    | with_reducible refine List.foldl_snd_keeps ?_ (fun s x h => ?_)
    | intro s x h
    | simp only [Stable.mk_iff hP.stable]
    | split
    | dsimp only

theorem execDmaCopy_keeps (hP : Lasting P) {c : CoreId} {ch : ChanId} {err : PhysErr} {s : State} (h : P s) :
    OutP P (execDmaCopy c ch err s) := by
  unfold execDmaCopy
  repeat' first
    | with_reducible assumption
    | with_reducible apply State.runCopy_keeps hP
    | with_reducible refine ite_keeps (fun _ => ?_) (fun _ => ?_)
    | with_reducible apply OutP.next
    | with_reducible refine OutP.ite (fun _ => ?_) (fun _ => ?_)
    | with_reducible refine fst_ite_keeps (fun _ => ?_) (fun _ => ?_)
    | with_reducible refine snd_ite_keeps (fun _ => ?_) (fun _ => ?_)
    | with_reducible refine List.foldl_keeps ?_ (fun s x h => ?_)
    | with_reducible refine List.foldl_fst_keeps ?_ (fun s x h => ?_)
    | with_reducible refine List.foldl_snd_keeps ?_ (fun s x h => ?_)
    | intro s x h
    | simp only [Stable.mk_iff hP.stable]
    | split
    | dsimp only

theorem execMovingLayout_keeps (hP : Lasting P) {c : CoreId} {ch : ChanId} {err : PhysErr} {s : State} (h : P s) :
    OutP P (execMovingLayout c ch err s) := by
  unfold execMovingLayout
  repeat' first
    | with_reducible assumption
    | with_reducible apply State.runCopy_keeps hP
    | with_reducible refine ite_keeps (fun _ => ?_) (fun _ => ?_)
    | with_reducible apply OutP.next
    | with_reducible refine OutP.ite (fun _ => ?_) (fun _ => ?_)
    | with_reducible refine fst_ite_keeps (fun _ => ?_) (fun _ => ?_)
    | with_reducible refine snd_ite_keeps (fun _ => ?_) (fun _ => ?_)
    | with_reducible refine List.foldl_keeps ?_ (fun s x h => ?_)
    | with_reducible refine List.foldl_fst_keeps ?_ (fun s x h => ?_)
    | with_reducible refine List.foldl_snd_keeps ?_ (fun s x h => ?_)
    | intro s x h
    | simp only [Stable.mk_iff hP.stable]
    | split
    | dsimp only

theorem execStationaryLayout_keeps (hP : Lasting P) {c : CoreId} {ch : ChanId} {err : PhysErr} {s : State} (h : P s) :
    OutP P (execStationaryLayout c ch err s) := by
  unfold execStationaryLayout
  repeat' first
    | with_reducible assumption
    | with_reducible apply State.runCopy_keeps hP
    | with_reducible refine ite_keeps (fun _ => ?_) (fun _ => ?_)
    | with_reducible apply OutP.next
    | with_reducible refine OutP.ite (fun _ => ?_) (fun _ => ?_)
    | with_reducible refine fst_ite_keeps (fun _ => ?_) (fun _ => ?_)
    | with_reducible refine snd_ite_keeps (fun _ => ?_) (fun _ => ?_)
    | with_reducible refine List.foldl_keeps ?_ (fun s x h => ?_)
    | with_reducible refine List.foldl_fst_keeps ?_ (fun s x h => ?_)
    | with_reducible refine List.foldl_snd_keeps ?_ (fun s x h => ?_)
    | intro s x h
    | simp only [Stable.mk_iff hP.stable]
    | split
    | dsimp only

theorem execDmaGather_keeps (hP : Lasting P) {c : CoreId} {ch : ChanId} {err : PhysErr} {s : State} (h : P s) :
    OutP P (execDmaGather c ch err s) := by
  unfold execDmaGather
  repeat' first
    | with_reducible assumption
    | with_reducible apply State.runCopy_keeps hP
    | with_reducible refine ite_keeps (fun _ => ?_) (fun _ => ?_)
    | with_reducible apply OutP.next
    | with_reducible refine OutP.ite (fun _ => ?_) (fun _ => ?_)
    | with_reducible refine fst_ite_keeps (fun _ => ?_) (fun _ => ?_)
    | with_reducible refine snd_ite_keeps (fun _ => ?_) (fun _ => ?_)
    | with_reducible refine List.foldl_keeps ?_ (fun s x h => ?_)
    | with_reducible refine List.foldl_fst_keeps ?_ (fun s x h => ?_)
    | with_reducible refine List.foldl_snd_keeps ?_ (fun s x h => ?_)
    | intro s x h
    | simp only [Stable.mk_iff hP.stable]
    | split
    | dsimp only

theorem execDmaConfirmation_keeps (hP : Stable P) {c : CoreId} {ch : ChanId} {s : State} (h : P s) : OutP P (execDmaConfirmation c ch s) := by
  unfold execDmaConfirmation
  repeat' first
    | with_reducible assumption
    | with_reducible apply State.perf_keeps hP
    | with_reducible apply State.setCore_keeps hP
    | with_reducible refine ite_keeps (fun _ => ?_) (fun _ => ?_)
    | with_reducible apply OutP.next
    | with_reducible refine OutP.ite (fun _ => ?_) (fun _ => ?_)
    | with_reducible refine fst_ite_keeps (fun _ => ?_) (fun _ => ?_)
    | with_reducible refine snd_ite_keeps (fun _ => ?_) (fun _ => ?_)
    | with_reducible refine List.foldl_keeps ?_ (fun s x h => ?_)
    | with_reducible refine List.foldl_fst_keeps ?_ (fun s x h => ?_)
    | with_reducible refine List.foldl_snd_keeps ?_ (fun s x h => ?_)
    | intro s x h
    | simp only [Stable.mk_iff hP]
    | split
    | dsimp only

theorem State.sendRow_keeps (hP : Stable P) {s : State} {c : ℕ} {ch : ℕ} {i : ℕ} {e : DmaEnt} {d : BitVec 512} {r : ℕ} {data : List Byte} (h : P s) :
    P (State.sendRow s c ch i e d r data) := by
  unfold State.sendRow
  repeat' first
    | with_reducible assumption
    | with_reducible apply State.dmaWindow_keeps hP
    | with_reducible apply State.charge_keeps hP
    | with_reducible apply State.updEnt_keeps hP
    | with_reducible apply State.pumpSends_keeps hP
    | with_reducible apply State.updCtx_keeps hP
    | with_reducible refine ite_keeps (fun _ => ?_) (fun _ => ?_)
    | with_reducible refine fst_ite_keeps (fun _ => ?_) (fun _ => ?_)
    | with_reducible refine snd_ite_keeps (fun _ => ?_) (fun _ => ?_)
    | with_reducible refine List.foldl_keeps ?_ (fun s x h => ?_)
    | with_reducible refine List.foldl_fst_keeps ?_ (fun s x h => ?_)
    | with_reducible refine List.foldl_snd_keeps ?_ (fun s x h => ?_)
    | intro s x h
    | simp only [Stable.mk_iff hP]
    | split
    | dsimp only

theorem State.remoteRows_keeps (hP : Stable P) {s : State} {c : ℕ} {ch : ℕ} {i : ℕ} {e : DmaEnt} {d : BitVec 512} {src : Option Region} {ecc : Ecc} {a8 : List ℕ} (h : P s) :
    P (State.remoteRows s c ch i e d src ecc a8).1 := by
  induction a8 generalizing s c ch i e d src ecc with
  | nil =>
    unfold State.remoteRows
    repeat' first
      | with_reducible assumption
      | with_reducible apply State.devRead_keeps hP
      | with_reducible apply State.sendRow_keeps hP
      | with_reducible apply State.updEnt_keeps hP
      | with_reducible refine ite_keeps (fun _ => ?_) (fun _ => ?_)
      | with_reducible refine fst_ite_keeps (fun _ => ?_) (fun _ => ?_)
      | with_reducible refine snd_ite_keeps (fun _ => ?_) (fun _ => ?_)
      | with_reducible refine List.foldl_keeps ?_ (fun s x h => ?_)
      | with_reducible refine List.foldl_fst_keeps ?_ (fun s x h => ?_)
      | with_reducible refine List.foldl_snd_keeps ?_ (fun s x h => ?_)
      | intro s x h
      | simp only [Stable.mk_iff hP]
      | split
      | dsimp only
  | cons x xs ih =>
    unfold State.remoteRows
    repeat' first
      | with_reducible assumption
      | with_reducible apply ih
      | with_reducible apply State.devRead_keeps hP
      | with_reducible apply State.sendRow_keeps hP
      | with_reducible apply State.updEnt_keeps hP
      | with_reducible refine ite_keeps (fun _ => ?_) (fun _ => ?_)
      | with_reducible refine fst_ite_keeps (fun _ => ?_) (fun _ => ?_)
      | with_reducible refine snd_ite_keeps (fun _ => ?_) (fun _ => ?_)
      | with_reducible refine List.foldl_keeps ?_ (fun s x h => ?_)
      | with_reducible refine List.foldl_fst_keeps ?_ (fun s x h => ?_)
      | with_reducible refine List.foldl_snd_keeps ?_ (fun s x h => ?_)
      | intro s x h
      | simp only [Stable.mk_iff hP]
      | split
      | dsimp only

theorem execRemote_keeps (hP : Stable P) {c : CoreId} {ch : ChanId} {err : PhysErr} {s : State} (h : P s) :
    OutP P (execRemote c ch err s) := by
  unfold execRemote
  repeat' first
    | with_reducible assumption
    | with_reducible apply State.dmaWindow_keeps hP
    | with_reducible apply State.remoteRows_keeps hP
    | with_reducible apply State.settleChan_keeps hP
    | with_reducible apply State.updEnt_keeps hP
    | with_reducible apply State.waitsAt_keeps hP
    | with_reducible apply State.dmaFailed_keeps hP
    | with_reducible refine ite_keeps (fun _ => ?_) (fun _ => ?_)
    | with_reducible apply OutP.next
    | with_reducible refine OutP.ite (fun _ => ?_) (fun _ => ?_)
    | with_reducible refine fst_ite_keeps (fun _ => ?_) (fun _ => ?_)
    | with_reducible refine snd_ite_keeps (fun _ => ?_) (fun _ => ?_)
    | with_reducible refine List.foldl_keeps ?_ (fun s x h => ?_)
    | with_reducible refine List.foldl_fst_keeps ?_ (fun s x h => ?_)
    | with_reducible refine List.foldl_snd_keeps ?_ (fun s x h => ?_)
    | intro s x h
    | simp only [Stable.mk_iff hP]
    | split
    | dsimp only

theorem State.rowCame_keeps (hP : Stable P) {s : State} {c : ℕ} {ch : ℕ} {i : ℕ} {n : ℕ} (h : P s) : P (State.rowCame s c ch i n) := by
  unfold State.rowCame
  repeat' first
    | with_reducible assumption
    | with_reducible apply State.settleChan_keeps hP
    | with_reducible apply State.updEnt_keeps hP
    | with_reducible refine ite_keeps (fun _ => ?_) (fun _ => ?_)
    | with_reducible refine fst_ite_keeps (fun _ => ?_) (fun _ => ?_)
    | with_reducible refine snd_ite_keeps (fun _ => ?_) (fun _ => ?_)
    | with_reducible refine List.foldl_keeps ?_ (fun s x h => ?_)
    | with_reducible refine List.foldl_fst_keeps ?_ (fun s x h => ?_)
    | with_reducible refine List.foldl_snd_keeps ?_ (fun s x h => ?_)
    | intro s x h
    | simp only [Stable.mk_iff hP]
    | split
    | dsimp only

theorem execPcieReadCompletion_keeps (hP : Lasting P) {tag : ℕ} {data : Met (List Byte)} {s : State} (h : P s) :
    OutP P (execPcieReadCompletion tag data s) := by
  unfold execPcieReadCompletion
  repeat' first
    | with_reducible assumption
    | with_reducible apply State.staleDrop_keeps hP.stable
    | with_reducible apply State.charge_keeps hP.stable
    | with_reducible apply State.rowCame_keeps hP.stable
    | with_reducible apply State.sendRow_keeps hP.stable
    | with_reducible apply State.landRow_keeps hP
    | with_reducible apply State.waitsAt_keeps hP.stable
    | with_reducible apply State.dmaFailed_keeps hP.stable
    | with_reducible refine ite_keeps (fun _ => ?_) (fun _ => ?_)
    | with_reducible apply OutP.next
    | with_reducible refine OutP.ite (fun _ => ?_) (fun _ => ?_)
    | with_reducible refine fst_ite_keeps (fun _ => ?_) (fun _ => ?_)
    | with_reducible refine snd_ite_keeps (fun _ => ?_) (fun _ => ?_)
    | with_reducible refine List.foldl_keeps ?_ (fun s x h => ?_)
    | with_reducible refine List.foldl_fst_keeps ?_ (fun s x h => ?_)
    | with_reducible refine List.foldl_snd_keeps ?_ (fun s x h => ?_)
    | intro s x h
    | simp only [Stable.mk_iff hP.stable]
    | split
    | dsimp only

end Sys2Proof.Machine
end

