-- ==== Sys2Proof/Laws/KeepStack.lean ====
section
/-! SUPPORT. What the definitions of Machine/Stack.lean keep. -/

set_option linter.unusedTactic false
set_option linter.unreachableTactic false

namespace Sys2Proof.Machine

variable {P : State → Prop}

theorem State.stkWindowFault_keeps (hP : Stable P) {s : State} {st : ℕ} {off : ℕ} {rq : Req} (h : P s) :
    P (State.stkWindowFault s st off rq) := by
  unfold State.stkWindowFault
  repeat' first
    | with_reducible assumption
    | with_reducible apply State.contain_keeps hP
    | with_reducible apply State.emit_keeps hP
    | with_reducible refine ite_keeps (fun _ => ?_) (fun _ => ?_)
    | with_reducible refine fst_ite_keeps (fun _ => ?_) (fun _ => ?_)
    | with_reducible refine snd_ite_keeps (fun _ => ?_) (fun _ => ?_)
    | with_reducible refine List.foldl_keeps ?_ (fun s x h => ?_)
    | with_reducible refine List.foldl_fst_keeps ?_ (fun s x h => ?_)
    | with_reducible refine List.foldl_snd_keeps ?_ (fun s x h => ?_)
    | intro s x h
    | simp only [Stable.mk_iff hP]
    | split
    | dsimp only

theorem State.putLine_keeps (hP : Stable P) {s : State} {st : ℕ} {line : List Byte} (h : P s) : P (State.putLine s st line) := by
  unfold State.putLine
  repeat' first
    | with_reducible assumption
    | with_reducible apply State.setStk_keeps hP
    | with_reducible refine ite_keeps (fun _ => ?_) (fun _ => ?_)
    | with_reducible refine fst_ite_keeps (fun _ => ?_) (fun _ => ?_)
    | with_reducible refine snd_ite_keeps (fun _ => ?_) (fun _ => ?_)
    | with_reducible refine List.foldl_keeps ?_ (fun s x h => ?_)
    | with_reducible refine List.foldl_fst_keeps ?_ (fun s x h => ?_)
    | with_reducible refine List.foldl_snd_keeps ?_ (fun s x h => ?_)
    | intro s x h
    | simp only [Stable.mk_iff hP]
    | split
    | dsimp only

theorem State.lineAccess_keeps (hP : Lasting P) {s : State} {st : ℕ} {h' : HallReq} (h : P s) : P (State.lineAccess s st h').1 := by
  obtain ⟨off, data, rq, e⟩ := h'
  cases data with
  | none => exact State.stkRead_keeps hP.stable h
  | some d => exact State.stkWrite_keeps hP h

theorem State.lineAnswer_keeps (hP : Stable P) {st : ℕ} {h' : HallReq} {r : State × Acc} (h : P r.1) :
    OptP P (State.lineAnswer st h' r) := by
  unfold State.lineAnswer
  split
  · exact OptP.some (ite_keeps (fun _ => h) fun _ => State.putLine_keeps hP h)
  · trivial
  · exact OptP.some (State.contain_keeps hP h)

theorem State.lineRequest_keeps (hP : Lasting P) {s : State} {st : ℕ} {h' : HallReq} (h : P s) :
    OptP P (State.lineRequest s st h') := by
  have h1 : P (s.lineAccess st h').1 := State.lineAccess_keeps hP h
  unfold State.lineRequest
  dsimp only
  split
  · exact OptP.some h
  · exact OptP.some (State.staleDrop_keeps hP.stable h)
  · exact OptP.some (State.stkWindowFault_keeps hP.stable h)
  · exact State.lineAnswer_keeps hP.stable h1

theorem State.lineArrives_keeps (hP : Lasting P) {s : State} {st : ℕ} {h' : HallReq} (h : P s) : P (State.lineArrives s st h') := by
  have hh : P ((s.creditStall st).setStk st { (s.creditStall st).stk st with hall := ((s.creditStall st).stk st).hall ++ [h'] }) :=
    State.setStk_keeps hP.stable (State.creditStall_keeps hP.stable h)
  unfold State.lineArrives
  dsimp only
  refine ite_keeps (fun _ => hh) fun _ => ?_
  have hl := State.lineRequest_keeps (st := st) (h' := h') hP h
  revert hl
  generalize State.lineRequest s st h' = o
  intro hl
  cases o
  · exact hh
  · exact hl

theorem State.serveHall_keeps (hP : Lasting P) {st : ℕ} {s : State} {a2 : List HallReq} (h : P s) : P (State.serveHall st s a2) := by
  induction a2 generalizing st s with
  | nil =>
    unfold State.serveHall
    repeat' first
      | with_reducible assumption
      | with_reducible apply State.setStk_keeps hP.stable
      | refine OptP.get ‹State.lineRequest _ _ _ = some _› (State.lineRequest_keeps hP ?_)
      | with_reducible refine OptP.getD (State.lineRequest_keeps hP ?_) ?_
      | with_reducible refine ite_keeps (fun _ => ?_) (fun _ => ?_)
      | with_reducible refine fst_ite_keeps (fun _ => ?_) (fun _ => ?_)
      | with_reducible refine snd_ite_keeps (fun _ => ?_) (fun _ => ?_)
      | with_reducible refine List.foldl_keeps ?_ (fun s x h => ?_)
      | with_reducible refine List.foldl_fst_keeps ?_ (fun s x h => ?_)
      | with_reducible refine List.foldl_snd_keeps ?_ (fun s x h => ?_)
      | intro s x h
      | simp only [Stable.mk_iff hP.stable]
      | split
      | dsimp only
  | cons x xs ih =>
    unfold State.serveHall
    repeat' first
      | with_reducible assumption
      | with_reducible apply ih
      | with_reducible apply State.setStk_keeps hP.stable
      | refine OptP.get ‹State.lineRequest _ _ _ = some _› (State.lineRequest_keeps hP ?_)
      | with_reducible refine OptP.getD (State.lineRequest_keeps hP ?_) ?_
      | with_reducible refine ite_keeps (fun _ => ?_) (fun _ => ?_)
      | with_reducible refine fst_ite_keeps (fun _ => ?_) (fun _ => ?_)
      | with_reducible refine snd_ite_keeps (fun _ => ?_) (fun _ => ?_)
      | with_reducible refine List.foldl_keeps ?_ (fun s x h => ?_)
      | with_reducible refine List.foldl_fst_keeps ?_ (fun s x h => ?_)
      | with_reducible refine List.foldl_snd_keeps ?_ (fun s x h => ?_)
      | intro s x h
      | simp only [Stable.mk_iff hP.stable]
      | split
      | dsimp only

theorem execStackLineRead_keeps (hP : Lasting P) {st : StackId} {off : ℕ} {rq : Req} {e : PhysErr} {s : State} (h : P s) :
    OutP P (execStackLineRead st off rq e s) := State.lineArrives_keeps hP h

theorem execStackLineWrite_keeps (hP : Lasting P) {st : StackId} {off : ℕ} {data : List Byte} {rq : Req} {err : PhysErr} {s : State} (h : P s) :
    OutP P (execStackLineWrite st off data rq err s) := by
  unfold execStackLineWrite
  repeat' first
    | with_reducible assumption
    | with_reducible apply State.lineArrives_keeps hP
    | with_reducible refine ite_keeps (fun _ => ?_) (fun _ => ?_)
    | with_reducible apply OutP.next
    | with_reducible refine OutP.ite (fun _ => ?_) (fun _ => ?_)
    | with_reducible refine fst_ite_keeps (fun _ => ?_) (fun _ => ?_)
    | with_reducible refine snd_ite_keeps (fun _ => ?_) (fun _ => ?_)
    | with_reducible refine List.foldl_keeps ?_ (fun s x h => ?_)
    | with_reducible refine List.foldl_fst_keeps ?_ (fun s x h => ?_)
    | with_reducible refine List.foldl_snd_keeps ?_ (fun s x h => ?_)
    | intro s x h
    | simp only [Stable.mk_iff hP.stable]
    | split
    | dsimp only

theorem execScrub_keeps (hP : Stable P) {st : StackId} {off : ℕ} {err : PhysErr} {s : State} (h : P s) : OutP P (execScrub st off err s) := by
  unfold execScrub
  repeat' first
    | with_reducible assumption
    | with_reducible apply State.wakeLine_keeps hP
    | with_reducible apply State.creditStall_keeps hP
    | with_reducible apply State.injectEcc_keeps hP
    | with_reducible apply State.perf_keeps hP
    | with_reducible apply State.emit_keeps hP
    | with_reducible apply State.setStk_keeps hP
    | with_reducible apply State.chargePart_keeps hP
    | with_reducible apply State.lineCor_keeps hP
    | with_reducible refine ite_keeps (fun _ => ?_) (fun _ => ?_)
    | with_reducible apply OutP.next
    | with_reducible refine OutP.ite (fun _ => ?_) (fun _ => ?_)
    | with_reducible refine fst_ite_keeps (fun _ => ?_) (fun _ => ?_)
    | with_reducible refine snd_ite_keeps (fun _ => ?_) (fun _ => ?_)
    | with_reducible refine List.foldl_keeps ?_ (fun s x h => ?_)
    | with_reducible refine List.foldl_fst_keeps ?_ (fun s x h => ?_)
    | with_reducible refine List.foldl_snd_keeps ?_ (fun s x h => ?_)
    | intro s x h
    | simp only [Stable.mk_iff hP]
    | split
    | dsimp only

theorem State.setFc_keeps (hP : Stable P) {s : State} {st : ℕ} {l : List FcCmd} (h : P s) : P (State.setFc s st l) := by
  unfold State.setFc
  repeat' first
    | with_reducible assumption
    | with_reducible apply State.setStk_keeps hP
    | with_reducible refine ite_keeps (fun _ => ?_) (fun _ => ?_)
    | with_reducible refine fst_ite_keeps (fun _ => ?_) (fun _ => ?_)
    | with_reducible refine snd_ite_keeps (fun _ => ?_) (fun _ => ?_)
    | with_reducible refine List.foldl_keeps ?_ (fun s x h => ?_)
    | with_reducible refine List.foldl_fst_keeps ?_ (fun s x h => ?_)
    | with_reducible refine List.foldl_snd_keeps ?_ (fun s x h => ?_)
    | intro s x h
    | simp only [Stable.mk_iff hP]
    | split
    | dsimp only

theorem State.fcBegin_keeps (hP : Stable P) {s : State} {st : ℕ} (h : P s) : P (State.fcBegin s st) := by
  unfold State.fcBegin
  repeat' first
    | with_reducible assumption
    | with_reducible apply State.setFc_keeps hP
    | with_reducible refine ite_keeps (fun _ => ?_) (fun _ => ?_)
    | with_reducible refine fst_ite_keeps (fun _ => ?_) (fun _ => ?_)
    | with_reducible refine snd_ite_keeps (fun _ => ?_) (fun _ => ?_)
    | with_reducible refine List.foldl_keeps ?_ (fun s x h => ?_)
    | with_reducible refine List.foldl_fst_keeps ?_ (fun s x h => ?_)
    | with_reducible refine List.foldl_snd_keeps ?_ (fun s x h => ?_)
    | intro s x h
    | simp only [Stable.mk_iff hP]
    | split
    | dsimp only

theorem State.fcLeaves_keeps (hP : Stable P) {s : State} {x : FcCmd} (h : P s) : P (State.fcLeaves s x) := by
  unfold State.fcLeaves
  repeat' first
    | with_reducible assumption
    | with_reducible apply State.dieWork_keeps hP
    | with_reducible refine ite_keeps (fun _ => ?_) (fun _ => ?_)
    | with_reducible refine fst_ite_keeps (fun _ => ?_) (fun _ => ?_)
    | with_reducible refine snd_ite_keeps (fun _ => ?_) (fun _ => ?_)
    | with_reducible refine List.foldl_keeps ?_ (fun s x h => ?_)
    | with_reducible refine List.foldl_fst_keeps ?_ (fun s x h => ?_)
    | with_reducible refine List.foldl_snd_keeps ?_ (fun s x h => ?_)
    | intro s x h
    | simp only [Stable.mk_iff hP]
    | split
    | dsimp only

theorem State.fcAnswer_keeps (hP : Stable P) {s : State} {st : ℕ} {d : FcDone} (h : P s) : P (State.fcAnswer s st d) := by
  unfold State.fcAnswer
  repeat' first
    | with_reducible assumption
    | with_reducible apply State.setStk_keeps hP
    | with_reducible refine ite_keeps (fun _ => ?_) (fun _ => ?_)
    | with_reducible refine fst_ite_keeps (fun _ => ?_) (fun _ => ?_)
    | with_reducible refine snd_ite_keeps (fun _ => ?_) (fun _ => ?_)
    | with_reducible refine List.foldl_keeps ?_ (fun s x h => ?_)
    | with_reducible refine List.foldl_fst_keeps ?_ (fun s x h => ?_)
    | with_reducible refine List.foldl_snd_keeps ?_ (fun s x h => ?_)
    | intro s x h
    | simp only [Stable.mk_iff hP]
    | split
    | dsimp only

theorem State.fcSubmit_keeps (hP : Stable P) {s : State} {st : ℕ} {c : BitVec 256} {jormir : Bool} (h : P s) :
    P (State.fcSubmit s st c jormir) := by
  unfold State.fcSubmit
  repeat' first
    | with_reducible assumption
    | with_reducible apply State.fcAnswer_keeps hP
    | with_reducible apply State.setFc_keeps hP
    | with_reducible apply State.dieWork_keeps hP
    | with_reducible refine ite_keeps (fun _ => ?_) (fun _ => ?_)
    | with_reducible refine fst_ite_keeps (fun _ => ?_) (fun _ => ?_)
    | with_reducible refine snd_ite_keeps (fun _ => ?_) (fun _ => ?_)
    | with_reducible refine List.foldl_keeps ?_ (fun s x h => ?_)
    | with_reducible refine List.foldl_fst_keeps ?_ (fun s x h => ?_)
    | with_reducible refine List.foldl_snd_keeps ?_ (fun s x h => ?_)
    | intro s x h
    | simp only [Stable.mk_iff hP]
    | split
    | dsimp only

theorem execFcFill_keeps (hP : Stable P) {st : StackId} {cmd : BitVec 256} {fromJormir : Bool} {s : State} (h : P s) :
    OutP P (execFcFill st cmd fromJormir s) := by
  unfold execFcFill
  repeat' first
    | with_reducible assumption
    | with_reducible apply State.fcSubmit_keeps hP
    | with_reducible refine ite_keeps (fun _ => ?_) (fun _ => ?_)
    | with_reducible apply OutP.next
    | with_reducible refine OutP.ite (fun _ => ?_) (fun _ => ?_)
    | with_reducible refine fst_ite_keeps (fun _ => ?_) (fun _ => ?_)
    | with_reducible refine snd_ite_keeps (fun _ => ?_) (fun _ => ?_)
    | with_reducible refine List.foldl_keeps ?_ (fun s x h => ?_)
    | with_reducible refine List.foldl_fst_keeps ?_ (fun s x h => ?_)
    | with_reducible refine List.foldl_snd_keeps ?_ (fun s x h => ?_)
    | intro s x h
    | simp only [Stable.mk_iff hP]
    | split
    | dsimp only

theorem execFcCopy_keeps (hP : Stable P) {st : StackId} {cmd : BitVec 256} {fromJormir : Bool} {s : State} (h : P s) :
    OutP P (execFcCopy st cmd fromJormir s) := by
  unfold execFcCopy
  repeat' first
    | with_reducible assumption
    | with_reducible apply State.fcSubmit_keeps hP
    | with_reducible refine ite_keeps (fun _ => ?_) (fun _ => ?_)
    | with_reducible apply OutP.next
    | with_reducible refine OutP.ite (fun _ => ?_) (fun _ => ?_)
    | with_reducible refine fst_ite_keeps (fun _ => ?_) (fun _ => ?_)
    | with_reducible refine snd_ite_keeps (fun _ => ?_) (fun _ => ?_)
    | with_reducible refine List.foldl_keeps ?_ (fun s x h => ?_)
    | with_reducible refine List.foldl_fst_keeps ?_ (fun s x h => ?_)
    | with_reducible refine List.foldl_snd_keeps ?_ (fun s x h => ?_)
    | intro s x h
    | simp only [Stable.mk_iff hP]
    | split
    | dsimp only

theorem execMove_keeps (hP : Stable P) {st : StackId} {cmd : BitVec 256} {fromJormir : Bool} {s : State} (h : P s) :
    OutP P (execMove st cmd fromJormir s) := by
  unfold execMove
  repeat' first
    | with_reducible assumption
    | with_reducible apply State.fcSubmit_keeps hP
    | with_reducible refine ite_keeps (fun _ => ?_) (fun _ => ?_)
    | with_reducible apply OutP.next
    | with_reducible refine OutP.ite (fun _ => ?_) (fun _ => ?_)
    | with_reducible refine fst_ite_keeps (fun _ => ?_) (fun _ => ?_)
    | with_reducible refine snd_ite_keeps (fun _ => ?_) (fun _ => ?_)
    | with_reducible refine List.foldl_keeps ?_ (fun s x h => ?_)
    | with_reducible refine List.foldl_fst_keeps ?_ (fun s x h => ?_)
    | with_reducible refine List.foldl_snd_keeps ?_ (fun s x h => ?_)
    | intro s x h
    | simp only [Stable.mk_iff hP]
    | split
    | dsimp only

theorem execFcGather_keeps (hP : Stable P) {st : StackId} {cmd : BitVec 256} {fromJormir : Bool} {s : State} (h : P s) :
    OutP P (execFcGather st cmd fromJormir s) := by
  unfold execFcGather
  repeat' first
    | with_reducible assumption
    | with_reducible apply State.fcSubmit_keeps hP
    | with_reducible refine ite_keeps (fun _ => ?_) (fun _ => ?_)
    | with_reducible apply OutP.next
    | with_reducible refine OutP.ite (fun _ => ?_) (fun _ => ?_)
    | with_reducible refine fst_ite_keeps (fun _ => ?_) (fun _ => ?_)
    | with_reducible refine snd_ite_keeps (fun _ => ?_) (fun _ => ?_)
    | with_reducible refine List.foldl_keeps ?_ (fun s x h => ?_)
    | with_reducible refine List.foldl_fst_keeps ?_ (fun s x h => ?_)
    | with_reducible refine List.foldl_snd_keeps ?_ (fun s x h => ?_)
    | intro s x h
    | simp only [Stable.mk_iff hP]
    | split
    | dsimp only

theorem execVerifyZero_keeps (hP : Stable P) {st : StackId} {cmd : BitVec 256} {fromJormir : Bool} {s : State} (h : P s) :
    OutP P (execVerifyZero st cmd fromJormir s) := by
  unfold execVerifyZero
  repeat' first
    | with_reducible assumption
    | with_reducible apply State.fcSubmit_keeps hP
    | with_reducible refine ite_keeps (fun _ => ?_) (fun _ => ?_)
    | with_reducible apply OutP.next
    | with_reducible refine OutP.ite (fun _ => ?_) (fun _ => ?_)
    | with_reducible refine fst_ite_keeps (fun _ => ?_) (fun _ => ?_)
    | with_reducible refine snd_ite_keeps (fun _ => ?_) (fun _ => ?_)
    | with_reducible refine List.foldl_keeps ?_ (fun s x h => ?_)
    | with_reducible refine List.foldl_fst_keeps ?_ (fun s x h => ?_)
    | with_reducible refine List.foldl_snd_keeps ?_ (fun s x h => ?_)
    | intro s x h
    | simp only [Stable.mk_iff hP]
    | split
    | dsimp only

theorem State.fillFrames_keeps (hP : Lasting P) {s : State} {st : ℕ} {f : ℕ} {n : ℕ} {pattern : ℕ} {fill : Bool} (h : P s) :
    P (State.fillFrames s st f n pattern fill) := by
  unfold State.fillFrames
  repeat' first
    | with_reducible assumption
    | with_reducible apply State.setMem_keeps hP
    | with_reducible apply State.setStk_keeps hP.stable
    | with_reducible refine ite_keeps (fun _ => ?_) (fun _ => ?_)
    | with_reducible refine fst_ite_keeps (fun _ => ?_) (fun _ => ?_)
    | with_reducible refine snd_ite_keeps (fun _ => ?_) (fun _ => ?_)
    | with_reducible refine List.foldl_keeps ?_ (fun s x h => ?_)
    | with_reducible refine List.foldl_fst_keeps ?_ (fun s x h => ?_)
    | with_reducible refine List.foldl_snd_keeps ?_ (fun s x h => ?_)
    | intro s x h
    | exact fun hw => Memory.wf_writeN hw
    | exact fun hw => Memory.wf_writeN (wf_zeroRange hw)
    | exact fun hw => wf_zeroRange hw
    | exact fun hw => wf_copyRange hw
    | exact fun hw => Memory.wf_writeAll hw
    | simp only [Stable.mk_iff hP.stable]
    | split
    | dsimp only

theorem State.filledSoFar_keeps (hP : Lasting P) {s : State} {st : ℕ} (h : P s) : P (State.filledSoFar s st) := by
  unfold State.filledSoFar
  repeat' first
    | with_reducible assumption
    | with_reducible apply State.fillFrames_keeps hP
    | with_reducible refine ite_keeps (fun _ => ?_) (fun _ => ?_)
    | with_reducible refine fst_ite_keeps (fun _ => ?_) (fun _ => ?_)
    | with_reducible refine snd_ite_keeps (fun _ => ?_) (fun _ => ?_)
    | with_reducible refine List.foldl_keeps ?_ (fun s x h => ?_)
    | with_reducible refine List.foldl_fst_keeps ?_ (fun s x h => ?_)
    | with_reducible refine List.foldl_snd_keeps ?_ (fun s x h => ?_)
    | intro s x h
    | simp only [Stable.mk_iff hP.stable]
    | split
    | dsimp only

theorem State.retireFrame_keeps (hP : Stable P) {s : State} {st : ℕ} {f : ℕ} (h : P s) : P (State.retireFrame s st f) := by
  unfold State.retireFrame
  repeat' first
    | with_reducible assumption
    | with_reducible apply State.setFrame_keeps hP
    | with_reducible apply State.commitRecord_keeps hP
    | with_reducible apply State.emit_keeps hP
    | with_reducible refine ite_keeps (fun _ => ?_) (fun _ => ?_)
    | with_reducible refine fst_ite_keeps (fun _ => ?_) (fun _ => ?_)
    | with_reducible refine snd_ite_keeps (fun _ => ?_) (fun _ => ?_)
    | with_reducible refine List.foldl_keeps ?_ (fun s x h => ?_)
    | with_reducible refine List.foldl_fst_keeps ?_ (fun s x h => ?_)
    | with_reducible refine List.foldl_snd_keeps ?_ (fun s x h => ?_)
    | intro s x h
    | simp only [Stable.mk_iff hP]
    | split
    | dsimp only

theorem State.verified_keeps (hP : Stable P) {s : State} {st : ℕ} {f : ℕ} {line : Option ℕ} {a4 : ℕ} (h : P s) :
    P (State.verified s st f line a4) := by
  induction a4 generalizing s st f line with
  | zero =>
    unfold State.verified
    repeat' first
      | with_reducible assumption
      | with_reducible apply State.setFrame_keeps hP
      | with_reducible apply State.retireFrame_keeps hP
      | with_reducible refine ite_keeps (fun _ => ?_) (fun _ => ?_)
      | with_reducible refine fst_ite_keeps (fun _ => ?_) (fun _ => ?_)
      | with_reducible refine snd_ite_keeps (fun _ => ?_) (fun _ => ?_)
      | with_reducible refine List.foldl_keeps ?_ (fun s x h => ?_)
      | with_reducible refine List.foldl_fst_keeps ?_ (fun s x h => ?_)
      | with_reducible refine List.foldl_snd_keeps ?_ (fun s x h => ?_)
      | intro s x h
      | simp only [Stable.mk_iff hP]
      | split
      | dsimp only
  | succ a ih =>
    unfold State.verified
    repeat' first
      | with_reducible assumption
      | with_reducible apply ih
      | with_reducible apply State.setFrame_keeps hP
      | with_reducible apply State.retireFrame_keeps hP
      | with_reducible refine ite_keeps (fun _ => ?_) (fun _ => ?_)
      | with_reducible refine fst_ite_keeps (fun _ => ?_) (fun _ => ?_)
      | with_reducible refine snd_ite_keeps (fun _ => ?_) (fun _ => ?_)
      | with_reducible refine List.foldl_keeps ?_ (fun s x h => ?_)
      | with_reducible refine List.foldl_fst_keeps ?_ (fun s x h => ?_)
      | with_reducible refine List.foldl_snd_keeps ?_ (fun s x h => ?_)
      | intro s x h
      | simp only [Stable.mk_iff hP]
      | split
      | dsimp only

theorem State.markFilled_keeps (hP : Stable P) {s : State} {st : ℕ} {f : ℕ} {a3 : ℕ} (h : P s) : P (State.markFilled s st f a3) := by
  induction a3 generalizing s st f with
  | zero =>
    unfold State.markFilled
    repeat' first
      | with_reducible assumption
      | with_reducible apply State.setFrame_keeps hP
      | with_reducible refine ite_keeps (fun _ => ?_) (fun _ => ?_)
      | with_reducible refine fst_ite_keeps (fun _ => ?_) (fun _ => ?_)
      | with_reducible refine snd_ite_keeps (fun _ => ?_) (fun _ => ?_)
      | with_reducible refine List.foldl_keeps ?_ (fun s x h => ?_)
      | with_reducible refine List.foldl_fst_keeps ?_ (fun s x h => ?_)
      | with_reducible refine List.foldl_snd_keeps ?_ (fun s x h => ?_)
      | intro s x h
      | simp only [Stable.mk_iff hP]
      | split
      | dsimp only
  | succ a ih =>
    unfold State.markFilled
    repeat' first
      | with_reducible assumption
      | with_reducible apply ih
      | with_reducible apply State.setFrame_keeps hP
      | with_reducible refine ite_keeps (fun _ => ?_) (fun _ => ?_)
      | with_reducible refine fst_ite_keeps (fun _ => ?_) (fun _ => ?_)
      | with_reducible refine snd_ite_keeps (fun _ => ?_) (fun _ => ?_)
      | with_reducible refine List.foldl_keeps ?_ (fun s x h => ?_)
      | with_reducible refine List.foldl_fst_keeps ?_ (fun s x h => ?_)
      | with_reducible refine List.foldl_snd_keeps ?_ (fun s x h => ?_)
      | intro s x h
      | simp only [Stable.mk_iff hP]
      | split
      | dsimp only

theorem State.cleanSource_keeps (hP : Stable P) {s : State} {c : BitVec 256} (h : P s) : P (State.cleanSource s c) := by
  unfold State.cleanSource
  repeat' first
    | with_reducible assumption
    | with_reducible apply State.setFrame_keeps hP
    | with_reducible refine ite_keeps (fun _ => ?_) (fun _ => ?_)
    | with_reducible refine fst_ite_keeps (fun _ => ?_) (fun _ => ?_)
    | with_reducible refine snd_ite_keeps (fun _ => ?_) (fun _ => ?_)
    | with_reducible refine List.foldl_keeps ?_ (fun s x h => ?_)
    | with_reducible refine List.foldl_fst_keeps ?_ (fun s x h => ?_)
    | with_reducible refine List.foldl_snd_keeps ?_ (fun s x h => ?_)
    | intro s x h
    | simp only [Stable.mk_iff hP]
    | split
    | dsimp only

theorem execFcCommandCompletion_keeps (hP : Lasting P) {st : StackId} {seq : BitVec 32} {err : PhysErr} {s : State} (h : P s) :
    OutP P (execFcCommandCompletion st seq err s) := by
  unfold execFcCommandCompletion
  repeat' first
    | with_reducible assumption
    | with_reducible apply State.lineUnc_keeps hP.stable
    | with_reducible apply State.lineTag_keeps hP.stable
    | with_reducible apply State.fcAnswer_keeps hP.stable
    | with_reducible apply State.setFc_keeps hP.stable
    | with_reducible apply State.fcLeaves_keeps hP.stable
    | with_reducible apply State.lineCor_keeps hP.stable
    | with_reducible apply State.setStk_keeps hP.stable
    | with_reducible apply State.chargePart_keeps hP.stable
    | with_reducible apply State.perf_keeps hP.stable
    | with_reducible apply State.verified_keeps hP.stable
    | with_reducible apply State.markFilled_keeps hP.stable
    | with_reducible apply State.cleanSource_keeps hP.stable
    | with_reducible refine ite_keeps (fun _ => ?_) (fun _ => ?_)
    | with_reducible apply OutP.next
    | with_reducible refine OutP.ite (fun _ => ?_) (fun _ => ?_)
    | with_reducible refine fst_ite_keeps (fun _ => ?_) (fun _ => ?_)
    | with_reducible refine snd_ite_keeps (fun _ => ?_) (fun _ => ?_)
    | with_reducible refine List.foldl_keeps ?_ (fun s x h => ?_)
    | with_reducible refine List.foldl_fst_keeps ?_ (fun s x h => ?_)
    | with_reducible refine List.foldl_snd_keeps ?_ (fun s x h => ?_)
    | intro s x h
    | simp only [Stable.mk_iff hP.stable]
    | split
    | dsimp only

theorem State.fcCommitOne_keeps (hP : Lasting P) {s : State} {st : ℕ} {x : FcCmd} (h : P s) : P (State.fcCommitOne s st x) := by
  unfold State.fcCommitOne
  repeat' first
    | with_reducible assumption
    | with_reducible apply State.fillFrames_keeps hP
    | with_reducible apply State.setMem_keeps hP
    | with_reducible apply State.fcAnswer_keeps hP.stable
    | with_reducible apply State.setFc_keeps hP.stable
    | with_reducible refine ite_keeps (fun _ => ?_) (fun _ => ?_)
    | with_reducible refine fst_ite_keeps (fun _ => ?_) (fun _ => ?_)
    | with_reducible refine snd_ite_keeps (fun _ => ?_) (fun _ => ?_)
    | with_reducible refine List.foldl_keeps ?_ (fun s x h => ?_)
    | with_reducible refine List.foldl_fst_keeps ?_ (fun s x h => ?_)
    | with_reducible refine List.foldl_snd_keeps ?_ (fun s x h => ?_)
    | intro s x h
    | exact fun hw => Memory.wf_writeN hw
    | exact fun hw => Memory.wf_writeN (wf_zeroRange hw)
    | exact fun hw => wf_zeroRange hw
    | exact fun hw => wf_copyRange hw
    | exact fun hw => Memory.wf_writeAll hw
    | simp only [Stable.mk_iff hP.stable]
    | split
    | dsimp only

theorem State.fcCommits_keeps (hP : Lasting P) {s : State} {st : ℕ} (h : P s) : P (State.fcCommits s st) := by
  unfold State.fcCommits
  repeat' first
    | with_reducible assumption
    | with_reducible apply State.fcCommitOne_keeps hP
    | with_reducible refine ite_keeps (fun _ => ?_) (fun _ => ?_)
    | with_reducible refine fst_ite_keeps (fun _ => ?_) (fun _ => ?_)
    | with_reducible refine snd_ite_keeps (fun _ => ?_) (fun _ => ?_)
    | with_reducible refine List.foldl_keeps ?_ (fun s x h => ?_)
    | with_reducible refine List.foldl_fst_keeps ?_ (fun s x h => ?_)
    | with_reducible refine List.foldl_snd_keeps ?_ (fun s x h => ?_)
    | intro s x h
    | simp only [Stable.mk_iff hP.stable]
    | split
    | dsimp only

theorem execStkMoveStalled_keeps (hP : Stable P) {st : StackId} {seq : BitVec 32} {s : State} (h : P s) :
    OutP P (execStkMoveStalled st seq s) := by
  unfold execStkMoveStalled
  repeat' first
    | with_reducible assumption
    | with_reducible apply State.setStk_keeps hP
    | with_reducible apply State.emit_keeps hP
    | with_reducible refine ite_keeps (fun _ => ?_) (fun _ => ?_)
    | with_reducible apply OutP.next
    | with_reducible refine OutP.ite (fun _ => ?_) (fun _ => ?_)
    | with_reducible refine fst_ite_keeps (fun _ => ?_) (fun _ => ?_)
    | with_reducible refine snd_ite_keeps (fun _ => ?_) (fun _ => ?_)
    | with_reducible refine List.foldl_keeps ?_ (fun s x h => ?_)
    | with_reducible refine List.foldl_fst_keeps ?_ (fun s x h => ?_)
    | with_reducible refine List.foldl_snd_keeps ?_ (fun s x h => ?_)
    | intro s x h
    | simp only [Stable.mk_iff hP]
    | split
    | dsimp only

theorem State.unfilled_keeps (hP : Stable P) {s : State} {st : ℕ} {f : ℕ} {n : ℕ} (h : P s) : P (State.unfilled s st f n) := by
  unfold State.unfilled
  repeat' first
    | with_reducible assumption
    | with_reducible apply State.setFrame_keeps hP
    | with_reducible refine ite_keeps (fun _ => ?_) (fun _ => ?_)
    | with_reducible refine fst_ite_keeps (fun _ => ?_) (fun _ => ?_)
    | with_reducible refine snd_ite_keeps (fun _ => ?_) (fun _ => ?_)
    | with_reducible refine List.foldl_keeps ?_ (fun s x h => ?_)
    | with_reducible refine List.foldl_fst_keeps ?_ (fun s x h => ?_)
    | with_reducible refine List.foldl_snd_keeps ?_ (fun s x h => ?_)
    | intro s x h
    | simp only [Stable.mk_iff hP]
    | split
    | dsimp only

theorem State.fcDrop_keeps (hP : Stable P) {s : State} {st : ℕ} {x : FcCmd} (h : P s) : P (State.fcDrop s st x) := by
  unfold State.fcDrop
  repeat' first
    | with_reducible assumption
    | with_reducible apply State.unfilled_keeps hP
    | with_reducible apply State.cleanSource_keeps hP
    | with_reducible apply State.setFc_keeps hP
    | with_reducible apply State.fcLeaves_keeps hP
    | with_reducible refine ite_keeps (fun _ => ?_) (fun _ => ?_)
    | with_reducible refine fst_ite_keeps (fun _ => ?_) (fun _ => ?_)
    | with_reducible refine snd_ite_keeps (fun _ => ?_) (fun _ => ?_)
    | with_reducible refine List.foldl_keeps ?_ (fun s x h => ?_)
    | with_reducible refine List.foldl_fst_keeps ?_ (fun s x h => ?_)
    | with_reducible refine List.foldl_snd_keeps ?_ (fun s x h => ?_)
    | intro s x h
    | simp only [Stable.mk_iff hP]
    | split
    | dsimp only

theorem State.fcAbandon_keeps (hP : Stable P) {s : State} {st : ℕ} {x : FcCmd} (h : P s) : P (State.fcAbandon s st x) := by
  unfold State.fcAbandon
  repeat' first
    | with_reducible assumption
    | with_reducible apply State.fcAnswer_keeps hP
    | with_reducible apply State.fcDrop_keeps hP
    | with_reducible refine ite_keeps (fun _ => ?_) (fun _ => ?_)
    | with_reducible refine fst_ite_keeps (fun _ => ?_) (fun _ => ?_)
    | with_reducible refine snd_ite_keeps (fun _ => ?_) (fun _ => ?_)
    | with_reducible refine List.foldl_keeps ?_ (fun s x h => ?_)
    | with_reducible refine List.foldl_fst_keeps ?_ (fun s x h => ?_)
    | with_reducible refine List.foldl_snd_keeps ?_ (fun s x h => ?_)
    | intro s x h
    | simp only [Stable.mk_iff hP]
    | split
    | dsimp only

theorem execMoveAbandon_keeps (hP : Stable P) {st : StackId} {seq : BitVec 32} {s : State} (h : P s) : OutP P (execMoveAbandon st seq s) := by
  unfold execMoveAbandon
  repeat' first
    | with_reducible assumption
    | with_reducible apply State.fcAbandon_keeps hP
    | with_reducible refine ite_keeps (fun _ => ?_) (fun _ => ?_)
    | with_reducible apply OutP.next
    | with_reducible refine OutP.ite (fun _ => ?_) (fun _ => ?_)
    | with_reducible refine fst_ite_keeps (fun _ => ?_) (fun _ => ?_)
    | with_reducible refine snd_ite_keeps (fun _ => ?_) (fun _ => ?_)
    | with_reducible refine List.foldl_keeps ?_ (fun s x h => ?_)
    | with_reducible refine List.foldl_fst_keeps ?_ (fun s x h => ?_)
    | with_reducible refine List.foldl_snd_keeps ?_ (fun s x h => ?_)
    | intro s x h
    | simp only [Stable.mk_iff hP]
    | split
    | dsimp only

theorem State.startBg_keeps (hP : Stable P) {s : State} {kind : BgKind} (h : P s) : P (State.startBg s kind) := by
  unfold State.startBg
  repeat' first
    | with_reducible assumption
    | with_reducible refine ite_keeps (fun _ => ?_) (fun _ => ?_)
    | with_reducible refine fst_ite_keeps (fun _ => ?_) (fun _ => ?_)
    | with_reducible refine snd_ite_keeps (fun _ => ?_) (fun _ => ?_)
    | with_reducible refine List.foldl_keeps ?_ (fun s x h => ?_)
    | with_reducible refine List.foldl_fst_keeps ?_ (fun s x h => ?_)
    | with_reducible refine List.foldl_snd_keeps ?_ (fun s x h => ?_)
    | intro s x h
    | simp only [Stable.mk_iff hP]
    | split
    | dsimp only

theorem execRemapProposal_keeps (hP : Stable P) {t : RemapTarget} {s : State} (h : P s) : OutP P (execRemapProposal t s) := by
  unfold execRemapProposal
  split
  · conv => zeta
    split
    · exact h
    · split
      · split
        · exact State.alarm_keeps hP (State.commitRecord_keeps hP (State.setCore_keeps hP h))
        · exact State.commitRecord_keeps hP (State.setCore_keeps hP h)
      · exact State.setCore_keeps hP h
  · conv => zeta
    split
    · exact h
    · split
      · split
        · exact State.alarm_keeps hP (State.startBg_keeps hP (State.commitRecord_keeps hP (State.setStk_keeps hP h)))
        · exact State.startBg_keeps hP (State.commitRecord_keeps hP (State.setStk_keeps hP h))
      · split
        · exact State.setFrame_keeps hP (State.emit_keeps hP (State.setStk_keeps hP h))
        · exact State.retireFrame_keeps hP (State.emit_keeps hP (State.setStk_keeps hP h))

theorem execDieIdleEnter_keeps (hP : Stable P) {st : StackId} {die : Fin 16} {requestSameCycle : Bool} {s : State} (h : P s) :
    OutP P (execDieIdleEnter st die requestSameCycle s) := by
  unfold execDieIdleEnter
  repeat' first
    | with_reducible assumption
    | with_reducible apply State.setStk_keeps hP
    | with_reducible refine ite_keeps (fun _ => ?_) (fun _ => ?_)
    | with_reducible apply OutP.next
    | with_reducible refine OutP.ite (fun _ => ?_) (fun _ => ?_)
    | with_reducible refine fst_ite_keeps (fun _ => ?_) (fun _ => ?_)
    | with_reducible refine snd_ite_keeps (fun _ => ?_) (fun _ => ?_)
    | with_reducible refine List.foldl_keeps ?_ (fun s x h => ?_)
    | with_reducible refine List.foldl_fst_keeps ?_ (fun s x h => ?_)
    | with_reducible refine List.foldl_snd_keeps ?_ (fun s x h => ?_)
    | intro s x h
    | simp only [Stable.mk_iff hP]
    | split
    | dsimp only

theorem execDieSelfRefreshReached_keeps (hP : Stable P) {st : StackId} {die : Fin 16} {s : State} (h : P s) :
    OutP P (execDieSelfRefreshReached st die s) := by
  unfold execDieSelfRefreshReached
  repeat' first
    | with_reducible assumption
    | with_reducible apply State.setStk_keeps hP
    | with_reducible refine ite_keeps (fun _ => ?_) (fun _ => ?_)
    | with_reducible apply OutP.next
    | with_reducible refine OutP.ite (fun _ => ?_) (fun _ => ?_)
    | with_reducible refine fst_ite_keeps (fun _ => ?_) (fun _ => ?_)
    | with_reducible refine snd_ite_keeps (fun _ => ?_) (fun _ => ?_)
    | with_reducible refine List.foldl_keeps ?_ (fun s x h => ?_)
    | with_reducible refine List.foldl_fst_keeps ?_ (fun s x h => ?_)
    | with_reducible refine List.foldl_snd_keeps ?_ (fun s x h => ?_)
    | intro s x h
    | simp only [Stable.mk_iff hP]
    | split
    | dsimp only

theorem execDieWakeComplete_keeps (hP : Lasting P) {st : StackId} {die : Fin 16} {s : State} (h : P s) :
    OutP P (execDieWakeComplete st die s) := by
  unfold execDieWakeComplete
  repeat' first
    | with_reducible assumption
    | with_reducible apply State.setStk_keeps hP.stable
    | with_reducible apply State.serveHall_keeps hP
    | with_reducible refine ite_keeps (fun _ => ?_) (fun _ => ?_)
    | with_reducible apply OutP.next
    | with_reducible refine OutP.ite (fun _ => ?_) (fun _ => ?_)
    | with_reducible refine fst_ite_keeps (fun _ => ?_) (fun _ => ?_)
    | with_reducible refine snd_ite_keeps (fun _ => ?_) (fun _ => ?_)
    | with_reducible refine List.foldl_keeps ?_ (fun s x h => ?_)
    | with_reducible refine List.foldl_fst_keeps ?_ (fun s x h => ?_)
    | with_reducible refine List.foldl_snd_keeps ?_ (fun s x h => ?_)
    | intro s x h
    | simp only [Stable.mk_iff hP.stable]
    | split
    | dsimp only

theorem execDieRestoreComplete_keeps (hP : Lasting P) {st : StackId} {die : Fin 16} {s : State} (h : P s) :
    OutP P (execDieRestoreComplete st die s) := by
  unfold execDieRestoreComplete
  repeat' first
    | with_reducible assumption
    | with_reducible apply State.setStk_keeps hP.stable
    | with_reducible apply State.setMem_keeps hP
    | with_reducible refine ite_keeps (fun _ => ?_) (fun _ => ?_)
    | with_reducible apply OutP.next
    | with_reducible refine OutP.ite (fun _ => ?_) (fun _ => ?_)
    | with_reducible refine fst_ite_keeps (fun _ => ?_) (fun _ => ?_)
    | with_reducible refine snd_ite_keeps (fun _ => ?_) (fun _ => ?_)
    | with_reducible refine List.foldl_keeps ?_ (fun s x h => ?_)
    | with_reducible refine List.foldl_fst_keeps ?_ (fun s x h => ?_)
    | with_reducible refine List.foldl_snd_keeps ?_ (fun s x h => ?_)
    | intro s x h
    | exact fun hw => Memory.wf_writeN hw
    | exact fun hw => Memory.wf_writeN (wf_zeroRange hw)
    | exact fun hw => wf_zeroRange hw
    | exact fun hw => wf_copyRange hw
    | exact fun hw => Memory.wf_writeAll hw
    | simp only [Stable.mk_iff hP.stable]
    | split
    | dsimp only

end Sys2Proof.Machine
end

