-- ==== Sys2Proof/Laws/KeepAttention.lean ====
section
/-! SUPPORT. What the definitions of Machine/Attention.lean keep. -/

set_option linter.unusedTactic false
set_option linter.unreachableTactic false

namespace Sys2Proof.Machine

variable {P : State → Prop}

theorem State.attnWindow_keeps (hP : Stable P) {s : State} {c : ℕ} {ch : ℕ} {i : ℕ} {e : DmaEnt} {st : ℕ} {addr : ℕ} (h : P s) :
    P (State.attnWindow s c ch i e st addr) := by
  unfold State.attnWindow
  repeat' first
    | with_reducible assumption
    | with_reducible apply State.emit_keeps hP
    | with_reducible apply State.haltFlight_keeps hP
    | with_reducible apply State.updEnt_keeps hP
    | with_reducible apply State.contain_keeps hP
    | with_reducible refine ite_keeps (fun _ => ?_) (fun _ => ?_)
    | with_reducible refine fst_ite_keeps (fun _ => ?_) (fun _ => ?_)
    | with_reducible refine snd_ite_keeps (fun _ => ?_) (fun _ => ?_)
    | with_reducible refine List.foldl_keeps ?_ (fun s x h => ?_)
    | with_reducible refine List.foldl_fst_keeps ?_ (fun s x h => ?_)
    | with_reducible refine List.foldl_snd_keeps ?_ (fun s x h => ?_)
    | intro s x h
    | simp only [Stable.mk_iff hP]
    | split
    | dsimp only

theorem State.sendRows_keeps (hP : Stable P) {s : State} {c : ℕ} {ch : ℕ} {i : ℕ} {e : DmaEnt} {d : BitVec 512} {a : ℕ} {b : ℕ} {ecc : Ecc} {a9 : List ℕ} (h : P s) :
    P (State.sendRows s c ch i e d a b ecc a9).1 := by
  induction a9 generalizing s c ch i e d a b ecc with
  | nil =>
    unfold State.sendRows
    repeat' first
      | with_reducible assumption
      | with_reducible apply State.devRead_keeps hP
      | with_reducible apply State.setStk_keeps hP
      | with_reducible apply State.works_keeps hP
      | with_reducible apply State.updEnt_keeps hP
      | with_reducible refine ite_keeps (fun _ => ?_) (fun _ => ?_)
      | with_reducible refine fst_ite_keeps (fun _ => ?_) (fun _ => ?_)
      | with_reducible refine snd_ite_keeps (fun _ => ?_) (fun _ => ?_)
      | with_reducible refine List.foldl_keeps ?_ (fun s x h => ?_)
      | with_reducible refine List.foldl_fst_keeps ?_ (fun s x h => ?_)
      | with_reducible refine List.foldl_snd_keeps ?_ (fun s x h => ?_)
      | intro s x h
      | simp only [Stable.mk_iff hP]
      | split
      | dsimp only
  | cons x xs ih =>
    unfold State.sendRows
    repeat' first
      | with_reducible assumption
      | with_reducible apply ih
      | with_reducible apply State.devRead_keeps hP
      | with_reducible apply State.setStk_keeps hP
      | with_reducible apply State.works_keeps hP
      | with_reducible apply State.updEnt_keeps hP
      | with_reducible refine ite_keeps (fun _ => ?_) (fun _ => ?_)
      | with_reducible refine fst_ite_keeps (fun _ => ?_) (fun _ => ?_)
      | with_reducible refine snd_ite_keeps (fun _ => ?_) (fun _ => ?_)
      | with_reducible refine List.foldl_keeps ?_ (fun s x h => ?_)
      | with_reducible refine List.foldl_fst_keeps ?_ (fun s x h => ?_)
      | with_reducible refine List.foldl_snd_keeps ?_ (fun s x h => ?_)
      | intro s x h
      | simp only [Stable.mk_iff hP]
      | split
      | dsimp only

theorem execAttention_keeps (hP : Stable P) {c : CoreId} {ch : ChanId} {err : PhysErr} {s : State} (h : P s) :
    OutP P (execAttention c ch err s) := by
  unfold execAttention
  repeat' first
    | with_reducible assumption
    | with_reducible apply State.dmaWindow_keeps hP
    | with_reducible apply State.devRead_keeps hP
    | with_reducible apply State.waitsAt_keeps hP
    | with_reducible apply State.attnWindow_keeps hP
    | with_reducible apply State.sendRows_keeps hP
    | with_reducible apply State.dmaIllegal_keeps hP
    | with_reducible apply State.settleChan_keeps hP
    | with_reducible apply State.updEnt_keeps hP
    | with_reducible apply State.dmaFailed_keeps hP
    | with_reducible refine ite_keeps (fun _ => ?_) (fun _ => ?_)
    | with_reducible apply OutP.next
    | with_reducible refine OutP.ite (fun _ => ?_) (fun _ => ?_)
    | with_reducible refine fst_ite_keeps (fun _ => ?_) (fun _ => ?_)
    | with_reducible refine snd_ite_keeps (fun _ => ?_) (fun _ => ?_)
    | with_reducible refine List.foldl_keeps ?_ (fun s x h => ?_)
    | with_reducible refine List.foldl_fst_keeps ?_ (fun s x h => ?_)
    | with_reducible refine List.foldl_snd_keeps ?_ (fun s x h => ?_)
    | intro s x h
    | simp only [Stable.mk_iff hP]
    | split
    | dsimp only

theorem State.readBlock_keeps (hP : Stable P) {s : State} {t : StreamSt} {g : KvGeom} {frames : List ℕ} {js : List ℕ} {e : Ecc} (h : P s) :
    P (State.readBlock s t g frames js e).1 := by
  unfold State.readBlock
  repeat' first
    | with_reducible assumption
    | with_reducible apply State.readLines_keeps hP
    | with_reducible apply State.charge_keeps hP
    | with_reducible apply State.perf_keeps hP
    | with_reducible refine ite_keeps (fun _ => ?_) (fun _ => ?_)
    | with_reducible refine fst_ite_keeps (fun _ => ?_) (fun _ => ?_)
    | with_reducible refine snd_ite_keeps (fun _ => ?_) (fun _ => ?_)
    | with_reducible refine List.foldl_keeps ?_ (fun s x h => ?_)
    | with_reducible refine List.foldl_fst_keeps ?_ (fun s x h => ?_)
    | with_reducible refine List.foldl_snd_keeps ?_ (fun s x h => ?_)
    | intro s x h
    | simp only [Stable.mk_iff hP]
    | split
    | dsimp only

/-- A predicate of the state that the serving of a row's blocks carries. -/
def SliceP (P : State → Prop) (x : SliceRes) : Prop :=
  match x with
  | .ok s _ => P s
  | .error s _ => P s
  | _ => True

theorem SliceP.ok {x : SliceRes} {t : State} {r : AttnRow} (he : x = .ok t r) (h : SliceP P x) : P t := by subst he; exact h
theorem SliceP.error {x : SliceRes} {t : State} {a : Acc} (he : x = .error t a) (h : SliceP P x) : P t := by subst he; exact h

theorem State.serve_keeps (hP : Stable P) {s : State} {t : StreamSt} {g : KvGeom} {e : Ecc} {last n : ℕ} {r : AttnRow} (h : P s) :
    SliceP P (State.serve s t g e last n r) := by
  induction n generalizing s r with
  | zero => exact h
  | succ n ih =>
    unfold State.serve
    dsimp only
    repeat' first
      | exact h
      | exact ih (State.readBlock_keeps hP (State.readLines_keeps hP h))
      | exact State.readBlock_keeps hP (State.readLines_keeps hP h)
      | exact State.readLines_keeps hP h
      | trivial
      | split

theorem State.setRows_keeps (hP : Stable P) {s : State} {st : ℕ} {f : List AttnRow → List AttnRow} (h : P s) : P (State.setRows s st f) := by
  unfold State.setRows
  repeat' first
    | with_reducible assumption
    | with_reducible apply State.setStk_keeps hP
    | with_reducible refine ite_keeps (fun _ => ?_) (fun _ => ?_)
    | with_reducible refine fst_ite_keeps (fun _ => ?_) (fun _ => ?_)
    | with_reducible refine snd_ite_keeps (fun _ => ?_) (fun _ => ?_)
    | with_reducible refine List.foldl_keeps ?_ (fun s x h => ?_)
    | with_reducible refine List.foldl_fst_keeps ?_ (fun s x h => ?_)
    | with_reducible refine List.foldl_snd_keeps ?_ (fun s x h => ?_)
    | intro s x h
    | simp only [Stable.mk_iff hP]
    | split
    | dsimp only

theorem execAttentionSlice_keeps (hP : Stable P) {st : StackId} {err : PhysErr} {s : State} (h : P s) :
    OutP P (execAttentionSlice st err s) := by
  unfold execAttentionSlice
  repeat' first
    | with_reducible assumption
    | with_reducible apply State.setRows_keeps hP
    | with_reducible apply State.setStk_keeps hP
    | with_reducible apply State.staleDrop_keeps hP
    | exact SliceP.ok ‹State.serve _ _ _ _ _ _ _ = SliceRes.ok _ _› (State.serve_keeps hP (by assumption))
    | exact SliceP.error ‹State.serve _ _ _ _ _ _ _ = SliceRes.error _ _› (State.serve_keeps hP (by assumption))
    | with_reducible apply State.charge_keeps hP
    | with_reducible apply State.perf_keeps hP
    | with_reducible apply State.waitsAt_keeps hP
    | with_reducible apply State.attnWindow_keeps hP
    | with_reducible apply State.dmaFailed_keeps hP
    | with_reducible refine ite_keeps (fun _ => ?_) (fun _ => ?_)
    | with_reducible apply OutP.next
    | with_reducible refine OutP.ite (fun _ => ?_) (fun _ => ?_)
    | with_reducible refine fst_ite_keeps (fun _ => ?_) (fun _ => ?_)
    | with_reducible refine snd_ite_keeps (fun _ => ?_) (fun _ => ?_)
    | with_reducible refine List.foldl_keeps ?_ (fun s x h => ?_)
    | with_reducible refine List.foldl_fst_keeps ?_ (fun s x h => ?_)
    | with_reducible refine List.foldl_snd_keeps ?_ (fun s x h => ?_)
    | intro s x h
    | simp only [Stable.mk_iff hP]
    | split
    | dsimp only

theorem execAttentionRowComplete_keeps (hP : Lasting P) {st : StackId} {row : ℕ} {s : State} (h : P s) :
    OutP P (execAttentionRowComplete st row s) := by
  unfold execAttentionRowComplete
  repeat' first
    | with_reducible assumption
    | with_reducible apply State.setRows_keeps hP.stable
    | with_reducible apply State.staleDrop_keeps hP.stable
    | with_reducible apply State.setStk_keeps hP.stable
    | with_reducible apply State.perf_keeps hP.stable
    | with_reducible apply State.devWrite_keeps hP
    | with_reducible apply State.waitsAt_keeps hP.stable
    | with_reducible apply State.rowCame_keeps hP.stable
    | with_reducible apply State.dmaFailed_keeps hP.stable
    | with_reducible refine ite_keeps (fun _ => ?_) (fun _ => ?_)
    | with_reducible apply OutP.next
    | with_reducible refine OutP.ite (fun _ => ?_) (fun _ => ?_)
    | with_reducible refine fst_ite_keeps (fun _ => ?_) (fun _ => ?_)
    | with_reducible refine snd_ite_keeps (fun _ => ?_) (fun _ => ?_)
    | with_reducible refine List.foldl_keeps ?_ (fun s x h => ?_)
    | with_reducible refine List.foldl_fst_keeps ?_ (fun s x h => ?_)
    | with_reducible refine List.foldl_snd_keeps ?_ (fun s x h => ?_)
    | intro s x h
    | simp only [Stable.mk_iff hP.stable]
    | split
    | dsimp only

theorem State.sendLists_keeps (hP : Stable P) {s : State} {c : ℕ} {ch : ℕ} {i : ℕ} {e : DmaEnt} {d : BitVec 512} {a : ℕ} {ecc : Ecc} {a8 : List ℕ} (h : P s) :
    P (State.sendLists s c ch i e d a ecc a8).1 := by
  induction a8 generalizing s c ch i e d a ecc with
  | nil =>
    unfold State.sendLists
    repeat' first
      | with_reducible assumption
      | with_reducible apply State.devRead_keeps hP
      | with_reducible apply State.updEnt_keeps hP
      | with_reducible refine ite_keeps (fun _ => ?_) (fun _ => ?_)
      | with_reducible refine fst_ite_keeps (fun _ => ?_) (fun _ => ?_)
      | with_reducible refine snd_ite_keeps (fun _ => ?_) (fun _ => ?_)
      | with_reducible refine List.foldl_keeps ?_ (fun s x h => ?_)
      | with_reducible refine List.foldl_fst_keeps ?_ (fun s x h => ?_)
      | with_reducible refine List.foldl_snd_keeps ?_ (fun s x h => ?_)
      | intro s x h
      | simp only [Stable.mk_iff hP]
      | split
      | dsimp only
  | cons x xs ih =>
    unfold State.sendLists
    repeat' first
      | with_reducible assumption
      | with_reducible apply ih
      | with_reducible apply State.devRead_keeps hP
      | with_reducible apply State.updEnt_keeps hP
      | with_reducible refine ite_keeps (fun _ => ?_) (fun _ => ?_)
      | with_reducible refine fst_ite_keeps (fun _ => ?_) (fun _ => ?_)
      | with_reducible refine snd_ite_keeps (fun _ => ?_) (fun _ => ?_)
      | with_reducible refine List.foldl_keeps ?_ (fun s x h => ?_)
      | with_reducible refine List.foldl_fst_keeps ?_ (fun s x h => ?_)
      | with_reducible refine List.foldl_snd_keeps ?_ (fun s x h => ?_)
      | intro s x h
      | simp only [Stable.mk_iff hP]
      | split
      | dsimp only

theorem execCandidates_keeps (hP : Stable P) {c : CoreId} {ch : ChanId} {err : PhysErr} {s : State} (h : P s) :
    OutP P (execCandidates c ch err s) := by
  unfold execCandidates
  repeat' first
    | with_reducible assumption
    | with_reducible apply State.dmaWindow_keeps hP
    | with_reducible apply State.devRead_keeps hP
    | with_reducible apply State.waitsAt_keeps hP
    | with_reducible apply State.sendLists_keeps hP
    | with_reducible apply State.dmaIllegal_keeps hP
    | with_reducible apply State.settleChan_keeps hP
    | with_reducible apply State.updEnt_keeps hP
    | with_reducible apply State.dmaFailed_keeps hP
    | with_reducible refine ite_keeps (fun _ => ?_) (fun _ => ?_)
    | with_reducible apply OutP.next
    | with_reducible refine OutP.ite (fun _ => ?_) (fun _ => ?_)
    | with_reducible refine fst_ite_keeps (fun _ => ?_) (fun _ => ?_)
    | with_reducible refine snd_ite_keeps (fun _ => ?_) (fun _ => ?_)
    | with_reducible refine List.foldl_keeps ?_ (fun s x h => ?_)
    | with_reducible refine List.foldl_fst_keeps ?_ (fun s x h => ?_)
    | with_reducible refine List.foldl_snd_keeps ?_ (fun s x h => ?_)
    | intro s x h
    | simp only [Stable.mk_iff hP]
    | split
    | dsimp only

theorem execCandidateListMerge_keeps (hP : Stable P) {i : ℕ} {s : State} (h : P s) : OutP P (execCandidateListMerge i s) := by
  unfold execCandidateListMerge
  repeat' first
    | with_reducible assumption
    | with_reducible apply State.staleDrop_keeps hP
    | with_reducible apply State.contain_keeps hP
    | with_reducible apply State.countFld_keeps hP
    | with_reducible apply State.setStream_keeps hP
    | with_reducible apply State.rowCame_keeps hP
    | with_reducible refine ite_keeps (fun _ => ?_) (fun _ => ?_)
    | with_reducible apply OutP.next
    | with_reducible refine OutP.ite (fun _ => ?_) (fun _ => ?_)
    | with_reducible refine fst_ite_keeps (fun _ => ?_) (fun _ => ?_)
    | with_reducible refine snd_ite_keeps (fun _ => ?_) (fun _ => ?_)
    | with_reducible refine List.foldl_keeps ?_ (fun s x h => ?_)
    | with_reducible refine List.foldl_fst_keeps ?_ (fun s x h => ?_)
    | with_reducible refine List.foldl_snd_keeps ?_ (fun s x h => ?_)
    | intro s x h
    | simp only [Stable.mk_iff hP]
    | split
    | dsimp only

end Sys2Proof.Machine
end

