-- ==== Sys2Proof/Laws/KeepSequencer.lean ====
section
/-! SUPPORT. What the definitions of Machine/Sequencer.lean keep. -/

set_option linter.unusedTactic false
set_option linter.unreachableTactic false

namespace Sys2Proof.Machine

variable {P : State → Prop}

theorem State.putVisit_keeps (hP : Stable P) {s : State} {i : ℕ} {t : StreamSt} {v : VisitResult} (h : P s) : P (State.putVisit s i t v) := by
  unfold State.putVisit
  repeat' first
    | with_reducible assumption
    | with_reducible apply State.setStream_keeps hP
    | with_reducible refine ite_keeps (fun _ => ?_) (fun _ => ?_)
    | with_reducible refine fst_ite_keeps (fun _ => ?_) (fun _ => ?_)
    | with_reducible refine snd_ite_keeps (fun _ => ?_) (fun _ => ?_)
    | with_reducible refine List.foldl_keeps ?_ (fun s x h => ?_)
    | with_reducible refine List.foldl_fst_keeps ?_ (fun s x h => ?_)
    | with_reducible refine List.foldl_snd_keeps ?_ (fun s x h => ?_)
    | intro s x h
    | simp only [Stable.mk_iff hP]
    | split
    | dsimp only

theorem State.countVisit_keeps (hP : Stable P) {s : State} {ns : ℕ} (h : P s) : P (State.countVisit s ns) := by
  unfold State.countVisit
  repeat' first
    | with_reducible assumption
    | with_reducible refine ite_keeps (fun _ => ?_) (fun _ => ?_)
    | with_reducible refine fst_ite_keeps (fun _ => ?_) (fun _ => ?_)
    | with_reducible refine snd_ite_keeps (fun _ => ?_) (fun _ => ?_)
    | with_reducible refine List.foldl_keeps ?_ (fun s x h => ?_)
    | with_reducible refine List.foldl_fst_keeps ?_ (fun s x h => ?_)
    | with_reducible refine List.foldl_snd_keeps ?_ (fun s x h => ?_)
    | intro s x h
    | simp only [Stable.mk_iff hP]
    | split
    | dsimp only

theorem State.visit_keeps (hP : Lasting P) {s : State} {i : ℕ} {t : StreamSt} (h : P s) : P (State.visit s i t) := by
  unfold State.visit
  extract_lets pos
  clear_value pos
  split
  · exact State.countFld_keeps hP.stable (State.putVisit_keeps hP.stable h)
  · dsimp only
    refine ite_keeps (fun _ => ?_) fun _ => ?_
    · exact State.hostPut_keeps hP (State.putVisit_keeps hP.stable h)
    · exact State.putVisit_keeps hP.stable h

theorem execVisit_keeps (hP : Lasting P) {i : StreamId} {head : BitVec 32} {ns : BitVec 16} {s : State} (h : P s) :
    OutP P (execVisit i head ns s) := by
  unfold execVisit
  repeat' first
    | with_reducible assumption
    | with_reducible apply State.visit_keeps hP
    | with_reducible apply State.countVisit_keeps hP.stable
    | with_reducible refine ite_keeps (fun _ => ?_) (fun _ => ?_)
    | with_reducible apply OutP.next
    | with_reducible refine OutP.ite (fun _ => ?_) (fun _ => ?_)
    | with_reducible refine fst_ite_keeps (fun _ => ?_) (fun _ => ?_)
    | with_reducible refine snd_ite_keeps (fun _ => ?_) (fun _ => ?_)
    | with_reducible refine List.foldl_keeps ?_ (fun s x h => ?_)
    | with_reducible refine List.foldl_fst_keeps ?_ (fun s x h => ?_)
    | with_reducible refine List.foldl_snd_keeps ?_ (fun s x h => ?_)
    | intro s x h
    | simp only [Stable.mk_iff hP.stable]
    | split
    | dsimp only

theorem execRingCheck_keeps (hP : Stable P) {i : StreamId} {head : BitVec 32} {s : State} (h : P s) : OutP P (execRingCheck i head s) := by
  unfold execRingCheck
  repeat' first
    | with_reducible assumption
    | with_reducible apply State.setStream_keeps hP
    | with_reducible refine ite_keeps (fun _ => ?_) (fun _ => ?_)
    | with_reducible apply OutP.next
    | with_reducible refine OutP.ite (fun _ => ?_) (fun _ => ?_)
    | with_reducible refine fst_ite_keeps (fun _ => ?_) (fun _ => ?_)
    | with_reducible refine snd_ite_keeps (fun _ => ?_) (fun _ => ?_)
    | with_reducible refine List.foldl_keeps ?_ (fun s x h => ?_)
    | with_reducible refine List.foldl_fst_keeps ?_ (fun s x h => ?_)
    | with_reducible refine List.foldl_snd_keeps ?_ (fun s x h => ?_)
    | intro s x h
    | simp only [Stable.mk_iff hP]
    | split
    | dsimp only

theorem execHallRingStart_keeps (hP : Stable P) {p : PartId} {purpose : RingPurpose} {stream : StreamId} {positions : ℕ} {s : State} (h : P s) :
    OutP P (execHallRingStart p purpose stream positions s) := by
  unfold execHallRingStart
  repeat' first
    | with_reducible assumption
    | with_reducible refine ite_keeps (fun _ => ?_) (fun _ => ?_)
    | with_reducible apply OutP.next
    | with_reducible refine OutP.ite (fun _ => ?_) (fun _ => ?_)
    | with_reducible refine fst_ite_keeps (fun _ => ?_) (fun _ => ?_)
    | with_reducible refine snd_ite_keeps (fun _ => ?_) (fun _ => ?_)
    | with_reducible refine List.foldl_keeps ?_ (fun s x h => ?_)
    | with_reducible refine List.foldl_fst_keeps ?_ (fun s x h => ?_)
    | with_reducible refine List.foldl_snd_keeps ?_ (fun s x h => ?_)
    | intro s x h
    | simp only [Stable.mk_iff hP]
    | split
    | dsimp only

end Sys2Proof.Machine
end

