-- ==== Sys2Proof/Laws/KeepQueues.lean ====
section
/-! SUPPORT. What the definitions of Machine/Queues.lean keep. -/

set_option linter.unusedTactic false
set_option linter.unreachableTactic false

namespace Sys2Proof.Machine

variable {P : State → Prop}

theorem State.newHandle_keeps (hP : Stable P) {s t : State} {p n : ℕ} {o : HObj} (h : P s) (he : State.newHandle s p o = some (n, t)) :
    P t := by
  unfold State.newHandle at he
  dsimp only at he
  split at he
  · cases he
  · cases he
    exact State.setPart_keeps hP h

theorem State.freeHandle_keeps (hP : Stable P) {s : State} {p : ℕ} {a2 : ℕ} (h : P s) : P (State.freeHandle s p a2) := by
  unfold State.freeHandle
  repeat' first
    | with_reducible assumption
    | with_reducible apply State.setPart_keeps hP
    | with_reducible refine ite_keeps (fun _ => ?_) (fun _ => ?_)
    | with_reducible refine fst_ite_keeps (fun _ => ?_) (fun _ => ?_)
    | with_reducible refine snd_ite_keeps (fun _ => ?_) (fun _ => ?_)
    | with_reducible refine List.foldl_keeps ?_ (fun s x h => ?_)
    | with_reducible refine List.foldl_fst_keeps ?_ (fun s x h => ?_)
    | with_reducible refine List.foldl_snd_keeps ?_ (fun s x h => ?_)
    | intro s x h
    | simp only [Stable.mk_iff hP]
    | split
    | dsimp only

theorem State.bufRead_keeps (hP : Stable P) {s : State} {p : ℕ} {a2 : ℕ} {o : HObj} {off : ℕ} {n : ℕ} {e : Ecc} (h : P s) :
    P (State.bufRead s p a2 o off n e).1 := by
  unfold State.bufRead
  repeat' first
    | with_reducible assumption
    | with_reducible apply State.readLines_keeps hP
    | with_reducible refine ite_keeps (fun _ => ?_) (fun _ => ?_)
    | with_reducible refine fst_ite_keeps (fun _ => ?_) (fun _ => ?_)
    | with_reducible refine snd_ite_keeps (fun _ => ?_) (fun _ => ?_)
    | with_reducible refine List.foldl_keeps ?_ (fun s x h => ?_)
    | with_reducible refine List.foldl_fst_keeps ?_ (fun s x h => ?_)
    | with_reducible refine List.foldl_snd_keeps ?_ (fun s x h => ?_)
    | intro s x h
    | simp only [Stable.mk_iff hP]
    | split
    | dsimp only

theorem State.sendMsi_keeps (hP : Stable P) {s : State} {fn : ℕ} {v : ℕ} (h : P s) : P (State.sendMsi s fn v) := by
  unfold State.sendMsi
  repeat' first
    | with_reducible assumption
    | with_reducible refine ite_keeps (fun _ => ?_) (fun _ => ?_)
    | with_reducible refine fst_ite_keeps (fun _ => ?_) (fun _ => ?_)
    | with_reducible refine snd_ite_keeps (fun _ => ?_) (fun _ => ?_)
    | with_reducible refine List.foldl_keeps ?_ (fun s x h => ?_)
    | with_reducible refine List.foldl_fst_keeps ?_ (fun s x h => ?_)
    | with_reducible refine List.foldl_snd_keeps ?_ (fun s x h => ?_)
    | intro s x h
    | simp only [Stable.mk_iff hP]
    | split
    | dsimp only

theorem State.pubWrite_keeps (hP : Stable P) {s : State} {fn : ℕ} {a : ℕ} {data : List Byte} (h : P s) : P (State.pubWrite s fn a data) := by
  unfold State.pubWrite
  repeat' first
    | with_reducible assumption
    | with_reducible apply State.chargePart_keeps hP
    | with_reducible refine ite_keeps (fun _ => ?_) (fun _ => ?_)
    | with_reducible refine fst_ite_keeps (fun _ => ?_) (fun _ => ?_)
    | with_reducible refine snd_ite_keeps (fun _ => ?_) (fun _ => ?_)
    | with_reducible refine List.foldl_keeps ?_ (fun s x h => ?_)
    | with_reducible refine List.foldl_fst_keeps ?_ (fun s x h => ?_)
    | with_reducible refine List.foldl_snd_keeps ?_ (fun s x h => ?_)
    | intro s x h
    | simp only [Stable.mk_iff hP]
    | split
    | dsimp only

theorem State.pubMsi_keeps (hP : Stable P) {s : State} {fn : ℕ} {v : ℕ} (h : P s) : P (State.pubMsi s fn v) := by
  unfold State.pubMsi
  repeat' first
    | with_reducible assumption
    | with_reducible refine ite_keeps (fun _ => ?_) (fun _ => ?_)
    | with_reducible refine fst_ite_keeps (fun _ => ?_) (fun _ => ?_)
    | with_reducible refine snd_ite_keeps (fun _ => ?_) (fun _ => ?_)
    | with_reducible refine List.foldl_keeps ?_ (fun s x h => ?_)
    | with_reducible refine List.foldl_fst_keeps ?_ (fun s x h => ?_)
    | with_reducible refine List.foldl_snd_keeps ?_ (fun s x h => ?_)
    | intro s x h
    | simp only [Stable.mk_iff hP]
    | split
    | dsimp only

theorem State.doPub_keeps (hP : Lasting P) {s : State} {a1 : HostPub} (h : P s) : P (State.doPub s a1) := by
  unfold State.doPub
  repeat' first
    | with_reducible assumption
    | with_reducible apply State.setHost_keeps hP
    | with_reducible apply State.sendMsi_keeps hP.stable
    | with_reducible refine ite_keeps (fun _ => ?_) (fun _ => ?_)
    | with_reducible refine fst_ite_keeps (fun _ => ?_) (fun _ => ?_)
    | with_reducible refine snd_ite_keeps (fun _ => ?_) (fun _ => ?_)
    | with_reducible refine List.foldl_keeps ?_ (fun s x h => ?_)
    | with_reducible refine List.foldl_fst_keeps ?_ (fun s x h => ?_)
    | with_reducible refine List.foldl_snd_keeps ?_ (fun s x h => ?_)
    | intro s x h
    | exact fun hw => Memory.wf_writeN hw
    | exact fun hw => Memory.wf_writeN (wf_zeroRange hw)
    | exact fun hw => wf_zeroRange hw
    | exact fun hw => wf_copyRange hw
    | exact fun hw => Memory.wf_writeAll hw
    | simp only [Stable.mk_iff hP.stable]
    | split
    | dsimp only

theorem State.hostPart_keeps (hP : Lasting P) {s : State} {p : ℕ} {a : ℕ} {data : List Byte} (h : P s) : P (State.hostPart s p a data) := by
  unfold State.hostPart
  repeat' first
    | with_reducible assumption
    | with_reducible apply State.chargePart_keeps hP.stable
    | with_reducible apply State.hostFor_keeps hP
    | with_reducible refine ite_keeps (fun _ => ?_) (fun _ => ?_)
    | with_reducible refine fst_ite_keeps (fun _ => ?_) (fun _ => ?_)
    | with_reducible refine snd_ite_keeps (fun _ => ?_) (fun _ => ?_)
    | with_reducible refine List.foldl_keeps ?_ (fun s x h => ?_)
    | with_reducible refine List.foldl_fst_keeps ?_ (fun s x h => ?_)
    | with_reducible refine List.foldl_snd_keeps ?_ (fun s x h => ?_)
    | intro s x h
    | simp only [Stable.mk_iff hP.stable]
    | split
    | dsimp only

theorem State.pushCompl_keeps (hP : Stable P) {s : State} {c : ComplSt} (h : P s) : P (State.pushCompl s c) := by
  unfold State.pushCompl
  repeat' first
    | with_reducible assumption
    | with_reducible apply State.countFld_keeps hP
    | with_reducible apply State.setQueue_keeps hP
    | with_reducible refine ite_keeps (fun _ => ?_) (fun _ => ?_)
    | with_reducible refine fst_ite_keeps (fun _ => ?_) (fun _ => ?_)
    | with_reducible refine snd_ite_keeps (fun _ => ?_) (fun _ => ?_)
    | with_reducible refine List.foldl_keeps ?_ (fun s x h => ?_)
    | with_reducible refine List.foldl_fst_keeps ?_ (fun s x h => ?_)
    | with_reducible refine List.foldl_snd_keeps ?_ (fun s x h => ?_)
    | intro s x h
    | simp only [Stable.mk_iff hP]
    | split
    | dsimp only

theorem State.complete_keeps (hP : Stable P) {s : State} {q : ℕ} {ds : DescSt} {status : ℕ} {result : ℕ} {detail : ℕ} (h : P s) :
    P (State.complete s q ds status result detail) := by
  unfold State.complete
  repeat' first
    | with_reducible assumption
    | with_reducible apply State.pushCompl_keeps hP
    | with_reducible refine ite_keeps (fun _ => ?_) (fun _ => ?_)
    | with_reducible refine fst_ite_keeps (fun _ => ?_) (fun _ => ?_)
    | with_reducible refine snd_ite_keeps (fun _ => ?_) (fun _ => ?_)
    | with_reducible refine List.foldl_keeps ?_ (fun s x h => ?_)
    | with_reducible refine List.foldl_fst_keeps ?_ (fun s x h => ?_)
    | with_reducible refine List.foldl_snd_keeps ?_ (fun s x h => ?_)
    | intro s x h
    | simp only [Stable.mk_iff hP]
    | split
    | dsimp only

theorem State.writeCompl_keeps (hP : Stable P) {s : State} {c : ComplSt} (h : P s) : P (State.writeCompl s c) := by
  unfold State.writeCompl
  repeat' first
    | with_reducible assumption
    | with_reducible apply State.pubWrite_keeps hP
    | with_reducible apply State.setQueue_keeps hP
    | with_reducible refine ite_keeps (fun _ => ?_) (fun _ => ?_)
    | with_reducible refine fst_ite_keeps (fun _ => ?_) (fun _ => ?_)
    | with_reducible refine snd_ite_keeps (fun _ => ?_) (fun _ => ?_)
    | with_reducible refine List.foldl_keeps ?_ (fun s x h => ?_)
    | with_reducible refine List.foldl_fst_keeps ?_ (fun s x h => ?_)
    | with_reducible refine List.foldl_snd_keeps ?_ (fun s x h => ?_)
    | intro s x h
    | simp only [Stable.mk_iff hP]
    | split
    | dsimp only

theorem State.signalFence_keeps (hP : Stable P) {s : State} {c : ComplSt} (h : P s) : P (State.signalFence s c) := by
  unfold State.signalFence
  repeat' first
    | with_reducible assumption
    | with_reducible apply State.setPart_keeps hP
    | with_reducible refine ite_keeps (fun _ => ?_) (fun _ => ?_)
    | with_reducible refine fst_ite_keeps (fun _ => ?_) (fun _ => ?_)
    | with_reducible refine snd_ite_keeps (fun _ => ?_) (fun _ => ?_)
    | with_reducible refine List.foldl_keeps ?_ (fun s x h => ?_)
    | with_reducible refine List.foldl_fst_keeps ?_ (fun s x h => ?_)
    | with_reducible refine List.foldl_snd_keeps ?_ (fun s x h => ?_)
    | intro s x h
    | simp only [Stable.mk_iff hP]
    | split
    | dsimp only

theorem State.writeMirrors_keeps (hP : Stable P) {s : State} {p : ℕ} (h : P s) : P (State.writeMirrors s p) := by
  unfold State.writeMirrors
  repeat' first
    | with_reducible assumption
    | with_reducible apply State.pubWrite_keeps hP
    | with_reducible apply State.setPart_keeps hP
    | with_reducible refine ite_keeps (fun _ => ?_) (fun _ => ?_)
    | with_reducible refine fst_ite_keeps (fun _ => ?_) (fun _ => ?_)
    | with_reducible refine snd_ite_keeps (fun _ => ?_) (fun _ => ?_)
    | with_reducible refine List.foldl_keeps ?_ (fun s x h => ?_)
    | with_reducible refine List.foldl_fst_keeps ?_ (fun s x h => ?_)
    | with_reducible refine List.foldl_snd_keeps ?_ (fun s x h => ?_)
    | intro s x h
    | simp only [Stable.mk_iff hP]
    | split
    | dsimp only

end Sys2Proof.Machine
end

