-- ==== Sys2Proof/Laws/KeepFlights.lean ====
section
/-! SUPPORT. What the definitions of Machine/Flights.lean keep. -/

set_option linter.unusedTactic false
set_option linter.unreachableTactic false

namespace Sys2Proof.Machine

variable {P : State → Prop}

theorem execFlightEntry_keeps (hP : Stable P) {c : CoreId} {s : State} (h : P s) : OutP P (execFlightEntry c s) := by
  unfold execFlightEntry
  repeat' first
    | with_reducible assumption
    | with_reducible apply State.works_keeps hP
    | with_reducible apply State.setFlight_keeps hP
    | with_reducible apply State.setCore_keeps hP
    | with_reducible refine ite_keeps (fun _ => ?_) (fun _ => ?_)
    | with_reducible apply OutP.next
    | with_reducible refine OutP.ite (fun _ => ?_) (fun _ => ?_)
    | with_reducible refine fst_ite_keeps (fun _ => ?_) (fun _ => ?_)
    | with_reducible refine snd_ite_keeps (fun _ => ?_) (fun _ => ?_)
    | with_reducible refine List.foldl_keeps ?_ (fun s x h => ?_)
    | with_reducible refine List.foldl_fst_keeps ?_ (fun s x h => ?_)
    | with_reducible refine List.foldl_snd_keeps ?_ (fun s x h => ?_)
    | intro s x h
    | simp only [Stable.mk_iff hP]
    | split
    | dsimp only

theorem State.onCores_keeps (hP : Stable P) {s : State} {f : CoreSt → CoreSt} {a2 : List ℕ} (h : P s) : P (State.onCores s f a2) := by
  induction a2 generalizing s f with
  | nil =>
    unfold State.onCores
    repeat' first
      | with_reducible assumption
      | with_reducible apply State.setCore_keeps hP
      | with_reducible refine ite_keeps (fun _ => ?_) (fun _ => ?_)
      | with_reducible refine fst_ite_keeps (fun _ => ?_) (fun _ => ?_)
      | with_reducible refine snd_ite_keeps (fun _ => ?_) (fun _ => ?_)
      | with_reducible refine List.foldl_keeps ?_ (fun s x h => ?_)
      | with_reducible refine List.foldl_fst_keeps ?_ (fun s x h => ?_)
      | with_reducible refine List.foldl_snd_keeps ?_ (fun s x h => ?_)
      | intro s x h
      | simp only [Stable.mk_iff hP]
      | split
      | dsimp only
  | cons x xs ih =>
    unfold State.onCores
    repeat' first
      | with_reducible assumption
      | with_reducible apply ih
      | with_reducible apply State.setCore_keeps hP
      | with_reducible refine ite_keeps (fun _ => ?_) (fun _ => ?_)
      | with_reducible refine fst_ite_keeps (fun _ => ?_) (fun _ => ?_)
      | with_reducible refine snd_ite_keeps (fun _ => ?_) (fun _ => ?_)
      | with_reducible refine List.foldl_keeps ?_ (fun s x h => ?_)
      | with_reducible refine List.foldl_fst_keeps ?_ (fun s x h => ?_)
      | with_reducible refine List.foldl_snd_keeps ?_ (fun s x h => ?_)
      | intro s x h
      | simp only [Stable.mk_iff hP]
      | split
      | dsimp only

theorem State.resumeOn_keeps (hP : Stable P) {s : State} {c : ℕ} (h : P s) : P (State.resumeOn s c) := by
  unfold State.resumeOn
  repeat' first
    | with_reducible assumption
    | with_reducible apply State.setCore_keeps hP
    | with_reducible apply State.onCores_keeps hP
    | with_reducible refine ite_keeps (fun _ => ?_) (fun _ => ?_)
    | with_reducible refine fst_ite_keeps (fun _ => ?_) (fun _ => ?_)
    | with_reducible refine snd_ite_keeps (fun _ => ?_) (fun _ => ?_)
    | with_reducible refine List.foldl_keeps ?_ (fun s x h => ?_)
    | with_reducible refine List.foldl_fst_keeps ?_ (fun s x h => ?_)
    | with_reducible refine List.foldl_snd_keeps ?_ (fun s x h => ?_)
    | intro s x h
    | simp only [Stable.mk_iff hP]
    | split
    | dsimp only

theorem execWtickResume_keeps (hP : Stable P) {c : CoreId} {s : State} (h : P s) : OutP P (execWtickResume c s) := by
  unfold execWtickResume
  repeat' first
    | with_reducible assumption
    | with_reducible apply State.works_keeps hP
    | with_reducible apply State.resumeOn_keeps hP
    | with_reducible refine ite_keeps (fun _ => ?_) (fun _ => ?_)
    | with_reducible apply OutP.next
    | with_reducible refine OutP.ite (fun _ => ?_) (fun _ => ?_)
    | with_reducible refine fst_ite_keeps (fun _ => ?_) (fun _ => ?_)
    | with_reducible refine snd_ite_keeps (fun _ => ?_) (fun _ => ?_)
    | with_reducible refine List.foldl_keeps ?_ (fun s x h => ?_)
    | with_reducible refine List.foldl_fst_keeps ?_ (fun s x h => ?_)
    | with_reducible refine List.foldl_snd_keeps ?_ (fun s x h => ?_)
    | intro s x h
    | simp only [Stable.mk_iff hP]
    | split
    | dsimp only

theorem execFlightEnd_keeps (hP : Stable P) {c : CoreId} {s : State} (h : P s) : OutP P (execFlightEnd c s) := by
  unfold execFlightEnd
  repeat' first
    | with_reducible assumption
    | with_reducible apply State.setCore_keeps hP
    | with_reducible apply State.setFlight_keeps hP
    | with_reducible refine ite_keeps (fun _ => ?_) (fun _ => ?_)
    | with_reducible apply OutP.next
    | with_reducible refine OutP.ite (fun _ => ?_) (fun _ => ?_)
    | with_reducible refine fst_ite_keeps (fun _ => ?_) (fun _ => ?_)
    | with_reducible refine snd_ite_keeps (fun _ => ?_) (fun _ => ?_)
    | with_reducible refine List.foldl_keeps ?_ (fun s x h => ?_)
    | with_reducible refine List.foldl_fst_keeps ?_ (fun s x h => ?_)
    | with_reducible refine List.foldl_snd_keeps ?_ (fun s x h => ?_)
    | intro s x h
    | simp only [Stable.mk_iff hP]
    | split
    | dsimp only

theorem State.endFlight_keeps (hP : Stable P) {s : State} {n : ℕ} {status : ℕ} (h : P s) : P (State.endFlight s n status) := by
  unfold State.endFlight
  repeat' first
    | with_reducible assumption
    | with_reducible apply State.onCores_keeps hP
    | with_reducible apply State.setFlight_keeps hP
    | with_reducible refine ite_keeps (fun _ => ?_) (fun _ => ?_)
    | with_reducible refine fst_ite_keeps (fun _ => ?_) (fun _ => ?_)
    | with_reducible refine snd_ite_keeps (fun _ => ?_) (fun _ => ?_)
    | with_reducible refine List.foldl_keeps ?_ (fun s x h => ?_)
    | with_reducible refine List.foldl_fst_keeps ?_ (fun s x h => ?_)
    | with_reducible refine List.foldl_snd_keeps ?_ (fun s x h => ?_)
    | intro s x h
    | simp only [Stable.mk_iff hP]
    | split
    | dsimp only

theorem State.endFlights_keeps (hP : Stable P) {s : State} {status : ℕ} {t : FlightSt → Bool} (h : P s) :
    P (State.endFlights s status t) := by
  unfold State.endFlights
  repeat' first
    | with_reducible assumption
    | with_reducible apply State.endFlight_keeps hP
    | with_reducible refine ite_keeps (fun _ => ?_) (fun _ => ?_)
    | with_reducible refine fst_ite_keeps (fun _ => ?_) (fun _ => ?_)
    | with_reducible refine snd_ite_keeps (fun _ => ?_) (fun _ => ?_)
    | with_reducible refine List.foldl_keeps ?_ (fun s x h => ?_)
    | with_reducible refine List.foldl_fst_keeps ?_ (fun s x h => ?_)
    | with_reducible refine List.foldl_snd_keeps ?_ (fun s x h => ?_)
    | intro s x h
    | simp only [Stable.mk_iff hP]
    | split
    | dsimp only

end Sys2Proof.Machine
end

