-- ==== Sys2Proof/Laws/KeepVector.lean ====
section
/-! SUPPORT. What the definitions of Machine/Vector.lean keep. -/

set_option linter.unusedTactic false
set_option linter.unreachableTactic false

namespace Sys2Proof.Machine

variable {P : State → Prop}

theorem Res.putV_keeps (hP : Stable P) {s : State} {c : ℕ} {k : CoreSt} {n : ℕ} {v : List Lane} (h : P s) : ResP P (Res.putV s c k n v) := by
  unfold Res.putV
  repeat' first
    | with_reducible assumption
    | with_reducible apply State.vecDone_keeps hP
    | with_reducible apply State.setCore_keeps hP
    | with_reducible refine ite_keeps (fun _ => ?_) (fun _ => ?_)
    | with_reducible refine fst_ite_keeps (fun _ => ?_) (fun _ => ?_)
    | with_reducible refine snd_ite_keeps (fun _ => ?_) (fun _ => ?_)
    | with_reducible refine ResP.ite (fun _ => ?_) (fun _ => ?_)
    | with_reducible apply ResP.seq
    | with_reducible apply ResP.jump
    | with_reducible apply ResP.bad
    | exact ResP.illegal
    | exact ResP.window
    | exact ResP.wait
    | with_reducible refine List.foldl_keeps ?_ (fun s x h => ?_)
    | with_reducible refine List.foldl_fst_keeps ?_ (fun s x h => ?_)
    | with_reducible refine List.foldl_snd_keeps ?_ (fun s x h => ?_)
    | intro s x h
    | simp only [Stable.mk_iff hP]
    | split
    | dsimp only

theorem execValu_keeps (hP : Stable P) {c : CoreId} {w : BitVec 56} {s : State} (h : P s) : OutP P (execValu c w s) := by
  unfold execValu
  repeat' first
    | with_reducible assumption
    | with_reducible apply State.issue_keeps hP
    | with_reducible apply Res.putV_keeps hP
    | with_reducible refine ite_keeps (fun _ => ?_) (fun _ => ?_)
    | with_reducible apply OutP.next
    | with_reducible refine OutP.ite (fun _ => ?_) (fun _ => ?_)
    | with_reducible refine fst_ite_keeps (fun _ => ?_) (fun _ => ?_)
    | with_reducible refine snd_ite_keeps (fun _ => ?_) (fun _ => ?_)
    | with_reducible refine ResP.ite (fun _ => ?_) (fun _ => ?_)
    | with_reducible apply ResP.seq
    | with_reducible apply ResP.jump
    | with_reducible apply ResP.bad
    | exact ResP.illegal
    | exact ResP.window
    | exact ResP.wait
    | with_reducible refine List.foldl_keeps ?_ (fun s x h => ?_)
    | with_reducible refine List.foldl_fst_keeps ?_ (fun s x h => ?_)
    | with_reducible refine List.foldl_snd_keeps ?_ (fun s x h => ?_)
    | intro s x h
    | simp only [Stable.mk_iff hP]
    | split
    | dsimp only

theorem execVint_keeps (hP : Stable P) {c : CoreId} {w : BitVec 56} {s : State} (h : P s) : OutP P (execVint c w s) := by
  unfold execVint
  repeat' first
    | with_reducible assumption
    | with_reducible apply State.issue_keeps hP
    | with_reducible apply Res.putV_keeps hP
    | with_reducible refine ite_keeps (fun _ => ?_) (fun _ => ?_)
    | with_reducible apply OutP.next
    | with_reducible refine OutP.ite (fun _ => ?_) (fun _ => ?_)
    | with_reducible refine fst_ite_keeps (fun _ => ?_) (fun _ => ?_)
    | with_reducible refine snd_ite_keeps (fun _ => ?_) (fun _ => ?_)
    | with_reducible refine ResP.ite (fun _ => ?_) (fun _ => ?_)
    | with_reducible apply ResP.seq
    | with_reducible apply ResP.jump
    | with_reducible apply ResP.bad
    | exact ResP.illegal
    | exact ResP.window
    | exact ResP.wait
    | with_reducible refine List.foldl_keeps ?_ (fun s x h => ?_)
    | with_reducible refine List.foldl_fst_keeps ?_ (fun s x h => ?_)
    | with_reducible refine List.foldl_snd_keeps ?_ (fun s x h => ?_)
    | intro s x h
    | simp only [Stable.mk_iff hP]
    | split
    | dsimp only

theorem execVcvt_keeps (hP : Stable P) {c : CoreId} {w : BitVec 56} {s : State} (h : P s) : OutP P (execVcvt c w s) := by
  unfold execVcvt
  repeat' first
    | with_reducible assumption
    | with_reducible apply State.issue_keeps hP
    | with_reducible apply State.perf_keeps hP
    | with_reducible apply Res.putV_keeps hP
    | with_reducible refine ite_keeps (fun _ => ?_) (fun _ => ?_)
    | with_reducible apply OutP.next
    | with_reducible refine OutP.ite (fun _ => ?_) (fun _ => ?_)
    | with_reducible refine fst_ite_keeps (fun _ => ?_) (fun _ => ?_)
    | with_reducible refine snd_ite_keeps (fun _ => ?_) (fun _ => ?_)
    | with_reducible refine ResP.ite (fun _ => ?_) (fun _ => ?_)
    | with_reducible apply ResP.seq
    | with_reducible apply ResP.jump
    | with_reducible apply ResP.bad
    | exact ResP.illegal
    | exact ResP.window
    | exact ResP.wait
    | with_reducible refine List.foldl_keeps ?_ (fun s x h => ?_)
    | with_reducible refine List.foldl_fst_keeps ?_ (fun s x h => ?_)
    | with_reducible refine List.foldl_snd_keeps ?_ (fun s x h => ?_)
    | intro s x h
    | simp only [Stable.mk_iff hP]
    | split
    | dsimp only

theorem execVfunc_keeps (hP : Stable P) {c : CoreId} {w : BitVec 56} {s : State} (h : P s) : OutP P (execVfunc c w s) := by
  unfold execVfunc
  repeat' first
    | with_reducible assumption
    | with_reducible apply State.issue_keeps hP
    | with_reducible apply Res.putV_keeps hP
    | with_reducible refine ite_keeps (fun _ => ?_) (fun _ => ?_)
    | with_reducible apply OutP.next
    | with_reducible refine OutP.ite (fun _ => ?_) (fun _ => ?_)
    | with_reducible refine fst_ite_keeps (fun _ => ?_) (fun _ => ?_)
    | with_reducible refine snd_ite_keeps (fun _ => ?_) (fun _ => ?_)
    | with_reducible refine ResP.ite (fun _ => ?_) (fun _ => ?_)
    | with_reducible apply ResP.seq
    | with_reducible apply ResP.jump
    | with_reducible apply ResP.bad
    | exact ResP.illegal
    | exact ResP.window
    | exact ResP.wait
    | with_reducible refine List.foldl_keeps ?_ (fun s x h => ?_)
    | with_reducible refine List.foldl_fst_keeps ?_ (fun s x h => ?_)
    | with_reducible refine List.foldl_snd_keeps ?_ (fun s x h => ?_)
    | intro s x h
    | simp only [Stable.mk_iff hP]
    | split
    | dsimp only

theorem execVred_keeps (hP : Stable P) {c : CoreId} {w : BitVec 56} {s : State} (h : P s) : OutP P (execVred c w s) := by
  unfold execVred
  repeat' first
    | with_reducible assumption
    | with_reducible apply State.issue_keeps hP
    | with_reducible apply Res.putV_keeps hP
    | with_reducible refine ite_keeps (fun _ => ?_) (fun _ => ?_)
    | with_reducible apply OutP.next
    | with_reducible refine OutP.ite (fun _ => ?_) (fun _ => ?_)
    | with_reducible refine fst_ite_keeps (fun _ => ?_) (fun _ => ?_)
    | with_reducible refine snd_ite_keeps (fun _ => ?_) (fun _ => ?_)
    | with_reducible refine ResP.ite (fun _ => ?_) (fun _ => ?_)
    | with_reducible apply ResP.seq
    | with_reducible apply ResP.jump
    | with_reducible apply ResP.bad
    | exact ResP.illegal
    | exact ResP.window
    | exact ResP.wait
    | with_reducible refine List.foldl_keeps ?_ (fun s x h => ?_)
    | with_reducible refine List.foldl_fst_keeps ?_ (fun s x h => ?_)
    | with_reducible refine List.foldl_snd_keeps ?_ (fun s x h => ?_)
    | intro s x h
    | simp only [Stable.mk_iff hP]
    | split
    | dsimp only

theorem execVmerge_keeps (hP : Stable P) {c : CoreId} {w : BitVec 56} {s : State} (h : P s) : OutP P (execVmerge c w s) := by
  unfold execVmerge
  repeat' first
    | with_reducible assumption
    | with_reducible apply State.issue_keeps hP
    | with_reducible apply Res.putV_keeps hP
    | with_reducible refine ite_keeps (fun _ => ?_) (fun _ => ?_)
    | with_reducible apply OutP.next
    | with_reducible refine OutP.ite (fun _ => ?_) (fun _ => ?_)
    | with_reducible refine fst_ite_keeps (fun _ => ?_) (fun _ => ?_)
    | with_reducible refine snd_ite_keeps (fun _ => ?_) (fun _ => ?_)
    | with_reducible refine ResP.ite (fun _ => ?_) (fun _ => ?_)
    | with_reducible apply ResP.seq
    | with_reducible apply ResP.jump
    | with_reducible apply ResP.bad
    | exact ResP.illegal
    | exact ResP.window
    | exact ResP.wait
    | with_reducible refine List.foldl_keeps ?_ (fun s x h => ?_)
    | with_reducible refine List.foldl_fst_keeps ?_ (fun s x h => ?_)
    | with_reducible refine List.foldl_snd_keeps ?_ (fun s x h => ?_)
    | intro s x h
    | simp only [Stable.mk_iff hP]
    | split
    | dsimp only

theorem execVload_keeps (hP : Stable P) {c : CoreId} {w : BitVec 56} {err : PhysErr} {s : State} (h : P s) :
    OutP P (execVload c w err s) := by
  unfold execVload
  repeat' first
    | with_reducible assumption
    | with_reducible apply State.issue_keeps hP
    | exact State.tdesc_error hP (by assumption) ‹_ = Except.error _›
    | refine State.tdesc_ok hP ?_ ‹_ = Except.ok _›
    | with_reducible apply State.regionFault_keeps hP
    | with_reducible apply State.scrReads_keeps hP
    | with_reducible apply Res.putV_keeps hP
    | with_reducible refine ite_keeps (fun _ => ?_) (fun _ => ?_)
    | with_reducible apply OutP.next
    | with_reducible refine OutP.ite (fun _ => ?_) (fun _ => ?_)
    | with_reducible refine fst_ite_keeps (fun _ => ?_) (fun _ => ?_)
    | with_reducible refine snd_ite_keeps (fun _ => ?_) (fun _ => ?_)
    | with_reducible refine ResP.ite (fun _ => ?_) (fun _ => ?_)
    | with_reducible apply ResP.seq
    | with_reducible apply ResP.jump
    | with_reducible apply ResP.bad
    | exact ResP.illegal
    | exact ResP.window
    | exact ResP.wait
    | with_reducible refine List.foldl_keeps ?_ (fun s x h => ?_)
    | with_reducible refine List.foldl_fst_keeps ?_ (fun s x h => ?_)
    | with_reducible refine List.foldl_snd_keeps ?_ (fun s x h => ?_)
    | intro s x h
    | simp only [Stable.mk_iff hP]
    | split
    | dsimp only

theorem execVrqst_keeps (hP : Stable P) {c : CoreId} {w : Met (BitVec 56)} {s : State} (h : P s) : OutP P (execVrqst c w s) := by
  unfold execVrqst
  repeat' first
    | with_reducible assumption
    | with_reducible apply State.issue_keeps hP
    | exact State.tdesc_error hP (by assumption) ‹_ = Except.error _›
    | refine State.tdesc_ok hP ?_ ‹_ = Except.ok _›
    | with_reducible apply State.regionFault_keeps hP
    | with_reducible apply State.scrReads_keeps hP
    | with_reducible apply State.vecDone_keeps hP
    | with_reducible apply State.perf_keeps hP
    | with_reducible apply State.setCore_keeps hP
    | with_reducible refine ite_keeps (fun _ => ?_) (fun _ => ?_)
    | with_reducible apply OutP.next
    | with_reducible refine OutP.ite (fun _ => ?_) (fun _ => ?_)
    | with_reducible refine fst_ite_keeps (fun _ => ?_) (fun _ => ?_)
    | with_reducible refine snd_ite_keeps (fun _ => ?_) (fun _ => ?_)
    | with_reducible refine ResP.ite (fun _ => ?_) (fun _ => ?_)
    | with_reducible apply ResP.seq
    | with_reducible apply ResP.jump
    | with_reducible apply ResP.bad
    | exact ResP.illegal
    | exact ResP.window
    | exact ResP.wait
    | with_reducible refine List.foldl_keeps ?_ (fun s x h => ?_)
    | with_reducible refine List.foldl_fst_keeps ?_ (fun s x h => ?_)
    | with_reducible refine List.foldl_snd_keeps ?_ (fun s x h => ?_)
    | intro s x h
    | simp only [Stable.mk_iff hP]
    | split
    | dsimp only

theorem execVst_keeps (hP : Stable P) {c : CoreId} {w : BitVec 56} {s : State} (h : P s) : OutP P (execVst c w s) := by
  unfold execVst
  repeat' first
    | with_reducible assumption
    | with_reducible apply State.issue_keeps hP
    | with_reducible apply State.regionFault_keeps hP
    | with_reducible apply State.vecDone_keeps hP
    | with_reducible apply State.setCore_keeps hP
    | with_reducible refine ite_keeps (fun _ => ?_) (fun _ => ?_)
    | with_reducible apply OutP.next
    | with_reducible refine OutP.ite (fun _ => ?_) (fun _ => ?_)
    | with_reducible refine fst_ite_keeps (fun _ => ?_) (fun _ => ?_)
    | with_reducible refine snd_ite_keeps (fun _ => ?_) (fun _ => ?_)
    | with_reducible refine ResP.ite (fun _ => ?_) (fun _ => ?_)
    | with_reducible apply ResP.seq
    | with_reducible apply ResP.jump
    | with_reducible apply ResP.bad
    | exact ResP.illegal
    | exact ResP.window
    | exact ResP.wait
    | with_reducible refine List.foldl_keeps ?_ (fun s x h => ?_)
    | with_reducible refine List.foldl_fst_keeps ?_ (fun s x h => ?_)
    | with_reducible refine List.foldl_snd_keeps ?_ (fun s x h => ?_)
    | intro s x h
    | simp only [Stable.mk_iff hP]
    | split
    | dsimp only

theorem execVmovx_keeps (hP : Stable P) {c : CoreId} {w : BitVec 56} {s : State} (h : P s) : OutP P (execVmovx c w s) := by
  unfold execVmovx
  repeat' first
    | with_reducible assumption
    | with_reducible apply State.issue_keeps hP
    | with_reducible apply Res.putV_keeps hP
    | with_reducible apply State.vecDone_keeps hP
    | with_reducible apply State.setCore_keeps hP
    | with_reducible refine ite_keeps (fun _ => ?_) (fun _ => ?_)
    | with_reducible apply OutP.next
    | with_reducible refine OutP.ite (fun _ => ?_) (fun _ => ?_)
    | with_reducible refine fst_ite_keeps (fun _ => ?_) (fun _ => ?_)
    | with_reducible refine snd_ite_keeps (fun _ => ?_) (fun _ => ?_)
    | with_reducible refine ResP.ite (fun _ => ?_) (fun _ => ?_)
    | with_reducible apply ResP.seq
    | with_reducible apply ResP.jump
    | with_reducible apply ResP.bad
    | exact ResP.illegal
    | exact ResP.window
    | exact ResP.wait
    | with_reducible refine List.foldl_keeps ?_ (fun s x h => ?_)
    | with_reducible refine List.foldl_fst_keeps ?_ (fun s x h => ?_)
    | with_reducible refine List.foldl_snd_keeps ?_ (fun s x h => ?_)
    | intro s x h
    | simp only [Stable.mk_iff hP]
    | split
    | dsimp only

end Sys2Proof.Machine
end

