-- ==== Sys2Proof/Laws/KeepGraphs.lean ====
section
/-! SUPPORT. What the definitions of Machine/Graphs.lean keep. -/

set_option linter.unusedTactic false
set_option linter.unreachableTactic false

namespace Sys2Proof.Machine

variable {P : State → Prop}

theorem State.writeImages_keeps (hP : Stable P) {s : State} {c : PlaceCommit} (h : P s) : P (State.writeImages s c) := by
  unfold State.writeImages
  repeat' first
    | with_reducible assumption
    | with_reducible apply State.setCore_keeps hP
    | with_reducible refine ite_keeps (fun _ => ?_) (fun _ => ?_)
    | with_reducible refine fst_ite_keeps (fun _ => ?_) (fun _ => ?_)
    | with_reducible refine snd_ite_keeps (fun _ => ?_) (fun _ => ?_)
    | with_reducible refine List.foldl_keeps ?_ (fun s x h => ?_)
    | with_reducible refine List.foldl_fst_keeps ?_ (fun s x h => ?_)
    | with_reducible refine List.foldl_snd_keeps ?_ (fun s x h => ?_)
    | intro s x h
    | simp only [Stable.mk_iff hP]
    | split
    | dsimp only

theorem State.writeScratch_keeps (hP : Stable P) {s : State} {l : List (ℕ × ℕ × List Byte)} (h : P s) : P (State.writeScratch s l) := by
  unfold State.writeScratch
  repeat' first
    | with_reducible assumption
    | with_reducible apply State.setCore_keeps hP
    | with_reducible refine ite_keeps (fun _ => ?_) (fun _ => ?_)
    | with_reducible refine fst_ite_keeps (fun _ => ?_) (fun _ => ?_)
    | with_reducible refine snd_ite_keeps (fun _ => ?_) (fun _ => ?_)
    | with_reducible refine List.foldl_keeps ?_ (fun s x h => ?_)
    | with_reducible refine List.foldl_fst_keeps ?_ (fun s x h => ?_)
    | with_reducible refine List.foldl_snd_keeps ?_ (fun s x h => ?_)
    | intro s x h
    | simp only [Stable.mk_iff hP]
    | split
    | dsimp only

theorem State.issuePlace_keeps (hP : Lasting P) {s : State} {c : PlaceCommit} {g : GraphSt} (h : P s) :
    OptP P (State.issuePlace s c g) := by
  unfold State.issuePlace
  conv => zeta
  split
  · trivial
  · refine State.setFld_keeps hP.stable (State.setPart_keeps hP.stable (State.hostPart_keeps hP ?_))
    split
    · exact h
    · exact State.hostPart_keeps hP h

theorem State.showTable_keeps (hP : Stable P) {s : State} {p : ℕ} {g : ℕ} {old : List Region} {t : List Region} (h : P s) :
    P (State.showTable s p g old t) := by
  unfold State.showTable
  repeat' first
    | with_reducible assumption
    | with_reducible apply State.setFlight_keeps hP
    | with_reducible apply State.setCore_keeps hP
    | with_reducible refine ite_keeps (fun _ => ?_) (fun _ => ?_)
    | with_reducible refine fst_ite_keeps (fun _ => ?_) (fun _ => ?_)
    | with_reducible refine snd_ite_keeps (fun _ => ?_) (fun _ => ?_)
    | with_reducible refine List.foldl_keeps ?_ (fun s x h => ?_)
    | with_reducible refine List.foldl_fst_keeps ?_ (fun s x h => ?_)
    | with_reducible refine List.foldl_snd_keeps ?_ (fun s x h => ?_)
    | intro s x h
    | simp only [Stable.mk_iff hP]
    | split
    | dsimp only

theorem State.requeue_keeps (hP : Stable P) {s : State} {n : ℕ} {t : List Region} (h : P s) : P (State.requeue s n t) := by
  unfold State.requeue
  repeat' first
    | with_reducible assumption
    | with_reducible apply State.setCore_keeps hP
    | with_reducible refine ite_keeps (fun _ => ?_) (fun _ => ?_)
    | with_reducible refine fst_ite_keeps (fun _ => ?_) (fun _ => ?_)
    | with_reducible refine snd_ite_keeps (fun _ => ?_) (fun _ => ?_)
    | with_reducible refine List.foldl_keeps ?_ (fun s x h => ?_)
    | with_reducible refine List.foldl_fst_keeps ?_ (fun s x h => ?_)
    | with_reducible refine List.foldl_snd_keeps ?_ (fun s x h => ?_)
    | intro s x h
    | simp only [Stable.mk_iff hP]
    | split
    | dsimp only

theorem State.releaseHeld_keeps (hP : Stable P) {s : State} {p : ℕ} {g : ℕ} {t : List Region} (h : P s) : P (State.releaseHeld s p g t) := by
  unfold State.releaseHeld
  repeat' first
    | with_reducible assumption
    | with_reducible apply State.requeue_keeps hP
    | with_reducible apply State.setFlight_keeps hP
    | with_reducible refine ite_keeps (fun _ => ?_) (fun _ => ?_)
    | with_reducible refine fst_ite_keeps (fun _ => ?_) (fun _ => ?_)
    | with_reducible refine snd_ite_keeps (fun _ => ?_) (fun _ => ?_)
    | with_reducible refine List.foldl_keeps ?_ (fun s x h => ?_)
    | with_reducible refine List.foldl_fst_keeps ?_ (fun s x h => ?_)
    | with_reducible refine List.foldl_snd_keeps ?_ (fun s x h => ?_)
    | intro s x h
    | simp only [Stable.mk_iff hP]
    | split
    | dsimp only

theorem State.setRoles_keeps (hP : Stable P) {s : State} {p : ℕ} {m : ℕ} (h : P s) : P (State.setRoles s p m) := by
  unfold State.setRoles
  repeat' first
    | with_reducible assumption
    | with_reducible apply State.setPart_keeps hP
    | with_reducible refine ite_keeps (fun _ => ?_) (fun _ => ?_)
    | with_reducible refine fst_ite_keeps (fun _ => ?_) (fun _ => ?_)
    | with_reducible refine snd_ite_keeps (fun _ => ?_) (fun _ => ?_)
    | with_reducible refine List.foldl_keeps ?_ (fun s x h => ?_)
    | with_reducible refine List.foldl_fst_keeps ?_ (fun s x h => ?_)
    | with_reducible refine List.foldl_snd_keeps ?_ (fun s x h => ?_)
    | intro s x h
    | simp only [Stable.mk_iff hP]
    | split
    | dsimp only

theorem State.keepMade_keeps (hP : Stable P) {s : State} {c : PlaceCommit} {g : GraphSt} (h : P s) : P (State.keepMade s c g) :=
  hP s _ rfl rfl rfl h

theorem State.commitPlace_keeps (hP : Lasting P) {s : State} {c : PlaceCommit} {g : GraphSt} (h : P s) :
    OptP P (State.commitPlace s c g) := by
  unfold State.commitPlace
  conv => zeta
  split
  · trivial
  · split
    · trivial
    · rename_i t he
      have ht : P t := OptP.get he (State.issuePlace_keeps hP
        (State.writeScratch_keeps hP.stable (State.writeImages_keeps hP.stable (State.keepMade_keeps hP.stable h))))
      exact State.releaseHeld_keeps hP.stable (State.setRoles_keeps hP.stable (State.showTable_keeps hP.stable
        (State.setGraph_keeps hP.stable ht)))

theorem State.takeFrames_keeps (hP : Lasting P) {s : State} {fs : List (ℕ × ℕ)} {p : ℕ} {use : FrameUse} (h : P s) :
    P (State.takeFrames s fs p use) := by
  unfold State.takeFrames
  repeat' first
    | with_reducible assumption
    | with_reducible apply State.setMem_keeps hP
    | with_reducible apply State.setFrame_keeps hP.stable
    | with_reducible refine ite_keeps (fun _ => ?_) (fun _ => ?_)
    | with_reducible refine fst_ite_keeps (fun _ => ?_) (fun _ => ?_)
    | with_reducible refine snd_ite_keeps (fun _ => ?_) (fun _ => ?_)
    | with_reducible refine List.foldl_keeps ?_ (fun s x h => ?_)
    | with_reducible refine List.foldl_fst_keeps ?_ (fun s x h => ?_)
    | with_reducible refine List.foldl_snd_keeps ?_ (fun s x h => ?_)
    | intro s x h
    | exact fun hw => Memory.wf_writeN hw
    | exact fun hw => Memory.wf_writeN (wf_zeroRange hw)
    | exact fun hw => wf_zeroRange hw
    | exact fun hw => wf_copyRange hw
    | exact fun hw => Memory.wf_writeAll hw
    | simp only [Stable.mk_iff hP.stable]
    | split
    | dsimp only

theorem State.releaseFrames_keeps (hP : Stable P) {s : State} {fs : List (ℕ × ℕ)} (h : P s) : P (State.releaseFrames s fs) := by
  unfold State.releaseFrames
  repeat' first
    | with_reducible assumption
    | with_reducible apply State.setFrame_keeps hP
    | with_reducible refine ite_keeps (fun _ => ?_) (fun _ => ?_)
    | with_reducible refine fst_ite_keeps (fun _ => ?_) (fun _ => ?_)
    | with_reducible refine snd_ite_keeps (fun _ => ?_) (fun _ => ?_)
    | with_reducible refine List.foldl_keeps ?_ (fun s x h => ?_)
    | with_reducible refine List.foldl_fst_keeps ?_ (fun s x h => ?_)
    | with_reducible refine List.foldl_snd_keeps ?_ (fun s x h => ?_)
    | intro s x h
    | simp only [Stable.mk_iff hP]
    | split
    | dsimp only

theorem State.dropBgs_keeps (hP : Stable P) {s : State} {gone : BgOp → Bool} (h : P s) : P (State.dropBgs s gone) := by
  unfold State.dropBgs
  repeat' first
    | with_reducible assumption
    | with_reducible apply State.releaseFrames_keeps hP
    | with_reducible refine ite_keeps (fun _ => ?_) (fun _ => ?_)
    | with_reducible refine fst_ite_keeps (fun _ => ?_) (fun _ => ?_)
    | with_reducible refine snd_ite_keeps (fun _ => ?_) (fun _ => ?_)
    | with_reducible refine List.foldl_keeps ?_ (fun s x h => ?_)
    | with_reducible refine List.foldl_fst_keeps ?_ (fun s x h => ?_)
    | with_reducible refine List.foldl_snd_keeps ?_ (fun s x h => ?_)
    | intro s x h
    | simp only [Stable.mk_iff hP]
    | split
    | dsimp only

theorem State.fillShards_keeps (hP : Lasting P) {s : State} {p : ℕ} {fs : List (ℕ × ℕ)} {data : List (List Byte)} (h : P s) :
    P (State.fillShards s p fs data) := by
  unfold State.fillShards
  repeat' first
    | with_reducible assumption
    | with_reducible apply State.putStack_keeps hP
    | with_reducible refine ite_keeps (fun _ => ?_) (fun _ => ?_)
    | with_reducible refine fst_ite_keeps (fun _ => ?_) (fun _ => ?_)
    | with_reducible refine snd_ite_keeps (fun _ => ?_) (fun _ => ?_)
    | with_reducible refine List.foldl_keeps ?_ (fun s x h => ?_)
    | with_reducible refine List.foldl_fst_keeps ?_ (fun s x h => ?_)
    | with_reducible refine List.foldl_snd_keeps ?_ (fun s x h => ?_)
    | intro s x h
    | simp only [Stable.mk_iff hP.stable]
    | split
    | dsimp only

end Sys2Proof.Machine
end

