-- ==== Sys2Proof/Laws/KeepAdmission.lean ====
section
/-! SUPPORT. What the definitions of Machine/Admission.lean keep. -/

set_option linter.unusedTactic false
set_option linter.unreachableTactic false

namespace Sys2Proof.Machine

variable {P : State → Prop}

theorem State.cancelStream_keeps (hP : Stable P) {s : State} {p : ℕ} {i : ℕ} (h : P s) : P (State.cancelStream s p i).1 := by
  unfold State.cancelStream
  repeat' first
    | with_reducible assumption
    | with_reducible apply State.setStream_keeps hP
    | with_reducible refine ite_keeps (fun _ => ?_) (fun _ => ?_)
    | with_reducible refine fst_ite_keeps (fun _ => ?_) (fun _ => ?_)
    | with_reducible refine snd_ite_keeps (fun _ => ?_) (fun _ => ?_)
    | with_reducible refine List.foldl_keeps ?_ (fun s x h => ?_)
    | with_reducible refine List.foldl_fst_keeps ?_ (fun s x h => ?_)
    | with_reducible refine List.foldl_snd_keeps ?_ (fun s x h => ?_)
    | intro s x h
    | simp only [Stable.mk_iff hP]
    | split
    | dsimp only

theorem State.unload_keeps (hP : Stable P) {s : State} {p : ℕ} {a2 : ℕ} (h : P s) : P (State.unload s p a2) := by
  unfold State.unload
  repeat' first
    | with_reducible assumption
    | with_reducible apply State.freeHandle_keeps hP
    | with_reducible apply State.setGraph_keeps hP
    | with_reducible refine ite_keeps (fun _ => ?_) (fun _ => ?_)
    | with_reducible refine fst_ite_keeps (fun _ => ?_) (fun _ => ?_)
    | with_reducible refine snd_ite_keeps (fun _ => ?_) (fun _ => ?_)
    | with_reducible refine List.foldl_keeps ?_ (fun s x h => ?_)
    | with_reducible refine List.foldl_fst_keeps ?_ (fun s x h => ?_)
    | with_reducible refine List.foldl_snd_keeps ?_ (fun s x h => ?_)
    | intro s x h
    | simp only [Stable.mk_iff hP]
    | split
    | dsimp only

theorem State.control_keeps (hP : Stable P) {s : State} {q : ℕ} {ds : DescSt} (h : P s) : P (State.control s q ds) := by
  unfold State.control
  repeat' first
    | with_reducible assumption
    | with_reducible apply State.stopRequest_keeps hP
    | with_reducible apply State.resumeRequest_keeps hP
    | with_reducible apply State.complete_keeps hP
    | with_reducible refine ite_keeps (fun _ => ?_) (fun _ => ?_)
    | with_reducible refine fst_ite_keeps (fun _ => ?_) (fun _ => ?_)
    | with_reducible refine snd_ite_keeps (fun _ => ?_) (fun _ => ?_)
    | with_reducible refine List.foldl_keeps ?_ (fun s x h => ?_)
    | with_reducible refine List.foldl_fst_keeps ?_ (fun s x h => ?_)
    | with_reducible refine List.foldl_snd_keeps ?_ (fun s x h => ?_)
    | intro s x h
    | simp only [Stable.mk_iff hP]
    | split
    | dsimp only

theorem State.accept_keeps (hP : Stable P) {s : State} {q : ℕ} {ds : DescSt} (h : P s) : P (State.accept s q ds) := by
  unfold State.accept
  repeat' first
    | with_reducible assumption
    | with_reducible apply State.complete_keeps hP
    | with_reducible apply State.control_keeps hP
    | with_reducible apply State.startBg_keeps hP
    | with_reducible apply State.unload_keeps hP
    | with_reducible apply State.freeHandle_keeps hP
    | with_reducible apply State.cancelStream_keeps hP
    | with_reducible refine ite_keeps (fun _ => ?_) (fun _ => ?_)
    | with_reducible refine fst_ite_keeps (fun _ => ?_) (fun _ => ?_)
    | with_reducible refine snd_ite_keeps (fun _ => ?_) (fun _ => ?_)
    | with_reducible refine List.foldl_keeps ?_ (fun s x h => ?_)
    | with_reducible refine List.foldl_fst_keeps ?_ (fun s x h => ?_)
    | with_reducible refine List.foldl_snd_keeps ?_ (fun s x h => ?_)
    | intro s x h
    | simp only [Stable.mk_iff hP]
    | split
    | dsimp only

theorem State.admitDesc_keeps (hP : Stable P) {s : State} {q : ℕ} {ds : DescSt} (h : P s) : P (State.admitDesc s q ds) := by
  unfold State.admitDesc
  repeat' first
    | with_reducible assumption
    | with_reducible apply State.setQueue_keeps hP
    | with_reducible apply State.complete_keeps hP
    | with_reducible apply State.accept_keeps hP
    | with_reducible refine ite_keeps (fun _ => ?_) (fun _ => ?_)
    | with_reducible refine fst_ite_keeps (fun _ => ?_) (fun _ => ?_)
    | with_reducible refine snd_ite_keeps (fun _ => ?_) (fun _ => ?_)
    | with_reducible refine List.foldl_keeps ?_ (fun s x h => ?_)
    | with_reducible refine List.foldl_fst_keeps ?_ (fun s x h => ?_)
    | with_reducible refine List.foldl_snd_keeps ?_ (fun s x h => ?_)
    | intro s x h
    | simp only [Stable.mk_iff hP]
    | split
    | dsimp only

end Sys2Proof.Machine
end

