-- ==== Sys2Proof/Laws/KeepSubmission.lean ====
section
/-! SUPPORT. What the definitions of Machine/Submission.lean keep. -/

set_option linter.unusedTactic false
set_option linter.unreachableTactic false

namespace Sys2Proof.Machine

variable {P : State → Prop}

theorem State.commitPatch_keeps (hP : Stable P) {s : State} {q : ℕ} {p : ℕ} {ds : DescSt} (h : P s) : P (State.commitPatch s q p ds) := by
  unfold State.commitPatch
  repeat' first
    | with_reducible assumption
    | with_reducible apply State.complete_keeps hP
    | with_reducible apply State.setGraph_keeps hP
    | with_reducible apply State.mirrorData_keeps hP
    | with_reducible apply State.setPart_keeps hP
    | with_reducible refine ite_keeps (fun _ => ?_) (fun _ => ?_)
    | with_reducible refine fst_ite_keeps (fun _ => ?_) (fun _ => ?_)
    | with_reducible refine snd_ite_keeps (fun _ => ?_) (fun _ => ?_)
    | with_reducible refine List.foldl_keeps ?_ (fun s x h => ?_)
    | with_reducible refine List.foldl_fst_keeps ?_ (fun s x h => ?_)
    | with_reducible refine List.foldl_snd_keeps ?_ (fun s x h => ?_)
    | intro s x h
    | simp only [Stable.mk_iff hP]
    | split
    | dsimp only

theorem State.joinStreams_keeps (hP : Stable P) {s : State} {p : ℕ} {g : ℕ} {a3 : ℕ} (h : P s) : P (State.joinStreams s p g a3) := by
  unfold State.joinStreams
  repeat' first
    | with_reducible assumption
    | with_reducible refine ite_keeps (fun _ => ?_) (fun _ => ?_)
    | with_reducible refine fst_ite_keeps (fun _ => ?_) (fun _ => ?_)
    | with_reducible refine snd_ite_keeps (fun _ => ?_) (fun _ => ?_)
    | with_reducible refine List.foldl_keeps ?_ (fun s x h => ?_)
    | with_reducible refine List.foldl_fst_keeps ?_ (fun s x h => ?_)
    | with_reducible refine List.foldl_snd_keeps ?_ (fun s x h => ?_)
    | intro s x h
    | simp only [Stable.mk_iff hP]
    | split
    | dsimp only

theorem State.readRanges_keeps (hP : Stable P) {s : State} {n : ℕ} {f : FlightSt} {rs : List (ℕ × Bool × ℕ)} (h : P s) :
    P (State.readRanges s n f rs).1 := by
  unfold State.readRanges
  repeat' first
    | with_reducible assumption
    | with_reducible apply State.readLines_keeps hP
    | with_reducible apply State.charge_keeps hP
    | with_reducible apply State.portLines_keeps hP
    | with_reducible apply State.contain_keeps hP
    | with_reducible refine ite_keeps (fun _ => ?_) (fun _ => ?_)
    | with_reducible refine fst_ite_keeps (fun _ => ?_) (fun _ => ?_)
    | with_reducible refine snd_ite_keeps (fun _ => ?_) (fun _ => ?_)
    | with_reducible refine List.foldl_keeps ?_ (fun s x h => ?_)
    | with_reducible refine List.foldl_fst_keeps ?_ (fun s x h => ?_)
    | with_reducible refine List.foldl_snd_keeps ?_ (fun s x h => ?_)
    | intro s x h
    | simp only [Stable.mk_iff hP]
    | split
    | dsimp only

theorem State.startDigest_keeps (hP : Stable P) {s : State} {g : GraphSt} {n : ℕ} {f : FlightSt} (h : P s) :
    P (State.startDigest s g n f) := by
  unfold State.startDigest
  split
  · exact h
  · rename_i ins outs r _
    have hr := State.readRanges_keeps (n := n) (f := f) (rs := ins.map (declRange g f.params)) hP h
    revert hr
    split
    · rename_i he
      rw [he]
      exact id
    · rename_i he
      rw [he]
      intro hr
      dsimp only
      rw [Stable.mk_iff hP]
      exact hr

theorem State.capture_keeps (hP : Stable P) {s : State} {q : ℕ} {p : ℕ} {ds : DescSt} (h : P s) : P (State.capture s q p ds) := by
  unfold State.capture
  repeat' first
    | with_reducible assumption
    | with_reducible apply State.complete_keeps hP
    | with_reducible apply State.mirrorData_keeps hP
    | with_reducible apply State.setPart_keeps hP
    | with_reducible apply State.setGraph_keeps hP
    | with_reducible apply State.joinStreams_keeps hP
    | with_reducible apply State.startDigest_keeps hP
    | with_reducible apply State.setFlight_keeps hP
    | with_reducible apply State.startBg_keeps hP
    | with_reducible apply State.onCores_keeps hP
    | with_reducible refine ite_keeps (fun _ => ?_) (fun _ => ?_)
    | with_reducible refine fst_ite_keeps (fun _ => ?_) (fun _ => ?_)
    | with_reducible refine snd_ite_keeps (fun _ => ?_) (fun _ => ?_)
    | with_reducible refine List.foldl_keeps ?_ (fun s x h => ?_)
    | with_reducible refine List.foldl_fst_keeps ?_ (fun s x h => ?_)
    | with_reducible refine List.foldl_snd_keeps ?_ (fun s x h => ?_)
    | intro s x h
    | simp only [Stable.mk_iff hP]
    | split
    | dsimp only

theorem State.effect2_keeps (hP : Stable P) {s : State} {q : ℕ} {ds : DescSt} (h : P s) : P (State.effect2 s q ds) := by
  unfold State.effect2
  repeat' first
    | with_reducible assumption
    | with_reducible apply State.capture_keeps hP
    | with_reducible apply State.commitPatch_keeps hP
    | with_reducible refine ite_keeps (fun _ => ?_) (fun _ => ?_)
    | with_reducible refine fst_ite_keeps (fun _ => ?_) (fun _ => ?_)
    | with_reducible refine snd_ite_keeps (fun _ => ?_) (fun _ => ?_)
    | with_reducible refine List.foldl_keeps ?_ (fun s x h => ?_)
    | with_reducible refine List.foldl_fst_keeps ?_ (fun s x h => ?_)
    | with_reducible refine List.foldl_snd_keeps ?_ (fun s x h => ?_)
    | intro s x h
    | simp only [Stable.mk_iff hP]
    | split
    | dsimp only

theorem State.readBound_keeps (hP : Stable P) {s : State} {p : ℕ} {hs : List (BitVec 32)} (h : P s) : P (State.readBound s p hs).1 := by
  unfold State.readBound
  repeat' first
    | with_reducible assumption
    | with_reducible apply State.readLines_keeps hP
    | with_reducible apply State.portLines_keeps hP
    | with_reducible refine ite_keeps (fun _ => ?_) (fun _ => ?_)
    | with_reducible refine fst_ite_keeps (fun _ => ?_) (fun _ => ?_)
    | with_reducible refine snd_ite_keeps (fun _ => ?_) (fun _ => ?_)
    | with_reducible refine List.foldl_keeps ?_ (fun s x h => ?_)
    | with_reducible refine List.foldl_fst_keeps ?_ (fun s x h => ?_)
    | with_reducible refine List.foldl_snd_keeps ?_ (fun s x h => ?_)
    | intro s x h
    | simp only [Stable.mk_iff hP]
    | split
    | dsimp only

theorem State.endBg_keeps (hP : Stable P) {s : State} {id : ℕ} (h : P s) : P (State.endBg s id) := by
  unfold State.endBg
  repeat' first
    | with_reducible assumption
    | with_reducible apply State.dropBgs_keeps hP
    | with_reducible refine ite_keeps (fun _ => ?_) (fun _ => ?_)
    | with_reducible refine fst_ite_keeps (fun _ => ?_) (fun _ => ?_)
    | with_reducible refine snd_ite_keeps (fun _ => ?_) (fun _ => ?_)
    | with_reducible refine List.foldl_keeps ?_ (fun s x h => ?_)
    | with_reducible refine List.foldl_fst_keeps ?_ (fun s x h => ?_)
    | with_reducible refine List.foldl_snd_keeps ?_ (fun s x h => ?_)
    | intro s x h
    | simp only [Stable.mk_iff hP]
    | split
    | dsimp only

theorem State.putBg_keeps (hP : Stable P) {s : State} {b : BgOp} (h : P s) : P (State.putBg s b) := by
  unfold State.putBg
  repeat' first
    | with_reducible assumption
    | with_reducible refine ite_keeps (fun _ => ?_) (fun _ => ?_)
    | with_reducible refine fst_ite_keeps (fun _ => ?_) (fun _ => ?_)
    | with_reducible refine snd_ite_keeps (fun _ => ?_) (fun _ => ?_)
    | with_reducible refine List.foldl_keeps ?_ (fun s x h => ?_)
    | with_reducible refine List.foldl_fst_keeps ?_ (fun s x h => ?_)
    | with_reducible refine List.foldl_snd_keeps ?_ (fun s x h => ?_)
    | intro s x h
    | simp only [Stable.mk_iff hP]
    | split
    | dsimp only

theorem State.loadDone_keeps (hP : Stable P) {s : State} {b : BgOp} {p : ℕ} {ds : DescSt} {r : LoadResult} (h : P s) :
    P (State.loadDone s b p ds r) := by
  unfold State.loadDone
  repeat' first
    | with_reducible assumption
    | with_reducible apply State.putBg_keeps hP
    | with_reducible apply State.readBound_keeps hP
    | with_reducible apply State.waitsAt_keeps hP
    | with_reducible refine ite_keeps (fun _ => ?_) (fun _ => ?_)
    | with_reducible refine fst_ite_keeps (fun _ => ?_) (fun _ => ?_)
    | with_reducible refine snd_ite_keeps (fun _ => ?_) (fun _ => ?_)
    | with_reducible refine List.foldl_keeps ?_ (fun s x h => ?_)
    | with_reducible refine List.foldl_fst_keeps ?_ (fun s x h => ?_)
    | with_reducible refine List.foldl_snd_keeps ?_ (fun s x h => ?_)
    | intro s x h
    | simp only [Stable.mk_iff hP]
    | split
    | dsimp only

theorem execLoadGraphComplete_keeps (hP : Stable P) {id : ℕ} {r : LoadResult} {s : State} (h : P s) :
    OutP P (execLoadGraphComplete id r s) := by
  unfold execLoadGraphComplete
  repeat' first
    | with_reducible assumption
    | with_reducible apply State.loadDone_keeps hP
    | with_reducible refine ite_keeps (fun _ => ?_) (fun _ => ?_)
    | with_reducible apply OutP.next
    | with_reducible refine OutP.ite (fun _ => ?_) (fun _ => ?_)
    | with_reducible refine fst_ite_keeps (fun _ => ?_) (fun _ => ?_)
    | with_reducible refine snd_ite_keeps (fun _ => ?_) (fun _ => ?_)
    | with_reducible refine List.foldl_keeps ?_ (fun s x h => ?_)
    | with_reducible refine List.foldl_fst_keeps ?_ (fun s x h => ?_)
    | with_reducible refine List.foldl_snd_keeps ?_ (fun s x h => ?_)
    | intro s x h
    | simp only [Stable.mk_iff hP]
    | split
    | dsimp only

theorem State.markFrames_keeps (hP : Stable P) {s : State} {fs : List (ℕ × ℕ)} {p : ℕ} (h : P s) : P (State.markFrames s fs p) := by
  unfold State.markFrames
  repeat' first
    | with_reducible assumption
    | with_reducible apply State.setFrame_keeps hP
    | with_reducible refine ite_keeps (fun _ => ?_) (fun _ => ?_)
    | with_reducible refine fst_ite_keeps (fun _ => ?_) (fun _ => ?_)
    | with_reducible refine snd_ite_keeps (fun _ => ?_) (fun _ => ?_)
    | with_reducible refine List.foldl_keeps ?_ (fun s x h => ?_)
    | with_reducible refine List.foldl_fst_keeps ?_ (fun s x h => ?_)
    | with_reducible refine List.foldl_snd_keeps ?_ (fun s x h => ?_)
    | intro s x h
    | simp only [Stable.mk_iff hP]
    | split
    | dsimp only

theorem State.placeBg_keeps (hP : Lasting P) {s : State} {b : BgOp} (h : P s) : P (State.placeBg s b) := by
  unfold State.placeBg
  repeat' first
    | with_reducible assumption
    | refine OptP.get ‹State.commitPlace _ _ _ = some _› (State.commitPlace_keeps hP ?_)
    | with_reducible refine OptP.getD (State.commitPlace_keeps hP ?_) ?_
    | with_reducible refine ite_keeps (fun _ => ?_) (fun _ => ?_)
    | with_reducible refine fst_ite_keeps (fun _ => ?_) (fun _ => ?_)
    | with_reducible refine snd_ite_keeps (fun _ => ?_) (fun _ => ?_)
    | with_reducible refine List.foldl_keeps ?_ (fun s x h => ?_)
    | with_reducible refine List.foldl_fst_keeps ?_ (fun s x h => ?_)
    | with_reducible refine List.foldl_snd_keeps ?_ (fun s x h => ?_)
    | intro s x h
    | simp only [Stable.mk_iff hP.stable]
    | split
    | dsimp only

theorem State.projected_keeps (hP : Lasting P) {s : State} (h : P s) : P (State.projected s) := by
  unfold State.projected
  repeat' first
    | with_reducible assumption
    | with_reducible apply State.markFrames_keeps hP.stable
    | with_reducible apply State.placeBg_keeps hP
    | with_reducible refine ite_keeps (fun _ => ?_) (fun _ => ?_)
    | with_reducible refine fst_ite_keeps (fun _ => ?_) (fun _ => ?_)
    | with_reducible refine snd_ite_keeps (fun _ => ?_) (fun _ => ?_)
    | with_reducible refine List.foldl_keeps ?_ (fun s x h => ?_)
    | with_reducible refine List.foldl_fst_keeps ?_ (fun s x h => ?_)
    | with_reducible refine List.foldl_snd_keeps ?_ (fun s x h => ?_)
    | intro s x h
    | simp only [Stable.mk_iff hP.stable]
    | split
    | dsimp only

theorem State.commitLoad_keeps (hP : Lasting P) {s : State} {b : BgOp} (h : P s) : P (State.commitLoad s b) := by
  have hf {q : ℕ} {ds : DescSt} {a b' c d : ℕ} : P ((s.complete q ds a b' c).endBg d) :=
    State.endBg_keeps hP.stable (State.complete_keeps hP.stable h)
  have hf2 {q : ℕ} {ds : DescSt} {a d : ℕ} : P ((s.complete q ds a).endBg d) :=
    State.endBg_keeps hP.stable (State.complete_keeps hP.stable h)
  unfold State.commitLoad
  split
  · refine ite_keeps (fun _ => h) fun _ => ite_keeps (fun _ => hf2) fun _ => ?_
    extract_lets old new n k
    clear_value old new
    split
    · rename_i c0 hd t e1 he
      have ht : P t := by
        revert he
        split
        · intro he
          cases he
          exact h
        · exact State.newHandle_keeps hP.stable h
      generalize loadPlace _ _ _ = c
      refine ite_keeps (fun _ => h) fun _ => ite_keeps (fun _ => hf) fun _ => ?_
      dsimp only
      generalize State.projected _ = u
      refine ite_keeps (fun _ => ite_keeps (fun _ => h) fun _ => hf) fun _ => ite_keeps (fun _ => h) fun _ => ?_
      simp only [Stable.mk_iff hP.stable]
      exact State.complete_keeps hP.stable (State.setGraph_keeps hP.stable (State.setPart_keeps hP.stable ht))
    · exact hf
  · exact h

theorem State.step2_keeps (hP : Lasting P) {s : State} (h : P s) : P (State.step2 s) := by
  unfold State.step2
  repeat' first
    | with_reducible assumption
    | with_reducible apply State.commitLoad_keeps hP
    | with_reducible apply State.effect2_keeps hP.stable
    | with_reducible refine ite_keeps (fun _ => ?_) (fun _ => ?_)
    | with_reducible refine fst_ite_keeps (fun _ => ?_) (fun _ => ?_)
    | with_reducible refine snd_ite_keeps (fun _ => ?_) (fun _ => ?_)
    | with_reducible refine List.foldl_keeps ?_ (fun s x h => ?_)
    | with_reducible refine List.foldl_fst_keeps ?_ (fun s x h => ?_)
    | with_reducible refine List.foldl_snd_keeps ?_ (fun s x h => ?_)
    | intro s x h
    | simp only [Stable.mk_iff hP.stable]
    | split
    | dsimp only

theorem State.reloadFails_keeps (hP : Stable P) {s : State} {p : ℕ} {g : ℕ} {status : ℕ} {id : ℕ} (h : P s) :
    P (State.reloadFails s p g status id) := by
  unfold State.reloadFails
  repeat' first
    | with_reducible assumption
    | with_reducible apply State.endBg_keeps hP
    | with_reducible apply State.endFlights_keeps hP
    | with_reducible apply State.setGraph_keeps hP
    | with_reducible refine ite_keeps (fun _ => ?_) (fun _ => ?_)
    | with_reducible refine fst_ite_keeps (fun _ => ?_) (fun _ => ?_)
    | with_reducible refine snd_ite_keeps (fun _ => ?_) (fun _ => ?_)
    | with_reducible refine List.foldl_keeps ?_ (fun s x h => ?_)
    | with_reducible refine List.foldl_fst_keeps ?_ (fun s x h => ?_)
    | with_reducible refine List.foldl_snd_keeps ?_ (fun s x h => ?_)
    | intro s x h
    | simp only [Stable.mk_iff hP]
    | split
    | dsimp only

theorem State.reloadDone_keeps (hP : Stable P) {s : State} {b : BgOp} {p : ℕ} {a3 : ℕ} {g : GraphSt} {place : PlaceCommit} {weights : List (ℕ × ℕ)} {bytes : List Byte} {blocks : List (List Byte)} (h : P s) :
    P (State.reloadDone s b p a3 g place weights bytes blocks) := by
  unfold State.reloadDone
  repeat' first
    | with_reducible assumption
    | with_reducible apply State.readBound_keeps hP
    | with_reducible apply State.waitsAt_keeps hP
    | with_reducible apply State.chargePart_keeps hP
    | with_reducible apply State.reloadFails_keeps hP
    | with_reducible apply State.putBg_keeps hP
    | with_reducible refine ite_keeps (fun _ => ?_) (fun _ => ?_)
    | with_reducible refine fst_ite_keeps (fun _ => ?_) (fun _ => ?_)
    | with_reducible refine snd_ite_keeps (fun _ => ?_) (fun _ => ?_)
    | with_reducible refine List.foldl_keeps ?_ (fun s x h => ?_)
    | with_reducible refine List.foldl_fst_keeps ?_ (fun s x h => ?_)
    | with_reducible refine List.foldl_snd_keeps ?_ (fun s x h => ?_)
    | intro s x h
    | simp only [Stable.mk_iff hP]
    | split
    | dsimp only

theorem execReloadComplete_keeps (hP : Stable P) {p : PartId} {graph : BitVec 32} {r : LoadResult} {s : State} (h : P s) :
    OutP P (execReloadComplete p graph r s) := by
  unfold execReloadComplete
  repeat' first
    | with_reducible assumption
    | with_reducible apply State.reloadFails_keeps hP
    | with_reducible apply State.reloadDone_keeps hP
    | with_reducible refine ite_keeps (fun _ => ?_) (fun _ => ?_)
    | with_reducible apply OutP.next
    | with_reducible refine OutP.ite (fun _ => ?_) (fun _ => ?_)
    | with_reducible refine fst_ite_keeps (fun _ => ?_) (fun _ => ?_)
    | with_reducible refine snd_ite_keeps (fun _ => ?_) (fun _ => ?_)
    | with_reducible refine List.foldl_keeps ?_ (fun s x h => ?_)
    | with_reducible refine List.foldl_fst_keeps ?_ (fun s x h => ?_)
    | with_reducible refine List.foldl_snd_keeps ?_ (fun s x h => ?_)
    | intro s x h
    | simp only [Stable.mk_iff hP]
    | split
    | dsimp only

theorem State.commitReload_keeps (hP : Lasting P) {s : State} {b : BgOp} (h : P s) : P (State.commitReload s b) := by
  unfold State.commitReload
  repeat' first
    | with_reducible assumption
    | with_reducible apply State.endBg_keeps hP.stable
    | with_reducible apply State.reloadFails_keeps hP.stable
    | with_reducible apply State.projected_keeps hP
    | refine OptP.get ‹State.commitPlace _ _ _ = some _› (State.commitPlace_keeps hP ?_)
    | with_reducible refine OptP.getD (State.commitPlace_keeps hP ?_) ?_
    | with_reducible refine ite_keeps (fun _ => ?_) (fun _ => ?_)
    | with_reducible refine fst_ite_keeps (fun _ => ?_) (fun _ => ?_)
    | with_reducible refine snd_ite_keeps (fun _ => ?_) (fun _ => ?_)
    | with_reducible refine List.foldl_keeps ?_ (fun s x h => ?_)
    | with_reducible refine List.foldl_fst_keeps ?_ (fun s x h => ?_)
    | with_reducible refine List.foldl_snd_keeps ?_ (fun s x h => ?_)
    | intro s x h
    | simp only [Stable.mk_iff hP.stable]
    | split
    | dsimp only

theorem State.weightsBg_keeps (hP : Lasting P) {s : State} {b : BgOp} (h : P s) : P (State.weightsBg s b) := by
  unfold State.weightsBg
  repeat' first
    | with_reducible assumption
    | with_reducible apply State.endBg_keeps hP.stable
    | with_reducible apply State.fillShards_keeps hP
    | with_reducible apply State.takeFrames_keeps hP
    | with_reducible apply State.chargePart_keeps hP.stable
    | with_reducible refine ite_keeps (fun _ => ?_) (fun _ => ?_)
    | with_reducible refine fst_ite_keeps (fun _ => ?_) (fun _ => ?_)
    | with_reducible refine snd_ite_keeps (fun _ => ?_) (fun _ => ?_)
    | with_reducible refine List.foldl_keeps ?_ (fun s x h => ?_)
    | with_reducible refine List.foldl_fst_keeps ?_ (fun s x h => ?_)
    | with_reducible refine List.foldl_snd_keeps ?_ (fun s x h => ?_)
    | intro s x h
    | simp only [Stable.mk_iff hP.stable]
    | split
    | dsimp only

theorem State.doAlloc_keeps (hP : Lasting P) {s : State} {q p : ℕ} {ds : DescSt} {frames : List (ℕ × ℕ)} (h : P s) :
    P (State.doAlloc s q p ds frames) := by
  unfold State.doAlloc
  extract_lets len n hh limit free pick single fs
  clear_value fs single
  refine ite_keeps (fun _ => State.complete_keeps hP.stable h) fun _ => ?_
  split
  · exact State.complete_keeps hP.stable h
  · rename_i he
    exact State.complete_keeps hP.stable (State.newHandle_keeps hP.stable (State.takeFrames_keeps hP h) he)

theorem State.doMapHost_keeps (hP : Stable P) {s : State} {q : ℕ} {p : ℕ} {ds : DescSt} (h : P s) : P (State.doMapHost s q p ds) := by
  induction p generalizing s q ds with
  | zero =>
    unfold State.doMapHost
    repeat' first
      | with_reducible assumption
      | exact State.newHandle_keeps hP (by assumption) ‹State.newHandle _ _ _ = some _›
      | with_reducible apply State.complete_keeps hP
      | with_reducible refine ite_keeps (fun _ => ?_) (fun _ => ?_)
      | with_reducible refine fst_ite_keeps (fun _ => ?_) (fun _ => ?_)
      | with_reducible refine snd_ite_keeps (fun _ => ?_) (fun _ => ?_)
      | with_reducible refine List.foldl_keeps ?_ (fun s x h => ?_)
      | with_reducible refine List.foldl_fst_keeps ?_ (fun s x h => ?_)
      | with_reducible refine List.foldl_snd_keeps ?_ (fun s x h => ?_)
      | intro s x h
      | simp only [Stable.mk_iff hP]
      | split
      | dsimp only
  | succ a ih =>
    unfold State.doMapHost
    repeat' first
      | with_reducible assumption
      | with_reducible apply ih
      | exact State.newHandle_keeps hP (by assumption) ‹State.newHandle _ _ _ = some _›
      | with_reducible apply State.complete_keeps hP
      | with_reducible refine ite_keeps (fun _ => ?_) (fun _ => ?_)
      | with_reducible refine fst_ite_keeps (fun _ => ?_) (fun _ => ?_)
      | with_reducible refine snd_ite_keeps (fun _ => ?_) (fun _ => ?_)
      | with_reducible refine List.foldl_keeps ?_ (fun s x h => ?_)
      | with_reducible refine List.foldl_fst_keeps ?_ (fun s x h => ?_)
      | with_reducible refine List.foldl_snd_keeps ?_ (fun s x h => ?_)
      | intro s x h
      | simp only [Stable.mk_iff hP]
      | split
      | dsimp only

theorem State.doFence_keeps (hP : Stable P) {s : State} {q : ℕ} {p : ℕ} {ds : DescSt} (h : P s) : P (State.doFence s q p ds) := by
  induction p generalizing s q ds with
  | zero =>
    unfold State.doFence
    repeat' first
      | with_reducible assumption
      | exact State.newHandle_keeps hP (by assumption) ‹State.newHandle _ _ _ = some _›
      | with_reducible apply State.complete_keeps hP
      | with_reducible apply State.setPart_keeps hP
      | with_reducible refine ite_keeps (fun _ => ?_) (fun _ => ?_)
      | with_reducible refine fst_ite_keeps (fun _ => ?_) (fun _ => ?_)
      | with_reducible refine snd_ite_keeps (fun _ => ?_) (fun _ => ?_)
      | with_reducible refine List.foldl_keeps ?_ (fun s x h => ?_)
      | with_reducible refine List.foldl_fst_keeps ?_ (fun s x h => ?_)
      | with_reducible refine List.foldl_snd_keeps ?_ (fun s x h => ?_)
      | intro s x h
      | simp only [Stable.mk_iff hP]
      | split
      | dsimp only
  | succ a ih =>
    unfold State.doFence
    repeat' first
      | with_reducible assumption
      | with_reducible apply ih
      | exact State.newHandle_keeps hP (by assumption) ‹State.newHandle _ _ _ = some _›
      | with_reducible apply State.complete_keeps hP
      | with_reducible apply State.setPart_keeps hP
      | with_reducible refine ite_keeps (fun _ => ?_) (fun _ => ?_)
      | with_reducible refine fst_ite_keeps (fun _ => ?_) (fun _ => ?_)
      | with_reducible refine snd_ite_keeps (fun _ => ?_) (fun _ => ?_)
      | with_reducible refine List.foldl_keeps ?_ (fun s x h => ?_)
      | with_reducible refine List.foldl_fst_keeps ?_ (fun s x h => ?_)
      | with_reducible refine List.foldl_snd_keeps ?_ (fun s x h => ?_)
      | intro s x h
      | simp only [Stable.mk_iff hP]
      | split
      | dsimp only

theorem State.doCopy_keeps (hP : Stable P) {s : State} {q : ℕ} {p : ℕ} {ds : DescSt} (h : P s) : P (State.doCopy s q p ds) := by
  unfold State.doCopy
  repeat' first
    | with_reducible assumption
    | with_reducible apply State.startBg_keeps hP
    | with_reducible apply State.complete_keeps hP
    | with_reducible refine ite_keeps (fun _ => ?_) (fun _ => ?_)
    | with_reducible refine fst_ite_keeps (fun _ => ?_) (fun _ => ?_)
    | with_reducible refine snd_ite_keeps (fun _ => ?_) (fun _ => ?_)
    | with_reducible refine List.foldl_keeps ?_ (fun s x h => ?_)
    | with_reducible refine List.foldl_fst_keeps ?_ (fun s x h => ?_)
    | with_reducible refine List.foldl_snd_keeps ?_ (fun s x h => ?_)
    | intro s x h
    | simp only [Stable.mk_iff hP]
    | split
    | dsimp only

theorem State.shareBlock_keeps (hP : Stable P) {s : State} {i : ℕ} {b : ℕ} {g : KvGeom} {e : PrefixEnt} (h : P s) :
    P (State.shareBlock s i b g e) := by
  unfold State.shareBlock
  repeat' first
    | with_reducible assumption
    | with_reducible apply State.setStream_keeps hP
    | with_reducible apply State.setFrame_keeps hP
    | with_reducible refine ite_keeps (fun _ => ?_) (fun _ => ?_)
    | with_reducible refine fst_ite_keeps (fun _ => ?_) (fun _ => ?_)
    | with_reducible refine snd_ite_keeps (fun _ => ?_) (fun _ => ?_)
    | with_reducible refine List.foldl_keeps ?_ (fun s x h => ?_)
    | with_reducible refine List.foldl_fst_keeps ?_ (fun s x h => ?_)
    | with_reducible refine List.foldl_snd_keeps ?_ (fun s x h => ?_)
    | intro s x h
    | simp only [Stable.mk_iff hP]
    | split
    | dsimp only

theorem State.shareBlocks_keeps (hP : Stable P) {s : State} {i : ℕ} {home : ℕ} {gen : ℕ} {g : KvGeom} {a5 : ℕ} {a6 : List (BitVec 512)} (h : P s) :
    P (State.shareBlocks s i home gen g a5 a6) := by
  induction a6 generalizing s i home gen g a5 with
  | nil =>
    unfold State.shareBlocks
    repeat' first
      | with_reducible assumption
      | with_reducible apply State.shareBlock_keeps hP
      | with_reducible refine ite_keeps (fun _ => ?_) (fun _ => ?_)
      | with_reducible refine fst_ite_keeps (fun _ => ?_) (fun _ => ?_)
      | with_reducible refine snd_ite_keeps (fun _ => ?_) (fun _ => ?_)
      | with_reducible refine List.foldl_keeps ?_ (fun s x h => ?_)
      | with_reducible refine List.foldl_fst_keeps ?_ (fun s x h => ?_)
      | with_reducible refine List.foldl_snd_keeps ?_ (fun s x h => ?_)
      | intro s x h
      | simp only [Stable.mk_iff hP]
      | split
      | dsimp only
  | cons x xs ih =>
    unfold State.shareBlocks
    repeat' first
      | with_reducible assumption
      | with_reducible apply ih
      | with_reducible apply State.shareBlock_keeps hP
      | with_reducible refine ite_keeps (fun _ => ?_) (fun _ => ?_)
      | with_reducible refine fst_ite_keeps (fun _ => ?_) (fun _ => ?_)
      | with_reducible refine snd_ite_keeps (fun _ => ?_) (fun _ => ?_)
      | with_reducible refine List.foldl_keeps ?_ (fun s x h => ?_)
      | with_reducible refine List.foldl_fst_keeps ?_ (fun s x h => ?_)
      | with_reducible refine List.foldl_snd_keeps ?_ (fun s x h => ?_)
      | intro s x h
      | simp only [Stable.mk_iff hP]
      | split
      | dsimp only

theorem State.doOpen_keeps (hP : Stable P) {s : State} {q : ℕ} {p : ℕ} {ds : DescSt} (h : P s) : P (State.doOpen s q p ds) := by
  unfold State.doOpen
  repeat' first
    | with_reducible assumption
    | with_reducible apply State.complete_keeps hP
    | with_reducible apply State.draw_keeps hP
    | with_reducible apply State.charge_keeps hP
    | with_reducible apply State.shareBlocks_keeps hP
    | with_reducible apply State.setStream_keeps hP
    | with_reducible refine ite_keeps (fun _ => ?_) (fun _ => ?_)
    | with_reducible refine fst_ite_keeps (fun _ => ?_) (fun _ => ?_)
    | with_reducible refine snd_ite_keeps (fun _ => ?_) (fun _ => ?_)
    | with_reducible refine List.foldl_keeps ?_ (fun s x h => ?_)
    | with_reducible refine List.foldl_fst_keeps ?_ (fun s x h => ?_)
    | with_reducible refine List.foldl_snd_keeps ?_ (fun s x h => ?_)
    | intro s x h
    | simp only [Stable.mk_iff hP]
    | split
    | dsimp only

theorem State.effect4_keeps (hP : Lasting P) {s : State} {frames : List (ℕ × ℕ)} {q : ℕ} {ds : DescSt} (h : P s) :
    P (State.effect4 s frames q ds) := by
  unfold State.effect4
  repeat' first
    | with_reducible assumption
    | with_reducible apply State.doCopy_keeps hP.stable
    | with_reducible apply State.doAlloc_keeps hP
    | with_reducible apply State.doMapHost_keeps hP.stable
    | with_reducible apply State.doOpen_keeps hP.stable
    | with_reducible refine ite_keeps (fun _ => ?_) (fun _ => ?_)
    | with_reducible refine fst_ite_keeps (fun _ => ?_) (fun _ => ?_)
    | with_reducible refine snd_ite_keeps (fun _ => ?_) (fun _ => ?_)
    | with_reducible refine List.foldl_keeps ?_ (fun s x h => ?_)
    | with_reducible refine List.foldl_fst_keeps ?_ (fun s x h => ?_)
    | with_reducible refine List.foldl_snd_keeps ?_ (fun s x h => ?_)
    | intro s x h
    | simp only [Stable.mk_iff hP.stable]
    | split
    | dsimp only

theorem State.effect7_keeps (hP : Stable P) {s : State} {q : ℕ} {ds : DescSt} (h : P s) : P (State.effect7 s q ds) := by
  unfold State.effect7
  repeat' first
    | with_reducible assumption
    | with_reducible apply State.doFence_keeps hP
    | with_reducible refine ite_keeps (fun _ => ?_) (fun _ => ?_)
    | with_reducible refine fst_ite_keeps (fun _ => ?_) (fun _ => ?_)
    | with_reducible refine snd_ite_keeps (fun _ => ?_) (fun _ => ?_)
    | with_reducible refine List.foldl_keeps ?_ (fun s x h => ?_)
    | with_reducible refine List.foldl_fst_keeps ?_ (fun s x h => ?_)
    | with_reducible refine List.foldl_snd_keeps ?_ (fun s x h => ?_)
    | intro s x h
    | simp only [Stable.mk_iff hP]
    | split
    | dsimp only

theorem State.admitted4_keeps (hP : Lasting P) {s : State} {frames : List (ℕ × ℕ)} (h : P s) : P (State.admitted4 s frames) := by
  unfold State.admitted4
  repeat' first
    | with_reducible assumption
    | with_reducible apply State.effect4_keeps hP
    | with_reducible refine ite_keeps (fun _ => ?_) (fun _ => ?_)
    | with_reducible refine fst_ite_keeps (fun _ => ?_) (fun _ => ?_)
    | with_reducible refine snd_ite_keeps (fun _ => ?_) (fun _ => ?_)
    | with_reducible refine List.foldl_keeps ?_ (fun s x h => ?_)
    | with_reducible refine List.foldl_fst_keeps ?_ (fun s x h => ?_)
    | with_reducible refine List.foldl_snd_keeps ?_ (fun s x h => ?_)
    | intro s x h
    | simp only [Stable.mk_iff hP.stable]
    | split
    | dsimp only

theorem State.admitted7_keeps (hP : Stable P) {s : State} (h : P s) : P (State.admitted7 s) := by
  unfold State.admitted7
  repeat' first
    | with_reducible assumption
    | with_reducible apply State.effect7_keeps hP
    | with_reducible refine ite_keeps (fun _ => ?_) (fun _ => ?_)
    | with_reducible refine fst_ite_keeps (fun _ => ?_) (fun _ => ?_)
    | with_reducible refine snd_ite_keeps (fun _ => ?_) (fun _ => ?_)
    | with_reducible refine List.foldl_keeps ?_ (fun s x h => ?_)
    | with_reducible refine List.foldl_fst_keeps ?_ (fun s x h => ?_)
    | with_reducible refine List.foldl_snd_keeps ?_ (fun s x h => ?_)
    | intro s x h
    | simp only [Stable.mk_iff hP]
    | split
    | dsimp only

theorem execDoorbellPoll_keeps (hP : Stable P) {q : QueueId} {word : Word} {s : State} (h : P s) : OutP P (execDoorbellPoll q word s) := by
  unfold execDoorbellPoll
  repeat' first
    | with_reducible assumption
    | with_reducible apply State.chargePart_keeps hP
    | with_reducible apply State.countFld_keeps hP
    | with_reducible apply State.flag_keeps hP
    | with_reducible apply State.setQueue_keeps hP
    | with_reducible refine ite_keeps (fun _ => ?_) (fun _ => ?_)
    | with_reducible apply OutP.next
    | with_reducible refine OutP.ite (fun _ => ?_) (fun _ => ?_)
    | with_reducible refine fst_ite_keeps (fun _ => ?_) (fun _ => ?_)
    | with_reducible refine snd_ite_keeps (fun _ => ?_) (fun _ => ?_)
    | with_reducible refine List.foldl_keeps ?_ (fun s x h => ?_)
    | with_reducible refine List.foldl_fst_keeps ?_ (fun s x h => ?_)
    | with_reducible refine List.foldl_snd_keeps ?_ (fun s x h => ?_)
    | intro s x h
    | simp only [Stable.mk_iff hP]
    | split
    | dsimp only

theorem State.takeIn_keeps (hP : Stable P) {s : State} {q : ℕ} {d : BitVec 512} {aux : FetchAux} {frames : List (ℕ × ℕ)} (h : P s) :
    P (State.takeIn s q d aux frames).1 := by
  unfold State.takeIn
  repeat' first
    | with_reducible assumption
    | with_reducible apply State.readLines_keeps hP
    | with_reducible apply State.portLines_keeps hP
    | with_reducible apply State.setQueue_keeps hP
    | with_reducible apply State.countFld_keeps hP
    | with_reducible apply State.charge_keeps hP
    | with_reducible apply State.chargePart_keeps hP
    | with_reducible refine ite_keeps (fun _ => ?_) (fun _ => ?_)
    | with_reducible refine fst_ite_keeps (fun _ => ?_) (fun _ => ?_)
    | with_reducible refine snd_ite_keeps (fun _ => ?_) (fun _ => ?_)
    | with_reducible refine List.foldl_keeps ?_ (fun s x h => ?_)
    | with_reducible refine List.foldl_fst_keeps ?_ (fun s x h => ?_)
    | with_reducible refine List.foldl_snd_keeps ?_ (fun s x h => ?_)
    | intro s x h
    | simp only [Stable.mk_iff hP]
    | split
    | dsimp only

theorem State.refreshHead_keeps (hP : Stable P) {s : State} {q : ℕ} {d : BitVec 512} {head : Option (BitVec 32)} (h : P s) :
    P (State.refreshHead s q d head) := by
  unfold State.refreshHead
  repeat' first
    | with_reducible assumption
    | with_reducible apply State.setQueue_keeps hP
    | with_reducible refine ite_keeps (fun _ => ?_) (fun _ => ?_)
    | with_reducible refine fst_ite_keeps (fun _ => ?_) (fun _ => ?_)
    | with_reducible refine snd_ite_keeps (fun _ => ?_) (fun _ => ?_)
    | with_reducible refine List.foldl_keeps ?_ (fun s x h => ?_)
    | with_reducible refine List.foldl_fst_keeps ?_ (fun s x h => ?_)
    | with_reducible refine List.foldl_snd_keeps ?_ (fun s x h => ?_)
    | intro s x h
    | simp only [Stable.mk_iff hP]
    | split
    | dsimp only

theorem State.takeDesc_keeps (hP : Stable P) {s : State} {q : ℕ} {d : BitVec 512} {aux : FetchAux} {frames : List (ℕ × ℕ)} (h : P s) :
    P (State.takeDesc s q d aux frames) := by
  unfold State.takeDesc
  repeat' first
    | with_reducible assumption
    | with_reducible apply State.takeIn_keeps hP
    | with_reducible apply State.admitDesc_keeps hP
    | with_reducible apply State.setQueue_keeps hP
    | with_reducible refine ite_keeps (fun _ => ?_) (fun _ => ?_)
    | with_reducible refine fst_ite_keeps (fun _ => ?_) (fun _ => ?_)
    | with_reducible refine snd_ite_keeps (fun _ => ?_) (fun _ => ?_)
    | with_reducible refine List.foldl_keeps ?_ (fun s x h => ?_)
    | with_reducible refine List.foldl_fst_keeps ?_ (fun s x h => ?_)
    | with_reducible refine List.foldl_snd_keeps ?_ (fun s x h => ?_)
    | intro s x h
    | simp only [Stable.mk_iff hP]
    | split
    | dsimp only

theorem execDescriptorFetch_keeps (hP : Stable P) {q : QueueId} {d : BitVec 512} {aux : FetchAux} {head : BitVec 32} {s : State} (h : P s) :
    OutP P (execDescriptorFetch q d aux head s) := by
  unfold execDescriptorFetch
  repeat' first
    | with_reducible assumption
    | with_reducible apply State.refreshHead_keeps hP
    | with_reducible apply State.takeDesc_keeps hP
    | with_reducible refine ite_keeps (fun _ => ?_) (fun _ => ?_)
    | with_reducible apply OutP.next
    | with_reducible refine OutP.ite (fun _ => ?_) (fun _ => ?_)
    | with_reducible refine fst_ite_keeps (fun _ => ?_) (fun _ => ?_)
    | with_reducible refine snd_ite_keeps (fun _ => ?_) (fun _ => ?_)
    | with_reducible refine List.foldl_keeps ?_ (fun s x h => ?_)
    | with_reducible refine List.foldl_fst_keeps ?_ (fun s x h => ?_)
    | with_reducible refine List.foldl_snd_keeps ?_ (fun s x h => ?_)
    | intro s x h
    | simp only [Stable.mk_iff hP]
    | split
    | dsimp only

theorem State.submit_keeps (hP : Stable P) {s : State} {op : ℕ} {q : ℕ} {d : BitVec 512} {aux : FetchAux} {frames : List (ℕ × ℕ)} (h : P s) :
    P (State.submit s op q d aux frames) := by
  unfold State.submit
  repeat' first
    | with_reducible assumption
    | with_reducible apply State.refreshHead_keeps hP
    | with_reducible apply State.takeDesc_keeps hP
    | with_reducible apply State.setQueue_keeps hP
    | with_reducible refine ite_keeps (fun _ => ?_) (fun _ => ?_)
    | with_reducible refine fst_ite_keeps (fun _ => ?_) (fun _ => ?_)
    | with_reducible refine snd_ite_keeps (fun _ => ?_) (fun _ => ?_)
    | with_reducible refine List.foldl_keeps ?_ (fun s x h => ?_)
    | with_reducible refine List.foldl_fst_keeps ?_ (fun s x h => ?_)
    | with_reducible refine List.foldl_snd_keeps ?_ (fun s x h => ?_)
    | intro s x h
    | simp only [Stable.mk_iff hP]
    | split
    | dsimp only

theorem execSubmitNop_keeps (hP : Stable P) {q : QueueId} {d : BitVec 512} {aux : FetchAux} {s : State} (h : P s) :
    OutP P (execSubmitNop q d aux s) := by
  unfold execSubmitNop
  repeat' first
    | with_reducible assumption
    | with_reducible apply State.submit_keeps hP
    | with_reducible refine ite_keeps (fun _ => ?_) (fun _ => ?_)
    | with_reducible apply OutP.next
    | with_reducible refine OutP.ite (fun _ => ?_) (fun _ => ?_)
    | with_reducible refine fst_ite_keeps (fun _ => ?_) (fun _ => ?_)
    | with_reducible refine snd_ite_keeps (fun _ => ?_) (fun _ => ?_)
    | with_reducible refine List.foldl_keeps ?_ (fun s x h => ?_)
    | with_reducible refine List.foldl_fst_keeps ?_ (fun s x h => ?_)
    | with_reducible refine List.foldl_snd_keeps ?_ (fun s x h => ?_)
    | intro s x h
    | simp only [Stable.mk_iff hP]
    | split
    | dsimp only

theorem execLaunch_keeps (hP : Stable P) {q : QueueId} {d : BitVec 512} {aux : FetchAux} {s : State} (h : P s) :
    OutP P (execLaunch q d aux s) := by
  unfold execLaunch
  repeat' first
    | with_reducible assumption
    | with_reducible apply State.submit_keeps hP
    | with_reducible refine ite_keeps (fun _ => ?_) (fun _ => ?_)
    | with_reducible apply OutP.next
    | with_reducible refine OutP.ite (fun _ => ?_) (fun _ => ?_)
    | with_reducible refine fst_ite_keeps (fun _ => ?_) (fun _ => ?_)
    | with_reducible refine snd_ite_keeps (fun _ => ?_) (fun _ => ?_)
    | with_reducible refine List.foldl_keeps ?_ (fun s x h => ?_)
    | with_reducible refine List.foldl_fst_keeps ?_ (fun s x h => ?_)
    | with_reducible refine List.foldl_snd_keeps ?_ (fun s x h => ?_)
    | intro s x h
    | simp only [Stable.mk_iff hP]
    | split
    | dsimp only

theorem execLoadGraph_keeps (hP : Stable P) {q : QueueId} {d : BitVec 512} {aux : FetchAux} {s : State} (h : P s) :
    OutP P (execLoadGraph q d aux s) := by
  unfold execLoadGraph
  repeat' first
    | with_reducible assumption
    | with_reducible apply State.submit_keeps hP
    | with_reducible refine ite_keeps (fun _ => ?_) (fun _ => ?_)
    | with_reducible apply OutP.next
    | with_reducible refine OutP.ite (fun _ => ?_) (fun _ => ?_)
    | with_reducible refine fst_ite_keeps (fun _ => ?_) (fun _ => ?_)
    | with_reducible refine snd_ite_keeps (fun _ => ?_) (fun _ => ?_)
    | with_reducible refine List.foldl_keeps ?_ (fun s x h => ?_)
    | with_reducible refine List.foldl_fst_keeps ?_ (fun s x h => ?_)
    | with_reducible refine List.foldl_snd_keeps ?_ (fun s x h => ?_)
    | intro s x h
    | simp only [Stable.mk_iff hP]
    | split
    | dsimp only

theorem execUnloadGraph_keeps (hP : Stable P) {q : QueueId} {d : BitVec 512} {aux : FetchAux} {s : State} (h : P s) :
    OutP P (execUnloadGraph q d aux s) := by
  unfold execUnloadGraph
  repeat' first
    | with_reducible assumption
    | with_reducible apply State.submit_keeps hP
    | with_reducible refine ite_keeps (fun _ => ?_) (fun _ => ?_)
    | with_reducible apply OutP.next
    | with_reducible refine OutP.ite (fun _ => ?_) (fun _ => ?_)
    | with_reducible refine fst_ite_keeps (fun _ => ?_) (fun _ => ?_)
    | with_reducible refine snd_ite_keeps (fun _ => ?_) (fun _ => ?_)
    | with_reducible refine List.foldl_keeps ?_ (fun s x h => ?_)
    | with_reducible refine List.foldl_fst_keeps ?_ (fun s x h => ?_)
    | with_reducible refine List.foldl_snd_keeps ?_ (fun s x h => ?_)
    | intro s x h
    | simp only [Stable.mk_iff hP]
    | split
    | dsimp only

theorem execPatch_keeps (hP : Stable P) {q : QueueId} {d : BitVec 512} {aux : FetchAux} {s : State} (h : P s) :
    OutP P (execPatch q d aux s) := by
  unfold execPatch
  repeat' first
    | with_reducible assumption
    | with_reducible apply State.submit_keeps hP
    | with_reducible refine ite_keeps (fun _ => ?_) (fun _ => ?_)
    | with_reducible apply OutP.next
    | with_reducible refine OutP.ite (fun _ => ?_) (fun _ => ?_)
    | with_reducible refine fst_ite_keeps (fun _ => ?_) (fun _ => ?_)
    | with_reducible refine snd_ite_keeps (fun _ => ?_) (fun _ => ?_)
    | with_reducible refine List.foldl_keeps ?_ (fun s x h => ?_)
    | with_reducible refine List.foldl_fst_keeps ?_ (fun s x h => ?_)
    | with_reducible refine List.foldl_snd_keeps ?_ (fun s x h => ?_)
    | intro s x h
    | simp only [Stable.mk_iff hP]
    | split
    | dsimp only

theorem execSubmitCopy_keeps (hP : Stable P) {q : QueueId} {d : BitVec 512} {aux : FetchAux} {s : State} (h : P s) :
    OutP P (execSubmitCopy q d aux s) := by
  unfold execSubmitCopy
  repeat' first
    | with_reducible assumption
    | with_reducible apply State.submit_keeps hP
    | with_reducible refine ite_keeps (fun _ => ?_) (fun _ => ?_)
    | with_reducible apply OutP.next
    | with_reducible refine OutP.ite (fun _ => ?_) (fun _ => ?_)
    | with_reducible refine fst_ite_keeps (fun _ => ?_) (fun _ => ?_)
    | with_reducible refine snd_ite_keeps (fun _ => ?_) (fun _ => ?_)
    | with_reducible refine List.foldl_keeps ?_ (fun s x h => ?_)
    | with_reducible refine List.foldl_fst_keeps ?_ (fun s x h => ?_)
    | with_reducible refine List.foldl_snd_keeps ?_ (fun s x h => ?_)
    | intro s x h
    | simp only [Stable.mk_iff hP]
    | split
    | dsimp only

theorem execAlloc_keeps (hP : Stable P) {q : QueueId} {d : BitVec 512} {aux : FetchAux} {frames : List (ℕ × ℕ)} {s : State} (h : P s) :
    OutP P (execAlloc q d aux frames s) := by
  unfold execAlloc
  repeat' first
    | with_reducible assumption
    | with_reducible apply State.submit_keeps hP
    | with_reducible refine ite_keeps (fun _ => ?_) (fun _ => ?_)
    | with_reducible apply OutP.next
    | with_reducible refine OutP.ite (fun _ => ?_) (fun _ => ?_)
    | with_reducible refine fst_ite_keeps (fun _ => ?_) (fun _ => ?_)
    | with_reducible refine snd_ite_keeps (fun _ => ?_) (fun _ => ?_)
    | with_reducible refine List.foldl_keeps ?_ (fun s x h => ?_)
    | with_reducible refine List.foldl_fst_keeps ?_ (fun s x h => ?_)
    | with_reducible refine List.foldl_snd_keeps ?_ (fun s x h => ?_)
    | intro s x h
    | simp only [Stable.mk_iff hP]
    | split
    | dsimp only

theorem execMapHost_keeps (hP : Stable P) {q : QueueId} {d : BitVec 512} {aux : FetchAux} {s : State} (h : P s) :
    OutP P (execMapHost q d aux s) := by
  unfold execMapHost
  repeat' first
    | with_reducible assumption
    | with_reducible apply State.submit_keeps hP
    | with_reducible refine ite_keeps (fun _ => ?_) (fun _ => ?_)
    | with_reducible apply OutP.next
    | with_reducible refine OutP.ite (fun _ => ?_) (fun _ => ?_)
    | with_reducible refine fst_ite_keeps (fun _ => ?_) (fun _ => ?_)
    | with_reducible refine snd_ite_keeps (fun _ => ?_) (fun _ => ?_)
    | with_reducible refine List.foldl_keeps ?_ (fun s x h => ?_)
    | with_reducible refine List.foldl_fst_keeps ?_ (fun s x h => ?_)
    | with_reducible refine List.foldl_snd_keeps ?_ (fun s x h => ?_)
    | intro s x h
    | simp only [Stable.mk_iff hP]
    | split
    | dsimp only

theorem execFree_keeps (hP : Stable P) {q : QueueId} {d : BitVec 512} {aux : FetchAux} {s : State} (h : P s) :
    OutP P (execFree q d aux s) := by
  unfold execFree
  repeat' first
    | with_reducible assumption
    | with_reducible apply State.submit_keeps hP
    | with_reducible refine ite_keeps (fun _ => ?_) (fun _ => ?_)
    | with_reducible apply OutP.next
    | with_reducible refine OutP.ite (fun _ => ?_) (fun _ => ?_)
    | with_reducible refine fst_ite_keeps (fun _ => ?_) (fun _ => ?_)
    | with_reducible refine snd_ite_keeps (fun _ => ?_) (fun _ => ?_)
    | with_reducible refine List.foldl_keeps ?_ (fun s x h => ?_)
    | with_reducible refine List.foldl_fst_keeps ?_ (fun s x h => ?_)
    | with_reducible refine List.foldl_snd_keeps ?_ (fun s x h => ?_)
    | intro s x h
    | simp only [Stable.mk_iff hP]
    | split
    | dsimp only

theorem execFenceCreate_keeps (hP : Stable P) {q : QueueId} {d : BitVec 512} {aux : FetchAux} {s : State} (h : P s) :
    OutP P (execFenceCreate q d aux s) := by
  unfold execFenceCreate
  repeat' first
    | with_reducible assumption
    | with_reducible apply State.submit_keeps hP
    | with_reducible refine ite_keeps (fun _ => ?_) (fun _ => ?_)
    | with_reducible apply OutP.next
    | with_reducible refine OutP.ite (fun _ => ?_) (fun _ => ?_)
    | with_reducible refine fst_ite_keeps (fun _ => ?_) (fun _ => ?_)
    | with_reducible refine snd_ite_keeps (fun _ => ?_) (fun _ => ?_)
    | with_reducible refine List.foldl_keeps ?_ (fun s x h => ?_)
    | with_reducible refine List.foldl_fst_keeps ?_ (fun s x h => ?_)
    | with_reducible refine List.foldl_snd_keeps ?_ (fun s x h => ?_)
    | intro s x h
    | simp only [Stable.mk_iff hP]
    | split
    | dsimp only

theorem execStreamOpen_keeps (hP : Stable P) {q : QueueId} {d : BitVec 512} {aux : FetchAux} {s : State} (h : P s) :
    OutP P (execStreamOpen q d aux s) := by
  unfold execStreamOpen
  repeat' first
    | with_reducible assumption
    | with_reducible apply State.submit_keeps hP
    | with_reducible refine ite_keeps (fun _ => ?_) (fun _ => ?_)
    | with_reducible apply OutP.next
    | with_reducible refine OutP.ite (fun _ => ?_) (fun _ => ?_)
    | with_reducible refine fst_ite_keeps (fun _ => ?_) (fun _ => ?_)
    | with_reducible refine snd_ite_keeps (fun _ => ?_) (fun _ => ?_)
    | with_reducible refine List.foldl_keeps ?_ (fun s x h => ?_)
    | with_reducible refine List.foldl_fst_keeps ?_ (fun s x h => ?_)
    | with_reducible refine List.foldl_snd_keeps ?_ (fun s x h => ?_)
    | intro s x h
    | simp only [Stable.mk_iff hP]
    | split
    | dsimp only

theorem execStreamCancel_keeps (hP : Stable P) {q : QueueId} {d : BitVec 512} {aux : FetchAux} {s : State} (h : P s) :
    OutP P (execStreamCancel q d aux s) := by
  unfold execStreamCancel
  repeat' first
    | with_reducible assumption
    | with_reducible apply State.submit_keeps hP
    | with_reducible refine ite_keeps (fun _ => ?_) (fun _ => ?_)
    | with_reducible apply OutP.next
    | with_reducible refine OutP.ite (fun _ => ?_) (fun _ => ?_)
    | with_reducible refine fst_ite_keeps (fun _ => ?_) (fun _ => ?_)
    | with_reducible refine snd_ite_keeps (fun _ => ?_) (fun _ => ?_)
    | with_reducible refine List.foldl_keeps ?_ (fun s x h => ?_)
    | with_reducible refine List.foldl_fst_keeps ?_ (fun s x h => ?_)
    | with_reducible refine List.foldl_snd_keeps ?_ (fun s x h => ?_)
    | intro s x h
    | simp only [Stable.mk_iff hP]
    | split
    | dsimp only

end Sys2Proof.Machine
end

