-- ==== Sys2Proof/Laws/KeepRecovery.lean ====
section
/-! SUPPORT. What the definitions of Machine/Recovery.lean keep. -/

set_option linter.unusedTactic false
set_option linter.unreachableTactic false

namespace Sys2Proof.Machine

variable {P : State → Prop}

theorem State.landingDone_keeps (hP : Stable P) {s : State} {id : ℕ} (h : P s) : P (State.landingDone s id) := by
  unfold State.landingDone
  repeat' first
    | with_reducible assumption
    | with_reducible apply State.setFld_keeps hP
    | with_reducible refine ite_keeps (fun _ => ?_) (fun _ => ?_)
    | with_reducible refine fst_ite_keeps (fun _ => ?_) (fun _ => ?_)
    | with_reducible refine snd_ite_keeps (fun _ => ?_) (fun _ => ?_)
    | with_reducible refine List.foldl_keeps ?_ (fun s x h => ?_)
    | with_reducible refine List.foldl_fst_keeps ?_ (fun s x h => ?_)
    | with_reducible refine List.foldl_snd_keeps ?_ (fun s x h => ?_)
    | intro s x h
    | simp only [Stable.mk_iff hP]
    | split
    | dsimp only

theorem State.landingsDone_keeps (hP : Stable P) {s : State} {t : LandingSt → Bool} (h : P s) : P (State.landingsDone s t) := by
  unfold State.landingsDone
  repeat' first
    | with_reducible assumption
    | with_reducible apply State.landingDone_keeps hP
    | with_reducible refine ite_keeps (fun _ => ?_) (fun _ => ?_)
    | with_reducible refine fst_ite_keeps (fun _ => ?_) (fun _ => ?_)
    | with_reducible refine snd_ite_keeps (fun _ => ?_) (fun _ => ?_)
    | with_reducible refine List.foldl_keeps ?_ (fun s x h => ?_)
    | with_reducible refine List.foldl_fst_keeps ?_ (fun s x h => ?_)
    | with_reducible refine List.foldl_snd_keeps ?_ (fun s x h => ?_)
    | intro s x h
    | simp only [Stable.mk_iff hP]
    | split
    | dsimp only

theorem State.absorb_keeps (hP : Stable P) {s : State} {t : LandingSt → Bool} (h : P s) : P (State.absorb s t) := by
  unfold State.absorb
  repeat' first
    | with_reducible assumption
    | with_reducible refine ite_keeps (fun _ => ?_) (fun _ => ?_)
    | with_reducible refine fst_ite_keeps (fun _ => ?_) (fun _ => ?_)
    | with_reducible refine snd_ite_keeps (fun _ => ?_) (fun _ => ?_)
    | with_reducible refine List.foldl_keeps ?_ (fun s x h => ?_)
    | with_reducible refine List.foldl_fst_keeps ?_ (fun s x h => ?_)
    | with_reducible refine List.foldl_snd_keeps ?_ (fun s x h => ?_)
    | intro s x h
    | simp only [Stable.mk_iff hP]
    | split
    | dsimp only

theorem State.tornDescriptors_keeps (hP : Stable P) {s : State} (h : P s) : P (State.tornDescriptors s) := by
  unfold State.tornDescriptors
  repeat' first
    | with_reducible assumption
    | with_reducible apply State.dropBgs_keeps hP
    | with_reducible apply State.complete_keeps hP
    | with_reducible refine ite_keeps (fun _ => ?_) (fun _ => ?_)
    | with_reducible refine fst_ite_keeps (fun _ => ?_) (fun _ => ?_)
    | with_reducible refine snd_ite_keeps (fun _ => ?_) (fun _ => ?_)
    | with_reducible refine List.foldl_keeps ?_ (fun s x h => ?_)
    | with_reducible refine List.foldl_fst_keeps ?_ (fun s x h => ?_)
    | with_reducible refine List.foldl_snd_keeps ?_ (fun s x h => ?_)
    | intro s x h
    | simp only [Stable.mk_iff hP]
    | split
    | dsimp only

theorem State.park_keeps (hP : Stable P) {s : State} {cause : ℕ} (h : P s) : P (State.park s cause) := by
  unfold State.park
  repeat' first
    | with_reducible assumption
    | with_reducible apply State.endFlights_keeps hP
    | with_reducible apply State.tornDescriptors_keeps hP
    | with_reducible apply State.alarm_keeps hP
    | with_reducible apply State.setPstate_keeps hP
    | with_reducible apply State.setFld_keeps hP
    | with_reducible apply State.each_keeps hP
    | with_reducible apply State.setCore_keeps hP
    | with_reducible refine ite_keeps (fun _ => ?_) (fun _ => ?_)
    | with_reducible refine fst_ite_keeps (fun _ => ?_) (fun _ => ?_)
    | with_reducible refine snd_ite_keeps (fun _ => ?_) (fun _ => ?_)
    | with_reducible refine List.foldl_keeps ?_ (fun s x h => ?_)
    | with_reducible refine List.foldl_fst_keeps ?_ (fun s x h => ?_)
    | with_reducible refine List.foldl_snd_keeps ?_ (fun s x h => ?_)
    | intro s x h
    | simp only [Stable.mk_iff hP]
    | split
    | dsimp only

theorem State.zeroiseAll_keeps (hP : Stable P) {s : State} (h : P s) : P (State.zeroiseAll s) := by
  unfold State.zeroiseAll
  repeat' first
    | with_reducible assumption
    | with_reducible refine ite_keeps (fun _ => ?_) (fun _ => ?_)
    | with_reducible refine fst_ite_keeps (fun _ => ?_) (fun _ => ?_)
    | with_reducible refine snd_ite_keeps (fun _ => ?_) (fun _ => ?_)
    | with_reducible refine List.foldl_keeps ?_ (fun s x h => ?_)
    | with_reducible refine List.foldl_fst_keeps ?_ (fun s x h => ?_)
    | with_reducible refine List.foldl_snd_keeps ?_ (fun s x h => ?_)
    | intro s x h
    | simp only [Stable.mk_iff hP]
    | split
    | dsimp only

theorem State.cryptoError_keeps (hP : Stable P) {s : State} (h : P s) : P (State.cryptoError s) := by
  unfold State.cryptoError
  repeat' first
    | with_reducible assumption
    | with_reducible apply State.park_keeps hP
    | with_reducible apply State.zeroiseAll_keeps hP
    | with_reducible refine ite_keeps (fun _ => ?_) (fun _ => ?_)
    | with_reducible refine fst_ite_keeps (fun _ => ?_) (fun _ => ?_)
    | with_reducible refine snd_ite_keeps (fun _ => ?_) (fun _ => ?_)
    | with_reducible refine List.foldl_keeps ?_ (fun s x h => ?_)
    | with_reducible refine List.foldl_fst_keeps ?_ (fun s x h => ?_)
    | with_reducible refine List.foldl_snd_keeps ?_ (fun s x h => ?_)
    | intro s x h
    | simp only [Stable.mk_iff hP]
    | split
    | dsimp only

theorem State.tearBg_keeps (hP : Stable P) {s : State} {p : ℕ} {a2 : ℕ} (h : P s) : P (State.tearBg s p a2) := by
  unfold State.tearBg
  repeat' first
    | with_reducible assumption
    | with_reducible apply State.dropBgs_keeps hP
    | with_reducible apply State.complete_keeps hP
    | with_reducible apply State.each_keeps hP
    | with_reducible apply State.fcAbandon_keeps hP
    | with_reducible refine ite_keeps (fun _ => ?_) (fun _ => ?_)
    | with_reducible refine fst_ite_keeps (fun _ => ?_) (fun _ => ?_)
    | with_reducible refine snd_ite_keeps (fun _ => ?_) (fun _ => ?_)
    | with_reducible refine List.foldl_keeps ?_ (fun s x h => ?_)
    | with_reducible refine List.foldl_fst_keeps ?_ (fun s x h => ?_)
    | with_reducible refine List.foldl_snd_keeps ?_ (fun s x h => ?_)
    | intro s x h
    | simp only [Stable.mk_iff hP]
    | split
    | dsimp only

theorem State.dropFlits_keeps (hP : Stable P) {s : State} {p : ℕ} {a2 : ℕ} (h : P s) : P (State.dropFlits s p a2) := by
  unfold State.dropFlits
  repeat' first
    | with_reducible assumption
    | with_reducible refine ite_keeps (fun _ => ?_) (fun _ => ?_)
    | with_reducible refine fst_ite_keeps (fun _ => ?_) (fun _ => ?_)
    | with_reducible refine snd_ite_keeps (fun _ => ?_) (fun _ => ?_)
    | with_reducible refine List.foldl_keeps ?_ (fun s x h => ?_)
    | with_reducible refine List.foldl_fst_keeps ?_ (fun s x h => ?_)
    | with_reducible refine List.foldl_snd_keeps ?_ (fun s x h => ?_)
    | intro s x h
    | simp only [Stable.mk_iff hP]
    | split
    | dsimp only

theorem State.fenceCtx_keeps (hP : Stable P) {s : State} {p : ℕ} {a2 : ℕ} (h : P s) : P (State.fenceCtx s p a2) := by
  unfold State.fenceCtx
  repeat' first
    | with_reducible assumption
    | with_reducible apply State.setCtx_keeps hP
    | with_reducible apply State.dropFlits_keeps hP
    | with_reducible apply State.tearBg_keeps hP
    | with_reducible apply State.complete_keeps hP
    | with_reducible apply State.each_keeps hP
    | with_reducible apply State.setRows_keeps hP
    | with_reducible refine ite_keeps (fun _ => ?_) (fun _ => ?_)
    | with_reducible refine fst_ite_keeps (fun _ => ?_) (fun _ => ?_)
    | with_reducible refine snd_ite_keeps (fun _ => ?_) (fun _ => ?_)
    | with_reducible refine List.foldl_keeps ?_ (fun s x h => ?_)
    | with_reducible refine List.foldl_fst_keeps ?_ (fun s x h => ?_)
    | with_reducible refine List.foldl_snd_keeps ?_ (fun s x h => ?_)
    | intro s x h
    | simp only [Stable.mk_iff hP]
    | split
    | dsimp only

theorem State.joinLanding_keeps (hP : Stable P) {s : State} {p : ℕ} {a2 : ℕ} (h : P s) : P (State.joinLanding s p a2) := by
  unfold State.joinLanding
  repeat' first
    | with_reducible assumption
    | with_reducible apply State.updCtx_keeps hP
    | with_reducible refine ite_keeps (fun _ => ?_) (fun _ => ?_)
    | with_reducible refine fst_ite_keeps (fun _ => ?_) (fun _ => ?_)
    | with_reducible refine snd_ite_keeps (fun _ => ?_) (fun _ => ?_)
    | with_reducible refine List.foldl_keeps ?_ (fun s x h => ?_)
    | with_reducible refine List.foldl_fst_keeps ?_ (fun s x h => ?_)
    | with_reducible refine List.foldl_snd_keeps ?_ (fun s x h => ?_)
    | intro s x h
    | simp only [Stable.mk_iff hP]
    | split
    | dsimp only

theorem execContextFence_keeps (hP : Stable P) {p : PartId} {a1 : BitVec 16} {s : State} (h : P s) : OutP P (execContextFence p a1 s) := by
  unfold execContextFence
  repeat' first
    | with_reducible assumption
    | with_reducible apply State.joinLanding_keeps hP
    | with_reducible apply State.fenceCtx_keeps hP
    | with_reducible refine ite_keeps (fun _ => ?_) (fun _ => ?_)
    | with_reducible apply OutP.next
    | with_reducible refine OutP.ite (fun _ => ?_) (fun _ => ?_)
    | with_reducible refine fst_ite_keeps (fun _ => ?_) (fun _ => ?_)
    | with_reducible refine snd_ite_keeps (fun _ => ?_) (fun _ => ?_)
    | with_reducible refine List.foldl_keeps ?_ (fun s x h => ?_)
    | with_reducible refine List.foldl_fst_keeps ?_ (fun s x h => ?_)
    | with_reducible refine List.foldl_snd_keeps ?_ (fun s x h => ?_)
    | intro s x h
    | simp only [Stable.mk_iff hP]
    | split
    | dsimp only

theorem State.drainCtx_keeps (hP : Stable P) {s : State} {p : ℕ} {a2 : ℕ} (h : P s) : P (State.drainCtx s p a2) := by
  unfold State.drainCtx
  repeat' first
    | with_reducible assumption
    | with_reducible apply State.setCtx_keeps hP
    | with_reducible apply State.staleDrop_keeps hP
    | with_reducible refine ite_keeps (fun _ => ?_) (fun _ => ?_)
    | with_reducible refine fst_ite_keeps (fun _ => ?_) (fun _ => ?_)
    | with_reducible refine snd_ite_keeps (fun _ => ?_) (fun _ => ?_)
    | with_reducible refine List.foldl_keeps ?_ (fun s x h => ?_)
    | with_reducible refine List.foldl_fst_keeps ?_ (fun s x h => ?_)
    | with_reducible refine List.foldl_snd_keeps ?_ (fun s x h => ?_)
    | intro s x h
    | simp only [Stable.mk_iff hP]
    | split
    | dsimp only

theorem execContextDrainComplete_keeps (hP : Stable P) {p : PartId} {a1 : BitVec 16} {s : State} (h : P s) :
    OutP P (execContextDrainComplete p a1 s) := by
  unfold execContextDrainComplete
  repeat' first
    | with_reducible assumption
    | with_reducible apply State.drainCtx_keeps hP
    | with_reducible refine ite_keeps (fun _ => ?_) (fun _ => ?_)
    | with_reducible apply OutP.next
    | with_reducible refine OutP.ite (fun _ => ?_) (fun _ => ?_)
    | with_reducible refine fst_ite_keeps (fun _ => ?_) (fun _ => ?_)
    | with_reducible refine snd_ite_keeps (fun _ => ?_) (fun _ => ?_)
    | with_reducible refine List.foldl_keeps ?_ (fun s x h => ?_)
    | with_reducible refine List.foldl_fst_keeps ?_ (fun s x h => ?_)
    | with_reducible refine List.foldl_snd_keeps ?_ (fun s x h => ?_)
    | intro s x h
    | simp only [Stable.mk_iff hP]
    | split
    | dsimp only

theorem State.clearCtx_keeps (hP : Stable P) {s : State} {p : ℕ} {a2 : ℕ} (h : P s) : P (State.clearCtx s p a2) := by
  unfold State.clearCtx
  repeat' first
    | with_reducible assumption
    | with_reducible apply State.setCore_keeps hP
    | with_reducible apply State.each_keeps hP
    | with_reducible apply State.startBg_keeps hP
    | with_reducible apply State.setCtx_keeps hP
    | with_reducible apply State.landingsDone_keeps hP
    | with_reducible refine ite_keeps (fun _ => ?_) (fun _ => ?_)
    | with_reducible refine fst_ite_keeps (fun _ => ?_) (fun _ => ?_)
    | with_reducible refine snd_ite_keeps (fun _ => ?_) (fun _ => ?_)
    | with_reducible refine List.foldl_keeps ?_ (fun s x h => ?_)
    | with_reducible refine List.foldl_fst_keeps ?_ (fun s x h => ?_)
    | with_reducible refine List.foldl_snd_keeps ?_ (fun s x h => ?_)
    | intro s x h
    | simp only [Stable.mk_iff hP]
    | split
    | dsimp only

theorem execContextClearComplete_keeps (hP : Stable P) {p : PartId} {a1 : BitVec 16} {s : State} (h : P s) :
    OutP P (execContextClearComplete p a1 s) := by
  unfold execContextClearComplete
  repeat' first
    | with_reducible assumption
    | with_reducible apply State.clearCtx_keeps hP
    | with_reducible refine ite_keeps (fun _ => ?_) (fun _ => ?_)
    | with_reducible apply OutP.next
    | with_reducible refine OutP.ite (fun _ => ?_) (fun _ => ?_)
    | with_reducible refine fst_ite_keeps (fun _ => ?_) (fun _ => ?_)
    | with_reducible refine snd_ite_keeps (fun _ => ?_) (fun _ => ?_)
    | with_reducible refine List.foldl_keeps ?_ (fun s x h => ?_)
    | with_reducible refine List.foldl_fst_keeps ?_ (fun s x h => ?_)
    | with_reducible refine List.foldl_snd_keeps ?_ (fun s x h => ?_)
    | intro s x h
    | simp only [Stable.mk_iff hP]
    | split
    | dsimp only

theorem State.readmit_keeps (hP : Stable P) {s : State} {p : ℕ} {a2 : ℕ} (h : P s) : P (State.readmit s p a2) := by
  unfold State.readmit
  repeat' first
    | with_reducible assumption
    | with_reducible apply State.draw_keeps hP
    | with_reducible apply State.setCtx_keeps hP
    | with_reducible refine ite_keeps (fun _ => ?_) (fun _ => ?_)
    | with_reducible refine fst_ite_keeps (fun _ => ?_) (fun _ => ?_)
    | with_reducible refine snd_ite_keeps (fun _ => ?_) (fun _ => ?_)
    | with_reducible refine List.foldl_keeps ?_ (fun s x h => ?_)
    | with_reducible refine List.foldl_fst_keeps ?_ (fun s x h => ?_)
    | with_reducible refine List.foldl_snd_keeps ?_ (fun s x h => ?_)
    | intro s x h
    | simp only [Stable.mk_iff hP]
    | split
    | dsimp only

theorem State.clearGallery_keeps (hP : Stable P) {s : State} {g : ℕ} {p : Option ℕ} {stays : Bool} (h : P s) :
    P (State.clearGallery s g p stays) := by
  unfold State.clearGallery
  repeat' first
    | with_reducible assumption
    | with_reducible apply State.each_keeps hP
    | with_reducible apply State.setCore_keeps hP
    | with_reducible refine ite_keeps (fun _ => ?_) (fun _ => ?_)
    | with_reducible refine fst_ite_keeps (fun _ => ?_) (fun _ => ?_)
    | with_reducible refine snd_ite_keeps (fun _ => ?_) (fun _ => ?_)
    | with_reducible refine List.foldl_keeps ?_ (fun s x h => ?_)
    | with_reducible refine List.foldl_fst_keeps ?_ (fun s x h => ?_)
    | with_reducible refine List.foldl_snd_keeps ?_ (fun s x h => ?_)
    | intro s x h
    | simp only [Stable.mk_iff hP]
    | split
    | dsimp only

theorem State.releaseKv_keeps (hP : Stable P) {s : State} {p : ℕ} (h : P s) : P (State.releaseKv s p) := by
  unfold State.releaseKv
  repeat' first
    | with_reducible assumption
    | with_reducible apply State.each_keeps hP
    | with_reducible apply State.setStk_keeps hP
    | with_reducible refine ite_keeps (fun _ => ?_) (fun _ => ?_)
    | with_reducible refine fst_ite_keeps (fun _ => ?_) (fun _ => ?_)
    | with_reducible refine snd_ite_keeps (fun _ => ?_) (fun _ => ?_)
    | with_reducible refine List.foldl_keeps ?_ (fun s x h => ?_)
    | with_reducible refine List.foldl_fst_keeps ?_ (fun s x h => ?_)
    | with_reducible refine List.foldl_snd_keeps ?_ (fun s x h => ?_)
    | intro s x h
    | simp only [Stable.mk_iff hP]
    | split
    | dsimp only

theorem State.tearAll_keeps (hP : Stable P) {s : State} {p : ℕ} (h : P s) : P (State.tearAll s p) := by
  unfold State.tearAll
  repeat' first
    | with_reducible assumption
    | with_reducible apply State.setCtx_keeps hP
    | with_reducible apply State.fenceCtx_keeps hP
    | with_reducible apply State.clearCtx_keeps hP
    | with_reducible apply State.drainCtx_keeps hP
    | with_reducible refine ite_keeps (fun _ => ?_) (fun _ => ?_)
    | with_reducible refine fst_ite_keeps (fun _ => ?_) (fun _ => ?_)
    | with_reducible refine snd_ite_keeps (fun _ => ?_) (fun _ => ?_)
    | with_reducible refine List.foldl_keeps ?_ (fun s x h => ?_)
    | with_reducible refine List.foldl_fst_keeps ?_ (fun s x h => ?_)
    | with_reducible refine List.foldl_snd_keeps ?_ (fun s x h => ?_)
    | intro s x h
    | simp only [Stable.mk_iff hP]
    | split
    | dsimp only

theorem State.loseStreams_keeps (hP : Stable P) {s : State} {p : ℕ} (h : P s) : P (State.loseStreams s p) := by
  unfold State.loseStreams
  repeat' first
    | with_reducible assumption
    | with_reducible refine ite_keeps (fun _ => ?_) (fun _ => ?_)
    | with_reducible refine fst_ite_keeps (fun _ => ?_) (fun _ => ?_)
    | with_reducible refine snd_ite_keeps (fun _ => ?_) (fun _ => ?_)
    | with_reducible refine List.foldl_keeps ?_ (fun s x h => ?_)
    | with_reducible refine List.foldl_fst_keeps ?_ (fun s x h => ?_)
    | with_reducible refine List.foldl_snd_keeps ?_ (fun s x h => ?_)
    | intro s x h
    | simp only [Stable.mk_iff hP]
    | split
    | dsimp only

theorem State.mirrorLoses_keeps (hP : Stable P) {s : State} {p : ℕ} (h : P s) : P (State.mirrorLoses s p) := by
  unfold State.mirrorLoses
  repeat' first
    | with_reducible assumption
    | with_reducible apply State.setMirp_keeps hP
    | with_reducible refine ite_keeps (fun _ => ?_) (fun _ => ?_)
    | with_reducible refine fst_ite_keeps (fun _ => ?_) (fun _ => ?_)
    | with_reducible refine snd_ite_keeps (fun _ => ?_) (fun _ => ?_)
    | with_reducible refine List.foldl_keeps ?_ (fun s x h => ?_)
    | with_reducible refine List.foldl_fst_keeps ?_ (fun s x h => ?_)
    | with_reducible refine List.foldl_snd_keeps ?_ (fun s x h => ?_)
    | intro s x h
    | simp only [Stable.mk_iff hP]
    | split
    | dsimp only

theorem State.landing3Effects_keeps (hP : Stable P) {s : State} {p : ℕ} (h : P s) : P (State.landing3Effects s p) := by
  unfold State.landing3Effects
  repeat' first
    | with_reducible assumption
    | with_reducible apply State.tearAll_keeps hP
    | with_reducible apply State.absorb_keeps hP
    | with_reducible apply State.releaseKv_keeps hP
    | with_reducible apply State.loseStreams_keeps hP
    | with_reducible apply State.clearGallery_keeps hP
    | with_reducible apply State.setPart_keeps hP
    | with_reducible apply State.mirrorLoses_keeps hP
    | with_reducible refine ite_keeps (fun _ => ?_) (fun _ => ?_)
    | with_reducible refine fst_ite_keeps (fun _ => ?_) (fun _ => ?_)
    | with_reducible refine snd_ite_keeps (fun _ => ?_) (fun _ => ?_)
    | with_reducible refine List.foldl_keeps ?_ (fun s x h => ?_)
    | with_reducible refine List.foldl_fst_keeps ?_ (fun s x h => ?_)
    | with_reducible refine List.foldl_snd_keeps ?_ (fun s x h => ?_)
    | intro s x h
    | simp only [Stable.mk_iff hP]
    | split
    | dsimp only

theorem State.haltFor_keeps (hP : Lasting P) {s : State} {ps : List ℕ} (h : P s) : P (State.haltFor s ps) := by
  unfold State.haltFor
  repeat' first
    | with_reducible assumption
    | with_reducible apply State.writeReport_keeps hP
    | with_reducible apply State.haltPart_keeps hP.stable
    | with_reducible refine ite_keeps (fun _ => ?_) (fun _ => ?_)
    | with_reducible refine fst_ite_keeps (fun _ => ?_) (fun _ => ?_)
    | with_reducible refine snd_ite_keeps (fun _ => ?_) (fun _ => ?_)
    | with_reducible refine List.foldl_keeps ?_ (fun s x h => ?_)
    | with_reducible refine List.foldl_fst_keeps ?_ (fun s x h => ?_)
    | with_reducible refine List.foldl_snd_keeps ?_ (fun s x h => ?_)
    | intro s x h
    | simp only [Stable.mk_iff hP.stable]
    | split
    | dsimp only

theorem State.landing3_keeps (hP : Lasting P) {s : State} {p : ℕ} {unit : ℕ} {status : ℕ} (h : P s) : P (State.landing3 s p unit status) := by
  unfold State.landing3
  repeat' first
    | with_reducible assumption
    | with_reducible apply State.haltFor_keeps hP
    | with_reducible apply State.landing_keeps hP.stable
    | with_reducible apply State.landing3Effects_keeps hP.stable
    | with_reducible apply State.landingsDone_keeps hP.stable
    | with_reducible refine ite_keeps (fun _ => ?_) (fun _ => ?_)
    | with_reducible refine fst_ite_keeps (fun _ => ?_) (fun _ => ?_)
    | with_reducible refine snd_ite_keeps (fun _ => ?_) (fun _ => ?_)
    | with_reducible refine List.foldl_keeps ?_ (fun s x h => ?_)
    | with_reducible refine List.foldl_fst_keeps ?_ (fun s x h => ?_)
    | with_reducible refine List.foldl_snd_keeps ?_ (fun s x h => ?_)
    | intro s x h
    | simp only [Stable.mk_iff hP.stable]
    | split
    | dsimp only

theorem State.unresident_keeps (hP : Stable P) {s : State} {p : ℕ} (h : P s) : P (State.unresident s p) := by
  unfold State.unresident
  repeat' first
    | with_reducible assumption
    | with_reducible apply State.releaseFrames_keeps hP
    | with_reducible apply State.setPart_keeps hP
    | with_reducible refine ite_keeps (fun _ => ?_) (fun _ => ?_)
    | with_reducible refine fst_ite_keeps (fun _ => ?_) (fun _ => ?_)
    | with_reducible refine snd_ite_keeps (fun _ => ?_) (fun _ => ?_)
    | with_reducible refine List.foldl_keeps ?_ (fun s x h => ?_)
    | with_reducible refine List.foldl_fst_keeps ?_ (fun s x h => ?_)
    | with_reducible refine List.foldl_snd_keeps ?_ (fun s x h => ?_)
    | intro s x h
    | simp only [Stable.mk_iff hP]
    | split
    | dsimp only

theorem State.reloadFirmware_keeps (hP : Stable P) {s : State} (h : P s) : P (State.reloadFirmware s) := by
  unfold State.reloadFirmware
  repeat' first
    | with_reducible assumption
    | with_reducible apply State.extendSlot_keeps hP
    | with_reducible apply State.park_keeps hP
    | with_reducible refine ite_keeps (fun _ => ?_) (fun _ => ?_)
    | with_reducible refine fst_ite_keeps (fun _ => ?_) (fun _ => ?_)
    | with_reducible refine snd_ite_keeps (fun _ => ?_) (fun _ => ?_)
    | with_reducible refine List.foldl_keeps ?_ (fun s x h => ?_)
    | with_reducible refine List.foldl_fst_keeps ?_ (fun s x h => ?_)
    | with_reducible refine List.foldl_snd_keeps ?_ (fun s x h => ?_)
    | intro s x h
    | simp only [Stable.mk_iff hP]
    | split
    | dsimp only

theorem State.landing4_keeps (hP : Lasting P) {s : State} {unit : ℕ} {status : ℕ} (h : P s) : P (State.landing4 s unit status) := by
  unfold State.landing4
  repeat' first
    | with_reducible assumption
    | with_reducible apply State.landing_keeps hP.stable
    | with_reducible apply State.alarm_keeps hP.stable
    | with_reducible apply State.stampTime_keeps hP.stable
    | with_reducible apply State.haltFor_keeps hP
    | with_reducible apply State.absorb_keeps hP.stable
    | with_reducible apply State.each_keeps hP.stable
    | with_reducible apply State.unresident_keeps hP.stable
    | with_reducible apply State.landing3Effects_keeps hP.stable
    | with_reducible apply State.tornDescriptors_keeps hP.stable
    | with_reducible apply State.endFlights_keeps hP.stable
    | with_reducible apply State.clearGallery_keeps hP.stable
    | with_reducible apply State.fcAbandon_keeps hP.stable
    | with_reducible apply State.setFld_keeps hP.stable
    | with_reducible apply State.setStk_keeps hP.stable
    | with_reducible apply State.reloadFirmware_keeps hP.stable
    | with_reducible apply State.park_keeps hP.stable
    | with_reducible refine ite_keeps (fun _ => ?_) (fun _ => ?_)
    | with_reducible refine fst_ite_keeps (fun _ => ?_) (fun _ => ?_)
    | with_reducible refine snd_ite_keeps (fun _ => ?_) (fun _ => ?_)
    | with_reducible refine List.foldl_keeps ?_ (fun s x h => ?_)
    | with_reducible refine List.foldl_fst_keeps ?_ (fun s x h => ?_)
    | with_reducible refine List.foldl_snd_keeps ?_ (fun s x h => ?_)
    | intro s x h
    | simp only [Stable.mk_iff hP.stable]
    | split
    | dsimp only

theorem execLanding3Request_keeps (hP : Lasting P) {p : PartId} {s : State} (h : P s) : OutP P (execLanding3Request p s) := by
  unfold execLanding3Request
  repeat' first
    | with_reducible assumption
    | with_reducible apply State.landing3_keeps hP
    | with_reducible refine ite_keeps (fun _ => ?_) (fun _ => ?_)
    | with_reducible apply OutP.next
    | with_reducible refine OutP.ite (fun _ => ?_) (fun _ => ?_)
    | with_reducible refine fst_ite_keeps (fun _ => ?_) (fun _ => ?_)
    | with_reducible refine snd_ite_keeps (fun _ => ?_) (fun _ => ?_)
    | with_reducible refine List.foldl_keeps ?_ (fun s x h => ?_)
    | with_reducible refine List.foldl_fst_keeps ?_ (fun s x h => ?_)
    | with_reducible refine List.foldl_snd_keeps ?_ (fun s x h => ?_)
    | intro s x h
    | simp only [Stable.mk_iff hP.stable]
    | split
    | dsimp only

theorem execLanding4_keeps (hP : Lasting P) {s : State} (h : P s) : OutP P (execLanding4 s) := by
  unfold execLanding4
  repeat' first
    | with_reducible assumption
    | with_reducible apply State.landing4_keeps hP
    | with_reducible refine ite_keeps (fun _ => ?_) (fun _ => ?_)
    | with_reducible apply OutP.next
    | with_reducible refine OutP.ite (fun _ => ?_) (fun _ => ?_)
    | with_reducible refine fst_ite_keeps (fun _ => ?_) (fun _ => ?_)
    | with_reducible refine snd_ite_keeps (fun _ => ?_) (fun _ => ?_)
    | with_reducible refine List.foldl_keeps ?_ (fun s x h => ?_)
    | with_reducible refine List.foldl_fst_keeps ?_ (fun s x h => ?_)
    | with_reducible refine List.foldl_snd_keeps ?_ (fun s x h => ?_)
    | intro s x h
    | simp only [Stable.mk_iff hP.stable]
    | split
    | dsimp only

theorem State.escalate_keeps (hP : Lasting P) {s : State} {l : LandingSt} (h : P s) : P (State.escalate s l) := by
  unfold State.escalate
  repeat' first
    | with_reducible assumption
    | with_reducible apply State.absorb_keeps hP.stable
    | with_reducible apply State.landing3_keeps hP
    | with_reducible apply State.landing4_keeps hP
    | with_reducible apply State.park_keeps hP.stable
    | with_reducible refine ite_keeps (fun _ => ?_) (fun _ => ?_)
    | with_reducible refine fst_ite_keeps (fun _ => ?_) (fun _ => ?_)
    | with_reducible refine snd_ite_keeps (fun _ => ?_) (fun _ => ?_)
    | with_reducible refine List.foldl_keeps ?_ (fun s x h => ?_)
    | with_reducible refine List.foldl_fst_keeps ?_ (fun s x h => ?_)
    | with_reducible refine List.foldl_snd_keeps ?_ (fun s x h => ?_)
    | intro s x h
    | simp only [Stable.mk_iff hP.stable]
    | split
    | dsimp only

theorem execLandingBoundExpiry_keeps (hP : Lasting P) {id : ℕ} {s : State} (h : P s) : OutP P (execLandingBoundExpiry id s) := by
  unfold execLandingBoundExpiry
  repeat' first
    | with_reducible assumption
    | with_reducible apply State.escalate_keeps hP
    | with_reducible refine ite_keeps (fun _ => ?_) (fun _ => ?_)
    | with_reducible apply OutP.next
    | with_reducible refine OutP.ite (fun _ => ?_) (fun _ => ?_)
    | with_reducible refine fst_ite_keeps (fun _ => ?_) (fun _ => ?_)
    | with_reducible refine snd_ite_keeps (fun _ => ?_) (fun _ => ?_)
    | with_reducible refine List.foldl_keeps ?_ (fun s x h => ?_)
    | with_reducible refine List.foldl_fst_keeps ?_ (fun s x h => ?_)
    | with_reducible refine List.foldl_snd_keeps ?_ (fun s x h => ?_)
    | intro s x h
    | simp only [Stable.mk_iff hP.stable]
    | split
    | dsimp only

theorem State.landing2_keeps (hP : Lasting P) {s : State} {u : ℕ} {status : ℕ} (h : P s) : P (State.landing2 s u status) := by
  unfold State.landing2
  repeat' first
    | with_reducible assumption
    | with_reducible apply State.landing_keeps hP.stable
    | with_reducible apply State.haltFor_keeps hP
    | with_reducible refine ite_keeps (fun _ => ?_) (fun _ => ?_)
    | with_reducible refine fst_ite_keeps (fun _ => ?_) (fun _ => ?_)
    | with_reducible refine snd_ite_keeps (fun _ => ?_) (fun _ => ?_)
    | with_reducible refine List.foldl_keeps ?_ (fun s x h => ?_)
    | with_reducible refine List.foldl_fst_keeps ?_ (fun s x h => ?_)
    | with_reducible refine List.foldl_snd_keeps ?_ (fun s x h => ?_)
    | intro s x h
    | simp only [Stable.mk_iff hP.stable]
    | split
    | dsimp only

theorem State.retireCore_keeps (hP : Stable P) {s : State} {c : ℕ} (h : P s) : P (State.retireCore s c) := by
  unfold State.retireCore
  repeat' first
    | with_reducible assumption
    | with_reducible apply State.setCore_keeps hP
    | with_reducible refine ite_keeps (fun _ => ?_) (fun _ => ?_)
    | with_reducible refine fst_ite_keeps (fun _ => ?_) (fun _ => ?_)
    | with_reducible refine snd_ite_keeps (fun _ => ?_) (fun _ => ?_)
    | with_reducible refine List.foldl_keeps ?_ (fun s x h => ?_)
    | with_reducible refine List.foldl_fst_keeps ?_ (fun s x h => ?_)
    | with_reducible refine List.foldl_snd_keeps ?_ (fun s x h => ?_)
    | intro s x h
    | simp only [Stable.mk_iff hP]
    | split
    | dsimp only

theorem State.unattributed_keeps (hP : Lasting P) {s : State} {u : ℕ} (h : P s) : P (State.unattributed s u) := by
  unfold State.unattributed
  repeat' first
    | with_reducible assumption
    | with_reducible apply State.retireCore_keeps hP.stable
    | with_reducible apply State.landing4_keeps hP
    | with_reducible refine ite_keeps (fun _ => ?_) (fun _ => ?_)
    | with_reducible refine fst_ite_keeps (fun _ => ?_) (fun _ => ?_)
    | with_reducible refine snd_ite_keeps (fun _ => ?_) (fun _ => ?_)
    | with_reducible refine List.foldl_keeps ?_ (fun s x h => ?_)
    | with_reducible refine List.foldl_fst_keeps ?_ (fun s x h => ?_)
    | with_reducible refine List.foldl_snd_keeps ?_ (fun s x h => ?_)
    | intro s x h
    | simp only [Stable.mk_iff hP.stable]
    | split
    | dsimp only

theorem State.hangNew_keeps (hP : Lasting P) {s : State} {u : ℕ} (h : P s) : P (State.hangNew s u) := by
  unfold State.hangNew
  repeat' first
    | with_reducible assumption
    | with_reducible apply State.landing2_keeps hP
    | with_reducible apply State.unattributed_keeps hP
    | with_reducible refine ite_keeps (fun _ => ?_) (fun _ => ?_)
    | with_reducible refine fst_ite_keeps (fun _ => ?_) (fun _ => ?_)
    | with_reducible refine snd_ite_keeps (fun _ => ?_) (fun _ => ?_)
    | with_reducible refine List.foldl_keeps ?_ (fun s x h => ?_)
    | with_reducible refine List.foldl_fst_keeps ?_ (fun s x h => ?_)
    | with_reducible refine List.foldl_snd_keeps ?_ (fun s x h => ?_)
    | intro s x h
    | simp only [Stable.mk_iff hP.stable]
    | split
    | dsimp only

theorem State.hang_keeps (hP : Lasting P) {s : State} {u : ℕ} (h : P s) : P (State.hang s u) := by
  unfold State.hang
  repeat' first
    | with_reducible assumption
    | with_reducible apply State.landing2_keeps hP
    | with_reducible apply State.contain_keeps hP.stable
    | with_reducible apply State.hangNew_keeps hP
    | with_reducible refine ite_keeps (fun _ => ?_) (fun _ => ?_)
    | with_reducible refine fst_ite_keeps (fun _ => ?_) (fun _ => ?_)
    | with_reducible refine snd_ite_keeps (fun _ => ?_) (fun _ => ?_)
    | with_reducible refine List.foldl_keeps ?_ (fun s x h => ?_)
    | with_reducible refine List.foldl_fst_keeps ?_ (fun s x h => ?_)
    | with_reducible refine List.foldl_snd_keeps ?_ (fun s x h => ?_)
    | intro s x h
    | simp only [Stable.mk_iff hP.stable]
    | split
    | dsimp only

theorem execEngineFault_keeps (hP : Lasting P) {unit : Byte} {s : State} (h : P s) : OutP P (execEngineFault unit s) := by
  unfold execEngineFault
  repeat' first
    | with_reducible assumption
    | with_reducible apply State.unattributed_keeps hP
    | with_reducible apply State.landing2_keeps hP
    | with_reducible refine ite_keeps (fun _ => ?_) (fun _ => ?_)
    | with_reducible apply OutP.next
    | with_reducible refine OutP.ite (fun _ => ?_) (fun _ => ?_)
    | with_reducible refine fst_ite_keeps (fun _ => ?_) (fun _ => ?_)
    | with_reducible refine snd_ite_keeps (fun _ => ?_) (fun _ => ?_)
    | with_reducible refine List.foldl_keeps ?_ (fun s x h => ?_)
    | with_reducible refine List.foldl_fst_keeps ?_ (fun s x h => ?_)
    | with_reducible refine List.foldl_snd_keeps ?_ (fun s x h => ?_)
    | intro s x h
    | simp only [Stable.mk_iff hP.stable]
    | split
    | dsimp only

theorem State.resetEngine_keeps (hP : Stable P) {s : State} {u : ℕ} (h : P s) : P (State.resetEngine s u) := by
  unfold State.resetEngine
  repeat' first
    | with_reducible assumption
    | with_reducible apply State.setCore_keeps hP
    | with_reducible apply State.setStk_keeps hP
    | with_reducible refine ite_keeps (fun _ => ?_) (fun _ => ?_)
    | with_reducible refine fst_ite_keeps (fun _ => ?_) (fun _ => ?_)
    | with_reducible refine snd_ite_keeps (fun _ => ?_) (fun _ => ?_)
    | with_reducible refine List.foldl_keeps ?_ (fun s x h => ?_)
    | with_reducible refine List.foldl_fst_keeps ?_ (fun s x h => ?_)
    | with_reducible refine List.foldl_snd_keeps ?_ (fun s x h => ?_)
    | intro s x h
    | simp only [Stable.mk_iff hP]
    | split
    | dsimp only

theorem State.abandonFc_keeps (hP : Stable P) {s : State} {u : ℕ} (h : P s) : P (State.abandonFc s u) := by
  unfold State.abandonFc
  repeat' first
    | with_reducible assumption
    | with_reducible apply State.fcAbandon_keeps hP
    | with_reducible refine ite_keeps (fun _ => ?_) (fun _ => ?_)
    | with_reducible refine fst_ite_keeps (fun _ => ?_) (fun _ => ?_)
    | with_reducible refine snd_ite_keeps (fun _ => ?_) (fun _ => ?_)
    | with_reducible refine List.foldl_keeps ?_ (fun s x h => ?_)
    | with_reducible refine List.foldl_fst_keeps ?_ (fun s x h => ?_)
    | with_reducible refine List.foldl_snd_keeps ?_ (fun s x h => ?_)
    | intro s x h
    | simp only [Stable.mk_iff hP]
    | split
    | dsimp only

theorem execEngineResetComplete_keeps (hP : Stable P) {unit : Byte} {s : State} (h : P s) : OutP P (execEngineResetComplete unit s) := by
  unfold execEngineResetComplete
  repeat' first
    | with_reducible assumption
    | with_reducible apply State.resetEngine_keeps hP
    | with_reducible apply State.abandonFc_keeps hP
    | with_reducible apply State.landingsDone_keeps hP
    | with_reducible apply State.contain_keeps hP
    | with_reducible refine ite_keeps (fun _ => ?_) (fun _ => ?_)
    | with_reducible apply OutP.next
    | with_reducible refine OutP.ite (fun _ => ?_) (fun _ => ?_)
    | with_reducible refine fst_ite_keeps (fun _ => ?_) (fun _ => ?_)
    | with_reducible refine snd_ite_keeps (fun _ => ?_) (fun _ => ?_)
    | with_reducible refine List.foldl_keeps ?_ (fun s x h => ?_)
    | with_reducible refine List.foldl_fst_keeps ?_ (fun s x h => ?_)
    | with_reducible refine List.foldl_snd_keeps ?_ (fun s x h => ?_)
    | intro s x h
    | simp only [Stable.mk_iff hP]
    | split
    | dsimp only

theorem execEngineResetTimeout_keeps (hP : Lasting P) {unit : Byte} {s : State} (h : P s) : OutP P (execEngineResetTimeout unit s) := by
  unfold execEngineResetTimeout
  repeat' first
    | with_reducible assumption
    | with_reducible apply State.retireCore_keeps hP.stable
    | with_reducible apply State.escalate_keeps hP
    | with_reducible apply State.landing4_keeps hP
    | with_reducible refine ite_keeps (fun _ => ?_) (fun _ => ?_)
    | with_reducible apply OutP.next
    | with_reducible refine OutP.ite (fun _ => ?_) (fun _ => ?_)
    | with_reducible refine fst_ite_keeps (fun _ => ?_) (fun _ => ?_)
    | with_reducible refine snd_ite_keeps (fun _ => ?_) (fun _ => ?_)
    | with_reducible refine List.foldl_keeps ?_ (fun s x h => ?_)
    | with_reducible refine List.foldl_fst_keeps ?_ (fun s x h => ?_)
    | with_reducible refine List.foldl_snd_keeps ?_ (fun s x h => ?_)
    | intro s x h
    | simp only [Stable.mk_iff hP.stable]
    | split
    | dsimp only

theorem State.flrOver_keeps (hP : Stable P) {s : State} {fn : ℕ} (h : P s) : P (State.flrOver s fn) := by
  unfold State.flrOver
  repeat' first
    | with_reducible assumption
    | with_reducible refine ite_keeps (fun _ => ?_) (fun _ => ?_)
    | with_reducible refine fst_ite_keeps (fun _ => ?_) (fun _ => ?_)
    | with_reducible refine snd_ite_keeps (fun _ => ?_) (fun _ => ?_)
    | with_reducible refine List.foldl_keeps ?_ (fun s x h => ?_)
    | with_reducible refine List.foldl_fst_keeps ?_ (fun s x h => ?_)
    | with_reducible refine List.foldl_snd_keeps ?_ (fun s x h => ?_)
    | intro s x h
    | simp only [Stable.mk_iff hP]
    | split
    | dsimp only

theorem State.readyAgain_keeps (hP : Stable P) {s : State} (h : P s) : P (State.readyAgain s) := by
  unfold State.readyAgain
  repeat' first
    | with_reducible assumption
    | with_reducible apply State.each_keeps hP
    | with_reducible apply State.setStk_keeps hP
    | with_reducible apply State.setFld_keeps hP
    | with_reducible refine ite_keeps (fun _ => ?_) (fun _ => ?_)
    | with_reducible refine fst_ite_keeps (fun _ => ?_) (fun _ => ?_)
    | with_reducible refine snd_ite_keeps (fun _ => ?_) (fun _ => ?_)
    | with_reducible refine List.foldl_keeps ?_ (fun s x h => ?_)
    | with_reducible refine List.foldl_fst_keeps ?_ (fun s x h => ?_)
    | with_reducible refine List.foldl_snd_keeps ?_ (fun s x h => ?_)
    | intro s x h
    | simp only [Stable.mk_iff hP]
    | split
    | dsimp only

theorem State.landing3Done_keeps (hP : Stable P) {s : State} {p : ℕ} (h : P s) : P (State.landing3Done s p) := by
  unfold State.landing3Done
  repeat' first
    | with_reducible assumption
    | with_reducible apply State.landingsDone_keeps hP
    | with_reducible apply State.readyAgain_keeps hP
    | with_reducible apply State.flrOver_keeps hP
    | with_reducible refine ite_keeps (fun _ => ?_) (fun _ => ?_)
    | with_reducible refine fst_ite_keeps (fun _ => ?_) (fun _ => ?_)
    | with_reducible refine snd_ite_keeps (fun _ => ?_) (fun _ => ?_)
    | with_reducible refine List.foldl_keeps ?_ (fun s x h => ?_)
    | with_reducible refine List.foldl_fst_keeps ?_ (fun s x h => ?_)
    | with_reducible refine List.foldl_snd_keeps ?_ (fun s x h => ?_)
    | intro s x h
    | simp only [Stable.mk_iff hP]
    | split
    | dsimp only

theorem execGalleryClearComplete_keeps (hP : Stable P) {g : Fin 24} {readsZero : Bool} {s : State} (h : P s) :
    OutP P (execGalleryClearComplete g readsZero s) := by
  unfold execGalleryClearComplete
  repeat' first
    | with_reducible assumption
    | with_reducible apply State.retireCore_keeps hP
    | with_reducible apply State.landing3Done_keeps hP
    | with_reducible apply State.landingsDone_keeps hP
    | with_reducible apply State.readyAgain_keeps hP
    | with_reducible refine ite_keeps (fun _ => ?_) (fun _ => ?_)
    | with_reducible apply OutP.next
    | with_reducible refine OutP.ite (fun _ => ?_) (fun _ => ?_)
    | with_reducible refine fst_ite_keeps (fun _ => ?_) (fun _ => ?_)
    | with_reducible refine snd_ite_keeps (fun _ => ?_) (fun _ => ?_)
    | with_reducible refine List.foldl_keeps ?_ (fun s x h => ?_)
    | with_reducible refine List.foldl_fst_keeps ?_ (fun s x h => ?_)
    | with_reducible refine List.foldl_snd_keeps ?_ (fun s x h => ?_)
    | intro s x h
    | simp only [Stable.mk_iff hP]
    | split
    | dsimp only

theorem execFirmwareWatchdog_keeps (hP : Lasting P) {s : State} (h : P s) : OutP P (execFirmwareWatchdog s) := by
  unfold execFirmwareWatchdog
  repeat' first
    | with_reducible assumption
    | with_reducible apply State.landing4_keeps hP
    | with_reducible refine ite_keeps (fun _ => ?_) (fun _ => ?_)
    | with_reducible apply OutP.next
    | with_reducible refine OutP.ite (fun _ => ?_) (fun _ => ?_)
    | with_reducible refine fst_ite_keeps (fun _ => ?_) (fun _ => ?_)
    | with_reducible refine snd_ite_keeps (fun _ => ?_) (fun _ => ?_)
    | with_reducible refine List.foldl_keeps ?_ (fun s x h => ?_)
    | with_reducible refine List.foldl_fst_keeps ?_ (fun s x h => ?_)
    | with_reducible refine List.foldl_snd_keeps ?_ (fun s x h => ?_)
    | intro s x h
    | simp only [Stable.mk_iff hP.stable]
    | split
    | dsimp only

theorem State.takeSample_keeps (hP : Stable P) {s : State} (h : P s) : P (State.takeSample s) := by
  unfold State.takeSample
  repeat' first
    | with_reducible assumption
    | with_reducible refine ite_keeps (fun _ => ?_) (fun _ => ?_)
    | with_reducible refine fst_ite_keeps (fun _ => ?_) (fun _ => ?_)
    | with_reducible refine snd_ite_keeps (fun _ => ?_) (fun _ => ?_)
    | with_reducible refine List.foldl_keeps ?_ (fun s x h => ?_)
    | with_reducible refine List.foldl_fst_keeps ?_ (fun s x h => ?_)
    | with_reducible refine List.foldl_snd_keeps ?_ (fun s x h => ?_)
    | intro s x h
    | simp only [Stable.mk_iff hP]
    | split
    | dsimp only

theorem State.judge_keeps (hP : Lasting P) {s : State} {n : ℕ} (h : P s) : P (State.judge s n) := by
  unfold State.judge
  repeat' first
    | with_reducible assumption
    | with_reducible apply State.hang_keeps hP
    | with_reducible apply State.contain_keeps hP.stable
    | with_reducible refine ite_keeps (fun _ => ?_) (fun _ => ?_)
    | with_reducible refine fst_ite_keeps (fun _ => ?_) (fun _ => ?_)
    | with_reducible refine snd_ite_keeps (fun _ => ?_) (fun _ => ?_)
    | with_reducible refine List.foldl_keeps ?_ (fun s x h => ?_)
    | with_reducible refine List.foldl_fst_keeps ?_ (fun s x h => ?_)
    | with_reducible refine List.foldl_snd_keeps ?_ (fun s x h => ?_)
    | intro s x h
    | simp only [Stable.mk_iff hP.stable]
    | split
    | dsimp only

theorem State.progressCheck_keeps (hP : Lasting P) {s : State} (h : P s) : P (State.progressCheck s) := by
  unfold State.progressCheck
  repeat' first
    | with_reducible assumption
    | with_reducible apply State.takeSample_keeps hP.stable
    | with_reducible apply State.judge_keeps hP
    | with_reducible refine ite_keeps (fun _ => ?_) (fun _ => ?_)
    | with_reducible refine fst_ite_keeps (fun _ => ?_) (fun _ => ?_)
    | with_reducible refine snd_ite_keeps (fun _ => ?_) (fun _ => ?_)
    | with_reducible refine List.foldl_keeps ?_ (fun s x h => ?_)
    | with_reducible refine List.foldl_fst_keeps ?_ (fun s x h => ?_)
    | with_reducible refine List.foldl_snd_keeps ?_ (fun s x h => ?_)
    | intro s x h
    | simp only [Stable.mk_iff hP.stable]
    | split
    | dsimp only

theorem execProgressSample_keeps (hP : Lasting P) {s : State} (h : P s) : OutP P (execProgressSample s) := by
  unfold execProgressSample
  repeat' first
    | with_reducible assumption
    | with_reducible apply State.progressCheck_keeps hP
    | with_reducible refine ite_keeps (fun _ => ?_) (fun _ => ?_)
    | with_reducible apply OutP.next
    | with_reducible refine OutP.ite (fun _ => ?_) (fun _ => ?_)
    | with_reducible refine fst_ite_keeps (fun _ => ?_) (fun _ => ?_)
    | with_reducible refine snd_ite_keeps (fun _ => ?_) (fun _ => ?_)
    | with_reducible refine List.foldl_keeps ?_ (fun s x h => ?_)
    | with_reducible refine List.foldl_fst_keeps ?_ (fun s x h => ?_)
    | with_reducible refine List.foldl_snd_keeps ?_ (fun s x h => ?_)
    | intro s x h
    | simp only [Stable.mk_iff hP.stable]
    | split
    | dsimp only

theorem execLimitPoint_keeps (hP : Lasting P) {s : State} (h : P s) : OutP P (execLimitPoint s) := by
  unfold execLimitPoint
  repeat' first
    | with_reducible assumption
    | with_reducible apply State.takeSample_keeps hP.stable
    | with_reducible apply State.flag_keeps hP.stable
    | with_reducible apply State.hang_keeps hP
    | with_reducible apply State.contain_keeps hP.stable
    | with_reducible refine ite_keeps (fun _ => ?_) (fun _ => ?_)
    | with_reducible apply OutP.next
    | with_reducible refine OutP.ite (fun _ => ?_) (fun _ => ?_)
    | with_reducible refine fst_ite_keeps (fun _ => ?_) (fun _ => ?_)
    | with_reducible refine snd_ite_keeps (fun _ => ?_) (fun _ => ?_)
    | with_reducible refine List.foldl_keeps ?_ (fun s x h => ?_)
    | with_reducible refine List.foldl_fst_keeps ?_ (fun s x h => ?_)
    | with_reducible refine List.foldl_snd_keeps ?_ (fun s x h => ?_)
    | intro s x h
    | simp only [Stable.mk_iff hP.stable]
    | split
    | dsimp only

theorem State.rerunFlight_keeps (hP : Stable P) {s : State} {n : ℕ} (h : P s) : P (State.rerunFlight s n) := by
  unfold State.rerunFlight
  repeat' first
    | with_reducible assumption
    | with_reducible apply State.onCores_keeps hP
    | with_reducible apply State.setFlight_keeps hP
    | with_reducible apply State.requeue_keeps hP
    | with_reducible refine ite_keeps (fun _ => ?_) (fun _ => ?_)
    | with_reducible refine fst_ite_keeps (fun _ => ?_) (fun _ => ?_)
    | with_reducible refine snd_ite_keeps (fun _ => ?_) (fun _ => ?_)
    | with_reducible refine List.foldl_keeps ?_ (fun s x h => ?_)
    | with_reducible refine List.foldl_fst_keeps ?_ (fun s x h => ?_)
    | with_reducible refine List.foldl_snd_keeps ?_ (fun s x h => ?_)
    | intro s x h
    | simp only [Stable.mk_iff hP]
    | split
    | dsimp only

theorem State.resumeHalted_keeps (hP : Stable P) {s : State} (h : P s) : P (State.resumeHalted s) := by
  unfold State.resumeHalted
  repeat' first
    | with_reducible assumption
    | with_reducible apply State.abandonTick_keeps hP
    | with_reducible apply State.rerunFlight_keeps hP
    | with_reducible refine ite_keeps (fun _ => ?_) (fun _ => ?_)
    | with_reducible refine fst_ite_keeps (fun _ => ?_) (fun _ => ?_)
    | with_reducible refine snd_ite_keeps (fun _ => ?_) (fun _ => ?_)
    | with_reducible refine List.foldl_keeps ?_ (fun s x h => ?_)
    | with_reducible refine List.foldl_fst_keeps ?_ (fun s x h => ?_)
    | with_reducible refine List.foldl_snd_keeps ?_ (fun s x h => ?_)
    | intro s x h
    | simp only [Stable.mk_iff hP]
    | split
    | dsimp only

theorem State.notReproduced_keeps (hP : Lasting P) {s : State} {u : ℕ} {n : ℕ} (h : P s) : P (State.notReproduced s u n) := by
  unfold State.notReproduced
  repeat' first
    | with_reducible assumption
    | with_reducible apply State.unattributed_keeps hP
    | with_reducible apply State.emit_keeps hP.stable
    | with_reducible refine ite_keeps (fun _ => ?_) (fun _ => ?_)
    | with_reducible refine fst_ite_keeps (fun _ => ?_) (fun _ => ?_)
    | with_reducible refine snd_ite_keeps (fun _ => ?_) (fun _ => ?_)
    | with_reducible refine List.foldl_keeps ?_ (fun s x h => ?_)
    | with_reducible refine List.foldl_fst_keeps ?_ (fun s x h => ?_)
    | with_reducible refine List.foldl_snd_keeps ?_ (fun s x h => ?_)
    | intro s x h
    | simp only [Stable.mk_iff hP.stable]
    | split
    | dsimp only

theorem State.nextReplay_keeps (hP : Lasting P) {s : State} (h : P s) : P (State.nextReplay s) := by
  unfold State.nextReplay
  repeat' first
    | with_reducible assumption
    | with_reducible apply State.notReproduced_keeps hP
    | with_reducible refine ite_keeps (fun _ => ?_) (fun _ => ?_)
    | with_reducible refine fst_ite_keeps (fun _ => ?_) (fun _ => ?_)
    | with_reducible refine snd_ite_keeps (fun _ => ?_) (fun _ => ?_)
    | with_reducible refine List.foldl_keeps ?_ (fun s x h => ?_)
    | with_reducible refine List.foldl_fst_keeps ?_ (fun s x h => ?_)
    | with_reducible refine List.foldl_snd_keeps ?_ (fun s x h => ?_)
    | intro s x h
    | simp only [Stable.mk_iff hP.stable]
    | split
    | dsimp only

theorem State.retireGallery_keeps (hP : Stable P) {s : State} {g : ℕ} {unit : ℕ} (h : P s) : P (State.retireGallery s g unit) := by
  unfold State.retireGallery
  repeat' first
    | with_reducible assumption
    | with_reducible apply State.commitRecord_keeps hP
    | with_reducible apply State.setFld_keeps hP
    | with_reducible apply State.setPart_keeps hP
    | with_reducible apply State.emit_keeps hP
    | with_reducible refine ite_keeps (fun _ => ?_) (fun _ => ?_)
    | with_reducible refine fst_ite_keeps (fun _ => ?_) (fun _ => ?_)
    | with_reducible refine snd_ite_keeps (fun _ => ?_) (fun _ => ?_)
    | with_reducible refine List.foldl_keeps ?_ (fun s x h => ?_)
    | with_reducible refine List.foldl_fst_keeps ?_ (fun s x h => ?_)
    | with_reducible refine List.foldl_snd_keeps ?_ (fun s x h => ?_)
    | intro s x h
    | simp only [Stable.mk_iff hP]
    | split
    | dsimp only

theorem State.retirements_keeps (hP : Stable P) {s : State} (h : P s) : P (State.retirements s) := by
  unfold State.retirements
  repeat' first
    | with_reducible assumption
    | with_reducible apply State.retireGallery_keeps hP
    | with_reducible apply State.clearGallery_keeps hP
    | with_reducible refine ite_keeps (fun _ => ?_) (fun _ => ?_)
    | with_reducible refine fst_ite_keeps (fun _ => ?_) (fun _ => ?_)
    | with_reducible refine snd_ite_keeps (fun _ => ?_) (fun _ => ?_)
    | with_reducible refine List.foldl_keeps ?_ (fun s x h => ?_)
    | with_reducible refine List.foldl_fst_keeps ?_ (fun s x h => ?_)
    | with_reducible refine List.foldl_snd_keeps ?_ (fun s x h => ?_)
    | intro s x h
    | simp only [Stable.mk_iff hP]
    | split
    | dsimp only

end Sys2Proof.Machine
end

