-- ==== Sys2Proof/Laws/KeepOpPoint.lean ====
section
/-! SUPPORT. What the definitions of Machine/OpPoint.lean keep. -/

set_option linter.unusedTactic false
set_option linter.unreachableTactic false

namespace Sys2Proof.Machine

variable {P : State → Prop}

theorem State.opHall_keeps (hP : Stable P) {s : State} {m : PowerMeas} {railOk : List Bool} {a3 : ℕ} (h : P s) :
    P (State.opHall s m railOk a3) := by
  unfold State.opHall
  repeat' first
    | with_reducible assumption
    | with_reducible apply State.setFld_keeps hP
    | with_reducible apply State.countFld_keeps hP
    | with_reducible apply State.flag_keeps hP
    | with_reducible refine ite_keeps (fun _ => ?_) (fun _ => ?_)
    | with_reducible refine fst_ite_keeps (fun _ => ?_) (fun _ => ?_)
    | with_reducible refine snd_ite_keeps (fun _ => ?_) (fun _ => ?_)
    | with_reducible refine List.foldl_keeps ?_ (fun s x h => ?_)
    | with_reducible refine List.foldl_fst_keeps ?_ (fun s x h => ?_)
    | with_reducible refine List.foldl_snd_keeps ?_ (fun s x h => ?_)
    | intro s x h
    | simp only [Stable.mk_iff hP]
    | split
    | dsimp only

theorem State.opStep_keeps (hP : Stable P) {s : State} {m : PowerMeas} {railOk : List Bool} (h : P s) : P (State.opStep s m railOk) := by
  unfold State.opStep
  repeat' first
    | with_reducible assumption
    | with_reducible apply State.each_keeps hP
    | with_reducible apply State.opHall_keeps hP
    | with_reducible apply State.countFld_keeps hP
    | with_reducible refine ite_keeps (fun _ => ?_) (fun _ => ?_)
    | with_reducible refine fst_ite_keeps (fun _ => ?_) (fun _ => ?_)
    | with_reducible refine snd_ite_keeps (fun _ => ?_) (fun _ => ?_)
    | with_reducible refine List.foldl_keeps ?_ (fun s x h => ?_)
    | with_reducible refine List.foldl_fst_keeps ?_ (fun s x h => ?_)
    | with_reducible refine List.foldl_snd_keeps ?_ (fun s x h => ?_)
    | intro s x h
    | simp only [Stable.mk_iff hP]
    | split
    | dsimp only

theorem State.railsUp_keeps (hP : Stable P) {s : State} (h : P s) : P (State.railsUp s) := by
  unfold State.railsUp
  repeat' first
    | with_reducible assumption
    | with_reducible apply State.each_keeps hP
    | with_reducible refine ite_keeps (fun _ => ?_) (fun _ => ?_)
    | with_reducible refine fst_ite_keeps (fun _ => ?_) (fun _ => ?_)
    | with_reducible refine snd_ite_keeps (fun _ => ?_) (fun _ => ?_)
    | with_reducible refine List.foldl_keeps ?_ (fun s x h => ?_)
    | with_reducible refine List.foldl_fst_keeps ?_ (fun s x h => ?_)
    | with_reducible refine List.foldl_snd_keeps ?_ (fun s x h => ?_)
    | intro s x h
    | simp only [Stable.mk_iff hP]
    | split
    | dsimp only

theorem State.putMeas_keeps (hP : Stable P) {s : State} {m : PowerMeas} (h : P s) : P (State.putMeas s m) := by
  unfold State.putMeas
  repeat' first
    | with_reducible assumption
    | with_reducible apply State.setReg_keeps hP
    | with_reducible refine ite_keeps (fun _ => ?_) (fun _ => ?_)
    | with_reducible refine fst_ite_keeps (fun _ => ?_) (fun _ => ?_)
    | with_reducible refine snd_ite_keeps (fun _ => ?_) (fun _ => ?_)
    | with_reducible refine List.foldl_keeps ?_ (fun s x h => ?_)
    | with_reducible refine List.foldl_fst_keeps ?_ (fun s x h => ?_)
    | with_reducible refine List.foldl_snd_keeps ?_ (fun s x h => ?_)
    | intro s x h
    | simp only [Stable.mk_iff hP]
    | split
    | dsimp only

theorem State.boundaryAlarms_keeps (hP : Stable P) {s : State} {m : PowerMeas} (h : P s) : P (State.boundaryAlarms s m) := by
  unfold State.boundaryAlarms
  repeat' first
    | with_reducible assumption
    | with_reducible apply State.alarm_keeps hP
    | with_reducible apply State.flag_keeps hP
    | with_reducible refine ite_keeps (fun _ => ?_) (fun _ => ?_)
    | with_reducible refine fst_ite_keeps (fun _ => ?_) (fun _ => ?_)
    | with_reducible refine snd_ite_keeps (fun _ => ?_) (fun _ => ?_)
    | with_reducible refine List.foldl_keeps ?_ (fun s x h => ?_)
    | with_reducible refine List.foldl_fst_keeps ?_ (fun s x h => ?_)
    | with_reducible refine List.foldl_snd_keeps ?_ (fun s x h => ?_)
    | intro s x h
    | simp only [Stable.mk_iff hP]
    | split
    | dsimp only

end Sys2Proof.Machine
end

