-- ==== Sys2Proof/Laws/KeepPages.lean ====
section
/-! SUPPORT. What the definitions of Machine/Pages.lean keep. -/

set_option linter.unusedTactic false
set_option linter.unreachableTactic false

namespace Sys2Proof.Machine

variable {P : State → Prop}

theorem State.releases_keeps (hP : Stable P) {s : State} {t : ℕ} (h : P s) : P (State.releases s t) := by
  unfold State.releases
  repeat' first
    | with_reducible assumption
    | with_reducible apply State.retireFrame_keeps hP
    | with_reducible apply State.setFrame_keeps hP
    | with_reducible refine ite_keeps (fun _ => ?_) (fun _ => ?_)
    | with_reducible refine fst_ite_keeps (fun _ => ?_) (fun _ => ?_)
    | with_reducible refine snd_ite_keeps (fun _ => ?_) (fun _ => ?_)
    | with_reducible refine List.foldl_keeps ?_ (fun s x h => ?_)
    | with_reducible refine List.foldl_fst_keeps ?_ (fun s x h => ?_)
    | with_reducible refine List.foldl_snd_keeps ?_ (fun s x h => ?_)
    | intro s x h
    | simp only [Stable.mk_iff hP]
    | split
    | dsimp only

theorem State.zeroed_keeps (hP : Stable P) {s : State} {t : ℕ} (h : P s) : P (State.zeroed s t) := by
  unfold State.zeroed
  repeat' first
    | with_reducible assumption
    | with_reducible apply State.setStk_keeps hP
    | with_reducible refine ite_keeps (fun _ => ?_) (fun _ => ?_)
    | with_reducible refine fst_ite_keeps (fun _ => ?_) (fun _ => ?_)
    | with_reducible refine snd_ite_keeps (fun _ => ?_) (fun _ => ?_)
    | with_reducible refine List.foldl_keeps ?_ (fun s x h => ?_)
    | with_reducible refine List.foldl_fst_keeps ?_ (fun s x h => ?_)
    | with_reducible refine List.foldl_snd_keeps ?_ (fun s x h => ?_)
    | intro s x h
    | simp only [Stable.mk_iff hP]
    | split
    | dsimp only

theorem State.snapFrames_keeps (hP : Stable P) {s : State} {t : ℕ} (h : P s) : P (State.snapFrames s t) := by
  unfold State.snapFrames
  repeat' first
    | with_reducible assumption
    | with_reducible apply State.setStk_keeps hP
    | with_reducible refine ite_keeps (fun _ => ?_) (fun _ => ?_)
    | with_reducible refine fst_ite_keeps (fun _ => ?_) (fun _ => ?_)
    | with_reducible refine snd_ite_keeps (fun _ => ?_) (fun _ => ?_)
    | with_reducible refine List.foldl_keeps ?_ (fun s x h => ?_)
    | with_reducible refine List.foldl_fst_keeps ?_ (fun s x h => ?_)
    | with_reducible refine List.foldl_snd_keeps ?_ (fun s x h => ?_)
    | intro s x h
    | simp only [Stable.mk_iff hP]
    | split
    | dsimp only

theorem State.writePte_keeps (hP : Lasting P) {s : State} {t : StreamSt} {i : ℕ} (h : P s) : P (State.writePte s t i) := by
  unfold State.writePte
  repeat' first
    | with_reducible assumption
    | with_reducible apply State.contain_keeps hP.stable
    | with_reducible apply State.mirrorData_keeps hP.stable
    | with_reducible apply State.putStack_keeps hP
    | with_reducible refine ite_keeps (fun _ => ?_) (fun _ => ?_)
    | with_reducible refine fst_ite_keeps (fun _ => ?_) (fun _ => ?_)
    | with_reducible refine snd_ite_keeps (fun _ => ?_) (fun _ => ?_)
    | with_reducible refine List.foldl_keeps ?_ (fun s x h => ?_)
    | with_reducible refine List.foldl_fst_keeps ?_ (fun s x h => ?_)
    | with_reducible refine List.foldl_snd_keeps ?_ (fun s x h => ?_)
    | intro s x h
    | simp only [Stable.mk_iff hP.stable]
    | split
    | dsimp only

theorem State.moveStream_keeps (hP : Lasting P) {s : State} {i : ℕ} {c : BitVec 256} (h : P s) : P (State.moveStream s i c) := by
  unfold State.moveStream
  repeat' first
    | with_reducible assumption
    | with_reducible apply State.writePte_keeps hP
    | with_reducible apply State.setStream_keeps hP.stable
    | with_reducible refine ite_keeps (fun _ => ?_) (fun _ => ?_)
    | with_reducible refine fst_ite_keeps (fun _ => ?_) (fun _ => ?_)
    | with_reducible refine snd_ite_keeps (fun _ => ?_) (fun _ => ?_)
    | with_reducible refine List.foldl_keeps ?_ (fun s x h => ?_)
    | with_reducible refine List.foldl_fst_keeps ?_ (fun s x h => ?_)
    | with_reducible refine List.foldl_snd_keeps ?_ (fun s x h => ?_)
    | intro s x h
    | simp only [Stable.mk_iff hP.stable]
    | split
    | dsimp only

theorem State.goodFrames_keeps (hP : Stable P) {s : State} {st : ℕ} {f : ℕ} {n : ℕ} (h : P s) : P (State.goodFrames s st f n) := by
  unfold State.goodFrames
  repeat' first
    | with_reducible assumption
    | with_reducible apply State.setStk_keeps hP
    | with_reducible refine ite_keeps (fun _ => ?_) (fun _ => ?_)
    | with_reducible refine fst_ite_keeps (fun _ => ?_) (fun _ => ?_)
    | with_reducible refine snd_ite_keeps (fun _ => ?_) (fun _ => ?_)
    | with_reducible refine List.foldl_keeps ?_ (fun s x h => ?_)
    | with_reducible refine List.foldl_fst_keeps ?_ (fun s x h => ?_)
    | with_reducible refine List.foldl_snd_keeps ?_ (fun s x h => ?_)
    | intro s x h
    | simp only [Stable.mk_iff hP]
    | split
    | dsimp only

theorem State.moveFrame_keeps (hP : Lasting P) {s : State} {c : BitVec 256} {refs : ℕ → ℕ} {i : ℕ} (h : P s) :
    P (State.moveFrame s c refs i) := by
  unfold State.moveFrame
  repeat' first
    | with_reducible assumption
    | with_reducible apply State.setMem_keeps hP
    | with_reducible apply State.goodFrames_keeps hP.stable
    | with_reducible apply State.setFrame_keeps hP.stable
    | with_reducible refine ite_keeps (fun _ => ?_) (fun _ => ?_)
    | with_reducible refine fst_ite_keeps (fun _ => ?_) (fun _ => ?_)
    | with_reducible refine snd_ite_keeps (fun _ => ?_) (fun _ => ?_)
    | with_reducible refine List.foldl_keeps ?_ (fun s x h => ?_)
    | with_reducible refine List.foldl_fst_keeps ?_ (fun s x h => ?_)
    | with_reducible refine List.foldl_snd_keeps ?_ (fun s x h => ?_)
    | intro s x h
    | exact fun hw => Memory.wf_writeN hw
    | exact fun hw => Memory.wf_writeN (wf_zeroRange hw)
    | exact fun hw => wf_zeroRange hw
    | exact fun hw => wf_copyRange hw
    | exact fun hw => Memory.wf_writeAll hw
    | simp only [Stable.mk_iff hP.stable]
    | split
    | dsimp only

theorem State.commitMove_keeps (hP : Lasting P) {s : State} {t : ℕ} {x : FcCmd} {kv : Bool} {homes : List (ℕ × ℕ)} (h : P s) :
    P (State.commitMove s t x kv homes) := by
  unfold State.commitMove
  repeat' first
    | with_reducible assumption
    | with_reducible apply State.each_keeps hP.stable
    | with_reducible apply State.moveFrame_keeps hP
    | with_reducible apply State.moveStream_keeps hP
    | with_reducible apply State.setPart_keeps hP.stable
    | with_reducible apply State.fcAnswer_keeps hP.stable
    | with_reducible apply State.setFc_keeps hP.stable
    | with_reducible refine ite_keeps (fun _ => ?_) (fun _ => ?_)
    | with_reducible refine fst_ite_keeps (fun _ => ?_) (fun _ => ?_)
    | with_reducible refine snd_ite_keeps (fun _ => ?_) (fun _ => ?_)
    | with_reducible refine List.foldl_keeps ?_ (fun s x h => ?_)
    | with_reducible refine List.foldl_fst_keeps ?_ (fun s x h => ?_)
    | with_reducible refine List.foldl_snd_keeps ?_ (fun s x h => ?_)
    | intro s x h
    | simp only [Stable.mk_iff hP.stable]
    | split
    | dsimp only

theorem State.moves_keeps (hP : Lasting P) {s : State} {kv : Bool} {homes : List (ℕ × ℕ)} {t : ℕ} (h : P s) :
    P (State.moves s kv homes t) := by
  unfold State.moves
  repeat' first
    | with_reducible assumption
    | with_reducible apply State.commitMove_keeps hP
    | with_reducible refine ite_keeps (fun _ => ?_) (fun _ => ?_)
    | with_reducible refine fst_ite_keeps (fun _ => ?_) (fun _ => ?_)
    | with_reducible refine snd_ite_keeps (fun _ => ?_) (fun _ => ?_)
    | with_reducible refine List.foldl_keeps ?_ (fun s x h => ?_)
    | with_reducible refine List.foldl_fst_keeps ?_ (fun s x h => ?_)
    | with_reducible refine List.foldl_snd_keeps ?_ (fun s x h => ?_)
    | intro s x h
    | simp only [Stable.mk_iff hP.stable]
    | split
    | dsimp only

theorem State.movesWait_keeps (hP : Stable P) {s : State} {t : ℕ} (h : P s) : P (State.movesWait s t) := by
  unfold State.movesWait
  repeat' first
    | with_reducible assumption
    | with_reducible apply State.cleanSource_keeps hP
    | with_reducible apply State.setStk_keeps hP
    | with_reducible refine ite_keeps (fun _ => ?_) (fun _ => ?_)
    | with_reducible refine fst_ite_keeps (fun _ => ?_) (fun _ => ?_)
    | with_reducible refine snd_ite_keeps (fun _ => ?_) (fun _ => ?_)
    | with_reducible refine List.foldl_keeps ?_ (fun s x h => ?_)
    | with_reducible refine List.foldl_fst_keeps ?_ (fun s x h => ?_)
    | with_reducible refine List.foldl_snd_keeps ?_ (fun s x h => ?_)
    | intro s x h
    | simp only [Stable.mk_iff hP]
    | split
    | dsimp only

theorem State.offDie_keeps (hP : Lasting P) {s : State} {t : ℕ} {before : Bool} {now : Bool} {d : ℕ} (h : P s) :
    P (State.offDie s t before now d) := by
  unfold State.offDie
  repeat' first
    | with_reducible assumption
    | with_reducible apply State.setStk_keeps hP.stable
    | with_reducible apply State.setMem_keeps hP
    | with_reducible apply State.flag_keeps hP.stable
    | with_reducible apply State.startBg_keeps hP.stable
    | with_reducible refine ite_keeps (fun _ => ?_) (fun _ => ?_)
    | with_reducible refine fst_ite_keeps (fun _ => ?_) (fun _ => ?_)
    | with_reducible refine snd_ite_keeps (fun _ => ?_) (fun _ => ?_)
    | with_reducible refine List.foldl_keeps ?_ (fun s x h => ?_)
    | with_reducible refine List.foldl_fst_keeps ?_ (fun s x h => ?_)
    | with_reducible refine List.foldl_snd_keeps ?_ (fun s x h => ?_)
    | intro s x h
    | exact fun hw => Memory.wf_writeN hw
    | exact fun hw => Memory.wf_writeN (wf_zeroRange hw)
    | exact fun hw => wf_zeroRange hw
    | exact fun hw => wf_copyRange hw
    | exact fun hw => Memory.wf_writeAll hw
    | simp only [Stable.mk_iff hP.stable]
    | split
    | dsimp only

theorem State.dies_keeps (hP : Lasting P) {s : State} {old : Word} {t : ℕ} (h : P s) : P (State.dies s old t) := by
  unfold State.dies
  repeat' first
    | with_reducible assumption
    | with_reducible apply State.setStk_keeps hP.stable
    | with_reducible apply State.each_keeps hP.stable
    | with_reducible apply State.offDie_keeps hP
    | with_reducible refine ite_keeps (fun _ => ?_) (fun _ => ?_)
    | with_reducible refine fst_ite_keeps (fun _ => ?_) (fun _ => ?_)
    | with_reducible refine snd_ite_keeps (fun _ => ?_) (fun _ => ?_)
    | with_reducible refine List.foldl_keeps ?_ (fun s x h => ?_)
    | with_reducible refine List.foldl_fst_keeps ?_ (fun s x h => ?_)
    | with_reducible refine List.foldl_snd_keeps ?_ (fun s x h => ?_)
    | intro s x h
    | simp only [Stable.mk_iff hP.stable]
    | split
    | dsimp only

theorem State.rows4_keeps (hP : Stable P) {s : State} {t : ℕ} (h : P s) : P (State.rows4 s t) := by
  unfold State.rows4
  repeat' first
    | with_reducible assumption
    | with_reducible apply State.setFrame_keeps hP
    | with_reducible apply State.setStk_keeps hP
    | with_reducible refine ite_keeps (fun _ => ?_) (fun _ => ?_)
    | with_reducible refine fst_ite_keeps (fun _ => ?_) (fun _ => ?_)
    | with_reducible refine snd_ite_keeps (fun _ => ?_) (fun _ => ?_)
    | with_reducible refine List.foldl_keeps ?_ (fun s x h => ?_)
    | with_reducible refine List.foldl_fst_keeps ?_ (fun s x h => ?_)
    | with_reducible refine List.foldl_snd_keeps ?_ (fun s x h => ?_)
    | intro s x h
    | simp only [Stable.mk_iff hP]
    | split
    | dsimp only

end Sys2Proof.Machine
end

