-- ==== Sys2Proof/Laws/KeepStreams4.lean ====
section
/-! SUPPORT. What the definitions of Machine/Streams4.lean keep. -/

set_option linter.unusedTactic false
set_option linter.unreachableTactic false

namespace Sys2Proof.Machine

variable {P : State → Prop}

theorem State.givePages_keeps (hP : Lasting P) {s : State} {offers : List (ℕ × ℕ)} {i : ℕ} {k : ℕ} (h : P s) :
    OptP P (State.givePages s offers i k) := by
  unfold State.givePages
  repeat' first
    | with_reducible assumption
    | with_reducible apply State.takeFrames_keeps hP
    | with_reducible apply State.writePte_keeps hP
    | with_reducible apply State.setStream_keeps hP.stable
    | with_reducible refine ite_keeps (fun _ => ?_) (fun _ => ?_)
    | with_reducible refine fst_ite_keeps (fun _ => ?_) (fun _ => ?_)
    | with_reducible refine snd_ite_keeps (fun _ => ?_) (fun _ => ?_)
    | with_reducible apply OptP.some
    | exact OptP.none
    | with_reducible refine List.foldl_keeps ?_ (fun s x h => ?_)
    | with_reducible refine List.foldl_fst_keeps ?_ (fun s x h => ?_)
    | with_reducible refine List.foldl_snd_keeps ?_ (fun s x h => ?_)
    | intro s x h
    | simp only [Stable.mk_iff hP.stable]
    | split
    | dsimp only

theorem State.unref_keeps (hP : Stable P) {s : State} {st : ℕ} {f : ℕ} (h : P s) : P (State.unref s st f) := by
  unfold State.unref
  repeat' first
    | with_reducible assumption
    | with_reducible apply State.setFrame_keeps hP
    | with_reducible refine ite_keeps (fun _ => ?_) (fun _ => ?_)
    | with_reducible refine fst_ite_keeps (fun _ => ?_) (fun _ => ?_)
    | with_reducible refine snd_ite_keeps (fun _ => ?_) (fun _ => ?_)
    | with_reducible refine List.foldl_keeps ?_ (fun s x h => ?_)
    | with_reducible refine List.foldl_fst_keeps ?_ (fun s x h => ?_)
    | with_reducible refine List.foldl_snd_keeps ?_ (fun s x h => ?_)
    | intro s x h
    | simp only [Stable.mk_iff hP]
    | split
    | dsimp only

theorem State.dropPages_keeps (hP : Stable P) {s : State} {i : ℕ} (h : P s) : P (State.dropPages s i) := by
  unfold State.dropPages
  repeat' first
    | with_reducible assumption
    | with_reducible apply State.setStream_keeps hP
    | with_reducible apply State.unref_keeps hP
    | with_reducible refine ite_keeps (fun _ => ?_) (fun _ => ?_)
    | with_reducible refine fst_ite_keeps (fun _ => ?_) (fun _ => ?_)
    | with_reducible refine snd_ite_keeps (fun _ => ?_) (fun _ => ?_)
    | with_reducible refine List.foldl_keeps ?_ (fun s x h => ?_)
    | with_reducible refine List.foldl_fst_keeps ?_ (fun s x h => ?_)
    | with_reducible refine List.foldl_snd_keeps ?_ (fun s x h => ?_)
    | intro s x h
    | simp only [Stable.mk_iff hP]
    | split
    | dsimp only

theorem State.addBlocks_keeps (hP : Stable P) {s : State} {i : ℕ} {from_ : ℕ} (h : P s) : P (State.addBlocks s i from_) := by
  unfold State.addBlocks
  repeat' first
    | with_reducible assumption
    | with_reducible apply State.setStream_keeps hP
    | with_reducible apply State.setFrame_keeps hP
    | with_reducible refine ite_keeps (fun _ => ?_) (fun _ => ?_)
    | with_reducible refine fst_ite_keeps (fun _ => ?_) (fun _ => ?_)
    | with_reducible refine snd_ite_keeps (fun _ => ?_) (fun _ => ?_)
    | with_reducible refine List.foldl_keeps ?_ (fun s x h => ?_)
    | with_reducible refine List.foldl_fst_keeps ?_ (fun s x h => ?_)
    | with_reducible refine List.foldl_snd_keeps ?_ (fun s x h => ?_)
    | intro s x h
    | simp only [Stable.mk_iff hP]
    | split
    | dsimp only

theorem State.freeSlots_keeps (hP : Stable P) {s : State} (h : P s) : P (State.freeSlots s) := by
  unfold State.freeSlots
  repeat' first
    | with_reducible assumption
    | with_reducible refine ite_keeps (fun _ => ?_) (fun _ => ?_)
    | with_reducible refine fst_ite_keeps (fun _ => ?_) (fun _ => ?_)
    | with_reducible refine snd_ite_keeps (fun _ => ?_) (fun _ => ?_)
    | with_reducible refine List.foldl_keeps ?_ (fun s x h => ?_)
    | with_reducible refine List.foldl_fst_keeps ?_ (fun s x h => ?_)
    | with_reducible refine List.foldl_snd_keeps ?_ (fun s x h => ?_)
    | intro s x h
    | simp only [Stable.mk_iff hP]
    | split
    | dsimp only

theorem State.dropSwap_keeps (hP : Stable P) {s : State} {i : ℕ} (h : P s) : P (State.dropSwap s i) := by
  unfold State.dropSwap
  repeat' first
    | with_reducible assumption
    | with_reducible apply State.setPart_keeps hP
    | with_reducible refine ite_keeps (fun _ => ?_) (fun _ => ?_)
    | with_reducible refine fst_ite_keeps (fun _ => ?_) (fun _ => ?_)
    | with_reducible refine snd_ite_keeps (fun _ => ?_) (fun _ => ?_)
    | with_reducible refine List.foldl_keeps ?_ (fun s x h => ?_)
    | with_reducible refine List.foldl_fst_keeps ?_ (fun s x h => ?_)
    | with_reducible refine List.foldl_snd_keeps ?_ (fun s x h => ?_)
    | intro s x h
    | simp only [Stable.mk_iff hP]
    | split
    | dsimp only

theorem State.endStream_keeps (hP : Stable P) {s : State} {i : ℕ} {f : Fate} (h : P s) : P (State.endStream s i f) := by
  unfold State.endStream
  repeat' first
    | with_reducible assumption
    | with_reducible apply State.dropBgs_keeps hP
    | with_reducible apply State.dropSwap_keeps hP
    | with_reducible apply State.dropPages_keeps hP
    | with_reducible apply State.setStream_keeps hP
    | with_reducible refine ite_keeps (fun _ => ?_) (fun _ => ?_)
    | with_reducible refine fst_ite_keeps (fun _ => ?_) (fun _ => ?_)
    | with_reducible refine snd_ite_keeps (fun _ => ?_) (fun _ => ?_)
    | with_reducible refine List.foldl_keeps ?_ (fun s x h => ?_)
    | with_reducible refine List.foldl_fst_keeps ?_ (fun s x h => ?_)
    | with_reducible refine List.foldl_snd_keeps ?_ (fun s x h => ?_)
    | intro s x h
    | simp only [Stable.mk_iff hP]
    | split
    | dsimp only

theorem State.finalEntry_keeps (hP : Lasting P) {s : State} {i : ℕ} {f : Fate} (h : P s) : P (State.finalEntry s i f) := by
  unfold State.finalEntry
  repeat' first
    | with_reducible assumption
    | with_reducible apply State.setStream_keeps hP.stable
    | with_reducible apply State.hostPut_keeps hP
    | with_reducible refine ite_keeps (fun _ => ?_) (fun _ => ?_)
    | with_reducible refine fst_ite_keeps (fun _ => ?_) (fun _ => ?_)
    | with_reducible refine snd_ite_keeps (fun _ => ?_) (fun _ => ?_)
    | with_reducible refine List.foldl_keeps ?_ (fun s x h => ?_)
    | with_reducible refine List.foldl_fst_keeps ?_ (fun s x h => ?_)
    | with_reducible refine List.foldl_snd_keeps ?_ (fun s x h => ?_)
    | intro s x h
    | simp only [Stable.mk_iff hP.stable]
    | split
    | dsimp only

theorem State.rebuildStream_keeps (hP : Stable P) {s : State} {i : ℕ} (h : P s) : P (State.rebuildStream s i) := by
  unfold State.rebuildStream
  repeat' first
    | with_reducible assumption
    | with_reducible apply State.dropPages_keeps hP
    | with_reducible apply State.setStream_keeps hP
    | with_reducible refine ite_keeps (fun _ => ?_) (fun _ => ?_)
    | with_reducible refine fst_ite_keeps (fun _ => ?_) (fun _ => ?_)
    | with_reducible refine snd_ite_keeps (fun _ => ?_) (fun _ => ?_)
    | with_reducible refine List.foldl_keeps ?_ (fun s x h => ?_)
    | with_reducible refine List.foldl_fst_keeps ?_ (fun s x h => ?_)
    | with_reducible refine List.foldl_snd_keeps ?_ (fun s x h => ?_)
    | intro s x h
    | simp only [Stable.mk_iff hP]
    | split
    | dsimp only

theorem State.settleStream_keeps (hP : Lasting P) {s : State} {i : ℕ} (h : P s) : P (State.settleStream s i) := by
  unfold State.settleStream
  repeat' first
    | with_reducible assumption
    | with_reducible apply State.rebuildStream_keeps hP.stable
    | with_reducible apply State.setStream_keeps hP.stable
    | with_reducible apply State.endStream_keeps hP.stable
    | with_reducible apply State.finalEntry_keeps hP
    | with_reducible apply State.addBlocks_keeps hP.stable
    | with_reducible refine ite_keeps (fun _ => ?_) (fun _ => ?_)
    | with_reducible refine fst_ite_keeps (fun _ => ?_) (fun _ => ?_)
    | with_reducible refine snd_ite_keeps (fun _ => ?_) (fun _ => ?_)
    | with_reducible refine List.foldl_keeps ?_ (fun s x h => ?_)
    | with_reducible refine List.foldl_fst_keeps ?_ (fun s x h => ?_)
    | with_reducible refine List.foldl_snd_keeps ?_ (fun s x h => ?_)
    | intro s x h
    | simp only [Stable.mk_iff hP.stable]
    | split
    | dsimp only

theorem State.gatherPages_keeps (hP : Stable P) {s : State} {t : StreamSt} {e : Ecc} (h : P s) : P (State.gatherPages s t e).1 := by
  unfold State.gatherPages
  repeat' first
    | with_reducible assumption
    | with_reducible apply State.readLines_keeps hP
    | with_reducible apply State.portLines_keeps hP
    | with_reducible apply State.perf_keeps hP
    | with_reducible apply State.setStk_keeps hP
    | with_reducible refine ite_keeps (fun _ => ?_) (fun _ => ?_)
    | with_reducible refine fst_ite_keeps (fun _ => ?_) (fun _ => ?_)
    | with_reducible refine snd_ite_keeps (fun _ => ?_) (fun _ => ?_)
    | with_reducible refine List.foldl_keeps ?_ (fun s x h => ?_)
    | with_reducible refine List.foldl_fst_keeps ?_ (fun s x h => ?_)
    | with_reducible refine List.foldl_snd_keeps ?_ (fun s x h => ?_)
    | intro s x h
    | simp only [Stable.mk_iff hP]
    | split
    | dsimp only

theorem State.writeSwap_keeps (hP : Stable P) {s : State} {i : ℕ} (h : P s) : P (State.writeSwap s i) := by
  unfold State.writeSwap
  repeat' first
    | with_reducible assumption
    | with_reducible apply State.setPart_keeps hP
    | with_reducible apply State.setStream_keeps hP
    | with_reducible refine ite_keeps (fun _ => ?_) (fun _ => ?_)
    | with_reducible refine fst_ite_keeps (fun _ => ?_) (fun _ => ?_)
    | with_reducible refine snd_ite_keeps (fun _ => ?_) (fun _ => ?_)
    | with_reducible refine List.foldl_keeps ?_ (fun s x h => ?_)
    | with_reducible refine List.foldl_fst_keeps ?_ (fun s x h => ?_)
    | with_reducible refine List.foldl_snd_keeps ?_ (fun s x h => ?_)
    | intro s x h
    | simp only [Stable.mk_iff hP]
    | split
    | dsimp only

theorem State.commitSwap_keeps (hP : Lasting P) {s : State} {b : BgOp} (h : P s) : P (State.commitSwap s b) := by
  unfold State.commitSwap
  repeat' first
    | with_reducible assumption
    | with_reducible apply State.endBg_keeps hP.stable
    | with_reducible apply State.dropPages_keeps hP.stable
    | with_reducible apply State.setStream_keeps hP.stable
    | with_reducible apply State.putStack_keeps hP
    | with_reducible apply State.dropSwap_keeps hP.stable
    | with_reducible refine ite_keeps (fun _ => ?_) (fun _ => ?_)
    | with_reducible refine fst_ite_keeps (fun _ => ?_) (fun _ => ?_)
    | with_reducible refine snd_ite_keeps (fun _ => ?_) (fun _ => ?_)
    | with_reducible refine List.foldl_keeps ?_ (fun s x h => ?_)
    | with_reducible refine List.foldl_fst_keeps ?_ (fun s x h => ?_)
    | with_reducible refine List.foldl_snd_keeps ?_ (fun s x h => ?_)
    | intro s x h
    | simp only [Stable.mk_iff hP.stable]
    | split
    | dsimp only

theorem State.commitSwaps_keeps (hP : Lasting P) {s : State} (h : P s) : P (State.commitSwaps s) := by
  unfold State.commitSwaps
  repeat' first
    | with_reducible assumption
    | with_reducible apply State.commitSwap_keeps hP
    | with_reducible refine ite_keeps (fun _ => ?_) (fun _ => ?_)
    | with_reducible refine fst_ite_keeps (fun _ => ?_) (fun _ => ?_)
    | with_reducible refine snd_ite_keeps (fun _ => ?_) (fun _ => ?_)
    | with_reducible refine List.foldl_keeps ?_ (fun s x h => ?_)
    | with_reducible refine List.foldl_fst_keeps ?_ (fun s x h => ?_)
    | with_reducible refine List.foldl_snd_keeps ?_ (fun s x h => ?_)
    | intro s x h
    | simp only [Stable.mk_iff hP.stable]
    | split
    | dsimp only

theorem State.stageSwap_keeps (hP : Lasting P) {s : State} {b : BgOp} (h : P s) : P (State.stageSwap s b) := by
  unfold State.stageSwap
  split
  · exact h
  · refine ite_keeps (fun _ => h) fun _ => ?_
    dsimp only
    split
    · exact State.putBg_keeps hP.stable (State.takeFrames_keeps hP h)
    · exact h

theorem State.stageSwaps_keeps (hP : Lasting P) {s : State} (h : P s) : P (State.stageSwaps s) := by
  unfold State.stageSwaps
  repeat' first
    | with_reducible assumption
    | with_reducible apply State.stageSwap_keeps hP
    | with_reducible refine ite_keeps (fun _ => ?_) (fun _ => ?_)
    | with_reducible refine fst_ite_keeps (fun _ => ?_) (fun _ => ?_)
    | with_reducible refine snd_ite_keeps (fun _ => ?_) (fun _ => ?_)
    | with_reducible refine List.foldl_keeps ?_ (fun s x h => ?_)
    | with_reducible refine List.foldl_fst_keeps ?_ (fun s x h => ?_)
    | with_reducible refine List.foldl_snd_keeps ?_ (fun s x h => ?_)
    | intro s x h
    | simp only [Stable.mk_iff hP.stable]
    | split
    | dsimp only

theorem State.allocOne_keeps (hP : Lasting P) {s : State} {offers : List (ℕ × ℕ)} {chunks : List (ℕ × ℕ)} {i : ℕ} (h : P s) :
    P (State.allocOne s offers chunks i) := by
  unfold State.allocOne
  repeat' first
    | with_reducible assumption
    | refine OptP.get ‹State.givePages _ _ _ _ = some _› (State.givePages_keeps hP ?_)
    | with_reducible refine OptP.getD (State.givePages_keeps hP ?_) ?_
    | with_reducible apply State.setStream_keeps hP.stable
    | with_reducible refine ite_keeps (fun _ => ?_) (fun _ => ?_)
    | with_reducible refine fst_ite_keeps (fun _ => ?_) (fun _ => ?_)
    | with_reducible refine snd_ite_keeps (fun _ => ?_) (fun _ => ?_)
    | with_reducible refine List.foldl_keeps ?_ (fun s x h => ?_)
    | with_reducible refine List.foldl_fst_keeps ?_ (fun s x h => ?_)
    | with_reducible refine List.foldl_snd_keeps ?_ (fun s x h => ?_)
    | intro s x h
    | simp only [Stable.mk_iff hP.stable]
    | split
    | dsimp only

theorem State.beginSwapIn_keeps (hP : Lasting P) {s : State} {offers : List (ℕ × ℕ)} {i : ℕ} (h : P s) :
    P (State.beginSwapIn s offers i) := by
  unfold State.beginSwapIn
  repeat' first
    | with_reducible assumption
    | with_reducible apply State.shareBlock_keeps hP.stable
    | refine OptP.get ‹State.givePages _ _ _ _ = some _› (State.givePages_keeps hP ?_)
    | with_reducible refine OptP.getD (State.givePages_keeps hP ?_) ?_
    | with_reducible apply State.setStream_keeps hP.stable
    | with_reducible apply State.startBg_keeps hP.stable
    | with_reducible refine ite_keeps (fun _ => ?_) (fun _ => ?_)
    | with_reducible refine fst_ite_keeps (fun _ => ?_) (fun _ => ?_)
    | with_reducible refine snd_ite_keeps (fun _ => ?_) (fun _ => ?_)
    | with_reducible refine List.foldl_keeps ?_ (fun s x h => ?_)
    | with_reducible refine List.foldl_fst_keeps ?_ (fun s x h => ?_)
    | with_reducible refine List.foldl_snd_keeps ?_ (fun s x h => ?_)
    | intro s x h
    | simp only [Stable.mk_iff hP.stable]
    | split
    | dsimp only

theorem State.allocStreams_keeps (hP : Lasting P) {s : State} {offers : List (ℕ × ℕ)} {cs : List (ℕ × ℕ)} (h : P s) :
    P (State.allocStreams s offers cs) := by
  unfold State.allocStreams
  repeat' first
    | with_reducible assumption
    | with_reducible apply State.allocOne_keeps hP
    | with_reducible apply State.beginSwapIn_keeps hP
    | with_reducible refine ite_keeps (fun _ => ?_) (fun _ => ?_)
    | with_reducible refine fst_ite_keeps (fun _ => ?_) (fun _ => ?_)
    | with_reducible refine snd_ite_keeps (fun _ => ?_) (fun _ => ?_)
    | with_reducible refine List.foldl_keeps ?_ (fun s x h => ?_)
    | with_reducible refine List.foldl_fst_keeps ?_ (fun s x h => ?_)
    | with_reducible refine List.foldl_snd_keeps ?_ (fun s x h => ?_)
    | intro s x h
    | simp only [Stable.mk_iff hP.stable]
    | split
    | dsimp only

theorem State.dropEnt_keeps (hP : Stable P) {s : State} {e : PrefixEnt} (h : P s) : P (State.dropEnt s e) := by
  unfold State.dropEnt
  repeat' first
    | with_reducible assumption
    | with_reducible apply State.unref_keeps hP
    | with_reducible refine ite_keeps (fun _ => ?_) (fun _ => ?_)
    | with_reducible refine fst_ite_keeps (fun _ => ?_) (fun _ => ?_)
    | with_reducible refine snd_ite_keeps (fun _ => ?_) (fun _ => ?_)
    | with_reducible refine List.foldl_keeps ?_ (fun s x h => ?_)
    | with_reducible refine List.foldl_fst_keeps ?_ (fun s x h => ?_)
    | with_reducible refine List.foldl_snd_keeps ?_ (fun s x h => ?_)
    | intro s x h
    | simp only [Stable.mk_iff hP]
    | split
    | dsimp only

theorem State.dropTree_keeps (hP : Stable P) {s : State} {cs : List (ℕ × ℕ)} {p : ℕ} {t : ℕ} {a4 : ℕ} (h : P s) :
    P (State.dropTree s cs p t a4) := by
  induction a4 generalizing s cs p t with
  | zero =>
    unfold State.dropTree
    repeat' first
      | with_reducible assumption
      | with_reducible apply State.dropEnt_keeps hP
      | with_reducible refine ite_keeps (fun _ => ?_) (fun _ => ?_)
      | with_reducible refine fst_ite_keeps (fun _ => ?_) (fun _ => ?_)
      | with_reducible refine snd_ite_keeps (fun _ => ?_) (fun _ => ?_)
      | with_reducible refine List.foldl_keeps ?_ (fun s x h => ?_)
      | with_reducible refine List.foldl_fst_keeps ?_ (fun s x h => ?_)
      | with_reducible refine List.foldl_snd_keeps ?_ (fun s x h => ?_)
      | intro s x h
      | simp only [Stable.mk_iff hP]
      | split
      | dsimp only
  | succ a ih =>
    unfold State.dropTree
    repeat' first
      | with_reducible assumption
      | with_reducible apply ih
      | with_reducible apply State.dropEnt_keeps hP
      | with_reducible refine ite_keeps (fun _ => ?_) (fun _ => ?_)
      | with_reducible refine fst_ite_keeps (fun _ => ?_) (fun _ => ?_)
      | with_reducible refine snd_ite_keeps (fun _ => ?_) (fun _ => ?_)
      | with_reducible refine List.foldl_keeps ?_ (fun s x h => ?_)
      | with_reducible refine List.foldl_fst_keeps ?_ (fun s x h => ?_)
      | with_reducible refine List.foldl_snd_keeps ?_ (fun s x h => ?_)
      | intro s x h
      | simp only [Stable.mk_iff hP]
      | split
      | dsimp only

theorem State.preempt_keeps (hP : Stable P) {s : State} {pre : State} {i : ℕ} (h : P s) : P (State.preempt s pre i) := by
  unfold State.preempt
  repeat' first
    | with_reducible assumption
    | with_reducible apply State.startBg_keeps hP
    | with_reducible apply State.setStream_keeps hP
    | with_reducible refine ite_keeps (fun _ => ?_) (fun _ => ?_)
    | with_reducible refine fst_ite_keeps (fun _ => ?_) (fun _ => ?_)
    | with_reducible refine snd_ite_keeps (fun _ => ?_) (fun _ => ?_)
    | with_reducible refine List.foldl_keeps ?_ (fun s x h => ?_)
    | with_reducible refine List.foldl_fst_keeps ?_ (fun s x h => ?_)
    | with_reducible refine List.foldl_snd_keeps ?_ (fun s x h => ?_)
    | intro s x h
    | simp only [Stable.mk_iff hP]
    | split
    | dsimp only

theorem State.preemptPool_keeps (hP : Stable P) {s : State} {pre : State} {cs : List (ℕ × ℕ)} {p : ℕ} {t : ℕ} {a5 : ℕ} (h : P s) :
    P (State.preemptPool s pre cs p t a5) := by
  induction a5 generalizing s pre cs p t with
  | zero =>
    unfold State.preemptPool
    repeat' first
      | with_reducible assumption
      | with_reducible apply State.preempt_keeps hP
      | with_reducible refine ite_keeps (fun _ => ?_) (fun _ => ?_)
      | with_reducible refine fst_ite_keeps (fun _ => ?_) (fun _ => ?_)
      | with_reducible refine snd_ite_keeps (fun _ => ?_) (fun _ => ?_)
      | with_reducible refine List.foldl_keeps ?_ (fun s x h => ?_)
      | with_reducible refine List.foldl_fst_keeps ?_ (fun s x h => ?_)
      | with_reducible refine List.foldl_snd_keeps ?_ (fun s x h => ?_)
      | intro s x h
      | simp only [Stable.mk_iff hP]
      | split
      | dsimp only
  | succ a ih =>
    unfold State.preemptPool
    repeat' first
      | with_reducible assumption
      | with_reducible apply ih
      | with_reducible apply State.preempt_keeps hP
      | with_reducible refine ite_keeps (fun _ => ?_) (fun _ => ?_)
      | with_reducible refine fst_ite_keeps (fun _ => ?_) (fun _ => ?_)
      | with_reducible refine snd_ite_keeps (fun _ => ?_) (fun _ => ?_)
      | with_reducible refine List.foldl_keeps ?_ (fun s x h => ?_)
      | with_reducible refine List.foldl_fst_keeps ?_ (fun s x h => ?_)
      | with_reducible refine List.foldl_snd_keeps ?_ (fun s x h => ?_)
      | intro s x h
      | simp only [Stable.mk_iff hP]
      | split
      | dsimp only

theorem State.relievePool_keeps (hP : Stable P) {s : State} {pre : State} {cs : List (ℕ × ℕ)} {p : ℕ} {t : ℕ} (h : P s) :
    P (State.relievePool s pre cs p t) := by
  unfold State.relievePool
  repeat' first
    | with_reducible assumption
    | with_reducible apply State.preemptPool_keeps hP
    | with_reducible apply State.dropTree_keeps hP
    | with_reducible refine ite_keeps (fun _ => ?_) (fun _ => ?_)
    | with_reducible refine fst_ite_keeps (fun _ => ?_) (fun _ => ?_)
    | with_reducible refine snd_ite_keeps (fun _ => ?_) (fun _ => ?_)
    | with_reducible refine List.foldl_keeps ?_ (fun s x h => ?_)
    | with_reducible refine List.foldl_fst_keeps ?_ (fun s x h => ?_)
    | with_reducible refine List.foldl_snd_keeps ?_ (fun s x h => ?_)
    | intro s x h
    | simp only [Stable.mk_iff hP]
    | split
    | dsimp only

theorem State.tokenDone_keeps (hP : Stable P) {s : State} {pre : State} {i : ℕ} (h : P s) : P (State.tokenDone s pre i) := by
  unfold State.tokenDone
  repeat' first
    | with_reducible assumption
    | with_reducible apply State.charge_keeps hP
    | with_reducible apply State.addBlocks_keeps hP
    | with_reducible refine ite_keeps (fun _ => ?_) (fun _ => ?_)
    | with_reducible refine fst_ite_keeps (fun _ => ?_) (fun _ => ?_)
    | with_reducible refine snd_ite_keeps (fun _ => ?_) (fun _ => ?_)
    | with_reducible refine List.foldl_keeps ?_ (fun s x h => ?_)
    | with_reducible refine List.foldl_fst_keeps ?_ (fun s x h => ?_)
    | with_reducible refine List.foldl_snd_keeps ?_ (fun s x h => ?_)
    | intro s x h
    | simp only [Stable.mk_iff hP]
    | split
    | dsimp only

theorem State.batchFrames_keeps (hP : Lasting P) {s : State} {p : ℕ} {a2 : ℕ} {a3 : ℕ} {a4 : GraphSt} (h : P s) :
    P (State.batchFrames s p a2 a3 a4).1 := by
  induction a3 generalizing s p a2 a4 with
  | zero =>
    unfold State.batchFrames
    repeat' first
      | with_reducible assumption
      | with_reducible apply State.setGraph_keeps hP.stable
      | with_reducible apply State.takeFrames_keeps hP
      | with_reducible refine ite_keeps (fun _ => ?_) (fun _ => ?_)
      | with_reducible refine fst_ite_keeps (fun _ => ?_) (fun _ => ?_)
      | with_reducible refine snd_ite_keeps (fun _ => ?_) (fun _ => ?_)
      | with_reducible refine List.foldl_keeps ?_ (fun s x h => ?_)
      | with_reducible refine List.foldl_fst_keeps ?_ (fun s x h => ?_)
      | with_reducible refine List.foldl_snd_keeps ?_ (fun s x h => ?_)
      | intro s x h
      | simp only [Stable.mk_iff hP.stable]
      | split
      | dsimp only
  | succ a ih =>
    unfold State.batchFrames
    repeat' first
      | with_reducible assumption
      | with_reducible apply ih
      | with_reducible apply State.setGraph_keeps hP.stable
      | with_reducible apply State.takeFrames_keeps hP
      | with_reducible refine ite_keeps (fun _ => ?_) (fun _ => ?_)
      | with_reducible refine fst_ite_keeps (fun _ => ?_) (fun _ => ?_)
      | with_reducible refine snd_ite_keeps (fun _ => ?_) (fun _ => ?_)
      | with_reducible refine List.foldl_keeps ?_ (fun s x h => ?_)
      | with_reducible refine List.foldl_fst_keeps ?_ (fun s x h => ?_)
      | with_reducible refine List.foldl_snd_keeps ?_ (fun s x h => ?_)
      | intro s x h
      | simp only [Stable.mk_iff hP.stable]
      | split
      | dsimp only

theorem State.putBatch_keeps (hP : Lasting P) {s : State} {p : ℕ} {a2 : ℕ} {g : GraphSt} (h : P s) : P (State.putBatch s p a2 g) := by
  unfold State.putBatch
  repeat' first
    | with_reducible assumption
    | with_reducible apply State.batchFrames_keeps hP
    | with_reducible apply State.setGraph_keeps hP.stable
    | with_reducible apply State.putStack_keeps hP
    | with_reducible refine ite_keeps (fun _ => ?_) (fun _ => ?_)
    | with_reducible refine fst_ite_keeps (fun _ => ?_) (fun _ => ?_)
    | with_reducible refine snd_ite_keeps (fun _ => ?_) (fun _ => ?_)
    | with_reducible refine List.foldl_keeps ?_ (fun s x h => ?_)
    | with_reducible refine List.foldl_fst_keeps ?_ (fun s x h => ?_)
    | with_reducible refine List.foldl_snd_keeps ?_ (fun s x h => ?_)
    | intro s x h
    | simp only [Stable.mk_iff hP.stable]
    | split
    | dsimp only

theorem State.putBatches_keeps (hP : Lasting P) {s : State} {p : ℕ} (h : P s) : P (State.putBatches s p) := by
  unfold State.putBatches
  repeat' first
    | with_reducible assumption
    | with_reducible apply State.putBatch_keeps hP
    | with_reducible refine ite_keeps (fun _ => ?_) (fun _ => ?_)
    | with_reducible refine fst_ite_keeps (fun _ => ?_) (fun _ => ?_)
    | with_reducible refine snd_ite_keeps (fun _ => ?_) (fun _ => ?_)
    | with_reducible refine List.foldl_keeps ?_ (fun s x h => ?_)
    | with_reducible refine List.foldl_fst_keeps ?_ (fun s x h => ?_)
    | with_reducible refine List.foldl_snd_keeps ?_ (fun s x h => ?_)
    | intro s x h
    | simp only [Stable.mk_iff hP.stable]
    | split
    | dsimp only

theorem State.putRows_keeps (hP : Lasting P) {s : State} {st : ℕ} {f : ℕ} {rows : List (ℕ × List Byte)} (h : P s) :
    P (State.putRows s st f rows) := by
  unfold State.putRows
  repeat' first
    | with_reducible assumption
    | with_reducible apply State.putStack_keeps hP
    | with_reducible refine ite_keeps (fun _ => ?_) (fun _ => ?_)
    | with_reducible refine fst_ite_keeps (fun _ => ?_) (fun _ => ?_)
    | with_reducible refine snd_ite_keeps (fun _ => ?_) (fun _ => ?_)
    | with_reducible refine List.foldl_keeps ?_ (fun s x h => ?_)
    | with_reducible refine List.foldl_fst_keeps ?_ (fun s x h => ?_)
    | with_reducible refine List.foldl_snd_keeps ?_ (fun s x h => ?_)
    | intro s x h
    | simp only [Stable.mk_iff hP.stable]
    | split
    | dsimp only

theorem State.ringBegin_keeps (hP : Lasting P) {s : State} {offers : List (ℕ × ℕ)} {r : HallRingSt} (h : P s) :
    P (State.ringBegin s offers r) := by
  unfold State.ringBegin
  repeat' first
    | with_reducible assumption
    | refine OptP.get ‹State.givePages _ _ _ _ = some _› (State.givePages_keeps hP ?_)
    | with_reducible refine OptP.getD (State.givePages_keeps hP ?_) ?_
    | with_reducible apply State.takeFrames_keeps hP
    | with_reducible refine ite_keeps (fun _ => ?_) (fun _ => ?_)
    | with_reducible refine fst_ite_keeps (fun _ => ?_) (fun _ => ?_)
    | with_reducible refine snd_ite_keeps (fun _ => ?_) (fun _ => ?_)
    | with_reducible refine List.foldl_keeps ?_ (fun s x h => ?_)
    | with_reducible refine List.foldl_fst_keeps ?_ (fun s x h => ?_)
    | with_reducible refine List.foldl_snd_keeps ?_ (fun s x h => ?_)
    | intro s x h
    | simp only [Stable.mk_iff hP.stable]
    | split
    | dsimp only

theorem State.ringRebuild_keeps (hP : Lasting P) {s : State} {r : HallRingSt} (h : P s) : P (State.ringRebuild s r) := by
  unfold State.ringRebuild
  repeat' first
    | with_reducible assumption
    | with_reducible apply State.putRows_keeps hP
    | with_reducible apply State.setStream_keeps hP.stable
    | with_reducible refine ite_keeps (fun _ => ?_) (fun _ => ?_)
    | with_reducible refine fst_ite_keeps (fun _ => ?_) (fun _ => ?_)
    | with_reducible refine snd_ite_keeps (fun _ => ?_) (fun _ => ?_)
    | with_reducible refine List.foldl_keeps ?_ (fun s x h => ?_)
    | with_reducible refine List.foldl_fst_keeps ?_ (fun s x h => ?_)
    | with_reducible refine List.foldl_snd_keeps ?_ (fun s x h => ?_)
    | intro s x h
    | simp only [Stable.mk_iff hP.stable]
    | split
    | dsimp only

theorem State.ringTest_keeps (hP : Lasting P) {s : State} {r : HallRingSt} (h : P s) : P (State.ringTest s r) := by
  unfold State.ringTest
  repeat' first
    | with_reducible assumption
    | with_reducible apply State.putRows_keeps hP
    | with_reducible apply State.releaseFrames_keeps hP.stable
    | with_reducible refine ite_keeps (fun _ => ?_) (fun _ => ?_)
    | with_reducible refine fst_ite_keeps (fun _ => ?_) (fun _ => ?_)
    | with_reducible refine snd_ite_keeps (fun _ => ?_) (fun _ => ?_)
    | with_reducible refine List.foldl_keeps ?_ (fun s x h => ?_)
    | with_reducible refine List.foldl_fst_keeps ?_ (fun s x h => ?_)
    | with_reducible refine List.foldl_snd_keeps ?_ (fun s x h => ?_)
    | intro s x h
    | simp only [Stable.mk_iff hP.stable]
    | split
    | dsimp only

theorem State.ringOff_keeps (hP : Stable P) {s : State} {r : HallRingSt} (h : P s) : P (State.ringOff s r) := by
  unfold State.ringOff
  repeat' first
    | with_reducible assumption
    | with_reducible apply State.setStream_keeps hP
    | with_reducible refine ite_keeps (fun _ => ?_) (fun _ => ?_)
    | with_reducible refine fst_ite_keeps (fun _ => ?_) (fun _ => ?_)
    | with_reducible refine snd_ite_keeps (fun _ => ?_) (fun _ => ?_)
    | with_reducible refine List.foldl_keeps ?_ (fun s x h => ?_)
    | with_reducible refine List.foldl_fst_keeps ?_ (fun s x h => ?_)
    | with_reducible refine List.foldl_snd_keeps ?_ (fun s x h => ?_)
    | intro s x h
    | simp only [Stable.mk_iff hP]
    | split
    | dsimp only

theorem State.ringNext_keeps (hP : Stable P) {s : State} (h : P s) : P (State.ringNext s) := by
  unfold State.ringNext
  repeat' first
    | with_reducible assumption
    | with_reducible refine ite_keeps (fun _ => ?_) (fun _ => ?_)
    | with_reducible refine fst_ite_keeps (fun _ => ?_) (fun _ => ?_)
    | with_reducible refine snd_ite_keeps (fun _ => ?_) (fun _ => ?_)
    | with_reducible refine List.foldl_keeps ?_ (fun s x h => ?_)
    | with_reducible refine List.foldl_fst_keeps ?_ (fun s x h => ?_)
    | with_reducible refine List.foldl_snd_keeps ?_ (fun s x h => ?_)
    | intro s x h
    | simp only [Stable.mk_iff hP]
    | split
    | dsimp only

theorem State.ring4_keeps (hP : Lasting P) {s : State} {offers : List (ℕ × ℕ)} (h : P s) : P (State.ring4 s offers) := by
  unfold State.ring4
  repeat' first
    | with_reducible assumption
    | with_reducible apply State.ringOff_keeps hP.stable
    | with_reducible apply State.releaseFrames_keeps hP.stable
    | with_reducible apply State.staleDrop_keeps hP.stable
    | with_reducible apply State.ringBegin_keeps hP
    | with_reducible apply State.ringRebuild_keeps hP
    | with_reducible apply State.ringTest_keeps hP
    | with_reducible refine ite_keeps (fun _ => ?_) (fun _ => ?_)
    | with_reducible refine fst_ite_keeps (fun _ => ?_) (fun _ => ?_)
    | with_reducible refine snd_ite_keeps (fun _ => ?_) (fun _ => ?_)
    | with_reducible refine List.foldl_keeps ?_ (fun s x h => ?_)
    | with_reducible refine List.foldl_fst_keeps ?_ (fun s x h => ?_)
    | with_reducible refine List.foldl_snd_keeps ?_ (fun s x h => ?_)
    | intro s x h
    | simp only [Stable.mk_iff hP.stable]
    | split
    | dsimp only

theorem State.snapStreams_keeps (hP : Stable P) {s : State} (h : P s) : P (State.snapStreams s) := by
  unfold State.snapStreams
  repeat' first
    | with_reducible assumption
    | with_reducible apply State.setFld_keeps hP
    | with_reducible refine ite_keeps (fun _ => ?_) (fun _ => ?_)
    | with_reducible refine fst_ite_keeps (fun _ => ?_) (fun _ => ?_)
    | with_reducible refine snd_ite_keeps (fun _ => ?_) (fun _ => ?_)
    | with_reducible refine List.foldl_keeps ?_ (fun s x h => ?_)
    | with_reducible refine List.foldl_fst_keeps ?_ (fun s x h => ?_)
    | with_reducible refine List.foldl_snd_keeps ?_ (fun s x h => ?_)
    | intro s x h
    | simp only [Stable.mk_iff hP]
    | split
    | dsimp only

theorem State.fates_keeps (hP : Lasting P) {s : State} (h : P s) : P (State.fates s) := by
  unfold State.fates
  repeat' first
    | with_reducible assumption
    | with_reducible apply State.freeSlots_keeps hP.stable
    | with_reducible apply State.commitSwaps_keeps hP
    | with_reducible apply State.settleStream_keeps hP
    | with_reducible refine ite_keeps (fun _ => ?_) (fun _ => ?_)
    | with_reducible refine fst_ite_keeps (fun _ => ?_) (fun _ => ?_)
    | with_reducible refine snd_ite_keeps (fun _ => ?_) (fun _ => ?_)
    | with_reducible refine List.foldl_keeps ?_ (fun s x h => ?_)
    | with_reducible refine List.foldl_fst_keeps ?_ (fun s x h => ?_)
    | with_reducible refine List.foldl_snd_keeps ?_ (fun s x h => ?_)
    | intro s x h
    | simp only [Stable.mk_iff hP.stable]
    | split
    | dsimp only

theorem State.streams4_keeps (hP : Lasting P) {s : State} {pre : State} {offers : List (ℕ × ℕ)} {budget : List (ℕ × ℕ)} (h : P s) :
    P (State.streams4 s pre offers budget) := by
  unfold State.streams4
  repeat' first
    | with_reducible assumption
    | with_reducible apply State.ring4_keeps hP
    | with_reducible apply State.ringNext_keeps hP.stable
    | with_reducible apply State.allocStreams_keeps hP
    | with_reducible apply State.each_keeps hP.stable
    | with_reducible apply State.relievePool_keeps hP.stable
    | with_reducible apply State.tokenDone_keeps hP.stable
    | with_reducible apply State.snapStreams_keeps hP.stable
    | with_reducible apply State.stageSwaps_keeps hP
    | with_reducible apply State.putBatches_keeps hP
    | with_reducible refine ite_keeps (fun _ => ?_) (fun _ => ?_)
    | with_reducible refine fst_ite_keeps (fun _ => ?_) (fun _ => ?_)
    | with_reducible refine snd_ite_keeps (fun _ => ?_) (fun _ => ?_)
    | with_reducible refine List.foldl_keeps ?_ (fun s x h => ?_)
    | with_reducible refine List.foldl_fst_keeps ?_ (fun s x h => ?_)
    | with_reducible refine List.foldl_snd_keeps ?_ (fun s x h => ?_)
    | intro s x h
    | simp only [Stable.mk_iff hP.stable]
    | split
    | dsimp only

end Sys2Proof.Machine
end

