-- ==== Sys2Proof/Laws/KeepAccount.lean ====
section
/-! SUPPORT. What the definitions of Machine/Account.lean keep. -/

set_option linter.unusedTactic false
set_option linter.unreachableTactic false

namespace Sys2Proof.Machine

variable {P : State → Prop}

theorem State.clearCharges_keeps (hP : Stable P) {s : State} {p : ℕ} (h : P s) : P (State.clearCharges s p) := by
  unfold State.clearCharges
  repeat' first
    | with_reducible assumption
    | with_reducible apply State.setPart_keeps hP
    | with_reducible refine ite_keeps (fun _ => ?_) (fun _ => ?_)
    | with_reducible refine fst_ite_keeps (fun _ => ?_) (fun _ => ?_)
    | with_reducible refine snd_ite_keeps (fun _ => ?_) (fun _ => ?_)
    | with_reducible refine List.foldl_keeps ?_ (fun s x h => ?_)
    | with_reducible refine List.foldl_fst_keeps ?_ (fun s x h => ?_)
    | with_reducible refine List.foldl_snd_keeps ?_ (fun s x h => ?_)
    | intro s x h
    | simp only [Stable.mk_iff hP]
    | split
    | dsimp only

theorem State.flushVf_keeps (hP : Lasting P) {s : State} {p : ℕ} {recs : List (ℕ × CarrySt)} {part : Option CarrySt} (h : P s) :
    P (State.flushVf s p recs part) := by
  unfold State.flushVf
  repeat' first
    | with_reducible assumption
    | with_reducible apply State.setPart_keeps hP.stable
    | with_reducible apply State.hostPart_keeps hP
    | with_reducible apply State.sendMsi_keeps hP.stable
    | with_reducible refine ite_keeps (fun _ => ?_) (fun _ => ?_)
    | with_reducible refine fst_ite_keeps (fun _ => ?_) (fun _ => ?_)
    | with_reducible refine snd_ite_keeps (fun _ => ?_) (fun _ => ?_)
    | with_reducible refine List.foldl_keeps ?_ (fun s x h => ?_)
    | with_reducible refine List.foldl_fst_keeps ?_ (fun s x h => ?_)
    | with_reducible refine List.foldl_snd_keeps ?_ (fun s x h => ?_)
    | intro s x h
    | simp only [Stable.mk_iff hP.stable]
    | split
    | dsimp only

theorem State.flushPf_keeps (hP : Lasting P) {s : State} {p : ℕ} {part : Option CarrySt} (h : P s) : P (State.flushPf s p part) := by
  unfold State.flushPf
  repeat' first
    | with_reducible assumption
    | with_reducible apply State.setPart_keeps hP.stable
    | with_reducible apply State.chargePart_keeps hP.stable
    | with_reducible apply State.setHost_keeps hP
    | with_reducible apply State.sendMsi_keeps hP.stable
    | with_reducible refine ite_keeps (fun _ => ?_) (fun _ => ?_)
    | with_reducible refine fst_ite_keeps (fun _ => ?_) (fun _ => ?_)
    | with_reducible refine snd_ite_keeps (fun _ => ?_) (fun _ => ?_)
    | with_reducible refine List.foldl_keeps ?_ (fun s x h => ?_)
    | with_reducible refine List.foldl_fst_keeps ?_ (fun s x h => ?_)
    | with_reducible refine List.foldl_snd_keeps ?_ (fun s x h => ?_)
    | intro s x h
    | exact fun hw => Memory.wf_writeN hw
    | exact fun hw => Memory.wf_writeN (wf_zeroRange hw)
    | exact fun hw => wf_zeroRange hw
    | exact fun hw => wf_copyRange hw
    | exact fun hw => Memory.wf_writeAll hw
    | simp only [Stable.mk_iff hP.stable]
    | split
    | dsimp only

theorem State.backlog_keeps (hP : Stable P) {s : State} {p : ℕ} (h : P s) : P (State.backlog s p) := by
  unfold State.backlog
  repeat' first
    | with_reducible assumption
    | with_reducible apply State.setFld_keeps hP
    | with_reducible apply State.setPart_keeps hP
    | with_reducible apply State.pushReq_keeps hP
    | with_reducible apply State.setPartState_keeps hP
    | with_reducible apply State.emit_keeps hP
    | with_reducible apply State.flag_keeps hP
    | with_reducible refine ite_keeps (fun _ => ?_) (fun _ => ?_)
    | with_reducible refine fst_ite_keeps (fun _ => ?_) (fun _ => ?_)
    | with_reducible refine snd_ite_keeps (fun _ => ?_) (fun _ => ?_)
    | with_reducible refine List.foldl_keeps ?_ (fun s x h => ?_)
    | with_reducible refine List.foldl_fst_keeps ?_ (fun s x h => ?_)
    | with_reducible refine List.foldl_snd_keeps ?_ (fun s x h => ?_)
    | intro s x h
    | simp only [Stable.mk_iff hP]
    | split
    | dsimp only

theorem State.credits_keeps (hP : Stable P) {s : State} {p : ℕ} (h : P s) : P (State.credits s p) := by
  unfold State.credits
  repeat' first
    | with_reducible assumption
    | with_reducible apply State.setPart_keeps hP
    | with_reducible refine ite_keeps (fun _ => ?_) (fun _ => ?_)
    | with_reducible refine fst_ite_keeps (fun _ => ?_) (fun _ => ?_)
    | with_reducible refine snd_ite_keeps (fun _ => ?_) (fun _ => ?_)
    | with_reducible refine List.foldl_keeps ?_ (fun s x h => ?_)
    | with_reducible refine List.foldl_fst_keeps ?_ (fun s x h => ?_)
    | with_reducible refine List.foldl_snd_keeps ?_ (fun s x h => ?_)
    | intro s x h
    | simp only [Stable.mk_iff hP]
    | split
    | dsimp only

theorem State.heldPart_keeps (hP : Lasting P) {s : State} {len : ℕ} {p : ℕ} (h : P s) : P (State.heldPart s len p) := by
  unfold State.heldPart
  repeat' first
    | with_reducible assumption
    | with_reducible apply State.backlog_keeps hP.stable
    | with_reducible apply State.flushPf_keeps hP
    | with_reducible apply State.flushVf_keeps hP
    | with_reducible refine ite_keeps (fun _ => ?_) (fun _ => ?_)
    | with_reducible refine fst_ite_keeps (fun _ => ?_) (fun _ => ?_)
    | with_reducible refine snd_ite_keeps (fun _ => ?_) (fun _ => ?_)
    | with_reducible refine List.foldl_keeps ?_ (fun s x h => ?_)
    | with_reducible refine List.foldl_fst_keeps ?_ (fun s x h => ?_)
    | with_reducible refine List.foldl_snd_keeps ?_ (fun s x h => ?_)
    | intro s x h
    | simp only [Stable.mk_iff hP.stable]
    | split
    | dsimp only

theorem State.acctPart_keeps (hP : Lasting P) {s : State} {len : ℕ} {p : ℕ} (h : P s) : P (State.acctPart s len p) := by
  unfold State.acctPart
  repeat' first
    | with_reducible assumption
    | with_reducible apply State.credits_keeps hP.stable
    | with_reducible apply State.clearCharges_keeps hP.stable
    | with_reducible apply State.backlog_keeps hP.stable
    | with_reducible apply State.flushPf_keeps hP
    | with_reducible apply State.flushVf_keeps hP
    | with_reducible refine ite_keeps (fun _ => ?_) (fun _ => ?_)
    | with_reducible refine fst_ite_keeps (fun _ => ?_) (fun _ => ?_)
    | with_reducible refine snd_ite_keeps (fun _ => ?_) (fun _ => ?_)
    | with_reducible refine List.foldl_keeps ?_ (fun s x h => ?_)
    | with_reducible refine List.foldl_fst_keeps ?_ (fun s x h => ?_)
    | with_reducible refine List.foldl_snd_keeps ?_ (fun s x h => ?_)
    | intro s x h
    | simp only [Stable.mk_iff hP.stable]
    | split
    | dsimp only

theorem State.step5_keeps (hP : Lasting P) {s : State} {held : Bool} {len : ℕ} (h : P s) : P (State.step5 s held len) := by
  unfold State.step5
  repeat' first
    | with_reducible assumption
    | with_reducible apply State.each_keeps hP.stable
    | with_reducible apply State.heldPart_keeps hP
    | with_reducible apply State.acctPart_keeps hP
    | with_reducible refine ite_keeps (fun _ => ?_) (fun _ => ?_)
    | with_reducible refine fst_ite_keeps (fun _ => ?_) (fun _ => ?_)
    | with_reducible refine snd_ite_keeps (fun _ => ?_) (fun _ => ?_)
    | with_reducible refine List.foldl_keeps ?_ (fun s x h => ?_)
    | with_reducible refine List.foldl_fst_keeps ?_ (fun s x h => ?_)
    | with_reducible refine List.foldl_snd_keeps ?_ (fun s x h => ?_)
    | intro s x h
    | simp only [Stable.mk_iff hP.stable]
    | split
    | dsimp only

theorem State.chargeCycles_keeps (hP : Stable P) {s : State} (h : P s) : P (State.chargeCycles s) := by
  unfold State.chargeCycles
  repeat' first
    | with_reducible assumption
    | with_reducible apply State.charge_keeps hP
    | with_reducible refine ite_keeps (fun _ => ?_) (fun _ => ?_)
    | with_reducible refine fst_ite_keeps (fun _ => ?_) (fun _ => ?_)
    | with_reducible refine snd_ite_keeps (fun _ => ?_) (fun _ => ?_)
    | with_reducible refine List.foldl_keeps ?_ (fun s x h => ?_)
    | with_reducible refine List.foldl_fst_keeps ?_ (fun s x h => ?_)
    | with_reducible refine List.foldl_snd_keeps ?_ (fun s x h => ?_)
    | intro s x h
    | simp only [Stable.mk_iff hP]
    | split
    | dsimp only

theorem State.acctOpen_keeps (hP : Stable P) {s : State} (h : P s) : P (State.acctOpen s) := by
  unfold State.acctOpen
  repeat' first
    | with_reducible assumption
    | with_reducible apply State.each_keeps hP
    | with_reducible apply State.setPart_keeps hP
    | with_reducible refine ite_keeps (fun _ => ?_) (fun _ => ?_)
    | with_reducible refine fst_ite_keeps (fun _ => ?_) (fun _ => ?_)
    | with_reducible refine snd_ite_keeps (fun _ => ?_) (fun _ => ?_)
    | with_reducible refine List.foldl_keeps ?_ (fun s x h => ?_)
    | with_reducible refine List.foldl_fst_keeps ?_ (fun s x h => ?_)
    | with_reducible refine List.foldl_snd_keeps ?_ (fun s x h => ?_)
    | intro s x h
    | simp only [Stable.mk_iff hP]
    | split
    | dsimp only

end Sys2Proof.Machine
end

