-- ==== Sys2Proof/Laws/KeepPublish.lean ====
section
/-! SUPPORT. What the definitions of Machine/Publish.lean keep. -/

set_option linter.unusedTactic false
set_option linter.unreachableTactic false

namespace Sys2Proof.Machine

variable {P : State → Prop}

theorem State.pushEnds_keeps (hP : Stable P) {s : State} (h : P s) : P (State.pushEnds s) := by
  unfold State.pushEnds
  repeat' first
    | with_reducible assumption
    | with_reducible apply State.pushCompl_keeps hP
    | with_reducible apply State.setStream_keeps hP
    | with_reducible refine ite_keeps (fun _ => ?_) (fun _ => ?_)
    | with_reducible refine fst_ite_keeps (fun _ => ?_) (fun _ => ?_)
    | with_reducible refine snd_ite_keeps (fun _ => ?_) (fun _ => ?_)
    | with_reducible refine List.foldl_keeps ?_ (fun s x h => ?_)
    | with_reducible refine List.foldl_fst_keeps ?_ (fun s x h => ?_)
    | with_reducible refine List.foldl_snd_keeps ?_ (fun s x h => ?_)
    | intro s x h
    | simp only [Stable.mk_iff hP]
    | split
    | dsimp only

theorem State.pubTail_keeps (hP : Stable P) {s : State} {i : ℕ} (h : P s) : P (State.pubTail s i) := by
  unfold State.pubTail
  repeat' first
    | with_reducible assumption
    | with_reducible apply State.setStream_keeps hP
    | with_reducible apply State.pubWrite_keeps hP
    | with_reducible refine ite_keeps (fun _ => ?_) (fun _ => ?_)
    | with_reducible refine fst_ite_keeps (fun _ => ?_) (fun _ => ?_)
    | with_reducible refine snd_ite_keeps (fun _ => ?_) (fun _ => ?_)
    | with_reducible refine List.foldl_keeps ?_ (fun s x h => ?_)
    | with_reducible refine List.foldl_fst_keeps ?_ (fun s x h => ?_)
    | with_reducible refine List.foldl_snd_keeps ?_ (fun s x h => ?_)
    | intro s x h
    | simp only [Stable.mk_iff hP]
    | split
    | dsimp only

theorem State.pubPlace_keeps (hP : Stable P) {s : State} {p : ℕ} (h : P s) : P (State.pubPlace s p) := by
  unfold State.pubPlace
  repeat' first
    | with_reducible assumption
    | with_reducible apply State.pubWrite_keeps hP
    | with_reducible apply State.pubMsi_keeps hP
    | with_reducible apply State.setPart_keeps hP
    | with_reducible refine ite_keeps (fun _ => ?_) (fun _ => ?_)
    | with_reducible refine fst_ite_keeps (fun _ => ?_) (fun _ => ?_)
    | with_reducible refine snd_ite_keeps (fun _ => ?_) (fun _ => ?_)
    | with_reducible refine List.foldl_keeps ?_ (fun s x h => ?_)
    | with_reducible refine List.foldl_fst_keeps ?_ (fun s x h => ?_)
    | with_reducible refine List.foldl_snd_keeps ?_ (fun s x h => ?_)
    | intro s x h
    | simp only [Stable.mk_iff hP]
    | split
    | dsimp only

theorem State.queueMsgs_keeps (hP : Stable P) {s : State} {cs : List ComplSt} (h : P s) : P (State.queueMsgs s cs) := by
  unfold State.queueMsgs
  repeat' first
    | with_reducible assumption
    | with_reducible apply State.pubMsi_keeps hP
    | with_reducible refine ite_keeps (fun _ => ?_) (fun _ => ?_)
    | with_reducible refine fst_ite_keeps (fun _ => ?_) (fun _ => ?_)
    | with_reducible refine snd_ite_keeps (fun _ => ?_) (fun _ => ?_)
    | with_reducible refine List.foldl_keeps ?_ (fun s x h => ?_)
    | with_reducible refine List.foldl_fst_keeps ?_ (fun s x h => ?_)
    | with_reducible refine List.foldl_snd_keeps ?_ (fun s x h => ?_)
    | intro s x h
    | simp only [Stable.mk_iff hP]
    | split
    | dsimp only

theorem State.flushFn_keeps (hP : Lasting P) {s : State} {fn : ℕ} (h : P s) : P (State.flushFn s fn) := by
  unfold State.flushFn
  repeat' first
    | with_reducible assumption
    | with_reducible apply State.doPub_keeps hP
    | with_reducible apply State.setMirp_keeps hP.stable
    | with_reducible refine ite_keeps (fun _ => ?_) (fun _ => ?_)
    | with_reducible refine fst_ite_keeps (fun _ => ?_) (fun _ => ?_)
    | with_reducible refine snd_ite_keeps (fun _ => ?_) (fun _ => ?_)
    | with_reducible refine List.foldl_keeps ?_ (fun s x h => ?_)
    | with_reducible refine List.foldl_fst_keeps ?_ (fun s x h => ?_)
    | with_reducible refine List.foldl_snd_keeps ?_ (fun s x h => ?_)
    | intro s x h
    | simp only [Stable.mk_iff hP.stable]
    | split
    | dsimp only

theorem State.flushAll_keeps (hP : Lasting P) {s : State} (h : P s) : P (State.flushAll s) := by
  unfold State.flushAll
  repeat' first
    | with_reducible assumption
    | with_reducible apply State.each_keeps hP.stable
    | with_reducible apply State.flushFn_keeps hP
    | with_reducible refine ite_keeps (fun _ => ?_) (fun _ => ?_)
    | with_reducible refine fst_ite_keeps (fun _ => ?_) (fun _ => ?_)
    | with_reducible refine snd_ite_keeps (fun _ => ?_) (fun _ => ?_)
    | with_reducible refine List.foldl_keeps ?_ (fun s x h => ?_)
    | with_reducible refine List.foldl_fst_keeps ?_ (fun s x h => ?_)
    | with_reducible refine List.foldl_snd_keeps ?_ (fun s x h => ?_)
    | intro s x h
    | simp only [Stable.mk_iff hP.stable]
    | split
    | dsimp only

theorem State.step7_keeps (hP : Lasting P) {s : State} (h : P s) : P (State.step7 s) := by
  unfold State.step7
  repeat' first
    | with_reducible assumption
    | with_reducible apply State.pushEnds_keeps hP.stable
    | with_reducible apply State.admitted7_keeps hP.stable
    | with_reducible apply State.writeCompl_keeps hP.stable
    | with_reducible apply State.signalFence_keeps hP.stable
    | with_reducible apply State.each_keeps hP.stable
    | with_reducible apply State.writeMirrors_keeps hP.stable
    | with_reducible apply State.pubTail_keeps hP.stable
    | with_reducible apply State.pubPlace_keeps hP.stable
    | with_reducible apply State.flushAll_keeps hP
    | with_reducible apply State.queueMsgs_keeps hP.stable
    | with_reducible refine ite_keeps (fun _ => ?_) (fun _ => ?_)
    | with_reducible refine fst_ite_keeps (fun _ => ?_) (fun _ => ?_)
    | with_reducible refine snd_ite_keeps (fun _ => ?_) (fun _ => ?_)
    | with_reducible refine List.foldl_keeps ?_ (fun s x h => ?_)
    | with_reducible refine List.foldl_fst_keeps ?_ (fun s x h => ?_)
    | with_reducible refine List.foldl_snd_keeps ?_ (fun s x h => ?_)
    | intro s x h
    | simp only [Stable.mk_iff hP.stable]
    | split
    | dsimp only

theorem execResultDigestComplete_keeps (hP : Lasting P) {n : ℕ} {s : State} (h : P s) : OutP P (execResultDigestComplete n s) := by
  unfold execResultDigestComplete
  split
  · rename_i d f _ _
    refine OutP.ite (fun _ => OutP.next h) fun _ => ?_
    have hr := State.readRanges_keeps (n := n) (f := f) (rs := d.outs) hP.stable h
    revert hr
    dsimp only
    split
    · rename_i he
      rw [he]
      intro hr
      refine OutP.next ?_
      rw [Stable.mk_iff hP.stable]
      exact hr
    · rename_i he
      rw [he]
      intro hr
      refine OutP.next ?_
      rw [Stable.mk_iff hP.stable]
      exact ite_keeps (fun _ => State.hostPut_keeps hP hr) fun _ => State.charge_keeps hP.stable (State.putStack_keeps hP hr)
  · exact OutP.next h

end Sys2Proof.Machine
end

