-- ==== Sys2Proof/Laws/KeepClose.lean ====
section
/-! SUPPORT. What the definitions of Machine/Close.lean keep. -/

set_option linter.unusedTactic false
set_option linter.unreachableTactic false

namespace Sys2Proof.Machine

variable {P : State → Prop}

theorem State.readHeads_keeps (hP : Stable P) {s : State} {heads : List (ℕ × ℕ)} (h : P s) : P (State.readHeads s heads) := by
  unfold State.readHeads
  repeat' first
    | with_reducible assumption
    | with_reducible refine ite_keeps (fun _ => ?_) (fun _ => ?_)
    | with_reducible refine fst_ite_keeps (fun _ => ?_) (fun _ => ?_)
    | with_reducible refine snd_ite_keeps (fun _ => ?_) (fun _ => ?_)
    | with_reducible refine List.foldl_keeps ?_ (fun s x h => ?_)
    | with_reducible refine List.foldl_fst_keeps ?_ (fun s x h => ?_)
    | with_reducible refine List.foldl_snd_keeps ?_ (fun s x h => ?_)
    | intro s x h
    | simp only [Stable.mk_iff hP]
    | split
    | dsimp only

theorem State.snapshots_keeps (hP : Stable P) {s : State} (h : P s) : P (State.snapshots s) := by
  unfold State.snapshots
  repeat' first
    | with_reducible assumption
    | with_reducible refine ite_keeps (fun _ => ?_) (fun _ => ?_)
    | with_reducible refine fst_ite_keeps (fun _ => ?_) (fun _ => ?_)
    | with_reducible refine snd_ite_keeps (fun _ => ?_) (fun _ => ?_)
    | with_reducible refine List.foldl_keeps ?_ (fun s x h => ?_)
    | with_reducible refine List.foldl_fst_keeps ?_ (fun s x h => ?_)
    | with_reducible refine List.foldl_snd_keeps ?_ (fun s x h => ?_)
    | intro s x h
    | simp only [Stable.mk_iff hP]
    | split
    | dsimp only

theorem State.emitPerTick_keeps (hP : Stable P) {s : State} (h : P s) : P (State.emitPerTick s) := by
  unfold State.emitPerTick
  repeat' first
    | with_reducible assumption
    | with_reducible apply State.pushRec_keeps hP
    | with_reducible apply State.setRing_keeps hP
    | with_reducible refine ite_keeps (fun _ => ?_) (fun _ => ?_)
    | with_reducible refine fst_ite_keeps (fun _ => ?_) (fun _ => ?_)
    | with_reducible refine snd_ite_keeps (fun _ => ?_) (fun _ => ?_)
    | with_reducible refine List.foldl_keeps ?_ (fun s x h => ?_)
    | with_reducible refine List.foldl_fst_keeps ?_ (fun s x h => ?_)
    | with_reducible refine List.foldl_snd_keeps ?_ (fun s x h => ?_)
    | intro s x h
    | simp only [Stable.mk_iff hP]
    | split
    | dsimp only

theorem State.sampleReqs_keeps (hP : Stable P) {s : State} (h : P s) : P (State.sampleReqs s) := by
  unfold State.sampleReqs
  repeat' first
    | with_reducible assumption
    | with_reducible refine ite_keeps (fun _ => ?_) (fun _ => ?_)
    | with_reducible refine fst_ite_keeps (fun _ => ?_) (fun _ => ?_)
    | with_reducible refine snd_ite_keeps (fun _ => ?_) (fun _ => ?_)
    | with_reducible refine List.foldl_keeps ?_ (fun s x h => ?_)
    | with_reducible refine List.foldl_fst_keeps ?_ (fun s x h => ?_)
    | with_reducible refine List.foldl_snd_keeps ?_ (fun s x h => ?_)
    | intro s x h
    | simp only [Stable.mk_iff hP]
    | split
    | dsimp only

theorem State.cutContext_keeps (hP : Stable P) {s : State} {p : ℕ} {a2 : ℕ} {status : ℕ} (h : P s) : P (State.cutContext s p a2 status) := by
  unfold State.cutContext
  repeat' first
    | with_reducible assumption
    | with_reducible apply State.endFlights_keeps hP
    | with_reducible apply State.complete_keeps hP
    | with_reducible apply State.updCtx_keeps hP
    | with_reducible refine ite_keeps (fun _ => ?_) (fun _ => ?_)
    | with_reducible refine fst_ite_keeps (fun _ => ?_) (fun _ => ?_)
    | with_reducible refine snd_ite_keeps (fun _ => ?_) (fun _ => ?_)
    | with_reducible refine List.foldl_keeps ?_ (fun s x h => ?_)
    | with_reducible refine List.foldl_fst_keeps ?_ (fun s x h => ?_)
    | with_reducible refine List.foldl_snd_keeps ?_ (fun s x h => ?_)
    | intro s x h
    | simp only [Stable.mk_iff hP]
    | split
    | dsimp only

theorem State.resumePart_keeps (hP : Stable P) {s : State} {p : ℕ} (h : P s) : P (State.resumePart s p) := by
  unfold State.resumePart
  repeat' first
    | with_reducible assumption
    | with_reducible apply State.setPartState_keeps hP
    | with_reducible apply State.endFlights_keeps hP
    | with_reducible apply State.abandonTick_keeps hP
    | with_reducible refine ite_keeps (fun _ => ?_) (fun _ => ?_)
    | with_reducible refine fst_ite_keeps (fun _ => ?_) (fun _ => ?_)
    | with_reducible refine snd_ite_keeps (fun _ => ?_) (fun _ => ?_)
    | with_reducible refine List.foldl_keeps ?_ (fun s x h => ?_)
    | with_reducible refine List.foldl_fst_keeps ?_ (fun s x h => ?_)
    | with_reducible refine List.foldl_snd_keeps ?_ (fun s x h => ?_)
    | intro s x h
    | simp only [Stable.mk_iff hP]
    | split
    | dsimp only

theorem State.takeReq_keeps (hP : Stable P) {s : State} {r : StopReq} (h : P s) : P (State.takeReq s r) := by
  unfold State.takeReq
  repeat' first
    | with_reducible assumption
    | with_reducible apply State.pushCompl_keeps hP
    | with_reducible apply State.each_keeps hP
    | with_reducible apply State.resumePart_keeps hP
    | with_reducible apply State.freeStatus_keeps hP
    | with_reducible apply State.cutContext_keeps hP
    | with_reducible refine ite_keeps (fun _ => ?_) (fun _ => ?_)
    | with_reducible refine fst_ite_keeps (fun _ => ?_) (fun _ => ?_)
    | with_reducible refine snd_ite_keeps (fun _ => ?_) (fun _ => ?_)
    | with_reducible refine List.foldl_keeps ?_ (fun s x h => ?_)
    | with_reducible refine List.foldl_fst_keeps ?_ (fun s x h => ?_)
    | with_reducible refine List.foldl_snd_keeps ?_ (fun s x h => ?_)
    | intro s x h
    | simp only [Stable.mk_iff hP]
    | split
    | dsimp only

theorem State.takeReqs_keeps (hP : Stable P) {s : State} (h : P s) : P (State.takeReqs s) := by
  unfold State.takeReqs
  repeat' first
    | with_reducible assumption
    | with_reducible apply State.takeReq_keeps hP
    | with_reducible refine ite_keeps (fun _ => ?_) (fun _ => ?_)
    | with_reducible refine fst_ite_keeps (fun _ => ?_) (fun _ => ?_)
    | with_reducible refine snd_ite_keeps (fun _ => ?_) (fun _ => ?_)
    | with_reducible refine List.foldl_keeps ?_ (fun s x h => ?_)
    | with_reducible refine List.foldl_fst_keeps ?_ (fun s x h => ?_)
    | with_reducible refine List.foldl_snd_keeps ?_ (fun s x h => ?_)
    | intro s x h
    | simp only [Stable.mk_iff hP]
    | split
    | dsimp only

theorem State.admitQueue_keeps (hP : Stable P) {s : State} {q : ℕ} {a2 : ℕ} (h : P s) : P (State.admitQueue s q a2) := by
  induction a2 generalizing s q with
  | zero =>
    unfold State.admitQueue
    repeat' first
      | with_reducible assumption
      | with_reducible apply State.admitDesc_keeps hP
      | with_reducible apply State.setQueue_keeps hP
      | with_reducible refine ite_keeps (fun _ => ?_) (fun _ => ?_)
      | with_reducible refine fst_ite_keeps (fun _ => ?_) (fun _ => ?_)
      | with_reducible refine snd_ite_keeps (fun _ => ?_) (fun _ => ?_)
      | with_reducible refine List.foldl_keeps ?_ (fun s x h => ?_)
      | with_reducible refine List.foldl_fst_keeps ?_ (fun s x h => ?_)
      | with_reducible refine List.foldl_snd_keeps ?_ (fun s x h => ?_)
      | intro s x h
      | simp only [Stable.mk_iff hP]
      | split
      | dsimp only
  | succ a ih =>
    unfold State.admitQueue
    repeat' first
      | with_reducible assumption
      | with_reducible apply ih
      | with_reducible apply State.admitDesc_keeps hP
      | with_reducible apply State.setQueue_keeps hP
      | with_reducible refine ite_keeps (fun _ => ?_) (fun _ => ?_)
      | with_reducible refine fst_ite_keeps (fun _ => ?_) (fun _ => ?_)
      | with_reducible refine snd_ite_keeps (fun _ => ?_) (fun _ => ?_)
      | with_reducible refine List.foldl_keeps ?_ (fun s x h => ?_)
      | with_reducible refine List.foldl_fst_keeps ?_ (fun s x h => ?_)
      | with_reducible refine List.foldl_snd_keeps ?_ (fun s x h => ?_)
      | intro s x h
      | simp only [Stable.mk_iff hP]
      | split
      | dsimp only

theorem State.admission_keeps (hP : Stable P) {s : State} (h : P s) : P (State.admission s) := by
  unfold State.admission
  repeat' first
    | with_reducible assumption
    | with_reducible apply State.admitQueue_keeps hP
    | with_reducible apply State.setFld_keeps hP
    | with_reducible refine ite_keeps (fun _ => ?_) (fun _ => ?_)
    | with_reducible refine fst_ite_keeps (fun _ => ?_) (fun _ => ?_)
    | with_reducible refine snd_ite_keeps (fun _ => ?_) (fun _ => ?_)
    | with_reducible refine List.foldl_keeps ?_ (fun s x h => ?_)
    | with_reducible refine List.foldl_fst_keeps ?_ (fun s x h => ?_)
    | with_reducible refine List.foldl_snd_keeps ?_ (fun s x h => ?_)
    | intro s x h
    | simp only [Stable.mk_iff hP]
    | split
    | dsimp only

theorem State.breakWait_keeps (hP : Stable P) {s : State} {p : ℕ} (h : P s) : P (State.breakWait s p) := by
  unfold State.breakWait
  repeat' first
    | with_reducible assumption
    | with_reducible apply State.setQueue_keeps hP
    | with_reducible apply State.countFld_keeps hP
    | with_reducible apply State.complete_keeps hP
    | with_reducible apply State.emit_keeps hP
    | with_reducible refine ite_keeps (fun _ => ?_) (fun _ => ?_)
    | with_reducible refine fst_ite_keeps (fun _ => ?_) (fun _ => ?_)
    | with_reducible refine snd_ite_keeps (fun _ => ?_) (fun _ => ?_)
    | with_reducible refine List.foldl_keeps ?_ (fun s x h => ?_)
    | with_reducible refine List.foldl_fst_keeps ?_ (fun s x h => ?_)
    | with_reducible refine List.foldl_snd_keeps ?_ (fun s x h => ?_)
    | intro s x h
    | simp only [Stable.mk_iff hP]
    | split
    | dsimp only

theorem State.mergeTrackers_keeps (hP : Lasting P) {s : State} (h : P s) : P (State.mergeTrackers s) := by
  unfold State.mergeTrackers
  repeat' first
    | with_reducible assumption
    | with_reducible apply State.emit_keeps hP.stable
    | with_reducible refine ite_keeps (fun _ => ?_) (fun _ => ?_)
    | with_reducible refine fst_ite_keeps (fun _ => ?_) (fun _ => ?_)
    | with_reducible refine snd_ite_keeps (fun _ => ?_) (fun _ => ?_)
    | with_reducible refine List.foldl_keeps ?_ (fun s x h => ?_)
    | with_reducible refine List.foldl_fst_keeps ?_ (fun s x h => ?_)
    | with_reducible refine List.foldl_snd_keeps ?_ (fun s x h => ?_)
    | intro s x h
    | simp only [Stable.mk_iff hP.stable]
    | split
    | dsimp only

theorem State.adoptScales_keeps (hP : Lasting P) {s : State} (h : P s) : P (State.adoptScales s) := by
  unfold State.adoptScales
  repeat' first
    | with_reducible assumption
    | with_reducible apply State.setGraph_keeps hP.stable
    | with_reducible refine ite_keeps (fun _ => ?_) (fun _ => ?_)
    | with_reducible refine fst_ite_keeps (fun _ => ?_) (fun _ => ?_)
    | with_reducible refine snd_ite_keeps (fun _ => ?_) (fun _ => ?_)
    | with_reducible refine List.foldl_keeps ?_ (fun s x h => ?_)
    | with_reducible refine List.foldl_fst_keeps ?_ (fun s x h => ?_)
    | with_reducible refine List.foldl_snd_keeps ?_ (fun s x h => ?_)
    | intro s x h
    | simp only [Stable.mk_iff hP.stable]
    | split
    | dsimp only

theorem State.readmitAll_keeps (hP : Stable P) {s : State} (h : P s) : P (State.readmitAll s) := by
  unfold State.readmitAll
  repeat' first
    | with_reducible assumption
    | with_reducible apply State.each_keeps hP
    | with_reducible apply State.readmit_keeps hP
    | with_reducible refine ite_keeps (fun _ => ?_) (fun _ => ?_)
    | with_reducible refine fst_ite_keeps (fun _ => ?_) (fun _ => ?_)
    | with_reducible refine snd_ite_keeps (fun _ => ?_) (fun _ => ?_)
    | with_reducible refine List.foldl_keeps ?_ (fun s x h => ?_)
    | with_reducible refine List.foldl_fst_keeps ?_ (fun s x h => ?_)
    | with_reducible refine List.foldl_snd_keeps ?_ (fun s x h => ?_)
    | intro s x h
    | simp only [Stable.mk_iff hP]
    | split
    | dsimp only

theorem State.step0_keeps (hP : Lasting P) {s : State} {b : BoundaryIn} (h : P s) : P (State.step0 s b) := by
  unfold State.step0
  repeat' first
    | with_reducible assumption
    | with_reducible apply State.emitPerTick_keeps hP.stable
    | with_reducible apply State.snapshots_keeps hP.stable
    | with_reducible apply State.readHeads_keeps hP.stable
    | with_reducible apply State.chargeCycles_keeps hP.stable
    | with_reducible apply State.nextReplay_keeps hP
    | with_reducible apply State.resumeHalted_keeps hP.stable
    | with_reducible apply State.readmitAll_keeps hP.stable
    | with_reducible apply State.takeReqs_keeps hP.stable
    | with_reducible apply State.sampleReqs_keeps hP.stable
    | with_reducible apply State.each_keeps hP.stable
    | with_reducible apply State.admission_keeps hP.stable
    | with_reducible apply State.breakWait_keeps hP.stable
    | with_reducible apply State.mergeTrackers_keeps hP
    | with_reducible refine ite_keeps (fun _ => ?_) (fun _ => ?_)
    | with_reducible refine fst_ite_keeps (fun _ => ?_) (fun _ => ?_)
    | with_reducible refine snd_ite_keeps (fun _ => ?_) (fun _ => ?_)
    | with_reducible refine List.foldl_keeps ?_ (fun s x h => ?_)
    | with_reducible refine List.foldl_fst_keeps ?_ (fun s x h => ?_)
    | with_reducible refine List.foldl_snd_keeps ?_ (fun s x h => ?_)
    | intro s x h
    | simp only [Stable.mk_iff hP.stable]
    | split
    | dsimp only

end Sys2Proof.Machine
end

