-- ==== Sys2Proof/Laws/KeepSettle.lean ====
section
/-! SUPPORT. What the definitions of Machine/Settle.lean keep. -/

set_option linter.unusedTactic false
set_option linter.unreachableTactic false

namespace Sys2Proof.Machine

variable {P : State → Prop}

theorem State.restartPerf_keeps (hP : Stable P) {s : State} {core : Word} {stk : Word} (h : P s) : P (State.restartPerf s core stk) := by
  unfold State.restartPerf
  repeat' first
    | with_reducible assumption
    | with_reducible refine ite_keeps (fun _ => ?_) (fun _ => ?_)
    | with_reducible refine fst_ite_keeps (fun _ => ?_) (fun _ => ?_)
    | with_reducible refine snd_ite_keeps (fun _ => ?_) (fun _ => ?_)
    | with_reducible refine List.foldl_keeps ?_ (fun s x h => ?_)
    | with_reducible refine List.foldl_fst_keeps ?_ (fun s x h => ?_)
    | with_reducible refine List.foldl_snd_keeps ?_ (fun s x h => ?_)
    | intro s x h
    | simp only [Stable.mk_iff hP]
    | split
    | dsimp only

theorem State.markRetire_keeps (hP : Stable P) {s : State} (h : P s) : P (State.markRetire s) := by
  unfold State.markRetire
  repeat' first
    | with_reducible assumption
    | with_reducible refine ite_keeps (fun _ => ?_) (fun _ => ?_)
    | with_reducible refine fst_ite_keeps (fun _ => ?_) (fun _ => ?_)
    | with_reducible refine snd_ite_keeps (fun _ => ?_) (fun _ => ?_)
    | with_reducible refine List.foldl_keeps ?_ (fun s x h => ?_)
    | with_reducible refine List.foldl_fst_keeps ?_ (fun s x h => ?_)
    | with_reducible refine List.foldl_snd_keeps ?_ (fun s x h => ?_)
    | intro s x h
    | simp only [Stable.mk_iff hP]
    | split
    | dsimp only

theorem State.createQueue_keeps (hP : Stable P) {s : State} {q : ℕ} (h : P s) : P (State.createQueue s q) := by
  unfold State.createQueue
  repeat' first
    | with_reducible assumption
    | with_reducible apply State.setQueue_keeps hP
    | with_reducible refine ite_keeps (fun _ => ?_) (fun _ => ?_)
    | with_reducible refine fst_ite_keeps (fun _ => ?_) (fun _ => ?_)
    | with_reducible refine snd_ite_keeps (fun _ => ?_) (fun _ => ?_)
    | with_reducible refine List.foldl_keeps ?_ (fun s x h => ?_)
    | with_reducible refine List.foldl_fst_keeps ?_ (fun s x h => ?_)
    | with_reducible refine List.foldl_snd_keeps ?_ (fun s x h => ?_)
    | intro s x h
    | simp only [Stable.mk_iff hP]
    | split
    | dsimp only

theorem State.failQueue_keeps (hP : Stable P) {s : State} {q : ℕ} (h : P s) : P (State.failQueue s q) := by
  unfold State.failQueue
  repeat' first
    | with_reducible assumption
    | with_reducible apply State.setFld_keeps hP
    | with_reducible apply State.flag_keeps hP
    | with_reducible refine ite_keeps (fun _ => ?_) (fun _ => ?_)
    | with_reducible refine fst_ite_keeps (fun _ => ?_) (fun _ => ?_)
    | with_reducible refine snd_ite_keeps (fun _ => ?_) (fun _ => ?_)
    | with_reducible refine List.foldl_keeps ?_ (fun s x h => ?_)
    | with_reducible refine List.foldl_fst_keeps ?_ (fun s x h => ?_)
    | with_reducible refine List.foldl_snd_keeps ?_ (fun s x h => ?_)
    | intro s x h
    | simp only [Stable.mk_iff hP]
    | split
    | dsimp only

theorem State.stepQueue_keeps (hP : Stable P) {s : State} {q : ℕ} (h : P s) : P (State.stepQueue s q) := by
  unfold State.stepQueue
  repeat' first
    | with_reducible assumption
    | with_reducible apply State.setQueue_keeps hP
    | with_reducible apply State.createQueue_keeps hP
    | with_reducible apply State.failQueue_keeps hP
    | with_reducible refine ite_keeps (fun _ => ?_) (fun _ => ?_)
    | with_reducible refine fst_ite_keeps (fun _ => ?_) (fun _ => ?_)
    | with_reducible refine snd_ite_keeps (fun _ => ?_) (fun _ => ?_)
    | with_reducible refine List.foldl_keeps ?_ (fun s x h => ?_)
    | with_reducible refine List.foldl_fst_keeps ?_ (fun s x h => ?_)
    | with_reducible refine List.foldl_snd_keeps ?_ (fun s x h => ?_)
    | intro s x h
    | simp only [Stable.mk_iff hP]
    | split
    | dsimp only

theorem State.stepQueues_keeps (hP : Stable P) {s : State} (h : P s) : P (State.stepQueues s) := by
  unfold State.stepQueues
  repeat' first
    | with_reducible assumption
    | with_reducible apply State.each_keeps hP
    | with_reducible apply State.stepQueue_keeps hP
    | with_reducible refine ite_keeps (fun _ => ?_) (fun _ => ?_)
    | with_reducible refine fst_ite_keeps (fun _ => ?_) (fun _ => ?_)
    | with_reducible refine snd_ite_keeps (fun _ => ?_) (fun _ => ?_)
    | with_reducible refine List.foldl_keeps ?_ (fun s x h => ?_)
    | with_reducible refine List.foldl_fst_keeps ?_ (fun s x h => ?_)
    | with_reducible refine List.foldl_snd_keeps ?_ (fun s x h => ?_)
    | intro s x h
    | simp only [Stable.mk_iff hP]
    | split
    | dsimp only

theorem State.killQueue_keeps (hP : Stable P) {s : State} {q : ℕ} (h : P s) : P (State.killQueue s q) := by
  unfold State.killQueue
  repeat' first
    | with_reducible assumption
    | with_reducible apply State.setFld_keeps hP
    | with_reducible apply State.setQueue_keeps hP
    | with_reducible apply State.complete_keeps hP
    | with_reducible refine ite_keeps (fun _ => ?_) (fun _ => ?_)
    | with_reducible refine fst_ite_keeps (fun _ => ?_) (fun _ => ?_)
    | with_reducible refine snd_ite_keeps (fun _ => ?_) (fun _ => ?_)
    | with_reducible refine List.foldl_keeps ?_ (fun s x h => ?_)
    | with_reducible refine List.foldl_fst_keeps ?_ (fun s x h => ?_)
    | with_reducible refine List.foldl_snd_keeps ?_ (fun s x h => ?_)
    | intro s x h
    | simp only [Stable.mk_iff hP]
    | split
    | dsimp only

theorem State.failCreate_keeps (hP : Stable P) {s : State} {p : ℕ} {cause : ℕ} (h : P s) : P (State.failCreate s p cause) := by
  unfold State.failCreate
  repeat' first
    | with_reducible assumption
    | with_reducible apply State.setQueue_keeps hP
    | with_reducible apply State.setFld_keeps hP
    | with_reducible apply State.flag_keeps hP
    | with_reducible apply State.setPartState_keeps hP
    | with_reducible refine ite_keeps (fun _ => ?_) (fun _ => ?_)
    | with_reducible refine fst_ite_keeps (fun _ => ?_) (fun _ => ?_)
    | with_reducible refine snd_ite_keeps (fun _ => ?_) (fun _ => ?_)
    | with_reducible refine List.foldl_keeps ?_ (fun s x h => ?_)
    | with_reducible refine List.foldl_fst_keeps ?_ (fun s x h => ?_)
    | with_reducible refine List.foldl_snd_keeps ?_ (fun s x h => ?_)
    | intro s x h
    | simp only [Stable.mk_iff hP]
    | split
    | dsimp only

theorem State.create1_keeps (hP : Stable P) {s : State} {p : ℕ} {kemFails : Bool} (h : P s) : P (State.create1 s p kemFails) := by
  unfold State.create1
  repeat' first
    | with_reducible assumption
    | with_reducible apply State.setPart_keeps hP
    | with_reducible apply State.setFld_keeps hP
    | with_reducible apply State.cryptoError_keeps hP
    | with_reducible apply State.failCreate_keeps hP
    | with_reducible refine ite_keeps (fun _ => ?_) (fun _ => ?_)
    | with_reducible refine fst_ite_keeps (fun _ => ?_) (fun _ => ?_)
    | with_reducible refine snd_ite_keeps (fun _ => ?_) (fun _ => ?_)
    | with_reducible refine List.foldl_keeps ?_ (fun s x h => ?_)
    | with_reducible refine List.foldl_fst_keeps ?_ (fun s x h => ?_)
    | with_reducible refine List.foldl_snd_keeps ?_ (fun s x h => ?_)
    | intro s x h
    | simp only [Stable.mk_iff hP]
    | split
    | dsimp only

theorem State.faultStreams_keeps (hP : Stable P) {s : State} {p : ℕ} (h : P s) : P (State.faultStreams s p) := by
  unfold State.faultStreams
  repeat' first
    | with_reducible assumption
    | with_reducible refine ite_keeps (fun _ => ?_) (fun _ => ?_)
    | with_reducible refine fst_ite_keeps (fun _ => ?_) (fun _ => ?_)
    | with_reducible refine snd_ite_keeps (fun _ => ?_) (fun _ => ?_)
    | with_reducible refine List.foldl_keeps ?_ (fun s x h => ?_)
    | with_reducible refine List.foldl_fst_keeps ?_ (fun s x h => ?_)
    | with_reducible refine List.foldl_snd_keeps ?_ (fun s x h => ?_)
    | intro s x h
    | simp only [Stable.mk_iff hP]
    | split
    | dsimp only

theorem State.tearDescs_keeps (hP : Stable P) {s : State} {p : ℕ} (h : P s) : P (State.tearDescs s p) := by
  unfold State.tearDescs
  repeat' first
    | with_reducible assumption
    | with_reducible apply State.dropBgs_keeps hP
    | with_reducible apply State.complete_keeps hP
    | with_reducible refine ite_keeps (fun _ => ?_) (fun _ => ?_)
    | with_reducible refine fst_ite_keeps (fun _ => ?_) (fun _ => ?_)
    | with_reducible refine snd_ite_keeps (fun _ => ?_) (fun _ => ?_)
    | with_reducible refine List.foldl_keeps ?_ (fun s x h => ?_)
    | with_reducible refine List.foldl_fst_keeps ?_ (fun s x h => ?_)
    | with_reducible refine List.foldl_snd_keeps ?_ (fun s x h => ?_)
    | intro s x h
    | simp only [Stable.mk_iff hP]
    | split
    | dsimp only

theorem State.destroy1_keeps (hP : Stable P) {s : State} {p : ℕ} (h : P s) : P (State.destroy1 s p) := by
  unfold State.destroy1
  repeat' first
    | with_reducible assumption
    | with_reducible apply State.tearAll_keeps hP
    | with_reducible apply State.setPartState_keeps hP
    | with_reducible apply State.landingsDone_keeps hP
    | with_reducible apply State.faultStreams_keeps hP
    | with_reducible apply State.killQueue_keeps hP
    | with_reducible apply State.tearDescs_keeps hP
    | with_reducible apply State.releaseKv_keeps hP
    | with_reducible apply State.releaseFrames_keeps hP
    | with_reducible apply State.unresident_keeps hP
    | with_reducible apply State.clearGallery_keeps hP
    | with_reducible apply State.setPart_keeps hP
    | with_reducible refine ite_keeps (fun _ => ?_) (fun _ => ?_)
    | with_reducible refine fst_ite_keeps (fun _ => ?_) (fun _ => ?_)
    | with_reducible refine snd_ite_keeps (fun _ => ?_) (fun _ => ?_)
    | with_reducible refine List.foldl_keeps ?_ (fun s x h => ?_)
    | with_reducible refine List.foldl_fst_keeps ?_ (fun s x h => ?_)
    | with_reducible refine List.foldl_snd_keeps ?_ (fun s x h => ?_)
    | intro s x h
    | simp only [Stable.mk_iff hP]
    | split
    | dsimp only

theorem State.destroy5_keeps (hP : Stable P) {s : State} {p : ℕ} (h : P s) : P (State.destroy5 s p) := by
  unfold State.destroy5
  repeat' first
    | with_reducible assumption
    | with_reducible apply State.setPart_keeps hP
    | with_reducible apply State.setFld_keeps hP
    | with_reducible apply State.setPartState_keeps hP
    | with_reducible refine ite_keeps (fun _ => ?_) (fun _ => ?_)
    | with_reducible refine fst_ite_keeps (fun _ => ?_) (fun _ => ?_)
    | with_reducible refine snd_ite_keeps (fun _ => ?_) (fun _ => ?_)
    | with_reducible refine List.foldl_keeps ?_ (fun s x h => ?_)
    | with_reducible refine List.foldl_fst_keeps ?_ (fun s x h => ?_)
    | with_reducible refine List.foldl_snd_keeps ?_ (fun s x h => ?_)
    | intro s x h
    | simp only [Stable.mk_iff hP]
    | split
    | dsimp only

theorem State.unlock1_keeps (hP : Stable P) {s : State} (h : P s) : P (State.unlock1 s) := by
  unfold State.unlock1
  repeat' first
    | with_reducible assumption
    | with_reducible apply State.extendSlot_keeps hP
    | with_reducible apply State.scanFalls_keeps hP
    | with_reducible refine ite_keeps (fun _ => ?_) (fun _ => ?_)
    | with_reducible refine fst_ite_keeps (fun _ => ?_) (fun _ => ?_)
    | with_reducible refine snd_ite_keeps (fun _ => ?_) (fun _ => ?_)
    | with_reducible refine List.foldl_keeps ?_ (fun s x h => ?_)
    | with_reducible refine List.foldl_fst_keeps ?_ (fun s x h => ?_)
    | with_reducible refine List.foldl_snd_keeps ?_ (fun s x h => ?_)
    | intro s x h
    | simp only [Stable.mk_iff hP]
    | split
    | dsimp only

theorem State.step1_keeps (hP : Lasting P) {s : State} {b : BoundaryIn} (h : P s) : P (State.step1 s b) := by
  unfold State.step1
  repeat' first
    | with_reducible assumption
    | with_reducible apply State.restartPerf_keeps hP.stable
    | with_reducible apply State.routeReturns_keeps hP.stable
    | with_reducible apply State.settle_keeps hP.stable
    | with_reducible apply State.boundaryAlarms_keeps hP.stable
    | with_reducible apply State.putMeas_keeps hP.stable
    | with_reducible apply State.opStep_keeps hP.stable
    | with_reducible apply State.retirements_keeps hP.stable
    | with_reducible apply State.markRetire_keeps hP.stable
    | with_reducible apply State.adoptScales_keeps hP
    | with_reducible apply State.each_keeps hP.stable
    | with_reducible apply State.destroy1_keeps hP.stable
    | with_reducible apply State.create1_keeps hP.stable
    | with_reducible apply State.stepQueues_keeps hP.stable
    | with_reducible apply State.unlock1_keeps hP.stable
    | with_reducible refine ite_keeps (fun _ => ?_) (fun _ => ?_)
    | with_reducible refine fst_ite_keeps (fun _ => ?_) (fun _ => ?_)
    | with_reducible refine snd_ite_keeps (fun _ => ?_) (fun _ => ?_)
    | with_reducible refine List.foldl_keeps ?_ (fun s x h => ?_)
    | with_reducible refine List.foldl_fst_keeps ?_ (fun s x h => ?_)
    | with_reducible refine List.foldl_snd_keeps ?_ (fun s x h => ?_)
    | intro s x h
    | simp only [Stable.mk_iff hP.stable]
    | split
    | dsimp only

end Sys2Proof.Machine
end

