-- ==== Sys2Proof/Laws/KeepCommit.lean ====
section
/-! SUPPORT. What the definitions of Machine/Commit.lean keep. -/

set_option linter.unusedTactic false
set_option linter.unreachableTactic false

namespace Sys2Proof.Machine

variable {P : State → Prop}

theorem State.place3_keeps (hP : Lasting P) {s : State} {c : PlaceCommit} (h : P s) : P (State.place3 s c) := by
  unfold State.place3
  repeat' first
    | with_reducible assumption
    | with_reducible apply State.setGraph_keeps hP.stable
    | refine OptP.get ‹State.commitPlace _ _ _ = some _› (State.commitPlace_keeps hP ?_)
    | with_reducible refine OptP.getD (State.commitPlace_keeps hP ?_) ?_
    | with_reducible refine ite_keeps (fun _ => ?_) (fun _ => ?_)
    | with_reducible refine fst_ite_keeps (fun _ => ?_) (fun _ => ?_)
    | with_reducible refine snd_ite_keeps (fun _ => ?_) (fun _ => ?_)
    | with_reducible refine List.foldl_keeps ?_ (fun s x h => ?_)
    | with_reducible refine List.foldl_fst_keeps ?_ (fun s x h => ?_)
    | with_reducible refine List.foldl_snd_keeps ?_ (fun s x h => ?_)
    | intro s x h
    | simp only [Stable.mk_iff hP.stable]
    | split
    | dsimp only

theorem State.moveGraph_keeps (hP : Lasting P) {s : State} {p : ℕ} {a2 : ℕ} (h : P s) : P (State.moveGraph s p a2) := by
  unfold State.moveGraph
  repeat' first
    | with_reducible assumption
    | refine OptP.get ‹State.commitPlace _ _ _ = some _› (State.commitPlace_keeps hP ?_)
    | with_reducible refine OptP.getD (State.commitPlace_keeps hP ?_) ?_
    | with_reducible apply State.setGraph_keeps hP.stable
    | with_reducible apply State.releaseHeld_keeps hP.stable
    | with_reducible refine ite_keeps (fun _ => ?_) (fun _ => ?_)
    | with_reducible refine fst_ite_keeps (fun _ => ?_) (fun _ => ?_)
    | with_reducible refine snd_ite_keeps (fun _ => ?_) (fun _ => ?_)
    | with_reducible refine List.foldl_keeps ?_ (fun s x h => ?_)
    | with_reducible refine List.foldl_fst_keeps ?_ (fun s x h => ?_)
    | with_reducible refine List.foldl_snd_keeps ?_ (fun s x h => ?_)
    | intro s x h
    | simp only [Stable.mk_iff hP.stable]
    | split
    | dsimp only

theorem State.placeAgain_keeps (hP : Lasting P) {s : State} {p : ℕ} {a2 : ℕ} (h : P s) : P (State.placeAgain s p a2) := by
  unfold State.placeAgain
  repeat' first
    | with_reducible assumption
    | refine OptP.get ‹State.commitPlace _ _ _ = some _› (State.commitPlace_keeps hP ?_)
    | with_reducible refine OptP.getD (State.commitPlace_keeps hP ?_) ?_
    | with_reducible refine ite_keeps (fun _ => ?_) (fun _ => ?_)
    | with_reducible refine fst_ite_keeps (fun _ => ?_) (fun _ => ?_)
    | with_reducible refine snd_ite_keeps (fun _ => ?_) (fun _ => ?_)
    | with_reducible refine List.foldl_keeps ?_ (fun s x h => ?_)
    | with_reducible refine List.foldl_fst_keeps ?_ (fun s x h => ?_)
    | with_reducible refine List.foldl_snd_keeps ?_ (fun s x h => ?_)
    | intro s x h
    | simp only [Stable.mk_iff hP.stable]
    | split
    | dsimp only

theorem State.placeAgains_keeps (hP : Lasting P) {s : State} {p : ℕ} (h : P s) : P (State.placeAgains s p) := by
  unfold State.placeAgains
  repeat' first
    | with_reducible assumption
    | with_reducible apply State.placeAgain_keeps hP
    | with_reducible refine ite_keeps (fun _ => ?_) (fun _ => ?_)
    | with_reducible refine fst_ite_keeps (fun _ => ?_) (fun _ => ?_)
    | with_reducible refine snd_ite_keeps (fun _ => ?_) (fun _ => ?_)
    | with_reducible refine List.foldl_keeps ?_ (fun s x h => ?_)
    | with_reducible refine List.foldl_fst_keeps ?_ (fun s x h => ?_)
    | with_reducible refine List.foldl_snd_keeps ?_ (fun s x h => ?_)
    | intro s x h
    | simp only [Stable.mk_iff hP.stable]
    | split
    | dsimp only

theorem State.moveGraphs_keeps (hP : Lasting P) {s : State} {p : ℕ} (h : P s) : P (State.moveGraphs s p) := by
  unfold State.moveGraphs
  repeat' first
    | with_reducible assumption
    | with_reducible apply State.moveGraph_keeps hP
    | with_reducible refine ite_keeps (fun _ => ?_) (fun _ => ?_)
    | with_reducible refine fst_ite_keeps (fun _ => ?_) (fun _ => ?_)
    | with_reducible refine snd_ite_keeps (fun _ => ?_) (fun _ => ?_)
    | with_reducible refine List.foldl_keeps ?_ (fun s x h => ?_)
    | with_reducible refine List.foldl_fst_keeps ?_ (fun s x h => ?_)
    | with_reducible refine List.foldl_snd_keeps ?_ (fun s x h => ?_)
    | intro s x h
    | simp only [Stable.mk_iff hP.stable]
    | split
    | dsimp only

theorem State.evict_keeps (hP : Lasting P) {s : State} {p h : ℕ} (hs : P s) : P (State.evict s p h) := by
  unfold State.evict
  split
  · split
    · exact hs
    · rename_i he
      exact State.setGraph_keeps hP.stable (OptP.get he (State.issuePlace_keeps hP hs))
  · exact hs

theorem State.evictNeed_keeps (hP : Lasting P) {s : State} {b : BoundaryIn} {p : ℕ} {a3 : ℕ} (h : P s) : P (State.evictNeed s b p a3) := by
  induction a3 generalizing s b p with
  | zero =>
    unfold State.evictNeed
    repeat' first
      | with_reducible assumption
      | with_reducible apply State.evict_keeps hP
      | with_reducible refine ite_keeps (fun _ => ?_) (fun _ => ?_)
      | with_reducible refine fst_ite_keeps (fun _ => ?_) (fun _ => ?_)
      | with_reducible refine snd_ite_keeps (fun _ => ?_) (fun _ => ?_)
      | with_reducible refine List.foldl_keeps ?_ (fun s x h => ?_)
      | with_reducible refine List.foldl_fst_keeps ?_ (fun s x h => ?_)
      | with_reducible refine List.foldl_snd_keeps ?_ (fun s x h => ?_)
      | intro s x h
      | simp only [Stable.mk_iff hP.stable]
      | split
      | dsimp only
  | succ a ih =>
    unfold State.evictNeed
    repeat' first
      | with_reducible assumption
      | with_reducible apply ih
      | with_reducible apply State.evict_keeps hP
      | with_reducible refine ite_keeps (fun _ => ?_) (fun _ => ?_)
      | with_reducible refine fst_ite_keeps (fun _ => ?_) (fun _ => ?_)
      | with_reducible refine snd_ite_keeps (fun _ => ?_) (fun _ => ?_)
      | with_reducible refine List.foldl_keeps ?_ (fun s x h => ?_)
      | with_reducible refine List.foldl_fst_keeps ?_ (fun s x h => ?_)
      | with_reducible refine List.foldl_snd_keeps ?_ (fun s x h => ?_)
      | intro s x h
      | simp only [Stable.mk_iff hP.stable]
      | split
      | dsimp only

theorem State.evictAsked_keeps (hP : Lasting P) {s : State} {b : BoundaryIn} {p : ℕ} {a3 : ℕ} (h : P s) : P (State.evictAsked s b p a3) := by
  unfold State.evictAsked
  repeat' first
    | with_reducible assumption
    | with_reducible apply State.evict_keeps hP
    | with_reducible refine ite_keeps (fun _ => ?_) (fun _ => ?_)
    | with_reducible refine fst_ite_keeps (fun _ => ?_) (fun _ => ?_)
    | with_reducible refine snd_ite_keeps (fun _ => ?_) (fun _ => ?_)
    | with_reducible refine List.foldl_keeps ?_ (fun s x h => ?_)
    | with_reducible refine List.foldl_fst_keeps ?_ (fun s x h => ?_)
    | with_reducible refine List.foldl_snd_keeps ?_ (fun s x h => ?_)
    | intro s x h
    | simp only [Stable.mk_iff hP.stable]
    | split
    | dsimp only

theorem State.dropEvicted_keeps (hP : Stable P) {s : State} {p : ℕ} (h : P s) : P (State.dropEvicted s p) := by
  unfold State.dropEvicted
  repeat' first
    | with_reducible assumption
    | with_reducible apply State.releaseFrames_keeps hP
    | with_reducible apply State.setGraph_keeps hP
    | with_reducible refine ite_keeps (fun _ => ?_) (fun _ => ?_)
    | with_reducible refine fst_ite_keeps (fun _ => ?_) (fun _ => ?_)
    | with_reducible refine snd_ite_keeps (fun _ => ?_) (fun _ => ?_)
    | with_reducible refine List.foldl_keeps ?_ (fun s x h => ?_)
    | with_reducible refine List.foldl_fst_keeps ?_ (fun s x h => ?_)
    | with_reducible refine List.foldl_snd_keeps ?_ (fun s x h => ?_)
    | intro s x h
    | simp only [Stable.mk_iff hP]
    | split
    | dsimp only

theorem State.window3_keeps (hP : Stable P) {s : State} {a1 : WindowChange} (h : P s) : P (State.window3 s a1) := by
  unfold State.window3
  repeat' first
    | with_reducible assumption
    | with_reducible refine ite_keeps (fun _ => ?_) (fun _ => ?_)
    | with_reducible refine fst_ite_keeps (fun _ => ?_) (fun _ => ?_)
    | with_reducible refine snd_ite_keeps (fun _ => ?_) (fun _ => ?_)
    | with_reducible refine List.foldl_keeps ?_ (fun s x h => ?_)
    | with_reducible refine List.foldl_fst_keeps ?_ (fun s x h => ?_)
    | with_reducible refine List.foldl_snd_keeps ?_ (fun s x h => ?_)
    | intro s x h
    | simp only [Stable.mk_iff hP]
    | split
    | dsimp only

theorem State.ranNow_keeps (hP : Stable P) {s : State} (h : P s) : P (State.ranNow s) := by
  unfold State.ranNow
  repeat' first
    | with_reducible assumption
    | with_reducible apply State.setGraph_keeps hP
    | with_reducible refine ite_keeps (fun _ => ?_) (fun _ => ?_)
    | with_reducible refine fst_ite_keeps (fun _ => ?_) (fun _ => ?_)
    | with_reducible refine snd_ite_keeps (fun _ => ?_) (fun _ => ?_)
    | with_reducible refine List.foldl_keeps ?_ (fun s x h => ?_)
    | with_reducible refine List.foldl_fst_keeps ?_ (fun s x h => ?_)
    | with_reducible refine List.foldl_snd_keeps ?_ (fun s x h => ?_)
    | intro s x h
    | simp only [Stable.mk_iff hP]
    | split
    | dsimp only

theorem State.hotFields_keeps (hP : Stable P) {s : State} {p : ℕ} (h : P s) : P (State.hotFields s p) := by
  unfold State.hotFields
  repeat' first
    | with_reducible assumption
    | with_reducible apply State.setFld_keeps hP
    | with_reducible refine ite_keeps (fun _ => ?_) (fun _ => ?_)
    | with_reducible refine fst_ite_keeps (fun _ => ?_) (fun _ => ?_)
    | with_reducible refine snd_ite_keeps (fun _ => ?_) (fun _ => ?_)
    | with_reducible refine List.foldl_keeps ?_ (fun s x h => ?_)
    | with_reducible refine List.foldl_fst_keeps ?_ (fun s x h => ?_)
    | with_reducible refine List.foldl_snd_keeps ?_ (fun s x h => ?_)
    | intro s x h
    | simp only [Stable.mk_iff hP]
    | split
    | dsimp only

theorem State.step3_keeps (hP : Lasting P) {s : State} {b : BoundaryIn} (h : P s) : P (State.step3 s b) := by
  unfold State.step3
  repeat' first
    | with_reducible assumption
    | with_reducible apply State.ranNow_keeps hP.stable
    | with_reducible apply State.placeBg_keeps hP
    | with_reducible apply State.each_keeps hP.stable
    | with_reducible apply State.placeAgains_keeps hP
    | with_reducible apply State.commitReload_keeps hP
    | with_reducible apply State.evictAsked_keeps hP
    | with_reducible apply State.evictNeed_keeps hP
    | with_reducible apply State.moveGraphs_keeps hP
    | with_reducible apply State.place3_keeps hP
    | with_reducible apply State.window3_keeps hP.stable
    | with_reducible apply State.moves_keeps hP
    | with_reducible apply State.hotFields_keeps hP.stable
    | with_reducible refine ite_keeps (fun _ => ?_) (fun _ => ?_)
    | with_reducible refine fst_ite_keeps (fun _ => ?_) (fun _ => ?_)
    | with_reducible refine snd_ite_keeps (fun _ => ?_) (fun _ => ?_)
    | with_reducible refine List.foldl_keeps ?_ (fun s x h => ?_)
    | with_reducible refine List.foldl_fst_keeps ?_ (fun s x h => ?_)
    | with_reducible refine List.foldl_snd_keeps ?_ (fun s x h => ?_)
    | intro s x h
    | simp only [Stable.mk_iff hP.stable]
    | split
    | dsimp only

theorem State.putBuf_keeps (hP : Lasting P) {s : State} {p : ℕ} {o : HObj} {off : ℕ} {src : HObj} {soff : ℕ} {data : List Byte} (h : P s) :
    P (State.putBuf s p o off src soff data) := by
  unfold State.putBuf
  repeat' first
    | with_reducible assumption
    | with_reducible apply State.hostPart_keeps hP
    | with_reducible apply State.chargePart_keeps hP.stable
    | with_reducible apply State.putStack_keeps hP
    | with_reducible refine ite_keeps (fun _ => ?_) (fun _ => ?_)
    | with_reducible refine fst_ite_keeps (fun _ => ?_) (fun _ => ?_)
    | with_reducible refine snd_ite_keeps (fun _ => ?_) (fun _ => ?_)
    | with_reducible refine List.foldl_keeps ?_ (fun s x h => ?_)
    | with_reducible refine List.foldl_fst_keeps ?_ (fun s x h => ?_)
    | with_reducible refine List.foldl_snd_keeps ?_ (fun s x h => ?_)
    | intro s x h
    | simp only [Stable.mk_iff hP.stable]
    | split
    | dsimp only

theorem State.commitBg_keeps (hP : Lasting P) {s : State} {b : BgOp} (h : P s) : P (State.commitBg s b) := by
  unfold State.commitBg
  repeat' first
    | with_reducible assumption
    | with_reducible apply State.putBuf_keeps hP
    | with_reducible apply State.endBg_keeps hP.stable
    | with_reducible apply State.complete_keeps hP.stable
    | with_reducible apply State.writeScratch_keeps hP.stable
    | with_reducible apply State.releaseHeld_keeps hP.stable
    | with_reducible apply State.weightsBg_keeps hP
    | with_reducible refine ite_keeps (fun _ => ?_) (fun _ => ?_)
    | with_reducible refine fst_ite_keeps (fun _ => ?_) (fun _ => ?_)
    | with_reducible refine snd_ite_keeps (fun _ => ?_) (fun _ => ?_)
    | with_reducible refine List.foldl_keeps ?_ (fun s x h => ?_)
    | with_reducible refine List.foldl_fst_keeps ?_ (fun s x h => ?_)
    | with_reducible refine List.foldl_snd_keeps ?_ (fun s x h => ?_)
    | intro s x h
    | simp only [Stable.mk_iff hP.stable]
    | split
    | dsimp only

theorem State.dropFlight_keeps (hP : Stable P) {s : State} {f : FlightSt} (h : P s) : P (State.dropFlight s f) := by
  unfold State.dropFlight
  repeat' first
    | with_reducible assumption
    | with_reducible apply State.setPart_keeps hP
    | with_reducible apply State.setGraph_keeps hP
    | with_reducible refine ite_keeps (fun _ => ?_) (fun _ => ?_)
    | with_reducible refine fst_ite_keeps (fun _ => ?_) (fun _ => ?_)
    | with_reducible refine snd_ite_keeps (fun _ => ?_) (fun _ => ?_)
    | with_reducible refine List.foldl_keeps ?_ (fun s x h => ?_)
    | with_reducible refine List.foldl_fst_keeps ?_ (fun s x h => ?_)
    | with_reducible refine List.foldl_snd_keeps ?_ (fun s x h => ?_)
    | intro s x h
    | simp only [Stable.mk_iff hP]
    | split
    | dsimp only

theorem State.retireFlight_keeps (hP : Stable P) {s : State} {n : ℕ} {f : FlightSt} {status : ℕ} (h : P s) :
    P (State.retireFlight s n f status) := by
  unfold State.retireFlight
  repeat' first
    | with_reducible assumption
    | with_reducible apply State.pushCompl_keeps hP
    | with_reducible apply State.dropFlight_keeps hP
    | with_reducible apply State.onCores_keeps hP
    | with_reducible apply State.setFlight_keeps hP
    | with_reducible refine ite_keeps (fun _ => ?_) (fun _ => ?_)
    | with_reducible refine fst_ite_keeps (fun _ => ?_) (fun _ => ?_)
    | with_reducible refine snd_ite_keeps (fun _ => ?_) (fun _ => ?_)
    | with_reducible refine List.foldl_keeps ?_ (fun s x h => ?_)
    | with_reducible refine List.foldl_fst_keeps ?_ (fun s x h => ?_)
    | with_reducible refine List.foldl_snd_keeps ?_ (fun s x h => ?_)
    | intro s x h
    | simp only [Stable.mk_iff hP]
    | split
    | dsimp only

theorem State.retireFlights_keeps (hP : Stable P) {s : State} (h : P s) : P (State.retireFlights s) := by
  unfold State.retireFlights
  repeat' first
    | with_reducible assumption
    | with_reducible apply State.retireFlight_keeps hP
    | with_reducible refine ite_keeps (fun _ => ?_) (fun _ => ?_)
    | with_reducible refine fst_ite_keeps (fun _ => ?_) (fun _ => ?_)
    | with_reducible refine snd_ite_keeps (fun _ => ?_) (fun _ => ?_)
    | with_reducible refine List.foldl_keeps ?_ (fun s x h => ?_)
    | with_reducible refine List.foldl_fst_keeps ?_ (fun s x h => ?_)
    | with_reducible refine List.foldl_snd_keeps ?_ (fun s x h => ?_)
    | intro s x h
    | simp only [Stable.mk_iff hP]
    | split
    | dsimp only

theorem State.freeGraph_keeps (hP : Stable P) {s : State} {p : ℕ} {a2 : ℕ} {g : GraphSt} (h : P s) : P (State.freeGraph s p a2 g) := by
  unfold State.freeGraph
  repeat' first
    | with_reducible assumption
    | with_reducible apply State.dropBgs_keeps hP
    | with_reducible apply State.releaseFrames_keeps hP
    | with_reducible apply State.setPart_keeps hP
    | with_reducible refine ite_keeps (fun _ => ?_) (fun _ => ?_)
    | with_reducible refine fst_ite_keeps (fun _ => ?_) (fun _ => ?_)
    | with_reducible refine snd_ite_keeps (fun _ => ?_) (fun _ => ?_)
    | with_reducible refine List.foldl_keeps ?_ (fun s x h => ?_)
    | with_reducible refine List.foldl_fst_keeps ?_ (fun s x h => ?_)
    | with_reducible refine List.foldl_snd_keeps ?_ (fun s x h => ?_)
    | intro s x h
    | simp only [Stable.mk_iff hP]
    | split
    | dsimp only

theorem State.freeObj_keeps (hP : Stable P) {s : State} {p : ℕ} {a2 : ℕ} {o : HObj} (h : P s) : P (State.freeObj s p a2 o) := by
  unfold State.freeObj
  repeat' first
    | with_reducible assumption
    | with_reducible apply State.setPart_keeps hP
    | with_reducible apply State.freeGraph_keeps hP
    | with_reducible apply State.releaseFrames_keeps hP
    | with_reducible refine ite_keeps (fun _ => ?_) (fun _ => ?_)
    | with_reducible refine fst_ite_keeps (fun _ => ?_) (fun _ => ?_)
    | with_reducible refine snd_ite_keeps (fun _ => ?_) (fun _ => ?_)
    | with_reducible refine List.foldl_keeps ?_ (fun s x h => ?_)
    | with_reducible refine List.foldl_fst_keeps ?_ (fun s x h => ?_)
    | with_reducible refine List.foldl_snd_keeps ?_ (fun s x h => ?_)
    | intro s x h
    | simp only [Stable.mk_iff hP]
    | split
    | dsimp only

theorem State.trimGraph_keeps (hP : Stable P) {s : State} {p : ℕ} {a2 : ℕ} {g : GraphSt} (h : P s) : P (State.trimGraph s p a2 g) := by
  unfold State.trimGraph
  repeat' first
    | with_reducible assumption
    | with_reducible apply State.releaseFrames_keeps hP
    | with_reducible apply State.setPart_keeps hP
    | with_reducible refine ite_keeps (fun _ => ?_) (fun _ => ?_)
    | with_reducible refine fst_ite_keeps (fun _ => ?_) (fun _ => ?_)
    | with_reducible refine snd_ite_keeps (fun _ => ?_) (fun _ => ?_)
    | with_reducible refine List.foldl_keeps ?_ (fun s x h => ?_)
    | with_reducible refine List.foldl_fst_keeps ?_ (fun s x h => ?_)
    | with_reducible refine List.foldl_snd_keeps ?_ (fun s x h => ?_)
    | intro s x h
    | simp only [Stable.mk_iff hP]
    | split
    | dsimp only

theorem State.freeObjs_keeps (hP : Stable P) {s : State} {p : ℕ} (h : P s) : P (State.freeObjs s p) := by
  unfold State.freeObjs
  repeat' first
    | with_reducible assumption
    | with_reducible apply State.freeObj_keeps hP
    | with_reducible apply State.trimGraph_keeps hP
    | with_reducible refine ite_keeps (fun _ => ?_) (fun _ => ?_)
    | with_reducible refine fst_ite_keeps (fun _ => ?_) (fun _ => ?_)
    | with_reducible refine snd_ite_keeps (fun _ => ?_) (fun _ => ?_)
    | with_reducible refine List.foldl_keeps ?_ (fun s x h => ?_)
    | with_reducible refine List.foldl_fst_keeps ?_ (fun s x h => ?_)
    | with_reducible refine List.foldl_snd_keeps ?_ (fun s x h => ?_)
    | intro s x h
    | simp only [Stable.mk_iff hP]
    | split
    | dsimp only

theorem State.paramSpace_keeps (hP : Lasting P) {s : State} {p : ℕ} (h : P s) : P (State.paramSpace s p) := by
  unfold State.paramSpace
  repeat' first
    | with_reducible assumption
    | with_reducible apply State.failCreate_keeps hP.stable
    | with_reducible apply State.setPart_keeps hP.stable
    | with_reducible apply State.takeFrames_keeps hP
    | with_reducible refine ite_keeps (fun _ => ?_) (fun _ => ?_)
    | with_reducible refine fst_ite_keeps (fun _ => ?_) (fun _ => ?_)
    | with_reducible refine snd_ite_keeps (fun _ => ?_) (fun _ => ?_)
    | with_reducible refine List.foldl_keeps ?_ (fun s x h => ?_)
    | with_reducible refine List.foldl_fst_keeps ?_ (fun s x h => ?_)
    | with_reducible refine List.foldl_snd_keeps ?_ (fun s x h => ?_)
    | intro s x h
    | simp only [Stable.mk_iff hP.stable]
    | split
    | dsimp only

theorem State.grant_keeps (hP : Lasting P) {s : State} {x : ℕ × Bool × ℕ × ℕ} (h : P s) : P (State.grant s x) := by
  unfold State.grant
  repeat' first
    | with_reducible assumption
    | with_reducible apply State.takeFrames_keeps hP
    | with_reducible refine ite_keeps (fun _ => ?_) (fun _ => ?_)
    | with_reducible refine fst_ite_keeps (fun _ => ?_) (fun _ => ?_)
    | with_reducible refine snd_ite_keeps (fun _ => ?_) (fun _ => ?_)
    | with_reducible refine List.foldl_keeps ?_ (fun s x h => ?_)
    | with_reducible refine List.foldl_fst_keeps ?_ (fun s x h => ?_)
    | with_reducible refine List.foldl_snd_keeps ?_ (fun s x h => ?_)
    | intro s x h
    | simp only [Stable.mk_iff hP.stable]
    | split
    | dsimp only

theorem State.abandonReleased_keeps (hP : Stable P) {s : State} (h : P s) : P (State.abandonReleased s) := by
  unfold State.abandonReleased
  repeat' first
    | with_reducible assumption
    | with_reducible apply State.each_keeps hP
    | with_reducible apply State.fcAbandon_keeps hP
    | with_reducible refine ite_keeps (fun _ => ?_) (fun _ => ?_)
    | with_reducible refine fst_ite_keeps (fun _ => ?_) (fun _ => ?_)
    | with_reducible refine snd_ite_keeps (fun _ => ?_) (fun _ => ?_)
    | with_reducible refine List.foldl_keeps ?_ (fun s x h => ?_)
    | with_reducible refine List.foldl_fst_keeps ?_ (fun s x h => ?_)
    | with_reducible refine List.foldl_snd_keeps ?_ (fun s x h => ?_)
    | intro s x h
    | simp only [Stable.mk_iff hP]
    | split
    | dsimp only

theorem State.snapFields_keeps (hP : Stable P) {s : State} (h : P s) : P (State.snapFields s) := by
  unfold State.snapFields
  repeat' first
    | with_reducible assumption
    | with_reducible refine ite_keeps (fun _ => ?_) (fun _ => ?_)
    | with_reducible refine fst_ite_keeps (fun _ => ?_) (fun _ => ?_)
    | with_reducible refine snd_ite_keeps (fun _ => ?_) (fun _ => ?_)
    | with_reducible refine List.foldl_keeps ?_ (fun s x h => ?_)
    | with_reducible refine List.foldl_fst_keeps ?_ (fun s x h => ?_)
    | with_reducible refine List.foldl_snd_keeps ?_ (fun s x h => ?_)
    | intro s x h
    | simp only [Stable.mk_iff hP]
    | split
    | dsimp only

theorem State.step4_keeps (hP : Lasting P) {s : State} {b : BoundaryIn} {offs : List Word} (h : P s) : P (State.step4 s b offs) := by
  unfold State.step4
  repeat' first
    | with_reducible assumption
    | with_reducible apply State.fates_keeps hP
    | with_reducible apply State.each_keeps hP.stable
    | with_reducible apply State.fcCommits_keeps hP
    | with_reducible apply State.movesWait_keeps hP.stable
    | with_reducible apply State.moves_keeps hP
    | with_reducible apply State.rows4_keeps hP.stable
    | with_reducible apply State.dies_keeps hP
    | with_reducible apply State.dropEvicted_keeps hP.stable
    | with_reducible apply State.commitBg_keeps hP
    | with_reducible apply State.retireFlights_keeps hP.stable
    | with_reducible apply State.freeObjs_keeps hP.stable
    | with_reducible apply State.paramSpace_keeps hP
    | with_reducible apply State.grant_keeps hP
    | with_reducible apply State.admitted4_keeps hP
    | with_reducible apply State.abandonReleased_keeps hP.stable
    | with_reducible apply State.streams4_keeps hP
    | with_reducible apply State.snapFields_keeps hP.stable
    | with_reducible apply State.snapFrames_keeps hP.stable
    | with_reducible apply State.zeroed_keeps hP.stable
    | with_reducible apply State.releases_keeps hP.stable
    | with_reducible refine ite_keeps (fun _ => ?_) (fun _ => ?_)
    | with_reducible refine fst_ite_keeps (fun _ => ?_) (fun _ => ?_)
    | with_reducible refine snd_ite_keeps (fun _ => ?_) (fun _ => ?_)
    | with_reducible refine List.foldl_keeps ?_ (fun s x h => ?_)
    | with_reducible refine List.foldl_fst_keeps ?_ (fun s x h => ?_)
    | with_reducible refine List.foldl_snd_keeps ?_ (fun s x h => ?_)
    | intro s x h
    | simp only [Stable.mk_iff hP.stable]
    | split
    | dsimp only

end Sys2Proof.Machine
end

