-- ==== Sys2Proof/Laws/KeepMirror.lean ====
section
/-! SUPPORT. What the definitions of Machine/Mirror.lean keep. -/

set_option linter.unusedTactic false
set_option linter.unreachableTactic false

namespace Sys2Proof.Machine

variable {P : State → Prop}

theorem State.renewLease_keeps (hP : Stable P) {s : State} {t : Word} (h : P s) : P (State.renewLease s t) := by
  unfold State.renewLease
  repeat' first
    | with_reducible assumption
    | with_reducible apply State.claim_keeps hP
    | with_reducible refine ite_keeps (fun _ => ?_) (fun _ => ?_)
    | with_reducible refine fst_ite_keeps (fun _ => ?_) (fun _ => ?_)
    | with_reducible refine snd_ite_keeps (fun _ => ?_) (fun _ => ?_)
    | with_reducible refine List.foldl_keeps ?_ (fun s x h => ?_)
    | with_reducible refine List.foldl_fst_keeps ?_ (fun s x h => ?_)
    | with_reducible refine List.foldl_snd_keeps ?_ (fun s x h => ?_)
    | intro s x h
    | simp only [Stable.mk_iff hP]
    | split
    | dsimp only

theorem State.partnerLives_keeps (hP : Stable P) {s : State} (h : P s) : P (State.partnerLives s) := by
  unfold State.partnerLives
  repeat' first
    | with_reducible assumption
    | with_reducible apply State.stampTime_keeps hP
    | with_reducible refine ite_keeps (fun _ => ?_) (fun _ => ?_)
    | with_reducible refine fst_ite_keeps (fun _ => ?_) (fun _ => ?_)
    | with_reducible refine snd_ite_keeps (fun _ => ?_) (fun _ => ?_)
    | with_reducible refine List.foldl_keeps ?_ (fun s x h => ?_)
    | with_reducible refine List.foldl_fst_keeps ?_ (fun s x h => ?_)
    | with_reducible refine List.foldl_snd_keeps ?_ (fun s x h => ?_)
    | intro s x h
    | simp only [Stable.mk_iff hP]
    | split
    | dsimp only

theorem State.heartbeat_keeps (hP : Stable P) {s : State} (h : P s) : P (State.heartbeat s) := by
  unfold State.heartbeat
  repeat' first
    | with_reducible assumption
    | with_reducible apply State.stampTime_keeps hP
    | with_reducible apply State.sendMirror_keeps hP
    | with_reducible refine ite_keeps (fun _ => ?_) (fun _ => ?_)
    | with_reducible refine fst_ite_keeps (fun _ => ?_) (fun _ => ?_)
    | with_reducible refine snd_ite_keeps (fun _ => ?_) (fun _ => ?_)
    | with_reducible refine List.foldl_keeps ?_ (fun s x h => ?_)
    | with_reducible refine List.foldl_fst_keeps ?_ (fun s x h => ?_)
    | with_reducible refine List.foldl_snd_keeps ?_ (fun s x h => ?_)
    | intro s x h
    | simp only [Stable.mk_iff hP]
    | split
    | dsimp only

theorem State.formPair_keeps (hP : Stable P) {s : State} (h : P s) : P (State.formPair s) := by
  unfold State.formPair
  repeat' first
    | with_reducible assumption
    | with_reducible apply State.claim_keeps hP
    | with_reducible apply State.stampTime_keeps hP
    | with_reducible apply State.each_keeps hP
    | with_reducible apply State.setMirp_keeps hP
    | with_reducible refine ite_keeps (fun _ => ?_) (fun _ => ?_)
    | with_reducible refine fst_ite_keeps (fun _ => ?_) (fun _ => ?_)
    | with_reducible refine snd_ite_keeps (fun _ => ?_) (fun _ => ?_)
    | with_reducible refine List.foldl_keeps ?_ (fun s x h => ?_)
    | with_reducible refine List.foldl_fst_keeps ?_ (fun s x h => ?_)
    | with_reducible refine List.foldl_snd_keeps ?_ (fun s x h => ?_)
    | intro s x h
    | simp only [Stable.mk_iff hP]
    | split
    | dsimp only

theorem State.sendCopy_keeps (hP : Stable P) {s : State} {p : ℕ} (h : P s) : P (State.sendCopy s p) := by
  unfold State.sendCopy
  repeat' first
    | with_reducible assumption
    | with_reducible apply State.chargePart_keeps hP
    | with_reducible apply State.setMirp_keeps hP
    | with_reducible apply State.sendMirror_keeps hP
    | with_reducible refine ite_keeps (fun _ => ?_) (fun _ => ?_)
    | with_reducible refine fst_ite_keeps (fun _ => ?_) (fun _ => ?_)
    | with_reducible refine snd_ite_keeps (fun _ => ?_) (fun _ => ?_)
    | with_reducible refine List.foldl_keeps ?_ (fun s x h => ?_)
    | with_reducible refine List.foldl_fst_keeps ?_ (fun s x h => ?_)
    | with_reducible refine List.foldl_snd_keeps ?_ (fun s x h => ?_)
    | intro s x h
    | simp only [Stable.mk_iff hP]
    | split
    | dsimp only

theorem State.sealOne_keeps (hP : Stable P) {s : State} {p : ℕ} (h : P s) : P (State.sealOne s p) := by
  unfold State.sealOne
  repeat' first
    | with_reducible assumption
    | with_reducible apply State.stampTime_keeps hP
    | with_reducible apply State.setMirp_keeps hP
    | with_reducible apply State.chargePart_keeps hP
    | with_reducible apply State.sendMirror_keeps hP
    | with_reducible refine ite_keeps (fun _ => ?_) (fun _ => ?_)
    | with_reducible refine fst_ite_keeps (fun _ => ?_) (fun _ => ?_)
    | with_reducible refine snd_ite_keeps (fun _ => ?_) (fun _ => ?_)
    | with_reducible refine List.foldl_keeps ?_ (fun s x h => ?_)
    | with_reducible refine List.foldl_fst_keeps ?_ (fun s x h => ?_)
    | with_reducible refine List.foldl_snd_keeps ?_ (fun s x h => ?_)
    | intro s x h
    | simp only [Stable.mk_iff hP]
    | split
    | dsimp only

theorem State.sealAck_keeps (hP : Stable P) {s : State} {p : ℕ} {status : ℕ} {tick : Word} (h : P s) : P (State.sealAck s p status tick) := by
  unfold State.sealAck
  repeat' first
    | with_reducible assumption
    | with_reducible apply State.renewLease_keeps hP
    | with_reducible apply State.setMirp_keeps hP
    | with_reducible refine ite_keeps (fun _ => ?_) (fun _ => ?_)
    | with_reducible refine fst_ite_keeps (fun _ => ?_) (fun _ => ?_)
    | with_reducible refine snd_ite_keeps (fun _ => ?_) (fun _ => ?_)
    | with_reducible refine List.foldl_keeps ?_ (fun s x h => ?_)
    | with_reducible refine List.foldl_fst_keeps ?_ (fun s x h => ?_)
    | with_reducible refine List.foldl_snd_keeps ?_ (fun s x h => ?_)
    | intro s x h
    | simp only [Stable.mk_iff hP]
    | split
    | dsimp only

theorem State.softCut_keeps (hP : Stable P) {s : State} (h : P s) : P (State.softCut s) := by
  unfold State.softCut
  repeat' first
    | with_reducible assumption
    | with_reducible apply State.setPartState_keeps hP
    | with_reducible apply State.setGenState_keeps hP
    | with_reducible refine ite_keeps (fun _ => ?_) (fun _ => ?_)
    | with_reducible refine fst_ite_keeps (fun _ => ?_) (fun _ => ?_)
    | with_reducible refine snd_ite_keeps (fun _ => ?_) (fun _ => ?_)
    | with_reducible refine List.foldl_keeps ?_ (fun s x h => ?_)
    | with_reducible refine List.foldl_fst_keeps ?_ (fun s x h => ?_)
    | with_reducible refine List.foldl_snd_keeps ?_ (fun s x h => ?_)
    | intro s x h
    | simp only [Stable.mk_iff hP]
    | split
    | dsimp only

theorem execMirrorAck_keeps (hP : Stable P) {n : PortId} {hdr : BitVec 256} {s : State} (h : P s) : OutP P (execMirrorAck n hdr s) := by
  unfold execMirrorAck
  repeat' first
    | with_reducible assumption
    | with_reducible apply State.softCut_keeps hP
    | with_reducible apply State.sealAck_keeps hP
    | with_reducible apply State.freeFlits_keeps hP
    | with_reducible refine ite_keeps (fun _ => ?_) (fun _ => ?_)
    | with_reducible apply OutP.next
    | with_reducible refine OutP.ite (fun _ => ?_) (fun _ => ?_)
    | with_reducible refine fst_ite_keeps (fun _ => ?_) (fun _ => ?_)
    | with_reducible refine snd_ite_keeps (fun _ => ?_) (fun _ => ?_)
    | with_reducible refine List.foldl_keeps ?_ (fun s x h => ?_)
    | with_reducible refine List.foldl_fst_keeps ?_ (fun s x h => ?_)
    | with_reducible refine List.foldl_snd_keeps ?_ (fun s x h => ?_)
    | intro s x h
    | simp only [Stable.mk_iff hP]
    | split
    | dsimp only

theorem execHeartbeat_keeps (hP : Stable P) {n : PortId} {hdr : BitVec 256} {s : State} (h : P s) : OutP P (execHeartbeat n hdr s) := by
  unfold execHeartbeat
  repeat' first
    | with_reducible assumption
    | with_reducible apply State.sendOn_keeps hP
    | with_reducible apply State.partnerLives_keeps hP
    | with_reducible apply State.freeFlits_keeps hP
    | with_reducible refine ite_keeps (fun _ => ?_) (fun _ => ?_)
    | with_reducible apply OutP.next
    | with_reducible refine OutP.ite (fun _ => ?_) (fun _ => ?_)
    | with_reducible refine fst_ite_keeps (fun _ => ?_) (fun _ => ?_)
    | with_reducible refine snd_ite_keeps (fun _ => ?_) (fun _ => ?_)
    | with_reducible refine List.foldl_keeps ?_ (fun s x h => ?_)
    | with_reducible refine List.foldl_fst_keeps ?_ (fun s x h => ?_)
    | with_reducible refine List.foldl_snd_keeps ?_ (fun s x h => ?_)
    | intro s x h
    | simp only [Stable.mk_iff hP]
    | split
    | dsimp only

theorem execHeartbeatTimer_keeps (hP : Stable P) {s : State} (h : P s) : OutP P (execHeartbeatTimer s) := by
  unfold execHeartbeatTimer
  repeat' first
    | with_reducible assumption
    | with_reducible apply State.heartbeat_keeps hP
    | with_reducible refine ite_keeps (fun _ => ?_) (fun _ => ?_)
    | with_reducible apply OutP.next
    | with_reducible refine OutP.ite (fun _ => ?_) (fun _ => ?_)
    | with_reducible refine fst_ite_keeps (fun _ => ?_) (fun _ => ?_)
    | with_reducible refine snd_ite_keeps (fun _ => ?_) (fun _ => ?_)
    | with_reducible refine List.foldl_keeps ?_ (fun s x h => ?_)
    | with_reducible refine List.foldl_fst_keeps ?_ (fun s x h => ?_)
    | with_reducible refine List.foldl_snd_keeps ?_ (fun s x h => ?_)
    | intro s x h
    | simp only [Stable.mk_iff hP]
    | split
    | dsimp only

theorem execHeartbeatAck_keeps (hP : Stable P) {n : PortId} {hdr : BitVec 256} {s : State} (h : P s) : OutP P (execHeartbeatAck n hdr s) := by
  unfold execHeartbeatAck
  repeat' first
    | with_reducible assumption
    | with_reducible apply State.freeFlits_keeps hP
    | with_reducible apply State.renewLease_keeps hP
    | with_reducible refine ite_keeps (fun _ => ?_) (fun _ => ?_)
    | with_reducible apply OutP.next
    | with_reducible refine OutP.ite (fun _ => ?_) (fun _ => ?_)
    | with_reducible refine fst_ite_keeps (fun _ => ?_) (fun _ => ?_)
    | with_reducible refine snd_ite_keeps (fun _ => ?_) (fun _ => ?_)
    | with_reducible refine List.foldl_keeps ?_ (fun s x h => ?_)
    | with_reducible refine List.foldl_fst_keeps ?_ (fun s x h => ?_)
    | with_reducible refine List.foldl_snd_keeps ?_ (fun s x h => ?_)
    | intro s x h
    | simp only [Stable.mk_iff hP]
    | split
    | dsimp only

theorem State.fencePair_keeps (hP : Stable P) {s : State} {src : StopSource} (h : P s) : P (State.fencePair s src) := by
  unfold State.fencePair
  repeat' first
    | with_reducible assumption
    | with_reducible apply State.hardStopParts_keeps hP
    | with_reducible apply State.each_keeps hP
    | with_reducible apply State.setMirp_keeps hP
    | with_reducible refine ite_keeps (fun _ => ?_) (fun _ => ?_)
    | with_reducible refine fst_ite_keeps (fun _ => ?_) (fun _ => ?_)
    | with_reducible refine snd_ite_keeps (fun _ => ?_) (fun _ => ?_)
    | with_reducible refine List.foldl_keeps ?_ (fun s x h => ?_)
    | with_reducible refine List.foldl_fst_keeps ?_ (fun s x h => ?_)
    | with_reducible refine List.foldl_snd_keeps ?_ (fun s x h => ?_)
    | intro s x h
    | simp only [Stable.mk_iff hP]
    | split
    | dsimp only

theorem State.timeTo_keeps (hP : Stable P) {s : State} {t : Word} (h : P s) : P (State.timeTo s t) := by
  unfold State.timeTo
  repeat' first
    | with_reducible assumption
    | with_reducible refine ite_keeps (fun _ => ?_) (fun _ => ?_)
    | with_reducible refine fst_ite_keeps (fun _ => ?_) (fun _ => ?_)
    | with_reducible refine snd_ite_keeps (fun _ => ?_) (fun _ => ?_)
    | with_reducible refine List.foldl_keeps ?_ (fun s x h => ?_)
    | with_reducible refine List.foldl_fst_keeps ?_ (fun s x h => ?_)
    | with_reducible refine List.foldl_snd_keeps ?_ (fun s x h => ?_)
    | intro s x h
    | simp only [Stable.mk_iff hP]
    | split
    | dsimp only

theorem execLeaseExpiry_keeps (hP : Lasting P) {s : State} (h : P s) : OutP P (execLeaseExpiry s) := by
  unfold execLeaseExpiry
  repeat' first
    | with_reducible assumption
    | with_reducible apply State.fencePair_keeps hP.stable
    | with_reducible apply State.timeTo_keeps hP.stable
    | with_reducible apply State.each_keeps hP.stable
    | with_reducible apply State.doPub_keeps hP
    | with_reducible apply State.setMirp_keeps hP.stable
    | with_reducible apply State.softCut_keeps hP.stable
    | with_reducible apply State.claim_keeps hP.stable
    | with_reducible refine ite_keeps (fun _ => ?_) (fun _ => ?_)
    | with_reducible apply OutP.next
    | with_reducible refine OutP.ite (fun _ => ?_) (fun _ => ?_)
    | with_reducible refine fst_ite_keeps (fun _ => ?_) (fun _ => ?_)
    | with_reducible refine snd_ite_keeps (fun _ => ?_) (fun _ => ?_)
    | with_reducible refine List.foldl_keeps ?_ (fun s x h => ?_)
    | with_reducible refine List.foldl_fst_keeps ?_ (fun s x h => ?_)
    | with_reducible refine List.foldl_snd_keeps ?_ (fun s x h => ?_)
    | intro s x h
    | simp only [Stable.mk_iff hP.stable]
    | split
    | dsimp only

theorem execClaimWatchdog_keeps (hP : Stable P) {s : State} (h : P s) : OutP P (execClaimWatchdog s) := by
  unfold execClaimWatchdog
  repeat' first
    | with_reducible assumption
    | with_reducible refine ite_keeps (fun _ => ?_) (fun _ => ?_)
    | with_reducible apply OutP.next
    | with_reducible refine OutP.ite (fun _ => ?_) (fun _ => ?_)
    | with_reducible refine fst_ite_keeps (fun _ => ?_) (fun _ => ?_)
    | with_reducible refine snd_ite_keeps (fun _ => ?_) (fun _ => ?_)
    | with_reducible refine List.foldl_keeps ?_ (fun s x h => ?_)
    | with_reducible refine List.foldl_fst_keeps ?_ (fun s x h => ?_)
    | with_reducible refine List.foldl_snd_keeps ?_ (fun s x h => ?_)
    | intro s x h
    | simp only [Stable.mk_iff hP]
    | split
    | dsimp only

theorem State.mirOff_keeps (hP : Stable P) {s : State} (h : P s) : P (State.mirOff s) := by
  unfold State.mirOff
  repeat' first
    | with_reducible assumption
    | with_reducible apply State.setFld_keeps hP
    | with_reducible apply State.fencePair_keeps hP
    | with_reducible apply State.each_keeps hP
    | with_reducible apply State.setMirp_keeps hP
    | with_reducible refine ite_keeps (fun _ => ?_) (fun _ => ?_)
    | with_reducible refine fst_ite_keeps (fun _ => ?_) (fun _ => ?_)
    | with_reducible refine snd_ite_keeps (fun _ => ?_) (fun _ => ?_)
    | with_reducible refine List.foldl_keeps ?_ (fun s x h => ?_)
    | with_reducible refine List.foldl_fst_keeps ?_ (fun s x h => ?_)
    | with_reducible refine List.foldl_snd_keeps ?_ (fun s x h => ?_)
    | intro s x h
    | simp only [Stable.mk_iff hP]
    | split
    | dsimp only

theorem execMirDisable_keeps (hP : Stable P) {value : Word} {s : State} (h : P s) : OutP P (execMirDisable value s) := by
  unfold execMirDisable
  repeat' first
    | with_reducible assumption
    | with_reducible apply State.mirOff_keeps hP
    | with_reducible apply State.writeBits_keeps hP
    | with_reducible refine ite_keeps (fun _ => ?_) (fun _ => ?_)
    | with_reducible apply OutP.next
    | with_reducible refine OutP.ite (fun _ => ?_) (fun _ => ?_)
    | with_reducible refine fst_ite_keeps (fun _ => ?_) (fun _ => ?_)
    | with_reducible refine snd_ite_keeps (fun _ => ?_) (fun _ => ?_)
    | with_reducible refine List.foldl_keeps ?_ (fun s x h => ?_)
    | with_reducible refine List.foldl_fst_keeps ?_ (fun s x h => ?_)
    | with_reducible refine List.foldl_snd_keeps ?_ (fun s x h => ?_)
    | intro s x h
    | simp only [Stable.mk_iff hP]
    | split
    | dsimp only

theorem execMirrorData_keeps (hP : Stable P) {n : PortId} {hdr : BitVec 256} {data : List Byte} {s : State} (h : P s) :
    OutP P (execMirrorData n hdr data s) := by
  unfold execMirrorData
  repeat' first
    | with_reducible assumption
    | with_reducible apply State.freeFlits_keeps hP
    | with_reducible apply State.setMirp_keeps hP
    | with_reducible refine ite_keeps (fun _ => ?_) (fun _ => ?_)
    | with_reducible apply OutP.next
    | with_reducible refine OutP.ite (fun _ => ?_) (fun _ => ?_)
    | with_reducible refine fst_ite_keeps (fun _ => ?_) (fun _ => ?_)
    | with_reducible refine snd_ite_keeps (fun _ => ?_) (fun _ => ?_)
    | with_reducible refine List.foldl_keeps ?_ (fun s x h => ?_)
    | with_reducible refine List.foldl_fst_keeps ?_ (fun s x h => ?_)
    | with_reducible refine List.foldl_snd_keeps ?_ (fun s x h => ?_)
    | intro s x h
    | simp only [Stable.mk_iff hP]
    | split
    | dsimp only

theorem State.mapFrame_keeps (hP : Stable P) {s : State} {p : ℕ} {t : ℕ} {f : ℕ} {v : ℕ} (h : P s) : P (State.mapFrame s p t f v) := by
  unfold State.mapFrame
  repeat' first
    | with_reducible assumption
    | with_reducible apply State.setMirp_keeps hP
    | with_reducible refine ite_keeps (fun _ => ?_) (fun _ => ?_)
    | with_reducible refine fst_ite_keeps (fun _ => ?_) (fun _ => ?_)
    | with_reducible refine snd_ite_keeps (fun _ => ?_) (fun _ => ?_)
    | with_reducible refine List.foldl_keeps ?_ (fun s x h => ?_)
    | with_reducible refine List.foldl_fst_keeps ?_ (fun s x h => ?_)
    | with_reducible refine List.foldl_snd_keeps ?_ (fun s x h => ?_)
    | intro s x h
    | simp only [Stable.mk_iff hP]
    | split
    | dsimp only

theorem State.applyFrame_keeps (hP : Lasting P) {s : State} {p : ℕ} {t : ℕ} {f : ℕ} {x : Frame} (h : P s) :
    P (State.applyFrame s p t f x) := by
  unfold State.applyFrame
  repeat' first
    | with_reducible assumption
    | with_reducible apply State.mapFrame_keeps hP.stable
    | with_reducible apply State.setFrame_keeps hP.stable
    | with_reducible apply State.takeFrames_keeps hP
    | with_reducible refine ite_keeps (fun _ => ?_) (fun _ => ?_)
    | with_reducible refine fst_ite_keeps (fun _ => ?_) (fun _ => ?_)
    | with_reducible refine snd_ite_keeps (fun _ => ?_) (fun _ => ?_)
    | with_reducible refine List.foldl_keeps ?_ (fun s x h => ?_)
    | with_reducible refine List.foldl_fst_keeps ?_ (fun s x h => ?_)
    | with_reducible refine List.foldl_snd_keeps ?_ (fun s x h => ?_)
    | intro s x h
    | simp only [Stable.mk_iff hP.stable]
    | split
    | dsimp only

theorem State.applyStream_keeps (hP : Lasting P) {s : State} {p : ℕ} {i : ℕ} {d : BitVec 512} {t : StreamSt} (h : P s) :
    P (State.applyStream s p i d t) := by
  unfold State.applyStream
  repeat' first
    | with_reducible assumption
    | with_reducible apply State.setStream_keeps hP.stable
    | with_reducible apply State.setMirp_keeps hP.stable
    | with_reducible apply State.writePte_keeps hP
    | with_reducible refine ite_keeps (fun _ => ?_) (fun _ => ?_)
    | with_reducible refine fst_ite_keeps (fun _ => ?_) (fun _ => ?_)
    | with_reducible refine snd_ite_keeps (fun _ => ?_) (fun _ => ?_)
    | with_reducible refine List.foldl_keeps ?_ (fun s x h => ?_)
    | with_reducible refine List.foldl_fst_keeps ?_ (fun s x h => ?_)
    | with_reducible refine List.foldl_snd_keeps ?_ (fun s x h => ?_)
    | intro s x h
    | simp only [Stable.mk_iff hP.stable]
    | split
    | dsimp only

theorem State.applyRec_keeps (hP : Lasting P) {s : State} {p : ℕ} {a2 : MirRec} (h : P s) : P (State.applyRec s p a2) := by
  unfold State.applyRec
  repeat' first
    | with_reducible assumption
    | with_reducible apply State.setPart_keeps hP.stable
    | with_reducible apply State.setGraph_keeps hP.stable
    | with_reducible apply State.setMirp_keeps hP.stable
    | with_reducible apply State.applyStream_keeps hP
    | with_reducible apply State.applyFrame_keeps hP
    | with_reducible apply State.setCtx_keeps hP.stable
    | with_reducible refine ite_keeps (fun _ => ?_) (fun _ => ?_)
    | with_reducible refine fst_ite_keeps (fun _ => ?_) (fun _ => ?_)
    | with_reducible refine snd_ite_keeps (fun _ => ?_) (fun _ => ?_)
    | with_reducible refine List.foldl_keeps ?_ (fun s x h => ?_)
    | with_reducible refine List.foldl_fst_keeps ?_ (fun s x h => ?_)
    | with_reducible refine List.foldl_snd_keeps ?_ (fun s x h => ?_)
    | intro s x h
    | simp only [Stable.mk_iff hP.stable]
    | split
    | dsimp only

theorem State.applySeal_keeps (hP : Lasting P) {s : State} {p : ℕ} {data : List Byte} {recs : List MirRec} (h : P s) :
    P (State.applySeal s p data recs) := by
  unfold State.applySeal
  repeat' first
    | with_reducible assumption
    | with_reducible apply State.applyRec_keeps hP
    | with_reducible apply State.putStack_keeps hP
    | with_reducible refine ite_keeps (fun _ => ?_) (fun _ => ?_)
    | with_reducible refine fst_ite_keeps (fun _ => ?_) (fun _ => ?_)
    | with_reducible refine snd_ite_keeps (fun _ => ?_) (fun _ => ?_)
    | with_reducible refine List.foldl_keeps ?_ (fun s x h => ?_)
    | with_reducible refine List.foldl_fst_keeps ?_ (fun s x h => ?_)
    | with_reducible refine List.foldl_snd_keeps ?_ (fun s x h => ?_)
    | intro s x h
    | simp only [Stable.mk_iff hP.stable]
    | split
    | dsimp only

theorem State.syncDrop_keeps (hP : Lasting P) {s : State} {p : ℕ} {recs : List MirRec} (h : P s) : P (State.syncDrop s p recs) := by
  unfold State.syncDrop
  repeat' first
    | with_reducible assumption
    | with_reducible apply State.applyFrame_keeps hP
    | with_reducible apply State.applyStream_keeps hP
    | with_reducible apply State.setCtx_keeps hP.stable
    | with_reducible apply State.setMirp_keeps hP.stable
    | with_reducible refine ite_keeps (fun _ => ?_) (fun _ => ?_)
    | with_reducible refine fst_ite_keeps (fun _ => ?_) (fun _ => ?_)
    | with_reducible refine snd_ite_keeps (fun _ => ?_) (fun _ => ?_)
    | with_reducible refine List.foldl_keeps ?_ (fun s x h => ?_)
    | with_reducible refine List.foldl_fst_keeps ?_ (fun s x h => ?_)
    | with_reducible refine List.foldl_snd_keeps ?_ (fun s x h => ?_)
    | intro s x h
    | simp only [Stable.mk_iff hP.stable]
    | split
    | dsimp only

theorem State.commitSync_keeps (hP : Lasting P) {s : State} {b : BgOp} (h : P s) : P (State.commitSync s b) := by
  unfold State.commitSync
  repeat' first
    | with_reducible assumption
    | with_reducible apply State.endBg_keeps hP.stable
    | with_reducible apply State.applySeal_keeps hP
    | with_reducible apply State.syncDrop_keeps hP
    | with_reducible apply State.setMirp_keeps hP.stable
    | with_reducible refine ite_keeps (fun _ => ?_) (fun _ => ?_)
    | with_reducible refine fst_ite_keeps (fun _ => ?_) (fun _ => ?_)
    | with_reducible refine snd_ite_keeps (fun _ => ?_) (fun _ => ?_)
    | with_reducible refine List.foldl_keeps ?_ (fun s x h => ?_)
    | with_reducible refine List.foldl_fst_keeps ?_ (fun s x h => ?_)
    | with_reducible refine List.foldl_snd_keeps ?_ (fun s x h => ?_)
    | intro s x h
    | simp only [Stable.mk_iff hP.stable]
    | split
    | dsimp only

theorem State.beginSync_keeps (hP : Stable P) {s : State} {p : ℕ} (h : P s) : P (State.beginSync s p) := by
  unfold State.beginSync
  repeat' first
    | with_reducible assumption
    | with_reducible apply State.startBg_keeps hP
    | with_reducible apply State.setMirp_keeps hP
    | with_reducible refine ite_keeps (fun _ => ?_) (fun _ => ?_)
    | with_reducible refine fst_ite_keeps (fun _ => ?_) (fun _ => ?_)
    | with_reducible refine snd_ite_keeps (fun _ => ?_) (fun _ => ?_)
    | with_reducible refine List.foldl_keeps ?_ (fun s x h => ?_)
    | with_reducible refine List.foldl_fst_keeps ?_ (fun s x h => ?_)
    | with_reducible refine List.foldl_snd_keeps ?_ (fun s x h => ?_)
    | intro s x h
    | simp only [Stable.mk_iff hP]
    | split
    | dsimp only

theorem State.applyDue_keeps (hP : Lasting P) {s : State} {p : ℕ} (h : P s) : P (State.applyDue s p) := by
  unfold State.applyDue
  repeat' first
    | with_reducible assumption
    | with_reducible apply State.applySeal_keeps hP
    | with_reducible apply State.setMirp_keeps hP.stable
    | with_reducible refine ite_keeps (fun _ => ?_) (fun _ => ?_)
    | with_reducible refine fst_ite_keeps (fun _ => ?_) (fun _ => ?_)
    | with_reducible refine snd_ite_keeps (fun _ => ?_) (fun _ => ?_)
    | with_reducible refine List.foldl_keeps ?_ (fun s x h => ?_)
    | with_reducible refine List.foldl_fst_keeps ?_ (fun s x h => ?_)
    | with_reducible refine List.foldl_snd_keeps ?_ (fun s x h => ?_)
    | intro s x h
    | simp only [Stable.mk_iff hP.stable]
    | split
    | dsimp only

theorem State.step6_keeps (hP : Stable P) {s : State} {acks : List (ℕ × ℕ)} (h : P s) : P (State.step6 s acks) := by
  unfold State.step6
  repeat' first
    | with_reducible assumption
    | with_reducible apply State.each_keeps hP
    | with_reducible apply State.beginSync_keeps hP
    | with_reducible apply State.sendCopy_keeps hP
    | with_reducible apply State.sealOne_keeps hP
    | with_reducible apply State.sealAck_keeps hP
    | with_reducible refine ite_keeps (fun _ => ?_) (fun _ => ?_)
    | with_reducible refine fst_ite_keeps (fun _ => ?_) (fun _ => ?_)
    | with_reducible refine snd_ite_keeps (fun _ => ?_) (fun _ => ?_)
    | with_reducible refine List.foldl_keeps ?_ (fun s x h => ?_)
    | with_reducible refine List.foldl_fst_keeps ?_ (fun s x h => ?_)
    | with_reducible refine List.foldl_snd_keeps ?_ (fun s x h => ?_)
    | intro s x h
    | simp only [Stable.mk_iff hP]
    | split
    | dsimp only

theorem execMirrorSeal_keeps (hP : Stable P) {n : PortId} {hdr : BitVec 256} {sealHdr : BitVec 1024} {trailer : List Byte} {s : State} (h : P s) :
    OutP P (execMirrorSeal n hdr sealHdr trailer s) := by
  unfold execMirrorSeal
  repeat' first
    | with_reducible assumption
    | with_reducible apply State.freeFlits_keeps hP
    | with_reducible apply State.sendOn_keeps hP
    | with_reducible apply State.partnerLives_keeps hP
    | with_reducible apply State.setMirp_keeps hP
    | with_reducible refine ite_keeps (fun _ => ?_) (fun _ => ?_)
    | with_reducible apply OutP.next
    | with_reducible refine OutP.ite (fun _ => ?_) (fun _ => ?_)
    | with_reducible refine fst_ite_keeps (fun _ => ?_) (fun _ => ?_)
    | with_reducible refine snd_ite_keeps (fun _ => ?_) (fun _ => ?_)
    | with_reducible refine List.foldl_keeps ?_ (fun s x h => ?_)
    | with_reducible refine List.foldl_fst_keeps ?_ (fun s x h => ?_)
    | with_reducible refine List.foldl_snd_keeps ?_ (fun s x h => ?_)
    | intro s x h
    | simp only [Stable.mk_iff hP]
    | split
    | dsimp only

theorem execShadowSyncComplete_keeps (hP : Stable P) {c : SyncCopy} {s : State} (h : P s) : OutP P (execShadowSyncComplete c s) := by
  unfold execShadowSyncComplete
  repeat' first
    | with_reducible assumption
    | with_reducible refine ite_keeps (fun _ => ?_) (fun _ => ?_)
    | with_reducible apply OutP.next
    | with_reducible refine OutP.ite (fun _ => ?_) (fun _ => ?_)
    | with_reducible refine fst_ite_keeps (fun _ => ?_) (fun _ => ?_)
    | with_reducible refine snd_ite_keeps (fun _ => ?_) (fun _ => ?_)
    | with_reducible refine List.foldl_keeps ?_ (fun s x h => ?_)
    | with_reducible refine List.foldl_fst_keeps ?_ (fun s x h => ?_)
    | with_reducible refine List.foldl_snd_keeps ?_ (fun s x h => ?_)
    | intro s x h
    | simp only [Stable.mk_iff hP]
    | split
    | dsimp only

theorem State.giveUp_keeps (hP : Stable P) {s : State} {q : ℕ} {g : ℕ} (h : P s) : P (State.giveUp s q g) := by
  unfold State.giveUp
  repeat' first
    | with_reducible assumption
    | with_reducible apply State.setFld_keeps hP
    | with_reducible apply State.leaveGallery_keeps hP
    | with_reducible refine ite_keeps (fun _ => ?_) (fun _ => ?_)
    | with_reducible refine fst_ite_keeps (fun _ => ?_) (fun _ => ?_)
    | with_reducible refine snd_ite_keeps (fun _ => ?_) (fun _ => ?_)
    | with_reducible refine List.foldl_keeps ?_ (fun s x h => ?_)
    | with_reducible refine List.foldl_fst_keeps ?_ (fun s x h => ?_)
    | with_reducible refine List.foldl_snd_keeps ?_ (fun s x h => ?_)
    | intro s x h
    | simp only [Stable.mk_iff hP]
    | split
    | dsimp only

theorem State.takeOver_keeps (hP : Stable P) {s : State} {p : ℕ} (h : P s) : P (State.takeOver s p) := by
  unfold State.takeOver
  repeat' first
    | with_reducible assumption
    | with_reducible apply State.setMirp_keeps hP
    | with_reducible apply State.giveUp_keeps hP
    | with_reducible apply State.setFld_keeps hP
    | with_reducible refine ite_keeps (fun _ => ?_) (fun _ => ?_)
    | with_reducible refine fst_ite_keeps (fun _ => ?_) (fun _ => ?_)
    | with_reducible refine snd_ite_keeps (fun _ => ?_) (fun _ => ?_)
    | with_reducible refine List.foldl_keeps ?_ (fun s x h => ?_)
    | with_reducible refine List.foldl_fst_keeps ?_ (fun s x h => ?_)
    | with_reducible refine List.foldl_snd_keeps ?_ (fun s x h => ?_)
    | intro s x h
    | simp only [Stable.mk_iff hP]
    | split
    | dsimp only

theorem State.beginPromotion_keeps (hP : Stable P) {s : State} {p : ℕ} (h : P s) : P (State.beginPromotion s p) := by
  unfold State.beginPromotion
  repeat' first
    | with_reducible assumption
    | with_reducible apply State.setMirp_keeps hP
    | with_reducible apply State.takeOver_keeps hP
    | with_reducible refine ite_keeps (fun _ => ?_) (fun _ => ?_)
    | with_reducible refine fst_ite_keeps (fun _ => ?_) (fun _ => ?_)
    | with_reducible refine snd_ite_keeps (fun _ => ?_) (fun _ => ?_)
    | with_reducible refine List.foldl_keeps ?_ (fun s x h => ?_)
    | with_reducible refine List.foldl_fst_keeps ?_ (fun s x h => ?_)
    | with_reducible refine List.foldl_snd_keeps ?_ (fun s x h => ?_)
    | intro s x h
    | simp only [Stable.mk_iff hP]
    | split
    | dsimp only

theorem execGraceExpiry_keeps (hP : Stable P) {p : PartId} {s : State} (h : P s) : OutP P (execGraceExpiry p s) := by
  unfold execGraceExpiry
  repeat' first
    | with_reducible assumption
    | with_reducible apply State.timeTo_keeps hP
    | with_reducible apply State.beginPromotion_keeps hP
    | with_reducible refine ite_keeps (fun _ => ?_) (fun _ => ?_)
    | with_reducible apply OutP.next
    | with_reducible refine OutP.ite (fun _ => ?_) (fun _ => ?_)
    | with_reducible refine fst_ite_keeps (fun _ => ?_) (fun _ => ?_)
    | with_reducible refine snd_ite_keeps (fun _ => ?_) (fun _ => ?_)
    | with_reducible refine List.foldl_keeps ?_ (fun s x h => ?_)
    | with_reducible refine List.foldl_fst_keeps ?_ (fun s x h => ?_)
    | with_reducible refine List.foldl_snd_keeps ?_ (fun s x h => ?_)
    | intro s x h
    | simp only [Stable.mk_iff hP]
    | split
    | dsimp only

theorem execPairClaimInChange_keeps (hP : Stable P) {level : Bool} {s : State} (h : P s) : OutP P (execPairClaimInChange level s) := by
  unfold execPairClaimInChange
  repeat' first
    | with_reducible assumption
    | with_reducible apply State.beginPromotion_keeps hP
    | with_reducible refine ite_keeps (fun _ => ?_) (fun _ => ?_)
    | with_reducible apply OutP.next
    | with_reducible refine OutP.ite (fun _ => ?_) (fun _ => ?_)
    | with_reducible refine fst_ite_keeps (fun _ => ?_) (fun _ => ?_)
    | with_reducible refine snd_ite_keeps (fun _ => ?_) (fun _ => ?_)
    | with_reducible refine List.foldl_keeps ?_ (fun s x h => ?_)
    | with_reducible refine List.foldl_fst_keeps ?_ (fun s x h => ?_)
    | with_reducible refine List.foldl_snd_keeps ?_ (fun s x h => ?_)
    | intro s x h
    | simp only [Stable.mk_iff hP]
    | split
    | dsimp only

theorem State.rewriteEntry_keeps (hP : Lasting P) {s : State} {t : StreamSt} {e : ℕ} (h : P s) : P (State.rewriteEntry s t e) := by
  unfold State.rewriteEntry
  repeat' first
    | with_reducible assumption
    | with_reducible apply State.hostPut_keeps hP
    | with_reducible refine ite_keeps (fun _ => ?_) (fun _ => ?_)
    | with_reducible refine fst_ite_keeps (fun _ => ?_) (fun _ => ?_)
    | with_reducible refine snd_ite_keeps (fun _ => ?_) (fun _ => ?_)
    | with_reducible refine List.foldl_keeps ?_ (fun s x h => ?_)
    | with_reducible refine List.foldl_fst_keeps ?_ (fun s x h => ?_)
    | with_reducible refine List.foldl_snd_keeps ?_ (fun s x h => ?_)
    | intro s x h
    | simp only [Stable.mk_iff hP.stable]
    | split
    | dsimp only

theorem State.promoteStream_keeps (hP : Lasting P) {s : State} {i : ℕ} {lost : Bool} (h : P s) : P (State.promoteStream s i lost) := by
  unfold State.promoteStream
  repeat' first
    | with_reducible assumption
    | with_reducible apply State.rewriteEntry_keeps hP
    | with_reducible apply State.setStream_keeps hP.stable
    | with_reducible refine ite_keeps (fun _ => ?_) (fun _ => ?_)
    | with_reducible refine fst_ite_keeps (fun _ => ?_) (fun _ => ?_)
    | with_reducible refine snd_ite_keeps (fun _ => ?_) (fun _ => ?_)
    | with_reducible refine List.foldl_keeps ?_ (fun s x h => ?_)
    | with_reducible refine List.foldl_fst_keeps ?_ (fun s x h => ?_)
    | with_reducible refine List.foldl_snd_keeps ?_ (fun s x h => ?_)
    | intro s x h
    | simp only [Stable.mk_iff hP.stable]
    | split
    | dsimp only

theorem State.promoteLaunch_keeps (hP : Stable P) {s : State} {p : ℕ} {a2 : MirRec} (h : P s) : P (State.promoteLaunch s p a2) := by
  unfold State.promoteLaunch
  repeat' first
    | with_reducible assumption
    | with_reducible apply State.setPart_keeps hP
    | with_reducible apply State.setGraph_keeps hP
    | with_reducible apply State.setFlight_keeps hP
    | with_reducible apply State.requeue_keeps hP
    | with_reducible refine ite_keeps (fun _ => ?_) (fun _ => ?_)
    | with_reducible refine fst_ite_keeps (fun _ => ?_) (fun _ => ?_)
    | with_reducible refine snd_ite_keeps (fun _ => ?_) (fun _ => ?_)
    | with_reducible refine List.foldl_keeps ?_ (fun s x h => ?_)
    | with_reducible refine List.foldl_fst_keeps ?_ (fun s x h => ?_)
    | with_reducible refine List.foldl_snd_keeps ?_ (fun s x h => ?_)
    | intro s x h
    | simp only [Stable.mk_iff hP]
    | split
    | dsimp only

theorem State.promote_keeps (hP : Lasting P) {s : State} {p : ℕ} (h : P s) : P (State.promote s p) := by
  unfold State.promote
  repeat' first
    | with_reducible assumption
    | with_reducible apply State.setMirp_keeps hP.stable
    | with_reducible apply State.setPart_keeps hP.stable
    | with_reducible apply State.promoteStream_keeps hP
    | with_reducible apply State.promoteLaunch_keeps hP.stable
    | with_reducible apply State.emit_keeps hP.stable
    | with_reducible apply State.claim_keeps hP.stable
    | with_reducible refine ite_keeps (fun _ => ?_) (fun _ => ?_)
    | with_reducible refine fst_ite_keeps (fun _ => ?_) (fun _ => ?_)
    | with_reducible refine snd_ite_keeps (fun _ => ?_) (fun _ => ?_)
    | with_reducible refine List.foldl_keeps ?_ (fun s x h => ?_)
    | with_reducible refine List.foldl_fst_keeps ?_ (fun s x h => ?_)
    | with_reducible refine List.foldl_snd_keeps ?_ (fun s x h => ?_)
    | intro s x h
    | simp only [Stable.mk_iff hP.stable]
    | split
    | dsimp only

theorem execMirPromoted_keeps (hP : Lasting P) {p : PartId} {s : State} (h : P s) : OutP P (execMirPromoted p s) := by
  unfold execMirPromoted
  repeat' first
    | with_reducible assumption
    | with_reducible apply State.promote_keeps hP
    | with_reducible apply State.setMirp_keeps hP.stable
    | with_reducible refine ite_keeps (fun _ => ?_) (fun _ => ?_)
    | with_reducible apply OutP.next
    | with_reducible refine OutP.ite (fun _ => ?_) (fun _ => ?_)
    | with_reducible refine fst_ite_keeps (fun _ => ?_) (fun _ => ?_)
    | with_reducible refine snd_ite_keeps (fun _ => ?_) (fun _ => ?_)
    | with_reducible refine List.foldl_keeps ?_ (fun s x h => ?_)
    | with_reducible refine List.foldl_fst_keeps ?_ (fun s x h => ?_)
    | with_reducible refine List.foldl_snd_keeps ?_ (fun s x h => ?_)
    | intro s x h
    | simp only [Stable.mk_iff hP.stable]
    | split
    | dsimp only

theorem State.shadow4_keeps (hP : Lasting P) {s : State} {p : ℕ} (h : P s) : P (State.shadow4 s p) := by
  unfold State.shadow4
  repeat' first
    | with_reducible assumption
    | with_reducible apply State.applyDue_keeps hP
    | with_reducible apply State.promote_keeps hP
    | with_reducible apply State.takeOver_keeps hP.stable
    | with_reducible refine ite_keeps (fun _ => ?_) (fun _ => ?_)
    | with_reducible refine fst_ite_keeps (fun _ => ?_) (fun _ => ?_)
    | with_reducible refine snd_ite_keeps (fun _ => ?_) (fun _ => ?_)
    | with_reducible refine List.foldl_keeps ?_ (fun s x h => ?_)
    | with_reducible refine List.foldl_fst_keeps ?_ (fun s x h => ?_)
    | with_reducible refine List.foldl_snd_keeps ?_ (fun s x h => ?_)
    | intro s x h
    | simp only [Stable.mk_iff hP.stable]
    | split
    | dsimp only

theorem State.mirror4_keeps (hP : Lasting P) {s : State} (h : P s) : P (State.mirror4 s) := by
  unfold State.mirror4
  repeat' first
    | with_reducible assumption
    | with_reducible apply State.each_keeps hP.stable
    | with_reducible apply State.commitSync_keeps hP
    | with_reducible apply State.shadow4_keeps hP
    | with_reducible refine ite_keeps (fun _ => ?_) (fun _ => ?_)
    | with_reducible refine fst_ite_keeps (fun _ => ?_) (fun _ => ?_)
    | with_reducible refine snd_ite_keeps (fun _ => ?_) (fun _ => ?_)
    | with_reducible refine List.foldl_keeps ?_ (fun s x h => ?_)
    | with_reducible refine List.foldl_fst_keeps ?_ (fun s x h => ?_)
    | with_reducible refine List.foldl_snd_keeps ?_ (fun s x h => ?_)
    | intro s x h
    | simp only [Stable.mk_iff hP.stable]
    | split
    | dsimp only

end Sys2Proof.Machine
end

