-- ==== Sys2Proof/Laws/KeepBoundary.lean ====
section
/-! SUPPORT. What the definitions of Machine/Boundary.lean keep. -/

set_option linter.unusedTactic false
set_option linter.unreachableTactic false

namespace Sys2Proof.Machine

variable {P : State → Prop}

theorem State.overrunEvents_keeps (hP : Stable P) {s : State} {stretch : ℕ} (h : P s) : P (State.overrunEvents s stretch) := by
  unfold State.overrunEvents
  repeat' first
    | with_reducible assumption
    | with_reducible apply State.emit_keeps hP
    | with_reducible apply State.each_keeps hP
    | with_reducible refine ite_keeps (fun _ => ?_) (fun _ => ?_)
    | with_reducible refine fst_ite_keeps (fun _ => ?_) (fun _ => ?_)
    | with_reducible refine snd_ite_keeps (fun _ => ?_) (fun _ => ?_)
    | with_reducible refine List.foldl_keeps ?_ (fun s x h => ?_)
    | with_reducible refine List.foldl_fst_keeps ?_ (fun s x h => ?_)
    | with_reducible refine List.foldl_snd_keeps ?_ (fun s x h => ?_)
    | intro s x h
    | simp only [Stable.mk_iff hP]
    | split
    | dsimp only

theorem State.dropCtxs_keeps (hP : Stable P) {s : State} (h : P s) : P (State.dropCtxs s) := by
  unfold State.dropCtxs
  repeat' first
    | with_reducible assumption
    | with_reducible apply State.each_keeps hP
    | with_reducible apply State.setCtx_keeps hP
    | with_reducible refine ite_keeps (fun _ => ?_) (fun _ => ?_)
    | with_reducible refine fst_ite_keeps (fun _ => ?_) (fun _ => ?_)
    | with_reducible refine snd_ite_keeps (fun _ => ?_) (fun _ => ?_)
    | with_reducible refine List.foldl_keeps ?_ (fun s x h => ?_)
    | with_reducible refine List.foldl_fst_keeps ?_ (fun s x h => ?_)
    | with_reducible refine List.foldl_snd_keeps ?_ (fun s x h => ?_)
    | intro s x h
    | simp only [Stable.mk_iff hP]
    | split
    | dsimp only

theorem State.boundaryEnds_keeps (hP : Stable P) {s : State} (h : P s) : P (State.boundaryEnds s) := by
  unfold State.boundaryEnds
  repeat' first
    | with_reducible assumption
    | with_reducible apply State.each_keeps hP
    | with_reducible apply State.fcBegin_keeps hP
    | with_reducible apply State.claim_keeps hP
    | with_reducible refine ite_keeps (fun _ => ?_) (fun _ => ?_)
    | with_reducible refine fst_ite_keeps (fun _ => ?_) (fun _ => ?_)
    | with_reducible refine snd_ite_keeps (fun _ => ?_) (fun _ => ?_)
    | with_reducible refine List.foldl_keeps ?_ (fun s x h => ?_)
    | with_reducible refine List.foldl_fst_keeps ?_ (fun s x h => ?_)
    | with_reducible refine List.foldl_snd_keeps ?_ (fun s x h => ?_)
    | intro s x h
    | simp only [Stable.mk_iff hP]
    | split
    | dsimp only

theorem State.boundary_keeps (hP : Lasting P) {s : State} {b : BoundaryIn} (h : P s) : P (State.boundary s b) := by
  unfold State.boundary
  repeat' first
    | with_reducible assumption
    | with_reducible apply State.step3_keeps hP
    | with_reducible apply State.step2_keeps hP
    | with_reducible apply State.step1_keeps hP
    | with_reducible apply State.step0_keeps hP
    | with_reducible apply State.overrunEvents_keeps hP.stable
    | with_reducible apply State.step4_keeps hP
    | with_reducible apply State.mirror4_keeps hP
    | with_reducible apply State.step5_keeps hP
    | with_reducible apply State.dropCtxs_keeps hP.stable
    | with_reducible apply State.each_keeps hP.stable
    | with_reducible apply State.destroy5_keeps hP.stable
    | with_reducible apply State.boundaryEnds_keeps hP.stable
    | with_reducible apply State.step7_keeps hP
    | with_reducible apply State.step6_keeps hP.stable
    | with_reducible refine ite_keeps (fun _ => ?_) (fun _ => ?_)
    | with_reducible refine fst_ite_keeps (fun _ => ?_) (fun _ => ?_)
    | with_reducible refine snd_ite_keeps (fun _ => ?_) (fun _ => ?_)
    | with_reducible refine List.foldl_keeps ?_ (fun s x h => ?_)
    | with_reducible refine List.foldl_fst_keeps ?_ (fun s x h => ?_)
    | with_reducible refine List.foldl_snd_keeps ?_ (fun s x h => ?_)
    | intro s x h
    | simp only [Stable.mk_iff hP.stable]
    | split
    | dsimp only

theorem State.cutPart_keeps (hP : Stable P) {s : State} {p : ℕ} (h : P s) : P (State.cutPart s p) := by
  unfold State.cutPart
  repeat' first
    | with_reducible assumption
    | with_reducible apply State.setPartState_keeps hP
    | with_reducible refine ite_keeps (fun _ => ?_) (fun _ => ?_)
    | with_reducible refine fst_ite_keeps (fun _ => ?_) (fun _ => ?_)
    | with_reducible refine snd_ite_keeps (fun _ => ?_) (fun _ => ?_)
    | with_reducible refine List.foldl_keeps ?_ (fun s x h => ?_)
    | with_reducible refine List.foldl_fst_keeps ?_ (fun s x h => ?_)
    | with_reducible refine List.foldl_snd_keeps ?_ (fun s x h => ?_)
    | intro s x h
    | simp only [Stable.mk_iff hP]
    | split
    | dsimp only

theorem State.openReq_keeps (hP : Stable P) {s : State} {r : StopReq} (h : P s) : P (State.openReq s r) := by
  unfold State.openReq
  repeat' first
    | with_reducible assumption
    | with_reducible apply State.each_keeps hP
    | with_reducible apply State.cutPart_keeps hP
    | with_reducible apply State.updCtx_keeps hP
    | with_reducible refine ite_keeps (fun _ => ?_) (fun _ => ?_)
    | with_reducible refine fst_ite_keeps (fun _ => ?_) (fun _ => ?_)
    | with_reducible refine snd_ite_keeps (fun _ => ?_) (fun _ => ?_)
    | with_reducible refine List.foldl_keeps ?_ (fun s x h => ?_)
    | with_reducible refine List.foldl_fst_keeps ?_ (fun s x h => ?_)
    | with_reducible refine List.foldl_snd_keeps ?_ (fun s x h => ?_)
    | intro s x h
    | simp only [Stable.mk_iff hP]
    | split
    | dsimp only

theorem State.batchFor_keeps (hP : Stable P) {s : State} {f : FlightSt} (h : P s) : P (State.batchFor s f) := by
  unfold State.batchFor
  repeat' first
    | with_reducible assumption
    | with_reducible refine ite_keeps (fun _ => ?_) (fun _ => ?_)
    | with_reducible refine fst_ite_keeps (fun _ => ?_) (fun _ => ?_)
    | with_reducible refine snd_ite_keeps (fun _ => ?_) (fun _ => ?_)
    | with_reducible refine List.foldl_keeps ?_ (fun s x h => ?_)
    | with_reducible refine List.foldl_fst_keeps ?_ (fun s x h => ?_)
    | with_reducible refine List.foldl_snd_keeps ?_ (fun s x h => ?_)
    | intro s x h
    | simp only [Stable.mk_iff hP]
    | split
    | dsimp only

theorem State.batches_keeps (hP : Stable P) {s : State} (h : P s) : P (State.batches s) := by
  unfold State.batches
  repeat' first
    | with_reducible assumption
    | with_reducible apply State.batchFor_keeps hP
    | with_reducible refine ite_keeps (fun _ => ?_) (fun _ => ?_)
    | with_reducible refine fst_ite_keeps (fun _ => ?_) (fun _ => ?_)
    | with_reducible refine snd_ite_keeps (fun _ => ?_) (fun _ => ?_)
    | with_reducible refine List.foldl_keeps ?_ (fun s x h => ?_)
    | with_reducible refine List.foldl_fst_keeps ?_ (fun s x h => ?_)
    | with_reducible refine List.foldl_snd_keeps ?_ (fun s x h => ?_)
    | intro s x h
    | simp only [Stable.mk_iff hP]
    | split
    | dsimp only

theorem State.openTick_keeps (hP : Stable P) {s : State} (h : P s) : P (State.openTick s) := by
  unfold State.openTick
  repeat' first
    | with_reducible assumption
    | with_reducible apply State.setFld_keeps hP
    | with_reducible apply State.setReg_keeps hP
    | with_reducible refine ite_keeps (fun _ => ?_) (fun _ => ?_)
    | with_reducible refine fst_ite_keeps (fun _ => ?_) (fun _ => ?_)
    | with_reducible refine snd_ite_keeps (fun _ => ?_) (fun _ => ?_)
    | with_reducible refine List.foldl_keeps ?_ (fun s x h => ?_)
    | with_reducible refine List.foldl_fst_keeps ?_ (fun s x h => ?_)
    | with_reducible refine List.foldl_snd_keeps ?_ (fun s x h => ?_)
    | intro s x h
    | simp only [Stable.mk_iff hP]
    | split
    | dsimp only

theorem State.step8_keeps (hP : Stable P) {s : State} (h : P s) : P (State.step8 s) := by
  unfold State.step8
  repeat' first
    | with_reducible assumption
    | with_reducible apply State.openReq_keeps hP
    | with_reducible apply State.openTick_keeps hP
    | with_reducible apply State.each_keeps hP
    | with_reducible apply State.setPartState_keeps hP
    | with_reducible apply State.acctOpen_keeps hP
    | with_reducible apply State.railsUp_keeps hP
    | with_reducible apply State.batches_keeps hP
    | with_reducible apply State.softCut_keeps hP
    | with_reducible apply State.heartbeat_keeps hP
    | with_reducible refine ite_keeps (fun _ => ?_) (fun _ => ?_)
    | with_reducible refine fst_ite_keeps (fun _ => ?_) (fun _ => ?_)
    | with_reducible refine snd_ite_keeps (fun _ => ?_) (fun _ => ?_)
    | with_reducible refine List.foldl_keeps ?_ (fun s x h => ?_)
    | with_reducible refine List.foldl_fst_keeps ?_ (fun s x h => ?_)
    | with_reducible refine List.foldl_snd_keeps ?_ (fun s x h => ?_)
    | intro s x h
    | simp only [Stable.mk_iff hP]
    | split
    | dsimp only

theorem State.step8Stopped_keeps (hP : Stable P) {s : State} (h : P s) : P (State.step8Stopped s) := by
  unfold State.step8Stopped
  repeat' first
    | with_reducible assumption
    | with_reducible apply State.step8_keeps hP
    | with_reducible refine ite_keeps (fun _ => ?_) (fun _ => ?_)
    | with_reducible refine fst_ite_keeps (fun _ => ?_) (fun _ => ?_)
    | with_reducible refine snd_ite_keeps (fun _ => ?_) (fun _ => ?_)
    | with_reducible refine List.foldl_keeps ?_ (fun s x h => ?_)
    | with_reducible refine List.foldl_fst_keeps ?_ (fun s x h => ?_)
    | with_reducible refine List.foldl_snd_keeps ?_ (fun s x h => ?_)
    | intro s x h
    | simp only [Stable.mk_iff hP]
    | split
    | dsimp only

theorem State.sendBarrier_keeps (hP : Stable P) {s : State} {kind : ℕ} {dst : ℕ} (h : P s) : P (State.sendBarrier s kind dst) := by
  unfold State.sendBarrier
  repeat' first
    | with_reducible assumption
    | with_reducible apply State.sendFabric_keeps hP
    | with_reducible refine ite_keeps (fun _ => ?_) (fun _ => ?_)
    | with_reducible refine fst_ite_keeps (fun _ => ?_) (fun _ => ?_)
    | with_reducible refine snd_ite_keeps (fun _ => ?_) (fun _ => ?_)
    | with_reducible refine List.foldl_keeps ?_ (fun s x h => ?_)
    | with_reducible refine List.foldl_fst_keeps ?_ (fun s x h => ?_)
    | with_reducible refine List.foldl_snd_keeps ?_ (fun s x h => ?_)
    | intro s x h
    | simp only [Stable.mk_iff hP]
    | split
    | dsimp only

theorem State.released_keeps (hP : Stable P) {s : State} {rootTick : Word} (h : P s) : P (State.released s rootTick) := by
  unfold State.released
  repeat' first
    | with_reducible assumption
    | with_reducible apply State.setReg_keeps hP
    | with_reducible refine ite_keeps (fun _ => ?_) (fun _ => ?_)
    | with_reducible refine fst_ite_keeps (fun _ => ?_) (fun _ => ?_)
    | with_reducible refine snd_ite_keeps (fun _ => ?_) (fun _ => ?_)
    | with_reducible refine List.foldl_keeps ?_ (fun s x h => ?_)
    | with_reducible refine List.foldl_fst_keeps ?_ (fun s x h => ?_)
    | with_reducible refine List.foldl_snd_keeps ?_ (fun s x h => ?_)
    | intro s x h
    | simp only [Stable.mk_iff hP]
    | split
    | dsimp only

theorem State.rootReleases_keeps (hP : Stable P) {s : State} (h : P s) : P (State.rootReleases s) := by
  unfold State.rootReleases
  repeat' first
    | with_reducible assumption
    | with_reducible apply State.released_keeps hP
    | with_reducible apply State.sendBarrier_keeps hP
    | with_reducible refine ite_keeps (fun _ => ?_) (fun _ => ?_)
    | with_reducible refine fst_ite_keeps (fun _ => ?_) (fun _ => ?_)
    | with_reducible refine snd_ite_keeps (fun _ => ?_) (fun _ => ?_)
    | with_reducible refine List.foldl_keeps ?_ (fun s x h => ?_)
    | with_reducible refine List.foldl_fst_keeps ?_ (fun s x h => ?_)
    | with_reducible refine List.foldl_snd_keeps ?_ (fun s x h => ?_)
    | intro s x h
    | simp only [Stable.mk_iff hP]
    | split
    | dsimp only

theorem State.reachClose_keeps (hP : Lasting P) {s : State} {b : BoundaryIn} (h : P s) : P (State.reachClose s b) := by
  unfold State.reachClose
  repeat' first
    | with_reducible assumption
    | with_reducible apply State.boundary_keeps hP
    | with_reducible apply State.rootReleases_keeps hP.stable
    | with_reducible apply State.sendBarrier_keeps hP.stable
    | with_reducible refine ite_keeps (fun _ => ?_) (fun _ => ?_)
    | with_reducible refine fst_ite_keeps (fun _ => ?_) (fun _ => ?_)
    | with_reducible refine snd_ite_keeps (fun _ => ?_) (fun _ => ?_)
    | with_reducible refine List.foldl_keeps ?_ (fun s x h => ?_)
    | with_reducible refine List.foldl_fst_keeps ?_ (fun s x h => ?_)
    | with_reducible refine List.foldl_snd_keeps ?_ (fun s x h => ?_)
    | intro s x h
    | simp only [Stable.mk_iff hP.stable]
    | split
    | dsimp only

theorem State.markHolders_keeps (hP : Stable P) {s : State} (h : P s) : P (State.markHolders s) := by
  unfold State.markHolders
  repeat' first
    | with_reducible assumption
    | with_reducible apply State.updCtx_keeps hP
    | with_reducible refine ite_keeps (fun _ => ?_) (fun _ => ?_)
    | with_reducible refine fst_ite_keeps (fun _ => ?_) (fun _ => ?_)
    | with_reducible refine snd_ite_keeps (fun _ => ?_) (fun _ => ?_)
    | with_reducible refine List.foldl_keeps ?_ (fun s x h => ?_)
    | with_reducible refine List.foldl_fst_keeps ?_ (fun s x h => ?_)
    | with_reducible refine List.foldl_snd_keeps ?_ (fun s x h => ?_)
    | intro s x h
    | simp only [Stable.mk_iff hP]
    | split
    | dsimp only

theorem State.overran_keeps (hP : Stable P) {s : State} (h : P s) : P (State.overran s) := by
  unfold State.overran
  repeat' first
    | with_reducible assumption
    | with_reducible apply State.countFld_keeps hP
    | with_reducible apply State.flag_keeps hP
    | with_reducible apply State.markHolders_keeps hP
    | with_reducible refine ite_keeps (fun _ => ?_) (fun _ => ?_)
    | with_reducible refine fst_ite_keeps (fun _ => ?_) (fun _ => ?_)
    | with_reducible refine snd_ite_keeps (fun _ => ?_) (fun _ => ?_)
    | with_reducible refine List.foldl_keeps ?_ (fun s x h => ?_)
    | with_reducible refine List.foldl_fst_keeps ?_ (fun s x h => ?_)
    | with_reducible refine List.foldl_snd_keeps ?_ (fun s x h => ?_)
    | intro s x h
    | simp only [Stable.mk_iff hP]
    | split
    | dsimp only

theorem State.nominal_keeps (hP : Lasting P) {s : State} {b : BoundaryIn} (h : P s) : P (State.nominal s b) := by
  unfold State.nominal
  repeat' first
    | with_reducible assumption
    | with_reducible apply State.progressCheck_keeps hP
    | with_reducible apply State.reachClose_keeps hP
    | with_reducible apply State.overran_keeps hP.stable
    | with_reducible refine ite_keeps (fun _ => ?_) (fun _ => ?_)
    | with_reducible refine fst_ite_keeps (fun _ => ?_) (fun _ => ?_)
    | with_reducible refine snd_ite_keeps (fun _ => ?_) (fun _ => ?_)
    | with_reducible refine List.foldl_keeps ?_ (fun s x h => ?_)
    | with_reducible refine List.foldl_fst_keeps ?_ (fun s x h => ?_)
    | with_reducible refine List.foldl_snd_keeps ?_ (fun s x h => ?_)
    | intro s x h
    | simp only [Stable.mk_iff hP.stable]
    | split
    | dsimp only

theorem execNominalClose_keeps (hP : Lasting P) {b : BoundaryIn} {s : State} (h : P s) : OutP P (execNominalClose b s) := by
  unfold execNominalClose
  repeat' first
    | with_reducible assumption
    | with_reducible apply State.nominal_keeps hP
    | with_reducible refine ite_keeps (fun _ => ?_) (fun _ => ?_)
    | with_reducible apply OutP.next
    | with_reducible refine OutP.ite (fun _ => ?_) (fun _ => ?_)
    | with_reducible refine fst_ite_keeps (fun _ => ?_) (fun _ => ?_)
    | with_reducible refine snd_ite_keeps (fun _ => ?_) (fun _ => ?_)
    | with_reducible refine List.foldl_keeps ?_ (fun s x h => ?_)
    | with_reducible refine List.foldl_fst_keeps ?_ (fun s x h => ?_)
    | with_reducible refine List.foldl_snd_keeps ?_ (fun s x h => ?_)
    | intro s x h
    | simp only [Stable.mk_iff hP.stable]
    | split
    | dsimp only

theorem execTickDrained_keeps (hP : Lasting P) {b : BoundaryIn} {s : State} (h : P s) : OutP P (execTickDrained b s) := by
  unfold execTickDrained
  repeat' first
    | with_reducible assumption
    | with_reducible apply State.reachClose_keeps hP
    | with_reducible refine ite_keeps (fun _ => ?_) (fun _ => ?_)
    | with_reducible apply OutP.next
    | with_reducible refine OutP.ite (fun _ => ?_) (fun _ => ?_)
    | with_reducible refine fst_ite_keeps (fun _ => ?_) (fun _ => ?_)
    | with_reducible refine snd_ite_keeps (fun _ => ?_) (fun _ => ?_)
    | with_reducible refine List.foldl_keeps ?_ (fun s x h => ?_)
    | with_reducible refine List.foldl_fst_keeps ?_ (fun s x h => ?_)
    | with_reducible refine List.foldl_snd_keeps ?_ (fun s x h => ?_)
    | intro s x h
    | simp only [Stable.mk_iff hP.stable]
    | split
    | dsimp only

theorem execTickOpen_keeps (hP : Stable P) {s : State} (h : P s) : OutP P (execTickOpen s) := by
  unfold execTickOpen
  repeat' first
    | with_reducible assumption
    | with_reducible apply State.step8Stopped_keeps hP
    | with_reducible apply State.step8_keeps hP
    | with_reducible refine ite_keeps (fun _ => ?_) (fun _ => ?_)
    | with_reducible apply OutP.next
    | with_reducible refine OutP.ite (fun _ => ?_) (fun _ => ?_)
    | with_reducible refine fst_ite_keeps (fun _ => ?_) (fun _ => ?_)
    | with_reducible refine snd_ite_keeps (fun _ => ?_) (fun _ => ?_)
    | with_reducible refine List.foldl_keeps ?_ (fun s x h => ?_)
    | with_reducible refine List.foldl_fst_keeps ?_ (fun s x h => ?_)
    | with_reducible refine List.foldl_snd_keeps ?_ (fun s x h => ?_)
    | intro s x h
    | simp only [Stable.mk_iff hP]
    | split
    | dsimp only

theorem execTickSyncInEdge_keeps (hP : Lasting P) {sinceUs : ℕ} {b : BoundaryIn} {s : State} (h : P s) :
    OutP P (execTickSyncInEdge sinceUs b s) := by
  unfold execTickSyncInEdge
  repeat' first
    | with_reducible assumption
    | with_reducible apply State.countFld_keeps hP.stable
    | with_reducible apply State.overrunEvents_keeps hP.stable
    | with_reducible apply State.overran_keeps hP.stable
    | with_reducible apply State.nominal_keeps hP
    | with_reducible refine ite_keeps (fun _ => ?_) (fun _ => ?_)
    | with_reducible apply OutP.next
    | with_reducible refine OutP.ite (fun _ => ?_) (fun _ => ?_)
    | with_reducible refine fst_ite_keeps (fun _ => ?_) (fun _ => ?_)
    | with_reducible refine snd_ite_keeps (fun _ => ?_) (fun _ => ?_)
    | with_reducible refine List.foldl_keeps ?_ (fun s x h => ?_)
    | with_reducible refine List.foldl_fst_keeps ?_ (fun s x h => ?_)
    | with_reducible refine List.foldl_snd_keeps ?_ (fun s x h => ?_)
    | intro s x h
    | simp only [Stable.mk_iff hP.stable]
    | split
    | dsimp only

theorem execBarrierArrive_keeps (hP : Stable P) {n : PortId} {hdr : BitVec 256} {s : State} (h : P s) :
    OutP P (execBarrierArrive n hdr s) := by
  unfold execBarrierArrive
  repeat' first
    | with_reducible assumption
    | with_reducible apply State.freeFlits_keeps hP
    | with_reducible apply State.forward_keeps hP
    | with_reducible apply State.rootReleases_keeps hP
    | with_reducible refine ite_keeps (fun _ => ?_) (fun _ => ?_)
    | with_reducible apply OutP.next
    | with_reducible refine OutP.ite (fun _ => ?_) (fun _ => ?_)
    | with_reducible refine fst_ite_keeps (fun _ => ?_) (fun _ => ?_)
    | with_reducible refine snd_ite_keeps (fun _ => ?_) (fun _ => ?_)
    | with_reducible refine List.foldl_keeps ?_ (fun s x h => ?_)
    | with_reducible refine List.foldl_fst_keeps ?_ (fun s x h => ?_)
    | with_reducible refine List.foldl_snd_keeps ?_ (fun s x h => ?_)
    | intro s x h
    | simp only [Stable.mk_iff hP]
    | split
    | dsimp only

theorem execBarrierRelease_keeps (hP : Stable P) {m : PortId × BitVec 256} {s : State} (h : P s) : OutP P (execBarrierRelease m s) := by
  unfold execBarrierRelease
  repeat' first
    | with_reducible assumption
    | with_reducible apply State.freeFlits_keeps hP
    | with_reducible apply State.forward_keeps hP
    | with_reducible apply State.released_keeps hP
    | with_reducible refine ite_keeps (fun _ => ?_) (fun _ => ?_)
    | with_reducible apply OutP.next
    | with_reducible refine OutP.ite (fun _ => ?_) (fun _ => ?_)
    | with_reducible refine fst_ite_keeps (fun _ => ?_) (fun _ => ?_)
    | with_reducible refine snd_ite_keeps (fun _ => ?_) (fun _ => ?_)
    | with_reducible refine List.foldl_keeps ?_ (fun s x h => ?_)
    | with_reducible refine List.foldl_fst_keeps ?_ (fun s x h => ?_)
    | with_reducible refine List.foldl_snd_keeps ?_ (fun s x h => ?_)
    | intro s x h
    | simp only [Stable.mk_iff hP]
    | split
    | dsimp only

theorem execBarrierCompensatedStart_keeps (hP : Lasting P) {b : BoundaryIn} {s : State} (h : P s) :
    OutP P (execBarrierCompensatedStart b s) := by
  unfold execBarrierCompensatedStart
  repeat' first
    | with_reducible assumption
    | with_reducible apply State.boundary_keeps hP
    | with_reducible refine ite_keeps (fun _ => ?_) (fun _ => ?_)
    | with_reducible apply OutP.next
    | with_reducible refine OutP.ite (fun _ => ?_) (fun _ => ?_)
    | with_reducible refine fst_ite_keeps (fun _ => ?_) (fun _ => ?_)
    | with_reducible refine snd_ite_keeps (fun _ => ?_) (fun _ => ?_)
    | with_reducible refine List.foldl_keeps ?_ (fun s x h => ?_)
    | with_reducible refine List.foldl_fst_keeps ?_ (fun s x h => ?_)
    | with_reducible refine List.foldl_snd_keeps ?_ (fun s x h => ?_)
    | intro s x h
    | simp only [Stable.mk_iff hP.stable]
    | split
    | dsimp only

theorem execBarrierTimeout_keeps (hP : Lasting P) {b : BoundaryIn} {s : State} (h : P s) : OutP P (execBarrierTimeout b s) := by
  unfold execBarrierTimeout
  repeat' first
    | with_reducible assumption
    | with_reducible apply State.flag_keeps hP.stable
    | with_reducible apply State.each_keeps hP.stable
    | with_reducible apply State.cutContext_keeps hP.stable
    | with_reducible apply State.boundary_keeps hP
    | with_reducible refine ite_keeps (fun _ => ?_) (fun _ => ?_)
    | with_reducible apply OutP.next
    | with_reducible refine OutP.ite (fun _ => ?_) (fun _ => ?_)
    | with_reducible refine fst_ite_keeps (fun _ => ?_) (fun _ => ?_)
    | with_reducible refine snd_ite_keeps (fun _ => ?_) (fun _ => ?_)
    | with_reducible refine List.foldl_keeps ?_ (fun s x h => ?_)
    | with_reducible refine List.foldl_fst_keeps ?_ (fun s x h => ?_)
    | with_reducible refine List.foldl_snd_keeps ?_ (fun s x h => ?_)
    | intro s x h
    | simp only [Stable.mk_iff hP.stable]
    | split
    | dsimp only

theorem State.leaveIdle_keeps (hP : Stable P) {s : State} (h : P s) : P (State.leaveIdle s) := by
  unfold State.leaveIdle
  repeat' first
    | with_reducible assumption
    | with_reducible apply State.each_keeps hP
    | with_reducible apply State.setPstate_keeps hP
    | with_reducible refine ite_keeps (fun _ => ?_) (fun _ => ?_)
    | with_reducible refine fst_ite_keeps (fun _ => ?_) (fun _ => ?_)
    | with_reducible refine snd_ite_keeps (fun _ => ?_) (fun _ => ?_)
    | with_reducible refine List.foldl_keeps ?_ (fun s x h => ?_)
    | with_reducible refine List.foldl_fst_keeps ?_ (fun s x h => ?_)
    | with_reducible refine List.foldl_snd_keeps ?_ (fun s x h => ?_)
    | intro s x h
    | simp only [Stable.mk_iff hP]
    | split
    | dsimp only

theorem State.lateStep8_keeps (hP : Stable P) {s : State} (h : P s) : P (State.lateStep8 s) := by
  unfold State.lateStep8
  repeat' first
    | with_reducible assumption
    | with_reducible apply State.step8Stopped_keeps hP
    | with_reducible refine ite_keeps (fun _ => ?_) (fun _ => ?_)
    | with_reducible refine fst_ite_keeps (fun _ => ?_) (fun _ => ?_)
    | with_reducible refine snd_ite_keeps (fun _ => ?_) (fun _ => ?_)
    | with_reducible refine List.foldl_keeps ?_ (fun s x h => ?_)
    | with_reducible refine List.foldl_fst_keeps ?_ (fun s x h => ?_)
    | with_reducible refine List.foldl_snd_keeps ?_ (fun s x h => ?_)
    | intro s x h
    | simp only [Stable.mk_iff hP]
    | split
    | dsimp only

theorem State.startTick_keeps (hP : Lasting P) {s : State} {b : BoundaryIn} (h : P s) : P (State.startTick s b) := by
  unfold State.startTick
  repeat' first
    | with_reducible assumption
    | with_reducible apply State.step8_keeps hP.stable
    | with_reducible apply State.boundary_keeps hP
    | with_reducible apply State.setGenState_keeps hP.stable
    | with_reducible apply State.leaveIdle_keeps hP.stable
    | with_reducible apply State.lateStep8_keeps hP.stable
    | with_reducible refine ite_keeps (fun _ => ?_) (fun _ => ?_)
    | with_reducible refine fst_ite_keeps (fun _ => ?_) (fun _ => ?_)
    | with_reducible refine snd_ite_keeps (fun _ => ?_) (fun _ => ?_)
    | with_reducible refine List.foldl_keeps ?_ (fun s x h => ?_)
    | with_reducible refine List.foldl_fst_keeps ?_ (fun s x h => ?_)
    | with_reducible refine List.foldl_snd_keeps ?_ (fun s x h => ?_)
    | intro s x h
    | simp only [Stable.mk_iff hP.stable]
    | split
    | dsimp only

theorem State.resumeModule_keeps (hP : Lasting P) {s : State} {b : BoundaryIn} (h : P s) : P (State.resumeModule s b) := by
  unfold State.resumeModule
  repeat' first
    | with_reducible assumption
    | with_reducible apply State.resumeRequest_keeps hP.stable
    | with_reducible apply State.startTick_keeps hP
    | with_reducible refine ite_keeps (fun _ => ?_) (fun _ => ?_)
    | with_reducible refine fst_ite_keeps (fun _ => ?_) (fun _ => ?_)
    | with_reducible refine snd_ite_keeps (fun _ => ?_) (fun _ => ?_)
    | with_reducible refine List.foldl_keeps ?_ (fun s x h => ?_)
    | with_reducible refine List.foldl_fst_keeps ?_ (fun s x h => ?_)
    | with_reducible refine List.foldl_snd_keeps ?_ (fun s x h => ?_)
    | intro s x h
    | simp only [Stable.mk_iff hP.stable]
    | split
    | dsimp only

theorem execResumeModule_keeps (hP : Lasting P) {b : BoundaryIn} {s : State} (h : P s) : OutP P (execResumeModule b s) := by
  unfold execResumeModule
  repeat' first
    | with_reducible assumption
    | with_reducible apply State.resumeModule_keeps hP
    | with_reducible refine ite_keeps (fun _ => ?_) (fun _ => ?_)
    | with_reducible apply OutP.next
    | with_reducible refine OutP.ite (fun _ => ?_) (fun _ => ?_)
    | with_reducible refine fst_ite_keeps (fun _ => ?_) (fun _ => ?_)
    | with_reducible refine snd_ite_keeps (fun _ => ?_) (fun _ => ?_)
    | with_reducible refine List.foldl_keeps ?_ (fun s x h => ?_)
    | with_reducible refine List.foldl_fst_keeps ?_ (fun s x h => ?_)
    | with_reducible refine List.foldl_snd_keeps ?_ (fun s x h => ?_)
    | intro s x h
    | simp only [Stable.mk_iff hP.stable]
    | split
    | dsimp only

theorem State.genStart_keeps (hP : Lasting P) {s : State} {b : BoundaryIn} (h : P s) : P (State.genStart s b) := by
  unfold State.genStart
  repeat' first
    | with_reducible assumption
    | with_reducible apply State.startTick_keeps hP
    | with_reducible apply State.step8Stopped_keeps hP.stable
    | with_reducible apply State.boundary_keeps hP
    | with_reducible apply State.lateStep8_keeps hP.stable
    | with_reducible apply State.pushReq_keeps hP.stable
    | with_reducible refine ite_keeps (fun _ => ?_) (fun _ => ?_)
    | with_reducible refine fst_ite_keeps (fun _ => ?_) (fun _ => ?_)
    | with_reducible refine snd_ite_keeps (fun _ => ?_) (fun _ => ?_)
    | with_reducible refine List.foldl_keeps ?_ (fun s x h => ?_)
    | with_reducible refine List.foldl_fst_keeps ?_ (fun s x h => ?_)
    | with_reducible refine List.foldl_snd_keeps ?_ (fun s x h => ?_)
    | intro s x h
    | simp only [Stable.mk_iff hP.stable]
    | split
    | dsimp only

theorem State.genOn_keeps (hP : Lasting P) {s : State} {b : BoundaryIn} (h : P s) : P (State.genOn s b) := by
  unfold State.genOn
  repeat' first
    | with_reducible assumption
    | with_reducible apply State.genStart_keeps hP
    | with_reducible apply State.setFld_keeps hP.stable
    | with_reducible refine ite_keeps (fun _ => ?_) (fun _ => ?_)
    | with_reducible refine fst_ite_keeps (fun _ => ?_) (fun _ => ?_)
    | with_reducible refine snd_ite_keeps (fun _ => ?_) (fun _ => ?_)
    | with_reducible refine List.foldl_keeps ?_ (fun s x h => ?_)
    | with_reducible refine List.foldl_fst_keeps ?_ (fun s x h => ?_)
    | with_reducible refine List.foldl_snd_keeps ?_ (fun s x h => ?_)
    | intro s x h
    | simp only [Stable.mk_iff hP.stable]
    | split
    | dsimp only

theorem execTickGenEnable_keeps (hP : Lasting P) {value : Word} {b : BoundaryIn} {s : State} (h : P s) :
    OutP P (execTickGenEnable value b s) := by
  unfold execTickGenEnable
  repeat' first
    | with_reducible assumption
    | with_reducible apply State.genOn_keeps hP
    | with_reducible apply State.writeBits_keeps hP.stable
    | with_reducible refine ite_keeps (fun _ => ?_) (fun _ => ?_)
    | with_reducible apply OutP.next
    | with_reducible refine OutP.ite (fun _ => ?_) (fun _ => ?_)
    | with_reducible refine fst_ite_keeps (fun _ => ?_) (fun _ => ?_)
    | with_reducible refine snd_ite_keeps (fun _ => ?_) (fun _ => ?_)
    | with_reducible refine List.foldl_keeps ?_ (fun s x h => ?_)
    | with_reducible refine List.foldl_fst_keeps ?_ (fun s x h => ?_)
    | with_reducible refine List.foldl_snd_keeps ?_ (fun s x h => ?_)
    | intro s x h
    | simp only [Stable.mk_iff hP.stable]
    | split
    | dsimp only

theorem State.readBuf_keeps (hP : Stable P) {s : State} {p : ℕ} {o : HObj} {off : ℕ} {n : ℕ} {dst : HObj} {doff : ℕ} {e : Ecc} (h : P s) :
    P (State.readBuf s p o off n dst doff e).1 := by
  unfold State.readBuf
  repeat' first
    | with_reducible assumption
    | with_reducible apply State.bufRead_keeps hP
    | with_reducible apply State.portLines_keeps hP
    | with_reducible refine ite_keeps (fun _ => ?_) (fun _ => ?_)
    | with_reducible refine fst_ite_keeps (fun _ => ?_) (fun _ => ?_)
    | with_reducible refine snd_ite_keeps (fun _ => ?_) (fun _ => ?_)
    | with_reducible refine List.foldl_keeps ?_ (fun s x h => ?_)
    | with_reducible refine List.foldl_fst_keeps ?_ (fun s x h => ?_)
    | with_reducible refine List.foldl_snd_keeps ?_ (fun s x h => ?_)
    | intro s x h
    | simp only [Stable.mk_iff hP]
    | split
    | dsimp only

theorem State.bgDone_keeps (hP : Stable P) {s : State} {id : ℕ} {status : ℕ} {data : List Byte} (h : P s) :
    P (State.bgDone s id status data) := by
  unfold State.bgDone
  repeat' first
    | with_reducible assumption
    | with_reducible refine ite_keeps (fun _ => ?_) (fun _ => ?_)
    | with_reducible refine fst_ite_keeps (fun _ => ?_) (fun _ => ?_)
    | with_reducible refine snd_ite_keeps (fun _ => ?_) (fun _ => ?_)
    | with_reducible refine List.foldl_keeps ?_ (fun s x h => ?_)
    | with_reducible refine List.foldl_fst_keeps ?_ (fun s x h => ?_)
    | with_reducible refine List.foldl_snd_keeps ?_ (fun s x h => ?_)
    | intro s x h
    | simp only [Stable.mk_iff hP]
    | split
    | dsimp only

theorem State.remapErr_keeps (hP : Stable P) {s : State} {t : ℕ} {r : Remap} {e : Ecc} (h : P s) : P (State.remapErr s t r e) := by
  unfold State.remapErr
  repeat' first
    | with_reducible assumption
    | with_reducible apply State.lineCor_keeps hP
    | with_reducible apply State.lineUnc_keeps hP
    | with_reducible apply State.lineTag_keeps hP
    | with_reducible refine ite_keeps (fun _ => ?_) (fun _ => ?_)
    | with_reducible refine fst_ite_keeps (fun _ => ?_) (fun _ => ?_)
    | with_reducible refine snd_ite_keeps (fun _ => ?_) (fun _ => ?_)
    | with_reducible refine List.foldl_keeps ?_ (fun s x h => ?_)
    | with_reducible refine List.foldl_fst_keeps ?_ (fun s x h => ?_)
    | with_reducible refine List.foldl_snd_keeps ?_ (fun s x h => ?_)
    | intro s x h
    | simp only [Stable.mk_iff hP]
    | split
    | dsimp only

theorem State.remapCharge_keeps (hP : Stable P) {s : State} {t : ℕ} {r : Remap} (h : P s) : P (State.remapCharge s t r) := by
  unfold State.remapCharge
  repeat' first
    | with_reducible assumption
    | with_reducible apply State.chargePart_keeps hP
    | with_reducible refine ite_keeps (fun _ => ?_) (fun _ => ?_)
    | with_reducible refine fst_ite_keeps (fun _ => ?_) (fun _ => ?_)
    | with_reducible refine snd_ite_keeps (fun _ => ?_) (fun _ => ?_)
    | with_reducible refine List.foldl_keeps ?_ (fun s x h => ?_)
    | with_reducible refine List.foldl_fst_keeps ?_ (fun s x h => ?_)
    | with_reducible refine List.foldl_snd_keeps ?_ (fun s x h => ?_)
    | intro s x h
    | simp only [Stable.mk_iff hP]
    | split
    | dsimp only

theorem State.bgComplete_keeps (hP : Stable P) {s : State} {b : BgOp} {data : List Byte} {e : Ecc} (h : P s) :
    P (State.bgComplete s b data e) := by
  unfold State.bgComplete
  repeat' first
    | with_reducible assumption
    | with_reducible apply State.bgDone_keeps hP
    | with_reducible apply State.chargePart_keeps hP
    | with_reducible apply State.readBuf_keeps hP
    | with_reducible apply State.waitsAt_keeps hP
    | with_reducible apply State.gatherPages_keeps hP
    | with_reducible apply State.charge_keeps hP
    | with_reducible apply State.writeSwap_keeps hP
    | with_reducible apply State.contain_keeps hP
    | with_reducible apply State.endBg_keeps hP
    | with_reducible apply State.setStream_keeps hP
    | with_reducible apply State.remapCharge_keeps hP
    | with_reducible apply State.remapErr_keeps hP
    | with_reducible apply State.setStk_keeps hP
    | with_reducible refine ite_keeps (fun _ => ?_) (fun _ => ?_)
    | with_reducible refine fst_ite_keeps (fun _ => ?_) (fun _ => ?_)
    | with_reducible refine snd_ite_keeps (fun _ => ?_) (fun _ => ?_)
    | with_reducible refine List.foldl_keeps ?_ (fun s x h => ?_)
    | with_reducible refine List.foldl_fst_keeps ?_ (fun s x h => ?_)
    | with_reducible refine List.foldl_snd_keeps ?_ (fun s x h => ?_)
    | intro s x h
    | simp only [Stable.mk_iff hP]
    | split
    | dsimp only

theorem execBackgroundOpComplete_keeps (hP : Stable P) {id : ℕ} {data : List Byte} {err : PhysErr} {s : State} (h : P s) :
    OutP P (execBackgroundOpComplete id data err s) := by
  unfold execBackgroundOpComplete
  repeat' first
    | with_reducible assumption
    | with_reducible apply State.bgComplete_keeps hP
    | with_reducible refine ite_keeps (fun _ => ?_) (fun _ => ?_)
    | with_reducible apply OutP.next
    | with_reducible refine OutP.ite (fun _ => ?_) (fun _ => ?_)
    | with_reducible refine fst_ite_keeps (fun _ => ?_) (fun _ => ?_)
    | with_reducible refine snd_ite_keeps (fun _ => ?_) (fun _ => ?_)
    | with_reducible refine List.foldl_keeps ?_ (fun s x h => ?_)
    | with_reducible refine List.foldl_fst_keeps ?_ (fun s x h => ?_)
    | with_reducible refine List.foldl_snd_keeps ?_ (fun s x h => ?_)
    | intro s x h
    | simp only [Stable.mk_iff hP]
    | split
    | dsimp only

end Sys2Proof.Machine
end

