-- ==== Sys2Proof/Laws/KeepOnlan.lean ====
section
/-! SUPPORT. What the definitions of Machine/Onlan.lean keep. -/

set_option linter.unusedTactic false
set_option linter.unreachableTactic false

namespace Sys2Proof.Machine

variable {P : State → Prop}

theorem State.portDown_keeps (hP : Stable P) {s : State} {n : ℕ} {st : ℕ} (h : P s) : P (State.portDown s n st) := by
  unfold State.portDown
  repeat' first
    | with_reducible assumption
    | with_reducible apply State.setPort_keeps hP
    | with_reducible apply State.sendFabric_keeps hP
    | with_reducible apply State.pumpSends_keeps hP
    | with_reducible apply State.onMirror_keeps hP
    | with_reducible refine ite_keeps (fun _ => ?_) (fun _ => ?_)
    | with_reducible refine fst_ite_keeps (fun _ => ?_) (fun _ => ?_)
    | with_reducible refine snd_ite_keeps (fun _ => ?_) (fun _ => ?_)
    | with_reducible refine List.foldl_keeps ?_ (fun s x h => ?_)
    | with_reducible refine List.foldl_fst_keeps ?_ (fun s x h => ?_)
    | with_reducible refine List.foldl_snd_keeps ?_ (fun s x h => ?_)
    | intro s x h
    | simp only [Stable.mk_iff hP]
    | split
    | dsimp only

theorem State.retrain_keeps (hP : Stable P) {s : State} {n : ℕ} (h : P s) : P (State.retrain s n) := by
  unfold State.retrain
  repeat' first
    | with_reducible assumption
    | with_reducible apply State.portDown_keeps hP
    | with_reducible apply State.setPort_keeps hP
    | with_reducible refine ite_keeps (fun _ => ?_) (fun _ => ?_)
    | with_reducible refine fst_ite_keeps (fun _ => ?_) (fun _ => ?_)
    | with_reducible refine snd_ite_keeps (fun _ => ?_) (fun _ => ?_)
    | with_reducible refine List.foldl_keeps ?_ (fun s x h => ?_)
    | with_reducible refine List.foldl_fst_keeps ?_ (fun s x h => ?_)
    | with_reducible refine List.foldl_snd_keeps ?_ (fun s x h => ?_)
    | intro s x h
    | simp only [Stable.mk_iff hP]
    | split
    | dsimp only

theorem State.portEnable_keeps (hP : Stable P) {s : State} {n : ℕ} (h : P s) : P (State.portEnable s n) := by
  unfold State.portEnable
  repeat' first
    | with_reducible assumption
    | with_reducible apply State.setPort_keeps hP
    | with_reducible apply State.setFld_keeps hP
    | with_reducible refine ite_keeps (fun _ => ?_) (fun _ => ?_)
    | with_reducible refine fst_ite_keeps (fun _ => ?_) (fun _ => ?_)
    | with_reducible refine snd_ite_keeps (fun _ => ?_) (fun _ => ?_)
    | with_reducible refine List.foldl_keeps ?_ (fun s x h => ?_)
    | with_reducible refine List.foldl_fst_keeps ?_ (fun s x h => ?_)
    | with_reducible refine List.foldl_snd_keeps ?_ (fun s x h => ?_)
    | intro s x h
    | simp only [Stable.mk_iff hP]
    | split
    | dsimp only

theorem State.portDisable_keeps (hP : Stable P) {s : State} {n : ℕ} (h : P s) : P (State.portDisable s n) := by
  unfold State.portDisable
  repeat' first
    | with_reducible assumption
    | with_reducible apply State.portDown_keeps hP
    | with_reducible apply State.setFld_keeps hP
    | with_reducible refine ite_keeps (fun _ => ?_) (fun _ => ?_)
    | with_reducible refine fst_ite_keeps (fun _ => ?_) (fun _ => ?_)
    | with_reducible refine snd_ite_keeps (fun _ => ?_) (fun _ => ?_)
    | with_reducible refine List.foldl_keeps ?_ (fun s x h => ?_)
    | with_reducible refine List.foldl_fst_keeps ?_ (fun s x h => ?_)
    | with_reducible refine List.foldl_snd_keeps ?_ (fun s x h => ?_)
    | intro s x h
    | simp only [Stable.mk_iff hP]
    | split
    | dsimp only

theorem execOnlPortEnable_keeps (hP : Stable P) {n : PortId} {s : State} (h : P s) : OutP P (execOnlPortEnable n s) := by
  unfold execOnlPortEnable
  repeat' first
    | with_reducible assumption
    | with_reducible apply State.portEnable_keeps hP
    | with_reducible refine ite_keeps (fun _ => ?_) (fun _ => ?_)
    | with_reducible apply OutP.next
    | with_reducible refine OutP.ite (fun _ => ?_) (fun _ => ?_)
    | with_reducible refine fst_ite_keeps (fun _ => ?_) (fun _ => ?_)
    | with_reducible refine snd_ite_keeps (fun _ => ?_) (fun _ => ?_)
    | with_reducible refine List.foldl_keeps ?_ (fun s x h => ?_)
    | with_reducible refine List.foldl_fst_keeps ?_ (fun s x h => ?_)
    | with_reducible refine List.foldl_snd_keeps ?_ (fun s x h => ?_)
    | intro s x h
    | simp only [Stable.mk_iff hP]
    | split
    | dsimp only

theorem execOnlPortDisable_keeps (hP : Stable P) {n : PortId} {s : State} (h : P s) : OutP P (execOnlPortDisable n s) := by
  unfold execOnlPortDisable
  repeat' first
    | with_reducible assumption
    | with_reducible apply State.portDisable_keeps hP
    | with_reducible refine ite_keeps (fun _ => ?_) (fun _ => ?_)
    | with_reducible apply OutP.next
    | with_reducible refine OutP.ite (fun _ => ?_) (fun _ => ?_)
    | with_reducible refine fst_ite_keeps (fun _ => ?_) (fun _ => ?_)
    | with_reducible refine snd_ite_keeps (fun _ => ?_) (fun _ => ?_)
    | with_reducible refine List.foldl_keeps ?_ (fun s x h => ?_)
    | with_reducible refine List.foldl_fst_keeps ?_ (fun s x h => ?_)
    | with_reducible refine List.foldl_snd_keeps ?_ (fun s x h => ?_)
    | intro s x h
    | simp only [Stable.mk_iff hP]
    | split
    | dsimp only

theorem State.wiringRec_keeps (hP : Stable P) {s : State} {n : ℕ} (h : P s) : P (State.wiringRec s n) := by
  unfold State.wiringRec
  repeat' first
    | with_reducible assumption
    | with_reducible apply State.emit_keeps hP
    | with_reducible refine ite_keeps (fun _ => ?_) (fun _ => ?_)
    | with_reducible refine fst_ite_keeps (fun _ => ?_) (fun _ => ?_)
    | with_reducible refine snd_ite_keeps (fun _ => ?_) (fun _ => ?_)
    | with_reducible refine List.foldl_keeps ?_ (fun s x h => ?_)
    | with_reducible refine List.foldl_fst_keeps ?_ (fun s x h => ?_)
    | with_reducible refine List.foldl_snd_keeps ?_ (fun s x h => ?_)
    | intro s x h
    | simp only [Stable.mk_iff hP]
    | split
    | dsimp only

theorem State.portActive_keeps (hP : Stable P) {s : State} {n : ℕ} {r : TrainObs} {cause : ℕ} (h : P s) :
    P (State.portActive s n r cause) := by
  unfold State.portActive
  repeat' first
    | with_reducible assumption
    | with_reducible apply State.setPort_keeps hP
    | with_reducible apply State.wiringRec_keeps hP
    | with_reducible apply State.mirReturns_keeps hP
    | with_reducible apply State.formPair_keeps hP
    | with_reducible apply State.routeReturns_keeps hP
    | with_reducible refine ite_keeps (fun _ => ?_) (fun _ => ?_)
    | with_reducible refine fst_ite_keeps (fun _ => ?_) (fun _ => ?_)
    | with_reducible refine snd_ite_keeps (fun _ => ?_) (fun _ => ?_)
    | with_reducible refine List.foldl_keeps ?_ (fun s x h => ?_)
    | with_reducible refine List.foldl_fst_keeps ?_ (fun s x h => ?_)
    | with_reducible refine List.foldl_snd_keeps ?_ (fun s x h => ?_)
    | intro s x h
    | simp only [Stable.mk_iff hP]
    | split
    | dsimp only

theorem State.portFails_keeps (hP : Stable P) {s : State} {n : ℕ} {r : TrainObs} {cause : ℕ} (h : P s) : P (State.portFails s n r cause) := by
  unfold State.portFails
  repeat' first
    | with_reducible assumption
    | with_reducible apply State.wiringRec_keeps hP
    | with_reducible apply State.setPort_keeps hP
    | with_reducible refine ite_keeps (fun _ => ?_) (fun _ => ?_)
    | with_reducible refine fst_ite_keeps (fun _ => ?_) (fun _ => ?_)
    | with_reducible refine snd_ite_keeps (fun _ => ?_) (fun _ => ?_)
    | with_reducible refine List.foldl_keeps ?_ (fun s x h => ?_)
    | with_reducible refine List.foldl_fst_keeps ?_ (fun s x h => ?_)
    | with_reducible refine List.foldl_snd_keeps ?_ (fun s x h => ?_)
    | intro s x h
    | simp only [Stable.mk_iff hP]
    | split
    | dsimp only

theorem execPortTrainingComplete_keeps (hP : Stable P) {n : PortId} {r : TrainObs} {s : State} (h : P s) :
    OutP P (execPortTrainingComplete n r s) := by
  unfold execPortTrainingComplete
  repeat' first
    | with_reducible assumption
    | with_reducible apply State.portFails_keeps hP
    | with_reducible apply State.portActive_keeps hP
    | with_reducible refine ite_keeps (fun _ => ?_) (fun _ => ?_)
    | with_reducible apply OutP.next
    | with_reducible refine OutP.ite (fun _ => ?_) (fun _ => ?_)
    | with_reducible refine fst_ite_keeps (fun _ => ?_) (fun _ => ?_)
    | with_reducible refine snd_ite_keeps (fun _ => ?_) (fun _ => ?_)
    | with_reducible refine List.foldl_keeps ?_ (fun s x h => ?_)
    | with_reducible refine List.foldl_fst_keeps ?_ (fun s x h => ?_)
    | with_reducible refine List.foldl_snd_keeps ?_ (fun s x h => ?_)
    | intro s x h
    | simp only [Stable.mk_iff hP]
    | split
    | dsimp only

theorem execOnlRetrain_keeps (hP : Stable P) {n : PortId} {s : State} (h : P s) : OutP P (execOnlRetrain n s) := by
  unfold execOnlRetrain
  repeat' first
    | with_reducible assumption
    | with_reducible apply State.retrain_keeps hP
    | with_reducible refine ite_keeps (fun _ => ?_) (fun _ => ?_)
    | with_reducible apply OutP.next
    | with_reducible refine OutP.ite (fun _ => ?_) (fun _ => ?_)
    | with_reducible refine fst_ite_keeps (fun _ => ?_) (fun _ => ?_)
    | with_reducible refine snd_ite_keeps (fun _ => ?_) (fun _ => ?_)
    | with_reducible refine List.foldl_keeps ?_ (fun s x h => ?_)
    | with_reducible refine List.foldl_fst_keeps ?_ (fun s x h => ?_)
    | with_reducible refine List.foldl_snd_keeps ?_ (fun s x h => ?_)
    | intro s x h
    | simp only [Stable.mk_iff hP]
    | split
    | dsimp only

theorem execFecLockLoss_keeps (hP : Stable P) {n : PortId} {lane : Fin 8} {s : State} (h : P s) : OutP P (execFecLockLoss n lane s) := by
  unfold execFecLockLoss
  repeat' first
    | with_reducible assumption
    | with_reducible apply State.retrain_keeps hP
    | with_reducible refine ite_keeps (fun _ => ?_) (fun _ => ?_)
    | with_reducible apply OutP.next
    | with_reducible refine OutP.ite (fun _ => ?_) (fun _ => ?_)
    | with_reducible refine fst_ite_keeps (fun _ => ?_) (fun _ => ?_)
    | with_reducible refine snd_ite_keeps (fun _ => ?_) (fun _ => ?_)
    | with_reducible refine List.foldl_keeps ?_ (fun s x h => ?_)
    | with_reducible refine List.foldl_fst_keeps ?_ (fun s x h => ?_)
    | with_reducible refine List.foldl_snd_keeps ?_ (fun s x h => ?_)
    | intro s x h
    | simp only [Stable.mk_iff hP]
    | split
    | dsimp only

theorem State.replayed_keeps (hP : Stable P) {s : State} {n : ℕ} {k : PortSt} (h : P s) : P (State.replayed s n k) := by
  unfold State.replayed
  repeat' first
    | with_reducible assumption
    | with_reducible apply State.setPort_keeps hP
    | with_reducible apply State.retrain_keeps hP
    | with_reducible refine ite_keeps (fun _ => ?_) (fun _ => ?_)
    | with_reducible refine fst_ite_keeps (fun _ => ?_) (fun _ => ?_)
    | with_reducible refine snd_ite_keeps (fun _ => ?_) (fun _ => ?_)
    | with_reducible refine List.foldl_keeps ?_ (fun s x h => ?_)
    | with_reducible refine List.foldl_fst_keeps ?_ (fun s x h => ?_)
    | with_reducible refine List.foldl_snd_keeps ?_ (fun s x h => ?_)
    | intro s x h
    | simp only [Stable.mk_iff hP]
    | split
    | dsimp only

theorem State.mirrorDrained_keeps (hP : Stable P) {s : State} (h : P s) : P (State.mirrorDrained s) := by
  unfold State.mirrorDrained
  repeat' first
    | with_reducible assumption
    | with_reducible refine ite_keeps (fun _ => ?_) (fun _ => ?_)
    | with_reducible refine fst_ite_keeps (fun _ => ?_) (fun _ => ?_)
    | with_reducible refine snd_ite_keeps (fun _ => ?_) (fun _ => ?_)
    | with_reducible refine List.foldl_keeps ?_ (fun s x h => ?_)
    | with_reducible refine List.foldl_fst_keeps ?_ (fun s x h => ?_)
    | with_reducible refine List.foldl_snd_keeps ?_ (fun s x h => ?_)
    | intro s x h
    | simp only [Stable.mk_iff hP]
    | split
    | dsimp only

theorem execLinkNak_keeps (hP : Stable P) {n : PortId} {ackSeq : BitVec 12} {s : State} (h : P s) : OutP P (execLinkNak n ackSeq s) := by
  unfold execLinkNak
  repeat' first
    | with_reducible assumption
    | with_reducible apply State.mirrorDrained_keeps hP
    | with_reducible apply State.setPort_keeps hP
    | with_reducible apply State.replayed_keeps hP
    | with_reducible refine ite_keeps (fun _ => ?_) (fun _ => ?_)
    | with_reducible apply OutP.next
    | with_reducible refine OutP.ite (fun _ => ?_) (fun _ => ?_)
    | with_reducible refine fst_ite_keeps (fun _ => ?_) (fun _ => ?_)
    | with_reducible refine snd_ite_keeps (fun _ => ?_) (fun _ => ?_)
    | with_reducible refine List.foldl_keeps ?_ (fun s x h => ?_)
    | with_reducible refine List.foldl_fst_keeps ?_ (fun s x h => ?_)
    | with_reducible refine List.foldl_snd_keeps ?_ (fun s x h => ?_)
    | intro s x h
    | simp only [Stable.mk_iff hP]
    | split
    | dsimp only

theorem execReplayTimeout_keeps (hP : Stable P) {n : PortId} {s : State} (h : P s) : OutP P (execReplayTimeout n s) := by
  unfold execReplayTimeout
  repeat' first
    | with_reducible assumption
    | with_reducible apply State.replayed_keeps hP
    | with_reducible refine ite_keeps (fun _ => ?_) (fun _ => ?_)
    | with_reducible apply OutP.next
    | with_reducible refine OutP.ite (fun _ => ?_) (fun _ => ?_)
    | with_reducible refine fst_ite_keeps (fun _ => ?_) (fun _ => ?_)
    | with_reducible refine snd_ite_keeps (fun _ => ?_) (fun _ => ?_)
    | with_reducible refine List.foldl_keeps ?_ (fun s x h => ?_)
    | with_reducible refine List.foldl_fst_keeps ?_ (fun s x h => ?_)
    | with_reducible refine List.foldl_snd_keeps ?_ (fun s x h => ?_)
    | intro s x h
    | simp only [Stable.mk_iff hP]
    | split
    | dsimp only

theorem State.takeFlit_keeps (hP : Stable P) {s : State} {n : ℕ} {a2 : ℕ} {payload : List Byte} {crcOk : Bool} (h : P s) :
    P (State.takeFlit s n a2 payload crcOk) := by
  unfold State.takeFlit
  repeat' first
    | with_reducible assumption
    | with_reducible apply State.setPort_keeps hP
    | with_reducible apply State.replayed_keeps hP
    | with_reducible apply State.mirrorDrained_keeps hP
    | with_reducible refine ite_keeps (fun _ => ?_) (fun _ => ?_)
    | with_reducible refine fst_ite_keeps (fun _ => ?_) (fun _ => ?_)
    | with_reducible refine snd_ite_keeps (fun _ => ?_) (fun _ => ?_)
    | with_reducible refine List.foldl_keeps ?_ (fun s x h => ?_)
    | with_reducible refine List.foldl_fst_keeps ?_ (fun s x h => ?_)
    | with_reducible refine List.foldl_snd_keeps ?_ (fun s x h => ?_)
    | intro s x h
    | simp only [Stable.mk_iff hP]
    | split
    | dsimp only

theorem execSegmentTag_keeps (hP : Stable P) {n : PortId} {segment : Word} {tag : BitVec 128} {s : State} (h : P s) :
    OutP P (execSegmentTag n segment tag s) := by
  unfold execSegmentTag
  repeat' first
    | with_reducible assumption
    | with_reducible apply State.setPort_keeps hP
    | with_reducible apply State.retrain_keeps hP
    | with_reducible apply State.emit_keeps hP
    | with_reducible refine ite_keeps (fun _ => ?_) (fun _ => ?_)
    | with_reducible apply OutP.next
    | with_reducible refine OutP.ite (fun _ => ?_) (fun _ => ?_)
    | with_reducible refine fst_ite_keeps (fun _ => ?_) (fun _ => ?_)
    | with_reducible refine snd_ite_keeps (fun _ => ?_) (fun _ => ?_)
    | with_reducible refine List.foldl_keeps ?_ (fun s x h => ?_)
    | with_reducible refine List.foldl_fst_keeps ?_ (fun s x h => ?_)
    | with_reducible refine List.foldl_snd_keeps ?_ (fun s x h => ?_)
    | intro s x h
    | simp only [Stable.mk_iff hP]
    | split
    | dsimp only

theorem execSegmentIdleClose_keeps (hP : Stable P) {n : PortId} {s : State} (h : P s) : OutP P (execSegmentIdleClose n s) := by
  unfold execSegmentIdleClose
  repeat' first
    | with_reducible assumption
    | with_reducible apply State.setPort_keeps hP
    | with_reducible refine ite_keeps (fun _ => ?_) (fun _ => ?_)
    | with_reducible apply OutP.next
    | with_reducible refine OutP.ite (fun _ => ?_) (fun _ => ?_)
    | with_reducible refine fst_ite_keeps (fun _ => ?_) (fun _ => ?_)
    | with_reducible refine snd_ite_keeps (fun _ => ?_) (fun _ => ?_)
    | with_reducible refine List.foldl_keeps ?_ (fun s x h => ?_)
    | with_reducible refine List.foldl_fst_keeps ?_ (fun s x h => ?_)
    | with_reducible refine List.foldl_snd_keeps ?_ (fun s x h => ?_)
    | intro s x h
    | simp only [Stable.mk_iff hP]
    | split
    | dsimp only

theorem State.dropWrite_keeps (hP : Stable P) {s : State} {n : ℕ} {hdr : BitVec 256} {status : ℕ} {w : Option InWin} (h : P s) :
    P (State.dropWrite s n hdr status w) := by
  unfold State.dropWrite
  repeat' first
    | with_reducible assumption
    | with_reducible apply State.countFld_keeps hP
    | with_reducible apply State.emit_keeps hP
    | with_reducible refine ite_keeps (fun _ => ?_) (fun _ => ?_)
    | with_reducible refine fst_ite_keeps (fun _ => ?_) (fun _ => ?_)
    | with_reducible refine snd_ite_keeps (fun _ => ?_) (fun _ => ?_)
    | with_reducible refine List.foldl_keeps ?_ (fun s x h => ?_)
    | with_reducible refine List.foldl_fst_keeps ?_ (fun s x h => ?_)
    | with_reducible refine List.foldl_snd_keeps ?_ (fun s x h => ?_)
    | intro s x h
    | simp only [Stable.mk_iff hP]
    | split
    | dsimp only

theorem State.bindCount_keeps (hP : Stable P) {s : State} {w : InWin} {n : ℕ} (h : P s) : P (State.bindCount s w n) := by
  unfold State.bindCount
  repeat' first
    | with_reducible assumption
    | with_reducible apply State.setCore_keeps hP
    | with_reducible refine ite_keeps (fun _ => ?_) (fun _ => ?_)
    | with_reducible refine fst_ite_keeps (fun _ => ?_) (fun _ => ?_)
    | with_reducible refine snd_ite_keeps (fun _ => ?_) (fun _ => ?_)
    | with_reducible refine List.foldl_keeps ?_ (fun s x h => ?_)
    | with_reducible refine List.foldl_fst_keeps ?_ (fun s x h => ?_)
    | with_reducible refine List.foldl_snd_keeps ?_ (fun s x h => ?_)
    | intro s x h
    | simp only [Stable.mk_iff hP]
    | split
    | dsimp only

theorem State.landIn_keeps (hP : Stable P) {s : State} {hdr : BitVec 256} (h : P s) : P (State.landIn s hdr).1 := by
  unfold State.landIn
  repeat' first
    | with_reducible assumption
    | with_reducible refine ite_keeps (fun _ => ?_) (fun _ => ?_)
    | with_reducible refine fst_ite_keeps (fun _ => ?_) (fun _ => ?_)
    | with_reducible refine snd_ite_keeps (fun _ => ?_) (fun _ => ?_)
    | with_reducible refine List.foldl_keeps ?_ (fun s x h => ?_)
    | with_reducible refine List.foldl_fst_keeps ?_ (fun s x h => ?_)
    | with_reducible refine List.foldl_snd_keeps ?_ (fun s x h => ?_)
    | intro s x h
    | simp only [Stable.mk_iff hP]
    | split
    | dsimp only

theorem State.sendAck_keeps (hP : Stable P) {s : State} {hdr : BitVec 256} {status : ℕ} (h : P s) : P (State.sendAck s hdr status) := by
  unfold State.sendAck
  repeat' first
    | with_reducible assumption
    | with_reducible apply State.sendFabric_keeps hP
    | with_reducible refine ite_keeps (fun _ => ?_) (fun _ => ?_)
    | with_reducible refine fst_ite_keeps (fun _ => ?_) (fun _ => ?_)
    | with_reducible refine snd_ite_keeps (fun _ => ?_) (fun _ => ?_)
    | with_reducible refine List.foldl_keeps ?_ (fun s x h => ?_)
    | with_reducible refine List.foldl_fst_keeps ?_ (fun s x h => ?_)
    | with_reducible refine List.foldl_snd_keeps ?_ (fun s x h => ?_)
    | intro s x h
    | simp only [Stable.mk_iff hP]
    | split
    | dsimp only

theorem State.answered_keeps (hP : Stable P) {s : State} {hdr : BitVec 256} {status : ℕ} (h : P s) : P (State.answered s hdr status) := by
  unfold State.answered
  repeat' first
    | with_reducible assumption
    | with_reducible apply State.sendAck_keeps hP
    | with_reducible refine ite_keeps (fun _ => ?_) (fun _ => ?_)
    | with_reducible refine fst_ite_keeps (fun _ => ?_) (fun _ => ?_)
    | with_reducible refine snd_ite_keeps (fun _ => ?_) (fun _ => ?_)
    | with_reducible refine List.foldl_keeps ?_ (fun s x h => ?_)
    | with_reducible refine List.foldl_fst_keeps ?_ (fun s x h => ?_)
    | with_reducible refine List.foldl_snd_keeps ?_ (fun s x h => ?_)
    | intro s x h
    | simp only [Stable.mk_iff hP]
    | split
    | dsimp only

theorem State.acceptWrite_keeps (hP : Lasting P) {s : State} {w : InWin} {hdr : BitVec 256} {data : List Byte} {e : Ecc} (h : P s) :
    P (State.acceptWrite s w hdr data e).1 := by
  unfold State.acceptWrite
  repeat' first
    | with_reducible assumption
    | with_reducible apply State.devWrite_keeps hP
    | with_reducible apply State.charge_keeps hP.stable
    | with_reducible apply State.landIn_keeps hP.stable
    | with_reducible apply State.bindCount_keeps hP.stable
    | with_reducible refine ite_keeps (fun _ => ?_) (fun _ => ?_)
    | with_reducible refine fst_ite_keeps (fun _ => ?_) (fun _ => ?_)
    | with_reducible refine snd_ite_keeps (fun _ => ?_) (fun _ => ?_)
    | with_reducible refine List.foldl_keeps ?_ (fun s x h => ?_)
    | with_reducible refine List.foldl_fst_keeps ?_ (fun s x h => ?_)
    | with_reducible refine List.foldl_snd_keeps ?_ (fun s x h => ?_)
    | intro s x h
    | simp only [Stable.mk_iff hP.stable]
    | split
    | dsimp only

theorem State.takeWrite_keeps (hP : Lasting P) {s : State} {hdr : BitVec 256} {data : List Byte} {n : ℕ} {e : Ecc} (h : P s) :
    P (State.takeWrite s hdr data n e).1 := by
  have hd {u : State} {k : ℕ} {w : Option InWin} {a : ℕ} (hu : P u) : P ((u.dropWrite n hdr k w).answered hdr a) :=
    State.answered_keeps hP.stable (State.dropWrite_keeps hP.stable hu)
  unfold State.takeWrite
  extract_lets w
  split
  · exact State.sendAck_keeps hP.stable h
  · refine fst_ite_keeps (fun _ => h) fun _ => ?_
    split
    · rename_i x _
      refine fst_ite_keeps (fun _ => h) fun _ => ?_
      have hr := State.acceptWrite_keeps (w := x) (hdr := hdr) (data := data) (e := e) hP h
      extract_lets r
      split
      · exact State.answered_keeps hP.stable hr
      · exact State.waitsAt_keeps hP.stable h
      · exact hd hr
    · exact hd h

theorem State.dealWrite_keeps (hP : Lasting P) {s : State} {n : ℕ} {x : BitVec 256 × List Byte × Ecc} (h : P s) :
    P (State.dealWrite s n x) := by
  unfold State.dealWrite
  repeat' first
    | with_reducible assumption
    | with_reducible apply State.takeWrite_keeps hP
    | with_reducible apply State.freeFlits_keeps hP.stable
    | with_reducible apply State.setPort_keeps hP.stable
    | with_reducible refine ite_keeps (fun _ => ?_) (fun _ => ?_)
    | with_reducible refine fst_ite_keeps (fun _ => ?_) (fun _ => ?_)
    | with_reducible refine snd_ite_keeps (fun _ => ?_) (fun _ => ?_)
    | with_reducible refine List.foldl_keeps ?_ (fun s x h => ?_)
    | with_reducible refine List.foldl_fst_keeps ?_ (fun s x h => ?_)
    | with_reducible refine List.foldl_snd_keeps ?_ (fun s x h => ?_)
    | intro s x h
    | simp only [Stable.mk_iff hP.stable]
    | split
    | dsimp only

theorem State.dealWrites_keeps (hP : Lasting P) {s : State} {n : ℕ} {l : List (BitVec 256 × List Byte × Ecc)} (h : P s) :
    P (State.dealWrites s n l) := by
  unfold State.dealWrites
  repeat' first
    | with_reducible assumption
    | with_reducible apply State.setPort_keeps hP.stable
    | with_reducible apply State.dealWrite_keeps hP
    | with_reducible refine ite_keeps (fun _ => ?_) (fun _ => ?_)
    | with_reducible refine fst_ite_keeps (fun _ => ?_) (fun _ => ?_)
    | with_reducible refine snd_ite_keeps (fun _ => ?_) (fun _ => ?_)
    | with_reducible refine List.foldl_keeps ?_ (fun s x h => ?_)
    | with_reducible refine List.foldl_fst_keeps ?_ (fun s x h => ?_)
    | with_reducible refine List.foldl_snd_keeps ?_ (fun s x h => ?_)
    | intro s x h
    | simp only [Stable.mk_iff hP.stable]
    | split
    | dsimp only

theorem State.drainIn_keeps (hP : Lasting P) {s : State} {n : ℕ} (h : P s) : P (State.drainIn s n) := by
  unfold State.drainIn
  repeat' first
    | with_reducible assumption
    | with_reducible apply State.dealWrites_keeps hP
    | with_reducible apply State.setPort_keeps hP.stable
    | with_reducible refine ite_keeps (fun _ => ?_) (fun _ => ?_)
    | with_reducible refine fst_ite_keeps (fun _ => ?_) (fun _ => ?_)
    | with_reducible refine snd_ite_keeps (fun _ => ?_) (fun _ => ?_)
    | with_reducible refine List.foldl_keeps ?_ (fun s x h => ?_)
    | with_reducible refine List.foldl_fst_keeps ?_ (fun s x h => ?_)
    | with_reducible refine List.foldl_snd_keeps ?_ (fun s x h => ?_)
    | intro s x h
    | simp only [Stable.mk_iff hP.stable]
    | split
    | dsimp only

theorem execWrite_keeps (hP : Lasting P) {n : PortId} {hdr : BitVec 256} {data : Met (List Byte)} {s : State} (h : P s) :
    OutP P (execWrite n hdr data s) := by
  unfold execWrite
  repeat' first
    | with_reducible assumption
    | with_reducible apply State.forward_keeps hP.stable
    | with_reducible apply State.freeFlits_keeps hP.stable
    | with_reducible apply State.dealWrites_keeps hP
    | with_reducible apply State.drainIn_keeps hP
    | with_reducible refine ite_keeps (fun _ => ?_) (fun _ => ?_)
    | with_reducible apply OutP.next
    | with_reducible refine OutP.ite (fun _ => ?_) (fun _ => ?_)
    | with_reducible refine fst_ite_keeps (fun _ => ?_) (fun _ => ?_)
    | with_reducible refine snd_ite_keeps (fun _ => ?_) (fun _ => ?_)
    | with_reducible refine List.foldl_keeps ?_ (fun s x h => ?_)
    | with_reducible refine List.foldl_fst_keeps ?_ (fun s x h => ?_)
    | with_reducible refine List.foldl_snd_keeps ?_ (fun s x h => ?_)
    | intro s x h
    | simp only [Stable.mk_iff hP.stable]
    | split
    | dsimp only

theorem execFlit_keeps (hP : Lasting P) {n : PortId} {hdr : Word} {body : FlitBody} {s : State} (h : P s) :
    OutP P (execFlit n hdr body s) := by
  unfold execFlit
  repeat' first
    | with_reducible assumption
    | with_reducible apply State.injected_keeps hP.stable
    | with_reducible apply State.drainIn_keeps hP
    | with_reducible apply State.takeFlit_keeps hP.stable
    | with_reducible refine ite_keeps (fun _ => ?_) (fun _ => ?_)
    | with_reducible apply OutP.next
    | with_reducible refine OutP.ite (fun _ => ?_) (fun _ => ?_)
    | with_reducible refine fst_ite_keeps (fun _ => ?_) (fun _ => ?_)
    | with_reducible refine snd_ite_keeps (fun _ => ?_) (fun _ => ?_)
    | with_reducible refine List.foldl_keeps ?_ (fun s x h => ?_)
    | with_reducible refine List.foldl_fst_keeps ?_ (fun s x h => ?_)
    | with_reducible refine List.foldl_snd_keeps ?_ (fun s x h => ?_)
    | intro s x h
    | simp only [Stable.mk_iff hP.stable]
    | split
    | dsimp only

theorem State.takeAck_keeps (hP : Stable P) {s : State} {m : MsgOut} {status : ℕ} (h : P s) : P (State.takeAck s m status) := by
  unfold State.takeAck
  repeat' first
    | with_reducible assumption
    | with_reducible apply State.staleDrop_keeps hP
    | with_reducible apply State.updEnt_keeps hP
    | with_reducible apply State.dmaRefused_keeps hP
    | with_reducible apply State.pumpSends_keeps hP
    | with_reducible refine ite_keeps (fun _ => ?_) (fun _ => ?_)
    | with_reducible refine fst_ite_keeps (fun _ => ?_) (fun _ => ?_)
    | with_reducible refine snd_ite_keeps (fun _ => ?_) (fun _ => ?_)
    | with_reducible refine List.foldl_keeps ?_ (fun s x h => ?_)
    | with_reducible refine List.foldl_fst_keeps ?_ (fun s x h => ?_)
    | with_reducible refine List.foldl_snd_keeps ?_ (fun s x h => ?_)
    | intro s x h
    | simp only [Stable.mk_iff hP]
    | split
    | dsimp only

theorem execWriteAck_keeps (hP : Stable P) {n : PortId} {hdr : BitVec 256} {s : State} (h : P s) : OutP P (execWriteAck n hdr s) := by
  unfold execWriteAck
  repeat' first
    | with_reducible assumption
    | with_reducible apply State.freeFlits_keeps hP
    | with_reducible apply State.forward_keeps hP
    | with_reducible apply State.takeAck_keeps hP
    | with_reducible refine ite_keeps (fun _ => ?_) (fun _ => ?_)
    | with_reducible apply OutP.next
    | with_reducible refine OutP.ite (fun _ => ?_) (fun _ => ?_)
    | with_reducible refine fst_ite_keeps (fun _ => ?_) (fun _ => ?_)
    | with_reducible refine snd_ite_keeps (fun _ => ?_) (fun _ => ?_)
    | with_reducible refine List.foldl_keeps ?_ (fun s x h => ?_)
    | with_reducible refine List.foldl_fst_keeps ?_ (fun s x h => ?_)
    | with_reducible refine List.foldl_snd_keeps ?_ (fun s x h => ?_)
    | intro s x h
    | simp only [Stable.mk_iff hP]
    | split
    | dsimp only

theorem execMessageResend_keeps (hP : Stable P) {dst : Byte} {msgSeq : BitVec 32} {s : State} (h : P s) :
    OutP P (execMessageResend dst msgSeq s) := by
  unfold execMessageResend
  repeat' first
    | with_reducible assumption
    | with_reducible apply State.sendWrite_keeps hP
    | with_reducible refine ite_keeps (fun _ => ?_) (fun _ => ?_)
    | with_reducible apply OutP.next
    | with_reducible refine OutP.ite (fun _ => ?_) (fun _ => ?_)
    | with_reducible refine fst_ite_keeps (fun _ => ?_) (fun _ => ?_)
    | with_reducible refine snd_ite_keeps (fun _ => ?_) (fun _ => ?_)
    | with_reducible refine List.foldl_keeps ?_ (fun s x h => ?_)
    | with_reducible refine List.foldl_fst_keeps ?_ (fun s x h => ?_)
    | with_reducible refine List.foldl_snd_keeps ?_ (fun s x h => ?_)
    | intro s x h
    | simp only [Stable.mk_iff hP]
    | split
    | dsimp only

end Sys2Proof.Machine
end

