-- ==== Sys2Proof/Laws/KeepSupply.lean ====
section
/-! SUPPORT. What the definitions of Machine/Supply.lean keep. -/

set_option linter.unusedTactic false
set_option linter.unreachableTactic false

namespace Sys2Proof.Machine

variable {P : State → Prop}

theorem State.fresh_keeps (hP : Lasting P) {s : State} {p : PwrSt} (h : P s) : P (State.fresh s p) := by
  have h1 : P (s.setMem []) := State.setMem_keeps hP h fun _ => rfl
  unfold State.fresh
  exact State.setFld_keeps hP.stable (hP.stable (s.setMem []) _ rfl rfl rfl h1)

theorem State.goOff_keeps (hP : Lasting P) {s : State} (h : P s) : P (State.goOff s) := by
  unfold State.goOff
  repeat' first
    | with_reducible assumption
    | with_reducible apply State.fresh_keeps hP
    | with_reducible refine ite_keeps (fun _ => ?_) (fun _ => ?_)
    | with_reducible refine fst_ite_keeps (fun _ => ?_) (fun _ => ?_)
    | with_reducible refine snd_ite_keeps (fun _ => ?_) (fun _ => ?_)
    | with_reducible refine List.foldl_keeps ?_ (fun s x h => ?_)
    | with_reducible refine List.foldl_fst_keeps ?_ (fun s x h => ?_)
    | with_reducible refine List.foldl_snd_keeps ?_ (fun s x h => ?_)
    | intro s x h
    | simp only [Stable.mk_iff hP.stable]
    | split
    | dsimp only

theorem State.goUp_keeps (hP : Lasting P) {s : State} (h : P s) : P (State.goUp s) := by
  unfold State.goUp
  repeat' first
    | with_reducible assumption
    | with_reducible apply State.fresh_keeps hP
    | with_reducible refine ite_keeps (fun _ => ?_) (fun _ => ?_)
    | with_reducible refine fst_ite_keeps (fun _ => ?_) (fun _ => ?_)
    | with_reducible refine snd_ite_keeps (fun _ => ?_) (fun _ => ?_)
    | with_reducible refine List.foldl_keeps ?_ (fun s x h => ?_)
    | with_reducible refine List.foldl_fst_keeps ?_ (fun s x h => ?_)
    | with_reducible refine List.foldl_snd_keeps ?_ (fun s x h => ?_)
    | intro s x h
    | simp only [Stable.mk_iff hP.stable]
    | split
    | dsimp only

theorem State.stopAll_keeps (hP : Lasting P) {s : State} (h : P s) : P (State.stopAll s) := by
  unfold State.stopAll
  repeat' first
    | with_reducible assumption
    | with_reducible apply State.hardStopParts_keeps hP.stable
    | with_reducible apply State.stopped_keeps hP
    | with_reducible refine ite_keeps (fun _ => ?_) (fun _ => ?_)
    | with_reducible refine fst_ite_keeps (fun _ => ?_) (fun _ => ?_)
    | with_reducible refine snd_ite_keeps (fun _ => ?_) (fun _ => ?_)
    | with_reducible refine List.foldl_keeps ?_ (fun s x h => ?_)
    | with_reducible refine List.foldl_fst_keeps ?_ (fun s x h => ?_)
    | with_reducible refine List.foldl_snd_keeps ?_ (fun s x h => ?_)
    | intro s x h
    | simp only [Stable.mk_iff hP.stable]
    | split
    | dsimp only

theorem State.orderly_keeps (hP : Lasting P) {s : State} (h : P s) : P (State.orderly s) := by
  unfold State.orderly
  repeat' first
    | with_reducible assumption
    | with_reducible apply State.goOff_keeps hP
    | with_reducible apply State.stopAll_keeps hP
    | with_reducible refine ite_keeps (fun _ => ?_) (fun _ => ?_)
    | with_reducible refine fst_ite_keeps (fun _ => ?_) (fun _ => ?_)
    | with_reducible refine snd_ite_keeps (fun _ => ?_) (fun _ => ?_)
    | with_reducible refine List.foldl_keeps ?_ (fun s x h => ?_)
    | with_reducible refine List.foldl_fst_keeps ?_ (fun s x h => ?_)
    | with_reducible refine List.foldl_snd_keeps ?_ (fun s x h => ?_)
    | intro s x h
    | simp only [Stable.mk_iff hP.stable]
    | split
    | dsimp only

theorem State.faultCause_keeps (hP : Stable P) {s : State} {c : ℕ} (h : P s) : P (State.faultCause s c) := by
  unfold State.faultCause
  repeat' first
    | with_reducible assumption
    | with_reducible apply State.setFld_keeps hP
    | with_reducible refine ite_keeps (fun _ => ?_) (fun _ => ?_)
    | with_reducible refine fst_ite_keeps (fun _ => ?_) (fun _ => ?_)
    | with_reducible refine snd_ite_keeps (fun _ => ?_) (fun _ => ?_)
    | with_reducible refine List.foldl_keeps ?_ (fun s x h => ?_)
    | with_reducible refine List.foldl_fst_keeps ?_ (fun s x h => ?_)
    | with_reducible refine List.foldl_snd_keeps ?_ (fun s x h => ?_)
    | intro s x h
    | simp only [Stable.mk_iff hP]
    | split
    | dsimp only

theorem State.latchFault_keeps (hP : Lasting P) {s : State} {c : ℕ} (h : P s) : P (State.latchFault s c) := by
  unfold State.latchFault
  repeat' first
    | with_reducible assumption
    | with_reducible apply State.faultCause_keeps hP.stable
    | with_reducible apply State.goOff_keeps hP
    | with_reducible refine ite_keeps (fun _ => ?_) (fun _ => ?_)
    | with_reducible refine fst_ite_keeps (fun _ => ?_) (fun _ => ?_)
    | with_reducible refine snd_ite_keeps (fun _ => ?_) (fun _ => ?_)
    | with_reducible refine List.foldl_keeps ?_ (fun s x h => ?_)
    | with_reducible refine List.foldl_fst_keeps ?_ (fun s x h => ?_)
    | with_reducible refine List.foldl_snd_keeps ?_ (fun s x h => ?_)
    | intro s x h
    | simp only [Stable.mk_iff hP.stable]
    | split
    | dsimp only

theorem execUndervoltage_keeps (hP : Lasting P) {s : State} (h : P s) : OutP P (execUndervoltage s) := by
  unfold execUndervoltage
  repeat' first
    | with_reducible assumption
    | with_reducible apply State.goOff_keeps hP
    | with_reducible apply State.faultCause_keeps hP.stable
    | with_reducible refine ite_keeps (fun _ => ?_) (fun _ => ?_)
    | with_reducible apply OutP.next
    | with_reducible refine OutP.ite (fun _ => ?_) (fun _ => ?_)
    | with_reducible refine fst_ite_keeps (fun _ => ?_) (fun _ => ?_)
    | with_reducible refine snd_ite_keeps (fun _ => ?_) (fun _ => ?_)
    | with_reducible refine List.foldl_keeps ?_ (fun s x h => ?_)
    | with_reducible refine List.foldl_fst_keeps ?_ (fun s x h => ?_)
    | with_reducible refine List.foldl_snd_keeps ?_ (fun s x h => ?_)
    | intro s x h
    | simp only [Stable.mk_iff hP.stable]
    | split
    | dsimp only

theorem execOvervoltage_keeps (hP : Lasting P) {s : State} (h : P s) : OutP P (execOvervoltage s) := by
  unfold execOvervoltage
  repeat' first
    | with_reducible assumption
    | with_reducible apply State.goOff_keeps hP
    | with_reducible apply State.faultCause_keeps hP.stable
    | with_reducible refine ite_keeps (fun _ => ?_) (fun _ => ?_)
    | with_reducible apply OutP.next
    | with_reducible refine OutP.ite (fun _ => ?_) (fun _ => ?_)
    | with_reducible refine fst_ite_keeps (fun _ => ?_) (fun _ => ?_)
    | with_reducible refine snd_ite_keeps (fun _ => ?_) (fun _ => ?_)
    | with_reducible refine List.foldl_keeps ?_ (fun s x h => ?_)
    | with_reducible refine List.foldl_fst_keeps ?_ (fun s x h => ?_)
    | with_reducible refine List.foldl_snd_keeps ?_ (fun s x h => ?_)
    | intro s x h
    | simp only [Stable.mk_iff hP.stable]
    | split
    | dsimp only

theorem execRailFault_keeps (hP : Lasting P) {rail : BitVec 4} {s : State} (h : P s) : OutP P (execRailFault rail s) := by
  unfold execRailFault
  repeat' first
    | with_reducible assumption
    | with_reducible apply State.latchFault_keeps hP
    | with_reducible apply State.setFld_keeps hP.stable
    | with_reducible refine ite_keeps (fun _ => ?_) (fun _ => ?_)
    | with_reducible apply OutP.next
    | with_reducible refine OutP.ite (fun _ => ?_) (fun _ => ?_)
    | with_reducible refine fst_ite_keeps (fun _ => ?_) (fun _ => ?_)
    | with_reducible refine snd_ite_keeps (fun _ => ?_) (fun _ => ?_)
    | with_reducible refine List.foldl_keeps ?_ (fun s x h => ?_)
    | with_reducible refine List.foldl_fst_keeps ?_ (fun s x h => ?_)
    | with_reducible refine List.foldl_snd_keeps ?_ (fun s x h => ?_)
    | intro s x h
    | simp only [Stable.mk_iff hP.stable]
    | split
    | dsimp only

theorem State.thermal_keeps (hP : Lasting P) {s : State} (h : P s) : P (State.thermal s) := by
  unfold State.thermal
  repeat' first
    | with_reducible assumption
    | with_reducible apply State.latchFault_keeps hP
    | with_reducible refine ite_keeps (fun _ => ?_) (fun _ => ?_)
    | with_reducible refine fst_ite_keeps (fun _ => ?_) (fun _ => ?_)
    | with_reducible refine snd_ite_keeps (fun _ => ?_) (fun _ => ?_)
    | with_reducible refine List.foldl_keeps ?_ (fun s x h => ?_)
    | with_reducible refine List.foldl_fst_keeps ?_ (fun s x h => ?_)
    | with_reducible refine List.foldl_snd_keeps ?_ (fun s x h => ?_)
    | intro s x h
    | simp only [Stable.mk_iff hP.stable]
    | split
    | dsimp only

theorem execThermalFault_keeps (hP : Lasting P) {s : State} (h : P s) : OutP P (execThermalFault s) := by
  unfold execThermalFault
  repeat' first
    | with_reducible assumption
    | with_reducible apply State.thermal_keeps hP
    | with_reducible refine ite_keeps (fun _ => ?_) (fun _ => ?_)
    | with_reducible apply OutP.next
    | with_reducible refine OutP.ite (fun _ => ?_) (fun _ => ?_)
    | with_reducible refine fst_ite_keeps (fun _ => ?_) (fun _ => ?_)
    | with_reducible refine snd_ite_keeps (fun _ => ?_) (fun _ => ?_)
    | with_reducible refine List.foldl_keeps ?_ (fun s x h => ?_)
    | with_reducible refine List.foldl_fst_keeps ?_ (fun s x h => ?_)
    | with_reducible refine List.foldl_snd_keeps ?_ (fun s x h => ?_)
    | intro s x h
    | simp only [Stable.mk_iff hP.stable]
    | split
    | dsimp only

theorem execInRush_keeps (hP : Lasting P) {s : State} (h : P s) : OutP P (execInRush s) := by
  unfold execInRush
  repeat' first
    | with_reducible assumption
    | with_reducible apply State.latchFault_keeps hP
    | with_reducible refine ite_keeps (fun _ => ?_) (fun _ => ?_)
    | with_reducible apply OutP.next
    | with_reducible refine OutP.ite (fun _ => ?_) (fun _ => ?_)
    | with_reducible refine fst_ite_keeps (fun _ => ?_) (fun _ => ?_)
    | with_reducible refine snd_ite_keeps (fun _ => ?_) (fun _ => ?_)
    | with_reducible refine List.foldl_keeps ?_ (fun s x h => ?_)
    | with_reducible refine List.foldl_fst_keeps ?_ (fun s x h => ?_)
    | with_reducible refine List.foldl_snd_keeps ?_ (fun s x h => ?_)
    | intro s x h
    | simp only [Stable.mk_iff hP.stable]
    | split
    | dsimp only

theorem execFaultRestart_keeps (hP : Lasting P) {s : State} (h : P s) : OutP P (execFaultRestart s) := by
  unfold execFaultRestart
  repeat' first
    | with_reducible assumption
    | with_reducible apply State.goUp_keeps hP
    | with_reducible refine ite_keeps (fun _ => ?_) (fun _ => ?_)
    | with_reducible apply OutP.next
    | with_reducible refine OutP.ite (fun _ => ?_) (fun _ => ?_)
    | with_reducible refine fst_ite_keeps (fun _ => ?_) (fun _ => ?_)
    | with_reducible refine snd_ite_keeps (fun _ => ?_) (fun _ => ?_)
    | with_reducible refine List.foldl_keeps ?_ (fun s x h => ?_)
    | with_reducible refine List.foldl_fst_keeps ?_ (fun s x h => ?_)
    | with_reducible refine List.foldl_snd_keeps ?_ (fun s x h => ?_)
    | intro s x h
    | simp only [Stable.mk_iff hP.stable]
    | split
    | dsimp only

theorem execFaultLatchRelease_keeps (hP : Stable P) {s : State} (h : P s) : OutP P (execFaultLatchRelease s) := by
  unfold execFaultLatchRelease
  repeat' first
    | with_reducible assumption
    | with_reducible refine ite_keeps (fun _ => ?_) (fun _ => ?_)
    | with_reducible apply OutP.next
    | with_reducible refine OutP.ite (fun _ => ?_) (fun _ => ?_)
    | with_reducible refine fst_ite_keeps (fun _ => ?_) (fun _ => ?_)
    | with_reducible refine snd_ite_keeps (fun _ => ?_) (fun _ => ?_)
    | with_reducible refine List.foldl_keeps ?_ (fun s x h => ?_)
    | with_reducible refine List.foldl_fst_keeps ?_ (fun s x h => ?_)
    | with_reducible refine List.foldl_snd_keeps ?_ (fun s x h => ?_)
    | intro s x h
    | simp only [Stable.mk_iff hP]
    | split
    | dsimp only

theorem execPowerUp_keeps (hP : Lasting P) {s : State} (h : P s) : OutP P (execPowerUp s) := by
  unfold execPowerUp
  repeat' first
    | with_reducible assumption
    | with_reducible apply State.goUp_keeps hP
    | with_reducible refine ite_keeps (fun _ => ?_) (fun _ => ?_)
    | with_reducible apply OutP.next
    | with_reducible refine OutP.ite (fun _ => ?_) (fun _ => ?_)
    | with_reducible refine fst_ite_keeps (fun _ => ?_) (fun _ => ?_)
    | with_reducible refine snd_ite_keeps (fun _ => ?_) (fun _ => ?_)
    | with_reducible refine List.foldl_keeps ?_ (fun s x h => ?_)
    | with_reducible refine List.foldl_fst_keeps ?_ (fun s x h => ?_)
    | with_reducible refine List.foldl_snd_keeps ?_ (fun s x h => ?_)
    | intro s x h
    | simp only [Stable.mk_iff hP.stable]
    | split
    | dsimp only

theorem execPowerDown_keeps (hP : Lasting P) {s : State} (h : P s) : OutP P (execPowerDown s) := by
  unfold execPowerDown
  repeat' first
    | with_reducible assumption
    | with_reducible apply State.orderly_keeps hP
    | with_reducible refine ite_keeps (fun _ => ?_) (fun _ => ?_)
    | with_reducible apply OutP.next
    | with_reducible refine OutP.ite (fun _ => ?_) (fun _ => ?_)
    | with_reducible refine fst_ite_keeps (fun _ => ?_) (fun _ => ?_)
    | with_reducible refine snd_ite_keeps (fun _ => ?_) (fun _ => ?_)
    | with_reducible refine List.foldl_keeps ?_ (fun s x h => ?_)
    | with_reducible refine List.foldl_fst_keeps ?_ (fun s x h => ?_)
    | with_reducible refine List.foldl_snd_keeps ?_ (fun s x h => ?_)
    | intro s x h
    | simp only [Stable.mk_iff hP.stable]
    | split
    | dsimp only

theorem execPwrCycleN_keeps (hP : Lasting P) {s : State} (h : P s) : OutP P (execPwrCycleN s) := by
  unfold execPwrCycleN
  repeat' first
    | with_reducible assumption
    | with_reducible apply State.orderly_keeps hP
    | with_reducible apply State.goUp_keeps hP
    | with_reducible refine ite_keeps (fun _ => ?_) (fun _ => ?_)
    | with_reducible apply OutP.next
    | with_reducible refine OutP.ite (fun _ => ?_) (fun _ => ?_)
    | with_reducible refine fst_ite_keeps (fun _ => ?_) (fun _ => ?_)
    | with_reducible refine snd_ite_keeps (fun _ => ?_) (fun _ => ?_)
    | with_reducible refine List.foldl_keeps ?_ (fun s x h => ?_)
    | with_reducible refine List.foldl_fst_keeps ?_ (fun s x h => ?_)
    | with_reducible refine List.foldl_snd_keeps ?_ (fun s x h => ?_)
    | intro s x h
    | simp only [Stable.mk_iff hP.stable]
    | split
    | dsimp only

theorem execModuleResetNAssert_keeps (hP : Lasting P) {s : State} (h : P s) : OutP P (execModuleResetNAssert s) := by
  unfold execModuleResetNAssert
  repeat' first
    | with_reducible assumption
    | with_reducible apply State.fresh_keeps hP
    | with_reducible refine ite_keeps (fun _ => ?_) (fun _ => ?_)
    | with_reducible apply OutP.next
    | with_reducible refine OutP.ite (fun _ => ?_) (fun _ => ?_)
    | with_reducible refine fst_ite_keeps (fun _ => ?_) (fun _ => ?_)
    | with_reducible refine snd_ite_keeps (fun _ => ?_) (fun _ => ?_)
    | with_reducible refine List.foldl_keeps ?_ (fun s x h => ?_)
    | with_reducible refine List.foldl_fst_keeps ?_ (fun s x h => ?_)
    | with_reducible refine List.foldl_snd_keeps ?_ (fun s x h => ?_)
    | intro s x h
    | simp only [Stable.mk_iff hP.stable]
    | split
    | dsimp only

theorem execModuleResetNRelease_keeps (hP : Stable P) {s : State} (h : P s) : OutP P (execModuleResetNRelease s) := by
  unfold execModuleResetNRelease
  repeat' first
    | with_reducible assumption
    | with_reducible apply State.scanFalls_keeps hP
    | with_reducible refine ite_keeps (fun _ => ?_) (fun _ => ?_)
    | with_reducible apply OutP.next
    | with_reducible refine OutP.ite (fun _ => ?_) (fun _ => ?_)
    | with_reducible refine fst_ite_keeps (fun _ => ?_) (fun _ => ?_)
    | with_reducible refine snd_ite_keeps (fun _ => ?_) (fun _ => ?_)
    | with_reducible refine List.foldl_keeps ?_ (fun s x h => ?_)
    | with_reducible refine List.foldl_fst_keeps ?_ (fun s x h => ?_)
    | with_reducible refine List.foldl_snd_keeps ?_ (fun s x h => ?_)
    | intro s x h
    | simp only [Stable.mk_iff hP]
    | split
    | dsimp only

theorem execAlwaysOnDomainStart_keeps (hP : Lasting P) {straps : BitVec 2} {s : State} (h : P s) :
    OutP P (execAlwaysOnDomainStart straps s) := by
  unfold execAlwaysOnDomainStart
  repeat' first
    | with_reducible assumption
    | with_reducible apply State.fresh_keeps hP
    | with_reducible refine ite_keeps (fun _ => ?_) (fun _ => ?_)
    | with_reducible apply OutP.next
    | with_reducible refine OutP.ite (fun _ => ?_) (fun _ => ?_)
    | with_reducible refine fst_ite_keeps (fun _ => ?_) (fun _ => ?_)
    | with_reducible refine snd_ite_keeps (fun _ => ?_) (fun _ => ?_)
    | with_reducible refine List.foldl_keeps ?_ (fun s x h => ?_)
    | with_reducible refine List.foldl_fst_keeps ?_ (fun s x h => ?_)
    | with_reducible refine List.foldl_snd_keeps ?_ (fun s x h => ?_)
    | intro s x h
    | simp only [Stable.mk_iff hP.stable]
    | split
    | dsimp only

theorem execAlwaysOnDomainReset_keeps (hP : Lasting P) {s : State} (h : P s) : OutP P (execAlwaysOnDomainReset s) := by
  unfold execAlwaysOnDomainReset
  repeat' first
    | with_reducible assumption
    | with_reducible apply State.setFld_keeps hP.stable
    | with_reducible apply State.fresh_keeps hP
    | with_reducible refine ite_keeps (fun _ => ?_) (fun _ => ?_)
    | with_reducible apply OutP.next
    | with_reducible refine OutP.ite (fun _ => ?_) (fun _ => ?_)
    | with_reducible refine fst_ite_keeps (fun _ => ?_) (fun _ => ?_)
    | with_reducible refine snd_ite_keeps (fun _ => ?_) (fun _ => ?_)
    | with_reducible refine List.foldl_keeps ?_ (fun s x h => ?_)
    | with_reducible refine List.foldl_fst_keeps ?_ (fun s x h => ?_)
    | with_reducible refine List.foldl_snd_keeps ?_ (fun s x h => ?_)
    | intro s x h
    | simp only [Stable.mk_iff hP.stable]
    | split
    | dsimp only

theorem State.bootStops_keeps (hP : Stable P) {s : State} {cause : ℕ} (h : P s) : P (State.bootStops s cause) := by
  unfold State.bootStops
  repeat' first
    | with_reducible assumption
    | with_reducible apply State.alarm_keeps hP
    | with_reducible apply State.setFld_keeps hP
    | with_reducible apply State.faultCause_keeps hP
    | with_reducible apply State.each_keeps hP
    | with_reducible apply State.setCore_keeps hP
    | with_reducible refine ite_keeps (fun _ => ?_) (fun _ => ?_)
    | with_reducible refine fst_ite_keeps (fun _ => ?_) (fun _ => ?_)
    | with_reducible refine snd_ite_keeps (fun _ => ?_) (fun _ => ?_)
    | with_reducible refine List.foldl_keeps ?_ (fun s x h => ?_)
    | with_reducible refine List.foldl_fst_keeps ?_ (fun s x h => ?_)
    | with_reducible refine List.foldl_snd_keeps ?_ (fun s x h => ?_)
    | intro s x h
    | simp only [Stable.mk_iff hP]
    | split
    | dsimp only

theorem State.loadRepairs_keeps (hP : Stable P) {s : State} (h : P s) : P (State.loadRepairs s) := by
  unfold State.loadRepairs
  repeat' first
    | with_reducible assumption
    | with_reducible apply State.setCore_keeps hP
    | with_reducible apply State.setStk_keeps hP
    | with_reducible apply State.setFld_keeps hP
    | with_reducible refine ite_keeps (fun _ => ?_) (fun _ => ?_)
    | with_reducible refine fst_ite_keeps (fun _ => ?_) (fun _ => ?_)
    | with_reducible refine snd_ite_keeps (fun _ => ?_) (fun _ => ?_)
    | with_reducible refine List.foldl_keeps ?_ (fun s x h => ?_)
    | with_reducible refine List.foldl_fst_keeps ?_ (fun s x h => ?_)
    | with_reducible refine List.foldl_snd_keeps ?_ (fun s x h => ?_)
    | intro s x h
    | simp only [Stable.mk_iff hP]
    | split
    | dsimp only

theorem State.activate_keeps (hP : Stable P) {s : State} {c : ℕ} (h : P s) : P (State.activate s c) := by
  unfold State.activate
  repeat' first
    | with_reducible assumption
    | with_reducible refine ite_keeps (fun _ => ?_) (fun _ => ?_)
    | with_reducible refine fst_ite_keeps (fun _ => ?_) (fun _ => ?_)
    | with_reducible refine snd_ite_keeps (fun _ => ?_) (fun _ => ?_)
    | with_reducible refine List.foldl_keeps ?_ (fun s x h => ?_)
    | with_reducible refine List.foldl_fst_keeps ?_ (fun s x h => ?_)
    | with_reducible refine List.foldl_snd_keeps ?_ (fun s x h => ?_)
    | intro s x h
    | simp only [Stable.mk_iff hP]
    | split
    | dsimp only

theorem State.useRecord_keeps (hP : Stable P) {s : State} {o : BootObs} (h : P s) : OptP P (State.useRecord s o) := by
  unfold State.useRecord
  repeat' first
    | with_reducible assumption
    | with_reducible refine ite_keeps (fun _ => ?_) (fun _ => ?_)
    | with_reducible refine fst_ite_keeps (fun _ => ?_) (fun _ => ?_)
    | with_reducible refine snd_ite_keeps (fun _ => ?_) (fun _ => ?_)
    | with_reducible apply OptP.some
    | exact OptP.none
    | with_reducible refine List.foldl_keeps ?_ (fun s x h => ?_)
    | with_reducible refine List.foldl_fst_keeps ?_ (fun s x h => ?_)
    | with_reducible refine List.foldl_snd_keeps ?_ (fun s x h => ?_)
    | intro s x h
    | simp only [Stable.mk_iff hP]
    | split
    | dsimp only

theorem State.bootKeys_keeps (hP : Stable P) {s : State} (h : P s) : P (State.bootKeys s) := by
  unfold State.bootKeys
  repeat' first
    | with_reducible assumption
    | with_reducible refine ite_keeps (fun _ => ?_) (fun _ => ?_)
    | with_reducible refine fst_ite_keeps (fun _ => ?_) (fun _ => ?_)
    | with_reducible refine snd_ite_keeps (fun _ => ?_) (fun _ => ?_)
    | with_reducible refine List.foldl_keeps ?_ (fun s x h => ?_)
    | with_reducible refine List.foldl_fst_keeps ?_ (fun s x h => ?_)
    | with_reducible refine List.foldl_snd_keeps ?_ (fun s x h => ?_)
    | intro s x h
    | simp only [Stable.mk_iff hP]
    | split
    | dsimp only

theorem State.bootEarly_keeps (hP : Lasting P) {s : State} (h : P s) : P (State.bootEarly s) := by
  unfold State.bootEarly
  extract_lets s2 s3 s4 s5
  have h2 : P s2 := State.extendSlot_keeps hP.stable h
  have h3 : P s3 := by
    unfold s3
    split
    · exact State.extendSlot_keeps hP.stable h2
    · exact h2
  have h5 : P s5 := State.commitRecord_keeps hP.stable (State.extendSlot_keeps hP.stable h3)
  exact State.setFld_keeps hP.stable (State.loadRepairs_keeps hP.stable (State.setMem_keeps hP (State.bootKeys_keeps hP.stable h5)
    fun _ => rfl))

theorem State.bootRepair_keeps (hP : Stable P) {s : State} {t : RemapTarget} (h : P s) : P (State.bootRepair s t) := by
  unfold State.bootRepair
  repeat' first
    | with_reducible assumption
    | with_reducible apply State.commitRecord_keeps hP
    | with_reducible apply State.setCore_keeps hP
    | with_reducible apply State.setFld_keeps hP
    | with_reducible apply State.setStk_keeps hP
    | with_reducible apply State.retireFrame_keeps hP
    | with_reducible refine ite_keeps (fun _ => ?_) (fun _ => ?_)
    | with_reducible refine fst_ite_keeps (fun _ => ?_) (fun _ => ?_)
    | with_reducible refine snd_ite_keeps (fun _ => ?_) (fun _ => ?_)
    | with_reducible refine List.foldl_keeps ?_ (fun s x h => ?_)
    | with_reducible refine List.foldl_fst_keeps ?_ (fun s x h => ?_)
    | with_reducible refine List.foldl_snd_keeps ?_ (fun s x h => ?_)
    | intro s x h
    | simp only [Stable.mk_iff hP]
    | split
    | dsimp only

theorem State.bootEnds_keeps (hP : Stable P) {s : State} {o : BootObs} (h : P s) : P (State.bootEnds s o) := by
  unfold State.bootEnds
  repeat' first
    | with_reducible assumption
    | with_reducible apply State.bootRepair_keeps hP
    | with_reducible apply State.setFld_keeps hP
    | with_reducible apply State.commitRecord_keeps hP
    | with_reducible apply State.extendSlot_keeps hP
    | with_reducible apply State.each_keeps hP
    | with_reducible apply State.snapFrames_keeps hP
    | with_reducible apply State.setPstate_keeps hP
    | with_reducible refine ite_keeps (fun _ => ?_) (fun _ => ?_)
    | with_reducible refine fst_ite_keeps (fun _ => ?_) (fun _ => ?_)
    | with_reducible refine snd_ite_keeps (fun _ => ?_) (fun _ => ?_)
    | with_reducible refine List.foldl_keeps ?_ (fun s x h => ?_)
    | with_reducible refine List.foldl_fst_keeps ?_ (fun s x h => ?_)
    | with_reducible refine List.foldl_snd_keeps ?_ (fun s x h => ?_)
    | intro s x h
    | simp only [Stable.mk_iff hP]
    | split
    | dsimp only

theorem execBoot_keeps (hP : Lasting P) {o : BootObs} {s : State} (h : P s) : OutP P (execBoot o s) := by
  unfold execBoot
  refine OutP.ite (fun _ => OutP.next h) fun _ => ?_
  extract_lets s1
  have h1 : P s1 := ite_keeps (fun _ => State.activate_keeps hP.stable h) fun _ => h
  clear_value s1
  refine OutP.ite (fun _ => OutP.next (State.bootStops_keeps hP.stable h1)) fun _ => ?_
  have hu := State.useRecord_keeps (o := o) hP.stable h1
  split
  · exact OutP.next (State.bootStops_keeps hP.stable h1)
  · rename_i t he
    have ht : P t := OptP.get he hu
    refine OutP.ite (fun _ => OutP.next (State.bootStops_keeps hP.stable ht)) fun _ => ?_
    extract_lets s2 s3 s4
    have h2 : P s2 := State.bootEarly_keeps hP ht
    have h3 : P s3 := State.setFld_keeps hP.stable h2
    have h4 : P s4 := State.reloadFirmware_keeps hP.stable h3
    clear_value s2 s3 s4
    exact OutP.ite (fun _ => OutP.next (State.cryptoError_keeps hP.stable h2)) fun _ =>
      OutP.ite (fun _ => OutP.next (State.bootStops_keeps hP.stable h3)) fun _ =>
      OutP.ite (fun _ => OutP.next (State.park_keeps hP.stable h3)) fun _ =>
      OutP.ite (fun _ => OutP.next h4) fun _ =>
      OutP.ite (fun _ => OutP.next (State.bootStops_keeps hP.stable h4)) fun _ => OutP.next (State.bootEnds_keeps hP.stable h4)

theorem State.pcieReset_keeps (hP : Lasting P) {s : State} (h : P s) : P (State.pcieReset s) := by
  unfold State.pcieReset
  repeat' first
    | with_reducible assumption
    | with_reducible apply State.setFld_keeps hP.stable
    | with_reducible apply State.each_keeps hP.stable
    | with_reducible apply State.freeHost_keeps hP
    | with_reducible refine ite_keeps (fun _ => ?_) (fun _ => ?_)
    | with_reducible refine fst_ite_keeps (fun _ => ?_) (fun _ => ?_)
    | with_reducible refine snd_ite_keeps (fun _ => ?_) (fun _ => ?_)
    | with_reducible refine List.foldl_keeps ?_ (fun s x h => ?_)
    | with_reducible refine List.foldl_fst_keeps ?_ (fun s x h => ?_)
    | with_reducible refine List.foldl_snd_keeps ?_ (fun s x h => ?_)
    | intro s x h
    | simp only [Stable.mk_iff hP.stable]
    | split
    | dsimp only

theorem State.perstReset_keeps (hP : Lasting P) {s : State} (h : P s) : P (State.perstReset s) := by
  unfold State.perstReset
  repeat' first
    | with_reducible assumption
    | with_reducible apply State.landing4_keeps hP
    | with_reducible apply State.pcieReset_keeps hP
    | with_reducible refine ite_keeps (fun _ => ?_) (fun _ => ?_)
    | with_reducible refine fst_ite_keeps (fun _ => ?_) (fun _ => ?_)
    | with_reducible refine snd_ite_keeps (fun _ => ?_) (fun _ => ?_)
    | with_reducible refine List.foldl_keeps ?_ (fun s x h => ?_)
    | with_reducible refine List.foldl_fst_keeps ?_ (fun s x h => ?_)
    | with_reducible refine List.foldl_snd_keeps ?_ (fun s x h => ?_)
    | intro s x h
    | simp only [Stable.mk_iff hP.stable]
    | split
    | dsimp only

theorem execIdleHoldEntry_keeps (hP : Stable P) {s : State} (h : P s) : OutP P (execIdleHoldEntry s) := by
  unfold execIdleHoldEntry
  repeat' first
    | with_reducible assumption
    | with_reducible apply State.setFld_keeps hP
    | with_reducible apply State.countFld_keeps hP
    | with_reducible apply State.setPstate_keeps hP
    | with_reducible refine ite_keeps (fun _ => ?_) (fun _ => ?_)
    | with_reducible apply OutP.next
    | with_reducible refine OutP.ite (fun _ => ?_) (fun _ => ?_)
    | with_reducible refine fst_ite_keeps (fun _ => ?_) (fun _ => ?_)
    | with_reducible refine snd_ite_keeps (fun _ => ?_) (fun _ => ?_)
    | with_reducible refine List.foldl_keeps ?_ (fun s x h => ?_)
    | with_reducible refine List.foldl_fst_keeps ?_ (fun s x h => ?_)
    | with_reducible refine List.foldl_snd_keeps ?_ (fun s x h => ?_)
    | intro s x h
    | simp only [Stable.mk_iff hP]
    | split
    | dsimp only

theorem State.allDies_keeps (hP : Stable P) {s : State} {st : ℕ} (h : P s) : P (State.allDies s st) := by
  unfold State.allDies
  repeat' first
    | with_reducible assumption
    | with_reducible apply State.each_keeps hP
    | with_reducible apply State.setStk_keeps hP
    | with_reducible refine ite_keeps (fun _ => ?_) (fun _ => ?_)
    | with_reducible refine fst_ite_keeps (fun _ => ?_) (fun _ => ?_)
    | with_reducible refine snd_ite_keeps (fun _ => ?_) (fun _ => ?_)
    | with_reducible refine List.foldl_keeps ?_ (fun s x h => ?_)
    | with_reducible refine List.foldl_fst_keeps ?_ (fun s x h => ?_)
    | with_reducible refine List.foldl_snd_keeps ?_ (fun s x h => ?_)
    | intro s x h
    | simp only [Stable.mk_iff hP]
    | split
    | dsimp only

theorem State.watchReq_keeps (hP : Stable P) {s : State} (h : P s) : P (State.watchReq s) := by
  unfold State.watchReq
  repeat' first
    | with_reducible assumption
    | with_reducible apply State.flag_keeps hP
    | with_reducible apply State.setFld_keeps hP
    | with_reducible apply State.allDies_keeps hP
    | with_reducible apply State.each_keeps hP
    | with_reducible apply State.setPstate_keeps hP
    | with_reducible apply State.portDown_keeps hP
    | with_reducible refine ite_keeps (fun _ => ?_) (fun _ => ?_)
    | with_reducible refine fst_ite_keeps (fun _ => ?_) (fun _ => ?_)
    | with_reducible refine snd_ite_keeps (fun _ => ?_) (fun _ => ?_)
    | with_reducible refine List.foldl_keeps ?_ (fun s x h => ?_)
    | with_reducible refine List.foldl_fst_keeps ?_ (fun s x h => ?_)
    | with_reducible refine List.foldl_snd_keeps ?_ (fun s x h => ?_)
    | intro s x h
    | simp only [Stable.mk_iff hP]
    | split
    | dsimp only

theorem execWatchReq_keeps (hP : Stable P) {s : State} (h : P s) : OutP P (execWatchReq s) := by
  unfold execWatchReq
  repeat' first
    | with_reducible assumption
    | with_reducible apply State.watchReq_keeps hP
    | with_reducible refine ite_keeps (fun _ => ?_) (fun _ => ?_)
    | with_reducible apply OutP.next
    | with_reducible refine OutP.ite (fun _ => ?_) (fun _ => ?_)
    | with_reducible refine fst_ite_keeps (fun _ => ?_) (fun _ => ?_)
    | with_reducible refine snd_ite_keeps (fun _ => ?_) (fun _ => ?_)
    | with_reducible refine List.foldl_keeps ?_ (fun s x h => ?_)
    | with_reducible refine List.foldl_fst_keeps ?_ (fun s x h => ?_)
    | with_reducible refine List.foldl_snd_keeps ?_ (fun s x h => ?_)
    | intro s x h
    | simp only [Stable.mk_iff hP]
    | split
    | dsimp only

theorem State.hallsLose_keeps (hP : Stable P) {s : State} (h : P s) : P (State.hallsLose s) := by
  unfold State.hallsLose
  repeat' first
    | with_reducible assumption
    | with_reducible apply State.rerunFlight_keeps hP
    | with_reducible refine ite_keeps (fun _ => ?_) (fun _ => ?_)
    | with_reducible refine fst_ite_keeps (fun _ => ?_) (fun _ => ?_)
    | with_reducible refine snd_ite_keeps (fun _ => ?_) (fun _ => ?_)
    | with_reducible refine List.foldl_keeps ?_ (fun s x h => ?_)
    | with_reducible refine List.foldl_fst_keeps ?_ (fun s x h => ?_)
    | with_reducible refine List.foldl_snd_keeps ?_ (fun s x h => ?_)
    | intro s x h
    | simp only [Stable.mk_iff hP]
    | split
    | dsimp only

theorem execWatchEntryComplete_keeps (hP : Stable P) {s : State} (h : P s) : OutP P (execWatchEntryComplete s) := by
  unfold execWatchEntryComplete
  repeat' first
    | with_reducible assumption
    | with_reducible apply State.countFld_keeps hP
    | with_reducible apply State.hallsLose_keeps hP
    | with_reducible apply State.setPstate_keeps hP
    | with_reducible refine ite_keeps (fun _ => ?_) (fun _ => ?_)
    | with_reducible apply OutP.next
    | with_reducible refine OutP.ite (fun _ => ?_) (fun _ => ?_)
    | with_reducible refine fst_ite_keeps (fun _ => ?_) (fun _ => ?_)
    | with_reducible refine snd_ite_keeps (fun _ => ?_) (fun _ => ?_)
    | with_reducible refine List.foldl_keeps ?_ (fun s x h => ?_)
    | with_reducible refine List.foldl_fst_keeps ?_ (fun s x h => ?_)
    | with_reducible refine List.foldl_snd_keeps ?_ (fun s x h => ?_)
    | intro s x h
    | simp only [Stable.mk_iff hP]
    | split
    | dsimp only

theorem State.wake_keeps (hP : Stable P) {s : State} {cause : ℕ} (h : P s) : P (State.wake s cause) := by
  unfold State.wake
  repeat' first
    | with_reducible assumption
    | with_reducible apply State.setPstate_keeps hP
    | with_reducible apply State.setFld_keeps hP
    | with_reducible refine ite_keeps (fun _ => ?_) (fun _ => ?_)
    | with_reducible refine fst_ite_keeps (fun _ => ?_) (fun _ => ?_)
    | with_reducible refine snd_ite_keeps (fun _ => ?_) (fun _ => ?_)
    | with_reducible refine List.foldl_keeps ?_ (fun s x h => ?_)
    | with_reducible refine List.foldl_fst_keeps ?_ (fun s x h => ?_)
    | with_reducible refine List.foldl_snd_keeps ?_ (fun s x h => ?_)
    | intro s x h
    | simp only [Stable.mk_iff hP]
    | split
    | dsimp only

theorem execWake_keeps (hP : Stable P) {management : Bool} {s : State} (h : P s) : OutP P (execWake management s) := by
  unfold execWake
  repeat' first
    | with_reducible assumption
    | with_reducible apply State.wake_keeps hP
    | with_reducible refine ite_keeps (fun _ => ?_) (fun _ => ?_)
    | with_reducible apply OutP.next
    | with_reducible refine OutP.ite (fun _ => ?_) (fun _ => ?_)
    | with_reducible refine fst_ite_keeps (fun _ => ?_) (fun _ => ?_)
    | with_reducible refine snd_ite_keeps (fun _ => ?_) (fun _ => ?_)
    | with_reducible refine List.foldl_keeps ?_ (fun s x h => ?_)
    | with_reducible refine List.foldl_fst_keeps ?_ (fun s x h => ?_)
    | with_reducible refine List.foldl_snd_keeps ?_ (fun s x h => ?_)
    | intro s x h
    | simp only [Stable.mk_iff hP]
    | split
    | dsimp only

theorem execWatchSample_keeps (hP : Lasting P) {m : PowerMeas} {s : State} (h : P s) : OutP P (execWatchSample m s) := by
  unfold execWatchSample
  repeat' first
    | with_reducible assumption
    | with_reducible apply State.setFld_keeps hP.stable
    | with_reducible apply State.thermal_keeps hP
    | with_reducible apply State.wake_keeps hP.stable
    | with_reducible refine ite_keeps (fun _ => ?_) (fun _ => ?_)
    | with_reducible apply OutP.next
    | with_reducible refine OutP.ite (fun _ => ?_) (fun _ => ?_)
    | with_reducible refine fst_ite_keeps (fun _ => ?_) (fun _ => ?_)
    | with_reducible refine snd_ite_keeps (fun _ => ?_) (fun _ => ?_)
    | with_reducible refine List.foldl_keeps ?_ (fun s x h => ?_)
    | with_reducible refine List.foldl_fst_keeps ?_ (fun s x h => ?_)
    | with_reducible refine List.foldl_snd_keeps ?_ (fun s x h => ?_)
    | intro s x h
    | simp only [Stable.mk_iff hP.stable]
    | split
    | dsimp only

theorem execWatchExitComplete_keeps (hP : Lasting P) {s : State} (h : P s) : OutP P (execWatchExitComplete s) := by
  unfold execWatchExitComplete
  repeat' first
    | with_reducible assumption
    | with_reducible apply State.reloadFirmware_keeps hP.stable
    | with_reducible apply State.allDies_keeps hP.stable
    | with_reducible apply State.setPstate_keeps hP.stable
    | with_reducible apply State.writeScratch_keeps hP.stable
    | with_reducible apply State.each_keeps hP.stable
    | with_reducible apply State.setPort_keeps hP.stable
    | with_reducible apply State.perstReset_keeps hP
    | with_reducible refine ite_keeps (fun _ => ?_) (fun _ => ?_)
    | with_reducible apply OutP.next
    | with_reducible refine OutP.ite (fun _ => ?_) (fun _ => ?_)
    | with_reducible refine fst_ite_keeps (fun _ => ?_) (fun _ => ?_)
    | with_reducible refine snd_ite_keeps (fun _ => ?_) (fun _ => ?_)
    | with_reducible refine List.foldl_keeps ?_ (fun s x h => ?_)
    | with_reducible refine List.foldl_fst_keeps ?_ (fun s x h => ?_)
    | with_reducible refine List.foldl_snd_keeps ?_ (fun s x h => ?_)
    | intro s x h
    | simp only [Stable.mk_iff hP.stable]
    | split
    | dsimp only

theorem execPciePerstN_keeps (hP : Lasting P) {s : State} (h : P s) : OutP P (execPciePerstN s) := by
  unfold execPciePerstN
  repeat' first
    | with_reducible assumption
    | with_reducible apply State.wake_keeps hP.stable
    | with_reducible apply State.perstReset_keeps hP
    | with_reducible apply State.pcieReset_keeps hP
    | with_reducible refine ite_keeps (fun _ => ?_) (fun _ => ?_)
    | with_reducible apply OutP.next
    | with_reducible refine OutP.ite (fun _ => ?_) (fun _ => ?_)
    | with_reducible refine fst_ite_keeps (fun _ => ?_) (fun _ => ?_)
    | with_reducible refine snd_ite_keeps (fun _ => ?_) (fun _ => ?_)
    | with_reducible refine List.foldl_keeps ?_ (fun s x h => ?_)
    | with_reducible refine List.foldl_fst_keeps ?_ (fun s x h => ?_)
    | with_reducible refine List.foldl_snd_keeps ?_ (fun s x h => ?_)
    | intro s x h
    | simp only [Stable.mk_iff hP.stable]
    | split
    | dsimp only

theorem execPldmRequest_keeps (hP : Stable P) {_sensor : Byte} {s : State} (h : P s) : OutP P (execPldmRequest _sensor s) := by
  unfold execPldmRequest
  repeat' first
    | with_reducible assumption
    | with_reducible apply State.wake_keeps hP
    | with_reducible refine ite_keeps (fun _ => ?_) (fun _ => ?_)
    | with_reducible apply OutP.next
    | with_reducible refine OutP.ite (fun _ => ?_) (fun _ => ?_)
    | with_reducible refine fst_ite_keeps (fun _ => ?_) (fun _ => ?_)
    | with_reducible refine snd_ite_keeps (fun _ => ?_) (fun _ => ?_)
    | with_reducible refine List.foldl_keeps ?_ (fun s x h => ?_)
    | with_reducible refine List.foldl_fst_keeps ?_ (fun s x h => ?_)
    | with_reducible refine List.foldl_snd_keeps ?_ (fun s x h => ?_)
    | intro s x h
    | simp only [Stable.mk_iff hP]
    | split
    | dsimp only

theorem execPcieLinkTrained_keeps (hP : Lasting P) {flit : Bool} {width : BitVec 5} {speed : BitVec 4} {s : State} (h : P s) :
    OutP P (execPcieLinkTrained flit width speed s) := by
  unfold execPcieLinkTrained
  repeat' first
    | with_reducible assumption
    | with_reducible apply State.perstReset_keeps hP
    | with_reducible apply State.setFld_keeps hP.stable
    | with_reducible refine ite_keeps (fun _ => ?_) (fun _ => ?_)
    | with_reducible apply OutP.next
    | with_reducible refine OutP.ite (fun _ => ?_) (fun _ => ?_)
    | with_reducible refine fst_ite_keeps (fun _ => ?_) (fun _ => ?_)
    | with_reducible refine snd_ite_keeps (fun _ => ?_) (fun _ => ?_)
    | with_reducible refine List.foldl_keeps ?_ (fun s x h => ?_)
    | with_reducible refine List.foldl_fst_keeps ?_ (fun s x h => ?_)
    | with_reducible refine List.foldl_snd_keeps ?_ (fun s x h => ?_)
    | intro s x h
    | simp only [Stable.mk_iff hP.stable]
    | split
    | dsimp only

end Sys2Proof.Machine
end

