-- ==== Sys2Proof/Laws/KeepHostInterface.lean ====
section
/-! SUPPORT. What the definitions of Machine/HostInterface.lean keep. -/

set_option linter.unusedTactic false
set_option linter.unreachableTactic false

namespace Sys2Proof.Machine

variable {P : State → Prop}

theorem State.readEffect_keeps (hP : Stable P) {s : State} {t : Target} (h : P s) : P (State.readEffect s t) := by
  unfold State.readEffect
  repeat' first
    | with_reducible assumption
    | with_reducible apply State.setStk_keeps hP
    | with_reducible refine ite_keeps (fun _ => ?_) (fun _ => ?_)
    | with_reducible refine fst_ite_keeps (fun _ => ?_) (fun _ => ?_)
    | with_reducible refine snd_ite_keeps (fun _ => ?_) (fun _ => ?_)
    | with_reducible refine List.foldl_keeps ?_ (fun s x h => ?_)
    | with_reducible refine List.foldl_fst_keeps ?_ (fun s x h => ?_)
    | with_reducible refine List.foldl_snd_keeps ?_ (fun s x h => ?_)
    | intro s x h
    | simp only [Stable.mk_iff hP]
    | split
    | dsimp only

theorem execHalfRegisterRead_keeps (hP : Stable P) {q : BarReq} {off : ℕ} {s : State} (h : P s) : OutP P (execHalfRegisterRead q off s) := by
  unfold execHalfRegisterRead
  repeat' first
    | with_reducible assumption
    | with_reducible apply State.readEffect_keeps hP
    | with_reducible refine ite_keeps (fun _ => ?_) (fun _ => ?_)
    | with_reducible apply OutP.next
    | with_reducible refine OutP.ite (fun _ => ?_) (fun _ => ?_)
    | with_reducible refine fst_ite_keeps (fun _ => ?_) (fun _ => ?_)
    | with_reducible refine snd_ite_keeps (fun _ => ?_) (fun _ => ?_)
    | with_reducible refine List.foldl_keeps ?_ (fun s x h => ?_)
    | with_reducible refine List.foldl_fst_keeps ?_ (fun s x h => ?_)
    | with_reducible refine List.foldl_snd_keeps ?_ (fun s x h => ?_)
    | intro s x h
    | simp only [Stable.mk_iff hP]
    | split
    | dsimp only

theorem execWakePeakRead_keeps (hP : Stable P) {st : StackId} {s : State} (h : P s) : OutP P (execWakePeakRead st s) := by
  unfold execWakePeakRead
  repeat' first
    | with_reducible assumption
    | with_reducible apply State.readEffect_keeps hP
    | with_reducible refine ite_keeps (fun _ => ?_) (fun _ => ?_)
    | with_reducible apply OutP.next
    | with_reducible refine OutP.ite (fun _ => ?_) (fun _ => ?_)
    | with_reducible refine fst_ite_keeps (fun _ => ?_) (fun _ => ?_)
    | with_reducible refine snd_ite_keeps (fun _ => ?_) (fun _ => ?_)
    | with_reducible refine List.foldl_keeps ?_ (fun s x h => ?_)
    | with_reducible refine List.foldl_fst_keeps ?_ (fun s x h => ?_)
    | with_reducible refine List.foldl_snd_keeps ?_ (fun s x h => ?_)
    | intro s x h
    | simp only [Stable.mk_iff hP]
    | split
    | dsimp only

theorem State.tstCtrl_keeps (hP : Stable P) {s : State} {v : Word} {m : Word} (h : P s) : P (State.tstCtrl s v m) := by
  unfold State.tstCtrl
  repeat' first
    | with_reducible assumption
    | with_reducible apply State.setReg_keeps hP
    | with_reducible apply State.flag_keeps hP
    | with_reducible refine ite_keeps (fun _ => ?_) (fun _ => ?_)
    | with_reducible refine fst_ite_keeps (fun _ => ?_) (fun _ => ?_)
    | with_reducible refine snd_ite_keeps (fun _ => ?_) (fun _ => ?_)
    | with_reducible refine List.foldl_keeps ?_ (fun s x h => ?_)
    | with_reducible refine List.foldl_fst_keeps ?_ (fun s x h => ?_)
    | with_reducible refine List.foldl_snd_keeps ?_ (fun s x h => ?_)
    | intro s x h
    | simp only [Stable.mk_iff hP]
    | split
    | dsimp only

theorem State.mirCtrl_keeps (hP : Stable P) {s : State} {v : Word} {m : Word} (h : P s) : P (State.mirCtrl s v m) := by
  unfold State.mirCtrl
  repeat' first
    | with_reducible assumption
    | with_reducible apply State.writeBits_keeps hP
    | with_reducible apply State.claim_keeps hP
    | with_reducible apply State.formPair_keeps hP
    | with_reducible apply State.setFld_keeps hP
    | with_reducible apply State.mirOff_keeps hP
    | with_reducible refine ite_keeps (fun _ => ?_) (fun _ => ?_)
    | with_reducible refine fst_ite_keeps (fun _ => ?_) (fun _ => ?_)
    | with_reducible refine snd_ite_keeps (fun _ => ?_) (fun _ => ?_)
    | with_reducible refine List.foldl_keeps ?_ (fun s x h => ?_)
    | with_reducible refine List.foldl_fst_keeps ?_ (fun s x h => ?_)
    | with_reducible refine List.foldl_snd_keeps ?_ (fun s x h => ?_)
    | intro s x h
    | simp only [Stable.mk_iff hP]
    | split
    | dsimp only

theorem State.portCtrl_keeps (hP : Stable P) {s : State} {n : ℕ} {v : Word} {m : Word} (h : P s) : P (State.portCtrl s n v m) := by
  unfold State.portCtrl
  repeat' first
    | with_reducible assumption
    | with_reducible apply State.writeBits_keeps hP
    | with_reducible apply State.portEnable_keeps hP
    | with_reducible apply State.portDisable_keeps hP
    | with_reducible apply State.retrain_keeps hP
    | with_reducible refine ite_keeps (fun _ => ?_) (fun _ => ?_)
    | with_reducible refine fst_ite_keeps (fun _ => ?_) (fun _ => ?_)
    | with_reducible refine snd_ite_keeps (fun _ => ?_) (fun _ => ?_)
    | with_reducible refine List.foldl_keeps ?_ (fun s x h => ?_)
    | with_reducible refine List.foldl_fst_keeps ?_ (fun s x h => ?_)
    | with_reducible refine List.foldl_snd_keeps ?_ (fun s x h => ?_)
    | intro s x h
    | simp only [Stable.mk_iff hP]
    | split
    | dsimp only

theorem State.engineCtrl_keeps (hP : Stable P) {s : State} {off : ℕ} {v : Word} {m : Word} (h : P s) : P (State.engineCtrl s off v m) := by
  unfold State.engineCtrl
  repeat' first
    | with_reducible assumption
    | with_reducible apply State.writeBits_keeps hP
    | with_reducible apply State.setFld_keeps hP
    | with_reducible apply State.engineOff_keeps hP
    | with_reducible refine ite_keeps (fun _ => ?_) (fun _ => ?_)
    | with_reducible refine fst_ite_keeps (fun _ => ?_) (fun _ => ?_)
    | with_reducible refine snd_ite_keeps (fun _ => ?_) (fun _ => ?_)
    | with_reducible refine List.foldl_keeps ?_ (fun s x h => ?_)
    | with_reducible refine List.foldl_fst_keeps ?_ (fun s x h => ?_)
    | with_reducible refine List.foldl_snd_keeps ?_ (fun s x h => ?_)
    | intro s x h
    | simp only [Stable.mk_iff hP]
    | split
    | dsimp only

theorem State.writeFix_keeps (hP : Lasting P) {s : State} {off : ℕ} {v : Word} {m : Word} (h : P s) : P (State.writeFix s off v m) := by
  unfold State.writeFix
  repeat' first
    | with_reducible assumption
    | with_reducible apply State.writeBits_keeps hP.stable
    | with_reducible apply State.genOn_keeps hP
    | with_reducible apply State.genOff_keeps hP.stable
    | with_reducible apply State.setFld_keeps hP.stable
    | with_reducible apply State.feOff_keeps hP.stable
    | with_reducible apply State.engineCtrl_keeps hP.stable
    | with_reducible apply State.mirCtrl_keeps hP.stable
    | with_reducible apply State.zeroise_keeps hP.stable
    | with_reducible apply State.watchReq_keeps hP.stable
    | with_reducible apply State.wake_keeps hP.stable
    | with_reducible apply State.dbgCmd_keeps hP.stable
    | with_reducible apply State.ringSel_keeps hP.stable
    | with_reducible apply State.tstCtrl_keeps hP.stable
    | with_reducible apply State.tstInject_keeps hP.stable
    | with_reducible refine ite_keeps (fun _ => ?_) (fun _ => ?_)
    | with_reducible refine fst_ite_keeps (fun _ => ?_) (fun _ => ?_)
    | with_reducible refine snd_ite_keeps (fun _ => ?_) (fun _ => ?_)
    | with_reducible refine List.foldl_keeps ?_ (fun s x h => ?_)
    | with_reducible refine List.foldl_fst_keeps ?_ (fun s x h => ?_)
    | with_reducible refine List.foldl_snd_keeps ?_ (fun s x h => ?_)
    | intro s x h
    | simp only [Stable.mk_iff hP.stable]
    | split
    | dsimp only

theorem State.writeWord_keeps (hP : Lasting P) {s : State} {off : ℕ} {v : Word} {m : Word} (h : P s) : P (State.writeWord s off v m) := by
  unfold State.writeWord
  repeat' first
    | with_reducible assumption
    | with_reducible apply State.writeFix_keeps hP
    | with_reducible apply State.portCtrl_keeps hP.stable
    | with_reducible apply State.createPart_keeps hP.stable
    | with_reducible apply State.destroyPart_keeps hP.stable
    | with_reducible apply State.writeBits_keeps hP.stable
    | with_reducible apply State.ctxCommand_keeps hP.stable
    | with_reducible apply State.setReg_keeps hP.stable
    | with_reducible apply State.engineCtrl_keeps hP.stable
    | with_reducible refine ite_keeps (fun _ => ?_) (fun _ => ?_)
    | with_reducible refine fst_ite_keeps (fun _ => ?_) (fun _ => ?_)
    | with_reducible refine snd_ite_keeps (fun _ => ?_) (fun _ => ?_)
    | with_reducible refine List.foldl_keeps ?_ (fun s x h => ?_)
    | with_reducible refine List.foldl_fst_keeps ?_ (fun s x h => ?_)
    | with_reducible refine List.foldl_snd_keeps ?_ (fun s x h => ?_)
    | intro s x h
    | simp only [Stable.mk_iff hP.stable]
    | split
    | dsimp only

theorem State.msixWrite_keeps (hP : Stable P) {s : State} {vf : Option ℕ} {i : ℕ} {v : Word} {m : Word} (h : P s) :
    P (State.msixWrite s vf i v m) := by
  unfold State.msixWrite
  repeat' first
    | with_reducible assumption
    | with_reducible refine ite_keeps (fun _ => ?_) (fun _ => ?_)
    | with_reducible refine fst_ite_keeps (fun _ => ?_) (fun _ => ?_)
    | with_reducible refine snd_ite_keeps (fun _ => ?_) (fun _ => ?_)
    | with_reducible refine List.foldl_keeps ?_ (fun s x h => ?_)
    | with_reducible refine List.foldl_fst_keeps ?_ (fun s x h => ?_)
    | with_reducible refine List.foldl_snd_keeps ?_ (fun s x h => ?_)
    | intro s x h
    | simp only [Stable.mk_iff hP]
    | split
    | dsimp only

theorem State.writeTarget_keeps (hP : Lasting P) {s : State} {t : Target} {v : Word} {m : Word} (h : P s) :
    P (State.writeTarget s t v m) := by
  unfold State.writeTarget
  repeat' first
    | with_reducible assumption
    | with_reducible apply State.writeWord_keeps hP
    | with_reducible apply State.msixWrite_keeps hP.stable
    | with_reducible refine ite_keeps (fun _ => ?_) (fun _ => ?_)
    | with_reducible refine fst_ite_keeps (fun _ => ?_) (fun _ => ?_)
    | with_reducible refine snd_ite_keeps (fun _ => ?_) (fun _ => ?_)
    | with_reducible refine List.foldl_keeps ?_ (fun s x h => ?_)
    | with_reducible refine List.foldl_fst_keeps ?_ (fun s x h => ?_)
    | with_reducible refine List.foldl_snd_keeps ?_ (fun s x h => ?_)
    | intro s x h
    | simp only [Stable.mk_iff hP.stable]
    | split
    | dsimp only

theorem State.releaseHalf_keeps (hP : Lasting P) {s : State} {r : Requester} (h : P s) : P (State.releaseHalf s r) := by
  unfold State.releaseHalf
  repeat' first
    | with_reducible assumption
    | with_reducible apply State.writeTarget_keeps hP
    | with_reducible refine ite_keeps (fun _ => ?_) (fun _ => ?_)
    | with_reducible refine fst_ite_keeps (fun _ => ?_) (fun _ => ?_)
    | with_reducible refine snd_ite_keeps (fun _ => ?_) (fun _ => ?_)
    | with_reducible refine List.foldl_keeps ?_ (fun s x h => ?_)
    | with_reducible refine List.foldl_fst_keeps ?_ (fun s x h => ?_)
    | with_reducible refine List.foldl_snd_keeps ?_ (fun s x h => ?_)
    | intro s x h
    | simp only [Stable.mk_iff hP.stable]
    | split
    | dsimp only

theorem State.badWrite_keeps (hP : Stable P) {s : State} (h : P s) : P (State.badWrite s) := by
  unfold State.badWrite
  repeat' first
    | with_reducible assumption
    | with_reducible apply State.countFld_keeps hP
    | with_reducible apply State.flag_keeps hP
    | with_reducible refine ite_keeps (fun _ => ?_) (fun _ => ?_)
    | with_reducible refine fst_ite_keeps (fun _ => ?_) (fun _ => ?_)
    | with_reducible refine snd_ite_keeps (fun _ => ?_) (fun _ => ?_)
    | with_reducible refine List.foldl_keeps ?_ (fun s x h => ?_)
    | with_reducible refine List.foldl_fst_keeps ?_ (fun s x h => ?_)
    | with_reducible refine List.foldl_snd_keeps ?_ (fun s x h => ?_)
    | intro s x h
    | simp only [Stable.mk_iff hP]
    | split
    | dsimp only

theorem State.hostWrite_keeps (hP : Lasting P) {s : State} {r : Requester} {off : ℕ} {bytes : ℕ} {value : Word} (h : P s) :
    P (State.hostWrite s r off bytes value) := by
  unfold State.hostWrite
  repeat' first
    | with_reducible assumption
    | with_reducible apply State.writeTarget_keeps hP
    | with_reducible apply State.releaseHalf_keeps hP
    | with_reducible apply State.badWrite_keeps hP.stable
    | with_reducible refine ite_keeps (fun _ => ?_) (fun _ => ?_)
    | with_reducible refine fst_ite_keeps (fun _ => ?_) (fun _ => ?_)
    | with_reducible refine snd_ite_keeps (fun _ => ?_) (fun _ => ?_)
    | with_reducible refine List.foldl_keeps ?_ (fun s x h => ?_)
    | with_reducible refine List.foldl_fst_keeps ?_ (fun s x h => ?_)
    | with_reducible refine List.foldl_snd_keeps ?_ (fun s x h => ?_)
    | intro s x h
    | simp only [Stable.mk_iff hP.stable]
    | split
    | dsimp only

theorem execRegisterWrite_keeps (hP : Lasting P) {q : BarReq} {off : ℕ} {bytes : ℕ} {value : Word} {s : State} (h : P s) :
    OutP P (execRegisterWrite q off bytes value s) := by
  unfold execRegisterWrite
  repeat' first
    | with_reducible assumption
    | with_reducible apply State.hostWrite_keeps hP
    | with_reducible refine ite_keeps (fun _ => ?_) (fun _ => ?_)
    | with_reducible apply OutP.next
    | with_reducible refine OutP.ite (fun _ => ?_) (fun _ => ?_)
    | with_reducible refine fst_ite_keeps (fun _ => ?_) (fun _ => ?_)
    | with_reducible refine snd_ite_keeps (fun _ => ?_) (fun _ => ?_)
    | with_reducible refine List.foldl_keeps ?_ (fun s x h => ?_)
    | with_reducible refine List.foldl_fst_keeps ?_ (fun s x h => ?_)
    | with_reducible refine List.foldl_snd_keeps ?_ (fun s x h => ?_)
    | intro s x h
    | simp only [Stable.mk_iff hP.stable]
    | split
    | dsimp only

theorem execGuardedWrite_keeps (hP : Lasting P) {q : BarReq} {off : ℕ} {value : Word} {s : State} (h : P s) :
    OutP P (execGuardedWrite q off value s) := by
  unfold execGuardedWrite
  repeat' first
    | with_reducible assumption
    | with_reducible apply State.hostWrite_keeps hP
    | with_reducible refine ite_keeps (fun _ => ?_) (fun _ => ?_)
    | with_reducible apply OutP.next
    | with_reducible refine OutP.ite (fun _ => ?_) (fun _ => ?_)
    | with_reducible refine fst_ite_keeps (fun _ => ?_) (fun _ => ?_)
    | with_reducible refine snd_ite_keeps (fun _ => ?_) (fun _ => ?_)
    | with_reducible refine List.foldl_keeps ?_ (fun s x h => ?_)
    | with_reducible refine List.foldl_fst_keeps ?_ (fun s x h => ?_)
    | with_reducible refine List.foldl_snd_keeps ?_ (fun s x h => ?_)
    | intro s x h
    | simp only [Stable.mk_iff hP.stable]
    | split
    | dsimp only

theorem execApertureAccess_keeps (hP : Lasting P) {off : ℕ} {isWrite : Bool} {value : Word} {s : State} (h : P s) :
    OutP P (execApertureAccess off isWrite value s) := by
  unfold execApertureAccess
  repeat' first
    | with_reducible assumption
    | with_reducible apply State.bar2Access_keeps hP
    | with_reducible apply State.releaseHalf_keeps hP
    | with_reducible refine ite_keeps (fun _ => ?_) (fun _ => ?_)
    | with_reducible apply OutP.next
    | with_reducible refine OutP.ite (fun _ => ?_) (fun _ => ?_)
    | with_reducible refine fst_ite_keeps (fun _ => ?_) (fun _ => ?_)
    | with_reducible refine snd_ite_keeps (fun _ => ?_) (fun _ => ?_)
    | with_reducible refine List.foldl_keeps ?_ (fun s x h => ?_)
    | with_reducible refine List.foldl_fst_keeps ?_ (fun s x h => ?_)
    | with_reducible refine List.foldl_snd_keeps ?_ (fun s x h => ?_)
    | intro s x h
    | simp only [Stable.mk_iff hP.stable]
    | split
    | dsimp only

theorem execVfEnable_keeps (hP : Stable P) {n : Fin 17} {s : State} (h : P s) : OutP P (execVfEnable n s) := by
  unfold execVfEnable
  repeat' first
    | with_reducible assumption
    | with_reducible apply State.setFld_keeps hP
    | with_reducible refine ite_keeps (fun _ => ?_) (fun _ => ?_)
    | with_reducible apply OutP.next
    | with_reducible refine OutP.ite (fun _ => ?_) (fun _ => ?_)
    | with_reducible refine fst_ite_keeps (fun _ => ?_) (fun _ => ?_)
    | with_reducible refine snd_ite_keeps (fun _ => ?_) (fun _ => ?_)
    | with_reducible refine List.foldl_keeps ?_ (fun s x h => ?_)
    | with_reducible refine List.foldl_fst_keeps ?_ (fun s x h => ?_)
    | with_reducible refine List.foldl_snd_keeps ?_ (fun s x h => ?_)
    | intro s x h
    | simp only [Stable.mk_iff hP]
    | split
    | dsimp only

theorem State.resetSlice_keeps (hP : Stable P) {s : State} {p : ℕ} (h : P s) : P (State.resetSlice s p) := by
  unfold State.resetSlice
  repeat' first
    | with_reducible assumption
    | with_reducible refine ite_keeps (fun _ => ?_) (fun _ => ?_)
    | with_reducible refine fst_ite_keeps (fun _ => ?_) (fun _ => ?_)
    | with_reducible refine snd_ite_keeps (fun _ => ?_) (fun _ => ?_)
    | with_reducible refine List.foldl_keeps ?_ (fun s x h => ?_)
    | with_reducible refine List.foldl_fst_keeps ?_ (fun s x h => ?_)
    | with_reducible refine List.foldl_snd_keeps ?_ (fun s x h => ?_)
    | intro s x h
    | simp only [Stable.mk_iff hP]
    | split
    | dsimp only

theorem State.dropQueues_keeps (hP : Stable P) {s : State} {p : ℕ} (h : P s) : P (State.dropQueues s p) := by
  unfold State.dropQueues
  repeat' first
    | with_reducible assumption
    | with_reducible apply State.killQueue_keeps hP
    | with_reducible apply State.setQueue_keeps hP
    | with_reducible apply State.tearDescs_keeps hP
    | with_reducible refine ite_keeps (fun _ => ?_) (fun _ => ?_)
    | with_reducible refine fst_ite_keeps (fun _ => ?_) (fun _ => ?_)
    | with_reducible refine snd_ite_keeps (fun _ => ?_) (fun _ => ?_)
    | with_reducible refine List.foldl_keeps ?_ (fun s x h => ?_)
    | with_reducible refine List.foldl_fst_keeps ?_ (fun s x h => ?_)
    | with_reducible refine List.foldl_snd_keeps ?_ (fun s x h => ?_)
    | intro s x h
    | simp only [Stable.mk_iff hP]
    | split
    | dsimp only

theorem State.flrVf_keeps (hP : Lasting P) {s : State} {p : ℕ} (h : P s) : P (State.flrVf s p) := by
  unfold State.flrVf
  repeat' first
    | with_reducible assumption
    | with_reducible apply State.landing3_keeps hP
    | with_reducible apply State.resetSlice_keeps hP.stable
    | with_reducible apply State.dropQueues_keeps hP.stable
    | with_reducible apply State.setPart_keeps hP.stable
    | with_reducible apply State.freeHost_keeps hP
    | with_reducible apply State.setFld_keeps hP.stable
    | with_reducible apply State.readyAgain_keeps hP.stable
    | with_reducible refine ite_keeps (fun _ => ?_) (fun _ => ?_)
    | with_reducible refine fst_ite_keeps (fun _ => ?_) (fun _ => ?_)
    | with_reducible refine snd_ite_keeps (fun _ => ?_) (fun _ => ?_)
    | with_reducible refine List.foldl_keeps ?_ (fun s x h => ?_)
    | with_reducible refine List.foldl_fst_keeps ?_ (fun s x h => ?_)
    | with_reducible refine List.foldl_snd_keeps ?_ (fun s x h => ?_)
    | intro s x h
    | simp only [Stable.mk_iff hP.stable]
    | split
    | dsimp only

theorem State.resetSetup_keeps (hP : Stable P) {s : State} (h : P s) : P (State.resetSetup s) := by
  unfold State.resetSetup
  repeat' first
    | with_reducible assumption
    | with_reducible apply State.setReg_keeps hP
    | with_reducible refine ite_keeps (fun _ => ?_) (fun _ => ?_)
    | with_reducible refine fst_ite_keeps (fun _ => ?_) (fun _ => ?_)
    | with_reducible refine snd_ite_keeps (fun _ => ?_) (fun _ => ?_)
    | with_reducible refine List.foldl_keeps ?_ (fun s x h => ?_)
    | with_reducible refine List.foldl_fst_keeps ?_ (fun s x h => ?_)
    | with_reducible refine List.foldl_snd_keeps ?_ (fun s x h => ?_)
    | intro s x h
    | simp only [Stable.mk_iff hP]
    | split
    | dsimp only

theorem State.flrPf_keeps (hP : Lasting P) {s : State} (h : P s) : P (State.flrPf s) := by
  unfold State.flrPf
  repeat' first
    | with_reducible assumption
    | with_reducible apply State.landing4_keeps hP
    | with_reducible apply State.each_keeps hP.stable
    | with_reducible apply State.destroy1_keeps hP.stable
    | with_reducible apply State.resetSetup_keeps hP.stable
    | with_reducible apply State.killQueue_keeps hP.stable
    | with_reducible apply State.setGenState_keeps hP.stable
    | with_reducible refine ite_keeps (fun _ => ?_) (fun _ => ?_)
    | with_reducible refine fst_ite_keeps (fun _ => ?_) (fun _ => ?_)
    | with_reducible refine snd_ite_keeps (fun _ => ?_) (fun _ => ?_)
    | with_reducible refine List.foldl_keeps ?_ (fun s x h => ?_)
    | with_reducible refine List.foldl_fst_keeps ?_ (fun s x h => ?_)
    | with_reducible refine List.foldl_snd_keeps ?_ (fun s x h => ?_)
    | intro s x h
    | simp only [Stable.mk_iff hP.stable]
    | split
    | dsimp only

theorem execFunctionLevelResetVf_keeps (hP : Lasting P) {p : PartId} {s : State} (h : P s) : OutP P (execFunctionLevelResetVf p s) := by
  unfold execFunctionLevelResetVf
  repeat' first
    | with_reducible assumption
    | with_reducible apply State.flrVf_keeps hP
    | with_reducible refine ite_keeps (fun _ => ?_) (fun _ => ?_)
    | with_reducible apply OutP.next
    | with_reducible refine OutP.ite (fun _ => ?_) (fun _ => ?_)
    | with_reducible refine fst_ite_keeps (fun _ => ?_) (fun _ => ?_)
    | with_reducible refine snd_ite_keeps (fun _ => ?_) (fun _ => ?_)
    | with_reducible refine List.foldl_keeps ?_ (fun s x h => ?_)
    | with_reducible refine List.foldl_fst_keeps ?_ (fun s x h => ?_)
    | with_reducible refine List.foldl_snd_keeps ?_ (fun s x h => ?_)
    | intro s x h
    | simp only [Stable.mk_iff hP.stable]
    | split
    | dsimp only

theorem execFunctionLevelResetPf_keeps (hP : Lasting P) {s : State} (h : P s) : OutP P (execFunctionLevelResetPf s) := by
  unfold execFunctionLevelResetPf
  repeat' first
    | with_reducible assumption
    | with_reducible apply State.flrPf_keeps hP
    | with_reducible refine ite_keeps (fun _ => ?_) (fun _ => ?_)
    | with_reducible apply OutP.next
    | with_reducible refine OutP.ite (fun _ => ?_) (fun _ => ?_)
    | with_reducible refine fst_ite_keeps (fun _ => ?_) (fun _ => ?_)
    | with_reducible refine snd_ite_keeps (fun _ => ?_) (fun _ => ?_)
    | with_reducible refine List.foldl_keeps ?_ (fun s x h => ?_)
    | with_reducible refine List.foldl_fst_keeps ?_ (fun s x h => ?_)
    | with_reducible refine List.foldl_snd_keeps ?_ (fun s x h => ?_)
    | intro s x h
    | simp only [Stable.mk_iff hP.stable]
    | split
    | dsimp only

theorem execD3hotEntry_keeps (hP : Lasting P) {fn : Fin 17} {s : State} (h : P s) : OutP P (execD3hotEntry fn s) := by
  unfold execD3hotEntry
  repeat' first
    | with_reducible assumption
    | with_reducible apply State.flrPf_keeps hP
    | with_reducible apply State.flrVf_keeps hP
    | with_reducible refine ite_keeps (fun _ => ?_) (fun _ => ?_)
    | with_reducible apply OutP.next
    | with_reducible refine OutP.ite (fun _ => ?_) (fun _ => ?_)
    | with_reducible refine fst_ite_keeps (fun _ => ?_) (fun _ => ?_)
    | with_reducible refine snd_ite_keeps (fun _ => ?_) (fun _ => ?_)
    | with_reducible refine List.foldl_keeps ?_ (fun s x h => ?_)
    | with_reducible refine List.foldl_fst_keeps ?_ (fun s x h => ?_)
    | with_reducible refine List.foldl_snd_keeps ?_ (fun s x h => ?_)
    | intro s x h
    | simp only [Stable.mk_iff hP.stable]
    | split
    | dsimp only

end Sys2Proof.Machine
end

