-- ==== Sys2Proof/Laws/KeepExec.lean ====
section
/-! SUPPORT. What every command of the block keeps. -/

namespace Sys2Proof.Machine

variable {P : State → Prop}

/-- A predicate of the queue and the two memories that outlives writes keeping the canonical form outlives every command. -/
theorem exec_keeps (hP : Lasting P) (i : Instr) {s : State} (h : P s) : OutP P (exec i s) := by
  cases i with
  | nominalClose => exact execNominalClose_keeps hP h
  | tickDrained => exact execTickDrained_keeps hP h
  | tickOpen => exact execTickOpen_keeps hP.stable h
  | limitPoint => exact execLimitPoint_keeps hP h
  | progressSample => exact execProgressSample_keeps hP h
  | tickGenEnable => exact execTickGenEnable_keeps hP h
  | tickGenDisable => exact execTickGenDisable_keeps hP.stable h
  | tickSyncInEdge => exact execTickSyncInEdge_keeps hP h
  | barrierArrive => exact execBarrierArrive_keeps hP.stable h
  | barrierRelease => exact execBarrierRelease_keeps hP.stable h
  | barrierCompensatedStart => exact execBarrierCompensatedStart_keeps hP h
  | barrierTimeout => exact execBarrierTimeout_keeps hP h
  | softStopModule => exact execSoftStopModule_keeps hP.stable h
  | softStopPartition => exact execSoftStopPartition_keeps hP.stable h
  | softStopContext => exact execSoftStopContext_keeps hP.stable h
  | hardStopModule => exact execHardStopModule_keeps hP.stable h
  | hardStopPartition => exact execHardStopPartition_keeps hP.stable h
  | resumeModule => exact execResumeModule_keeps hP h
  | resumePartition => exact execResumePartition_keeps hP.stable h
  | resumeContext => exact execResumeContext_keeps hP.stable h
  | stopRequestInternal => exact execStopRequestInternal_keeps hP.stable h
  | hardStopComplete => exact execHardStopComplete_keeps hP h
  | backgroundOpComplete => exact execBackgroundOpComplete_keeps hP.stable h
  | flightEntry => exact execFlightEntry_keeps hP.stable h
  | wtickResume => exact execWtickResume_keeps hP.stable h
  | flightEnd => exact execFlightEnd_keeps hP.stable h
  | nop => exact execNop_keeps hP.stable h
  | endFlight => exact execEndFlight_keeps hP.stable h
  | wtick => exact execWtick_keeps hP.stable h
  | movi => exact execMovi_keeps hP.stable h
  | movhi => exact execMovhi_keeps hP.stable h
  | salu => exact execSalu_keeps hP.stable h
  | movs => exact execMovs_keeps hP.stable h
  | br => exact execBr_keeps hP.stable h
  | loop => exact execLoop_keeps hP.stable h
  | waitc => exact execWaitc_keeps hP.stable h
  | clrc => exact execClrc_keeps hP.stable h
  | qsync => exact execQsync_keeps hP.stable h
  | ldp => exact execLdp_keeps hP.stable h
  | lds => exact execLds_keeps hP.stable h
  | sts => exact execSts_keeps hP.stable h
  | fence => exact execFence_keeps hP.stable h
  | fenceReleaseDone => exact execFenceReleaseDone_keeps hP.stable h
  | signal => exact execSignal_keeps hP.stable h
  | signalDelivery => exact execSignalDelivery_keeps hP.stable h
  | sload => exact execSload_keeps hP.stable h
  | pass => exact execPass_keeps hP.stable h
  | drain => exact execDrain_keeps hP.stable h
  | valu => exact execValu_keeps hP.stable h
  | vint => exact execVint_keeps hP.stable h
  | vcvt => exact execVcvt_keeps hP.stable h
  | vfunc => exact execVfunc_keeps hP.stable h
  | vred => exact execVred_keeps hP.stable h
  | vmerge => exact execVmerge_keeps hP.stable h
  | vload => exact execVload_keeps hP.stable h
  | vrqst => exact execVrqst_keeps hP.stable h
  | vst => exact execVst_keeps hP.stable h
  | vmovx => exact execVmovx_keeps hP.stable h
  | dma => exact execDma_keeps hP.stable h
  | fill => exact execFill_keeps hP.stable h
  | copy => exact execCopy_keeps hP.stable h
  | dmaCopy => exact execDmaCopy_keeps hP h
  | movingLayout => exact execMovingLayout_keeps hP h
  | stationaryLayout => exact execStationaryLayout_keeps hP h
  | dmaGather => exact execDmaGather_keeps hP h
  | remote => exact execRemote_keeps hP.stable h
  | attention => exact execAttention_keeps hP.stable h
  | candidates => exact execCandidates_keeps hP.stable h
  | dmaConfirmation => exact execDmaConfirmation_keeps hP.stable h
  | remapProposal => exact execRemapProposal_keeps hP.stable h
  | stackLineRead => exact execStackLineRead_keeps hP h
  | stackLineWrite => exact execStackLineWrite_keeps hP h
  | scrub => exact execScrub_keeps hP.stable h
  | fcFill => exact execFcFill_keeps hP.stable h
  | fcCopy => exact execFcCopy_keeps hP.stable h
  | move => exact execMove_keeps hP.stable h
  | fcGather => exact execFcGather_keeps hP.stable h
  | verifyZero => exact execVerifyZero_keeps hP.stable h
  | fcCommandCompletion => exact execFcCommandCompletion_keeps hP h
  | stkMoveStalled => exact execStkMoveStalled_keeps hP.stable h
  | moveAbandon => exact execMoveAbandon_keeps hP.stable h
  | dieIdleEnter => exact execDieIdleEnter_keeps hP.stable h
  | dieSelfRefreshReached => exact execDieSelfRefreshReached_keeps hP.stable h
  | dieWakeComplete => exact execDieWakeComplete_keeps hP h
  | dieRestoreComplete => exact execDieRestoreComplete_keeps hP h
  | attentionSlice => exact execAttentionSlice_keeps hP.stable h
  | attentionRowComplete => exact execAttentionRowComplete_keeps hP h
  | candidateListMerge => exact execCandidateListMerge_keeps hP.stable h
  | visit => exact execVisit_keeps hP h
  | ringCheck => exact execRingCheck_keeps hP.stable h
  | hallRingStart => exact execHallRingStart_keeps hP.stable h
  | doorbellPoll => exact execDoorbellPoll_keeps hP.stable h
  | descriptorFetch => exact execDescriptorFetch_keeps hP.stable h
  | submitNop => exact execSubmitNop_keeps hP.stable h
  | launch => exact execLaunch_keeps hP.stable h
  | loadGraph => exact execLoadGraph_keeps hP.stable h
  | loadGraphComplete => exact execLoadGraphComplete_keeps hP.stable h
  | unloadGraph => exact execUnloadGraph_keeps hP.stable h
  | patch => exact execPatch_keeps hP.stable h
  | submitCopy => exact execSubmitCopy_keeps hP.stable h
  | alloc => exact execAlloc_keeps hP.stable h
  | mapHost => exact execMapHost_keeps hP.stable h
  | free => exact execFree_keeps hP.stable h
  | fenceCreate => exact execFenceCreate_keeps hP.stable h
  | streamOpen => exact execStreamOpen_keeps hP.stable h
  | streamCancel => exact execStreamCancel_keeps hP.stable h
  | reloadComplete => exact execReloadComplete_keeps hP.stable h
  | contextFence => exact execContextFence_keeps hP.stable h
  | contextDrainComplete => exact execContextDrainComplete_keeps hP.stable h
  | contextClearComplete => exact execContextClearComplete_keeps hP.stable h
  | engineFault => exact execEngineFault_keeps hP h
  | engineResetComplete => exact execEngineResetComplete_keeps hP.stable h
  | engineResetTimeout => exact execEngineResetTimeout_keeps hP h
  | landing3Request => exact execLanding3Request_keeps hP h
  | landing4 => exact execLanding4_keeps hP h
  | landingBoundExpiry => exact execLandingBoundExpiry_keeps hP h
  | galleryClearComplete => exact execGalleryClearComplete_keeps hP.stable h
  | firmwareWatchdog => exact execFirmwareWatchdog_keeps hP h
  | firmwareRemeasure => exact execFirmwareRemeasure_keeps hP h
  | knownAnswerTest => exact execKnownAnswerTest_keeps hP.stable h
  | onlPortEnable => exact execOnlPortEnable_keeps hP.stable h
  | portTrainingComplete => exact execPortTrainingComplete_keeps hP.stable h
  | onlRetrain => exact execOnlRetrain_keeps hP.stable h
  | fecLockLoss => exact execFecLockLoss_keeps hP.stable h
  | onlPortDisable => exact execOnlPortDisable_keeps hP.stable h
  | linkNak => exact execLinkNak_keeps hP.stable h
  | replayTimeout => exact execReplayTimeout_keeps hP.stable h
  | segmentTag => exact execSegmentTag_keeps hP.stable h
  | segmentIdleClose => exact execSegmentIdleClose_keeps hP.stable h
  | write => exact execWrite_keeps hP h
  | writeAck => exact execWriteAck_keeps hP.stable h
  | messageResend => exact execMessageResend_keeps hP.stable h
  | heartbeat => exact execHeartbeat_keeps hP.stable h
  | heartbeatTimer => exact execHeartbeatTimer_keeps hP.stable h
  | heartbeatAck => exact execHeartbeatAck_keeps hP.stable h
  | mirrorData => exact execMirrorData_keeps hP.stable h
  | mirrorSeal => exact execMirrorSeal_keeps hP.stable h
  | mirrorAck => exact execMirrorAck_keeps hP.stable h
  | shadowSyncComplete => exact execShadowSyncComplete_keeps hP.stable h
  | leaseExpiry => exact execLeaseExpiry_keeps hP h
  | claimWatchdog => exact execClaimWatchdog_keeps hP.stable h
  | graceExpiry => exact execGraceExpiry_keeps hP.stable h
  | pairClaimInChange => exact execPairClaimInChange_keeps hP.stable h
  | mirPromoted => exact execMirPromoted_keeps hP h
  | mirDisable => exact execMirDisable_keeps hP.stable h
  | tamperResponse => exact execTamperResponse_keeps hP.stable h
  | zeroise => exact execZeroise_keeps hP.stable h
  | guardedWrite => exact execGuardedWrite_keeps hP h
  | attestationRequest => exact execAttestationRequest_keeps hP.stable h
  | unlockNonceRequest => exact execUnlockNonceRequest_keeps hP.stable h
  | unlockRequest => exact execUnlockRequest_keeps hP.stable h
  | unlockExpiry => exact execUnlockExpiry_keeps hP.stable h
  | spdmSession => exact execSpdmSession_keeps hP.stable h
  | ideKm => exact execIdeKm_keeps hP.stable h
  | kSetGo => exact execKSetGo_keeps hP.stable h
  | lockInterface => exact execLockInterface_keeps hP h
  | startInterface => exact execStartInterface_keeps hP h
  | stopInterface => exact execStopInterface_keeps hP h
  | resultDigestComplete => exact execResultDigestComplete_keeps hP h
  | pldmRequest n => exact execPldmRequest_keeps (_sensor := n) hP.stable h
  | pldmFirmwareUpdate => exact execPldmFirmwareUpdate_keeps hP.stable h
  | firmwareActivate => exact execFirmwareActivate_keeps hP h
  | functionLevelResetVf => exact execFunctionLevelResetVf_keeps hP h
  | functionLevelResetPf => exact execFunctionLevelResetPf_keeps hP h
  | d3hotEntry => exact execD3hotEntry_keeps hP h
  | pcieLinkTrained => exact execPcieLinkTrained_keeps hP h
  | registerWrite => exact execRegisterWrite_keeps hP h
  | halfRegisterRead => exact execHalfRegisterRead_keeps hP.stable h
  | wakePeakRead => exact execWakePeakRead_keeps hP.stable h
  | partitionCreate => exact execPartitionCreate_keeps hP.stable h
  | partitionDestroy => exact execPartitionDestroy_keeps hP.stable h
  | ctxCreate => exact execCtxCreate_keeps hP.stable h
  | ctxDestroy => exact execCtxDestroy_keeps hP.stable h
  | engineEnClear => exact execEngineEnClear_keeps hP.stable h
  | feDisable => exact execFeDisable_keeps hP.stable h
  | undervoltage => exact execUndervoltage_keeps hP h
  | overvoltage => exact execOvervoltage_keeps hP h
  | railFault => exact execRailFault_keeps hP h
  | thermalFault => exact execThermalFault_keeps hP h
  | inRush => exact execInRush_keeps hP h
  | faultRestart => exact execFaultRestart_keeps hP h
  | faultLatchRelease => exact execFaultLatchRelease_keeps hP.stable h
  | powerUp => exact execPowerUp_keeps hP h
  | boot => exact execBoot_keeps hP h
  | powerDown => exact execPowerDown_keeps hP h
  | pwrCycleN => exact execPwrCycleN_keeps hP h
  | moduleResetNAssert => exact execModuleResetNAssert_keeps hP h
  | moduleResetNRelease => exact execModuleResetNRelease_keeps hP.stable h
  | pciePerstN => exact execPciePerstN_keeps hP h
  | idleHoldEntry => exact execIdleHoldEntry_keeps hP.stable h
  | watchReq => exact execWatchReq_keeps hP.stable h
  | watchEntryComplete => exact execWatchEntryComplete_keeps hP.stable h
  | watchSample => exact execWatchSample_keeps hP h
  | wake => exact execWake_keeps hP.stable h
  | watchExitComplete => exact execWatchExitComplete_keeps hP h
  | sample => exact execSample_keeps hP.stable h
  | reset => exact execReset_keeps hP.stable h
  | sampleReset => exact execSampleReset_keeps hP.stable h
  | ringSelect => exact execRingSelect_keeps hP.stable h
  | eventRecordAccept => exact execEventRecordAccept_keeps hP h
  | eventRingRoom => exact execEventRingRoom_keeps hP h
  | traceRecord => exact execTraceRecord_keeps hP.stable h
  | apertureAccess => exact execApertureAccess_keeps hP h
  | errorInject => exact execErrorInject_keeps hP.stable h
  | extest => exact execExtest_keeps hP.stable h
  | samplePreload => exact execSamplePreload_keeps hP.stable h
  | idcode => exact execIdcode_keeps hP.stable h
  | clamp => exact execClamp_keeps hP.stable h
  | highz => exact execHighz_keeps hP.stable h
  | extestPulse => exact execExtestPulse_keeps hP.stable h
  | extestTrain => exact execExtestTrain_keeps hP.stable h
  | bypass => exact execBypass_keeps hP.stable h
  | tapReset => exact execTapReset_keeps hP.stable h
  | flit => exact execFlit_keeps hP h
  | pcieReadCompletion => exact execPcieReadCompletion_keeps hP h
  | alwaysOnDomainStart => exact execAlwaysOnDomainStart_keeps hP h
  | alwaysOnDomainReset => exact execAlwaysOnDomainReset_keeps hP h
  | entropyHealthTest => exact execEntropyHealthTest_keeps hP.stable h
  | jormirSelfCheck => exact execJormirSelfCheck_keeps hP.stable h
  | tdiError => exact execTdiError_keeps hP h
  | vfEnable => exact execVfEnable_keeps hP.stable h

end Sys2Proof.Machine
end

