-- ==== Sys2Proof/Tests/Slice0.lean ====
section
/-! SUPPORT. Small tests of the model, and for each statement with hypotheses a concrete state and operands that meet them. The expected
values of the tests are the spec's own worked examples, or worked out by hand from its rules. -/

open Sys2Proof Sys2Proof.Machine

namespace Sys2Proof.Tests

set_option Elab.async false

/-! ## Small states -/

/-- A context of job 1. -/
def ctx1 : CtxSt := { job := 1, weight := 1, seed := 0, seedGiven := true }

/-- Context 1 of a job of its own, at a phase of its teardown. -/
def ctxAt (t : TearPhase) : CtxSt := { ctx1 with tear := t }

/-- Partition 0 in a state, with one context of handle 1. -/
def part0 (st : PState) (x : CtxSt) : PartSt := { st := st, ctxs := [(1, some x)] }

/-- The block after its boot, its generator RUNNING, with partition 0 ACTIVE and its context 1. -/
def base : State := { parts := [(0, part0 .active ctx1)], regs := [(rHifStatus, 1), (rTckCtrl, 1), (rTckStatus, 1), (pfBase 0 + rPrtGalleries, 0xFFFFFF)] }

/-- The region of core 0: its whole scratchpad, an image of 8 instructions. -/
def region0 : Region := { core := 0, off := 0, len := 0x600000, count := 8 }

/-- An instruction word. -/
def wordOf (op w : Nat) : Word := BitVec.ofNat 64 (op * 2 ^ 56 + w)

/-- Core 0 running a flight of context 1, at an instruction at index 0. -/
def coreAt (op w : Nat) : CoreSt := { phase := .running, ctx := 1, slotTab := [region0], prog := [(0, wordOf op w)] }

/-- The block with core 0 in this state. -/
def withCore (k : CoreSt) : State := { base with cores := [(0, k)] }

/-- The block whose core 0 is at this instruction. -/
def at0 (op w : Nat) : State := withCore (coreAt op w)

/-- The operand bits of an instruction. -/
abbrev bits56 (w : Nat) : BitVec 56 := BitVec.ofNat 56 w

/-- Whether core 0 is ready for an instruction. -/
def isReady (s : State) (op : Nat) (w : BitVec 56) : Bool :=
  s.issueDue 0 op w && decide ((s.core 0).region.base ≤ (s.core 0).pc) &&
  decide ((s.core 0).pc < (s.core 0).region.base + (s.core 0).region.count) && decide ((s.core 0).word.toNat / 2 ^ 56 = op) &&
  reservedOk op w && ((scalarsOf op w).all fun n => decide (n = 0 ∨ n ∉ (s.core 0).notReady)) &&
  (decide ((s.core 0).waitKind ≠ 6) || !s.acquireWaits 0)

theorem ready_iff (s : State) (op : Nat) (w : BitVec 56) : s.Ready 0 op w ↔ isReady s op w = true := by
  simp [State.Ready, isReady, and_assoc, imp_iff_not_or]

/-- Core 0 ready for an instruction. -/
def readyAt (op w : Nat) : Prop := (at0 op w).Ready 0 op (bits56 w)

/-- Core 0 ready for an instruction, its state changed first. -/
def readyWith (f : CoreSt → CoreSt) (op w : Nat) : Prop := (withCore (f (coreAt op w))).Ready 0 op (bits56 w)

/-! ## Witnesses: the statements about a core -/

/-- MOVI of the least immediate to X31, MOVHI of the highest, MOVS of registers 8 and 9, SALU in both forms. -/
theorem witness_ScalarInstructionsWriteTheirDestination :
    readyAt 0x00 0 ∧ readyAt 0x03 (31 * 2 ^ 51 + 2 ^ 47) ∧ readyAt 0x04 (2 ^ 51 + 0xFFFF) ∧
    (readyAt 0x06 (2 ^ 51 + 8) ∧ (at0 0x06 (2 ^ 51 + 8)).special (coreAt 0x06 (2 ^ 51 + 8)) 8 = some 0) ∧
    readyAt 0x06 (2 ^ 51 + 9) ∧
    (readyAt 0x05 (2 ^ 51 + 2 ^ 46 + 2 ^ 36 + 0xFFFFFFFF) ∧ saluOp 0 0 ((BitVec.ofNat 32 0xFFFFFFFF).signExtend 64) = some (-1)) ∧
    readyAt 0x05 (2 ^ 51 + 2 ^ 46 + 2 ^ 41 + 12 * 2 ^ 37) ∧ saluOp 12 0 0 = some 0 := by
  simp only [readyAt, ready_iff]; decide +kernel

/-- BR to the last instruction of the image, taken and not taken, and past its end; LOOP over the rest of the image; END in a body and outside. -/
theorem witness_ControlFlowGoesWhereItSays :
    (readyAt 0x07 7 ∧ (coreAt 0x07 7).bodies 0 = [] ∧ ((0 : Nat) : Int) + (BitVec.ofNat 24 7).toInt = (7 : Nat) ∧ brCond 0 0 0 = some true) ∧
    (readyAt 0x07 (2 ^ 43) ∧ (coreAt 0x07 (2 ^ 43)).bodies 0 = [] ∧ brCond 1 0 0 = some false) ∧
    (readyAt 0x07 8 ∧ (8 : Int) ≥ region0.base + region0.count) ∧
    (readyAt 0x08 7 ∧ (coreAt 0x08 7).bodies 0 = [] ∧ (coreAt 0x08 7).xr 0 = 0) ∧
    (readyWith (fun k => { k with x := [(1, 3)] }) 0x08 (2 ^ 51 + 7)) ∧
    (readyAt 0x01 0 ∧ (coreAt 0x01 0).bodies 0 = []) ∧
    (readyWith (fun k => { k with pc := 1, prog := [(0, wordOf 0x08 1), (1, wordOf 0x01 0)] }) 0x01 0 ∧
      ({ coreAt 0x01 0 with pc := 1, prog := [(0, wordOf 0x08 1), (1, wordOf 0x01 0)] } : CoreSt).bodies 1 ≠ []) ∧
    (readyAt 0x02 0 ∧ (coreAt 0x02 0).bodies 0 = []) ∧
    (readyWith (fun k => { k with pc := 1, prog := [(0, wordOf 0x08 1), (1, wordOf 0x02 0)] }) 0x02 0 ∧
      ({ coreAt 0x02 0 with pc := 1, prog := [(0, wordOf 0x08 1), (1, wordOf 0x02 0)] } : CoreSt).bodies 1 ≠ []) := by
  simp only [readyAt, readyWith, ready_iff]; decide +kernel

/-- An instruction of a channel whose read is outstanding. -/
def readOut : DmaEnt := { op := .desc 0 none none, ctx := 1, region := region0 }

/-- WAITC satisfied and waiting, CLRC of CNT15, QSYNC with everything idle and with a queue that holds a store, the three forms of FENCE, a
release that is done, and a signal of a live and of a stale epoch. -/
theorem witness_WaitsFencesAndSignalsComplete :
    readyAt 0x09 0 ∧ readyWith (fun k => { k with x := [(1, 1)] }) 0x09 (2 ^ 51) ∧ readyAt 0x0A (15 * 2 ^ 47) ∧
    ((at0 0x09 0).acquireWaits 0 = false ∧ (at0 0x0B 12).acquireWaits 0 = false) ∧
    (readyWith (fun k => { k with chans := [(0, [readOut])] }) 0x09 0 ∧
      (withCore { coreAt 0x09 0 with chans := [(0, [readOut])] }).acquireWaits 0 = true) ∧
    readyWith (fun k => { k with chans := [(0, [readOut])] }) 0x0B 4 ∧
    (readyWith (fun k => { k with chans := [(0, [readOut])] }) 0x13 (2 * 2 ^ 52) ∧
      readyWith (fun k => { k with ctrlq := [.store 0 0] }) 0x13 (3 * 2 ^ 52)) ∧
    readyAt 0x0B 12 ∧ readyWith (fun k => { k with ctrlq := [.store 0 0] }) 0x0B 8 ∧
    readyAt 0x13 (2 ^ 52) ∧ (readyAt 0x13 (2 ^ 54 + 2 * 2 ^ 52) ∧ (at0 0x13 (2 ^ 54 + 2 * 2 ^ 52)).acquireWaits 0 = false) ∧
    (readyAt 0x13 (2 * 2 ^ 54 + 3 * 2 ^ 52) ∧ (at0 0x13 (2 * 2 ^ 54 + 3 * 2 ^ 52)).releaseWaits 0 2 0 = false) ∧
    ((withCore { coreAt 0 0 with ctrlq := [.fence 0 0] }).releaseWaits 0 0 0 = false ∧
      (withCore { coreAt 0 0 with ctrlq := [.fence 0 0] }).frozen 0 = false ∧
      (withCore { coreAt 0 0 with ctrlq := [.fence 0 0] }).epochOk 0 1 0 = true) ∧
    ({ base with signals := [{ core := 0, cnt := 0, inc := 1, part := 0, ctx := 1, epoch := 0 }] } : State).epochOk 0 1 0 = true ∧
    ({ base with signals := [{ core := 0, cnt := 0, inc := 1, part := 0, ctx := 1, epoch := 1 }] } : State).epochOk 0 1 1 = false := by
  simp only [readyAt, readyWith, ready_iff]; decide +kernel

/-- A flight of context 1 with a parameter block of one word, on core 0. -/
def flight0 : FlightSt :=
  { part := 0, ctx := 1, epoch := 0, graph := 0, version := 0, params := [5], queue := 0, seq := 0, tag := 0, slots := [region0], begun := true }

/-- Sixteen accesses that wait in a control queue. -/
def full16 : List CtrlOp := List.replicate 16 (.store 0 0)

/-- LDP of the last word of the block, LDS and STS of the last word of the scratchpad, SIGNAL to slot 0: each with an empty control queue, behind
one access and behind sixteen. -/
theorem witness_ControlQueueAccessesComplete :
    (∀ q ∈ [[], [CtrlOp.store 0 0], full16], ∃ s : State,
      s = { withCore { coreAt 0x10 (2 ^ 51) with ctrlq := q } with flights := [(0, some flight0)] } ∧
      s.Ready 0 0x10 (bits56 (2 ^ 51)) ∧ s.flight (s.core 0).flight = some flight0 ∧ 0 + 8 ≤ 8 * flight0.params.length) ∧
    (∀ q ∈ [[], [CtrlOp.store 0 0], full16], readyWith (fun k => { k with ctrlq := q }) 0x11 (2 ^ 51 + 0x5FFFF8) ∧
      readyWith (fun k => { k with ctrlq := q }) 0x12 (2 ^ 51 + 0x5FFFF8) ∧ readyWith (fun k => { k with ctrlq := q }) 0x14 0xFFFF) ∧
    (∃ u, (at0 0x11 (2 ^ 51 + 0x5FFFF8)).scrEcc 0 0x5FFFF8 8 (wordEcc .ok) = (u, false) ∧ (u.core 0).ctrlq = []) ∧
    (at0 0x11 (2 ^ 51 + 0x5FFFF8)).inRegion 0 0x5FFFF8 8 = true ∧ (at0 0x12 (2 ^ 51 + 0x5FFFF8)).inRegion 0 0x5FFFF8 8 = true ∧
    (coreAt 0x14 0xFFFF).slotTab[0]? = some region0 := by
  simp only [readyWith, ready_iff]
  refine ⟨?_, ?_, ⟨_, rfl, rfl⟩, ?_⟩
  · intro q hq; refine ⟨_, rfl, ?_⟩; revert q; decide +kernel
  · decide +kernel
  · decide +kernel
/-- A descriptor of an instruction: values at their byte offsets. -/
def descOf (l : List (Nat × Nat)) : BitVec 512 := BitVec.ofNat 512 ((l.map fun x => x.2 * 2 ^ (8 * x.1)).sum)

/-- Core 0 at an instruction, with these scratchpad bytes. -/
def scrAt (scr : SMap Byte) (op w : Nat) : State := withCore { coreAt op w with scr := scr }

/-- A stationary tile of 8-bit integers. -/
def stat8 : StatTile := { fmt := .int8, mov := .int8, acc := .i32, rate := 2, kw := 256, nw := 128, cols := [], scales := [], zps := [] }

/-- SLOAD of 256 × 128 8-bit integers, PASS over them that opens its tile and into an open one, DRAIN of 128 rows to a register and to the
scratchpad. -/
theorem witness_ArrayInstructionsComplete :
    (∃ s u v t, s = scrAt [(0, 7)] 0x20 (7 * 2 ^ 42 + 2 * 2 ^ 40 + 255 * 2 ^ 31 + 127 * 2 ^ 24) ∧
      s.Ready 0 0x20 (bits56 (7 * 2 ^ 42 + 2 * 2 ^ 40 + 255 * 2 ^ 31 + 127 * 2 ^ 24)) ∧ s.tdesc 0 0 (wordEcc .ok) = .ok (u, t, .int8) ∧
      u.scrEcc 0 (region0.off + 0) ((stationaryBytes .int8 2 t.zpMode).1 + (stationaryBytes .int8 2 t.zpMode).2) (wordEcc .ok) = (v, false) ∧
      pairRate .int8 .int8 .i32 = some 2 ∧ 255 + 1 ≤ 128 * 2 ∧
      u.inRegion 0 0 ((stationaryBytes .int8 2 t.zpMode).1 + (stationaryBytes .int8 2 t.zpMode).2) = true) ∧
    (∃ s u v v3 t, s = withCore { coreAt 0x21 (2 ^ 33 + 2 * 2 ^ 31) with scr := [(0, 7)], stat := some stat8 } ∧
      s.Ready 0 0x21 (bits56 (2 ^ 33 + 2 * 2 ^ 31)) ∧ s.tdesc 0 0 (wordEcc .ok) = .ok (u, t, .int8) ∧
      u.scrReads 0 (movWords (region0.off + 0) .int8 2 256 1 ++ movSides (region0.off + t.scaleOff) .int8 t.zpMode 2 256 1) (wordEcc .ok) = (v, false) ∧
      v.tileErr 0 0 [] .ok = (v3, false) ∧ tileLegal .i32 0 = true ∧ hasScales .int8 t.zpMode = false ∧
      u.inRegion 0 0 (512 * ((1 + 127 + (groupsPerWord 8 2).1 - 1) / (groupsPerWord 8 2).1)) = true) ∧
    (∃ s v3, s = withCore { coreAt 0x21 (2 * 2 ^ 31) with
      scr := [(0, 7)], stat := some stat8, halves := [(0, { st := .open32 .i32 }), (1, { st := .open32 .i32 })] } ∧
      s.tileErr 0 0 (tileHalves .i32 0) .ok = (v3, false) ∧
      s.Ready 0 0x21 (bits56 (2 * 2 ^ 31)) ∧ (s.core 0).tileOpen .i32 0 = true) ∧
    (∃ s v, s = withCore { coreAt 0x30 (127 * 2 ^ 37) with halves := [(0, { st := .open32 .i32 }), (1, { st := .open32 .i32 })] } ∧
      s.tileErr 0 0 (tileHalves .i32 0) .ok = (v, false) ∧
      s.Ready 0 0x30 (bits56 (127 * 2 ^ 37)) ∧ (s.core 0).drainTile 0 false false = some .i32) ∧
    (∃ s : State, s = withCore { coreAt 0x30 (127 * 2 ^ 37 + 2 ^ 34) with halves := [(0, { st := .open32 .i32 }), (1, { st := .open32 .i32 })] } ∧
      s.Ready 0 0x30 (bits56 (127 * 2 ^ 37 + 2 ^ 34)) ∧ (s.core 0).drainTile 0 false false = some .i32 ∧
      s.inRegion 0 0 (128 * 512) = true) := by
  refine ⟨⟨_, _, _, _, rfl, ?_, rfl, rfl, ?_⟩, ⟨_, _, _, _, _, rfl, ?_, rfl, rfl, rfl, ?_⟩, ⟨_, _, rfl, rfl, ?_⟩, ⟨_, _, rfl, rfl, ?_⟩,
    ⟨_, rfl, ?_⟩⟩ <;> (try simp only [ready_iff]) <;> decide +kernel

/-- Each operation of the vector unit at the last code that its rules define, with no unused bit set. -/
theorem witness_LaneInstructionsComplete :
    (readyAt 0x31 (11 * 2 ^ 30) ∧ unusedZero (bits56 (11 * 2 ^ 30)) true true false = true) ∧
    (readyAt 0x32 (11 * 2 ^ 30) ∧ unusedZero (bits56 (11 * 2 ^ 30)) true true false = true) ∧
    (readyAt 0x33 (3 * 2 ^ 30 + 12 * 2 ^ 25 + 2 ^ 23) ∧ Fmt.ofCode 12 = some .i32 ∧
      unusedZero (bits56 (3 * 2 ^ 30 + 12 * 2 ^ 25 + 2 ^ 23)) false false true = true) ∧
    (readyAt 0x34 (4 * 2 ^ 30) ∧ unusedZero (bits56 (4 * 2 ^ 30)) false false false = true) ∧
    (readyAt 0x35 0 ∧ unusedZero (bits56 0) false false false = true) ∧
    (readyAt 0x35 (2 ^ 30) ∧ unusedZero (bits56 (2 ^ 30)) false false false = true) ∧
    readyAt 0x36 0 ∧ readyAt 0x3A 0 ∧ readyAt 0x3A (2 ^ 30 + 127 * 2 ^ 16) ∧ readyAt 0x3A (2 * 2 ^ 30 + 127 * 2 ^ 16) := by
  simp only [readyAt, ready_iff]; decide +kernel

/-- A descriptor that copies one row of 64 bytes from frame 0 to frame 1 of stack 0, as bytes of the scratchpad. -/
def copyBytes : SMap Byte := [(4, 64), (0x12, 1), (0x18, 1)]

/-- VLOAD of 32-bit words, VST and VRQST to offset 0, DMA of a COPY descriptor, FILL and COPY of the least length, and the same three while a
store waits and while their channel is full. -/
theorem witness_VectorMemoryAndChannelInstructionsComplete :
    (∃ s u v t, s = scrAt [(0, 11)] 0x37 0 ∧ s.Ready 0 0x37 (bits56 0) ∧ s.tdesc 0 0 (wordEcc .ok) = .ok (u, t, .f32) ∧
      u.scrReads 0 ((region0.off + 0, elemBytes 32 128) ::
        (t.sideRanges .f32 0 128 false).map fun r => (region0.off + r.1, r.2)) (wordEcc .ok) = (v, false) ∧
      u.firstOutside 0 ((0, elemBytes 32 128) :: t.sideRanges .f32 0 128 false) = none) ∧
    (readyAt 0x39 0 ∧ (at0 0x39 0).inRegion 0 0 512 = true) ∧
    (∃ s u v t, s = scrAt [(0, 7)] 0x38 (127 * 2 ^ 24) ∧ s.Ready 0 0x38 (bits56 (127 * 2 ^ 24)) ∧
      s.tdesc 0 0 (wordEcc .ok) = .ok (u, t, .int8) ∧ Fmt.isStore .int8 = true ∧ Fmt.blockScaled .int8 = false ∧
      u.scrReads 0 (if Fmt.blockScaled .int8 then [] else (t.sideRanges .int8 0 128 true).map fun r => (region0.off + r.1, r.2)) (wordEcc .ok) = (v, false) ∧
      u.firstOutside 0 ((0, elemBytes 8 128) :: t.sideRanges .int8 0 128 true) = none) ∧
    (∃ s u d, s = scrAt copyBytes 0x40 (7 * 2 ^ 48) ∧ s.Ready 0 0x40 (bits56 (7 * 2 ^ 48)) ∧
      s.scrEcc 0 (region0.off + 0) 64 (wordEcc .ok) = (u, false) ∧
      d = BitVec.ofNat 512 (leNat ((s.core 0).scrRead 0 64)) ∧ d = descOf [(4, 64), (0x10, 0x10000), (0x18, 1)] ∧ descOk d = true ∧
      copyOverlaps d none none = false ∧ dKind d = 0 ∧ s.inRegion 0 0 64 = true) ∧
    (∃ d, d = descOf [(0, 1), (1, 7), (4, 64), (0x10, scrAddr 0 0), (0x18, 1)] ∧ dKind d = 1 ∧ layoutDst d 0 region0 none = true) ∧
    (readyWith (fun k => { k with x := [(1, 64)] }) 0x41 (2 ^ 46) ∧ fillCountOk 64 = true ∧ (at0 0x41 (2 ^ 46)).inRegion 0 0 64 = true) ∧
    (readyWith (fun k => { k with x := [(1, 64)] }) 0x42 (2 ^ 46 + 2 ^ 41) ∧ overlap (0, 0 + 64) (64, 64 + 64) = false ∧
      (at0 0x42 (2 ^ 46 + 2 ^ 41)).inRegion 0 64 64 = true) ∧
    (∀ x ∈ [(0x40, 0), (0x41, 2 ^ 46), (0x42, 2 ^ 46 + 2 ^ 41)],
      readyWith (fun k => { k with x := [(1, 64)], ctrlq := [.store 0 0] }) x.1 x.2 ∧
      readyWith (fun k => { k with x := [(1, 64)], chans := [(0, List.replicate 8 readOut)] }) x.1 x.2) := by
  refine ⟨⟨_, _, _, _, rfl, ?_, rfl, rfl, ?_⟩, ?_, ⟨_, _, _, _, rfl, ?_, rfl, ?_, ?_, rfl, ?_⟩, ⟨_, _, _, rfl, ?_, rfl, rfl, ?_⟩, ⟨_, rfl, ?_⟩,
    ?_, ?_, ?_⟩ <;> (try simp only [readyAt, readyWith, ready_iff]) <;> decide +kernel

/-- An instruction of a channel, of context 1. -/
def entOf (d : BitVec 512) : DmaEnt := { op := .desc d none none, ctx := 1, region := region0 }

/-- Core 0 with this instruction in channel 0, and two frames of stack 0 allocated to partition 0. -/
def chanAt (d : BitVec 512) : State :=
  { withCore { coreAt 0 0 with chans := [(0, [entOf d])] } with
    stks := [(0, { frames := [(0, { st := .allocated }), (1, { st := .allocated })] })] }

/-- A COPY within the windows and one outside them, a GATHER by an index of 0, the two layouts into the region, a REMOTE row over an open
window and one over none. -/
theorem witness_DescriptorsAreCarriedOut :
    (∃ s d, d = descOf [(4, 64), (0x10, 0x10000), (0x18, 1)] ∧ s = chanAt d ∧ s.taken 0 0 0 = some (0, entOf d, d, none, none) ∧
      s.windowFails (entOf d) d none none = none ∧ (s.copyRows 0 0 0 0 (entOf d) d none none (s.devEcc .ok)).2 = .ok) ∧
    (∃ s d, d = descOf [(4, 64), (0x10, 0x20000), (0x18, 1)] ∧ s = chanAt d ∧ s.taken 0 0 0 = some (0, entOf d, d, none, none) ∧
      s.windowFails (entOf d) d none none = some 0x20000) ∧
    (∃ s d, d = descOf [(0, 3), (4, 64), (0x10, 0x10000), (0x18, 1)] ∧ s = chanAt d ∧ s.taken 0 0 3 = some (0, entOf d, d, none, none) ∧
      s.windowFails (entOf d) d none none = none ∧ s.gatherOverlaps d none none = false ∧
      (s.copyRows 0 0 3 0 (entOf d) d none none (s.devEcc .ok)).2 = .ok) ∧
    (∃ s d, d = descOf [(0, 4), (4, 64), (0x10, 0x300000000000), (0x18, 1)] ∧
      s = { chanAt d with outSlots := [(0, some { part := 0, dstModule := 1, dstWindow := 0, len := 64, epoch := 0 })] } ∧
      s.taken 0 0 4 = some (0, entOf d, d, none, none) ∧ s.remoteFails (entOf d) d none = none ∧
      (s.remoteRows 0 0 0 (entOf d) d none (s.devEcc .ok) (List.range (dRows d))).2 = .ok) ∧
    (∃ s d, d = descOf [(0, 4), (4, 64), (0x10, 0x300000000000), (0x18, 1)] ∧ s = chanAt d ∧
      s.taken 0 0 4 = some (0, entOf d, d, none, none) ∧ s.remoteFails (entOf d) d none = some 0x300000000000) := by
  refine ⟨⟨_, _, rfl, rfl, ?_⟩, ⟨_, _, rfl, rfl, ?_⟩, ⟨_, _, rfl, rfl, ?_⟩, ⟨_, _, rfl, rfl, ?_⟩, ⟨_, _, rfl, rfl, ?_⟩⟩ <;> decide +kernel

/-- A row of 64 bytes from the start of core 0's scratchpad to the end of core 1's. -/
theorem witness_CopyMovesExactlyItsBytes :
    ∃ s d, d = descOf [(4, 64), (8, scrAddr 0 0), (0x10, scrAddr 1 0x5FFFC0), (0x18, 1)] ∧ s = chanAt d ∧
      s.taken 0 0 0 = some (0, entOf d, d, none, none) ∧ s.windowFails (entOf d) d none none = none ∧ dRows d = 1 ∧ dRowBytes d = 64 ∧
      dKind d = 0 ∧ s.dbg.inject = none ∧ (s.core 0).bad = [] ∧ sideOf (dSrcSpace d) (dSrc d) none = .dev (scrAddr 0 0) ∧ sideOf (dDstSpace d) (dDst d) none = .dev (scrAddr 1 0x5FFFC0) ∧
      0x5FFFC0 + 64 ≤ 0x600000 ∧ ((s.core 0).chan 0).length = 0 + 1 := by
  refine ⟨_, _, rfl, rfl, ?_⟩; decide +kernel

/-! ## Witnesses: channels, stacks, streams -/

/-- An attention or candidate descriptor: rows of `n` bytes from core 0's scratchpad, answered at 0x2000, by the table at 0x1000. -/
def reqDesc (kind n : Nat) : BitVec 512 :=
  descOf ([(0, kind), (4, n), (8, scrAddr 0 0), (0x18, 1), (0x28, scrAddr 0 0x1000)] ++
    if kind = 5 then [(0x10, scrAddr 0 0x2000), (0x30, 0x9300)] else [])

/-- A geometry of one head of 64 elements. -/
def geom1 : KvGeom := { fmt := .e4m3, d := 64, hkv := 1, layers := 1, gq := 1 }

/-- Stream 0 of context 1, in the batch. -/
def stream0 : StreamSt := { st := .decode, ctx := 1, geom := some geom1, inBatch := true }

/-- A read of host memory in flight for the instruction of channel 0 of core 0. -/
def read0 (e : BitVec 16) : PcieRead := { tag := 9, part := 0, ctx := 1, epoch := e, host := 0, len := 2, core := 0, chan := 0, stamp := 0, row := 0 }

/-- The block at an attention or candidate descriptor, the second byte of the table's first entry set to this, and stream 0 in the batch. -/
def reqAt (d : BitVec 512) (b : Byte) : State :=
  { chanAt d with
    cores := [(0, { coreAt 0 0 with chans := [(0, [entOf d])], scr := if b = 0 then [] else [(0x1001, b)] })]
    streams := [(0, stream0)] }

theorem ok_of {a : State × Acc} (h : a.2 = .ok) : a = (a.1, .ok) := Prod.ext rfl h

/-- A table without and with a reserved bit; an instruction that confirms; a read of another epoch; a row that lands, and one that a REMOTE
descriptor sends on, its partition running and stopped hard. -/
theorem witness_RequestsAndConfirmationsComplete :
    (∀ x ∈ [((0 : Byte), [0]), (0x40, [])], ∃ s u v d good, d = reqDesc 5 68 ∧ s = reqAt d x.1 ∧ dRc d = false ∧
      s.dmaReach (entOf d) (dTable d) (4 * dRows d) = true ∧ s.devRead (dTable d) (4 * dRows d) 0 1 (s.devEcc .ok) = (u, .ok) ∧
      s.taken 0 0 5 = some (0, entOf d, d, none, none) ∧
      s.scratchSide (entOf d) (dSrcSpace d) (dSrc d) (dSrcStride d) (dRows d) (fun _ => dRowBytes d) none true = .ok (scrAddr 0 0) ∧
      good = (List.range (dRows d)).takeWhile (fun r => u.rowEntry d r / 2 ^ 14 = 0) ∧
      (∀ r ∈ good, (u.attnGeom (entOf d) d (bits (u.rowEntry d r) 13 0)).isSome) ∧
      u.attnGeom (entOf d) d (bits (u.rowEntry d 0) 13 0) = some geom1 ∧
      u.scratchSide (entOf d) (dDstSpace d) (dDst d) (dDstStride d) (dRows d) (u.rowOut (entOf d) d) none false = .ok (scrAddr 0 0x2000) ∧
      u.sendRows 0 0 0 (entOf d) d (scrAddr 0 0) (scrAddr 0 0x2000) (s.devEcc .ok) good = (v, .ok) ∧ good = x.2) ∧
    (∀ x ∈ [((0 : Byte), [0]), (0x40, [])], ∃ s u v d good, d = reqDesc 6 512 ∧ s = reqAt d x.1 ∧ dRc d = false ∧
      s.dmaReach (entOf d) (dTable d) (4 * dRows d) = true ∧ s.devRead (dTable d) (4 * dRows d) 0 1 (s.devEcc .ok) = (u, .ok) ∧
      s.taken 0 0 6 = some (0, entOf d, d, none, none) ∧
      s.scratchSide (entOf d) (dSrcSpace d) (dSrc d) (dSrcStride d) (dRows d) (fun _ => 512) none true = .ok (scrAddr 0 0) ∧
      good = (List.range (dRows d)).takeWhile (fun r => bits (u.rowEntry d r) 15 14 = 0 ∧ bits (u.rowEntry d r) 31 22 = 0) ∧
      u.sendLists 0 0 0 (entOf d) d (scrAddr 0 0) (s.devEcc .ok) good = (v, .ok) ∧ good = x.2) ∧
    (∃ s e, e = { entOf 0 with phase := .executed, ce := true } ∧ s = withCore { coreAt 0 0 with chans := [(0, [e])] } ∧
      (s.core 0).chan 0 = e :: [] ∧ e.outstanding = 0 ∧ s.epochOk e.part e.ctx e.epoch = true) ∧
    (∃ s : State, s = { base with reads := [read0 1] } ∧ (s.reads.find? fun r => decide (r.tag = 9)) = some (read0 1) ∧ s.epochOk 0 1 1 = false) ∧
    (read0 0).shut = false ∧
    (∃ s : State, s = { base with reads := [{ read0 0 with shut := true }] } ∧ (s.reads.find? fun r => decide (r.tag = 9)) = some { read0 0 with shut := true }) ∧
    (∃ s d t u, d = descOf [(0, 0x20), (4, 2), (0x10, 0x10000), (0x18, 1)] ∧ s = { chanAt d with reads := [read0 0] } ∧ s.epochOk 0 1 0 = true ∧
      ((s.core 0).chan 0).findIdx? (fun x => decide (x.stamp = 0)) = some 0 ∧ dKind d ≠ 4 ∧
      t = ({ s with reads := s.reads.filter fun x => !decide (x.tag = 9) } : State).charge 0 1 { pcieB := 2 } ∧
      t.landRow (entOf d) d none 0 [1, 2] (t.devEcc .ok) = (u, .ok)) ∧
    (∀ f ∈ [false, true], ∃ s d, d = descOf [(0, 0x24), (4, 2), (0x10, 0x300000000000), (0x18, 1)] ∧
      s = { chanAt d with reads := [read0 0], parts := [(0, part0 (if f then .hardStopped else .active) ctx1)] } ∧ s.epochOk 0 1 0 = true ∧
      ((s.core 0).chan 0).findIdx? (fun x => decide (x.stamp = 0)) = some 0 ∧ dKind d = 4 ∧ s.frozen 0 = f) := by
  refine ⟨?_, ?_, ⟨_, _, rfl, rfl, ?_⟩, ⟨_, rfl, ?_⟩, rfl, ⟨_, rfl, ?_⟩, ⟨_, _, _, _, rfl, rfl, ?_, ?_, ?_, rfl, ok_of (by decide +kernel)⟩, ?_⟩
  · simp only [List.forall_mem_cons, List.not_mem_nil, false_imp_iff, implies_true, and_true]
    refine ⟨⟨_, _, _, _, _, rfl, rfl, ?_, ?_, ok_of (by decide +kernel), ?_, ?_, rfl, ?_, ?_, ?_, ok_of (by decide +kernel), ?_⟩, ⟨_, _, _, _, _, rfl, rfl, ?_, ?_, ok_of (by decide +kernel), ?_, ?_, rfl, ?_, ?_, ?_, ok_of (by decide +kernel), ?_⟩⟩ <;>
      decide +kernel
  · simp only [List.forall_mem_cons, List.not_mem_nil, false_imp_iff, implies_true, and_true]
    refine ⟨⟨_, _, _, _, _, rfl, rfl, ?_, ?_, ok_of (by decide +kernel), ?_, ?_, rfl, ok_of (by decide +kernel), ?_⟩, ⟨_, _, _, _, _, rfl, rfl, ?_, ?_, ok_of (by decide +kernel), ?_, ?_, rfl, ok_of (by decide +kernel), ?_⟩⟩ <;> decide +kernel
  all_goals first | decide +kernel | skip
  intro f hf; refine ⟨_, _, rfl, rfl, ?_⟩; revert f; decide +kernel

/-- The block with two frames of stack 0 allocated to partition 0. -/
def frames2 : State := { base with stks := [(0, { frames := [(0, { st := .allocated }), (1, { st := .allocated })] })] }

/-- The last line of the last frame that the partition holds, the first outside it, a request of another epoch, a die asleep with room in the
wake buffer, and a request that waits. -/
theorem witness_StackLinesAreReadAndWritten :
    (frames2.stk 0).hall = [] ∧ frames2.checkReq 0 0x1FFC0 64 { part := 0, ctx := 1, epoch := 0 } = .fine ∧
    (frames2.stkRead (stackAddr 0 0x1FFC0) 64 0 1 (frames2.lineEcc .ok)).2 = .ok ∧ (frames2.stk 0).die (dieOf 0x1FFC0) = 0 ∧
    frames2.checkReq 0 0x20000 64 { part := 0, ctx := 1, epoch := 0 } = .window ∧
    frames2.checkReq 0 0x1FFC0 64 { part := 0, ctx := 1, epoch := 1 } = .stale ∧
    (frames2.checkReq 0 0x1FFFF 1 { part := 0, ctx := 1, epoch := 0 } = .fine ∧ frames2.dbg.inject = none ∧
      SMap.get 0 (frames2.stk 0).bad (0x1FFFF / 64) = 0) ∧
    (∃ s : State, s = { frames2 with stks := [(0, { frames2.stk 0 with dies := [(0, 2)] })] } ∧
      s.checkReq 0 0x1FFC0 64 { part := 0, ctx := 1, epoch := 0 } = .fine ∧ (s.stk 0).die (dieOf 0x1FFC0) = 2 ∧ (s.stk 0).wake.length < 1024 ∧ (s.stk 0).srHeld = none) ∧
    ({ frames2.stk 0 with hall := [{ off := 0, data := none, rq := { part := 0, ctx := 1, epoch := 0 }, e := .ok }] } : StackSt).hall ≠ [] := by
  refine ⟨?_, ?_, ?_, ?_, ?_, ?_, ?_, ⟨_, rfl, ?_⟩, ?_⟩ <;> decide +kernel

/-- A line of an allocated frame, and the last die of stack 0 in each state that a command finds it in. -/
theorem witness_ScrubsAndDieStatesComplete :
    (0x1FFFF / 64 * 64 < 0x1200000000 ∧ (frames2.frame 0 (frameOf (0x1FFFF / 64 * 64))).st = .allocated ∧
      ((frames2.perf (stkUnit 0) 0x06 1).stk 0).bad = [] ∧ frames2.linePending 0 (0x1FFFF / 64 * 64) = false ∧ frames2.dbg.inject = none) ∧
    (∀ b ∈ [1, 2], SMap.get 0 ({ frames2.stk 0 with bad := [(0x1FFFF / 64, b)] } : StackSt).bad (0x1FFFF / 64) = b) ∧
    (∃ s : State, s = { base with regs := (stkBase 0 + rStkPwrSr, 0x8000) :: base.regs } ∧ (s.stk 0).die 15 = 0 ∧
      bit (s.reg (stkBase 0 + rStkPwrSr)).toNat 15 = true) ∧
    (({ base with stks := [(0, { dies := [(15, 1)] })] } : State).stk 0).die 15 = 1 ∧
    (({ base with stks := [(0, { dies := [(15, 3)] })] } : State).stk 0).die 15 = 3 ∧
    (({ base with stks := [(0, { dies := [(15, 5)] })] } : State).stk 0).die 15 = 5 := by
  refine ⟨by decide +kernel, by decide +kernel, ⟨_, rfl, by decide +kernel⟩, by decide +kernel⟩

/-- The last row of the last bank, with every spare of the bank used, with six used, and not in the log; a row of a stack whose bank has one spare used, and two. -/
theorem witness_RemapProposalsTakeASpareRowOrRetireTheCore :
    ((127, 383) ∈ ({ rowLog := [(127, 383)] } : CoreSt).rowLog ∧
      8 ≤ usedSpares ((List.range 8).map fun i => { bank := 127, row := i, spare := i }) 127) ∧
    usedSpares ((List.range 6).map fun i => { bank := 127, row := i, spare := i }) 127 < 7 ∧
    (127, 383) ∉ ({} : CoreSt).rowLog ∧
    ((0, 9) ∈ ({ rowLog := [(0, 9)] } : StackSt).rowLog ∧ usedSpares [{ bank := 0, row := 8, spare := 0 }] 0 = 1 ∧
      2 ≤ usedSpares [{ bank := 0, row := 8, spare := 0 }, { bank := 0, row := 7, spare := 1 }] 0 ∧ (0, 9) ∉ ({} : StackSt).rowLog) := by decide +kernel

/-- A fill and copy command of one frame of partition 0: kind, source frame, destination frame, sequence number 7. -/
def fcOf (kind src dst : Nat) : BitVec 256 := BitVec.ofNat 256 (kind + 2 ^ 32 + dst * 2 ^ 64 + src * 2 ^ 96 + 7 * 2 ^ 192)

/-- Stack 0 of `frames2` with these commands. -/
def fcAt (l : List FcCmd) : State := frames2.setStk 0 { frames2.stk 0 with fc := l }

theorem witness_FillAndCopyCommandsComplete :
    (64 ≤ (((fcAt (List.replicate 64 { cmd := fcOf 0 0 0 })).stk 0).fc.countP fun x => x.phase = .queued)) ∧
    frames2.fcRejects 0 (fcOf 0 0 2) false = true ∧
    (∃ s : State, s = fcAt [{ cmd := fcOf 0 0 1 }] ∧ s.fcRejects 0 (fcOf 1 0 1) false = false ∧
      ((List.range 16).any fun t => (s.stk t).fc.any fun x => fcOverlap 0 (fcOf 1 0 1) t x.cmd) = true) ∧
    (frames2.fcRejects 0 (fcOf 1 0 1) false = false ∧ fcKind (fcOf 1 0 1) = 1) ∧
    (∃ s x, x = { cmd := fcOf 1 0 1, phase := .active } ∧ s = (fcAt [x]).setStk 0 { (fcAt [x]).stk 0 with bad := [(1023, 1)] } ∧
      ((s.stk 0).fc.find? fun y => decide (fcSeq y.cmd = 7) && y.phase = .active) = some x ∧ s.fcSourceBad 0 x.cmd = true) ∧
    (∃ s x, x = { cmd := fcOf 1 0 1, phase := .active } ∧ s = fcAt [x] ∧
      ((s.stk 0).fc.find? fun y => decide (fcSeq y.cmd = 7) && y.phase = .active) = some x ∧ s.fcSourceBad 0 x.cmd = false) ∧
    (∀ k ∈ [0, 2, 4], ∃ s x, x = { cmd := fcOf k 0 1, phase := .active } ∧ s = fcAt [x] ∧
      ((s.stk 0).fc.find? fun y => decide (fcSeq y.cmd = 7) && y.phase = .active) = some x ∧ fcKind x.cmd = k ∧ s.fcSourceBad 0 x.cmd = false) ∧
    (∃ s x, x = { cmd := fcOf 2 0 1, phase := .active, waited := 16 } ∧ s = fcAt [x] ∧
      ((s.stk 0).fc.find? fun y => decide (fcSeq y.cmd = 7 ∧ fcKind y.cmd = 2 ∧ 16 ≤ y.waited) && !y.stalled) = some x) := by
  refine ⟨?_, ?_, ⟨_, rfl, ?_⟩, ?_, ⟨_, _, rfl, rfl, ?_⟩, ⟨_, _, rfl, rfl, ?_⟩, ?_, ⟨_, _, rfl, rfl, ?_⟩⟩ <;>
    first | decide +kernel | (intro k hk; refine ⟨_, _, rfl, rfl, ?_⟩; revert k; decide +kernel)

/-- An attention row of stream 0, whose blocks have been served up to the last. -/
def row0 : AttnRow :=
  { id := 4, part := 0, ctx := 1, epoch := 0, core := 0, chan := 0, stamp := 0, pos := 0, stream := 0, layer := 0, qfmt := .e4m3, ofmt := .bf16, gq := 1,
    scale := 0, window := 0, query := [], dst := scrAddr 0 0, rowAddr := 0, next := 1, begun := true }

/-- A candidate list of stream 0. -/
def list0 (e : BitVec 16) : CandFly :=
  { part := 0, ctx := 1, epoch := e, stream := 0, parts := 1, list := [], core := 0, chan := 0, stamp := 0 }

/-- The block with this row waiting in stack 0 and this stream 0. -/
def rowAt (r : AttnRow) (t : StreamSt) : State := { base with stks := [(0, { rows := [r] })], streams := [(0, t)] }

/-- The row waiting at its first block, with stack 0 in this state. -/
def row1At (k : StackSt) : State := { base with stks := [(0, { k with rows := [{ row0 with next := 0 }] })], streams := [(0, stream0)] }

/-- An instruction that waits for an answer. -/
def waits1 : DmaEnt := { entOf 0 with phase := .executed, outstanding := 1, owed := 1 }

/-- Whether a slice waits. -/
def isWait : SliceRes → Bool
  | .wait _ _ => true
  | _ => false

theorem wait_of {x : SliceRes} (h : isWait x = true) : ∃ u w, x = .wait u w := by cases x <;> simp_all [isWait]

/-- The row finds the wake buffer of its stack full. -/
theorem slice_waits : ∃ (s : State) (r : AttnRow) (u : State) (w : Nat), r = { row0 with next := 0 } ∧
    s = row1At { dies := [(0, 2)], wake := List.replicate 1024 { die := 0, off := 0, write := false } } ∧
    (s.nextTurn 0).map Prod.fst = some 0 ∧
    s.serve (s.stream 0) geom1 (s.lineEcc .ok) (((r.span (s.stream 0)).1 - 1) / 64) 16 r = .wait u w := by
  obtain ⟨u, w, h⟩ := wait_of (x := (row1At { dies := [(0, 2)], wake := List.replicate 1024 { die := 0, off := 0, write := false } }).serve stream0 geom1
    .ok (((({ row0 with next := 0 } : AttnRow).span stream0).1 - 1) / 64) 16 { row0 with next := 0 }) (by decide +kernel)
  exact ⟨_, _, u, w, rfl, rfl, by decide +kernel, h⟩

/-- A row of another epoch; one that is served; one whose page is not there, whose table's line fails, and that waits for the wake buffer, alone
and with its instruction in its channel; a row that is complete; lists of another epoch, of a visit due, and of none. -/
theorem witness_AttentionSlicesAndListsComplete :
    (∃ s : State, s = rowAt { row0 with epoch := 1 } stream0 ∧ (s.nextTurn 0).map Prod.fst = some 0 ∧ s.epochOk 0 1 1 = false) ∧
    (∃ s u r', s = rowAt row0 stream0 ∧ (s.nextTurn 0).map Prod.fst = some 0 ∧
      ((s.stk 0).rows.find? fun r => r.part = 0 && s.rowWaits 0 r) = some row0 ∧ s.epochOk 0 1 0 = true ∧ (s.stream 0).geom = some geom1 ∧
      s.serve (s.stream 0) geom1 (s.lineEcc .ok) (((row0.span (s.stream 0)).1 - 1) / 64) 16 row0 = .ok u r') ∧
    (∃ s r a, r = { row0 with next := 0 } ∧ s = row1At {} ∧ (s.nextTurn 0).map Prod.fst = some 0 ∧
      ((s.stk 0).rows.find? fun x => x.part = 0 && s.rowWaits 0 x) = some r ∧ s.entOf 0 0 0 = none ∧
      s.serve (s.stream 0) geom1 (s.lineEcc .ok) (((r.span (s.stream 0)).1 - 1) / 64) 16 r = .invalid a) ∧
    (∃ s r u a, r = { row0 with next := 0 } ∧ s = row1At {} ∧
      s.serve (s.stream 0) geom1 (s.lineEcc (.damaged 0 4)) (((r.span (s.stream 0)).1 - 1) / 64) 16 r = .error u a) ∧
    (∃ s r u w, r = { row0 with next := 0 } ∧
      s = row1At { dies := [(0, 2)], wake := List.replicate 1024 { die := 0, off := 0, write := false } } ∧
      (s.nextTurn 0).map Prod.fst = some 0 ∧
      s.serve (s.stream 0) geom1 (s.lineEcc .ok) (((r.span (s.stream 0)).1 - 1) / 64) 16 r = .wait u w) ∧
    (∃ s : State, s = { row1At {} with cores := [(0, { coreAt 0 0 with chans := [(0, [waits1])] })] } ∧ s.entOf 0 0 0 = some (0, waits1)) ∧
    (∃ s r, r = { row0 with served := true } ∧ s = rowAt r stream0 ∧ ((s.stk 0).rows.find? fun r => r.id = 4 && r.served) = some r ∧
      s.epochOk 0 1 0 = true ∧ 0 + r.output.length ≤ 0x600000) ∧
    (∃ s w r, r = { row0 with served := true } ∧
      s = { rowAt r stream0 with cores := [(0, { coreAt 0 0 with chans := [(0, [waits1])] })] } ∧
      s.devWrite r.dst r.output 0 1 .ok = (w, .ok) ∧ (w.entOf 0 0 0).isSome = true) ∧
    ({ base with cands := [list0 1] } : State).epochOk 0 1 1 = false ∧
    (∃ s : State, s = { base with cands := [list0 0], streams := [(0, { stream0 with visitDue := true })] } ∧ s.cands[0]? = some (list0 0) ∧
      s.epochOk 0 1 0 = true ∧ (s.stream 0).visitDue = true ∧ (s.stream 0).inBatch = true ∧ (s.stream 0).cand.arrived = 0 ∧
      ({ s with cands := [] } : State).entOf 0 0 0 = none) ∧
    (∃ s : State, s = { base with cands := [list0 0], streams := [(0, stream0)] } ∧ s.epochOk 0 1 0 = true ∧ (s.stream 0).visitDue = false) ∧
    (∃ s : State, s = { base with cands := [list0 0], streams := [(0, { stream0 with visitDue := true, cand := { arrived := 1, parts := 1 } })] } ∧
      s.epochOk 0 1 0 = true ∧ (s.stream 0).cand.arrived ≠ 0 ∧ (s.stream 0).cand.parts ≤ (s.stream 0).cand.arrived) := by
  refine ⟨⟨_, rfl, ?_⟩, ⟨_, _, _, rfl, ?_, ?_, ?_, ?_, rfl⟩, ⟨_, _, _, rfl, rfl, ?_, ?_, ?_, rfl⟩, ⟨_, _, _, _, rfl, rfl, rfl⟩,
    slice_waits, ⟨_, rfl, ?_⟩, ⟨_, _, rfl, rfl, ?_⟩, ⟨_, _, _, rfl, rfl, ok_of (by decide +kernel), ?_⟩, ?_, ⟨_, rfl, ?_⟩, ⟨_, rfl, ?_⟩, ⟨_, rfl, ?_⟩⟩ <;>
    decide +kernel

/-- Two lists of the same pairs. -/
theorem witness_MergesKeepTheBestWhateverTheirOrder :
    ([(0x3F800000, 1), (0x7FC00000, 2)] : List (Lane × Nat)).Perm [(0x7FC00000, 2), (0x3F800000, 1)] := by decide +kernel

/-- Stream 0 due its visit, with one candidate merged, of token 5. -/
def due0 : StreamSt :=
  { stream0 with visitDue := true, cand := { parts := 1, arrived := 1, list := [(0x3F800000, 5)] }, topK := 1, topP := 0x3F800000, maxNew := 8 }

theorem witness_VisitsSampleAndWriteTheirEntry :
    (∃ s t : _, t = (due0 : StreamSt) ∧ s = ({ base with streams := [(0, t)] } : State) ∧ s.mayVisit 0 = true ∧
      (t.sampleAt (t.readHead 0).tokenPos).map (fun x => t.fateOf x.token 1 (t.ringFree t.head)) = some .cont) ∧
    (∃ s t : _, t = ({ due0 with tail := 63 } : StreamSt) ∧ s = ({ base with streams := [(0, t)] } : State) ∧ s.mayVisit 0 = true ∧
      ((t.readHead 0).sampleAt (t.readHead 0).tokenPos).map (fun x => t.fateOf x.token 1 (t.ringFree t.head)) = some .heldRing) ∧
    (∃ s : State, s = { base with streams := [(0, { stream0 with st := .waiting, heldRing := true })], tick := { isOpen := true } } ∧
      (s.stream 0).st = .waiting ∧ (s.stream 0).heldRing = true ∧ s.tick.isOpen = true ∧ s.locked (s.stream 0).part = false) ∧
    (∃ s : State, s = { base with streams := [(0, { stream0 with st := .waiting, heldRing := true })], tick := { isOpen := true }
                                  parts := [(0, { part0 .active ctx1 with tdi := 1 })] } ∧ s.locked (s.stream 0).part = true) ∧
    (∃ s : State, s = { base with streams := [(0, stream0)], sec := { unlock := some { scope := 3, lastTick := 0 } } } ∧ s.allHalls 0 = true ∧
      s.hallRing = none ∧ (s.stream 0).part = 0 ∧ (s.stream 0).st ≠ .free ∧ 1048576 ≤ 1048576 ∧ s.unlocked 3 = true) := by
  refine ⟨⟨_, _, rfl, rfl, ?_⟩, ⟨_, _, rfl, rfl, ?_⟩, ⟨_, rfl, ?_⟩, ⟨_, rfl, ?_⟩, ⟨_, rfl, ?_⟩⟩ <;> decide +kernel

/-! ## Witnesses: submission -/

/-- Queue 0 of partition 0 ACTIVE, with the front end enabled, one host window of 1 MiB, stream slots and KV frames, and handles: 1 a host
buffer, 2 a device buffer, 3 a graph with one version. -/
def subBase : State :=
  { base with
    regs := [(rFeCtrl, 1), (pfBase 0 + rSecHostwin, 1), (pfBase 0 + rSecHostlim, 0xFF000), (pfBase 0 + rPrtQuota, 0x400004000FF),
             (pfBase 0 + rPrtKvFrames, 0x4000)] ++ base.regs,
    parts := [(0, { part0 .active ctx1 with
      handles := [(1, { obj := some (.host 0 0x10000) }), (2, { obj := some (.device [(0, 0)] 0x10000) }), (3, { obj := some .graph })],
      graphs := [(0x10003, some { header := 0, geom := some geom1, versions := [{ num := 1, pages := [] }], nextNum := 2 })] })],
    stks := frames2.stks, queues := [(0, { st := .active, cqLog := 6 })] }

/-- Queue 0 with this descriptor taken in. -/
def takenIn (s : State) (d : BitVec 512) (aux : FetchAux) : State × DescSt :=
  (if (s.queue 0).fetch % 2 ^ 32 = (s.queue 0).tail then s.setQueue 0 { s.queue 0 with tail := ((s.queue 0).fetch + 1) % 2 ^ 32 } else s).takeIn 0 d
    aux []

/-- Queue 0 of the state that this leaves, admitting it. -/
def admits1 (x : State × DescSt) : State := x.1.setQueue 0 { x.1.queue 0 with admitted := (x.1.queue 0).admitted + 1 }

/-- Whether queue 0 takes this descriptor, and then, as its head, admits it with every check passed. -/
def submits (s : State) (op : Nat) (d : BitVec 512) (aux : FetchAux) : Bool :=
  decide (aux.head = none) && s.takes op 0 d && !(takenIn s d aux).1.headWaits 0 (takenIn s d aux).2 &&
  !(admits1 (takenIn s d aux)).depFaulted 0 (takenIn s d aux).2 && decide (((admits1 (takenIn s d aux)).check 0 (takenIn s d aux).2).1 = 0)

theorem submitted_of (s : State) (op : Nat) (d : BitVec 512) (aux : FetchAux) (h : submits s op d aux = true) :
    ∃ u v ds, s.Fetched u op 0 d aux [] ds ∧ u.headWaits 0 ds = false ∧ u.Admits v 0 ds := by
  unfold submits at h
  simp only [Bool.and_eq_true, Bool.not_eq_eq_eq_not, Bool.not_true, decide_eq_true_eq] at h
  have hr : s = s.refreshHead 0 d aux.head := by simp [State.refreshHead, h.1.1.1.1]
  obtain ⟨⟨⟨⟨-, h1⟩, h2⟩, h3⟩, h4⟩ := h
  have hx : ((takenIn s d aux).1, (takenIn s d aux).2) = takenIn s d aux := Prod.eta _
  generalize hy : takenIn s d aux = y at h2 h3 h4 hx
  exact ⟨y.1, admits1 y, y.2, ⟨s, hr, h1, hx.trans (hy.symm.trans (by rw [takenIn]))⟩, h2, rfl, h3, h4⟩

/-- The 64 bytes of an image with the least header: its parameter block has 8 bytes. -/
def imageBytes : List Byte := leBytes 64 (descOf [(0, 0x50554C49), (4, 1), (7, 1), (8, 64), (0x0C, 8)]).toNat

/-- The record of a stream of graph 3: a prompt of one token and one new token. -/
def streamRec : BitVec 1024 :=
  BitVec.ofNat 1024 (([(0x08, 0x1000), (0x10, 0x8000), (0x18, 0x8008), (0x20, 0x9000), (0x28, 1), (0x2C, 1), (0x30, 0x3F800000), (0x34, 0x3F800000),
    (0x38, 1), (0x39, 6), (0x3A, 1), (0x60, 0x10003)].map fun x => x.2 * 2 ^ (8 * x.1)).sum)

/-- One descriptor for each row; the image header of LOAD_GRAPH has the least parameter block. -/
def subCases : List (Nat × BitVec 512 × FetchAux) :=
  [(0x00, descOf [(0, 0)], {}), (0x01, descOf [(0, 0x10001), (4, 0x10003)], {}),
   (0x02, descOf [(0, 2), (0x10, 0x10001), (0x14, 64)],
     { image := imageBytes }),
   (0x03, descOf [(0, 3), (4, 0x10003)], {}), (0x04, descOf [(0, 4), (4, 0x10003), (0x18, 0x10001)], {}),
   (0x05, descOf [(0, 5), (4, 0x10001), (0x10, 0x10002), (0x14, 64)], {}), (0x06, descOf [(0, 6), (0x38, 1)], {}),
   (0x07, descOf [(0, 7), (0x18, 0x1000)], {}), (0x08, descOf [(0, 8), (4, 0x10002)], {}), (0x09, descOf [(0, 9), (0x38, 0xFFFF0)], {}),
   (0x0A, descOf [(0, 0x0A), (0x10, 0x10001)], { record := streamRec }), (0x0B, descOf [(0, 0x0B), (0x38, 16383)], {})]

theorem submits_cases : (subCases.all fun x => submits subBase x.1 x.2.1 x.2.2) = true := by decide +kernel

/-- Each row's descriptor is fetched and then admitted; the graph of the LAUNCH is not being loaded, and the handle of the FREE is no graph. -/
theorem witness_SubmissionsHaveTheirEffect :
    queuePart 0 = some 0 ∧
    (∀ x ∈ subCases, ∃ u v ds, subBase.Fetched u x.1 0 x.2.1 x.2.2 [] ds ∧ u.headWaits 0 ds = false ∧ u.Admits v 0 ds) ∧
    subBase.loadWaits 0 0x10003 = false ∧ subBase.isType 0 0x10002 3 = false :=
  ⟨rfl, fun x hx => submitted_of _ _ _ _ (List.all_eq_true.1 submits_cases x hx), by decide +kernel⟩

/-- A NOP that its ring's credit does not cover, a LAUNCH of a stopped context, a descriptor whose fence is in fault, and one with a reserved bit
set. -/
theorem witness_SubmissionsWaitOrAreRefused :
    (∃ s d, d = descOf [(0, 0)] ∧ s = { subBase with queues := [(0, { st := .active, cqLog := 6, outstanding := 64 })] } ∧
      (s.refreshHead 0 d none).takes 0 0 d = false) ∧
    (∃ s ds, ds = ({ d := descOf [(0, 0x10001), (4, 0x10003)], aux := {}, seq := 0 } : DescSt) ∧
      s = { subBase with
        parts := [(0, { subBase.part 0 with ctxs := [(1, some { ctx1 with stopped := true })] })]
        queues := [(0, { subBase.queue 0 with buffer := [ds] })] } ∧
      (s.queue 0).buffer = ds :: [] ∧ s.headWaits 0 ds = true) ∧
    (∃ s ds u, ds = ({ d := descOf [(0, 0x100), (0x20, 0x10004)], aux := {}, seq := 0 } : DescSt) ∧
      s = { subBase with parts := [(0, { part0 .active ctx1 with
        handles := [(4, { obj := some .fence })], fences := [(0x10004, some { fault := true })] })] } ∧ s.headWaits 0 ds = false ∧
      u = s.setQueue 0 { s.queue 0 with admitted := (s.queue 0).admitted + 1 } ∧ u.depFaulted 0 ds = true) ∧
    (∃ s ds u, ds = ({ d := descOf [(0, 0x8000)], aux := {}, seq := 0 } : DescSt) ∧ s = subBase ∧
      u = s.setQueue 0 { s.queue 0 with admitted := (s.queue 0).admitted + 1 } ∧ u.depFaulted 0 ds = false ∧ (u.check 0 ds).1 ≠ 0) := by
  refine ⟨⟨_, _, rfl, rfl, ?_⟩, ⟨_, _, rfl, rfl, rfl, ?_⟩, ⟨_, _, _, rfl, rfl, ?_, rfl, ?_⟩, ⟨_, _, _, rfl, rfl, rfl, ?_⟩⟩ <;> decide +kernel

/-- A background operation that has begun. -/
def bg0 (k : BgKind) : BgOp := { id := 1, kind := k, begun := true }

/-- The load that `subCases` asks for. -/
def loadDs : DescSt :=
  { d := descOf [(0, 2), (0x10, 0x10001), (0x14, 64)], aux := { image := imageBytes }, seq := 0 }

/-- The load with its one binding, a device buffer of 64 bytes. -/
def bindDs : DescSt :=
  { d := descOf [(0, 2), (0x10, 0x10001), (0x14, 64), (0x18, 0x10001), (0x1C, 1)], aux := { image := leBytes 64 (descOf [(0, 0x50554C49), (4, 1), (7, 1), (8, 64), (0x0C, 8), (0x16, 1)]).toNat, binds := [0x10002] }
    seq := 0 }

/-- The bytes of that buffer in one tile, all of them on stack 0. -/
def bindTile : WeightTile := { src := List.range 64 }

/-- The block with that buffer, stack 0 with these lines bad, and the load begun. -/
def bindAt (bad : SMap Nat) : State :=
  { subBase with
    parts := [(0, { subBase.part 0 with handles := [(1, { obj := some (.host 0 0x10000) }), (2, { obj := some (.device [(0, 0)] 64) })] })]
    stks := [(0, { frames2.stk 0 with bad := bad })], bg := [bg0 (.load 0 0 false bindDs 0)] }

theorem succ_ne (x : BitVec 512) : x + 1 ≠ x := by bv_omega

theorem witness_FetchesAndLoadsComplete :
    (∃ s : State, s = subBase ∧ s.polls 0 = true ∧ queuePart 0 = some 0 ∧ (2 : Nat) ^ 0 ≤ s.sqSize 0 ∧
      (BitVec.ofNat 64 (s.sqSize 0)).toNat / 2 ^ 32 = (s.queue 0).gen ∧
      ((BitVec.ofNat 64 (s.sqSize 0)).toNat % 2 ^ 32 + 2 ^ 32 - (s.queue 0).fetch % 2 ^ 32) % 2 ^ 32 ≤ s.sqSize 0 ∧
      (BitVec.ofNat 64 (2 ^ 32)).toNat / 2 ^ 32 ≠ (s.queue 0).gen) ∧
    (∃ s : State, s = { subBase with queues := [(0, { st := .active, cqLog := 6, tail := 1 })] } ∧ s.polls 0 = true ∧
      (s.queue 0).fetch % 2 ^ 32 ≠ (s.queue 0).tail ∧ (s.queue 0).buffer.length < 256 ∧
      (s.refreshHead 0 0 (some 0)).hasCredit 0 ((s.refreshHead 0 0 (some 0)).queue 0).head 0 = true) ∧
    (∃ s : State, s = { subBase with queues := [(0, { st := .active, cqLog := 6, tail := 1, outstanding := 64 })] } ∧ s.polls 0 = true ∧
      (s.refreshHead 0 0 (some 0)).hasCredit 0 ((s.refreshHead 0 0 (some 0)).queue 0).head 0 = false) ∧
    (∃ s : State, s = { subBase with queues := [(1024, { st := .active, cqLog := 6, tail := 1 })] } ∧ s.polls 1024 = true ∧
      (s.queue 1024).fetch % 2 ^ 32 ≠ (s.queue 1024).tail ∧
      (s.refreshHead 1024 0 (some 0)).hasCredit 1024 ((s.refreshHead 1024 0 (some 0)).queue 1024).head 0 = true) ∧
    (∃ s b, b = bg0 (.load 0 0 false loadDs 0) ∧ s = { subBase with bg := [b] } ∧ s.bg[0]? = some b ∧ b.done = false ∧ s.loadFault 0 loadDs = 0) ∧
    (bindAt []).locked 0 = false ∧ ({ bindAt [] with parts := [(0, { (bindAt []).part 0 with tdi := 1 })] } : State).locked 0 = true ∧ subBase.locked 0 = false ∧
    (∀ l ∈ [[], [(0, 1)]], ∃ s u : State, ∃ x bytes sts, s = bindAt l ∧ s.loadFault 0 bindDs = 0 ∧ sLenB bindDs.d ≤ bindDs.img.length ∧
      ([] : List Byte).length = s.boundHost 0 bindDs.aux.binds ∧ bytes = s.boundBytes 0 bindDs.aux.binds [] ∧
      sts = tileStacks (s.stackSet 0) [] [bindTile] ∧ shardsOk bytes [bindTile] sts [(0, 1)] = true ∧
      s.readBound 0 bindDs.aux.binds = (u, x) ∧ x = (if l = [] then .ok else .uncorrectable)) ∧
    (∃ s b, b = bg0 (.load 0 0 false { loadDs with aux := {} } 0) ∧ s = { subBase with bg := [b] } ∧ s.loadFault 0 { loadDs with aux := {} } ≠ 0) ∧
    (∃ s b g, b = bg0 (.reload 0 0x10003) ∧ g = ({ header := 0, binds := [9] } : GraphSt) ∧
      s = { subBase with bg := [b], parts := [(0, { part0 .active ctx1 with graphs := [(0x10003, some g)] })] } ∧
      ∃ h ∈ g.binds, s.bufOk 0 h.toNat false = false) ∧
    (∃ s b g, b = bg0 (.reload 0 0x10003) ∧ g = ({ header := 0, wdigest := Config.shake256 [] } : GraphSt) ∧
      s = { subBase with bg := [b], parts := [(0, { part0 .active ctx1 with graphs := [(0x10003, some g)] })] } ∧
      s.graph 0 0x10003 = some g ∧ g.binds = [] ∧ s.boundBytes 0 g.binds [] = [] ∧ Config.shake256 [] = g.wdigest) ∧
    (∃ s b g, b = bg0 (.reload 0 0x10003) ∧ g = ({ header := 0, wdigest := Config.shake256 [] + 1 } : GraphSt) ∧
      s = { subBase with bg := [b], parts := [(0, { part0 .active ctx1 with graphs := [(0x10003, some g)] })] } ∧
      s.graph 0 0x10003 = some g ∧ Config.shake256 [] ≠ g.wdigest) := by
  refine ⟨⟨_, rfl, ?_⟩, ⟨_, rfl, ?_⟩, ⟨_, rfl, ?_⟩, ⟨_, rfl, ?_⟩, ⟨_, _, rfl, rfl, ?_⟩, ?_, ?_, ?_, ?_, ⟨_, _, rfl, rfl, ?_⟩,
    ⟨_, _, _, rfl, rfl, rfl, 9, by simp, ?_⟩, ⟨_, _, _, rfl, rfl, rfl, rfl, rfl, rfl, rfl⟩, ⟨_, _, _, rfl, rfl, rfl, rfl, fun h => succ_ne _ h.symm⟩⟩
  case refine_9 => intro l hl; refine ⟨_, _, _, _, _, rfl, ?_, ?_, ?_, rfl, rfl, ?_, (Prod.eta _).symm, ?_⟩ <;> revert l <;> decide +kernel
  all_goals decide +kernel

/-! ## Witnesses: the tick, stops, flights, recovery -/

/-- The block with these bits of TCK_CTRL and TCK_STATUS. -/
def genAt (ctrl status : Nat) (t : TickSt) : State :=
  { base with regs := [(rHifStatus, 1), (rTckCtrl, BitVec.ofNat 64 ctrl), (rTckStatus, BitVec.ofNat 64 status)], tick := t }

/-- The open tick of the block with a candidate list of context 1 on its way. -/
def holding (s : State) : State := { s with cands := [list0 0] }

/-- Alone and in a group, as its root and as a member; with a holder; edges early, of a closed tick, of an overrun one; drained, and not; an
overrun tick that reaches its limit with nothing named hung; and a block with no tick open. -/
theorem witness_TicksCloseAndOpen :
    (∃ s q : State, s = genAt 1 1 { isOpen := true } ∧ q = s.progressCheck ∧ s.closable = true ∧ s.source ≠ 1 ∧ q.grouped = false ∧ q.holders = []) ∧
    (∀ g ∈ [0x31, 0x21], ∃ s q : State, s = genAt g 1 { isOpen := true } ∧ q = s.progressCheck ∧ s.closable = true ∧ s.source ≠ 1 ∧ q.grouped = true ∧
      q.tick.arriveSent = false ∧ q.holders = [] ∧ (q.source = 3 ↔ g = 0x31)) ∧
    (∃ s : State, s = holding (genAt 1 1 { isOpen := true }) ∧ s.closable = true ∧ s.progressCheck.holders = [(0, 1)]) ∧
    (∃ s : State, s = genAt 0x11 1 { isOpen := true, overrun := true } ∧ s.source = 1 ∧ s.genState = 1 ∧ 250 ≤ 250 ∧ s.tick.overrun = true) ∧
    (∃ s : State, s = genAt 0x11 1 { closed := true } ∧ s.source = 1 ∧ s.genState = 1 ∧ s.tick.closed = true ∧ s.tick.overrun = false) ∧
    (∃ s q : State, s = genAt 0x11 1 { isOpen := true } ∧ q = s.progressCheck ∧ s.source = 1 ∧ s.closable = true ∧ s.tick.closed = false ∧
      q.grouped = false ∧ q.holders = []) ∧
    (∃ s : State, s = holding (genAt 0x11 1 { isOpen := true }) ∧ s.source = 1 ∧ s.closable = true ∧ s.progressCheck.holders ≠ []) ∧
    (∃ s : State, s = genAt 1 2 { isOpen := true, overrun := true } ∧ s.genState = 2 ∧ s.holders = [] ∧ s.grouped = false) ∧
    (∀ g ∈ [0x31, 0x21], ∃ s : State, s = genAt g 1 { isOpen := true, overrun := true } ∧ s.holders = [] ∧ s.grouped = true ∧
      s.tick.arriveSent = false ∧ (s.source = 3 ↔ g = 0x31)) ∧
    (∃ s : State, s = genAt 1 1 { closed := true } ∧ s.tick.closed = true ∧ s.genState ≠ 4 ∧ s.genState ≠ 5) ∧
    (∃ s : State, s = genAt 1 4 { closed := true } ∧ s.tick.closed = true ∧ s.genState = 4) ∧
    (∃ s u : State, s = holding (genAt 1 1 { isOpen := true, overrun := true }) ∧ u = s.takeSample.flag rTckStatus 4 ∧ s.tick.tearing = false ∧
      s.holders ≠ [] ∧ s.takeSample.holders = [(0, 1)] ∧ (∀ i < 802, s.takeSample.hungKey s.takeSample.tick.sinceOpen i = false) ∧
      (∀ c < 192, u.stalledKey s.takeSample.tick.sinceOpen (4 * c + 3) = false)) ∧
    (∃ s : State, s = genAt 0 0 {} ∧ s.closable = false ∧ s.source ≠ 1 ∧ s.tick.isOpen = false ∧ s.tick.closed = false) := by
  refine ⟨⟨_, _, rfl, rfl, ?_⟩, ?_, ⟨_, rfl, ?_⟩, ⟨_, rfl, ?_⟩, ⟨_, rfl, ?_⟩, ⟨_, _, rfl, rfl, ?_⟩, ⟨_, rfl, ?_⟩, ⟨_, rfl, ?_⟩, ?_, ⟨_, rfl, ?_⟩, ⟨_, rfl, ?_⟩,
    ⟨_, _, rfl, rfl, ?_⟩, ⟨_, rfl, ?_⟩⟩
  case refine_2 => intro g hg; refine ⟨_, _, rfl, rfl, ?_⟩; revert g; decide +kernel
  case refine_9 => intro g hg; refine ⟨_, rfl, ?_⟩; revert g; decide +kernel
  all_goals decide +kernel

/-- A port that has trained. -/
def active : PortSt := { st := 6, width := 8, excluded := 64 }

/-- A message to a module: its kind, its source, its data length. -/
def msg (kind dst src len : Nat) : BitVec 256 := MsgFields.hdr { kind := kind, dst := dst, src := src, seq := 5, len := len }

/-- Module 3 in a group of n modules, its port 9 trained. -/
def groupAt (ctrl status n : Nat) (t : TickSt) : State :=
  { genAt ctrl status t with
    regs := [(rOnlModule, 3), (rTckBarrier, BitVec.ofNat 64 n)] ++ (genAt ctrl status t).regs, ports := [(9, active)] }

/-- The root of a group of 2 and of 3 that has arrived, and that has not; a member that has arrived; messages for another module and of another
kind; a release that has come; a group that is lost, with no context of a job of several modules and with one. -/
theorem witness_BarriersComplete :
    (∀ n ∈ [2, 3], ∃ s v : State, s = groupAt 0x31 1 n { isOpen := true, arriveSent := true } ∧ v = s.freeFlits 9 { hdr := msg 3 3 255 0 } ∧
      s.hears 9 3 (msg 3 3 255 0) = true ∧ mDst (msg 3 3 255 0) = v.moduleId ∧ mSrc (msg 3 3 255 0) = 255 ∧ v.source = 3 ∧ v.grouped = true ∧
      255 ≠ v.moduleId ∧ v.tick.released = none ∧ 255 ∉ v.tick.arrived ∧ v.tick.arriveSent = true ∧
      (v.tick.arrived.length + 2 = v.fld rTckBarrier 8 0 ↔ n = 2)) ∧
    (∀ l ∈ [[], [255]], ∃ s v : State, s = groupAt 0x31 1 2 { isOpen := true, arrived := l } ∧ v = s.freeFlits 9 { hdr := msg 3 3 255 0 } ∧
      s.hears 9 3 (msg 3 3 255 0) = true ∧ mDst (msg 3 3 255 0) = v.moduleId ∧ v.source = 3 ∧ v.grouped = true ∧ v.tick.released = none ∧
      v.tick.arriveSent = false ∧ (255 ∈ v.tick.arrived ↔ l = [255])) ∧
    (∃ s v : State, s = groupAt 0x21 1 2 { isOpen := true, arriveSent := true } ∧ v = s.freeFlits 9 { hdr := msg 4 3 255 0 } ∧
      s.hears 9 4 (msg 4 3 255 0) = true ∧ mDst (msg 4 3 255 0) = v.moduleId ∧ v.source = 2 ∧ v.grouped = true ∧ v.tick.arriveSent = true ∧
      v.tick.released = none) ∧
    (∀ k ∈ [3, 4], ∃ s v : State, s = groupAt 0x21 1 2 {} ∧ v = s.freeFlits 9 { hdr := msg k 4 255 0 } ∧ s.hears 9 k (msg k 4 255 0) = true ∧
      mDst (msg k 4 255 0) ≠ v.moduleId ∧ s.hears 9 3 (msg 4 3 255 0) = false ∧ s.hears 9 4 (msg 3 3 255 0) = false) ∧
    (∃ s : State, s = genAt 0x21 2 { isOpen := true, released := some 0 } ∧ s.tick.isOpen = true ∧ s.tick.released.isSome = true ∧ s.genState = 2) ∧
    (∃ s : State, s = { genAt 0x21 1 { isOpen := true, arriveSent := true } with parts := [] } ∧ s.grouped = true ∧ s.tick.isOpen = true ∧
      s.tick.arriveSent = true ∧ s.tick.released = none ∧ ∀ p < 16, (s.part p).ctxs = []) ∧
    (∃ s x, x = { ctx1 with multi := true } ∧
      s = { genAt 0x21 1 { isOpen := true, arriveSent := true } with parts := [(0, part0 .active x)] } ∧ s.grouped = true ∧
      (s.part 0).ctxs = [(1, some x)] ∧ (∀ q < 16, q ≠ 0 → (s.part q).ctxs = []) ∧ s.multiModule 0 x = true ∧ x.stopped = false) := by
  refine ⟨?_, ?_, ⟨_, _, rfl, rfl, ?_⟩, ?_, ⟨_, rfl, ?_⟩, ⟨_, rfl, ?_⟩, ⟨_, _, rfl, rfl, ?_⟩⟩
  case refine_1 => intro n hn; refine ⟨_, _, rfl, rfl, ?_⟩; revert n; decide +kernel
  case refine_2 => intro n hn; refine ⟨_, _, rfl, rfl, ?_⟩; revert n; decide +kernel
  case refine_4 => intro n hn; refine ⟨_, _, rfl, rfl, ?_⟩; revert n; decide +kernel
  all_goals decide +kernel

/-- GEN_EN set when it is set, in NOT_STARTED, after each kind of module stop and within a hard stop, before and after its close; and cleared while stopped, running, and when it is clear. -/
theorem witness_GeneratorIsEnabledAndDisabled :
    (∃ s : State, s = genAt 1 1 {} ∧ s.barOpen rTckCtrl = true ∧ s.fld rTckCtrl 0 0 = 1 ∧ bit (1 : Word).toNat 0 = true) ∧
    (∀ g ∈ [0, 3, 5], ∃ s w : State, s = genAt 0 g {} ∧ s.barOpen rTckCtrl = true ∧ s.fld rTckCtrl 0 0 = 0 ∧
      w = ({ s.writeBits rTckCtrl 1 (BitVec.allOnes 64) with tick := { s.tick with group := true } } : State).setFld rTckCtrl 0 0 1 ∧
      w.genState = g ∧ w.tick.closed = false) ∧
    (∀ c ∈ [false, true], ∃ s w : State, s = genAt 0 4 { closed := c } ∧ s.barOpen rTckCtrl = true ∧ s.fld rTckCtrl 0 0 ≠ 1 ∧
      w = ({ s.writeBits rTckCtrl 1 (BitVec.allOnes 64) with tick := { s.tick with group := true } } : State).setFld rTckCtrl 0 0 1 ∧
      w.genState = 4 ∧ w.tick.closed = c) ∧
    (∃ s u : State, s = genAt 1 3 {} ∧ u = s.writeBits rTckCtrl 0 (BitVec.allOnes 64) ∧ u.fld rTckCtrl 0 0 = 1 ∧ u.genState = 3) ∧
    (∃ s u : State, s = genAt 1 1 {} ∧ u = s.writeBits rTckCtrl 0 (BitVec.allOnes 64) ∧ u.fld rTckCtrl 0 0 = 1 ∧ u.genState = 1) ∧
    (∃ s u : State, s = genAt 0 0 {} ∧ u = s.writeBits rTckCtrl 0 (BitVec.allOnes 64) ∧ u.fld rTckCtrl 0 0 = 0) := by
  refine ⟨⟨_, rfl, ?_⟩, ?_, ?_, ⟨_, _, rfl, rfl, ?_⟩, ⟨_, _, rfl, rfl, ?_⟩, ⟨_, _, rfl, rfl, ?_⟩⟩
  case refine_2 => intro g hg; refine ⟨_, _, rfl, ?_, ?_, rfl, ?_⟩ <;> revert g <;> decide +kernel
  case refine_3 => intro g hg; refine ⟨_, _, rfl, ?_, ?_, rfl, ?_⟩ <;> revert g <;> decide +kernel
  all_goals decide +kernel

/-- The block with partition 0 in a state. -/
def partAt (st : PState) (x : CtxSt) : State := { base with parts := [(0, part0 st x)] }

theorem witness_StopsTakeEffect :
    base.genState = 1 ∧ (base.part 0).st = .active ∧ ((partAt .softStopped ctx1).part 0).st ≠ .active ∧ base.ctx 0 1 = some ctx1 ∧
    ctx1.stopped = false ∧ (partAt .active { ctx1 with stopped := true }).ctx 0 1 = some { ctx1 with stopped := true } ∧
    ((partAt .hardStopping ctx1).part 0).st = .hardStopping ∧ (partAt .hardStopping ctx1).genState ≠ 4 ∧
    (partAt .hardStopping ctx1).landingIn 0 = false ∧ (genAt 1 4 {}).genState = 4 ∧
    (∀ q < 16, ((genAt 1 4 {}).part q).st = .hardStopping → (genAt 1 4 {}).landingIn q = false) := by decide +kernel

/-- The block with every engine enabled and the generator in a state. -/
def enginesAt (gen : Nat) : State :=
  { partAt .hardStopped { ctx1 with stopped := true } with
    regs := [(rHifStatus, 1), (rTckCtrl, 1), (rTckStatus, BitVec.ofNat 64 gen), (rSeqCtrl, 1)] ++
      (List.range 16).flatMap fun t => [(saeBase t + rSaeCtrl, 1), (stkBase t + rStkCtrl, 1)] }

theorem witness_ResumesAreRequestedOrRun :
    (enginesAt 5).enginesOn = true ∧ ((enginesAt 5).part 0).st = .hardStopped ∧ ((enginesAt 5).part 1).st ≠ .softStopped ∧
    (enginesAt 5).ctx 0 1 = some { ctx1 with stopped := true } ∧ (enginesAt 5).genState = 5 ∧ (enginesAt 3).genState = 3 ∧
    (enginesAt 3).fld rTckCtrl 0 0 = 1 ∧ ({ enginesAt 5 with regs := [(rSeqCtrl, 0)] } : State).enginesOn = false ∧
    (enginesAt 1).genState = 1 ∧ (enginesAt 5).ctx 0 2 = none ∧ (enginesAt 5).fencedPart 0 = false ∧
    (∃ s : State, s = { enginesAt 5 with mir := { parts := [(0, { fenced := true })] } } ∧ s.fencedPart 0 = true ∧
      (s.part 0).st = .hardStopped) ∧
    (∃ r ∈ ((enginesAt 5).pushReq { src := .descriptor, scope := .module, resume := true }).tick.reqs, r.resume = true ∧ r.scope = .module) := by
  exact ⟨by decide +kernel, by decide +kernel, by decide +kernel, by decide +kernel, by decide +kernel, by decide +kernel, by decide +kernel,
    by decide +kernel, by decide +kernel, by decide +kernel, by decide +kernel, ⟨_, rfl, by decide +kernel⟩, by decide +kernel⟩

/-- The open tick of the block, with flight 1 on core 0. -/
def flightAt (k : CoreSt) (f : FlightSt) : State := { withCore k with flights := [(1, some f)], tick := { isOpen := true } }

theorem witness_FlightsAndBackgroundOpsComplete :
    (∃ s f, f = { flight0 with begun := false } ∧ s = flightAt { waiting := [1] } f ∧ (s.core 0).phase = .idle ∧ s.nextFlight 0 = some (1, f) ∧
      s.mayEnter 0 f = true ∧ (f.slots.findIdx? fun r => decide (r.core = 0)) = some 0) ∧
    (∃ s : State, s = flightAt { coreAt 0 0 with phase := .atWtick, flight := 1 } flight0 ∧ s.working = true ∧ (s.core 0).resumeTick ≤ s.tickNo.toNat ∧
      s.runs 0 = true ∧ s.frozen 0 = false ∧ s.ctxIssues 0 1 = true ∧ s.epochOk 0 1 0 = true ∧ s.heldForReplay 0 0 1 = false ∧ (s.core 0).inReset = false ∧
      s.flight 1 = some flight0 ∧ (s.newRegion 0).core = 0 ∧ (s.newRegion 0).off = (s.core 0).region.off) ∧
    (∃ s : State, s = flightAt { coreAt 0 0 with phase := .ended, flight := 1 } flight0 ∧ (s.core 0).ctrlq = [] ∧ (s.core 0).ents = [] ∧
      s.ctxIssues 0 1 = true ∧ s.epochOk 0 1 0 = true ∧ s.flight 1 = some flight0 ∧ (flight0.slots.getD (s.core 0).slot (s.core 0).region).core = 0 ∧
      ∀ x ∈ flight0.cores, x ∈ flight0.ended ∨ x = 0) ∧
    (∃ s f, f = { flight0 with slots := [region0, { region0 with core := 1 }] } ∧ s = flightAt { coreAt 0 0 with phase := .ended, flight := 1 } f ∧
      (s.core 0).ctrlq = [] ∧ (s.core 0).ents = [] ∧ s.flight 1 = some f ∧ (f.slots.getD (s.core 0).slot (s.core 0).region).core = 0 ∧ ∃ x ∈ f.cores, x ∉ f.ended ∧ x ≠ 0) ∧
    (∃ s : State, s = { base with bg := [bg0 (.refill 0 0)] } ∧ (s.bg.find? fun b => decide (b.id = 1) && !b.done && b.begun) = some (bg0 (.refill 0 0))) := by
  refine ⟨⟨_, _, rfl, rfl, ?_⟩, ⟨_, rfl, ?_⟩, ⟨_, rfl, ?_⟩, ⟨_, _, rfl, rfl, ?_⟩, ⟨_, rfl, ?_⟩⟩ <;> decide +kernel

/-- Two contexts of job 1, both in a fault. -/
def mates2 : State := { base with parts := [(0, { part0 .active (ctxAt .faulted) with ctxs := [(1, some (ctxAt .faulted)), (2, some (ctxAt .faulted))] })] }

theorem witness_TeardownRunsItsPhases :
    (∀ t ∈ [TearPhase.faulted, .fenced, .drained], (partAt .active (ctxAt t)).ctx 0 (1 : BitVec 16).toNat = some (ctxAt t) ∧
      (partAt .active (ctxAt t)).jobMates 0 (1 : BitVec 16).toNat = [] ∧ (partAt .active (ctxAt t)).inLanding2 0 (1 : BitVec 16).toNat = false) ∧
    (∃ s : State, s = { at0 0 0 with parts := [(0, part0 .active (ctxAt .faulted))], rcv := { resetting := [0], haltedBy := [(0, 0)] } } ∧
      s.ctx 0 (1 : BitVec 16).toNat = some (ctxAt .faulted) ∧ s.inLanding2 0 (1 : BitVec 16).toNat = true) ∧
    (mates2.jobMates 0 (1 : BitVec 16).toNat = [2] ∧ mates2.ctx 0 2 = some (ctxAt .faulted)) := by
  refine ⟨by decide +kernel, ⟨_, rfl, by decide +kernel⟩, by decide +kernel⟩

/-- A context that has met a fault, its core at an instruction. -/
theorem witness_TheFenceMakesOldRequestsStale :
    ∃ s : State, s = { at0 0 0 with parts := [(0, part0 .active (ctxAt .faulted))] } ∧ s.ctx 0 (1 : BitVec 16).toNat = some (ctxAt .faulted) ∧
      s.jobMates 0 (1 : BitVec 16).toNat = [] ∧ s.inLanding2 0 (1 : BitVec 16).toNat = false ∧ (s.core 0).phase ≠ .idle ∧ (s.core 0).ctx = (1 : BitVec 16).toNat := by
  refine ⟨_, rfl, ?_⟩; decide +kernel

/-- Core 191, engines beyond the cores, and what is none; engines in reset with and without their landing, with replay on and off; landings of each
level; and a gallery being cleared. -/
theorem witness_EnginesAndLandingsComplete :
    isEngine 191 = true ∧ 191 ∉ base.rcv.resetting ∧ isEngine 226 = false ∧
    (∀ g ∈ [0, 0x100], ∃ s v : State, s = { base with rcv := { resetting := [191] }, regs := (rPrtFaultCtrl, BitVec.ofNat 64 g) :: base.regs } ∧
      191 ∈ s.rcv.resetting ∧ v = ({ (s.abandonFc 191).resetEngine 191 with
        rcv := { ((s.abandonFc 191).resetEngine 191).rcv with resetting := ((s.abandonFc 191).resetEngine 191).rcv.resetting.erase 191 } } :
          State).landingsDone (fun l => decide (l.level = 2) && decide (l.unit = 191)) ∧
      (v.fld rPrtFaultCtrl 8 8 = 1 ↔ g = 0x100) ∧ s.rcv.landings = [] ∧
      s.rcv.landings.find? (fun l => decide (l.level = 2 ∧ l.unit = 191)) = none) ∧
    (∃ s l, l = ({ id := 1, level := 2, unit := 192 } : LandingSt) ∧ s = ({ base with rcv := { resetting := [192], landings := [l] } } : State) ∧
      192 ∈ s.rcv.resetting ∧ s.rcv.landings.find? (fun l => decide (l.level = 2 ∧ l.unit = 192)) = some l) ∧
    (base.part 0).st ≠ .absent ∧ (base.part 15).st = .absent ∧
    (∀ n ∈ [1, 2, 3, 4], ∀ u ∈ [0, 192], ∃ s l, l = ({ id := 7, level := n, unit := u, part := some 0 } : LandingSt) ∧
      s = ({ base with rcv := { landings := [l] } } : State) ∧ (s.rcv.landings.find? fun l => decide (l.id = 7)) = some l) ∧
    (∃ s : State, s = { base with rcv := { clearing := [(23, none, false)] } } ∧ (s.rcv.clearing.find? fun x => decide (x.1 = 23)) = some (23, none, false) ∧
      s.rcv.landings = []) := by
  refine ⟨by decide +kernel, by decide +kernel, by decide +kernel, ?_, ⟨_, _, rfl, rfl, ?_⟩, ?_, ?_, fun n _ u _ => ⟨_, _, rfl, rfl, by simp⟩,
    ⟨_, rfl, ?_⟩⟩
  case refine_1 => intro g hg; refine ⟨_, _, rfl, ?_, rfl, ?_⟩ <;> revert g <;> decide +kernel
  all_goals decide +kernel

/-! ## Witnesses: links, pairs, registers -/

/-- The block as module 3 with partner 2, with port n in a state. -/
def portAt (n : Nat) (k : PortSt) : State :=
  { base with regs := [(rOnlModule, 3), (rMirCtrl, 0x201), (portBase n + rOnlPortCtrl, 1)] ++ base.regs, ports := [(n, k)] }

/-- What training finds: every lane hears its lane of port 0 of module 1. -/
def seen : TrainObs := { lanes := (List.range 8).map fun i => { module := 1, port := 0, lane := BitVec.ofNat 3 i }, delayNs := 0 }

/-- Training that finds no fault, and whose third attempt fails too; a segment whose tag is due, with a TAG flit in the buffer. -/
theorem witness_PortsAndLinksComplete :
    (portAt 9 active).barOpen (portBase 9) = true ∧ (portAt 9 { st := 1 }).portEn 9 = true ∧ ((portAt 9 { st := 5 }).port 9).st = 5 ∧
    (portAt 9 { st := 1 }).wiringFault 9 seen = none ∧
    (∀ b, Config.ed448Verify (Config.publicKey 0) [] [] = b → Config.ed448Verify (Config.certKey []) [] [] = true →
      Config.ed448Verify (Config.certKey []) (digestBytes seen.transcript) [] = true → partnerTrusted seen = b) ∧
    (portAt 9 { st := 7 }).wiringFault 9 { seen with failed := 3 } = some 9 ∧
    7 ∈ ((portAt 9 active).port 9).lanes ∧ 6 ∉ ((portAt 9 active).port 9).lanes ∧ (portAt 9 active).live 9 = true ∧
    (({ active with replayBuf := [{ seq := 4095, vc := 0, typ := 1 }] } : PortSt).ack 0).replayBuf ≠ [] ∧ (active.ack 0).replayBuf = [] ∧
    (∃ k good x, k = ({ active with rxBuf := [{ vc := 8, typ := 3, last := true, tag := 0, payload := [] }], rxUsed := [(8, 1)] } : PortSt) ∧
      good = gcmTag k.keyIn k.nonceIn [] ((k.rxBuf.filter fun f => f.typ ≠ 3).flatMap FlitIn.payload) ∧
      x = min (k.rxBuf.countP fun f => f.typ = 3) (SMap.get 0 k.rxUsed 8) ∧ x = 1 ∧ (BitVec.ofNat 64 0).toNat = k.rxSeg) ∧
    (BitVec.ofNat 64 1).toNat ≠ ((portAt 9 active).port 9).rxSeg ∧
    ((portAt 9 { active with txSegFlits := 1 }).port 9).txSegFlits ≠ 0 ∧ ((portAt 9 { active with txSegFlits := 1 }).port 9).canTag = true := by
  refine ⟨by decide +kernel, by decide +kernel, by decide +kernel, by decide +kernel, ?_, by decide +kernel, by decide +kernel, by decide +kernel,
    by decide +kernel, by decide +kernel, by decide +kernel, ⟨_, _, _, rfl, rfl, rfl, by decide +kernel⟩, by decide +kernel, by decide +kernel,
    by decide +kernel⟩
  intro b h1 h2 h3; unfold partnerTrusted; rw [show seen.certs = {} from rfl]; dsimp only; rw [h1, h2, h3]; simp

/-- A write of module 3 to module 1 that has been sent. -/
def out0 (lost : Bool) : MsgOut :=
  { dst := 1, seq := 5, slot := 0, win := 0, epoch := 0, part := 0, ctx := 1, ctxEpoch := 0, offset := 0, data := [], rc := false, rowEnd := true,
    rowPos := 0, rowId := 0, core := 0, chan := 0, stamp := 0, port := some 9, lost := lost }

/-- The port with a flit that it has sent and replayed this often. -/
def unacked (n : Nat) : PortSt := { active with replayBuf := [{ seq := 4095, vc := 0, typ := 1 }], stuck := n }

/-- A flit with this header word whose CRC is right. -/
def flitOf (h : Word) : FlitBody := { payload := List.replicate 244 0, crc := crc32c (leBytes 8 h.toNat ++ List.replicate 244 0) }

/-- The header word is taken from a port's state: its acknowledgement and its credit. -/
def heard (k : PortSt) (h : Word) : PortSt :=
  { k.ack (bits h.toNat 31 20) with
    credits := SMap.upd 0 (k.ack (bits h.toNat 31 20)).credits (bits h.toNat 35 32) fun u => u - bits h.toNat 43 36 }

/-- A pair whose second is b. -/
theorem takes {α : Type} (x : α × Bool) {b : Bool} (h : x.2 = b) : x = (x.1, b) := by rw [← h]

/-- Flits of a short payload, of no type or channel that exists, one that is spoiled, one in order, one out of order, and one that carries a NAK,
before and at the sixteenth replay; messages for this module, taken and held, and for another. -/
theorem witness_FlitsAndMessagesComplete :
    (portAt 9 active).live 9 = true ∧ (portAt 9 active).injected (227 + 9) [7] = (0, portAt 9 active) ∧
    (({ payload := [], crc := 0 } : FlitBody).payload.length ≠ 244) ∧
    (∃ s0 s : State, s0 = { portAt 9 active with dbg := { inject := some (7, 236) } } ∧ s0.injected (227 + 9) [7] = (7, s)) ∧
    4 ≤ bits (4 : Word).toNat 3 0 ∧ 10 ≤ bits (0xA0 : Word).toNat 7 4 ∧
    (∀ h : Word, (flitOf h).payload.length = 244 ∧ crc32c (leBytes 8 h.toNat ++ (flitOf h).payload) = (flitOf h).crc) ∧
    (∀ n ∈ [0, 15], ∃ s k u h, h = (2 ^ 44 + 5 * 2 ^ 8 : Word) ∧ s = portAt 9 (unacked n) ∧ s.injected (227 + 9) [7] = (0, s) ∧
      k = heard (s.port 9) h ∧ bits h.toNat 3 0 = 0 ∧ bit h.toNat 44 = true ∧ k.replayBuf ≠ [] ∧ u = s.replayed 9 k.replay ∧
      (u.live 9 = true ↔ n = 0)) ∧
    (∃ s k h, h = (1 : Word) ∧ s = portAt 9 active ∧ k = heard (s.port 9) h ∧ bits h.toNat 3 0 < 4 ∧ bits h.toNat 7 4 < 10 ∧
      bit h.toNat 44 = false ∧ bits h.toNat 19 8 = k.rxSeq ∧
      (s.setPort 9 { k with rxSeq := (k.rxSeq + 1) % 4096, nakSent := false }).live 9 = true ∧ (s.setPort 9 { k with nakSent := true }).live 9 = true) ∧
    (∃ s : State, s = portAt 9 active ∧ mKind (msg 1 3 1 64) = 1 ∧ mLen (msg 1 3 1 64) = 64 ∧ mDst (msg 1 3 1 64) = s.moduleId ∧
      (s.port 9).heldIn = [] ∧ (s.takeWrite (msg 1 3 1 64) (List.replicate 64 0) 9 (s.devEcc .ok)).2 = true) ∧
    (∃ s u : State, s = { portAt 9 active with inWins := [(0, some ⟨0, 0, 0, 64, 1, 0, 0, none, 0, false, true, false⟩)],
                                                rowsIn := List.replicate 4096 ⟨1, 9, 0, 0, none⟩ } ∧
      mDst (msg 1 3 1 64) = s.moduleId ∧ (s.port 9).heldIn = [] ∧ s.takeWrite (msg 1 3 1 64) (List.replicate 64 0) 9 (s.devEcc .ok) = (u, false)) ∧
    mDst (msg 1 4 1 64) ≠ (portAt 9 active).moduleId ∧
    (mKind (msg 2 3 1 0) = 2 ∧ mDst (msg 2 3 1 0) = (portAt 9 active).moduleId ∧
      (([out0 false]).find? fun m => decide (m.dst = mSrc (msg 2 3 1 0) ∧ m.seq = mSeq (msg 2 3 1 0)) && m.port.isSome) = some (out0 false)) ∧
    (([out0 true]).find? fun m => decide (m.dst = 1 ∧ m.seq = 5) && m.port.isSome && m.lost) = some (out0 true) := by
  refine ⟨by decide +kernel, rfl, by decide, ⟨_, _, rfl, rfl⟩, by decide +kernel, by decide +kernel, fun h => ⟨List.length_replicate, rfl⟩, ?_,
    ⟨_, _, _, rfl, rfl, rfl, ?_⟩, ⟨_, rfl, ?_⟩, ⟨_, _, rfl, ?_, ?_, takes _ ?_⟩, ?_⟩
  case refine_1 => intro n hn; refine ⟨_, _, _, _, rfl, rfl, rfl, rfl, ?_, ?_, ?_, rfl, ?_⟩ <;> revert n <;> decide +kernel
  all_goals decide +kernel

/-- The mirror port of the block live, with the mirror in a state. -/
def pairAt (m : MirSt) : State :=
  { portAt 11 active with
    regs := [(rOnlModule, 3), (rMirCtrl, 0x201), (pfBase 0 + rMirMap, 2)] ++ base.regs, mir := m, tick := { isOpen := true } }

/-- The lower half of a seal header of delta sequence 1. -/
def sealLow : BitVec 512 := BitVec.ofNat 512 (0x544C444D + 2 ^ 128)

/-- A seal header of two halves, as a number. -/
theorem header_toNat (x : BitVec 512) (lo : BitVec 512) : (x ++ lo : BitVec 1024).toNat = x.toNat * 2 ^ 512 + lo.toNat := by
  rw [BitVec.toNat_append, Nat.shiftLeft_eq, ← Nat.shiftLeft_eq, ← Nat.shiftLeft_add_eq_or_of_lt lo.isLt, Nat.shiftLeft_eq]

theorem header_hi (x lo : BitVec 512) : BitVec.ofNat 512 (bits (x ++ lo : BitVec 1024).toNat 1023 512) = x := by
  apply BitVec.eq_of_toNat_eq
  rw [header_toNat, BitVec.toNat_ofNat, bits, Nat.mul_comm, Nat.mul_add_div (Nat.two_pow_pos 512), Nat.div_eq_of_lt lo.isLt, Nat.add_zero,
    Nat.mod_mod]
  exact Nat.mod_eq_of_lt x.isLt

theorem header_lo (x lo : BitVec 512) (hi l : Nat) (h : hi < 512) (hl : l ≤ hi) :
    bits (x ++ lo : BitVec 1024).toNat hi l = bits lo.toNat hi l := by
  have p : (2 : Nat) ^ 512 = 2 ^ l * (2 ^ (hi + 1 - l) * 2 ^ (511 - hi)) := by rw [← Nat.pow_add, ← Nat.pow_add]; congr 1; omega
  rw [header_toNat, p, bits, bits, Nat.mul_left_comm, Nat.mul_add_div (Nat.two_pow_pos l), Nat.mul_left_comm, Nat.mul_add_mod]

/-- A message of the mirror, its sequence number 5, under tick 1. -/
def mirMsg (kind len : Nat) : BitVec 256 := MsgFields.hdr { kind := kind, dst := 3, src := 2, seq := 5, len := len, word := 1 }

theorem witness_HeartbeatsAndMirrorsComplete :
    (∃ s v w : State, s = pairAt { pair := .paired, hbSeq := 5, hbAcked := 4, hbAt := [(5, 7)] } ∧ s.live 11 = true ∧ mSrc (msg 5 3 2 0) = s.partnerId ∧
      v = s.freeFlits 11 { hdr := msg 5 3 2 0 } ∧ mKind (msg 5 3 2 0) = 5 ∧ s.mir.pair = .paired ∧
      w = { v.stampTime.2 with mir := { v.stampTime.2.mir with partnerEnd := some (v.stampTime.2.leaseFrom v.stampTime.1), graceOver := [] } } ∧
      mKind (msg 6 3 2 0) = 6 ∧ s.mir.hbAcked < mSeq (msg 6 3 2 0) ∧ mSeq (msg 6 3 2 0) ≤ s.mir.hbSeq ∧
      (((v.mir.hbAt.find? fun x => decide (x.1 = mSeq (msg 6 3 2 0))).map Prod.snd).getD 0) = 7 ∧
      mKind (msg 9 3 2 0) = 9 ∧ mStatus (msg 9 3 2 0) ≤ 1 ∧ s.tick.isOpen = true) ∧
    mSeq (msg 6 3 2 0) ≤ (pairAt { pair := .paired, hbSeq := 5, hbAcked := 5 }).mir.hbAcked ∧
    (∀ l ∈ [[], [((1 : Word), 5, [(0 : Byte)])]], ∃ s v : State, s = pairAt { parts := [(0, { shadow := 1, staged := l })] } ∧
      v = s.freeFlits 11 { hdr := mirMsg 7 2, data := [1, 2] } ∧ v.shadowOf (mPart (mirMsg 7 2)) = some 0 ∧ mKind (mirMsg 7 2) = 7 ∧
      mLen (mirMsg 7 2) = [(1 : Byte), 2].length ∧ (v.mirp 0).shadow ≠ 0 ∧ mWord (mirMsg 7 2) ≠ 2 ^ 64 - 1 ∧
      ((∀ x ∈ (v.mirp 0).staged, x.1 ≠ BitVec.ofNat 64 (mWord (mirMsg 7 2)) ∨ x.2.1 ≠ mSeq (mirMsg 7 2)) ↔ l = [])) ∧
    (∃ s sh, s = pairAt { parts := [(0, { shadow := 1 })] } ∧ sh = (Config.shake256 ([] ++ []) ++ sealLow : BitVec 1024) ∧ mKind (msg 8 3 2 0) = 8 ∧
      s.shadowOf (mPart (msg 8 3 2 0)) = some 0 ∧ (s.mirp 0).shadow ≠ 0 ∧ bits sh.toNat 31 0 = 0x544C444D ∧
      bits sh.toNat 191 128 = (s.mirp 0).rxSeq + 1 ∧ BitVec.ofNat 512 (bits sh.toNat 1023 512) = Config.shake256 ([] ++ [])) ∧
    bits (0 : BitVec 1024).toNat 191 128 ≠ (({} : MirPart).rxSeq + 1) ∧
    ((pairAt { parts := [(0, { shadow := 1 })] }).mirp 0).shadow = 1 ∧ ((pairAt {}).mirp 0).shadow ≠ 1 := by
  refine ⟨⟨_, _, _, rfl, by decide +kernel, by decide +kernel, rfl, by decide +kernel, by decide +kernel, rfl, by decide +kernel⟩, by decide +kernel, ?_,
    ⟨_, _, rfl, rfl, by decide +kernel, by decide +kernel, by decide +kernel, ?_, ?_, header_hi _ _⟩, by decide +kernel, by decide +kernel,
    by decide +kernel⟩
  · intro l hl; refine ⟨_, _, rfl, rfl, ?_⟩; revert l; decide +kernel
  · rw [header_lo _ _ _ _ (by omega) (by omega)]; decide +kernel
  · rw [header_lo _ _ _ _ (by omega) (by omega)]; decide +kernel

theorem witness_LeasesClaimsAndPromotions :
    (∃ s : State, s = { base with
        regs := (rMirCtrl, 5) :: base.regs, mir := { pair := .paired, leaseHeld := true, parts := [(0, { shadow := 3 })] } } ∧
      s.mir.pair = .paired ∧ s.mir.leaseHeld = true ∧ s.serves = true ∧ s.fld rMirCtrl 4 4 = 0) ∧
    (∃ s : State, s = { base with
        regs := (rMirCtrl, 0x15) :: base.regs, mir := { pair := .paired, leaseHeld := true, parts := [(0, { shadow := 3 })] } } ∧
      s.serves = true ∧ s.fld rMirCtrl 4 4 ≠ 0 ∧ s.mirroredParts = []) ∧
    (∃ s : State, s = { base with
        regs := [(rMirCtrl, 0x15), (pfBase 1 + rMirMap, 1)] ++ base.regs
        mir := { pair := .paired, leaseHeld := true, parts := [(0, { shadow := 3 }), (1, { stalledPub := [(0, .msi 1 0)] })] } } ∧
      s.serves = true ∧ s.fld rMirCtrl 4 4 ≠ 0 ∧ s.mirroredParts = [1]) ∧
    (∀ g ∈ [PairState.paired, .degraded, .solo], ∃ s : State,
      s = pairAt { pair := g, parts := [(0, { shadow := 2 })], partnerEnd := some 9 } ∧ s.mir.partnerEnd = some 9 ∧ s.isShadow 0 = true ∧
      (s.mirp 0).shadow = 2 ∧ s.mir.claimIn = false ∧ s.fld rMirCtrl 4 4 ≠ 1 ∧ s.mir.pair ≠ .off ∧ s.mir.pair ≠ .forming) ∧
    (∃ s : State, s = { pairAt { pair := .paired, parts := [(0, { shadow := 2 })], claimIn := true, partnerEnd := some 9 } with
        regs := [(rMirCtrl, 0x211), (pfBase 0 + rMirMap, 2)] } ∧ s.isShadow 0 = true ∧ s.fld rMirCtrl 4 4 = 1 ∧ s.mir.graceOver = []) ∧
    (∀ d ∈ [[], [([], [])]], ∃ s : State, s = pairAt { pair := .promoting, parts := [(0, { shadow := 2, promoting := true, due := d })] } ∧
      (s.mirp 0).promoting = true ∧ (s.mirp 0).due = d ∧ ∀ q < 16, q ≠ 0 → (s.mirp q).promoting = false) ∧
    base.barOpen rMirCtrl = true := by
  refine ⟨⟨_, rfl, ?_⟩, ⟨_, rfl, ?_⟩, ⟨_, rfl, ?_⟩, ?_, ⟨_, rfl, ?_⟩, ?_, ?_⟩
  case refine_4 => intro g hg; refine ⟨_, rfl, ?_⟩; revert g; decide +kernel
  case refine_6 => intro d hd; refine ⟨_, rfl, ?_⟩; revert d; decide +kernel
  all_goals decide +kernel

/-- The block with these keys of a stream of function 1, a session with it, and its interface in a state. -/
def tdiAt (tdi : Nat) (keys : KeysHeld) : State :=
  { base with parts := [(0, { part0 .active ctx1 with tdi := tdi })], sec := { sessions := [{ endpoint := 1, secret := 0, sig := [] }], keys := keys } }

theorem witness_TwoHalfReadsSeeOneValue :
    base.unsupported ⟨0, false⟩ = false ∧ (tdiAt 2 {}).unsupported ⟨1, false⟩ = true ∧ (tdiAt 2 {}).unsupported ⟨1, true⟩ = false ∧
    rTckNumber % 8 = 0 ∧ base.target 0 rTckNumber = .reg rTckNumber false ∧ base.barOpen (stkBase 15 + rStkWake) = true := by decide +kernel

theorem witness_WritesAreAppliedHeldOrDropped :
    base.unsupported ⟨0, false⟩ = false ∧ base.jormirUp = true ∧ base.heldHalf 0 = none ∧ rTckPeriod % 8 = 0 ∧ (base.target 0 rTckPeriod).holds = true ∧
    (base.target 0 (pfBase 15 + rMirMap) = .reg (pfBase 15 + rMirMap) false ∧ ((regRef (pfBase 15 + rMirMap)).map guarded) = some true) ∧
    (rTckPeriod + 4) % 8 = 4 ∧ base.target 0 0x4000000 = .nothing := by decide +kernel

theorem witness_FunctionsAndInterfacesComplete :
    base.jormirUp = true ∧ base.secOn = true ∧ (base.wake 5).secOn = true ∧ (base.wake 5).inSession 18 = false ∧
    ((tdiAt 0 {}).inSession 1 = true ∧ (tdiAt 0 {}).secOn = true ∧ (tdiAt 0 {}).sec.keys.ide.contains 2 = false) ∧
    base.inSession 16 = false ∧ (tdiAt 1 { ide := [3] }).sec.keys.ide.contains 3 = true ∧
    ((tdiAt 0 {}).part 0).tdi = 0 ∧ ((tdiAt 0 {}).part 0).st = .active ∧ (({} : State).part 0).st ≠ .active ∧
    (((tdiAt 1 { ideSet := [(1, 1)] }).part 0).tdi = 1 ∧ SMap.get 0 (tdiAt 1 { ideSet := [(1, 1)] }).sec.keys.ideSet 1 ≠ 0) ∧
    SMap.get 0 (tdiAt 1 {}).sec.keys.ideSet 1 = 0 ∧ ((tdiAt 2 {}).part 0).tdi = 2 := by decide +kernel

/-! ## Witnesses: security, power, host interface, debug -/

/-- The fields of an unlock token of scope COUNTERS, for the module of serial number x, with nonce 0. -/
theorem token_fields (n x : Nat) (hx : x < 2 ^ 128) (h : n = 2 ^ 64 * x + 0x14B4C4E55) :
    bits n 31 0 = 0x4B4C4E55 ∧ bits n 39 32 = 1 ∧ bits n 191 64 = x ∧ bits n 447 192 = 0 := by
  subst h; simp only [bits]; omega

/-- The block with an unlock nonce issued and its attestation key held. -/
def secured : State :=
  { base with sec := { nonces := [0], bootCert := some { kind := .boot, signer := .identity, key := [] }, keys := { attest := true }
                       unlock := some { scope := 1, lastTick := 5 }, record := { dbgKeys := [[]] } } }

/-- A token for this module meets what is asked of one wherever its signature verifies, which is the signature's own (log entry 6). -/
theorem token_ok (t : BitVec 1536) (ht : t.toNat = 2 ^ 64 * Config.serial.toNat + 0x14B4C4E55)
    (h : Config.ed448Verify [] ((leBytes 192 t.toNat).take 64) (((leBytes 192 t.toNat).drop 64).take 114) = true) : secured.tokenOk t = true := by
  obtain ⟨h1, h2, h3, h4⟩ := token_fields _ _ Config.serial.isLt ht
  unfold State.tokenOk tokScope tokNonce
  extract_lets b
  rw [h1, h2, h3, h4]
  have hb : Config.ed448Verify [] (List.take 64 b) (List.take 114 (List.drop 64 b)) = true := h
  simp [secured, hb]

/-- There is such a token. -/
theorem token_exists : ∃ t : BitVec 1536, t.toNat = 2 ^ 64 * Config.serial.toNat + 0x14B4C4E55 :=
  have h2 : ∀ x : Nat, x < 2 ^ 128 → 2 ^ 64 * x + 0x14B4C4E55 < 2 ^ 200 := fun x hx => by omega
  have h3 : ∀ x k : Nat, x < 2 ^ 200 → 200 ≤ k → (BitVec.ofNat k x).toNat = x := fun x k hx hk => by
    rw [BitVec.toNat_ofNat]; exact Nat.mod_eq_of_lt (Nat.lt_of_lt_of_le hx (Nat.pow_le_pow_right (by decide) hk))
  ⟨BitVec.ofNat 1536 (2 ^ 64 * Config.serial.toNat + 0x14B4C4E55), h3 _ _ (h2 _ Config.serial.isLt) (by decide)⟩

theorem witness_KeysAreDestroyedAndUnlocksGranted :
    base.jormirUp = true ∧ base.barOpen rSecZeroise = true ∧ (0x5A45524F : Word).toNat % 2 ^ 32 = 0x5A45524F ∧
    (secured.wake 5).secOn = true ∧ (secured.wake 5).sec.keys.attest = true ∧ (secured.wake 5).sec.bootCert.isSome = true ∧ (∀ k : BitVec 1536, k.toNat = 0 → (secured.wake 5).tokenOk k = false) ∧
    (({ secured with parts := [], regs := [] } : State).wake 5).scopeRefused 1 = false ∧ secured.sec.unlock = some { scope := 1, lastTick := 5 } ∧
    secured.tickNo.toNat ≤ 5 ∧ 5 < ({ secured with regs := [(rTckNumber, 6)] } : State).tickNo.toNat := by
  refine ⟨by decide +kernel, by decide +kernel, by decide +kernel, by decide +kernel, by decide +kernel, by decide +kernel, fun k h => ?_, by decide +kernel⟩
  unfold State.tokenOk; simp [h, bits]

/-- The block in OFF, its fault in a state. -/
def offAt (cause : Nat) (latched inputOk overV : Bool) : State :=
  { regs := [(rPwrStatus, BitVec.ofNat 64 (cause * 2 ^ 32))], pwr := { off := true, latched := latched, inputOk := inputOk, overV := overV } }

theorem witness_SupplyAndResetsComplete :
    (base.pwr.aon = true ∧ base.pwr.off = false) ∧ (1 ≤ (10 : BitVec 4).toNat ∧ (10 : BitVec 4).toNat ≤ 10) ∧
    ((offAt 0 false true false).pwr.off = true ∧ (offAt 0 false true false).pwr.latched = false) ∧ (offAt 3 true true false).pwr.latched = true ∧
    ((offAt 1 false false false).fld rPwrStatus 39 32 = 1 ∧ (offAt 1 false false false).pwr.inputOk = false ∧
      (offAt 1 false false false).pwr.pwrEn = true) ∧
    ((offAt 2 false true true).fld rPwrStatus 39 32 = 2 ∧ (offAt 2 false true true).pwr.overV = true) ∧
    ({ pwr := { resetHeld := true } } : State).pwr.resetHeld = true ∧ ({ pwr := { aon := false } } : State).pwr.aon = false := by decide +kernel

theorem witness_BootRunsItsStages :
    State.reset.pwr.off = false ∧ State.reset.pwr.pwrGood = true ∧ State.reset.pwr.resetHeld = false ∧ State.reset.pstate = 0 ∧
    State.reset.bootDone = false ∧ State.reset.sec.parked = false ∧ State.reset.fld rPwrBoot 3 0 = 0 := by decide +kernel

/-- The block in a power state, its generator SOFT_STOPPED. -/
def pwrAt (n : Nat) : State := ({ regs := [(rHifStatus, 1), (rTckStatus, 3)] } : State).setPstate n

theorem witness_IdleHoldAndWatchComplete :
    ((pwrAt 1).pstate = 1 ∧ (pwrAt 1).genIdle = true ∧ (pwrAt 1).barOpen rPwrCtrl = true) ∧
    ((pwrAt 3).pstate = 3 ∧ ((pwrAt 3).hallsLose.countFld rPwrCounts 63 48 1).pwr.wakeDue = false ∧
      ((pwrAt 3).hallsLose.countFld rPwrCounts 63 48 1).pwr.perst = false) ∧
    ((((pwrAt 3).wake 1).hallsLose.countFld rPwrCounts 63 48 1).pwr.wakeDue = true ∧ ((pwrAt 3).wake 1).pstate = 3) ∧
    (pwrAt 4).pstate = 4 ∧ 110 ≤ hotDie { hottest := [110] } ∧ hotDie { inlet := 255 } < 110 ∧ (pwrAt 4).fld rPwrWatch 47 40 < 255 ∧
    hotDie { stackC := [109] } < 110 ∧ (pwrAt 4).fld rPwrWatch 55 48 < 109 ∧ 0 ≤ (pwrAt 4).fld rPwrWatch 47 40 ∧ hotDie { vin := 0 } < 110 ∧
    0 < 25 * (pwrAt 4).fld rPwrWatch 39 32 ∧ 25 * (pwrAt 4).fld rPwrWatch 39 32 ≤ 6000 ∧
    ((pwrAt 5).pstate = 5 ∧ (pwrAt 5).pwr.perst = false) := by decide +kernel

theorem witness_PcieLinkCommandsComplete :
    (base.pwr.off = false ∧ (pwrAt 3).pstate = 3 ∧ (pwrAt 5).pstate = 5) ∧ (base.pstate < 3 ∧ base.bootDone = true) ∧
    (State.reset.pstate < 3 ∧ State.reset.bootDone = false) ∧ (16 : BitVec 5).toNat ∈ [1, 2, 4, 8, 16] ∧ (6 : BitVec 4).toNat ≤ 6 ∧
    base.pwr.pwrGood = true ∧ base.pwr.resetHeld = false ∧ base.dbg.scanLink = false ∧
    ({ base with dbg := { scanLink := true } } : State).dbg.scanLink = true := by decide +kernel

theorem witness_PartitionsContextsAndEnablesComplete :
    (base.barOpen (pfBase 15) = true ∧ (base.part 15).st = .absent) ∧ (base.part 0).st ≠ .absent ∧ ((tdiAt 2 {}).part 0).tdi = 2 ∧
    ((base.part 0).tdi ≠ 1 ∧ (base.part 0).tdi ≠ 2 ∧ (base.part 0).st = .active) ∧
    (∃ v : Word, v = 0xFFFF0105 ∧ base.barOpen (sliceBase 0) = true ∧ bits v.toNat 1 0 = 1 ∧ bits v.toNat 31 16 = 65535 ∧ base.ctx 0 65535 = none ∧
      bits v.toNat 15 8 ≠ 0 ∧ (base.part 0).held < base.fld (pfBase 0 + rPrtQuota) 8 0 ∧ bit v.toNat 2 = true) ∧
    (base.ctx 0 1).isSome = true ∧ (({ base with regs := [(pfBase 0 + rPrtQuota, 0)] } : State).fld (pfBase 0 + rPrtQuota) 8 0 ≤ (base.part 0).held) ∧ bits (2 : Word).toNat 1 0 = 2 ∧ base.barOpen (sliceBase 15) = true ∧
    (base.barOpen rFeCtrl = true ∧ bit (0 : Word).toNat 0 = false) ∧
    (base.barOpen (engineReg .seq) = true ∧ (enginesAt 1).fld (engineReg .seq) 0 0 ≠ 0 ∧
      ((enginesAt 1).setFld (engineReg .seq) 0 0 0).genState = 1 ∧ ((enginesAt 5).setFld (engineReg .seq) 0 0 0).genState = 5 ∧
      ({ base with regs := [(rHifStatus, 1), (rSeqCtrl, 0)] } : State).fld (engineReg .seq) 0 0 = 0) := by
  refine ⟨by decide +kernel, by decide +kernel, by decide +kernel, by decide +kernel, ⟨_, rfl, by decide +kernel⟩, by decide +kernel⟩

/-- The block tracing unit 0, records of kind 1, with a TEST unlock. -/
def debugAt : State :=
  { base with regs := [(rDbgCtrl, 0x42), (rDbgTraceUnits0, 1), (rDbgTraceFilter, 0x10000)] ++ base.regs,
              sec := { unlock := some { scope := 3, lastTick := 0 } } }

theorem witness_CountersAndDebugCommandsComplete :
    base.barOpen rDbgCmd = true ∧ (207 : Byte).toNat < 208 ∧ base.barOpen rDbgRingSel = true ∧
    (∃ s : State, s = debugAt.setRing 0 { unsent := [{ prio := 0 }] } ∧ (s.ring 0).unsent = ({ prio := 0 } : EventRec) :: [] ∧
      (s.setRing 0 { s.ring 0 with unsent := [] }).fld rDbgCtrl 7 6 = 1) ∧
    debugAt.traced 0 (BitVec.ofNat 128 (2 ^ 56)) = true ∧ (debugAt.ring 0).traceLost = 0 ∧ base.barOpen rTstInject = true ∧
    base.unlocked 3 = false ∧ debugAt.unlocked 3 = true ∧ bit (0x9FF : Word).toNat 11 = true ∧ bits (0x9FF : Word).toNat 10 8 ≠ 0 ∧
    base.barOpen rDbgAperture = true ∧ base.heldHalf 0 = none := by
  refine ⟨by decide +kernel, by decide +kernel, by decide +kernel, ⟨_, rfl, by decide +kernel⟩, by decide +kernel⟩

theorem witness_BoundaryScanComplete :
    base.tapOn = true ∧ base.scanOn = false ∧ debugAt.scanOn = true ∧ debugAt.pwr.linkUp = false ∧
    ({ debugAt with pwr := { linkUp := true } } : State).scanOn = true := by decide +kernel

/-- The block in tick 65,536 with the running firmware, and another image staged. -/
def fwAt : State :=
  { base with regs := [(rTckNumber, 65536)] ++ base.regs,
              sec := { images := [{ component := 2, version := 1, image := [7], active := true }, { component := 2, version := 2, image := [8] }],
                       record := { minJormir := 1, minRuntime := 1, fwKeys := [[]] } } }

theorem witness_SelfTestsUpdatesAndDigestsComplete :
    (fwAt.secOn = true ∧ fwAt.sec.parked = false ∧ fwAt.sec.lastMeasure + 65536 ≤ fwAt.tickNo.toNat ∧
      fwAt.firmware = some { component := 2, version := 1, image := [7], active := true }) ∧ fwAt.jormirUp = true ∧
    fwAt.firmware ≠ some { component := 2, version := 1, image := [9], active := true } ∧ ((fwAt.wake 5).secOn = true ∧ ¬(fwAt.wake 5).sec.record.least 2 ≤ 0) ∧ (fwAt.wake 5).imageOk 2 0 [] [] = false ∧
    ((fwAt.wake 5).sec.images.any fun y => y.component = (2 : BitVec 16).toNat && !y.active) = true ∧
    (Config.ed448Verify [] [] [] = true → Config.imageVersion [] = 1 → (fwAt.wake 5).imageOk 2 1 [] [] = true) ∧
    (∀ l ∈ [[], [(0, 1)]], ∃ s d f, d = ({ flight := 1, part := 0, input := 0, outs := [(0, false, 64)] } : DigestSt) ∧
      f = { flight0 with endStatus := some 0 } ∧
      s = { flightAt {} f with sec := { digests := [d] }, stks := [(0, { frames2.stk 0 with bad := l })] } ∧
      (s.sec.digests.find? fun d => decide (d.flight = 1) && !d.done) = some d ∧ s.flight 1 = some f ∧ f.endStatus.isSome = true ∧
      s.locked f.part = false ∧ ((s.readRanges 1 f d.outs).2.isSome = true ↔ l = [])) ∧
    (∃ s d f, d = ({ flight := 1, part := 0, input := 0, outs := [(0, true, 64)] } : DigestSt) ∧ f = { flight0 with endStatus := some 0 } ∧
      s = { flightAt {} f with sec := { digests := [d] }, parts := [(0, { part0 .active ctx1 with tdi := 1 })] } ∧ s.locked f.part = true ∧
      (s.sec.digests.find? fun d => decide (d.flight = 1) && !d.done) = some d ∧ s.flight 1 = some f ∧ (d.outs.any fun x => x.2.1) = true) := by
  refine ⟨by decide +kernel, by decide +kernel, by decide +kernel, by decide +kernel, ?_, by decide +kernel, ?_, fun l hl => ⟨_, _, _, rfl, rfl, rfl, ?_⟩,
    ⟨_, _, _, rfl, rfl, rfl, by decide +kernel⟩⟩
  · have h : ¬(fwAt.wake 5).sec.record.least 2 ≤ 0 := by decide +kernel
    simp [State.imageOk, h]
  · intro h1 h2
    have h3 : (fwAt.wake 5).sec.record.least 2 ≤ 1 := by decide +kernel
    have h4 : (fwAt.wake 5).sec.record.fwKeys = [[]] := by decide +kernel
    simp [State.imageOk, State.signedOk, h1, h2, h3, h4]
  · revert l; decide +kernel

/-! ## Witnesses: the whole machine, and the arithmetic -/

theorem witness_OnlyStoringCommandsChangeTheMemories :
    (mayStore .claimWatchdog = false ∧ ∃ t, exec .claimWatchdog base = .next t) ∧
    (base.heldHalf 0 = none ∧ (∀ b, base.target 0 (rFeCtrl / 8 * 8) ≠ .reg rTckCtrl b) ∧
      (∃ t, exec (.registerWrite ⟨0, false⟩ rFeCtrl 8 1) base = .next t) ∧ ∃ t, exec (.guardedWrite ⟨0, false⟩ rFeCtrl 1) base = .next t) ∧
    ((base.port 0).heldIn = [] ∧ ∃ t, exec (.flit 0 0 ⟨[], 0⟩) base = .next t) ∧
    ((tdiAt 1 { ideSet := [(1, 1)] }).part 0).hostHeld = [] ∧ ∃ t, exec (.startInterface 0) (tdiAt 1 { ideSet := [(1, 1)] }) = .next t := by
  refine ⟨⟨rfl, _, rfl⟩, ⟨rfl, by decide +kernel, ⟨_, rfl⟩, ?_⟩, ⟨rfl, ?_⟩, rfl, ?_⟩
  · cases h : exec (.guardedWrite ⟨0, false⟩ rFeCtrl 1) base with
    | next t => exact ⟨t, rfl⟩
    | _ => revert h; unfold exec Machine.execGuardedWrite; dsimp only; split <;> try split
           all_goals (try split) <;> (try split) <;> intro h <;> cases h
  · unfold exec Machine.execFlit; dsimp only; split <;> exact ⟨_, rfl⟩
  · unfold exec Machine.execStartInterface; dsimp only; split <;> exact ⟨_, rfl⟩

theorem witness_StepsKeepTheInvariant :
    ∃ s t : State, s = { State.reset with pending := [.claimWatchdog] } ∧ s.Inv ∧ step s = .next t := by
  refine ⟨_, _, rfl, ?_, rfl⟩; unfold State.Inv; decide +kernel

theorem witness_MemoryReturnsWhatWasWritten : 0xFFFF < 256 ^ 2 ∧ Memory.wf [] := by decide +kernel

/-- The edges of the ranges of the two statements about addresses. -/
theorem witness_ScratchpadSlotsAddressTheScratchpads :
    0x5FFFFF < 0x600000 ∧ 0x600000 ≤ 0x600000 ∧ 0x7FFFFF < 0x800000 ∧ placeOf (scrAddr 191 0x5FFFFF) = .scratch 191 0x5FFFFF ∧
    placeOf (scrAddr 191 0x600000) = .unmapped := by decide +kernel

theorem witness_StackBytesHaveTheirOwnPlace :
    0x11FFFFFFFF < 0x1200000000 ∧ stackRow 0x11FFFFFFFF = stackRow 0x11FFFFFFFF ∧ placeOf (stackAddr 15 0x11FFFFFFFF) = .stack 15 0x11FFFFFFFF := by
  decide +kernel

theorem witness_IntegerFormatsHoldNumbers : ((Fmt.int4, 16, -8, 7) : Fmt × Nat × Int × Int) ∈
    [(Fmt.int8, 256, -128, 127), (.int4, 16, -8, 7), (.uint8, 256, 0, 255), (.uint4, 16, 0, 15)] := by decide +kernel

theorem witness_ScaleCodesArePowersOfTwo : 254 < 255 ∧ decodeScale 254 = .fin false 1 127 := by decide +kernel

/-- Sums of adjacent lanes, level by level. -/
def levels (l : List Lane) : Nat → Nat → Lane
  | 0, i => l.getD i 0
  | k + 1, i => toF32 ((ofF32 (levels l k (2 * i))).add (ofF32 (levels l k (2 * i + 1))))

theorem witness_SumReductionsAddInSevenLevels :
    readyAt 0x35 0 ∧ unusedZero (bits56 0) false false false = true ∧ ((coreAt 0x35 0).vr 0).length = 128 ∧
    (∀ i, levels ((coreAt 0x35 0).vr 0) 0 i = ((coreAt 0x35 0).vr 0).getD i 0) := by
  refine ⟨by simp only [readyAt, ready_iff]; decide +kernel, by decide +kernel, by decide +kernel, fun _ => rfl⟩

theorem witness_MaximaFollowTheTotalOrder :
    ((ofF32 0x7FC00000).isNan = true ∧ (ofF32 0xFF800000).isNan = false) ∧
    ((ofF32 0x80000000).isNan = false ∧ (ofF32 0x3F800000).numLe (ofF32 0xFF800000) = false ∧ (ofF32 0xFF800000).numLe (ofF32 0x3F800000) = true) ∧
    readyAt 0x35 (2 ^ 30) ∧ unusedZero (bits56 (2 ^ 30)) false false false = true ∧ ((coreAt 0x35 (2 ^ 30)).vr 0).length = 128 := by
  refine ⟨by decide +kernel, by decide +kernel, by simp only [readyAt, ready_iff]; decide +kernel, by decide +kernel⟩

/-- Each instruction with every operand bit set, of which a reserved one, but for those whose every bit is an operand's. -/
theorem witness_ReservedBitsAreIllegal :
    ∀ op ∈ [0x00, 0x01, 0x02, 0x03, 0x04, 0x06, 0x07, 0x08, 0x09, 0x0A, 0x0B, 0x10, 0x11, 0x12, 0x13, 0x14, 0x20, 0x21, 0x30, 0x31, 0x32, 0x33, 0x34,
      0x35, 0x36, 0x37, 0x38, 0x39, 0x3A, 0x40, 0x41, 0x42],
      (at0 op (2 ^ 56 - 1)).issueDue 0 op (bits56 (2 ^ 56 - 1)) = true ∧ (coreAt op (2 ^ 56 - 1)).region.base ≤ (coreAt op (2 ^ 56 - 1)).pc ∧
      (coreAt op (2 ^ 56 - 1)).pc < (coreAt op (2 ^ 56 - 1)).region.base + (coreAt op (2 ^ 56 - 1)).region.count ∧
      (coreAt op (2 ^ 56 - 1)).word.toNat / 2 ^ 56 = op ∧ reservedOk op (bits56 (2 ^ 56 - 1)) = false := by decide +kernel

theorem witness_WritesToRegisterZeroAreDiscarded : readyAt 0x03 5 ∧ fieldOf (bits56 5) 55 51 = 0 := by
  refine ⟨by simp only [readyAt, ready_iff]; decide +kernel, by decide +kernel⟩

/-- Core 0 at an instruction, X1 holding this. -/
def x1At (v : Word) (op w : Nat) : State := withCore { coreAt op w with x := [(1, v)] }

/-- Whether core 0 is ready and the address in X1 lies where it is said to. -/
def trapsAt (op w v : Nat) : Bool := isReady (x1At (BitVec.ofNat 64 v) op w) op (bits56 w)

theorem fails_of {a : State × Bool} (h : a.2 = true) : ∃ u, a = (u, true) := ⟨a.1, Prod.ext rfl h⟩

/-- Two flipped bits of a scratchpad word. -/
def damage : PhysErr := .damaged 0 2

/-- Each operand that the rules refuse, at the edge of its range: codes of no operation, bodies and branches that leave them, misaligned
addresses and addresses past the region's end, descriptions with a reserved bit, and rows past the tile's last. -/
theorem witness_InstructionsTrapWhereTheirRulesRefuseThem :
    (∀ x ∈ [(0x06, 10), (0x05, 13 * 2 ^ 37), (0x07, 7 * 2 ^ 43), (0x08, 0), (0x08, 8), (0x13, 3 * 2 ^ 54 + 2 ^ 52), (0x13, 0), (0x14, 0),
      (0x31, 12 * 2 ^ 30), (0x32, 12 * 2 ^ 30), (0x33, 4 * 2 ^ 30), (0x33, 0), (0x34, 5 * 2 ^ 30), (0x35, 2 * 2 ^ 30), (0x36, 2 ^ 30),
      (0x3A, 3 * 2 ^ 30), (0x30, 16 * 2 ^ 51), (0x30, 2 ^ 44 + 127 * 2 ^ 37)], isReady (at0 x.1 x.2) x.1 (bits56 x.2) = true) ∧
    (Fmt.ofCode 0 ∉ [some .f32, some .i32, some .bf16, some .f16]) ∧
    (∃ s : State, s = withCore { coreAt 0x07 (2 ^ 24 - 2) with pc := 2, prog := [(1, wordOf 0x08 1), (2, wordOf 0x07 (2 ^ 24 - 2))] } ∧
      isReady s 0x07 (bits56 (2 ^ 24 - 2)) = true ∧ innermost ((s.core 0).bodies (s.core 0).pc) = some (2, 2)) ∧
    (∀ x ∈ [(0x11, 2 ^ 46), (0x12, 2 ^ 46), (0x39, 2 ^ 46), (0x40, 2 ^ 51), (0x41, 2 ^ 51), (0x42, 2 ^ 51), (0x20, 2 ^ 46), (0x21, 2 ^ 46),
        (0x37, 2 ^ 41), (0x38, 2 ^ 41)],
      ∀ v ∈ [1, 0x600000], trapsAt x.1 x.2 v = true) ∧
    (at0 0x39 0).inRegion 0 0x600000 4 = false ∧ fillCountOk 1 = false ∧
    (∃ s : State, s = { at0 0x10 (2 ^ 51 + 1) with flights := [(0, some flight0)] } ∧ isReady s 0x10 (bits56 (2 ^ 51 + 1)) = true ∧
      s.flight (s.core 0).flight = some flight0 ∧ 8 * flight0.params.length < 1 + 8) ∧
    (∃ u, (at0 0x11 (2 ^ 51)).scrEcc 0 0 8 (wordEcc damage) = (u, true)) ∧
    (∃ u, (at0 0x20 0).scrEcc 0 0 32 (wordEcc damage) = (u, true)) ∧
    (tdescOf ((coreAt 0x20 0).scrRead 0 32)).ok.isSome = true ∧
    (tdescOf (({ coreAt 0x20 0 with scr := [(0, 14)] } : CoreSt).scrRead 0 32)).ok = none ∧
    (coreAt 0x21 0).stat = none ∧ tileLegal .i32 1 = true ∧ (coreAt 0x21 0).tileOpen .i32 0 = false ∧
    (coreAt 0x30 0).drainTile 0 false false = none := by
  refine ⟨by decide +kernel, by decide +kernel, ⟨_, rfl, by decide +kernel⟩, by decide +kernel, by decide +kernel, by decide +kernel,
    ⟨_, rfl, by decide +kernel⟩, fails_of (by decide +kernel), fails_of (by decide +kernel), by decide +kernel⟩

/-! ## The spec's worked examples -/

/-- The PASS of 06_stage_programs.md: xa = X4, xd = X5, tile 3, M = 24, OPEN = 1, acc = 0b00. -/
theorem test_pass_fields : let w : BitVec 56 := 0x21465E00000000
    fieldOf w 55 51 = 4 ∧ fieldOf w 50 46 = 5 ∧ fieldOf w 45 41 = 3 ∧ fieldOf w 40 34 = 23 ∧ fieldOf w 33 33 = 1 ∧ fieldOf w 32 31 = 0 ∧
    reservedOk 0x21 w = true := by decide +kernel

/-- Device address 0x0078_6001_4A40 of 09_stobagon_stacks.md: stack 6, die 11, channel 9, bank 2, row 0, frame 811,009. -/
theorem test_stack_address : placeOf 0x007860014A40 = .stack 6 0xC60014A40 ∧ dieOf 0xC60014A40 = 11 ∧
    stackRow 0xC60014A40 = (128 * 11 + 4 * 9 + 2, 0) ∧ frameOf 0xC60014A40 = 811009 := by decide +kernel

/-- Packed blocks of 03_number_formats.md: −6.0 and 1.0 at scale 2^−3; 1.0, −7.5, 0.125 and NaN. -/
theorem test_packed_blocks :
    toF32 ((Fmt.fp4.decode 0xF).mul (decodeScale 0x7C)) = 0xBF400000 ∧ toF32 ((Fmt.fp4.decode 0x2).mul (decodeScale 0x7C)) = 0x3E000000 ∧
    ([0x08, 0x3F, 0x01, 0x20].map fun c => toF32 ((Fmt.e2m3.decode c).mul (decodeScale 0x80))) = [0x40000000, 0xC1700000, 0x3E800000, 0x7FC00000] := by
  decide +kernel

/-- The FP4 block with cancellation of 04_arithmetic.md. -/
def fp4Block : Block :=
  { xy := ([(0x3, 0x7), (0xD, 0x5), (0x1, 0xA)] ++ List.replicate 29 (0x0, 0x2)).map fun (x : Nat × Nat) => (Fmt.fp4.decode x.1, Fmt.fp4.decode x.2),
    sa := 0x7E, sw := 0x81 }

theorem test_cancellation : (dotBlock .f32 0x3F800001 fp4Block).1 = 0x34000000 ∧ (dotBlock .bf16 0x3F80 fp4Block).1 = 0 := by decide +kernel

/-- A BF16 block: its pairs of codes, and 1.0 for the rest. -/
def bfBlock (l : List (Nat × Nat)) : Block :=
  { xy := (l ++ List.replicate 28 (0, 0x3F80)).map fun (x : Nat × Nat) => (Fmt.bf16.decode x.1, Fmt.bf16.decode x.2), sa := 127, sw := 127 }

/-- Cases A to D of 04_arithmetic.md. -/
theorem test_block_classes :
    ([bfBlock [(0x7F00, 0x4100), (0xFFC1, 0x3F80), (0x3F80, 0x4040), (0xBF00, 0x4000)],
      bfBlock [(0x7F00, 0x4100), (0, 0x3F80), (0x3F80, 0x4040), (0xBF00, 0x4000)],
      bfBlock [(0, 0x4100), (0, 0x3F80), (0x3F80, 0x4040), (0xBF00, 0x4000)],
      bfBlock [(0x7F00, 0x4100), (0, 0x3F80), (0x7F00, 0xC100), (0xBF00, 0x4000)]].map fun b => (dotBlock .f32 0x41200000 b).1) =
      [0x7FC00000, 0x7F800000, 0x41400000, 0x7FC00000] := by decide +kernel

/-- Requantising to INT8 at scale 0.25 and zero point −3, and to an FP4 block, of 04_arithmetic.md. -/
theorem test_requantise_int8 :
    ((requant .int8 true (fun _ => .rne) (fun _ => -3) ([0x42160000, 0xC1600000, 0x42280000, 0x447A0000, 0x7FC00000].map fun v =>
      (ofF32 v).mul (ofF32 0x3E800000))).elems.map Conv.code) = [0x06, 0xF9, 0x07, 0x7F, 0xFD] ∧
    ((requant .int8 true (fun i => .sr (if i = 0 then 0x5A3C01 else 0xC00000)) (fun _ => -3) ([0x42160000, 0xC1600000].map fun v =>
      (ofF32 v).mul (ofF32 0x3E800000))).elems.map Conv.code) = [0x06, 0xF9] := by decide +kernel

theorem test_requantise_fp4 : let r := requant .fp4 true (fun _ => .rne) (fun _ => 0) ([0x41A00000, 0xBFA00000, 0x3E400000].map ofF32)
    r.scales = [0x81] ∧ packCodes 4 (r.elems.map Conv.code) = [0x96, 0x00] := by decide +kernel

/-- The sampled token of 10_streams_attention_kv.md. -/
theorem test_sampled_token :
    sampleToken [(0x41200000, 5117), (0x41100000, 31044), (0x41000000, 208), (0x40C00000, 77)] 0x3F800000 0x3F666666 4 0x9C0000 =
      some { token := 31044, rank := 1, prob := 0x3E924925 } := by decide +kernel

/-- The page-table entry of 10_streams_attention_kv.md: layer 37, group 1, block 140 of a geometry of 8 heads of 128 FP8 elements. -/
theorem test_page_entry : let g : KvGeom := { fmt := .e4m3, d := 128, hkv := 8, layers := 96, gq := 8 }
    g.headsPerPage = 4 ∧ g.groups = 2 ∧ 4 * g.entry 140 37 1 = 107820 := by decide +kernel

/-- The CTX_CMD of 16_host_interface.md creates context 0x31 of job 7 with weight 1 and a seed of its own. -/
theorem test_ctx_create : let v : Word := 0x0000000700310105
    bits v.toNat 1 0 = 1 ∧ bits v.toNat 31 16 = 0x31 ∧ bits v.toNat 63 32 = 7 ∧ bits v.toNat 15 8 = 1 ∧ bit v.toNat 2 = true := by decide +kernel

/-! ## Ill-formed commands are refused -/

/-- One ill-formed command for each check of `Instr.wf`. -/
def illFormed : List Instr :=
  [.tickGenEnable 0 {}, .tickGenDisable 1, .stopRequestInternal .firmware true (.context 0 1), .hardStopComplete (.context 0 1) 0,
   .remapProposal (.scratch 0 128 0), .remapProposal (.scratch 0 0 384), .remapProposal (.stack 0 2048 0), .remapProposal (.stack 0 0 36864),
   .stackLineRead 0 0x1200000000 ⟨0, 0, 0⟩ .ok, .stackLineWrite 0 0 [] ⟨0, 0, 0⟩ .ok, .stackLineWrite 0 63 [0, 0] ⟨0, 0, 0⟩ .ok,
   .stackLineWrite 0 0x1200000000 [0] ⟨0, 0, 0⟩ .ok, .scrub 0 0x1200000000 .ok, .fcFill 0 1 false, .fcCopy 0 0 false, .move 0 0 false,
   .fcGather 0 0 false, .verifyZero 0 0 false, .hallRingStart 0 .rebuild 0 1048577, .submitNop 0 1 {}, .launch 0 0 {}, .loadGraph 0 0 {},
   .unloadGraph 0 0 {}, .patch 0 0 {}, .submitCopy 0 0 {}, .alloc 0 0 {} [], .mapHost 0 0 {}, .free 0 0 {}, .fenceCreate 0 0 {},
   .streamOpen 0 0 {}, .streamCancel 0 0 {}, .engineFault 226, .engineResetComplete 226, .engineResetTimeout 226, .write 0 0 ⟨[], .ok⟩, .write 0 1 ⟨[0], .ok⟩,
   .writeAck 0 0, .heartbeat 0 0, .heartbeatAck 0 0, .mirrorData 0 0 [], .mirrorData 0 7 [0], .mirrorSeal 0 0 0 [], .mirrorAck 0 0, .mirDisable 1,
   .tamperResponse 0 true, .guardedWrite ⟨0, false⟩ 0x4000000 0, .guardedWrite ⟨0, false⟩ 4 0, .pldmFirmwareUpdate 0 0 [] [], .pldmFirmwareUpdate 4 0 [] [],
   .pcieLinkTrained false 3 1, .pcieLinkTrained false 1 0, .pcieLinkTrained false 1 7, .registerWrite ⟨0, false⟩ 0x4000000 8 0, .registerWrite ⟨0, false⟩ 0 0 0,
   .registerWrite ⟨0, false⟩ 4 9 0, .halfRegisterRead ⟨0, false⟩ 0x4000000, .halfRegisterRead ⟨0, false⟩ 2, .ctxCreate 0 2, .ctxDestroy 0 1, .feDisable 1, .railFault 0,
   .railFault 11, .apertureAccess 0x1000000 false 0, .apertureAccess 4 false 0, .pcieReadCompletion 0 ⟨[], .ok⟩,
   .barrierArrive 0 0, .barrierRelease (0, 3), .portTrainingComplete 0 ⟨[], false, false, 0, 0, [], 0, false, {}⟩, .flit 0 0 ⟨[], 0⟩]

theorem test_ill_formed : (illFormed.all fun i => !i.wf) = true := by decide +kernel

/-- No row of the table gives bits, so no word spells a command (log entry 9). -/
theorem test_no_word_is_a_command : decodeTableWord 8 0 = none := rfl


/-- A queue with a command at its front, and one with none. -/
theorem witness_StepRunsTheFrontCommand :
    ({ base with pending := [.claimWatchdog] } : State).pending = .claimWatchdog :: [] ∧ base.pending = [] := ⟨rfl, rfl⟩
end Sys2Proof.Tests
end

section
/-! SUPPORT. The scratchpad slots of the device address space (R29, R30): the owner of an address in their range, and the statement about
scratchpad slots. -/

namespace Sys2Proof.Machine

/-- The 192 slots of 8 MiB lie above stack memory, and the quotient and the remainder of the offset decide what is named (R29, R30). -/
theorem placeOf_scratchRange {x : Nat} (hx : x < 0x60000000) : placeOf (0x200000000000 + x) =
    if x % 0x800000 < 0x600000 then .scratch (x / 0x800000) (x % 0x800000) else .unmapped := by
  have above : ¬ 0x200000000000 + x < stackTop := by unfold stackTop; omega
  have inRange : 0x200000000000 ≤ 0x200000000000 + x ∧ 0x200000000000 + x < 0x200060000000 := by omega
  simp only [placeOf, if_neg above, if_pos inRange, Nat.add_sub_cancel_left]

/-- An offset of a core's slot names that offset of its scratchpad or nothing (R30). -/
theorem placeOf_scrAddr (c : CoreId) {o : Nat} (ho : o < 0x800000) :
    placeOf (scrAddr c o) = if o < 0x600000 then .scratch c o else .unmapped := by
  have slot : (c * 0x800000 + o) / 0x800000 = c := by omega
  have offset : (c * 0x800000 + o) % 0x800000 = o := by omega
  rw [scrAddr, Nat.add_assoc, placeOf_scratchRange (by omega), slot, offset]

/-- Settles O52: the slot's owner is the core and its offset the scratchpad's, up to 6 MiB. -/
theorem scratchpadSlotsAddressTheScratchpads : Obligations.ScratchpadSlotsAddressTheScratchpads := by
  intro c o ho
  rw [placeOf_scrAddr c ho]
  exact ⟨fun below => if_pos below, fun beyond => if_neg (Nat.not_lt.mpr beyond)⟩

end Sys2Proof.Machine
end

section
/-! SUPPORT. The number formats (R79, R92): the integers that the codes of an integer format stand for, the values of the block scale codes, and
the statements about both. -/

namespace Sys2Proof.Machine

/-! ## Integer formats (R92) -/

theorem Fmt.isInt_iff {f : Fmt} : f.isInt = true ↔ f = .int8 ∨ f = .int4 ∨ f = .uint8 ∨ f = .uint4 := by
  cases f <;> decide

/-- A code of an integer format is a number, never a NaN or an infinity. -/
theorem Fmt.decode_of_isInt {f : Fmt} (hf : f.isInt = true) (c : Nat) : f.decode c = .ofInt (f.decodeInt c) := by
  obtain rfl | rfl | rfl | rfl := Fmt.isInt_iff.mp hf <;> rfl

/-- The range of an integer format has a number for each of its codes. -/
theorem Fmt.intRange_size {f : Fmt} (hf : f.isInt = true) : f.intRange.2 - f.intRange.1 + 1 = 2 ^ f.width := by
  obtain rfl | rfl | rfl | rfl := Fmt.isInt_iff.mp hf <;> rfl

theorem Fmt.decodeInt_mem_intRange {f : Fmt} (hf : f.isInt = true) (c : Nat) :
    f.intRange.1 ≤ f.decodeInt c ∧ f.decodeInt c ≤ f.intRange.2 := by
  obtain rfl | rfl | rfl | rfl := Fmt.isInt_iff.mp hf <;> simp only [Fmt.intRange, Fmt.decodeInt] <;> omega

/-- The low bits of the number are the code (two's complement, R92). -/
theorem Fmt.decodeInt_emod {f : Fmt} (hf : f.isInt = true) (c : Nat) : f.decodeInt c % 2 ^ f.width = c % 2 ^ f.width := by
  obtain rfl | rfl | rfl | rfl := Fmt.isInt_iff.mp hf <;> simp only [Fmt.width, Fmt.decodeInt] <;> omega

/-- The low bits of a number of the range are its code: it and the number of that code lie in one range of `2 ^ f.width` numbers and agree
modulo its size. -/
theorem Fmt.decodeInt_lowBits {f : Fmt} (hf : f.isInt = true) {z : Int} (hlo : f.intRange.1 ≤ z) (hhi : z ≤ f.intRange.2) :
    f.decodeInt (z % 2 ^ f.width).toNat = z := by
  have size := Fmt.intRange_size hf
  obtain ⟨hlo', hhi'⟩ := Fmt.decodeInt_mem_intRange hf (z % 2 ^ f.width).toNat
  have low : f.decodeInt (z % 2 ^ f.width).toNat ≡ z [ZMOD 2 ^ f.width] := by
    rw [Int.ModEq, Fmt.decodeInt_emod hf, Int.toNat_of_nonneg (Int.emod_nonneg z (by positivity)), Int.emod_emod]
  have near : |z - f.decodeInt (z % 2 ^ f.width).toNat| < 2 ^ f.width := by rw [abs_lt]; omega
  exact (Int.sub_eq_zero.mp (Int.eq_zero_of_abs_lt_dvd low.dvd near)).symm

/-- The rows of R92 are the integer formats with the model's own widths and ranges. -/
theorem isInt_of_mem_integerFormats {f : Fmt} {n : Nat} {lo hi : Int}
    (h : (f, n, lo, hi) ∈ [(Fmt.int8, 256, -128, 127), (.int4, 16, -8, 7), (.uint8, 256, 0, 255), (.uint4, 16, 0, 15)]) :
    f.isInt = true ∧ n = 2 ^ f.width ∧ (lo, hi) = f.intRange := by
  simp only [List.mem_cons, Prod.mk.injEq, List.not_mem_nil, or_false] at h
  obtain ⟨rfl, rfl, rfl, rfl⟩ | ⟨rfl, rfl, rfl, rfl⟩ | ⟨rfl, rfl, rfl, rfl⟩ | ⟨rfl, rfl, rfl, rfl⟩ := h <;> decide

/-- Settles O54: the numbers of the codes lie in the range and have the codes as their low bits, and a number's low bits are its code. -/
theorem integerFormatsHoldNumbers : Obligations.IntegerFormatsHoldNumbers := by
  intro f n lo hi row
  obtain ⟨hf, rfl, range⟩ := isInt_of_mem_integerFormats row
  obtain ⟨rfl, rfl⟩ := Prod.mk.inj range
  refine ⟨fun c hc => ?_, fun z hlo hhi => ⟨(z % 2 ^ f.width).toNat, ?_, ?_⟩⟩
  · obtain ⟨hlo, hhi⟩ := Fmt.decodeInt_mem_intRange hf c
    refine ⟨f.decodeInt c, Fmt.decode_of_isInt hf c, hlo, hhi, ?_⟩
    have low := Fmt.decodeInt_emod hf c
    rw [Int.emod_eq_of_lt (Int.natCast_nonneg c) (by exact_mod_cast hc)] at low
    exact_mod_cast low
  · have below := Int.emod_lt_of_pos z (show (0 : Int) < 2 ^ f.width by positivity)
    zify
    rwa [Int.toNat_of_nonneg (Int.emod_nonneg z (by positivity))]
  · rw [Fmt.decode_of_isInt hf, Fmt.decodeInt_lowBits hf hlo hhi]

/-! ## Block scale codes (R79) -/

theorem decodeScale_of_lt {e : Nat} (he : e < 255) : decodeScale e = .fin false 1 ((e : Int) - 127) := by
  have low : e % 256 = e := Nat.mod_eq_of_lt (by omega)
  rw [decodeScale, low, if_neg he.ne]

/-- Settles O55: a code below 0xFF is the exponent of a power of two, and 0xFF is the one NaN. -/
theorem scaleCodesArePowersOfTwo : Obligations.ScaleCodesArePowersOfTwo :=
  ⟨fun _ => decodeScale_of_lt, rfl⟩

end Sys2Proof.Machine
end

section
/-! SUPPORT. The sum reduction (R148): what an event and a performance count leave of the cores, the register that a vector instruction writes,
adjacent sums level by level, and the statement about sum reductions. -/

namespace Sys2Proof.Machine

/-! ## Events and performance counts change no core (R515, R520 to R526) -/

@[simp] theorem State.countFld_core (s : State) (off hi lo n x : Nat) : (s.countFld off hi lo n).core x = s.core x := by
  simp [State.countFld, State.setFld]

@[simp] theorem State.flag_core (s : State) (off i x : Nat) : (s.flag off i).core x = s.core x := by
  simp [State.flag, State.setFld]

@[simp] theorem State.noteLoss_core (s : State) (old new : LossCounts) (x : Nat) : (s.noteLoss old new).core x = s.core x := by
  unfold State.noteLoss
  dsimp only
  split <;> simp

@[simp] theorem State.setRing_core (s : State) (u : Nat) (r : UnitRing) (x : Nat) : (s.setRing u r).core x = s.core x := rfl

@[simp] theorem State.pushRec_core (s : State) (r : EventRec) (x : Nat) : (s.pushRec r).core x = s.core x := by
  simp [State.pushRec, State.logRec]

@[simp] theorem State.emit_core (s : State) (unit kind d0 d1 : Nat) (part : Option Nat) (ctx : Nat) (superseded : Bool) (x : Nat) :
    (s.emit unit kind d0 d1 part ctx superseded).core x = s.core x := by
  have stamp : s.stampTime.2.core x = s.core x := rfl
  unfold State.emit
  dsimp only
  split
  · simp [State.holdPerTick, stamp]
  · simp [stamp]

@[simp] theorem State.perfOne_core (s : State) (unit ev n k x : Nat) : (s.perfOne unit ev n k).core x = s.core x := by
  unfold State.perfOne
  dsimp only
  split
  · split
    · rw [State.emit_core]; rfl
    · rfl
  · rfl

@[simp] theorem State.perf_core (s : State) (unit ev n x : Nat) : (s.perf unit ev n).core x = s.core x := by
  simp [State.perf]

/-! ## The register that a vector instruction writes (R146, R182) -/

@[simp] theorem CoreSt.setV_vr (k : CoreSt) (n : Nat) (v : List Lane) : (k.setV n v).vr n = v := SMap.get_set_same _ _ _ _

@[simp] theorem State.vecDone_vr (s : State) (c n : Nat) : ((s.vecDone c).core c).vr n = (s.core c).vr n := by
  simp [State.vecDone, CoreSt.vr]

@[simp] theorem CoreSt.issued_vr (k : CoreSt) (pc next n : Nat) (loops : List LoopLvl) : (k.issued pc next loops).vr n = k.vr n := rfl

/-- What a vector instruction puts out is in its destination register. -/
@[simp] theorem State.vecOut_vr (s : State) (c n : Nat) (v : List Lane) : ((s.vecOut c n v).core c).vr n = v := by
  simp [State.vecOut]

/-! ## Adjacent sums (R148) -/

theorem length_pairSums (l : List Lane) : (pairSums l).length = (l.length + 1) / 2 := by
  induction l using pairSums.induct with
  | case1 a b t ih => simp only [pairSums, List.length_cons, ih]; omega
  | case2 l short =>
    match l with
    | [] | [_] => simp [pairSums]
    | a :: b :: t => exact (short a b t rfl).elim

/-- Lane i of a level is the sum of lanes 2i and 2i + 1 of the level before. -/
theorem pairSums_getD {l : List Lane} {i : Nat} (hi : 2 * i + 1 < l.length) :
    (pairSums l).getD i 0 = toF32 ((ofF32 (l.getD (2 * i) 0)).add (ofF32 (l.getD (2 * i + 1) 0))) := by
  induction l using pairSums.induct generalizing i with
  | case1 a b t ih =>
    cases i with
    | zero => rfl
    | succ i => exact ih (by simp only [List.length_cons] at hi; omega)
  | case2 l short =>
    match l with
    | [] | [_] => simp at hi
    | a :: b :: t => exact (short a b t rfl).elim

/-- k levels over 2 to the power k lanes leave the one value that any table `v` of the levels has at level k: the table's later levels are those
of the list's adjacent sums. -/
theorem pairSumsN_headD {k : Nat} {l : List Lane} {v : Nat → Nat → Lane} (size : l.length = 2 ^ k)
    (first : ∀ i < l.length, v 0 i = l.getD i 0)
    (next : ∀ j i, v (j + 1) i = toF32 ((ofF32 (v j (2 * i))).add (ofF32 (v j (2 * i + 1))))) :
    (pairSumsN k l).headD 0 = v k 0 := by
  induction k generalizing l v with
  | zero =>
    obtain ⟨a, rfl⟩ := List.length_eq_one_iff.mp size
    exact (first 0 Nat.one_pos).symm
  | succ k ih =>
    have half : (pairSums l).length = 2 ^ k := by rw [length_pairSums]; omega
    refine ih (v := fun j => v (j + 1)) half (fun i hi => ?_) fun j => next (j + 1)
    have inside : 2 * i + 1 < l.length := by omega
    rw [next, pairSums_getD inside, first _ inside, first _ (by omega)]

/-! ## The instruction -/

/-- VRED in its sum form puts the sum of its source before 127 lanes of +0 (R148, R182). -/
theorem exec_vred_sum {s : State} {c : CoreId} {w : BitVec 56} (ready : s.Ready c 0x35 w) (unused : unusedZero w false false false = true)
    (sum : fieldOf w 35 30 = 0) : exec (.vred c w) s =
      .next (s.vecOut c (fieldOf w 55 51) (laneSum ((s.core c).vr (fieldOf w 50 46)) :: List.replicate 127 0)) := by
  change execVred c w s = _
  rw [execVred, ready.issue]
  simp [unused, sum, Res.putV, State.vecOut]

/-- Settles O56: the destination holds the value that seven levels of adjacent sums leave of the 128 lanes, and +0 after it. -/
theorem sumReductionsAddInSevenLevels : Obligations.SumReductionsAddInSevenLevels := by
  intro s c w v ready unused sum size first next
  refine ⟨_, exec_vred_sum ready unused sum, ?_⟩
  rw [State.vecOut_vr]
  refine ⟨rfl, pairSumsN_headD size (fun i _ => first i) next, fun j one below => ?_⟩
  obtain ⟨j, rfl⟩ := Nat.exists_eq_add_of_le' one
  exact List.getD_replicate 0 (by omega)

end Sys2Proof.Machine
end

section
/-! SUPPORT. The whole machine: the step, the invariant of every run, that every command is answered, what leaves the memories, and the reset
state. -/

namespace Sys2Proof.Machine

/-! ## The step and the reset state (R15, R50, R505) -/

theorem step_of_pending {s : State} {c : Instr} {rest : List Instr} (queue : s.pending = c :: rest) :
    step s = exec c { s with pending := rest } := by
  rw [step, queue]

theorem step_of_idle {s : State} (queue : s.pending = []) : step s = .next s := by
  rw [step, queue]

/-- Settles O46: the two branches of the step. -/
theorem stepRunsTheFrontCommand : Obligations.StepRunsTheFrontCommand :=
  fun _ => ⟨fun _ _ => step_of_pending, step_of_idle⟩

/-- Settles O49: the reset state lists nothing, and each of its registers reads as its reset value. -/
theorem resetMeetsTheInvariant : Obligations.ResetMeetsTheInvariant := by
  refine ⟨⟨rfl, rfl⟩, rfl, rfl, rfl, ?_, rfl, ?_, ?_, ?_, fun _ => rfl, fun _ => rfl, fun _ => rfl, rfl⟩ <;> decide +kernel

/-! ## The invariant (log entry 100) -/

theorem State.inv_lasting : Lasting State.Inv where
  stable _ _ _ mem host inv := by
    rw [State.Inv, mem, host]
    exact inv
  mem _ _ keeps inv := ⟨keeps inv.1, inv.2⟩
  host _ _ keeps inv := ⟨inv.1, keeps inv.2⟩

/-- What outlives every command holds of the state that a command answers with. -/
theorem exec_next_keeps {P : State → Prop} (hP : Lasting P) {i : Instr} {s t : State} (run : exec i s = .next t) (h : P s) : P t := by
  have kept := exec_keeps hP i h
  rwa [run] at kept

/-- Settles O50: the front command keeps both memories' canonical form, and the idle step keeps the state. -/
theorem stepsKeepTheInvariant : Obligations.StepsKeepTheInvariant := by
  intro s t inv run
  cases queue : s.pending with
  | nil =>
    rw [step_of_idle queue] at run
    cases run
    exact inv
  | cons c rest =>
    rw [step_of_pending queue] at run
    exact exec_next_keeps State.inv_lasting run inv

/-! ## Every command is answered (log entry 68) -/

/-- A command is answered: its outcome is a next state. -/
inductive Answered : Host.Outcome State Fault Refusal → Prop where
  | next (t : State) : Answered (.next t)

theorem Answered.exists_next {o : Host.Outcome State Fault Refusal} (answer : Answered o) : ∃ t, o = .next t := by
  cases answer with
  | next t => exact ⟨t, rfl⟩

theorem State.issue_answered (s : State) (c op : Nat) (w : BitVec 56) (body : State → CoreSt → Res) : Answered (s.issue c op w body) := by
  unfold State.issue
  dsimp only
  (repeat' split) <;> exact .next _

/-- Each meaning is a next state outright, an instruction's issue, or branches that all end in next states; the groups are the machine's files. -/
theorem exec_answered (i : Instr) (s : State) : Answered (exec i s) := by
  cases i with
  | softStopModule | softStopPartition | softStopContext | hardStopModule | hardStopPartition | resumeModule | resumePartition
  | resumeContext | dmaCopy | movingLayout | stationaryLayout | dmaGather | stackLineRead | stackLineWrite | submitNop | launch
  | loadGraph | unloadGraph | patch | submitCopy | alloc | mapHost | free | fenceCreate | streamOpen | streamCancel
  | contextDrainComplete | contextClearComplete | landing4 | firmwareWatchdog | knownAnswerTest | claimWatchdog | pldmRequest
  | functionLevelResetVf | functionLevelResetPf | d3hotEntry | registerWrite | wakePeakRead | thermalFault | eventRingRoom
  | apertureAccess | extest | clamp | highz | extestPulse | extestTrain | alwaysOnDomainReset | entropyHealthTest =>
    exact .next _
  | nop | endFlight | wtick | movi | movhi | salu | movs | br | loop | waitc | clrc | qsync | ldp | lds | sts | fence | signal =>
    dsimp only [exec, execNop, execEndFlight, execWtick, execMovi, execMovhi, execSalu, execMovs, execBr, execLoop, execWaitc, execClrc,
      execQsync, execLdp, execLds, execSts, execFence, execSignal]
    exact State.issue_answered ..
  | sload | pass | drain =>
    dsimp only [exec, execSload, execPass, execDrain]
    exact State.issue_answered ..
  | valu | vint | vcvt | vfunc | vred | vmerge | vload | vrqst | vst | vmovx =>
    dsimp only [exec, execValu, execVint, execVcvt, execVfunc, execVred, execVmerge, execVload, execVrqst, execVst, execVmovx]
    exact State.issue_answered ..
  | dma | fill | copy =>
    dsimp only [exec, execDma, execFill, execCopy]
    exact State.issue_answered ..
  | nominalClose | tickDrained | tickOpen | tickGenEnable | tickSyncInEdge | barrierArrive | barrierRelease | barrierCompensatedStart
  | barrierTimeout | backgroundOpComplete =>
    dsimp only [exec, execNominalClose, execTickDrained, execTickOpen, execTickGenEnable, execTickSyncInEdge, execBarrierArrive,
      execBarrierRelease, execBarrierCompensatedStart, execBarrierTimeout, execBackgroundOpComplete]
    (repeat' split) <;> exact .next _
  | limitPoint | progressSample | contextFence | engineFault | engineResetComplete | engineResetTimeout | landing3Request
  | landingBoundExpiry | galleryClearComplete =>
    dsimp only [exec, execLimitPoint, execProgressSample, execContextFence, execEngineFault, execEngineResetComplete,
      execEngineResetTimeout, execLanding3Request, execLandingBoundExpiry, execGalleryClearComplete]
    (repeat' split) <;> exact .next _
  | tickGenDisable | partitionCreate | partitionDestroy | ctxCreate | ctxDestroy | engineEnClear | feDisable =>
    dsimp only [exec, execTickGenDisable, execPartitionCreate, execPartitionDestroy, execCtxCreate, execCtxDestroy, execEngineEnClear,
      execFeDisable]
    (repeat' split) <;> exact .next _
  | stopRequestInternal | hardStopComplete =>
    dsimp only [exec, execStopRequestInternal, execHardStopComplete]
    (repeat' split) <;> exact .next _
  | flightEntry | wtickResume | flightEnd =>
    dsimp only [exec, execFlightEntry, execWtickResume, execFlightEnd]
    (repeat' split) <;> exact .next _
  | fenceReleaseDone | signalDelivery =>
    dsimp only [exec, execFenceReleaseDone, execSignalDelivery]
    (repeat' split) <;> exact .next _
  | remote | dmaConfirmation | pcieReadCompletion =>
    dsimp only [exec, execRemote, execDmaConfirmation, execPcieReadCompletion]
    (repeat' split) <;> exact .next _
  | attention | candidates | attentionSlice | attentionRowComplete | candidateListMerge =>
    dsimp only [exec, execAttention, execCandidates, execAttentionSlice, execAttentionRowComplete, execCandidateListMerge]
    (repeat' split) <;> exact .next _
  | remapProposal | scrub | fcFill | fcCopy | move | fcGather | verifyZero | fcCommandCompletion | stkMoveStalled | moveAbandon
  | dieIdleEnter | dieSelfRefreshReached | dieWakeComplete | dieRestoreComplete =>
    dsimp only [exec, execRemapProposal, execScrub, execFcFill, execFcCopy, execMove, execFcGather, execVerifyZero,
      execFcCommandCompletion, execStkMoveStalled, execMoveAbandon, execDieIdleEnter, execDieSelfRefreshReached, execDieWakeComplete,
      execDieRestoreComplete]
    (repeat' split) <;> exact .next _
  | visit | ringCheck | hallRingStart =>
    dsimp only [exec, execVisit, execRingCheck, execHallRingStart]
    (repeat' split) <;> exact .next _
  | doorbellPoll | descriptorFetch | loadGraphComplete | reloadComplete =>
    dsimp only [exec, execDoorbellPoll, execDescriptorFetch, execLoadGraphComplete, execReloadComplete]
    (repeat' split) <;> exact .next _
  | firmwareRemeasure | tamperResponse | zeroise | attestationRequest | unlockNonceRequest | unlockRequest | unlockExpiry | spdmSession
  | ideKm | kSetGo | lockInterface | startInterface | stopInterface | pldmFirmwareUpdate | firmwareActivate | jormirSelfCheck | tdiError =>
    dsimp only [exec, execFirmwareRemeasure, execTamperResponse, execZeroise, execAttestationRequest, execUnlockNonceRequest,
      execUnlockRequest, execUnlockExpiry, execSpdmSession, execIdeKm, execKSetGo, execLockInterface, execStartInterface,
      execStopInterface, execPldmFirmwareUpdate, execFirmwareActivate, execJormirSelfCheck, execTdiError]
    (repeat' split) <;> exact .next _
  | onlPortEnable | portTrainingComplete | onlRetrain | fecLockLoss | onlPortDisable | linkNak | replayTimeout | segmentTag
  | segmentIdleClose | write | writeAck | messageResend | flit =>
    dsimp only [exec, execOnlPortEnable, execPortTrainingComplete, execOnlRetrain, execFecLockLoss, execOnlPortDisable, execLinkNak,
      execReplayTimeout, execSegmentTag, execSegmentIdleClose, execWrite, execWriteAck, execMessageResend, execFlit]
    (repeat' split) <;> exact .next _
  | heartbeat | heartbeatTimer | heartbeatAck | mirrorData | mirrorSeal | mirrorAck | shadowSyncComplete | leaseExpiry | graceExpiry
  | pairClaimInChange | mirPromoted | mirDisable =>
    dsimp only [exec, execHeartbeat, execHeartbeatTimer, execHeartbeatAck, execMirrorData, execMirrorSeal, execMirrorAck,
      execShadowSyncComplete, execLeaseExpiry, execGraceExpiry, execPairClaimInChange, execMirPromoted, execMirDisable]
    (repeat' split) <;> exact .next _
  | guardedWrite | halfRegisterRead | vfEnable =>
    dsimp only [exec, execGuardedWrite, execHalfRegisterRead, execVfEnable]
    (repeat' split) <;> exact .next _
  | resultDigestComplete =>
    dsimp only [exec, execResultDigestComplete]
    (repeat' split) <;> exact .next _
  | pcieLinkTrained | undervoltage | overvoltage | railFault | inRush | faultRestart | faultLatchRelease | powerUp | boot | powerDown
  | pwrCycleN | moduleResetNAssert | moduleResetNRelease | pciePerstN | idleHoldEntry | watchReq | watchEntryComplete | watchSample
  | wake | watchExitComplete | alwaysOnDomainStart =>
    dsimp only [exec, execPcieLinkTrained, execUndervoltage, execOvervoltage, execRailFault, execInRush, execFaultRestart,
      execFaultLatchRelease, execPowerUp, execBoot, execPowerDown, execPwrCycleN, execModuleResetNAssert, execModuleResetNRelease,
      execPciePerstN, execIdleHoldEntry, execWatchReq, execWatchEntryComplete, execWatchSample, execWake, execWatchExitComplete,
      execAlwaysOnDomainStart]
    (repeat' split) <;> exact .next _
  | sample | reset | sampleReset | ringSelect | eventRecordAccept | traceRecord | errorInject | samplePreload | idcode | bypass
  | tapReset =>
    dsimp only [exec, execSample, execReset, execSampleReset, execRingSelect, execEventRecordAccept, execTraceRecord, execErrorInject,
      execSamplePreload, execIdcode, execBypass, execTapReset]
    (repeat' split) <;> exact .next _

theorem pending_lasting (l : List Instr) : Lasting fun t : State => t.pending = l where
  stable _ _ pending _ _ h := pending.trans h
  mem _ _ _ h := h
  host _ _ _ h := h

/-- Settles O47: each branch of each meaning is a next state, and no operation touches the queue. -/
theorem everyCommandIsAnswered : Obligations.EveryCommandIsAnswered := by
  intro i s
  obtain ⟨t, run⟩ := (exec_answered i s).exists_next
  exact ⟨t, run, exec_next_keeps (pending_lasting s.pending) run rfl⟩

end Sys2Proof.Machine
end

section
/-! SUPPORT. What leaves stack memory and host memory as they are, and what a write to a memory leaves. -/

namespace Sys2Proof.Machine

variable {P : State → Prop}

/-! ## Commands that do not store -/

theorem execLockInterface_keeps_stable (hP : Stable P) {p : PartId} {s : State} (h : P s) : OutP P (execLockInterface p s) := by
  unfold execLockInterface
  exact OutP.ite (fun _ => State.setPart_keeps hP h) (fun _ => h)

/-- A command that does not store looks at, and leaves, the queue and the two memories: each outlives it with every predicate of them. -/
theorem exec_keeps_of_not_mayStore (hP : Stable P) {i : Instr} {s : State} (leaves : mayStore i = false) (h : P s) : OutP P (exec i s) := by
  cases i with
  | nominalClose | tickDrained | limitPoint | progressSample | tickGenEnable | tickSyncInEdge | barrierCompensatedStart | barrierTimeout
  | resumeModule | hardStopComplete | dmaCopy | movingLayout | stationaryLayout | dmaGather | stackLineRead | stackLineWrite
  | fcCommandCompletion | dieWakeComplete | dieRestoreComplete | attentionRowComplete | visit | engineFault | engineResetTimeout
  | landing3Request | landing4 | landingBoundExpiry | firmwareWatchdog | firmwareRemeasure | write | leaseExpiry | mirPromoted
  | guardedWrite | startInterface | stopInterface | resultDigestComplete | firmwareActivate | functionLevelResetVf | functionLevelResetPf
  | d3hotEntry | pcieLinkTrained | registerWrite | undervoltage | overvoltage | railFault | thermalFault | inRush | faultRestart
  | powerUp | boot | powerDown | pwrCycleN | moduleResetNAssert | pciePerstN | watchSample | watchExitComplete | eventRecordAccept
  | eventRingRoom | apertureAccess | flit | pcieReadCompletion | alwaysOnDomainStart | alwaysOnDomainReset | tdiError => cases leaves
  | tickOpen => exact execTickOpen_keeps hP h
  | tickGenDisable => exact execTickGenDisable_keeps hP h
  | barrierArrive => exact execBarrierArrive_keeps hP h
  | barrierRelease => exact execBarrierRelease_keeps hP h
  | softStopModule => exact execSoftStopModule_keeps hP h
  | softStopPartition => exact execSoftStopPartition_keeps hP h
  | softStopContext => exact execSoftStopContext_keeps hP h
  | hardStopModule => exact execHardStopModule_keeps hP h
  | hardStopPartition => exact execHardStopPartition_keeps hP h
  | resumePartition => exact execResumePartition_keeps hP h
  | resumeContext => exact execResumeContext_keeps hP h
  | stopRequestInternal => exact execStopRequestInternal_keeps hP h
  | backgroundOpComplete => exact execBackgroundOpComplete_keeps hP h
  | flightEntry => exact execFlightEntry_keeps hP h
  | wtickResume => exact execWtickResume_keeps hP h
  | flightEnd => exact execFlightEnd_keeps hP h
  | nop => exact execNop_keeps hP h
  | endFlight => exact execEndFlight_keeps hP h
  | wtick => exact execWtick_keeps hP h
  | movi => exact execMovi_keeps hP h
  | movhi => exact execMovhi_keeps hP h
  | salu => exact execSalu_keeps hP h
  | movs => exact execMovs_keeps hP h
  | br => exact execBr_keeps hP h
  | loop => exact execLoop_keeps hP h
  | waitc => exact execWaitc_keeps hP h
  | clrc => exact execClrc_keeps hP h
  | qsync => exact execQsync_keeps hP h
  | ldp => exact execLdp_keeps hP h
  | lds => exact execLds_keeps hP h
  | sts => exact execSts_keeps hP h
  | fence => exact execFence_keeps hP h
  | fenceReleaseDone => exact execFenceReleaseDone_keeps hP h
  | signal => exact execSignal_keeps hP h
  | signalDelivery => exact execSignalDelivery_keeps hP h
  | sload => exact execSload_keeps hP h
  | pass => exact execPass_keeps hP h
  | drain => exact execDrain_keeps hP h
  | valu => exact execValu_keeps hP h
  | vint => exact execVint_keeps hP h
  | vcvt => exact execVcvt_keeps hP h
  | vfunc => exact execVfunc_keeps hP h
  | vred => exact execVred_keeps hP h
  | vmerge => exact execVmerge_keeps hP h
  | vload => exact execVload_keeps hP h
  | vrqst => exact execVrqst_keeps hP h
  | vst => exact execVst_keeps hP h
  | vmovx => exact execVmovx_keeps hP h
  | dma => exact execDma_keeps hP h
  | fill => exact execFill_keeps hP h
  | copy => exact execCopy_keeps hP h
  | remote => exact execRemote_keeps hP h
  | attention => exact execAttention_keeps hP h
  | candidates => exact execCandidates_keeps hP h
  | dmaConfirmation => exact execDmaConfirmation_keeps hP h
  | remapProposal => exact execRemapProposal_keeps hP h
  | scrub => exact execScrub_keeps hP h
  | fcFill => exact execFcFill_keeps hP h
  | fcCopy => exact execFcCopy_keeps hP h
  | move => exact execMove_keeps hP h
  | fcGather => exact execFcGather_keeps hP h
  | verifyZero => exact execVerifyZero_keeps hP h
  | stkMoveStalled => exact execStkMoveStalled_keeps hP h
  | moveAbandon => exact execMoveAbandon_keeps hP h
  | dieIdleEnter => exact execDieIdleEnter_keeps hP h
  | dieSelfRefreshReached => exact execDieSelfRefreshReached_keeps hP h
  | attentionSlice => exact execAttentionSlice_keeps hP h
  | candidateListMerge => exact execCandidateListMerge_keeps hP h
  | ringCheck => exact execRingCheck_keeps hP h
  | hallRingStart => exact execHallRingStart_keeps hP h
  | doorbellPoll => exact execDoorbellPoll_keeps hP h
  | descriptorFetch => exact execDescriptorFetch_keeps hP h
  | submitNop => exact execSubmitNop_keeps hP h
  | launch => exact execLaunch_keeps hP h
  | loadGraph => exact execLoadGraph_keeps hP h
  | loadGraphComplete => exact execLoadGraphComplete_keeps hP h
  | unloadGraph => exact execUnloadGraph_keeps hP h
  | patch => exact execPatch_keeps hP h
  | submitCopy => exact execSubmitCopy_keeps hP h
  | alloc => exact execAlloc_keeps hP h
  | mapHost => exact execMapHost_keeps hP h
  | free => exact execFree_keeps hP h
  | fenceCreate => exact execFenceCreate_keeps hP h
  | streamOpen => exact execStreamOpen_keeps hP h
  | streamCancel => exact execStreamCancel_keeps hP h
  | reloadComplete => exact execReloadComplete_keeps hP h
  | contextFence => exact execContextFence_keeps hP h
  | contextDrainComplete => exact execContextDrainComplete_keeps hP h
  | contextClearComplete => exact execContextClearComplete_keeps hP h
  | engineResetComplete => exact execEngineResetComplete_keeps hP h
  | galleryClearComplete => exact execGalleryClearComplete_keeps hP h
  | knownAnswerTest => exact execKnownAnswerTest_keeps hP h
  | onlPortEnable => exact execOnlPortEnable_keeps hP h
  | portTrainingComplete => exact execPortTrainingComplete_keeps hP h
  | onlRetrain => exact execOnlRetrain_keeps hP h
  | fecLockLoss => exact execFecLockLoss_keeps hP h
  | onlPortDisable => exact execOnlPortDisable_keeps hP h
  | linkNak => exact execLinkNak_keeps hP h
  | replayTimeout => exact execReplayTimeout_keeps hP h
  | segmentTag => exact execSegmentTag_keeps hP h
  | segmentIdleClose => exact execSegmentIdleClose_keeps hP h
  | writeAck => exact execWriteAck_keeps hP h
  | messageResend => exact execMessageResend_keeps hP h
  | heartbeat => exact execHeartbeat_keeps hP h
  | heartbeatTimer => exact execHeartbeatTimer_keeps hP h
  | heartbeatAck => exact execHeartbeatAck_keeps hP h
  | mirrorData => exact execMirrorData_keeps hP h
  | mirrorSeal => exact execMirrorSeal_keeps hP h
  | mirrorAck => exact execMirrorAck_keeps hP h
  | shadowSyncComplete => exact execShadowSyncComplete_keeps hP h
  | claimWatchdog => exact execClaimWatchdog_keeps hP h
  | graceExpiry => exact execGraceExpiry_keeps hP h
  | pairClaimInChange => exact execPairClaimInChange_keeps hP h
  | mirDisable => exact execMirDisable_keeps hP h
  | tamperResponse => exact execTamperResponse_keeps hP h
  | zeroise => exact execZeroise_keeps hP h
  | attestationRequest => exact execAttestationRequest_keeps hP h
  | unlockNonceRequest => exact execUnlockNonceRequest_keeps hP h
  | unlockRequest => exact execUnlockRequest_keeps hP h
  | unlockExpiry => exact execUnlockExpiry_keeps hP h
  | spdmSession => exact execSpdmSession_keeps hP h
  | ideKm => exact execIdeKm_keeps hP h
  | kSetGo => exact execKSetGo_keeps hP h
  | lockInterface => exact execLockInterface_keeps_stable hP h
  | pldmRequest n => exact execPldmRequest_keeps (_sensor := n) hP h
  | pldmFirmwareUpdate => exact execPldmFirmwareUpdate_keeps hP h
  | halfRegisterRead => exact execHalfRegisterRead_keeps hP h
  | wakePeakRead => exact execWakePeakRead_keeps hP h
  | partitionCreate => exact execPartitionCreate_keeps hP h
  | partitionDestroy => exact execPartitionDestroy_keeps hP h
  | ctxCreate => exact execCtxCreate_keeps hP h
  | ctxDestroy => exact execCtxDestroy_keeps hP h
  | engineEnClear => exact execEngineEnClear_keeps hP h
  | feDisable => exact execFeDisable_keeps hP h
  | faultLatchRelease => exact execFaultLatchRelease_keeps hP h
  | moduleResetNRelease => exact execModuleResetNRelease_keeps hP h
  | idleHoldEntry => exact execIdleHoldEntry_keeps hP h
  | watchReq => exact execWatchReq_keeps hP h
  | watchEntryComplete => exact execWatchEntryComplete_keeps hP h
  | wake => exact execWake_keeps hP h
  | sample => exact execSample_keeps hP h
  | reset => exact execReset_keeps hP h
  | sampleReset => exact execSampleReset_keeps hP h
  | ringSelect => exact execRingSelect_keeps hP h
  | traceRecord => exact execTraceRecord_keeps hP h
  | errorInject => exact execErrorInject_keeps hP h
  | extest => exact execExtest_keeps hP h
  | samplePreload => exact execSamplePreload_keeps hP h
  | idcode => exact execIdcode_keeps hP h
  | clamp => exact execClamp_keeps hP h
  | highz => exact execHighz_keeps hP h
  | extestPulse => exact execExtestPulse_keeps hP h
  | extestTrain => exact execExtestTrain_keeps hP h
  | bypass => exact execBypass_keeps hP h
  | tapReset => exact execTapReset_keeps hP h
  | entropyHealthTest => exact execEntropyHealthTest_keeps hP h
  | jormirSelfCheck => exact execJormirSelfCheck_keeps hP h
  | vfEnable => exact execVfEnable_keeps hP h


/-! ## Register writes other than TCK_CTRL's (R476) -/

/-- A write of a module-wide register other than TCK_CTRL starts no boundary (R50). -/
theorem State.writeFix_keeps_of_ne (hP : Stable P) {s : State} {off : Nat} {v m : Word} (other : off ≠ rTckCtrl) (h : P s) :
    P (s.writeFix off v m) := by
  unfold State.writeFix
  dsimp only
  rw [if_neg other]
  have bits : P (s.writeBits off v m) := State.writeBits_keeps hP h
  refine ite_keeps (fun _ => ite_keeps (fun _ => bits) fun _ => ite_keeps (fun _ => State.setFld_keeps hP bits)
    fun _ => State.feOff_keeps hP bits) fun _ => ?_
  refine ite_keeps (fun _ => State.engineCtrl_keeps hP h) fun _ => ?_
  refine ite_keeps (fun _ => State.mirCtrl_keeps hP h) fun _ => ?_
  refine ite_keeps (fun _ => ite_keeps (fun _ => State.zeroise_keeps hP h) fun _ => h) fun _ => ?_
  refine ite_keeps (fun _ => ?_) fun _ => ?_
  · have watch := ite_keeps (c := bit (v &&& m).toNat 2 = true) (fun _ => State.watchReq_keeps hP bits) fun _ => bits
    exact ite_keeps (fun _ => State.wake_keeps hP watch) fun _ => watch
  refine ite_keeps (fun _ => ite_keeps (fun _ => h) fun _ => State.dbgCmd_keeps hP h) fun _ => ?_
  refine ite_keeps (fun _ => State.ringSel_keeps hP h) fun _ => ?_
  refine ite_keeps (fun _ => State.tstCtrl_keeps hP h) fun _ => ?_
  exact ite_keeps (fun _ => State.tstInject_keeps hP h) fun _ => bits

theorem State.writeWord_keeps_of_ne (hP : Stable P) {s : State} {off : Nat} {v m : Word} (other : off ≠ rTckCtrl) (h : P s) :
    P (s.writeWord off v m) := by
  unfold State.writeWord
  have bits : P (s.writeBits off v m) := State.writeBits_keeps hP h
  have engine : P (s.engineCtrl off v m) := State.engineCtrl_keeps hP h
  split
  · exact h
  · split
    · exact State.writeFix_keeps_of_ne hP other h
    · exact ite_keeps (fun _ => State.portCtrl_keeps hP h) fun _ => h
    · refine ite_keeps (fun _ => ?_) fun _ => bits
      have create {q : Nat} := ite_keeps (c := bit (v &&& m).toNat 0 = true) (fun _ => State.createPart_keeps (p := q) hP h) fun _ => h
      exact ite_keeps (fun _ => State.destroyPart_keeps hP create) fun _ => create
    · exact ite_keeps (fun _ => State.ctxCommand_keeps hP h) fun _ => ite_keeps (fun _ => State.setReg_keeps hP h) fun _ => bits
    · exact ite_keeps (fun _ => engine) fun _ => bits
    · exact ite_keeps (fun _ => engine) fun _ => bits
    · exact bits

theorem State.writeTarget_keeps_of_ne (hP : Stable P) {s : State} {t : Target} {v m : Word} (other : ∀ b, t ≠ .reg rTckCtrl b) (h : P s) :
    P (s.writeTarget t v m) := by
  unfold State.writeTarget
  refine ite_keeps (fun _ => h) fun _ => ?_
  split
  · next view _ =>
    exact ite_keeps (fun _ => h) fun _ => State.writeWord_keeps_of_ne hP (fun same => other view (by rw [same])) h
  · exact State.msixWrite_keeps hP h
  · exact h

theorem State.releaseHalf_of_none {s : State} {r : Requester} (held : s.heldHalf r = none) : s.releaseHalf r = s := by
  rw [State.releaseHalf, held]

theorem State.hostWrite_keeps_of_ne (hP : Stable P) {s : State} {r : Requester} {off bytes : Nat} {v : Word} (held : s.heldHalf r = none)
    (other : ∀ b, s.target r (off / 8 * 8) ≠ .reg rTckCtrl b) (h : P s) : P (s.hostWrite r off bytes v) := by
  unfold State.hostWrite
  have put {w m : Word} : P (s.writeTarget (s.target r (off / 8 * 8)) w m) := State.writeTarget_keeps_of_ne hP other h
  simp only [State.releaseHalf_of_none held, held]
  refine ite_keeps (fun _ => h) fun _ => ite_keeps (fun _ => put) fun _ => ite_keeps (fun _ => ?_) fun _ => ?_
  · exact ite_keeps (fun _ => hP s _ rfl rfl rfl h) fun _ => put
  · exact ite_keeps (fun _ => put) fun _ => State.badWrite_keeps hP h

theorem execRegisterWrite_keeps_of_ne (hP : Stable P) {q : BarReq} {off bytes : Nat} {v : Word} {s : State} (held : s.heldHalf q.who = none)
    (other : ∀ b, s.target q.who (off / 8 * 8) ≠ .reg rTckCtrl b) (h : P s) : OutP P (execRegisterWrite q off bytes v s) :=
  ite_keeps (fun _ => h) fun _ => State.hostWrite_keeps_of_ne hP held other h

theorem execGuardedWrite_keeps_of_ne (hP : Stable P) {q : BarReq} {off : Nat} {v : Word} {s : State} (held : s.heldHalf q.who = none)
    (other : ∀ b, s.target q.who (off / 8 * 8) ≠ .reg rTckCtrl b) (h : P s) : OutP P (execGuardedWrite q off v s) := by
  unfold execGuardedWrite
  refine OutP.ite (fun _ => h) fun _ => ?_
  split
  · split
    · exact OutP.ite (fun _ => State.hostWrite_keeps_of_ne hP held other h) fun _ => h
    · exact h
  · exact h

/-! ## A flit where no WRITE waits (R407) -/

@[simp] theorem PortSt.sendFlit_heldIn (k : PortSt) (c : Nat) : (k.sendFlit c).heldIn = k.heldIn := by
  unfold PortSt.sendFlit
  split <;> rfl

@[simp] theorem PortSt.closeSegment_heldIn (k : PortSt) : k.closeSegment.heldIn = k.heldIn := rfl

@[simp] theorem PortSt.pump_heldIn (k : PortSt) (n : Nat) : (k.pump n).heldIn = k.heldIn := by
  induction n generalizing k with
  | zero => rfl
  | succ n ih =>
    unfold PortSt.pump
    split
    · rfl
    · split
      · rfl
      · split
        · split
          · rw [ih, PortSt.closeSegment_heldIn]
          · rfl
        · split
          · rw [ih, PortSt.sendFlit_heldIn]
          · rfl

@[simp] theorem PortSt.ack_heldIn (k : PortSt) (a : Nat) : (k.ack a).heldIn = k.heldIn := by
  unfold PortSt.ack
  dsimp only
  split <;> rfl

@[simp] theorem PortSt.accept_heldIn (k : PortSt) (f : FlitIn) : (k.accept f).heldIn = k.heldIn := rfl

@[simp] theorem PortSt.replay_heldIn (k : PortSt) : k.replay.heldIn = k.heldIn := rfl

/-- No WRITE waits in the receive buffer of port n. -/
def State.NoneHeld (n : Nat) (s : State) : Prop := (s.port n).heldIn = []

section
variable {s : State} {n : Nat}

theorem State.NoneHeld.setPort {m : Nat} {k : PortSt} (none : s.NoneHeld n) (kept : m = n → k.heldIn = []) : (s.setPort m k).NoneHeld n := by
  by_cases same : m = n
  · rw [State.NoneHeld, same, State.setPort_same]
    exact kept same
  · rw [State.NoneHeld, State.setPort_other _ _ _ same]
    exact none

/-- A port whose record changes elsewhere keeps what its receive buffer holds. -/
theorem State.NoneHeld.setPort_of_eq {m : Nat} {k : PortSt} (none : s.NoneHeld n) (kept : k.heldIn = (s.port m).heldIn) :
    (s.setPort m k).NoneHeld n :=
  none.setPort fun same => kept.trans (same ▸ none)

theorem State.NoneHeld.sendOn {m : Nat} {x : PortMsg} (none : s.NoneHeld n) : (s.sendOn m x).NoneHeld n :=
  none.setPort_of_eq (PortSt.pump_heldIn ..)

theorem State.NoneHeld.sendFabric {x : PortMsg} (none : s.NoneHeld n) : (s.sendFabric x).NoneHeld n := by
  unfold State.sendFabric
  split
  · exact none.sendOn
  · exact none

theorem State.NoneHeld.onMirror {x : PortMsg} (none : s.NoneHeld n) : (s.onMirror x).NoneHeld n := by
  unfold State.onMirror
  split
  · exact none.sendOn
  · exact none

theorem State.NoneHeld.sendWrite {x : MsgOut} (none : s.NoneHeld n) : (s.sendWrite x).1.NoneHeld n := by
  unfold State.sendWrite
  split
  · exact none.sendOn
  · exact none

theorem State.NoneHeld.sendWaiting {d c : Nat} {l : List MsgOut} (none : s.NoneHeld n) : (State.sendWaiting d s c l).1.NoneHeld n := by
  induction l generalizing s c with
  | nil => exact none
  | cons x t ih =>
    unfold State.sendWaiting
    split
    · refine ih ?_
      exact ite_keeps (P := State.NoneHeld n) (fun _ => none.sendWrite) fun _ => none.sendWrite
    · exact ih none

theorem State.NoneHeld.pumpSends {d : Nat} (none : s.NoneHeld n) : (s.pumpSends d).NoneHeld n := none.sendWaiting

theorem State.NoneHeld.portDown {m st : Nat} (none : s.NoneHeld n) : (s.portDown m st).NoneHeld n := by
  unfold State.portDown
  dsimp only
  split
  · refine List.foldl_keeps (List.foldl_keeps ?_ fun _ _ h => h.sendFabric) fun _ _ h => h.pumpSends
    exact none.setPort fun _ => rfl
  · refine List.foldl_keeps ?_ fun _ _ h => h.onMirror
    exact none.setPort fun _ => rfl

theorem State.NoneHeld.retrain {m : Nat} (none : s.NoneHeld n) : (s.retrain m).NoneHeld n := by
  unfold State.retrain
  split
  · exact none
  · exact none.portDown.setPort_of_eq rfl

theorem State.NoneHeld.replayed {m : Nat} {k : PortSt} (none : s.NoneHeld n) (kept : k.heldIn = (s.port m).heldIn) :
    (s.replayed m k).NoneHeld n :=
  ite_keeps (P := State.NoneHeld n) (fun _ => (none.setPort_of_eq kept).retrain) fun _ => none.setPort_of_eq kept

theorem State.NoneHeld.mirrorDrained (none : s.NoneHeld n) : s.mirrorDrained.NoneHeld n := by
  unfold State.mirrorDrained
  dsimp only
  split <;> exact none

theorem State.NoneHeld.takeFlit {m h : Nat} {payload : List Byte} {crcOk : Bool} (none : s.NoneHeld n) :
    (s.takeFlit m h payload crcOk).NoneHeld n := by
  unfold State.takeFlit
  refine ite_keeps (P := State.NoneHeld n) (fun _ => none.setPort_of_eq rfl) fun _ => State.NoneHeld.mirrorDrained ?_
  have pumped {t : State} (none : t.NoneHeld n) : (if t.live m then t.setPort m ((t.port m).pump 1100) else t).NoneHeld n :=
    ite_keeps (fun _ => none.setPort_of_eq (PortSt.pump_heldIn ..)) fun _ => none
  refine pumped (ite_keeps (P := State.NoneHeld n) (fun _ => none.replayed ?_) fun _ => none.setPort_of_eq ?_)
  · rw [PortSt.replay_heldIn]
    split_ifs <;> simp
  · split_ifs <;> simp

theorem State.injected_port (s : State) (u : Nat) (kinds : List Nat) (n : Nat) : (s.injected u kinds).2.port n = s.port n := by
  unfold State.injected
  split
  · dsimp only
    split <;> rfl
  · rfl

theorem State.drainIn_of_noneHeld (none : s.NoneHeld n) : s.drainIn n = s := if_pos none

end

theorem execFlit_keeps_of_noneHeld (hP : Stable P) {n : PortId} {hdr : Word} {f : FlitBody} {s : State} (none : s.NoneHeld n) (h : P s) :
    OutP P (execFlit n hdr f s) := by
  unfold execFlit
  refine OutP.ite (fun _ => h) fun _ => ?_
  have none' : (s.injected (227 + n) [7]).2.NoneHeld n := (congrArg PortSt.heldIn (State.injected_port ..)).trans none
  change P (State.drainIn _ _)
  rw [State.drainIn_of_noneHeld none'.takeFlit]
  exact State.takeFlit_keeps hP (State.injected_keeps hP h)

/-! ## START_INTERFACE where no write waited (R473) -/

theorem State.freeHost_keeps_of_nil (hP : Stable P) {s : State} {p : Nat} (held : (s.part p).hostHeld = []) (h : P s) : P (s.freeHost p) := by
  unfold State.freeHost
  rw [held]
  exact hP s _ rfl rfl rfl h

theorem execStartInterface_keeps_of_nil (hP : Stable P) {p : PartId} {s : State} (held : (s.part p).hostHeld = []) (h : P s) :
    OutP P (execStartInterface p s) := by
  unfold execStartInterface State.setTdi
  refine OutP.ite (fun _ => ?_) fun _ => h
  exact State.freeHost_keeps_of_nil hP (by rw [State.setPart_same]; exact held) (State.setPart_keeps hP h)

/-! ## Both memories as they were -/

/-- Both memories are those of state s. -/
def State.SameMemories (s t : State) : Prop := t.mem = s.mem ∧ t.host = s.host

theorem State.sameMemories_stable (s : State) : Stable s.SameMemories :=
  fun _ _ _ mem host same => ⟨mem.trans same.1, host.trans same.2⟩

theorem State.SameMemories.read {s t : State} (same : s.SameMemories t) :
    (∀ a, Memory.read t.mem a = Memory.read s.mem a) ∧ ∀ a, Memory.read t.host a = Memory.read s.host a := by
  obtain ⟨mem, host⟩ := same
  rw [mem, host]
  exact ⟨fun _ => rfl, fun _ => rfl⟩

/-- An outcome whose next state has the memories of the state before leaves every byte of them. -/
theorem reads_of_sameMemories {s t : State} {o : Host.Outcome State Fault Refusal} (run : o = .next t) (same : OutP s.SameMemories o) :
    (∀ a, Memory.read t.mem a = Memory.read s.mem a) ∧ ∀ a, Memory.read t.host a = Memory.read s.host a :=
  State.SameMemories.read (by rwa [run] at same)

/-- Settles O48: a command that does not store keeps every predicate of the memories, and so do a register write elsewhere than at TCK_CTRL, a flit
where no WRITE waits and START_INTERFACE where no write does. -/
theorem onlyStoringCommandsChangeTheMemories : Obligations.OnlyStoringCommandsChangeTheMemories := by
  have start (s : State) : s.SameMemories s := ⟨rfl, rfl⟩
  refine ⟨?_, ?_, ?_, ?_⟩
  · intro i s t leaves run
    exact reads_of_sameMemories run (exec_keeps_of_not_mayStore s.sameMemories_stable leaves (start s))
  · rintro q r off bytes v s t rfl held other (run | run)
    · exact reads_of_sameMemories run (execRegisterWrite_keeps_of_ne s.sameMemories_stable held other (start s))
    · exact reads_of_sameMemories run (execGuardedWrite_keeps_of_ne s.sameMemories_stable held other (start s))
  · intro n h f s t none run
    exact reads_of_sameMemories run (execFlit_keeps_of_noneHeld s.sameMemories_stable none (start s))
  · intro p s t held run
    exact reads_of_sameMemories run (execStartInterface_keeps_of_nil s.sameMemories_stable held (start s))

/-! ## A write and what is read back (R9, R216) -/

@[simp] theorem leBytes_length (n v : Nat) : (leBytes n v).length = n := by
  induction n generalizing v with
  | zero => rfl
  | succ n ih => rw [leBytes, List.length_cons, ih]

theorem leNat_leBytes {n v : Nat} (fits : v < 256 ^ n) : leNat (leBytes n v) = v := by
  induction n generalizing v with
  | zero =>
    rw [pow_zero, Nat.lt_one_iff] at fits
    rw [fits]
    rfl
  | succ n ih =>
    rw [pow_succ] at fits
    rw [leBytes, leNat, ih (by omega), BitVec.toNat_ofNat]
    omega

theorem Memory.readN_succ (m : List Host.Cell) (a n : Nat) : Memory.readN m a (n + 1) = Memory.read m a :: Memory.readN m (a + 1) n := by
  simp only [Memory.readN, List.range_succ_eq_map, List.map_cons, List.map_map, Nat.add_zero]
  congr 1
  exact List.map_congr_left fun i _ => congrArg (Memory.read m) (Nat.add_right_comm a i 1)

theorem Memory.readN_writeN_same (m : List Host.Cell) (a : Nat) (l : List Byte) : Memory.readN (Memory.writeN m a l) a l.length = l := by
  induction l generalizing m a with
  | nil => rfl
  | cons b bs ih =>
    have first : Memory.read (Memory.writeN m a (b :: bs)) a = b := by
      rw [Memory.writeN, Memory.read_writeN_other _ _ _ (Or.inl a.lt_succ_self), Memory.read_write_same]
    have rest := ih (Memory.write m a b) (a + 1)
    rw [List.length_cons, Memory.readN_succ, first]
    exact congrArg (b :: ·) rest

/-- Settles O51, from the round trip of a list of bytes and that of a number of n bytes. -/
theorem memoryReturnsWhatWasWritten : Obligations.MemoryReturnsWhatWasWritten := by
  intro m a n v fits
  have back := Memory.readN_writeN_same m a (leBytes n v)
  rw [leBytes_length] at back
  exact ⟨by rw [back, leNat_leBytes fits], fun x out => Memory.read_writeN_other m a _ (by rwa [leBytes_length]), Memory.wf_writeN⟩

/-! ## Places of stack bytes (R246) -/

/-- A bank number spells out its die, its channel and its bank in the channel (log entry 14). -/
theorem bank_parts {d e c k b a : Nat} (bank : 128 * d + 4 * c + b = 128 * e + 4 * k + a) (hc : c < 32) (hk : k < 32) (hb : b < 4) (ha : a < 4) :
    d = e ∧ c = k ∧ b = a := by
  omega

/-- An offset within a die is its row, its place in the row, its bank in the channel, its channel and its byte. -/
theorem dieOffset_parts (x : Nat) : x = 0x20000 * (x / 0x20000) + 32768 * (x / 32768 % 4) + 2048 * (x / 2048 % 16) + 64 * (x / 64 % 32) + x % 64 := by
  have row : x / 0x20000 = x / 32768 / 4 := by rw [Nat.div_div_eq_div_mul]
  have bank : x / 32768 = x / 2048 / 16 := by rw [Nat.div_div_eq_div_mul]
  have line : x / 2048 = x / 64 / 32 := by rw [Nat.div_div_eq_div_mul]
  omega

/-- The place in the row and the byte of an offset are those of its offset within its die. -/
theorem mod_dieBytes_place (x : Nat) : x % dieBytes % 64 = x % 64 ∧ x % dieBytes / 2048 % 16 = x / 2048 % 16 := by
  have byte : dieBytes = 64 * 75497472 := rfl
  have line : dieBytes = 2048 * 2359296 := rfl
  refine ⟨by rw [byte, Nat.mod_mul_right_mod], ?_⟩
  rw [line, Nat.mod_mul_right_div_self]
  exact Nat.mod_mod_of_dvd _ (by decide)

theorem stackOffset_eq {o p : Nat} (row : stackRow o = stackRow p) (low : o % 64 = p % 64) (mid : o / 2048 % 16 = p / 2048 % 16) : o = p := by
  simp only [stackRow, Prod.mk.injEq] at row
  obtain ⟨bank, line⟩ := row
  obtain ⟨die, channel, inChannel⟩ := bank_parts bank (Nat.mod_lt _ (by decide)) (Nat.mod_lt _ (by decide)) (Nat.mod_lt _ (by decide))
    (Nat.mod_lt _ (by decide))
  have within : o % dieBytes = p % dieBytes := by
    rw [dieOffset_parts (o % dieBytes), dieOffset_parts (p % dieBytes), line, inChannel, channel, (mod_dieBytes_place o).1,
      (mod_dieBytes_place o).2, (mod_dieBytes_place p).1, (mod_dieBytes_place p).2, low, mid]
  rw [← Nat.div_add_mod o dieBytes, ← Nat.div_add_mod p dieBytes, within]
  exact congrArg (fun d => dieBytes * d + p % dieBytes) die

theorem placeOf_stackAddr {t o : Nat} (stack : t < 16) (fits : o < 0x1200000000) : placeOf (stackAddr t o) = .stack t o := by
  have below : stackAddr t o < stackTop := by
    simp only [stackAddr, stackTop]
    omega
  rw [placeOf, if_pos below]
  simp only [stackAddr, Place.stack.injEq]
  omega

/-- Settles O53: the address map of the stacks, and the rows within one. -/
theorem stackBytesHaveTheirOwnPlace : Obligations.StackBytesHaveTheirOwnPlace :=
  ⟨fun t _ fits => placeOf_stackAddr t.isLt fits, fun _ _ _ _ row low mid => stackOffset_eq row low mid⟩

end Sys2Proof.Machine
end

section
/-! SUPPORT. The total order of values (R149): ranking as an order of pairs, maximum with index, and the merge of ranked lists (R150). -/

namespace Sys2Proof.Machine

/-! ## The order of ranked pairs -/

/-- A pair ranks before another, or with it. -/
def RanksBefore (a b : Lane × Nat) : Prop := outranks b.1 a.1 b.2 a.2 = false

theorem outranks_iff {a b : Lane} {i j : Nat} : outranks a b i j = true ↔ rankKey b < rankKey a ∨ (rankKey a = rankKey b ∧ i < j) := by
  simp [outranks]

theorem ranksBefore_iff {a b : Lane × Nat} : RanksBefore a b ↔ rankKey b.1 < rankKey a.1 ∨ (rankKey a.1 = rankKey b.1 ∧ a.2 ≤ b.2) := by
  rw [RanksBefore, Bool.eq_false_iff, ne_eq, outranks_iff]
  omega

theorem RanksBefore.refl (a : Lane × Nat) : RanksBefore a a := ranksBefore_iff.mpr (.inr ⟨rfl, le_rfl⟩)

theorem RanksBefore.trans {a b c : Lane × Nat} (ab : RanksBefore a b) (bc : RanksBefore b c) : RanksBefore a c := by
  rw [ranksBefore_iff] at *
  omega

theorem RanksBefore.of_outranks {a b : Lane × Nat} (first : outranks a.1 b.1 a.2 b.2 = true) : RanksBefore a b := by
  rw [outranks_iff] at first
  rw [ranksBefore_iff]
  omega

/-- Of two pairs with different indices, one outranks the other. -/
theorem RanksBefore.outranks {a b : Lane × Nat} (ab : RanksBefore a b) (apart : a.2 ≠ b.2) : outranks a.1 b.1 a.2 b.2 = true := by
  rw [ranksBefore_iff] at ab
  rw [outranks_iff]
  omega

/-! ## Rank keys and values (R97, R149) -/

/-- The exponent field of a binary32 lane. -/
def laneExpo (l : Lane) : Nat := l.toNat / 8388608 % 256

/-- The fraction field of a binary32 lane. -/
def laneFrac (l : Lane) : Nat := l.toNat % 8388608

/-- The sign bit of a binary32 lane is set. -/
def laneNeg (l : Lane) : Bool := decide (2147483648 ≤ l.toNat)

theorem lane_toNat_eq (l : Lane) : l.toNat = (if laneNeg l then 2147483648 else 0) + 8388608 * laneExpo l + laneFrac l := by
  have fits := l.isLt
  simp only [laneNeg, laneExpo, laneFrac, decide_eq_true_eq]
  split <;> omega

theorem laneFrac_lt (l : Lane) : laneFrac l < 8388608 := Nat.mod_lt _ (by decide)

theorem laneExpo_lt (l : Lane) : laneExpo l < 256 := Nat.mod_lt _ (by decide)

/-- The sign and the magnitude of a finite lane in multiples of 2 to the power max(exponent, 1) − 150. -/
theorem ofF32_eq (l : Lane) : ofF32 l = if laneExpo l = 255 then (if laneFrac l = 0 then .inf (laneNeg l) else .nan)
    else .fin (laneNeg l) (laneFrac l + if laneExpo l = 0 then 0 else 8388608) ((max (laneExpo l) 1 : Nat) - 150) := by
  have sign : (l.toNat >>> 31 % 2 = 1) = (laneNeg l = true) := by
    have fits := l.isLt
    simp only [laneNeg, Nat.shiftRight_eq_div_pow, decide_eq_true_eq, eq_iff_iff]
    omega
  have expo : l.toNat >>> 23 % 256 = laneExpo l := by rw [Nat.shiftRight_eq_div_pow]; rfl
  have frac : l.toNat % 8388608 = laneFrac l := rfl
  simp only [ofF32, FloatFmt.decode, FloatFmt.f32, FloatFmt.qmin, Nat.reduceAdd, Nat.reducePow, sign, expo, frac, Nat.reduceSub,
    Bool.decide_eq_true]
  by_cases top : laneExpo l = 255
  · simp [top]
  · by_cases zero : laneExpo l = 0
    · simp [zero]
    · have one : max (laneExpo l) 1 = laneExpo l := by omega
      simp only [top, zero, one, if_false, FVal.fin.injEq, true_and]
      omega

theorem ofF32_isNan_iff {l : Lane} : (ofF32 l).isNan = true ↔ laneExpo l = 255 ∧ laneFrac l ≠ 0 := by
  rw [ofF32_eq]
  by_cases top : laneExpo l = 255 <;> by_cases frac : laneFrac l = 0 <;> simp [top, frac, FVal.isNan]

theorem FVal.isNan_iff {v : FVal} : v.isNan = true ↔ v = .nan := by
  cases v <;> simp [FVal.isNan]

theorem rankKey_of_isNan {l : Lane} (nan : (ofF32 l).isNan = true) : rankKey l = 0 := by
  rw [rankKey, FVal.isNan_iff.mp nan]

/-- The key of a number or an infinity: its magnitude's code counts up from +0 and down from −0. -/
theorem rankKey_of_not_isNan {l : Lane} (number : (ofF32 l).isNan = false) :
    rankKey l = if laneNeg l then 2147483648 - (8388608 * laneExpo l + laneFrac l) else 2147483649 + (8388608 * laneExpo l + laneFrac l) := by
  have sign : l.getMsbD 0 = laneNeg l := by
    rw [← BitVec.msb_eq_getMsbD_zero, BitVec.msb_eq_decide]
    rfl
  have notNan : ofF32 l ≠ .nan := fun nan => by simp [nan, FVal.isNan] at number
  have value := lane_toNat_eq l
  have low := laneFrac_lt l
  have mid := laneExpo_lt l
  unfold rankKey
  rw [sign]
  split
  · next nan => exact absurd nan notNan
  · cases neg : laneNeg l <;> simp only [neg, if_true, Bool.false_eq_true, if_false] at value ⊢ <;> omega

theorem rankKey_pos {l : Lane} (number : (ofF32 l).isNan = false) : 0 < rankKey l := by
  have low := laneFrac_lt l
  have mid := laneExpo_lt l
  rw [rankKey_of_not_isNan number]
  split <;> omega

/-- Lanes that are not NaN are known by their keys. -/
theorem rankKey_injective {a b : Lane} (ha : (ofF32 a).isNan = false) (hb : (ofF32 b).isNan = false) (same : rankKey a = rankKey b) : a = b := by
  have va := lane_toNat_eq a
  have vb := lane_toNat_eq b
  have la := laneFrac_lt a
  have lb := laneFrac_lt b
  have ma := laneExpo_lt a
  have mb := laneExpo_lt b
  rw [rankKey_of_not_isNan ha, rankKey_of_not_isNan hb] at same
  refine BitVec.eq_of_toNat_eq ?_
  cases na : laneNeg a <;> cases nb : laneNeg b <;> simp only [na, nb, if_true, Bool.false_eq_true, if_false] at va vb same <;> omega

/-- Magnitudes rank as their codes do. -/
theorem magLe_of_code_le {a b : Lane} (ha : laneExpo a < 255) (hb : laneExpo b < 255) (code : 8388608 * laneExpo a + laneFrac a ≤ 8388608 * laneExpo b + laneFrac b) :
    magLe (laneFrac a + if laneExpo a = 0 then 0 else 8388608) ((max (laneExpo a) 1 : Nat) - 150) (laneFrac b + if laneExpo b = 0 then 0 else 8388608)
      ((max (laneExpo b) 1 : Nat) - 150) = true := by
  have la := laneFrac_lt a
  have lb := laneFrac_lt b
  have scale : (max (laneExpo a) 1 : Nat) ≤ max (laneExpo b) 1 := by omega
  have low : min ((max (laneExpo a) 1 : Nat) - 150 : Int) ((max (laneExpo b) 1 : Nat) - 150) = (max (laneExpo a) 1 : Nat) - 150 := by omega
  have shift : (((max (laneExpo b) 1 : Nat) - 150 : Int) - ((max (laneExpo a) 1 : Nat) - 150)).toNat = max (laneExpo b) 1 - max (laneExpo a) 1 := by omega
  rw [magLe, low]
  simp only [alignTo, decide_eq_true_eq, sub_self, Int.toNat_zero, pow_zero, mul_one, shift]
  rcases scale.eq_or_lt with even | below
  · rw [even, Nat.sub_self, pow_zero, mul_one]
    split <;> split <;> omega
  · have one : 2 ^ 1 ≤ 2 ^ (max (laneExpo b) 1 - max (laneExpo a) 1) := Nat.pow_le_pow_right (by decide) (by omega)
    have notSub : laneExpo b ≠ 0 := by omega
    rw [if_neg notSub]
    calc laneFrac a + (if laneExpo a = 0 then 0 else 8388608) ≤ (laneFrac b + 8388608) * 2 ^ 1 := by split <;> omega
      _ ≤ _ := Nat.mul_le_mul_left _ one

/-- What does not rank higher is not greater. -/
theorem numLe_of_rankKey_le {a b : Lane} (ha : (ofF32 a).isNan = false) (hb : (ofF32 b).isNan = false) (le : rankKey a ≤ rankKey b) :
    (ofF32 a).numLe (ofF32 b) = true := by
  have la := laneFrac_lt a
  have lb := laneFrac_lt b
  have ma := laneExpo_lt a
  have mb := laneExpo_lt b
  rw [rankKey_of_not_isNan ha, rankKey_of_not_isNan hb] at le
  rw [Bool.eq_false_iff, ne_eq, ofF32_isNan_iff] at ha hb
  rw [ofF32_eq, ofF32_eq]
  by_cases ta : laneExpo a = 255 <;> by_cases tb : laneExpo b = 255
  · have fa : laneFrac a = 0 := by omega
    have fb : laneFrac b = 0 := by omega
    rw [if_pos ta, if_pos tb, if_pos fa, if_pos fb]
    rw [ta, tb, fa, fb] at le
    cases na : laneNeg a <;> cases nb : laneNeg b <;> simp [na, nb] at le <;> rfl
  · have fa : laneFrac a = 0 := by omega
    rw [if_pos ta, if_neg tb, if_pos fa]
    rw [ta, fa] at le
    cases na : laneNeg a
    · cases nb : laneNeg b <;> simp only [na, nb, if_true, Bool.false_eq_true, if_false] at le <;> omega
    · rfl
  · have fb : laneFrac b = 0 := by omega
    rw [if_neg ta, if_pos tb, if_pos fb]
    rw [tb, fb] at le
    cases nb : laneNeg b
    · rfl
    · cases na : laneNeg a <;> simp only [na, nb, if_true, Bool.false_eq_true, if_false] at le <;> omega
  · rw [if_neg ta, if_neg tb, FVal.numLe]
    cases na : laneNeg a <;> cases nb : laneNeg b <;> simp only [na, nb, if_true, Bool.false_eq_true, if_false] at le
    · have mags := magLe_of_code_le (a := a) (b := b) (by omega) (by omega) (by omega)
      simp [mags, -Nat.cast_max]
    · omega
    · simp
    · have mags := magLe_of_code_le (a := b) (b := a) (by omega) (by omega) (by omega)
      simp [mags, -Nat.cast_max]

/-- What is less ranks lower. -/
theorem rankKey_lt_of_not_numLe {a b : Lane} (ha : (ofF32 a).isNan = false) (hb : (ofF32 b).isNan = false)
    (less : (ofF32 b).numLe (ofF32 a) = false) : rankKey a < rankKey b := by
  by_contra le
  rw [numLe_of_rankKey_le hb ha (not_lt.mp le)] at less
  exact Bool.noConfusion less

/-! ## Maximum with index (R149) -/

/-- One comparison of the scan for the highest-ranked pair. -/
def higher (a b : Lane × Nat) : Lane × Nat := if outranks b.1 a.1 b.2 a.2 then b else a

theorem higher_ranksBefore_left (a b : Lane × Nat) : RanksBefore (higher a b) a := by
  unfold higher
  split
  · next first => exact .of_outranks first
  · exact .refl a

theorem higher_ranksBefore_right (a b : Lane × Nat) : RanksBefore (higher a b) b := by
  unfold higher
  split
  · exact .refl b
  · next behind => exact Bool.eq_false_iff.mpr behind

theorem foldl_higher_mem (a : Lane × Nat) (l : List (Lane × Nat)) : l.foldl higher a ∈ a :: l := by
  induction l generalizing a with
  | nil => exact List.mem_singleton_self a
  | cons b t ih =>
    have found := ih (higher a b)
    rw [List.foldl_cons]
    rcases List.mem_cons.mp found with here | later
    · rw [here]
      unfold higher
      split <;> simp
    · simp [later]

theorem foldl_higher_ranksBefore (a : Lane × Nat) (l : List (Lane × Nat)) : ∀ x ∈ a :: l, RanksBefore (l.foldl higher a) x := by
  induction l generalizing a with
  | nil => simpa using RanksBefore.refl a
  | cons b t ih =>
    have first := ih (higher a b) _ (List.mem_cons_self ..)
    intro x mem
    rw [List.foldl_cons]
    rcases List.mem_cons.mp mem with rfl | mem
    · exact first.trans (higher_ranksBefore_left x b)
    · rcases List.mem_cons.mp mem with rfl | mem
      · exact first.trans (higher_ranksBefore_right a x)
      · exact ih _ x (List.mem_cons_of_mem _ mem)

theorem topLane_mem {l : List Lane} (some : l ≠ []) : topLane l ∈ l.zipIdx := by
  unfold topLane
  split
  · next none => exact absurd (List.zipIdx_eq_nil_iff.mp none) some
  · next x xs eq => exact eq ▸ foldl_higher_mem x xs

theorem topLane_ranksBefore {l : List Lane} : ∀ x ∈ l.zipIdx, RanksBefore (topLane l) x := by
  unfold topLane
  split
  · next none => simp [none]
  · next x xs eq => exact eq ▸ foldl_higher_ranksBefore x xs

/-- The top lane is one of the lanes, with its index. -/
theorem topLane_eq {l : List Lane} (some : l ≠ []) : (topLane l).2 < l.length ∧ (topLane l).1 = l.getD (topLane l).2 0 := by
  obtain ⟨below, value⟩ := List.getElem?_eq_some_iff.mp (List.mem_zipIdx_iff_getElem?.mp (topLane_mem some))
  exact ⟨below, by rw [List.getD_eq_getElem _ _ below, value]⟩

/-- The top lane outranks every other. -/
theorem topLane_outranks {l : List Lane} {j : Nat} (inside : j < l.length) (other : j ≠ (topLane l).2) :
    outranks (topLane l).1 (l.getD j 0) (topLane l).2 j = true := by
  have mem : (l.getD j 0, j) ∈ l.zipIdx := by
    rw [List.mk_mem_zipIdx_iff_getElem?, List.getD_eq_getElem _ _ inside, List.getElem?_eq_getElem inside]
  exact (topLane_ranksBefore _ mem).outranks (Ne.symm other)

/-- VRED in its maximum form puts the top lane's value and its index before 126 lanes of +0 (R149, R182). -/
theorem exec_vred_max {s : State} {c : CoreId} {w : BitVec 56} (ready : s.Ready c 0x35 w) (unused : unusedZero w false false false = true)
    (max : fieldOf w 35 30 = 1) : exec (.vred c w) s = .next (s.vecOut c (fieldOf w 55 51)
      ((laneMax ((s.core c).vr (fieldOf w 50 46))).1 :: BitVec.ofNat 32 (laneMax ((s.core c).vr (fieldOf w 50 46))).2 :: List.replicate 126 0)) := by
  change execVred c w s = _
  rw [execVred, ready.issue]
  simp [unused, max, Res.putV, State.vecOut]

theorem outranks_self (a : Lane) (i j : Nat) : outranks a a i j = decide (i < j) := by
  simp [outranks]

/-- Settles O57: the keys of R149 order lanes as their values, and the scan leaves the pair that no other outranks. -/
theorem maximaFollowTheTotalOrder : Obligations.MaximaFollowTheTotalOrder := by
  have ranked {a b : Lane} {i j : Nat} (less : rankKey a < rankKey b) : outranks b a i j = true ∧ outranks a b i j = false := by
    rw [Bool.eq_false_iff, ne_eq, outranks_iff, outranks_iff]
    omega
  refine ⟨fun a b i j => ⟨?_, ?_, ?_, ?_, outranks_self a i j⟩, ?_⟩
  · intro nan number
    exact ranked (by rw [rankKey_of_isNan nan]; exact rankKey_pos number)
  · intro ha hb
    simp [outranks, rankKey_of_isNan ha, rankKey_of_isNan hb]
  · exact (ranked (by decide)).1
  · intro ha hb _ less
    exact ranked (rankKey_lt_of_not_numLe ha hb less)
  · rintro s c w l ready unused max rfl size
    have some : (s.core c).vr (fieldOf w 50 46) ≠ [] := fun none => by simp [none] at size
    obtain ⟨below, value⟩ := topLane_eq some
    refine ⟨_, _, (topLane ((s.core c).vr (fieldOf w 50 46))).2, exec_vred_max ready unused max, rfl, size ▸ below, ?_, ?_, ?_, ?_, ?_⟩
    · intro j inside other
      rw [← value]
      exact topLane_outranks (size ▸ inside) other
    all_goals rw [State.vecOut_vr]
    · rw [← value]
      rfl
    · rfl
    · rfl
    · intro j two inside
      obtain ⟨j, rfl⟩ := Nat.exists_eq_add_of_le' two
      exact List.getD_replicate 0 (by omega)

end Sys2Proof.Machine
end

section
/-! SUPPORT. The merge of candidate lists (R150): insertion in rank order, cut at 64, is the first 64 of the ranked multiset. -/

namespace Sys2Proof.Machine

/-! ## Pairs as they are written (R91) -/

/-- A pair as a merge writes it: a NaN as the canonical NaN. -/
def canonPair (p : Lane × Nat) : Lane × Nat := if (ofF32 p.1).isNan then (toF32 .nan, p.2) else p

theorem canonPair_snd (p : Lane × Nat) : (canonPair p).2 = p.2 := by
  unfold canonPair
  split <;> rfl

theorem isNan_canonical : (ofF32 (toF32 .nan)).isNan = true := by decide

@[simp] theorem canonPair_idem (p : Lane × Nat) : canonPair (canonPair p) = canonPair p := by
  by_cases nan : (ofF32 p.1).isNan = true
  · simp [canonPair, nan]
  · simp [canonPair, nan]

@[simp] theorem rankKey_canonPair (p : Lane × Nat) : rankKey (canonPair p).1 = rankKey p.1 := by
  unfold canonPair
  split
  · next nan => rw [rankKey_of_isNan isNan_canonical, rankKey_of_isNan nan]
  · rfl

@[simp] theorem outranks_canonPair (p q : Lane × Nat) : outranks (canonPair p).1 (canonPair q).1 (canonPair p).2 (canonPair q).2 =
    outranks p.1 q.1 p.2 q.2 := by
  simp only [outranks, rankKey_canonPair, canonPair_snd]

/-- Pairs as they are written that rank with each other are one. -/
theorem RanksBefore.antisymm {p q : Lane × Nat} (hp : canonPair p = p) (hq : canonPair q = q) (pq : RanksBefore p q) (qp : RanksBefore q p) :
    p = q := by
  rw [ranksBefore_iff] at pq qp
  have key : rankKey p.1 = rankKey q.1 := by omega
  have index : p.2 = q.2 := by omega
  refine Prod.ext ?_ index
  have lane {x : Lane × Nat} (hx : canonPair x = x) (nan : (ofF32 x.1).isNan = true) : x.1 = toF32 .nan := by
    rw [← hx, canonPair, if_pos nan]
  cases np : (ofF32 p.1).isNan <;> cases nq : (ofF32 q.1).isNan
  · exact rankKey_injective np nq key
  · have := rankKey_pos np
    rw [key, rankKey_of_isNan nq] at this
    omega
  · have := rankKey_pos nq
    rw [← key, rankKey_of_isNan np] at this
    omega
  · rw [lane hp np, lane hq nq]

/-! ## Insertion -/

/-- Pairs in rank order. -/
def Ranked (l : List (Lane × Nat)) : Prop := l.Pairwise RanksBefore

theorem rankInsert_perm (x : Lane × Nat) (l : List (Lane × Nat)) : (rankInsert x l).Perm (x :: l) := by
  induction l with
  | nil => exact .refl _
  | cons y t ih =>
    unfold rankInsert
    split
    · exact .refl _
    · exact (ih.cons y).trans (.swap x y t)

theorem Ranked.insert {x : Lane × Nat} {l : List (Lane × Nat)} (ranked : Ranked l) : Ranked (rankInsert x l) := by
  induction l with
  | nil => exact List.pairwise_singleton _ x
  | cons y t ih =>
    obtain ⟨first, rest⟩ := List.pairwise_cons.mp ranked
    unfold rankInsert
    split
    · next wins =>
      refine List.pairwise_cons.mpr ⟨fun z mem => ?_, ranked⟩
      rcases List.mem_cons.mp mem with rfl | mem
      · exact .of_outranks wins
      · exact (RanksBefore.of_outranks wins).trans (first z mem)
    · next loses =>
      refine List.pairwise_cons.mpr ⟨fun z mem => ?_, ih rest⟩
      rcases List.mem_cons.mp ((rankInsert_perm x t).mem_iff.mp mem) with rfl | mem
      · exact Bool.eq_false_iff.mpr loses
      · exact first z mem

/-- What a cut list leaves of an insertion is what the whole list leaves. -/
theorem take_rankInsert (x : Lane × Nat) (l : List (Lane × Nat)) (n : Nat) : (rankInsert x (l.take n)).take n = (rankInsert x l).take n := by
  induction l generalizing n with
  | nil => simp
  | cons y t ih =>
    cases n with
    | zero => simp
    | succ n =>
      rw [List.take_succ_cons]
      unfold rankInsert
      split
      · simp only [List.take_succ_cons, List.cons.injEq, true_and]
        rw [← List.take_succ_cons, List.take_take]
        simp
      · rw [List.take_succ_cons, List.take_succ_cons, ih]

theorem map_canonPair_rankInsert (x : Lane × Nat) (l : List (Lane × Nat)) :
    (rankInsert x l).map canonPair = rankInsert (canonPair x) (l.map canonPair) := by
  induction l with
  | nil => rfl
  | cons y t ih =>
    rw [List.map_cons]
    unfold rankInsert
    rw [outranks_canonPair]
    split
    · rfl
    · rw [List.map_cons, ih]

/-! ## Ranking a list -/

/-- A list inserted pair by pair into a ranked one. -/
def rankInto (acc l : List (Lane × Nat)) : List (Lane × Nat) := l.foldl (fun acc p => rankInsert p acc) acc

theorem rankInto_perm (acc l : List (Lane × Nat)) : (rankInto acc l).Perm (acc ++ l) := by
  induction l generalizing acc with
  | nil => rw [List.append_nil]; exact .refl _
  | cons x t ih => exact (ih _).trans (((rankInsert_perm x acc).append_right t).trans List.perm_middle.symm)

theorem Ranked.into {acc l : List (Lane × Nat)} (ranked : Ranked acc) : Ranked (rankInto acc l) := by
  induction l generalizing acc with
  | nil => exact ranked
  | cons x t ih => exact ih ranked.insert

theorem map_canonPair_rankInto (acc l : List (Lane × Nat)) :
    (rankInto acc l).map canonPair = rankInto (acc.map canonPair) (l.map canonPair) := by
  induction l generalizing acc with
  | nil => rfl
  | cons x t ih => exact (ih _).trans (congrArg (fun a => rankInto a (t.map canonPair)) (map_canonPair_rankInsert x acc))

theorem foldl_take_rankInsert (n : Nat) (acc l : List (Lane × Nat)) :
    l.foldl (fun acc p => (rankInsert p acc).take n) (acc.take n) = (rankInto acc l).take n := by
  induction l generalizing acc with
  | nil => rfl
  | cons x t ih =>
    rw [List.foldl_cons, take_rankInsert]
    exact ih (rankInsert x acc)

/-- A ranked list of the pairs of l as they are written. -/
def rankedPairs (l : List (Lane × Nat)) : List (Lane × Nat) := rankInto [] (l.map canonPair)

/-- A merge keeps the first 64 of the ranked pairs. -/
theorem top64_eq (l : List (Lane × Nat)) : top64 l = (rankedPairs l).take 64 := by
  change (l.foldl (fun acc p => (rankInsert p acc).take 64) ([].take 64)).map canonPair = _
  rw [foldl_take_rankInsert, List.map_take, map_canonPair_rankInto]
  rfl

theorem rankedPairs_perm (l : List (Lane × Nat)) : (rankedPairs l).Perm (l.map canonPair) := rankInto_perm [] _

theorem ranked_rankedPairs (l : List (Lane × Nat)) : Ranked (rankedPairs l) := Ranked.into List.Pairwise.nil

theorem canonPair_of_mem_map {l : List (Lane × Nat)} {x : Lane × Nat} (mem : x ∈ l.map canonPair) : canonPair x = x := by
  obtain ⟨y, _, rfl⟩ := List.mem_map.mp mem
  exact canonPair_idem y

/-- There is one ranked list of a multiset of pairs as they are written. -/
theorem eq_rankedPairs {l m : List (Lane × Nat)} (perm : m.Perm (l.map canonPair)) (ranked : Ranked m) : m = rankedPairs l :=
  (perm.trans (rankedPairs_perm l).symm).eq_of_pairwise
    (fun _ _ left right => RanksBefore.antisymm (canonPair_of_mem_map (perm.mem_iff.mp left))
      (canonPair_of_mem_map ((rankedPairs_perm l).mem_iff.mp right))) ranked (ranked_rankedPairs l)

theorem top64_of_perm {a b : List (Lane × Nat)} (perm : a.Perm b) : top64 a = top64 b := by
  rw [top64_eq, top64_eq, eq_rankedPairs ((rankedPairs_perm a).trans (perm.map canonPair)) (ranked_rankedPairs a)]

/-- The written pairs of a merge are those of the list it leaves. -/
theorem map_canonPair_top64 (a : List (Lane × Nat)) : (top64 a).map canonPair = top64 a := by
  rw [top64_eq]
  refine (List.map_congr_left fun x mem => ?_).trans (List.map_id _)
  exact canonPair_of_mem_map ((rankedPairs_perm a).mem_iff.mp (List.mem_of_mem_take mem))

/-- What a cut accumulator leaves of further pairs is what the whole one leaves. -/
theorem take_rankInto (n : Nat) (acc l : List (Lane × Nat)) : (rankInto (acc.take n) l).take n = (rankInto acc l).take n := by
  rw [← foldl_take_rankInsert, ← foldl_take_rankInsert, List.take_take, min_self]

theorem rankInto_append (acc a c : List (Lane × Nat)) : rankInto acc (a ++ c) = rankInto (rankInto acc a) c := List.foldl_append

/-- Merging a list that a merge left is merging the pairs that it came from. -/
theorem top64_append (a c : List (Lane × Nat)) : top64 (top64 a ++ c) = top64 (a ++ c) := by
  have again : rankInto [] (top64 a) = (rankedPairs a).take 64 := by
    have kept : rankedPairs (top64 a) = top64 a :=
      (eq_rankedPairs (by rw [map_canonPair_top64]) (by rw [top64_eq]; exact (ranked_rankedPairs a).sublist (List.take_sublist ..))).symm
    rw [rankedPairs, map_canonPair_top64] at kept
    rw [kept, top64_eq]
  have whole : rankedPairs (a ++ c) = rankInto (rankedPairs a) (c.map canonPair) := by
    rw [rankedPairs, List.map_append, rankInto_append, ← rankedPairs]
  rw [top64_eq (top64 a ++ c), rankedPairs, List.map_append, map_canonPair_top64, rankInto_append, again, take_rankInto, ← whole, top64_eq]

/-! ## What is kept and what is left out -/

theorem top64_length (l : List (Lane × Nat)) : (top64 l).length = min 64 l.length := by
  rw [top64_eq, List.length_take, (rankedPairs_perm l).length_eq, List.length_map]

/-- A pair left out ranks behind every pair kept. -/
theorem ranksBefore_of_not_mem_top64 {l : List (Lane × Nat)} {x y : Lane × Nat} (given : y ∈ l) (out : canonPair y ∉ top64 l)
    (kept : x ∈ top64 l) : RanksBefore x y := by
  rw [top64_eq] at out kept
  have some : canonPair y ∈ rankedPairs l := (rankedPairs_perm l).mem_iff.mpr (List.mem_map_of_mem given)
  rw [← List.take_append_drop 64 (rankedPairs l)] at some
  have behind : canonPair y ∈ (rankedPairs l).drop 64 := (List.mem_append.mp some).resolve_left out
  have ranked := ranked_rankedPairs l
  rw [← List.take_append_drop 64 (rankedPairs l)] at ranked
  have before : RanksBefore x (canonPair y) := (List.pairwise_append.mp ranked).2.2 x kept _ behind
  rw [ranksBefore_iff, rankKey_canonPair, canonPair_snd] at before
  exact ranksBefore_iff.mpr before

/-- Settles O16: a merge is the first 64 pairs of the one ranked list of the multiset. -/
theorem mergesKeepTheBestWhateverTheirOrder : Obligations.MergesKeepTheBestWhateverTheirOrder := by
  refine ⟨?_, fun a b c perm => ⟨top64_of_perm perm, top64_append a c⟩⟩
  rintro l n rfl
  change _ ∧ (∀ x ∈ top64 l, ∃ y ∈ l, x = canonPair y) ∧ _ ∧ ∀ y ∈ l, canonPair y ∉ top64 l → _
  refine ⟨top64_length l, fun x kept => ?_, ?_, fun y given out x kept => ranksBefore_of_not_mem_top64 given out kept⟩
  · rw [top64_eq] at kept
    obtain ⟨y, mem, eq⟩ := List.mem_map.mp ((rankedPairs_perm l).mem_iff.mp (List.mem_of_mem_take kept))
    exact ⟨y, mem, eq.symm⟩
  · rw [top64_eq]
    exact (ranked_rankedPairs l).sublist (List.take_sublist ..)

end Sys2Proof.Machine
end

section
/-! SUPPORT. Descriptors that a channel takes: the rules of the scratchpad's bytes and of a channel's instructions, and the one-row COPY between
scratchpads. -/

namespace Sys2Proof.Machine

/-! ## Bytes of a scratchpad (R194) -/

theorem Memory.read_writeN_same (m : List Host.Cell) (a : Nat) (l : List Byte) {i : Nat} (inside : i < l.length) :
    Memory.read (Memory.writeN m a l) (a + i) = l[i] := by
  have back := congrArg (·[i]?) (Memory.readN_writeN_same m a l)
  simpa [Memory.readN, inside] using back

theorem CoreSt.scrByte_scrWrite_same (k : CoreSt) (a : Nat) (l : List Byte) {i : Nat} (inside : i < l.length) :
    (k.scrWrite a l).scrByte (a + i) = l[i] := Memory.read_writeN_same k.scr a l inside

theorem CoreSt.scrByte_scrWrite_other (k : CoreSt) (a : Nat) (l : List Byte) {x : Nat} (outside : x < a ∨ a + l.length ≤ x) :
    (k.scrWrite a l).scrByte x = k.scrByte x := Memory.read_writeN_other k.scr a l outside

@[simp] theorem CoreSt.length_scrRead (k : CoreSt) (a n : Nat) : (k.scrRead a n).length = n := by
  simp [CoreSt.scrRead]

@[simp] theorem CoreSt.getElem_scrRead (k : CoreSt) (a n i : Nat) (inside : i < (k.scrRead a n).length) :
    (k.scrRead a n)[i] = k.scrByte (a + i) := by
  simp [CoreSt.scrRead]

theorem injectEcc_of_none {s : State} (none : s.dbg.inject = none) (unit : Nat) (kinds : List Nat) (a : Nat) (e : Ecc) :
    s.injectEcc unit kinds a e = (e, s) := by
  simp [State.injectEcc, State.injected, none]

/-- A read that no error touches meets nothing (R202). -/
theorem scrMeets_of_good {s : State} {c : Nat} {rs : List (Nat × Nat)} (calm : s.dbg.inject = none) (good : (s.core c).bad = []) :
    s.scrMeets c rs .ok = (s, none) := by
  have clear : (s.core c).failing rs = none := by simp [CoreSt.failing, good]
  unfold State.scrMeets
  rw [injectEcc_of_none calm, ite_self]
  dsimp only
  rw [clear]

/-! ## Instructions of a channel (R213) -/

/-- What of a core an instruction's bookkeeping leaves: its scratchpad. -/
@[simp] theorem State.updEnt_scrByte (s : State) (c ch i : Nat) (f : DmaEnt → DmaEnt) (k x : Nat) :
    ((s.updEnt c ch i f).core k).scrByte x = (s.core k).scrByte x := by
  unfold State.updEnt
  by_cases same : c = k
  · subst same
    rw [State.setCore_same]
    rfl
  · rw [State.setCore_other _ _ _ same]

@[simp] theorem State.updEnt_mem (s : State) (c ch i : Nat) (f : DmaEnt → DmaEnt) : (s.updEnt c ch i f).mem = s.mem := rfl

@[simp] theorem State.updEnt_host (s : State) (c ch i : Nat) (f : DmaEnt → DmaEnt) : (s.updEnt c ch i f).host = s.host := rfl

@[simp] theorem State.updEnt_chan_same (s : State) (c ch i : Nat) (f : DmaEnt → DmaEnt) :
    ((s.updEnt c ch i f).core c).chan ch = ((s.core c).chan ch).modify i f := by
  rw [State.updEnt, State.setCore_same]
  exact SMap.get_set_same _ _ _ _

/-- A write of a scratchpad's bytes leaves every channel. -/
@[simp] theorem State.setCore_scrWrite_chan (s : State) (b a : Nat) (l : List Byte) (c ch : Nat) :
    ((s.setCore b ((s.core b).scrWrite a l)).core c).chan ch = ((s.core c).chan ch) := by
  by_cases same : b = c
  · subst same
    rw [State.setCore_same]
    rfl
  · rw [State.setCore_other _ _ _ same]

/-- What precedes the next instruction of a channel has executed. -/
theorem executed_of_nextEnt {l : List DmaEnt} {n i : Nat} {e : DmaEnt} (next : nextEnt l n = some (i, e)) :
    n ≤ i ∧ ∀ x ∈ l.take (i - n), x.phase = .executed := by
  induction l generalizing n with
  | nil => simp [nextEnt] at next
  | cons x t ih =>
    unfold nextEnt at next
    split at next
    · next executed =>
      split at next
      · obtain ⟨below, before⟩ := ih next
        refine ⟨by omega, ?_⟩
        rw [show i - n = i - (n + 1) + 1 by omega, List.take_succ_cons, List.forall_mem_cons]
        exact ⟨executed, before⟩
      · exact absurd next (by simp)
    · obtain ⟨rfl, rfl⟩ := Prod.mk.inj (Option.some.inj next)
      simp
    · exact absurd next (by simp)

/-- A channel whose instructions have all executed has nothing to run. -/
theorem runFills_of_executed (s : State) (c ch i : Nat) {l : List DmaEnt} (all : ∀ e ∈ l, e.phase = .executed) :
    State.runFills c ch s i l = s := by
  induction l generalizing i with
  | nil => rfl
  | cons e t ih =>
    obtain ⟨first, rest⟩ := List.forall_mem_cons.mp all
    unfold State.runFills
    rw [first]
    dsimp only
    split
    · exact ih (i + 1) rest
    · rfl

theorem settleChan_of_executed {s : State} {c ch : Nat} (all : ∀ e ∈ (s.core c).chan ch, e.phase = .executed) : s.settleChan c ch = s :=
  runFills_of_executed s c ch 0 all

/-- Where everything before the last instruction of a channel has executed, and it now has, the whole channel has. -/
theorem executed_of_modify_last {l : List DmaEnt} {i : Nat} {f : DmaEnt → DmaEnt} (size : l.length = i + 1)
    (before : ∀ x ∈ l.take i, x.phase = .executed) (now : ∀ x, (f x).phase = .executed) : ∀ x ∈ l.modify i f, x.phase = .executed := by
  intro x mem
  obtain ⟨j, inside, rfl⟩ := List.mem_iff_getElem.mp mem
  rw [List.length_modify] at inside
  rw [List.getElem_modify]
  split
  · exact now _
  · next earlier =>
    refine before _ (List.mem_iff_getElem.mpr ⟨j, ?_, ?_⟩)
    · rw [List.length_take]
      omega
    · rw [List.getElem_take]

/-- What a channel may take is its next instruction, a descriptor of that kind. -/
theorem nextEnt_of_taken {s : State} {c ch kind i : Nat} {e : DmaEnt} {d : BitVec 512} {src dst : Option Region}
    (taken : s.taken c ch kind = some (i, e, d, src, dst)) : nextEnt ((s.core c).chan ch) 0 = some (i, e) := by
  unfold State.taken at taken
  split at taken
  · next j x next =>
    split at taken
    · split at taken
      · simp only [Option.some.injEq, Prod.mk.injEq] at taken
        rw [next, taken.1, taken.2.1]
      · exact absurd taken (by simp)
    · exact absurd taken (by simp)
  · exact absurd taken (by simp)

/-! ## Windows of a copy (R192) -/

/-- No window holds an unmapped address (R31, R33). -/
theorem placeOf_ne_unmapped_of_reach {s : State} {e : DmaEnt} {x n : Nat} (reach : s.dmaReach e x n = true) : placeOf x ≠ .unmapped := by
  intro unmapped
  simp [State.dmaReach, State.inWindow, unmapped] at reach

/-- A byte range inside a scratchpad window lies in that scratchpad (R30). -/
theorem placeOf_scrAddr_of_reach {s : State} {e : DmaEnt} {c : CoreId} {o n : Nat} (reach : s.dmaReach e (scrAddr c o) n = true)
    (fits : o + n ≤ 0x600000) : placeOf (scrAddr c o) = .scratch c o := by
  have mapped := placeOf_ne_unmapped_of_reach reach
  rw [placeOf_scrAddr c (Nat.lt_of_le_of_lt (Nat.le_of_add_right_le fits) (by decide))] at mapped ⊢
  split at mapped
  · next inside => exact if_pos inside
  · exact absurd rfl mapped

theorem none_of_ite_some {α : Type} {p : Prop} [Decidable p] {a : α} {o : Option α} (none : (if p then some a else o) = .none) : o = .none := by
  split at none
  · exact absurd none (by simp)
  · exact none

/-- The sides of a one-row copy between device addresses that no window check refuses are reached. -/
theorem reach_of_windowFails {s : State} {e : DmaEnt} {d : BitVec 512} {src dst : Option Region} {a b : Nat}
    (clear : s.windowFails e d src dst = none) (one : dRows d = 1) (copy : dKind d = 0) (from_ : sideOf (dSrcSpace d) (dSrc d) src = .dev a)
    (onto : sideOf (dDstSpace d) (dDst d) dst = .dev b) :
    s.dmaReach e a (dRowBytes d) = true ∧ s.dmaReach e b (dRowBytes d) = true := by
  have row : s.srcRow d a 0 = a := by simp [State.srcRow, copy]
  unfold State.windowFails at clear
  have rows := none_of_ite_some (none_of_ite_some (none_of_ite_some (none_of_ite_some clear)))
  simp [one, copy, from_, onto, row, List.find?_singleton] at rows
  exact rows

/-! ## The one-row COPY (R190, R216) -/

/-- A read of a scratchpad that no error touches leaves the state. -/
theorem devRead_scratch_of_good {s : State} {c : Nat} {a o n p x : Nat} (place : placeOf a = .scratch c o) (calm : s.dbg.inject = none)
    (good : (s.core c).bad = []) : s.devRead a n p x .ok = (s, .ok) := by
  unfold State.devRead
  rw [place]
  dsimp only
  rw [scrMeets_of_good calm good]

/-- The state that a one-row copy from scratchpad to scratchpad leaves. -/
theorem copyRows_scratch {s : State} {c ch i : Nat} {e : DmaEnt} {d : BitVec 512} {src dst : Option Region} {a b oa ob x y : Nat}
    (one : dRows d = 1) (copy : dKind d = 0) (from_ : sideOf (dSrcSpace d) (dSrc d) src = .dev x)
    (onto : sideOf (dDstSpace d) (dDst d) dst = .dev y) (source : placeOf x = .scratch a oa) (target : placeOf y = .scratch b ob)
    (calm : s.dbg.inject = none) (good : (s.core a).bad = []) :
    s.copyRows c ch 0 i e d src dst .ok = ((s.setCore b ((s.core b).scrWrite ob ((s.core a).scrRead oa (dRowBytes d)))).updEnt c ch i
      fun z => { z with asked := z.asked + dRowBytes d, conf := z.conf + dRowBytes d }, .ok) := by
  have row : s.srcRow d x 0 = x := by simp [State.srcRow, copy]
  simp [State.copyRows, State.moveRows, State.landRow, State.devWrite, State.devBytes, one, copy, from_, onto, row, source, target,
    devRead_scratch_of_good source calm good]

/-- Settles O9: the one row is read from its scratchpad and written to the other; the channel's bookkeeping touches no byte. -/
theorem copyMovesExactlyItsBytes : Obligations.CopyMovesExactlyItsBytes := by
  rintro s c a b ch i oa ob n e d src dst taken clear one rfl copy calm good from_ onto fitsA fitsB last
  obtain ⟨reachA, reachB⟩ := reach_of_windowFails clear one copy from_ onto
  have rows := copyRows_scratch (c := c) (ch := ch) (i := i) (e := e) one copy from_ onto (placeOf_scrAddr_of_reach reachA fitsA)
    (placeOf_scrAddr_of_reach reachB fitsB) calm good
  obtain ⟨-, before⟩ := executed_of_nextEnt (nextEnt_of_taken taken)
  have ran : s.runCopy c ch 0 .ok = ((s.setCore b ((s.core b).scrWrite ob ((s.core a).scrRead oa (dRowBytes d)))).updEnt c ch i
      fun z => { z with asked := z.asked + dRowBytes d, conf := z.conf + dRowBytes d }).updEnt c ch i
      fun z => { z with phase := .executed } := by
    simp only [State.runCopy, taken, clear, rows, OfNat.zero_ne_ofNat, false_and, if_false]
    refine settleChan_of_executed ?_
    rw [State.updEnt_chan_same, State.updEnt_chan_same, State.setCore_scrWrite_chan]
    refine executed_of_modify_last (by rw [List.length_modify, last]) (fun x mem => ?_) fun _ => rfl
    rw [List.take_modify, List.modify_eq_self (by simp)] at mem
    exact before x mem
  refine ⟨s.runCopy c ch 0 .ok, rfl, by rw [ran]; rfl, by rw [ran]; rfl, ?_, ?_⟩
  · intro x inside
    rw [ran, State.updEnt_scrByte, State.updEnt_scrByte, State.setCore_same, CoreSt.scrByte_scrWrite_same _ _ _ (by simpa using inside),
      CoreSt.getElem_scrRead]
  · intro k x outside
    rw [ran, State.updEnt_scrByte, State.updEnt_scrByte]
    by_cases same : b.val = k
    · subst same
      rw [State.setCore_same, CoreSt.scrByte_scrWrite_other]
      simpa using outside
    · rw [State.setCore_other _ _ _ same]

end Sys2Proof.Machine
end

section
/-! SUPPORT. Register accesses of the host (R476): half reads and their latch, and writes applied, held or dropped. -/

namespace Sys2Proof.Machine

/-! ## Reads by halves (R48, R476) -/

/-- A read's effect leaves what a read returns, the latches, the registers and the memories. -/
theorem readEffect_frame (s : State) (t : Target) : (s.readEffect t).readData = s.readData ∧ (s.readEffect t).latch = s.latch ∧
    (s.readEffect t).regs = s.regs ∧ (s.readEffect t).mem = s.mem ∧ (s.readEffect t).host = s.host := by
  unfold State.readEffect
  split
  · split
    · split <;> exact ⟨rfl, rfl, rfl, rfl, rfl⟩
    · exact ⟨rfl, rfl, rfl, rfl, rfl⟩
  · exact ⟨rfl, rfl, rfl, rfl, rfl⟩

theorem alignDown_of_low {off : Nat} (low : off % 8 = 0) : off / 8 * 8 = off := Nat.div_mul_cancel (Nat.dvd_of_mod_eq_zero low)

theorem alignDown_of_high {off : Nat} (low : off % 8 = 0) : (off + 4) / 8 * 8 = off := by omega

theorem exec_halfRegisterRead_unsupported {s : State} {q : BarReq} (off : Nat) (refused : s.unsupported q = true) :
    exec (.halfRegisterRead q off) s = .next { s with freeCtr := s.freeCtr + 1 } := if_pos refused

/-- A read of a low half: the half, and the latch of the other. -/
theorem exec_halfRegisterRead_low {s : State} {q : BarReq} {off : Nat} (supported : s.unsupported q = false) (low : off % 8 = 0) :
    exec (.halfRegisterRead q off) s = .next (State.readEffect { s with
      freeCtr := s.freeCtr + 1
      latch := SMap.set none s.latch (s.target q.who off).key (some ((s.readTarget (s.target q.who off)).extractLsb' 32 32))
      readData := s.readTarget (s.target q.who off) &&& 0xFFFFFFFF } (s.target q.who off)) := by
  change execHalfRegisterRead q off s = _
  simp [execHalfRegisterRead, supported, low, alignDown_of_low low]

/-- A read of a high half returns the latched half. -/
theorem exec_halfRegisterRead_high {s : State} {q : BarReq} {off : Nat} {half : BitVec 32} (supported : s.unsupported q = false)
    (low : off % 8 = 0) (latched : SMap.get none s.latch (s.target q.who off).key = some half) :
    exec (.halfRegisterRead q (off + 4)) s = .next { s with
      freeCtr := s.freeCtr + 1, latch := s.latch.del (s.target q.who off).key, readData := half.setWidth 64 } := by
  have high : (off + 4) % 8 = 4 := by omega
  change execHalfRegisterRead q (off + 4) s = _
  simp [execHalfRegisterRead, supported, high, alignDown_of_high low, latched]

/-- The register STK_WAKE of a stack (R245). -/
theorem regRef_stkWake (t : StackId) : regRef (stkBase t + rStkWake) = some ⟨.stk, t, 0, rStkWake⟩ := by
  revert t
  decide

/-- A read of STK_WAKE returns it and clears its peak (R245). -/
theorem exec_wakePeakRead {s : State} {t : StackId} (answers : s.barOpen (stkBase t + rStkWake) = true) :
    exec (.wakePeakRead t) s = .next (State.setStk { s with readData := s.regWord (stkBase t + rStkWake) false } t
      { s.stk t with wakePeak := 0 }) := by
  have word : s.readTarget (.reg (stkBase t + rStkWake) false) = s.regWord (stkBase t + rStkWake) false := by
    rw [State.readTarget, Target.gate, answers]
    rfl
  have effect (u : State) (same : u.barOpen (stkBase t + rStkWake) = true) :
      u.readEffect (.reg (stkBase t + rStkWake) false) = u.setStk t { u.stk t with wakePeak := 0 } := by
    rw [State.readEffect, regRef_stkWake]
    simp [same]
  change execWakePeakRead t s = _
  rw [execWakePeakRead, word]
  exact congrArg Host.Outcome.next (effect _ answers)

/-- Settles O34: the low half's read latches the other half, which the read of the high half finds by the register's key. -/
theorem twoHalfReadsSeeOneValue : Obligations.TwoHalfReadsSeeOneValue := by
  refine ⟨fun s q off refused => exec_halfRegisterRead_unsupported off refused, ?_, ?_⟩
  · rintro s q r off w rfl supported low rfl
    refine ⟨_, exec_halfRegisterRead_low supported low, ?_⟩
    obtain ⟨data, latch, regs, mem, host⟩ := readEffect_frame { s with
      freeCtr := s.freeCtr + 1
      latch := SMap.set none s.latch (s.target q.who off).key (some ((s.readTarget (s.target q.who off)).extractLsb' 32 32))
      readData := s.readTarget (s.target q.who off) &&& 0xFFFFFFFF } (s.target q.who off)
    refine ⟨data, regs, mem, host, fun t' supported' kept key => ?_⟩
    refine ⟨_, exec_halfRegisterRead_high supported' low ?_, rfl, rfl⟩
    rw [key, kept, latch, SMap.get_set_same]
  · intro s t answers
    refine ⟨_, exec_wakePeakRead answers, rfl, ?_, fun q other => ?_, rfl, rfl, rfl, rfl⟩
    · rw [State.setStk_same]
    · rw [State.setStk_other _ _ _ (Ne.symm other)]
      rfl

/-! ## Writes (R476) -/

section
variable {s : State} {r : Requester} {off : Nat} {v : Word}

theorem hostWrite_whole (up : s.jormirUp = true) (none : s.heldHalf r = none) (low : off % 8 = 0) :
    s.hostWrite r off 8 v = s.writeTarget (s.target r off) v (BitVec.allOnes 64) := by
  simp [State.hostWrite, up, low, State.releaseHalf_of_none none, alignDown_of_low low]

/-- A requester's low half is held (R476). -/
def State.holdHalf (s : State) (r : Requester) (h : HalfWrite) : State := { s with regHeld := SMap.set none s.regHeld r (some h) }

theorem State.heldHalf_holdHalf (s : State) (r : Requester) (h : HalfWrite) : (s.holdHalf r h).heldHalf r = some h :=
  SMap.get_set_same none s.regHeld r.val (some h)

/-- A low half waits for its other half. -/
theorem hostWrite_low (up : s.jormirUp = true) (none : s.heldHalf r = none) (low : off % 8 = 0) (holds : (s.target r off).holds = true) :
    s.hostWrite r off 4 v = s.holdHalf r { off := off, low := v.setWidth 32 } := by
  simp [State.holdHalf, State.hostWrite, up, low, State.releaseHalf_of_none none, alignDown_of_low low, holds]

/-- The high half next completes the write. -/
theorem hostWrite_high_of_held (up : s.jormirUp = true) (low : off % 8 = 0) (holds : (s.target r off).holds = true) {half : BitVec 32}
    (held : s.heldHalf r = some { off := off, low := half }) : s.hostWrite r (off + 4) 4 v =
      ({ s with regHeld := s.regHeld.del r } : State).writeTarget (s.target r off) ((v <<< 32) ||| half.setWidth 64) (BitVec.allOnes 64) := by
  have high : (off + 4) % 8 = 4 := by omega
  simp [State.hostWrite, up, high, alignDown_of_high low, holds, held]

theorem hostWrite_high_alone (up : s.jormirUp = true) (none : s.heldHalf r = none) (high : off % 8 = 4) :
    s.hostWrite r off 4 v = s.writeTarget (s.target r (off - 4)) (v <<< 32) highMask := by
  have align : off / 8 * 8 = off - 4 := by omega
  simp [State.hostWrite, up, none, high, align]

theorem hostWrite_narrow {n : Nat} (up : s.jormirUp = true) (none : s.heldHalf r = none) (narrow : n < 4) :
    s.hostWrite r off n v = s.badWrite := by
  have four : n ≠ 4 := by omega
  have eight : n ≠ 8 := by omega
  simp [State.hostWrite, up, State.releaseHalf_of_none none, four, eight]

theorem writeTarget_nothing (s : State) (v m : Word) : s.writeTarget .nothing v m = s := ite_self _

end

theorem exec_registerWrite {s : State} {q : BarReq} (off n : Nat) (v : Word) (supported : s.unsupported q = false) :
    exec (.registerWrite q off n v) s = .next (s.hostWrite q.who off n v) := by
  change Host.Outcome.next (if s.unsupported q = true then s else _) = _
  rw [supported]
  rfl

/-- Settles O35: the branches of R476, by the width and the alignment of a write. -/
theorem writesAreAppliedHeldOrDropped : Obligations.WritesAreAppliedHeldOrDropped := by
  rintro s q r off v rfl
  refine ⟨fun refused => ⟨fun n => congrArg Host.Outcome.next (if_pos refused), if_pos refused⟩, fun supported up none => ?_⟩
  refine ⟨?_, ?_, ?_, ?_, ?_, ?_⟩
  · intro low
    rw [exec_registerWrite _ _ _ supported, hostWrite_whole up none low]
  · intro o x low reg ref grd
    change execGuardedWrite q off v s = _
    simp only [execGuardedWrite, supported, reg, ref, grd, low, hostWrite_whole up none low, Bool.false_eq_true, if_false, and_self, if_true]
  · intro low holds
    obtain ⟨t, eq⟩ : ∃ t : State, t = s.holdHalf q.who { off := off, low := v.setWidth 32 } := ⟨_, rfl⟩
    have held : t.heldHalf q.who = some { off := off, low := v.setWidth 32 } := eq ▸ State.heldHalf_holdHalf ..
    refine ⟨t, by rw [exec_registerWrite _ _ _ supported, hostWrite_low up none low holds, eq], by rw [eq]; rfl, held, fun v2 => ⟨_, ?_, rfl⟩⟩
    have supported' : t.unsupported q = false := eq ▸ supported
    have up' : t.jormirUp = true := eq ▸ up
    have target : t.target q.who off = s.target q.who off := by rw [eq]; rfl
    rw [exec_registerWrite _ _ _ supported', hostWrite_high_of_held up' low (target ▸ holds) held, target]
  · intro high
    rw [exec_registerWrite _ _ _ supported, hostWrite_high_alone up none high]
  · intro n narrow
    rw [exec_registerWrite _ _ _ supported, hostWrite_narrow up none narrow]
  · intro low nothing
    rw [exec_registerWrite _ _ _ supported, hostWrite_whole up none low, nothing, writeTarget_nothing]

end Sys2Proof.Machine
end

section
/-! SUPPORT. The teardown of a context (R365 to R372): its phases in order, and what the fence stops and makes stale. -/

namespace Sys2Proof.Machine

/-! ## Phases (R367 to R369, R372) -/

section
variable {s : State} {p : PartId} {h : BitVec 16} {x : CtxSt}

/-- A fault waits for the reset of an engine whose landing 2 includes its context (R391). -/
theorem exec_contextFence_waits (here : s.ctx p h.toNat = some x) (busy : s.inLanding2 p h.toNat = true) :
    exec (.contextFence p h) s = .next s := by
  change execContextFence p h s = _
  simp [execContextFence, here, busy]

/-- The context and the other contexts of its job, which have not begun a teardown of their own, are fenced in one landing (R372). -/
theorem exec_contextFence_job (here : s.ctx p h.toNat = some x) (faulted : x.tear = .faulted) (clear : s.inLanding2 p h.toNat = false)
    (fresh : ∀ m ∈ s.jobMates p h.toNat, ∃ y, s.ctx p m = some y ∧ (y.tear = .none ∨ y.tear = .faulted)) :
    exec (.contextFence p h) s = .next ((h.toNat :: s.jobMates p h.toNat).foldl (fun s m => s.fenceCtx p m)
      ((s.jobMates p h.toNat).foldl (fun s m => s.joinLanding p m) s)) := by
  change execContextFence p h s = _
  unfold execContextFence
  rw [here]
  dsimp only
  rw [if_pos ⟨faulted, by rw [clear]; rfl⟩, List.filter_eq_self.mpr fun m mem => ?_]
  obtain ⟨y, there, phase⟩ := fresh m mem
  rw [there]
  simpa using phase

theorem exec_contextFence_alone (here : s.ctx p h.toNat = some x) (faulted : x.tear = .faulted) (clear : s.inLanding2 p h.toNat = false)
    (alone : s.jobMates p h.toNat = []) : exec (.contextFence p h) s = .next (s.fenceCtx p h.toNat) := by
  rw [exec_contextFence_job here faulted clear (by simp [alone]), alone, List.foldl_nil, List.foldl_cons, List.foldl_nil]

end

/-- Settles O27: each command carries its phase out on the context and on its job's. -/
theorem teardownRunsItsPhases : Obligations.TeardownRunsItsPhases := by
  rintro s p h x mates here rfl
  refine ⟨fun _ busy => exec_contextFence_waits here busy, exec_contextFence_job here, fun alone => ⟨?_, ?_, ?_⟩, rfl, rfl⟩
  · intro faulted clear
    exact exec_contextFence_alone here faulted clear alone
  · intro fenced
    change execContextDrainComplete p h s = _
    simp [execContextDrainComplete, alone, State.drainCtx, here, fenced]
  · intro drained
    change execContextClearComplete p h s = _
    simp [execContextClearComplete, alone]

/-! ## What the fence's operations leave -/

/-- An entry that a map's change does not turn into the map's default is changed. -/
theorem SMap.get_mapV {α : Type} [DecidableEq α] {d : α} (f : Nat → α → α) {m : SMap α} {i : Nat} (there : SMap.get d m i ≠ d)
    (kept : f i (SMap.get d m i) ≠ d) : SMap.get d (SMap.mapV d f m) i = f i (SMap.get d m i) := by
  induction m with
  | nil => exact absurd rfl there
  | cons e t ih =>
    obtain ⟨k, v⟩ := e
    by_cases here : k = i
    · subst here
      simp only [SMap.get, if_true] at kept ⊢
      rw [SMap.mapV, if_neg kept]
      simp [SMap.get]
    · simp only [SMap.get, if_neg here] at there kept ⊢
      rw [SMap.mapV]
      split
      · exact ih there kept
      · simp only [SMap.get, if_neg here]
        exact ih there kept

@[simp] theorem State.setFrame_core (s : State) (t f : Nat) (x : Frame) (c : Nat) : (s.setFrame t f x).core c = s.core c := rfl

/-- The cores are those of state s. -/
def State.SameCores (s t : State) : Prop := ∀ c, t.core c = s.core c

section
variable {s t : State}

theorem State.SameCores.refl (s : State) : s.SameCores s := fun _ => rfl

theorem State.SameCores.trans {u : State} (st : s.SameCores t) (tu : t.SameCores u) : s.SameCores u := fun c => (tu c).trans (st c)

theorem State.SameCores.each {f : State → Nat → State} {l : List Nat} (step : ∀ t n, s.SameCores t → s.SameCores (f t n))
    (same : s.SameCores t) : s.SameCores (t.each f l) := by
  induction l generalizing t with
  | nil => exact same
  | cons n l ih => exact ih (step t n same)

theorem State.sameCores_wakeDie (s : State) (t d : Nat) : s.SameCores (s.wakeDie t d) := by
  unfold State.wakeDie
  dsimp only
  split <;> exact .refl s

theorem State.sameCores_dieWork_down (s : State) (x : Nat × Nat) : s.SameCores (s.dieWork false x) := .refl s

theorem State.sameCores_fcLeaves (s : State) (x : FcCmd) : s.SameCores (s.fcLeaves x) := by
  unfold State.fcLeaves
  split
  · exact .refl s
  · exact List.foldl_keeps (P := s.SameCores) (.refl s) fun t d same => same.trans (t.sameCores_dieWork_down d)

theorem State.sameCores_unfilled (s : State) (t f n : Nat) : s.SameCores (s.unfilled t f n) := by
  unfold State.unfilled
  refine List.foldl_keeps (P := s.SameCores) (.refl s) fun u i same => ?_
  dsimp only
  split <;> exact same

theorem State.sameCores_cleanSource (s : State) (c : BitVec 256) : s.SameCores (s.cleanSource c) :=
  List.foldl_keeps (P := s.SameCores) (.refl s) fun _ _ same => same

theorem State.sameCores_fcAbandon (s : State) (t : Nat) (x : FcCmd) : s.SameCores (s.fcAbandon t x) := by
  have drop : s.SameCores (s.fcDrop t x) := by
    unfold State.fcDrop
    dsimp only
    split
    · exact (s.sameCores_unfilled _ _ _).trans (State.sameCores_fcLeaves _ x)
    · exact (s.sameCores_cleanSource _).trans (State.sameCores_fcLeaves _ x)
    · exact s.sameCores_fcLeaves x
  exact drop

theorem State.sameCores_releaseFrames (s : State) (l : List (Nat × Nat)) : s.SameCores (s.releaseFrames l) :=
  List.foldl_keeps (P := s.SameCores) (.refl s) fun _ _ same => same

theorem State.sameCores_dropBgs (s : State) (gone : BgOp → Bool) : s.SameCores (s.dropBgs gone) := s.sameCores_releaseFrames _

theorem State.sameCores_countFld (s : State) (off hi lo n : Nat) : s.SameCores (s.countFld off hi lo n) := fun c =>
  State.countFld_core s off hi lo n c

theorem State.sameCores_pushCompl (s : State) (c : ComplSt) : s.SameCores (s.pushCompl c) := by
  have counted := ite_keeps (P := s.SameCores) (c := 1 ≤ c.status ∧ c.status ≤ 0x0A)
    (fun _ => s.sameCores_countFld rFeRefused 31 0 1) fun _ => .refl s
  exact ite_keeps (P := s.SameCores) (fun _ => counted) fun _ => counted

theorem State.sameCores_tearBg (s : State) (p h : Nat) : s.SameCores (s.tearBg p h) := by
  unfold State.tearBg
  refine State.SameCores.each (fun t i same => ?_) (List.foldl_keeps (P := s.SameCores) (s.sameCores_dropBgs _) fun t x same => ?_)
  · exact List.foldl_keeps (P := s.SameCores) same fun u x same => same.trans (u.sameCores_fcAbandon i x)
  · exact same.trans (t.sameCores_pushCompl _)

end

/-! ## What follows a fence in the same step -/

theorem State.foldl_complete_core (s : State) (l : List (Nat × DescSt)) (status c : Nat) :
    (l.foldl (fun s a => s.complete a.1 a.2 status) s).core c = s.core c :=
  List.foldl_keeps (P := s.SameCores) (.refl s) (fun t _ same => same.trans (t.sameCores_pushCompl _)) c

theorem State.each_setRows_core (s : State) (f : List AttnRow → List AttnRow) (l : List Nat) (c : Nat) :
    (s.each (fun s t => s.setRows t f) l).core c = s.core c :=
  State.SameCores.each (f := fun s t => s.setRows t f) (fun _ _ same => same) (.refl s) c

theorem State.pushCompl_ctx (s : State) (k : ComplSt) (p h : Nat) : (s.pushCompl k).ctx p h = s.ctx p h := by
  have counted : (if 1 ≤ k.status ∧ k.status ≤ 0x0A then s.countFld rFeRefused 31 0 1 else s).ctx p h = s.ctx p h := by
    split <;> simp [State.countFld, State.setFld]
  exact ite_keeps (P := fun t => t.ctx p h = s.ctx p h) (fun _ => counted) fun _ => counted

theorem State.foldl_complete_ctx (s : State) (l : List (Nat × DescSt)) (status p h : Nat) :
    (l.foldl (fun s a => s.complete a.1 a.2 status) s).ctx p h = s.ctx p h :=
  List.foldl_keeps (P := fun t => t.ctx p h = s.ctx p h) rfl fun t _ same => (t.pushCompl_ctx _ p h).trans same

theorem State.each_setRows_ctx (s : State) (f : List AttnRow → List AttnRow) (l : List Nat) (p h : Nat) :
    (s.each (fun s t => s.setRows t f) l).ctx p h = s.ctx p h := by
  induction l generalizing s with
  | nil => rfl
  | cons n l ih => exact ih (s.setRows n f)

/-! ## What the fence stops and makes stale (R154, R366, R367) -/

theorem State.ctx_of_parts {s t : State} (same : t.parts = s.parts) (p h : Nat) : t.ctx p h = s.ctx p h := by
  rw [State.ctx, State.ctx, State.part, State.part, same]

theorem State.sameCores_dropFlits (s : State) (p h : Nat) : s.SameCores (s.dropFlits p h) := fun _ => rfl

theorem State.sameCores_setCtx (s : State) (p h : Nat) (k : Option CtxSt) : s.SameCores (s.setCtx p h k) := fun _ => rfl

/-- A fenced context has the next epoch. -/
theorem State.fenceCtx_ctx {s : State} {p h : Nat} {x : CtxSt} (here : s.ctx p h = some x) :
    (s.fenceCtx p h).ctx p h = some { x with tear := .fenced, epoch := x.epoch + 1 } := by
  unfold State.fenceCtx
  rw [here]
  dsimp only
  rw [State.each_setRows_ctx, State.foldl_complete_ctx]
  generalize (s.tearBg p h).dropFlits p h = u
  exact (State.ctx_of_parts rfl p h).trans (u.setCtx_same p h _)

/-- A fenced core that was busy is not idle: it has stopped, or it goes on for another context. -/
theorem CoreSt.fenceCtx_busy {k : CoreSt} {p h : Nat} (busy : k.phase ≠ .idle) : (k.fenceCtx p h).phase ≠ .idle := by
  unfold CoreSt.fenceCtx
  dsimp only
  split
  · exact fun idle => CorePhase.noConfusion idle
  · exact busy

/-- Every busy core takes part in the fence. -/
theorem State.fenceCtx_core {s : State} {p h c : Nat} {x : CtxSt} (here : s.ctx p h = some x) (busy : (s.core c).phase ≠ .idle) :
    ∃ waiting, (s.fenceCtx p h).core c = { (s.core c).fenceCtx p h with waiting := waiting } := by
  have before : (((s.tearBg p h).dropFlits p h).setCtx p h (some { x with tear := .fenced, epoch := x.epoch + 1 })).core c = s.core c :=
    (((s.sameCores_tearBg p h).trans (State.sameCores_dropFlits _ p h)).trans (State.sameCores_setCtx _ p h _)) c
  unfold State.fenceCtx
  rw [here]
  dsimp only
  rw [State.each_setRows_core, State.foldl_complete_core]
  generalize ((s.tearBg p h).dropFlits p h).setCtx p h _ = u at before ⊢
  rw [State.core] at before
  rw [State.core, SMap.get_mapV]
  · rw [before]
    exact ⟨_, rfl⟩
  · rw [before]
    exact fun idle => busy (congrArg CoreSt.phase idle)
  · rw [before]
    exact fun idle => CoreSt.fenceCtx_busy busy (congrArg CoreSt.phase idle)

/-- A core that ran a flight of the context has stopped. -/
theorem CoreSt.fenceCtx_of_mine {k : CoreSt} {p h : Nat} (part : k.part = p) (ctx : k.ctx = h) (busy : k.phase ≠ .idle) :
    (k.fenceCtx p h).phase = .halted ∧ (k.fenceCtx p h).ctrlq = [] := by
  unfold CoreSt.fenceCtx
  dsimp only
  rw [if_pos ⟨part, ctx, busy⟩]
  exact ⟨rfl, rfl⟩

/-- Settles O28: the epoch rises by one, and the context's cores stop. -/
theorem theFenceMakesOldRequestsStale : Obligations.TheFenceMakesOldRequestsStale := by
  intro s p h x here alone faulted clear
  refine ⟨_, exec_contextFence_alone here faulted clear alone, ?_, ?_, fun c busy part ctx => ?_,
    State.fenceCtx_keeps s.sameMemories_stable ⟨rfl, rfl⟩⟩
  · simp [State.epochOk, State.epochOf, State.fenceCtx_ctx here]
  · simp [State.epochOk, State.epochOf, State.fenceCtx_ctx here]
  · obtain ⟨waiting, core⟩ := State.fenceCtx_core here busy
    rw [core]
    exact CoreSt.fenceCtx_of_mine part ctx busy

end Sys2Proof.Machine
end

section
/-! SUPPORT. The control and scalar instructions (R164 to R178): issue by what an instruction comes to, and each instruction's cases. -/

namespace Sys2Proof.Machine

/-! ## Issue by outcomes -/

/-- The outcome of issue on core c of an instruction that comes to `r`. -/
def State.after (s : State) (c : Nat) : Res → Host.Outcome State Fault Refusal
  | .seq t last => .next (t.retire c (s.core c).pc last)
  | .jump t x => .next (t.setCore c ((t.core c).issued (s.core c).pc x (t.core c).loops))
  | .illegal => .next (s.issueFault c 0x03 0x23 (s.core c).word.toNat)
  | .window a => .next (s.issueFault c 0x04 0x24 a)
  | .wait kind => .next (s.setCore c { s.core c with waitKind := kind })
  | .bad t => .next (t.setCore c { (t.core c).issued (s.core c).pc (s.core c).pc (s.core c).loops with phase := .halted })

section
variable {s : State} {c op : Nat} {w : BitVec 56}

theorem State.Ready.issue_after (ready : s.Ready c op w) (f : State → CoreSt → Res) : s.issue c op w f = s.after c (f s (s.core c)) := by
  rw [ready.issue]
  cases f s (s.core c) <;> rfl

@[simp] theorem State.after_seq (t : State) (last : Nat) : s.after c (.seq t last) = .next (t.retire c (s.core c).pc last) := rfl

@[simp] theorem State.after_jump (t : State) (x : Nat) :
    s.after c (.jump t x) = .next (t.setCore c ((t.core c).issued (s.core c).pc x (t.core c).loops)) := rfl

@[simp] theorem State.after_illegal : s.after c .illegal = .next (s.issueFault c 0x03 0x23 (s.core c).word.toNat) := rfl

@[simp] theorem State.after_window (a : Nat) : s.after c (.window a) = .next (s.issueFault c 0x04 0x24 a) := rfl

@[simp] theorem State.after_wait (kind : Nat) : s.after c (.wait kind) = .next (s.setCore c { s.core c with waitKind := kind }) := rfl

@[simp] theorem State.after_bad (t : State) : s.after c (.bad t) =
    .next (t.setCore c { (t.core c).issued (s.core c).pc (s.core c).pc (s.core c).loops with phase := .halted }) := rfl

@[simp] theorem State.after_regionFault (o : Nat) :
    s.after c (s.regionFault c o) = .next (s.issueFault c 0x04 0x24 (scrAddr c ((s.core c).region.off + o))) := rfl

/-- An instruction that puts its core's state completes. -/
@[simp] theorem State.after_put (k : CoreSt) : s.after c (.put s c k) = .next (s.done c k) := rfl

/-- A reserved bit makes a due instruction illegal, whatever it would come to (R165). -/
theorem State.issue_of_reserved (due : s.issueDue c op w = true) (reserved : reservedOk op w = false) (body : State → CoreSt → Res) :
    s.issue c op w body = .next (s.issueFault c 0x03 0x23 (s.core c).word.toNat) := by
  unfold State.issue
  rw [if_pos due]
  simp [reserved]

end

/-- Settles O58: each of these commands issues its word, and a reserved bit stops issue. -/
theorem reservedBitsAreIllegal : Obligations.ReservedBitsAreIllegal := by
  intro s c op w e te cmd row due _ _ _ reserved
  have stops := State.issue_of_reserved due reserved
  simp only [List.mem_cons, List.not_mem_nil, or_false, Prod.mk.injEq] at row
  rcases row with ⟨rfl, rfl⟩ | ⟨rfl, rfl⟩ | ⟨rfl, rfl⟩ | ⟨rfl, rfl⟩ | ⟨rfl, rfl⟩ | ⟨rfl, rfl⟩ | ⟨rfl, rfl⟩ | ⟨rfl, rfl⟩ | ⟨rfl, rfl⟩ |
    ⟨rfl, rfl⟩ | ⟨rfl, rfl⟩ | ⟨rfl, rfl⟩ | ⟨rfl, rfl⟩ | ⟨rfl, rfl⟩ | ⟨rfl, rfl⟩ | ⟨rfl, rfl⟩ | ⟨rfl, rfl⟩ | ⟨rfl, rfl⟩ | ⟨rfl, rfl⟩ |
    ⟨rfl, rfl⟩ | ⟨rfl, rfl⟩ | ⟨rfl, rfl⟩ | ⟨rfl, rfl⟩ | ⟨rfl, rfl⟩ | ⟨rfl, rfl⟩ | ⟨rfl, rfl⟩ | ⟨rfl, rfl⟩ | ⟨rfl, rfl⟩ | ⟨rfl, rfl⟩ |
    ⟨rfl, rfl⟩ | ⟨rfl, rfl⟩ | ⟨rfl, rfl⟩ | ⟨rfl, rfl⟩
  · exact show execNop c w s = _ from stops _
  · exact show execEndFlight c w s = _ from stops _
  · exact show execWtick c w s = _ from stops _
  · exact show execMovi c w s = _ from stops _
  · exact show execMovhi c w s = _ from stops _
  · exact show execSalu c w s = _ from stops _
  · exact show execMovs c w s = _ from stops _
  · exact show execBr c w s = _ from stops _
  · exact show execLoop c w s = _ from stops _
  · exact show execWaitc c w s = _ from stops _
  · exact show execClrc c w s = _ from stops _
  · exact show execQsync c w s = _ from stops _
  · exact show execLdp c w s = _ from stops _
  · exact show execLds c w e s = _ by dsimp only [execLds]; exact stops _
  · exact show execSts c w s = _ from stops _
  · exact show execFence c w s = _ from stops _
  · exact show execSignal c w s = _ from stops _
  · exact show execSload c w e s = _ by dsimp only [execSload]; exact stops _
  · exact show execPass c w e te s = _ by dsimp only [execPass]; exact stops _
  · exact show execDrain c w te s = _ from stops _
  · exact show execValu c w s = _ from stops _
  · exact show execVint c w s = _ from stops _
  · exact show execVcvt c w s = _ from stops _
  · exact show execVfunc c w s = _ from stops _
  · exact show execVred c w s = _ from stops _
  · exact show execVmerge c w s = _ from stops _
  · exact show execVload c w e s = _ by dsimp only [execVload]; exact stops _
  · exact show execVrqst c ⟨w, e⟩ s = _ by dsimp only [execVrqst]; exact stops _
  · exact show execVst c w s = _ from stops _
  · exact show execVmovx c w s = _ from stops _
  · exact show execDma c w e s = _ by dsimp only [execDma]; exact stops _
  · exact show execFill c w s = _ from stops _
  · exact show execCopy c ⟨w, e⟩ s = _ from stops _

/-! ## Scalar registers (R167) -/

theorem SMap.put_put {α : Type} (m : SMap α) (i : Nat) (v u : α) : SMap.put (SMap.put m i v) i u = SMap.put m i u := by
  induction m with
  | nil => simp [SMap.put]
  | cons e t ih =>
    obtain ⟨k, w⟩ := e
    by_cases below : i < k
    · simp [SMap.put, below]
    · by_cases here : i = k
      · simp [SMap.put, here]
      · simp [SMap.put, below, here, ih]

@[simp] theorem CoreSt.xr_zero (k : CoreSt) : k.xr 0 = 0 := rfl

@[simp] theorem CoreSt.setX_zero (k : CoreSt) (v : Word) : k.setX 0 v = k := rfl

theorem CoreSt.xr_setX_same (k : CoreSt) (v : Word) {n : Nat} (some : n ≠ 0) : (k.setX n v).xr n = v := by
  simp [CoreSt.setX, CoreSt.xr, some]

theorem CoreSt.xr_setX_other (k : CoreSt) (v : Word) {n m : Nat} (other : m ≠ n) : (k.setX n v).xr m = k.xr m := by
  unfold CoreSt.setX CoreSt.xr
  split
  · rfl
  · split
    · rfl
    · exact SMap.get_set_other _ _ (Ne.symm other)

/-- Putting a core twice is putting it once, while neither is the core of a reset (whose entry the map drops). -/
theorem State.setCore_setCore (s : State) (c : Nat) {k l : CoreSt} (busyK : k.phase ≠ .idle) (busyL : l.phase ≠ .idle) :
    (s.setCore c k).setCore c l = s.setCore c l := by
  have stays {x : CoreSt} (busy : x.phase ≠ .idle) : x ≠ {} := fun reset => busy (congrArg CoreSt.phase reset)
  simp only [State.setCore, SMap.set, if_neg (stays busyK), if_neg (stays busyL), SMap.put_put]

/-- A core whose instruction is due runs a flight. -/
theorem State.Ready.running {s : State} {c op : Nat} {w : BitVec 56} (ready : s.Ready c op w) : (s.core c).phase = .running := by
  obtain ⟨due, -⟩ := ready
  simp only [State.issueDue, State.canIssue, Bool.and_eq_true, decide_eq_true_eq] at due
  exact due.1.1.1.1.1.1

theorem State.Ready.running_ne_idle {s : State} {c op : Nat} {w : BitVec 56} (ready : s.Ready c op w) : (s.core c).phase ≠ .idle := by
  rw [ready.running]
  exact fun idle => CorePhase.noConfusion idle

/-! ## Moves and arithmetic (R168) -/

section
variable {s : State} {c : CoreId} {w : BitVec 56}

theorem exec_nop (ready : s.Ready c 0x00 w) : exec (.nop c w) s = .next (s.retire c (s.core c).pc (s.core c).pc) :=
  show execNop c w s = _ from ready.issue_after _

theorem exec_movi (ready : s.Ready c 0x03 w) : exec (.movi c w) s =
    .next (s.done c ((s.core c).setX (fieldOf w 55 51) ((BitVec.ofNat 48 (fieldOf w 47 0)).signExtend 64))) :=
  show execMovi c w s = _ from ready.issue_after _

theorem exec_movhi (ready : s.Ready c 0x04 w) : exec (.movhi c w) s =
    .next (s.done c ((s.core c).setX (fieldOf w 55 51) (putBits ((s.core c).xr (fieldOf w 55 51)) 63 48 (fieldOf w 15 0)))) :=
  show execMovhi c w s = _ from ready.issue_after _

theorem exec_movs (ready : s.Ready c 0x06 w) {v : Nat} (other : fieldOf w 7 0 ≠ 9) (value : s.special (s.core c) (fieldOf w 7 0) = some v) :
    exec (.movs c w) s = .next (s.done c ((s.core c).setX (fieldOf w 55 51) (BitVec.ofNat 64 v))) := by
  refine (show execMovs c w s = _ from ready.issue_after _).trans ?_
  simp [other, value]

theorem State.cycleReg_core (s : State) (x : Nat) : s.cycleReg.2.core x = s.core x := by
  unfold State.cycleReg
  split <;> rfl

theorem exec_movs_cycles (ready : s.Ready c 0x06 w) (nine : fieldOf w 7 0 = 9) :
    exec (.movs c w) s = .next (s.cycleReg.2.done c ((s.core c).setX (fieldOf w 55 51) s.cycleReg.1)) := by
  refine (show execMovs c w s = _ from ready.issue_after _).trans ?_
  simp only [nine, if_true]
  rw [State.done, State.cycleReg_core]
  rfl

theorem exec_salu_imm (ready : s.Ready c 0x05 w) {v : Word} (imm : fieldOf w 36 36 = 1) (unused : fieldOf w 45 41 = 0)
    (value : saluOp (fieldOf w 40 37) ((s.core c).xr (fieldOf w 50 46)) ((BitVec.ofNat 32 (fieldOf w 31 0)).signExtend 64) = some v) :
    exec (.salu c w) s = .next (s.done c ((s.core c).setX (fieldOf w 55 51) v)) := by
  refine (show execSalu c w s = _ from ready.issue_after _).trans ?_
  simp [imm, unused, signed, value]

theorem exec_salu_reg (ready : s.Ready c 0x05 w) {v : Word} (reg : fieldOf w 36 36 = 0) (unused : fieldOf w 31 0 = 0)
    (value : saluOp (fieldOf w 40 37) ((s.core c).xr (fieldOf w 50 46)) ((s.core c).xr (fieldOf w 45 41)) = some v) :
    exec (.salu c w) s = .next (s.done c ((s.core c).setX (fieldOf w 55 51) v)) := by
  refine (show execSalu c w s = _ from ready.issue_after _).trans ?_
  simp [reg, unused, value]

end

/-- Settles O1: each instruction's one outcome where nothing refuses it. -/
theorem scalarInstructionsWriteTheirDestination : Obligations.ScalarInstructionsWriteTheirDestination :=
  ⟨fun _ _ _ => ⟨exec_nop, exec_movi, exec_movhi, fun ready _ => exec_movs ready, exec_movs_cycles⟩,
    fun _ _ _ _ ready => ⟨exec_salu_imm ready, exec_salu_reg ready⟩⟩

/-- Settles O59: register 0 is not stored, so MOVI to it leaves the core as it is. -/
theorem writesToRegisterZeroAreDiscarded : Obligations.WritesToRegisterZeroAreDiscarded := by
  refine ⟨fun k v n => ⟨k.xr_zero, k.setX_zero v, fun some => ⟨k.xr_setX_same v some, fun m other => k.xr_setX_other v other⟩⟩, ?_⟩
  intro s c w ready zero
  rw [exec_movi ready, zero, CoreSt.setX_zero, State.done, State.retire, State.setCore_same]
  exact congrArg _ (State.setCore_setCore _ _ ready.running_ne_idle (l := (s.core c).issued _ _ _) ready.running_ne_idle)

end Sys2Proof.Machine
end

section
/-! SUPPORT. Branches, loops, waits, fences and the control queue (R169 to R177): each instruction's outcomes where nothing refuses it. -/

namespace Sys2Proof.Machine

/-! ## Branches and loops (R168, R169) -/

section
variable {s : State} {c : CoreId} {w : BitVec 56}

/-- A branch's target lies in a list of bodies: inside the innermost, and the first instruction of none (R169). -/
def targetInside (bs : List (Nat × Nat)) (t : Int) : Bool :=
  match innermost bs with
  | some b => decide ((b.1 : Int) ≤ t ∧ t ≤ b.2) && bs.all fun x => decide ((x.1 : Int) ≠ t)
  | none => true

theorem targetInside_of {bs : List (Nat × Nat)} {t : Int} (inner : ∀ b, innermost bs = some b → b.1 ≤ t ∧ t ≤ b.2)
    (first : ∀ b ∈ bs, (b.1 : Int) ≠ t) : targetInside bs t = true := by
  unfold targetInside
  split
  next b found => simpa [inner b found] using fun a a' mem => first (a, a') mem
  next => rfl

theorem targetInside_false_of {bs : List (Nat × Nat)} {t : Int} {b : Nat × Nat} (found : innermost bs = some b)
    (outside : t < b.1 ∨ b.2 < t ∨ ∃ x ∈ bs, (x.1 : Int) = t) : targetInside bs t = false := by
  unfold targetInside
  rw [found]
  rcases outside with before | after | ⟨x, mem, same⟩
  · simp [Int.not_le.mpr before]
  · simp [Int.not_le.mpr after]
  · exact Bool.and_eq_false_imp.mpr fun _ => List.all_eq_false.mpr ⟨x, mem, by simp [same]⟩

/-- BR by its condition and its target (R168, R169; log entry 11). -/
theorem exec_br (ready : s.Ready c 0x07 w) {t : Int} (target : ((s.core c).pc : Int) + (BitVec.ofNat 24 (fieldOf w 23 0)).toInt = t) :
    exec (.br c w) s = s.after c
      (match brCond (fieldOf w 45 43) ((s.core c).xr (fieldOf w 55 51)) ((s.core c).xr (fieldOf w 50 46)) with
      | none => .illegal
      | some taken =>
        if t < (s.core c).region.base ∨ ((s.core c).region.base + (s.core c).region.count : Nat) ≤ t ∨
            !targetInside ((s.core c).bodies (s.core c).pc) t then .illegal
        else if taken then .jump s t.toNat
        else .seq s (s.core c).pc) := by
  subst target
  exact show execBr c w s = _ from ready.issue_after _

theorem exec_br_inside (ready : s.Ready c 0x07 w) {t : Int} {taken : Bool}
    (target : ((s.core c).pc : Int) + (BitVec.ofNat 24 (fieldOf w 23 0)).toInt = t)
    (above : (s.core c).region.base ≤ t) (below : t < (s.core c).region.base + (s.core c).region.count)
    (inside : targetInside ((s.core c).bodies (s.core c).pc) t = true)
    (holds : brCond (fieldOf w 45 43) ((s.core c).xr (fieldOf w 55 51)) ((s.core c).xr (fieldOf w 50 46)) = some taken) :
    exec (.br c w) s = s.after c (if taken then .jump s t.toNat else .seq s (s.core c).pc) := by
  rw [exec_br ready target, holds, inside]
  simp [not_lt.mpr above, not_le.mpr below]

/-- A branch that names a target outside the image, or one that its bodies refuse, is illegal either way (R169; log entry 11). -/
theorem exec_br_outside (ready : s.Ready c 0x07 w) {t : Int} (target : ((s.core c).pc : Int) + (BitVec.ofNat 24 (fieldOf w 23 0)).toInt = t)
    (outside : t < (s.core c).region.base ∨ ((s.core c).region.base + (s.core c).region.count : Nat) ≤ t ∨
      !targetInside ((s.core c).bodies (s.core c).pc) t) :
    exec (.br c w) s = .next (s.issueFault c 0x03 0x23 (s.core c).word.toNat) := by
  rw [exec_br ready target]
  cases brCond (fieldOf w 45 43) ((s.core c).xr (fieldOf w 55 51)) ((s.core c).xr (fieldOf w 50 46)) with
  | none => rfl
  | some taken => dsimp only; rw [if_pos outside]; rfl

/-- LOOP by its length, its end and its count (R169). -/
theorem exec_loop (ready : s.Ready c 0x08 w) : exec (.loop c w) s = s.after c
    (if fieldOf w 12 0 = 0 ∨ (s.core c).region.base + (s.core c).region.count ≤ (s.core c).pc + fieldOf w 12 0 ∨ (s.core c).loops.length ≥ 4 ∨
        ((s.core c).bodies (s.core c).pc).any fun b => decide (b.2 < (s.core c).pc + fieldOf w 12 0) then .illegal
    else if ((s.core c).xr (fieldOf w 55 51)).toNat = 0 then .seq s ((s.core c).pc + fieldOf w 12 0)
    else .put s c { s.core c with
      loops := { first := (s.core c).pc + 1, last := (s.core c).pc + fieldOf w 12 0, left := ((s.core c).xr (fieldOf w 55 51)).toNat } ::
        (s.core c).loops }) :=
  show execLoop c w s = _ from ready.issue_after _

theorem exec_loop_inside (ready : s.Ready c 0x08 w) (some : fieldOf w 12 0 ≠ 0)
    (image : (s.core c).pc + fieldOf w 12 0 < (s.core c).region.base + (s.core c).region.count) (room : (s.core c).loops.length < 4)
    (inside : ∀ b ∈ (s.core c).bodies (s.core c).pc, (s.core c).pc + fieldOf w 12 0 ≤ b.2) :
    exec (.loop c w) s = s.after c (if ((s.core c).xr (fieldOf w 55 51)).toNat = 0 then .seq s ((s.core c).pc + fieldOf w 12 0)
      else .put s c { s.core c with
        loops := { first := (s.core c).pc + 1, last := (s.core c).pc + fieldOf w 12 0, left := ((s.core c).xr (fieldOf w 55 51)).toNat } ::
          (s.core c).loops }) := by
  have fits : (((s.core c).bodies (s.core c).pc).any fun b => decide (b.2 < (s.core c).pc + fieldOf w 12 0)) = false :=
    List.any_eq_false.mpr fun b mem => by simpa using inside b mem
  rw [exec_loop ready, fits, if_neg]
  simp only [Bool.false_eq_true, or_false]
  omega

theorem exec_endFlight (ready : s.Ready c 0x01 w) : exec (.endFlight c w) s =
    s.after c (if (s.core c).bodies (s.core c).pc ≠ [] then .illegal else .put s c { s.core c with phase := .ended }) :=
  show execEndFlight c w s = _ from ready.issue_after _

theorem exec_wtick (ready : s.Ready c 0x02 w) : exec (.wtick c w) s =
    s.after c (if (s.core c).bodies (s.core c).pc ≠ [] then .illegal
      else .put s c { s.core c with phase := .atWtick, resumeTick := s.tickNo.toNat + 1 }) :=
  show execWtick c w s = _ from ready.issue_after _

end

/-- Settles O2: each instruction by what its state decides, with the target inside or outside. -/
theorem controlFlowGoesWhereItSays : Obligations.ControlFlowGoesWhereItSays := by
  refine ⟨fun s c w => ⟨fun ready t target => ⟨fun above below inner first => ?_, fun outside => ?_⟩,
    fun ready some image room inside => ?_⟩, fun s c w => ⟨?_, ?_, ?_, ?_⟩⟩
  · have branch (taken : Bool) := exec_br_inside (taken := taken) ready target above below (targetInside_of inner first)
    exact ⟨branch true, branch false⟩
  · exact exec_br_outside ready target (by omega)
  · rw [exec_loop_inside ready some image room inside]
    refine ⟨fun zero => ?_, fun more => ?_⟩
    · simp [zero]
    · have count : ((s.core c).xr (fieldOf w 55 51)).toNat ≠ 0 := fun none => more (BitVec.eq_of_toNat_eq none)
      rw [if_neg count, State.after_put]
  all_goals intro ready bodies
  · simp [exec_endFlight ready, bodies]
  · simp [exec_endFlight ready, bodies]
  · simp [exec_wtick ready, bodies]
  · simp [exec_wtick ready, bodies]

/-! ## Waits and fences (R173 to R175, R228 to R231) -/

section
variable {s : State} {c : CoreId} {w : BitVec 56}

theorem exec_waitc (ready : s.Ready c 0x09 w) : exec (.waitc c w) s = s.after c
    (if ((s.core c).xr (fieldOf w 55 51)).toNat ≤ ((s.core c).cntr (fieldOf w 50 47)).toNat ∧ !s.acquireWaits c then .seq s (s.core c).pc
      else .wait 2) :=
  show execWaitc c w s = _ from ready.issue_after _

theorem exec_clrc (ready : s.Ready c 0x0A w) : exec (.clrc c w) s =
    .next (s.done c { s.core c with cnt := SMap.set 0 (s.core c).cnt (fieldOf w 50 47) 0 }) :=
  show execClrc c w s = _ from ready.issue_after _

theorem exec_qsync (ready : s.Ready c 0x0B w) : exec (.qsync c w) s = s.after c
    (if (bit (fieldOf w 3 0) 3 && !(s.core c).ctrlq.isEmpty) || (bit (fieldOf w 3 0) 2 && !(s.core c).ents.isEmpty) || s.acquireWaits c
      then .wait 5 else .seq s (s.core c).pc) :=
  show execQsync c w s = _ from ready.issue_after _

/-- What a fence of a scope that exists comes to, by its form (R175, R228 to R230). -/
def State.fenceOf (s : State) (c scope form : Nat) : Res :=
  match form with
  | 1 =>
    if 16 ≤ (s.core c).ctrlq.length then .wait 4
    else .put s c { s.core c with ctrlq := (s.core c).ctrlq ++ [.fence scope (s.core c).stamp], stamp := (s.core c).stamp + 1 }
  | 2 => if s.acquireWaits c then .wait 1 else .seq s (s.core c).pc
  | 3 =>
    if !(s.core c).ctrlq.isEmpty || s.releaseWaits c scope (s.core c).stamp || s.acquireWaits c then .wait 1 else .seq s (s.core c).pc
  | _ => .illegal

theorem exec_fence (ready : s.Ready c 0x13 w) (scope : fieldOf w 55 54 ≠ 3) :
    exec (.fence c w) s = s.after c (s.fenceOf c (fieldOf w 55 54) (fieldOf w 53 52)) := by
  refine (show execFence c w s = _ from ready.issue_after _).trans (congrArg _ ?_)
  unfold State.fenceOf
  dsimp only
  split
  next three => exact absurd three scope
  all_goals simp_all

theorem exec_fence_scope3 (ready : s.Ready c 0x13 w) (scope : fieldOf w 55 54 = 3) : exec (.fence c w) s = s.after c .illegal := by
  refine (show execFence c w s = _ from ready.issue_after _).trans (congrArg _ ?_)
  simp [scope]

end

/-- Settles O3: each wait by what it waits for, the fences by their form, and the arrivals by their epoch. -/
theorem waitsFencesAndSignalsComplete : Obligations.WaitsFencesAndSignalsComplete := by
  refine ⟨fun s c w => ⟨fun ready => ⟨fun reached none => ?_, fun out => ?_⟩, exec_clrc, fun ready => ⟨fun queue ents none => ?_, fun out => ?_⟩⟩,
    fun s c w => ⟨fun ready scope => ?_, fun scope stamp t e head free thaw epoch => ?_, fun i g sent epoch => ?_, fun i g sent epoch => ?_⟩⟩
  · simp [exec_waitc ready, reached, none]
  · rw [exec_waitc ready, if_neg, State.after_wait]
    rintro ⟨reached, none⟩
    rcases out with short | waits
    · omega
    · simp [waits] at none
  · rw [exec_qsync ready, if_neg, State.after_seq]
    simp only [Bool.or_eq_true, Bool.and_eq_true, Bool.not_eq_true', List.isEmpty_eq_false_iff]
    rintro ((⟨three, some⟩ | ⟨two, some⟩) | waits)
    · exact some (queue three)
    · exact some (ents two)
    · simp [waits] at none
  · rw [exec_qsync ready, if_pos, State.after_wait]
    rcases out with ⟨three, some⟩ | ⟨two, some⟩ | waits
    · simp [three, some]
    · simp [two, some]
    · simp [waits]
  · rw [exec_fence ready (by omega)]
    refine ⟨fun form room => ?_, fun form none => ?_, fun form waits => ?_, fun form empty free none => ?_, fun form out => ?_⟩ <;>
      rw [form, State.fenceOf]
    · rw [if_neg (by omega), State.after_put]
    · simp [none]
    · simp [waits]
    · simp [empty, free, none]
    · rw [if_pos, State.after_wait]
      rcases out with some | waits | waits
      · simp [some]
      · simp [waits]
      · simp [waits]
  · show execFenceReleaseDone c e s = _
    simp [execFenceReleaseDone, head, free, thaw, epoch]
  · show execSignalDelivery i s = _
    simp only [execSignalDelivery, sent]
    exact if_pos epoch
  · show execSignalDelivery i s = _
    simp only [execSignalDelivery, sent]
    exact if_neg fun fresh => Bool.false_ne_true (epoch.symm.trans fresh)

/-! ## The control queue (R170, R171, R174) -/

section
variable {s : State} {c : Nat} {o : CtrlOp}

theorem State.toCtrl_empty (empty : (s.core c).ctrlq = []) : s.toCtrl c o = .seq (s.runCtrl c o) (s.core c).pc := by
  simp [State.toCtrl, empty]

theorem State.toCtrl_behind (some : (s.core c).ctrlq ≠ []) (room : (s.core c).ctrlq.length < 16) :
    s.toCtrl c o = .put s c { s.core c with ctrlq := (s.core c).ctrlq ++ [o] } := by
  simp [State.toCtrl, some, Nat.not_le.mpr room, Res.put]

theorem State.toCtrl_full (full : 16 ≤ (s.core c).ctrlq.length) : s.toCtrl c o = .wait 4 := by
  simp [State.toCtrl, full]

end

section
variable {s : State} {c : CoreId} {w : BitVec 56} {a : Nat}

theorem exec_ldp (ready : s.Ready c 0x10 w) {f : FlightSt} (flight : s.flight (s.core c).flight = some f)
    (addr : a = ((s.core c).xr (fieldOf w 50 46) + BitVec.ofNat 64 (fieldOf w 19 0)).toNat) :
    exec (.ldp c w) s = s.after c (if a % 8 ≠ 0 ∨ 8 * f.params.length < a + 8 then .illegal
      else (s.setCore c { s.core c with pcache := cacheLine (s.core c).pcache a }).toCtrl c
        (.param (fieldOf w 55 51) (f.params.getD (a / 8) 0))) := by
  refine (show execLdp c w s = _ from ready.issue_after _).trans (congrArg _ ?_)
  simp only [flight, addr]

theorem exec_lds (ready : s.Ready c 0x11 w) (addr : a = ((s.core c).xr (fieldOf w 50 46) + BitVec.ofNat 64 (fieldOf w 22 0)).toNat)
    (e : PhysErr) : exec (.lds c w e) s = s.after c
      (if a % 8 ≠ 0 then .illegal
      else if !s.inRegion c a 8 then s.regionFault c a
      else if 16 ≤ (s.core c).ctrlq.length then .wait 4
      else if (s.core c).ctrlq.isEmpty then
        if (s.scrEcc c ((s.core c).region.off + a) 8 (wordEcc e)).2 then .bad (s.scrEcc c ((s.core c).region.off + a) 8 (wordEcc e)).1
        else (s.scrEcc c ((s.core c).region.off + a) 8 (wordEcc e)).1.toCtrl c (.load (fieldOf w 55 51) ((s.core c).region.off + a))
      else s.toCtrl c (.load (fieldOf w 55 51) ((s.core c).region.off + a))) := by
  subst addr
  exact show execLds c w e s = _ by dsimp only [execLds]; exact ready.issue_after _

theorem exec_sts (ready : s.Ready c 0x12 w) (addr : a = ((s.core c).xr (fieldOf w 50 46) + BitVec.ofNat 64 (fieldOf w 22 0)).toNat) :
    exec (.sts c w) s = s.after c
      (if a % 8 ≠ 0 then .illegal
      else if !s.inRegion c a 8 then s.regionFault c a
      else s.toCtrl c (.store ((s.core c).region.off + a) ((s.core c).xr (fieldOf w 55 51)))) := by
  subst addr
  exact show execSts c w s = _ from ready.issue_after _

theorem exec_signal (ready : s.Ready c 0x14 w) {r : Region} (slot : (s.core c).slotTab[((s.core c).xr (fieldOf w 55 51)).toNat]? = some r) :
    exec (.signal c w) s = s.after c (if fieldOf w 15 0 = 0 then .illegal
      else s.toCtrl c (.signal r.core (fieldOf w 50 47) (fieldOf w 15 0))) := by
  refine (show execSignal c w s = _ from ready.issue_after _).trans (congrArg _ ?_)
  simp only [slot]

theorem exec_signal_noSlot (ready : s.Ready c 0x14 w) (slot : (s.core c).slotTab[((s.core c).xr (fieldOf w 55 51)).toNat]? = none) :
    exec (.signal c w) s = s.after c .illegal := by
  refine (show execSignal c w s = _ from ready.issue_after _).trans (congrArg _ ?_)
  simp only [slot]

end

/-- Settles O4: each access by its legal address, and by what the control queue holds. -/
theorem controlQueueAccessesComplete : Obligations.ControlQueueAccessesComplete := by
  intro s c w
  refine ⟨fun o => s.done c { s.core c with ctrlq := (s.core c).ctrlq ++ [o] }, fun _ => rfl, ?_, ?_, ?_, ?_⟩
  · intro f a ready flight addr aligned inside
    have legal : ¬ (a % 8 ≠ 0 ∨ 8 * f.params.length < a + 8) := by omega
    rw [exec_ldp ready flight addr, if_neg legal]
    refine ⟨fun empty => ?_, ?_⟩
    · rw [State.toCtrl_empty (by simpa using empty)]
      simp
    · rintro v rfl some
      refine ⟨fun room => ?_, fun full => ?_⟩
      · rw [State.toCtrl_behind (by simpa using some) (by simpa using room)]
        simp [Res.put]
      · rw [State.toCtrl_full (by simpa using full), State.after_wait]
  · intro a e ready addr aligned inside
    rw [exec_lds ready addr e, if_neg (not_not.mpr aligned), inside]
    refine ⟨fun u empty read free => ?_, fun some room => ?_, fun full => ?_⟩
    · simp [empty, read, State.toCtrl_empty free, State.runCtrl]
    · simp [some, Nat.not_le.mpr room, State.toCtrl_behind some room]
    · simp [full]
  · intro a ready addr aligned inside
    rw [exec_sts ready addr, if_neg (not_not.mpr aligned), inside]
    refine ⟨fun empty => ?_, fun some room => ?_, fun full => ?_⟩
    · simp only [Bool.not_true, Bool.false_eq_true, if_false, State.toCtrl_empty empty]
      rfl
    · simp [State.toCtrl_behind some room]
    · simp [State.toCtrl_full full]
  · intro r ready inc slot
    rw [exec_signal ready slot, if_neg inc]
    refine ⟨fun empty => ?_, fun some room => ?_, fun full => ?_⟩
    · simp [State.toCtrl_empty empty, State.runCtrl]
    · simp [State.toCtrl_behind some room]
    · simp [State.toCtrl_full full]


end Sys2Proof.Machine
end

section
/-! SUPPORT. The array and vector instructions (R142 to R150, R179 to R186): each one's completion where nothing refuses it. -/

namespace Sys2Proof.Machine

/-! ## The array (R179 to R181) -/

section
variable {s u v : State} {c : CoreId} {w : BitVec 56} {e : PhysErr} {te : TileErr} {t : TDesc} {f : Fmt}

theorem exec_sload_done {mov : Fmt} {acc : AccFmt} {r a n : Nat} (ready : s.Ready c 0x20 w)
    (desc : s.tdesc c ((s.core c).xr (fieldOf w 50 46)).toNat (wordEcc e) = .ok (u, t, f))
    (movFmt : Fmt.ofCode (fieldOf w 45 42) = some mov) (accFmt : AccFmt.ofCode (fieldOf w 41 40) = some acc)
    (rate : pairRate f mov acc = some r) (rows : fieldOf w 39 31 + 1 ≤ 128 * r) (addr : a = ((s.core c).xr (fieldOf w 55 51)).toNat)
    (aligned : a % 512 = 0) (size : n = (stationaryBytes f r t.zpMode).1 + (stationaryBytes f r t.zpMode).2)
    (inside : u.inRegion c a n = true) (read : u.scrEcc c ((s.core c).region.off + a) n (wordEcc e) = (v, false)) :
    exec (.sload c w e) s = .next (((v.setCore c { v.core c with
      stat := some ((v.core c).readStat ((s.core c).region.off + a) f mov acc r (fieldOf w 39 31 + 1) (fieldOf w 30 24 + 1) t.zpMode t.zp),
      arrayP := ((v.core c).arrayP + 1) % 2 ^ 64 }).perf c 0x04 1).retire c (s.core c).pc (v.core c).pc) := by
  subst addr size
  change execSload c w e s = _
  simp only [execSload, ready.issue_after, desc, movFmt, accFmt, rate, inside, read]
  rw [if_neg (by omega)]
  rfl

theorem exec_pass_done {st : StatTile} {acc : AccFmt} {a m tile en sn : Nat} {v2 v3 : State} (ready : s.Ready c 0x21 w)
    (desc : s.tdesc c ((s.core c).xr (fieldOf w 50 46)).toNat (wordEcc e) = .ok (u, t, f)) (stat : (s.core c).stat = some st)
    (accFmt : AccFmt.ofCode (fieldOf w 32 31) = some acc) (addr : a = ((s.core c).xr (fieldOf w 55 51)).toNat)
    (rows : m = fieldOf w 40 34 + 1) (tiles : tile = fieldOf w 45 41) (sameMov : f = st.mov) (sameAcc : acc = st.acc)
    (legal : tileLegal acc tile = true) (aligned : a % 512 = 0) (opened : fieldOf w 33 33 = 1 ∨ (s.core c).tileOpen acc tile = true)
    (elems : en = (if f = .f32 then 512 * m
      else 512 * ((m + 127 + (groupsPerWord f.width st.rate).1 - 1) / (groupsPerWord f.width st.rate).1)))
    (inside : u.inRegion c a en = true) (sides : sn = (if t.zpMode = 2 then 16 * m else 16 * (m + 128 - cellRows st.rate)))
    (scaled : hasScales f t.zpMode = true → t.scaleOff % 16 = 0 ∧ u.inRegion c t.scaleOff sn = true)
    (read : u.scrReads c (movWords ((s.core c).region.off + a) f st.rate st.kw m ++
      movSides ((s.core c).region.off + t.scaleOff) f t.zpMode st.rate st.kw m) (wordEcc e) = (v2, false))
    (tileRead : v2.tileErr c tile (if fieldOf w 33 33 = 1 then [] else tileHalves acc tile) te = (v3, false)) :
    exec (.pass c w e te) s = .next ((((v3.setCore c
      { ((v3.core c).passRows t f st acc tile m a (fieldOf w 33 33 = 1)).1 with
        arrayP := ((v3.core c).arrayP + m) % 2 ^ 64 }).countDots c
      ((v3.core c).passRows t f st acc tile m a (fieldOf w 33 33 = 1)).2).perf c 0x02 m).retire c (s.core c).pc (v3.core c).pc) := by
  have takes : ¬ (f ≠ st.mov ∨ acc ≠ st.acc ∨ (!tileLegal acc tile) = true ∨ a % 512 ≠ 0 ∨
      (hasScales f t.zpMode && decide (t.scaleOff % 16 ≠ 0)) = true ∨
      (!decide (fieldOf w 33 33 = 1) && !(s.core c).tileOpen acc tile) = true) := by
    rintro (mov | other | outside | astray | broken | closed)
    · exact mov sameMov
    · exact other sameAcc
    · simp [legal] at outside
    · exact astray aligned
    · obtain ⟨has, astray⟩ := Bool.and_eq_true_iff.mp broken
      exact absurd (scaled has).1 (by simpa using astray)
    · rcases opened with opening | opened <;> simp_all
  have sidesInside : (hasScales f t.zpMode && !u.inRegion c t.scaleOff sn) = false := by
    cases has : hasScales f t.zpMode
    · rfl
    · simp [(scaled has).2]
  subst addr rows tiles elems sides
  change execPass c w e te s = _
  simp only [execPass, ready.issue_after, desc, stat, accFmt]
  rw [if_neg takes]
  simp only [inside, sidesInside, read, tileRead]
  rfl

theorem exec_drain_done {f : AccFmt} {tile : Nat} {half : Bool} {out : Option Nat} (ready : s.Ready c 0x30 w) (tiles : tile = fieldOf w 55 51)
    (halves : half = decide (fieldOf w 35 35 = 1)) (opened : (s.core c).drainTile tile half (fieldOf w 28 28 = 1) = some f)
    (rows : fieldOf w 50 44 + (fieldOf w 43 37 + 1) ≤ (if half then 64 else 128)) (toReg : fieldOf w 34 34 = 0 → out = none)
    (toScr : fieldOf w 34 34 = 1 → ∃ a, a = ((s.core c).xr (fieldOf w 33 29)).toNat ∧ a % 4 = 0 ∧
      s.inRegion c a ((fieldOf w 43 37 + 1) * (if f = .bf16 then 256 else 512)) = true ∧ out = some ((v.core c).region.off + a))
    (read : s.tileErr c (if half then tile / 2 else tile) (if half then [tile] else tileHalves f tile) te = (v, false)) :
    exec (.drain c w te) s = .next (((v.setCore c ((v.core c).drainTo f tile half (fieldOf w 50 44) (fieldOf w 43 37 + 1)
      (fieldOf w 33 29) out (fieldOf w 36 36 = 1))).vecDone c).retire c (s.core c).pc (v.core c).pc) := by
  subst tiles halves
  change execDrain c w te s = _
  simp only [decide_eq_true_eq] at rows read
  simp only [execDrain, ready.issue_after, opened, read]
  rw [if_neg (by omega)]
  by_cases scr : fieldOf w 34 34 = 1
  · obtain ⟨a, rfl, aligned, inside, rfl⟩ := toScr scr
    simp only [scr, aligned, inside]
    simp
  · have zero : fieldOf w 34 34 = 0 := by
      have bit : fieldOf w 34 34 < 2 := Nat.mod_lt _ (by decide)
      omega
    simp [scr, toReg zero]

end

/-- Settles O5: each instruction's path through its checks. -/
theorem arrayInstructionsComplete : Obligations.ArrayInstructionsComplete := by
  intro s u v c w e te
  refine ⟨fun t f mov acc r a n => exec_sload_done, fun t f st acc a m tile en sn v2 v3 => exec_pass_done, fun f tile half out => exec_drain_done⟩

/-! ## The lanes (R148 to R150, R182, R183) -/

section
variable {s : State} {c : CoreId} {w : BitVec 56}

/-- An instruction that puts a vector register completes. -/
@[simp] theorem State.after_putV (n : Nat) (v : List Lane) : s.after c (.putV s c (s.core c) n v) = .next (s.vecOut c n v) := rfl

theorem exec_valu (ready : s.Ready c 0x31 w) : exec (.valu c w) s = s.after c
    (if 11 < fieldOf w 35 30 ∨
        !unusedZero w (fieldOf w 35 30 ≠ 6 && fieldOf w 35 30 ≠ 7) (fieldOf w 35 30 = 3 || fieldOf w 35 30 = 11) false then .illegal
      else .putV s c (s.core c) (fieldOf w 55 51) (lanes3 (valuLane (fieldOf w 35 30)) ((s.core c).vr (fieldOf w 50 46))
        ((s.core c).operandB w) ((s.core c).vr (fieldOf w 40 36)))) :=
  show execValu c w s = _ from ready.issue_after _

theorem exec_vint (ready : s.Ready c 0x32 w) : exec (.vint c w) s = s.after c
    (if 11 < fieldOf w 35 30 ∨ !unusedZero w true (fieldOf w 35 30 = 11) false then .illegal
      else .putV s c (s.core c) (fieldOf w 55 51) (lanes3 (vintLane (fieldOf w 35 30)) ((s.core c).vr (fieldOf w 50 46))
        ((s.core c).operandB w) ((s.core c).vr (fieldOf w 40 36)))) :=
  show execVint c w s = _ from ready.issue_after _

/-- The conversions that VCVT makes of a register (R183). -/
def CoreSt.vcvtConvs (k : CoreSt) (w : BitVec 56) (f : Fmt) : List Conv :=
  (k.vr (fieldOf w 50 46)).map fun a =>
    f.encode (if fieldOf w 24 23 = 0 then .rne else .rtz) (fieldOf w 22 22 = 1) 0 (vcvtSource (fieldOf w 35 30) a)

theorem exec_vcvt (ready : s.Ready c 0x33 w) {f : Fmt} (fmt : Fmt.ofCode (fieldOf w 28 25) = some f) : exec (.vcvt c w) s = s.after c
    (if 3 < fieldOf w 35 30 ∨ 1 < fieldOf w 24 23 ∨ !(f = .f32 || f = .i32 || f = .bf16 || f = .f16) ∨ !unusedZero w false false true
      then .illegal
      else .putV (s.perf c 0x0E (((s.core c).vcvtConvs w f).countP Conv.inv)) c
        ((s.perf c 0x0E (((s.core c).vcvtConvs w f).countP Conv.inv)).core c) (fieldOf w 55 51)
        (((s.core c).vcvtConvs w f).map fun x => BitVec.ofNat 32 x.code)) := by
  refine (show execVcvt c w s = _ from ready.issue_after _).trans (congrArg _ ?_)
  simp only [fmt]
  rfl

theorem exec_vcvt_noFmt (ready : s.Ready c 0x33 w) (fmt : Fmt.ofCode (fieldOf w 28 25) = none) :
    exec (.vcvt c w) s = s.after c .illegal := by
  refine (show execVcvt c w s = _ from ready.issue_after _).trans (congrArg _ ?_)
  simp only [fmt]

theorem exec_vfunc (ready : s.Ready c 0x34 w) : exec (.vfunc c w) s = s.after c
    (if 4 < fieldOf w 35 30 ∨ !unusedZero w false false false then .illegal
      else .putV s c (s.core c) (fieldOf w 55 51) (((s.core c).vr (fieldOf w 50 46)).map (vfuncLane (fieldOf w 35 30)))) :=
  show execVfunc c w s = _ from ready.issue_after _

theorem exec_vmerge (ready : s.Ready c 0x36 w) : exec (.vmerge c w) s = s.after c
    (if fieldOf w 35 30 ≠ 0 then .illegal
      else .putV s c (s.core c) (fieldOf w 55 51) (vMerge ((s.core c).vr (fieldOf w 50 46)) ((s.core c).vr (fieldOf w 45 41))
        (((s.core c).xr (fieldOf w 40 36)).toNat % 2 ^ 32))) :=
  show execVmerge c w s = _ from ready.issue_after _

/-- What a VMOVX comes to, by its form (R182). -/
def State.vmovxOf (s : State) (c : Nat) (w : BitVec 56) (form : Nat) : Res :=
  match form with
  | 0 => .putV s c (s.core c) (fieldOf w 55 51) (List.replicate 128 (((s.core c).xr (fieldOf w 50 46)).setWidth 32))
  | 1 => .seq ((s.setCore c ((s.core c).setX (fieldOf w 55 51)
      ((((s.core c).vr (fieldOf w 50 46)).getD (fieldOf w 22 16) 0).setWidth 64))).vecDone c) (s.core c).pc
  | 2 => .putV s c (s.core c) (fieldOf w 55 51) (((s.core c).vr (fieldOf w 55 51)).set (fieldOf w 22 16)
      (((s.core c).xr (fieldOf w 50 46)).setWidth 32))
  | _ => .illegal

theorem exec_vmovx (ready : s.Ready c 0x3A w) : exec (.vmovx c w) s = s.after c (s.vmovxOf c w (fieldOf w 35 30)) :=
  show execVmovx c w s = _ from ready.issue_after _

end

/-- Settles O6: each lane instruction with a code that exists and unused fields 0. -/
theorem laneInstructionsComplete : Obligations.LaneInstructionsComplete := by
  refine ⟨fun s c w => ⟨fun ready code unused => ?_, fun ready code unused => ?_, ?_, fun ready code unused => ?_⟩,
    fun s c w => ⟨fun ready unused => ⟨exec_vred_sum ready unused, exec_vred_max ready unused⟩, fun ready code => ?_, fun ready => ?_⟩⟩
  · rw [exec_valu ready, if_neg (by rw [unused]; simpa using code), State.after_putV]
  · rw [exec_vint ready, if_neg (by rw [unused]; simpa using code), State.after_putV]
  · rintro f _ ready fmt long code mode unused rfl
    have takes : ¬ (3 < fieldOf w 35 30 ∨ 1 < fieldOf w 24 23 ∨ (!(f = .f32 || f = .i32 || f = .bf16 || f = .f16)) = true ∨
        (!unusedZero w false false true) = true) := by
      rw [unused]
      rcases long with rfl | rfl | rfl | rfl <;> simp <;> omega
    rw [exec_vcvt ready fmt, if_neg takes]
    simp only [Res.putV, State.after_seq, State.vecOut, State.perf_core, CoreSt.vcvtConvs]
  · rw [exec_vfunc ready, if_neg (by rw [unused]; simpa using code), State.after_putV]
  · rw [exec_vmerge ready, if_neg (not_not.mpr code), State.after_putV]
  · rw [exec_vmovx ready]
    refine ⟨fun form => ?_, fun form => ?_, fun form => ?_⟩ <;> rw [form] <;> rfl

end Sys2Proof.Machine
end

section
/-! SUPPORT. The vector unit's loads and stores, and the queuing of DMA, FILL and COPY (R184 to R189, R550). -/

namespace Sys2Proof.Machine

section
variable {s u v : State} {c : CoreId} {w : BitVec 56} {e : PhysErr} {t : TDesc} {f : Fmt} {a xc n : Nat}

theorem exec_vload_done (ready : s.Ready c 0x37 w)
    (desc : s.tdesc c ((s.core c).xr (fieldOf w 45 41)).toNat (wordEcc e) = .ok (u, t, f)) (addr : a = ((s.core c).xr (fieldOf w 50 46)).toNat)
    (chan : xc = ((s.core c).xr (fieldOf w 40 36)).toNat) (aligned : a % 4 = 0) (size : n = elemBytes f.width 128)
    (inside : u.firstOutside c ((a, n) :: t.sideRanges f xc 128 false) = none)
    (read : u.scrReads c (((s.core c).region.off + a, n) ::
      (t.sideRanges f xc 128 false).map fun r => ((s.core c).region.off + r.1, r.2)) (wordEcc e) = (v, false)) :
    exec (.vload c w e) s = .next (((v.setCore c ((v.core c).setV (fieldOf w 55 51) ((List.range 128).map ((s.core c).loadElem t f
      (leNat ((s.core c).scrRead ((s.core c).region.off + a) n)) xc)))).vecDone c).retire c (s.core c).pc (v.core c).pc) := by
  subst addr chan size
  change execVload c w e s = _
  simp only [execVload, ready.issue_after, desc]
  rw [if_neg (not_not.mpr aligned), inside]
  simp only [read]
  rfl

theorem exec_vst (ready : s.Ready c 0x39 w) (addr : a = ((s.core c).xr (fieldOf w 50 46)).toNat) :
    exec (.vst c w) s = s.after c
      (if a % 4 ≠ 0 then .illegal
      else if !s.inRegion c a 512 then s.regionFault c a
      else .seq ((s.setCore c ((s.core c).scrWrite ((s.core c).region.off + a)
        (((s.core c).vr (fieldOf w 55 51)).map fun l => leBytes 4 l.toNat).flatten)).vecDone c) (s.core c).pc) := by
  subst addr
  exact show execVst c w s = _ from ready.issue_after _

theorem exec_vrqst_done {r : CoreSt × Nat × Nat} (ready : s.Ready c 0x38 w)
    (desc : s.tdesc c ((s.core c).xr (fieldOf w 45 41)).toNat (wordEcc e) = .ok (u, t, f)) (addr : a = ((s.core c).xr (fieldOf w 50 46)).toNat)
    (chan : xc = ((s.core c).xr (fieldOf w 35 31)).toNat) (count : n = fieldOf w 30 24 + 1) (aligned : a % 4 = 0)
    (store : f.isStore = true) (scales : f.blockScaled = false ∨ t.scaleMode ≠ 1)
    (inside : u.firstOutside c ((a, elemBytes f.width n) :: t.sideRanges f xc n true) = none)
    (read : u.scrReads c (if f.blockScaled then [] else
      (t.sideRanges f xc n true).map fun r => ((s.core c).region.off + r.1, r.2)) (wordEcc e) = (v, false))
    (codes : r = (v.core c).requantise w t f (v.scaleOf (v.core c) t) (v.seedOf (v.core c))) :
    exec (.vrqst c ⟨w, e⟩) s = .next (((((v.setCore c r.1).perf c 0x0D r.2.1).perf c 0x0E r.2.2).vecDone c).retire c (s.core c).pc
      (v.core c).pc) := by
  have takes : ¬ (a % 4 ≠ 0 ∨ (!f.isStore) = true ∨ f.blockScaled = true ∧ t.scaleMode = 1) := by
    rintro (astray | noStore | ⟨scaled, mode⟩)
    · exact astray aligned
    · simp [store] at noStore
    · rcases scales with plain | other
      · simp [plain] at scaled
      · exact other mode
  subst addr chan count codes
  change execVrqst c ⟨w, e⟩ s = _
  simp only [execVrqst, ready.issue_after, desc]
  rw [if_neg takes, inside]
  simp only [read]
  rfl

end

/-! ## Queuing on a channel (R188, R189, R550) -/

/-- A store waits in a core's control queue. -/
def CoreSt.storeWaits (k : CoreSt) : Bool := k.ctrlq.any fun o => match o with
  | .store _ _ => true
  | _ => false

section
variable {s u : State} {c : CoreId} {w : BitVec 56} {e : PhysErr} {a n : Nat}

/-- DMA by its address, the control queue, its channel and its descriptor (R188, R550). -/
theorem exec_dma (ready : s.Ready c 0x40 w) (addr : a = ((s.core c).xr (fieldOf w 55 51)).toNat) :
    exec (.dma c w e) s = s.after c
      (if a % 64 ≠ 0 then .illegal
      else if !s.inRegion c a 64 then s.regionFault c a
      else if (s.core c).storeWaits then .wait 7
      else if 8 ≤ ((s.core c).chan (fieldOf w 50 48)).length then .wait 4
      else
        let q := s.scrEcc c ((s.core c).region.off + a) 64 (wordEcc e)
        if q.2 then .bad q.1
        else
          let d : BitVec 512 := BitVec.ofNat 512 (leNat ((s.core c).scrRead ((s.core c).region.off + a) 64))
          let src := (s.core c).slotRegion (dSrcSpace d) (dSrc d)
          let dst := (s.core c).slotRegion (dDstSpace d) (dDst d)
          if !descOk d ∨ (dKind d = 0 ∧ copyOverlaps d src dst) ∨
              ((dKind d = 1 ∨ dKind d = 2) ∧ !layoutDst d c (s.core c).region dst) then .illegal
          else .seq (q.1.setCore c { (q.1.core c).setChan (fieldOf w 50 48) ((q.1.core c).chan (fieldOf w 50 48) ++
            [(q.1.core c).newEnt (.desc d src dst) (dCe d) (dCount d)]) with stamp := (q.1.core c).stamp + 1 }) (q.1.core c).pc) := by
  subst addr
  exact show execDma c w e s = _ by dsimp only [execDma]; exact ready.issue_after _

/-- FILL by its count, its address, the control queue and its channel (R189). -/
theorem exec_fill (ready : s.Ready c 0x41 w) (addr : a = ((s.core c).xr (fieldOf w 55 51)).toNat)
    (count : n = ((s.core c).xr (fieldOf w 50 46)).toNat) :
    exec (.fill c w) s = s.after c
      (if !fillCountOk n ∨ a % 64 ≠ 0 then .illegal
      else if !s.inRegion c a n then s.regionFault c a
      else if (s.core c).storeWaits then .wait 7
      else if 8 ≤ ((s.core c).chan (fieldOf w 40 38)).length then .wait 4
      else .seq (s.joinChan c (fieldOf w 40 38) ((s.core c).newEnt (.fill ((s.core c).region.off + a) n
        (((s.core c).xr (fieldOf w 45 41)).setWidth 32)) (fieldOf w 33 33 = 1) (fieldOf w 37 34))) (s.core c).pc) := by
  subst addr count
  exact show execFill c w s = _ from ready.issue_after _

/-- COPY by its count, its addresses, the control queue and its channel (R189). -/
theorem exec_copy {b : Nat} (ready : s.Ready c 0x42 w) (addr : a = ((s.core c).xr (fieldOf w 55 51)).toNat)
    (source : b = ((s.core c).xr (fieldOf w 50 46)).toNat) (count : n = ((s.core c).xr (fieldOf w 45 41)).toNat) :
    exec (.copy c ⟨w, e⟩) s = s.after c
      (if !fillCountOk n ∨ a % 64 ≠ 0 ∨ b % 64 ≠ 0 ∨ overlap (a, a + n) (b, b + n) then .illegal
      else if !s.inRegion c a n then s.regionFault c a
      else if !s.inRegion c b n then s.regionFault c b
      else if (s.core c).storeWaits then .wait 7
      else if 8 ≤ ((s.core c).chan (fieldOf w 40 38)).length then .wait 4
      else .seq (s.joinChan c (fieldOf w 40 38) ((s.core c).newEnt (.copy ((s.core c).region.off + a) ((s.core c).region.off + b) n
        (wordEcc e)) (fieldOf w 33 33 = 1) (fieldOf w 37 34))) (s.core c).pc) := by
  subst addr source count
  exact show execCopy c ⟨w, e⟩ s = _ from ready.issue_after _

end

/-- Settles O7: the vector unit's memory instructions, and the queuing of the channel instructions by what waits. -/
theorem vectorMemoryAndChannelInstructionsComplete : Obligations.VectorMemoryAndChannelInstructionsComplete := by
  refine ⟨fun s u v c w e => ⟨fun t f a xc n => exec_vload_done, fun a ready addr aligned inside => ?_,
    fun t f r a xc n => exec_vrqst_done⟩, ?_⟩
  · rw [exec_vst ready addr, if_neg (not_not.mpr aligned), inside]
    rfl
  intro s u c w e a n store addr waits aligned
  replace waits : store = (s.core c).storeWaits := waits
  refine ⟨fun ready inside => ?_, fun ready count inRange inside => ?_, fun b ready source count inRange alignedB apart inside insideB => ?_⟩
  · rw [exec_dma ready addr, if_neg (not_not.mpr aligned), inside, ← waits]
    refine ⟨fun d none room read desc legal noOverlap inLayout => ?_, fun some => ?_, fun none full => ?_⟩
    · have takes : ¬ ((!descOk d) = true ∨
          (dKind d = 0 ∧ copyOverlaps d ((s.core c).slotRegion (dSrcSpace d) (dSrc d)) ((s.core c).slotRegion (dDstSpace d) (dDst d)) = true) ∨
          ((dKind d = 1 ∨ dKind d = 2) ∧
            (!layoutDst d c (s.core c).region ((s.core c).slotRegion (dDstSpace d) (dDst d))) = true)) := by
        simp only [legal, Bool.not_true, Bool.false_eq_true, false_or, Bool.not_eq_true']
        exact not_or.mpr ⟨noOverlap, inLayout⟩
      simp only [none, Nat.not_le.mpr room, read, ← desc]
      rw [if_neg takes]
      rfl
    · simp [some]
    · simp [none, full]
  · have takes : ¬ ((!fillCountOk n) = true ∨ a % 64 ≠ 0) := by simp [inRange, aligned]
    rw [exec_fill ready addr count, if_neg takes, inside, ← waits]
    refine ⟨fun none room => ?_, fun some => ?_, fun none full => ?_⟩
    · simp [none, Nat.not_le.mpr room, State.joinChan]
    · simp [some]
    · simp [none, full]
  · have takes : ¬ ((!fillCountOk n) = true ∨ a % 64 ≠ 0 ∨ b % 64 ≠ 0 ∨ overlap (a, a + n) (b, b + n) = true) := by
      simp [inRange, aligned, alignedB, apart]
    rw [exec_copy ready addr source count, if_neg takes, inside, insideB, ← waits]
    refine ⟨fun none room => ?_, fun some => ?_, fun none full => ?_⟩
    · simp [none, Nat.not_le.mpr room, State.joinChan]
    · simp [some]
    · simp [none, full]

end Sys2Proof.Machine
end

section
/-! SUPPORT. The refusals of the instructions (R164 to R194, R202): what makes each one illegal, or a window violation, or meets an
uncorrectable error. -/

namespace Sys2Proof.Machine

/-! ## Codes that name nothing -/

theorem saluOp_eq_none {op : Nat} (beyond : 13 ≤ op) (a b : Word) : saluOp op a b = none := by
  obtain ⟨k, rfl⟩ := Nat.exists_eq_add_of_le' beyond
  rfl

theorem Fmt.ofCode_eq_none {n : Nat} (beyond : 14 ≤ n) : Fmt.ofCode n = none := by
  obtain ⟨k, rfl⟩ := Nat.exists_eq_add_of_le' beyond
  rfl

theorem State.special_eq_none (s : State) (k : CoreSt) {n : Nat} (beyond : 10 ≤ n) : s.special k n = none := by
  obtain ⟨m, rfl⟩ := Nat.exists_eq_add_of_le' beyond
  rfl

theorem State.vmovxOf_illegal (s : State) (c : Nat) (w : BitVec 56) {n : Nat} (beyond : 2 < n) : s.vmovxOf c w n = .illegal := by
  obtain ⟨m, rfl⟩ := Nat.exists_eq_add_of_le' beyond
  rfl

/-! ## Descriptions (R187, R202) -/

section
variable {s u : State} {c o : Nat} {e : Ecc}

theorem State.tdesc_astray (astray : o % 32 ≠ 0) : s.tdesc c o e = .error .illegal := if_pos astray

theorem State.tdesc_outside (aligned : o % 32 = 0) (outside : s.inRegion c o 32 = false) : s.tdesc c o e = .error (s.regionFault c o) := by
  simp [State.tdesc, aligned, outside]

theorem State.tdesc_bad (aligned : o % 32 = 0) (inside : s.inRegion c o 32 = true)
    (read : s.scrEcc c ((s.core c).region.off + o) 32 e = (u, true)) : s.tdesc c o e = .error (.bad u) := by
  simp [State.tdesc, aligned, inside, read]

theorem State.tdesc_broken (aligned : o % 32 = 0) (inside : s.inRegion c o 32 = true)
    (read : s.scrEcc c ((s.core c).region.off + o) 32 e = (u, false))
    (broken : (tdescOf ((s.core c).scrRead ((s.core c).region.off + o) 32)).ok = none) : s.tdesc c o e = .error .illegal := by
  simp [State.tdesc, aligned, inside, read, broken]

end

section
variable {s : State} {c : CoreId} {w : BitVec 56} {e : PhysErr} {r : Res}

theorem exec_sload_tdesc (ready : s.Ready c 0x20 w)
    (refused : s.tdesc c ((s.core c).xr (fieldOf w 50 46)).toNat (wordEcc e) = .error r) : exec (.sload c w e) s = s.after c r := by
  change execSload c w e s = _
  simp only [execSload, ready.issue_after, refused]

theorem exec_pass_tdesc (ready : s.Ready c 0x21 w) (te : TileErr)
    (refused : s.tdesc c ((s.core c).xr (fieldOf w 50 46)).toNat (wordEcc e) = .error r) : exec (.pass c w e te) s = s.after c r := by
  change execPass c w e te s = _
  simp only [execPass, ready.issue_after, refused]

theorem exec_vload_tdesc (ready : s.Ready c 0x37 w)
    (refused : s.tdesc c ((s.core c).xr (fieldOf w 45 41)).toNat (wordEcc e) = .error r) : exec (.vload c w e) s = s.after c r := by
  change execVload c w e s = _
  simp only [execVload, ready.issue_after, refused]

theorem exec_vrqst_tdesc (ready : s.Ready c 0x38 w)
    (refused : s.tdesc c ((s.core c).xr (fieldOf w 45 41)).toNat (wordEcc e) = .error r) : exec (.vrqst c ⟨w, e⟩) s = s.after c r := by
  change execVrqst c ⟨w, e⟩ s = _
  simp only [execVrqst, ready.issue_after, refused]

end

/-! ## Illegal operands -/

section
variable {s u : State} {c : CoreId} {w : BitVec 56} {e : PhysErr} {te : TileErr} {t : TDesc} {f : Fmt}

theorem exec_movs_illegal (ready : s.Ready c 0x06 w) (beyond : 10 ≤ fieldOf w 7 0) : exec (.movs c w) s = s.after c .illegal := by
  change execMovs c w s = _
  simp only [execMovs, ready.issue_after, State.special_eq_none s _ beyond]
  rw [if_neg (by omega)]

theorem exec_salu_illegal (ready : s.Ready c 0x05 w)
    (refused : 13 ≤ fieldOf w 40 37 ∨ (fieldOf w 36 36 = 1 ∧ fieldOf w 45 41 ≠ 0) ∨ (fieldOf w 36 36 = 0 ∧ fieldOf w 31 0 ≠ 0)) :
    exec (.salu c w) s = s.after c .illegal := by
  change execSalu c w s = _
  simp only [execSalu, ready.issue_after]
  rcases refused with beyond | ⟨imm, used⟩ | ⟨reg, used⟩
  · simp only [saluOp_eq_none beyond, ite_self]
  · simp [imm, used]
  · simp [reg, used]

theorem exec_br_badCond (ready : s.Ready c 0x07 w) (cond : fieldOf w 45 43 = 7) : exec (.br c w) s = s.after c .illegal := by
  rw [exec_br ready rfl, cond]
  rfl

theorem exec_loop_illegal (ready : s.Ready c 0x08 w)
    (refused : fieldOf w 12 0 = 0 ∨ (s.core c).region.base + (s.core c).region.count ≤ (s.core c).pc + fieldOf w 12 0 ∨
      4 ≤ (s.core c).loops.length ∨ (∃ b ∈ (s.core c).bodies (s.core c).pc, b.2 < (s.core c).pc + fieldOf w 12 0)) :
    exec (.loop c w) s = s.after c .illegal := by
  rw [exec_loop ready, if_pos]
  simpa using refused

theorem exec_fence_illegal (ready : s.Ready c 0x13 w) (refused : fieldOf w 55 54 = 3 ∨ fieldOf w 53 52 = 0) :
    exec (.fence c w) s = s.after c .illegal := by
  by_cases scope : fieldOf w 55 54 = 3
  · exact exec_fence_scope3 ready scope
  · rw [exec_fence ready scope, refused.resolve_left scope]
    rfl

theorem exec_signal_illegal (ready : s.Ready c 0x14 w)
    (refused : fieldOf w 15 0 = 0 ∨ (s.core c).slotTab[((s.core c).xr (fieldOf w 55 51)).toNat]? = none) :
    exec (.signal c w) s = s.after c .illegal := by
  cases slot : (s.core c).slotTab[((s.core c).xr (fieldOf w 55 51)).toNat]? with
  | none => exact exec_signal_noSlot ready slot
  | some r => rw [exec_signal ready slot, if_pos (refused.resolve_right (by simp [slot]))]

theorem exec_valu_illegal (ready : s.Ready c 0x31 w) (refused : 11 < fieldOf w 35 30 ∨
      unusedZero w (fieldOf w 35 30 ≠ 6 && fieldOf w 35 30 ≠ 7) (fieldOf w 35 30 = 3 || fieldOf w 35 30 = 11) false = false) :
    exec (.valu c w) s = s.after c .illegal := by
  rw [exec_valu ready, if_pos (by simpa only [Bool.not_eq_true'] using refused)]

theorem exec_vint_illegal (ready : s.Ready c 0x32 w)
    (refused : 11 < fieldOf w 35 30 ∨ unusedZero w true (fieldOf w 35 30 = 11) false = false) :
    exec (.vint c w) s = s.after c .illegal := by
  rw [exec_vint ready, if_pos (by simpa only [Bool.not_eq_true'] using refused)]

theorem exec_vfunc_illegal (ready : s.Ready c 0x34 w) (refused : 4 < fieldOf w 35 30 ∨ unusedZero w false false false = false) :
    exec (.vfunc c w) s = s.after c .illegal := by
  rw [exec_vfunc ready, if_pos (by simpa only [Bool.not_eq_true'] using refused)]

theorem exec_vcvt_illegal (ready : s.Ready c 0x33 w)
    (refused : 3 < fieldOf w 35 30 ∨ 1 < fieldOf w 24 23 ∨ unusedZero w false false true = false ∨
      Fmt.ofCode (fieldOf w 28 25) ∉ [some .f32, some .i32, some .bf16, some .f16]) : exec (.vcvt c w) s = s.after c .illegal := by
  cases fmt : Fmt.ofCode (fieldOf w 28 25) with
  | none => exact exec_vcvt_noFmt ready fmt
  | some f =>
    rw [exec_vcvt ready fmt, if_pos]
    rw [fmt] at refused
    rcases refused with code | mode | unused | short
    · exact .inl code
    · exact .inr (.inl mode)
    · exact .inr (.inr (.inr (by simp [unused])))
    · exact .inr (.inr (.inl (by simpa [and_assoc] using short)))

theorem exec_vred_illegal (ready : s.Ready c 0x35 w) (refused : 1 < fieldOf w 35 30 ∨ unusedZero w false false false = false) :
    exec (.vred c w) s = s.after c .illegal := by
  change execVred c w s = _
  simp only [execVred, ready.issue_after]
  rw [if_pos (by simpa using refused)]

theorem exec_sload_badCode (ready : s.Ready c 0x20 w)
    (desc : s.tdesc c ((s.core c).xr (fieldOf w 50 46)).toNat (wordEcc e) = .ok (u, t, f))
    (refused : 14 ≤ fieldOf w 45 42 ∨ fieldOf w 41 40 = 3) : exec (.sload c w e) s = s.after c .illegal := by
  change execSload c w e s = _
  simp only [execSload, ready.issue_after, desc]
  rcases refused with code | code
  · simp only [Fmt.ofCode_eq_none code]
  · cases Fmt.ofCode (fieldOf w 45 42) <;> simp only [code, AccFmt.ofCode]

theorem exec_sload_badPair {mov : Fmt} {acc : AccFmt} (ready : s.Ready c 0x20 w)
    (desc : s.tdesc c ((s.core c).xr (fieldOf w 50 46)).toNat (wordEcc e) = .ok (u, t, f))
    (movFmt : Fmt.ofCode (fieldOf w 45 42) = some mov) (accFmt : AccFmt.ofCode (fieldOf w 41 40) = some acc)
    (refused : pairRate f mov acc = none) : exec (.sload c w e) s = s.after c .illegal := by
  change execSload c w e s = _
  simp only [execSload, ready.issue_after, desc, movFmt, accFmt, refused]

theorem exec_sload_badShape {mov : Fmt} {acc : AccFmt} {r : Nat} (ready : s.Ready c 0x20 w)
    (desc : s.tdesc c ((s.core c).xr (fieldOf w 50 46)).toNat (wordEcc e) = .ok (u, t, f))
    (movFmt : Fmt.ofCode (fieldOf w 45 42) = some mov) (accFmt : AccFmt.ofCode (fieldOf w 41 40) = some acc)
    (rate : pairRate f mov acc = some r)
    (refused : 128 * r < fieldOf w 39 31 + 1 ∨ ((s.core c).xr (fieldOf w 55 51)).toNat % 512 ≠ 0) :
    exec (.sload c w e) s = s.after c .illegal := by
  change execSload c w e s = _
  simp only [execSload, ready.issue_after, desc, movFmt, accFmt, rate]
  rw [if_pos refused]

theorem exec_pass_noTile (ready : s.Ready c 0x21 w)
    (desc : s.tdesc c ((s.core c).xr (fieldOf w 50 46)).toNat (wordEcc e) = .ok (u, t, f))
    (refused : (s.core c).stat = none ∨ fieldOf w 32 31 = 3) : exec (.pass c w e te) s = s.after c .illegal := by
  change execPass c w e te s = _
  simp only [execPass, ready.issue_after, desc]
  rcases refused with empty | code
  · simp only [empty]
  · cases (s.core c).stat <;> simp only [code, AccFmt.ofCode]

theorem exec_pass_illegal {st : StatTile} {acc : AccFmt} (ready : s.Ready c 0x21 w)
    (desc : s.tdesc c ((s.core c).xr (fieldOf w 50 46)).toNat (wordEcc e) = .ok (u, t, f)) (stat : (s.core c).stat = some st)
    (accFmt : AccFmt.ofCode (fieldOf w 32 31) = some acc)
    (refused : f ≠ st.mov ∨ acc ≠ st.acc ∨ tileLegal acc (fieldOf w 45 41) = false ∨ ((s.core c).xr (fieldOf w 55 51)).toNat % 512 ≠ 0 ∨
      (hasScales f t.zpMode = true ∧ t.scaleOff % 16 ≠ 0) ∨
      (fieldOf w 33 33 = 0 ∧ (s.core c).tileOpen acc (fieldOf w 45 41) = false)) : exec (.pass c w e te) s = s.after c .illegal := by
  change execPass c w e te s = _
  simp only [execPass, ready.issue_after, desc, stat, accFmt]
  rw [if_pos]
  rcases refused with mov | other | outside | astray | ⟨has, astray⟩ | ⟨kept, closed⟩
  · exact .inl mov
  · exact .inr (.inl other)
  · exact .inr (.inr (.inl (by simp [outside])))
  · exact .inr (.inr (.inr (.inl astray)))
  · exact .inr (.inr (.inr (.inr (.inl (by simp [has, astray])))))
  · exact .inr (.inr (.inr (.inr (.inr (by simp [kept, closed])))))

theorem exec_drain_closed (ready : s.Ready c 0x30 w)
    (closed : (s.core c).drainTile (fieldOf w 55 51) (fieldOf w 35 35 = 1) (fieldOf w 28 28 = 1) = none) :
    exec (.drain c w te) s = s.after c .illegal := by
  change execDrain c w te s = _
  simp only [execDrain, ready.issue_after, closed]

theorem exec_drain_illegal (ready : s.Ready c 0x30 w)
    (refused : (if fieldOf w 35 35 = 1 then 64 else 128) < fieldOf w 50 44 + (fieldOf w 43 37 + 1) ∨
      (fieldOf w 34 34 = 1 ∧ ((s.core c).xr (fieldOf w 33 29)).toNat % 4 ≠ 0)) : exec (.drain c w te) s = s.after c .illegal := by
  cases tile : (s.core c).drainTile (fieldOf w 55 51) (fieldOf w 35 35 = 1) (fieldOf w 28 28 = 1) with
  | none => exact exec_drain_closed ready tile
  | some f =>
    change execDrain c w te s = _
    simp only [execDrain, ready.issue_after, tile]
    rcases refused with rows | ⟨scr, astray⟩
    · rw [if_pos rows]
    · simp [scr, astray]

theorem exec_vload_illegal (ready : s.Ready c 0x37 w)
    (desc : s.tdesc c ((s.core c).xr (fieldOf w 45 41)).toNat (wordEcc e) = .ok (u, t, f))
    (astray : ((s.core c).xr (fieldOf w 50 46)).toNat % 4 ≠ 0) : exec (.vload c w e) s = s.after c .illegal := by
  change execVload c w e s = _
  simp only [execVload, ready.issue_after, desc]
  rw [if_pos astray]

theorem exec_vrqst_illegal (ready : s.Ready c 0x38 w)
    (desc : s.tdesc c ((s.core c).xr (fieldOf w 45 41)).toNat (wordEcc e) = .ok (u, t, f))
    (refused : ((s.core c).xr (fieldOf w 50 46)).toNat % 4 ≠ 0 ∨ f.isStore = false ∨ (f.blockScaled = true ∧ t.scaleMode = 1)) :
    exec (.vrqst c ⟨w, e⟩) s = s.after c .illegal := by
  change execVrqst c ⟨w, e⟩ s = _
  simp only [execVrqst, ready.issue_after, desc]
  rw [if_pos (by simpa using refused)]

end

/-! ## Where the rules refuse -/

/-- An instruction of one range of its region is illegal where the range is not aligned, and a window violation where it leaves the region. -/
theorem State.after_range (s : State) (c a m n : Nat) (r : Res) :
    (a % m ≠ 0 → s.after c (if a % m ≠ 0 then .illegal else if !s.inRegion c a n then s.regionFault c a else r) = s.after c .illegal) ∧
    (a % m = 0 → s.inRegion c a n = false →
      s.after c (if a % m ≠ 0 then .illegal else if !s.inRegion c a n then s.regionFault c a else r) = s.after c (s.regionFault c a)) := by
  refine ⟨fun astray => ?_, fun aligned outside => ?_⟩
  · rw [if_pos astray]
  · rw [if_neg (not_not.mpr aligned), outside]
    rfl

/-- Settles O60: each instruction's refusals, by the operand, by the range and by the description. -/
theorem instructionsTrapWhereTheirRulesRefuseThem : Obligations.InstructionsTrapWhereTheirRulesRefuseThem := by
  refine ⟨?_, ?_, ?_⟩
  · intro s ill c w same
    obtain rfl := same.symm
    refine ⟨exec_movs_illegal, exec_salu_illegal, exec_br_badCond, fun b t ready found target outside => ?_, exec_loop_illegal,
      exec_fence_illegal, exec_signal_illegal, exec_valu_illegal, exec_vint_illegal, exec_vcvt_illegal, exec_vfunc_illegal,
      exec_vred_illegal, fun ready code => ?_,
      fun ready code => ?_⟩
    · exact exec_br_outside ready target (.inr (.inr (by simp [targetInside_false_of found outside])))
    · rw [exec_vmerge ready, if_pos code, State.after_illegal]
    · rw [exec_vmovx ready, State.vmovxOf_illegal s c w code, State.after_illegal]
  · intro s ill c w e win op a b m n cmd same window
    obtain rfl := window.symm
    obtain rfl := same.symm
    refine ⟨fun row ready => ?_, fun f ready flight addr refused => ?_, fun u ready addr aligned inside empty read => ?_,
      fun addr => ⟨fun ready count => ⟨fun refused => ?_, fun inRange aligned outside => ?_⟩,
        fun ready source count => ⟨fun refused => ?_, fun inRange aligned alignedB apart => ⟨fun outside => ?_, fun inside outside => ?_⟩⟩⟩⟩
    · simp only [List.mem_cons, List.not_mem_nil, or_false, Prod.mk.injEq] at row
      rcases row with ⟨rfl, rfl, rfl, addr, rfl⟩ | ⟨rfl, rfl, rfl, addr, rfl⟩ | ⟨rfl, rfl, rfl, addr, rfl⟩ | ⟨rfl, rfl, rfl, addr, rfl⟩
      · rw [exec_lds ready addr]
        exact s.after_range c a 8 8 _
      · rw [exec_sts ready addr]
        exact s.after_range c a 8 8 _
      · rw [exec_vst ready addr]
        exact s.after_range c a 4 512 _
      · rw [exec_dma ready addr]
        exact s.after_range c a 64 64 _
    · rw [exec_ldp ready flight addr, if_pos refused, State.after_illegal]
    · simp [exec_lds ready addr, aligned, inside, empty, read]
    · rw [exec_fill ready addr count, if_pos (by simpa using refused), State.after_illegal]
    · simp [exec_fill ready addr count, inRange, aligned, outside]
    · rw [exec_copy ready addr source count, if_pos (by simpa using refused), State.after_illegal]
    · simp [exec_copy ready addr source count, inRange, aligned, alignedB, apart, outside]
    · simp [exec_copy ready addr source count, inRange, aligned, alignedB, apart, inside, outside]
  · intro s ill u c w e te op o t f cmd same
    obtain rfl := same.symm
    refine ⟨fun row ready => ?_, fun mov acc ready desc => ⟨exec_sload_badCode ready desc, fun movFmt accFmt =>
      ⟨exec_sload_badPair ready desc movFmt accFmt, fun r => exec_sload_badShape ready desc movFmt accFmt⟩⟩,
      fun ready desc => ⟨exec_pass_noTile ready desc, fun st acc => exec_pass_illegal ready desc⟩,
      fun ready => ⟨exec_drain_closed ready, exec_drain_illegal ready⟩, exec_vload_illegal, exec_vrqst_illegal⟩
    have traps {r : Res} (refused : s.tdesc c o (wordEcc e) = .error r) : exec cmd s = s.after c r := by
      simp only [List.mem_cons, List.not_mem_nil, or_false, Prod.mk.injEq] at row
      rcases row with ⟨rfl, rfl, rfl⟩ | ⟨rfl, rfl, rfl⟩ | ⟨rfl, rfl, rfl⟩ | ⟨rfl, rfl, rfl⟩
      · exact exec_sload_tdesc ready refused
      · exact exec_pass_tdesc ready te refused
      · exact exec_vload_tdesc ready refused
      · exact exec_vrqst_tdesc ready refused
    exact ⟨fun astray => traps (State.tdesc_astray astray), fun aligned outside => traps (State.tdesc_outside aligned outside),
      fun aligned inside read => traps (State.tdesc_bad aligned inside read),
      fun aligned inside read broken => traps (State.tdesc_broken aligned inside read broken)⟩


end Sys2Proof.Machine
end

section
/-! SUPPORT. The channels' descriptors and confirmations, and the requests to the stacks (R190 to R217, R279 to R286). -/

namespace Sys2Proof.Machine

/-! ## COPY, layouts, GATHER and REMOTE (R190 to R192, R212 to R217) -/

section
variable {s r : State} {c ch kind i a : Nat} {ecc : Ecc} {e : DmaEnt} {d : BitVec 512} {src dst : Option Region} {x : Acc}

/-- How a descriptor ends whose rows have been moved with an outcome (R202, R217, R266). -/
def State.rowsEnd (s : State) (c ch i : Nat) (e : DmaEnt) (r : State) (x : Acc) : State :=
  match x with
  | .ok => (r.updEnt c ch i fun y => { y with phase := .executed }).settleChan c ch
  | .wait st => s.waitsAt r st
  | x => r.dmaFailed c ch i e x

theorem State.rowsEnd_cases (s : State) : (x = .ok → s.rowsEnd c ch i e r x = (r.updEnt c ch i fun y => { y with phase := .executed }).settleChan c ch) ∧
    (x ≠ .ok → (∀ st, x ≠ .wait st) → s.rowsEnd c ch i e r x = r.dmaFailed c ch i e x) ∧
    (∀ st, x = .wait st → s.rowsEnd c ch i e r x = s.waitsAt r st) := by
  cases x with
  | ok => exact ⟨fun _ => rfl, fun failed => absurd rfl failed, fun st other => (nomatch other)⟩
  | wait st => exact ⟨fun other => (nomatch other), fun _ noWait => absurd rfl (noWait st), fun _ same => by cases same; rfl⟩
  | _ => exact ⟨fun other => (nomatch other), fun _ _ => rfl, fun st other => (nomatch other)⟩

theorem State.runCopy_window (taken : s.taken c ch kind = some (i, e, d, src, dst)) (fails : s.windowFails e d src dst = some a) :
    s.runCopy c ch kind ecc = s.dmaWindow c ch i e a := by
  simp only [State.runCopy, taken, fails]

theorem State.runCopy_overlap (taken : s.taken c ch kind = some (i, e, d, src, dst)) (fits : s.windowFails e d src dst = none)
    (gather : kind = 3) (overlaps : s.gatherOverlaps d src dst = true) : s.runCopy c ch kind ecc = s.dmaIllegal c ch i e := by
  simp only [State.runCopy, taken, fits]
  rw [if_pos ⟨gather, overlaps⟩]

theorem State.runCopy_rows (taken : s.taken c ch kind = some (i, e, d, src, dst)) (fits : s.windowFails e d src dst = none)
    (apart : kind = 3 → s.gatherOverlaps d src dst = false) (rows : s.copyRows c ch kind i e d src dst ecc = (r, x)) :
    s.runCopy c ch kind ecc = s.rowsEnd c ch i e r x := by
  simp only [State.runCopy, taken, fits, rows]
  rw [if_neg]
  · rfl
  · rintro ⟨gather, overlaps⟩
    exact Bool.false_ne_true ((apart gather).symm.trans overlaps)

end

theorem exec_remote_window {s : State} {c : CoreId} {ch : ChanId} {ecc : PhysErr} {i a : Nat} {e : DmaEnt} {d : BitVec 512}
    {src dst : Option Region} (taken : s.taken c ch 4 = some (i, e, d, src, dst)) (fails : s.remoteFails e d src = some a) :
    exec (.remote c ch ecc) s = .next (s.dmaWindow c ch i e a) := by
  change execRemote c ch ecc s = _
  simp only [execRemote, taken, fails]

theorem exec_remote_rows {s r : State} {x : Acc} {c : CoreId} {ch : ChanId} {ecc : PhysErr} {i : Nat} {e : DmaEnt} {d : BitVec 512}
    {src dst : Option Region} (taken : s.taken c ch 4 = some (i, e, d, src, dst)) (fits : s.remoteFails e d src = none)
    (rows : s.remoteRows c ch i e d src (s.devEcc ecc) (List.range (dRows d)) = (r, x)) :
    exec (.remote c ch ecc) s = .next (s.rowsEnd c ch i e r x) := by
  change execRemote c ch ecc s = _
  simp only [execRemote, taken, fits, rows]
  cases x <;> rfl

/-- Settles O8: by the window check, the overlap check, and how the rows end. -/
theorem descriptorsAreCarriedOut : Obligations.DescriptorsAreCarriedOut := by
  refine ⟨fun s r x c ch ecc i kind e d src dst cmd row taken => ?_, fun s r x c ch ecc i e d src dst taken => ⟨fun fits rows => ?_, fun a =>
    exec_remote_window taken⟩⟩
  · have copies : exec cmd s = .next (s.runCopy c ch kind (s.devEcc ecc)) := by
      simp only [List.mem_cons, List.not_mem_nil, or_false, Prod.mk.injEq] at row
      rcases row with ⟨rfl, rfl⟩ | ⟨rfl, rfl⟩ | ⟨rfl, rfl⟩ | ⟨rfl, rfl⟩ <;> rfl
    rw [copies]
    refine ⟨fun fits apart rows => ?_, fun fits gather overlaps => ?_, fun a fails => ?_⟩
    · rw [State.runCopy_rows taken fits apart rows]
      obtain ⟨done, failed, waits⟩ := s.rowsEnd_cases (c := c) (ch := ch) (i := i) (e := e) (r := r) (x := x)
      exact ⟨fun ok => congrArg _ (done ok), fun bad noWait => congrArg _ (failed bad noWait), fun st wait => congrArg _ (waits st wait)⟩
    · rw [State.runCopy_overlap taken fits gather overlaps]
    · rw [State.runCopy_window taken fails]
  · rw [exec_remote_rows taken fits rows]
    obtain ⟨done, failed, waits⟩ := s.rowsEnd_cases (c := c) (ch := ch) (i := i) (e := e) (r := r) (x := x)
    exact ⟨fun ok => congrArg _ (done ok), fun bad noWait => congrArg _ (failed bad noWait), fun st wait => congrArg _ (waits st wait)⟩

/-! ## ATTENTION and CANDIDATES (R279, R280, R286, R550) -/

section
variable {s u v : State} {c : CoreId} {ch : ChanId} {ecc : PhysErr} {i a : Nat} {e : DmaEnt} {d : BitVec 512} {src dst : Option Region}

/-- Rows sent up to a row with a reserved bit leave the instruction illegal, and all its rows leave it executed (R550). -/
def State.requestEnd (v : State) (c ch i : Nat) (e : DmaEnt) (sent rows : Nat) : State :=
  if sent < rows then v.dmaIllegal c ch i e else (v.updEnt c ch i fun x => { x with phase := .executed }).settleChan c ch

theorem exec_attention_rows {b : Nat} (noRc : dRc d = false) (reach : s.dmaReach e (dTable d) (4 * dRows d) = true)
    (table : s.devRead (dTable d) (4 * dRows d) e.part e.ctx (s.devEcc ecc) = (u, .ok)) (taken : s.taken c ch 5 = some (i, e, d, src, dst))
    (source : s.scratchSide e (dSrcSpace d) (dSrc d) (dSrcStride d) (dRows d) (fun _ => dRowBytes d) src true = .ok a) {good : List Nat}
    (rows : good = (List.range (dRows d)).takeWhile (fun r => u.rowEntry d r / 2 ^ 14 = 0))
    (geoms : ∀ r ∈ good, (u.attnGeom e d (bits (u.rowEntry d r) 13 0)).isSome)
    (dest : u.scratchSide e (dDstSpace d) (dDst d) (dDstStride d) (dRows d) (u.rowOut e d) dst false = .ok b)
    (sends : u.sendRows c ch i e d a b (s.devEcc ecc) good = (v, .ok)) :
    exec (.attention c ch ecc) s = .next (v.requestEnd c ch i e good.length (dRows d)) := by
  have served : (good.find? fun r => (u.attnGeom e d (bits (u.rowEntry d r) 13 0)).isNone) = none :=
    List.find?_eq_none.mpr fun r mem => by simpa [Option.isSome_iff_ne_none] using geoms r mem
  subst rows
  change execAttention c ch ecc s = _
  simp only [execAttention, taken, noRc, reach, source, table, served, dest, sends]
  rfl

theorem exec_candidates_rows (noRc : dRc d = false) (reach : s.dmaReach e (dTable d) (4 * dRows d) = true)
    (table : s.devRead (dTable d) (4 * dRows d) e.part e.ctx (s.devEcc ecc) = (u, .ok)) (taken : s.taken c ch 6 = some (i, e, d, src, dst))
    (source : s.scratchSide e (dSrcSpace d) (dSrc d) (dSrcStride d) (dRows d) (fun _ => 512) src true = .ok a) {good : List Nat}
    (rows : good = (List.range (dRows d)).takeWhile (fun r => bits (u.rowEntry d r) 15 14 = 0 ∧ bits (u.rowEntry d r) 31 22 = 0))
    (sends : u.sendLists c ch i e d a (s.devEcc ecc) good = (v, .ok)) :
    exec (.candidates c ch ecc) s = .next (v.requestEnd c ch i e good.length (dRows d)) := by
  subst rows
  change execCandidates c ch ecc s = _
  simp only [execCandidates, taken, noRc, reach, source, table, sends]
  rfl

end

/-! ## Confirmations and PCIe completions (R151, R166, R213, R216, R235, R366) -/

/-- The outstanding PCIe reads without one. -/
def State.withoutRead (s : State) (tag : Nat) : State := { s with reads := s.reads.filter fun x => !decide (x.tag = tag) }

section
variable {s : State} {tag : Nat} {data : List Byte} {ecc : PhysErr} {r : PcieRead}

theorem exec_pcieReadCompletion_shut (read : (s.reads.find? fun r => decide (r.tag = tag)) = some r) (shut : r.shut = true) :
    exec (.pcieReadCompletion tag ⟨data, ecc⟩) s = .next s := by
  change execPcieReadCompletion tag ⟨data, ecc⟩ s = _
  simp only [execPcieReadCompletion, read]
  exact if_pos (.inr shut)

theorem exec_pcieReadCompletion_stale (read : (s.reads.find? fun r => decide (r.tag = tag)) = some r) (size : data.length = r.len)
    (sent : r.shut = false) (stale : s.epochOk r.part r.ctx r.epoch = false) :
    exec (.pcieReadCompletion tag ⟨data, ecc⟩) s = .next ((s.withoutRead tag).staleDrop 1) := by
  change execPcieReadCompletion tag ⟨data, ecc⟩ s = _
  simp only [execPcieReadCompletion, read]
  rw [if_neg (by simp [size, sent])]
  exact if_pos (by rw [Bool.not_eq_true']; exact stale)

/-- A row that host memory has answered, for the descriptor that asked for it (R74, R213, R216). -/
theorem exec_pcieReadCompletion_row {i : Nat} {e : DmaEnt} {d : BitVec 512} {src dst : Option Region} {t : State}
    (read : (s.reads.find? fun r => decide (r.tag = tag)) = some r) (size : data.length = r.len) (sent : r.shut = false)
    (fresh : s.epochOk r.part r.ctx r.epoch = true) (found : ((s.core r.core).chan r.chan).findIdx? (fun x => decide (x.stamp = r.stamp)) = some i)
    (entry : ((s.core r.core).chan r.chan)[i]? = some e) (op : e.op = .desc d src dst)
    (charged : t = (s.withoutRead tag).charge r.part r.ctx { pcieB := r.len }) :
    exec (.pcieReadCompletion tag ⟨data, ecc⟩) s =
      if dKind d = 4 then .next ((if t.frozen r.part then t else t.sendRow r.core r.chan i e d r.row data).rowCame r.core r.chan i 0)
      else match (t.landRow e d dst r.row data (t.devEcc ecc)).2 with
        | .ok => .next ((t.landRow e d dst r.row data (t.devEcc ecc)).1.rowCame r.core r.chan i r.len)
        | .wait st => .next (s.waitsAt (t.landRow e d dst r.row data (t.devEcc ecc)).1 st)
        | x => .next ((t.landRow e d dst r.row data (t.devEcc ecc)).1.dmaFailed r.core r.chan i e x) := by
  subst charged
  change execPcieReadCompletion tag ⟨data, ecc⟩ s = _
  simp only [execPcieReadCompletion, read]
  rw [if_neg (by simp [size, sent]), if_neg]
  · have core (x : Nat) : State.core { s with reads := s.reads.filter fun x => !decide (x.tag = tag) } x = s.core x := rfl
    simp only [core, found, entry, op]
    rfl
  · rw [Bool.not_eq_true', Bool.not_eq_false]
    exact fresh

end

/-- The oldest executed instruction with nothing outstanding leaves its channel (R151, R166). -/
theorem exec_dmaConfirmation {s : State} {c : CoreId} {ch : ChanId} {e : DmaEnt} {l : List DmaEnt} (head : (s.core c).chan ch = e :: l)
    (done : e.phase = .executed) (none : e.outstanding = 0) (fresh : s.epochOk e.part e.ctx e.epoch = true) :
    exec (.dmaConfirmation c ch) s = .next ((s.setCore c (
      let k := { (s.core c).setChan ch l with dmaP := ((s.core c).dmaP + 1) % 2 ^ 64 }
      if e.ce then k.addCnt e.cnt 1 else k)).perf c 0x08 e.op.bytes) := by
  change execDmaConfirmation c ch s = _
  simp only [execDmaConfirmation, head]
  exact if_pos ⟨done, none, fresh⟩

/-- Settles O10: the requests by the rows that they may send, and the completions by their epoch and their instruction. -/
theorem requestsAndConfirmationsComplete : Obligations.RequestsAndConfirmationsComplete := by
  refine ⟨fun s u v c ch ecc i a e d src dst good noRc reach table => ⟨fun b taken source rows geoms dest sends => ?_,
    fun taken source rows sends => ?_⟩, fun s => ⟨fun c ch e l => exec_dmaConfirmation, fun tag data ecc r read size =>
    ⟨exec_pcieReadCompletion_shut read, fun sent => ⟨exec_pcieReadCompletion_stale read size sent,
      fun i e d src dst t u fresh found entry op charged => ?_⟩⟩⟩⟩
  · rw [exec_attention_rows noRc reach table taken source rows geoms dest sends, State.requestEnd]
    exact ⟨fun all => by rw [if_neg (by omega)], fun some => by rw [if_pos some]⟩
  · rw [exec_candidates_rows noRc reach table taken source rows sends, State.requestEnd]
    exact ⟨fun all => by rw [if_neg (by omega)], fun some => by rw [if_pos some]⟩
  · rw [exec_pcieReadCompletion_row read size sent fresh found entry op charged]
    refine ⟨fun row lands => ?_, fun remote => ?_⟩
    · rw [if_neg row, lands]
      rfl
    · rw [if_pos remote]
      rfl

end Sys2Proof.Machine
end

section
/-! SUPPORT. Requests to the stacks: lines read and written, the scrubber, die states, remaps and fill-and-copy commands (R251 to R268). -/

namespace Sys2Proof.Machine

/-! ## What reports and counts change (R515, R520 to R527) -/

/-- A state is another with reports made: registers, the debug block and the clock alone may differ, and no injected error is used up. -/
def State.Reported (s t : State) : Prop :=
  t = { s with regs := t.regs, dbg := t.dbg, timebase := t.timebase, freeCtr := t.freeCtr } ∧ t.dbg.inject = s.dbg.inject

theorem State.Reported.refl (s : State) : s.Reported s := ⟨rfl, rfl⟩

theorem State.Reported.trans {s t u : State} (st : s.Reported t) (tu : t.Reported u) : s.Reported u :=
  ⟨tu.1.trans (congrArg (fun x : State => { x with regs := u.regs, dbg := u.dbg, timebase := u.timebase, freeCtr := u.freeCtr }) st.1),
    tu.2.trans st.2⟩

theorem State.Reported.stk {s t : State} (st : s.Reported t) (x : Nat) : t.stk x = s.stk x := by
  have same := congrArg (State.stk · x) st.1
  exact same

theorem State.countFld_reported (s : State) (off hi lo n : Nat) : s.Reported (s.countFld off hi lo n) := ⟨rfl, rfl⟩

theorem State.flag_reported (s : State) (off i : Nat) : s.Reported (s.flag off i) := ⟨rfl, rfl⟩

theorem State.setRing_reported (s : State) (u : Nat) (r : UnitRing) : s.Reported (s.setRing u r) := ⟨rfl, rfl⟩

theorem State.stampTime_reported (s : State) : s.Reported s.stampTime.2 := ⟨rfl, rfl⟩

theorem State.noteLoss_reported (s : State) (old new : LossCounts) : s.Reported (s.noteLoss old new) := by
  have counts := (((s.countFld_reported rDbgLoss 15 0 (new.err - old.err)).trans (State.countFld_reported _ rDbgLoss 31 16 (new.warn - old.warn))).trans
    (State.countFld_reported _ rDbgLoss 47 32 (new.info - old.info))).trans (State.countFld_reported _ rDbgLoss 63 48 (new.coal - old.coal))
  unfold State.noteLoss
  dsimp only
  split
  · exact counts.trans (State.flag_reported _ _ _)
  · exact counts

theorem State.logRec_reported (s : State) (r : EventRec) : s.Reported (s.logRec r) := s.setRing_reported _ _

theorem State.pushRec_reported (s : State) (r : EventRec) : s.Reported (s.pushRec r) := by
  unfold State.pushRec
  dsimp only
  exact ((s.logRec_reported r).trans (State.setRing_reported _ _ _)).trans (State.noteLoss_reported _ _ _)

theorem State.holdPerTick_reported (s : State) (r : EventRec) : s.Reported (s.holdPerTick r) := s.setRing_reported _ _

theorem State.emit_reported (s : State) (unit kind d0 d1 : Nat) (part : Option Nat) (ctx : Nat) (superseded : Bool) :
    s.Reported (s.emit unit kind d0 d1 part ctx superseded) := by
  unfold State.emit
  dsimp only
  split
  · exact s.stampTime_reported.trans (State.holdPerTick_reported _ _)
  · exact s.stampTime_reported.trans (State.pushRec_reported _ _)

theorem State.counters_reported (s : State) (m : SMap PerfSt) : s.Reported { s with dbg := { s.dbg with perf := m } } := ⟨rfl, rfl⟩

theorem State.perfOne_reported (s : State) (unit ev n k : Nat) : s.Reported (s.perfOne unit ev n k) := by
  unfold State.perfOne
  dsimp only
  split
  · split
    · exact (s.counters_reported _).trans (State.emit_reported _ _ _ _ _ _ _ _)
    · exact s.counters_reported _
  · exact .refl s

theorem State.perf_reported (s : State) (unit ev n : Nat) : s.Reported (s.perf unit ev n) :=
  (((s.perfOne_reported unit ev n 0).trans (State.perfOne_reported _ unit ev n 1)).trans (State.perfOne_reported _ unit ev n 2)).trans
    (State.perfOne_reported _ unit ev n 3)

@[simp] theorem State.emit_stk (s : State) (unit kind d0 d1 : Nat) (part : Option Nat) (ctx : Nat) (superseded : Bool) (x : Nat) :
    (s.emit unit kind d0 d1 part ctx superseded).stk x = s.stk x := (s.emit_reported unit kind d0 d1 part ctx superseded).stk x

@[simp] theorem State.perf_stk (s : State) (unit ev n x : Nat) : (s.perf unit ev n).stk x = s.stk x := (s.perf_reported unit ev n).stk x

@[simp] theorem State.perf_inject (s : State) (unit ev n : Nat) : (s.perf unit ev n).dbg.inject = s.dbg.inject := (s.perf_reported unit ev n).2

/-! ## Lines and their addresses -/

theorem stackAddr_mod (st off : Nat) : stackAddr st off % 64 = off % 64 := by
  rw [stackAddr, show 0x1200000000 = 64 * 1207959552 from rfl, Nat.mul_left_comm, Nat.mul_add_mod]

theorem stackAddr_div (st off : Nat) : stackAddr st off / 64 = st * 1207959552 + off / 64 := by
  rw [stackAddr, show 0x1200000000 = 64 * 1207959552 from rfl, Nat.mul_left_comm, Nat.mul_add_div (by decide)]

theorem stackAddr_line (st off : Nat) : 64 * (stackAddr st off / 64) = stackAddr st (off / 64 * 64) := by
  rw [stackAddr_div, stackAddr]
  omega

theorem stackAddr_stack {st off : Nat} (inside : off < 0x1200000000) : stackAddr st off / stackBytes = st := by
  rw [stackAddr, stackBytes, Nat.mul_comm, Nat.mul_add_div (by decide), Nat.div_eq_of_lt inside, Nat.add_zero]

theorem stackAddr_offset {st off : Nat} (inside : off < 0x1200000000) : stackAddr st off % stackBytes = off := by
  rw [stackAddr, stackBytes, Nat.mul_comm, Nat.mul_add_mod, Nat.mod_eq_of_lt inside]

theorem lineStart_le (off : Nat) : off / 64 * 64 ≤ off := Nat.div_mul_le_self off 64

/-- A range inside one line touches that line alone. -/
theorem linesOf_line {st off n : Nat} (some : n ≠ 0) (fits : off % 64 + n ≤ 64) :
    linesOf (stackAddr st off) n = [stackAddr st (off / 64 * 64)] := by
  have one : (stackAddr st off + n - 1) / 64 = stackAddr st off / 64 := by
    have place := stackAddr_mod st off
    generalize stackAddr st off = a at place ⊢
    omega
  rw [linesOf, one, Nat.sub_self, show List.range (0 + 1) = [0] from rfl, List.map_singleton, Nat.add_zero, stackAddr_line]

theorem placeOf_stack {st : StackId} {off : Nat} (inside : off < 0x1200000000) : placeOf (stackAddr st off) = .stack st off := by
  have below : stackAddr st off < stackTop := by
    have stack := st.isLt
    unfold stackAddr stackTop
    omega
  have stack := stackAddr_stack (st := st) inside
  have offset := stackAddr_offset (st := st) inside
  rw [stackBytes] at stack offset
  rw [placeOf, if_pos below, stack, offset]

theorem State.devBytes_stack (s : State) {st : StackId} {off : Nat} (inside : off < 0x1200000000) (n : Nat) :
    s.devBytes (stackAddr st off) n = Memory.readN s.mem (stackAddr st off) n := by
  rw [State.devBytes, placeOf_stack inside]

/-! ## Checks of a request (R366, R441) -/

theorem State.checkReq_fine {s : State} {st off n : Nat} {rq : Req} (fine : s.checkReq st off n rq = .fine) :
    off < 0x1200000000 ∧ n ≠ 0 ∧ off % 64 + n ≤ 64 := by
  unfold State.checkReq at fine
  split at fine
  · exact ReqCheck.noConfusion fine
  · omega

/-! ## Reads and writes of a line (R254, R265, R266) -/

section
variable {s : State} {st off : Nat} {part : Option Nat} {ctx : Nat} {e : Ecc}

theorem State.wakeLine_ok (accepts : (s.stk st).die (dieOf off) = 0 ∨
    ((s.stk st).die (dieOf off) ≤ 3 ∧ (s.stk st).wake.length < 1024 ∧ (s.stk st).srHeld = none)) :
    (s.wakeLine st off true).2 = .ok := by
  unfold State.wakeLine
  rcases accepts with awake | ⟨below, room, free⟩
  · simp [awake]
  · have states : (s.stk st).die (dieOf off) = 0 ∨ (s.stk st).die (dieOf off) = 1 ∨ (s.stk st).die (dieOf off) = 2 ∨
        (s.stk st).die (dieOf off) = 3 := by omega
    rcases states with die | die | die | die <;> simp [die, Nat.not_le.mpr room, free]

/-- Taking a request for a line leaves what its lines hold, and the injected error. -/
theorem State.wakeLine_bad (s : State) (st off : Nat) (write : Bool) :
    ((s.wakeLine st off write).1.stk st).bad = (s.stk st).bad ∧ (s.wakeLine st off write).1.dbg.inject = s.dbg.inject := by
  unfold State.wakeLine
  dsimp only
  split
  · exact ⟨rfl, rfl⟩
  iterate 3
    split
    · exact ⟨rfl, rfl⟩
    · split
      · exact ⟨rfl, rfl⟩
      · rw [State.perf_stk, State.perf_inject, State.setStk_same]
        split <;> exact ⟨rfl, rfl⟩
  · exact ⟨rfl, rfl⟩

/-- A good line is read without an error. -/
theorem State.checkLine_good (noInject : s.dbg.inject = none) (good : SMap.get 0 (s.stk st).bad (off / 64) = 0) :
    s.checkLine st off part ctx .ok = (s, .ok) := by
  simp [State.checkLine, State.injectEcc, State.injected, noInject, State.heldLine, good]

end

theorem coversLine_whole {a n : Nat} (whole : n = 64) : coversLine a n a = true := by
  simp [coversLine, whole]

section
variable {s : State} {st : StackId} {off : Nat} {part : Nat} {ctx : Nat} {e : Ecc} {data : List Byte} {h : HallReq} {t : State}

/-- A die that accepts a request takes a write of a line, whole or to a line that meets no error (R254, R265). -/
theorem State.admitLine_ok {st off : Nat} {part : Option Nat} {whole : Bool}
    (accepts : (s.stk st).die (dieOf off) = 0 ∨
      ((s.stk st).die (dieOf off) ≤ 3 ∧ (s.stk st).wake.length < 1024 ∧ (s.stk st).srHeld = none))
    (good : whole = true ∨ (e = .ok ∧ s.dbg.inject = none ∧ SMap.get 0 (s.stk st).bad (off / 64) = 0)) :
    (s.admitLine st off whole part ctx e).2 = .ok := by
  have ok := State.wakeLine_ok accepts
  have kept := s.wakeLine_bad st off true
  unfold State.admitLine
  dsimp only
  rw [if_neg (not_not.mpr ok)]
  rcases good with rfl | ⟨rfl, noInject, good⟩
  · rfl
  · split
    · rfl
    · rw [State.checkLine_good (kept.2.trans noInject) (kept.1.symm ▸ good)]

/-- A write inside one line is carried out where that line admits it. -/
theorem State.stkWrite_ok {a l : Nat} (lines : linesOf a data.length = [l])
    (admits : (s.admitLine (l / stackBytes) (l % stackBytes) (coversLine a data.length l) (some part) ctx e).2 = .ok) :
    (s.stkWrite a data part ctx e).2 = .ok := by
  simp only [State.stkWrite, lines, State.admitLines, admits, if_true]

/-- A write that is carried out puts its bytes at its address, and changes no other byte. -/
theorem State.stkWrite_memories {a : Nat} (ok : (s.stkWrite a data part ctx e).2 = .ok) :
    (s.stkWrite a data part ctx e).1.mem = Memory.writeN s.mem a data ∧ (s.stkWrite a data part ctx e).1.host = s.host := by
  have admitted : s.SameMemories (s.admitLines a data.length (some part) ctx e (linesOf a data.length)).1 :=
    State.admitLines_keeps s.sameMemories_stable ⟨rfl, rfl⟩
  unfold State.stkWrite at ok ⊢
  dsimp only at ok ⊢
  split at ok
  next admits =>
    rw [if_pos admits]
    have written := State.linesWritten_keeps s.sameMemories_stable (ls := linesOf a data.length) admitted
    rw [admitted.1]
    have stable : Stable fun u : State => u.mem = Memory.writeN s.mem a data ∧ u.host = s.host :=
      fun _ _ _ mem host same => ⟨mem.trans same.1, host.trans same.2⟩
    exact State.charge_keeps stable (State.portLines_keeps stable ⟨rfl, written.2⟩)
  next refused => exact absurd ok refused

/-- A request to a hall where none waits is served. -/
theorem State.lineArrives_served (free : (s.stk st).hall = []) (served : s.lineRequest st h = some t) : s.lineArrives st h = t := by
  simp [State.lineArrives, free, served]

/-- A request behind others waits, and reads and writes nothing (R266). -/
theorem State.lineArrives_behind (waiting : (s.stk st).hall ≠ []) :
    ((s.lineArrives st h).stk st).hall = (s.stk st).hall ++ [h] ∧ (s.lineArrives st h).mem = s.mem ∧
      (s.lineArrives st h).host = s.host ∧ ((s.lineArrives st h).stk st).lastLine = (s.stk st).lastLine := by
  have stalled : ((s.creditStall st).stk st).hall = (s.stk st).hall ∧ ((s.creditStall st).stk st).lastLine = (s.stk st).lastLine := by
    have same : (s.creditStall st).stk st = { s.stk st with
      stalls := satAdd 32 (s.stk st).stalls (Config.cycles s.freeCtr).toNat } := State.setStk_same _ _ _
    rw [same]
    exact ⟨rfl, rfl⟩
  unfold State.lineArrives
  dsimp only
  rw [if_pos waiting, State.setStk_same]
  exact ⟨congrArg (· ++ [h]) stalled.1, rfl, rfl, stalled.2⟩

/-- The offset that a request names: a write's own, a read's line. -/
def HallReq.start (h : HallReq) : Nat := if h.data.isSome then h.off else h.off / 64 * 64

/-- The bytes that a request names. -/
def HallReq.size (h : HallReq) : Nat := (h.data.map List.length).getD 64

theorem State.lineRequest_stale (stale : s.checkReq st h.start h.size h.rq = .stale) : s.lineRequest st h = some (s.staleDrop 1) := by
  change (match s.checkReq st h.start h.size h.rq with | .absent => _ | .stale => _ | .window => _ | .fine => _) = _
  simp only [stale]

theorem State.lineRequest_window (outside : s.checkReq st h.start h.size h.rq = .window) :
    s.lineRequest st h = some (s.stkWindowFault st h.start h.rq) := by
  change (match s.checkReq st h.start h.size h.rq with | .absent => _ | .stale => _ | .window => _ | .fine => _) = _
  simp only [outside]
  rfl

theorem State.lineRequest_fine (fine : s.checkReq st h.start h.size h.rq = .fine) :
    s.lineRequest st h = State.lineAnswer st h (s.lineAccess st h) := by
  change (match s.checkReq st h.start h.size h.rq with | .absent => _ | .stale => _ | .window => _ | .fine => _) = _
  simp only [fine]

/-- A read that is carried out returns its line. -/
theorem State.lineArrives_read {r : State × Acc} (free : (s.stk st).hall = []) (fine : s.checkReq st h.start h.size h.rq = .fine)
    (read : h.data = none) (access : s.lineAccess st h = r) (ok : r.2 = .ok) :
    s.lineArrives st h = r.1.putLine st (r.1.devBytes (stackAddr st (h.off / 64 * 64)) 64) := by
  refine State.lineArrives_served free ((State.lineRequest_fine fine).trans ?_)
  simp only [access, State.lineAnswer, ok, read, Option.isSome_none, Bool.false_eq_true, if_false]

/-- A write that is carried out leaves what it wrote. -/
theorem State.lineArrives_write {r : State × Acc} (free : (s.stk st).hall = []) (fine : s.checkReq st h.start h.size h.rq = .fine)
    (write : h.data = some data) (access : s.lineAccess st h = r) (ok : r.2 = .ok) : s.lineArrives st h = r.1 := by
  refine State.lineArrives_served free ((State.lineRequest_fine fine).trans ?_)
  simp only [access, State.lineAnswer, ok, write, Option.isSome_some, if_true]

theorem State.putLine_same (s : State) (st : Nat) (line : List Byte) :
    (s.putLine st line).mem = s.mem ∧ (s.putLine st line).host = s.host ∧ ((s.putLine st line).stk st).lastLine = line :=
  ⟨rfl, rfl, congrArg StackSt.lastLine (State.setStk_same _ _ _)⟩

end

/-- A line read inside the windows that the stack can read returns the line, and changes no memory (R254, R267, R441). -/
theorem exec_stackLineRead_fine {s : State} {st : StackId} {off : Nat} {rq : Req} {e : PhysErr} (free : (s.stk st).hall = [])
    (fine : s.checkReq st (off / 64 * 64) 64 rq = .fine)
    (ok : (s.stkRead (stackAddr st (off / 64 * 64)) 64 rq.part rq.ctx.toNat (s.lineEcc e)).2 = .ok) :
    ∃ t, exec (.stackLineRead st off rq e) s = .next t ∧ t.mem = s.mem ∧ t.host = s.host ∧
      (t.stk st).lastLine = Memory.readN s.mem (stackAddr st (off / 64 * 64)) 64 := by
  have same : s.SameMemories (s.stkRead (stackAddr st (off / 64 * 64)) 64 rq.part rq.ctx.toNat (s.lineEcc e)).1 :=
    State.stkRead_keeps s.sameMemories_stable ⟨rfl, rfl⟩
  generalize access : s.stkRead (stackAddr st (off / 64 * 64)) 64 rq.part rq.ctx.toNat (s.lineEcc e) = r at ok same
  have served := State.lineArrives_read (h := { off := off, data := none, rq := rq, e := s.lineEcc e }) free fine rfl access ok
  obtain ⟨mem, host, line⟩ := r.1.putLine_same st (r.1.devBytes (stackAddr st (off / 64 * 64)) 64)
  refine ⟨_, congrArg Host.Outcome.next served, mem.trans same.1, host.trans same.2, line.trans ?_⟩
  rw [State.devBytes_stack _ (State.checkReq_fine fine).1, same.1]

/-- A line write inside the windows, on a die that accepts it, puts its bytes and changes no other (R254, R265, R266). -/
theorem exec_stackLineWrite_fine {s : State} {st : StackId} {off : Nat} {data : List Byte} {rq : Req} {e : PhysErr}
    (free : (s.stk st).hall = []) (fine : s.checkReq st off data.length rq = .fine)
    (accepts : (s.stk st).die (dieOf (off / 64 * 64)) = 0 ∨
      ((s.stk st).die (dieOf (off / 64 * 64)) ≤ 3 ∧ (s.stk st).wake.length < 1024 ∧ (s.stk st).srHeld = none))
    (good : data.length = 64 ∨ (e = .ok ∧ s.dbg.inject = none ∧ SMap.get 0 (s.stk st).bad (off / 64) = 0)) :
    ∃ t, exec (.stackLineWrite st off data rq e) s = .next t ∧ t.host = s.host ∧ t.mem = Memory.writeN s.mem (stackAddr st off) data := by
  obtain ⟨inside, some, fits⟩ := State.checkReq_fine fine
  have start : off / 64 * 64 < 0x1200000000 := lt_of_le_of_lt (lineStart_le off) inside
  have ok : (s.stkWrite (stackAddr st off) data rq.part rq.ctx.toNat (s.lineEcc e)).2 = .ok := by
    refine State.stkWrite_ok (linesOf_line some fits) ?_
    rw [stackAddr_stack start, stackAddr_offset start]
    refine State.admitLine_ok accepts (good.imp (fun whole => ?_) ?_)
    · rw [show off / 64 * 64 = off by omega]
      exact coversLine_whole whole
    · rintro ⟨rfl, noInject, line⟩
      refine ⟨rfl, noInject, ?_⟩
      rwa [Nat.mul_div_cancel _ (by decide)]
  obtain ⟨mem, host⟩ := State.stkWrite_memories ok
  generalize access : s.stkWrite (stackAddr st off) data rq.part rq.ctx.toNat (s.lineEcc e) = r at ok mem host
  have served := State.lineArrives_write (h := { off := off, data := .some data, rq := rq, e := s.lineEcc e }) free fine rfl access ok
  exact ⟨r.1, congrArg Host.Outcome.next served, host, mem⟩

/-- Settles O11: by the request's check, and by whether one waits at the hall. -/
theorem stackLinesAreReadAndWritten : Obligations.StackLinesAreReadAndWritten := by
  intro s st off rq e
  have reads : exec (.stackLineRead st off rq e) s = .next (s.lineArrives st { off := off, data := none, rq := rq, e := s.lineEcc e }) := rfl
  have writes (data : List Byte) : exec (.stackLineWrite st off data rq e) s =
    .next (s.lineArrives st { off := off, data := some data, rq := rq, e := s.lineEcc e }) := rfl
  refine ⟨fun free => ⟨?_, fun stale => ?_, fun outside => ?_, fun data => ⟨fun fine accepts good => ?_, fun stale => ?_, fun outside => ?_⟩⟩,
    fun waiting d cmd row => ?_⟩
  · rintro a rfl
    exact exec_stackLineRead_fine free
  · exact reads.trans (congrArg _ (State.lineArrives_served free (State.lineRequest_stale stale)))
  · exact reads.trans (congrArg _ (State.lineArrives_served free (State.lineRequest_window outside)))
  · obtain ⟨t, run, host, mem⟩ := exec_stackLineWrite_fine free fine accepts good
    refine ⟨t, run, host, ?_, fun x outside => ?_⟩
    · rw [mem, Memory.readN_writeN_same]
    · rw [mem, Memory.read_writeN_other _ _ _ outside]
  · exact (writes data).trans (congrArg _ (State.lineArrives_served free (State.lineRequest_stale stale)))
  · exact (writes data).trans (congrArg _ (State.lineArrives_served free (State.lineRequest_window outside)))
  · have arrives : exec cmd s = .next (s.lineArrives st { off := off, data := d, rq := rq, e := s.lineEcc e }) := by
      rcases row with row | ⟨data, rfl, rfl⟩
      · simp only [List.mem_cons, List.not_mem_nil, or_false, Prod.mk.injEq] at row
        rcases row with ⟨rfl, rfl⟩ | ⟨rfl, rfl⟩ <;> rfl
      · rfl
    exact ⟨_, arrives, State.lineArrives_behind waiting⟩

end Sys2Proof.Machine
end

section
/-! SUPPORT. The scrubber, the dies' states and remap proposals (R203, R252, R255, R262 to R268). -/

namespace Sys2Proof.Machine

/-! ## Maps written twice, and memories zeroed -/

theorem SMap.del_del {α : Type} (m : SMap α) (i : Nat) : SMap.del (SMap.del m i) i = SMap.del m i := by
  induction m with
  | nil => rfl
  | cons e t ih =>
    obtain ⟨k, w⟩ := e
    by_cases here : k = i <;> simp [SMap.del, here, ih]

theorem SMap.set_set_self {α : Type} [DecidableEq α] (d : α) (m : SMap α) (i : Nat) (v : α) : SMap.set d (SMap.set d m i v) i v = SMap.set d m i v := by
  unfold SMap.set
  split
  · exact SMap.del_del m i
  · exact SMap.put_put m i v v

theorem State.setStk_setStk_self (s : State) (st : Nat) (k : StackSt) : (s.setStk st k).setStk st k = s.setStk st k := by
  simp only [State.setStk, SMap.set_set_self]

/-- Dropping entries by their key leaves what the kept keys hold. -/
theorem SMap.get_filter_key {α : Type} {d : α} (m : SMap α) (p : Nat → Bool) {i : Nat} (kept : p i = true) :
    SMap.get d (m.filter fun e => p e.1) i = SMap.get d m i := by
  induction m with
  | nil => rfl
  | cons e t ih =>
    obtain ⟨k, w⟩ := e
    by_cases here : k = i
    · subst here
      simp [SMap.get, kept]
    · by_cases keeps : p k = true <;> simp [SMap.get, here, keeps, ih]

theorem Memory.read_zeroRange_inside (m : List Host.Cell) {a n x : Nat} (first : a ≤ x) (last : x < a + n) :
    Memory.read (zeroRange m a n) x = 0 := by
  refine SMap.get_none _ fun e mem same => ?_
  have outside := (List.mem_filter.mp mem).2
  simp only [Bool.not_eq_true', decide_eq_false_iff_not] at outside
  exact outside ⟨same ▸ first, same ▸ last⟩

theorem Memory.read_zeroRange_outside (m : List Host.Cell) {a n x : Nat} (outside : x < a ∨ a + n ≤ x) :
    Memory.read (zeroRange m a n) x = Memory.read m x :=
  SMap.get_filter_key m (fun k => !decide (a ≤ k ∧ k < a + n)) (by simp; omega)

/-! ## The scrubber (R252, R255) -/

section
variable {s u : State} {st : StackId} {off l p : Nat} {e : PhysErr} {k : StackSt}

/-- What the scrubber does with a line that it reads. -/
def State.scrubbed (u : State) (st l p : Nat) (k : StackSt) (e : Ecc) : State :=
  if SMap.get 0 k.bad (l / 64) = 1 ∨ eccUnc e then
    ((u.setStk st { k with
      eccUnc := bump 16 k.eccUnc, bad := SMap.set 0 k.bad (l / 64) 1,
      rowLog := if stackRow l ∈ k.rowLog then k.rowLog else k.rowLog ++ [stackRow l] }).emit (stkUnit st) 0x0A (stackRow l).1
        ((stackRow l).2 + (SMap.get {} k.rowErr (36864 * (stackRow l).1 + (stackRow l).2)).total * 2 ^ 32) (some p)).emit
          (stkUnit st) 0x10 0 l (some p)
  else if SMap.get 0 k.bad (l / 64) = 2 ∨ eccTag e then
    (u.setStk st { k with tagFails := bump 16 k.tagFails, bad := SMap.set 0 k.bad (l / 64) 2 }).emit (stkUnit st) 0x10 0 l (some p)
  else match e with
    | .corrected _ => (u.lineCor st l).chargePart p { stackB := 64 }
    | _ => u

theorem State.wakeLine_awake {st off : Nat} (write : Bool) (awake : (s.stk st).die (dieOf off) = 0) : s.wakeLine st off write = (s, .ok) := by
  simp [State.wakeLine, awake]

theorem exec_scrub (line : l = off / 64 * 64) (inside : l < 0x1200000000) (used : (s.frame st (frameOf l)).st = .allocated)
    (awake : (s.stk st).die (dieOf l) = 0) (free : s.linePending st l = false) (noInject : s.dbg.inject = none)
    (owner : p = (s.frame st (frameOf l)).part) (count : u = s.perf (stkUnit st) 0x06 1) (stack : k = u.stk st) :
    exec (.scrub st off e) s = .next (u.scrubbed st l p k (s.lineEcc e)) := by
  subst line owner
  have due : ¬ (0x1200000000 ≤ off / 64 * 64 ∨ (s.frame st (frameOf (off / 64 * 64))).st ≠ .allocated ∨
      s.linePending st (off / 64 * 64) = true) := by
    rintro (beyond | idle | pending)
    · exact Nat.not_le.mpr inside beyond
    · exact idle used
    · exact Bool.false_ne_true (free.symm.trans pending)
  change execScrub st off e s = _
  unfold execScrub
  dsimp only
  rw [if_neg due]
  simp only [State.wakeLine_awake false awake, injectEcc_of_none noInject, ← count, ← stack, State.scrubbed]
  split
  · rfl
  · split
    · rfl
    · cases s.lineEcc e <;> rfl

end

/-! ## The dies' states (R264 to R268) -/

section
variable {s : State} {st : StackId} {die : Fin 16} {k : StackSt}

theorem exec_dieIdleEnter (stack : k = s.stk st) (awake : k.die die = 0) (allowed : bit (s.reg (stkBase st + rStkPwrSr)).toNat die = true)
    (idle : SMap.get 0 k.outst die = 0) (request : Bool) :
    exec (.dieIdleEnter st die request) s = .next (if request then s else s.setStk st (k.setDie die 1)) := by
  subst stack
  change execDieIdleEnter st die request s = _
  cases request <;> simp [execDieIdleEnter, awake, allowed, idle]

theorem exec_dieSelfRefreshReached (stack : k = s.stk st) (entering : k.die die = 1) : exec (.dieSelfRefreshReached st die) s =
    .next (s.setStk st (k.setDie die (if die.val ∈ k.wakeDue then 3 else 2))) := by
  subst stack
  change execDieSelfRefreshReached st die s = _
  simp only [execDieSelfRefreshReached, entering, if_true]

/-- A woken die is ACTIVE, and where none waits at the hall nothing further happens (R266). -/
theorem exec_dieWakeComplete (stack : k = s.stk st) (waking : k.die die = 3) (free : k.hall = []) : exec (.dieWakeComplete st die) s =
    .next (s.setStk st { k.setDie die 0 with
      wake := k.wake.filter fun w => !decide (w.die = die.val),
      outst := SMap.upd 0 k.outst die (· - k.wake.countP fun w => decide (w.die = die.val)), wakeDue := k.wakeDue.erase die.val }) := by
  subst stack
  change execDieWakeComplete st die s = _
  simp only [execDieWakeComplete, waking, if_true, State.setStk_same]
  rw [show StackSt.hall ((s.stk st).setDie die 0) = (s.stk st).hall from rfl, free, State.serveHall, State.setStk_same]
  rw [← free]
  exact congrArg _ (State.setStk_setStk_self _ _ _)

/-- A restored die reads zero throughout, and no other byte changes (R268). -/
theorem exec_dieRestoreComplete (stack : k = s.stk st) (restoring : k.die die = 5) (first : die.val ∉ k.restoring) :
    exec (.dieRestoreComplete st die) s = .next ((s.setMem (zeroRange s.mem (stackAddr st (die * dieBytes)) dieBytes)).setStk st
      { k.dieZeroed die with restoring := k.restoring ++ [die.val] }) := by
  subst stack
  change execDieRestoreComplete st die s = _
  unfold execDieRestoreComplete
  dsimp only
  rw [if_pos ⟨restoring, first⟩]

end

/-- Settles O12: the scrubber by what the line holds and meets, and each die by its state. -/
theorem scrubsAndDieStatesComplete : Obligations.ScrubsAndDieStatesComplete := by
  refine ⟨?_, fun s st die k stack => ⟨fun awake allowed idle => ⟨exec_dieIdleEnter stack awake allowed idle false,
    exec_dieIdleEnter stack awake allowed idle true⟩, exec_dieSelfRefreshReached stack, exec_dieWakeComplete stack,
    fun restoring first => ⟨_, exec_dieRestoreComplete stack restoring first, rfl, ?_, fun x => ?_, fun x => ?_⟩⟩⟩
  · intro s u st off l e p k line inside used awake free noInject owner count stack
    rw [exec_scrub line inside used awake free noInject owner count stack]
    refine ⟨fun good => ⟨fun ok => ?_, fun a corrected => ?_⟩, fun fails => ?_, fun noRow tag => ?_⟩
    · simp [ok, State.scrubbed, good, eccUnc, eccTag]
    · simp [corrected, State.scrubbed, good, eccUnc, eccTag]
    · unfold State.scrubbed
      rw [if_pos (fails.imp id ?_)]
      rintro ⟨a, error⟩
      rw [error]
      rfl
    · unfold State.scrubbed
      rw [if_neg, if_pos]
      · rcases tag with ⟨held, -⟩ | ⟨a, error⟩
        · exact .inl held
        · exact .inr (by rw [error]; rfl)
      · rintro (held | error)
        · exact noRow held
        · rcases tag with ⟨-, noUnc⟩ | ⟨a, tagFail⟩
          · cases found : s.lineEcc e with
            | uncorrectable a => exact noUnc a found
            | _ => simp [found, eccUnc] at error
          · simp [tagFail, eccUnc] at error
  · rw [State.setStk_same]
  · exact fun first last => Memory.read_zeroRange_inside _ first last
  · exact fun outside => Memory.read_zeroRange_outside _ outside

/-! ## Remap proposals (R203 to R205, R262, R263) -/

section
variable {s u : State} {bank row n : Nat}

theorem exec_remapProposal_scratch {c : CoreId} {k : CoreSt} (core : k = s.core c) (spares : n = usedSpares (k.remap ++ k.remapPend) bank)
    (named : (bank, row) ∈ k.rowLog) (commits : u = (s.setCore c { k with
        rowLog := k.rowLog.erase (bank, row), remapPend := k.remapPend ++ [{ bank := bank, row := row, spare := n }] }).commitRecord
      (fun x => { x with scrRemap := x.scrRemap ++ [(c.val, { bank := bank, row := row, spare := n })] })) :
    exec (.remapProposal (.scratch c bank row)) s =
      .next (if n < 8 then (if n = 7 then u.alarm 7 242 c 0 else u)
        else s.setCore c { k with rowLog := k.rowLog.erase (bank, row), retireMark := true }) := by
  subst core spares commits
  change execRemapProposal (.scratch c bank row) s = _
  unfold execRemapProposal
  dsimp only
  rw [if_neg (not_not.mpr named)]
  split <;> rfl

theorem exec_remapProposal_scratch_unnamed {c : CoreId} (unnamed : (bank, row) ∉ (s.core c).rowLog) :
    exec (.remapProposal (.scratch c bank row)) s = .next s := by
  change execRemapProposal (.scratch c bank row) s = _
  exact if_pos unnamed

/-- What becomes of the frame of a stack's row that no spare row can take (R262, R263). -/
def State.rowFails (u : State) (st f : Nat) : State :=
  match (u.frame st f).st with
  | .allocated => u.setFrame st f { u.frame st f with retireMark := true }
  | _ => u.retireFrame st f

theorem exec_remapProposal_stack {st : StackId} {k : StackSt} (stack : k = s.stk st)
    (spares : n = usedSpares (k.remap ++ k.remapPend ++ k.remapCopied) bank) (named : (bank, row) ∈ k.rowLog)
    (commits : u = ((s.setStk st { k with
        rowLog := k.rowLog.erase (bank, row), remapPend := k.remapPend ++ [{ bank := bank, row := row, spare := n }] }).commitRecord
      (fun x => { x with stkRemap := x.stkRemap ++ [(st.val, { bank := bank, row := row, spare := n })] })).startBg
        (.remapCopy st { bank := bank, row := row, spare := n })) :
    exec (.remapProposal (.stack st bank row)) s =
      .next (if n < 2 then (if n = 1 then u.alarm 7 242 (stkUnit st) 0 else u)
        else ((s.setStk st { k with rowLog := k.rowLog.erase (bank, row) }).emit (stkUnit st) 0x0D bank 0).rowFails st (frameOfRow bank row)) := by
  subst stack spares commits
  change execRemapProposal (.stack st bank row) s = _
  unfold execRemapProposal
  dsimp only
  rw [if_neg (not_not.mpr named)]
  split
  · rfl
  · generalize (s.setStk st { s.stk st with rowLog := (s.stk st).rowLog.erase (bank, row) }).emit (stkUnit st) 0x0D bank 0 = v
    unfold State.rowFails
    generalize v.frame st (frameOfRow bank row) = x
    obtain ⟨kind⟩ := x
    cases kind <;> rfl

theorem exec_remapProposal_stack_unnamed {st : StackId} (unnamed : (bank, row) ∉ (s.stk st).rowLog) :
    exec (.remapProposal (.stack st bank row)) s = .next s := by
  change execRemapProposal (.stack st bank row) s = _
  exact if_pos unnamed

end

/-- Settles O13: by whether a log names the row, and by the spare rows that its bank has left. -/
theorem remapProposalsTakeASpareRowOrRetireTheCore : Obligations.RemapProposalsTakeASpareRowOrRetireTheCore := by
  refine ⟨fun s c bank row n k core spares => ⟨fun named none => ?_, fun u named some commits => ?_, ?_⟩,
    fun s st bank row n k k' stack erased spares => ⟨fun u named some commits => ?_, fun u named none emitted => ?_, ?_⟩⟩
  · rw [exec_remapProposal_scratch core spares named rfl, if_neg (Nat.not_lt.mpr none)]
  · rw [exec_remapProposal_scratch core spares named commits, if_pos some]
    exact ⟨fun left => by rw [if_neg left], fun last => by rw [if_pos last]⟩
  · subst core
    exact exec_remapProposal_scratch_unnamed
  · subst erased
    rw [exec_remapProposal_stack stack spares named commits, if_pos some]
    exact ⟨fun first => by rw [if_neg (by omega)], fun last => by rw [if_pos last]⟩
  · subst erased
    rw [exec_remapProposal_stack stack spares named rfl, if_neg (Nat.not_lt.mpr none), ← emitted, State.rowFails]
    refine ⟨fun used => by simp only [used], fun idle => ?_⟩
    cases kind : (u.frame st (frameOfRow bank row)).st with
    | allocated => exact absurd kind idle
    | _ => rfl
  · subst stack
    exact exec_remapProposal_stack_unnamed

end Sys2Proof.Machine
end

section
/-! SUPPORT. The fill-and-copy engine: commands taken, refused, completed and abandoned (R251, R256 to R260). -/

namespace Sys2Proof.Machine

/-! ## Work on dies and frames leaves the engines' commands -/

/-- Two states have the same fill-and-copy commands and answers. -/
def State.SameEngines (s t : State) : Prop := ∀ y, (t.stk y).fc = (s.stk y).fc ∧ (t.stk y).fcDone = (s.stk y).fcDone

theorem State.SameEngines.refl (s : State) : s.SameEngines s := fun _ => ⟨rfl, rfl⟩

theorem State.SameEngines.trans {s t u : State} (st : s.SameEngines t) (tu : t.SameEngines u) : s.SameEngines u :=
  fun y => ⟨(tu y).1.trans (st y).1, (tu y).2.trans (st y).2⟩

theorem State.SameEngines.of_reported {s t : State} (same : s.Reported t) : s.SameEngines t := fun y => by
  rw [same.stk y]
  exact ⟨rfl, rfl⟩

theorem State.setStk_sameEngines (s : State) (st : Nat) {k : StackSt} (fc : k.fc = (s.stk st).fc) (done : k.fcDone = (s.stk st).fcDone) :
    s.SameEngines (s.setStk st k) := fun y => by
  by_cases here : st = y
  · subst here
    rw [State.setStk_same]
    exact ⟨fc, done⟩
  · rw [State.setStk_other _ _ _ here]
    exact ⟨rfl, rfl⟩

theorem State.setFrame_sameEngines (s : State) (st f : Nat) (x : Frame) : s.SameEngines (s.setFrame st f x) :=
  s.setStk_sameEngines st rfl rfl

theorem State.foldl_sameEngines {α : Type} {g : State → α → State} (keeps : ∀ (s : State) (x : α), s.SameEngines (g s x)) (l : List α)
    (s : State) : s.SameEngines (l.foldl g s) := by
  induction l generalizing s with
  | nil => exact .refl s
  | cons x l ih => exact (keeps s x).trans (ih _)

theorem State.wakeLine_sameEngines (s : State) (st off : Nat) (write : Bool) : s.SameEngines (s.wakeLine st off write).1 := by
  unfold State.wakeLine
  dsimp only
  split
  · exact .refl s
  iterate 3
    split
    · exact .refl s
    · split
      · exact .refl s
      · refine State.SameEngines.trans (s.setStk_sameEngines st ?_ ?_) (.of_reported (State.perf_reported _ _ _ _)) <;> split <;> rfl
  · exact .refl s

theorem State.wakeDie_sameEngines (s : State) (st d : Nat) : s.SameEngines (s.wakeDie st d) := by
  unfold State.wakeDie
  dsimp only
  split
  iterate 3 refine s.setStk_sameEngines st ?_ ?_ <;> split <;> rfl
  · exact .refl s

theorem State.creditStall_sameEngines (s : State) (st : Nat) : s.SameEngines (s.creditStall st) := s.setStk_sameEngines st rfl rfl

theorem State.dieWork_sameEngines (s : State) (up : Bool) (x : Nat × Nat) : s.SameEngines (s.dieWork up x) := by
  unfold State.dieWork
  dsimp only
  split
  · exact s.setStk_sameEngines x.1 rfl rfl
  · have woken := (s.setStk_sameEngines x.1 (k := { s.stk x.1 with
      outst := SMap.upd 0 (s.stk x.1).outst (dieOf x.2) fun n => if up then n + 1 else n - 1 }) rfl rfl).trans
        (State.wakeLine_sameEngines _ x.1 x.2 false)
    split
    · exact (woken.trans (State.wakeDie_sameEngines _ _ _)).trans (State.creditStall_sameEngines _ _)
    · exact woken

theorem State.fcLeaves_sameEngines (s : State) (x : FcCmd) : s.SameEngines (s.fcLeaves x) := by
  unfold State.fcLeaves
  split
  · exact .refl s
  · exact State.foldl_sameEngines (fun s d => s.dieWork_sameEngines false d) _ _

theorem State.cleanSource_sameEngines (s : State) (c : BitVec 256) : s.SameEngines (s.cleanSource c) :=
  State.foldl_sameEngines (fun s _ => s.setFrame_sameEngines _ _ _) _ _

@[simp] theorem State.setFc_fc (s : State) (st : Nat) (l : List FcCmd) : ((s.setFc st l).stk st).fc = fcPromote 0 l :=
  by simp [State.setFc]

@[simp] theorem State.setFc_fcDone (s : State) (st : Nat) (l : List FcCmd) : ((s.setFc st l).stk st).fcDone = (s.stk st).fcDone :=
  by simp [State.setFc]

@[simp] theorem State.fcAnswer_fc (s : State) (st : Nat) (d : FcDone) : ((s.fcAnswer st d).stk st).fc = (s.stk st).fc :=
  by simp [State.fcAnswer]

@[simp] theorem State.fcAnswer_fcDone (s : State) (st : Nat) (d : FcDone) :
    ((s.fcAnswer st d).stk st).fcDone = (s.stk st).fcDone ++ [d] := by simp [State.fcAnswer]

/-! ## Submission (R256, R257, R444) -/

section
variable {s : State} {st : Nat} {w : BitVec 256} {j : Bool}

/-- A command names a frame that another names, but for a VERIFY_ZERO behind its completed FILL (R257, R444; log entry 142). -/
def State.fcOverlaps (s : State) (st : Nat) (w : BitVec 256) : Bool :=
  (List.range 16).any fun t => (s.stk t).fc.any fun x =>
    fcOverlap st w t x.cmd && !(fcKind w = 4 && fcKind x.cmd = 0 && x.phase = .complete)

theorem State.fcSubmit_full (full : 64 ≤ ((s.stk st).fc.countP fun x => x.phase = .queued)) : s.fcSubmit st w j = s := if_pos full

theorem State.fcSubmit_room (room : ((s.stk st).fc.countP fun x => x.phase = .queued) < 64) :
    s.fcSubmit st w j = if s.fcRejects st w j then s.fcAnswer st { seq := fcSeq w, status := .rejectWindow, jormir := j }
      else if s.fcOverlaps st w then s.fcAnswer st { seq := fcSeq w, status := .rejectOverlap, jormir := j }
      else ((s.fcDies st w).foldl (fun s d => s.dieWork true d) s).setFc st
        ((s.stk st).fc ++ [{ cmd := w, jormir := j, dies := s.fcDies st w }]) := if_neg (Nat.not_le.mpr room)

/-- Submission changes no memory. -/
theorem State.fcSubmit_queued_memories (ds : List (Nat × Nat)) (l : List FcCmd) :
    s.SameMemories ((ds.foldl (fun s d => s.dieWork true d) s).setFc st l) :=
  State.setFc_keeps s.sameMemories_stable
    (List.foldl_keeps ⟨rfl, rfl⟩ fun _ _ => State.dieWork_keeps s.sameMemories_stable)

end

/-! ## Completion (R258, R260, R444) -/

/-- The command with a sequence number that may complete: it is active, and the dies that it works on are awake (R266). -/
def State.fcDue (s : State) (st seq : Nat) : Option FcCmd :=
  (s.stk st).fc.find? fun y => decide (fcSeq y.cmd = seq) && y.phase = .active && y.dies.all fun d => decide ((s.stk d.1).die (dieOf d.2) = 0)

section
variable {s u v : State} {st : StackId} {seq : BitVec 32} {x : FcCmd} {n : Nat}

theorem exec_fcCommandCompletion_failed (due : s.fcDue st seq.toNat = some x) (kind : fcKind x.cmd ≠ 0)
    (bad : s.fcSourceBad st x.cmd = true) :
    exec (.fcCommandCompletion st seq .ok) s = .next (((s.fcLeaves x).setFc st ((s.stk st).fc.filter fun y => !decide (y = x))).fcAnswer st
      { seq := seq.toNat, status := .uncorrectable, jormir := x.jormir }) := by
  unfold State.fcDue at due
  change execFcCommandCompletion st seq .ok s = _
  simp only [execFcCommandCompletion, due]
  exact if_pos ⟨kind, .inr (.inr bad)⟩

/-- The lines and bytes of a command that has met no error are counted and charged (R251, R358). -/
def State.fcCounted (s : State) (st : Nat) (x : FcCmd) : State :=
  let u := (((s.fcLeaves x).setStk st { (s.fcLeaves x).stk st with fcLines := ((s.fcLeaves x).stk st).fcLines + 1024 * fcFrames x.cmd }).perf
    (stkUnit st) 0x05 (1024 * fcFrames x.cmd)).chargePart (fcPart x.cmd)
      { stackB := if fcKind x.cmd = 0 ∨ fcKind x.cmd = 4 then 64 * (1024 * fcFrames x.cmd) else 128 * (1024 * fcFrames x.cmd) }
  if fcKind x.cmd = 2 ∧ fcSrcStack x.cmd ≠ fcDstStack x.cmd then
    (u.perf (stkUnit (fcSrcStack x.cmd)) 0x02 (1024 * fcFrames x.cmd)).perf (stkUnit (fcDstStack x.cmd)) 0x03 (1024 * fcFrames x.cmd) else u

theorem exec_fcCommandCompletion_done (due : s.fcDue st seq.toNat = some x) (good : fcKind x.cmd = 0 ∨ s.fcSourceBad st x.cmd = false) :
    exec (.fcCommandCompletion st seq .ok) s = .next (if fcKind x.cmd = 4 then
      (((s.fcCounted st x).verified st (fcDst x.cmd) ((s.fcCounted st x).firstNonZero st (fcDst x.cmd) (fcFrames x.cmd)) (fcFrames x.cmd)).setFc st
        ((s.stk st).fc.filter fun y => !decide (y = x))).fcAnswer st
          { seq := seq.toNat, status := .ok, line := (s.fcCounted st x).firstNonZero st (fcDst x.cmd) (fcFrames x.cmd), jormir := x.jormir }
      else
        let w := if fcKind x.cmd = 0 then (s.fcCounted st x).markFilled st (fcDst x.cmd) (fcFrames x.cmd) else s.fcCounted st x
        let w := if fcKind x.cmd = 2 then w.cleanSource x.cmd else w
        w.setFc st ((w.stk st).fc.map fun y =>
          if y = x then { y with phase := .complete, image := (s.fcCounted st x).fcImage st x.cmd } else y)) := by
  unfold State.fcDue at due
  change execFcCommandCompletion st seq .ok s = _
  have fine : ¬ (fcKind x.cmd ≠ 0 ∧ (eccUnc .ok = true ∨ eccTag .ok = true ∨ s.fcSourceBad st x.cmd = true)) := by
    rintro ⟨kind, unc | tag | bad⟩
    · exact Bool.false_ne_true unc
    · exact Bool.false_ne_true tag
    · rcases good with zero | good
      · exact kind zero
      · exact Bool.false_ne_true (good.symm.trans bad)
  simp only [execFcCommandCompletion, due]
  refine (if_neg fine).trans ?_
  dsimp only [State.lineEcc]
  rw [State.fcCounted]
  split
  · rfl
  · rfl

theorem exec_stkMoveStalled (waits : ((s.stk st).fc.find? fun y =>
      decide (fcSeq y.cmd = seq.toNat ∧ fcKind y.cmd = 2 ∧ 16 ≤ y.waited) && !y.stalled) = some x) :
    exec (.stkMoveStalled st seq) s = .next ((s.setStk st { s.stk st with
      fc := (s.stk st).fc.map fun y => if y = x then { y with stalled := true } else y }).emit (stkUnit st) 0x0F seq.toNat x.waited
        (some (fcPart x.cmd))) := by
  change execStkMoveStalled st seq s = _
  simp only [execStkMoveStalled, waits]

end

/-- An abandoned MOVE leaves the engine, answered, and its source's dirty bits cleared (R259, R260). -/
theorem State.fcAbandon_move {s : State} {st : Nat} {x : FcCmd} (move : fcKind x.cmd = 2) :
    ((s.fcAbandon st x).stk st).fcDone = (s.stk st).fcDone ++ [{ seq := fcSeq x.cmd, status := .abandoned, jormir := x.jormir }] ∧
      ((s.fcAbandon st x).stk st).fc = fcPromote 0 ((s.stk st).fc.filter fun y => !decide (y = x)) := by
  have cleaned := s.cleanSource_sameEngines x.cmd st
  have left := ((s.cleanSource_sameEngines x.cmd).trans (State.fcLeaves_sameEngines _ x)) st
  unfold State.fcAbandon State.fcDrop
  simp only [move, State.fcAnswer_fc, State.fcAnswer_fcDone, State.setFc_fc, State.setFc_fcDone, left.2, cleaned.1, and_self]
/-- Settles O14: submission by the room, the windows and the frames that commands name; completion by the source and the kind. -/
theorem fillAndCopyCommandsComplete : Obligations.FillAndCopyCommandsComplete := by
  refine ⟨fun s st w j cmd over_ row named => ?_, fun s st seq x => ⟨exec_fcCommandCompletion_failed, fun n u v due good count charged ports =>
    ⟨fun z kind marked => ?_, fun l kind line => ?_⟩, exec_stkMoveStalled, fun named => ?_⟩⟩
  · have submits : exec cmd s = .next (s.fcSubmit st w j) := by
      simp only [List.mem_cons, List.not_mem_nil, or_false, Prod.mk.injEq] at row
      rcases row with ⟨rfl, kind⟩ | ⟨rfl, kind⟩ | ⟨rfl, kind⟩ | ⟨rfl, kind⟩ | ⟨rfl, kind⟩
      · exact if_pos (.inl kind)
      · exact if_pos kind
      · exact if_pos kind
      · exact if_pos kind
      · exact if_pos kind
    replace named : over_ = s.fcOverlaps st w := named
    rw [submits]
    refine ⟨fun full => by rw [State.fcSubmit_full full], fun room => ?_⟩
    rw [State.fcSubmit_room room, ← named]
    refine ⟨fun rejects => ?_, fun fits overlaps => ?_, fun fits apart ds dies => ?_⟩
    · rw [if_pos rejects]
      rfl
    · rw [fits, overlaps]
      rfl
    · rw [fits, apart, ← dies]
      obtain ⟨mem, host⟩ := s.fcSubmit_queued_memories (st := st) ds ((s.stk st).fc ++ [{ cmd := w, jormir := j, dies := ds }])
      exact ⟨_, rfl, rfl, State.setFc_fc _ _ _, mem, host⟩
  · subst count charged
    replace ports : v = s.fcCounted st x := ports
    rw [exec_fcCommandCompletion_done due good, if_neg kind, ← ports, marked]
    by_cases zero : fcKind x.cmd = 0
    · simp only [zero, if_true, show ¬ (0 : Nat) = 2 by decide, if_false]
    · simp only [zero, if_false]
  · subst count charged
    replace ports : v = s.fcCounted st x := ports
    rw [exec_fcCommandCompletion_done due good, if_pos kind, ← ports, line]
  · have kind : fcKind x.cmd = 2 := by
      have found := List.find?_some named
      exact (of_decide_eq_true found).2
    have memories : s.SameMemories (s.fcAbandon st x) := State.fcAbandon_keeps s.sameMemories_stable ⟨rfl, rfl⟩
    refine ⟨s.fcAbandon st x, ?_, rfl, memories.1, memories.2, State.fcAbandon_move kind⟩
    change execMoveAbandon st seq s = _
    simp only [execMoveAbandon, named]

end Sys2Proof.Machine
end

section
/-! SUPPORT. Attention slices, served rows and candidate lists (R254, R255, R266, R276, R281 to R287). -/

namespace Sys2Proof.Machine

/-! ## Channels of descriptors alone -/

/-- A channel that holds descriptors alone has no FILL or COPY to run (R213). -/
theorem runFills_of_descs (s : State) (c ch i : Nat) {l : List DmaEnt} (all : ∀ e ∈ l, ∃ d a b, e.op = .desc d a b) :
    State.runFills c ch s i l = s := by
  induction l generalizing i with
  | nil => rfl
  | cons e l ih =>
    obtain ⟨d, a, b, op⟩ := all e List.mem_cons_self
    have rest := ih (i + 1) fun x mem => all x (List.mem_cons_of_mem e mem)
    cases phase : e.phase <;> simp [State.runFills, phase, op, rest]

theorem settleChan_of_descs {s : State} {c ch : Nat} (all : ∀ e ∈ (s.core c).chan ch, ∃ d a b, e.op = .desc d a b) : s.settleChan c ch = s :=
  runFills_of_descs s c ch 0 all

theorem descs_of_modify {l : List DmaEnt} {i : Nat} {f : DmaEnt → DmaEnt} (all : ∀ e ∈ l, ∃ d a b, e.op = .desc d a b)
    (keeps : ∀ e, (f e).op = e.op) : ∀ e ∈ l.modify i f, ∃ d a b, e.op = .desc d a b := by
  intro e mem
  obtain ⟨j, inside, rfl⟩ := List.mem_iff_getElem.mp mem
  rw [List.length_modify] at inside
  rw [List.getElem_modify]
  split
  · rw [keeps]
    exact all _ (List.getElem_mem inside)
  · exact all _ (List.getElem_mem inside)

/-- The row of a descriptor has come, and nothing behind it in its channel runs: its channel's instruction alone changes. -/
theorem State.rowCame_of_descs {s : State} {c ch : Nat} (i n : Nat) (all : ∀ e ∈ (s.core c).chan ch, ∃ d a b, e.op = .desc d a b) :
    s.rowCame c ch i n = s.updEnt c ch i fun x => { x with outstanding := x.outstanding - 1, owed := x.owed - 1, conf := x.conf + n } := by
  refine settleChan_of_descs ?_
  rw [State.updEnt_chan_same]
  exact descs_of_modify all fun _ => rfl

/-! ## Slices (R255, R266, R276, R281 to R283) -/

/-- The turn moves on at a stack (R282). -/
def State.turn (s : State) (st p left : Nat) : State := s.setStk st { s.stk st with wrrPart := p, wrrLeft := left }

/-- A row leaves its engine. -/
def State.dropRow (s : State) (st id : Nat) : State := s.setRows st fun l => l.filter fun x => !decide (x.id = id)

theorem State.turn_rows (s : State) (st p left : Nat) : ((s.turn st p left).stk st).rows = (s.stk st).rows := by
  simp [State.turn]

theorem State.dropRow_rows (s : State) (st id : Nat) : ((s.dropRow st id).stk st).rows = (s.stk st).rows.filter fun x => !decide (x.id = id) :=
  congrArg StackSt.rows (State.setStk_same _ _ _)

section
variable {s : State} {st : StackId} {e : PhysErr} {p left : Nat} {r : AttnRow}

theorem exec_attentionSlice_stale (next : s.nextTurn st = some (p, left))
    (row : ((s.stk st).rows.find? fun r => r.part = p && s.rowWaits st r) = some r) (stale : s.epochOk r.part r.ctx r.epoch = false) :
    exec (.attentionSlice st e) s = .next (((s.dropRow st r.id).staleDrop 1).turn st p left) := by
  change execAttentionSlice st e s = _
  simp only [execAttentionSlice, next, row, stale]
  rfl

section
variable (next : s.nextTurn st = some (p, left)) (row : ((s.stk st).rows.find? fun r => r.part = p && s.rowWaits st r) = some r)
  (fresh : s.epochOk r.part r.ctx r.epoch = true) {g : KvGeom} (geom : (s.stream r.stream).geom = some g) {u v w : State} {a : Nat} {x : Acc}
include next row fresh geom

theorem exec_attentionSlice_ok {r' : AttnRow}
    (served : s.serve (s.stream r.stream) g (s.lineEcc e) (((r.span (s.stream r.stream)).1 - 1) / 64) 16 r = .ok u r') :
    exec (.attentionSlice st e) s = .next ((((u.setRows st fun l => l.map fun x => if x.id = r.id then r' else x).perf (stkUnit st) 0x09 1).charge
      r.part r.ctx { slices := 1 }).turn st p left) := by
  change execAttentionSlice st e s = _
  simp only [execAttentionSlice, next, row, fresh, geom, served]
  rfl

theorem exec_attentionSlice_wait
    (served : s.serve (s.stream r.stream) g (s.lineEcc e) (((r.span (s.stream r.stream)).1 - 1) / 64) 16 r = .wait u a) :
    exec (.attentionSlice st e) s = .next (s.waitsAt u a) := by
  change execAttentionSlice st e s = _
  simp only [execAttentionSlice, next, row, fresh, geom, served]
  rfl

/-- A row whose page is not there leaves its engine, and its instruction, where it still stands, with the fault of its window (R276). -/
theorem exec_attentionSlice_invalid
    (served : s.serve (s.stream r.stream) g (s.lineEcc e) (((r.span (s.stream r.stream)).1 - 1) / 64) 16 r = .invalid a) :
    exec (.attentionSlice st e) s = .next ((match s.entOf r.core r.chan r.stamp with
      | some (i, y) => (s.dropRow st r.id).attnWindow r.core r.chan i y st a
      | none => s.dropRow st r.id).turn st p left) := by
  change execAttentionSlice st e s = _
  simp only [execAttentionSlice, next, row, fresh, geom, served]
  cases s.entOf r.core r.chan r.stamp <;> rfl

/-- A row whose line fails leaves its engine, counted, and its instruction, where it still stands, ends unconfirmed (R255). -/
theorem exec_attentionSlice_error
    (served : s.serve (s.stream r.stream) g (s.lineEcc e) (((r.span (s.stream r.stream)).1 - 1) / 64) 16 r = .error u x)
    (dropped : v = u.setRows st fun l => l.filter fun x => !decide (x.id = r.id))
    (counted : w = v.setStk st { v.stk st with rowFails := bump 16 (v.stk st).rowFails }) :
    exec (.attentionSlice st e) s = .next ((match w.entOf r.core r.chan r.stamp with
      | some (i, y) => w.dmaFailed r.core r.chan i y x
      | none => w).turn st p left) := by
  change execAttentionSlice st e s = _
  simp only [execAttentionSlice, next, row, fresh, geom, served, ← dropped, ← counted]
  cases w.entOf r.core r.chan r.stamp <;> rfl

end
end

/-! ## Served rows (R217, R281, R284) -/

section
variable {s u v w : State} {st : StackId} {row : Nat} {r : AttnRow} {a : Acc}
  (found : ((s.stk st).rows.find? fun r => r.id = row && r.served) = some r) (dropped : u = s.dropRow st row)
include found dropped

theorem exec_attentionRowComplete_stale (stale : s.epochOk r.part r.ctx r.epoch = false) :
    exec (.attentionRowComplete st row) s = .next (u.staleDrop 1) := by
  have same : u.epochOk r.part r.ctx r.epoch = false := dropped ▸ stale
  unfold State.dropRow at dropped
  change execAttentionRowComplete st row s = _
  simp only [execAttentionRowComplete, found, ← dropped, same]
  rfl

variable (fresh : s.epochOk r.part r.ctx r.epoch = true)
  (counted : v = (u.setStk st { u.stk st with
    rowsDone := ((u.stk st).rowsDone + 1) % 2 ^ 64,
    nanHeads := satAdd 32 (u.stk st).nanHeads (r.accs.countP HeadAcc.bad) }).perf (stkUnit st) 0x0A 1)
  (written : v.devWrite r.dst r.output r.part r.ctx .ok = (w, a))
include fresh counted written

/-- A served row whose output is written, or refused by its destination. -/
theorem exec_attentionRowComplete_entry (noWait : ∀ t, a ≠ .wait t) {j : Nat} {y : DmaEnt}
    (entry : v.entOf r.core r.chan r.stamp = some (j, y)) : exec (.attentionRowComplete st row) s =
      .next (if a = .ok then w.rowCame r.core r.chan j r.output.length else w.dmaFailed r.core r.chan j y a) := by
  have same : u.epochOk r.part r.ctx r.epoch = true := dropped ▸ fresh
  unfold State.dropRow at dropped
  change execAttentionRowComplete st row s = _
  simp only [execAttentionRowComplete, found, ← dropped, same, ← counted, written, entry]
  cases a with
  | wait t => exact absurd rfl (noWait t)
  | _ => rfl

/-- A served row whose instruction is gone from its channel. -/
theorem exec_attentionRowComplete_noEntry (noWait : ∀ t, a ≠ .wait t) (entry : v.entOf r.core r.chan r.stamp = none) :
    exec (.attentionRowComplete st row) s = .next w := by
  have same : u.epochOk r.part r.ctx r.epoch = true := dropped ▸ fresh
  unfold State.dropRow at dropped
  change execAttentionRowComplete st row s = _
  simp only [execAttentionRowComplete, found, ← dropped, same, ← counted, written, entry]
  cases a with
  | wait t => exact absurd rfl (noWait t)
  | _ => rfl

end

/-! ## Candidate lists (R287, R366) -/

section
variable {s u v : State} {i : Nat} {m : CandFly} {t : StreamSt} (list : s.cands[i]? = some m)
  (taken : u = { s with cands := s.cands.eraseIdx i }) (stream : t = s.stream m.stream)
include list taken

theorem exec_candidateListMerge_stale (stale : s.epochOk m.part m.ctx m.epoch = false) :
    exec (.candidateListMerge i) s = .next (u.staleDrop 1) := by
  have same : u.epochOk m.part m.ctx m.epoch = false := by subst taken; exact stale
  change execCandidateListMerge i s = _
  simp only [execCandidateListMerge, list, ← taken, same]
  rfl

variable (fresh : s.epochOk m.part m.ctx m.epoch = true)
include stream fresh

/-- A list is due at its stream: in the batch, of this context, one of the number that its visit waits for (R287). -/
def StreamSt.listDue (t : StreamSt) (m : CandFly) : Prop :=
  ¬ (!(t.inBatch && t.visitDue) ∨ t.part ≠ m.part ∨ t.ctx ≠ m.ctx ∨ (t.cand.arrived ≠ 0 ∧ t.cand.parts ≠ m.parts) ∨
    (t.cand.arrived ≠ 0 ∧ t.cand.parts ≤ t.cand.arrived))

theorem exec_candidateListMerge_due (due : t.listDue m) (merged : v = u.setStream m.stream { t with
      cand := { parts := m.parts, arrived := t.cand.arrived + 1, list := top64 (t.cand.list ++ candPairs m.list) } }) :
    exec (.candidateListMerge i) s = .next (match v.entOf m.core m.chan m.stamp with
      | some (j, _) => v.rowCame m.core m.chan j 512
      | none => v) := by
  have same : u.epochOk m.part m.ctx m.epoch = true := by subst taken; exact fresh
  have stays : u.stream m.stream = t := by subst taken; exact stream.symm
  change execCandidateListMerge i s = _
  simp only [execCandidateListMerge, list, ← taken, same, stays, ← merged]
  rw [if_neg (by decide)]
  refine (if_neg due).trans ?_
  cases v.entOf m.core m.chan m.stamp <;> rfl

theorem exec_candidateListMerge_wrong (wrong : ¬ t.listDue m) :
    exec (.candidateListMerge i) s = .next ((u.countFld rSeqErr 47 32 1).contain m.part m.ctx 0x28 224) := by
  have same : u.epochOk m.part m.ctx m.epoch = true := by subst taken; exact fresh
  have stays : u.stream m.stream = t := by subst taken; exact stream.symm
  change execCandidateListMerge i s = _
  simp only [execCandidateListMerge, list, ← taken, same, stays]
  rw [if_neg (by decide)]
  exact if_pos (not_not.mp wrong)

end

/-! ## What a row's end leaves stored -/

/-- Two states hold the same bytes and the same rows of the attention engines. -/
structure State.SameStored (s t : State) : Prop where
  mem : t.mem = s.mem
  host : t.host = s.host
  scratch : ∀ k x, (t.core k).scrByte x = (s.core k).scrByte x
  rows : ∀ y, (t.stk y).rows = (s.stk y).rows

theorem State.SameStored.refl (s : State) : s.SameStored s := ⟨rfl, rfl, fun _ _ => rfl, fun _ => rfl⟩

theorem State.SameStored.trans {s t u : State} (st : s.SameStored t) (tu : t.SameStored u) : s.SameStored u :=
  ⟨tu.mem.trans st.mem, tu.host.trans st.host, fun k x => (tu.scratch k x).trans (st.scratch k x), fun y => (tu.rows y).trans (st.rows y)⟩

theorem State.SameStored.of_reported {s t : State} (same : s.Reported t) : s.SameStored t := by
  rw [same.1]
  exact ⟨rfl, rfl, fun _ _ => rfl, fun _ => rfl⟩

theorem State.updEnt_sameStored (s : State) (c ch i : Nat) (f : DmaEnt → DmaEnt) : s.SameStored (s.updEnt c ch i f) :=
  ⟨rfl, rfl, s.updEnt_scrByte c ch i f, fun _ => rfl⟩

theorem State.setRcv_sameStored (s : State) (x : RecSt) : s.SameStored { s with rcv := x } := ⟨rfl, rfl, fun _ _ => rfl, fun _ => rfl⟩

theorem State.setCtx_sameStored (s : State) (p h : Nat) (k : Option CtxSt) : s.SameStored (s.setCtx p h k) :=
  ⟨rfl, rfl, fun _ _ => rfl, fun _ => rfl⟩

theorem State.emit_sameStored (s : State) (unit kind d0 d1 : Nat) (part : Option Nat) (ctx : Nat) (superseded : Bool) :
    s.SameStored (s.emit unit kind d0 d1 part ctx superseded) := .of_reported (s.emit_reported unit kind d0 d1 part ctx superseded)

theorem State.countFld_sameStored (s : State) (off hi lo n : Nat) : s.SameStored (s.countFld off hi lo n) :=
  .of_reported (s.countFld_reported off hi lo n)

theorem State.landing_sameStored (s : State) (level unit status : Nat) (part ctx : Option Nat) :
    s.SameStored (s.landing level unit status part ctx) := by
  unfold State.landing
  dsimp only
  exact ((s.countFld_sameStored _ _ _ _).trans (State.emit_sameStored _ _ _ _ _ _ _ _)).trans (State.setRcv_sameStored _ _)

theorem State.contain_sameStored (s : State) (p h status unit : Nat) (flight : Option Nat) (noted : Bool) :
    s.SameStored (s.contain p h status unit flight noted) := by
  unfold State.contain
  dsimp only
  have cleared := s.setRcv_sameStored { s.rcv with suspects := s.rcv.suspects.filter fun x => !decide (x.part = p ∧ x.ctx = h) }
  split
  · split
    · exact (cleared.trans (State.setCtx_sameStored _ _ _ _)).trans (State.landing_sameStored _ _ _ _ _ _)
    · split
      · exact cleared.trans (State.setCtx_sameStored _ _ _ _)
      · exact (cleared.trans (State.setCtx_sameStored _ _ _ _)).trans (State.emit_sameStored _ _ _ _ _ _ _ _)
  · exact cleared

theorem State.dmaFailed_sameStored (s : State) (c ch i : Nat) (e : DmaEnt) (a : Acc) : s.SameStored (s.dmaFailed c ch i e a) := by
  unfold State.dmaFailed
  dsimp only
  split
  · exact s.updEnt_sameStored _ _ _ _
  · exact (s.updEnt_sameStored _ _ _ _).trans (State.contain_sameStored _ _ _ _ _ _ _)

/-- A write to a scratchpad puts its bytes and changes no other, whether its offset is mapped or it has no byte. -/
theorem State.devWrite_scratch {s : State} {c : CoreId} {o : Nat} {data : List Byte} (fits : o + data.length ≤ 0x600000) (part ctx : Nat)
    (e : Ecc) : ∃ w a, s.devWrite (scrAddr c o) data part ctx e = (w, a) ∧ (∀ t, a ≠ .wait t) ∧ (a = .ok ∨ data.length = 0) ∧
      w.mem = s.mem ∧ w.host = s.host ∧ (∀ y, (w.stk y).rows = (s.stk y).rows) ∧
      (∀ x, x < data.length → (w.core c).scrByte (o + x) = data.getD x 0) ∧
      (∀ (k : Nat) (x : Nat), (k ≠ c ∨ x < o ∨ o + data.length ≤ x) → (w.core k).scrByte x = (s.core k).scrByte x) ∧
      (∀ k ch, (w.core k).chan ch = (s.core k).chan ch) := by
  have place := placeOf_scrAddr c (o := o) (by omega)
  by_cases mapped : o < 0x600000
  · rw [if_pos mapped] at place
    refine ⟨s.setCore c ((s.core c).scrWrite o data), .ok, by rw [State.devWrite, place], fun t other => (nomatch other), .inl rfl, rfl, rfl,
      fun _ => rfl, fun x inside => ?_, fun k x outside => ?_, s.setCore_scrWrite_chan c o data⟩
    · rw [State.setCore_same, CoreSt.scrByte_scrWrite_same _ _ _ inside, List.getD_eq_getElem _ _ inside]
    · by_cases same : c.val = k
      · subst same
        rw [State.setCore_same, CoreSt.scrByte_scrWrite_other _ _ _ (outside.resolve_left (not_not.mpr rfl))]
      · rw [State.setCore_other _ _ _ same]
  · rw [if_neg mapped] at place
    exact ⟨s, .refused, by rw [State.devWrite, place], fun t other => (nomatch other), .inr (by omega), rfl, rfl, fun _ => rfl,
      fun x inside => by omega, fun _ _ _ => rfl, fun _ _ => rfl⟩

/-- A served row's output reaches a scratchpad, and no other byte changes (R281, R284). -/
theorem exec_attentionRowComplete_scratch {s : State} {st : StackId} {row : Nat} {r : AttnRow}
    (found : ((s.stk st).rows.find? fun r => r.id = row && r.served) = some r) (fresh : s.epochOk r.part r.ctx r.epoch = true)
    (descs : ∀ x ∈ (s.core r.core).chan r.chan, ∃ d a b, x.op = .desc d a b) {c : CoreId} {o : Nat} (dst : r.dst = scrAddr c o)
    (fits : o + r.output.length ≤ 0x600000) :
    ∃ t, exec (.attentionRowComplete st row) s = .next t ∧ t.mem = s.mem ∧ t.host = s.host ∧
      (t.stk st).rows = (s.stk st).rows.filter (fun x => !decide (x.id = row)) ∧
      (∀ x, x < r.output.length → (t.core c).scrByte (o + x) = r.output.getD x 0) ∧
      (∀ (k : Nat) (x : Nat), (k ≠ c ∨ x < o ∨ o + r.output.length ≤ x) → (t.core k).scrByte x = (s.core k).scrByte x) := by
  obtain ⟨u, dropped⟩ : ∃ u, u = s.dropRow st row := ⟨_, rfl⟩
  obtain ⟨v, counted⟩ : ∃ v, v = (u.setStk st { u.stk st with
    rowsDone := ((u.stk st).rowsDone + 1) % 2 ^ 64,
    nanHeads := satAdd 32 (u.stk st).nanHeads (r.accs.countP HeadAcc.bad) }).perf (stkUnit st) 0x0A 1 := ⟨_, rfl⟩
  have rows : (v.stk st).rows = (s.stk st).rows.filter fun x => !decide (x.id = row) := by
    rw [counted, State.perf_stk, State.setStk_same, dropped]
    exact s.dropRow_rows st row
  have core (k : Nat) : v.core k = s.core k := by
    rw [counted, State.perf_core, dropped]
    rfl
  have memories : v.mem = s.mem ∧ v.host = s.host := by
    have same := State.SameStored.of_reported (State.perf_reported (u.setStk st { u.stk st with
      rowsDone := ((u.stk st).rowsDone + 1) % 2 ^ 64,
      nanHeads := satAdd 32 (u.stk st).nanHeads (r.accs.countP HeadAcc.bad) }) (stkUnit st) 0x0A 1)
    rw [← counted] at same
    subst dropped
    exact ⟨same.mem, same.host⟩
  obtain ⟨w, a, written, noWait, -, mem, host, wrows, bytes, others, chans⟩ := v.devWrite_scratch (data := r.output) fits r.part r.ctx .ok
  rw [← dst] at written
  have descsW : ∀ x ∈ (w.core r.core).chan r.chan, ∃ d a b, x.op = .desc d a b := by
    rw [chans, core]
    exact descs
  obtain ⟨t, run, same⟩ : ∃ t, exec (.attentionRowComplete st row) s = .next t ∧ w.SameStored t := by
    cases entry : v.entOf r.core r.chan r.stamp with
    | none => exact ⟨w, exec_attentionRowComplete_noEntry found dropped fresh counted written noWait entry, .refl w⟩
    | some jy =>
      refine ⟨_, exec_attentionRowComplete_entry found dropped fresh counted written noWait (j := jy.1) (y := jy.2) entry, ?_⟩
      split
      · rw [State.rowCame_of_descs _ _ descsW]
        exact w.updEnt_sameStored _ _ _ _
      · exact w.dmaFailed_sameStored _ _ _ _ _
  refine ⟨t, run, same.mem.trans (mem.trans memories.1), same.host.trans (host.trans memories.2), ?_, fun x inside => ?_, fun k x outside => ?_⟩
  · rw [same.rows, wrows, rows]
  · rw [same.scratch, bytes x inside]
  · rw [same.scratch, others k x outside, core]

/-- Settles O15: slices by how the blocks end, served rows by their destination, and lists by their stream. -/
theorem attentionSlicesAndListsComplete : Obligations.AttentionSlicesAndListsComplete := by
  refine ⟨fun s st => ⟨fun e p left r g next row => ⟨fun stale => ?_, fun x fresh geom served => ⟨?_, ?_, ?_, ?_⟩⟩, fun row r u found dropped =>
    ⟨exec_attentionRowComplete_stale found dropped, fun v w j y fresh counted written entry => ?_⟩, fun row r found fresh descs c o dst fits =>
    exec_attentionRowComplete_scratch found fresh descs dst fits⟩, fun s u i m t list taken stream =>
    ⟨exec_candidateListMerge_stale list taken, fun v fresh batch due part ctx number merged => ?_, fun fresh wrong => ?_⟩⟩
  · refine ⟨_, exec_attentionSlice_stale next row stale, ?_, rfl, rfl⟩
    rw [State.turn_rows]
    exact s.dropRow_rows st r.id
  · rintro u v r' rfl charged
    rw [exec_attentionSlice_ok next row fresh geom served.symm, ← charged]
    rfl
  · rintro u w rfl
    exact exec_attentionSlice_wait next row fresh geom served.symm
  · rintro u v w a rfl dropped counted
    rw [exec_attentionSlice_error next row fresh geom served.symm dropped counted]
    refine ⟨fun gone => by rw [gone]; rfl, fun j y f entry failed => ?_⟩
    rw [entry, failed]
    rfl
  · rintro a v rfl dropped
    rw [exec_attentionSlice_invalid next row fresh geom served.symm]
    refine ⟨fun gone => by rw [gone, dropped]; rfl, fun j y f entry failed => ?_⟩
    rw [entry, failed, dropped]
    rfl
  · rw [exec_attentionRowComplete_entry found dropped fresh counted written (fun t other => (nomatch other)) entry, if_pos rfl]
    rfl
  · have listDue : t.listDue m := by
      unfold StreamSt.listDue
      simp only [batch, due, part, ctx, Bool.and_self, Bool.not_true, Bool.false_eq_true, ne_eq, not_true, false_or]
      omega
    rw [exec_candidateListMerge_due list taken stream fresh listDue merged]
    refine ⟨fun gone => by rw [gone], fun j x entry => ?_⟩
    rw [entry]
    rfl
  · refine exec_candidateListMerge_wrong list taken stream fresh (not_not.mpr ?_)
    rcases wrong with out | idle | part | ctx | ⟨some, parts | full⟩
    · exact .inl (by simp [out])
    · exact .inl (by simp [idle])
    · exact .inr (.inl part)
    · exact .inr (.inr (.inl ctx))
    · exact .inr (.inr (.inr (.inl ⟨some, parts⟩)))
    · exact .inr (.inr (.inr (.inr ⟨some, full⟩)))

end Sys2Proof.Machine
end

section
/-! SUPPORT. Visits, ring checks and hall ring mode (R287 to R291, R299 to R301). -/

namespace Sys2Proof.Machine

section
variable {s u : State} {i : StreamId} {head : BitVec 32} {ns : BitVec 16} {t : StreamSt} {pos : Nat}

/-- A due visit runs on the stream with its head word read, where its ring seems short and its interface is not LOCKED (R291, R473). -/
theorem exec_visit (due : s.mayVisit i = true) (stream : t = if s.locked (s.stream i).part then s.stream i else (s.stream i).readHead head.toNat) :
    exec (.visit i head ns) s = .next ((s.countVisit ns.toNat).visit i t) := by
  subst stream
  exact if_pos due

theorem State.visit_noSample (at_ : pos = t.tokenPos) (sample : t.sampleAt pos = none) : u.visit i t =
    (u.putVisit i t { token := 0xFFFFFFFF, pos := pos, prob := 0, rank := 0, fate := .faulted, wrote := false }).countFld rSeqErr 31 0 1 := by
  subst at_
  simp only [State.visit, sample]

theorem State.visit_sample (at_ : pos = t.tokenPos) {x : Sampled} (sample : t.sampleAt pos = some x) {f : Fate}
    (fate : t.fateOf x.token pos (t.ringFree t.head) = f) : u.visit i t =
      let v := u.putVisit i t { token := x.token, pos := pos, prob := x.prob, rank := x.rank, fate := f, wrote := decide (f ≠ .heldRing) }
      if decide (f ≠ .heldRing) then v.hostPut (t.entryHost t.tail) (ringEntry x.token pos x.prob x.rank f.code) t.part t.ctx else v := by
  subst at_
  simp only [State.visit, sample, fate]

theorem exec_ringCheck (waiting : (s.stream i).st = .waiting) (held : (s.stream i).heldRing = true) (opened : s.tick.isOpen = true) :
    exec (.ringCheck i head) s = .next (if s.locked (s.stream i).part then s else s.setStream i { s.stream i with
      head := head.toNat, ringOk := decide (2 ≤ (s.stream i).ringFree head.toNat) }) := by
  change execRingCheck i head s = _
  cases locked : s.locked (s.stream i).part <;> simp [execRingCheck, waiting, held, opened, locked]

/-- Hall ring mode as it starts for a purpose. -/
def State.ringStart (s : State) (p : PartId) (purpose : RingPurpose) (i : StreamId) (n h : Nat) : State :=
  { s with hallRing := some { part := p, ctx := h, epoch := s.epochOf p h, purpose := purpose, stream := i, positions := n } }

theorem exec_hallRingStart {p : PartId} {purpose : RingPurpose} {n : Nat} (halls : s.allHalls p = true) (free : s.hallRing = none)
    (allowed : (match purpose with
      | .rebuild => (s.stream i).part = p.val && (s.stream i).st ≠ .free && decide (n ≤ 262144)
      | .selfTest => decide (n ≤ 262144)
      | .testUnlock => s.unlocked 3 && decide (n ≤ 1048576)) = true) :
    exec (.hallRingStart p purpose i n) s = .next (s.ringStart p purpose i n (if purpose = .selfTest then 0 else (s.stream i).ctx)) := by
  refine if_pos ?_
  rw [halls, free]
  exact (Bool.and_true _).trans allowed

end

/-- Settles O17: visits by the sample and its fate, ring checks by the interface's state, hall ring mode by its purpose. -/
theorem visitsSampleAndWriteTheirEntry : Obligations.VisitsSampleAndWriteTheirEntry := by
  refine fun s i head => ⟨fun ns t pos due stream at_ => ⟨fun sample => ?_, fun x sample => ⟨fun fate => ?_, fun f fate writes => ?_⟩⟩,
    fun waiting held opened => ⟨fun free => ?_, fun locked => ?_⟩, fun p n x halls free start => ⟨fun few part used => ?_, fun few => ?_,
    fun few unlocked => ?_⟩⟩
  · rw [exec_visit due stream, State.visit_noSample at_ sample]
  · rw [exec_visit due stream, State.visit_sample at_ sample fate]
    rfl
  · rw [exec_visit due stream, State.visit_sample at_ sample fate, decide_eq_true writes]
    rfl
  · simp [exec_ringCheck waiting held opened, free]
  · simp [exec_ringCheck waiting held opened, locked]
  · subst start
    exact exec_hallRingStart (purpose := .rebuild) halls free (by simp [part, used, few])
  · subst start
    exact exec_hallRingStart (purpose := .selfTest) halls free (by simp [few])
  · subst start
    exact exec_hallRingStart (purpose := .testUnlock) halls free (by simp [few, unlocked])

end Sys2Proof.Machine
end


section
/-! SUPPORT. Doorbell polls, descriptor fetches, loads and reloads (R304, R307, R310, R311, R333, R341, R343): each with the answer that its
own guards leave. -/

namespace Sys2Proof.Machine

/-! ## Doorbells and fetches (R310, R311) -/

/-- A doorbell word of a polled queue is charged 8 bytes first, and judged then. -/
theorem execDoorbellPoll_of_polls {q : QueueId} {s u : State} (w : Word) (polled : s.polls q = true)
    (charged : u = match queuePart q with
      | some p => s.chargePart p { pcieB := 8 }
      | none => s) :
    exec (.doorbellPoll q w) s =
      if w.toNat / 2 ^ 32 ≠ (s.queue q).gen ∨ u.sqSize q < (w.toNat % 2 ^ 32 + 2 ^ 32 - (s.queue q).fetch % 2 ^ 32) % 2 ^ 32 then
        .next ((u.flag rFeStatus 1).countFld rFeDbIgnored 31 0 1)
      else .next (u.setQueue q { s.queue q with tail := w.toNat % 2 ^ 32 }) := by
  subst charged
  change execDoorbellPoll q w s = _
  simp only [execDoorbellPoll, polled, Bool.not_true, Bool.false_eq_true, if_false] <;> rfl

/-- A descriptor is fetched where the head word, as it is read now, gives its records credit. -/
theorem execDescriptorFetch_of_room {q : QueueId} {s : State} (d : BitVec 512) (aux : FetchAux) (head : BitVec 32)
    (polled : s.polls q = true) (rung : (s.queue q).fetch % 2 ^ 32 ≠ (s.queue q).tail) (room : (s.queue q).buffer.length < 256) :
    exec (.descriptorFetch q d aux head) s =
      if (s.refreshHead q d (some head)).hasCredit q ((s.refreshHead q d (some head)).queue q).head d then
        .next ((s.refreshHead q d (some head)).takeDesc q d aux [])
      else .next (s.refreshHead q d (some head)) := by
  change execDescriptorFetch q d aux head s = _
  have full : ¬ 256 ≤ (s.queue q).buffer.length := by omega
  simp only [execDescriptorFetch, polled, rung, full, Bool.not_true, decide_false, Bool.or_false, Bool.false_eq_true, if_false]

/-- What the front end takes in joins its queue's buffer. -/
theorem State.takeDesc_of_queue {s v : State} {q : Nat} {d : BitVec 512} {aux : FetchAux} {fs : List (Nat × Nat)} {ds : DescSt}
    (taken : (v, ds) = s.takeIn q d aux fs) (queue : q ≠ 1024) :
    s.takeDesc q d aux fs = v.setQueue q { v.queue q with buffer := (v.queue q).buffer ++ [ds] } := by
  simp only [State.takeDesc, ← taken, queue, if_false]

/-- The control queue's descriptor is processed at once (R312). -/
theorem State.takeDesc_of_control {s v : State} {q : Nat} {d : BitVec 512} {aux : FetchAux} {fs : List (Nat × Nat)} {ds : DescSt}
    (taken : (v, ds) = s.takeIn q d aux fs) (control : q = 1024) :
    s.takeDesc q d aux fs = v.admitDesc q ds := by
  rw [State.takeDesc, if_pos control, ← taken]

/-! ## Loads and reloads (R307, R343) -/

/-- A load that has begun and is not done answers its completion. -/
theorem execLoadGraphComplete_of_found {s : State} {id p a q : Nat} {c : Bool} {ds : DescSt} {b : BgOp} (r : LoadResult)
    (found : (s.bg.find? fun b => decide (b.id = id) && !b.done && b.begun) = some b) (load : b.kind = .load p a c ds q) :
    exec (.loadGraphComplete id r) s = .next (s.loadDone b p ds r) := by
  change execLoadGraphComplete id r s = _
  simp only [execLoadGraphComplete, found, load]

/-- A load of a LOCKED interface waits (R473; log entry 170). -/
theorem State.loadDone_of_locked {s : State} {p : Nat} (b : BgOp) (ds : DescSt) (r : LoadResult) (locked : s.locked p = true) :
    s.loadDone b p ds r = s := by
  simp only [State.loadDone, locked, or_true, if_true]

section
variable {s : State} {p : Nat} {b : BgOp} {ds : DescSt}

/-- A load whose image does not hold its own checks ends with their status. -/
theorem State.loadDone_of_fault (r : LoadResult) (whole : sLenB ds.d ≤ ds.img.length) (unlocked : s.locked p = false)
    (fault : s.loadFault p ds ≠ 0) : s.loadDone b p ds r = s.putBg { b with done := true, status := s.loadFault p ds } := by
  simp only [State.loadDone, unlocked, Nat.not_lt.mpr whole, Bool.false_eq_true, or_self, if_false, fault, ne_eq, not_false_eq_true,
    if_true]

/-- A load that fails at a stage ends with that stage's status. -/
theorem State.loadDone_of_failed {e : Byte} (whole : sLenB ds.d ≤ ds.img.length) (unlocked : s.locked p = false)
    (sound : s.loadFault p ds = 0) (stage : loadStatus e.toNat = true) :
    s.loadDone b p ds (.failed e) = s.putBg { b with done := true, status := e.toNat } := by
  simp only [State.loadDone, unlocked, Nat.not_lt.mpr whole, Bool.false_eq_true, or_self, if_false, sound, ne_eq, not_true_eq_false,
    stage, if_true]

end

/-- The statuses of R307's stages. -/
theorem loadStatus_of_mem {n : Nat} (stage : n ∈ [0x01, 0x03, 0x08, 0x09]) : loadStatus n = true := by
  simpa [loadStatus, or_assoc] using stage

/-- Contents of the bound buffers' own length, in places that hold them, are sharded as the tiles say. -/
theorem State.shards_of_whole {s : State} {p : Nat} {hs : List (BitVec 32)} {host bytes : List Byte} {tiles : List WeightTile}
    {fs : List (Nat × Nat)} {sts : List Nat} (length : host.length = s.boundHost p hs) (read : bytes = s.boundBytes p hs host)
    (held : sts = tileStacks (s.stackSet p) [] tiles) (ok : shardsOk bytes tiles sts fs = true) :
    s.shards p hs host tiles fs = some (bytes, shardBlocks bytes tiles sts fs) := by
  simp only [State.shards, ← read, ← held, length, ok, and_self, if_true]

/-- A reload with a stale binding ends its held launches with 0x03. -/
theorem State.bindsLive_eq_false {s : State} {p : Nat} {g : GraphSt} (stale : ∃ h ∈ g.binds, s.bufOk p h.toNat false = false) :
    s.bindsLive p g = false := by
  simpa [State.bindsLive] using stale

theorem State.bindsLive_eq_true {s : State} {p : Nat} {g : GraphSt} (live : ∀ h ∈ g.binds, s.bufOk p h.toNat false = true) :
    s.bindsLive p g = true := by
  simpa [State.bindsLive] using live

/-- A reload whose bindings live and whose interface is not LOCKED reads its graph. -/
theorem execReloadComplete_of_live {s : State} {p : PartId} {n : BitVec 32} {b : BgOp} {g : GraphSt} {place : PlaceCommit}
    {weights : List (Nat × Nat)} {host params bytes : List Byte} {tiles : List WeightTile} {blocks : List (List Byte)}
    (found : (s.bg.find? fun b => decide (b.kind = .reload p n.toNat) && !b.done && b.begun) = some b)
    (graph : s.graph p n.toNat = some g) (live : s.bindsLive p g = true) (unlocked : s.locked p = false)
    (sharded : s.shards p g.binds host tiles weights = some (bytes, blocks)) :
    exec (.reloadComplete p n (.done place weights host tiles params)) s =
      .next (s.reloadDone b p n.toNat g place weights bytes blocks) := by
  change execReloadComplete p n (.done place weights host tiles params) s = _
  simp only [execReloadComplete, found, graph, live, unlocked, sharded, Bool.not_true, Bool.false_eq_true, if_false]

/-- Settles O18: a doorbell and a fetch by their guards, a load and a reload by what their image, bindings and reads give. -/
theorem fetchesAndLoadsComplete : Obligations.FetchesAndLoadsComplete := by
  unfold Obligations.FetchesAndLoadsComplete
  refine ⟨fun s q polled => ⟨fun w u charged => ?_, fun d aux head u v ds rung room refreshed taken => ?_⟩, fun s => ⟨?_, ?_⟩⟩
  · rw [execDoorbellPoll_of_polls w polled charged]
    refine ⟨fun gen claim => if_neg ?_, fun bad => if_pos bad⟩
    simp only [gen, ne_eq, not_true_eq_false, false_or, Nat.not_lt]
    exact claim
  · rw [execDescriptorFetch_of_room d aux head polled rung room, ← refreshed]
    refine ⟨fun credit queue => ?_, fun credit control => ?_, fun credit => ?_⟩
    · rw [if_pos credit, State.takeDesc_of_queue taken queue]
    · rw [if_pos credit, State.takeDesc_of_control taken control]
    · simp only [credit, Bool.false_eq_true, if_false]
  · intro id p a q c ds b found load whole
    refine ⟨fun locked r => ?_, fun unlocked => ⟨fun r fault => ?_, fun e sound stage => ?_,
      fun place weights host params bytes tiles sts u sound length read held ok => ?_⟩⟩
    · rw [execLoadGraphComplete_of_found r found load, State.loadDone_of_locked b ds r locked]
    · rw [execLoadGraphComplete_of_found r found load, State.loadDone_of_fault r whole unlocked fault]
      rfl
    · rw [execLoadGraphComplete_of_found _ found load, State.loadDone_of_failed whole unlocked sound (loadStatus_of_mem stage)]
      rfl
    · rw [execLoadGraphComplete_of_found _ found load]
      have sharded := State.shards_of_whole length read held ok
      refine ⟨fun bound => ?_, fun bound => ?_⟩ <;>
      · simp only [State.loadDone, unlocked, Nat.not_lt.mpr whole, Bool.false_eq_true, or_self, if_false, sound, ne_eq,
          not_true_eq_false, sharded, bound]
        rfl
  · intro p n b g found graph
    refine ⟨fun stale r => ?_, fun place weights host params bytes tiles sts u v live unlocked length read held ok bound charged => ?_⟩
    · change execReloadComplete p n r s = _
      simp only [execReloadComplete, found, graph, State.bindsLive_eq_false stale, Bool.not_false, if_true]
    · rw [execReloadComplete_of_live found graph (State.bindsLive_eq_true live) unlocked (State.shards_of_whole length read held ok)]
      refine ⟨fun digest => ?_, fun digest => ?_⟩
      · simp only [State.reloadDone, bound, ← charged, digest, ne_eq, not_true_eq_false, if_false]
        rfl
      · simp only [State.reloadDone, bound, ← charged, digest, ne_eq, not_false_eq_true, if_true]

end Sys2Proof.Machine
end


section
/-! SUPPORT. Submissions (R310 to R312, R324, R327): what keeps a descriptor in its ring, its queue or the front end, and a LAUNCH of a LOCKED
interface, which waits where the digest engine reads its ranges (log entry 170). -/

namespace Sys2Proof.Machine

/-! ## A LAUNCH that waits for its interface (O19) -/

/-- Partition 0's interface is LOCKED; nothing else has come since the reset. -/
def lockedReset : State := { ({} : State) with parts := [(0, { tdi := 1 })] }

/-- A LAUNCH that declares ranges for the digest engine. -/
def digestLaunch : DescSt := { d := 1, aux := { digest := some ([], [], 0) }, seq := 0 }

/-- A LOCKED interface's LAUNCH whose ranges the digest engine reads stays among what is admitted (R473; log entry 170). -/
theorem State.effect2_of_locked_digest {s : State} {q p : Nat} {ds : DescSt} (part : queuePart q = some p) (launch : sOp ds.d = 0x01)
    (locked : s.locked p = true) (declared : ds.aux.digest.isSome = true) :
    s.effect2 q ds = { s with admitted := s.admitted ++ [(q, ds)] } := by
  simp only [State.effect2, part, launch, locked, declared, Bool.and_self, Bool.or_true, if_true]

/-- A LAUNCH that names no graph is answered 0x03. -/
theorem State.capture_of_no_graph {s : State} {p : Nat} {ds : DescSt} (q : Nat) (none : s.graph p (sA ds.d) = none) :
    s.capture q p ds = s.complete q ds 0x03 0 3 := by
  simp only [State.capture, none]

/-- Refutes O19: in `lockedReset`, `digestLaunch` waits for no load, and all the same is not captured: it stays admitted, while a capture, which
answers it 0x03, admits nothing. -/
theorem not_submissionsHaveTheirEffect : ¬ Obligations.SubmissionsHaveTheirEffect := by
  unfold Obligations.SubmissionsHaveTheirEffect
  rintro ⟨-, -, effects⟩
  have launch : sOp digestLaunch.d = 0x01 := by decide +kernel
  have unknown : lockedReset.graph 0 (sA digestLaunch.d) = none := by decide +kernel
  have captured := (effects lockedReset 0 0 digestLaunch [] rfl).1 launch rfl
  rw [State.effect2_of_locked_digest (p := 0) rfl launch rfl rfl, State.capture_of_no_graph 0 unknown] at captured
  have admitted := congrArg (fun s : State => s.admitted.length) captured
  exact absurd admitted (by decide +kernel)

/-! ## What stays where it is (R310 to R312, R324) -/

/-- What the front end cannot take stays in its ring; at most the head word is read. -/
theorem State.submit_of_not_takes {s : State} {op q : Nat} {d : BitVec 512} {aux : FetchAux} (fs : List (Nat × Nat))
    (refused : (s.refreshHead q d aux.head).takes op q d = false) : s.submit op q d aux fs = s.refreshHead q d aux.head := by
  simp only [State.submit, refused, Bool.not_false, if_true]

/-- Settles O20: a row by `submit_of_not_takes`, a queue by its head, an admission by its first check that fails. -/
theorem submissionsWaitOrAreRefused : Obligations.SubmissionsWaitOrAreRefused := by
  unfold Obligations.SubmissionsWaitOrAreRefused
  refine ⟨fun s q d aux fs op cmd row refused => ?_, fun s q n ds rest front => ⟨fun waits => ?_, fun goes => ?_⟩,
    fun s u q ds counted => ⟨fun failed => ?_, fun sound refused => ?_⟩⟩
  · have kept (gs : List (Nat × Nat)) : (.next (s.submit op q d aux gs) : Host.Outcome State Fault Refusal) =
        .next (s.refreshHead q d aux.head) := congrArg _ (State.submit_of_not_takes gs refused)
    simp only [List.mem_cons, List.not_mem_nil, or_false, Prod.mk.injEq] at row
    rcases row with ⟨rfl, rfl⟩ | ⟨rfl, rfl⟩ | ⟨rfl, rfl⟩ | ⟨rfl, rfl⟩ | ⟨rfl, rfl⟩ | ⟨rfl, rfl⟩ | ⟨rfl, rfl⟩ | ⟨rfl, rfl⟩ |
      ⟨rfl, rfl⟩ | ⟨rfl, rfl⟩ | ⟨rfl, rfl⟩ | ⟨rfl, rfl⟩ <;> exact kept _
  · simp only [State.admitQueue, front, waits, if_true]
  · simp only [State.admitQueue, front, goes, Bool.false_eq_true, if_false]
  · simp only [State.admitDesc, ← counted, failed, if_true]
  · simp only [State.admitDesc, ← counted, sound, Bool.false_eq_true, if_false, refused, ne_eq, not_false_eq_true, if_true]

end Sys2Proof.Machine
end


section
/-! SUPPORT. The tick (R49, R52, R54, R61 to R68): what its close, its edge, its drain, its open and its limit lead to, and the barrier that it
may close through. -/

namespace Sys2Proof.Machine

/-! ## Closes and edges (R49, R52, R61, R68) -/

section
variable {s q v : State}

/-- Outside a group, the end of the tick is its boundary. -/
theorem State.reachClose_alone (b : BoundaryIn) (alone : q.grouped = false) : q.reachClose b = q.boundary b := by
  simp only [State.reachClose, alone, Bool.not_false, if_true]

/-- The root counts itself in, and releases if it was the last. -/
theorem State.reachClose_root (b : BoundaryIn) (group : q.grouped = true) (first : q.tick.arriveSent = false) (root : q.source = 3)
    (sent : v = { q with tick := { q.tick with arriveSent := true } }) : q.reachClose b = v.rootReleases := by
  have source : v.source = 3 := by
    rw [sent]
    exact root
  simp only [State.reachClose, group, Bool.not_true, Bool.false_eq_true, if_false, first, ← sent, source, if_true]

/-- Any other member sends its arrive to the root. -/
theorem State.reachClose_member (b : BoundaryIn) (group : q.grouped = true) (first : q.tick.arriveSent = false) (member : q.source ≠ 3)
    (sent : v = { q with tick := { q.tick with arriveSent := true } }) :
    q.reachClose b = v.sendBarrier 3 (Config.barrierRoot % 256) := by
  have source : ¬ v.source = 3 := by
    rw [sent]
    exact member
  simp only [State.reachClose, group, Bool.not_true, Bool.false_eq_true, if_false, first, ← sent, source]

/-- A nominal close of a tick that nothing holds. -/
theorem State.nominal_free (b : BoundaryIn) (sampled : q = s.progressCheck) (free : q.holders = []) : s.nominal b = q.reachClose b := by
  simp only [State.nominal, ← sampled, free, if_true]

/-- A nominal close of a tick that is held marks it overrun. -/
theorem State.nominal_held (b : BoundaryIn) (sampled : q = s.progressCheck) (held : q.holders ≠ []) : s.nominal b = q.overran := by
  simp only [State.nominal, ← sampled, held, if_false]

/-- A tick that may close has not overrun. -/
theorem State.closable_overrun (closable : s.closable = true) : s.tick.overrun = false := by
  simp only [State.closable, Bool.and_eq_true, Bool.not_eq_true'] at closable
  exact closable.1.2

/-- An edge that a follower takes: none earlier than 250 µs (R68). -/
theorem execTickSyncInEdge_taken (us : Nat) (b : BoundaryIn) (follower : s.source = 1) (runs : s.genState = 1 ∨ s.genState = 2)
    (late : 250 ≤ us) :
    exec (.tickSyncInEdge us b) s =
      if s.tick.closed ∧ !s.tick.overrun then .next (s.overran.overrunEvents (s.tick.lenUs - s.fld rTckPeriod 16 0))
      else if s.tick.overrun then .next s.overran
      else if s.closable then .next (s.nominal b)
      else .next s := by
  change execTickSyncInEdge us b s = _
  have early : ¬ us < 250 := by omega
  simp only [execTickSyncInEdge, follower, runs, early, ne_eq, not_true_eq_false, decide_true, Bool.not_true, Bool.false_eq_true, or_self,
    if_false]

/-- The nominal close by the timer. -/
theorem execNominalClose_eq (b : BoundaryIn) (s : State) :
    exec (.nominalClose b) s = if s.closable ∧ s.source ≠ 1 then .next (s.nominal b) else .next s := rfl

/-- What an edge makes of a tick that may close. -/
theorem execTickSyncInEdge_closes (us : Nat) (b : BoundaryIn) (follower : s.source = 1) (runs : s.genState = 1 ∨ s.genState = 2)
    (late : 250 ≤ us) (closable : s.closable = true) (isOpen : s.tick.closed = false) :
    exec (.tickSyncInEdge us b) s = .next (s.nominal b) := by
  rw [execTickSyncInEdge_taken us b follower runs late]
  simp only [isOpen, s.closable_overrun closable, closable, Bool.false_eq_true, false_and, if_false, if_true]

/-! ## Drains and limits (R61, R62, R378) -/

/-- An overrun tick that has drained closes. -/
theorem execTickDrained_drained (b : BoundaryIn) (isOpen : s.tick.isOpen = true) (overrun : s.tick.overrun = true)
    (runs : s.genState = 1 ∨ s.genState = 2) (free : s.holders = []) : exec (.tickDrained b) s = .next (s.reachClose b) :=
  if_pos ⟨isOpen, overrun, runs, free⟩

theorem execTickDrained_not (b : BoundaryIn) (not : s.tick.isOpen = false ∨ s.tick.overrun = false ∨ s.holders ≠ []) :
    exec (.tickDrained b) s = .next s := by
  refine if_neg ?_
  rintro ⟨isOpen, overrun, -, free⟩
  rcases not with not | not | not
  · simp [not] at isOpen
  · simp [not] at overrun
  · exact not free

/-- With no engine hung and no host access stalled, the limit tears each holder down with TICK_LIMIT. -/
theorem execLimitPoint_limit {u : State} (isOpen : s.tick.isOpen = true) (fresh : s.tick.tearing = false) (held : s.holders ≠ [])
    (marked : u = s.takeSample.flag rTckStatus 4)
    (sound : ∀ i < 802, s.takeSample.hungKey s.takeSample.tick.sinceOpen i = false)
    (moving : ∀ c < 192, u.stalledKey s.takeSample.tick.sinceOpen (4 * c + 3) = false) :
    exec .limitPoint s = .next (s.takeSample.holders.foldl (fun t x => t.contain x.1 x.2 0x20 226)
      { u with tick := { u.tick with limitHit := true, tearing := true } }) := by
  have noneHung (x : Nat) :
      ((List.range 802).any fun i => decide (unitOfKey i = x) && s.takeSample.hungKey s.takeSample.tick.sinceOpen i) = false :=
    List.any_eq_false.mpr fun i hi => by simp [sound i (List.mem_range.mp hi)]
  have noneStalled (l : List Nat) :
      (l.any fun x => decide (x < 192) && u.stalledKey s.takeSample.tick.sinceOpen (4 * x + 3)) = false :=
    List.any_eq_false.mpr fun c _ => by
      by_cases h : c < 192
      · simp [moving c h]
      · simp [h]
  change execLimitPoint s = _
  simp only [execLimitPoint, isOpen, fresh, held, Bool.not_true, Bool.or_self, decide_false, Bool.false_eq_true, if_false,
    ← marked, noneHung, noneStalled, List.filter_false]

end

/-- Settles O21: each of the tick's commands by its guards, in the order in which the model reads them. -/
theorem ticksCloseAndOpen : Obligations.TicksCloseAndOpen := by
  unfold Obligations.TicksCloseAndOpen
  refine ⟨fun s q v b sampled sent => ⟨fun closable timed => ?_, fun not => ?_, fun us follower runs => ⟨fun early => ?_, fun late closed first => ?_,
    fun late overrun => ?_, fun late closable isOpen => ?_⟩, fun us not => ?_⟩, fun s v b sent => ⟨fun isOpen overrun => ?_, fun not => ?_,
    fun closed go run => ?_, fun closed stops => ?_, fun isOpen => ?_⟩, fun s u isOpen fresh held marked sound moving =>
      execLimitPoint_limit isOpen fresh held marked sound moving, fun s not => ?_⟩
  · rw [execNominalClose_eq, if_pos ⟨closable, timed⟩]
    refine ⟨fun free alone => ?_, fun free group first => ⟨fun root => ?_, fun member => ?_⟩, fun held => ?_⟩
    · rw [State.nominal_free b sampled free, State.reachClose_alone b alone]
    · rw [State.nominal_free b sampled free, State.reachClose_root b group first root sent]
    · rw [State.nominal_free b sampled free, State.reachClose_member b group first member sent]
    · rw [State.nominal_held b sampled held]
  · refine if_neg ?_
    rintro ⟨closable, timed⟩
    rcases not with not | not
    · simp [not] at closable
    · exact timed not
  · change execTickSyncInEdge us b s = _
    simp only [execTickSyncInEdge, follower, runs, early, ne_eq, not_true_eq_false, decide_true, Bool.not_true, Bool.false_eq_true, or_self,
      if_false, if_true]
  · rw [execTickSyncInEdge_taken us b follower runs late, if_pos (by simp [closed, first])]
  · rw [execTickSyncInEdge_taken us b follower runs late, if_neg (by simp [overrun]), if_pos overrun, State.overran, if_pos overrun]
  · rw [execTickSyncInEdge_closes us b follower runs late closable isOpen]
    refine ⟨fun free alone => ?_, fun held => ?_⟩
    · rw [State.nominal_free b sampled free, State.reachClose_alone b alone]
    · rw [State.nominal_held b sampled held]
  · change execTickSyncInEdge us b s = _
    refine if_pos (not.imp_right fun stopped => ?_)
    simp [stopped]
  · refine ⟨fun runs free => ?_, fun held => execTickDrained_not b (.inr (.inr held)), if_pos ⟨isOpen, overrun⟩⟩
    rw [execTickDrained_drained b isOpen overrun runs free]
    refine ⟨fun alone => ?_, fun group first root => ?_, fun group first member => ?_⟩
    · rw [State.reachClose_alone b alone]
    · rw [State.reachClose_root b group first root sent]
    · rw [State.reachClose_member b group first member sent]
  · refine ⟨execTickDrained_not b (not.imp_right .inl), if_neg ?_⟩
    rintro ⟨isOpen, overrun⟩
    rcases not with not | not
    · simp [not] at isOpen
    · simp [not] at overrun
  · change execTickOpen s = _
    simp only [execTickOpen, closed, go, run, Bool.not_true, Bool.false_eq_true, or_self, if_false]
  · change execTickOpen s = _
    simp only [execTickOpen, closed, stops, Bool.not_true, Bool.false_eq_true, if_false, if_true]
    rfl
  · change execTickOpen s = _
    simp only [execTickOpen, isOpen, Bool.not_false, if_true]
  · change execLimitPoint s = _
    refine if_pos ?_
    simpa [or_assoc] using not

end Sys2Proof.Machine
end


section
/-! SUPPORT. The barrier of a group (R65, R67, R412): what an arrive and a release do at the module that they are for, and what a lost group
leaves. -/

namespace Sys2Proof.Machine

/-! ## Arrives and releases (R65, R412) -/

section
variable {s v : State} {n : PortId} {h : BitVec 256}

/-- An arrive that is heard frees its place, and counts at the root that it is for, once for each member. -/
theorem execBarrierArrive_heard (freed : v = s.freeFlits n { hdr := h }) (heard : s.hears n 3 h = true) :
    exec (.barrierArrive n h) s =
      if mDst h ≠ v.moduleId then .next (v.forward h [])
      else if v.source = 3 ∧ v.grouped ∧ mSrc h ≠ v.moduleId ∧ mSrc h ∉ v.tick.arrived ∧ v.tick.released.isNone then
        .next { v with tick := { v.tick with arrived := v.tick.arrived ++ [mSrc h] } }.rootReleases
      else .next v := by
  change execBarrierArrive n h s = _
  simp only [execBarrierArrive, heard, ← freed, Bool.not_true, Bool.false_eq_true, if_false]

/-- A release that is heard frees its place, and is taken by a member that has arrived. -/
theorem execBarrierRelease_heard (freed : v = s.freeFlits n { hdr := h }) (heard : s.hears n 4 h = true) :
    exec (.barrierRelease (n, h)) s =
      if mDst h ≠ v.moduleId then .next (v.forward h [])
      else if v.source = 2 ∧ v.grouped ∧ v.tick.arriveSent ∧ v.tick.released.isNone then .next (v.released (BitVec.ofNat 64 (mWord h)))
      else .next v := by
  change execBarrierRelease (n, h) s = _
  simp only [execBarrierRelease, heard, ← freed, Bool.not_true, Bool.false_eq_true, if_false]

end

/-- The root has heard every member, itself included. -/
theorem State.rootReleases_last {u : State} (sent : u.tick.arriveSent = true) (unreleased : u.tick.released = none)
    (last : u.tick.arrived.length + 1 = u.fld rTckBarrier 8 0) :
    u.rootReleases = (u.tick.arrived.foldl (fun s m => s.sendBarrier 4 m) u).released u.tickNo := by
  simp only [State.rootReleases, sent, unreleased, last, Option.isNone_none, decide_true, Bool.and_self, if_true]

theorem State.rootReleases_early {u : State} (early : u.tick.arriveSent = false ∨ u.tick.arrived.length + 1 ≠ u.fld rTckBarrier 8 0) :
    u.rootReleases = u := by
  refine if_neg ?_
  simp only [Bool.and_eq_true, decide_eq_true_eq, not_and]
  rintro ⟨sent, -⟩
  rcases early with early | early
  · simp [early] at sent
  · exact early

/-! ## A lost group (R67) -/

/-- One context of a lost group: it is cut where it belongs to a multi-module job and is not stopped. -/
def State.loseCtx (s : State) (p : Nat) (e : Nat × Option CtxSt) : State :=
  match e.2 with
  | some x => if s.multiModule p x && !x.stopped then s.cutContext p e.1 0x22 else s
  | none => s

/-- The contexts of a partition of a lost group. -/
def State.losePart (s : State) (p : Nat) : State := (s.part p).ctxs.foldl (fun s e => s.loseCtx p e) s

theorem execBarrierTimeout_lost {s u : State} (b : BoundaryIn) (group : s.grouped = true) (isOpen : s.tick.isOpen = true)
    (sent : s.tick.arriveSent = true) (unreleased : s.tick.released = none)
    (lost : u = ({ s with tick := { s.tick with group := false } } : State).flag rTckStatus 5) :
    exec (.barrierTimeout b) s = .next ((u.each State.losePart (List.range 16)).boundary b) := by
  subst lost
  change execBarrierTimeout b s = _
  exact if_pos ⟨group, isOpen, sent, by rw [unreleased]; rfl⟩

/-- A context that is stopped, or of no multi-module job, is not cut. -/
theorem State.loseCtx_kept {s : State} {p : Nat} {e : Nat × Option CtxSt}
    (kept : ∀ x, e.2 = some x → s.multiModule p x = true → x.stopped = true) : s.loseCtx p e = s := by
  unfold State.loseCtx
  split
  · rename_i x here
    refine if_neg ?_
    simp only [Bool.and_eq_true, Bool.not_eq_true', not_and, Bool.not_eq_false]
    exact kept x here
  · rfl

theorem List.foldl_fixed_of_mem {α β : Type} {f : β → α → β} {l : List α} {b : β} (fixed : ∀ a ∈ l, f b a = b) : l.foldl f b = b := by
  induction l with
  | nil => rfl
  | cons a l ih =>
    rw [List.foldl_cons, fixed a List.mem_cons_self]
    exact ih fun x hx => fixed x (List.mem_cons_of_mem a hx)

theorem State.losePart_kept {s : State} {p : Nat}
    (kept : ∀ e ∈ (s.part p).ctxs, ∀ x, e.2 = some x → s.multiModule p x = true → x.stopped = true) : s.losePart p = s :=
  List.foldl_fixed_of_mem fun e he => State.loseCtx_kept (kept e he)

theorem State.losePart_empty {s : State} {p : Nat} (none : (s.part p).ctxs = []) : s.losePart p = s := by
  rw [State.losePart, none]
  rfl

theorem State.each_eq_foldl (s : State) (f : State → Nat → State) (l : List Nat) : s.each f l = l.foldl f s := by
  induction l generalizing s with
  | nil => rfl
  | cons n ns ih => exact ih (f s n)

/-- Where one number alone has an effect, so has the whole list that holds it once. -/
theorem State.each_single {s t : State} {f : State → Nat → State} {l : List Nat} {p : Nat} (once : l.Nodup) (mem : p ∈ l)
    (here : f s p = t) (before : ∀ n ∈ l, n ≠ p → f s n = s) (after : ∀ n ∈ l, n ≠ p → f t n = t) : s.each f l = t := by
  obtain ⟨front, back, rfl⟩ := List.append_of_mem mem
  have distinct := List.nodup_middle.mp once
  have apart : ∀ n ∈ front ++ back, n ≠ p := fun n hn same => (List.nodup_cons.mp distinct).1 (same ▸ hn)
  rw [State.each_eq_foldl, List.foldl_append, List.foldl_cons,
    List.foldl_fixed_of_mem fun n hn => before n (by simp [hn]) (apart n (by simp [hn])), here]
  exact List.foldl_fixed_of_mem fun n hn => after n (by simp [hn]) (apart n (by simp [hn]))

theorem State.foldl_parts {α : Type} {g : State → α → State} (keeps : ∀ (s : State) (x : α), (g s x).parts = s.parts) (l : List α) (s : State) :
    (l.foldl g s).parts = s.parts := by
  induction l generalizing s with
  | nil => rfl
  | cons x l ih => exact (ih _).trans (keeps s x)

theorem State.onCores_parts (s : State) (f : CoreSt → CoreSt) (l : List Nat) : (s.onCores f l).parts = s.parts := by
  induction l generalizing s with
  | nil => rfl
  | cons c l ih => exact ih _

theorem State.endFlight_parts (s : State) (n status : Nat) : (s.endFlight n status).parts = s.parts := by
  unfold State.endFlight
  split
  · split
    · rfl
    · exact State.onCores_parts _ _ _
  · rfl

theorem State.pushCompl_parts (s : State) (c : ComplSt) : (s.pushCompl c).parts = s.parts := by
  unfold State.pushCompl
  dsimp only
  split <;> split <;> rfl

theorem State.foldl_complete_parts (s : State) (l : List (Nat × DescSt)) (status : Nat) :
    (l.foldl (fun s a => s.complete a.1 a.2 status) s).parts = s.parts :=
  State.foldl_parts (fun (s : State) (a : Nat × DescSt) => s.pushCompl_parts (complOf a.1 a.2 status 0 0)) l s

/-- Changing a context leaves the other partitions. -/
theorem State.updCtx_part {s : State} {p q : Nat} (h : Nat) (f : CtxSt → CtxSt) (other : q ≠ p) : (s.updCtx p h f).part q = s.part q := by
  unfold State.updCtx
  split
  · exact SMap.get_set_other _ _ other.symm
  · rfl

/-- The cut of a context leaves the other partitions. -/
theorem State.cutContext_part {s : State} {p q : Nat} (h status : Nat) (other : q ≠ p) : (s.cutContext p h status).part q = s.part q := by
  unfold State.cutContext
  rw [State.updCtx_part h _ other, State.part, State.foldl_complete_parts]
  exact congrArg (fun m => SMap.get {} m q) (State.foldl_parts (fun s n => s.endFlight_parts n status) _ s)

/-- Settles O22: an arrive and a release by their guards, the start by its own, a lost group by the contexts that it cuts. -/
theorem barriersComplete : Obligations.BarriersComplete := by
  unfold Obligations.BarriersComplete
  refine fun s => ⟨fun n h v freed => ⟨fun heard => ⟨fun other => ?_, fun m u source here root group notSelf unreleased joined => ?_⟩,
    fun heard => ⟨fun other => ?_, fun r release here member group sent unreleased => ?_⟩, fun deaf => ?_, fun deaf => ?_⟩,
    fun b isOpen released runs => if_pos ⟨isOpen, released, runs⟩, fun b u group isOpen sent unreleased lost => ⟨fun kept => ?_,
    fun p h x only others multi running => ?_⟩⟩
  · rw [execBarrierArrive_heard freed heard, if_pos other]
  · subst source
    rw [execBarrierArrive_heard freed heard, if_neg (not_not.mpr here)]
    have waits : v.tick.released.isNone = true := by rw [unreleased]; rfl
    have length : u.tick.arrived.length = v.tick.arrived.length + 1 := by
      rw [joined]
      exact List.length_append
    have bar : u.fld rTckBarrier 8 0 = v.fld rTckBarrier 8 0 := by rw [joined]; rfl
    have released : u.tick.released = none := by rw [joined]; exact unreleased
    refine ⟨fun fresh sent last => ?_, fun fresh early => ?_, fun again => if_neg fun guard => guard.2.2.2.1 again⟩
    · rw [if_pos ⟨root, group, notSelf, fresh, waits⟩, ← joined,
        State.rootReleases_last (by rw [joined]; exact sent) released (by rw [length, bar]; omega), joined]
      rfl
    · rw [if_pos ⟨root, group, notSelf, fresh, waits⟩, ← joined, State.rootReleases_early]
      rw [length, bar]
      refine early.imp (fun first => ?_) fun few => by omega
      rw [joined]
      exact first
  · rw [execBarrierRelease_heard freed heard, if_pos other]
  · rw [execBarrierRelease_heard freed heard, if_neg (not_not.mpr here), if_pos ⟨member, group, sent, by rw [unreleased]; rfl⟩, ← release]
    rfl
  · exact if_pos (by rw [deaf]; rfl)
  · exact if_pos (by rw [deaf]; rfl)
  · rw [execBarrierTimeout_lost b group isOpen sent unreleased lost, State.each_eq_foldl, List.foldl_fixed_of_mem]
    intro p hp
    refine State.losePart_kept ?_
    subst lost
    exact kept p (List.mem_range.mp hp)
  · rw [execBarrierTimeout_lost b group isOpen sent unreleased lost]
    have parts : u.parts = s.parts := by rw [lost]; rfl
    have ctxs (q : Nat) : (u.part q).ctxs = (s.part q).ctxs := by rw [State.part, parts]; rfl
    have job : u.multiModule p x = true := by
      subst lost
      exact multi
    have cut : u.losePart p = u.cutContext p h 0x22 := by
      simp only [State.losePart, ctxs, only, List.foldl_cons, List.foldl_nil, State.loseCtx, job, running, Bool.not_false, Bool.and_self,
        if_true]
    rw [State.each_single List.nodup_range (List.mem_range.mpr p.isLt) cut]
    · exact fun q hq other => State.losePart_empty ((ctxs q).trans (others q (List.mem_range.mp hq) other))
    · refine fun q hq other => State.losePart_empty ?_
      rw [State.cutContext_part h 0x22 other, ctxs]
      exact others q (List.mem_range.mp hq) other

end Sys2Proof.Machine
end


section
/-! SUPPORT. Fields of registers: what a field reads after a field has been written (R22), and GEN_EN, which a write of TCK_CTRL leaves to its own
row (R50). -/

namespace Sys2Proof.Machine

/-! ## Fields -/

theorem bits_testBit (x hi lo j : Nat) : (bits x hi lo).testBit j = (decide (j < hi + 1 - lo) && x.testBit (lo + j)) := by
  rw [bits, Nat.testBit_mod_two_pow, Nat.testBit_div_two_pow, Nat.add_comm lo]

/-- The bits of a word of which a field has been replaced. -/
theorem putBits_getLsbD {w : Word} {hi lo v i : Nat} (range : i < 64) (order : lo ≤ hi) :
    (putBits w hi lo v).getLsbD i = if lo ≤ i ∧ i ≤ hi then v.testBit (i - lo) else w.getLsbD i := by
  simp only [putBits, BitVec.getLsbD_or, BitVec.getLsbD_and, BitVec.getLsbD_not, BitVec.getLsbD_ofNat, range, decide_true, Bool.true_and,
    Nat.testBit_mul_two_pow, Nat.testBit_two_pow_sub_one]
  by_cases low : lo ≤ i
  · by_cases high : i ≤ hi
    · have inside : i - lo < hi + 1 - lo := by omega
      simp [low, high, inside]
    · have outside : ¬ i - lo < hi + 1 - lo := by omega
      simp [low, high, outside]
  · simp [low]

/-- A field reads what was written to it. -/
theorem State.fld_setFld_same (s : State) (off : Nat) {hi lo v : Nat} (order : lo ≤ hi) (range : hi < 64) (fits : v < 2 ^ (hi + 1 - lo)) :
    (s.setFld off hi lo v).fld off hi lo = v := by
  refine Nat.eq_of_testBit_eq fun j => ?_
  rw [State.fld, State.setFld, State.setReg_same, bits_testBit]
  by_cases inside : j < hi + 1 - lo
  · rw [BitVec.testBit_toNat, putBits_getLsbD (by omega) order, if_pos ⟨by omega, by omega⟩, Nat.add_sub_cancel_left]
    simp [inside]
  · simp only [inside, decide_false, Bool.false_and]
    exact (Nat.testBit_lt_two_pow (fits.trans_le (Nat.pow_le_pow_right (by omega) (by omega)))).symm

/-- A field of the register keeps its value where the bits written are not its own. -/
theorem State.fld_setFld_apart (s : State) (off : Nat) {hi lo v h l : Nat} (order : lo ≤ hi) (range : h < 64) (apart : h < lo ∨ hi < l) :
    (s.setFld off hi lo v).fld off h l = s.fld off h l := by
  refine Nat.eq_of_testBit_eq fun j => ?_
  rw [State.fld, State.setFld, State.setReg_same, State.fld, bits_testBit, bits_testBit]
  by_cases inside : j < h + 1 - l
  · rw [BitVec.testBit_toNat, putBits_getLsbD (by omega) order, if_neg (by omega), BitVec.testBit_toNat]
  · simp only [inside, decide_false, Bool.false_and]

theorem State.reg_setFld_other (s : State) {off o : Nat} (hi lo v : Nat) (other : off ≠ o) : (s.setFld off hi lo v).reg o = s.reg o :=
  s.setReg_other off _ other

theorem State.fld_setFld_other (s : State) {off o : Nat} (hi lo v h l : Nat) (other : off ≠ o) :
    (s.setFld off hi lo v).fld o h l = s.fld o h l := by
  rw [State.fld, State.reg_setFld_other s hi lo v other, State.fld]

/-! ## GEN_EN (R50) -/

theorem regFields_tckCtrl : regFields rTckCtrl =
    [⟨24, 16, .rwt, 100, 0, 400⟩, ⟨5, 4, .rwl, 0, 0, 2 ^ 64⟩, ⟨1, 1, .rw, 0, 0, 2 ^ 64⟩, ⟨0, 0, .rw, 0, 0, 2 ^ 64⟩] := by decide +kernel

/-- An ignored write of TCK_CTRL is flagged in TCK_STATUS. -/
theorem State.wrIgnored_tckCtrl (s : State) : s.wrIgnored ⟨.fix, 0, 0, rTckCtrl⟩ = s.flag rTckStatus 6 := rfl

/-- No field of TCK_CTRL that a write takes holds GEN_EN. -/
theorem State.writeField_genEn (s0 s : State) (word ones : Word) {f : FieldDesc} (field : f ∈ regFields rTckCtrl) :
    (State.writeField s0 s rTckCtrl ⟨.fix, 0, 0, rTckCtrl⟩ f word ones).fld rTckCtrl 0 0 = s.fld rTckCtrl 0 0 := by
  have ignored : (s.wrIgnored ⟨.fix, 0, 0, rTckCtrl⟩).fld rTckCtrl 0 0 = s.fld rTckCtrl 0 0 :=
    s.fld_setFld_other 6 6 1 0 0 (by decide)
  rw [regFields_tckCtrl] at field
  simp only [List.mem_cons, List.not_mem_nil, or_false] at field
  rcases field with rfl | rfl | rfl | rfl
  · simp only [State.writeField]
    split
    · rfl
    · exact ignored
  · simp only [State.writeField]
    split
    · rfl
    split
    · exact ignored
    · exact s.fld_setFld_apart rTckCtrl (by omega) (by omega) (by omega)
  · have plain : ownRow ⟨.fix, 0, 0, rTckCtrl⟩ ⟨1, 1, .rw, 0, 0, 2 ^ 64⟩ = false := by decide
    simp only [State.writeField, plain, Bool.false_eq_true, if_false]
    split
    · exact s.fld_setFld_apart rTckCtrl (by omega) (by omega) (by omega)
    · exact ignored
  · rfl

/-- A write of TCK_CTRL leaves GEN_EN to its own row. -/
theorem State.writeBits_genEn (s : State) (v m : Word) : (s.writeBits rTckCtrl v m).fld rTckCtrl 0 0 = s.fld rTckCtrl 0 0 := by
  have ref : regRef rTckCtrl = some ⟨.fix, 0, 0, rTckCtrl⟩ := by decide
  have plain : ¬ (rTckCtrl = rMirCtrl ∨ rTckCtrl = rMirMap) := by decide
  simp only [State.writeBits, ref, plain, if_false]
  refine List.foldlRecOn (motive := fun t : State => t.fld rTckCtrl 0 0 = s.fld rTckCtrl 0 0) _ _ rfl fun t same f field => ?_
  exact (State.writeField_genEn s t _ _ (List.mem_of_mem_filter field)).trans same

/-- A write of TCK_CTRL that sets GEN_EN. -/
theorem execTickGenEnable_set {s u : State} {v : Word} (b : BoundaryIn) (isOpen : s.barOpen rTckCtrl = true)
    (written : u = s.writeBits rTckCtrl v (BitVec.allOnes 64)) (set : bit v.toNat 0 = true) :
    exec (.tickGenEnable v b) s = .next (u.genOn b) := by
  change execTickGenEnable v b s = _
  simp only [execTickGenEnable, set, isOpen, ← written, Bool.not_true, Bool.false_eq_true, or_self, if_false]

/-- A write of TCK_CTRL that clears GEN_EN. -/
theorem execTickGenDisable_clear {s u : State} {v : Word} (isOpen : s.barOpen rTckCtrl = true)
    (written : u = s.writeBits rTckCtrl v (BitVec.allOnes 64)) (clear : bit v.toNat 0 = false) :
    exec (.tickGenDisable v) s = .next u.genOff := by
  change execTickGenDisable v s = _
  simp only [execTickGenDisable, clear, isOpen, ← written, Bool.not_true, Bool.false_eq_true, or_self, if_false]

/-- Where no step 8 is due, none comes first. -/
theorem State.lateStep8_of_not_closed {s : State} (done : s.tick.closed = false) : s.lateStep8 = s := by
  simp only [State.lateStep8, done, Bool.false_eq_true, if_false]

theorem State.lateStep8_of_closed {s : State} (due : s.tick.closed = true) : s.lateStep8 = s.step8Stopped := if_pos due

/-- Settles O23: GEN_EN reads after the write what it read before, and the state of the generator decides what its change does. -/
theorem generatorIsEnabledAndDisabled : Obligations.GeneratorIsEnabledAndDisabled := by
  unfold Obligations.GeneratorIsEnabledAndDisabled
  intro s u v b isOpen written
  have genEn : u.fld rTckCtrl 0 0 = s.fld rTckCtrl 0 0 := by rw [written, State.writeBits_genEn]
  refine ⟨fun set on => ?_, fun w set off started => ?_, fun clear on => ?_, fun clear off => ?_⟩
  · rw [execTickGenEnable_set b isOpen written set, State.genOn, genEn, if_pos on]
  · rw [execTickGenEnable_set b isOpen written set, State.genOn, genEn, if_neg off, ← started]
    refine ⟨fun gen done => ?_, fun gen done => ?_, fun gen done t next => ?_, fun due t next gen => ?_⟩
    · simp only [State.genStart, gen, State.startTick, State.lateStep8_of_not_closed done]
    · have asked : (w.pushReq { src := .registerWrite, scope := .module, resume := true }).tick.closed = false := done
      rcases gen with gen | gen <;>
        simp only [State.genStart, gen, State.startTick, State.lateStep8_of_not_closed asked]
    · subst next
      simp only [State.genStart, gen, State.lateStep8_of_not_closed done]
      rfl
    · subst next
      simp only [State.genStart, gen, State.lateStep8_of_closed due]
      rfl
  · rw [execTickGenDisable_clear isOpen written clear, State.genOff, on, if_neg (by decide)]
    refine ⟨fun idle => congrArg Host.Outcome.next (if_pos (decide_eq_true idle)), fun runs => ?_⟩
    have busy : ¬ u.genIdle = true := by
      rw [State.genIdle, decide_eq_true_eq]
      omega
    rw [if_neg busy]
  · rw [execTickGenDisable_clear isOpen written clear, State.genOff, if_pos off]

end Sys2Proof.Machine
end


section
/-! SUPPORT. Stops (R70, R71, R73 to R75): the state of each partition of the scope, and what a stop leaves as it was. -/

namespace Sys2Proof.Machine

/-! ## What a stop leaves as it was -/

/-- Nothing is run, and no memory changes. -/
structure State.SameUnits (s t : State) : Prop where
  cores : t.cores = s.cores
  stks : t.stks = s.stks
  mem : t.mem = s.mem
  host : t.host = s.host

theorem State.SameUnits.refl (s : State) : s.SameUnits s := ⟨rfl, rfl, rfl, rfl⟩

theorem State.SameUnits.trans {s t u : State} (st : s.SameUnits t) (tu : t.SameUnits u) : s.SameUnits u :=
  ⟨tu.cores.trans st.cores, tu.stks.trans st.stks, tu.mem.trans st.mem, tu.host.trans st.host⟩

theorem State.SameUnits.each {f : State → Nat → State} (step : ∀ (t : State) (n : Nat), t.SameUnits (f t n)) (s : State) (l : List Nat) :
    s.SameUnits (s.each f l) := by
  induction l generalizing s with
  | nil => exact .refl s
  | cons n ns ih => exact (step s n).trans (ih _)

theorem State.SameUnits.withTick {s t : State} (same : s.SameUnits t) (x : TickSt) : s.SameUnits { t with tick := x } :=
  ⟨same.cores, same.stks, same.mem, same.host⟩

theorem State.SameUnits.withGenState {s t : State} (same : s.SameUnits t) (v : Nat) : s.SameUnits (t.setGenState v) :=
  ⟨same.cores, same.stks, same.mem, same.host⟩

theorem State.setPartState_sameUnits (s : State) (p : Nat) (x : PState) : s.SameUnits (s.setPartState p x) := ⟨rfl, rfl, rfl, rfl⟩

theorem State.haltPart_sameUnits (s : State) (p : Nat) : s.SameUnits (s.haltPart p) := ⟨rfl, rfl, rfl, rfl⟩

theorem State.haltPart_part (s : State) (p q : Nat) : (s.haltPart p).part q = s.part q := rfl

/-- Only completions are pushed, with what they count and return, and the tick's requests change. -/
def State.Answered (s t : State) : Prop := t = { s with regs := t.regs, queues := t.queues, compl := t.compl, tick := t.tick }

theorem State.Answered.trans {s t u : State} (st : s.Answered t) (tu : t.Answered u) : s.Answered u := by
  rw [State.Answered] at tu
  rw [State.Answered, tu, st]

theorem State.pushCompl_answered (s : State) (c : ComplSt) : s.Answered (s.pushCompl c) := by
  unfold State.pushCompl
  dsimp only
  split <;> split <;> rfl

/-- The soft stops that are overtaken are answered; nothing else of theirs is left. -/
theorem State.dropStops_answered (s : State) (f : StopScope → Bool) : s.Answered (s.dropStops f) := by
  unfold State.dropStops
  exact List.foldlRecOn (motive := s.Answered) _ _ rfl fun t same c _ => same.trans (t.pushCompl_answered c)

theorem State.Answered.parts {s t : State} (same : s.Answered t) : t.parts = s.parts := by rw [same]

theorem State.Answered.part {s t : State} (same : s.Answered t) (p : Nat) : t.part p = s.part p := by
  rw [State.part, same.parts, State.part]

theorem State.Answered.sends {s t : State} (same : s.Answered t) : t.sends = s.sends := by rw [same]

theorem State.Answered.sameUnits {s t : State} (same : s.Answered t) : s.SameUnits t := by
  rw [same]
  exact ⟨rfl, rfl, rfl, rfl⟩

/-! ## The states of partitions -/

theorem State.setPartState_st (s : State) (p : Nat) (x : PState) : ((s.setPartState p x).part p).st = x := by
  rw [State.setPartState, State.setPart_same]

theorem State.setPartState_other (s : State) {p q : Nat} (x : PState) (other : q ≠ p) : (s.setPartState p x).part q = s.part q :=
  SMap.get_set_other _ _ other.symm

section
variable {f : State → Nat → State} {x : PState}

/-- What changes one partition at a time leaves those that it does not name. -/
theorem State.each_part_other (others : ∀ (t : State) (p q : Nat), q ≠ p → (f t p).part q = t.part q) (s : State) {l : List Nat} {q : Nat}
    (free : q ∉ l) : (s.each f l).part q = s.part q := by
  induction l generalizing s with
  | nil => rfl
  | cons p l ih =>
    rw [State.each, ih _ (List.not_mem_of_not_mem_cons free), others s p q (List.ne_of_not_mem_cons free)]

/-- A partition that it names is left in the state that it puts it in. -/
theorem State.each_part_st (others : ∀ (t : State) (p q : Nat), q ≠ p → (f t p).part q = t.part q)
    (puts : ∀ (t : State) (p : Nat), ((f t p).part p).st = x) (s : State) {l : List Nat} {q : Nat} (mem : q ∈ l) :
    ((s.each f l).part q).st = x := by
  induction l generalizing s with
  | nil => exact absurd mem List.not_mem_nil
  | cons p l ih =>
    by_cases later : q ∈ l
    · exact ih _ later
    · obtain rfl : q = p := (List.mem_cons.mp mem).resolve_right later
      rw [State.each, State.each_part_other others _ later, puts]

end

theorem State.mem_partsWith {s : State} {t : PartSt → Bool} {p : Nat} : p ∈ s.partsWith t ↔ p < 16 ∧ t (s.part p) = true := by
  rw [State.partsWith, List.mem_filter, List.mem_range]

/-! ## Hard stops (R74, R75) -/

theorem State.halted_other (s : State) (p q : Nat) (other : q ≠ p) : ((s.haltPart p).setPartState p .hardStopping).part q = s.part q := by
  rw [State.setPartState_other _ _ other, State.haltPart_part]

theorem State.hardStopParts_st (s : State) (src : StopSource) {ps : List Nat} {q : Nat} (mem : q ∈ ps) :
    ((s.hardStopParts src ps).part q).st = .hardStopping := by
  change (State.part (State.dropStops _ _) q).st = _
  rw [(State.dropStops_answered _ _).part, State.each_part_st State.halted_other (fun t p => t.haltPart p |>.setPartState_st p _) s mem]

theorem State.hardStopParts_other (s : State) (src : StopSource) {ps : List Nat} {q : Nat} (free : q ∉ ps) :
    (s.hardStopParts src ps).part q = s.part q := by
  change State.part (State.dropStops _ _) q = _
  rw [(State.dropStops_answered _ _).part, State.each_part_other State.halted_other s free]

theorem State.hardStopParts_sameUnits (s : State) (src : StopSource) (ps : List Nat) : s.SameUnits (s.hardStopParts src ps) := by
  have halted (t : State) (p : Nat) : t.SameUnits ((t.haltPart p).setPartState p .hardStopping) :=
    (t.haltPart_sameUnits p).trans (State.setPartState_sameUnits _ p _)
  exact ((State.SameUnits.each halted s ps).trans (State.dropStops_answered _ _).sameUnits).withTick _

/-- A hard stop of a partition keeps its request's source. -/
theorem State.hardStopParts_source (s : State) (src : StopSource) (p : Nat) : (p, src) ∈ (s.hardStopParts src [p]).tick.hardSrc :=
  List.mem_append_right _ List.mem_cons_self

/-- A hard stop of a partition abandons the WRITEs that nothing has accepted. -/
theorem State.hardStopParts_sends (s : State) (src : StopSource) (p : Nat) :
    (s.hardStopParts src [p]).sends = s.sends.filter fun m => !(decide (m.part = p) && (m.port.isNone || s.unaccepted m)) := by
  change (State.dropStops _ _).sends = _
  rw [(State.dropStops_answered _ _).sends]
  rfl

theorem State.writeReport_other (s : State) {p q : Nat} (whole : Bool) (n : Word) (other : q ≠ p) :
    (s.writeReport p whole n).part q = s.part q := by
  unfold State.writeReport State.hostFor
  dsimp only
  split
  · exact SMap.get_set_other _ _ other.symm
  · rfl

theorem State.reported_other (whole : Bool) (n : Word) (s : State) (p q : Nat) (other : q ≠ p) :
    ((s.writeReport p whole n).setPartState p .hardStopped).part q = s.part q := by
  rw [State.setPartState_other _ _ other, State.writeReport_other s whole n other]

theorem State.writeReport_mem (s : State) (p : Nat) (whole : Bool) (n : Word) :
    (s.writeReport p whole n).mem = s.mem ∧ (s.writeReport p whole n).cores = s.cores := by
  unfold State.writeReport State.hostFor
  dsimp only
  split <;> exact ⟨rfl, rfl⟩

theorem State.stopped_mem (s : State) (whole : Bool) (n : Word) (ps : List Nat) :
    (s.stopped whole n ps).mem = s.mem ∧ (s.stopped whole n ps).cores = s.cores := by
  rw [State.stopped, State.each_eq_foldl]
  refine List.foldlRecOn (motive := fun t : State => t.mem = s.mem ∧ t.cores = s.cores) _ _ ⟨rfl, rfl⟩ fun t same p _ => ?_
  obtain ⟨mem, cores⟩ := t.writeReport_mem p whole n
  exact ⟨mem.trans same.1, cores.trans same.2⟩

theorem execHardStopPartition_running {s : State} {p : PartId}
    (runs : (s.part p).st = .active ∨ (s.part p).st = .softStopping ∨ (s.part p).st = .softStopped) :
    exec (.hardStopPartition p) s = .next (s.hardStopParts .descriptor [p.val]) := by
  change execHardStopPartition p s = _
  simp only [execHardStopPartition, State.stopRequest, runs, if_true]

theorem State.genState_setGenState (s : State) {v : Nat} (fits : v < 8) : (s.setGenState v).genState = v :=
  s.fld_setFld_same rTckStatus (by omega) (by omega) (by omega)

theorem State.genState_tick (s : State) (x : TickSt) : ({ s with tick := x } : State).genState = s.genState := rfl

theorem State.part_tick (s : State) (x : TickSt) (q : Nat) : ({ s with tick := x } : State).part q = s.part q := rfl

/-- The partitions that a hard stop of the module takes with it. -/
def State.stoppable (s : State) : List Nat := s.partsWith fun k => k.st = .active || k.st = .softStopping

theorem State.mem_stoppable {s : State} {q : Fin 16} : q.val ∈ s.stoppable ↔ (s.part q).st = .active ∨ (s.part q).st = .softStopping := by
  simp [State.stoppable, State.mem_partsWith, q.isLt]

/-- The module HARD_STOPPING, its partitions with it, and the soft stop that it overtakes answered. -/
def State.hardStopping (s : State) : State :=
  ((s.hardStopParts .descriptor s.stoppable).dropStops fun c => decide (c = .module)).setGenState 4

theorem execHardStopModule_running {s : State} (runs : s.genState = 1 ∨ s.genState = 2 ∨ s.genState = 3) :
    exec .hardStopModule s = .next { s.hardStopping with tick := { s.hardStopping.tick with
      modStopped := (s.hardStopping.tick.modStopped ++ s.stoppable).eraseDups, isOpen := false } } := by
  change execHardStopModule s = _
  simp only [execHardStopModule, State.stopRequest, runs, if_true, State.hardStopping, State.stoppable]

theorem State.hardStopping_part (s : State) (q : Nat) : s.hardStopping.part q = (s.hardStopParts .descriptor s.stoppable).part q :=
  (State.dropStops_answered (s.hardStopParts .descriptor s.stoppable) _).part q

theorem State.hardStopping_sameUnits (s : State) : s.SameUnits s.hardStopping :=
  ((s.hardStopParts_sameUnits _ _).trans (State.dropStops_answered _ _).sameUnits).withGenState 4

theorem State.hardStopping_genState (s : State) : s.hardStopping.genState = 4 := State.genState_setGenState _ (by omega)

/-- A hard stop of the module. -/
theorem hardStopModule_effect {s : State} (runs : s.genState = 1 ∨ s.genState = 2 ∨ s.genState = 3) :
    ∃ t, exec .hardStopModule s = .next t ∧ t.genState = 4 ∧ t.tick.isOpen = false ∧
      (∀ q : Fin 16, (s.part q).st = .active ∨ (s.part q).st = .softStopping → (t.part q).st = .hardStopping) ∧
      (∀ q : Fin 16, (s.part q).st ≠ .active → (s.part q).st ≠ .softStopping → t.part q = s.part q) ∧
      t.cores = s.cores ∧ t.stks = s.stks ∧ t.mem = s.mem ∧ t.host = s.host := by
  obtain ⟨cores, stks, mem, host⟩ := s.hardStopping_sameUnits.withTick { s.hardStopping.tick with
    modStopped := (s.hardStopping.tick.modStopped ++ s.stoppable).eraseDups, isOpen := false }
  refine ⟨_, execHardStopModule_running runs, (State.genState_tick _ _).trans s.hardStopping_genState, rfl, fun q stops => ?_, fun q idle calm => ?_, cores, stks, mem, host⟩
  · rw [State.part_tick, s.hardStopping_part]
    exact s.hardStopParts_st _ (State.mem_stoppable.mpr stops)
  · rw [State.part_tick, s.hardStopping_part]
    exact s.hardStopParts_other _ fun mem => (State.mem_stoppable.mp mem).elim idle calm

/-- The completion of the module's hard stop. -/
theorem hardStopComplete_module_effect {s : State} (n : Word) (gen : s.genState = 4)
    (calm : ∀ q < 16, (s.part q).st = .hardStopping → s.landingIn q = false) :
    ∃ t, exec (.hardStopComplete .module n) s = .next t ∧ t.genState = 5 ∧ t.mem = s.mem ∧ t.cores = s.cores ∧
      (∀ q : Fin 16, (s.part q).st = .hardStopping → (t.part q).st = .hardStopped) ∧
      (∀ q : Fin 16, (s.part q).st ≠ .hardStopping → t.part q = s.part q) := by
  have named (q : Nat) : q ∈ (s.partsWith fun k => k.st = .hardStopping) ↔ q < 16 ∧ (s.part q).st = .hardStopping := by
    simp [State.mem_partsWith]
  have ready : ((s.partsWith fun k => k.st = .hardStopping).all fun q => !s.landingIn q) = true :=
    List.all_eq_true.mpr fun q mem => by simp [calm q ((named q).mp mem).1 ((named q).mp mem).2]
  have run : exec (.hardStopComplete .module n) s =
      .next ((s.stopped true n (s.partsWith fun k => k.st = .hardStopping)).setGenState 5) := by
    change execHardStopComplete .module n s = _
    rw [execHardStopComplete, if_pos ⟨gen, ready⟩]
  obtain ⟨mem, cores⟩ := s.stopped_mem true n (s.partsWith fun k => k.st = .hardStopping)
  refine ⟨_, run, State.genState_setGenState _ (by omega), mem, cores, fun q halting => ?_, fun q other => ?_⟩
  · exact State.each_part_st (State.reported_other true n) (fun t p => (t.writeReport p true n).setPartState_st p _) s
      ((named q).mpr ⟨q.isLt, halting⟩)
  · exact State.each_part_other (State.reported_other true n) s fun mem => other ((named q).mp mem).2

/-! ## Soft stops (R71) -/

/-- Every partition of a list is stopping. -/
def State.softStopping (s : State) (ps : List Nat) : State := s.each (fun s p => s.setPartState p .softStopping) ps

theorem State.softStopping_tick (s : State) (ps : List Nat) : (s.softStopping ps).tick = s.tick := by
  rw [State.softStopping, State.each_eq_foldl]
  exact List.foldlRecOn (motive := fun t : State => t.tick = s.tick) _ _ rfl fun t same p _ => same

theorem State.softStopping_sameUnits (s : State) (ps : List Nat) : s.SameUnits (s.softStopping ps) :=
  State.SameUnits.each (fun t p => t.setPartState_sameUnits p _) s ps

/-- A soft stop of the module. -/
theorem softStopModule_effect {s : State} (gen : s.genState = 1) :
    ∃ t, exec .softStopModule s = .next t ∧ t.genState = 2 ∧
      (∀ q : Fin 16, (s.part q).st = .active → (t.part q).st = .softStopping) ∧
      (∀ q : Fin 16, (s.part q).st ≠ .active → t.part q = s.part q) ∧
      t.tick.reqs = s.tick.reqs ++ [{ src := .descriptor, scope := .module }] ∧
      t.tick.modStopped = s.tick.modStopped ++ s.partsWith (fun k => k.st = .active) ∧
      t.cores = s.cores ∧ t.stks = s.stks ∧ t.mem = s.mem ∧ t.host = s.host := by
  have named (q : Nat) : q ∈ (s.partsWith fun k => k.st = .active) ↔ q < 16 ∧ (s.part q).st = .active := by
    simp [State.mem_partsWith]
  have others (t : State) (p q : Nat) (other : q ≠ p) : (t.setPartState p .softStopping).part q = t.part q := t.setPartState_other _ other
  have run : exec .softStopModule s = .next (s.softStopModule .descriptor none) := by
    change execSoftStopModule s = _
    simp only [execSoftStopModule, State.stopRequest, gen, if_true, Bool.false_eq_true, if_false]
  have tick := s.softStopping_tick (s.partsWith fun k => k.st = .active)
  obtain ⟨cores, stks, mem, host⟩ := s.softStopping_sameUnits (s.partsWith fun k => k.st = .active)
  refine ⟨_, run, State.genState_setGenState (s.softStopping _) (by omega), fun q active => ?_, fun q idle => ?_,
    congrArg (fun t : TickSt => t.reqs ++ [{ src := .descriptor, scope := .module }]) tick,
    congrArg (fun t : TickSt => t.modStopped ++ s.partsWith (fun k => k.st = .active)) tick, cores, stks, mem, host⟩
  · exact State.each_part_st others (fun t p => t.setPartState_st p _) s ((named q).mpr ⟨q.isLt, active⟩)
  · exact State.each_part_other others s fun mem => idle ((named q).mp mem).2

/-- Settles O24: each stop by its guard; the partitions by the lists that it names, all else by `SameUnits`. -/
theorem stopsTakeEffect : Obligations.StopsTakeEffect := by
  unfold Obligations.StopsTakeEffect
  refine ⟨fun s p => ⟨softStopModule_effect, fun active => ?_, fun idle => ?_, fun h x here => ⟨fun runs => ?_, fun stopped => ?_⟩,
    fun src active => ?_⟩, fun s p => ⟨fun runs => ?_, hardStopModule_effect, hardStopComplete_module_effect,
    fun n halting gen calm => if_pos ⟨halting, gen, by simpa using calm⟩⟩⟩
  · change execSoftStopPartition p s = _
    simp only [execSoftStopPartition, State.stopRequest, active, if_true, Bool.false_eq_true, if_false]
    rfl
  · change execSoftStopPartition p s = _
    simp only [execSoftStopPartition, State.stopRequest, idle, Bool.false_eq_true, if_false]
  · change execSoftStopContext p h s = _
    simp only [execSoftStopContext, State.stopRequest, here, runs, Bool.false_eq_true, if_false]
  · change execSoftStopContext p h s = _
    simp only [execSoftStopContext, State.stopRequest, here, stopped, if_true]
  · change execStopRequestInternal src false (.part p) s = _
    simp only [execStopRequestInternal, State.stopRequest, active, if_true, Bool.false_eq_true, if_false]
    rfl
  · obtain ⟨cores, stks, mem, host⟩ := s.hardStopParts_sameUnits .descriptor [p.val]
    exact ⟨_, execHardStopPartition_running runs, s.hardStopParts_st _ List.mem_cons_self, s.hardStopParts_source _ _,
      fun q other => s.hardStopParts_other _ (by simpa using other), s.hardStopParts_sends _ _, cores, stks, mem, host⟩

end Sys2Proof.Machine
end


section
/-! SUPPORT. Resumes (R72, R73, R76, R486): what may be resumed, and the module's, which runs at once. -/

namespace Sys2Proof.Machine

section
variable {s : State} {p : PartId}

theorem execResumePartition_eq (p : PartId) (s : State) :
    exec (.resumePartition p) s = .next (s.resumeRequest (.part p) .descriptor none).1 := rfl

theorem execResumeContext_eq (p : PartId) (h : BitVec 16) (s : State) :
    exec (.resumeContext p h) s = .next (s.resumeRequest (.context p h) .descriptor none).1 := rfl

theorem execResumeModule_eq (b : BoundaryIn) (s : State) : exec (.resumeModule b) s = .next (s.resumeModule b) := rfl

/-- With an engine disabled, a resume is refused with REJECT_MODE (R486). -/
theorem State.resumeRequest_off (scope : StopScope) (src : StopSource) (c : Option ComplSt) (off : s.enginesOn = false) :
    s.resumeRequest scope src c = (s, some 0x07) := by
  simp only [State.resumeRequest, off, Bool.not_false, if_true]

/-- What a resume of the module acts on (R72). -/
theorem State.resumeRequest_module (on : s.enginesOn = true) : s.resumeRequest .module .descriptor none =
    if (s.genState = 3 ∨ s.genState = 5) ∧ s.fld rTckCtrl 0 0 = 1 then
      (s.pushReq { src := .descriptor, scope := .module, resume := true }, some 0)
    else (s, some 0x07) := by
  simp only [State.resumeRequest, on, Bool.not_true, Bool.false_eq_true, if_false]
  by_cases may : (s.genState = 3 ∨ s.genState = 5) ∧ s.fld rTckCtrl 0 0 = 1
  · simp [may]
  · simp only [may, if_false]

/-- What a resume of a partition acts on (R72, R76, R423). -/
theorem State.resumeRequest_part (on : s.enginesOn = true) : (s.resumeRequest (.part p) .descriptor none).1 =
    if ((s.part p).st = .softStopped ∨ (s.part p).st = .hardStopped) ∧ s.fencedPart p = false then
      s.pushReq { src := .descriptor, scope := .part p, resume := true }
    else s := by
  simp only [State.resumeRequest, on, Bool.not_true, Bool.false_eq_true, if_false, Bool.not_eq_true']
  by_cases may : ((s.part p).st = .softStopped ∨ (s.part p).st = .hardStopped) ∧ s.fencedPart p = false
  · simp [may]
  · simp only [may, if_false]

/-- What a resume of a context acts on (R73). -/
theorem State.resumeRequest_context (h : BitVec 16) (on : s.enginesOn = true) : (s.resumeRequest (.context p h) .descriptor none).1 =
    if ((s.ctx p h.toNat).map CtxSt.stopped).getD false then s.pushReq { src := .descriptor, scope := .context p h, resume := true }
    else s := by
  simp only [State.resumeRequest, on, Bool.not_true, Bool.false_eq_true, if_false]
  cases s.ctx p h.toNat with
  | none => rfl
  | some x => cases stopped : x.stopped <;> simp [stopped]

/-- A resume of the module is due already. -/
theorem State.resumeModule_due (b : BoundaryIn) (stopped : s.genState = 3 ∨ s.genState = 5)
    (due : ∃ r ∈ s.tick.reqs, r.resume = true ∧ r.scope = .module) : s.resumeModule b = s.startTick b := by
  have waits : (s.tick.reqs.any fun r => r.resume && decide (r.scope = .module)) = true := by simpa using due
  simp only [State.resumeModule, waits, if_true, stopped, and_self, true_or]

/-- None is due: the module's resume is requested now. -/
theorem State.resumeModule_new (b : BoundaryIn) (fresh : ∀ r ∈ s.tick.reqs, r.resume = false ∨ r.scope ≠ .module) :
    s.resumeModule b = if (s.resumeRequest .module .descriptor none).2 = some 0 then
      (s.resumeRequest .module .descriptor none).1.startTick b else (s.resumeRequest .module .descriptor none).1 := by
  have waits : (s.tick.reqs.any fun r => r.resume && decide (r.scope = .module)) = false := by
    refine List.any_eq_false.mpr fun r hr => ?_
    rcases fresh r hr with other | other <;> simp [other]
  simp only [State.resumeModule, waits, Bool.false_eq_true, if_false, false_and, false_or]

/-- A module that has not stopped, or with no resume to ask for, is left as it is. -/
theorem State.resumeModule_running (b : BoundaryIn) (on : s.enginesOn = true) (soft : s.genState ≠ 3) (hard : s.genState ≠ 5) :
    s.resumeModule b = s := by
  have refused : s.resumeRequest .module .descriptor none = (s, some 0x07) := by
    rw [State.resumeRequest_module on, if_neg]
    rintro ⟨stopped | stopped, -⟩
    · exact soft stopped
    · exact hard stopped
  simp only [State.resumeModule, refused, soft, hard, or_self, and_false, false_or]
  split <;> simp

end

/-- Settles O25: a partition and a context by what a resume acts on, the module by whether one of it is due. -/
theorem resumesAreRequestedOrRun : Obligations.ResumesAreRequestedOrRun := by
  unfold Obligations.ResumesAreRequestedOrRun
  refine fun s p => ⟨fun on => ⟨fun stopped => ⟨fun free => ?_, fun fenced => ?_⟩, fun soft hard => ?_, fun h x here stopped => ?_,
    fun h runs => ?_, fun b soft hard => ?_, fun b stopped enabled fresh => ?_⟩, fun b stopped due => ?_, fun off => ⟨?_, fun h => ?_,
    fun fresh b => ?_⟩⟩
  · rw [execResumePartition_eq, State.resumeRequest_part on, if_pos ⟨stopped, free⟩]
  · rw [execResumePartition_eq, State.resumeRequest_part on, if_neg (by simp [fenced])]
  · rw [execResumePartition_eq, State.resumeRequest_part on, if_neg (by simp [soft, hard])]
  · rw [execResumeContext_eq, State.resumeRequest_context h on, here, if_pos (by simpa using stopped)]
  · rw [execResumeContext_eq, State.resumeRequest_context h on, if_neg]
    cases here : s.ctx p h.toNat with
    | none => simp
    | some x => simp [runs x here]
  · rw [execResumeModule_eq, State.resumeModule_running b on soft hard]
  · simp only [execResumeModule_eq, State.resumeModule_new b fresh, State.resumeRequest_module on, stopped, enabled, and_self, if_true]
  · rw [execResumeModule_eq, State.resumeModule_due b stopped due]
  · rw [execResumePartition_eq, State.resumeRequest_off _ _ _ off]
  · rw [execResumeContext_eq, State.resumeRequest_off _ _ _ off]
  · rw [execResumeModule_eq, State.resumeModule_new b fresh, State.resumeRequest_off _ _ _ off, if_neg (by simp)]

end Sys2Proof.Machine
end


section
/-! SUPPORT. Flights and background operations (R57, R157, R160, R176, R177): what a core's entry, resume and end need, and what they leave. -/

namespace Sys2Proof.Machine

section
variable {s : State} {c : CoreId}

/-- A core that stands at its wait-for-tick point in a tick that admits its work resumes. -/
theorem execWtickResume_working (waits : (s.core c).phase = .atWtick) (working : s.working = true)
    (tick : (s.core c).resumeTick ≤ s.tickNo.toNat) (runs : s.runs (s.core c).part = true) (thawed : s.frozen (s.core c).part = false)
    (issues : s.ctxIssues (s.core c).part (s.core c).ctx = true)
    (epoch : s.epochOk (s.core c).part (s.core c).ctx (s.core c).epoch = true) (sound : (s.core c).inReset = false)
    (free : s.heldForReplay c (s.core c).part (s.core c).ctx = false) :
    exec (.wtickResume c) s = .next ((s.resumeOn c).works c (s.core c).part (s.core c).ctx) := by
  change execWtickResume c s = _
  simp only [execWtickResume, waits, working, tick, runs, thawed, issues, epoch, sound, free, Bool.not_false, and_self, if_true]

/-- A slot that placement has left in its place (R160). -/
theorem State.resumeOn_inPlace (core : (s.newRegion c).core = c) (place : (s.newRegion c).off = (s.core c).region.off) :
    s.resumeOn c = s.setCore c { (s.core c).translate (s.core c).region (s.newRegion c) with
      phase := .running, slotTab := s.tabOf (s.core c) } := by
  simp only [State.resumeOn, core, place, if_true]

theorem State.flight_setCore (s : State) (c : Nat) (k : CoreSt) (n : Nat) : (s.setCore c k).flight n = s.flight n := rfl

/-- The flight on a core that has issued END and has nothing left is noted as ended there. -/
theorem execFlightEnd_ended {f : FlightSt} (ended : (s.core c).phase = .ended) (queue : (s.core c).ctrlq = []) (ents : (s.core c).ents = [])
    (issues : s.ctxIssues (s.core c).part (s.core c).ctx = true)
    (epoch : s.epochOk (s.core c).part (s.core c).ctx (s.core c).epoch = true) (flight : s.flight (s.core c).flight = some f) :
    exec (.flightEnd c) s = .next ((s.setCore c { s.core c with phase := .idle }).setFlight (s.core c).flight
      (some (if f.cores.all fun x => decide (x ∈ f.ended ++ [(f.slots.getD (s.core c).slot (s.core c).region).core]) then
        { f with ended := f.ended ++ [(f.slots.getD (s.core c).slot (s.core c).region).core], endStatus := some 0 }
      else { f with ended := f.ended ++ [(f.slots.getD (s.core c).slot (s.core c).region).core] }))) := by
  change execFlightEnd c s = _
  unfold execFlightEnd
  dsimp only
  rw [if_pos ⟨ended, queue, ents, issues, epoch⟩, State.flight_setCore, flight]
  rfl

end

/-- An operation that has begun and is not done is found by its number, or there is none. -/
theorem State.bg_find_none {s : State} {id : Nat} (unnamed : ∀ b ∈ s.bg, b.id = id → b.done = true ∨ b.begun = false) :
    (s.bg.find? fun b => decide (b.id = id) && !b.done && b.begun) = none :=
  List.find?_eq_none.mpr fun b mem found => by
    simp only [Bool.and_eq_true, decide_eq_true_eq, Bool.not_eq_true'] at found
    obtain ⟨⟨named, open_⟩, begun⟩ := found
    rcases unnamed b mem named with done | waits
    · simp [done] at open_
    · simp [waits] at begun

/-- Settles O26: an entry, a resume and an end by their guards, an operation by whether its number names one. -/
theorem flightsAndBackgroundOpsComplete : Obligations.FlightsAndBackgroundOpsComplete := by
  unfold Obligations.FlightsAndBackgroundOpsComplete
  refine ⟨fun s c => ⟨fun n i f idle next enters slot => ?_, fun waits working tick runs thawed issues epoch sound free => ?_,
    fun f d core ended queue ents issues epoch flight => ⟨fun all => ?_, fun missing => ?_⟩⟩,
    fun s id data e => ⟨fun b found => ?_, fun unnamed => ?_⟩⟩
  · change execFlightEntry c s = _
    simp only [execFlightEntry, idle, next, enters, slot, if_true]
  · have resumes := execWtickResume_working waits working tick runs thawed issues epoch sound free
    refine ⟨resumes, fun r region here place => ?_⟩
    subst region
    rw [resumes, State.resumeOn_inPlace here place]
  · subst core
    rw [execFlightEnd_ended ended queue ents issues epoch flight, if_pos]
    simpa using all
  · subst core
    rw [execFlightEnd_ended ended queue ents issues epoch flight, if_neg]
    simpa using missing
  · change execBackgroundOpComplete id data e s = _
    simp only [execBackgroundOpComplete, found]
  · change execBackgroundOpComplete id data e s = _
    simp only [execBackgroundOpComplete, State.bg_find_none unnamed]

end Sys2Proof.Machine
end


section
/-! SUPPORT. Engines and landings (R363, R376, R379 to R391): resets, their timeouts and bounds, and the clearing of galleries. -/

namespace Sys2Proof.Machine

/-! ## What an engine's reset leaves as it was -/

/-- No register changes, and nothing of the recovery. -/
def State.SameControl (s t : State) : Prop := t.regs = s.regs ∧ t.rcv = s.rcv

theorem State.SameControl.refl (s : State) : s.SameControl s := ⟨rfl, rfl⟩

theorem State.SameControl.trans {s t u : State} (st : s.SameControl t) (tu : t.SameControl u) : s.SameControl u :=
  ⟨tu.1.trans st.1, tu.2.trans st.2⟩

theorem State.SameControl.fld {s t : State} (same : s.SameControl t) (off hi lo : Nat) : t.fld off hi lo = s.fld off hi lo := by
  rw [State.fld, State.reg, same.1]
  rfl

theorem State.fcLeaves_sameControl (s : State) (x : FcCmd) : s.SameControl (s.fcLeaves x) := by
  unfold State.fcLeaves
  split
  · exact .refl s
  · exact List.foldl_keeps (P := s.SameControl) (.refl s) fun t d same => same.trans ⟨rfl, rfl⟩

theorem State.unfilled_sameControl (s : State) (t f n : Nat) : s.SameControl (s.unfilled t f n) := by
  unfold State.unfilled
  refine List.foldl_keeps (P := s.SameControl) (.refl s) fun u i same => ?_
  dsimp only
  split
  · exact same.trans ⟨rfl, rfl⟩
  · exact same

theorem State.cleanSource_sameControl (s : State) (c : BitVec 256) : s.SameControl (s.cleanSource c) :=
  List.foldl_keeps (P := s.SameControl) (.refl s) fun _ _ same => same.trans ⟨rfl, rfl⟩

theorem State.setFc_sameControl (s : State) (t : Nat) (l : List FcCmd) : s.SameControl (s.setFc t l) := ⟨rfl, rfl⟩

theorem State.fcAnswer_sameControl (s : State) (t : Nat) (d : FcDone) : s.SameControl (s.fcAnswer t d) := ⟨rfl, rfl⟩

theorem State.fcAbandon_sameControl (s : State) (t : Nat) (x : FcCmd) : s.SameControl (s.fcAbandon t x) := by
  have drop : s.SameControl (s.fcDrop t x) := by
    unfold State.fcDrop
    dsimp only
    refine State.SameControl.trans ?_ (State.setFc_sameControl _ _ _)
    refine State.SameControl.trans ?_ (State.fcLeaves_sameControl _ x)
    split
    · exact s.unfilled_sameControl _ _ _
    · exact s.cleanSource_sameControl _
    · exact .refl s
  exact drop.trans (State.fcAnswer_sameControl _ _ _)

theorem State.abandonFc_sameControl (s : State) (u : Nat) : s.SameControl (s.abandonFc u) := by
  unfold State.abandonFc
  split
  · exact List.foldl_keeps (P := s.SameControl) (.refl s) fun t x same => same.trans (t.fcAbandon_sameControl _ x)
  · exact .refl s

theorem State.resetEngine_sameControl (s : State) (u : Nat) : s.SameControl (s.resetEngine u) := by
  unfold State.resetEngine
  dsimp only
  split
  · exact ⟨rfl, rfl⟩
  split
  · exact ⟨rfl, rfl⟩
  split
  · exact ⟨rfl, rfl⟩
  split
  · exact ⟨rfl, rfl⟩
  · exact .refl s

theorem State.landingsDone_none {s : State} (t : LandingSt → Bool) (none : s.rcv.landings = []) : s.landingsDone t = s := by
  rw [State.landingsDone, none]
  rfl

/-! ## Engines (R379, R383, R388) -/

section
variable {s r v : State} {u : Byte}

/-- The reset of an engine that is being reset returns it empty and ends its landing. -/
theorem execEngineResetComplete_resetting (resetting : u.toNat ∈ s.rcv.resetting) (reset : r = (s.abandonFc u.toNat).resetEngine u.toNat)
    (landed : v = ({ r with rcv := { r.rcv with resetting := r.rcv.resetting.erase u.toNat } } : State).landingsDone
      (fun l => decide (l.level = 2) && decide (l.unit = u.toNat))) :
    exec (.engineResetComplete u) s = if v.fld rPrtFaultCtrl 8 8 = 1 then .next v else
      .next ((v.rcv.suspects.filter fun x => decide (x.unit = u.toNat)).foldl (fun t x => t.contain x.part x.ctx 0x27 u.toNat)
        { v with rcv := { v.rcv with suspects := v.rcv.suspects.filter fun x => !decide (x.unit = u.toNat) } }) := by
  change execEngineResetComplete u s = _
  simp only [execEngineResetComplete, resetting, not_true_eq_false, if_false, ← reset, ← landed]

/-- With replay on and no landing in progress, the engine is out of reset and nothing else changes. -/
theorem execEngineResetComplete_replay (resetting : u.toNat ∈ s.rcv.resetting) (reset : r = (s.abandonFc u.toNat).resetEngine u.toNat)
    (replay : s.fld rPrtFaultCtrl 8 8 = 1) (none : s.rcv.landings = []) :
    exec (.engineResetComplete u) s = .next { r with rcv := { r.rcv with resetting := r.rcv.resetting.erase u.toNat } } := by
  have same : s.SameControl r := by
    rw [reset]
    exact (s.abandonFc_sameControl _).trans (State.resetEngine_sameControl _ _)
  have noneLeft : r.rcv.landings = [] := by rw [same.2, none]
  have landed := State.landingsDone_none (s := { r with rcv := { r.rcv with resetting := r.rcv.resetting.erase u.toNat } })
    (fun l => decide (l.level = 2) && decide (l.unit = u.toNat)) noneLeft
  rw [execEngineResetComplete_resetting resetting reset landed.symm, if_pos]
  exact (same.fld rPrtFaultCtrl 8 8).trans replay

theorem State.retireCore_landings (s : State) (c : Nat) : (s.retireCore c).rcv.landings = s.rcv.landings := rfl

/-- A reset that takes too long: a core is marked for retirement, and the landing escalates. -/
theorem execEngineResetTimeout_resetting (resetting : u.toNat ∈ s.rcv.resetting)
    (out : v = ({ s with rcv := { s.rcv with resetting := s.rcv.resetting.erase u.toNat } } : State)) :
    exec (.engineResetTimeout u) s =
      ((s.rcv.landings.find? fun l => decide (l.level = 2 ∧ l.unit = u.toNat)).elim
        (.next (if u.toNat < 192 then v.retireCore u.toNat else v.landing4 241 0x27))
        fun l => .next ((if u.toNat < 192 then v.retireCore u.toNat else v).escalate l)) := by
  have landings : v.rcv.landings = s.rcv.landings := by rw [out]
  change execEngineResetTimeout u s = _
  simp only [execEngineResetTimeout, resetting, not_true_eq_false, if_false, ← out]
  by_cases core : u.toNat < 192
  · simp only [core, if_true, State.retireCore_landings, landings]
    cases s.rcv.landings.find? fun l => decide (l.level = 2 ∧ l.unit = u.toNat) <;> rfl
  · simp only [core, if_false, landings]
    cases s.rcv.landings.find? fun l => decide (l.level = 2 ∧ l.unit = u.toNat) <;> rfl

end

/-! ## Landings (R384, R385, R387) -/

theorem execLandingBoundExpiry_found {s : State} {id : Nat} {l : LandingSt} (found : (s.rcv.landings.find? fun l => decide (l.id = id)) = some l) :
    exec (.landingBoundExpiry id) s = .next (s.escalate l) := by
  change execLandingBoundExpiry id s = _
  simp only [execLandingBoundExpiry, found]

section
variable {s u : State} {l : LandingSt}

/-- The next landing is of the partition that the first was of. -/
theorem State.escalate_part {p : Nat} (absorbed : u = s.absorb fun x => x.id = l.id) (level : l.level = 1 ∨ l.level = 2 ∧ l.unit < 192)
    (part : l.part = some p) : s.escalate l = u.landing3 p 241 l.cause := by
  rcases level with level | ⟨level, core⟩
  · simp only [State.escalate, level, part, Option.getD_some, ← absorbed]
  · simp only [State.escalate, level, part, core, if_true, Option.orElse_some, ← absorbed]

/-- A landing 3, and one of an engine that no partition holds, gives way to a landing 4. -/
theorem State.escalate_module (absorbed : u = s.absorb fun x => x.id = l.id) (level : l.level = 3 ∨ l.level = 2 ∧ 192 ≤ l.unit) :
    s.escalate l = u.landing4 241 l.cause := by
  rcases level with level | ⟨level, engine⟩
  · simp only [State.escalate, level, ← absorbed]
  · simp only [State.escalate, level, Nat.not_lt.mpr engine, if_false, ← absorbed]

/-- The fourth gives way to the parked state. -/
theorem State.escalate_last (absorbed : u = s.absorb fun x => x.id = l.id) (level : l.level = 4) : s.escalate l = u.park 0x01 := by
  simp only [State.escalate, level, ← absorbed]

/-- A gallery that leaves its partition, with no landing in progress, is read back. -/
theorem execGalleryClearComplete_leaving {g : Fin 24} {x : Nat × Option Nat × Bool} (readsZero : Bool)
    (found : (s.rcv.clearing.find? fun x => decide (x.1 = g.val)) = some x) (leaving : x.2.1 = none) (none : s.rcv.landings = [])
    (cleared : u = { s with rcv := { s.rcv with
      clearing := s.rcv.clearing.filter (fun x => !decide (x.1 = g.val)), unclean := s.rcv.unclean.filter fun x => !decide (x = g.val) } }) :
    exec (.galleryClearComplete g readsZero) s = .next (if readsZero then u else
      ({ u with rcv := { u.rcv with unclean := u.rcv.unclean ++ [g.val] } } : State).retireCore (8 * g)) := by
  obtain ⟨i, p, stays⟩ := x
  obtain rfl : p = Option.none := leaving
  subst cleared
  change execGalleryClearComplete g readsZero s = _
  cases readsZero <;>
    simp only [execGalleryClearComplete, found, Bool.false_eq_true, if_true, if_false, State.retireCore_landings, none, List.any_nil,
      Bool.and_false]

end

/-- Settles O29: an engine by whether it is being reset, a landing by its level, a gallery by what it reads. -/
theorem enginesAndLandingsComplete : Obligations.EnginesAndLandingsComplete := by
  unfold Obligations.EnginesAndLandingsComplete
  refine ⟨fun s u => ⟨fun engine sound => if_pos ⟨engine, sound⟩, fun not => ?_, fun r v resetting reset landed => ⟨fun replay => ?_,
    fun noReplay => ?_, fun replay none => ?_⟩, fun v resetting out => ⟨fun none => ⟨fun core => ?_, fun engine => ?_⟩, fun l found engine => ?_⟩⟩,
    fun s => ⟨fun p => ⟨fun here => if_neg here, fun absent => if_pos absent⟩, rfl, rfl, fun id l u found absorbed => ?_,
    fun g x u found leaving none cleared => ?_⟩⟩
  · refine if_neg ?_
    rintro ⟨engine, sound⟩
    rcases not with not | not
    · simp [not] at engine
    · exact sound not
  · rw [execEngineResetComplete_resetting resetting reset landed, if_pos replay]
  · rw [execEngineResetComplete_resetting resetting reset landed, if_neg noReplay]
  · exact ⟨_, execEngineResetComplete_replay resetting reset replay none, rfl, rfl, rfl, rfl⟩
  · rw [execEngineResetTimeout_resetting resetting out, none, Option.elim_none, if_pos core]
  · rw [execEngineResetTimeout_resetting resetting out, none, Option.elim_none, if_neg (Nat.not_lt.mpr engine)]
  · rw [execEngineResetTimeout_resetting resetting out, found, Option.elim_some, if_neg (Nat.not_lt.mpr engine)]
  · rw [execLandingBoundExpiry_found found]
    refine ⟨fun p level part => ?_, fun p level core part => ?_, fun level engine => ?_, fun level => ?_, fun level => ?_⟩
    · rw [State.escalate_part absorbed (.inl level) part]
    · rw [State.escalate_part absorbed (.inr ⟨level, core⟩) part]
    · rw [State.escalate_module absorbed (.inr ⟨level, engine⟩)]
    · rw [State.escalate_module absorbed (.inl level)]
    · rw [State.escalate_last absorbed level]
  · exact ⟨execGalleryClearComplete_leaving true found leaving none cleared,
      execGalleryClearComplete_leaving false found leaving none cleared⟩

end Sys2Proof.Machine
end


section
/-! SUPPORT. Onlan ports and links (R395 to R404): training, lanes, replays and segments, each by its own guard. -/

namespace Sys2Proof.Machine

section
variable {s : State} {n : PortId}

/-- A training that is in progress ends by the wiring, and then by the partner. -/
theorem execPortTrainingComplete_training {r : TrainObs} (enabled : s.portEn n = true)
    (training : (1 ≤ (s.port n).st ∧ (s.port n).st ≤ 5) ∨ (s.port n).st = 7) :
    exec (.portTrainingComplete n r) s = (s.wiringFault n r).elim
      (.next (if partnerTrusted r then s.portActive n r (s.trainCause n r) else s.portFails n r 9)) fun x => .next (s.portFails n r x) := by
  change execPortTrainingComplete n r s = _
  unfold execPortTrainingComplete
  dsimp only
  rw [if_neg (by simp [enabled, training])]
  cases s.wiringFault n r <;> rfl

/-- A NAK on a live port acknowledges, and what is left is sent again. -/
theorem execLinkNak_live (a : BitVec 12) (live : s.live n = true) :
    exec (.linkNak n a) s = .next (if ((s.port n).ack a.toNat).replayBuf = [] then (s.setPort n ((s.port n).ack a.toNat)).mirrorDrained
      else s.replayed n ((s.port n).ack a.toNat).replay) := by
  change execLinkNak n a s = _
  simp only [execLinkNak, live, Bool.not_true, Bool.false_eq_true, if_false]

/-- The tag of the segment that is due, or one that discards it. -/
theorem execSegmentTag_live {g : Word} {t good : BitVec 128} {k : PortSt} {x : Nat} (live : s.live n = true) (port : k = s.port n)
    (tag : good = gcmTag k.keyIn k.nonceIn [] ((k.rxBuf.filter fun f => f.typ ≠ 3).flatMap FlitIn.payload))
    (count : x = min (k.rxBuf.countP fun f => f.typ = 3) (SMap.get 0 k.rxUsed 8)) :
    exec (.segmentTag n g t) s = if t = good ∧ g.toNat = k.rxSeg then
        .next (s.setPort n ({ k with rxSeg := k.rxSeg + 1, rxBuf := [], rxUsed := SMap.upd 0 k.rxUsed 8 (· - x),
                                     owed := SMap.upd 0 k.owed 8 (· + x) }.pump 1100))
      else .next (((s.setPort n { k with tagFails := satAdd 16 k.tagFails 1 }).emit (227 + n) 0x17 0 g.toNat).retrain n) := by
  change execSegmentTag n g t s = _
  simp only [execSegmentTag, live, ← port, ← tag, ← count, Bool.not_true, Bool.false_eq_true, if_false]

end

/-- Settles O30: the ports' commands by BAR2 and the training, the link's by what is unacknowledged and by the tag. -/
theorem portsAndLinksComplete : Obligations.PortsAndLinksComplete := by
  unfold Obligations.PortsAndLinksComplete
  refine ⟨fun s n => ⟨fun isOpen => ⟨if_pos isOpen, if_pos isOpen, if_pos isOpen⟩, fun r enabled training => ⟨fun wired trusted => ?_,
    fun wired stranger => ?_, fun x wrong => ?_⟩, fun l => ⟨fun used => if_pos (List.contains_iff_mem.mpr used), fun unused => if_neg fun used =>
      unused (List.contains_iff_mem.mp used)⟩⟩, fun s n live => ⟨fun a left => ?_, fun a none => ?_, fun left => if_pos ⟨live, left⟩,
    fun g t good k x port tag count => ⟨fun right due => ?_, fun wrong => ?_⟩, fun data credit room => if_pos ⟨live, data, credit, room⟩⟩⟩
  · rw [execPortTrainingComplete_training enabled training, wired, Option.elim_none, if_pos trusted]
  · simp only [execPortTrainingComplete_training enabled training, wired, Option.elim_none, stranger, Bool.false_eq_true, if_false]
  · rw [execPortTrainingComplete_training enabled training, wrong, Option.elim_some]
  · rw [execLinkNak_live a live, if_neg left]
  · rw [execLinkNak_live a live, if_pos none]
  · rw [execSegmentTag_live live port tag count, if_pos ⟨right, due⟩]
  · rw [execSegmentTag_live live port tag count, if_neg fun both => wrong.elim (· both.1) (· both.2)]

end Sys2Proof.Machine
end


section
/-! SUPPORT. Flits and messages (R400 to R409): what a flit leaves at its port, and what a WRITE and its acknowledgement do. -/

namespace Sys2Proof.Machine

/-! ## Flits (R400, R401, R403) -/

/-- A flit's CRC holds, and no injection has spoiled it. -/
def flitSound (h : Word) (f : FlitBody) (i : Nat) : Bool :=
  decide (f.payload.length = 244 ∧ crc32c (leBytes 8 h.toNat ++ f.payload) = f.crc ∧ i = 0)

/-- A flit on a live port. -/
theorem execFlit_live {s0 s : State} {i : Nat} {n : PortId} {h : Word} {f : FlitBody} (live : s0.live n = true)
    (spoiled : s0.injected (227 + n) [7] = (i, s)) :
    exec (.flit n h f) s0 = .next ((s.takeFlit n h.toNat f.payload (flitSound h f i)).drainIn n) := by
  change execFlit n h f s0 = _
  simp only [execFlit, live, spoiled, Bool.not_true, Bool.false_eq_true, if_false]
  rfl

/-- A flit that fails its check, or is of no type or channel that exists, makes a NAK due. -/
theorem State.takeFlit_bad {s : State} {n h : Nat} {payload : List Byte} {sound : Bool}
    (bad : sound = false ∨ 4 ≤ bits h 3 0 ∨ 10 ≤ bits h 7 4) :
    s.takeFlit n h payload sound = s.setPort n { s.port n with nakSent := true } := by
  simp only [State.takeFlit, Bool.not_eq_true', bad, if_true]

section
variable {s u : State} {n h : Nat} {payload : List Byte} {k k' : PortSt}

/-- Any other acknowledges and returns credits; in order, it is accepted; a NAK in it has what is unacknowledged sent again. -/
theorem State.takeFlit_good (typ : bits h 3 0 < 4) (vc : bits h 7 4 < 10)
    (acked : k = { (s.port n).ack (bits h 31 20) with
      credits := SMap.upd 0 ((s.port n).ack (bits h 31 20)).credits (bits h 35 32) fun u => u - bits h 43 36 })
    (taken : k' = if bits h 3 0 = 0 then k
      else if bits h 19 8 = k.rxSeq then
        k.accept { vc := bits h 7 4, typ := bits h 3 0, last := bit h 45, tag := bits h 63 48, payload := payload }
      else { k with nakSent := true })
    (put : u = if bit h 44 && !k'.replayBuf.isEmpty then s.replayed n k'.replay else s.setPort n k') :
    s.takeFlit n h payload true = (if u.live n then u.setPort n ((u.port n).pump 1100) else u).mirrorDrained := by
  have good : ¬ ((!true) = true ∨ 4 ≤ bits h 3 0 ∨ 10 ≤ bits h 7 4) := by
    simp only [Bool.not_true, Bool.false_eq_true, false_or]
    omega
  unfold State.takeFlit
  rw [if_neg good]
  subst put taken acked
  rfl

/-- What a NAK in a flit leaves. -/
theorem State.nak_cases (plain : bit h 44 = false ∨ k'.replayBuf = [] → u = s.setPort n k')
    (again : bit h 44 = true → k'.replayBuf ≠ [] → u = s.replayed n k'.replay) :
    u = if bit h 44 && !k'.replayBuf.isEmpty then s.replayed n k'.replay else s.setPort n k' := by
  by_cases nak : bit h 44 = true
  · by_cases none : k'.replayBuf = []
    · simp only [plain (.inr none), none, List.isEmpty_nil, Bool.not_true, Bool.and_false, Bool.false_eq_true, if_false]
    · simp only [again nak none, nak, none, Bool.true_and, Bool.not_eq_true', List.isEmpty_eq_false_iff, ne_eq, not_false_eq_true, if_true]
  · have off : bit h 44 = false := by simpa using nak
    simp only [plain (.inl off), off, Bool.false_and, Bool.false_eq_true, if_false]

end

/-! ## Messages (R405 to R409) -/

section
variable {s u : State} {n : PortId} {h : BitVec 256} {data : List Byte}

/-- A WRITE on a live fabric port. -/
theorem execWrite_live (e : PhysErr) (fabric : n.val < 10) (live : s.live n = true) (kind : mKind h = 1) (length : data.length = mLen h)
    (fits : data.length ≤ 4096) :
    exec (.write n h ⟨data, e⟩) s = if mDst h ≠ s.moduleId then .next ((s.freeFlits n { hdr := h, data := data }).forward h data)
      else .next ((s.drainIn n).dealWrites n [(h, data, s.devEcc e)]) := by
  change execWrite n h ⟨data, e⟩ s = _
  refine if_neg ?_
  rintro (far | dead | other | wrong | long)
  · omega
  · simp [live] at dead
  · exact other kind
  · exact wrong length
  · exact absurd fits (Nat.not_le.mpr long)

/-- With nothing before it in the receive buffer, a WRITE is dealt with at once. -/
theorem State.dealWrites_first {x : BitVec 256 × List Byte × Ecc} (free : (s.port n).heldIn = []) :
    (s.drainIn n).dealWrites n [x] = s.dealWrite n x := by
  have notUp : s.heldUp n x.1 = false := by simp [State.heldUp, free]
  simp only [State.drainIn, free, if_true, State.dealWrites, List.foldl_cons, List.foldl_nil, notUp, Bool.false_eq_true, if_false]

/-- A WRITE_ACK on a live fabric port. -/
theorem execWriteAck_live {v : State} (fabric : n.val < 10) (live : s.live n = true) (kind : mKind h = 2) (freed : v = s.freeFlits n { hdr := h }) :
    exec (.writeAck n h) s = if mDst h ≠ v.moduleId then .next (v.forward h [])
      else (v.sends.find? fun m => decide (m.dst = mSrc h ∧ m.seq = mSeq h) && m.port.isSome).elim (.next v)
        fun m => .next (v.takeAck m (mStatus h)) := by
  have taken : ¬ (10 ≤ n.val ∨ (!s.live n) = true ∨ mKind h ≠ 2) := by
    rintro (far | dead | other)
    · omega
    · simp [live] at dead
    · exact other kind
  change execWriteAck n h s = _
  unfold execWriteAck
  rw [if_neg taken]
  simp only [← freed]
  cases v.sends.find? fun m => decide (m.dst = mSrc h ∧ m.seq = mSeq h) && m.port.isSome <;> rfl

end

/-- Settles O31: a flit by its check and its order, a message by its destination, a resend by the message that it names. -/
theorem flitsAndMessagesComplete : Obligations.FlitsAndMessagesComplete := by
  unfold Obligations.FlitsAndMessagesComplete
  refine ⟨fun s0 s i n h k live spoiled => ⟨fun f bad => ?_, fun f length crc clean acked typ vc k' u taken plain again => ?_⟩,
    fun s n h fabric live => ⟨fun data e kind length fits => ⟨fun here free u => ⟨fun dealt => ?_, fun waits => ?_⟩, fun here => ?_, fun other => ?_⟩,
      fun v kind freed => ⟨fun other => ?_, fun m here found => ?_⟩, fun d q m found => ?_⟩⟩
  · rw [execFlit_live live spoiled, State.takeFlit_bad]
    rcases bad with short | wrong | injected | typ | vc
    · exact .inl (decide_eq_false fun sound => short sound.1)
    · exact .inl (decide_eq_false fun sound => wrong sound.2.1)
    · exact .inl (decide_eq_false fun sound => injected sound.2.2)
    · exact .inr (.inl typ)
    · exact .inr (.inr vc)
  · have sound : flitSound h f i = true := decide_eq_true ⟨length, crc, clean⟩
    rw [execFlit_live live spoiled, sound, State.takeFlit_good typ vc acked taken (State.nak_cases plain again)]
    exact ⟨fun up => by rw [if_pos up], fun down => by simp only [down, Bool.false_eq_true, if_false]⟩
  · rw [execWrite_live e fabric live kind length fits, if_neg (not_not.mpr here), State.dealWrites_first free]
    simp only [State.dealWrite, dealt, if_true]
  · rw [execWrite_live e fabric live kind length fits, if_neg (not_not.mpr here), State.dealWrites_first free]
    simp only [State.dealWrite, waits, Bool.false_eq_true, if_false]
  · rw [execWrite_live e fabric live kind length fits, if_neg (not_not.mpr here)]
  · rw [execWrite_live e fabric live kind length fits, if_pos other]
  · rw [execWriteAck_live fabric live kind freed, if_pos other]
  · rw [execWriteAck_live fabric live kind freed, if_neg (not_not.mpr here), found, Option.elim_some]
  · change execMessageResend d q s = _
    simp only [execMessageResend, found]

end Sys2Proof.Machine
end


section
/-! SUPPORT. Functions, sessions and interfaces (R453, R454, R469 to R473): each command by its own guard. -/

namespace Sys2Proof.Machine

/-- A request over an endpoint with no session establishes one, once what it wakes is awake. -/
theorem execSpdmSession_new {s u : State} {e : SpdmReq} (woken : u = s.wake 5) (on : u.secOn = true) (none : u.inSession e.endpoint = false) :
    exec (.spdmSession e) s = .next { u with
      sec := { u.sec with sessions := u.sec.sessions ++ [u.spdmAnswer e] }, freeCtr := u.freeCtr + 1 } := by
  change execSpdmSession e s = _
  simp only [execSpdmSession, ← woken, on, none, Bool.not_true, Bool.false_eq_true, or_self, if_false]

/-- Settles O36: each command by the guard that admits it or turns it away. -/
theorem functionsAndInterfacesComplete : Obligations.FunctionsAndInterfacesComplete := by
  unfold Obligations.FunctionsAndInterfacesComplete
  refine ⟨fun s => ⟨fun n up => if_pos up, fun p => rfl, rfl, rfl, fun f p next => ?_⟩, fun s p f => ⟨fun u e woken on none =>
    execSpdmSession_new woken on none, fun on session free => ?_, fun b none => ?_, fun on held => ?_,
    fun on free => ⟨fun active => if_pos ⟨on, free, active⟩, fun idle => if_neg fun guard => idle guard.2.2⟩,
    fun on locked => ⟨fun secure => if_pos ⟨on, locked, secure⟩, fun bare => if_neg fun guard => guard.2.2 bare⟩,
    fun up held => if_pos ⟨up, held⟩, fun up held => if_pos ⟨up, held⟩⟩⟩
  · change Host.Outcome.next (if f.val = 0 then s.flrPf else s.flrVf (f - 1)) = .next (s.flrVf p)
    rw [if_neg (by omega), next, Nat.add_sub_cancel]
  · change execIdeKm f false s = _
    simp only [execIdeKm, on, session, Bool.false_eq_true, if_false, Nat.add_zero, free, Bool.not_true, or_self]
  · refine if_pos (.inr (.inl ?_))
    rw [none]
    rfl
  · change execKSetGo f true s = _
    simp only [execKSetGo, on, held, if_true, Bool.not_true, Bool.false_eq_true, or_self, if_false]

end Sys2Proof.Machine
end


section
/-! SUPPORT. Zeroisation, attestation and unlocks (R435, R460, R463, R464): what parking keeps, and what each request needs. -/

namespace Sys2Proof.Machine

/-! ## What parking keeps (R389) -/

/-- The security state, the ports and the memories are as they were. -/
structure State.SameVault (s t : State) : Prop where
  sec : t.sec = s.sec
  ports : t.ports = s.ports
  mem : t.mem = s.mem
  host : t.host = s.host

theorem State.SameVault.refl (s : State) : s.SameVault s := ⟨rfl, rfl, rfl, rfl⟩

theorem State.SameVault.trans {s t u : State} (st : s.SameVault t) (tu : t.SameVault u) : s.SameVault u :=
  ⟨tu.sec.trans st.sec, tu.ports.trans st.ports, tu.mem.trans st.mem, tu.host.trans st.host⟩

theorem State.Answered.sameVault {s t : State} (same : s.Answered t) : s.SameVault t := by
  rw [same]
  exact ⟨rfl, rfl, rfl, rfl⟩

theorem State.releaseFrames_sameVault (s : State) (l : List (Nat × Nat)) : s.SameVault (s.releaseFrames l) :=
  List.foldl_keeps (P := s.SameVault) (.refl s) fun _ _ same => same.trans ⟨rfl, rfl, rfl, rfl⟩

theorem State.withBg_sameVault (s : State) (l : List BgOp) : s.SameVault { s with bg := l } := ⟨rfl, rfl, rfl, rfl⟩

theorem State.dropBgs_sameVault (s : State) (gone : BgOp → Bool) : s.SameVault (s.dropBgs gone) :=
  (s.releaseFrames_sameVault _).trans (State.withBg_sameVault _ _)

theorem State.withQueues_sameVault (s : State) (m : SMap QueueSt) (l : List (Nat × DescSt)) :
    s.SameVault { s with queues := m, admitted := l } := ⟨rfl, rfl, rfl, rfl⟩

theorem State.withCompl_sameVault (s : State) (l : List ComplSt) : s.SameVault { s with compl := l } := ⟨rfl, rfl, rfl, rfl⟩

theorem State.tornDescriptors_sameVault (s : State) : s.SameVault s.tornDescriptors := by
  unfold State.tornDescriptors
  refine List.foldl_keeps (P := s.SameVault) ?_ fun t x same => same.trans (t.pushCompl_answered _).sameVault
  exact ((s.withQueues_sameVault _ _).trans (State.dropBgs_sameVault _ _)).trans (State.withCompl_sameVault _ _)

theorem State.setCore_sameVault (s : State) (c : Nat) (k : CoreSt) : s.SameVault (s.setCore c k) := ⟨rfl, rfl, rfl, rfl⟩

theorem State.withPwr_sameVault (s : State) (x : PwrSt) : s.SameVault { s with pwr := x } := ⟨rfl, rfl, rfl, rfl⟩

theorem State.onCores_sameVault (s : State) (f : CoreSt → CoreSt) (l : List Nat) : s.SameVault (s.onCores f l) := by
  induction l generalizing s with
  | nil => exact .refl s
  | cons c l ih => exact (s.setCore_sameVault c (f (s.core c))).trans (ih (s.setCore c (f (s.core c))))

theorem State.setFlight_sameVault (s : State) (n : Nat) (f : Option FlightSt) : s.SameVault (s.setFlight n f) := ⟨rfl, rfl, rfl, rfl⟩

theorem State.endFlight_sameVault (s : State) (n status : Nat) : s.SameVault (s.endFlight n status) := by
  unfold State.endFlight
  split
  · split
    · exact .refl s
    · exact (s.setFlight_sameVault n _).trans (State.onCores_sameVault _ _ _)
  · exact .refl s

theorem State.endFlights_sameVault (s : State) (status : Nat) (t : FlightSt → Bool) : s.SameVault (s.endFlights status t) :=
  List.foldl_keeps (P := s.SameVault) (.refl s) fun u n same => same.trans (u.endFlight_sameVault n status)

theorem State.setFld_sameVault (s : State) (off hi lo v : Nat) : s.SameVault (s.setFld off hi lo v) := ⟨rfl, rfl, rfl, rfl⟩

theorem State.alarm_sameVault (s : State) (k unit d0 d1 : Nat) : s.SameVault (s.alarm k unit d0 d1) := ⟨rfl, rfl, rfl, rfl⟩

theorem State.each_setCore_sameVault (s : State) (f : State → Nat → CoreSt) (l : List Nat) :
    s.SameVault (s.each (fun s c => s.setCore c (f s c)) l) := by
  rw [State.each_eq_foldl]
  exact List.foldl_keeps (P := s.SameVault) (.refl s) fun t c same => same.trans (t.setCore_sameVault c _)

/-- What a park answers, ends and reports before the halls are held in reset. -/
def State.parkReport (s : State) (cause : Nat) : State :=
  (((s.tornDescriptors.endFlights 0x2A fun _ => true).setFld rPrtFaultStatus 39 32 cause).setPstate 6).alarm 5 242 cause 0

/-- The halls are held in reset. -/
def State.parkHalls (s : State) : State :=
  ({ s with sec := { s.sec with parked := true }, mir := { s.mir with claimOut := false },
            cores := SMap.mapV {} (fun _ k => { k with inReset := true }) s.cores } : State).each
    (fun s c => s.setCore c { s.core c with inReset := true }) (List.range 192)

theorem State.park_eq (s : State) (cause : Nat) :
    s.park cause = if (s.parkReport cause).parkHalls.fld rPrtFaultCtrl 9 9 = 1 then
      { (s.parkReport cause).parkHalls with pwr := { (s.parkReport cause).parkHalls.pwr with alert := true } }
    else (s.parkReport cause).parkHalls := rfl

theorem State.parkReport_sameVault (s : State) (cause : Nat) : s.SameVault (s.parkReport cause) :=
  ((((s.tornDescriptors_sameVault.trans (State.endFlights_sameVault _ _ _)).trans (State.setFld_sameVault _ _ _ _ _)).trans
    (State.setFld_sameVault _ _ _ _ _)).trans (State.alarm_sameVault _ _ _ _ _))

/-- The parked state: security keeps all but that it is parked. -/
structure State.Parked (s t : State) : Prop where
  sec : t.sec = { s.sec with parked := true }
  ports : t.ports = s.ports
  mem : t.mem = s.mem
  host : t.host = s.host

theorem State.Parked.trans {s t u : State} (st : s.Parked t) (tu : t.SameVault u) : s.Parked u :=
  ⟨tu.sec.trans st.sec, tu.ports.trans st.ports, tu.mem.trans st.mem, tu.host.trans st.host⟩

theorem State.SameVault.parked {s t : State} (same : s.SameVault t) (m : MirSt) (cores : SMap CoreSt) :
    s.Parked { t with sec := { t.sec with parked := true }, mir := m, cores := cores } :=
  ⟨by rw [same.sec], same.ports, same.mem, same.host⟩

theorem State.SameVault.parkHalls {s t : State} (same : s.SameVault t) : s.Parked t.parkHalls :=
  (same.parked _ _).trans (State.each_setCore_sameVault _ (fun s c => { s.core c with inReset := true }) _)

theorem State.park_parked (s : State) (cause : Nat) : s.Parked (s.park cause) := by
  have halls := (s.parkReport_sameVault cause).parkHalls
  rw [State.park_eq]
  split
  · exact halls.trans (State.withPwr_sameVault _ _)
  · exact halls

/-! ## Keys (R464) -/

/-- What a map of images reads is the default, or the image of something. -/
theorem SMap.get_mapV_cases {α : Type} [DecidableEq α] {d : α} (f : Nat → α → α) (m : SMap α) (i : Nat) :
    SMap.get d (SMap.mapV d f m) i = d ∨ ∃ v, SMap.get d (SMap.mapV d f m) i = f i v := by
  induction m with
  | nil => exact .inl rfl
  | cons e m ih =>
    obtain ⟨k, v⟩ := e
    unfold SMap.mapV
    split
    · exact ih
    · unfold SMap.get
      split
      · next here => exact .inr ⟨v, by rw [here]⟩
      · exact ih

/-- After a zeroisation no port holds keys. -/
theorem State.zeroiseAll_keys (s : State) (n : Nat) : (s.zeroiseAll.port n).keys = false := by
  rcases SMap.get_mapV_cases (fun _ (k : PortSt) => { k with keys := false, keyOut := 0, keyIn := 0 }) s.ports n with none | ⟨k, held⟩
  · exact congrArg PortSt.keys none
  · exact congrArg PortSt.keys held

/-- A module whose keys are gone parks, and they stay gone. -/
theorem State.park_zeroised {s u : State} (cause : Nat) (keys : u.sec.keys = {}) (sessions : u.sec.sessions = [])
    (ports : u.ports = s.zeroiseAll.ports) (mem : u.mem = s.mem) (host : u.host = s.host) :
    (u.park cause).sec.keys = {} ∧ (u.park cause).sec.sessions = [] ∧ (u.park cause).sec.parked = true ∧
      (u.park cause).sec.tamper = u.sec.tamper ∧ (∀ n : PortId, ((u.park cause).port n).keys = false) ∧ (u.park cause).mem = s.mem ∧
      (u.park cause).host = s.host := by
  obtain ⟨sec, samePorts, sameMem, sameHost⟩ := u.park_parked cause
  rw [sec]
  refine ⟨keys, sessions, rfl, rfl, fun n => ?_, sameMem.trans mem, sameHost.trans host⟩
  rw [State.port, samePorts, ports]
  exact s.zeroiseAll_keys n

/-- The tamper log and the record that holds it: what a response has kept when the module parks. -/
def State.tampered (s : State) (x : BitVec 4) (supply : Bool) : State :=
  let s := s.zeroiseAll
  let s := { s with sec := { s.sec with tamper := s.sec.tamper ||| x.toNat } }
  if supply then s.commitRecord fun r => r.logTamper { sensors := x.toNat, boot := r.boots, tick := s.tickNo.toNat } else s

/-- Nothing but what a response zeroises and keeps. -/
theorem State.tampered_effect (s : State) (x : BitVec 4) (supply : Bool) :
    (s.tampered x supply).sec.keys = {} ∧ (s.tampered x supply).sec.sessions = [] ∧
      (s.tampered x supply).sec.tamper = s.sec.tamper ||| x.toNat ∧ (s.tampered x supply).ports = s.zeroiseAll.ports ∧
      (s.tampered x supply).mem = s.mem ∧ (s.tampered x supply).host = s.host := by
  cases supply <;> exact ⟨rfl, rfl, rfl, rfl, rfl, rfl⟩

theorem execTamperResponse_up {s : State} {x : BitVec 4} (supply : Bool) (sensors : x ≠ 0) (up : s.jormirUp = true) :
    exec (.tamperResponse x supply) s =
      .next (((s.tampered x supply).alarm 6 242 (s.tampered x supply).sec.tamper 0).park 0x02) := by
  change execTamperResponse x supply s = _
  unfold execTamperResponse
  rw [if_neg (by rintro (none | down); exacts [sensors none, by simp [up] at down])]
  rfl

/-! ## Attestation and unlocks (R460, R463) -/

theorem execUnlockRequest_eq {s u : State} (woken : u = s.wake 5) (k : BitVec 1536) :
    exec (.unlockRequest k) s = if !u.secOn ∨ !u.tokenOk k ∨ u.scopeRefused (tokScope k) then .next u else .next { u with
      sec := { u.sec with
        unlockDue := some { scope := tokScope k, lastTick := tokLast k }, nonces := u.sec.nonces.filter fun n => !decide (n = tokNonce k) } } := by
  subst woken
  rfl

/-- An unlock past its last tick lapses; one that still holds is left. -/
theorem execUnlockExpiry_held {s : State} {l : Unlock} (held : s.sec.unlock = some l) :
    exec .unlockExpiry s = if s.tickNo.toNat ≤ l.lastTick then .next s
      else .next (({ s with sec := { s.sec with unlock := none } } : State).extendSlot 4
        (Config.measured 4 (if s.sec.approved then 8 else 0))).scanFalls := by
  change execUnlockExpiry s = _
  simp only [execUnlockExpiry, held]

/-- Settles O37: the keys by what a zeroisation leaves and a park keeps, each request by what it needs. -/
theorem keysAreDestroyedAndUnlocksGranted : Obligations.KeysAreDestroyedAndUnlocksGranted := by
  unfold Obligations.KeysAreDestroyedAndUnlocksGranted
  refine ⟨fun s => ⟨fun x b sensors up => ?_, fun v isOpen => ⟨fun key => ?_, fun other => ?_⟩⟩, fun s u woken => ⟨fun f n on key cert => ?_,
    fun on => ?_, fun k on ok admits => ?_, fun k on refused => ?_, fun l held => ⟨fun past => ?_, fun holds => ?_⟩⟩⟩
  · obtain ⟨keys, sessions, tamper, ports, mem, host⟩ := s.tampered_effect x b
    have alarmed := (s.tampered x b).alarm_sameVault 6 242 (s.tampered x b).sec.tamper 0
    obtain ⟨keys', sessions', parked, kept, links, mem', host'⟩ := State.park_zeroised (s := s) 0x02
      (by rw [alarmed.sec, keys]) (by rw [alarmed.sec, sessions]) (alarmed.ports.trans ports) (alarmed.mem.trans mem) (alarmed.host.trans host)
    exact ⟨_, execTamperResponse_up b sensors up, keys', sessions', parked, by rw [kept, alarmed.sec, tamper], links, mem', host'⟩
  · have run : exec (.zeroise v) s = .next (({ s.zeroiseAll with freeCtr := s.freeCtr + 1 } : State).park
        ((Config.unstated s.freeCtr).toNat % 256)) := by
      change execZeroise v s = _
      rw [execZeroise, if_pos isOpen, State.zeroise, if_neg (not_not.mpr key)]
    obtain ⟨keys, sessions, parked, -, links, mem, host⟩ := State.park_zeroised (s := s)
      (u := { s.zeroiseAll with freeCtr := s.freeCtr + 1 }) ((Config.unstated s.freeCtr).toNat % 256) rfl rfl rfl rfl rfl
    exact ⟨_, run, keys, sessions, parked, links, mem, host⟩
  · change execZeroise v s = _
    rw [execZeroise, if_pos isOpen, State.zeroise, if_pos other]
  · change execAttestationRequest f n s = _
    simp only [execAttestationRequest, ← woken, on, key, cert, and_self, if_true]
  · change execUnlockNonceRequest s = _
    simp only [execUnlockNonceRequest, ← woken, on, Bool.not_true, Bool.false_eq_true, if_false]
  · rw [execUnlockRequest_eq woken k, if_neg (by simp [on, ok, admits])]
  · rw [execUnlockRequest_eq woken k, if_pos]
    exact .inr (refused.imp_left fun bad => by rw [bad]; rfl)
  · rw [execUnlockExpiry_held held, if_neg (Nat.not_le.mpr past)]
  · rw [execUnlockExpiry_held held, if_pos holds]

end Sys2Proof.Machine
end


section
/-! SUPPORT. The supply, the power-up and the resets (R489 to R491, R504, R505, R510): each command by the state of the supply. -/

namespace Sys2Proof.Machine

/-- A field of a register is written; the supply, the cores, the flights and the firmware in flash are as they were. -/
theorem State.setFld_keeps_supply (s : State) (off hi lo v : Nat) :
    (s.setFld off hi lo v).pwr = s.pwr ∧ (s.setFld off hi lo v).cores = s.cores ∧ (s.setFld off hi lo v).flights = s.flights ∧
      (s.setFld off hi lo v).sec = s.sec := ⟨rfl, rfl, rfl, rfl⟩

/-- What `fresh` leaves of the module. -/
theorem State.fresh_fields (s : State) (p : PwrSt) :
    (s.fresh p).pwr = p ∧ (s.fresh p).cores = [] ∧ (s.fresh p).flights = [] ∧ (s.fresh p).sec.images = s.sec.images := by
  unfold State.fresh
  dsimp only
  obtain ⟨pwr, cores, flights, sec⟩ := State.setFld_keeps_supply
    { pending := s.pending, host := s.host, freeCtr := s.freeCtr,
      sec := { record := s.sec.record, spare := s.sec.spare, images := s.sec.images }, pwr := p, made := s.made, decided := s.decided }
    rPwrStatus 43 32 (s.fld rPwrStatus 43 32)
  exact ⟨pwr, cores, flights, by rw [sec]⟩

/-- A module that is held in reset answers at no register. -/
theorem State.barOpen_of_resetHeld {s : State} (off : Nat) (held : s.pwr.resetHeld = true) : s.barOpen off = false := by
  simp only [State.barOpen, held, Bool.not_true, Bool.and_false, Bool.false_and]

theorem State.barOpen_withDbg (s : State) (x : DbgSt) (off : Nat) : ({ s with dbg := x } : State).barOpen off = s.barOpen off := rfl

/-- Everything outside the always-on domain and the converters is held in reset. -/
theorem exec_moduleResetNAssert {s : State} (up : s.pwr.off = false) : ∃ t, exec .moduleResetNAssert s = .next t ∧
    t.pwr.resetHeld = true ∧ t.cores = [] ∧ t.flights = [] ∧ t.sec.images = s.sec.images ∧ ∀ off, t.barOpen off = false := by
  obtain ⟨pwr, cores, flights, images⟩ :=
    s.fresh_fields { s.pwr.kept with off := false, pwrGood := true, hallsOn := true, resetHeld := true }
  have held := congrArg PwrSt.resetHeld pwr
  refine ⟨_, if_neg (by simp [up]), held, cores, flights, images, fun off => ?_⟩
  rw [State.barOpen_withDbg]
  exact State.barOpen_of_resetHeld off held

/-- The always-on domain starts with the module off and its address taken from the straps. -/
theorem exec_alwaysOnDomainStart {s : State} (b : BitVec 2) (dead : s.pwr.aon = false) :
    ∃ t, exec (.alwaysOnDomainStart b) s = .next t ∧ t.pwr.smbus = 0x58 + b.toNat ∧ t.pwr.off = true ∧ t.pwr.aon = true := by
  obtain ⟨pwr, -⟩ := s.fresh_fields
    { smbus := 0x58 + b.toNat, pwrEn := false, pwrGood := false, off := true, hallsOn := false, inputOk := false }
  exact ⟨_, if_neg (by simp [dead]), congrArg PwrSt.smbus pwr, congrArg PwrSt.off pwr, congrArg PwrSt.aon pwr⟩

/-- With the input below 40 V, what the always-on domain keeps is lost. -/
theorem exec_alwaysOnDomainReset (s : State) :
    ∃ t, exec .alwaysOnDomainReset s = .next t ∧ t.pwr.aon = false ∧ t.pwr.off = true ∧ t.cores = [] ∧ t.sec.images = s.sec.images := by
  obtain ⟨pwr, cores, -, images⟩ := s.fresh_fields
    { aon := false, pwrEn := false, pwrGood := false, off := true, hallsOn := false, inputOk := false }
  obtain ⟨samePwr, sameCores, -, sameSec⟩ := State.setFld_keeps_supply
    (s.fresh { aon := false, pwrEn := false, pwrGood := false, off := true, hallsOn := false, inputOk := false }) rPwrStatus 43 32 0
  exact ⟨_, rfl, congrArg PwrSt.aon (samePwr.trans pwr), congrArg PwrSt.off (samePwr.trans pwr), sameCores.trans cores,
    (congrArg SecSt.images sameSec).trans images⟩

/-- Settles O38: each command by its guard; what it leaves by `fresh`. -/
theorem supplyAndResetsComplete : Obligations.SupplyAndResetsComplete := by
  unfold Obligations.SupplyAndResetsComplete
  refine ⟨fun s => ⟨fun on up => ⟨?_, ?_⟩, fun r up least most => ?_, rfl, fun on off free => if_pos ⟨on, off, by simpa using free⟩,
    fun latched => if_pos latched, fun on off free enabled cause => ?_⟩, fun s => ⟨fun on off => ⟨fun free => if_pos ⟨on, off, by simpa using free⟩,
    fun latched => if_neg fun guard => ?_⟩, fun up => ?_, fun on off enabled input calm => ?_, exec_moduleResetNAssert, fun held => ?_,
    fun b dead => exec_alwaysOnDomainStart b dead, exec_alwaysOnDomainReset s⟩⟩
  · change execUndervoltage s = _
    simp only [execUndervoltage, on, up, Bool.not_true, Bool.false_eq_true, if_false]
  · change execOvervoltage s = _
    simp only [execOvervoltage, on, up, Bool.not_true, Bool.false_eq_true, if_false]
  · refine if_neg fun refused => ?_
    rcases refused with off | low | high
    · simp [up] at off
    · omega
    · omega
  · exact if_pos ⟨on, off, by simpa using free, enabled, cause.imp_left fun low => ⟨low.1, by simpa using low.2⟩⟩
  · simp [latched] at guard
  · change execPowerDown s = _
    simp only [execPowerDown, up, Bool.false_eq_true, if_false]
  · change execPwrCycleN s = _
    simp only [execPwrCycleN, on, off, enabled, input, calm, Bool.not_true, Bool.not_false, Bool.false_eq_true, if_false, if_true, and_self]
  · change execModuleResetNRelease s = _
    simp only [execModuleResetNRelease, held, Bool.not_true, Bool.false_eq_true, if_false]

end Sys2Proof.Machine
end


section
/-! SUPPORT. The boot (R444 to R446, R455, R506): the checks of its stages, in their order. -/

namespace Sys2Proof.Machine

/-- The stages after the record is in force. -/
def State.bootStages (r : State) (o : BootObs) : State :=
  let u := r.bootEarly.setFld rPwrBoot 55 40 o.stackFail.toNat
  if !(r.monitor.any r.loads) then r.bootStops 6
  else if !o.cryptoOk then r.bootEarly.cryptoError
  else if o.stackFail ≠ 0 then u.bootStops 8
  else if !o.firmwareOk then u.park 0x03
  else if u.reloadFirmware.sec.parked then u.reloadFirmware
  else if !o.crossingsOk ∨ !o.ringOk then u.reloadFirmware.bootStops 8
  else u.reloadFirmware.bootEnds o

section
variable {s v r : State} {o : BootObs}

/-- A boot that is due: the image, then the record, then the other stages. -/
theorem execBoot_due (up : s.pwr.off = false) (good : s.pwr.pwrGood = true) (free : s.pwr.resetHeld = false) (state : s.pstate = 0)
    (first : s.bootDone = false) (unparked : s.sec.parked = false) (stage : s.fld rPwrBoot 3 0 = 0)
    (bank : v = if o.otherBank then s.activate 1 else s) :
    exec (.boot o) s = if !o.monitorOk ∨ !(v.monitor.any FwImage.verified) then .next (v.bootStops 6)
      else (v.useRecord o).elim (.next (v.bootStops 7)) fun r => .next (r.bootStages o) := by
  have due : ¬ (s.pwr.off ∨ (!s.pwr.pwrGood) = true ∨ s.pwr.resetHeld ∨ s.pstate ≠ 0 ∨ s.bootDone ∨ s.sec.parked ∨ s.fld rPwrBoot 3 0 ≠ 0) := by
    simp [up, good, free, state, first, unparked, stage]
  change execBoot o s = _
  unfold execBoot
  rw [if_neg due]
  simp only [← bank]
  refine if_congr Iff.rfl rfl ?_
  cases v.useRecord o with
  | none => rfl
  | some r =>
    simp only [Option.elim_some, State.bootStages, apply_ite Host.Outcome.next]

/-- Neither bank verifies. -/
theorem State.useRecord_none (bad : o.recordOk = false) (noSpare : v.sec.spare = none ∨ o.spareOk = false) : v.useRecord o = none := by
  simp only [State.useRecord, bad, Bool.false_eq_true, if_false]
  rcases noSpare with none | unverified
  · rw [none]
  · cases v.sec.spare with
    | none => rfl
    | some r => simp only [unverified, Bool.false_eq_true, if_false]

/-- The bank in force, or the other where it does not verify. -/
theorem State.useRecord_some (good : o.recordOk = true → r = { v with sec := { v.sec with spare := if o.spareOk then v.sec.spare else none } })
    (other : o.recordOk = false → o.spareOk = true ∧ ∃ c, v.sec.spare = some c ∧ r = { v with sec := { v.sec with record := c, spare := none } }) :
    v.useRecord o = some r := by
  cases verified : o.recordOk with
  | true => simp only [State.useRecord, verified, if_true, good verified]
  | false =>
    obtain ⟨spareOk, c, spare, rfl⟩ := other verified
    simp only [State.useRecord, verified, Bool.false_eq_true, if_false, spare, spareOk, if_true]

end

/-- Settles O39: the image, the record, and then each stage by the check that fails first. -/
theorem bootRunsItsStages : Obligations.BootRunsItsStages := by
  unfold Obligations.BootRunsItsStages
  intro s v o up good free state first unparked stage sameBank otherBank
  have bank : v = if o.otherBank then s.activate 1 else s := by
    cases other : o.otherBank with
    | true => rw [if_pos rfl, otherBank other]
    | false => rw [if_neg (by simp), sameBank other]
  rw [execBoot_due up good free state first unparked stage bank]
  refine ⟨fun bad => if_pos ?_, fun monitor verified => ?_⟩
  · simpa using bad
  rw [if_neg (by simp [monitor, verified])]
  refine ⟨fun bad noSpare => by rw [State.useRecord_none bad noSpare, Option.elim_none], fun r goodRecord otherRecord => ?_⟩
  rw [State.useRecord_some goodRecord otherRecord, Option.elim_some]
  refine ⟨fun loads => ?_, fun u w loads checked loaded => ?_⟩
  · simp only [State.bootStages, loads, Bool.not_false, if_true]
  subst loaded checked
  have stages : r.bootStages o = _ := if_neg (by simp [loads])
  rw [stages]
  refine ⟨fun crypto => ?_, fun crypto failed => ?_, fun crypto passed => ⟨fun firmware => ?_, fun firmware parked => ?_,
    fun firmware runs broken => ?_, fun firmware runs crossings ring => ?_⟩⟩
  · rw [if_pos (by simp [crypto])]
  · rw [if_neg (by simp [crypto]), if_pos failed]
  · rw [if_neg (by simp [crypto]), if_neg (not_not.mpr passed), if_pos (by simp [firmware])]
  · rw [if_neg (by simp [crypto]), if_neg (not_not.mpr passed), if_neg (by simp [firmware]), if_pos parked]
  · rw [if_neg (by simp [crypto]), if_neg (not_not.mpr passed), if_neg (by simp [firmware]), if_neg (by simp [runs]), if_pos (by simpa using broken)]
  · rw [if_neg (by simp [crypto]), if_neg (not_not.mpr passed), if_neg (by simp [firmware]), if_neg (by simp [runs]),
      if_neg (by simp [crossings, ring])]

end Sys2Proof.Machine
end


section
/-! SUPPORT. IDLE_HOLD, WATCH and the PCIe link (R468, R472, R474, R497 to R500, R504, R507): entries, exits and the wakes between them. -/

namespace Sys2Proof.Machine

/-! ## Entries (R497, R498) -/

/-- What reads bits of a field that has been cleared reads 0. -/
theorem State.fld_setFld_zero (s : State) (off : Nat) {hi lo h l : Nat} (order : lo ≤ hi) (range : hi < 64) (low : lo ≤ l) (high : h ≤ hi) :
    (s.setFld off hi lo 0).fld off h l = 0 := by
  refine Nat.eq_of_testBit_eq fun j => ?_
  rw [State.fld, State.setFld, State.setReg_same, bits_testBit, Nat.zero_testBit]
  by_cases inside : j < h + 1 - l
  · rw [BitVec.testBit_toNat, putBits_getLsbD (by omega) order, if_pos ⟨by omega, by omega⟩, Nat.zero_testBit, Bool.and_false]
  · simp only [inside, decide_false, Bool.false_and]

theorem State.pstate_setPstate (s : State) {v : Nat} (fits : v < 8) : (s.setPstate v).pstate = v :=
  s.fld_setFld_same rPwrStatus (by omega) (by omega) (by omega)

theorem State.opNow_setPstate (s : State) (v h : Nat) : (s.setPstate v).opNow h = s.opNow h :=
  s.fld_setFld_other 2 0 v _ _ (by decide)

theorem State.opNow_withPwr (s : State) (x : PwrSt) (h : Nat) : ({ s with pwr := x } : State).opNow h = s.opNow h := rfl

theorem State.opNow_cleared (s : State) (h : Fin 4) : (s.setFld rPwrOp 47 32 0).opNow h = 0 :=
  s.fld_setFld_zero rPwrOp (by omega) (by omega) (by omega) (by omega)

theorem State.setFld_sameUnits (s : State) (off hi lo v : Nat) : s.SameUnits (s.setFld off hi lo v) := ⟨rfl, rfl, rfl, rfl⟩

theorem State.SameUnits.withPwr {s t : State} (same : s.SameUnits t) (x : PwrSt) : s.SameUnits { t with pwr := x } :=
  ⟨same.cores, same.stks, same.mem, same.host⟩

/-- A running module whose generator is stopped goes to IDLE_HOLD with every hall at OP0. -/
theorem exec_idleHoldEntry {s : State} (runs : s.pstate = 1) (idle : s.genIdle = true) :
    ∃ t, exec .idleHoldEntry s = .next t ∧ t.pstate = 2 ∧ (∀ h : Fin 4, t.opNow h = 0) ∧ t.mem = s.mem ∧ t.host = s.host ∧
      t.cores = s.cores ∧ t.stks = s.stks := by
  obtain ⟨n, p, run⟩ : ∃ n p, exec .idleHoldEntry s =
      .next (({ (s.countFld rPwrCounts 31 0 n).setFld rPwrOp 47 32 0 with pwr := p } : State).setPstate 2) :=
    ⟨_, _, if_neg (by simp [runs, idle])⟩
  have same : s.SameUnits (({ (s.countFld rPwrCounts 31 0 n).setFld rPwrOp 47 32 0 with pwr := p } : State).setPstate 2) :=
    (((s.setFld_sameUnits _ _ _ _).trans (State.setFld_sameUnits _ _ _ _ _)).withPwr p).trans (State.setFld_sameUnits _ _ _ _ _)
  refine ⟨_, run, State.pstate_setPstate _ (by omega), fun h => ?_, same.mem, same.host, same.cores, same.stks⟩
  rw [State.opNow_setPstate, State.opNow_withPwr, State.opNow_cleared]

/-- The entry of WATCH ends with the halls off; an exit that was asked for meanwhile begins at once. -/
theorem execWatchEntryComplete_entering {s u : State} (entering : s.pstate = 3) (lost : u = s.hallsLose.countFld rPwrCounts 63 48 1) :
    exec .watchEntryComplete s = .next (({ u with pwr := { u.pwr with isolated := true, hallsOn := false, wakeDue := false } } : State).setPstate
      (if u.pwr.wakeDue || u.pwr.perst then 5 else 4)) := by
  change execWatchEntryComplete s = _
  simp only [execWatchEntryComplete, entering, ne_eq, not_true_eq_false, if_false, ← lost]

/-! ## The watch sequencer (R499) -/

/-- The limits in their order; the first exceeded is the cause. -/
theorem execWatchSample_watching {s u : State} {m : PowerMeas} (watch : s.pstate = 4)
    (read : u = ((s.setFld rPwrMeas 63 48 (m.vin % 65536)).setFld rPwrMeas 15 8 (m.inlet % 256)).setFld rPwrMeas 7 0 (hotDie m % 256)) :
    exec (.watchSample m) s = if 110 ≤ hotDie m then .next u.thermal
      else if u.fld rPwrWatch 47 40 < m.inlet then .next (u.wake 2)
      else if u.fld rPwrWatch 55 48 < m.stackC.foldl max 0 then .next (u.wake 3)
      else if m.vin < 25 * u.fld rPwrWatch 39 32 then .next (u.wake 4)
      else .next u := by
  change execWatchSample m s = _
  simp only [execWatchSample, watch, ne_eq, not_true_eq_false, if_false, ← read]

/-! ## The exit (R500, R502) -/

/-- The supply and the memories are as they were. -/
structure State.SameSupply (s t : State) : Prop where
  pwr : t.pwr = s.pwr
  mem : t.mem = s.mem
  host : t.host = s.host

theorem State.SameSupply.refl (s : State) : s.SameSupply s := ⟨rfl, rfl, rfl⟩

theorem State.SameSupply.trans {s t u : State} (st : s.SameSupply t) (tu : t.SameSupply u) : s.SameSupply u :=
  ⟨tu.pwr.trans st.pwr, tu.mem.trans st.mem, tu.host.trans st.host⟩

theorem State.setPstate_sameSupply (s : State) (v : Nat) : s.SameSupply (s.setPstate v) := ⟨rfl, rfl, rfl⟩

theorem State.setStk_sameSupply (s : State) (t : Nat) (k : StackSt) : s.SameSupply (s.setStk t k) := ⟨rfl, rfl, rfl⟩

theorem State.setCore_sameSupply (s : State) (c : Nat) (k : CoreSt) : s.SameSupply (s.setCore c k) := ⟨rfl, rfl, rfl⟩

theorem State.setPort_sameSupply (s : State) (n : Nat) (k : PortSt) : s.SameSupply (s.setPort n k) := ⟨rfl, rfl, rfl⟩

theorem State.SameSupply.each {f : State → Nat → State} (step : ∀ (t : State) (n : Nat), t.SameSupply (f t n)) (s : State) (l : List Nat) :
    s.SameSupply (s.each f l) := by
  rw [State.each_eq_foldl]
  exact List.foldl_keeps (P := s.SameSupply) (.refl s) fun t n same => same.trans (step t n)

theorem State.allDies_sameSupply (s : State) (st : Nat) : s.SameSupply (s.allDies st) :=
  .each (fun t n => t.setStk_sameSupply n _) s _

theorem State.writeScratch_sameSupply (s : State) (l : List (Nat × Nat × List Byte)) : s.SameSupply (s.writeScratch l) :=
  List.foldl_keeps (P := s.SameSupply) (.refl s) fun t _ same => same.trans (t.setCore_sameSupply _ _)

theorem State.withSec_sameSupply (s : State) (x : SecSt) : s.SameSupply { s with sec := x } := ⟨rfl, rfl, rfl⟩

theorem State.extendSlot_sameSupply (s : State) (i : Nat) (x : List Byte) : s.SameSupply (s.extendSlot i x) := ⟨rfl, rfl, rfl⟩

/-- Firmware that loads leaves the supply and the memories; any other parks the module. -/
theorem State.reloadFirmware_sameSupply {s : State} (runs : s.reloadFirmware.sec.parked = false) : s.SameSupply s.reloadFirmware := by
  have parks (cause : Nat) : (s.park cause).sec.parked = true := congrArg SecSt.parked (s.park_parked cause).sec
  unfold State.reloadFirmware at runs ⊢
  split
  · next f found =>
    simp only [found] at runs
    split
    · exact (s.withSec_sameSupply _).trans (State.extendSlot_sameSupply _ _ _)
    · next refused =>
      rw [if_neg refused, parks] at runs
      exact absurd runs (by decide)
  · next found =>
    simp only [found] at runs
    rw [parks] at runs
    exact absurd runs (by decide)

/-- The weights that the scratchpads held are written again. -/
def State.rebuildScratch (s : State) : State :=
  (s.parts.flatMap fun e => e.2.graphs.filterMap Prod.snd).foldl
    (fun s g => if g.resident ∧ g.scratchHeld then s.writeScratch g.scratch else s) s

/-- The ports that are enabled begin training. -/
def State.trainPorts (s : State) : State :=
  s.each (fun s n => if s.portEn n ∧ (s.port n).st = 0 then s.setPort n { s.port n with st := 1, cause := 0 } else s) (List.range 12)

/-- The exit of WATCH with firmware that loads. -/
theorem execWatchExitComplete_loaded {s u : State} (leaving : s.pstate = 5) (loaded : u = ((s.setPstate 2).allDies 0).reloadFirmware)
    (runs : u.sec.parked = false) : ∃ v : State, v = u.rebuildScratch.trainPorts ∧
      exec .watchExitComplete s = .next (if v.pwr.perst then
        ({ v with pwr := { v.pwr with isolated := false, hallsOn := true, perst := false } } : State).perstReset
      else { v with pwr := { v.pwr with isolated := false, hallsOn := true, perst := false } }) := by
  refine ⟨_, rfl, ?_⟩
  change execWatchExitComplete s = _
  unfold execWatchExitComplete
  rw [if_neg (not_not.mpr leaving)]
  dsimp only
  rw [← loaded, if_neg (by simp [runs])]
  rfl

theorem State.rebuildScratch_sameSupply (s : State) : s.SameSupply s.rebuildScratch := by
  refine List.foldl_keeps (P := s.SameSupply) (.refl s) fun t g same => ?_
  split
  · exact same.trans (t.writeScratch_sameSupply _)
  · exact same

theorem State.trainPorts_sameSupply (s : State) : s.SameSupply s.trainPorts :=
  .each (fun t n => ite_keeps (P := t.SameSupply) (fun _ => t.setPort_sameSupply n _) fun _ => .refl t) s _

/-- With no reset of the link due, the exit of WATCH ends with the halls on again and the memories as they were. -/
theorem exec_watchExitComplete {s u : State} (leaving : s.pstate = 5) (loaded : u = ((s.setPstate 2).allDies 0).reloadFirmware)
    (runs : u.sec.parked = false) (calm : s.pwr.perst = false) :
    ∃ t, exec .watchExitComplete s = .next t ∧ t.pwr.isolated = false ∧ t.pwr.hallsOn = true ∧ t.mem = s.mem ∧ t.host = s.host := by
  obtain ⟨v, def_v, run⟩ := execWatchExitComplete_loaded leaving loaded runs
  have same : s.SameSupply v := by
    subst loaded def_v
    exact (((s.setPstate_sameSupply 2).trans (State.allDies_sameSupply _ 0)).trans (State.reloadFirmware_sameSupply runs)).trans
      ((State.rebuildScratch_sameSupply _).trans (State.trainPorts_sameSupply _))
  have noReset : v.pwr.perst = false := by rw [same.pwr, calm]
  rw [noReset, if_neg (by simp)] at run
  exact ⟨_, run, rfl, rfl, same.mem, same.host⟩

/-- Settles O40: each entry and exit by the power state, a sample by the first limit exceeded. -/
theorem idleHoldAndWatchComplete : Obligations.IdleHoldAndWatchComplete := by
  unfold Obligations.IdleHoldAndWatchComplete
  refine fun s => ⟨exec_idleHoldEntry, fun isOpen => ⟨if_pos isOpen, if_pos isOpen⟩, rfl, fun u entering lost => ⟨fun quiet calm => ?_, fun due => ?_⟩,
    fun m u watch read => ?_, fun u leaving loaded => ⟨fun parked => ?_, exec_watchExitComplete leaving loaded⟩⟩
  · rw [execWatchEntryComplete_entering entering lost, if_neg (by simp [quiet, calm])]
  · rw [execWatchEntryComplete_entering entering lost, if_pos (by simpa using due)]
  · rw [execWatchSample_watching watch read]
    refine ⟨fun hot => if_pos hot, fun cool warm => ?_, fun cool inlet warm => ?_, fun cool inlet stack low => ?_, fun cool inlet stack input => ?_⟩
    · rw [if_neg (by omega), if_pos warm]
    · rw [if_neg (by omega), if_neg (by omega), if_pos warm]
    · rw [if_neg (by omega), if_neg (by omega), if_neg (by omega), if_pos low]
    · rw [if_neg (by omega), if_neg (by omega), if_neg (by omega), if_neg (by omega)]
  · change execWatchExitComplete s = _
    simp only [execWatchExitComplete, leaving, ne_eq, not_true_eq_false, if_false, ← loaded, parked, if_true]

/-! ## The PCIe link (R468, R504, R507) -/

/-- Settles O41: a reset of the link by the power state, a training by what it found. -/
theorem pcieLinkCommandsComplete : Obligations.PcieLinkCommandsComplete := by
  unfold Obligations.PcieLinkCommandsComplete
  refine fun s => ⟨fun up => ⟨fun least most => ?_, fun running booted => ?_, fun running booting => ?_⟩,
    fun f w g u v up good free width least most same reset shown => ?_, fun n => rfl⟩
  · change execPciePerstN s = _
    simp only [execPciePerstN, up, least, most, Bool.false_eq_true, if_false, and_self, if_true]
  · have awake : ¬ (3 ≤ s.pstate ∧ s.pstate ≤ 5) := by omega
    change execPciePerstN s = _
    simp only [execPciePerstN, up, awake, booted, Bool.false_eq_true, if_false, if_true]
  · have awake : ¬ (3 ≤ s.pstate ∧ s.pstate ≤ 5) := by omega
    change execPciePerstN s = _
    simp only [execPciePerstN, up, awake, booting, Bool.false_eq_true, if_false]
  · have trained : v = if s.dbg.scanLink then ({ s with dbg := { s.dbg with scanLink := false } } : State).perstReset else s := by
      cases scan : s.dbg.scanLink with
      | true => rw [if_pos rfl, reset scan]
      | false => rw [if_neg (by simp), same scan]
    have taken : ¬ (s.pwr.off ∨ (!s.pwr.pwrGood) = true ∨ s.pwr.resetHeld ∨ w.toNat ∉ [1, 2, 4, 8, 16] ∨ g.toNat = 0 ∨ 6 < g.toNat) := by
      rintro (off | bad | held | odd | none | fast)
      · simp [up] at off
      · simp [good] at bad
      · simp [free] at held
      · exact odd width
      · omega
      · omega
    change execPcieLinkTrained f w g s = _
    unfold execPcieLinkTrained
    rw [if_neg taken]
    simp only [← trained, ← shown]

end Sys2Proof.Machine
end


section
/-! SUPPORT. Partition and context commands and the enables (R16, R481, R485, R486), and the boundary-scan port (R533 to R535). -/

namespace Sys2Proof.Machine

/-! ## Partitions (R481) -/

theorem createPart_next {s : State} {p : PartId} (here : s.barOpen (pfBase p) = true) :
    exec (.partitionCreate p) s = .next (s.createPart p) := if_pos here

theorem destroyPart_next {s : State} {p : PartId} (here : s.barOpen (pfBase p) = true) :
    exec (.partitionDestroy p) s = .next (s.destroyPart p) := if_pos here

theorem State.destroyPart_guarded {s : State} {p : Nat} (guarded : (s.part p).tdi = 1 ∨ (s.part p).tdi = 2) :
    s.destroyPart p = s.flag rPrtStatus 1 := if_pos guarded

theorem State.destroyPart_due {s : State} {p : Nat} (config : (s.part p).tdi ≠ 1) (idle : (s.part p).tdi ≠ 2)
    (there : (s.part p).st = .active ∨ (s.part p).st = .softStopped ∨ (s.part p).st = .hardStopped) :
    s.destroyPart p = s.pend (pfBase p + rPrtLife) 1 1 1 := by
  unfold State.destroyPart
  dsimp only
  rw [if_neg (not_or.mpr ⟨config, idle⟩), if_pos there]

/-! ## Contexts (R485) -/

theorem ctxCreate_next {s : State} {p : PartId} {v : Word} (here : s.barOpen (sliceBase p) = true) (op : bits v.toNat 1 0 ≠ 2) :
    exec (.ctxCreate p v) s = .next (s.ctxCommand p v) := if_pos ⟨op, here⟩

theorem ctxDestroy_next {s : State} {p : PartId} {v : Word} (here : s.barOpen (sliceBase p) = true) (op : bits v.toNat 1 0 = 2) :
    exec (.ctxDestroy p v) s = .next (s.ctxCommand p v) := if_pos ⟨op, here⟩

theorem State.ctxCommand_ignored {s : State} {p : Nat} (v : Word) (calm : (s.part p).st ≠ .active) :
    s.ctxCommand p v = s.flag (sliceBase p + rPartStatus) 8 := if_pos calm

theorem State.ctxCommand_destroy {s : State} {p : Nat} {v : Word} (active : (s.part p).st = .active) (op : bits v.toNat 1 0 = 2) :
    s.ctxCommand p v = s.ctxDestroy p v := by
  rw [State.ctxCommand, if_neg (not_not.mpr active), if_pos op]

theorem State.ctxCommand_create {s : State} {p : Nat} {v : Word} (active : (s.part p).st = .active) (op : bits v.toNat 1 0 ≠ 2) :
    s.ctxCommand p v = s.ctxCreate p v := by
  rw [State.ctxCommand, if_neg (not_not.mpr active), if_neg op]

theorem State.ctxCreate_reserved {s : State} {p : Nat} {v : Word} (op : bits v.toNat 1 0 ≠ 1) :
    s.ctxCreate p v = s.ctxResult p (bits v.toNat 31 16) 0x01 := by
  unfold State.ctxCreate
  dsimp only
  rw [if_pos op]
  rfl

theorem State.handle_free {s : State} {p h : Nat} (handle : h ≠ 0) (free : s.ctx p h = none) : ¬ (h = 0 ∨ (s.ctx p h).isSome = true) := by
  simp [handle, free]

section
variable {s : State} {p : Nat} {v : Word} (op : bits v.toNat 1 0 = 1)
include op

theorem State.ctxCreate_taken (taken : bits v.toNat 31 16 = 0 ∨ (s.ctx p (bits v.toNat 31 16)).isSome = true) :
    s.ctxCreate p v = s.ctxResult p (bits v.toNat 31 16) 0x03 := by
  unfold State.ctxCreate
  dsimp only
  rw [if_neg (not_not.mpr op), if_pos taken]
  rfl

variable (handle : bits v.toNat 31 16 ≠ 0) (free : s.ctx p (bits v.toNat 31 16) = none)
include handle free

theorem State.ctxCreate_weightless (weight : bits v.toNat 15 8 = 0) : s.ctxCreate p v = s.ctxResult p (bits v.toNat 31 16) 0x04 := by
  unfold State.ctxCreate
  dsimp only
  rw [if_neg (not_not.mpr op), if_neg (State.handle_free handle free), if_pos weight]
  rfl

variable (weight : bits v.toNat 15 8 ≠ 0)
include weight

theorem State.ctxCreate_full (full : s.fld (pfBase p + rPrtQuota) 8 0 ≤ (s.part p).held) :
    s.ctxCreate p v = s.ctxResult p (bits v.toNat 31 16) 0x08 := by
  unfold State.ctxCreate
  dsimp only
  rw [if_neg (not_not.mpr op), if_neg (State.handle_free handle free), if_neg weight, if_pos full]
  rfl

variable (room : (s.part p).held < s.fld (pfBase p + rPrtQuota) 8 0)
include room

theorem State.ctxCreate_seeded (given : bit v.toNat 2 = true) :
    s.ctxCreate p v = (s.setCtx p (bits v.toNat 31 16) (some
      { job := bits v.toNat 63 32, weight := bits v.toNat 15 8, seed := s.reg (sliceBase p + rCtxSeed), seedGiven := true })).ctxResult p (bits v.toNat 31 16) 0 := by
  unfold State.ctxCreate
  dsimp only
  rw [if_neg (not_not.mpr op), if_neg (State.handle_free handle free), if_neg weight, if_neg (Nat.not_le.mpr room), if_neg (by decide), given]
  rfl

theorem State.ctxCreate_drawn (drawn : bit v.toNat 2 = false) :
    s.ctxCreate p v = (s.draw.2.setCtx p (bits v.toNat 31 16) (some
      { job := bits v.toNat 63 32, weight := bits v.toNat 15 8, seed := s.draw.1, seedGiven := false })).ctxResult p (bits v.toNat 31 16) 0 := by
  unfold State.ctxCreate
  dsimp only
  rw [if_neg (not_not.mpr op), if_neg (State.handle_free handle free), if_neg weight, if_neg (Nat.not_le.mpr room), if_neg (by decide), drawn]
  rfl

end

/-! ## Enables (R486) -/

/-- The module HARD_STOPPING on a request of any source, its partitions with it, and the soft stop that it overtakes answered. -/
def State.haltingFor (s : State) (src : StopSource) : State :=
  ((s.hardStopParts src s.stoppable).dropStops fun c => decide (c = .module)).setGenState 4

theorem State.haltingFor_part (s : State) (src : StopSource) (q : Nat) :
    (s.haltingFor src).part q = (s.hardStopParts src s.stoppable).part q :=
  (State.dropStops_answered (s.hardStopParts src s.stoppable) _).part q

theorem State.stopRequest_module {s : State} (src : StopSource) (runs : s.genState = 1 ∨ s.genState = 2) :
    (s.stopRequest true .module src none).1 = { s.haltingFor src with tick := { (s.haltingFor src).tick with
      modStopped := ((s.haltingFor src).tick.modStopped ++ s.stoppable).eraseDups, isOpen := false } } := by
  have going : s.genState = 1 ∨ s.genState = 2 ∨ s.genState = 3 := runs.imp_right .inl
  simp only [State.stopRequest, going, if_true, State.haltingFor, State.stoppable]

/-- A hard stop of a running module takes every ACTIVE and stopping partition with it and ends the open tick. -/
theorem State.stopRequest_module_effect {s t : State} (src : StopSource) (runs : s.genState = 1 ∨ s.genState = 2)
    (stop : t = (s.stopRequest true .module src none).1) :
    t.genState = 4 ∧ t.tick.isOpen = false ∧
      (∀ q : Fin 16, (s.part q).st = .active ∨ (s.part q).st = .softStopping → (t.part q).st = .hardStopping) ∧
      (∀ q : Fin 16, (s.part q).st ≠ .active → (s.part q).st ≠ .softStopping → t.part q = s.part q) := by
  rw [stop, State.stopRequest_module src runs]
  refine ⟨(State.genState_tick _ _).trans (State.genState_setGenState _ (by omega)), rfl, fun q stops => ?_, fun q idle calm => ?_⟩
  · rw [State.part_tick, s.haltingFor_part]
    exact s.hardStopParts_st _ (State.mem_stoppable.mpr stops)
  · rw [State.part_tick, s.haltingFor_part]
    exact s.hardStopParts_other _ fun mem => (State.mem_stoppable.mp mem).elim idle calm

theorem execEngineEnClear_on {s u : State} {e : EngineEn} (here : s.barOpen (engineReg e) = true) (on : s.fld (engineReg e) 0 0 ≠ 0)
    (cleared : u = s.setFld (engineReg e) 0 0 0) :
    exec (.engineEnClear e) s =
      .next (if u.genState = 1 ∨ u.genState = 2 then (u.stopRequest true .module .registerWrite none).1 else u) := by
  change execEngineEnClear e s = _
  rw [execEngineEnClear, if_pos here, State.engineOff, if_neg on, cleared]

/-- Clearing an engine's enable while the module runs is a hard stop of the module. -/
theorem engineEnClear_running {s u : State} {e : EngineEn} (here : s.barOpen (engineReg e) = true) (on : s.fld (engineReg e) 0 0 ≠ 0)
    (cleared : u = s.setFld (engineReg e) 0 0 0) (runs : u.genState = 1 ∨ u.genState = 2) :
    ∃ t, exec (.engineEnClear e) s = .next t ∧ t.genState = 4 ∧ t.tick.isOpen = false ∧
      (∀ q : Fin 16, (s.part q).st = .active ∨ (s.part q).st = .softStopping → (t.part q).st = .hardStopping) ∧
      (∀ q : Fin 16, (s.part q).st ≠ .active → (s.part q).st ≠ .softStopping → t.part q = s.part q) := by
  have same (q : Nat) : u.part q = s.part q := by rw [cleared]; rfl
  have effect := State.stopRequest_module_effect .registerWrite runs rfl
  simp only [same] at effect
  exact ⟨_, by rw [execEngineEnClear_on here on cleared, if_pos runs], effect⟩

/-- Settles O42: each command by its guard; a create of a context by the checks in their order. -/
theorem partitionsContextsAndEnablesComplete : Obligations.PartitionsContextsAndEnablesComplete := by
  unfold Obligations.PartitionsContextsAndEnablesComplete
  refine ⟨fun s p => ⟨fun here => ⟨fun absent => ?_, fun there => ?_, fun guarded => ?_, fun config idle there => ?_⟩, fun v here =>
    ⟨fun h active op same => ?_, fun active one two => ?_, fun active op => ?_, fun calm op => ?_, fun calm op => ?_⟩⟩,
    fun s => ⟨fun v off here => ?_, fun e u here => ⟨fun off => ?_, fun on cleared => ⟨fun one two => ?_, engineEnClear_running here on cleared⟩⟩⟩⟩
  · rw [createPart_next here, State.createPart, if_pos absent, State.setPartState]
  · rw [createPart_next here, State.createPart, if_neg there]
  · rw [destroyPart_next here, State.destroyPart_guarded guarded]
  · rw [destroyPart_next here, State.destroyPart_due config idle there]
  · subst same
    have other : bits v.toNat 1 0 ≠ 2 := by rw [op]; decide
    rw [ctxCreate_next here other, State.ctxCommand_create active other]
    exact ⟨fun handle free weight room given => by rw [State.ctxCreate_seeded op handle free weight room given],
      fun handle free weight room drawn => by rw [State.ctxCreate_drawn op handle free weight room drawn],
      fun taken => by rw [State.ctxCreate_taken op taken],
      fun handle free weight => by rw [State.ctxCreate_weightless op handle free weight],
      fun handle free weight full => by rw [State.ctxCreate_full op handle free weight full]⟩
  · rw [ctxCreate_next here two, State.ctxCommand_create active two, State.ctxCreate_reserved one]
  · rw [ctxDestroy_next here op, State.ctxCommand_destroy active op]
  · rw [ctxDestroy_next here op, State.ctxCommand_ignored v calm]
  · rw [ctxCreate_next here op, State.ctxCommand_ignored v calm]
  · change execFeDisable v s = _
    rw [execFeDisable, if_neg (by simp [off, here])]
    rfl
  · change execEngineEnClear e s = _
    rw [execEngineEnClear, if_pos here, State.engineOff, if_pos off]
  · rw [execEngineEnClear_on here on cleared, if_neg (not_or.mpr ⟨one, two⟩)]

/-! ## Boundary scan (R533 to R535) -/

theorem State.tapRestricted_refused {s : State} (i : TapInstr) (f : Bool) (on : s.tapOn = true) (scan : s.scanOn = false) :
    s.tapRestricted i f = (s.tapSelect .bypass false false).flag rTstStatus 1 := by
  simp [State.tapRestricted, on, scan]

theorem State.tapRestricted_noLink {s : State} (i : TapInstr) (f : Bool) (on : s.tapOn = true) (scan : s.scanOn = true)
    (link : s.pwr.linkUp = false) : s.tapRestricted i f = s.tapSelect i (!f) f := by
  have same : (s.tapSelect i (!f) f).pwr.linkUp = false := link
  simp [State.tapRestricted, on, scan, same]

/-- Driving or floating the pins takes the link down. -/
theorem State.tapRestricted_link {s : State} (i : TapInstr) (f : Bool) (on : s.tapOn = true) (scan : s.scanOn = true)
    (link : s.pwr.linkUp = true) : s.tapRestricted i f = { s.tapSelect i (!f) f with
      pwr := { s.pwr with linkUp := false }, dbg := { (s.tapSelect i (!f) f).dbg with scanLink := true } } := by
  have same : (s.tapSelect i (!f) f).pwr.linkUp = true := link
  simp only [State.tapRestricted, on, scan, same, Bool.not_true, Bool.false_eq_true, if_false, if_true]
  rfl

/-- Settles O44: the restricted instructions are one function of the model, the others are guarded by the port alone. -/
theorem boundaryScanComplete : Obligations.BoundaryScanComplete := by
  unfold Obligations.BoundaryScanComplete
  refine fun s on => ⟨if_pos on, if_pos on, if_pos on, fun v => if_neg (by simp [on]), fun cmd i f row => ?_⟩
  have run : exec cmd s = .next (s.tapRestricted i f) := by
    simp only [List.mem_cons, List.not_mem_nil, or_false, Prod.mk.injEq] at row
    rcases row with ⟨rfl, rfl, rfl⟩ | ⟨rfl, rfl, rfl⟩ | ⟨rfl, rfl, rfl⟩ | ⟨rfl, rfl, rfl⟩ | ⟨rfl, rfl, rfl⟩ <;> rfl
  rw [run]
  exact ⟨fun refused => by rw [State.tapRestricted_refused i f on refused],
    fun scan link => by rw [State.tapRestricted_noLink i f on scan link],
    fun scan link => by rw [State.tapRestricted_link i f on scan link]⟩

end Sys2Proof.Machine
end


section
/-! SUPPORT. Counters, event rings, traces, injected errors and the aperture (R517, R518, R520 to R532, R536). -/

namespace Sys2Proof.Machine

/-! ## Counters (R517, R518) -/

/-- A command to one unit's counters. -/
theorem State.dbgCmd_unit (s : State) {u : Nat} (mask : Nat) (smp rst : Bool) (here : u < 208) :
    s.dbgCmd u mask smp rst = { s with dbg := { s.dbg with
      perf := SMap.set {} s.dbg.perf u ((SMap.get {} s.dbg.perf u).command smp rst mask) } } := by
  have one : dbgUnits u = [u] := by rw [dbgUnits, if_neg (by omega), if_pos here]
  rw [State.dbgCmd, one]
  rfl

/-- Of the unit that it names, the counters become those of the command. -/
theorem State.dbgCmd_get (s : State) {u : Nat} (mask : Nat) (smp rst : Bool) (here : u < 208) :
    SMap.get {} (s.dbgCmd u mask smp rst).dbg.perf u = (SMap.get {} s.dbg.perf u).command smp rst mask := by
  rw [s.dbgCmd_unit mask smp rst here]
  exact SMap.get_set_same _ _ _ _

/-- No other unit's counters change, and nothing else. -/
theorem State.dbgCmd_frame (s : State) {u : Nat} (mask : Nat) (smp rst : Bool) (here : u < 208) :
    s.dbgCmd u mask smp rst = { s with dbg := { s.dbg with perf := (s.dbgCmd u mask smp rst).dbg.perf } } ∧
      ∀ v, v ≠ u → SMap.get {} (s.dbgCmd u mask smp rst).dbg.perf v = SMap.get {} s.dbg.perf v := by
  rw [s.dbgCmd_unit mask smp rst here]
  exact ⟨rfl, fun v other => SMap.get_set_other _ _ other.symm⟩

theorem getD_map_range {f : Nat → Nat} {n k : Nat} (inside : k < n) : ((List.range n).map f).getD k 0 = f k := by
  rw [List.getD_eq_getElem?_getD, List.getElem?_map, List.getElem?_range inside]
  rfl

section
variable (p : PerfSt) (mask : Nat) {k : Nat}

theorem PerfSt.command_sample (rst : Bool) (inside : k < 4) :
    (p.command true rst mask).sample.getD k 0 = if bit mask k then p.live.getD k 0 else p.sample.getD k 0 := getD_map_range inside

theorem PerfSt.command_live (smp : Bool) (inside : k < 4) :
    (p.command smp true mask).live.getD k 0 = if bit mask k then 0 else p.live.getD k 0 := getD_map_range inside

end

/-- SAMPLE, RESET and SAMPLE_RESET of one unit. -/
theorem counterCommands_effect {s : State} {u : Byte} {m : BitVec 4} (open_ : s.barOpen rDbgCmd = true) (here : u.toNat < 208) :
    ∃ t1 t2 t3, exec (.sample u m) s = .next t1 ∧ exec (.reset u m) s = .next t2 ∧ exec (.sampleReset u m) s = .next t3 ∧
      (∀ t, t = t1 ∨ t = t2 ∨ t = t3 → t = { s with dbg := { s.dbg with perf := t.dbg.perf } } ∧
        ∀ v, v ≠ u.toNat → SMap.get {} t.dbg.perf v = SMap.get {} s.dbg.perf v) ∧
      (∀ k < 4, ∀ p : State → PerfSt, (p = fun t => SMap.get {} t.dbg.perf u.toNat) →
        (p t1).sample.getD k 0 = (if bit m.toNat k then (p s).live.getD k 0 else (p s).sample.getD k 0) ∧
        (p t2).live.getD k 0 = (if bit m.toNat k then 0 else (p s).live.getD k 0) ∧
        (p t3).sample.getD k 0 = (p t1).sample.getD k 0 ∧ (p t3).live.getD k 0 = (p t2).live.getD k 0) := by
  refine ⟨s.dbgCmd u.toNat m.toNat true false, s.dbgCmd u.toNat m.toNat false true, s.dbgCmd u.toNat m.toNat true true,
    if_pos open_, if_pos open_, if_pos open_, fun t one => ?_, fun k inside p counters => ?_⟩
  · rcases one with rfl | rfl | rfl <;> exact s.dbgCmd_frame m.toNat _ _ here
  · simp only [counters, s.dbgCmd_get m.toNat _ _ here, PerfSt.command_sample _ _ _ inside, PerfSt.command_live _ _ _ inside, and_self]

/-! ## Event records (R525, R526) -/

section
variable {s w : State} {u : Byte} {l : List (Nat × Nat)} {r : EventRec} {t : List EventRec} (first : (s.ring u.toNat).unsent = r :: t)
  (own : r.part = none) (taken : w = s.setRing u.toNat { s.ring u.toNat with unsent := t })
include first own taken

theorem eventRecordAccept_quiet (low : w.fld rDbgCtrl 7 6 < r.prio) : exec (.eventRecordAccept u l) s = .next w := by
  change execEventRecordAccept u l s = _
  simp only [execEventRecordAccept, first, own, ← taken, if_neg (Nat.not_le.mpr low)]

theorem eventRecordAccept_offered (high : r.prio ≤ w.fld rDbgCtrl 7 6) : exec (.eventRecordAccept u l) s =
    .next ((w.evHeadIs 0 (headAt l (w.wordAt (evHead 0)) (w.evRing 0).head)).evOffer 0 (w.redact r)) := by
  change execEventRecordAccept u l s = _
  simp only [execEventRecordAccept, first, own, ← taken, if_pos high]

end

/-! ## Traces, injected errors and the aperture (R528 to R532, R536) -/

theorem traceRecord_collected {s : State} {u : Byte} {r : BitVec 128} (traced : s.traced u.toNat r = true)
    (whole : (s.ring u.toNat).traceLost = 0) : exec (.traceRecord u r true) s = .next (s.collect r) := by
  change execTraceRecord u r true s = _
  simp [execTraceRecord, traced, whole]

theorem traceRecord_lost {s : State} {u : Byte} {r : BitVec 128} (traced : s.traced u.toNat r = true) :
    exec (.traceRecord u r false) s =
      .next (s.setRing u.toNat { s.ring u.toNat with traceLost := (s.ring u.toNat).traceLost + 1 }).traceDrop := by
  change execTraceRecord u r false s = _
  simp [execTraceRecord, traced]

theorem errorInject_next {s : State} {v : Word} (here : s.barOpen rTstInject = true) : exec (.errorInject v) s = .next (s.tstInject v) :=
  if_pos here

theorem State.tstInject_refused {s : State} (v : Word) (shut : s.unlocked 3 = false) : s.tstInject v = s.flag rTstStatus 0 := by
  simp [State.tstInject, shut]

theorem State.tstInject_armed {s : State} {v : Word} (unlocked : s.unlocked 3 = true) (valid : bit v.toNat 11 = true)
    (kind : bits v.toNat 10 8 ≠ 0) :
    s.tstInject v = { s with dbg := { s.dbg with inject := some (bits v.toNat 10 8, bits v.toNat 7 0) } } := by
  unfold State.tstInject
  dsimp only
  rw [if_neg (by simp [unlocked]), if_pos ⟨valid, kind⟩]

theorem apertureAccess_read {s : State} (off : Nat) (v : Word) (here : s.barOpen rDbgAperture = true) :
    exec (.apertureAccess off false v) s = .next { s with readData := s.bar2 (off / 8 * 8), freeCtr := s.freeCtr + 1 } := by
  change execApertureAccess off false v s = _
  simp [execApertureAccess, State.bar2Access, here]

theorem apertureAccess_write {s : State} (off : Nat) (v : Word) (here : s.barOpen rDbgAperture = true) (free : s.heldHalf 0 = none) :
    exec (.apertureAccess off true v) s = .next (s.bar2Write (off / 8 * 8) v) := by
  change execApertureAccess off true v s = _
  have held : s.releaseHalf 0 = s := State.releaseHalf_of_none (r := 0) free
  simp [execApertureAccess, State.bar2Access, here, held]

/-- Settles O43: the counters by the frame and the contents of one unit's command, each other row by its guard. -/
theorem countersAndDebugCommandsComplete : Obligations.CountersAndDebugCommandsComplete := by
  unfold Obligations.CountersAndDebugCommandsComplete
  refine ⟨fun s u m open_ here => counterCommands_effect open_ here, fun s => ⟨fun v here => if_pos here,
    fun u l r t first own w taken => ⟨eventRecordAccept_quiet first own taken, eventRecordAccept_offered first own taken⟩,
    fun f h => rfl, fun u r traced => ⟨traceRecord_collected traced, traceRecord_lost traced⟩, fun v here => ⟨fun shut => ?_,
    fun unlocked valid kind => ?_⟩, fun off v here => ⟨apertureAccess_read off v here, apertureAccess_write off v here⟩⟩⟩
  · rw [errorInject_next here, State.tstInject_refused v shut]
  · rw [errorInject_next here, State.tstInject_armed unlocked valid kind]

end Sys2Proof.Machine
end


section
/-! SUPPORT. Self tests, firmware images and the records of result digests (R389, R434, R446, R456, R461, R462). -/

namespace Sys2Proof.Machine

/-! ## What the reads of lines leave of the partitions -/

theorem State.Reported.parts {s t : State} (same : s.Reported t) : t.parts = s.parts := by rw [same.1]

theorem State.setStk_parts (s : State) (st : Nat) (k : StackSt) : (s.setStk st k).parts = s.parts := rfl

theorem State.perf_parts (s : State) (unit ev n : Nat) : (s.perf unit ev n).parts = s.parts := (s.perf_reported unit ev n).parts

theorem State.emit_parts (s : State) (unit kind d0 d1 : Nat) (part : Option Nat) (ctx : Nat) (superseded : Bool) :
    (s.emit unit kind d0 d1 part ctx superseded).parts = s.parts := (s.emit_reported unit kind d0 d1 part ctx superseded).parts

theorem State.wakeLine_parts (s : State) (st off : Nat) (write : Bool) : (s.wakeLine st off write).1.parts = s.parts := by
  unfold State.wakeLine
  dsimp only
  split
  · rfl
  iterate 3
    split
    · rfl
    · split
      · rfl
      · rw [State.perf_parts, State.setStk_parts]
  · rfl

theorem State.injectEcc_parts (s : State) (unit : Nat) (kinds : List Nat) (a : Nat) (e : Ecc) :
    (s.injectEcc unit kinds a e).2.parts = s.parts := by
  change (s.injected unit kinds).2.parts = s.parts
  unfold State.injected
  split
  · split <;> rfl
  · rfl

theorem State.lineUnc_parts (s : State) (st off : Nat) (part : Option Nat) (ctx : Nat) : (s.lineUnc st off part ctx).parts = s.parts := by
  unfold State.lineUnc
  dsimp only
  rw [State.emit_parts, State.emit_parts, State.setStk_parts]

theorem State.lineTag_parts (s : State) (st off : Nat) (part : Option Nat) (ctx : Nat) : (s.lineTag st off part ctx).parts = s.parts := by
  unfold State.lineTag
  dsimp only
  rw [State.emit_parts, State.setStk_parts]

theorem State.lineCor_parts (s : State) (st off : Nat) : (s.lineCor st off).parts = s.parts := by
  unfold State.lineCor
  dsimp only
  split
  · rw [State.emit_parts, State.perf_parts, State.setStk_parts]
  · rw [State.perf_parts, State.setStk_parts]

theorem State.heldLine_parts (s : State) (st off : Nat) (part : Option Nat) (ctx : Nat) : (s.heldLine st off part ctx).1.parts = s.parts := by
  unfold State.heldLine
  split
  · exact s.lineUnc_parts st off part ctx
  · exact s.lineTag_parts st off part ctx
  · rfl

theorem State.checkLine_parts (s : State) (st off : Nat) (part : Option Nat) (ctx : Nat) (e : Ecc) :
    (s.checkLine st off part ctx e).1.parts = s.parts := by
  have met := s.injectEcc_parts (stkUnit st) [4, 5, 6] (stackAddr st off) e
  unfold State.checkLine
  dsimp only
  generalize s.injectEcc (stkUnit st) [4, 5, 6] (stackAddr st off) e = i at met ⊢
  split
  · split
    · exact (i.2.lineUnc_parts st off part ctx).trans met
    · exact (i.2.heldLine_parts st off part ctx).trans met
  · split
    · exact (i.2.lineTag_parts st off part ctx).trans met
    · exact (i.2.heldLine_parts st off part ctx).trans met
  · split
    · exact (i.2.lineCor_parts st off).trans met
    · exact (i.2.heldLine_parts st off part ctx).trans met
  · exact (i.2.heldLine_parts st off part ctx).trans met

theorem State.readLine_parts (s : State) (st off : Nat) (part : Option Nat) (ctx : Nat) (e : Ecc) :
    (s.readLine st off part ctx e).1.parts = s.parts := by
  unfold State.readLine
  dsimp only
  split
  · exact s.wakeLine_parts st off false
  · exact (State.checkLine_parts _ _ _ _ _ _).trans (s.wakeLine_parts st off false)

theorem State.readLines_parts (s : State) (part : Option Nat) (ctx : Nat) (e : Ecc) (ls : List Nat) :
    (s.readLines part ctx e ls).1.parts = s.parts := by
  induction ls generalizing s with
  | nil => rfl
  | cons l ls ih =>
    rw [State.readLines]
    split
    · exact (ih _).trans (s.readLine_parts _ _ _ _ _)
    · exact s.readLine_parts _ _ _ _ _

theorem State.portLines_parts (s : State) (ev : Nat) (ls : List Nat) : (s.portLines ev ls).parts = s.parts := by
  have keeps (t : State) (x : Nat × Nat) : (t.perf (stkUnit x.1) ev x.2).parts = t.parts := t.perf_parts _ _ _
  unfold State.portLines
  exact State.foldl_parts keeps _ s

/-! ## Whether an interface is LOCKED -/

theorem State.locked_of_parts {s t : State} (same : t.parts = s.parts) (p : Nat) : t.locked p = s.locked p := by
  rw [State.locked, State.locked, State.part, State.part, same]

theorem State.setCtx_locked (s : State) (p h : Nat) (x : Option CtxSt) (q : Nat) : (s.setCtx p h x).locked q = s.locked q := by
  by_cases other : p = q
  · subst other
    change decide ((State.part (s.setPart p _) p).tdi = 1) = decide ((s.part p).tdi = 1)
    rw [State.setPart_same]
  · exact congrArg (fun k : PartSt => decide (k.tdi = 1)) (SMap.get_set_other _ _ other)

theorem State.charge_locked (s : State) (p h : Nat) (c : Charges) (q : Nat) : (s.charge p h c).locked q = s.locked q := by
  unfold State.charge State.updCtx
  split
  · exact s.setCtx_locked p h _ q
  · rfl

theorem State.freeCtr_locked (s : State) (n q : Nat) : ({ s with freeCtr := n } : State).locked q = s.locked q := rfl

/-! ## Output ranges (R461) -/

theorem State.readRanges_sameMemories (s : State) (n : Nat) (f : FlightSt) (rs : List (Nat × Bool × Nat)) :
    s.SameMemories (s.readRanges n f rs).1 := State.readRanges_keeps s.sameMemories_stable ⟨rfl, rfl⟩

/-- A read of ranges that meets no error leaves every interface as it was. -/
theorem State.readRanges_locked {s v : State} {n : Nat} {f : FlightSt} {rs : List (Nat × Bool × Nat)} {out : List Byte}
    (read : s.readRanges n f rs = (v, some out)) (q : Nat) : v.locked q = s.locked q := by
  have lines := (State.portLines_parts _ 0x02 (rangeLines rs)).trans (s.readLines_parts (some f.part) f.ctx .ok (rangeLines rs))
  unfold State.readRanges at read
  dsimp only at read
  split at read
  · simp at read
  · simp at read
  · rw [← (Prod.mk.inj read).1, State.freeCtr_locked, State.charge_locked, State.locked_of_parts lines]

/-! ## Where a record goes (R216, R462) -/

/-- The host memory is that of a state. -/
def State.SameHost (s t : State) : Prop := t.host = s.host

theorem State.sameHost_stable (s : State) : Stable s.SameHost := fun _ _ _ _ host same => host.trans same

/-- A write to stack memory leaves host memory. -/
theorem State.putStack_sameHost (s : State) (a : Nat) (data : List Byte) (part : Option Nat) : s.SameHost (s.putStack a data part) := by
  unfold State.putStack
  split
  · rfl
  · have arrives : s.SameHost ((linesOf a data.length).foldl (fun t l => t.putArrives l) s) :=
      List.foldl_keeps rfl fun t l same => State.putArrives_keeps s.sameHost_stable same
    have held := List.foldl_keeps (l := s.putRefused a data.length) arrives
      fun t l same => State.heldLine_keeps (st := l / stackBytes) (off := l % stackBytes) (part := part) (ctx := 0) s.sameHost_stable same
    exact State.portLines_keeps s.sameHost_stable (State.linesWritten_keeps s.sameHost_stable held)

theorem State.charge_sameMemories (s : State) (p h : Nat) (c : Charges) : s.SameMemories (s.charge p h c) :=
  State.charge_keeps s.sameMemories_stable ⟨rfl, rfl⟩

/-- A write to host memory for a partition whose interface is not LOCKED. -/
theorem State.hostPut_memories {s : State} {p : Nat} (a : Nat) (data : List Byte) (h : Nat) (unlocked : s.locked p = false) :
    (s.hostPut a data p h).host = Memory.writeN s.host a data ∧ (s.hostPut a data p h).mem = s.mem := by
  have written : s.hostFor p a data = s.setHost (Memory.writeN s.host a data) := by
    rw [State.hostFor, unlocked]
    exact if_neg Bool.false_ne_true
  obtain ⟨mem, host⟩ := (s.setHost (Memory.writeN s.host a data)).charge_sameMemories p h { pcieB := data.length }
  rw [State.hostPut, written]
  exact ⟨host, mem⟩

/-! ## Result digests (R461, R462) -/

/-- The digests of a flight are done. -/
def State.closeDigests (s : State) (n : Nat) : State :=
  { s with sec := { s.sec with digests := s.sec.digests.map fun y => if y.flight = n then { y with done := true } else y } }

section
variable {s v : State} {n : Nat} {d : DigestSt} {f : FlightSt} (due : (s.sec.digests.find? fun d => decide (d.flight = n) && !d.done) = some d)
  (flight : s.flight n = some f) (ended : f.endStatus.isSome = true)
include due flight

theorem resultDigestComplete_waits (locked : s.locked f.part = true) (inHost : (d.outs.any fun x => x.2.1) = true) :
    exec (.resultDigestComplete n) s = .next s := by
  change execResultDigestComplete n s = _
  simp only [execResultDigestComplete, due, flight]
  exact if_pos (.inr ⟨locked, inHost⟩)

include ended

theorem resultDigestComplete_failed (unlocked : s.locked f.part = false) (read : s.readRanges n f d.outs = (v, none)) :
    exec (.resultDigestComplete n) s = .next (v.closeDigests n) := by
  change execResultDigestComplete n s = _
  simp only [execResultDigestComplete, due, flight, read]
  rw [if_neg (by simp [unlocked, Option.ne_none_iff_isSome.mpr ended])]
  rfl

theorem resultDigestComplete_read {out rec_ : List Byte} (unlocked : s.locked f.part = false)
    (read : s.readRanges n f d.outs = (v, some out))
    (record : rec_ = digestRecord (digestBody s.sec.approved s.tickNo n f d.input (Config.shake256 out))) :
    exec (.resultDigestComplete n) s = .next (State.closeDigests (if d.inHost then v.hostPut d.host rec_ f.part f.ctx
      else (v.putStack d.host rec_ (some f.part)).charge f.part f.ctx { stackB := 64 * (linesOf d.host 576).length }) n) := by
  change execResultDigestComplete n s = _
  simp only [execResultDigestComplete, due, flight, read, ← record]
  rw [if_neg (by simp [unlocked, Option.ne_none_iff_isSome.mpr ended])]
  rfl

end

/-! ## Self tests (R389, R434, R456) -/

theorem firmwareRemeasure_due {s : State} {f : FwImage} (image : List Byte) (on : s.secOn = true) (free : s.sec.parked = false)
    (due : s.sec.lastMeasure + 65536 ≤ s.tickNo.toNat) (runs : s.firmware = some f) :
    exec (.firmwareRemeasure image) s = if f.image = image then .next { s with sec := { s.sec with lastMeasure := s.tickNo.toNat } }
      else .next (s.landing4 242 0x2A) := by
  change execFirmwareRemeasure image s = _
  unfold execFirmwareRemeasure
  rw [if_neg (by simp [on, free, due]), runs]

theorem State.selfTest_passed (s : State) : s.selfTest true = s := rfl

theorem State.selfTest_failed {s : State} (on : s.secOn = true) : s.selfTest false = s.cryptoError := by
  simp [State.selfTest, on]

theorem jormirSelfCheck_failed {s : State} (up : s.jormirUp = true) : exec (.jormirSelfCheck false) s = .next (s.park 0x02) := by
  change execJormirSelfCheck false s = _
  simp [execJormirSelfCheck, up]

/-! ## Firmware images (R446, R457) -/

theorem State.signedOk_iff {s : State} {image sig : List Byte} :
    s.signedOk image sig = true ↔ ∃ k ∈ s.sec.record.fwKeys, Config.ed448Verify k image sig = true := List.any_eq_true

section
variable {s u : State} {image sig : List Byte} {v : BitVec 32} (woken : u = s.wake 5) (on : u.secOn = true)
include woken on

section
variable {c : BitVec 16} (component : c = 1 ∨ c = 2)
include component

/-- A signed image of Jormir or of the runtime firmware. -/
theorem pldmFirmwareUpdate_image : exec (.pldmFirmwareUpdate c v image sig) s =
    if u.imageOk c.toNat v.toNat image sig then
      .next (if Config.raisesMinimum image then
          (u.stageImage { component := c.toNat, version := v.toNat, image := image }).commitRecord fun r =>
            if c.toNat = 1 then { r with minJormir := v.toNat } else { r with minRuntime := v.toNat }
        else u.stageImage { component := c.toNat, version := v.toNat, image := image })
    else .next u := by
  have listed : c.toNat = 1 ∨ c.toNat = 2 := component.imp (congrArg BitVec.toNat) (congrArg BitVec.toNat)
  change execPldmFirmwareUpdate c v image sig s = _
  unfold execPldmFirmwareUpdate
  dsimp only
  rw [← woken, if_neg (by simp [on]), if_pos listed]

end

/-- A signed update of the configuration record. -/
theorem pldmFirmwareUpdate_record : exec (.pldmFirmwareUpdate 3 v image sig) s =
    if u.signedOk image sig then .next (u.commitRecord fun r => r.update image) else .next u := by
  change execPldmFirmwareUpdate 3 v image sig s = _
  unfold execPldmFirmwareUpdate
  dsimp only
  rw [← woken, if_neg (by simp [on]), if_neg (by decide)]
  simp

theorem firmwareActivate_staged {c : BitVec 16} (staged : (u.sec.images.any fun y => y.component = c.toNat && !y.active) = true) :
    exec (.firmwareActivate c) s = if c.toNat = 2 then .next ((u.activate 2).landing4 241 0x2A) else .next (u.activate c.toNat) := by
  change execFirmwareActivate c s = _
  unfold execFirmwareActivate
  dsimp only
  rw [← woken, if_neg (by simp [on, staged])]

end

/-- Settles O45: each row by its guard; the digest's record by what the reads of its ranges leave of the memories and the interface. -/
theorem selfTestsUpdatesAndDigestsComplete : Obligations.SelfTestsUpdatesAndDigestsComplete := by
  unfold Obligations.SelfTestsUpdatesAndDigestsComplete
  refine ⟨fun s => ⟨fun f image on free due runs => ?_, rfl, rfl, rfl, fun on => ?_, jormirSelfCheck_failed⟩, fun s u woken =>
    ⟨fun v image sig c on component => ?_, fun v image sig on => ?_, fun c on staged => ?_, fun n d f v w close due flight ended same => ?_⟩⟩
  · rw [firmwareRemeasure_due image on free due runs]
    exact ⟨fun running => if_pos running, fun other => if_neg other⟩
  · have failed := State.selfTest_failed on
    exact ⟨congrArg _ failed, congrArg _ failed⟩
  · rw [pldmFirmwareUpdate_image woken on component]
    exact ⟨fun ok calm => by rw [if_pos ok, calm]; rfl, fun ok raises => by rw [if_pos ok, if_pos raises],
      fun bad => by rw [bad]; rfl⟩
  · rw [pldmFirmwareUpdate_record woken on]
    refine ⟨fun signed => if_pos (State.signedOk_iff.mpr signed), fun unsigned => if_neg fun signed => ?_⟩
    obtain ⟨k, mem, verified⟩ := State.signedOk_iff.mp signed
    exact Bool.false_ne_true ((unsigned k mem).symm.trans verified)
  · rw [firmwareActivate_staged woken on staged]
    refine ⟨fun two => if_pos (congrArg BitVec.toNat two), fun other => if_neg fun two => other (BitVec.eq_of_toNat_eq two)⟩
  · obtain rfl : close = fun x => x.closeDigests n := same
    refine ⟨resultDigestComplete_waits due flight, resultDigestComplete_failed due flight ended,
      fun unlocked out rec_ read record => ⟨fun inHost => ?_, fun inStack written => ?_⟩⟩
    · have kept := s.readRanges_sameMemories n f d.outs
      rw [read] at kept
      obtain ⟨host, mem⟩ := v.hostPut_memories d.host rec_ f.ctx ((State.readRanges_locked read f.part).trans unlocked)
      refine ⟨_, ?_, rfl, host.trans (by rw [kept.2]), mem.trans kept.1⟩
      rw [resultDigestComplete_read due flight ended unlocked read record, if_pos inHost]
    · have kept := s.readRanges_sameMemories n f d.outs
      rw [read] at kept
      refine ⟨?_, ?_⟩
      · rw [resultDigestComplete_read due flight ended unlocked read record, inStack, written]
        rfl
      · rw [written]
        exact ((State.charge_sameMemories _ _ _ _).2.trans (v.putStack_sameHost d.host rec_ (some f.part))).trans kept.2

end Sys2Proof.Machine
end
